-- ==== Sys2Proof/Word.lean ====
section
/-! DEFINITION. The word types of the module and the sparse store its state is made of. -/

namespace Sys2Proof

/-- One byte of a frame, a payload or a stored record. -/
abbrev Byte := BitVec 8

/-- One setup register, one point value, one descriptor word: 32 bits (R11, R518). -/
abbrev Word := BitVec 32

/-- A sparse store: the entries that differ from what an unlisted key reads as, by rising key. -/
abbrev Tab (α : Type) := List (Nat × α)

end Sys2Proof
end

