-- ==== Sys2Proof/Syntax.lean ====
section
/-! DEFINITION. The commands of the module, one constructor for each row of the table of operations and events, with the
data each brings from outside. -/

namespace Sys2Proof

/-- Where a register access of the host, or of the secure supervisor, goes. -/
inductive Target where
  /-- BAR0, from the host. -/
  | bar0
  /-- BAR2, from the host: the doorbell pages. -/
  | bar2
  /-- The function's configuration space. -/
  | config
  /-- BAR0 offsets, from the secure supervisor (R683). -/
  | secure
  deriving DecidableEq, Repr

/-- What SECDED finds in the memory a step works on (R569, R571): nothing, a corrected error, or one it cannot correct. -/
inductive Ecc where
  | clean
  | corrected
  | uncorrectable
  deriving DecidableEq, Repr

/-- A partner that answers negotiation (R466, R467): 0 starting, 1 holding the ball, 2 standby; its cycle number, its range of
Twinlink versions, its features and its firmware release. -/
structure PartnerEnv where
  state : Fin 3
  cycle : BitVec 48
  verMin : Nat
  verMax : Nat
  features : BitVec 8
  release : BitVec 16
  deriving DecidableEq, Repr

/-- Network time that a port's slave has locked while start-up waits for the clock (R84, R617): the port and its speed, the
master's identity and dataset, its grandmaster, its announce interval and UTC offset, the network time, the rate and the delay. -/
structure NetEnv where
  port : Fin 2
  speed : Fin 4
  master : Nat
  gm : Nat
  data : List Nat
  ival : Nat
  utc : BitVec 16
  utcValid : Bool
  ns : Nat
  rate : Int
  delay : Nat
  deriving DecidableEq, Repr

/-- What the start-up steps find (R147). -/
structure StartEnv where
  /-- PUF reconstruction succeeds (R694), and the entropy source passes its start-up tests (R710). -/
  pufGood : Bool
  entropyGood : Bool
  /-- What the cell measures at step 1 (R665). -/
  cell : BitVec 10
  /-- Slots of the recorder whose record is damaged (R677). -/
  badRecords : List (Fin 32768)
  /-- Key slots whose selected record is damaged (R708). -/
  damagedKeys : List Nat
  /-- A copied image fails verification (R735), and firmware banks 0 and 1 do (R147 step 2). -/
  copyBad : Bool
  fw0Bad : Bool
  fw1Bad : Bool
  /-- What reads whole at step 3: settings, both retained copies, the two parts of the loop-state area, the force table, and
  both copies of the program store. -/
  settingsGood : Bool
  retAGood : Bool
  retBGood : Bool
  loopsGood : Bool
  satGood : Bool
  forcesGood : Bool
  store0Good : Bool
  store1Good : Bool
  /-- Banks that link up at step 4, bit b for bank b. -/
  banksUp : BitVec 12
  /-- The clock reached LOCKED at step 5 (else R84); the frequency, in 0.1 mHz, of the reference's latest valid status frame,
  0 for none; and network time where it is locked by then (R84). -/
  locked : Bool
  refFreq : Nat
  net : Option NetEnv
  /-- The partner found at step 6. -/
  partner : Option PartnerEnv
  deriving DecidableEq, Repr

/-- One item of a state frame or a full copy (R471, R469). -/
inductive CopyItem where
  /-- An instance data word by its index, and a program variable by its point. -/
  | data (k : Nat) (v : Word)
  | var (point : Nat) (v : Word)
  /-- A loop's words of R355, H_LAST and STATUS (R357). -/
  | loop (n : Nat) (mode sp man i yf uach : Word) (hlast : Nat) (status : Word) (gen : Nat) (satTot satCnt : Word) (init : Bool)
  /-- A committed output channel, and a remote station's output image. -/
  | output (ch : Nat) (v : Word)
  | rio (station : Nat) (words : List Word)
  /-- A field input's value and diagnostic word, and a counting input's latched count. -/
  | input (ch : Nat) (v diag : Word)
  | count (ch : Nat) (v : Word) (ts : Nat)
  /-- A force set or changed, one released, and the emptying of the table before a full copy. -/
  | force (kind obj pin typ : Nat) (val : Word) (part ts : Nat)
  | unforce (kind obj pin : Nat)
  | forceClear
  /-- The highest committed sequence number of an enabled command pair. -/
  | ring (n : Nat) (seq : Word)
  /-- Save sequence number and checksum of the latest retain save. -/
  | retain (seq crc : Word)
  /-- The live words of a mirrored block with its generation. -/
  | mirror (blk gen : Nat) (words : List (Nat × Word))
  /-- The controller runs, or its stop cause. -/
  | ctl (running : Bool) (cause : Nat)
  /-- A piece of an image for the inactive bank: the image's length, the piece's offset and its bytes (R446). -/
  | image (len ofs : Nat) (bytes : List Nat)
  /-- The digest of the image a switch made active, and the instance data it was filled with (R447). -/
  | switched (digest : List Nat) (words : List Word)
  /-- The active image (R469). -/
  | active (bytes : List Nat)
  /-- The retain area's latest copy (R469). -/
  | retainCopy (seq : Word) (id : List Nat) (count optime : Nat) (words : List Word)
  deriving DecidableEq, Repr


/-- What the cartridge has sampled over one cycle of the reference source (R280). -/
structure CycleMeas where
  /-- Length of the cycle by the cartridge's crystal, in nanoseconds. -/
  ns : Nat
  /-- The reference's measured fundamental in 0.1 mHz. -/
  freq : Nat
  /-- The 256 samples of V1, V2 and V3, in mV; a sample not given is 0. -/
  v : List (List Int)
  /-- Current inputs and their 256 samples of the sensor's output, in microvolts. -/
  i : List (Nat × List Int)
  deriving DecidableEq, Repr

/-- A descriptor as a host lays it out (R518), its opcode apart: word 0 from bit 8 up, the words that follow, and its payload
without the CRC. Both CRCs are those that make it pass. -/
structure Desc where
  flags : BitVec 24
  seq : Word
  target : Word
  w3 : Word
  par : List Word
  addr : BitVec 64
  len : Word
  payload : List Word
  deriving DecidableEq, Repr

/-- A command: an operation or an event of the table. -/
inductive Instr where
  /-- REGISTER_WRITE (R15): target, byte offset, width in bytes and value. -/
  | registerWrite (tgt : Target) (off width value : Nat)
  /-- LATCHED_READ (R12): a read of a register; target, byte offset and width in bytes. -/
  | latchedRead (tgt : Target) (off width : Nat)
  /-- SEATING_RECOGNISED (R35). -/
  | seatingRecognised
  /-- SEAT_LOSS (R36). -/
  | seatLoss
  /-- SLOT_CODE_CHANGE (R38): the new slot code. -/
  | slotCodeChange (code : Fin 4)
  /-- LOGIC_INPUT_GOOD (R47): input A, or B when true. -/
  | logicInputGood (b : Bool)
  /-- LOGIC_INPUT_LOST (R47): input A, or B when true. -/
  | logicInputLost (b : Bool)
  /-- PEER_SEAT_CHG (R73): PEER_SEAT now reads low when true. -/
  | peerSeatChg (present : Bool)
  /-- CART_CHG (R73): a cartridge is now present when true. -/
  | cartChg (present : Bool)
  /-- THERMAL_UPDATE (R72): INT_TEMP in 0.125 degrees and FIELD_DISS in 0.01 W. -/
  | thermalUpdate (temp diss : BitVec 12)
  /-- REFERENCE_MARKER (R74, R76): the measured frequency in 0.1 mHz, the sixteenths of a phase unit past the present one, and the
  phase units, with the sixteenths beyond, since the positive-going zero crossing of the source in use. -/
  | referenceMarker (freq : Nat) (frac : Fin 16) (since : Nat) (sub : Fin 16)
  /-- CYCLE_BOUNDARY (R82). -/
  | cycleBoundary
  /-- MISSING_MARKER (R83). -/
  | missingMarker
  /-- HOLDOVER_TIMEOUT (R85). -/
  | holdoverTimeout
  /-- STEP_CYCLE_END (R92): ended by a valid marker, or without one. -/
  | stepCycleEnd (marker : Bool)
  /-- BANK_CONVERT (R161): the schedule entry that fires. -/
  | bankConvert (entry : Fin 1024)
  /-- LCE_PASS (R331): the schedule entry that fires, and what SECDED finds in the loop states. -/
  | lcePass (entry : Fin 1024) (ecc : Ecc)
  /-- WAITING_PASS_START (R332). -/
  | waitingPassStart
  /-- BLE_TASK (R381): the schedule entry that fires, and how many blocks the running cycle has executed by then, and what SECDED finds in its memory. -/
  | bleTask (entry : Fin 1024) (executed : Nat) (ecc : Ecc)
  /-- TASK_CYCLE_RESUME (R384). -/
  | taskCycleResume
  /-- TASK_CYCLE_COMMIT (R382): the cycle's duration from dispatch to commit in 0.1 microseconds. -/
  | taskCycleCommit (time : Nat)
  /-- ZC_OUTPUT (R188): the schedule entry, or 1024 more than the ring of a timed action, and whether the timing frame and the
  repeat arrive whole. -/
  | zcOutput (entry : Fin 1088) (ok again : Bool)
  /-- ZC_SWITCH (R189): the bank. -/
  | zcSwitch (bank : Fin 12)
  /-- MTR_CLOSE (R292): the schedule entry that fires. -/
  | mtrClose (entry : Fin 1024)
  /-- TWN_SAMPLE (R471): the schedule entry that fires. -/
  | twnSample (entry : Fin 1024)
  /-- DEFAULT_SAMPLE (R464). -/
  | defaultSample
  /-- HOST_EVENT (R107): the schedule entry that fires. -/
  | hostEvent (entry : Fin 1024)
  /-- PHC_COMMIT (R111): the word written. -/
  | phcCommit (value : Word)
  /-- PHC_COMMIT_POINT (R111). -/
  | phcCommitPoint
  /-- TIMED_ACTION_FIRE (R118): the ring whose timed action fires. -/
  | timedActionFire (ring : Fin 64)
  /-- CLOCK_SOURCE_SWITCH (R125): the word written to CLK_SRC_SEL. -/
  | clockSourceSwitch (value : Word)
  /-- SWITCH_COMPLETE (R125): the domain. -/
  | switchComplete (dom : Fin 4)
  /-- FORCED_SWITCH (R127): the domain. -/
  | forcedSwitch (dom : Fin 4)
  /-- SOURCE_FAIL (R129): the source code. -/
  | sourceFail (src : Fin 9)
  /-- RESET_WAIT_EXIT (R131). -/
  | resetWaitExit
  /-- GATE_CLOSE (R135): the block's bit and whether its bus interface is idle. -/
  | gateClose (bit : Fin 20) (idle : Bool)
  /-- GATE_CLOSE_TIMEOUT (R135): the block's bit. -/
  | gateCloseTimeout (bit : Fin 20)
  /-- GATE_OPEN (R137): the block's bit. -/
  | gateOpen (bit : Fin 20)
  /-- SLEEP_WAKE (R133): the block's bit. -/
  | sleepWake (bit : Fin 20)
  /-- FM_START (R138): the word written to CLK_FM_CTRL. -/
  | fmStart (value : Word)
  /-- FM_DONE (R138): the edges counted. -/
  | fmDone (count : BitVec 64)
  /-- POWER_FAIL_WARNING (R144). -/
  | powerFailWarning
  /-- POWER_FAIL_RESTART (R145). -/
  | powerFailRestart
  /-- HOLDUP_END (R146): backup is present. -/
  | holdupEnd (backup : Bool)
  /-- START_UP (R147): what the steps find. -/
  | startUp (env : StartEnv)
  /-- PE_PERST (R151). -/
  | pePerst
  /-- SUP_WDOG_EXPIRY (R152). -/
  | supWdogExpiry
  /-- BANK_LINK_KEEPALIVE (R155): the bank, and whether the frame arrives whole. -/
  | bankLinkKeepalive (bank : Fin 12) (ok : Bool)
  /-- READING_FRAME (R235): the bank, whether the frame arrives whole, and sixteen readings of the bank's analogue channels: signal, or measured resistance, with the factory trim. -/
  | readingFrame (bank : Fin 12) (ok : Bool) (raw : List Word)
  /-- DIAGNOSTIC_FRAME (R155): the bank, whether the frame arrives whole, its temperature, supply voltage and current, and sixteen BNK_CH_MEAS values. -/
  | diagnosticFrame (bank : Fin 12) (ok : Bool) (temp : BitVec 8) (volt : BitVec 12) (curr : BitVec 13) (meas : List Word)
  /-- KEEP_ALIVE_FRAME (R155): the bank, whether it goes to the bank, and whether it arrives whole. -/
  | keepAliveFrame (bank : Fin 12) (toBank ok : Bool)
  /-- OUTPUT_FRAME (R162): the bank, whether the frame arrives whole, and the local channels whose value SECDED finds uncorrectable (R570). -/
  | outputFrame (bank : Fin 12) (ok : Bool) (poisoned : BitVec 16)
  /-- CONFIGURATION_FRAME (R167): the bank, and whether the frame arrives whole. -/
  | configurationFrame (bank : Fin 12) (ok : Bool)
  /-- LINK_DOWN (R158). -/
  | linkDown (bank : Fin 12)
  /-- BNK_COMMIT (R166): the bank and the word written. -/
  | bnkCommit (bank : Fin 12) (value : Word)
  /-- BANK_COMMIT_POINT (R166). -/
  | bankCommitPoint (bank : Fin 12)
  /-- PWM_PERIOD_START (R187): the channel. -/
  | pwmPeriodStart (ch : Fin 192)
  /-- SHORT_SHUTDOWN (R192): the channel. -/
  | shortShutdown (ch : Fin 192)
  /-- OVERLOAD_SHUTDOWN (R193): the channel. -/
  | overloadShutdown (ch : Fin 192)
  /-- OUTPUT_RETRY (R194): the channel. -/
  | outputRetry (ch : Fin 192)
  /-- FAULT_CLEAR (R195): the channel, and whether it has been on for 10 s rather than 1 s. -/
  | faultClear (ch : Fin 192) (long : Bool)
  /-- OPEN_WIRE_DETECT (R178): the channel, and whether P has stayed below 2.0 V rather than above 2.5 V. -/
  | openWireDetect (ch : Fin 192) (open_ : Bool)
  /-- OPEN_LOAD_DETECT (R197): the channel, and whether the condition holds rather than is absent. -/
  | openLoadDetect (ch : Fin 192) (open_ : Bool)
  /-- EXT_DRIVE_DETECT (R198): the channel, and whether the condition holds rather than is absent. -/
  | extDriveDetect (ch : Fin 192) (drive : Bool)
  /-- LOAD_SHED (R200): the bank, and the local channel that draws the most current. -/
  | loadShed (bank : Fin 12) (ch : Fin 16)
  /-- FIELD_SUPPLY_LOST (R201). -/
  | fieldSupplyLost (bank : Fin 12)
  /-- FIELD_SUPPLY_GOOD (R201). -/
  | fieldSupplyGood (bank : Fin 12)
  /-- BANK_CONTROLLER_RESET (R202). -/
  | bankControllerReset (bank : Fin 12)
  /-- BANK_START (R203). -/
  | bankStart (bank : Fin 12)
  /-- BANK_OVERTEMP (R204). -/
  | bankOvertemp (bank : Fin 12)
  /-- OVERTEMP_CLEARABLE (R204). -/
  | overtempClearable (bank : Fin 12)
  /-- BNK_SAFE_CMD (R205): the bank and the word written. -/
  | bnkSafeCmd (bank : Fin 12) (value : Word)
  /-- BNK_RELEASE (R207): the bank and the word written. -/
  | bnkRelease (bank : Fin 12) (value : Word)
  /-- BANK_WATCHDOG_EXPIRY (R212). -/
  | bankWatchdogExpiry (bank : Fin 12)
  /-- DIAG_LATCH_REPORT (R220): the channel whose 100 ms end. -/
  | diagLatchReport (ch : Fin 192)
  /-- COMPLIANCE_CHANGE (R230): the channel, and whether the shortfall has held rather than ended. -/
  | complianceChange (ch : Fin 192) (short : Bool)
  /-- VOLTAGE_OUTPUT_SHORT (R253): the channel, and whether the limit has held rather than been absent. -/
  | voltageOutputShort (ch : Fin 192) (short : Bool)
  /-- INPUT_SAMPLE (R175): the channel and the voltage between P and M in millivolts. -/
  | inputSample (ch : Fin 192) (mv : Nat)
  /-- COUNT_PATH_SAMPLE (R179): the channel and the voltage between P and M in millivolts. -/
  | countPathSample (ch : Fin 192) (mv : Nat)
  /-- CURRENT_OUTPUT_OPEN (R253): the channel, and whether the delivered current has stayed below 0.2 mA rather than above 0.5 mA. -/
  | currentOutputOpen (ch : Fin 192) (open_ : Bool)
  /-- HOLDUP_FULL (R142). -/
  | holdupFull
  /-- SOURCE_GOOD (R129): the source code. -/
  | sourceGood (src : Fin 9)
  /-- PE_PERST_RELEASE (R150). -/
  | pePerstRelease
  /-- LCE_COMMIT (R358): the word written. -/
  | lceCommit (value : Word)
  /-- LCE_BUILD_COMPLETE (R358). -/
  | lceBuildComplete
  /-- SATURATION_SAVE (R355). -/
  | saturationSave
  /-- RETAIN_SAVE_DONE (R394). -/
  | retainSaveDone
  /-- PROGRAM_STORE_WRITE_DONE (R380). -/
  | programStoreWriteDone
  /-- ONLINE_BUILD_COMPLETE (R425). -/
  | onlineBuildComplete
  /-- ONLINE_SWITCH (R430): the index of an instance whose carried words are found poisoned, if any (R431). -/
  | onlineSwitch (poisoned : Option Nat)
  /-- NO_WINDOW (R429). -/
  | noWindow
  /-- CAN_PORT_ENABLE (R630): the port, and the word written to CAN_P_CTRL, its EN taken as 1. -/
  | canPortEnable (port : Fin 4) (value : Word)
  /-- CAN_PORT_DISABLE (R630): the port, and the word written to CAN_P_CTRL, its EN taken as 0. -/
  | canPortDisable (port : Fin 4) (value : Word)
  /-- CAN_BUFFER_ENABLE (R631): port, buffer, and the word written to CAN_B_CTRL. -/
  | canBufferEnable (port : Fin 4) (buf : Fin 64) (value : Word)
  /-- CAN_MAP_ENABLE (R643): the map entry, and the word written to CAN_M_CTRL. -/
  | canMapEnable (entry : Fin 256) (value : Word)
  /-- CAN_FRAME_RECEIVED (R632): a valid frame: port, identifier, its format bits, whether it is a remote frame, and its data. -/
  | canFrameReceived (port : Fin 4) (id : BitVec 29) (ide fdf brs remote : Bool) (bytes : List Nat)
  /-- CAN_TRANSMIT_END (R636): port, buffer, and the cause of a failed attempt; 0 for a frame sent. -/
  | canTransmitEnd (port : Fin 4) (buf : Fin 64) (cause : Fin 4)
  /-- CAN_ERROR_STATE_CHANGE (R637): the port and its new transmit and receive error counters. -/
  | canErrorStateChange (port : Fin 4) (tec rec_ : Nat)
  /-- CAN_RECOVER_CMD (R638). -/
  | canRecoverCmd (port : Fin 4)
  /-- CAN_RECOVERED (R638). -/
  | canRecovered (port : Fin 4)
  /-- CAN_BALL_TAKEN (R642): the port whose 11 recessive bits have passed. -/
  | canBallTaken (port : Fin 4)
  /-- MAPPED_TX (R646): the port and the buffer whose turn falls due. -/
  | mappedTx (port : Fin 4) (buf : Fin 64)
  /-- CAN_RX_STALE (R633): the port and the buffer. -/
  | canRxStale (port : Fin 4) (buf : Fin 64)
  /-- BALL_REQUEST (R459): whether the other slot requests in the same instant. -/
  | ballRequest (tie : Bool)
  /-- HOLD_LINE_CHANGE (R460): the level HOLD_IN takes. -/
  | holdLineChange (level : Bool)
  /-- LEASE_EXPIRY (R463). -/
  | leaseExpiry
  /-- STATE_FRAME_RX (R473): whether its check passes, its sequence number, timestamp and half-cycle number, the holder's health, the boundary it names with its cause, whether it is the final frame, whether it was cut, the digest of the holder's active image, this module's lag behind the holder's boundaries in 1/16 phase unit, and its content. -/
  | stateFrameRx (ok : Bool) (seq : Word) (ts half : Nat) (health : BitVec 16) (plan : Option (Nat × Nat)) (final excess : Bool) (digest : List Nat) (lag : Int) (items : List CopyItem)
  /-- RALLY_FRAME_RX (R477): whether its check passes, the standby's pair state with its reason, its health, whether it asks for a full copy and for the ball, and the digest of its inactive image. -/
  | rallyFrameRx (ok : Bool) (pair : Fin 8 × Fin 16) (health : BitVec 16) (copy back : Bool) (digest : List Nat)
  /-- TWINLINK_CHECK (R474). -/
  | twinlinkCheck
  /-- TWINLINK_LINK_DOWN (R30): Twinlink now carries a signal, or none. -/
  | twinlinkLinkDown (up : Bool)
  /-- HEARTBEAT_SEND (R475). -/
  | heartbeatSend
  /-- HEARTBEAT_RX (R606): the port, whether CRC and length are right, the version fields, PAIR_ID, slot code, SEQ, for a NEGOTIATE frame the sender's lowest and highest Twinlink versions and its feature bitmap (R467), the role it shows (0 starting, 1 holding the ball, 2 standby), and the sender's health. -/
  | heartbeatRx (port : Fin 2) (ok : Bool) (ver verMin verMax : Nat) (pairId : BitVec 16) (slot : Fin 4) (seq : Word) (negotiate : Option (Nat × Nat × BitVec 8)) (role : Fin 3) (health : BitVec 16)
  /-- FIELDLINK_MISS (R475). -/
  | fieldlinkMiss
  /-- FULL_COPY_REQUEST (R469). -/
  | fullCopyRequest
  /-- FULL_COPY_COMPLETE (R469): what the copy carried. -/
  | fullCopyComplete (items : List CopyItem)
  /-- SELF_TEST (R480): the health bit of the test, whether it is found to fail, where an uncorrectable error lies (0 memory of the program or elsewhere, 1 the inactive image bank, 2 a staged update chunk), and the chunk, or the channel whose converter was tested. -/
  | selfTest (bit : Fin 7) (fail : Bool) (place : Fin 3) (chunk : Nat)
  /-- PLANNED_HANDOFF_BOUNDARY (R490). -/
  | plannedHandoffBoundary
  /-- HANDOFF_FAIL (R492). -/
  | handoffFail
  /-- TAKEBACK (R493). -/
  | takeback
  /-- SENSE_PATH_OPEN (R485). -/
  | sensePathOpen
  /-- PORT_LINK_UP (R583): the port and its speed: 1 10 Mb/s, 2 100 Mb/s, 3 1000 Mb/s. -/
  | portLinkUp (port : Fin 2) (speed : Fin 4)
  /-- PORT_LINK_DOWN (R583). -/
  | portLinkDown (port : Fin 2)
  /-- FRAME_RECEIVED (R593): the port, the bytes without the FCS, whether that is good, and the ingress timestamp in 2^-16 ns. -/
  | frameReceived (port : Fin 2) (bytes : List Nat) (fcs : Bool) (ingress : Nat)
  /-- FRAME_TRANSMIT_END (R587): the port, and the egress timestamp in 2^-16 ns. -/
  | frameTransmitEnd (port : Fin 2) (egress : Nat)
  /-- ADDRESS_AGE_OUT (R584): the address and its VLAN identifier. -/
  | addressAgeOut (mac : BitVec 48) (vid : BitVec 12)
  /-- LPI_ENTRY (R599): both ends agree on low-power idle. -/
  | lpiEntry (port : Fin 2)
  /-- SPEED_STEP_DOWN (R600). -/
  | speedStepDown (port : Fin 2)
  /-- SPEED_STEP_UP (R600). -/
  | speedStepUp (port : Fin 2)
  /-- FILTER_APPLY (R591): port, filter, and the word written to FILT_CTRL. -/
  | filterApply (port : Fin 2) (filter : Fin 32) (value : Word)
  /-- ANNOUNCE_RX (R615): port, domain, the sender's port identity, the dataset compared (the smaller the better, most significant first), the grandmaster, the announce interval in ns, currentUtcOffset and its validity. -/
  | announceRx (port : Fin 2) (dom id : Nat) (data : List Nat) (gm ival : Nat) (utc : BitVec 16) (utcValid : Bool)
  /-- SYNC_RX (R616): port, domain, sender, sequence with the Sync interval in ns, whether two-step, origin timestamp and correction
  in ns. -/
  | syncRx (port : Fin 2) (dom id : Nat) (seq : BitVec 16 × Nat) (twoStep : Bool) (t1 corr : Int)
  /-- FOLLOW_UP_RX (R613): port, domain, sender, sequence, precise origin timestamp and correction in ns. -/
  | followUpRx (port : Fin 2) (dom id : Nat) (seq : BitVec 16) (t1 corr : Int)
  /-- DELAY_RESP_RX (R616): port, domain, sender, sequence, receive timestamp and correction in ns. -/
  | delayRespRx (port : Fin 2) (dom id : Nat) (seq : BitVec 16) (t4 corr : Int)
  /-- DELAY_REQ_SEND (R614). -/
  | delayReqSend
  /-- MASTER_LOST (R615). -/
  | masterLost
  /-- STATION_REQ (R608): the station. -/
  | stationReq (station : Fin 32)
  /-- STATION_RSP (R609): whether CRC and length are right, the version fields, PAIR_ID, station number, source address, SEQ, station status and input image. -/
  | stationRsp (ok : Bool) (ver verMin verMax : Nat) (pairId : BitVec 16) (station : Fin 256) (mac : BitVec 48) (seq status : Word) (words : List Word)
  /-- STATION_TIMEOUT (R418). -/
  | stationTimeout (station : Fin 32)
  /-- STATION_ENABLE (R607): the station, and the word written to ETH_RIO_CTRL. -/
  | stationEnable (station : Fin 32) (value : Word)
  /-- STEP_LOCK_END (R601). -/
  | stepLockEnd (port : Fin 2)
  /-- SEAL_CHANGE (R265): the seal now reads open, or closed. -/
  | sealChange (open_ : Bool)
  /-- CARTRIDGE_RUN (R271): version and check identifier as MTR_SW_VER holds them, and the save slots whose CRC is right. -/
  | cartridgeRun (sw : Word) (slots : BitVec 16)
  /-- CARTRIDGE_CYCLE (R281): what the cycle measured. -/
  | cartridgeCycle (m : CycleMeas)
  /-- CLOSE_STROBE (R293): the oldest strobe sent arrives; a cartridge cycle boundary lies at most 512 phase units before it. -/
  | closeStrobe (after : Bool)
  /-- AUTO_CLOSE (R295): the demand set. -/
  | autoClose (set : Fin 8)
  /-- TEMPERATURE_READING (R286): the temperature in 0.1 degrees, two's complement. -/
  | temperatureReading (temp : BitVec 12)
  /-- PULSE_OUTPUT (R300): the output, 8 the MTR indicator, and whether it begins to conduct. -/
  | pulseOutput (output : Fin 9) (on : Bool)
  /-- PERIODIC_SAVE (R304). -/
  | periodicSave
  /-- SUPPLY_LOSS (R305). -/
  | supplyLoss
  /-- CARTRIDGE_SUPPLY_DIP (R306). -/
  | cartridgeSupplyDip
  /-- READ_LOG (R320): ARG0. -/
  | readLog (arg0 : Word)
  /-- READ_INTERVAL (R320): ARG0 and ARG1. -/
  | readInterval (arg0 arg1 : Word)
  /-- SET_TENANT (R278): ARG0 and ARG1. -/
  | setTenant (arg0 arg1 : Word)
  /-- READ_PARAM (R320): ARG0 and ARG1. -/
  | readParam (arg0 arg1 : Word)
  /-- SHOW_CHECK (R320). -/
  | showCheck
  /-- SHOW_CHECK_END (R303). -/
  | showCheckEnd
  /-- PARAM_STAGE (R320): ARG0 and ARG1; the bytes are those of MTR_SDATA. -/
  | paramStage (arg0 arg1 : Word)
  /-- PARAM_COMMIT (R320): ARG0. -/
  | paramCommit (arg0 : Word)
  /-- PARAM_DISCARD (R320): ARG0. -/
  | paramDiscard (arg0 : Word)
  /-- SET_METER_ID (R268): the bytes are those of MTR_SDATA. -/
  | setMeterId
  /-- DOOR_COMMAND_DONE (R320): the open door, or the secure one. -/
  | doorCommandDone (secure : Bool)
  /-- RTC_HALT (R653): the CD_RELOAD the same write of RTC_CTRL carries. -/
  | rtcHalt (reload : Bool)
  /-- RTC_RESUME (R653): HALT written 0 with ADD 0, and the CD_RELOAD of the write. -/
  | rtcResume (reload : Bool)
  /-- RTC_RESUME_ADD (R653): HALT written 0 with ADD 1, and the CD_RELOAD of the write. -/
  | rtcResumeAdd (reload : Bool)
  /-- RTC_COUNT_WRITE (R653): the count, low word then high word. -/
  | rtcCountWrite (count : BitVec 48)
  /-- RTC_CD_WRITE (R658): the word written. -/
  | rtcCdWrite (value : Word)
  /-- CD_EXPIRED (R659): the rest of the countdown has passed. -/
  | cdExpired
  /-- OSC_STOP (R661): the RTC domain's stop detector sees no edge for 4 ms. -/
  | oscStop
  /-- RETENTION_LOST (R663). -/
  | retentionLost
  /-- BATTERY_MEASURE (R665): the hourly measurement, or one that was asked for. -/
  | batteryMeasure (hourly : Bool)
  /-- BATTERY_MEASURE_DONE (R665): the cell voltage in 10 mV. -/
  | batteryMeasureDone (volt : BitVec 10)
  /-- OPTIME_SAVE (R669). -/
  | optimeSave
  /-- RECORD_WRITE (R674). -/
  | recordWrite
  /-- RECORD_DROP (R676). -/
  | recordDrop
  /-- RNG_VER_HOST (R506): the word written. -/
  | rngVerHost (value : Word)
  /-- RING_ENABLE (R508): RNG_R_CTRL of the ring as written, EN going to 1. -/
  | ringEnable (ring : Fin 64) (value : Word)
  /-- RING_DISABLE (R510): RNG_R_CTRL of the ring as written, EN going to 0. -/
  | ringDisable (ring : Fin 64) (value : Word)
  /-- SQ_TAIL (R512): the ring's doorbell and the word written. -/
  | sqTail (ring : Fin 64) (value : Word)
  /-- CQ_HEAD (R512): the ring's doorbell and the word written. -/
  | cqHead (ring : Fin 64) (value : Word)
  /-- DESCRIPTOR_FETCH (R556): the ring, the sixteen words of the descriptor as read, and its payload with CRC as read. -/
  | descriptorFetch (ring : Fin 64) (words payload : List Word)
  /-- DESCRIPTOR_COMMIT (R556): the ring, and the hop of R570 that finds its item poisoned: 3, 4 or 12, none for any other number. -/
  | descriptorCommit (ring : Fin 64) (hop : Fin 13)
  /-- DMA_TIMEOUT (R504): the ring, and the descriptor whose payload read has failed; no words where the descriptor's own read has. -/
  | dmaTimeout (ring : Fin 64) (words : List Word)
  /-- INTERRUPT_TIMER (R516). -/
  | interruptTimer (ring : Fin 64)
  /-- FUNCTION_LEVEL_RESET (R500). -/
  | functionLevelReset
  /-- BUS_MASTER_DISABLE (R503). -/
  | busMasterDisable
  /-- EVENT_LOST (R550): the event pair. -/
  | eventLost (ring : Fin 64)
  /-- WATCH_REPORT (R530): the point and the partition of a watch whose report falls due. -/
  | watchReport (point : BitVec 16) (part : Fin 17)
  /-- NOP (R526): the ring and the descriptor. -/
  | nop (ring : Fin 64) (d : Desc)
  /-- FENCE (R565): the ring and the descriptor. -/
  | fence (ring : Fin 64) (d : Desc)
  /-- RESUME (R575): the ring and the descriptor. -/
  | resume (ring : Fin 64) (d : Desc)
  /-- PT_READ (R527): the ring and the descriptor. -/
  | ptRead (ring : Fin 64) (d : Desc)
  /-- PT_WRITE (R529): the ring and the descriptor. -/
  | ptWrite (ring : Fin 64) (d : Desc)
  /-- PT_WATCH_ADD (R530): the ring and the descriptor. -/
  | ptWatchAdd (ring : Fin 64) (d : Desc)
  /-- PT_WATCH_REMOVE (R530): the ring and the descriptor. -/
  | ptWatchRemove (ring : Fin 64) (d : Desc)
  /-- RIO_READ (R526): the ring and the descriptor. -/
  | rioRead (ring : Fin 64) (d : Desc)
  /-- RIO_WRITE (R529): the ring and the descriptor. -/
  | rioWrite (ring : Fin 64) (d : Desc)
  /-- CFG_WRITE (R532): the ring and the descriptor. -/
  | cfgWrite (ring : Fin 64) (d : Desc)
  /-- CFG_READ (R531): the ring and the descriptor. -/
  | cfgRead (ring : Fin 64) (d : Desc)
  /-- CTRL_STOP (R534): the ring and the descriptor. -/
  | ctrlStop (ring : Fin 64) (d : Desc)
  /-- CTRL_RESTART (R534): the ring and the descriptor. -/
  | ctrlRestart (ring : Fin 64) (d : Desc)
  /-- CTRL_RESTART_COLD (R534): the ring and the descriptor. -/
  | ctrlRestartCold (ring : Fin 64) (d : Desc)
  /-- CTRL_TASK_START (R534): the ring and the descriptor. -/
  | ctrlTaskStart (ring : Fin 64) (d : Desc)
  /-- CTRL_RESET (R534): the ring and the descriptor. -/
  | ctrlReset (ring : Fin 64) (d : Desc)
  /-- IMG_LOAD (R535): the ring and the descriptor. -/
  | imgLoad (ring : Fin 64) (d : Desc)
  /-- IMG_ACTIVATE (R424): the ring and the descriptor. -/
  | imgActivate (ring : Fin 64) (d : Desc)
  /-- IMG_CANCEL (R423): the ring and the descriptor. -/
  | imgCancel (ring : Fin 64) (d : Desc)
  /-- INST_READ (R533): the ring and the descriptor. -/
  | instRead (ring : Fin 64) (d : Desc)
  /-- INST_WRITE (R537): the ring and the descriptor. -/
  | instWrite (ring : Fin 64) (d : Desc)
  /-- FORCE_SET (R450): the ring and the descriptor. -/
  | forceSet (ring : Fin 64) (d : Desc)
  /-- FORCE_RELEASE (R454): the ring and the descriptor. -/
  | forceRelease (ring : Fin 64) (d : Desc)
  /-- FORCE_LIST (R538): the ring and the descriptor. -/
  | forceList (ring : Fin 64) (d : Desc)
  /-- TIMED (R540): the ring and the descriptor. -/
  | timed (ring : Fin 64) (d : Desc)
  /-- HANDOFF_REQ (R541): the ring and the descriptor. -/
  | handoffReq (ring : Fin 64) (d : Desc)
  /-- MTR_READ_SET (R543): the ring and the descriptor. -/
  | mtrReadSet (ring : Fin 64) (d : Desc)
  /-- MTR_READ_INTERVAL (R543): the ring and the descriptor. -/
  | mtrReadInterval (ring : Fin 64) (d : Desc)
  /-- MTR_READ_LOG (R542): the ring and the descriptor. -/
  | mtrReadLog (ring : Fin 64) (d : Desc)
  /-- MTR_READ_PARAM (R542): the ring and the descriptor. -/
  | mtrReadParam (ring : Fin 64) (d : Desc)
  /-- MTR_SET_TENANT (R543): the ring and the descriptor. -/
  | mtrSetTenant (ring : Fin 64) (d : Desc)
  /-- REC_READ (R544): the ring and the descriptor. -/
  | recRead (ring : Fin 64) (d : Desc)
  /-- KEY_GEN (R700): the ring and the descriptor. -/
  | keyGen (ring : Fin 64) (d : Desc)
  /-- KEY_DERIVE (R700): the ring and the descriptor. -/
  | keyDerive (ring : Fin 64) (d : Desc)
  /-- KEY_INVALIDATE (R703): the ring and the descriptor. -/
  | keyInvalidate (ring : Fin 64) (d : Desc)
  /-- KEY_ATTEST (R717): the ring and the descriptor. -/
  | keyAttest (ring : Fin 64) (d : Desc)
  /-- KEY_ENROL (R716): the ring and the descriptor. -/
  | keyEnrol (ring : Fin 64) (d : Desc)
  /-- AEAD_ENCRYPT (R545): the ring and the descriptor. -/
  | aeadEncrypt (ring : Fin 64) (d : Desc)
  /-- AEAD_DECRYPT (R545): the ring and the descriptor. -/
  | aeadDecrypt (ring : Fin 64) (d : Desc)
  /-- SIGN (R545): the ring and the descriptor. -/
  | sign (ring : Fin 64) (d : Desc)
  /-- KEY_INFO (R545): the ring and the descriptor. -/
  | keyInfo (ring : Fin 64) (d : Desc)
  /-- CAN_TX (R635): the ring and the descriptor. -/
  | canTx (ring : Fin 64) (d : Desc)
  /-- CAN_RX (R633): the ring and the descriptor. -/
  | canRx (ring : Fin 64) (d : Desc)
  /-- CAN_RECOVER (R638): the ring and the descriptor. -/
  | canRecover (ring : Fin 64) (d : Desc)
  /-- ETH_TX (R548): the ring and the descriptor. -/
  | ethTx (ring : Fin 64) (d : Desc)
  /-- ETH_RX_POST (R592): the ring and the descriptor. -/
  | ethRxPost (ring : Fin 64) (d : Desc)
  /-- UPD_CHUNK (R728): the ring and the descriptor. -/
  | updChunk (ring : Fin 64) (d : Desc)
  /-- UPD_STATUS (R730): the ring and the descriptor. -/
  | updStatus (ring : Fin 64) (d : Desc)
  /-- UPD_CONFIRM (R739): the ring and the descriptor. -/
  | updConfirm (ring : Fin 64) (d : Desc)
  /-- UPD_ABORT (R730): the ring and the descriptor. -/
  | updAbort (ring : Fin 64) (d : Desc)
  /-- GLB_PART_COMMIT (R689): the word written. -/
  | glbPartCommit (value : Word)
  /-- LC_REQUEST (R712): the word written to GLB_LC_CTRL. -/
  | lcRequest (value : Word)
  /-- UPD_FRAG (R731): whether the frame is sound, its destination and source addresses, and its fields: chunk index, count,
  fragment number, chunk length and data. -/
  | updFrag (ok : Bool) (dst src : BitVec 48) (idx count : Word) (frag : Fin 256) (len : Word) (data : List Nat)
  /-- INSTALL (R733): bit 1 is written with INSTALL when true, which allows an install on a module alone. -/
  | install (aloneOk : Bool)
  /-- CART_SOFTWARE_DONE (R741): whether the cartridge accepts, and the version of the software it then runs. -/
  | cartSoftwareDone (ok : Bool) (sw : Word)
  /-- REMASK (R709). -/
  | remask
  /-- ENTROPY_FAIL (R710). -/
  | entropyFail
  /-- ENTROPY_RECOVER (R710). -/
  | entropyRecover
  /-- UPD_REPORT (R732). -/
  | updReport
  /-- UPDATE_VERIFY_DONE (R729). -/
  | updateVerifyDone
  /-- FALLBACK (R738). -/
  | fallback
  /-- CART_INSTALL (R740). -/
  | cartInstall
  /-- TRIAL_TIME_EXPIRY (R737). -/
  | trialTimeExpiry
  /-- FALLBACK_HANDOFF_RETRY (R738). -/
  | fallbackHandoffRetry
  deriving DecidableEq, Repr

end Sys2Proof
end

