-- ==== Sys2Proof/Machine/Bits.lean ====
section
/-! DEFINITION. Bit fields, byte order and sparse stores: the helpers every other file of the machine uses. -/

namespace Sys2Proof.Machine

/-- A 32-bit word from a number, modulo 2^32. -/
def w32 (n : Nat) : Word := BitVec.ofNat 32 n

/-- Bits [hi:lo] of a number, as written in the field tables (R4). -/
def nbits (n hi lo : Nat) : Nat := (n >>> lo) % 2 ^ (hi - lo + 1)

/-- Bits [hi:lo] of a word. -/
def fld (w : Word) (hi lo : Nat) : Nat := nbits w.toNat hi lo

/-- Bit `i` of a word. -/
def bitOf (w : Word) (i : Nat) : Bool := w.getLsbD i

/-- The mask that has bits [hi:lo] set. -/
def maskOf (hi lo : Nat) : Word := w32 ((2 ^ (hi - lo + 1) - 1) <<< lo)

/-- A word with bits [hi:lo] replaced by `v`. -/
def setFld (w : Word) (hi lo v : Nat) : Word :=
  (w &&& ~~~ (maskOf hi lo)) ||| w32 ((v % 2 ^ (hi - lo + 1)) <<< lo)

/-- A word with bit `i` replaced by `b`. -/
def setBit (w : Word) (i : Nat) (b : Bool) : Word := setFld w i i b.toNat

/-- A truth value as a word: 1 or 0. -/
def boolW (b : Bool) : Word := if b then 1 else 0

/-- The word whose single set bit is `i`. -/
def oneBit (i : Nat) : Word := w32 (1 <<< i)

/-- Two's complement reading of the low `n` bits of a number. -/
def signedOf (n v : Nat) : Int :=
  let m := v % 2 ^ n
  if m < 2 ^ (n - 1) then (m : Int) else (m : Int) - 2 ^ n

/-- The low `n` bits of an integer in two's complement. -/
def twosOf (n : Nat) (v : Int) : Nat := (v % (2 ^ n : Int)).toNat

/-- A word as a signed integer. -/
def sw (w : Word) : Int := signedOf 32 w.toNat

/-- An integer as a word, modulo 2^32. -/
def iw (v : Int) : Word := w32 (twosOf 32 v)

/-- The four bytes of a word, least significant first (R11). -/
def wordBytes (w : Word) : List Nat :=
  [w.toNat % 256, (w.toNat >>> 8) % 256, (w.toNat >>> 16) % 256, (w.toNat >>> 24) % 256]

/-- The bytes of a list of words, in order of address. -/
def wordsBytes (ws : List Word) : List Nat := ws.flatMap wordBytes

/-- A number from little-endian bytes. -/
def leNat : List Nat → Nat
  | [] => 0
  | b :: r => b % 256 + 256 * leNat r

/-- A number from big-endian bytes. -/
def beNat (l : List Nat) : Nat := l.foldl (fun a b => a * 256 + b % 256) 0

/-- The `n` low bytes of a number, most significant first. -/
def beBytes : Nat → Nat → List Nat
  | 0, _ => []
  | n + 1, v => (v >>> (8 * n)) % 256 :: beBytes n v

/-- The `n` low bytes of a number, least significant first. -/
def leBytes : Nat → Nat → List Nat
  | 0, _ => []
  | n + 1, v => v % 256 :: leBytes n (v / 256)

/-- Words from bytes, the first byte of each four least significant; a short tail is filled with zeros. -/
def bytesWords : List Nat → List Word
  | a :: b :: c :: d :: r => w32 (leNat [a, b, c, d]) :: bytesWords r
  | [] => []
  | t => [w32 (leNat t)]

/-- The `i`-th element of a list, or a given value past its end. -/
def nth {α : Type} (d : α) (l : List α) (i : Nat) : α := l.getD i d

/-- The `i`-th word of a list of words; 0 past its end. -/
def wAt (l : List Word) (i : Nat) : Word := l.getD i 0

/-- The `i`-th number of a list; 0 past its end. -/
def nAt (l : List Nat) (i : Nat) : Nat := l.getD i 0

/-- The list with its `i`-th element replaced; unchanged past its end. -/
def setNth {α : Type} (l : List α) (i : Nat) (v : α) : List α := l.set i v

/-- Read of a sparse store whose unlisted key `k` reads `d k`. -/
def tget {α : Type} (d : Nat → α) : Tab α → Nat → α
  | [], k => d k
  | (j, v) :: r, k => if j = k then v else tget d r k

/-- A sparse store without its entries for `k`. -/
def terase {α : Type} : Tab α → Nat → Tab α
  | [], _ => []
  | (j, v) :: r, k => if j = k then terase r k else (j, v) :: terase r k

/-- Insertion of an entry before the first entry of a larger key. -/
def tins {α : Type} : Tab α → Nat → α → Tab α
  | [], k, v => [(k, v)]
  | (j, w) :: r, k, v => if k < j then (k, v) :: (j, w) :: r else (j, w) :: tins r k v

/-- Write to a sparse store: the entry goes away when the value is what an unlisted key reads as. -/
def tset {α : Type} [DecidableEq α] (d : Nat → α) (m : Tab α) (k : Nat) (v : α) : Tab α :=
  if v = d k then terase m k else tins (terase m k) k v

/-- A sparse store with one entry changed by a function. -/
def tmod {α : Type} [DecidableEq α] (d : Nat → α) (m : Tab α) (k : Nat) (f : α → α) : Tab α :=
  tset d m k (f (tget d m k))

/-- Every key above `b`, rising, and no entry equal to what an unlisted key reads as. -/
def twfFrom {α : Type} [DecidableEq α] (d : Nat → α) : Nat → Tab α → Bool
  | _, [] => true
  | b, (k, v) :: r => decide (b ≤ k) && decide (v ≠ d k) && twfFrom d (k + 1) r

/-- The canonical form of a sparse store. -/
def twf {α : Type} [DecidableEq α] (d : Nat → α) (m : Tab α) : Bool := twfFrom d 0 m

/-- The entries of an association list that has no default, newest value of a key only. -/
def alook {α : Type} : List (Nat × α) → Nat → Option α
  | [], _ => none
  | (j, v) :: r, k => if j = k then some v else alook r k

/-- An association list with one key set. -/
def aset {α : Type} (m : List (Nat × α)) (k : Nat) (v : α) : List (Nat × α) := tins (terase m k) k v

/-- Ceiling of a quotient. -/
def ceilDiv (a b : Nat) : Nat := if b = 0 then 0 else (a + b - 1) / b

/-- The numbers `0` to `n - 1`. -/
def upto (n : Nat) : List Nat := List.range n

end Sys2Proof.Machine
end

