-- ==== Sys2Proof/Machine/Crc.lean ====
section
/-! DEFINITION. CRC-32C (R519), computed on bytes as plain numbers. -/

namespace Sys2Proof.Machine

/-- `n` shifts of the reflected Castagnoli register, polynomial 0x1EDC6F41 reflected to 0x82F63B78 (R519). -/
def crcShift : Nat → Nat → Nat
  | 0, c => c
  | n + 1, c => crcShift n (if c % 2 = 1 then (c >>> 1) ^^^ 0x82F63B78 else c >>> 1)

/-- The register after one byte. -/
def crcByte (c b : Nat) : Nat := crcShift 8 (c ^^^ (b % 256))

/-- CRC-32C of a byte string: initial value and final exclusive-or 0xFFFFFFFF (R519). -/
def crc32c (l : List Nat) : Word := w32 (l.foldl crcByte 0xFFFFFFFF ^^^ 0xFFFFFFFF)

/-- CRC-32C over words stored little-endian (R519). -/
def crcWords (ws : List Word) : Word := crc32c (wordsBytes ws)

/-- Words followed by their CRC-32C. -/
def withCrc (ws : List Word) : List Word := ws ++ [crcWords ws]

end Sys2Proof.Machine
end

