-- ==== Sys2Proof/Machine/Operands.lean ====
section
/-! DEFINITION. The register map of BAR0: for every offset its access masks and its reset value, block by block from the
field tables, and the map of point identifiers. -/

namespace Sys2Proof.Machine

/-- What a register of BAR0 is: the bits a write sets live, clears by ones, acts on, or stages, and its reset value (R15). -/
structure RegInfo where
  rw : Word := 0
  w1c : Word := 0
  wo : Word := 0
  rws : Word := 0
  reset : Word := 0
  deriving DecidableEq, Repr

/-- A register no bit of which can be written. -/
def roReg (r : Word) : RegInfo := { reset := r }
/-- A register with live writable bits. -/
def rwReg (m r : Word) : RegInfo := { rw := m, reset := r }
/-- A register with bits cleared by ones. -/
def w1cReg (m : Word) : RegInfo := { w1c := m }
/-- A command register. -/
def woReg (m : Word) : RegInfo := { wo := m }
/-- A staged register; its reserved bits are held too (R13). -/
def rwsReg (r : Word) : RegInfo := { rws := 0xFFFFFFFF, reset := r }

/-- Block GLB (R745). -/
def infoGlb (o : Nat) : RegInfo :=
  if o = 0x0 then roReg 0x54580192 else if o = 0x4 then roReg 0x101 else if o = 0x8 then roReg 0
  else if o = 0x48 then w1cReg 0x1F else if o = 0x50 then roReg 0 else if o = 0x54 then rwReg 0x3 0
  else if o = 0x60 then w1cReg 0x1FFE else if o = 0x100 then woReg 1 else if o = 0x110 then roReg 1
  else if o = 0x114 then w1cReg 0x1F else if o = 0x118 then rwReg 0x7 0x7
  else if 0x200 ≤ o ∧ o < 0x500 then rwsReg 0 else if 0x600 ≤ o ∧ o < 0xA00 then rwsReg 0 else roReg 0

/-- Block CLK (R746, R132). -/
def infoClk (o : Nat) : RegInfo :=
  if o = 0x0 then rwReg 0xFF 0xD5 else if o = 0x4 then w1cReg 0x400F0 else if o = 0x8 then w1cReg 0x1FF0000
  else if o = 0x10 then rwReg 0x000EFC26 0x000FFFFF else if o = 0x14 then rwReg 0x000EFD3E 0x000902C1
  else if o = 0x18 then rwReg 0x00080000 0x00080000 else if o = 0x1C then roReg 0xFFFFF
  else if o = 0x20 then w1cReg 0x800FFFFF else if o = 0x30 then { rw := 0x1FFF, wo := 0x10000, reset := 0x810 }
  else if o = 0x40 then rwReg 1 0 else if o = 0x48 then w1cReg 3 else roReg 0

/-- Block PHC (R747). -/
def infoPhc (o : Nat) : RegInfo :=
  if o = 0x0 then { rws := 0x7F, reset := 2 } else if o = 0x40 then woReg 1 else if o = 0x48 then w1cReg 0xF
  else if 0x4000 ≤ o ∧ o < 0x8000 then rwsReg 0 else roReg 0

/-- One channel's registers in a bank page (R217). -/
def infoCh (o : Nat) : RegInfo :=
  if o = 0x0 then rwsReg 0x300 else if o = 0x4 then rwsReg 0 else if o = 0x8 then rwsReg 0
  else if o = 0x10 then w1cReg 0xFFFFFFFF else roReg 0

/-- One channel's analogue registers in a bank page (R259). -/
def infoAn (o : Nat) : RegInfo :=
  if o = 0x0 then rwsReg 0x204 else if o = 0x4 then rwsReg 0x3F800000 else if o = 0x10 then rwsReg 0x3F800000
  else if o = 0x18 then rwsReg 0x3F800000 else if o = 0x20 then rwsReg 0x40666666 else if o = 0x24 then rwsReg 0x41A80000
  else if o = 0x28 then rwsReg 0x18 else if o ≤ 0x2C then rwsReg 0 else if o = 0x30 then roReg 0x7FC00000 else roReg 0

/-- One bank page (R748). -/
def infoBnkPage (o : Nat) : RegInfo :=
  if o = 0x0 then rwsReg 1 else if o = 0x4 then rwsReg 0xC8 else if o = 0x8 then woReg 1
  else if o = 0x18 then w1cReg 0xFF else if o = 0x1C then woReg 1 else if o = 0x20 then woReg 1
  else if 0x100 ≤ o ∧ o < 0x300 then infoCh (o % 0x20)
  else if 0x400 ≤ o ∧ o < 0x800 then infoAn (o % 0x40)
  else if 0x800 ≤ o ∧ o < 0x1000 then rwsReg 0 else roReg 0

/-- Block BNK: twelve pages (R214). -/
def infoBnk (o : Nat) : RegInfo := if o < 0xC000 then infoBnkPage (o % 0x1000) else roReg 0

/-- One loop's configuration (R363). -/
def infoLoop (o : Nat) : RegInfo :=
  if o = 0xC ∨ o = 0x10 ∨ o = 0x14 then rwsReg 0xFFFFFFFF else if o = 0x18 then rwsReg 0x7F
  else if o = 0x1C ∨ 0x60 ≤ o then roReg 0 else rwsReg 0

/-- Block LCE (R749). -/
def infoLce (o : Nat) : RegInfo :=
  if o = 0x0 then woReg 1 else if o = 0x10 then w1cReg 0x3F
  else if 0x400 ≤ o ∧ o < 0x800 then
    (if o % 0x10 = 0 then rwsReg 0 else if o % 0x10 = 4 then rwsReg 0xFFFF else roReg 0)
  else if 0x1000 ≤ o ∧ o < 0x2000 then rwsReg 0
  else if 0x2000 ≤ o ∧ o < 0xA000 then infoLoop (o % 0x80) else roReg 0

/-- Block BLE (R750). -/
def infoBle (o : Nat) : RegInfo :=
  if o = 0x0 then roReg 4 else if o = 0xC then roReg 0x00010101 else if o = 0x10 then w1cReg 0xF else roReg 0

/-- Block MTR (R751, R325). -/
def infoMtr (o : Nat) : RegInfo :=
  if o = 0x4 then w1cReg 0x3F else if o = 0x50 then woReg 0xFF else if o = 0x54 ∨ o = 0x58 then rwReg 0xFFFFFFFF 0
  else if o = 0x1000 then woReg 0xFF else if o = 0x1004 ∨ o = 0x1008 then rwReg 0xFFFFFFFF 0
  else if 0x1100 ≤ o ∧ o < 0x1200 then rwReg 0xFFFFFFFF 0 else roReg 0

/-- Block TWN (R752). -/
def infoTwn (o : Nat) : RegInfo :=
  if o = 0x0 then rwReg 7 7 else if o = 0x4 then rwReg 0xFFF 0x3C else if o = 0x8 then roReg 0x10000
  else if o = 0x10 then w1cReg 0x7FF else roReg 0

/-- One ring pair's registers (R555). -/
def infoRing (o : Nat) : RegInfo :=
  if o = 0x0 then rwReg 0x1FFFF 0 else if o ≤ 0x14 then rwReg 0xFFFFFFFF 0 else if o = 0x18 then rwReg 0x0FFF0FFF 1
  else if o = 0x1C then rwReg 0x7FF 0 else if o = 0x2C then w1cReg 0xF else roReg 0

/-- Block RNG (R753). -/
def infoRng (o : Nat) : RegInfo :=
  if o = 0x0 then roReg 0x101 else if o = 0x4 then rwReg 0xFFFFFFFF 0 else if o = 0xC then w1cReg 1
  else if 0x1000 ≤ o ∧ o < 0x2000 then infoRing (o % 0x40) else roReg 0

/-- One Ethernet port's registers (R626). -/
def infoPort (o : Nat) : RegInfo :=
  if o = 0x0 then rwReg 0x3FFF 0x289 else if o = 0x8 then w1cReg 0x3FFFF
  else if 0x100 ≤ o ∧ o < 0x300 then
    (if o % 0x10 = 0 then rwReg 0x1FF 0 else if o % 0x10 = 4 then rwReg 0xFFFFFFFF 0
     else if o % 0x10 = 8 then rwReg 0xFFFF 0 else rwReg 0xFFFF7FFF 0)
  else roReg 0

/-- Block ETH (R754). -/
def infoEth (o : Nat) : RegInfo :=
  if o = 0x0 then rwReg 0xFFFFFFFF 0 else if o = 0x4 then rwReg 0x1FFFF 0 else if o = 0x8 then rwReg 3 3
  else if o = 0x10 then rwReg 0x7FFFFFFF 0x70000000 else if o = 0x14 then roReg 0x101 else if o = 0x20 then rwReg 0x7FF 0
  else if o = 0x24 then rwReg 0xFFFFFFFF 0x000A0064 else if o = 0x44 then w1cReg 0x3F else if o = 0x48 then w1cReg 7
  else if 0x400 ≤ o ∧ o < 0x800 then
    (if o % 0x20 = 0 then rwReg 0xFFFFFFFF 0x01F41900 else if o % 0x20 = 4 then rwReg 0xFFFFFFFF 0
     else if o % 0x20 = 8 then rwReg 0xFFFF 0 else roReg 0)
  else if 0x1000 ≤ o ∧ o < 0x3000 then infoPort (o % 0x1000) else roReg 0

/-- One CAN message buffer (R649). -/
def infoCanBuf (o : Nat) : RegInfo :=
  if o = 0x0 then rwReg 0x3FF 0 else if o = 0x4 then rwReg 0x1FFFFFFF 0 else if o = 0x8 then rwReg 0x1FFFFFFF 0x1FFFFFFF
  else if o = 0xC then rwReg 0x01FFFFFF 0x00080000 else roReg 0

/-- Block CAN (R755): four ports, 64 buffers each, 256 map entries. -/
def infoCan (o : Nat) : RegInfo :=
  if o < 0x4000 then
    (let p := o % 0x1000
     if p = 0x0 then rwReg 3 2 else if p = 0x4 then rwReg 0x1FFFFFFF 0x0A1427C1
     else if p = 0x8 then rwReg 0x3FFFFFFF 0x1454A9C1 else if p = 0x10 then w1cReg 0x1F else if p = 0x14 then woReg 1
     else if 0x100 ≤ p ∧ p < 0x900 then infoCanBuf (p % 0x20) else roReg 0)
  else if 0x8000 ≤ o ∧ o < 0xA000 then
    (if o % 0x10 = 0 then rwReg 0x1FFFFFFF 0 else if o % 0x10 = 4 then rwReg 0xFFFFFFFF 0x3F800000
     else if o % 0x10 = 8 then rwReg 0xFFFFFFFF 0 else roReg 0)
  else roReg 0

/-- Block RTC (R756). -/
def infoRtc (o : Nat) : RegInfo :=
  if o = 0x0 then { rw := 5, wo := 2 } else if o = 0x4 then { w1c := 3, reset := 3 } else if o = 0x8 then w1cReg 0x1F
  else if o = 0x10 then rwReg 0xFFFFFFFF 0 else if o = 0x14 then rwReg 0xFFFF 0 else if o = 0x20 then rwReg 0xFFFFFFFF 0
  else if o = 0x34 then woReg 1 else if o = 0x58 then rwReg 0x7FFF 0 else roReg 0

/-- Block UPD (R758). -/
def infoUpd (o : Nat) : RegInfo :=
  if o = 0x0 then rwReg 0x3FFF 0x60C else if o = 0x4 then woReg 0xF else if o = 0x24 then rwReg 0xFFFFFFFF 0
  else if o = 0x28 then rwReg 0xFFFF 0 else if o = 0x30 then w1cReg 0x7F else roReg 0

/-- The register at an offset of BAR0 (R17, R743). -/
def regInfo (off : Nat) : RegInfo :=
  let o := off % 0x10000
  match off / 0x10000 with
  | 0 => infoGlb o
  | 1 => infoClk o
  | 2 => infoPhc o
  | 3 => infoBnk o
  | 4 => infoLce o
  | 5 => infoBle o
  | 6 => infoMtr o
  | 7 => infoTwn o
  | 8 => infoRng o
  | 9 => infoEth o
  | 10 => infoCan o
  | 11 => infoRtc o
  | 13 => infoUpd o
  | _ => roReg 0

/-- The reset value of a register (R14). -/
def regReset (off : Nat) : Word := (regInfo off).reset

/-! ### Register offsets, by the names of the spec -/

def oBaseEvent : Nat := 0x48
def oStartStatus : Nat := 0x50
def oStartCfg : Nat := 0x54
def oIntegEvent : Nat := 0x60
def oIntegLast : Nat := 0x64
def oEccCorr : Nat := 0x68
def oPartStatus : Nat := 0x104
def oPartViol : Nat := 0x108
def oSecStatus : Nat := 0x110
def oSecEvent : Nat := 0x114
def oLcCtrl : Nat := 0x118
def oSrcSel : Nat := 0x10000
def oSwStatus : Nat := 0x10004
def oClkMon : Nat := 0x10008
def oGateRun : Nat := 0x10010
def oGateSleep : Nat := 0x10014
def oGateDeep : Nat := 0x10018
def oGateOpen : Nat := 0x1001C
def oGateAbort : Nat := 0x10020
def oFmCtrl : Nat := 0x10030
def oFmLo : Nat := 0x10034
def oFmHi : Nat := 0x10038
def oPwrCtrl : Nat := 0x10040
def oPwrStatus : Nat := 0x10044
def oPwrEvent : Nat := 0x10048
def oPhcCtrl : Nat := 0x20000
def oPhcCommitStatus : Nat := 0x20044
def oPhcEvent : Nat := 0x20048
/-- Shadow word `w` of schedule entry `n` (R104). -/
def oSched (n w : Nat) : Nat := 0x24000 + 16 * n + 4 * w
/-- The page of bank `b` (R214). -/
def oBank (b : Nat) : Nat := 0x30000 + 0x1000 * b
/-- The registers of channel `c` (R217). -/
def oChan (c : Nat) : Nat := oBank (c / 16) + 0x100 + 0x20 * (c % 16)
/-- The analogue registers of channel `c` (R259). -/
def oAn (c : Nat) : Nat := oBank (c / 16) + 0x400 + 0x40 * (c % 16)
def oLceCommitStatus : Nat := 0x40004
def oLceStatus : Nat := 0x40008
def oLceSkip : Nat := 0x4000C
def oLceEvent : Nat := 0x40010
/-- Group `g` (R364). -/
def oGroup (g : Nat) : Nat := 0x40400 + 0x10 * g
/-- Gain-schedule pool entry `k` (R364). -/
def oGs (k : Nat) : Nat := 0x41000 + 0x10 * k
/-- Configuration of loop `n` (R363). -/
def oLoop (n : Nat) : Nat := 0x42000 + 0x80 * n
def oBleStatus : Nat := 0x50000
def oBleEvent : Nat := 0x50010
def oMtrEvent : Nat := 0x60004
def oTwnCtrl : Nat := 0x70000
def oTwnRevert : Nat := 0x70004
def oTwnEvent : Nat := 0x70010
def oRngVerHost : Nat := 0x80004
def oRngVerUsed : Nat := 0x80008
def oRngErr : Nat := 0x8000C
/-- The registers of ring pair `n` (R555). -/
def oRing (n : Nat) : Nat := 0x81000 + 0x40 * n
def oEthMacLo : Nat := 0x90000
def oEthMacHi : Nat := 0x90004
def oSwCtrl : Nat := 0x90008
def oFlCtrl : Nat := 0x90010
def oFlErr : Nat := 0x90018
def oPtpCtrl : Nat := 0x90020
def oPtpLimits : Nat := 0x90024
def oPtpEvent : Nat := 0x90044
def oEthEvent : Nat := 0x90048
/-- Station entry `n` (R625). -/
def oStation (n : Nat) : Nat := 0x90400 + 0x20 * n
/-- Ethernet port `p` (R626). -/
def oPort (p : Nat) : Nat := 0x91000 + 0x1000 * p
/-- CAN port `p` (R649). -/
def oCan (p : Nat) : Nat := 0xA0000 + 0x1000 * p
/-- Buffer `b` of CAN port `p` (R649). -/
def oCanBuf (p b : Nat) : Nat := oCan p + 0x100 + 0x20 * b
/-- CAN map entry `m` (R650). -/
def oCanMap (m : Nat) : Nat := 0xA8000 + 0x10 * m
def oRtcEvent : Nat := 0xB0008
def oRtcStatus : Nat := 0xB0004
def oRtcRecLost : Nat := 0xB0054
def oRecSel : Nat := 0xB0058
def oUpdCtrl : Nat := 0xD0000
def oUpdEvent : Nat := 0xD0030

/-! ### Points -/

/-- What a point that nothing has written reads: signal points and the REAL metering points a quiet NaN (R256, R315), else 0. -/
def ptDefault (id : Nat) : Word :=
  if 0x200 ≤ id ∧ id < 0x2C0 then 0x7FC00000
  else if 0x1000 ≤ id ∧ id < 0x1600 then (if id % 16 = 15 then 0 else 0x7FC00000)
  else if 0x1600 ≤ id ∧ id < 0x1604 then 0x7FC00000 else 0

end Sys2Proof.Machine
end

