-- ==== Sys2Proof/Machine/Float.lean ====
section
/-! DEFINITION. IEEE 754 binary32 and binary64 arithmetic with rounding to nearest even (R241, R404), exact on
natural numbers so that Lean's kernel can evaluate it. -/

namespace Sys2Proof.Machine

/-- A binary interchange format: significand bits and exponent bits. -/
structure Fmt where
  p : Nat
  ew : Nat
  deriving DecidableEq, Repr

/-- IEEE 754 binary32. -/
def fmt32 : Fmt := ⟨24, 8⟩
/-- IEEE 754 binary64. -/
def fmt64 : Fmt := ⟨53, 11⟩

/-- What a floating-point word stands for: a NaN, an infinity, or the signed quotient `num / den`. -/
inductive FV where
  | nan
  | inf (neg : Bool)
  | fin (neg : Bool) (num den : Nat)
  deriving DecidableEq, Repr

/-- The bias of a format plus its fraction bits: the exponent field at which the significand is a whole number. -/
def Fmt.off (f : Fmt) : Nat := 2 ^ (f.ew - 1) - 1 + (f.p - 1)

/-- The encoding of an infinity. -/
def fInf (f : Fmt) (neg : Bool) : Nat := (neg.toNat <<< (f.ew + f.p - 1)) + ((2 ^ f.ew - 1) <<< (f.p - 1))

/-- The quiet NaN the module writes: 0x7FC0_0000 in binary32 (R251). -/
def fNaN (f : Fmt) : Nat := ((2 ^ f.ew - 1) <<< (f.p - 1)) + 2 ^ (f.p - 2)

/-- The value of an encoded number. -/
def fDec (f : Fmt) (v : Nat) : FV :=
  let m := v % 2 ^ (f.p - 1)
  let e := (v >>> (f.p - 1)) % 2 ^ f.ew
  let s := (v >>> (f.p - 1 + f.ew)) % 2 == 1
  if e = 2 ^ f.ew - 1 then (if m = 0 then .inf s else .nan)
  else if e = 0 then .fin s m (2 ^ (f.off - 1))
  else if f.off ≤ e then .fin s ((m + 2 ^ (f.p - 1)) <<< (e - f.off)) 1
  else .fin s (m + 2 ^ (f.p - 1)) (2 ^ (f.off - e))

/-- A quotient rounded to the nearest whole number, halves to even. -/
def divRne (num den : Nat) : Nat :=
  let q := num / den
  let r := num % den
  if 2 * r < den then q else if den < 2 * r then q + 1 else q + q % 2

/-- The magnitude `num / den` rounded to the nearest value of the format, halves to even. -/
def fMag (f : Fmt) (num den : Nat) : Nat :=
  if num = 0 ∨ den = 0 then 0 else
  let emin : Int := 1 - (f.off : Int)
  let k : Int := (num.log2 : Int) - (den.log2 : Int)
  let e0 : Int := max (k - f.p) emin
  let sc := fun (e : Int) => if e < 0 then (num <<< (-e).toNat, den) else (num, den <<< e.toNat)
  let big := fun (e : Int) => let x := sc e; decide (x.2 <<< f.p ≤ x.1)
  let e1 := if big e0 then e0 + 1 else e0
  let e2 := if big e1 then e1 + 1 else e1
  let x := sc e2
  let q := divRne x.1 x.2
  let enc := if q < 2 ^ (f.p - 1) then q else ((e2 - emin + 1).toNat <<< (f.p - 1)) + (q - 2 ^ (f.p - 1))
  min enc ((2 ^ f.ew - 1) <<< (f.p - 1))

/-- The signed quotient rounded to the format; an overflow gives infinity. -/
def fRound (f : Fmt) (neg : Bool) (num den : Nat) : Nat := (neg.toNat <<< (f.ew + f.p - 1)) + fMag f num den

/-- The encoding of a value. -/
def fEnc (f : Fmt) : FV → Nat
  | .nan => fNaN f
  | .inf s => fInf f s
  | .fin s n d => fRound f s n d

/-- The exact sum of two finite values with the sign rule of rounding to nearest: an exact zero is positive unless both are negative. -/
def fvAddFin (s1 : Bool) (n1 d1 : Nat) (s2 : Bool) (n2 d2 : Nat) : FV :=
  let a := n1 * d2
  let b := n2 * d1
  if s1 = s2 then .fin s1 (a + b) (d1 * d2)
  else if a = b then .fin false 0 1
  else if b < a then .fin s1 (a - b) (d1 * d2)
  else .fin s2 (b - a) (d1 * d2)

/-- Sum of two values. -/
def fvAdd : FV → FV → FV
  | .nan, _ => .nan
  | _, .nan => .nan
  | .inf a, .inf b => if a = b then .inf a else .nan
  | .inf a, .fin _ _ _ => .inf a
  | .fin _ _ _, .inf b => .inf b
  | .fin s1 n1 d1, .fin s2 n2 d2 => fvAddFin s1 n1 d1 s2 n2 d2

/-- A value with the other sign. -/
def fvNeg : FV → FV
  | .nan => .nan
  | .inf s => .inf (!s)
  | .fin s n d => .fin (!s) n d

/-- Product of two values. -/
def fvMul : FV → FV → FV
  | .nan, _ => .nan
  | _, .nan => .nan
  | .inf a, .inf b => .inf (a != b)
  | .inf a, .fin b n _ => if n = 0 then .nan else .inf (a != b)
  | .fin a n _, .inf b => if n = 0 then .nan else .inf (a != b)
  | .fin a n1 d1, .fin b n2 d2 => .fin (a != b) (n1 * n2) (d1 * d2)

/-- Quotient of two values. -/
def fvDiv : FV → FV → FV
  | .nan, _ => .nan
  | _, .nan => .nan
  | .inf _, .inf _ => .nan
  | .inf a, .fin b _ _ => .inf (a != b)
  | .fin a _ _, .inf b => .fin (a != b) 0 1
  | .fin a n1 d1, .fin b n2 d2 =>
    if n2 = 0 then (if n1 = 0 then .nan else .inf (a != b)) else .fin (a != b) (n1 * d2) (d1 * n2)

/-- Whole square root, `fuel` result bits at most. -/
def isqrtGo (n : Nat) : Nat → Nat → Nat
  | 0, r => r
  | i + 1, r => isqrtGo n i (if (r + 2 ^ i) * (r + 2 ^ i) ≤ n then r + 2 ^ i else r)

/-- Whole square root, rounded down. -/
def isqrt (n : Nat) : Nat := isqrtGo n (n.log2 / 2 + 1) 0

/-- Square root: NaN for a negative value, a signed zero kept. The exact root is held by its first 80 or more bits and a sticky bit. -/
def fvSqrt : FV → FV
  | .nan => .nan
  | .inf s => if s then .nan else .inf false
  | .fin s n d =>
    if n = 0 then .fin s 0 1 else if s then .nan else
    let m := n * d <<< 160
    let r := isqrt m
    .fin false (2 * r + (if r * r = m then 0 else 1)) (d <<< 81)

/-- Order of two values that are not NaN: less. -/
def fvLt : FV → FV → Bool
  | .nan, _ => false
  | _, .nan => false
  | .inf a, .inf b => a && !b
  | .inf a, .fin _ _ _ => a
  | .fin _ _ _, .inf b => !b
  | .fin s1 n1 d1, .fin s2 n2 d2 =>
    decide ((if s1 then -(n1 : Int) else n1) * d2 < (if s2 then -(n2 : Int) else n2) * d1)

/-- Equality of two values; NaN equals nothing. -/
def fvEq : FV → FV → Bool
  | .nan, _ => false
  | _, .nan => false
  | .inf a, .inf b => a == b
  | .inf _, .fin _ _ _ => false
  | .fin _ _ _, .inf _ => false
  | .fin s1 n1 d1, .fin s2 n2 d2 =>
    decide ((if s1 then -(n1 : Int) else n1) * d2 = (if s2 then -(n2 : Int) else n2) * d1)

/-- The value a REAL word stands for. -/
def rv (w : Word) : FV := fDec fmt32 w.toNat
/-- The REAL word of a value, rounded to nearest even. -/
def rw (v : FV) : Word := w32 (fEnc fmt32 v)
/-- The quiet NaN 0x7FC0_0000 (R251). -/
def qNaN : Word := 0x7FC00000
/-- REAL sum. -/
def fadd (a b : Word) : Word := rw (fvAdd (rv a) (rv b))
/-- REAL difference. -/
def fsub (a b : Word) : Word := rw (fvAdd (rv a) (fvNeg (rv b)))
/-- REAL product. -/
def fmul (a b : Word) : Word := rw (fvMul (rv a) (rv b))
/-- REAL quotient. -/
def fdiv (a b : Word) : Word := rw (fvDiv (rv a) (rv b))
/-- REAL square root. -/
def fsqrt (a : Word) : Word := rw (fvSqrt (rv a))
/-- REAL sign change. -/
def fneg (a : Word) : Word := a ^^^ 0x80000000
/-- REAL magnitude. -/
def fabs (a : Word) : Word := a &&& 0x7FFFFFFF
/-- REAL less. -/
def flt (a b : Word) : Bool := fvLt (rv a) (rv b)
/-- REAL equal. -/
def feq (a b : Word) : Bool := fvEq (rv a) (rv b)
/-- REAL less or equal. -/
def fle (a b : Word) : Bool := flt a b || feq a b
/-- A REAL word that is a NaN. -/
def isNaN (a : Word) : Bool := rv a == .nan
/-- A REAL word that is finite. -/
def isFinite (a : Word) : Bool := match rv a with | .fin _ _ _ => true | _ => false
/-- The lesser of two REALs, neither NaN. -/
def fmin2 (a b : Word) : Word := if flt b a then b else a
/-- The greater of two REALs, neither NaN. -/
def fmax2 (a b : Word) : Word := if flt a b then b else a
/-- The lesser of two REALs, the other one where one is NaN. -/
def fminN (a b : Word) : Word := if isNaN a then b else if isNaN b then a else fmin2 a b
/-- The greater of two REALs, the other one where one is NaN. -/
def fmaxN (a b : Word) : Word := if isNaN a then b else if isNaN b then a else fmax2 a b
/-- A REAL limited to a range. -/
def fclamp (lo hi a : Word) : Word := fmin2 (fmax2 a lo) hi
/-- The REAL nearest to an integer. -/
def fOfInt (v : Int) : Word := w32 (fRound fmt32 (decide (v < 0)) v.natAbs 1)
/-- The REAL nearest to a natural number. -/
def fOfNat (n : Nat) : Word := fOfInt n
/-- The REAL nearest to an exact quotient. -/
def fOfQ (num : Int) (den : Nat) : Word := w32 (fRound fmt32 (decide (num < 0)) num.natAbs den)

/-- An exact signed quotient rounded to the nearest integer, halves to even. -/
def qRne (num : Int) (den : Nat) : Int := if num < 0 then -(divRne num.natAbs den : Int) else divRne num.natAbs den

/-- A REAL rounded to the nearest integer, halves to even; none for NaN and the infinities. -/
def fToInt (a : Word) : Option Int :=
  match rv a with
  | .fin s n d => some (if s then -(divRne n d : Int) else divRne n d)
  | _ => none

/-- The smallest integer at or above a finite REAL. -/
def fCeil (a : Word) : Option Int :=
  match rv a with
  | .fin s n d => some (if s then -((n / d : Nat) : Int) else ceilDiv n d)
  | _ => none

/-- The integer part of a finite REAL, toward zero. -/
def fTrunc (a : Word) : Option Int :=
  match rv a with
  | .fin s n d => some (if s then -((n / d : Nat) : Int) else (n / d : Nat))
  | _ => none

/-- The exact signed quotient of a finite REAL. -/
def fQ (a : Word) : Option (Int × Nat) :=
  match rv a with
  | .fin s n d => some (if s then -(n : Int) else n, d)
  | _ => none

/-- The binary64 sum of two encoded values. -/
def dAdd (a b : Nat) : Nat := fEnc fmt64 (fvAdd (fDec fmt64 a) (fDec fmt64 b))
/-- A binary64 word of a value. -/
def dEnc (v : FV) : Nat := fEnc fmt64 v
/-- The REAL nearest to a binary64. -/
def dToReal (a : Nat) : Word := rw (fDec fmt64 a)

end Sys2Proof.Machine
end

