-- ==== Sys2Proof/Machine/State.lean ====
section
/-! DEFINITION. The state of the module as plain data, the outcomes a step can have, and the state after reset. -/

namespace Sys2Proof.Machine

/-- Why a step can stop with a fault. No meaning of this model raises one: the spec gives the module no command that
stops it, so the type's one reason is never used (safe). -/
inductive Fault where
  /-- Raised by no one; present because a step's outcome has a fault arm (safe: the machine never stops here). -/
  | none
  deriving DecidableEq, Repr

/-- Why a step can be refused. -/
inductive Refusal where
  /-- Raised by a dispatch arm whose command has no meaning yet (safe: nothing is claimed of it). -/
  | notModelled (mnemonic : String)
  deriving DecidableEq, Repr

/-- What the module sends out: host memory writes, interrupts, read data, frames and strobes, in the order sent. -/
inductive Out where
  /-- A 32-byte completion written into a slot of a ring's completion ring (R523). -/
  | completion (ring slot : Nat) (words : List Word)
  /-- Output payload written at the descriptor's address, its CRC last (R520). -/
  | payload (ring addr : Nat) (words : List Word)
  /-- A 64-byte event record written into a slot of an event pair (R551). -/
  | event (ring slot : Nat) (words : List Word)
  /-- An MSI-X vector raised (R516). -/
  | msix (vec : Nat)
  /-- What a read of BAR0 returned: the offset and the word. -/
  | readData (off : Nat) (value : Word)
  /-- A frame to a bank: 0 keep-alive, 1 output, 2 configuration, 3 zero-cross timing, with its sequence number, its content and
  its CRC-32C (R155). -/
  | bankFrame (bank kind seq : Nat) (body : List Word) (crc : Word)
  /-- A close strobe to the cartridge (R292). -/
  | strobe (body : List Word)
  /-- A negotiation frame over Twinlink (R466, R467): the sender's start-up state, its cycle number, its lowest and highest
  Twinlink versions and its feature bitmap. -/
  | negotiate (state cycle verMin verMax : Nat) (features : BitVec 8)
  /-- A state frame (R471): Twinlink version, sequence number, timestamp and half-cycle number of the sample, pair state, health, the named
  boundary, whether it is the final one (R490), whether it was cut (R472), the digest of the active image, its content, and its CRC-32C. -/
  | stateFrame (ver : Nat) (seq : Word) (ts half pair health : Nat) (plan : Option Nat) (final excess : Bool) (digest : List Nat) (items : List CopyItem) (crc : Word)
  /-- A rally frame (R473): the standby's pair state, reason, health, requests for a full copy and for the ball, and the digest of its inactive image. -/
  | rallyFrame (pair reason health : Nat) (copy back : Bool) (digest : List Nat)
  /-- The full copy (R469). -/
  | fullCopy (items : List CopyItem)
  /-- An Ethernet frame sent by a port, without its FCS. -/
  | eth (port : Nat) (bytes : List Nat)
  /-- A CAN frame offered to the bus: port, identifier word and data bytes. -/
  | can (port : Nat) (id : Word) (bytes : List Nat)
  /-- A command passed through a door of the cartridge. -/
  | door (code : Nat) (body : List Word)
  /-- A metrology pulse output edge (R298). -/
  | pulse (output : Nat) (on : Bool)
  /-- A flash of the MTR indicator that shows a bit of the check identifier: long for 1, short for 0 (R320). -/
  | flash (long : Bool)
  deriving DecidableEq, Repr

/-! ### Base, supplies and temperature (R35 to R73) -/

/-- What the module knows of its base, its supplies and its temperature. -/
structure Base where
  /-- SEAT_SENSE reads low (R35). -/
  seatLow : Bool
  /-- Seating recognised after 100 ms (R35). -/
  seated : Bool
  /-- SLOT1, SLOT0 with 0 for tied, 1 for open (R37, R71). -/
  slot : Nat
  /-- PEER_SEAT reads low (R71). -/
  peer : Bool
  /-- 24V_LA and 24V_LB are good (R47). -/
  la : Bool
  lb : Bool
  /-- A cartridge is in the bay (R71). -/
  cart : Bool
  /-- GLB_THERMAL (R72): INT_TEMP in 0.125 degrees, FIELD_DISS in 0.01 W, THERM_WARN. -/
  intTemp : Nat
  fieldDiss : Nat
  thermWarn : Bool
  /-- The hold line this module drives, and the one it reads (R29). -/
  holdOut : Bool
  holdIn : Bool
  deriving DecidableEq, Repr

/-- Pins as the pull-ups leave them, one logic input good (DESIGN CHOICE, log 2). -/
def Base.reset : Base :=
  { seatLow := false, seated := false, slot := 3, peer := false, la := true, lb := false, cart := false,
    intTemp := 0, fieldDiss := 0, thermWarn := false, holdOut := false, holdIn := false }

/-! ### Phase clock and schedule (R74 to R119) -/

/-- A capture of the phase timestamp and the network time at phase 0 (R101). -/
structure Capture where
  valid : Bool
  ts : Nat
  ns : Nat
  deriving DecidableEq, Repr

/-- A pending timed action (R115 to R119). -/
structure Timed where
  ring : Nat
  action : Nat
  arg : Word
  /-- A network-time target, and its instant in nanoseconds. -/
  net : Bool
  at_ : Nat
  /-- The absolute phase unit it falls on, and whether that is fixed (R116). -/
  unit : Nat
  fixed : Bool
  deriving DecidableEq, Repr

/-- The phase clock and the schedule's hidden state. -/
structure Phc where
  /-- 0 ACQUIRE, 1 LOCKED, 2 HOLDOVER, 3 SYNTH_FREE, 4 SYNTH_STEERED, 5 RELOCK (R78). -/
  st : Nat
  /-- The state from which RELOCK was entered (R94). -/
  from_ : Nat
  /-- Timestamp flags of the current cycle: bit 0 holdover, 1 synthetic, 2 unlocked, 3 stepped (R79, R80). -/
  flags : Nat
  /-- The clock has begun its first cycle. -/
  run : Bool
  /-- Phase events fire: the first phase event of start-up has come (R147 step 8). -/
  fire : Bool
  cycle : Nat
  phase : Nat
  /-- Frequencies in units of 0.1 mHz (R74, R97). -/
  freq : Nat
  refFreq : Nat
  /-- The frequency the clock held at the last good marker (R85). -/
  goodFreq : Nat
  /-- By how many nanoseconds steering makes a cycle longer than its frequency says (R87). -/
  steer : Int
  refValid : Bool
  refSrc : Nat
  /-- Phase error at the last marker, in 1/16 phase unit (R97). -/
  perr : Int
  /-- Consecutive markers within 8 units, consecutive missing markers, consecutive valid markers (R81, R83, R90). -/
  lockN : Nat
  missN : Nat
  validN : Nat
  /-- One more than the cycle number of the boundary whose marker has been taken; 0 for none. -/
  markFor : Nat
  /-- A correction taken at the next boundary, and the one running in this cycle, in 1/16 phase unit (R82). -/
  corrNext : Int
  corr : Int
  /-- Loss of mains declared, to act at the next boundary (R85). -/
  lossDue : Bool
  /-- 10 s have passed since loss was declared (R85). -/
  holdExp : Bool
  slew : Bool
  /-- The next boundary of RELOCK is its first (R91). -/
  relockFirst : Bool
  /-- The current cycle is a step cycle (R92). -/
  stepping : Bool
  /-- Nanosecond remainder of the phase units elapsed so far. -/
  rem : Nat
  /-- The two latest captures, the latest first (R101, R103), and the capture count. -/
  cap1 : Capture
  cap0 : Capture
  gen : Nat
  /-- Absolute unit of the latest request of PHC_COMMIT, and of the latest applied commit with the schedule before it (R111, R760). -/
  reqA : Nat
  comA : Option Nat
  oldLive : Tab Word
  /-- The latest dispatched firing: absolute unit, rank and entry (R108). -/
  last : Option (Nat × Nat × Nat)
  timed : List Timed
  deriving DecidableEq, Repr

def Phc.reset : Phc :=
  { st := 0, from_ := 0, flags := 0, run := false, fire := false, cycle := 0, phase := 0, freq := 0, refFreq := 0,
    goodFreq := 0, steer := 0, refValid := false, refSrc := 3, perr := 0, lockN := 0, missN := 0, validN := 0, markFor := 0, corrNext := 0,
    corr := 0, lossDue := false, holdExp := false, slew := false, relockFirst := false, stepping := false, rem := 0,
    cap1 := ⟨false, 0, 0⟩, cap0 := ⟨false, 0, 0⟩, gen := 0, reqA := 0, comA := none, oldLive := [], last := none,
    timed := [] }

/-! ### Clocks and power (R120 to R154) -/

/-- Clocks, gates, frequency meter and power: what the CLK registers do not hold themselves. -/
structure Clk where
  /-- The monitor reports source n good (R129); codes 0 to 8. -/
  good : Word
  /-- The source codes the four domains run from, CORE, FABRIC, IO, MAC (R123). -/
  src : List Nat
  /-- The code each domain is switching to. -/
  target : List Nat
  /-- The domain switches were forced (R127). -/
  forcing : List Bool
  /-- The controller holds in reset-wait for this failed source (R130). -/
  resetWait : Option Nat
  /-- When the failed source last turned good, in nanoseconds since the start (R131). -/
  goodAt : Nat
  /-- MAC has stopped because PLL_MAC is failed (R128). -/
  macStopped : Bool
  /-- Gates whose close waits for an outstanding access, by block bit (R135). -/
  closing : Word
  /-- Clocks stopped in SLEEP because the block is idle (R133). -/
  idle : Word
  /-- The measurement in progress: measured source, reference source, exponent (R138). -/
  fm : Option (Nat × Nat × Nat)
  /-- 0 RUN, 1 SLEEP, 2 DEEP-SLEEP, 3 off (R139). -/
  power : Nat
  /-- The logic side runs (out of reset). -/
  alive : Bool
  /-- The power-fail warning has come: LCE_PASS and BLE_TASK firings are no longer dispatched (R144). -/
  warned : Bool
  /-- The R144 retain write and recorder event are still to come. -/
  pfRetain : Bool
  /-- Why the module will start up next, coded as GLB_START_STATUS.CAUSE (R152, R154). -/
  startCause : Nat
  /-- PE_PERST_N is high, and the endpoint is up (R150). -/
  perst : Bool
  linkPcie : Bool
  deriving DecidableEq, Repr

def Clk.reset : Clk :=
  { good := 0x1FF, src := [1, 1, 1, 3], target := [1, 1, 1, 3], forcing := [false, false, false, false],
    resetWait := none, goodAt := 0, macStopped := false, closing := 0, idle := 0, fm := none, power := 0, alive := true,
    warned := false, pfRetain := false, startCause := 0, perst := true, linkPcie := false }

/-! ### Banks and channels (R155 to R261) -/

/-- An output frame waiting for a bank: the unit of its commit, sixteen values and the presets it carries. -/
structure OFrame where
  unit : Nat
  vals : List Word
  /-- Local channel and count value of each preset (R181). -/
  presets : List (Nat × Word)
  /-- The first sending was discarded (R157). -/
  again : Bool
  deriving DecidableEq, Repr

/-- What a bank converts a channel with, as applied when a batch is made: mode, lead resistance and window code. -/
structure Conv where
  mode : Nat
  lead : Word
  win : Nat
  deriving DecidableEq, Repr

/-- A conversion batch latched in a bank, waiting for its reading frame (R161, R234). -/
structure Batch where
  unit : Nat
  vals : List Word
  /-- How each channel's analogue reading was made (R227, R234). -/
  conv : List Conv
  deriving DecidableEq, Repr

/-- A zero-cross timing frame a bank holds (R188). -/
structure ZcTiming where
  unit : Nat
  mask : Nat
  /-- The schedule entry, or 1024 more than the ring of a timed action. -/
  entry : Nat
  deriving DecidableEq, Repr

/-- One channel: both the bank's side and the logic side. -/
structure Chan where
  /-- The diagnostic word as the logic side reports it (R219), and the bits as the bank holds them. -/
  diag : Word
  bdiag : Word
  /-- Latch bits waiting for the end of the 100 ms window, and whether one is open (R220). -/
  latPend : Word
  latOpen : Bool
  meas : Word
  /-- BNK_AN_SIG and BNK_AN_DRIVE (R259). -/
  sig : Word
  drive : Word
  /-- Count, filter and filtered state of the digital input (R175, R180). -/
  count : Nat
  filt : Nat
  filtSt : Bool
  samp : Bool
  fresh : Bool
  /-- Filter of the count path (R179). -/
  cfilt : Nat
  cfiltSt : Bool
  csamp : Bool
  cfresh : Bool
  /-- The value the bank holds as commanded, the value its stage applies, and whether a frame has brought one (R170). -/
  cmd : Word
  applied : Word
  gotOut : Bool
  /-- The stage is switched off after a shutdown (R194). -/
  tripped : Bool
  /-- States committed to a zero-cross output with their units, newest first (R189), and the safe state held until a firing (R206). -/
  zc : List (Nat × Bool)
  zcHold : Bool
  /-- On time and period in microseconds of the running PWM period, when it began, and the period the safe state holds (R187,
  R208). -/
  pwmOn : Nat
  pwmPer : Nat
  pwmAt : Nat
  safePer : Nat
  /-- Consecutive readings in the failed group, and whether the next reading is the first after the commit (R249). -/
  failRun : Nat
  firstRead : Bool
  /-- The last value written to the value point while VALID was 1 (R251). -/
  lastGood : Word
  /-- Unit of the commit that gave the present mode (R236). -/
  modeA : Nat
  /-- Unit of the batch that gave the count or state last taken from the bank (R161, R471). -/
  batchA : Nat
  deriving DecidableEq, Repr

def Chan.reset : Chan :=
  { diag := 0, bdiag := 0, latPend := 0, latOpen := false, meas := 0, sig := qNaN, drive := 0, count := 0, filt := 0,
    filtSt := false, samp := false, fresh := true, cfilt := 0, cfiltSt := false, csamp := false, cfresh := true,
    cmd := 0, applied := 0, gotOut := false, tripped := false, zc := [], zcHold := false, pwmOn := 0, pwmPer := 0,
    pwmAt := 0, safePer := 0, failRun := 0, firstRead := true, lastGood := 0, modeA := 0, batchA := 0 }

/-- One bank. -/
structure Bank where
  linkUp : Bool
  fsGood : Bool
  /-- The bank controller runs (R202, R203). -/
  run : Bool
  /-- Active causes of the safe state, bits 3 to 8 as in R205. -/
  causes : Word
  safe : Bool
  temp : Nat
  fsVolt : Nat
  fsCurr : Nat
  /-- The temperature has fallen to 105 degrees since OVERTEMP (R204). -/
  otClear : Bool
  /-- The bank has applied and confirmed the live set since it started (R203). -/
  confirmed : Bool
  /-- A valid frame has reached the bank since the watchdog expired (R205). -/
  heard : Bool
  /-- The set the bank has applied: page offset to word (R167). -/
  applied : Tab Word
  /-- A configuration frame is due, and its first sending was discarded. -/
  cfgDue : Bool
  cfgAgain : Bool
  outq : List OFrame
  batches : List Batch
  timing : List ZcTiming
  /-- Absolute unit of the latest commit request, of the latest applied commit, and of the last release (R166, R167, R236). -/
  reqA : Nat
  comA : Option Nat
  relA : Nat
  /-- Firings at a commit point that wait for the bank to apply the new set (R167): their unit, and none for a conversion or the
  entry of a zero-cross firing. -/
  held : List (Nat × Option Nat)
  /-- The last-held latch and whether the bank drives the field (R460). -/
  lastHeld : Bool
  driving : Bool
  /-- Sequence numbers of frames to and from the bank (R155). -/
  seqDn : Nat
  seqUp : Nat
  deriving DecidableEq, Repr

/-- A bank in its safe state with cause HW, its link down (R215). -/
def Bank.reset : Bank :=
  { linkUp := false, fsGood := false, run := false, causes := 0x10, safe := true, temp := 0, fsVolt := 0, fsCurr := 0,
    otClear := false, confirmed := false, heard := false, applied := [], cfgDue := false, cfgAgain := false, outq := [],
    batches := [], timing := [], reqA := 0, comA := none, relA := 0, held := [], lastHeld := false, driving := false, seqDn := 0, seqUp := 0 }

/-! ### Rings and events (R499 to R582) -/

/-- A descriptor in the in-flight window (R556). -/
structure Flight where
  /-- Ordinal on its ring since enable, and its slot. -/
  ord : Nat
  slot : Nat
  words : List Word
  /-- The payload words read for PL_IN. -/
  input : List Word
  /-- A status found at fetch, with its DETAIL; none when it can execute. -/
  early : Option (Nat × Word)
  /-- The operation has begun and waits for something outside the ring (R559). -/
  waiting : Bool
  /-- A DUPLICATE descriptor (R576). -/
  dup : Bool
  deriving DecidableEq, Repr

/-- What a doorbell write covered: descriptors made available so far on this ring, and on every other command pair, with its count of enables (R565). -/
structure Covers where
  upto : Nat
  snap : List (Nat × Nat × Nat)
  deriving DecidableEq, Repr

/-- One ring pair. -/
structure Ring where
  /-- RNG_R_CTRL as the pair was enabled with it: kind, partition, size and vector (R508, R685). -/
  ctrl : Word
  enabled : Bool
  halted : Bool
  /-- EN has been written 0 and descriptors in flight still complete (R510). -/
  closing : Bool
  sqHead : Nat
  sqTail : Nat
  cqHead : Nat
  cqTail : Nat
  phase : Bool
  /-- SEQ expected next, and how many more descriptors complete DUPLICATE (R521, R575). -/
  seq : Word
  dupLeft : Nat
  committed : Word
  /-- The next descriptor fetched must be RESUME (R574), and whether fetching is allowed while halted. -/
  wantResume : Bool
  rung : Bool
  flight : List Flight
  /-- Descriptors made available, fetched and completed since enable; epoch counts enables; ordinals that did not end well (R565, R566). -/
  avail : Nat
  fetched : Nat
  done : Nat
  epoch : Nat
  bad : List Nat
  covers : List Covers
  /-- Event side: last EVT_SEQ, events lost, those not yet told of, their classes (R550). -/
  evtSeq : Word
  lost : Nat
  lostNew : Nat
  lostCls : Word
  /-- Records since the last raise that count toward R516, and when the oldest of them was written. -/
  unsig : Nat
  unsigAt : Nat
  /-- The fetch of the round robin that was this pair's latest, counted over all pairs; 0 for none (R557). -/
  turn : Nat
  /-- Of each earlier enabling: its epoch, the descriptors completed and those that did not end well (R565, R566). -/
  past : List (Nat × Nat × List Nat)
  deriving DecidableEq, Repr

def Ring.reset : Ring :=
  { ctrl := 0, enabled := false, halted := false, closing := false, sqHead := 0, sqTail := 0, cqHead := 0, cqTail := 0,
    phase := true, seq := 0, dupLeft := 0, committed := 0, wantResume := false, rung := false, flight := [], avail := 0,
    fetched := 0, done := 0, epoch := 0, bad := [], covers := [], evtSeq := 0, lost := 0, lostNew := 0, lostCls := 0,
    unsig := 0, unsigAt := 0, turn := 0, past := [] }

/-- An event that has arisen and is not yet written: to event pairs, to the recorder, or to both (R549, R673). -/
structure Ev where
  code : Nat
  cls : Nat
  part : Nat
  ts : Nat
  optime : Nat
  body : List Word
  /-- Source block and object of its recorder record (R672). -/
  block : Nat
  obj : Nat
  toHost : Bool
  toRec : Bool
  deriving DecidableEq, Repr

/-- A recorder record waiting in the queue (R676). -/
structure Rec where
  code : Nat
  part : Nat
  optime : Nat
  pwr : Word
  block : Nat
  obj : Nat
  body : List Word
  /-- The accesses already made of the five that write it (R674). -/
  step : Nat
  deriving DecidableEq, Repr

/-- A point watch (R530). -/
structure Watch where
  point : Nat
  part : Nat
  deadband : Word
  minMs : Nat
  /-- Value and forced bit last reported, whether a change is held, and whether the minimum interval runs. -/
  last : Word
  lastForced : Bool
  held : Bool
  closed : Bool
  /-- When the running interval began (R530). -/
  since : Nat
  deriving DecidableEq, Repr

/-! ### Real-time counter and recorder (R651 to R678) -/

/-- The RTC domain, operating time and the recorder. -/
structure Rtc where
  count : Nat
  /-- HALT as written, and the count standing still (R653). -/
  haltReq : Bool
  halted : Bool
  haltTicks : Nat
  addReq : Bool
  /-- The count when the halt began, for the RTC_SET record. -/
  before : Nat
  cd : Nat
  cdLoad : Word
  /-- A written countdown that takes effect at the next tick edge (R658). -/
  cdWrite : Option Word
  cdReload : Bool
  /-- RTC_EVENT bits latched while the module did not run and not yet reported (R660). -/
  unreported : Word
  batV : Nat
  batLow : Bool
  batAbsent : Bool
  batBusy : Bool
  /-- Fraction of a tick, and of 0.1 s, elapsed, in nanoseconds. -/
  tickNs : Nat
  opNs : Nat
  optime : Nat
  /-- The two MRAM words of R669: operating time and validity. -/
  optimeA : Nat × Bool
  optimeB : Nat × Bool
  optimeNext : Bool
  pwrCycles : Word
  deriving DecidableEq, Repr

/-- The RTC domain as R663 leaves it. -/
def Rtc.reset : Rtc :=
  { count := 0, haltReq := false, halted := false, haltTicks := 0, addReq := false, before := 0, cd := 0, cdLoad := 0,
    cdWrite := none, cdReload := false, unreported := 0, batV := 0, batLow := false,
    batAbsent := false, batBusy := false, tickNs := 0, opNs := 0, optime := 0, optimeA := (0, false),
    optimeB := (0, false), optimeNext := false, pwrCycles := 0 }

/-! ### Forces -/

/-- An entry of the force table (R449). -/
structure Force where
  /-- 0 point, 1 instance pin. -/
  kind : Nat
  /-- Point identifier, or instance identifier. -/
  obj : Nat
  pin : Nat
  typ : Nat
  val : Word
  part : Nat
  ts : Nat
  deriving DecidableEq, Repr

/-! ### Block images (R369 to R376) -/

/-- A task of an image (R371). -/
structure TaskDef where
  used : Bool
  comfort : Bool
  prio : Nat
  tol : Nat
  action : Nat
  period : Nat
  /-- Its instances' indices in execution order. -/
  order : List Nat
  deriving DecidableEq, Repr

/-- A function-block instance (R372). -/
structure Inst where
  typ : Nat
  nIn : Nat
  retain : Bool
  persist : Bool
  task : Nat
  part : Nat
  iid : Nat
  ofs : Nat
  param : Word
  deriving DecidableEq, Repr

/-- A connection (R373). -/
structure Conn where
  dst : Nat
  dstPin : Nat
  src : Nat
  srcPin : Nat
  fb : Bool
  deriving DecidableEq, Repr

/-- A program variable (R374). -/
structure VarDef where
  point : Nat
  typ : Nat
  retain : Bool
  part : Nat
  init : Word
  deriving DecidableEq, Repr

/-- A program image that has been parsed: its bytes and what the engine reads of them. -/
structure Image where
  bytes : List Nat
  programId : Word
  build : Word
  /-- Suppress edge on rewire (R440). -/
  suppress : Bool
  dataWords : Nat
  retainWords : Nat
  retainId : List Nat
  digest : List Nat
  tasks : List TaskDef
  insts : List Inst
  conns : List Conn
  init : List Word
  vars : List VarDef
  /-- The expression area, in words. -/
  expr : List Word
  /-- The conversion rules, in words (R435). -/
  rules : List Word
  /-- Points written by its blocks (R169, R353, R387). -/
  writes : List Nat
  deriving DecidableEq, Repr

/-! ### Field Ethernet, Fieldlink and network time (R583 to R626) -/

/-- A foreign master heard by its Announce messages (R615). -/
structure Foreign where
  /-- Its source port identity and the port it is heard on. -/
  id : Nat
  port : Nat
  /-- The dataset compared, most significant first, and the grandmaster's identity. -/
  data : List Nat
  gm : Nat
  /-- Announce messages counted, the time of the latest, and the announce interval in nanoseconds. -/
  count : Nat
  last : Nat
  ival : Nat
  utc : Word
  utcValid : Bool
  deriving DecidableEq, Repr

/-- A Delay_Req entry of a port's timestamp queue (R622): message type, sequence, domain, timestamp and the time of capture. -/
structure Tsq where
  mtype : Nat
  seq : Nat
  dom : Nat
  ts : Nat
  at_ : Nat
  deriving DecidableEq, Repr

/-- The network-time counter and the PTP slave (R611 to R622). -/
structure Ptp where
  /-- Network time in nanoseconds, and its fraction in 2^-32 ns. -/
  ns : Nat
  sub : Nat
  /-- 0 FREE, 1 ACQUIRE, 2 LOCKED, 3 HOLDOVER (R617). -/
  st : Nat
  /-- Rate adjustment in 0.001 ppm (R624). -/
  rate : Int
  foreign : List Foreign
  /-- The selected master. -/
  master : Option Nat
  port : Nat
  twoStep : Bool
  /-- No acquisition has been made since start-up; the next offset is the first of its acquisition (R618). -/
  virgin : Bool
  firstOff : Bool
  /-- Consecutive offsets within 1 us, and consecutive refusals (R617, R620). -/
  lockN : Nat
  refuseRun : Nat
  /-- The latest valid delay and the last accepted one, in nanoseconds (R616, R620). -/
  delay : Option Int
  accDelay : Option Int
  offset : Int
  /-- A two-step Sync waiting for its Follow_Up: sequence, receive time, correction, time of arrival. -/
  sync : Option (Nat × Nat × Int × Nat)
  /-- When the latest Sync of the master arrived, and its sync interval in nanoseconds (R615). -/
  syncAt : Option (Nat × Nat)
  /-- The latest Sync's t2 - t1 - cs, for the delay of the next exchange (R616). -/
  msDiff : Option Int
  /-- The Delay_Req outstanding: sequence and port; none when abandoned. -/
  req : Option (Nat × Nat)
  reqSeq : Nat
  gm : Nat
  utc : Word
  utcValid : Bool
  deriving DecidableEq, Repr

def Ptp.reset : Ptp :=
  { ns := 0, sub := 0, st := 0, rate := 0, foreign := [], master := none, port := 0, twoStep := false, virgin := true,
    firstOff := true, lockN := 0, refuseRun := 0, delay := none, accDelay := none, offset := 0, sync := none, syncAt := none,
    msDiff := none, req := none, reqSeq := 0, gm := 0, utc := 0, utcValid := false }

/-- A frame waiting in a transmit queue: its queue, its bytes, the ring whose ETH_TX gave it, whether it was forwarded,
and its ingress timestamp in 2^-16 ns (R623). -/
structure TxFrame where
  queue : Nat
  bytes : List Nat
  ring : Option Nat
  fwd : Bool
  ingress : Nat
  deriving DecidableEq, Repr

/-- A frame awaiting a buffer in a receive queue (R592): its bytes, its flags and the timestamp of its reception. -/
structure RxFrame where
  queue : Nat
  bytes : List Nat
  flags : Nat
  ts : Nat
  deriving DecidableEq, Repr

/-- One Ethernet port. -/
structure EPort where
  link : Bool
  /-- 0 no link, 1 10 Mb/s, 2 100 Mb/s, 3 1000 Mb/s. -/
  speed : Nat
  lpi : Bool
  stepped : Bool
  counters : Tab Word
  tsq : List Tsq
  txq : List TxFrame
  /-- The queue whose frame is on the line (R587). -/
  cur : Option Nat
  rxq : List RxFrame
  /-- The four words of each filter in force (R591). -/
  filt : Tab (List Word)
  /-- Time of the latest partner heartbeat and of the latest frame of EtherType 0x88F7 (R601). -/
  hbAt : Option Nat
  ptpAt : Option Nat
  /-- Since when every transmit queue has been empty (R599). -/
  idleAt : Nat
  deriving DecidableEq, Repr

def EPort.reset : EPort :=
  { link := false, speed := 0, lpi := false, stepped := false, counters := [], tsq := [], txq := [], cur := none, rxq := [],
    filt := [], hbAt := none, ptpAt := none, idleAt := 0 }

/-- A learnt address (R584): address, VLAN identifier, port and the time of its latest frame. -/
structure Learnt where
  mac : Nat
  vid : Nat
  port : Nat
  at_ : Nat
  deriving DecidableEq, Repr

/-- A remote station's images and its exchange (R416 to R418, R607 to R609). -/
structure Rio where
  input : List Word
  output : List Word
  /-- Time of the latest accepted response, and whether it has been found older than the timeout. -/
  last : Option Nat
  late : Bool
  upd : Word
  ver : Nat
  status : Word
  rej : Word
  /-- When the latest request was sent (R608). -/
  reqAt : Option Nat
  seqRx : Option Word
  deriving DecidableEq, Repr

def Rio.reset : Rio :=
  { input := [], output := [], last := none, late := false, upd := 0, ver := 0, status := 0, rej := 0, reqAt := none, seqRx := none }

/-- The switch, Fieldlink and the ports. -/
structure Eth where
  ports : Tab EPort
  fdb : List Learnt
  rio : Tab Rio
  /-- Fieldlink sequence numbers sent, by type, and the last accepted from the partner. -/
  flSeq : Tab Word
  flRx : Option Word
  partnerVer : Nat
  deriving DecidableEq, Repr

def Eth.reset : Eth := { ports := [], fdb := [], rio := [], flSeq := [], flRx := none, partnerVer := 0 }

/-! ### CAN ports (R627 to R650) -/

/-- A frame pending in a transmit buffer. -/
structure CanTx where
  id : Nat
  ide : Bool
  fdf : Bool
  brs : Bool
  bytes : List Nat
  oneShot : Bool
  /-- 0 a descriptor of a ring, 1 a CAN_TX block by IID, 2 the buffer's map entries. -/
  src : Nat
  by_ : Nat
  deriving DecidableEq, Repr

/-- A message buffer. -/
structure CanBuf where
  arrivals : Word
  /-- The latest frame received: its identifier and flags word, and its data. -/
  has : Bool
  id : Word
  bytes : List Nat
  at_ : Nat
  stale : Bool
  tx : Option CanTx
  /-- The place of the pending frame in the order in which the port's frames were queued (R634). -/
  ord : Nat
  /-- What the REAL points mapped to a stale buffer held before (R645). -/
  held : List (Nat × Word)
  /-- ARRIVALS at the latest descriptor read (R633). -/
  read : Word
  /-- When the next period begins, and the time of the latest mapped frame (R646). -/
  next : Nat
  last : Option Nat
  /-- A mapped point has changed since the latest encoding. -/
  dirty : Bool
  /-- How the latest block frame ended: 0 none, 1 DONE, 2 ERR (R407). -/
  result : Nat
  deriving DecidableEq, Repr

def CanBuf.reset : CanBuf :=
  { arrivals := 0, has := false, id := 0, bytes := [], at_ := 0, stale := false, tx := none, ord := 0, held := [],
    read := 0, next := 0,
    last := none, dirty := false, result := 0 }

/-- One CAN port. -/
structure CanPort where
  /-- 0 error active, 1 error passive, 2 bus-off. -/
  st : Nat
  monitor : Bool
  recovering : Bool
  tec : Nat
  rec_ : Nat
  rx : Word
  tx : Word
  unmatched : Word
  short : Word
  /-- FD_EN as it took effect (R630). -/
  fd : Bool
  /-- Frames queued so far, and how many had been when the latest transmission ended (R634). -/
  ord : Nat
  mark : Nat
  buf : Tab CanBuf
  deriving DecidableEq, Repr

def CanPort.reset : CanPort :=
  { st := 0, monitor := false, recovering := false, tec := 0, rec_ := 0, rx := 0, tx := 0, unmatched := 0, short := 0,
    fd := false, ord := 0, mark := 0, buf := [] }

/-! ### The metering cartridge (R262 to R325) -/

/-- A demand set's interval in progress. -/
structure DemSet where
  /-- Sub-interval ends since the interval began. -/
  subs : Nat
  /-- Cartridge time of the interval's start and of the last sub-interval end, in microseconds. -/
  start : Nat
  subEnd : Nat
  /-- An automatic close lies in the interval, and automatic closes in a row. -/
  auto : Bool
  autoRun : Nat
  /-- Operating time of the last automatic close logged. -/
  logged : Option Nat
  /-- The interval began at a start or a commit of the set (R297). -/
  part : Bool
  /-- A strobe waiting for its cycle boundary: its phase timestamp and network time in seconds. -/
  strobe : Option (Nat × Option Nat)
  /-- Network time of the previous interval end (R294). -/
  lastB : Option Int
  deriving DecidableEq, Repr

def DemSet.reset : DemSet :=
  { subs := 0, start := 0, subEnd := 0, auto := false, autoRun := 0, logged := none, part := true, strobe := none,
    lastB := none }

/-- What an averaging window has summed of one current input (R283): cycles; active and reactive power in pW and apparent power in
pVA; RMS voltage in mV and current in nA; harmonics 1 to 31 of both; whether its voltage was absent, a signal out of range, and
the latest cycle below the starting current. -/
structure InAcc where
  n : Nat
  p : Int
  q : Int
  s : Nat
  v : Nat
  i : Nat
  hv : List Nat
  hi : List Nat
  noV : Bool
  excess : Bool
  low : Bool
  deriving DecidableEq, Repr

def InAcc.reset : InAcc :=
  { n := 0, p := 0, q := 0, s := 0, v := 0, i := 0, hv := [], hi := [], noV := false, excess := false, low := false }

/-- A circuit's interval in progress and its records. -/
structure Circ where
  /-- Internal AP and AN at the interval's start. -/
  ap0 : Nat
  an0 : Nat
  /-- Cartridge time of the interval's start, in microseconds. -/
  start : Nat
  /-- The interval began at a commit of the circuit's entry; a parameter changed within it. -/
  part : Bool
  changed : Bool
  /-- Number of the latest interval and the last 96 records, the latest first. -/
  seq : Nat
  recs : List (List Word)
  /-- Billing partition in force, and the one that takes effect at the next interval end. -/
  tenant : Nat
  tenantNext : Option Nat
  deriving DecidableEq, Repr

def Circ.reset : Circ :=
  { ap0 := 0, an0 := 0, start := 0, part := true, changed := false, seq := 0, recs := [], tenant := 0, tenantNext := none }

/-- A pulse output or the MTR indicator: accumulator, pending count, whether it conducts (R299 to R301). -/
structure Pulse where
  acc : Nat
  pend : Nat
  on : Bool
  /-- Pulses not emitted since the loss was last logged, and when that was. -/
  lost : Nat
  logged : Option Nat
  deriving DecidableEq, Repr

def Pulse.reset : Pulse := { acc := 0, pend := 0, on := false, lost := 0, logged := none }

/-- One of the 16 save slots (R304): the registers, the pulse outputs, the demand sets' and the circuits' running intervals, and the
CRC-32C. -/
structure SaveSlot where
  seq : Nat
  optime : Nat
  residual : Bool
  circ : Tab (List Nat)
  phs : Tab (List Nat)
  pulses : Tab Pulse
  sets : Tab DemSet
  /-- Of each circuit: AP and AN at its interval's start, that start, PARTIAL and PARAM_CHANGED. -/
  ivals : Tab (Nat × Nat × Nat × Bool × Bool)
  crc : Word
  deriving DecidableEq, Repr

/-- A door of the mailbox (R319, R320). -/
structure Door where
  busy : Bool
  result : Nat
  done : Word
  /-- The command running and its arguments, and the ring that gave it. -/
  op : Nat
  arg0 : Word
  arg1 : Word
  deriving DecidableEq, Repr

def Door.reset : Door := { busy := false, result := 0, done := 0, op := 0, arg0 := 0, arg1 := 0 }

/-- The metering cartridge. -/
structure Mtr where
  running : Bool
  sealOpen : Bool
  fault : Bool
  temp : Int
  swVer : Word
  cntSeal : Word
  cntParam : Word
  cntPwr : Word
  cntRes : Word
  meterId : Option (List Nat)
  /-- Operating time in 0.1 s, with its remainder in microseconds. -/
  optime : Nat
  optimeUs : Nat
  /-- Time by the cartridge's own crystal since it started, in microseconds. -/
  us : Nat
  snapGen : Word
  saveSeq : Nat
  /-- Internal registers of the circuit sets and the phase sets: AP, AN, VQ1 to VQ4, VA. -/
  circ : Tab (List Nat)
  phs : Tab (List Nat)
  /-- The snapshot in the read window: the same registers and the save number. -/
  snapCirc : Tab (List Nat)
  snapPhs : Tab (List Nat)
  snapSave : Nat
  /-- The rest of the snapshot: the metering points, and the circuit map its FLAGS follow. -/
  snapPts : Tab Word
  snapMap : List Nat
  /-- Parameter blocks 0 to 3 and their staged copies, as bytes. -/
  par : Tab (List Nat)
  staged : Tab (List Nat)
  circs : Tab Circ
  sets : Tab DemSet
  pulses : Tab Pulse
  slots : Tab SaveSlot
  /-- The two regions of the log, the oldest record first, and the next record number. -/
  opLog : List (List Word)
  legalLog : List (List Word)
  logSeq : Nat
  /-- Cycles in the present averaging window (R283), and its sums: by current input, of V1 to V3 in mV, and of the neutral current
  of each three-phase circuit in nA. -/
  winN : Nat
  acc : Tab InAcc
  vacc : List Nat
  nacc : Tab Nat
  /-- Corrections of gain and phase in force and those of the latest temperature (R286). -/
  corr : Tab (Int × Int)
  corrNext : Tab (Int × Int)
  openDoor : Door
  secDoor : Door
  /-- The response window's eight words. -/
  resp : List Word
  /-- The indicator shows the check identifier (R303, R320): how many of its 16 flashes have begun. -/
  showing : Option Nat
  /-- Parameter commits accepted and taking effect at the next cycle boundary: block and bytes (R320). -/
  applied : List (Nat × List Nat)
  /-- Close strobes sent and not yet received: set mask, phase timestamp, and network time in seconds (R292). -/
  strobes : List (Nat × Nat × Option Nat)
  /-- The fundamentals of V1 to V3 of the latest cycle, in mV (R76). -/
  fund : List Nat
  /-- Angles by which V2 and V3 lag V1, as measured while V1 was present (R76), in 1/16 phase unit. -/
  angles : Option Nat × Option Nat
  /-- Supply loss has been declared and the cartridge has not stopped (R306): the cartridge time at which its hold-up ends. -/
  dipping : Option Nat
  deriving DecidableEq, Repr

def Mtr.reset : Mtr :=
  { running := false, sealOpen := false, fault := false, temp := 0, swVer := 0, cntSeal := 0, cntParam := 0, cntPwr := 0,
    cntRes := 0, meterId := none, optime := 0, optimeUs := 0, us := 0, snapGen := 0, saveSeq := 0, circ := [],
    phs := [], snapCirc := [], snapPhs := [], snapSave := 0, snapPts := [], snapMap := [], par := [], staged := [], circs := [], sets := [],
    pulses := [], slots := [], opLog := [], legalLog := [], logSeq := 1, winN := 0, acc := [], vacc := [], nacc := [], corr := [], corrNext := [],
    openDoor := Door.reset, secDoor := Door.reset, resp := [], showing := none, applied := [], strobes := [], fund := [], angles := (none, none),
    dipping := none }

/-! ### The control engine (R326 to R365) -/

/-- One loop's state (R365) and what its next computation must know. -/
structure LoopSt where
  status : Word
  r : Word
  y : Word
  yf : Word
  i : Word
  v : Word
  u : Word
  uach : Word
  hlast : Nat
  satRun : Word
  satTot : Word
  /-- Milliseconds carried under a whole second of SAT_TOTAL_S (R348). -/
  satFrac : Nat
  satCnt : Word
  /-- The next computation initialises under R337; with U_ACH from the loop itself (R339). -/
  init : Bool
  own : Bool
  /-- The next computation takes Ts = PERIOD_HC / (2 f) (R330). -/
  fresh : Bool
  /-- The loop has been computed; it has a last r (R337, R340). -/
  ever : Bool
  hasR : Bool
  /-- KP, KI, KD, B, TF and FF_GAIN of the last computation (R344). -/
  used : List Word
  /-- The half cycle it was last computed for since the module started: at most one computation each (R326). -/
  lastH : Option Nat
  deriving DecidableEq, Repr

def LoopSt.reset : LoopSt :=
  { status := 0, r := 0, y := 0, yf := 0, i := 0, v := 0, u := 0, uach := 0, hlast := 0, satRun := 0, satTot := 0,
    satFrac := 0, satCnt := 0, init := true, own := false, fresh := true, ever := false, hasR := false, used := [],
    lastH := none }

/-- A loop's words in the loop-state area (R355): MODE, SP, MAN_OUT, I, YF, U_ACH, region; and whether it has still to
initialise under R337 (log 142). -/
structure LoopSave where
  mode : Word
  sp : Word
  man : Word
  i : Word
  yf : Word
  uach : Word
  region : Nat
  init : Bool
  deriving DecidableEq, Repr

/-- A pass in progress (R331): the unit of its firing, the unit at which it ends, and what its end will write: loop states,
points in order, and events as bit and loop. -/
structure PassRun where
  unit : Nat
  stop : Nat
  loops : List (Nat × LoopSt)
  writes : List (Nat × Word)
  events : List (Nat × Nat)
  deriving DecidableEq, Repr

/-- The control engine's hidden state. -/
structure Lce where
  loops : Tab LoopSt
  /-- The copy of the shadow set being built, and whether the build is complete (R358). -/
  build : Option (Tab Word)
  built : Bool
  /-- The pass in progress, and the waiting firings: unit and pass number (R332). -/
  run : Option PassRun
  wait : List (Nat × Nat)
  /-- The configuration generation saved with the live set (R356; log 143). -/
  gen : Nat
  /-- The saturation part of the loop-state area, and the operating time of its latest write (R355). -/
  satArea : Tab (Word × Word × Nat)
  satAt : Nat
  /-- Loops computed since the latest state frame (R471). -/
  sent : List Nat
  deriving DecidableEq, Repr

def Lce.reset : Lce :=
  { loops := [], build := none, built := false, run := none, wait := [], gen := 0, satArea := [], satAt := 0, sent := [] }

/-! ### The block engine (R366 to R448) -/

/-- A task's registers and its run (R388 to R392, R420). -/
structure TaskRun where
  stopped : Bool
  ovrRun : Nat
  /-- The task's ACTION has been taken in this run of overruns (R390). -/
  acted : Bool
  cycles : Word
  ovr : Word
  last : Nat
  max : Nat
  deriving DecidableEq, Repr

def TaskRun.reset : TaskRun :=
  { stopped := false, ovrRun := 0, acted := false, cycles := 0, ovr := 0, last := 0, max := 0 }

/-- What a task cycle took at its latch (R382). -/
structure Latch where
  /-- Natural point values and point forces. -/
  pts : Tab Word
  forces : List Force
  /-- Instance data as committed (R383). -/
  data : Tab Word
  rio : Tab Rio
  /-- First words of the 32 station entries. -/
  stCfg : List Word
  can : Tab CanPort
  snapCirc : Tab (List Nat)
  snapPhs : Tab (List Nat)
  snapSave : Nat
  circs : Tab Circ
  mtrRun : Bool
  par0 : List Nat
  slot : Nat
  count : Nat
  countValid : Bool
  /-- The engine's millisecond count (R401), and the time since start-up in nanoseconds. -/
  ms : Nat
  up : Nat
  deriving DecidableEq, Repr

/-- A task cycle started and not committed. -/
structure Cycle where
  task : Nat
  /-- Absolute unit and timestamp of its firing, and its half-cycle number. -/
  unit : Nat
  ts : Nat
  latch : Latch
  deriving DecidableEq, Repr

/-- A retained copy (R393): save number, RETAIN_ID, operating time, and the retained words; beside it, valid with it, the
loops' words and the configuration generation they belong to (R355). -/
structure RetainCopy where
  seq : Word
  id : List Nat
  count : Nat
  optime : Nat
  words : List Word
  gen : Nat
  loops : Tab LoopSave
  deriving DecidableEq, Repr

/-- A pending activation (R423). -/
structure Activation where
  ring : Nat
  schedWith : Bool
  built : Bool
  /-- Phase unit at which the build completed (R429). -/
  builtAt : Nat
  deriving DecidableEq, Repr

/-- A copy of the program store (R380): its store sequence number and image bytes, and whether both are whole. -/
structure StoreCopy where
  seq : Nat
  bytes : List Nat
  good : Bool
  deriving DecidableEq, Repr

/-- The block engine's hidden state. -/
structure Ble where
  running : Bool
  stopCause : Nat
  tripTask : Nat
  /-- Instance data as committed. -/
  data : Tab Word
  tasks : Tab TaskRun
  run : Option Cycle
  /-- Preempted cycles, the latest first, and waiting firings: task, unit, entry and timestamp (R384). -/
  stack : List Cycle
  wait : List (Nat × Nat × Nat × Nat)
  /-- How each instance was last executed, by instance index (R401): 0 never since its words were initial; 1 not since a warm
  restart restored its words; 2 not since a switch; 3 + the millisecond count of its latest execution. -/
  lastMs : Tab Nat
  /-- Previous-input memories to be loaded at the first execution after a switch: instance index, memory word, input pin (R440). -/
  rewired : List (Nat × Nat × Nat)
  /-- Host writes that wait for the end of a cycle: word index, value, ring (R386). -/
  writes : List (Nat × Word × Nat)
  /-- The two retained copies; whether a save is being written, and its words. -/
  retA : Option RetainCopy
  retB : Option RetainCopy
  saving : Option RetainCopy
  /-- A save that waits for the one being written (R396). -/
  again : Bool
  /-- The first commit after a switch saves (R443). -/
  switchSave : Bool
  /-- The inactive image bank, and the load in progress: IMG_LEN and the bytes so far (R421, R535). -/
  inactive : Option Image
  load : Option (Nat × List Nat)
  act : Option Activation
  store0 : Option StoreCopy
  store1 : Option StoreCopy
  storing : Option StoreCopy
  /-- Instance words and variables changed by commits since the latest state frame (R471). -/
  dirty : List Nat
  dirtyVars : List Nat
  deriving DecidableEq, Repr

def Ble.reset : Ble :=
  { running := false, stopCause := 1, tripTask := 0, data := [], tasks := [], run := none, stack := [], wait := [],
    lastMs := [], rewired := [], writes := [], retA := none, retB := none, saving := none, again := false,
    switchSave := false, inactive := none, load := none, act := none, store0 := none, store1 := none, storing := none,
    dirty := [], dirtyVars := [] }

/-! ### The pair (R459 to R498) -/

/-- A handoff in progress (R490): its boundary's cycle number when named, its cause, and the ring that asked. -/
structure Plan where
  /-- Cycle number of the boundary, the cause of R497, and the ring of a HANDOFF_REQ. -/
  at_ : Nat
  cause : Nat
  ring : Option Nat
  /-- Cycle number at the request (R491). -/
  req : Nat
  /-- The boundary has come: the ball has been released, or on the standby the final frame has arrived. -/
  out : Bool
  deriving DecidableEq, Repr

/-- The pair's hidden state. -/
structure Twn where
  pair : Nat
  role : Nat
  tlUp : Bool
  flUp : Bool
  tlMiss : Nat
  flMiss : Nat
  tlMissTot : Nat
  flMissTot : Nat
  lease : Nat
  leaseExp : Bool
  reason : Nat
  own : Word
  peer : Word
  verUsed : Nat
  features : Nat
  cause : Nat
  count : Nat
  lastTs : Nat
  /-- Half-cycle number of the sample the latest valid state frame (on the holder: rally frame) belongs to. -/
  tlHalf : Option Nat
  /-- What is known of the partner: 0 nothing, 1 it holds the ball, 2 it is standby, 3 starting. -/
  partner : Nat
  /-- State-frame sequence number sent and last applied. -/
  seqTx : Word
  seqRx : Option Word
  /-- Absolute unit of the latest own sample (R474, R475). -/
  sampleA : Nat
  /-- The full copy is complete; one has been asked for (R469). -/
  copied : Bool
  asked : Bool
  /-- Conditions of R468 that frames decide: no frame missed, and the clock together. -/
  frameOk : Bool
  clockOk : Bool
  /-- Save sequence number and checksum of the latest frame's retain save (R468). -/
  retain : Option (Word × Word)
  /-- What the latest applied frame carried: field inputs with diagnostic words, counts with this module's own at the same batch, ring positions. -/
  ins : Tab (Word × Word)
  counts : Tab (Word × Word)
  ringPos : Tab Word
  /-- ISOLATED until rally has returned on a path (R483). -/
  isolated : Bool
  plan : Option Plan
  /-- Absolute unit from which LCE_PASS and BLE_TASK firings are dispatched again (R482, R490). -/
  from_ : Nat
  /-- The sense paths and loop supplies are open (R485), and the absolute unit at which the transfer interval of R486 ends. -/
  senseOpen : Bool
  transA : Nat
  /-- Time at which the conditions of takeback began to hold (R493), and of the takeover after a trip (R495). -/
  backAt : Option Nat
  tripAt : Option Nat
  /-- This module's program watchdog has tripped and it waits for a restart (R495). -/
  tripped : Bool
  /-- On a standby the digest of the holder's active image; on the holder that of the standby's inactive image (R446, R468). -/
  peerImage : List Nat
  /-- How much of the inactive image has been carried to the standby in frames, while it is being carried (R446); on a standby,
  the bytes that have arrived. -/
  loadOut : Option Nat
  loadIn : List Nat
  /-- Content of the state frames that arrived while a full copy was under way (R469). -/
  during : List CopyItem
  /-- The alarm of the present run of misses has been raised, for each path (R476). -/
  alarmTl : Bool
  alarmFl : Bool
  /-- Time since which a terminal has disagreed with the holder's value, and the channel whose converter was tested with the
  absolute unit at which its window ended (R480). -/
  plausAt : Option Nat
  testing : Option (Nat × Nat)
  /-- Force changes and mirrored commits since the latest state frame (R471). -/
  forceSent : List Force
  mirror : List Nat
  deriving DecidableEq, Repr

def Twn.reset : Twn :=
  { pair := 0, role := 0, tlUp := false, flUp := false, tlMiss := 0, flMiss := 0, tlMissTot := 0, flMissTot := 0,
    lease := 3, leaseExp := false, reason := 1, own := 0, peer := 0, verUsed := 0, features := 0, cause := 0, count := 0,
    lastTs := 0, tlHalf := none, partner := 0, seqTx := 0, seqRx := none, sampleA := 0, copied := false,
    asked := false, frameOk := true, clockOk := false, retain := none, ins := [],
    counts := [], ringPos := [], isolated := false, plan := none, from_ := 0, senseOpen := true, transA := 0, backAt := none,
    tripAt := none, tripped := false, peerImage := [], loadOut := none, loadIn := [], during := [],
    alarmTl := false, alarmFl := false, plausAt := none, testing := none, forceSent := [], mirror := [] }

/-! ### Worlds and keys (R679 to R722) -/

/-- A key slot. -/
structure KeySlot where
  gen : Word
  /-- The slot holds a key; its record is damaged (R708). -/
  full : Bool
  damaged : Bool
  kind : Nat
  attr : Word
  parent : Nat
  parentGen : Word
  level : Nat
  /-- 0 generated inside, 1 derived inside, 2 enrolled (R717). -/
  origin : Nat
  secret : List Nat
  pub : List Nat
  /-- The record location the select bit names (R706). -/
  sel : Bool
  deriving DecidableEq, Repr

def KeySlot.reset : KeySlot :=
  { gen := 0, full := false, damaged := false, kind := 0, attr := 0, parent := 0, parentGen := 0, level := 0,
    origin := 0, secret := [], pub := [], sel := false }

/-- The security block. -/
structure Sec where
  lc : Nat
  /-- The state from which DEBUG was entered (R712). -/
  lcFrom : Nat
  rootOk : Bool
  locked : Bool
  entropyOk : Bool
  rootGen : Word
  /-- The root secret. -/
  root : List Nat
  remask : Word
  /-- The last remask round, in nanoseconds since the start (R709). -/
  maskAt : Nat
  /-- A remask postponed by R710. -/
  remaskDue : Bool
  violInfo : Word
  violAddr : Word
  sat : Tab Word
  slots : Tab KeySlot
  debug : Tab KeySlot
  /-- The mask of each slot, as the number of times it has been drawn (R709). -/
  masks : Tab Nat
  deriving DecidableEq, Repr

def Sec.reset : Sec :=
  { lc := 1, lcFrom := 1, rootOk := false, locked := false, entropyOk := false, rootGen := 0, root := [], remask := 0,
    maskAt := 0, remaskDue := false, violInfo := 0, violAddr := 0, sat := [], slots := [], debug := [], masks := [] }

/-! ### Firmware update (R723 to R742) -/

/-- A firmware bank: the image file's chunks as stored (R726). -/
structure FwBank where
  /-- The bank holds firmware. -/
  full : Bool
  chunks : Tab (List Nat)
  rel : Nat
  build : Nat
  floor : Nat
  setFmt : Nat
  deriving DecidableEq, Repr

def FwBank.reset : FwBank := { full := false, chunks := [], rel := 0, build := 0, floor := 0, setFmt := 0 }

/-- A chunk being assembled from fragments (R732): index, count, length, its fragments, and when the latest came. -/
structure Partial_ where
  idx : Nat
  count : Nat
  len : Nat
  frags : List (Nat × List Nat)
  deriving DecidableEq, Repr

/-- The update engine and the journal. -/
structure Upd where
  stage : Nat
  verifyErr : Nat
  installErr : Nat
  outcome : Nat
  /-- Staged chunks by index, and the chunk count of the open transfer. -/
  chunks : Tab (List Nat)
  count : Option Nat
  mark : Bool
  /-- The active bank, the two banks, and whether each holds firmware. -/
  active : Nat
  bank0 : FwBank
  bank1 : FwBank
  trial : Bool
  startsUsed : Nat
  /-- Operating time at the install start (R737). -/
  trialAt : Nat
  floor : Nat
  /-- A fallback is pending in the journal (R738). -/
  fallback : Bool
  /-- A planned handoff was asked for: 1 to install, 2 to fall back; the time of the last request. -/
  leaving : Nat
  askAt : Nat
  /-- Partial chunks, the oldest latest fragment first, and the time of the latest fragment. -/
  parts : List Partial_
  fragAt : Option Nat
  reportAt : Nat
  setFmt : Nat
  kept : Nat
  /-- The settings area as the old firmware left it (R736): registers and live sets. -/
  oldRegs : Tab Word
  oldLive : Tab Word
  /-- Cartridge software on its way (R740): the plaintext. -/
  cartSw : Option (List Nat)
  /-- The first start of an installed image converts settings (R736). -/
  convert : Bool
  /-- The partner's running release from pair negotiation (R733). -/
  peerRel : Nat
  deriving DecidableEq, Repr

def Upd.reset : Upd :=
  { stage := 0, verifyErr := 0, installErr := 0, outcome := 0, chunks := [], count := none, mark := false, active := 0,
    bank0 := { FwBank.reset with full := true, setFmt := 1 }, bank1 := FwBank.reset, trial := false, startsUsed := 0, trialAt := 0, floor := 0,
    fallback := false, leaving := 0, askAt := 0, parts := [], fragAt := none, reportAt := 0, setFmt := 1, kept := 0,
    oldRegs := [], oldLive := [], cartSw := none, convert := false, peerRel := 0 }

/-! ### The whole machine -/

/-- The state of the module. -/
structure State where
  /-- Setup registers by BAR0 offset: live value, or shadow of a staged register (R11 to R16). -/
  regs : Tab Word
  /-- Live copies of the staged registers, under their shadow's offset (R759). -/
  live : Tab Word
  /-- High words latched by a read of their low word, by the offset of the high word (R12). -/
  latch : Tab Word
  /-- Low words written and not yet taken up by a write of their high word (R12). -/
  lowHeld : Tab Word
  /-- The point image: natural values by point identifier. -/
  pts : Tab Word
  base : Base
  phc : Phc
  clk : Clk
  banks : Tab Bank
  ch : Tab Chan
  rings : Tab Ring
  /-- Events that have arisen at this phase unit and are not yet written. -/
  evq : List Ev
  /-- The recorder's queue, its slots in MRAM, the next sequence number, and records dropped but not yet told of (R672 to R677). -/
  recq : List Rec
  recSlots : Tab (List Word)
  recNext : Word
  recLost : Nat
  recLostCls : Word
  watches : List Watch
  rtc : Rtc
  /-- The MSI-X table and pending bits (R502), and the command bits of configuration space. -/
  msix : Tab Word
  msixPend : Tab Word
  busMaster : Bool
  memEnable : Bool
  /-- The force table (R449), kept in MRAM (R455). -/
  forces : List Force
  /-- The active image (R380). -/
  img : Option Image
  /-- Nanoseconds by the main crystal since the module last started (R401). -/
  up : Nat
  ptp : Ptp
  eth : Eth
  can : Tab CanPort
  mtr : Mtr
  lce : Lce
  ble : Ble
  twn : Twn
  sec : Sec
  upd : Upd
  /-- The model's own counter: how many free values have been taken (log 1). -/
  free : Nat
  /-- What the module has sent, oldest first. -/
  out : List Out
  /-- Commands waiting, first in first out. -/
  pending : List Instr
  deriving DecidableEq, Repr

/-- The module right after reset. -/
def State.reset : State :=
  { regs := [], live := [], latch := [], lowHeld := [], pts := [], base := Base.reset, phc := Phc.reset,
    clk := Clk.reset, banks := [], ch := [], rings := [], evq := [], recq := [], recSlots := [], recNext := 1,
    recLost := 0, recLostCls := 0, watches := [], rtc := Rtc.reset, msix := [], msixPend := [], busMaster := false,
    memEnable := false,
    forces := [], img := none,
    up := 0, ptp := Ptp.reset, eth := Eth.reset, can := [], mtr := Mtr.reset,
    lce := Lce.reset, ble := Ble.reset, twn := Twn.reset, sec := Sec.reset, upd := Upd.reset,
    free := 0, out := [], pending := [] }

end Sys2Proof.Machine
end

