-- ==== Sys2Proof/Machine/Ops.lean ====
section
/-! DEFINITION. The named operations every meaning is built from: registers and their staged copies, points, time,
events, what goes out, and the hardware gating that closes every command. -/

namespace Sys2Proof.Machine

/-! ### Registers -/

/-- The live value, or the shadow of a staged register, at a BAR0 offset. -/
def rget (s : State) (off : Nat) : Word := tget regReset s.regs off

/-- The state with the register at an offset replaced. -/
def rset (s : State) (off : Nat) (v : Word) : State := { s with regs := tset regReset s.regs off v }

/-- The live copy of a staged register. -/
def lget (s : State) (off : Nat) : Word := tget regReset s.live off

/-- The state with the live copy of a staged register replaced. -/
def lset (s : State) (off : Nat) (v : Word) : State := { s with live := tset regReset s.live off v }

/-- A field of a register. -/
def rfld (s : State) (off hi lo : Nat) : Nat := fld (rget s off) hi lo

/-- The state with a field of a register replaced. -/
def rsetFld (s : State) (off hi lo v : Nat) : State := rset s off (setFld (rget s off) hi lo v)

/-- The state with a wrapping 32-bit counter register advanced. -/
def rinc (s : State) (off : Nat) : State := rset s off (rget s off + 1)

/-- The state with bits of a register set. -/
def ror (s : State) (off : Nat) (m : Word) : State := rset s off (rget s off ||| m)

/-- The state with bits of a register cleared. -/
def rclr (s : State) (off : Nat) (m : Word) : State := rset s off (rget s off &&& ~~~ m)

/-- The word a write of `v` leaves in a register under its access codes (R13, R15). -/
def writeWord (i : RegInfo) (old v : Word) : Word :=
  let m := i.rw ||| i.rws
  ((old &&& ~~~ m) ||| (v &&& m)) &&& ~~~ (v &&& i.w1c)

/-- The state after a plain write of a register under its access codes (R15). -/
def rwrite (s : State) (off : Nat) (v : Word) : State := rset s off (writeWord (regInfo off) (rget s off) v)

/-! ### Time -/

/-- The absolute count of phase units (R106). -/
def absA (s : State) : Nat := s.phc.cycle * 4096 + s.phc.phase

/-- The phase timestamp of an absolute unit under given flags (R8, R79). -/
def tsOf (flags a : Nat) : Nat := (flags <<< 60) + a % 2 ^ 60

/-- The present phase timestamp; 0 while the clock has issued none (R81). -/
def nowTs (s : State) : Nat := if s.phc.run && s.phc.st != 0 then tsOf s.phc.flags (absA s) else 0

/-- Phase units of a time in microseconds at the frequency the clock runs at (R9), rounded up. -/
def unitsOfUs (s : State) (us : Nat) : Nat := ceilDiv (us * s.phc.freq * 4096) 10000000000

/-! ### Events and what goes out -/

/-- The state with something sent. -/
def emit (s : State) (o : Out) : State := { s with out := s.out ++ [o] }

/-- The next free value's index, and the state with the counter advanced (log 1). -/
def takeFree (s : State) : Nat × State := (s.free, { s with free := s.free + 1 })

/-- The present contents of the power-cycle count (R670). -/
def pwrCycles (s : State) : Word := s.rtc.pwrCycles

/-- The state with an event that has arisen now (R549, R675). -/
def pushEv (s : State) (code cls part : Nat) (body : List Word) (block obj : Nat) (host rec_ : Bool) : State :=
  { s with evq := s.evq ++ [⟨code, cls, part, nowTs s, s.rtc.optime, body, block, obj, host, rec_⟩] }

/-- A recorder event that has no host event (R673). -/
def recEvent (s : State) (code block obj : Nat) (body : List Word) : State := pushEv s code 6 0 body block obj false true

/-- The five mapping words of the latest capture (R102). -/
def mapWords (s : State) : List Word :=
  let c := s.phc.cap1
  [w32 c.ts, w32 (c.ts >>> 32), w32 (c.ns % 1000000000), w32 (c.ns / 1000000000),
    w32 (((c.ns / 1000000000) >>> 32) % 65536 + c.valid.toNat * 2 ^ 31)]

/-- A time event: kind 0 periodic, 1 PHC_EVENT, 2 HOST_EVENT firing, 3 timed actions cancelled (R552). -/
def timeEvent (s : State) (kind : Nat) (w6 : Word) (rec_ : Bool) : State :=
  pushEv s 2 0 0 (mapWords s ++ [w32 kind, w6]) 2 0xFFFF true rec_

/-- The class of a REG_EVENT by the block of its register (R552). -/
def regClass (off : Nat) : Nat :=
  match off / 0x10000 with
  | 3 => 2
  | 4 => 3
  | 5 => 4
  | 6 => 5
  | 2 => 0
  | 7 => 1
  | 9 => 9
  | 10 => 9
  | 12 => 10
  | 13 => 10
  | _ => 6

/-- A queued REG_EVENT of this register and object at this phase unit takes in more bits; none found: none (R552). -/
def mergeReg (off : Nat) (bits obj value : Word) (ts : Nat) (host rec_ : Bool) (extra : List Word) : List Ev → Option (List Ev)
  | [] => none
  | e :: r =>
    if e.code = 1 ∧ wAt e.body 0 = w32 off ∧ wAt e.body 2 = obj ∧ e.ts = ts ∧ e.toHost = host ∧ e.toRec = rec_ then
      let tail := if extra.isEmpty then e.body.drop 4 else extra
      some ({ e with body := [w32 off, wAt e.body 1 ||| bits, obj, value] ++ tail } :: r)
    else (mergeReg off bits obj value ts host rec_ extra r).map (e :: ·)

/-- The REG_EVENT of bits that became set in a latched register (R552): to the host, and to the recorder for those that
write a recorder event; extra words go to the recorder's payload. -/
def regEvent (s : State) (off : Nat) (bits obj : Word) (part : Nat) (host rec_ : Bool) (extra : List Word) : State :=
  match mergeReg off bits obj (rget s off) (nowTs s) host rec_ extra s.evq with
  | some q => { s with evq := q }
  | none => pushEv s 1 (regClass off) part ([w32 off, bits, obj, rget s off] ++ extra) (off / 0x10000)
      (if obj = 0xFFFFFFFF then 0xFFFF else obj.toNat) host rec_

/-- Bits of a latched event register become set; those that were 0 raise one REG_EVENT, and a recorder event where asked. -/
def raiseBits (s : State) (off : Nat) (bits obj : Word) (part : Nat) (host rec_ : Bool) (extra : List Word) : State :=
  let new := bits &&& ~~~ (rget s off)
  if new = 0 then s else regEvent (ror s off new) off new obj part host rec_ extra

/-- As `raiseBits`, with a host event and no recorder event, for no object. -/
def raiseHost (s : State) (off : Nat) (bits : Word) : State := raiseBits s off bits 0xFFFFFFFF 0 true false []

/-- As `raiseBits`, with a host event and a recorder event, for no object. -/
def raiseBoth (s : State) (off : Nat) (bits : Word) : State := raiseBits s off bits 0xFFFFFFFF 0 true true []

/-- PHC_EVENT bits become set: a time event and a recorder event (R100). -/
def raisePhc (s : State) (bits : Word) : State :=
  let new := bits &&& ~~~ (rget s oPhcEvent)
  if new = 0 then s else timeEvent (ror s oPhcEvent new) 1 new true

/-- An item is poisoned at a hop: GLB_INTEG_EVENT and GLB_INTEG_LAST follow (R570, R582). -/
def poison (s : State) (hop : Nat) : State :=
  let last := rget s oIntegLast
  let s := rset s oIntegLast (w32 (hop + (((fld last 31 16 + 1) % 65536) <<< 16)))
  raiseBoth s oIntegEvent (oneBit hop)

/-! ### Start-up status -/

/-- GLB_START_STATUS.STAGE (R154). -/
def stage (s : State) : Nat := rfld s oStartStatus 3 0

/-- The module is halted (R148). -/
def haltedMod (s : State) : Bool := stage s == 0xF

/-- The logic side is not held in reset-wait, or shows that XTAL or a PLL never came good (R130, R154). -/
def notHeld (s : State) : Bool := s.clk.resetWait.isNone || rfld s oStartStatus 7 0 == 0x1F

/-- Start-up is complete (R150). -/
def started (s : State) : Bool := stage s == 9

/-- A block answers accesses: its gate is open and not closing (R135, R136). -/
def blockUp (s : State) (bit : Nat) : Bool := bitOf (rget s oGateOpen) bit && !bitOf s.clk.closing bit

/-- A write of a register of a block reaches it: the logic side runs, is not held, not halted, and the block's gate is open
(R130, R136, R148). -/
def reached (s : State) (bit : Nat) (f : State → State) : State :=
  if s.clk.alive && s.clk.resetWait.isNone && !haltedMod s && blockUp s bit then f s else s

/-! ### Points -/

/-- The natural value of a point. -/
def pnat (s : State) (id : Nat) : Word := tget ptDefault s.pts id

/-- What keeps track of changed points: the CAN transmit buffer a mapped point belongs to (R646), and the program variables
for the next state frame (R471). -/
def notePoint (s : State) (id : Nat) : State :=
  if 0x1800 ≤ id then { s with ble := { s.ble with dirtyVars := (s.ble.dirtyVars ++ [id]).eraseDups } }
  else if 0x400 ≤ id ∧ id < 0x500 then
    let c := rget s (oCanMap (id - 0x400))
    if bitOf c 0 then
      let p := tget (fun _ => CanPort.reset) s.can (fld c 2 1)
      let b := tget (fun _ => CanBuf.reset) p.buf (fld c 8 3)
      let p := { p with buf := tset (fun _ => CanBuf.reset) p.buf (fld c 8 3) { b with dirty := true } }
      { s with can := tset (fun _ => CanPort.reset) s.can (fld c 2 1) p }
    else s
  else s

/-- The state with a point's natural value replaced. -/
def pset (s : State) (id : Nat) (v : Word) : State :=
  let t := { s with pts := tset ptDefault s.pts id v }
  if pnat s id = v then t else notePoint t id

/-! ### Banks and channels -/

/-- Bank `b`. -/
def bank (s : State) (b : Nat) : Bank := tget (fun _ => Bank.reset) s.banks b

/-- The state with bank `b` replaced. -/
def setBank (s : State) (b : Nat) (v : Bank) : State := { s with banks := tset (fun _ => Bank.reset) s.banks b v }

/-- The state with bank `b` changed. -/
def modBank (s : State) (b : Nat) (f : Bank → Bank) : State := setBank s b (f (bank s b))

/-- Channel `c`. -/
def chan (s : State) (c : Nat) : Chan := tget (fun _ => Chan.reset) s.ch c

/-- The state with channel `c` replaced. -/
def setChan (s : State) (c : Nat) (v : Chan) : State := { s with ch := tset (fun _ => Chan.reset) s.ch c v }

/-- The state with channel `c` changed. -/
def modChan (s : State) (c : Nat) (f : Chan → Chan) : State := setChan s c (f (chan s c))

/-- A change made for each number of a list, in order. -/
def forAll {α : Type} (l : List α) (f : State → α → State) (s : State) : State := l.foldl f s

/-- The sixteen channels of bank `b`. -/
def bankChans (b : Nat) : List Nat := (upto 16).map (16 * b + ·)

/-! ### Partitions, base and ball -/

/-- The live partition of channel `c`'s points (R159, R721). -/
def chanPart (s : State) (c : Nat) : Nat := fld (lget s (0x200 + 4 * c)) 4 0

/-- The live partition of loop `n` (R721). -/
def loopPart (s : State) (n : Nat) : Nat := fld (lget s (0x600 + 4 * n)) 4 0

/-- The module stands on a twin base (R37). -/
def onTwin (s : State) : Bool := s.base.slot == 1 || s.base.slot == 2

/-- GLB_BASE_STATUS.SEATED (R71). -/
def seatedNow (s : State) : Bool := s.base.seated && s.base.slot != 3

/-! ### The pair -/

/-- TWN_EVENT bits become set: a host event and a recorder event (R497). -/
def twnEvent (s : State) (bit : Nat) : State := raiseBoth s oTwnEvent (oneBit bit)

/-- The module is the standby of a pair: it runs no task and no pass (R459). -/
def isStandby (s : State) : Bool := s.twn.role == 2

/-- The conditions under which slot A takes the ball back (R493). -/
def backReady (s : State) : Bool :=
  s.base.slot == 1 && s.twn.role == 2 && bitOf (rget s oTwnCtrl) 0 && s.twn.reason == 0 && s.twn.own == 0

/-- TWN_HEALTH changes: HEALTH_CHG, and a host event at every change (R481, R497). -/
def healthEvent (s : State) : State :=
  if bitOf (rget s oTwnEvent) 7 then regEvent s oTwnEvent (oneBit 7) 0xFFFFFFFF 0 true false [] else twnEvent s 7

/-- TWN_STATUS.PAIR_STATE as the partner, the reason and a handoff leave it (R497), a module that has no role keeping it; and
the time since which the conditions of takeback hold (R493). -/
def refreshPair (s : State) : State :=
  let w := s.twn
  let p :=
    if w.role = 1 then
      (if !onTwin s then 0 else if w.plan.isSome then 5 else if w.partner = 0 then 2 else if w.reason = 0 then 4 else 3)
    else if w.role = 2 then
      (if w.isolated then 6 else if w.plan.isSome then 5 else if w.reason = 0 then 4 else 3)
    else w.pair
  { s with twn := { w with pair := p, backAt := if backReady s then some (w.backAt.getD s.up) else none } }

/-- A note for the next state frame that a force was set, changed or, with 2 added to its kind, released (R471). -/
def noteForce (s : State) (f : Force) : State :=
  let l := s.twn.forceSent.filter (fun g => !(g.kind % 2 == f.kind % 2 && g.obj == f.obj && (f.kind % 2 == 0 || g.pin == f.pin)))
  { s with twn := { s.twn with forceSent := l ++ [f] } }

/-- A commit register of a mirrored block has no effect on a standby (R478). -/
def unlessStandby (s : State) (f : State → State) : State := if isStandby s then twnEvent s 10 else f s

/-- A note for the next state frame that a mirrored block's commit was applied: 0 GLB_START_CFG, 2 PHC, 4 LCE, 5 the image, 7 TWN registers, 16 + b bank b (R478). -/
def noteMirror (s : State) (blk : Nat) : State := { s with twn := { s.twn with mirror := (s.twn.mirror ++ [blk]).eraseDups } }

end Sys2Proof.Machine
end

