-- ==== Sys2Proof/Machine/Points.lean ====
section
/-! DEFINITION. The point image as readers see it, and what writes a point. -/

namespace Sys2Proof.Machine

/-- The force on a point, if any (R449). -/
def pointForce (s : State) (id : Nat) : Option Force := s.forces.find? (fun f => f.kind == 0 && f.obj == id)

/-- The value of a point after forces: what every reader sees (R451). -/
def pval (s : State) (id : Nat) : Word :=
  match pointForce s id with
  | some f => f.val
  | none => pnat s id

/-- The live configuration word of loop `n` at an offset. -/
def loopReg (s : State) (n o : Nat) : Word := lget s (oLoop n + o)

/-- Loop `n` is enabled (R363). -/
def loopEn (s : State) (n : Nat) : Bool := bitOf (loopReg s n 0) 0

/-- The output group of loop `n`; 0x7F for none (R363). -/
def loopGroup (s : State) (n : Nat) : Nat := fld (loopReg s n 0x18) 6 0

/-- A point is the output of an enabled loop that is in no group, or of an enabled group (R345, R353). -/
def loopWrites (s : State) (id : Nat) : Bool :=
  (upto 256).any (fun n => loopEn s n && fld (loopReg s n 0xC) 31 16 == id) ||
  (upto 64).any (fun g => bitOf (lget s (oGroup g)) 0 && fld (lget s (oGroup g + 4)) 15 0 == id)

/-- The active image writes a point (R387). -/
def imageWrites (s : State) (id : Nat) : Bool :=
  match s.img with
  | some i => i.writes.contains id
  | none => false

end Sys2Proof.Machine
end

