-- ==== Sys2Proof/Machine/Library.lean ====
section
/-! DEFINITION. The block library's tables: the pins, internal words and parameters of the 112 block types (R402 to
R410), and how an image's words are laid out and retained. -/

namespace Sys2Proof.Machine

/-- The pins and internal words of a block type: data types of R366, and for each internal word whether its name ends in _M. -/
structure BlockSig where
  ins : List Nat
  outs : List Nat
  ints : List (Nat × Bool)
  deriving DecidableEq, Repr

/-- `n` pins of one type. -/
def pins (n t : Nat) : List Nat := List.replicate n t

/-- The least and greatest N_IN of a type; none for an unknown type (R372, R402). -/
def inRangeOf (t : Nat) : Option (Nat × Nat) :=
  match t with
  | 0x00 => some (2, 16) | 0x01 => some (2, 16) | 0x02 => some (2, 16) | 0x03 => some (1, 1)
  | 0x04 => some (2, 16) | 0x05 => some (2, 16) | 0x06 => some (2, 16) | 0x07 => some (1, 1)
  | 0x20 => some (2, 16) | 0x22 => some (2, 16) | 0x26 => some (2, 16) | 0x27 => some (2, 16)
  | 0x28 => some (2, 16) | 0x2A => some (2, 16) | 0x2E => some (2, 16) | 0x2F => some (2, 16)
  | 0x36 => some (1, 16) | 0x4B => some (3, 16) | 0x4C => some (3, 16) | 0x4D => some (3, 16)
  | 0x66 => some (1, 16) | 0x6D => some (2, 16)
  | 0x25 => some (1, 1) | 0x2C => some (1, 1) | 0x2D => some (1, 1) | 0x30 => some (1, 1) | 0x31 => some (1, 1)
  | 0x32 => some (1, 1) | 0x33 => some (1, 1) | 0x34 => some (1, 1) | 0x35 => some (1, 1) | 0x37 => some (1, 1)
  | 0x3B => some (3, 3) | 0x3C => some (1, 1) | 0x3D => some (1, 1) | 0x3E => some (3, 3) | 0x3F => some (3, 3)
  | 0x40 => some (5, 5) | 0x41 => some (3, 3) | 0x42 => some (4, 4) | 0x43 => some (3, 3) | 0x44 => some (3, 3)
  | 0x45 => some (5, 5) | 0x48 => some (3, 3) | 0x49 => some (3, 3) | 0x4A => some (3, 3) | 0x4F => some (1, 1)
  | 0x50 => some (1, 1) | 0x5E => some (6, 6) | 0x61 => some (1, 1) | 0x64 => some (19, 19) | 0x67 => some (3, 3)
  | 0x68 => some (6, 6) | 0x6B => some (3, 3) | 0x6C => some (4, 4) | 0x6F => some (1, 1)
  | _ =>
    if t < 0x51 then some (2, 2)
    else if t < 0x56 ∨ t = 0x5B ∨ t = 0x5D ∨ (0x5F ≤ t ∧ t < 0x64) ∨ t = 0x65 then some (0, 0)
    else if t < 0x70 then some (2, 2) else none

/-- The output pins that LOOP and LOOP_RD share (R407). -/
def loopOuts : List Nat := [3, 3, 3, 4, 2]

/-- The signature of a block type, given PARAM and N_IN (R403 to R410). -/
def blockSig (t : Nat) (param : Word) (n : Nat) : BlockSig :=
  match t with
  | 0x00 => ⟨pins n 0, [0], []⟩ | 0x01 => ⟨pins n 0, [0], []⟩ | 0x02 => ⟨pins n 0, [0], []⟩ | 0x03 => ⟨[0], [0], []⟩
  | 0x04 => ⟨pins n 4, [4], []⟩ | 0x05 => ⟨pins n 4, [4], []⟩ | 0x06 => ⟨pins n 4, [4], []⟩ | 0x07 => ⟨[4], [4], []⟩
  | 0x08 => ⟨[4, 2], [4], []⟩ | 0x09 => ⟨[4, 2], [4], []⟩ | 0x0A => ⟨[4, 2], [4], []⟩ | 0x0B => ⟨[4, 2], [4], []⟩
  | 0x0C => ⟨[0, 0], [0], []⟩ | 0x0D => ⟨[0, 0], [0], []⟩
  | 0x20 => ⟨pins n 1, [1], []⟩ | 0x21 => ⟨[1, 1], [1], []⟩ | 0x22 => ⟨pins n 1, [1], []⟩
  | 0x23 => ⟨[1, 1], [1, 0], []⟩ | 0x24 => ⟨[1, 1], [1, 0], []⟩ | 0x25 => ⟨[1], [1], []⟩
  | 0x26 => ⟨pins n 1, [1], []⟩ | 0x27 => ⟨pins n 1, [1], []⟩
  | 0x28 => ⟨pins n 3, [3], []⟩ | 0x29 => ⟨[3, 3], [3], []⟩ | 0x2A => ⟨pins n 3, [3], []⟩ | 0x2B => ⟨[3, 3], [3], []⟩
  | 0x2C => ⟨[3], [3], []⟩ | 0x2D => ⟨[3], [3], []⟩ | 0x2E => ⟨pins n 3, [3], []⟩ | 0x2F => ⟨pins n 3, [3], []⟩
  | 0x30 => ⟨[1], [3], []⟩ | 0x31 => ⟨[2], [3], []⟩ | 0x32 => ⟨[3], [1, 0], []⟩ | 0x33 => ⟨[3], [2, 0], []⟩
  | 0x34 => ⟨[1], [2, 0], []⟩ | 0x35 => ⟨[2], [1, 0], []⟩ | 0x36 => ⟨pins n 0, [4], []⟩ | 0x37 => ⟨[4], pins 16 0, []⟩
  | 0x38 => ⟨[0, 2], [0, 2], [(2, false), (2, false), (4, false), (0, true)]⟩
  | 0x39 => ⟨[0, 2], [0, 2], [(2, false), (2, false), (4, false), (0, true)]⟩
  | 0x3A => ⟨[0, 2], [0, 2], [(2, false), (2, false), (4, false), (0, true)]⟩
  | 0x3B => ⟨[0, 0, 2], [0, 2], [(2, false), (2, false), (4, false), (0, true)]⟩
  | 0x3C => ⟨[0], [0], [(0, true)]⟩ | 0x3D => ⟨[0], [0], [(0, true)]⟩
  | 0x3E => ⟨[0, 0, 1], [0, 1], [(0, true)]⟩ | 0x3F => ⟨[0, 0, 1], [0, 1], [(0, true)]⟩
  | 0x40 => ⟨[0, 0, 0, 0, 1], [0, 0, 1], [(0, true), (0, true)]⟩
  | 0x41 => ⟨[3, 3, 3], [0], []⟩ | 0x42 => ⟨[3, 3, 3, 0], [3], []⟩ | 0x43 => ⟨[1, 1, 1], [1], []⟩
  | 0x44 => ⟨[3, 3, 3], [3], []⟩ | 0x45 => ⟨[3, 3, 3, 3, 3], [3], []⟩ | 0x46 => ⟨[3, 2], [3], []⟩
  | 0x47 => ⟨[3, 3], [3], []⟩ | 0x48 => ⟨[0, 0, 0], [0], []⟩ | 0x49 => ⟨[0, 1, 1], [1], []⟩ | 0x4A => ⟨[0, 3, 3], [3], []⟩
  | 0x4B => ⟨2 :: pins (n - 1) 0, [0, 0], []⟩ | 0x4C => ⟨2 :: pins (n - 1) 1, [1, 0], []⟩
  | 0x4D => ⟨2 :: pins (n - 1) 3, [3, 0], []⟩
  | 0x4E => ⟨[0, 2], [2, 2, 2, 0], [(2, false), (2, false), (2, false), (0, true)]⟩
  | 0x4F => ⟨[2], [0, 2], List.replicate 16 (4, false)⟩
  | 0x50 => ⟨[0], [0], [(2, true)]⟩
  | 0x51 => ⟨[], [0], []⟩ | 0x52 => ⟨[], [1], []⟩ | 0x53 => ⟨[], [2], []⟩ | 0x54 => ⟨[], [3], []⟩ | 0x55 => ⟨[], [4], []⟩
  | 0x56 => ⟨[0, 0], [], []⟩ | 0x57 => ⟨[1, 0], [], []⟩ | 0x58 => ⟨[2, 0], [], []⟩ | 0x59 => ⟨[3, 0], [], []⟩
  | 0x5A => ⟨[4, 0], [], []⟩
  | 0x5B => ⟨[], [fld param 13 11, 0], []⟩ | 0x5C => ⟨[fld param 13 11, 0], [], []⟩ | 0x5D => ⟨[], [0, 2, 2], []⟩
  | 0x5E => ⟨[3, 3, 2, 0, 0, 0], loopOuts, []⟩ | 0x5F => ⟨[], loopOuts, []⟩
  | 0x60 => ⟨[], [2, 2, 3, 2, 0], []⟩
  | 0x61 => ⟨[0], [3, 0], [(2, false), (2, false), (3, false), (2, false), (0, true)]⟩
  | 0x62 => ⟨[], [3, 3, 2, 4, 0], [(2, true)]⟩
  | 0x63 => ⟨[], pins 16 4 ++ [2, 2, 0, 0], [(2, true)]⟩
  | 0x64 => ⟨pins 16 4 ++ [2, 2, 0], [0, 0], [(0, true), (2, false)]⟩
  | 0x65 => ⟨[], [2, 2, 2, 0], []⟩
  | 0x66 => ⟨pins n 3, [3, 3, 3, 3, 0, 0, 0, 0], List.replicate 4 (3, false)⟩
  | 0x67 => ⟨[0, 2, 2], [0], [(2, false)]⟩
  | 0x68 => ⟨[3, 3, 3, 3, 2, 0], [0, 0, 0], [(2, false), (2, false), (0, true)]⟩
  | 0x69 => ⟨[0, 3], [0], [(0, true)]⟩
  | 0x6A => ⟨[0, 0], [2, 3], [(2, false)]⟩
  | 0x6B => ⟨[3, 0, 0], [3], [(2, false), (2, false)]⟩
  | 0x6C => ⟨[3, 2, 2, 2], pins 8 0 ++ [2], [(2, false), (2, false)]⟩
  | 0x6D => ⟨pins n 3, [3, 2], []⟩ | 0x6E => ⟨[3, 0], [3], []⟩
  | 0x6F => ⟨[fld param 2 0], [fld param 2 0], []⟩
  | _ => if 0x0E ≤ t ∧ t < 0x20 then
      (let k := (t - 0x0E) / 6
       let ty := if k = 2 then 3 else k + 1
       ⟨[ty, ty], [0], []⟩) else ⟨[], [], []⟩

/-- The signature of an instance. -/
def sigOf (i : Inst) : BlockSig := blockSig i.typ i.param i.nIn

/-- Words of instance data an instance occupies (R367). -/
def instWords (i : Inst) : Nat := i.nIn + (sigOf i).outs.length + (sigOf i).ints.length

/-- The type of word `w` of an instance. -/
def wordType (i : Inst) (w : Nat) : Nat :=
  let g := sigOf i
  nAt (g.ins ++ g.outs ++ g.ints.map Prod.fst) w

/-- The word indices of an instance that are previous-input memories (R375). -/
def memWords (i : Inst) : List Nat :=
  let g := sigOf i
  let b := i.nIn + g.outs.length
  (upto g.ints.length).filterMap (fun k => if ((g.ints.map Prod.snd).getD k false) then some (b + k) else none)

/-- The words of an instance that are retained, ascending (R375). -/
def retWords (i : Inst) : List Nat := if i.retain then upto (instWords i) else memWords i

/-- A timer type (R400, R405). -/
def isTimer (t : Nat) : Bool := 0x38 ≤ t && t ≤ 0x3B

/-- A point of an image's program variables. -/
def varOf (i : Image) (id : Nat) : Option VarDef := i.vars.find? (fun v => v.point == id)

/-- Insertion into a list ascending by a key. -/
def insBy {α : Type} (k : α → Nat) (x : α) : List α → List α
  | [] => [x]
  | y :: r => if k x ≤ k y then x :: y :: r else y :: insBy k x r

/-- A list sorted ascending by a key, equal keys kept in order. -/
def sortBy {α : Type} (k : α → Nat) (l : List α) : List α := l.foldr (insBy k) []

/-- The retained words of an image: data word indices by ascending IID and word (R393). -/
def retList (i : Image) : List Nat := (sortBy Inst.iid i.insts).flatMap (fun x => (retWords x).map (x.ofs + ·))

/-- The retained variables of an image by ascending POINT. -/
def retVars (i : Image) : List Nat := (sortBy VarDef.point (i.vars.filter VarDef.retain)).map VarDef.point

/-- The type code of a point, the given image defining the variables; none where it names no point (R160, R351, R374,
R527). A channel in mode off has BOOL, for which the spec gives no type (DESIGN CHOICE, log 150). -/
def ptypeIn (s : State) (img : Option Image) (id : Nat) : Option Nat :=
  if id < 0xC0 then
    match fld (lget s (oChan id)) 3 0 with
    | 0 => some 0
    | 1 => some 0
    | 2 => some 2
    | 3 => some 0
    | 4 => some 0
    | _ => some 3
  else if 0x100 ≤ id ∧ id < 0x1C0 then some 4
  else if 0x200 ≤ id ∧ id < 0x2C0 then some 3
  else if 0x400 ≤ id ∧ id < 0x500 then
    let c := rget s (oCanMap (id - 0x400))
    if bitOf c 0 then some (fld c 11 9) else none
  else if 0x800 ≤ id ∧ id < 0x1000 then
    match id % 8 with
    | 2 => some 2
    | 5 => some 4
    | 6 => some 2
    | _ => some 3
  else if 0x1000 ≤ id ∧ id < 0x1600 then (if id % 16 = 15 then some 4 else some 3)
  else if 0x1600 ≤ id ∧ id < 0x1604 then some 3
  else match img with
    | some i => (varOf i id).map VarDef.typ
    | none => none

/-- The type code of a point. -/
def ptype (s : State) (id : Nat) : Option Nat := ptypeIn s s.img id

/-- The circuit that uses current input `n`, by the live circuit map (R275, R543). -/
def circuitOfInput (s : State) (n : Nat) : Option Nat :=
  let b := (alook s.mtr.par 0).getD []
  (upto 96).find? (fun k =>
    let t := nAt b (16 * k) % 4
    let f := fun j => nAt b (16 * k + 4 + j) % 128
    (t == 1 && f 0 == n) || (t == 2 && (f 0 == n || f 1 == n || f 2 == n)))

/-- The billing partition in force of circuit `k` (R278, R279). -/
def circPart (s : State) (k : Nat) : Nat := (tget (fun _ => Circ.reset) s.mtr.circs k).tenant

/-- The partition of a point, the given image defining the variables (R685). -/
def ppartIn (s : State) (img : Option Image) (id : Nat) : Nat :=
  if id < 0xC0 then chanPart s id
  else if 0x100 ≤ id ∧ id < 0x1C0 then chanPart s (id - 0x100)
  else if 0x200 ≤ id ∧ id < 0x2C0 then chanPart s (id - 0x200)
  else if 0x400 ≤ id ∧ id < 0x500 then
    let c := rget s (oCanMap (id - 0x400))
    if bitOf c 0 then fld (rget s (oCanBuf (fld c 2 1) (fld c 8 3))) 9 5 else 0
  else if 0x800 ≤ id ∧ id < 0x1000 then loopPart s ((id - 0x800) / 8)
  else if 0x1000 ≤ id ∧ id < 0x1600 then circPart s ((id - 0x1000) / 16)
  else match img with
    | some i => ((varOf i id).map VarDef.part).getD 0
    | none => 0

/-- The partition of a point. -/
def ppart (s : State) (id : Nat) : Nat := ppartIn s s.img id

/-- A write of a point keeps to its type: BOOL takes 1 for any non-zero word (R368, R528). -/
def canonOf (t : Nat) (v : Word) : Word := if t = 0 then boolW (v != 0) else v

/-- A point mapped to a CAN transmit buffer (R647). -/
def canTxPoint (s : State) (id : Nat) : Bool :=
  let c := rget s (oCanMap (id - 0x400))
  0x400 ≤ id && id < 0x500 && bitOf c 0 && bitOf (rget s (oCanBuf (fld c 2 1) (fld c 8 3))) 1

/-- A point a host can write (R528): output and counting channels, SP, MAN_OUT and MODE of a loop, program variables and
points mapped to CAN transmit buffers. -/
def hostWritable (s : State) (id : Nat) : Bool :=
  if id < 0xC0 then
    let m := fld (lget s (oChan id)) 3 0
    m == 2 || m == 3 || m == 4 || m == 5 || m == 8 || m == 0xA
  else if 0x400 ≤ id ∧ id < 0x500 then canTxPoint s id
  else if 0x800 ≤ id ∧ id < 0x1000 then id % 8 < 3
  else 0x1800 ≤ id && (ptype s id).isSome

/-- A point that the active image, an enabled loop or an enabled group writes (R353, R387). -/
def writtenElsewhere (s : State) (id : Nat) : Bool :=
  imageWrites s id || loopWrites s id ||
  (0x800 ≤ id && id < 0x1000 && 3 ≤ id % 8 && loopEn s ((id - 0x800) / 8))

end Sys2Proof.Machine
end

