-- ==== Sys2Proof/Machine/Watches.lean ====
section
/-! DEFINITION. Point watches, and what hardware does at the end of every command (R527, R530, R35, R36, R130, R146, R148, R459). -/

namespace Sys2Proof.Machine

/-! ### Watches (R527, R530) -/

/-- The status word of a point (R527). -/
def statusWord (s : State) (id : Nat) : Word :=
  w32 ((ptype s id).getD 7 + ((pointForce s id).isSome.toNat <<< 3) + ((writtenElsewhere s id).toNat <<< 4) +
    ((!hostWritable s id).toNat <<< 5) + ((ppart s id) <<< 6))

/-- A value departs from the one last reported (R530): a REAL by more than the deadband, NaN against a number, any other at all. -/
def departs (real : Bool) (deadband last v : Word) : Bool :=
  if real then
    (if isNaN v || isNaN last then isNaN v != isNaN last
     else fvLt (rv deadband) (match fvAdd (rv v) (fvNeg (rv last)) with
       | .fin _ n d => .fin false n d
       | .inf _ => .inf false
       | .nan => .nan))
  else v != last

/-- A watch has a change to report: its point departs from what it last reported, or the forced bit does (R530). -/
def watchChanged (s : State) (w : Watch) : Bool :=
  (pointForce s w.point).isSome != w.lastForced || departs (ptype s w.point == some 3) w.deadband w.last (pval s w.point)

/-- A watch that has reported its point as it now stands. -/
def watchNow (s : State) (w : Watch) : Watch := { w with last := pval s w.point, lastForced := (pointForce s w.point).isSome }

/-- A POINT_CHANGE is raised for a watch, and its minimum interval begins (R530, R552). -/
def watchReport (s : State) (w : Watch) : State × Watch :=
  (pushEv s 5 7 w.part [w32 w.point, pval s w.point, statusWord s w.point] 0 w.point true false,
    { watchNow s w with held := false, closed := w.minMs != 0, since := s.up })

/-- One watch after a command: a change is reported, or held while the minimum interval runs. -/
def watchOne (a : State × List Watch) (w : Watch) : State × List Watch :=
  let s := a.1
  if !watchChanged s w then (s, a.2 ++ [w])
  else if w.closed then (s, a.2 ++ [{ w with held := true }])
  else
    let r := watchReport s w
    (r.1, a.2 ++ [r.2])

/-- Every watch after a command. -/
def watchScan (s : State) : State :=
  if s.watches.isEmpty then s else
    let r := s.watches.foldl watchOne (s, [])
    { r.1 with watches := r.2 }

/-! ### The end of every command -/

/-- What hardware holds whatever a command did: HOLD_OUT stays low while the module is not seated, is halted, is held in
reset-wait or has no logic supply, and while HOLD_IN is asserted (R35, R36, R130, R146, R148, R459). -/
def settle (s : State) : State :=
  if s.base.holdOut && !(seatedNow s && !haltedMod s && s.clk.resetWait.isNone && s.clk.alive && !s.base.holdIn) then
    { s with base := { s.base with holdOut := false } }
  else s

/-- The end of a command that took state `s` to `t`: changed points reported to their watches, hardware gating applied, the
queue untouched. -/
def close (s t : State) : State := { settle (watchScan t) with pending := s.pending }

/-- The outcome of a command that took state `s` to `t`: the next state. -/
def done (s t : State) : Host.Outcome State Fault Refusal := .next (close s t)

end Sys2Proof.Machine
end

