-- ==== Sys2Proof/Machine/RingBase.lean ====
section
/-! DEFINITION. Completions, event records, interrupts and the recorder's queue: what the ring engine writes, apart from
what the operations do. -/

namespace Sys2Proof.Machine

/-- Ring pair `n`. -/
def ring (s : State) (n : Nat) : Ring := tget (fun _ => Ring.reset) s.rings n

/-- The state with ring pair `n` replaced. -/
def setRing (s : State) (n : Nat) (r : Ring) : State := { s with rings := tset (fun _ => Ring.reset) s.rings n r }

/-- The state with ring pair `n` changed. -/
def modRing (s : State) (n : Nat) (f : Ring → Ring) : State := setRing s n (f (ring s n))

/-- Entries of each ring of pair `n` (R507). -/
def ringSize (s : State) (n : Nat) : Nat := 2 ^ fld (ring s n).ctrl 10 7

/-- The pair's partition (R511). -/
def ringPart (s : State) (n : Nat) : Nat := fld (ring s n).ctrl 6 2

/-- An event pair (R509). -/
def isEventPair (s : State) (n : Nat) : Bool := bitOf (ring s n).ctrl 1

/-- A slot of the pair's completion ring is free for the module. -/
def cqFree (s : State) (n : Nat) : Nat :=
  let r := ring s n
  let z := ringSize s n
  z - 1 - (r.cqTail + z - r.cqHead) % z

/-! ### Interrupts (R516, R517) -/

/-- What a word of the MSI-X table reads at reset: every vector masked (PRESUMED, log 16). -/
def msixDefault (k : Nat) : Word := if k % 4 = 3 then 1 else 0

/-- A vector is raised: a message, or its pending bit while it is masked (R517). -/
def raiseVec (s : State) (v : Nat) : State :=
  if bitOf (tget msixDefault s.msix (4 * v + 3)) 0 then
    { s with msixPend := tset (fun _ => 0) s.msixPend (v / 32) (tget (fun _ => 0) s.msixPend (v / 32) ||| oneBit (v % 32)) }
  else emit s (.msix v)

/-- A record that counts toward the limits of R516 has been written on pair `n`. -/
def countIntr (s : State) (n : Nat) : State :=
  let k := rfld s (oRing n + 0x18) 11 0
  let u := (ring s n).unsig + 1
  if k ≤ 1 ∨ k ≤ u then raiseVec (modRing s n (fun r => { r with unsig := 0 })) (fld (ring s n).ctrl 16 11)
  else modRing s n (fun r => { r with unsig := u, unsigAt := if r.unsig = 0 then s.up else r.unsigAt })

/-- The slot after the module's tail, with PHASE turned at a wrap (R515). -/
def stepCq (s : State) (n : Nat) : State :=
  let z := ringSize s n
  modRing s n (fun r =>
    if r.cqTail + 1 < z then { r with cqTail := r.cqTail + 1 } else { r with cqTail := 0, phase := !r.phase })

/-! ### Completions (R523, R524, R572, R573) -/

/-- A completion without its interrupt: written, the descriptor leaves the window, COMMITTED follows an OK. -/
def writeCompletion (s : State) (n : Nat) (f : Flight) (status : Nat) (r0 r1 detail : Word) (ts : Nat) : State :=
  let r := ring s n
  let op := fld (wAt f.words 0) 7 0
  let seq := wAt f.words 1
  let w1 := w32 (status + (op <<< 16) + (r.phase.toNat <<< 31))
  let s := emit s (.completion n r.cqTail (withCrc [seq, w1, r0, r1, detail, w32 ts, w32 (ts >>> 32)]))
  let s := stepCq s n
  let s := modRing s n (fun r => { r with
    flight := r.flight.filter (fun g => g.ord != f.ord), done := r.done + 1,
    committed := if status = 0 ∧ op ≠ 2 then seq else r.committed,
    bad := if status ≤ 1 then r.bad else f.ord :: r.bad })
  if bitOf (wAt f.words 0) 10 then s else countIntr s n

/-- Completions NOT_EXECUTED for the descriptors of a list, in order (R572). -/
def notExecuted (s : State) (n : Nat) (l : List Flight) : State :=
  forAll l (fun s f => writeCompletion s n f 2 0 0 0 (nowTs s)) s

/-- A disabled pair whose last descriptor has completed clears ENABLED (R510). -/
def closeRing (s : State) (n : Nat) : State :=
  let r := ring s n
  if r.closing && r.flight.isEmpty then setRing s n { r with enabled := false, closing := false, halted := false } else s

/-- A ring halts; the descriptors it still has in flight complete NOT_EXECUTED (R572). -/
def haltRing (s : State) (n : Nat) : State :=
  let l := (ring s n).flight
  let s := modRing s n (fun r => { r with halted := true, wantResume := true, rung := false })
  notExecuted s n l

/-- A descriptor completes: output payload already written; a failing status halts the ring (R524, R572). -/
def complete (s : State) (n : Nat) (f : Flight) (status : Nat) (r0 r1 detail : Word) : State :=
  let s := writeCompletion s n f status r0 r1 detail (nowTs s)
  let s := if status ≤ 2 then s else haltRing s n
  closeRing s n

/-- Payload address of a descriptor. -/
def addrOf (f : Flight) : Nat := (wAt f.words 12).toNat + (wAt f.words 13).toNat * 2 ^ 32

/-- A descriptor completes OK with an output payload, written with its CRC before the completion (R520, R523). -/
def completeOut (s : State) (n : Nat) (f : Flight) (data : List Word) (r0 r1 : Word) (ts : Nat) : State :=
  let s := emit s (.payload n (addrOf f) (withCrc data))
  closeRing (writeCompletion s n f 0 r0 r1 (w32 (4 * (data.length + 1))) ts) n

/-- A descriptor completes OK at a given timestamp, with no results. -/
def completeTs (s : State) (n : Nat) (f : Flight) (ts : Nat) : State := closeRing (writeCompletion s n f 0 0 0 0 ts) n

/-- Rings whose oldest descriptor waits and passes a test (R559), in ascending order. -/
def waitingRings (s : State) (p : Flight → Bool) : List (Nat × Flight) :=
  s.rings.filterMap (fun e =>
    match e.2.flight with
    | f :: _ => if f.waiting && p f then some (e.1, f) else none
    | [] => none)

/-- Every waiting descriptor that passes a test completes with a result. -/
def completeAll (s : State) (p : Flight → Bool) (status : Nat) (r0 r1 detail : Word) : State :=
  forAll (waitingRings s p) (fun s e => complete s e.1 e.2 status r0 r1 detail) s

/-- Opcode of a descriptor (R518). -/
def opOf (f : Flight) : Nat := fld (wAt f.words 0) 7 0

/-- TARGET of a descriptor. -/
def tgtOf (f : Flight) : Word := wAt f.words 2

/-- PARAM word `k` of a descriptor. -/
def parOf (f : Flight) (k : Nat) : Word := wAt f.words (4 + k)

/-! ### Event records (R549 to R551) -/

/-- One 64-byte record written on an event pair that has room. -/
def writeRecord (s : State) (n code part cls ts : Nat) (body : List Word) : State :=
  let r := ring s n
  let q := r.evtSeq + 1
  let w1 := w32 (code + (part <<< 16) + (cls <<< 21) + (r.phase.toNat <<< 31))
  let b := (body ++ List.replicate 11 0).take 11
  let s := emit s (.event n r.cqTail (withCrc ([q, w1, w32 ts, w32 (ts >>> 32)] ++ b)))
  countIntr (stepCq (modRing s n (fun r => { r with evtSeq := q })) n) n

/-- The LOST record a pair owes, once it has room (R550); its one CLASS field takes the lowest class lost (DEDUCED, log 59). -/
def tellLost (s : State) (n : Nat) : State :=
  let r := ring s n
  if r.lostNew = 0 ∨ cqFree s n = 0 then s else
    let s := modRing s n (fun r => { r with lostNew := 0, lostCls := 0 })
    let low := ((upto 11).find? (bitOf r.lostCls)).getD 0
    writeRecord s n 0xF 0 low (nowTs s) [w32 r.lostNew, r.lostCls]

/-- An event that finds no free slot on a pair is counted as lost (R550). -/
def loseEvent (s : State) (n cls : Nat) : State :=
  let s := modRing s n (fun r => { r with lost := r.lost + 1, lostNew := r.lostNew + 1, lostCls := r.lostCls ||| oneBit cls })
  ror s (oRing n + 0x2C) 4

/-- An event reaches one pair: written, or lost (R550). -/
def giveEvent (s : State) (n : Nat) (e : Ev) : State :=
  let s := tellLost s n
  if cqFree s n = 0 then loseEvent s n e.cls else writeRecord s n e.code e.part e.cls e.ts e.body

/-- A pair takes an event (R549): a POINT_CHANGE only with its own partition. -/
def takesEvent (s : State) (n : Nat) (e : Ev) : Bool :=
  let r := ring s n
  r.enabled && !r.closing && isEventPair s n && bitOf (rget s (oRing n + 0x1C)) e.cls &&
  (if e.code = 5 then ringPart s n == e.part else ringPart s n == 0 || ringPart s n == e.part)

/-- An event reaches every pair that takes it. -/
def deliver (s : State) (e : Ev) : State :=
  forAll (s.rings.map Prod.fst) (fun s n => if takesEvent s n e then giveEvent s n e else s) s

/-! ### The recorder's queue (R673 to R676) -/

/-- An event finds the queue full: dropped and counted, RTC_EVENT.REC_LOST set (R676). -/
def dropRecord (s : State) (cls : Nat) : State :=
  let s := rinc s oRtcRecLost
  let s := { s with recLost := s.recLost + 1, recLostCls := s.recLostCls ||| oneBit cls }
  raiseBoth s oRtcEvent 0x10

/-- An event enters the recorder's queue, or is dropped (R676). -/
def enqueueRec (s : State) (e : Ev) : State :=
  if 256 ≤ s.recq.length then dropRecord s e.cls
  else { s with recq := s.recq ++ [⟨e.code, e.part, e.optime, s.rtc.pwrCycles, e.block, e.obj, (e.body ++ List.replicate 9 0).take 9, 0⟩] }

/-- The events that have arisen go out: to the event pairs that take them and to the recorder, in the order they arose (R563, R675). -/
def flushEvents (s : State) : State :=
  forAll s.evq (fun s e =>
    let s := if e.toHost then deliver s e else s
    if e.toRec then enqueueRec s e else s) { s with evq := [] }

/-- The 16 words of a record with a sequence number (R672). -/
def recWords (r : Rec) (seq : Word) : List Word :=
  let b := [seq, w32 r.optime, w32 ((r.optime >>> 32) % 256 + ((r.part % 32) <<< 8) + (r.code <<< 16)), r.pwr,
    w32 (r.block % 16 + (r.obj <<< 16))] ++ r.body
  b ++ [crcWords b, 0xA55AC33C]

/-- What a slot holds after access `k` of the five that write a record: VALID as 0, SEQ, the fields, the CRC, VALID (R674). -/
def recAccess (old w : List Word) (k : Nat) : List Word :=
  let old := (old ++ List.replicate 16 0).take 16
  match k with
  | 0 => setNth old 15 0
  | 1 => setNth old 0 (wAt w 0)
  | 2 => w.take 14 ++ old.drop 14
  | 3 => setNth old 14 (wAt w 14)
  | _ => w

/-- The slot of the record now written after its next access. -/
def recSlot (s : State) (r : Rec) : List Word :=
  recAccess (tget (fun _ => []) s.recSlots (s.recNext.toNat % 32768)) (recWords r s.recNext) r.step

/-- The recorder makes its next access for the oldest queued event; with a record complete, and records dropped before, it queues
a LOST record (R674, R676). -/
def recorderStep (s : State) : State :=
  match s.recq with
  | [] => s
  | r :: q =>
    let s := { s with recSlots := tset (fun _ => []) s.recSlots (s.recNext.toNat % 32768) (recSlot s r) }
    if r.step < 4 then { s with recq := { r with step := r.step + 1 } :: q }
    else
      let s := { s with recq := q, recNext := s.recNext + 1 }
      if s.recLost = 0 then s else
        let l : Rec := ⟨0xF, 0, s.rtc.optime, s.rtc.pwrCycles, 0xB, 0xFFFF, [w32 s.recLost, s.recLostCls] ++ List.replicate 7 0, 0⟩
        { s with recq := s.recq ++ [l], recLost := 0, recLostCls := 0 }

/-- A slot holds a complete record (R672, R678). -/
def wholeRec (r : List Word) : Bool := r.length == 16 && wAt r 15 == 0xA55AC33C && crcWords (r.take 14) == wAt r 14

/-- The valid record with the highest sequence number in serial order (R677). -/
def latestRec (s : State) : Option (List Word) :=
  s.recSlots.foldl (fun b e => if !wholeRec e.2 then b else match b with
    | none => some e.2
    | some w => if (wAt e.2 0 - wAt w 0).toNat < 2 ^ 31 then some e.2 else b) none

/-- The recorder writes out its whole queue (R676). -/
def recorderDrain (s : State) : State := forAll (List.replicate (5 * (s.recq.length + 2)) ()) (fun s _ => recorderStep s) s

end Sys2Proof.Machine
end

