-- ==== Sys2Proof/Config.lean ====
section
/-! DEFINITION. What the implementation fixes and the free values the spec leaves open: constants without a body, so that
no proof can see what they are. -/

namespace Sys2Proof.Config

/-- The deviation of a bank's Pt1000 solution from the exact root, in millionths of a degree above −1000, by the
resistance read (R228; log 12). -/
opaque ptDeviation : Nat → Nat

/-- Q of a BLINK block enabled with T_ON and T_OFF both 0, by millisecond count (R410 states none; log 26). -/
opaque blinkIdle : Nat → Bool

/-- Q and NEXT of a SCHED block that uses no entry, by time of week (R406 states none; log 26). -/
opaque schedEmpty : Nat → Bool × Nat

/-- By how much a standby's rate follows the holder's boundaries, in 0.1 mHz, bounded to 500 ppm where used (R470; log 39). -/
opaque pairSteer : Nat → Nat

/-- The rate the network-time servo chooses at an accepted offset, in 0.001 ppm, bounded to 500 ppm where used (R619; log 40). -/
opaque servoRate : Nat → Int

/-- How long a pass takes, in 0.1 microseconds, by its unit and its pass number; bounded by R332 where used (log 144). -/
opaque passTime : Nat → Nat → Nat

/-- How many blocks of the running cycle are executed when a waiting firing looks for its turn (R384; log 154). -/
opaque blocksDone : Nat → Nat

/-- How fast steering closes the distance to the network-time grid: in nanoseconds a cycle, brought into the range from 1 to
the lesser of that distance and the limit of 500 ppm where used (R87; log 43). -/
opaque steerPace : Nat → Nat

/-- By how many microseconds the cartridge's hold-up exceeds 15 ms at a supply loss (R305; log 138). -/
opaque cartHoldup : Nat → Nat

/-- The code a cartridge fault is logged with (R311 gives none; log 50). -/
opaque cartFault : Nat → BitVec 32

/-- A random number the key store draws (R710), below 2^256 where used (log 52). -/
opaque random : Nat → Nat

/-- The number a SIGN operation blinds its signature with (R545 states no source; log 53). -/
opaque signNonce : Nat → Nat

/-- The root secret that the PUF's state is corrected to (R693), as a number below 2^256 (log 52). -/
opaque pufRoot : Nat

/-- The number the group attestation key of the unit's lot is made from (R718; log 52). -/
opaque groupKey : Nat

/-- The last word of what KEY_INFO returns, by whether the slot is damaged (R545, R708 place no bit; log 54). -/
opaque keyInfoLast : Bool → Nat → BitVec 32

/-- The product transport key in the boot ROM (R725), as a number below 2^256 (log 52). -/
opaque transportKey : Nat

/-- The public point of signing key `n` in the boot ROM (R725; log 52). -/
opaque signPoint : Nat → Nat × Nat

/-- Whether a register that shows a finer quantity in coarser units is rounded up: register 0 CART_TEMP, 1 MIN_LEFT (log 56). -/
opaque roundUp : Nat → Nat → Bool

/-- What configuration space holds outside the Command register and the class code (R499 gives no more; log 57). -/
opaque configWord : Nat → BitVec 32

/-- DETAIL of a BAD_PARAM that no PARAM word and no TARGET caused: a reserved bit of the header, a flag not allowed, by the
word concerned (R522, R524), or a pair of a CFG_WRITE, by its index (R532; log 58). -/
opaque badDetail : Nat → BitVec 32

/-- The error status with which a descriptor ends that finds the update engine's gate closed, counted from BAD_OPCODE through the
error statuses where used (R136 has the initiator report a bus error; R524 names no status for it; log 137). -/
opaque busError : Nat → Nat

/-- How the completion of a PT_WRITE shows that points are forced, in RESULT0, by their number (R451; log 63). -/
opaque forcedMark : Nat → BitVec 32

/-- STOP_CAUSE of a start with SETTINGS_DEFAULT that has an active image (R147 stops the controller, R419 gives no code; log 72). -/
opaque stopDefault : BitVec 4

/-- The code of the recorder event that names a program-store copy that is not made active (R380, R673 give none; log 71). -/
opaque storeEvent : BitVec 16

/-- This firmware's Twinlink feature bitmap (R467; log 73). -/
opaque twinFeatures : BitVec 8

end Sys2Proof.Config
end

