-- ==== Sys2Proof/Machine/Analog.lean ====
section
/-! DEFINITION. Channel modes, the analogue pipeline in both directions, and what an output frame carries. -/

namespace Sys2Proof.Machine

/-! ### Modes -/

/-- The live mode of channel `c` (R164). -/
def chMode (s : State) (c : Nat) : Nat := fld (lget s (oChan c)) 3 0

/-- A mode that drives its channel. -/
def isOutMode (m : Nat) : Bool := m == 3 || m == 4 || m == 5 || m == 8 || m == 0xA

/-- A digital input mode. -/
def isDigIn (m : Nat) : Bool := m == 1 || m == 2

/-- A digital output mode: high-side, zero-cross or PWM. -/
def isDigOut (m : Nat) : Bool := m == 3 || m == 4 || m == 5

/-- An analogue mode. -/
def isAnMode (m : Nat) : Bool := 6 ≤ m && m ≤ 0xD

/-- An analogue input mode. -/
def isAnIn (m : Nat) : Bool := isAnMode m && !isOutMode m

/-- A mode whose sense path, loop supply or excitation is connected only in the ball holder (R232). -/
def isHolderOnly (m : Nat) : Bool := m == 6 || m == 7 || m == 0xB || m == 0xC || m == 0xD

/-- The live analogue word of channel `c` at an offset (R259). -/
def anReg (s : State) (c o : Nat) : Word := lget s (oAn c + o)

/-- A decimal constant as the nearest binary32. -/
def dec (num : Int) (den : Nat) : Word := fOfQ num den

/-! ### The characteristic (R241) -/

/-- The segment of a table that a value above its first breakpoint falls in; at or above the last breakpoint, its y (R241). -/
def tableSeg : List (Word × Word) → Word → Word
  | [], _ => qNaN
  | [(_, y)], _ => y
  | (x0, y0) :: (x1, y1) :: r, u =>
    if flt u x1 then fadd y0 (fdiv (fmul (fsub u x0) (fsub y1 y0)) (fsub x1 x0)) else tableSeg ((x1, y1) :: r) u

/-- The table characteristic (R241). -/
def tableChar (t : List (Word × Word)) (u : Word) : Word :=
  match t with
  | [] => qNaN
  | (x0, y0) :: _ => if fle u x0 then y0 else tableSeg t u

/-- The live breakpoints of channel `c`'s table (R243, R260). -/
def chTable (s : State) (c : Nat) : List (Word × Word) :=
  let cfg := anReg s c 0
  let st := fld cfg 20 13
  (upto (fld cfg 26 21)).map (fun k =>
    (lget s (oBank (c / 16) + 0x800 + 8 * (st + k)), lget s (oBank (c / 16) + 0x804 + 8 * (st + k))))

/-- The table of channel `c` applied to `u`; a NaN yields NaN. -/
def tableOf (s : State) (c : Nat) (u : Word) : Word := if isNaN u then qNaN else tableChar (chTable s c) u

/-- The engineering value of an input's trimmed signal (R241). -/
def charIn (s : State) (c : Nat) (t : Word) : Word :=
  let sl := anReg s c 0xC
  let sh := anReg s c 0x10
  let el := anReg s c 0x14
  let eh := anReg s c 0x18
  match fld (anReg s c 0) 1 0 with
  | 0 => fadd el (fdiv (fmul (fsub t sl) (fsub eh el)) (fsub sh sl))
  | 1 =>
    let f := fdiv (fsub t sl) (fsub sh sl)
    if flt f (anReg s c 0x1C) || fle f 0 then el else fadd el (fmul (fsqrt f) (fsub eh el))
  | _ => tableOf s c t

/-- The signal of an output's engineering value (R241). -/
def charOut (s : State) (c : Nat) (e : Word) : Word :=
  let sl := anReg s c 0xC
  let sh := anReg s c 0x10
  let el := anReg s c 0x14
  let eh := anReg s c 0x18
  match fld (anReg s c 0) 1 0 with
  | 0 => fadd sl (fdiv (fmul (fsub e el) (fsub sh sl)) (fsub eh el))
  | _ => tableOf s c e

/-- The owner trim (R237, R238). -/
def trim (s : State) (c : Nat) (v : Word) : Word := fadd (fmul (anReg s c 4) v) (anReg s c 8)

/-- The clamp of a driven signal (R238). -/
def clampOut (s : State) (c : Nat) (d : Word) : Word :=
  if chMode s c = 8 then
    (if bitOf (anReg s c 0) 8 then fclamp (dec 38 10) (dec 205 10) d else fclamp 0 (dec 24 1) d)
  else fclamp (dec (-1) 1) (dec 11 1) d

/-- What an analogue output drives for a committed engineering value (R238, R245). -/
def anOutValue (s : State) (c : Nat) (e : Word) : Word :=
  let sig := charOut s c e
  if isNaN e || isNaN sig then
    match fld (anReg s c 0) 7 6 with
    | 1 => if chMode s c = 8 then anReg s c 0x20 else 0
    | 2 => if chMode s c = 8 then anReg s c 0x24 else (chan s c).drive
    | _ => (chan s c).drive
  else clampOut s c (trim s c sig)

/-- The duty in percent a PWM output takes from its value point (R160). -/
def pwmDuty (v : Word) : Word := if isNaN v || flt v 0 then 0 else fmin2 v (dec 100 1)

/-- The word an output frame carries for channel `c` (R163): state, duty or driven signal. -/
def outWord (s : State) (c : Nat) : Word :=
  let v := pval s c
  match chMode s c with
  | 3 => boolW (v != 0)
  | 4 => boolW (v != 0)
  | 5 => pwmDuty v
  | 8 => anOutValue s c v
  | 0xA => anOutValue s c v
  | _ => 0

/-- On time in microseconds of a duty over a period (R186): nearest microsecond, none below 5, all above the period less 5. One
half way between two microseconds goes to the even one (R186 does not say; DESIGN CHOICE, log 132). -/
def pwmOnUs (duty : Word) (per : Nat) : Nat :=
  match fQ duty with
  | some (n, d) =>
    let on := divRne (n.toNat * per) (d * 100)
    if on < 5 then 0 else if per < on + 5 then per else on
  | none => 0

/-! ### Inputs -/

/-- Resistance of a Pt1000 at `t` millionths of a degree, scaled by 10^33 over R0 (R228). -/
def ptRatio (t : Int) : Int :=
  let base : Int := 10 ^ 33 + 39083 * t * 10 ^ 20 - 5775 * t ^ 2 * 10 ^ 11
  if t < 0 then base - 4183 * (t - 100000000) * t ^ 3 / 10 ^ 6 else base

/-- The temperature in millionths of a degree whose resistance comes nearest from below, by bisection. -/
def ptSolve (num : Int) (den : Nat) : Nat → Int → Int → Int
  | 0, lo, _ => lo
  | k + 1, lo, hi =>
    let mid := (lo + hi) / 2
    if ptRatio mid * 1000 * den ≤ num * 10 ^ 33 then ptSolve num den k mid hi else ptSolve num den k lo mid

/-- Temperature of a corrected Pt1000 resistance: the exact root, off by the bank's own deviation of at most 0.001 degree (R228, log 12). -/
def ptTemp (r : Word) : Word :=
  match fQ r with
  | some (n, d) =>
    let t := ptSolve n d 33 (-300000000) 3380000000
    fOfQ (t + (Config.ptDeviation r.toNat % 2001 : Nat) - 1000) 1000000
  | none => qNaN

/-- The signal a bank delivers for a raw reading: lead correction and Pt1000 conversion in resistance modes (R227, R228). -/
def bankSignal (v : Conv) (raw : Word) : Word × Word :=
  if v.mode = 0xB ∨ v.mode = 0xC ∨ v.mode = 0xD then
    let r := fsub raw v.lead
    (if v.mode = 0xB then ptTemp r else r, r)
  else (raw, raw)

/-- The band of a reading: of the trimmed signal, or of the corrected resistance in mode 0xB (R246, R247). -/
def bandOf (m : Nat) (t r : Word) : Nat :=
  if m = 6 ∨ m = 7 then
    (if flt t (dec 5 10) then 6 else if flt t (dec 36 10) then 4 else if flt t (dec 38 10) then 2
     else if fle t (dec 205 10) then 1 else if fle t (dec 21 1) then 3 else if fle t (dec 235 10) then 5 else 7)
  else if m = 9 then
    (if flt t (dec (-125) 10) then 4 else if flt (dec 125 10) t then 5 else 1)
  else if m = 0xB then
    (if flt (dec 4000 1) r then 6 else if flt r (dec 150 1) then 7 else 1)
  else if m = 0xC then
    (if flt (dec 1000000 1) t then 6 else if flt t (dec 100 1) then 7 else 1)
  else if m = 0xD then
    (if flt (dec 105000 1) t then 6 else if flt t (dec (-150) 1) then 7 else 1)
  else 0

/-- A band of the failed group (R246). -/
def failedBand (b : Nat) : Bool := 4 ≤ b

/-- Length of a batch window by its code, in phase units (R234), rounded up. -/
def windowUnits (s : State) (code : Nat) : Nat :=
  match code with
  | 0 => unitsOfUs s 250
  | 1 => unitsOfUs s 1000
  | 2 => unitsOfUs s 4000
  | _ => 4096

end Sys2Proof.Machine
end

