-- ==== Sys2Proof/Machine/BankOps.lean ====
section
/-! DEFINITION. Operations on banks and channels: diagnostic words and latches, safe states and their causes, hold lines,
commits to outputs, and the reading pipeline. -/

namespace Sys2Proof.Machine

/-! ### Diagnostic words -/

/-- Diagnostic bits that have a latch bit (R220): [2], [4] to [11], [14], [16], [20]. -/
def latchMask : Word := 0x00114FF4

/-- Diagnostic bits the bank itself reports, for a channel that is not an analogue input. -/
def bankMask : Word := 0x0F017FE2

/-- Diagnostic bits the bank itself reports for an analogue input, whose OPEN and SHORT follow its band (R250). -/
def bankMaskAn : Word := 0x0F017F22

/-- The offset of BNK_CH_DIAG_LATCH of channel `c` (R217). -/
def oLatch (c : Nat) : Nat := oChan c + 0x10

/-- Report of latch bits of a channel: one host event and one recorder event (R220). -/
def latchReport (s : State) (c : Nat) (bits : Word) : State := regEvent s (oLatch c) bits (w32 c) (chanPart s c) true true []

/-- Diagnostic bits of a channel that rose are latched; the first report within 100 ms goes at once (R220). -/
def latchRise (s : State) (c : Nat) (rise : Word) : State :=
  let new := rise &&& latchMask &&& ~~~ (rget s (oLatch c))
  if new = 0 then s else
    let s := ror s (oLatch c) new
    let h := chan s c
    if h.latOpen then setChan s c { h with latPend := h.latPend ||| new }
    else latchReport (setChan s c { h with latOpen := true }) c new

/-- The diagnostic word with SAFE and FS_LOW as the bank stands (R201, R210), VALID as R219, R230, R249 and R250 give it, and in
mode off only LINK, FS_LOW and SAFE (R165). -/
def fixDiag (s : State) (c : Nat) (w : Word) : Word :=
  let m := chMode s c
  let h := chan s c
  let b := bank s (c / 16)
  let w := setBit (setBit w 1 b.safe) 5 (!b.fsGood)
  if m = 0 then w &&& 0x32
  else if isOutMode m then
    setBit w 0 (h.gotOut && b.run && b.driving && !h.tripped && h.applied == h.cmd && (w &&& 0x10C32 == 0))
  else if isDigIn m then setBit w 0 (w &&& 0x7C == 0)
  else
    let band := fld w 19 17
    let w := setBit (setBit w 6 (band == 6)) 7 (band == 7)
    setBit w 0 (1 ≤ band && band ≤ 3 && (w &&& 0x10003C == 0))

/-- The value an analogue input's value point takes while VALID is 0 (R251); FAIL_VALUE 1 follows each reading instead. -/
def failValue (s : State) (c : Nat) : State :=
  match fld (anReg s c 0) 5 4 with
  | 0 => pset s c (chan s c).lastGood
  | 2 => pset s c qNaN
  | _ => s

/-- The diagnostic word of a channel becomes `w` with its derived bits: the status point follows, rises are latched, and
an analogue input that is not valid takes its failure value (R159, R219, R220, R251). -/
def putDiag (s : State) (c : Nat) (w : Word) : State :=
  let w := fixDiag s c w
  let old := (chan s c).diag
  let s := setChan s c { chan s c with diag := w }
  let s := pset s (0x100 + c) w
  let s := latchRise s c (w &&& ~~~ old)
  if isAnIn (chMode s c) && !bitOf w 0 && !bitOf w 3 then failValue s c else s

/-- The diagnostic word of a channel computed anew. -/
def redoDiag (s : State) (c : Nat) : State := putDiag s c (chan s c).diag

/-- A bit of the bank's own diagnostic word, as the next diagnostic frame reports it. -/
def setB (s : State) (c i : Nat) (v : Bool) : State := modChan s c (fun h => { h with bdiag := setBit h.bdiag i v })

/-- The bank's own diagnostic bit of a channel. -/
def getB (s : State) (c i : Nat) : Bool := bitOf (chan s c).bdiag i

/-- The logic side takes up the diagnostic bits the bank reports for a channel. -/
def takeDiag (s : State) (c : Nat) : State :=
  let m := if isAnIn (chMode s c) then bankMaskAn else bankMask
  putDiag s c (((chan s c).diag &&& ~~~ m) ||| ((chan s c).bdiag &&& m))

/-- A bit of the diagnostic word that the logic side keeps, and of the bank's word, set or cleared at once. -/
def setDiagBit (s : State) (c i : Nat) (v : Bool) : State :=
  let s := setB s c i v
  putDiag s c (setBit (chan s c).diag i v)

/-! ### The bank's own set -/

/-- The word a bank has applied at an offset of its page (R167). -/
def appReg (s : State) (b o : Nat) : Word := tget (fun o => regReset (oBank b + o)) (bank s b).applied o

/-- The mode a bank has applied to channel `c`. -/
def appMode (s : State) (c : Nat) : Nat := fld (appReg s (c / 16) (0x100 + 0x20 * (c % 16))) 3 0

/-- BNK_CH_CFG and its neighbours as the bank has applied them. -/
def appCh (s : State) (c o : Nat) : Word := appReg s (c / 16) (0x100 + 0x20 * (c % 16) + o)

/-- The analogue registers as the bank has applied them. -/
def appAn (s : State) (c o : Nat) : Word := appReg s (c / 16) (0x400 + 0x40 * (c % 16) + o)

/-- PERIOD_US as applied (R186). -/
def appPeriod (s : State) (c : Nat) : Nat := fld (appCh s c 4) 23 0

/-! ### Output stages -/

/-- The stage of an output channel is switched on: it is neither shut down nor held off, and its value calls for current. -/
def stageLive (s : State) (c : Nat) : Bool :=
  let h := chan s c
  let b := bank s (c / 16)
  b.run && b.driving && !h.tripped && !bitOf h.bdiag 10 &&
  (match appMode s c with
   | 3 => h.applied != 0
   | 4 => h.applied != 0
   | 5 => h.pwmOn != 0
   | 8 => true
   | 0xA => true
   | _ => false)

/-- The running PWM period of a channel is in its on time (R186). -/
def inOnTime (s : State) (c : Nat) : Bool :=
  let h := chan s c
  h.pwmPer ≤ h.pwmOn || decide (s.up - h.pwmAt < h.pwmOn * 1000)

/-- The stage of an output channel conducts (R185, R219). -/
def stageOn (s : State) (c : Nat) : Bool := stageLive s c && (appMode s c != 5 || inOnTime s c)

/-- OUT_STATE follows the stage. -/
def redoStage (s : State) (c : Nat) : State := setB s c 12 (stageOn s c)

/-- The safe value of an output channel by its SAFE_KIND (R208). -/
def safeValue (s : State) (c : Nat) : Word :=
  let k := fld (appCh s c 0) 6 4
  let m := appMode s c
  if k = 2 then (chan s c).applied
  else if m = 3 ∨ m = 4 then boolW (k == 1)
  else if k = 1 then appCh s c 8
  else if k = 3 ∧ m = 8 then appAn s c 0x20
  else if k = 4 ∧ m = 8 then appAn s c 0x24
  else 0

/-- The stage of an output takes a value at once. -/
def applyNow (s : State) (c : Nat) (v : Word) : State :=
  let s := modChan s c (fun h => { h with applied := v })
  let s := if appMode s c = 8 ∨ appMode s c = 0xA then modChan s c (fun h => { h with drive := v }) else s
  redoStage s c

/-- A PWM period begins, of a length in microseconds, with the duty applied (R186, R187). -/
def startPeriod (s : State) (c per : Nat) : State :=
  redoStage (modChan s c (fun h => { h with pwmOn := pwmOnUs h.applied per, pwmPer := per, pwmAt := s.up })) c

/-- An output channel enters its safe state (R187, R208): PWM with kind 0 or 1 starts a new period at once, and the period
applied at entry is the safe state's. The safe value is taken at entry: one committed while the bank is in its safe state acts at
the next entry (R171 keeps the outputs in their safe states; DESIGN CHOICE, log 133). -/
def safeChan (s : State) (c : Nat) : State :=
  let m := appMode s c
  if !isOutMode m then s else
  let v := safeValue s c
  let hold := fld (appCh s c 0) 6 4 == 2
  let s := modChan (applyNow s c v) c (fun h => { h with safePer := appPeriod s c })
  let s := if m = 5 && !hold then startPeriod s c (appPeriod s c) else s
  if m = 4 then modChan s c (fun h => { h with zcHold := true }) else s

/-! ### Safe states (R205 to R210) -/

/-- A bank's event bits become set: a host event and a recorder event (R216). -/
def bankEvent (s : State) (b : Nat) (bits : Word) (extra : List Word) : State :=
  raiseBits s (oBank b + 0x18) bits (w32 b) 0 true true extra

/-- An entry into or a release from the safe state: the bank event, and a recorder event that names the causes at every one,
also while the event bit still stands latched (R210, R216). -/
def safeEvent (s : State) (b : Nat) (bit : Word) : State :=
  let causes := (bank s b).causes
  if bit &&& rget s (oBank b + 0x18) = 0 then bankEvent s b bit [causes]
  else regEvent s (oBank b + 0x18) bit (w32 b) 0 false true [causes]

/-- A bank enters its safe state (R205, R210). -/
def enterSafe (s : State) (b : Nat) : State :=
  let s := modBank s b (fun k => { k with safe := true })
  let s := forAll (bankChans b) safeChan s
  let s := forAll (bankChans b) (fun s c => setDiagBit s c 1 true) s
  safeEvent s b 0x20

/-- A cause of the safe state becomes active; with the first the bank enters its safe state (R205). -/
def addCause (s : State) (b bit : Nat) : State :=
  let s := modBank s b (fun k => { k with causes := k.causes ||| oneBit bit })
  if (bank s b).safe then s else enterSafe s b

/-- A cause of the safe state clears; the bank stays in its safe state until an output frame (R205, R206). -/
def dropCause (s : State) (b bit : Nat) : State := modBank s b (fun k => { k with causes := k.causes &&& ~~~ (oneBit bit) })

/-- Bank `b` releases WDOG, OVERTEMP and FS by itself (R215). -/
def autoRelease (s : State) (b : Nat) : Bool := bitOf (lget s (oBank b)) 0

/-- The condition for clearing a cause is met (R205). -/
def clearable (s : State) (b bit : Nat) : Bool :=
  let k := bank s b
  match bit with
  | 3 => k.linkUp && k.heard
  | 6 => k.otClear
  | 8 => k.confirmed
  | _ => false

/-- WDOG, OVERTEMP and FS clear where their condition is met (R207). -/
def releaseMet (s : State) (b : Nat) : State :=
  forAll [3, 6, 8] (fun s bit => if clearable s b bit then dropCause s b bit else s) s

/-- The same, at once and only with AUTO_RELEASE (R205). -/
def autoClear (s : State) (b : Nat) : State := if autoRelease s b then releaseMet s b else s

/-- Every bank gets a cause. -/
def allCause (s : State) (bit : Nat) : State := forAll (upto 12) (fun s b => addCause s b bit) s

/-- A cause clears in every bank. -/
def allDrop (s : State) (bit : Nat) : State := forAll (upto 12) (fun s b => dropCause s b bit) s

/-- The hardware command of R36, R130 and R146: HOLD_OUT low and every bank to its safe state with cause HW. -/
def hwSafe (s : State) : State := allCause { s with base := { s.base with holdOut := false } } 4

/-! ### Hold lines (R460 to R462) -/

/-- A bank stops driving: its outputs are off or high-impedance, and open load, external drive and a shortfall of current are held
at 0 (R198, R230, R461). -/
def stopDriving (s : State) (b : Nat) : State :=
  forAll (bankChans b) (fun s c =>
    let s := if isOutMode (appMode s c) then setB (setB (setB s c 6 false) c 9 false) c 16 false else s
    redoDiag (redoStage s c) c) s

/-- The hold lines as they now stand reach a bank: its last-held latch and whether it drives (R460). -/
def bankHold (s : State) (b : Nat) (ownRise peerRise : Bool) : State :=
  let k := bank s b
  let lh := if ownRise then true else if peerRise then false else k.lastHeld
  let dr := s.base.holdOut || (!s.base.holdIn && lh)
  let s := setBank s b { k with lastHeld := lh, driving := dr }
  if dr = k.driving then s else if dr then forAll (bankChans b) (fun s c => redoDiag (redoStage s c) c) s
  else stopDriving s b

/-- The hold lines take new levels; every bank reads them (R460). -/
def setHold (s : State) (own peer : Bool) : State :=
  let o := s.base.holdOut
  let p := s.base.holdIn
  let s := { s with base := { s.base with holdOut := own, holdIn := peer } }
  forAll (upto 12) (fun s b => bankHold s b (own && !o) (peer && !p)) s

/-! ### Links -/

/-- A frame goes to a bank, with the next sequence number and a CRC-32C over its kind, its number and its content (R155; log 134). -/
def sendFrame (s : State) (b kind : Nat) (body : List Word) : State :=
  let n := (bank s b).seqDn
  let s := modBank s b (fun k => { k with seqDn := n + 1 })
  emit s (.bankFrame b kind n body (crcWords (w32 kind :: w32 n :: body)))

/-- A frame comes from a bank, with that bank's next sequence number (R155). -/
def gotFrame (s : State) (b : Nat) : State := modBank s b (fun k => { k with seqUp := k.seqUp + 1 })

/-- A valid frame has reached the bank: its watchdog restarts (R212), and WDOG can clear (R205). -/
def bankHeard (s : State) (b : Nat) : State := autoClear (modBank s b (fun k => { k with heard := true })) b

/-- A valid frame has come from the bank: the link is up again (R158). -/
def logicHeard (s : State) (b : Nat) : State :=
  let was := (bank s b).linkUp
  let s := modBank s b (fun k => { k with linkUp := true })
  let s := if was then s else forAll (bankChans b) (fun s c => putDiag s c (setBit (chan s c).diag 4 false)) s
  autoClear s b

/-- A frame to the bank was discarded (R157). -/
def downErr (s : State) (b : Nat) : State :=
  let o := oBank b + 0x24
  rsetFld s o 15 0 (rfld s o 15 0 + 1)

/-- A frame from the bank was discarded (R157). -/
def upErr (s : State) (b : Nat) : State :=
  let o := oBank b + 0x24
  rsetFld s o 31 16 (rfld s o 31 16 + 1)

/-- The logic side can send frames: out of reset and its watchdog served (R156). -/
def canSend (s : State) : Bool := s.clk.alive && s.clk.resetWait.isNone

/-! ### Commits to outputs (R162, R163) -/

/-- The output frame for bank `b` as the point image and the live set now stand, with presets. -/
def frameOf (s : State) (b : Nat) (presets : List (Nat × Word)) : OFrame :=
  { unit := absA s, vals := (bankChans b).map (outWord s), presets := presets, again := false }

/-- BNK_AN_DRIVE of a bank's analogue outputs follows the values sent (R238), unless the bank is in its safe state. -/
def noteDrive (s : State) (b : Nat) (f : OFrame) : State :=
  if (bank s b).safe then s else
  forAll (upto 16) (fun s i =>
    let c := 16 * b + i
    if chMode s c = 8 ∨ chMode s c = 0xA then modChan s c (fun h => { h with drive := wAt f.vals i }) else s) s

/-- A commit that concerns bank `b` sends it an output frame (R162). -/
def sendOutput (s : State) (b : Nat) (presets : List (Nat × Word)) : State :=
  let f := frameOf s b presets
  let s := noteDrive s b f
  let s := modBank s b (fun k => { k with outq := k.outq ++ [f] })
  sendFrame s b 1 (f.vals ++ f.presets.map Prod.snd)

/-- A commit has written these points: each bank with an output among them gets one frame (R162). -/
def commitPoints (s : State) (ids : List Nat) : State :=
  forAll (upto 12) (fun s b =>
    if ids.any (fun id => id / 16 == b && isOutMode (chMode s id)) then sendOutput s b [] else s) s

/-- A commit has written these points of which some preset counting inputs (R181, R162). -/
def commitWrites (s : State) (ws : List (Nat × Word)) : State :=
  forAll (upto 12) (fun s b =>
    let ps := ws.filterMap (fun w => if w.1 / 16 = b ∧ chMode s w.1 = 2 then some (w.1 % 16, w.2) else none)
    if !ps.isEmpty || ws.any (fun w => w.1 / 16 == b && isOutMode (chMode s w.1)) then sendOutput s b ps else s) s

/-- The channel is latched off (R194, R200). -/
def latchedOff (s : State) (c : Nat) : Bool := bitOf (chan s c).bdiag 10

/-- A digital output is commanded off: what a shutdown left clears, and a stage that a shutdown had switched off stays off until
it is next switched on (R194 to R196). -/
def commandOff (s : State) (c : Nat) : State :=
  let shut := (chan s c).tripped || latchedOff s c
  let s := modChan s c (fun h => { h with tripped := false, bdiag := h.bdiag &&& ~~~ (0x0F000C00 : Word) })
  if shut then modChan s c (fun h => { h with applied := 0, pwmOn := 0, zc := [] }) else s

/-- An output channel outside its safe state takes a value an output frame carries: a latched channel ignores all but off,
which re-arms it (R163, R196); zero-cross states wait for a firing (R189), PWM for its next period (R187). -/
def takeOut (s : State) (c unit : Nat) (v : Word) : State :=
  let m := appMode s c
  if !isOutMode m then s else
  let off := v == 0 && isDigOut m
  let s := modChan s c (fun h => { h with cmd := v, gotOut := true })
  if !off && latchedOff s c then s else
  let s := if off then commandOff s c else s
  if m = 4 then redoStage (modChan s c (fun h => { h with zc := (unit, v != 0) :: h.zc })) c
  else applyNow s c v

/-- A channel of a bank in its safe state receives a value: it ignores it, but a latched channel is re-armed by an off, and the
states committed to a zero-cross output are kept for the firing after the release (R163, R189, R196, R206). -/
def takeSafe (s : State) (c unit : Nat) (v : Word) : State :=
  let m := appMode s c
  if !isDigOut m || (v != 0 && latchedOff s c) then s else
  let s := if v == 0 && latchedOff s c then
      redoStage (modChan s c (fun h => { h with tripped := false, bdiag := h.bdiag &&& ~~~ (0x0F000C00 : Word), zc := [] })) c else s
  if m = 4 then modChan s c (fun h => { h with zc := (unit, v != 0) :: h.zc }) else s

/-- A bank applies an output frame (R162): presets, and outside the safe state every output value. -/
def applyFrame (s : State) (b : Nat) (f : OFrame) : State :=
  let s := forAll f.presets (fun s p =>
    modChan s (16 * b + p.1) (fun h => { h with count := p.2.toNat, bdiag := setBit h.bdiag 14 false })) s
  let k := bank s b
  if k.causes != 0 then
    forAll (upto 16) (fun s i => takeSafe s (16 * b + i) f.unit (wAt f.vals i)) s
  else
    let leaving := k.safe
    let s := if leaving then setBank s b { k with safe := false, relA := absA s } else s
    let s := forAll (upto 16) (fun s i => takeOut s (16 * b + i) f.unit (wAt f.vals i)) s
    if leaving then
      safeEvent (forAll (bankChans b) (fun s c => setDiagBit s c 1 false) s) b 0x40
    else forAll (bankChans b) redoDiag s

/-! ### Readings (R235 to R251) -/

/-- Writes of a channel's signal: the signal point and BNK_AN_SIG (R256). -/
def putSig (s : State) (c : Nat) (v : Word) : State := pset (modChan s c (fun h => { h with sig := v })) (0x200 + c) v

/-- The band a reading of an analogue input is reported in, and the run of failed readings, under R249. -/
def bandStep (s : State) (c band : Nat) : Nat × Nat :=
  let h := chan s c
  let cur := fld h.diag 19 17
  let n := fld (anReg s c 0) 12 9
  if h.firstRead then (band, if failedBand band then n else 0)
  else if !failedBand band then (band, 0)
  else if failedBand cur then (band, h.failRun)
  else if n ≤ h.failRun + 1 then (band, h.failRun + 1) else (cur, h.failRun + 1)

/-- A delivered reading of an analogue input passes the pipeline (R237): `v` how the bank made it, `tr` whether it is
transitional; a new holder then keeps the value and the band of the last frame's field inputs (R486). -/
def readAnIn (s : State) (c : Nat) (v : Conv) (tr : Bool) (raw : Word) : State :=
  let sr := bankSignal v raw
  let t := trim s c sr.1
  let band := bandOf (chMode s c) t sr.2
  let held := !(chan s c).firstRead && failedBand band && !failedBand (fld (chan s c).diag 19 17)
  let br := bandStep s c band
  let e := charIn s c t
  let s := putSig s c t
  let s := modChan s c (fun h => { h with failRun := br.2, firstRead := false })
  if tr && s.base.holdOut then putDiag s c (setBit (setFld (chan s c).diag 3 2 0) 20 true) else
  let keep := held && br.1 != band
  let s := putDiag s c (setBit (setFld (setFld (chan s c).diag 19 17 br.1) 3 2 0) 20 tr)
  if keep then s
  else if bitOf (chan s c).diag 0 then modChan (pset s c e) c (fun h => { h with lastGood := e })
  else if fld (anReg s c 0) 5 4 = 1 then pset s c e else s

/-- A reading that a channel does not deliver because the module does not hold the ball: NaN, BAND 0, VALID 0 (R232). -/
def readOpen (s : State) (c : Nat) : State :=
  let s := modChan (putSig s c qNaN) c (fun h => { h with failRun := 0 })
  putDiag s c (setFld (setFld (chan s c).diag 19 17 0) 3 2 0)

/-- A channel's analogue window, of a code, reaches back past the commit of its mode or its bank's last release (R236). -/
def tooEarly (s : State) (c unit code : Nat) : Bool :=
  let start := unit - windowUnits s code
  decide (unit < windowUnits s code) || decide (start < (chan s c).modeA) || decide (start < (bank s (c / 16)).relA)

/-- A channel whose sense path, loop supply or excitation this module does not connect (R232, R485). -/
def senseShut (s : State) (c : Nat) : Bool :=
  let m := chMode s c
  onTwin s && isHolderOnly m && (if m = 6 ∨ m = 7 then s.twn.senseOpen else !(bank s (c / 16)).driving)

/-- A window that ends at a unit overlaps the 4 ms in which a channel's converter was tested (R480). -/
def inTest (s : State) (c unit code : Nat) : Bool :=
  match s.twn.testing with
  | some (k, e) => k == c && decide (unit < windowUnits s code + e) && decide (e < unit + unitsOfUs s 4000)
  | none => false

/-- A reading that is transitional: its channel's converter was under test (R480), or of a field input that only the holder
connects its window overlaps the transfer, or this module does not hold the ball (R486). -/
def transitional (s : State) (c unit code : Nat) : Bool :=
  inTest s c unit code ||
  (onTwin s && isHolderOnly (chMode s c) && (!s.base.holdOut || decide (unit < windowUnits s code + s.twn.transA)))

/-- What a good reading frame brings for one channel: `v` the bank's latched digital word, `raw` its analogue reading, `k` how the
bank made it. A bank that has not applied the channel's mode delivers nothing for it (R157, R236). -/
def readChan (s : State) (c unit : Nat) (k : Conv) (v raw : Word) : State :=
  let m := chMode s c
  if k.mode ≠ m then putDiag s c (setBit (chan s c).diag 2 false)
  else if isDigIn m then
    if unit < (chan s c).modeA then s else
    let s := modChan (putDiag s c (setFld (chan s c).diag 3 2 0)) c fun x => { x with batchA := unit }
    pset s c v
  else if isAnIn m then
    if senseShut s c then readOpen s c
    else if tooEarly s c unit k.win then putDiag s c (setBit (chan s c).diag 2 false)
    else readAnIn s c k (transitional s c unit k.win) raw
  else if m = 8 ∨ m = 0xA then
    let s := if tooEarly s c unit k.win then s else putSig s c raw
    putDiag s c (setBit (chan s c).diag 2 false)
  else putDiag s c (setBit (chan s c).diag 2 false)

/-- How a bank converts a channel, as it has applied its set (R227, R234). -/
def convOf (s : State) (c : Nat) : Conv := ⟨appMode s c, appAn s c 0x2C, fld (appAn s c 0) 3 2⟩

/-- The word a bank latches for a digital or counting input at a conversion (R161). -/
def latchDig (s : State) (c : Nat) : Word :=
  match appMode s c with
  | 1 => boolW (chan s c).filtSt
  | 2 => w32 (chan s c).count
  | _ => 0

end Sys2Proof.Machine
end

