-- ==== Sys2Proof/Machine/Sched.lean ====
section
/-! DEFINITION. The phase schedule: which entries fire at a phase unit, their order, and the commit of the PHC set. -/

namespace Sys2Proof.Machine

/-- The entries of a schedule table that have a non-zero first word, in rising order. -/
def schedList (t : Tab Word) : List Nat :=
  t.filterMap (fun e => if 0x24000 ≤ e.1 ∧ e.1 < 0x28000 ∧ e.1 % 16 = 0 then some ((e.1 - 0x24000) / 16) else none)

/-- Word `w` of entry `n` of a schedule table. -/
def schedWord (t : Tab Word) (n w : Nat) : Word := tget regReset t (oSched n w)

/-- Entry `n` is enabled (R105). -/
def entryEn (t : Tab Word) (n : Nat) : Bool := bitOf (schedWord t n 0) 31

/-- The action code of entry `n`. -/
def entryAction (t : Tab Word) (n : Nat) : Nat := fld (schedWord t n 0) 19 16

/-- The period of entry `n` in half cycles. -/
def entryPeriod (t : Tab Word) (n : Nat) : Nat := fld (schedWord t n 0) 15 0

/-- The offset of entry `n` in phase units. -/
def entryOffset (t : Tab Word) (n : Nat) : Nat := fld (schedWord t n 1) 26 0

/-- Entry `n` fires at absolute unit `a` (R106). -/
def firesAt (t : Tab Word) (n a : Nat) : Bool :=
  entryEn t n && entryPeriod t n != 0 &&
  ((a : Int) - entryOffset t n) % (entryPeriod t n * 2048 : Nat) == 0

/-- The schedule live at the start of the present phase unit (R760). -/
def schedStart (s : State) : Tab Word := if s.phc.comA = some (absA s) then s.phc.oldLive else s.live

/-- Some entry that passes a test fires at the present unit in the schedule live at its start. -/
def anyFires (s : State) (p : Nat → Word → Bool) : Bool :=
  let t := schedStart s
  (schedList t).any (fun n => firesAt t n (absA s) && p (entryAction t n) (schedWord t n 2))

/-- Phase units are counted and phase events fire (R78, R147). -/
def clockRuns (s : State) : Bool := s.phc.fire && s.phc.run && s.phc.st != 0 && s.clk.alive && s.clk.resetWait.isNone

/-- A firing comes after the latest one dispatched (R108). -/
def inOrder (s : State) (rank n : Nat) : Bool :=
  match s.phc.last with
  | none => true
  | some (a, r, m) => a < absA s || (a == absA s && (r < rank || (r == rank && m < n)))

/-- LCE_PASS and BLE_TASK firings are dispatched now: no power-fail warning has come, the first unit after a takeover has
been reached, and no boundary at which the ball is handed over has come (R144, R482, R490). -/
def mayDispatch (s : State) : Bool :=
  !s.clk.warned && decide (s.twn.from_ ≤ absA s) &&
  (match s.twn.plan with
   | some p => decide (absA s < p.at_ * 4096)
   | none => true)

/-- The dispatch of a firing of entry `n` with an action: its ARG, and the state that remembers it; none when the entry
does not fire now or another of later order has been dispatched (R106, R108). -/
def fireEntry (s : State) (n action : Nat) : Option (Word × State) :=
  if clockRuns s && (mayDispatch s || (action != 2 && action != 3)) && firesAt s.live n (absA s) && entryAction s.live n == action && inOrder s action n then
    some (schedWord s.live n 2, { s with phc := { s.phc with last := some (absA s, action, n) } })
  else none

/-! ### The checks of a commit (R114) -/

/-- An active image and its used tasks (R381). -/
def taskOf (i : Image) (t : Nat) : Option TaskDef :=
  match i.tasks[t]? with
  | some d => if d.used then some d else none
  | none => none

/-- ARG is out of range for its action, or has a reserved bit set (R107). -/
def badArg (action : Nat) (arg : Word) : Bool :=
  match action with
  | 1 => fld arg 31 12 != 0
  | 2 => fld arg 31 4 != 0
  | 3 => fld arg 31 4 != 0
  | 4 => fld arg 15 4 != 0 || 11 < fld arg 3 0
  | 5 => fld arg 31 8 != 0
  | 6 => arg != 0
  | 7 => fld arg 31 16 != 0
  | _ => true

/-- The period an image declares for the task an entry names differs from the entry's (R114 code 0x7). -/
def periodClash (i : Option Image) (arg : Word) (period : Nat) : Bool :=
  match i with
  | none => false
  | some i =>
    match taskOf i (fld arg 3 0) with
    | some d => d.period != period
    | none => false

/-- A reserved bit of entry `n` is set (R105). -/
def entryReserved (t : Tab Word) (n : Nat) : Bool :=
  fld (schedWord t n 0) 30 20 != 0 || fld (schedWord t n 1) 31 27 != 0 || schedWord t n 3 != 0

/-- The code with which a commit refuses entry `n`, earlier enabled task entries having named the tasks `seen`; 0 for none (R114). -/
def entryCode (t : Tab Word) (img : Option Image) (seen : List Nat) (n : Nat) : Nat :=
  if !entryEn t n then (if entryReserved t n then 8 else 0) else
  let act := entryAction t n
  let arg := schedWord t n 2
  let per := entryPeriod t n
  if act = 0 ∨ 7 < act then 1
  else if per = 0 then 2
  else if per * 2048 ≤ entryOffset t n then 3
  else if act = 4 ∧ !([0, 683, 1365].contains (entryOffset t n % 2048)) then 4
  else if badArg act arg then 5
  else if act = 3 ∧ seen.contains (fld arg 3 0) then 6
  else if act = 3 ∧ periodClash img arg per then 7
  else if entryReserved t n then 8 else 0

/-- The indices of entries with any non-zero word, rising. -/
def entryList (t : Tab Word) : List Nat :=
  (t.filterMap (fun e => if 0x24000 ≤ e.1 ∧ e.1 < 0x28000 then some ((e.1 - 0x24000) / 16) else none)).eraseDups

/-- The first refused entry with its code, in ascending index (R114). -/
def schedCheck (t : Tab Word) (img : Option Image) : List Nat → List Nat → Option (Nat × Nat)
  | _, [] => none
  | seen, n :: r =>
    let code := entryCode t img seen n
    if code != 0 then some (n, code)
    else
      let seen := if entryEn t n && entryAction t n == 3 then fld (schedWord t n 2) 3 0 :: seen else seen
      schedCheck t img seen r

/-- A refusal of the PHC set: code, CTRL_ERR, index (R113, R114). -/
def phcCheck (s : State) (img : Option Image) : Option (Nat × Bool × Nat) :=
  if 25 ≤ fld (rget s oPhcCtrl) 6 2 then some (8, true, 0)
  else
    match schedCheck s.regs img [] (entryList s.regs) with
    | some (n, code) => some (code, false, n)
    | none => none

/-- An offset that belongs to the PHC staged set (R759). -/
def inPhcSet (o : Nat) : Bool := o == oPhcCtrl || (0x24000 ≤ o && o < 0x28000)

/-- A live set replaced by its shadow on the offsets of a staged set. -/
def takeShadow (regs live : Tab Word) (p : Nat → Bool) : Tab Word :=
  let dropped := live.filter (fun e => !p e.1)
  (regs.filter (fun e => p e.1)).foldl (fun m e => tset regReset m e.1 e.2) dropped

/-- COMMIT_STATUS word of an applied commit: APPLIED_GEN advances, code and index clear, PENDING clears. -/
def genNext (w : Word) : Word := w32 ((fld w 15 0 + 1) % 65536)

/-- The nominal frequency in 0.1 mHz (R86). -/
def nominal (s : State) : Nat := if bitOf (lget s oPhcCtrl) 0 then 600000 else 500000

/-- The frequency the clock runs at, steering included, in units of 1/`m` Hz (R87, R97). -/
def freqIn (s : State) (m : Nat) : Nat :=
  divRne (m * 10 ^ 9 * s.phc.freq) ((10 ^ 13 : Int) + s.phc.steer * s.phc.freq).toNat

/-- The slew of R86 toward nominal begins, from the frequency the clock runs at. -/
def beginSlew (s : State) : State :=
  let f := freqIn s 10000
  { s with phc := { s.phc with freq := f, steer := 0, slew := f != nominal s } }

/-- A change of NOMINAL takes effect by the slew while the clock runs synthetic, and not otherwise (R89). -/
def renominal (s : State) (old : Nat) : State :=
  if old != nominal s && (s.phc.st == 3 || s.phc.st == 4) then beginSlew s else s

/-- A watch of R329 after a schedule commit is made by the control engine; here the set becomes live (R111). -/
def phcApply (s : State) : State :=
  let s := { s with phc := { s.phc with comA := some (absA s), oldLive := s.live } }
  let old := nominal s
  let s := renominal { s with live := takeShadow s.regs s.live inPhcSet } old
  rset s oPhcCommitStatus (genNext (rget s oPhcCommitStatus))

/-- A refused commit of the PHC set (R111, R113). -/
def phcRefuse (s : State) (code : Nat) (ctrl : Bool) (idx : Nat) : State :=
  rset s oPhcCommitStatus (w32 (rfld s oPhcCommitStatus 15 0 + (idx <<< 16) + (code <<< 26) + (ctrl.toNat <<< 30)))

/-- PHC_COMMIT_STATUS.PENDING (R113). -/
def phcPending (s : State) : Bool := bitOf (rget s oPhcCommitStatus) 31

/-- The live schedule has an enabled TWN_SAMPLE entry of PERIOD 1 (R464). -/
def hasSample (t : Tab Word) : Bool := (schedList t).any (fun n => entryEn t n && entryAction t n == 6 && entryPeriod t n == 1)

/-- Exactly one enabled TWN_SAMPLE entry, of PERIOD 1 (R468). -/
def oneSample (t : Tab Word) : Bool :=
  match (schedList t).filter (fun n => entryEn t n && entryAction t n == 6) with
  | [n] => entryPeriod t n == 1
  | _ => false

end Sys2Proof.Machine
end

