-- ==== Sys2Proof/Machine/Bank.lean ====
section
/-! DEFINITION. Banks and channels: conversions, frames, commits, safe states, digital signals and output faults. -/

namespace Sys2Proof.Machine

/-! ### The bank's staged set (R166 to R172, R261) -/

/-- The value is a binary32 number from `lo` to `hi`. -/
def inRange (v lo hi : Word) : Bool := fle lo v && fle v hi

/-- A BNK_CH_PARAM word breaks the layout of its mode (R218). -/
def badParam (m : Nat) (w : Word) : Bool :=
  match m with
  | 1 => fld w 7 0 == 0 || fld w 31 8 != 0
  | 2 => fld w 7 0 == 0 || fld w 11 8 == 0 || 2 < fld w 13 12 || fld w 31 14 != 0
  | 5 => fld w 23 0 < 1000 || 10000000 < fld w 23 0 || fld w 31 24 != 0
  | _ => w != 0

/-- A SAFE_KIND is not allowed for a mode (R208). -/
def badKind (m k : Nat) : Bool :=
  match m with
  | 8 => 4 < k
  | _ => if isOutMode m then 2 < k else k != 0

/-- A BNK_CH_SAFE_VAL is out of range for its mode, or is not zero where it is not used (R208). -/
def badSafeVal (m k : Nat) (v : Word) : Bool :=
  if k = 1 ∧ m = 5 then !inRange v 0 (dec 100 1)
  else if k = 1 ∧ m = 8 then !inRange v 0 (dec 24 1)
  else if k = 1 ∧ m = 0xA then !inRange v (dec (-1) 1) (dec 11 1)
  else v != 0

/-- The limit of TRIM_OFS for a mode (R240). -/
def trimLimit (m : Nat) : Word :=
  if m ≤ 8 then dec 1 1 else if m = 9 ∨ m = 0xA then dec 5 10 else if m = 0xB then dec 5 1 else dec 1000 1

/-- Breakpoint x values of a table strictly ascend. -/
def ascending : List Word → Bool
  | a :: b :: r => flt a b && ascending (b :: r)
  | _ => true

/-- The table of a shadow analogue configuration is not allowed (R261 code 0xC). -/
def badTable (s : State) (b : Nat) (cfg : Word) : Bool :=
  let n := fld cfg 26 21
  let st := fld cfg 20 13
  if n < 2 ∨ 32 < n ∨ 256 < st + n then true else
    let xs := (upto n).map (fun k => rget s (oBank b + 0x800 + 8 * (st + k)))
    let ys := (upto n).map (fun k => rget s (oBank b + 0x804 + 8 * (st + k)))
    !(xs.all isFinite && ys.all isFinite && ascending xs)

/-- The code with which a channel's shadow analogue registers are refused; 0 for none (R261). -/
def anCode (s : State) (b i m : Nat) : Nat :=
  let a := fun o => rget s (oBank b + 0x400 + 0x40 * i + o)
  let cfg := a 0
  let out := isOutMode m
  let ch := fld cfg 1 0
  if fld cfg 31 27 != 0 || (m == 7 && fld (a 0x28) 31 5 != 0) then 7
  else if ch = 3 ∨ (ch = 1 ∧ out) then 0xA
  else if !(isFinite (a 0xC) && isFinite (a 0x10) && isFinite (a 0x14) && isFinite (a 0x18)) || feq (a 0x10) (a 0xC)
      || (out && ch == 0 && feq (a 0x18) (a 0x14)) || (!out && !(isFinite (a 0x1C) && inRange (a 0x1C) 0 (dec 25 100))) then 0xB
  else if ch = 2 ∧ badTable s b cfg then 0xC
  else if !(inRange (a 4) (dec 95 100) (dec 105 100) && inRange (fabs (a 8)) 0 (trimLimit m)) then 0xD
  else if (!out && (fld cfg 5 4 == 3 || fld cfg 12 9 == 0))
      || (out && (fld cfg 7 6 == 3 || (m == 0xA && fld cfg 7 6 == 2)))
      || (m == 8 && !(inRange (a 0x20) (dec 35 10) (dec 38 10) && inRange (a 0x24) (dec 208 10) (dec 23 1))) then 0xE
  else if (m == 7 && (fld (a 0x28) 4 0 < 12 || 26 < fld (a 0x28) 4 0))
      || ((m == 0xB || m == 0xC || m == 0xD) && !inRange (a 0x2C) 0 (dec 50 1)) then 0xF
  else 0

/-- The code with which channel `i` of a shadow set is refused; 0 for none (R172). -/
def chanCode (s : State) (b i : Nat) : Nat :=
  let c := 16 * b + i
  let cfg := rget s (oChan c)
  let m := fld cfg 3 0
  let k := fld cfg 6 4
  let old := chMode s c
  if 0xE ≤ m then 1
  else if m != old && m != 0 && old != 0 then 2
  else if !isOutMode m && (imageWrites s c || loopWrites s c) then 9
  else if fld cfg 31 12 != 0 then 7
  else if badParam m (rget s (oChan c + 4)) then 3
  else if badKind m k then 4
  else if badSafeVal m k (rget s (oChan c + 8)) then 5
  else if isAnMode m then anCode s b i m else 0

/-- The first refused channel with its code. -/
def chanScan (s : State) (b : Nat) : List Nat → Option (Nat × Nat)
  | [] => none
  | i :: r => if chanCode s b i != 0 then some (i, chanCode s b i) else chanScan s b r

/-- The refusal of bank `b`'s shadow set: ERR_CHAN and ERR_CODE (R172). -/
def bankCheck (s : State) (b : Nat) : Option (Nat × Nat) :=
  let t := fld (rget s (oBank b + 4)) 12 0
  if !(bank s b).linkUp then some (16, 8)
  else if fld (rget s (oBank b)) 31 1 != 0 || fld (rget s (oBank b + 4)) 31 13 != 0 then some (16, 7)
  else if t < 20 ∨ 5000 < t ∨ (onTwin s ∧ t ≤ 60) then some (16, 6)
  else chanScan s b (upto 16)

/-- Offsets of bank `b`'s staged set (R759). -/
def inBankSet (b o : Nat) : Bool := oBank b ≤ o && o < oBank b + 0x1000 && (regInfo o).rws != 0

/-- The events of forces released because their object is gone or off (R457, R458): reason 0, 1 or 2. -/
def forceGone (s : State) (f : Force) (reason : Nat) : State :=
  let s := noteForce s { f with kind := f.kind + 2 }
  pushEv s 6 8 f.part [w32 f.kind, w32 f.obj, w32 f.pin, w32 reason] 5 0xFFFF true true

/-- Every force that passes a test is released, with its events. -/
def releaseForces (s : State) (p : Force → Bool) (reason : Nat) : State :=
  let gone := s.forces.filter p
  forAll gone (fun s f => forceGone s f reason) { s with forces := s.forces.filter (fun f => !p f) }

/-- The logic side of a committed mode change (R170): points reset, NOT_READY for inputs, a forced value point released when off. -/
def modeChanged (s : State) (c : Nat) : State :=
  let m := chMode s c
  let s := pset s c 0
  let s := putSig s c qNaN
  let s := modChan s c (fun h => { h with
    firstRead := true, failRun := 0, lastGood := 0, modeA := absA s, gotOut := false, drive := 0 })
  let keep := (chan s c).diag &&& 0x32
  let s := putDiag s c (if isOutMode m || m == 0 then keep else keep ||| 8)
  if m = 0 then releaseForces s (fun f => f.kind == 0 && f.obj == c) 1 else s

/-- Bank `b`'s shadow set becomes live and is sent to the bank (R166, R170). -/
def bankApply (s : State) (b : Nat) : State :=
  let before := (bankChans b).map (chMode s)
  let s := { s with live := takeShadow s.regs s.live (inBankSet b) }
  let o := oBank b + 0xC
  let s := rset s o (w32 ((rfld s o 15 0 + 1) % 65536))
  let s := forAll (upto 16) (fun s i =>
    if chMode s (16 * b + i) = nAt before i then s else modeChanged s (16 * b + i)) s
  noteMirror (modBank s b (fun k => { k with cfgDue := true, cfgAgain := false, comA := some (absA s) })) (16 + b)

/-- A refused commit of bank `b` (R166, R215). -/
def bankRefuse (s : State) (b ch code : Nat) : State :=
  let o := oBank b + 0xC
  rset s o (w32 (rfld s o 15 0 + (ch <<< 16) + (code <<< 21)))

/-- A waiting CFG_WRITE of a block, and for BNK of a bank (R532, R559). -/
def isCfgWrite (f : Flight) (block b : Nat) : Bool :=
  opOf f == 0x20 && fld (tgtOf f) 3 0 == block && (block != 3 || fld (tgtOf f) 7 4 == b)

/-- The commit of bank `b` at its commit point, and the completion of a CFG_WRITE that waits for it (R166, R532). -/
def bankCommitNow (s : State) (b : Nat) : State :=
  match bankCheck s b with
  | none =>
    let s := bankApply s b
    completeAll s (fun f => isCfgWrite f 3 b) 0 (w32 (rfld s (oBank b + 0xC) 15 0)) 0 0
  | some (ch, code) =>
    let s := bankRefuse s b ch code
    completeAll s (fun f => isCfgWrite f 3 b) 0xD 0 0 (w32 (code + (ch <<< 16)))

/-- BNK_COMMIT_STATUS.PENDING of bank `b`. -/
def bankPending (s : State) (b : Nat) : Bool := bitOf (rget s (oBank b + 0xC)) 31

/-- The present phase unit is bank `b`'s commit point (R166, R760). -/
def isBankPoint (s : State) (b : Nat) : Bool :=
  clockRuns s && (bank s b).reqA < absA s &&
  (s.phc.phase == 0 || anyFires s (fun act arg => (act == 1 && bitOf arg b) || (act == 4 && fld arg 3 0 == b)))

/-- A commit of bank `b` is requested (R166, R167). -/
def bankRequest (s : State) (b : Nat) : State :=
  if bankPending s b then s else modBank (ror s (oBank b + 0xC) 0x80000000) b (fun k => { k with reqA := absA s })

/-- BNK_COMMIT (R166). -/
def execBnkCommit (b : Fin 12) (v : Word) (s : State) : Host.Outcome State Fault Refusal :=
  done s (reached s 7 fun s => if bitOf v 0 then unlessStandby s (fun s => bankRequest s b) else s)

/-- BANK_COMMIT_POINT (R166). -/
def execBankCommitPoint (b : Fin 12) (s : State) : Host.Outcome State Fault Refusal :=
  done s (if bankPending s b && isBankPoint s b then bankCommitNow s b else s)

/-! ### Conversions and zero-cross firings -/

/-- A bank latches its digital states and counts for a firing at a unit (R161). -/
def latchBatch (s : State) (b unit : Nat) : State :=
  let bt : Batch := ⟨unit, (bankChans b).map (latchDig s), (bankChans b).map (convOf s)⟩
  modBank s b (fun k => { k with batches := k.batches ++ [bt] })

/-- A firing for the bank at the present unit falls on its commit point, and the bank has not applied the new set (R167). -/
def mustHold (s : State) (b : Nat) : Bool := (bank s b).cfgDue && (bank s b).comA == some (absA s)

/-- A firing is held for the new set. -/
def hold (s : State) (b : Nat) (f : Option Nat) : State := modBank s b (fun k => { k with held := k.held ++ [(absA s, f)] })

/-- The banks of a mask latch their digital states and counts (R161, R167). -/
def convert (s : State) (mask : Word) : State :=
  forAll (upto 12) (fun s b =>
    if bitOf mask b && (bank s b).run then
      (if mustHold s b then hold s b none else latchBatch s b (absA s))
    else s) s

/-- A zero-cross timing frame for a firing reaches its bank, at once or by its repeat (R157, R188). -/
def sendTiming (s : State) (entry : Nat) (arg : Word) (unit : Nat) (ok again : Bool) : State :=
  let b := fld arg 3 0
  let body := [arg, w32 unit, w32 (unit >>> 32)]
  let s := sendFrame s b 3 body
  let s := if ok then s else sendFrame (downErr s b) b 3 body
  let s := if ok || again then s else downErr s b
  if (ok || again) && (bank s b).run then
    let z : ZcTiming := ⟨unit, fld arg 31 16, entry⟩
    bankHeard (modBank s b (fun k => { k with timing := k.timing ++ [z] })) b
  else s

/-- The next unit at which entry `n` fires that lies at least 200 microseconds ahead (R188). -/
def nextFiring (s : State) (n : Nat) : Nat :=
  let p := entryPeriod s.live n * 2048
  let a := absA s
  let d := (((entryOffset s.live n : Int) - a) % (p : Int)).toNat
  if unitsOfUs s 200 ≤ d then a + d else a + d + p

/-- The state a zero-cross output takes at a firing: the latest committed 64 phase units or more before (R189). -/
def zcState (a : Nat) : List (Nat × Bool) → Option Bool
  | [] => none
  | (u, v) :: r => if u + 64 ≤ a then some v else zcState a r

/-- The history of a zero-cross output up to the state a firing took. -/
def zcKeep (a : Nat) : List (Nat × Bool) → List (Nat × Bool)
  | [] => []
  | (u, v) :: r => if u + 64 ≤ a then [(u, v)] else (u, v) :: zcKeep a r

/-- One channel at a zero-cross firing (R189, R206). -/
def zcChan (s : State) (c a : Nat) : State :=
  if appMode s c = 4 then
    let h := chan s c
    match zcState a h.zc with
    | some v =>
      let s := setChan s c { h with zc := zcKeep a h.zc, zcHold := false }
      redoDiag (applyNow s c (boolW v)) c
    | none => s
  else s

/-- The channels named by the timing frame a bank holds for the firing of an entry at unit `a` switch (R189). -/
def zcFire (s : State) (b a entry : Nat) : State :=
  let now := (bank s b).timing.filter (fun z => z.unit == a && z.entry == entry)
  let s := modBank s b (fun k => { k with timing := k.timing.filter (fun z => !(z.unit < a || (z.unit == a && z.entry == entry))) })
  if (bank s b).safe then s else
  forAll now (fun s z => forAll (upto 16) (fun s i => if z.mask.testBit i then zcChan s (16 * b + i) a else s) s) s

/-- A zero-cross firing of the present unit, held where the bank has a new set to apply first (R167, R189). -/
def zcSwitch (s : State) (b entry : Nat) : State :=
  if mustHold s b && (bank s b).run then hold s b (some entry) else zcFire s b (absA s) entry

/-- The firings a bank held run under the set it now has (R167). -/
def runHeld (s : State) (b : Nat) : State :=
  let l := (bank s b).held
  let s := modBank s b (fun k => { k with held := [] })
  if !(bank s b).run then s else
  forAll l (fun s f => match f.2 with
    | none => latchBatch s b f.1
    | some n => zcFire s b f.1 n) s

/-- A firing is held for at most 50 microseconds (R167). -/
def heldDue (s : State) : State :=
  forAll (upto 12) (fun s b =>
    if (bank s b).held.any (fun f => f.1 + unitsOfUs s 50 ≤ absA s) then runHeld s b else s) s

/-- The entry of the first firing of the present unit that a bank holds a timing frame for and has not made. -/
def zcNext (s : State) (b : Nat) : Option Nat :=
  (sortBy id (((bank s b).timing.filter (fun z => z.unit == absA s && inOrder s 4 z.entry)).map ZcTiming.entry)).head?

/-- ZC_SWITCH (R108, R189): the bank's next firing of this phase unit is dispatched. A timed action's frame waits for
TIMED_ACTION_FIRE. -/
def execZcSwitch (b : Fin 12) (s : State) : Host.Outcome State Fault Refusal :=
  done s (match zcNext s b with
    | some n =>
      if n < 1024 then zcSwitch { s with phc := { s.phc with last := some (absA s, 4, n) } } b n else s
    | none => s)

/-! ### Frames -/

/-- The logic side sends a keep-alive frame (R155 to R157). -/
def keepAlive (s : State) (b : Nat) (ok : Bool) : State :=
  if !canSend s then s else
    let s := sendFrame s b 0 []
    if !ok then downErr s b else if (bank s b).run then bankHeard s b else s

/-- BANK_LINK_KEEPALIVE (R155, R156). -/
def execBankLinkKeepalive (b : Fin 12) (ok : Bool) (s : State) : Host.Outcome State Fault Refusal := done s (keepAlive s b ok)

/-- READING_FRAME (R157, R235). -/
def execReadingFrame (b : Fin 12) (ok : Bool) (raw : List Word) (s : State) : Host.Outcome State Fault Refusal :=
  done s (match (bank s b).batches with
    | [] => s
    | bt :: r =>
      let s := gotFrame (modBank s b (fun k => { k with batches := r })) b
      if ok then
        forAll (upto 16) (fun s i =>
          readChan s (16 * b + i) bt.unit (bt.conv.getD i ⟨0, 0, 0⟩) (wAt bt.vals i) (wAt raw i)) (logicHeard s b)
      else
        let s := poison (upErr s b) 6
        forAll (bankChans b) (fun s c =>
          if isDigOut (chMode s c) || chMode s c == 0 then s else putDiag s c (setBit (chan s c).diag 2 true)) s)

/-- What BNK_CH_MEAS shows of a measured value (R217). -/
def measFor (m : Nat) (v : Word) : Word := if isOutMode m || isDigIn m then v &&& 0xFFFF else 0

/-- DIAGNOSTIC_FRAME (R155, R157). -/
def execDiagnosticFrame (b : Fin 12) (ok : Bool) (temp : BitVec 8) (volt : BitVec 12) (curr : BitVec 13)
    (meas : List Word) (s : State) : Host.Outcome State Fault Refusal :=
  done s (if !(bank s b).run then s else
    let s := gotFrame s b
    if !ok then upErr s b else
    let s := logicHeard s b
    let s := modBank s b (fun k => { k with temp := temp.toNat, fsVolt := volt.toNat, fsCurr := curr.toNat })
    forAll (upto 16) (fun s i =>
      let c := 16 * b.val + i
      takeDiag (redoStage (modChan s c (fun h => { h with meas := measFor (appMode s c) (wAt meas i) })) c) c) s)

/-- KEEP_ALIVE_FRAME (R155 to R157), to the bank or from it. -/
def execKeepAliveFrame (b : Fin 12) (toBank ok : Bool) (s : State) : Host.Outcome State Fault Refusal :=
  done s (if toBank then keepAlive s b ok
    else if !(bank s b).run then s
    else if ok then logicHeard (gotFrame s b) b else upErr (gotFrame s b) b)

/-- A frame in which a poisoned channel keeps the value the bank holds (R570 hop 0x05). -/
def maskFrame (s : State) (b : Nat) (f : OFrame) (p : BitVec 16) : OFrame :=
  { f with vals := (upto 16).map (fun i => if p.getLsbD i then (chan s (16 * b + i)).cmd else wAt f.vals i) }

/-- OUTPUT_FRAME (R157, R162, R206): the oldest frame waiting, or the point image as it stands when none waits. -/
def execOutputFrame (b : Fin 12) (ok : Bool) (p : BitVec 16) (s : State) : Host.Outcome State Fault Refusal :=
  done s (if !canSend s then s else
    let s := if p = 0 then s else poison s 5
    let wait := (bank s b).outq
    let f := match wait with
      | f :: _ => f
      | [] => frameOf s b []
    let words := f.vals ++ f.presets.map Prod.snd
    let s := if wait.isEmpty then sendFrame (noteDrive s b f) b 1 words else s
    let pop := fun s => modBank s b (fun k => { k with outq := k.outq.drop 1 })
    if !ok then
      let s := downErr s b
      if f.again then pop s
      else modBank (sendFrame s b 1 words) b (fun k => { k with outq := { f with again := true } :: k.outq.drop 1 })
    else if (bank s b).run then applyFrame (bankHeard (pop s) b) b (maskFrame s b f p)
    else pop s)

/-- The set live for bank `b`, by page offset. -/
def pageOf (s : State) (b : Nat) : Tab Word :=
  s.live.filterMap (fun e => if inBankSet b e.1 then some (e.1 - oBank b, e.2) else none)

/-- The bank's side of a channel whose applied mode changed (R170, R176, R182). -/
def bankMode (s : State) (c : Nat) (restart : Bool) : State :=
  let m := appMode s c
  let s := modChan s c (fun h => { h with
    bdiag := h.bdiag &&& 0x22, count := 0, filt := 0, filtSt := false, samp := false, fresh := true, cfilt := 0,
    cfiltSt := false, csamp := false, cfresh := true, cmd := 0, applied := 0, gotOut := false, tripped := false,
    zc := [], zcHold := false, pwmOn := 0, pwmPer := 0, pwmAt := 0, safePer := 0, meas := 0 })
  let s := if restart && m == 2 then setB s c 14 true else s
  if isOutMode m then safeChan s c else s

/-- A committed filter length clips the filter's count, in the counting path too (R177, R179). -/
def clipFilter (s : State) (c : Nat) : State :=
  let p := appCh s c 4
  if isDigIn (appMode s c) then
    modChan s c (fun h => { h with filt := min h.filt (fld p 7 0), cfilt := min h.cfilt (fld p 11 8) }) else s

/-- CONFIGURATION_FRAME (R157, R167, R203): the bank applies and confirms the live set. -/
def execConfigurationFrame (b : Fin 12) (ok : Bool) (s : State) : Host.Outcome State Fault Refusal :=
  done s (if !((bank s b).cfgDue && canSend s) then s else
    let s := sendFrame s b 2 ((pageOf s b).flatMap (fun e => [w32 e.1, e.2]))
    if !ok then
      let s := downErr s b
      if (bank s b).cfgAgain then runHeld (modBank s b (fun k => { k with cfgDue := false, cfgAgain := false })) b
      else modBank s b (fun k => { k with cfgAgain := true })
    else if !(bank s b).run then s else
      let restart := !(bank s b).confirmed
      let before := (bankChans b).map (appMode s)
      let s := modBank s b (fun k => { k with applied := pageOf s b, cfgDue := false, cfgAgain := false, confirmed := true })
      let s := forAll (upto 16) (fun s i =>
        let c := 16 * b.val + i
        if restart || appMode s c != nAt before i then bankMode s c restart else clipFilter s c) s
      bankHeard (runHeld s b) b)

/-- LINK_DOWN (R158): 3 ms without a valid frame, also of a bank that has been silent since the logic side started. -/
def execLinkDown (b : Fin 12) (s : State) : Host.Outcome State Fault Refusal :=
  done s (if !canSend s || bitOf (chan s (16 * b)).diag 4 then s else
    let s := modBank s b (fun k => { k with linkUp := false })
    let s := forAll (bankChans b) (fun s c => putDiag s c (setBit (chan s c).diag 4 true)) s
    bankEvent s b 2 [])

/-! ### Digital inputs -/

/-- The level of a sample with the hysteresis of R173. -/
def level (prev : Bool) (mv : Nat) : Bool := if 9500 ≤ mv then true else if mv ≤ 8000 then false else prev

/-- A counter filter after one sample: count and state (R175). -/
def filterStep (n count : Nat) (st high : Bool) : Nat × Bool :=
  let k := if high then min (count + 1) n else count - 1
  (k, if k = n then true else if k = 0 then false else st)

/-- INPUT_SAMPLE (R173, R175, R176): every 100 microseconds. -/
def execInputSample (c : Fin 192) (mv : Nat) (s : State) : Host.Outcome State Fault Refusal :=
  done s (if !(isDigIn (appMode s c) && (bank s (c / 16)).run) then s else
    let n := fld (appCh s c 4) 7 0
    let h := chan s c
    let hi := level (!h.fresh && h.samp) mv
    let r := if h.fresh then (if hi then n else 0, hi) else filterStep n h.filt h.filtSt hi
    let st := r.2 && !bitOf h.bdiag 6
    setB (setChan s c { h with fresh := false, samp := hi, filt := r.1, filtSt := st }) c 13 st)

/-- COUNT_PATH_SAMPLE (R179): every 5 microseconds. -/
def execCountPathSample (c : Fin 192) (mv : Nat) (s : State) : Host.Outcome State Fault Refusal :=
  done s (if !(appMode s c == 2 && (bank s (c / 16)).run) then s else
    let p := appCh s c 4
    let h := chan s c
    let hi := level (!h.cfresh && h.csamp) mv
    let n := fld p 11 8
    let r := if h.cfresh then (if hi then n else 0, hi) else filterStep n h.cfilt h.cfiltSt hi
    let edge := !h.cfresh && r.2 != h.cfiltSt &&
      (match fld p 13 12 with
       | 0 => r.2
       | 1 => !r.2
       | _ => true)
    setChan s c { h with
      cfresh := false, csamp := hi, cfilt := r.1, cfiltSt := r.2, count := (h.count + edge.toNat) % 2 ^ 32 })

/-- OPEN_DET as applied (R217). -/
def openDet (s : State) (c : Nat) : Bool := bitOf (appCh s c 0) 7

/-- OPEN_WIRE_DETECT (R178). A commit that clears OPEN_DET leaves a set OPEN as it stands, the channel's detection having ended (the
spec does not say; DESIGN CHOICE, log 135). -/
def execOpenWireDetect (c : Fin 192) (open_ : Bool) (s : State) : Host.Outcome State Fault Refusal :=
  done s (if !(isDigIn (appMode s c) && openDet s c && (bank s (c / 16)).run) then s
    else if open_ then setB (setB (modChan s c (fun h => { h with filtSt := false })) c 6 true) c 13 false
    else setB s c 6 false)

/-! ### Output stages and their faults -/

/-- PWM_PERIOD_START (R186, R187): in the safe state the period is the one applied at entry (R171, R208). -/
def execPwmPeriodStart (c : Fin 192) (s : State) : Host.Outcome State Fault Refusal :=
  done s (if !(appMode s c == 5 && (bank s (c / 16)).run) then s else
    startPeriod s c (if (bank s (c / 16)).safe then (chan s c).safePer else appPeriod s c))

/-- RETRY as applied (R194). -/
def retryMax (s : State) (c : Nat) : Nat := fld (appCh s c 0) 11 8

/-- RETRY_USED as the bank holds it. -/
def retryUsed (s : State) (c : Nat) : Nat := fld (chan s c).bdiag 27 24

/-- An output stage shuts down with a fault bit; after the last allowed retry it latches off (R192 to R194). -/
def shutdown (s : State) (c bit : Nat) : State :=
  let last := retryMax s c != 15 && retryMax s c ≤ retryUsed s c
  let s := setB (modChan s c (fun h => { h with tripped := true })) c bit true
  redoStage (if last then setB s c 10 true else s) c

/-- A digital, zero-cross or PWM output whose stage conducts. -/
def digitalOn (s : State) (c : Nat) : Bool := isDigOut (appMode s c) && stageOn s c

/-- Such an output whose stage is switched on; a PWM output also between its on times. -/
def digitalLive (s : State) (c : Nat) : Bool := isDigOut (appMode s c) && stageLive s c

/-- SHORT_SHUTDOWN (R192). -/
def execShortShutdown (c : Fin 192) (s : State) : Host.Outcome State Fault Refusal :=
  done s (if digitalOn s c then shutdown s c 7 else s)

/-- OVERLOAD_SHUTDOWN (R193). -/
def execOverloadShutdown (c : Fin 192) (s : State) : Host.Outcome State Fault Refusal :=
  done s (if digitalOn s c then shutdown s c 8 else s)

/-- OUTPUT_RETRY (R194). -/
def execOutputRetry (c : Fin 192) (s : State) : Host.Outcome State Fault Refusal :=
  done s (if !((chan s c).tripped && !getB s c 10 && (chan s c).applied != 0 && (bank s (c / 16)).run) then s else
    redoStage (modChan s c (fun h => { h with
      tripped := false, bdiag := setFld h.bdiag 27 24 (min 15 (fld h.bdiag 27 24 + 1)) })) c)

/-- FAULT_CLEAR (R195). -/
def execFaultClear (c : Fin 192) (long : Bool) (s : State) : Host.Outcome State Fault Refusal :=
  done s (if !digitalLive s c then s else
    let s := setB (setB s c 7 false) c 8 false
    if long then modChan s c (fun h => { h with bdiag := setFld h.bdiag 27 24 0 }) else s)

/-- An open load can be found: for a PWM output only in an on time of 1 ms or longer (R191). -/
def openFindable (s : State) (c : Nat) : Bool := appMode s c != 5 || (stageOn s c && decide (1000 ≤ (chan s c).pwmOn))

/-- OPEN_LOAD_DETECT (R191, R197, R198). -/
def execOpenLoadDetect (c : Fin 192) (open_ : Bool) (s : State) : Host.Outcome State Fault Refusal :=
  done s (if isDigOut (appMode s c) && openDet s c && (bank s (c / 16)).run && (bank s (c / 16)).driving && (!open_ || openFindable s c) then
    setB s c 6 open_ else s)

/-- EXT_DRIVE_DETECT (R198). -/
def execExtDriveDetect (c : Fin 192) (drive : Bool) (s : State) : Host.Outcome State Fault Refusal :=
  done s (if isDigOut (appMode s c) && (bank s (c / 16)).run && (bank s (c / 16)).driving then setB s c 9 drive else s)

/-- LOAD_SHED (R200). -/
def execLoadShed (b : Fin 12) (i : Fin 16) (s : State) : Host.Outcome State Fault Refusal :=
  let c := 16 * b.val + i.val
  done s (if !digitalLive s c then s else
    bankEvent (redoStage (setB (setB s c 11 true) c 10 true) c) b 0x80 [])

/-- COMPLIANCE_CHANGE (R230). -/
def execComplianceChange (c : Fin 192) (short : Bool) (s : State) : Host.Outcome State Fault Refusal :=
  done s (if appMode s c == 8 && (bank s (c / 16)).run && (bank s (c / 16)).driving then setB s c 16 short else s)

/-- VOLTAGE_OUTPUT_SHORT (R253). -/
def execVoltageOutputShort (c : Fin 192) (short : Bool) (s : State) : Host.Outcome State Fault Refusal :=
  done s (if appMode s c == 0xA && (bank s (c / 16)).run then setB s c 7 short else s)

/-- CURRENT_OUTPUT_OPEN (R253): with OPEN_DET, a commanded current of 1 mA or more and COMPLIANCE set. -/
def execCurrentOutputOpen (c : Fin 192) (open_ : Bool) (s : State) : Host.Outcome State Fault Refusal :=
  done s (if !(appMode s c == 8 && openDet s c && (bank s (c / 16)).run && (bank s (c / 16)).driving) then s
    else if open_ then (if getB s c 16 && fle (dec 1 1) (chan s c).applied then setB s c 6 true else s)
    else setB s c 6 false)

/-- DIAG_LATCH_REPORT (R220): bits set within the 100 ms are reported together at its end. -/
def execDiagLatchReport (c : Fin 192) (s : State) : Host.Outcome State Fault Refusal :=
  done s (
    let h := chan s c
    if h.latPend = 0 then setChan s c { h with latOpen := false }
    else latchReport (setChan s c { h with latPend := 0, latOpen := true }) c h.latPend)

/-! ### Field supply, temperature, watchdog and safe states -/

/-- FS_LOW of every channel of a bank (R201). -/
def setFsLow (s : State) (b : Nat) (low : Bool) : State := forAll (bankChans b) (fun s c => setDiagBit s c 5 low) s

/-- FIELD_SUPPLY_LOST (R201). -/
def execFieldSupplyLost (b : Fin 12) (s : State) : Host.Outcome State Fault Refusal :=
  done s (if !(bank s b).fsGood then s else
    bankEvent (setFsLow (modBank s b (fun k => { k with fsGood := false })) b true) b 4 [])

/-- FIELD_SUPPLY_GOOD (R201). -/
def execFieldSupplyGood (b : Fin 12) (s : State) : Host.Outcome State Fault Refusal :=
  done s (if (bank s b).fsGood then s else
    bankEvent (setFsLow (modBank s b (fun k => { k with fsGood := true })) b false) b 8 [])

/-- What a bank loses when its controller resets (R202): its last-held latch too, so that it drives while its own module's line
is asserted and not otherwise (R460). -/
def bankLost (k : Bank) (own : Bool) : Bank :=
  { k with run := false, applied := [], confirmed := false, outq := [], batches := [], timing := [], held := [], cfgDue := false,
           cfgAgain := false, lastHeld := own, driving := own, heard := false, otClear := false }

/-- BANK_CONTROLLER_RESET (R202): outputs stop driving and counts are lost. -/
def execBankControllerReset (b : Fin 12) (s : State) : Host.Outcome State Fault Refusal :=
  done s (
    let s := modBank s b (fun k => bankLost k s.base.holdOut)
    forAll (bankChans b) (fun s c => redoDiag (modChan s c (fun h => { h with
      count := 0, cmd := 0, applied := 0, gotOut := false, tripped := false, zc := [], zcHold := false, pwmOn := 0,
      pwmPer := 0, pwmAt := 0, safePer := 0, bdiag := h.bdiag &&& 0x22 })) c) s)

/-- BANK_START (R203): the bank enters its safe state with cause FS, and the whole live set is to be sent. -/
def execBankStart (b : Fin 12) (s : State) : Host.Outcome State Fault Refusal :=
  done s (if (bank s b).run || !(bank s b).fsGood then s else
    addCause (modBank s b (fun k => { k with run := true, cfgDue := true, cfgAgain := false, confirmed := false, safe := false })) b 8)

/-- BANK_OVERTEMP (R204). -/
def execBankOvertemp (b : Fin 12) (s : State) : Host.Outcome State Fault Refusal :=
  done s (if !(bank s b).run then s else
    let was := bitOf (bank s b).causes 6
    let s := addCause (modBank s b (fun k => { k with otClear := false })) b 6
    if was then s else bankEvent s b 0x10 [])

/-- OVERTEMP_CLEARABLE (R204). -/
def execOvertempClearable (b : Fin 12) (s : State) : Host.Outcome State Fault Refusal :=
  done s (if bitOf (bank s b).causes 6 then autoClear (modBank s b (fun k => { k with otClear := true })) b else s)

/-- BNK_SAFE_CMD (R205). -/
def execBnkSafeCmd (b : Fin 12) (v : Word) (s : State) : Host.Outcome State Fault Refusal :=
  done s (reached s 7 fun s => if bitOf v 0 then addCause s b 7 else s)

/-- BNK_RELEASE (R207). -/
def execBnkRelease (b : Fin 12) (v : Word) (s : State) : Host.Outcome State Fault Refusal :=
  done s (reached s 7 fun s => if bitOf v 0 then releaseMet (dropCause s b 7) b else s)

/-- BANK_WATCHDOG_EXPIRY (R212). -/
def execBankWatchdogExpiry (b : Fin 12) (s : State) : Host.Outcome State Fault Refusal :=
  done s (if !(bank s b).run then s else
    bankEvent (addCause (modBank s b (fun k => { k with heard := false })) b 3) b 1 [])

end Sys2Proof.Machine
end

