-- ==== Sys2Proof/Machine/Lce.lean ====
section
/-! DEFINITION. The control engine's configuration: due loops, the checks of a commit, and the commit itself (R326 to
R329, R345, R353, R358 to R364). -/

namespace Sys2Proof.Machine

/-- Loop `n`. -/
def loopSt (s : State) (n : Nat) : LoopSt := tget (fun _ => LoopSt.reset) s.lce.loops n

/-- The state with loop `n` replaced. -/
def setLoop (s : State) (n : Nat) (l : LoopSt) : State :=
  { s with lce := { s.lce with loops := tset (fun _ => LoopSt.reset) s.lce.loops n l } }

/-- Point `q` of loop `n` (R351). -/
def loopPt (n q : Nat) : Nat := 0x800 + 8 * n + q

/-- The word of a configuration at an offset of loop `n`. -/
def cfgL (t : Tab Word) (n o : Nat) : Word := tget regReset t (oLoop n + o)

/-- The enabled loops of a configuration, ascending. -/
def enLoops (t : Tab Word) : List Nat :=
  t.filterMap (fun e =>
    if 0x42000 ≤ e.1 ∧ e.1 < 0x4A000 ∧ e.1 % 0x80 = 0 ∧ bitOf e.2 0 then some ((e.1 - 0x42000) / 0x80) else none)

/-- The enabled groups of a configuration, ascending. -/
def enGroups (t : Tab Word) : List Nat :=
  t.filterMap (fun e =>
    if 0x40400 ≤ e.1 ∧ e.1 < 0x40800 ∧ e.1 % 0x10 = 0 ∧ bitOf e.2 0 then some ((e.1 - 0x40400) / 0x10) else none)

/-- PERIOD_HC of a loop. -/
def lPeriod (t : Tab Word) (n : Nat) : Nat := fld (cfgL t n 4) 16 0
/-- SLOT of a loop. -/
def lSlot (t : Tab Word) (n : Nat) : Nat := fld (cfgL t n 8) 16 0
/-- PASS of a loop. -/
def lPass (t : Tab Word) (n : Nat) : Nat := fld (cfgL t n 0) 4 1
/-- GROUP of a loop. -/
def lGroup (t : Tab Word) (n : Nat) : Nat := fld (cfgL t n 0x18) 6 0
/-- OUT of a loop. -/
def lOut (t : Tab Word) (n : Nat) : Nat := fld (cfgL t n 0xC) 31 16
/-- OUT of a group. -/
def gOut (t : Tab Word) (g : Nat) : Nat := fld (tget regReset t (oGroup g + 4)) 15 0
/-- NEG of a group. -/
def gNeg (t : Tab Word) (g : Nat) : Bool := bitOf (tget regReset t (oGroup g)) 1

/-- Enabled loops that are members of group `g`. -/
def members (t : Tab Word) (g : Nat) : List Nat := (enLoops t).filter (fun n => lGroup t n == g)

/-- An entry of a schedule can make a loop due (R328). -/
def canBeDue (sched t : Tab Word) (n : Nat) : Bool :=
  (schedList sched).any (fun k =>
    let per := entryPeriod sched k
    entryEn sched k && entryAction sched k == 2 && fld (schedWord sched k 2) 3 0 == lPass t n && per != 0 &&
    lPeriod t n % per == 0 && lSlot t n % per == (entryOffset sched k / 2048) % per)

/-! ### The checks of a commit (R361) -/

/-- How many enabled loops and groups of a configuration write a point. -/
def claims (t : Tab Word) (id : Nat) : Nat :=
  ((enLoops t).filter (fun n => lOut t n == id)).length + ((enGroups t).filter (fun g => gOut t g == id)).length

/-- An OUT point that is not allowed (R353, R361 code 0x4). -/
def badOut (s : State) (t : Tab Word) (id : Nat) : Bool :=
  ptype s id != some 3 || !hostWritable s id || (0x800 ≤ id && id < 0x1000) || imageWrites s id || 1 < claims t id

/-- The six point bindings of a loop: PV, OUT, SP_SRC, TRK, FF, KEY. -/
def bindings (t : Tab Word) (n : Nat) : List Nat :=
  let w := fun o => cfgL t n o
  [fld (w 0xC) 15 0, fld (w 0xC) 31 16, fld (w 0x10) 15 0, fld (w 0x10) 31 16, fld (w 0x14) 15 0, fld (w 0x14) 31 16]

/-- A binding that must be present is none. -/
def missingBind (t : Tab Word) (n : Nat) : Bool :=
  let c := cfgL t n 0
  let b := fun k => nAt (bindings t n) k == 0xFFFF
  b 0 || (fld c 24 22 == 3 && b 2) || (fld c 24 22 == 4 && b 3) || (bitOf c 25 && b 4) || (bitOf c 9 && b 5)

/-- Parameters of a loop out of range (R361 code 0x6). -/
def badParams (t : Tab Word) (n : Nat) : Bool :=
  let w := fun o => cfgL t n o
  let all := [0x20, 0x24, 0x28, 0x2C, 0x30, 0x34, 0x38, 0x3C, 0x40, 0x44, 0x48, 0x4C, 0x50, 0x54, 0x58, 0x5C]
  !(all.all (fun o => isFinite (w o))) ||
  [0x20, 0x24, 0x28, 0x30, 0x34, 0x40, 0x54, 0x58].any (fun o => flt (w o) 0) ||
  !inRange (w 0x2C) 0 (dec 1 1) || !flt (w 0x38) (w 0x3C) || flt (w 0x50) (w 0x4C) ||
  !inRange (w 0x48) (w 0x38) (w 0x3C) || !inRange (w 0x5C) (w 0x4C) (w 0x50)

/-- Word `o` of pool entry `k` of a configuration. -/
def poolW (t : Tab Word) (k o : Nat) : Word := tget regReset t (oGs k + o)

/-- A gain schedule that is not allowed (R342, R361 code 0x7). -/
def badPool (t : Tab Word) (n : Nat) : Bool :=
  let c := cfgL t n 0
  let st := fld c 17 10
  let k := fld c 21 18
  if k < 1 ∨ 8 < k ∨ 256 < st + k then true else
    let es := (upto k).map (st + ·)
    !(es.all (fun e => [0, 4, 8, 0xC].all (fun o => isFinite (poolW t e o)))) ||
    es.any (fun e => [4, 8, 0xC].any (fun o => flt (poolW t e o) 0)) ||
    !ascending (es.map (fun e => poolW t e 0))

/-- The structural fields of a loop (R360). -/
def structOf (t : Tab Word) (n : Nat) : List Nat :=
  let c := cfgL t n 0
  [fld c 5 5, fld c 4 1, lPeriod t n, lSlot t n, fld c 9 9, fld c 17 10, fld c 21 18, lGroup t n] ++ bindings t n

/-- The code with which loop `n` is refused; 0 for none (R361). -/
def loopCode (s : State) (t : Tab Word) (n : Nat) : Nat :=
  let c := cfgL t n 0
  let part := loopPart s n
  let lim := if bitOf (lget s oPhcCtrl) 0 then 72000 else 60000
  let bs := (bindings t n).filter (· != 0xFFFF)
  if fld c 31 26 != 0 || fld (cfgL t n 4) 31 17 != 0 || fld (cfgL t n 8) 31 17 != 0 || fld (cfgL t n 0x18) 31 7 != 0 then 1
  else if !bitOf c 0 then 0
  else if 1 < fld c 7 6 || 4 < fld c 24 22 || (63 < lGroup t n && lGroup t n < 127) then 1
  else if lPeriod t n = 0 ∨ lim < lPeriod t n ∨ lPeriod t n ≤ lSlot t n then 2
  else if !canBeDue s.live t n then 3
  else if missingBind t n || bs.any (fun id => 0x1FFF < id || ptype s id != some 3) ||
      (lOut t n != 0xFFFF && badOut s t (lOut t n)) then 4
  else if (part != 0 && bs.any (fun id => ppart s id != part)) ||
      (lGroup t n != 127 && (members t (lGroup t n)).any (fun m => m < n && loopPart s m != part)) then 5
  else if badParams t n then 6
  else if bitOf c 9 && badPool t n then 7
  else if lGroup t n != 127 && (lOut t n != 0xFFFF || !bitOf (tget regReset t (oGroup (lGroup t n))) 0) then 8
  else if loopEn s n && structOf s.live n != structOf t n then 9
  else 0

/-- The code with which a group is refused, a disabled one for its reserved bits alone (R13, R361); 0 for none. -/
def groupCode (s : State) (t : Tab Word) (g : Nat) : Nat :=
  let ms := members t g
  let w := fun o => tget regReset t (oGroup g + o)
  let key := fun n => [lPass t n, lPeriod t n, lSlot t n]
  let part := match ms with
    | m :: _ => loopPart s m
    | [] => 0
  if fld (w 0) 31 2 != 0 || fld (w 4) 31 16 != 0 then 1
  else if !bitOf (w 0) 0 then 0
  else if gOut t g = 0xFFFF then 8
  else if badOut s t (gOut t g) then 4
  else if part != 0 && ppart s (gOut t g) != part then 5
  else if 8 < ms.length || ms.any (fun m => ms.any (fun k => key m != key k)) then 8
  else if (gOut s.live g != gOut t g || gNeg s.live g != gNeg t g) && ms.any (fun m => loopEn s m && loopGroup s m == g) then 9
  else 0

/-- Loops of a set with a word that is not at reset: the ones a check can refuse. -/
def touchedLoops (t : Tab Word) : List Nat :=
  (t.filterMap (fun e => if 0x42000 ≤ e.1 ∧ e.1 < 0x4A000 then some ((e.1 - 0x42000) / 0x80) else none)).eraseDups

/-- Groups of a set with a word that is not at reset. -/
def touchedGroups (t : Tab Word) : List Nat :=
  (t.filterMap (fun e => if 0x40400 ≤ e.1 ∧ e.1 < 0x40800 then some ((e.1 - 0x40400) / 0x10) else none)).eraseDups

/-- The first refused loop or group of a list with its code. -/
def firstCode (f : Nat → Nat) : List Nat → Option (Nat × Nat)
  | [] => none
  | n :: r => if f n != 0 then some (n, f n) else firstCode f r

/-- The refusal of a loop set: ERR_INDEX and ERR_CODE, loops before groups (R361). -/
def lceCheck (s : State) (t : Tab Word) : Option (Nat × Nat) :=
  match firstCode (loopCode s t) (touchedLoops t) with
  | some r => some r
  | none => (firstCode (groupCode s t) (touchedGroups t)).map (fun r => (256 + r.1, r.2))

/-- Offsets of the LCE staged set (R759). -/
def inLceSet (o : Nat) : Bool := 0x40400 ≤ o && o < 0x4A000 && (regInfo o).rws != 0

/-- A per-loop bit of LCE_EVENT: a REG_EVENT carrying the loop number (R349, R362). -/
def loopEvent (s : State) (bit n : Nat) (rec_ : Bool) : State :=
  regEvent (ror s oLceEvent (oneBit bit)) oLceEvent (oneBit bit) (w32 n) (loopPart s n) true rec_ []

/-- Enabled loops that the live schedule can no longer make due become STARVED (R329). -/
def starvedCheck (s : State) : State :=
  forAll (enLoops s.live) (fun s n =>
    if canBeDue s.live s.live n || bitOf (loopSt s n).status 10 then s else
      let l := loopSt s n
      let w := setBit l.status 10 true
      loopEvent (pset (setLoop s n { l with status := w }) (loopPt n 5) w) 1 n true) s

/-- A loop set becomes live: loops newly enabled initialise (R337, R358). -/
def lceApply (s : State) (t : Tab Word) : State :=
  let old := enLoops s.live
  let s := { s with live := takeShadow t s.live inLceSet }
  let s := rset s oLceCommitStatus (genNext (rget s oLceCommitStatus))
  let s := { s with lce := { s.lce with gen := rfld s oLceCommitStatus 15 0 } }
  let s := forAll (enLoops s.live) (fun s n =>
    if old.contains n then s else setLoop s n { loopSt s n with init := true, own := false, fresh := true }) s
  noteMirror (starvedCheck s) 4

/-- The LCE commit at its commit point, and a CFG_WRITE that waits for it (R358, R532). -/
def lceCommitNow (s : State) : State :=
  match s.lce.build with
  | none => s
  | some t =>
    let chk := lceCheck s t
    let s := { s with lce := { s.lce with build := none, built := false } }
    match chk with
    | none =>
      let s := lceApply s t
      completeAll s (fun f => isCfgWrite f 4 0) 0 (w32 (rfld s oLceCommitStatus 15 0)) 0 0
    | some (i, code) =>
      let s := rset s oLceCommitStatus (w32 (rfld s oLceCommitStatus 15 0 + (i <<< 16) + (code <<< 25)))
      completeAll s (fun f => isCfgWrite f 4 0) 0xD 0 0 (w32 (code + (i <<< 16)))

/-- LCE_COMMIT_STATUS.PENDING. -/
def lcePending (s : State) : Bool := bitOf (rget s oLceCommitStatus) 31

/-- A commit of the loop set is requested: the shadow set is copied and its build begins (R358, R359). -/
def lceRequest (s : State) : State :=
  if lcePending s then s else
    let s := ror s oLceCommitStatus 0x80000000
    { s with lce := { s.lce with build := some (s.regs.filter (fun e => inLceSet e.1)), built := false } }

/-- LCE_COMMIT (R358): the word written. -/
def execLceCommit (v : Word) (s : State) : Host.Outcome State Fault Refusal :=
  done s (reached s 2 fun s => if bitOf v 0 then unlessStandby s lceRequest else s)

/-- The control engine's clock runs: its gate is open (R133). -/
def lceClock (s : State) : Bool := s.clk.alive && bitOf (rget s oGateOpen) 2

/-- LCE_BUILD_COMPLETE (R358). -/
def execLceBuildComplete (s : State) : Host.Outcome State Fault Refusal :=
  done s (if lceClock s && s.lce.build.isSome then { s with lce := { s.lce with built := true } } else s)

/-- The saturation part of the loop-state area is written (R355). -/
def saveSat (s : State) : State :=
  { s with lce := { s.lce with
      satArea := s.lce.loops.filterMap (fun e =>
        if e.2.satTot = 0 ∧ e.2.satCnt = 0 ∧ e.2.satFrac = 0 then none else some (e.1, (e.2.satTot, e.2.satCnt, e.2.satFrac))),
      satAt := s.rtc.optime } }

/-- SATURATION_SAVE (R355): the engine writes it once its counts have been restored, as long as it has its clock. -/
def execSaturationSave (s : State) : Host.Outcome State Fault Refusal :=
  done s (if lceClock s && started s && s.clk.resetWait.isNone then saveSat s else s)

/-- The loops' words as the loop-state area takes them (R355). -/
def loopArea (s : State) : Tab LoopSave :=
  let ns := (s.lce.loops.map Prod.fst ++ enLoops s.live).eraseDups
  (sortBy id ns).map (fun n =>
    let l := loopSt s n
    (n, { mode := pnat s (loopPt n 2), sp := pnat s (loopPt n 0), man := pnat s (loopPt n 1), i := l.i, yf := l.yf,
          uach := l.uach, region := fld l.status 14 12, init := l.init : LoopSave }))

/-! ### The commit points of one phase unit (R111, R166, R760) -/

/-- The PHC set becomes live, the standby is to follow, and a CFG_WRITE that waits for it completes (R111, R329, R478, R532). -/
def phcLive (s : State) : State :=
  let s := noteMirror (starvedCheck (phcApply s)) 2
  completeAll s (fun f => isCfgWrite f 2 0) 0 (w32 (rfld s oPhcCommitStatus 15 0)) 0 0

/-- The PHC commit at its commit point (R111). -/
def phcCommitNow (s : State) : State :=
  match phcCheck s s.img with
  | none => phcLive s
  | some (code, ctrl, idx) =>
    completeAll (phcRefuse s code ctrl idx) (fun f => isCfgWrite f 2 0) 0xD 0 0
      (w32 (code + (ctrl.toNat <<< 8) + (idx <<< 16)))

/-- The present phase unit is the PHC block's commit point (R111, R760); an activation with SCHED_WITH has its own (R444). -/
def isPhcPoint (s : State) : Bool :=
  clockRuns s && phcPending s && !(s.ble.act.map Activation.schedWith).getD false && decide (s.phc.reqA < absA s) && (s.phc.phase == 0 || anyFires s (fun _ _ => true))

/-- A PHC commit that is due is made. -/
def phcDue (s : State) : State := if isPhcPoint s then phcCommitNow s else s

/-- The commits of banks 0 to 11 that are due are made. -/
def banksDue (s : State) : State :=
  forAll (upto 12) (fun s b => if bankPending s b && isBankPoint s b then bankCommitNow s b else s) s

/-- Every commit of the PHC set and the banks due at this phase unit, before any of its firings is dispatched (R760). -/
def dueCommits (s : State) : State := banksDue (phcDue s)

end Sys2Proof.Machine
end

