-- ==== Sys2Proof/Machine/Sha.lean ====
section
/-! DEFINITION. SHA-256 on byte strings, and HMAC and HKDF over it: the digest of block images and firmware images and
the derivations of the key store. -/

namespace Sys2Proof.Machine

/-- The round constants. -/
def shaK : List Word :=
  [0x428A2F98, 0x71374491, 0xB5C0FBCF, 0xE9B5DBA5, 0x3956C25B, 0x59F111F1, 0x923F82A4, 0xAB1C5ED5] ++
  [0xD807AA98, 0x12835B01, 0x243185BE, 0x550C7DC3, 0x72BE5D74, 0x80DEB1FE, 0x9BDC06A7, 0xC19BF174] ++
  [0xE49B69C1, 0xEFBE4786, 0x0FC19DC6, 0x240CA1CC, 0x2DE92C6F, 0x4A7484AA, 0x5CB0A9DC, 0x76F988DA] ++
  [0x983E5152, 0xA831C66D, 0xB00327C8, 0xBF597FC7, 0xC6E00BF3, 0xD5A79147, 0x06CA6351, 0x14292967] ++
  [0x27B70A85, 0x2E1B2138, 0x4D2C6DFC, 0x53380D13, 0x650A7354, 0x766A0ABB, 0x81C2C92E, 0x92722C85] ++
  [0xA2BFE8A1, 0xA81A664B, 0xC24B8B70, 0xC76C51A3, 0xD192E819, 0xD6990624, 0xF40E3585, 0x106AA070] ++
  [0x19A4C116, 0x1E376C08, 0x2748774C, 0x34B0BCB5, 0x391C0CB3, 0x4ED8AA4A, 0x5B9CCA4F, 0x682E6FF3] ++
  [0x748F82EE, 0x78A5636F, 0x84C87814, 0x8CC70208, 0x90BEFFFA, 0xA4506CEB, 0xBEF9A3F7, 0xC67178F2]

/-- The initial hash value. -/
def shaInit : List Word :=
  [0x6A09E667, 0xBB67AE85, 0x3C6EF372, 0xA54FF53A, 0x510E527F, 0x9B05688C, 0x1F83D9AB, 0x5BE0CD19]

/-- Rotation of a word to the right. -/
def rotr (w : Word) (n : Nat) : Word := w.rotateRight n

/-- One more word of the message schedule; the list holds the latest words first. -/
def shaSched : Nat → List Word → List Word
  | 0, l => l
  | n + 1, l =>
    let x := wAt l 14
    let y := wAt l 1
    let s0 := rotr x 7 ^^^ rotr x 18 ^^^ (x >>> 3)
    let s1 := rotr y 17 ^^^ rotr y 19 ^^^ (y >>> 10)
    shaSched n ((wAt l 15 + s0 + wAt l 6 + s1) :: l)

/-- The eight working variables after a round. -/
def shaRound (v : List Word) (kw : Word × Word) : List Word :=
  let a := wAt v 0
  let b := wAt v 1
  let c := wAt v 2
  let e := wAt v 4
  let s1 := rotr e 6 ^^^ rotr e 11 ^^^ rotr e 25
  let ch := (e &&& wAt v 5) ^^^ (~~~e &&& wAt v 6)
  let t1 := wAt v 7 + s1 + ch + kw.1 + kw.2
  let s0 := rotr a 2 ^^^ rotr a 13 ^^^ rotr a 22
  let maj := (a &&& b) ^^^ (a &&& c) ^^^ (b &&& c)
  [t1 + s0 + maj, a, b, c, wAt v 3 + t1, e, wAt v 5, wAt v 6]

/-- The hash value after one block of sixteen words. -/
def shaBlock (h : List Word) (m : List Word) : List Word :=
  let w := (shaSched 48 m.reverse).reverse
  let v := (List.zip shaK w).foldl shaRound h
  List.zipWith (· + ·) h v

/-- Bytes as big-endian words. -/
def beWords : List Nat → List Word
  | a :: b :: c :: d :: r => w32 (beNat [a, b, c, d]) :: beWords r
  | _ => []

/-- The hash over a list of words taken sixteen at a time. -/
def shaWords : Nat → List Word → List Word → List Word
  | 0, h, _ => h
  | n + 1, h, l => if l.isEmpty then h else shaWords n (shaBlock h (l.take 16)) (l.drop 16)

/-- The padding of a message of `n` bytes. -/
def shaPad (n : Nat) : List Nat := 0x80 :: (List.replicate ((119 - n % 64) % 64) 0 ++ beBytes 8 (8 * n))

/-- SHA-256 of a byte string, as 32 bytes. -/
def sha256 (msg : List Nat) : List Nat :=
  let w := beWords (msg ++ shaPad msg.length)
  (shaWords (w.length / 16 + 1) shaInit w).flatMap (fun x => beBytes 4 x.toNat)

/-- HMAC-SHA-256. -/
def hmac (key msg : List Nat) : List Nat :=
  let k := if 64 < key.length then sha256 key else key
  let k := k ++ List.replicate (64 - k.length) 0
  sha256 (k.map (· ^^^ 0x5C) ++ sha256 (k.map (· ^^^ 0x36) ++ msg))

/-- The expansion of HKDF-SHA-256: blocks T(i) until enough bytes are made. -/
def hkdfGo (prk info : List Nat) : Nat → Nat → List Nat → List Nat
  | 0, _, _ => []
  | n + 1, i, t =>
    let t := hmac prk (t ++ info ++ [i])
    t ++ hkdfGo prk info n (i + 1) t

/-- HKDF-SHA-256 with a salt: `n` bytes. -/
def hkdf (salt ikm info : List Nat) (n : Nat) : List Nat := (hkdfGo (hmac salt ikm) info (n / 32 + 1) 1 []).take n

end Sys2Proof.Machine
end

