-- ==== Sys2Proof/Machine/Image.lean ====
section
/-! DEFINITION. Block images: what the engine reads of an image's bytes, and the check made when one is loaded (R369 to
R377, R412 to R414). -/

namespace Sys2Proof.Machine

/-- The word at byte offset `o` of a byte string. -/
def bW (b : List Nat) (o : Nat) : Word := w32 (leNat ((b.drop o).take 4))

/-- The word at byte offset `o`, as a number. -/
def bN (b : List Nat) (o : Nat) : Nat := leNat ((b.drop o).take 4)

/-- `n` words from byte offset `o`. -/
def bWords (b : List Nat) (o n : Nat) : List Word :=
  let r := bytesWords ((b.drop o).take (4 * n))
  r ++ List.replicate (n - r.length) 0

/-- Offset and length of section `k` (R369). -/
def secOf (b : List Nat) (k : Nat) : Nat × Nat := (bN b (0x38 + 8 * k), bN b (0x3C + 8 * k))

/-- Words of one table entry after another: `n` entries of `k` words. -/
def entries (k : Nat) : Nat → List Word → List (List Word)
  | 0, _ => []
  | n + 1, l => l.take k :: entries k n (l.drop k)

/-- The entries of section `sec`, of `k` words each. -/
def secEntries (b : List Nat) (sec k n : Nat) : List (List Word) := entries k n (bWords b (secOf b sec).1 (k * n))

/-- An instance entry (R372). -/
def instOf (w : List Word) : Inst :=
  let a := wAt w 0
  { typ := fld a 6 0, nIn := fld a 12 8, retain := bitOf a 13, persist := bitOf a 14, task := fld a 19 16,
    part := fld a 24 20, iid := (wAt w 1).toNat, ofs := fld (wAt w 2) 19 0, param := wAt w 3 }

/-- A connection entry (R373). -/
def connOf (w : List Word) : Conn :=
  { dst := fld (wAt w 0) 13 0, dstPin := fld (wAt w 0) 18 14, src := fld (wAt w 1) 13 0, srcPin := fld (wAt w 1) 18 14,
    fb := bitOf (wAt w 1) 31 }

/-- A variable entry (R374). -/
def varDefOf (w : List Word) : VarDef :=
  let a := wAt w 0
  { point := fld a 15 0, typ := fld a 18 16, retain := bitOf a 19, part := fld a 24 20, init := wAt w 1 }

/-- The 16-bit indices of section 2. -/
def orderOf (b : List Nat) (n : Nat) : List Nat :=
  ((bWords b (secOf b 2).1 ((n + 1) / 2)).flatMap (fun w => [fld w 15 0, fld w 31 16])).take n

/-- A task entry with its execution order (R371). -/
def taskDefOf (order : List Nat) (w : List Word) : TaskDef :=
  let a := wAt w 0
  { used := bitOf a 0, comfort := bitOf a 1, prio := fld a 5 2, tol := fld a 9 6, action := fld a 11 10,
    period := fld (wAt w 1) 15 0, order := (order.drop (wAt w 2).toNat).take (wAt w 3).toNat }

/-- The sixteen task entries of a header. -/
def taskWords (b : List Nat) : List (List Word) := entries 4 16 (bWords b 0x80 64)

/-- A PT_WR block. -/
def isPtWr (t : Nat) : Bool := 0x56 ≤ t && t ≤ 0x5A
/-- A PT_RD block. -/
def isPtRd (t : Nat) : Bool := 0x51 ≤ t && t ≤ 0x55

/-- What the engine reads of an image (R369 to R374). -/
def parseImage (b : List Nat) : Image :=
  let nI := min (bN b 0x18) 16384
  let nV := min (bN b 0x28) 2048
  let nD := min (bN b 0x20) 786432
  let insts := (secEntries b 0 4 nI).map instOf
  let order := orderOf b nI
  { bytes := b, programId := bW b 0x10, build := bW b 0x14, suppress := bitOf (bW b 0x2C) 0, dataWords := nD,
    retainWords := bN b 0x24, retainId := (b.drop 0x30).take 8, digest := b.drop (b.length - 32),
    tasks := (taskWords b).map (taskDefOf order), insts := insts, conns := (secEntries b 1 2 (min (bN b 0x1C) 65536)).map connOf,
    init := bWords b (secOf b 3).1 nD, vars := (secEntries b 4 2 nV).map varDefOf,
    expr := bWords b (secOf b 5).1 ((secOf b 5).2 / 4),
    rules := if (secOf b 6).2 = 0 then [] else bWords b ((secOf b 6).1 + 8) (4 * min (bN b (secOf b 6).1) 65536),
    writes := insts.filterMap (fun i => if isPtWr i.typ then some (fld i.param 15 0) else none) }

/-! ### The expression block's programs (R412 to R414) -/

/-- An operation: opcode and operand. -/
def exprOp (w : Nat) : Nat × Nat := (nbits w 4 0, nbits w 10 5)

/-- The program at a byte offset of the expression area: its constants and operations (R412). -/
def exprProg (area : List Word) (ofs : Nat) : List Word × List Nat :=
  let h := wAt area (ofs / 4)
  let nc := fld h 11 7
  let ops := (area.drop (ofs / 4 + 1 + nc)).flatMap (fun w => [fld w 15 0, fld w 31 16])
  ((area.drop (ofs / 4 + 1)).take nc, ops.take (fld h 6 0))

/-- How many entries an operation pops and pushes (R413). -/
def exprEffect (op : Nat) : Nat × Nat :=
  if op = 0 then (0, 0) else if op ≤ 3 then (0, 1) else if op ≤ 5 then (1, 0) else if op = 6 then (1, 2)
  else if op = 7 then (2, 2) else if op = 8 then (1, 0) else if op ≤ 0xC then (2, 1) else if op ≤ 0xE then (1, 1)
  else if op ≤ 0x10 then (2, 1) else if op ≤ 0x13 then (1, 1) else if op = 0x14 then (2, 1) else if op = 0x15 then (1, 1)
  else if op ≤ 0x1A then (2, 1) else if op = 0x1B then (1, 1) else if op ≤ 0x1D then (3, 1) else if op = 0x1E then (1, 1)
  else (1, 0)

/-- An operation word is allowed at position `k` of `n` (R412, R414). -/
def exprWordOk (nIn nc n k w : Nat) : Bool :=
  let (op, a) := exprOp w
  w < 2048 &&
  (if op = 1 then a < nIn else if op = 2 then a < nc else if op = 3 ∨ op = 4 ∨ op = 5 then a < 4
   else if op = 0x1F then 1 ≤ a && k + 1 + a ≤ n else a == 0)

/-- Depths at the operations reached so far, followed in order: jumps go forward only, so each operation's depth is known
when it is reached (R414). -/
def exprDepths (n : Nat) : List Nat → Nat → List (Nat × Nat) → Bool
  | [], _, _ => true
  | w :: r, k, seen =>
    let here := seen.filterMap (fun p => if p.1 = k then some p.2 else none)
    match here with
    | [] => exprDepths n r (k + 1) seen
    | d :: more =>
      let (op, a) := exprOp w
      let (pop, push) := exprEffect op
      if !(more.all (· == d)) || (op != 0 && (d < pop || 16 < d - pop + push)) then false
      else if op = 0 then exprDepths n r (k + 1) seen
      else
        let d2 := d - pop + push
        let next := if op = 0x1F then [(k + 1, d2), (k + 1 + a, d2)] else [(k + 1, d2)]
        exprDepths n r (k + 1) (next ++ seen)

/-- A program of the expression area is allowed for an instance of `nIn` inputs. -/
def exprOk (area : List Word) (len ofs nIn : Nat) : Bool :=
  let h := wAt area (ofs / 4)
  let n := fld h 6 0
  let nc := fld h 11 7
  let (_, ops) := exprProg area ofs
  ofs % 4 == 0 && ofs + 4 ≤ len && h.toNat < 4096 && 1 ≤ n && n ≤ 64 && nc ≤ 16 &&
  ofs + 4 + 4 * nc + 4 * ((n + 1) / 2) ≤ len &&
  (n % 2 == 0 || fld (wAt area (ofs / 4 + 1 + nc + n / 2)) 31 16 == 0) &&
  ((upto n).all (fun k => exprWordOk nIn nc n k (nAt ops k))) && exprDepths n ops 0 [(0, 0)]

/-! ### Objects that blocks name -/

/-- A CAN buffer as a CAN_TX block may name it: enabled, a transmit buffer, not mapped (R635). -/
def canTxOk (s : State) (param : Word) : Bool :=
  let c := rget s (oCanBuf (fld param 1 0) (fld param 7 2))
  bitOf c 0 && bitOf c 1 && !bitOf c 2

/-- A CAN buffer as a CAN_RX block may name it: no enabled transmit buffer (DEDUCED, log 23). -/
def canRxOk (s : State) (param : Word) : Bool :=
  let c := rget s (oCanBuf (fld param 1 0) (fld param 7 2))
  !(bitOf c 0 && bitOf c 1)

/-- PARAM is valid for its type (R376 code 0x0A). -/
def paramOk (s : State) (im : Image) (i : Inst) : Bool :=
  let p := i.param
  let t := i.typ
  if t = 0x37 then p == 0 || p == 1
  else if t = 0x50 then p != 0 && fld p 31 16 == 0
  else if isPtRd t then fld p 31 16 == 0 && ptypeIn s (some im) p.toNat == some (t - 0x51)
  else if isPtWr t then fld p 31 16 == 0 && ptypeIn s (some im) p.toNat == some (t - 0x56)
  else if t = 0x5B ∨ t = 0x5C then fld p 31 14 == 0 && fld p 13 11 ≤ 4
  else if t = 0x5D then fld p 31 5 == 0
  else if t = 0x5E ∨ t = 0x5F then fld p 31 8 == 0
  else if t = 0x60 ∨ t = 0x61 then fld p 31 11 == 0 && fld p 10 8 ≤ 6 && fld p 7 1 ≤ 95
  else if t = 0x62 then p.toNat ≤ 95
  else if t = 0x63 then fld p 31 8 == 0 && canRxOk s p
  else if t = 0x64 then fld p 31 8 == 0 && canTxOk s p
  else if t = 0x65 then p.toNat ≤ 3
  else if t = 0x66 then exprOk im.expr (4 * im.expr.length) p.toNat i.nIn
  else if t = 0x68 ∨ t = 0x69 then fld p 31 16 == 0
  else if t = 0x6F then p.toNat ≤ 4
  else p == 0

/-- The partition of a metering set a block names: circuit set or phase set (R543, R685). -/
def setPart (s : State) (p : Word) : Nat :=
  if bitOf p 0 then (match circuitOfInput s (fld p 7 1) with
    | some k => circPart s k
    | none => 0)
  else circPart s (fld p 7 1)

/-- The partition of station `n`: its entry's while it is enabled (R607, R685). -/
def stationPart (s : State) (n : Nat) : Nat :=
  let c := rget s (oStation n)
  if bitOf c 0 then fld c 5 1 else 0

/-- The partition of a CAN buffer: its entry's while it is enabled (R631, R685). -/
def canBufPart (s : State) (p b : Nat) : Nat :=
  let c := rget s (oCanBuf p b)
  if bitOf c 0 then fld c 9 5 else 0

/-- The partition of the object a block names; none where it names none (R377). -/
def objPart (s : State) (im : Image) (i : Inst) : Option Nat :=
  let p := i.param
  let t := i.typ
  if isPtRd t || isPtWr t then some (ppartIn s (some im) p.toNat)
  else if t = 0x5B ∨ t = 0x5C ∨ t = 0x5D then some (stationPart s (fld p 4 0))
  else if t = 0x5E ∨ t = 0x5F then some (loopPart s (fld p 7 0))
  else if t = 0x60 ∨ t = 0x61 then some (setPart s p)
  else if t = 0x62 then some (circPart s (fld p 6 0))
  else if t = 0x63 ∨ t = 0x64 then some (canBufPart s (fld p 1 0) (fld p 7 2))
  else none

/-- An instance breaks R377 by the object it names. -/
def objClash (s : State) (im : Image) (i : Inst) : Bool :=
  i.part != 0 && (match objPart s im i with
    | some p => p != i.part
    | none => false)

/-- The point that word `idx` of station `st` is, as a number above the local identifiers (00_scope, Point). -/
def remotePt (st idx : Nat) : Nat := 0x10000 + 2048 * st + idx

/-- Points a block writes: PT_WR its point, LOOP the three writable points of its loop (R407; log 24), RIO_WR its remote
point. -/
def blockWrites (i : Inst) : List Nat :=
  if isPtWr i.typ then [fld i.param 15 0]
  else if i.typ = 0x5E then [loopPt (fld i.param 7 0) 0, loopPt (fld i.param 7 0) 1, loopPt (fld i.param 7 0) 2]
  else if i.typ = 0x5C then [remotePt (fld i.param 4 0) (fld i.param 10 5)]
  else []

/-- A point that a program block must not write (R376 code 0x0B). -/
def noWrite (s : State) (id : Nat) : Bool :=
  loopWrites s id ||
  (if id < 0xC0 then !isOutMode (chMode s id)
   else if 0x400 ≤ id ∧ id < 0x500 then !canTxPoint s id
   else if 0x800 ≤ id ∧ id < 0x1000 then 3 ≤ id % 8
   else id < 0x1800)

/-- A point that a program block no longer may write at an activation: a loop or group has come to write it, or its channel's
live mode R169 does not allow (R424). -/
def writeConflict (s : State) (id : Nat) : Bool := loopWrites s id || (id < 0xC0 && !isOutMode (chMode s id))

/-! ### The check (R376) -/

/-- The first element of a list that fails, with its index. -/
def firstBad {α : Type} (p : α → Bool) : List α → Nat → Option Nat
  | [], _ => none
  | x :: r, k => if p x then some k else firstBad p r (k + 1)

/-- The first element that fails given the elements before it. -/
def firstBadIn {α : Type} (p : List α → α → Bool) : List α → List α → Nat → Option Nat
  | [], _, _ => none
  | x :: r, seen, k => if p seen x then some k else firstBadIn p r (x :: seen) (k + 1)

/-- A check's code with the index it found. -/
def withCode (c : Nat) (o : Option Nat) : Option (Nat × Nat) := o.map (fun i => (c, i))

/-- A condition's code with index 0. -/
def codeIf (c : Nat) (b : Bool) : Option (Nat × Nat) := if b then some (c, 0) else none

/-- The first refusal of a list of checks. -/
def firstOf : List (Unit → Option (Nat × Nat)) → Option (Nat × Nat)
  | [] => none
  | f :: r =>
    match f () with
    | some x => some x
    | none => firstOf r

/-- The length R370 gives section `k`. -/
def secLen (b : List Nat) (k : Nat) : Option Nat :=
  match k with
  | 0 => some (16 * bN b 0x18)
  | 1 => some (8 * bN b 0x1C)
  | 2 => some ((2 * bN b 0x18 + 7) / 8 * 8)
  | 3 => some (4 * bN b 0x20)
  | 4 => some (8 * bN b 0x28)
  | 6 => if bitOf (bW b 8) 0 then some (8 + 16 * bN b (secOf b 6).1) else some 0
  | _ => none

/-- Sections stand in order on multiples of 8, inside the image, with the lengths of R370. -/
def secsOk (b : List Nat) (body : Nat) : Bool :=
  let l := (upto 7).map (secOf b)
  let used := l.filter (fun x => x.2 != 0)
  l.all (fun x => x.1 % 8 == 0 && 0x180 ≤ x.1 && x.1 + x.2 ≤ body) &&
  (List.zip used (used.drop 1)).all (fun p => p.1.1 + p.1.2 ≤ p.2.1) &&
  (upto 7).all (fun k => match secLen b k with
    | some n => (secOf b k).2 == n
    | none => true)

/-- The types of the pins of an instance, inputs then outputs. -/
def pinTypes (i : Inst) : List Nat := (sigOf i).ins ++ (sigOf i).outs

/-- A connection that code 0x07 refuses, given those before it (FB apart). -/
def badConn (im : Image) (seen : List Conn) (c : Conn) : Bool :=
  match im.insts[c.dst]?, im.insts[c.src]? with
  | some d, some r =>
    d.nIn ≤ c.dstPin || c.srcPin < r.nIn || (pinTypes r).length ≤ c.srcPin ||
    nAt (pinTypes d) c.dstPin != nAt (pinTypes r) c.srcPin ||
    seen.any (fun e => e.dst == c.dst && e.dstPin == c.dstPin)
  | _, _ => true

/-- Place of an instance in its task's order. -/
def posOf (im : Image) (k : Nat) : Nat :=
  match im.insts[k]? with
  | some i => ((im.tasks[i.task]?).map (fun t => t.order.findIdx (· == k))).getD 0
  | none => 0

/-- FB of a connection as R373 gives it. -/
def fbOf (im : Image) (c : Conn) : Bool :=
  match im.insts[c.dst]?, im.insts[c.src]? with
  | some d, some r => d.task == r.task && posOf im c.dst ≤ posOf im c.src
  | _, _ => false

/-- How often an instance stands in the lists of the used tasks. -/
def timesListed (im : Image) (k : Nat) : Nat := (im.tasks.map (fun t => if t.used then t.order.count k else 0)).sum

/-- A list names an instance of another task, or none (R376 code 0x08). -/
def badOrder (im : Image) : Option Nat :=
  let go := fun (t : Nat) =>
    match im.tasks[t]? with
    | some d => if d.used then d.order.find? (fun k => ((im.insts[k]?).map Inst.task) != some t) else none
    | none => none
  (upto 16).findSome? go

/-- A task entry breaks R371. -/
def badTask (n : Nat) (w : List Word) : Bool :=
  let a := wAt w 0
  if bitOf a 0 then
    3 ≤ fld a 11 10 || fld a 31 12 != 0 || fld (wAt w 1) 15 0 == 0 || fld (wAt w 1) 31 16 != 0 ||
    wAt w 3 == 0 || 16384 < (wAt w 3).toNat || n < (wAt w 2).toNat + (wAt w 3).toNat ||
    (!bitOf a 1 && (fld a 9 6 != 0 || fld a 11 10 != 0))
  else w.any (· != 0)

/-- A critical task whose PRIORITY number is not lower than that of every comfort task (R376 code 0x09). -/
def badPrio (ts : List TaskDef) (t : TaskDef) : Bool :=
  t.used && !t.comfort && ts.any (fun c => c.used && c.comfort && c.prio ≤ t.prio)

/-- The 16 entries of SCHED: used ones ascend strictly, unused ones follow (R406). -/
def schedEntriesOk : List Word → Bool
  | a :: b :: r => (b == 0xFFFFFFFF || (a != 0xFFFFFFFF && fld a 19 0 < fld b 19 0)) && schedEntriesOk (b :: r)
  | _ => true

/-- An instance's initial words are invalid (R376 code 0x0D). -/
def badInit (im : Image) (i : Inst) : Bool :=
  let ws := (upto (instWords i)).map (fun k => (wordType i k, wAt im.init (i.ofs + k)))
  ws.any (fun p => p.1 == 0 && 1 < p.2.toNat) ||
  (i.typ == 0x4F && !schedEntriesOk ((upto 16).map (fun k => wAt im.init (i.ofs + 3 + k))))

/-- Two instances' words overlap. -/
def overlaps (a b : Inst) : Bool := a.ofs < b.ofs + instWords b && b.ofs < a.ofs + instWords a

/-- The sequence RETAIN_ID is taken over (R375). -/
def retainSeq (im : Image) : List Word :=
  ((sortBy Inst.iid im.insts).flatMap (fun i =>
    let r := retWords i
    if r.isEmpty then [] else w32 i.iid :: w32 (i.typ + (i.nIn <<< 8)) :: r.map w32)) ++
  ((sortBy VarDef.point (im.vars.filter VarDef.retain)).map (fun v => w32 (v.point + (v.typ <<< 16))))

/-- RETAIN_ID of an image's contents (R375). -/
def retainIdOf (im : Image) : List Nat := (sha256 (wordsBytes (retainSeq im))).take 8

/-- Partition faults in their order: instances, connections, named objects, variables (R376 code 0x0C). -/
def partFault (s : State) (im : Image) : Option Nat :=
  ((firstBad (fun i => 16 < i.part) im.insts 0).or
    (firstBad (fun c =>
      match im.insts[c.src]?, im.insts[c.dst]? with
      | some a, some b => b.part != 0 && a.part != b.part
      | _, _ => false) im.conns 0)).or
    ((firstBad (objClash s im) im.insts 0).or (firstBad (fun v => 16 < v.part) im.vars 0))

/-- The image would break R377 in the present partitions (R690, R692). -/
def breaksParts (s : State) (im : Image) : Bool := im.insts.any (objClash s im)

/-- The full check of a loaded image: the first refusal's code and index (R376). -/
def imageCheck (s : State) (b : List Nat) : Option (Nat × Nat) :=
  let im := parseImage b
  let len := bN b 0xC
  let nI := bN b 0x18
  firstOf [
    fun _ => codeIf 1 (bN b 0 != 0x49424B53 || bN b 4 % 65536 != 1 || bN b 4 / 65536 != 0x180 || 1 < bN b 8 || 1 < bN b 0x2C),
    fun _ => codeIf 2 (len != b.length || len % 8 != 0 || len < 0x1A0 || sha256 (b.take (len - 32)) != b.drop (len - 32)
      || !secsOk b (len - 32)),
    fun _ => codeIf 3 (4194304 < len || nI == 0 || 16384 < nI || 65536 < bN b 0x1C || bN b 0x20 == 0 || 786432 < bN b 0x20
      || 32752 < bN b 0x24 || 2048 < bN b 0x28 || (bitOf (bW b 8) 0 && 65536 < bN b (secOf b 6).1)),
    fun _ => withCode 4 (firstBad (fun i => match inRangeOf i.typ with
      | some r => i.nIn < r.1 || r.2 < i.nIn
      | none => true) im.insts 0),
    fun _ => withCode 5 (firstBadIn (fun seen i => im.dataWords < i.ofs + instWords i || seen.any (overlaps i)) im.insts [] 0),
    fun _ => withCode 6 (firstBadIn (fun seen i => i.iid == 0 || seen.any (fun j => j.iid == i.iid)) im.insts [] 0),
    fun _ => withCode 7 (firstBadIn (badConn im) im.conns [] 0),
    fun _ => withCode 8 ((badOrder im).or ((upto nI).find? (fun k => timesListed im k != 1))),
    fun _ => withCode 7 (firstBad (fun c => c.fb != fbOf im c) im.conns 0),
    fun _ => withCode 9 ((firstBad (badTask nI) (taskWords b) 0).or (firstBad (badPrio im.tasks) im.tasks 0)),
    fun _ => withCode 0xA (firstBadIn (fun seen i => !paramOk s im i ||
      (i.typ == 0x64 && seen.any (fun j => j.typ == 0x64 && j.param == i.param))) im.insts [] 0),
    fun _ => withCode 0xB (firstBadIn (fun seen i => (blockWrites i).any (fun p =>
      noWrite s p || seen.any (fun j => (blockWrites j).contains p))) im.insts [] 0),
    fun _ => withCode 0xC (partFault s im),
    fun _ => withCode 0xD ((firstBad (badInit im) im.insts 0).or
      (firstBad (fun v => v.typ == 0 && 1 < v.init.toNat) im.vars 0)),
    fun _ => withCode 0xE (firstBad (fun i => i.persist && !(isTimer i.typ && i.retain)) im.insts 0),
    fun _ => codeIf 0xF ((bWords b 0x70 4).any (· != 0) ||
      (bitOf (bW b 8) 0 && bN b ((secOf b 6).1 + 4) != 0) ||
      ((b.drop ((secOf b 2).1 + 2 * nI)).take ((secOf b 2).2 - 2 * nI)).any (· != 0)),
    fun _ => withCode 0xF (firstBad (fun w => bitOf (wAt w 0) 7 || bitOf (wAt w 0) 15 || fld (wAt w 0) 31 25 != 0
      || fld (wAt w 2) 31 20 != 0) (secEntries b 0 4 (min nI 16384)) 0),
    fun _ => withCode 0xF (firstBad (fun w => fld (wAt w 0) 31 19 != 0 || fld (wAt w 1) 30 19 != 0)
      (secEntries b 1 2 (min (bN b 0x1C) 65536)) 0),
    fun _ => withCode 0xF (firstBad (fun w => fld (wAt w 0) 31 25 != 0) (secEntries b 4 2 (min (bN b 0x28) 2048)) 0),
    fun _ => withCode 0xF (firstBadIn (fun seen v => v.point < 0x1800 || 0x1FFF < v.point || 4 < v.typ ||
      seen.any (fun u => u.point == v.point)) im.vars [] 0),
    fun _ => codeIf 2 ((retList im).length + (retVars im).length != im.retainWords || retainIdOf im != im.retainId)]

/-- R376 code 0x10: the first enabled BLE_TASK entry of a schedule whose PERIOD differs from an image's period for its task. -/
def periodFault (t : Tab Word) (im : Image) : Option Nat :=
  (schedList t).find? (fun n =>
    entryEn t n && entryAction t n == 3 && periodClash (some im) (schedWord t n 2) (entryPeriod t n))

end Sys2Proof.Machine
end

