-- ==== Sys2Proof/Machine/Transc.lean ====
section
/-! DEFINITION. The exponential, logarithm and power of the expression block, rounded to nearest as every REAL operation
is (R404, R413): computed to 256 fractional bits, near-ties taken as ties (DEDUCED, log 25). -/

namespace Sys2Proof.Machine

/-- Fractional bits of the fixed-point numbers of this file. -/
def fxBits : Nat := 256

/-- The tail of the series of atanh: `term` is `z^(2i+1)`, `z2` is `z^2`. -/
def atanhGo (z2 : Nat) : Nat → Nat → Nat → Nat → Nat
  | 0, _, _, acc => acc
  | fuel + 1, i, term, acc => atanhGo z2 fuel (i + 1) ((term * z2) >>> fxBits) (acc + term / (2 * i + 1))

/-- atanh of `n / d`, at most one third. -/
def atanhFx (n d : Nat) : Nat :=
  let z := (n <<< fxBits) / d
  atanhGo ((z * z) >>> fxBits) 90 0 z 0

/-- The natural logarithm of 2. -/
def ln2Fx : Nat := 2 * atanhFx 1 3

/-- The natural logarithm of a positive quotient. -/
def lnFx (n d : Nat) : Int :=
  let k : Int := (n.log2 : Int) - (d.log2 : Int)
  let a := if k < 0 then n <<< (-k).toNat else n
  let b := if k < 0 then d else d <<< k.toNat
  let h := 2 * (atanhFx (if b ≤ a then a - b else b - a) (a + b) : Int)
  k * (ln2Fx : Int) + (if b ≤ a then h else -h)

/-- The series of the exponential of `r`, below ln 2. -/
def expGo (r : Nat) : Nat → Nat → Nat → Nat → Nat
  | 0, _, _, acc => acc
  | fuel + 1, i, term, acc => expGo r fuel (i + 1) (((term * r) >>> fxBits) / i) (acc + term)

/-- A fixed-point number in which a value within 2^-150 of a short one is that short one. -/
def snapFx (e : Nat) : Nat := ((e + 2 ^ 105) >>> 106) <<< 106

/-- The exponential of a fixed-point number. -/
def expFx (t : Int) : FV :=
  if 200 * 2 ^ 256 < t then .inf false
  else if t < -(200 * 2 ^ 256 : Int) then .fin false 0 1
  else
    let k := t / (ln2Fx : Int)
    let e := snapFx (expGo (t % (ln2Fx : Int)).toNat 90 1 (1 <<< fxBits) 0)
    if k < 0 then .fin false e (1 <<< (fxBits + (-k).toNat)) else .fin false (e <<< k.toNat) (1 <<< fxBits)

/-- e^x. -/
def fvExp : FV → FV
  | .nan => .nan
  | .inf s => if s then .fin false 0 1 else .inf false
  | .fin s n d =>
    if 200 * d < n then (if s then .fin false 0 1 else .inf false)
    else
      let t : Int := ((n <<< fxBits) / d : Nat)
      expFx (if s then -t else t)

/-- ln x; NaN outside the domain, read as the positive numbers (R413; DEDUCED, log 123). -/
def fvLn : FV → FV
  | .nan => .nan
  | .inf s => if s then .nan else .inf false
  | .fin s n d =>
    if s ∨ n = 0 then .nan else
      let l := lnFx n d
      .fin (decide (l < 0)) l.natAbs (1 <<< fxBits)

/-- A finite value that is a whole number, and whether it is odd. -/
def wholeOdd : FV → Option Bool
  | .fin _ n d => if n % d = 0 then some (n / d % 2 == 1) else none
  | .inf _ => some false
  | .nan => none

/-- The magnitude of a power: a positive finite base and a finite exponent. -/
def powMag (n d : Nat) (bs : Bool) (bn bd : Nat) : FV :=
  let l := lnFx n d
  let a := l.natAbs * bn / bd
  expFx (if decide (l < 0) == bs then (a : Int) else -(a : Int))

/-- a^b, with the special cases of IEEE 754 (DEDUCED, log 25). -/
def fvPow (a b : FV) : FV :=
  match a, b with
  | _, .fin _ 0 _ => .fin false 1 1
  | .nan, _ => .nan
  | .fin false n d, .nan => if n = d then .fin false 1 1 else .nan
  | _, .nan => .nan
  | .inf s, b =>
    let neg := s && wholeOdd b == some true
    let bneg := match b with
      | .fin bs _ _ => bs
      | .inf bs => bs
      | .nan => false
    if bneg then .fin neg 0 1 else .inf neg
  | .fin s n d, .inf bs =>
    if n = d then .fin false 1 1
    else if decide (n < d) == bs then .inf false else .fin (s && false) 0 1
  | .fin s n d, .fin bs bn bd =>
    let odd := wholeOdd (.fin bs bn bd) == some true
    if n = 0 then (if bs then .inf (s && odd) else .fin (s && odd) 0 1)
    else if s && wholeOdd (.fin bs bn bd) == none then .nan
    else
      match powMag n d bs bn bd with
      | .inf _ => .inf (s && odd)
      | .fin _ x y => .fin (s && odd) x y
      | .nan => .nan

/-- e^x of a REAL. -/
def fexp (a : Word) : Word := rw (fvExp (rv a))
/-- ln x of a REAL. -/
def fln (a : Word) : Word := rw (fvLn (rv a))
/-- a^b of two REALs. -/
def fpow (a b : Word) : Word := rw (fvPow (rv a) (rv b))
/-- The greatest whole number not above a REAL; an infinity, a NaN and a zero stand (R413). -/
def ffloor (a : Word) : Word :=
  match rv a with
  | .fin s n d => if n = 0 then a else if s then rw (.fin true (ceilDiv n d) 1) else rw (.fin false (n / d) 1)
  | _ => rw (rv a)

end Sys2Proof.Machine
end

