-- ==== Sys2Proof/Machine/Blocks.lean ====
section
/-! DEFINITION. The block library: what each of the 112 block types does at one execution (R402 to R415). -/

namespace Sys2Proof.Machine

/-- What a block's execution asks of the commit (R382). -/
inductive Fx where
  /-- A point written by PT_WR or LOOP. -/
  | point (id : Nat) (v : Word)
  /-- A word of a station's output image (R417). -/
  | rio (station idx : Nat) (v : Word)
  /-- A CAN frame: port, buffer, IID of the block, identifier, length and data. -/
  | can (port buf iid id len : Nat) (data : List Word)
  /-- A program event: IID, tag, VAL, block type and partition (R411). -/
  | event (iid tag : Nat) (val : Word) (typ part : Nat)
  deriving DecidableEq, Repr

/-- What an execution is made with. -/
structure BCtx where
  latch : Latch
  img : Image
  inst : Inst
  /-- The firing's half-cycle number. -/
  hc : Nat
  /-- How the instance was last executed, as in `Ble.lastMs`. -/
  kind : Nat

/-- What an execution leaves: outputs, internal words and effects. -/
structure BOut where
  outs : List Word
  ints : List Word
  fx : List Fx

/-- A BOOL word as the engine reads it (R368). -/
def bB (w : Word) : Bool := w != 0

/-- The words' state starts from initial values: a first execution (R406, R410). -/
def BCtx.first (c : BCtx) : Bool := c.kind == 0

/-- Milliseconds since the instance's previous execution (R401). -/
def BCtx.dt (c : BCtx) : Nat := if c.kind < 3 then 0 else c.latch.ms - (c.kind - 3)

/-- A latched point, after forces (R382). -/
def lpt (l : Latch) (id : Nat) : Word :=
  match l.forces.find? (fun f => f.kind == 0 && f.obj == id) with
  | some f => f.val
  | none => tget ptDefault l.pts id

/-- Only outputs. -/
def outsOnly (o : List Word) : BOut := ⟨o, [], []⟩

/-! ### Logic, comparison and arithmetic (R403, R404) -/

/-- Codes 0x00 to 0x0D. -/
def logicBlk (t : Nat) (i o : List Word) : Word :=
  let a := wAt i 0
  let n := (wAt i 1).toNat
  let w := a.toNat
  match t with
  | 0x00 => boolW (i.all bB)
  | 0x01 => boolW (i.any bB)
  | 0x02 => boolW ((i.filter bB).length % 2 == 1)
  | 0x03 => boolW (!bB a)
  | 0x04 => i.foldl (· &&& ·) 0xFFFFFFFF
  | 0x05 => i.foldl (· ||| ·) 0
  | 0x06 => i.foldl (· ^^^ ·) 0
  | 0x07 => ~~~ a
  | 0x08 => if 32 ≤ n then 0 else w32 (w <<< n)
  | 0x09 => if 32 ≤ n then 0 else w32 (w >>> n)
  | 0x0A => w32 ((w <<< (n % 32)) ||| (w >>> (32 - n % 32)))
  | 0x0B => w32 ((w >>> (n % 32)) ||| (w <<< (32 - n % 32)))
  | 0x0C => boolW (bB a || (bB (wAt o 0) && !bB (wAt i 1)))
  | _ => boolW (!bB (wAt i 1) && (bB a || bB (wAt o 0)))

/-- The comparison `c` of EQ, NE, LT, LE, GT, GE from an equality and an order. -/
def cmpOf (c : Nat) (eq lt gt : Bool) : Bool :=
  match c with
  | 0 => eq
  | 1 => !eq
  | 2 => lt
  | 3 => lt || eq
  | 4 => gt
  | _ => gt || eq

/-- Codes 0x0E to 0x1F (R403). -/
def compareBlk (t : Nat) (a b : Word) : Word :=
  let k := (t - 0x0E) / 6
  let c := (t - 0x0E) % 6
  boolW (match k with
    | 0 => cmpOf c (a == b) (decide (sw a < sw b)) (decide (sw b < sw a))
    | 1 => cmpOf c (a == b) (decide (a.toNat < b.toNat)) (decide (b.toNat < a.toNat))
    | _ => cmpOf c (feq a b) (flt a b) (flt b a))

/-- The least or greatest of a list by an order. -/
def pick (lt : Word → Word → Bool) : List Word → Word
  | [] => 0
  | a :: r => r.foldl (fun m x => if lt x m then x else m) a

/-- The words of a list that are not NaN. -/
def notNaNs (i : List Word) : List Word := i.filter (fun w => !isNaN w)

/-- An integer limited to a range, with ERR. -/
def satInt (v lo hi : Int) : List Word :=
  if v < lo then [iw lo, 1] else if hi < v then [iw hi, 1] else [iw v, 0]

/-- The sum or product from IN0 upward. -/
def foldReal (f : Word → Word → Word) : List Word → Word
  | [] => 0
  | a :: r => r.foldl f a

/-- A REAL to an integer type: half to even, saturating (R404). -/
def realToInt (a : Word) (lo hi : Int) : List Word :=
  match rv a with
  | .nan => [0, 1]
  | .inf s => [iw (if s then lo else hi), 1]
  | .fin _ _ _ => satInt ((fToInt a).getD 0) lo hi

/-- Codes 0x20 to 0x37 (R404). -/
def arithBlk (t : Nat) (param : Word) (i : List Word) : List Word :=
  let a := wAt i 0
  let b := wAt i 1
  let dmax : Int := 2 ^ 31 - 1
  match t with
  | 0x20 => [i.foldl (· + ·) 0]
  | 0x21 => [a - b]
  | 0x22 => [i.foldl (· * ·) 1]
  | 0x23 => if b = 0 then [0, 1] else [iw ((sw a).tdiv (sw b)), boolW (sw a == -2 ^ 31 && sw b == -1)]
  | 0x24 => if b = 0 then [0, 1] else [a - b * iw ((sw a).tdiv (sw b)), 0]
  | 0x25 => [iw (min (sw a).natAbs dmax)]
  | 0x26 => [pick (fun x m => decide (sw x < sw m)) i]
  | 0x27 => [pick (fun x m => decide (sw m < sw x)) i]
  | 0x28 => [foldReal fadd i]
  | 0x29 => [fsub a b]
  | 0x2A => [foldReal fmul i]
  | 0x2B => [fdiv a b]
  | 0x2C => [fabs a]
  | 0x2D => [fsqrt a]
  | 0x2E => [if (notNaNs i).isEmpty then qNaN else pick flt (notNaNs i)]
  | 0x2F => [if (notNaNs i).isEmpty then qNaN else pick (fun x m => flt m x) (notNaNs i)]
  | 0x30 => [fOfInt (sw a)]
  | 0x31 => [fOfNat a.toNat]
  | 0x32 => realToInt a (-2 ^ 31) dmax
  | 0x33 => realToInt a 0 (2 ^ 32 - 1)
  | 0x34 => if sw a < 0 then [0, 1] else [a, 0]
  | 0x35 => if dmax < (a.toNat : Int) then [iw dmax, 1] else [a, 0]
  | 0x36 => [w32 (((upto i.length).map (fun k => (bB (wAt i k)).toNat <<< k)).sum)]
  | _ => (upto 16).map (fun k => boolW (bitOf a (k + (if param = 0 then 0 else 16))))

/-! ### Timers, edges and counters (R405) -/

/-- ET of a running timer: what it had at its latest resume and the time since, at most PT. -/
def etNow (acc ref : Word) (ms pt : Nat) : Nat := min (acc.toNat + (w32 ms - ref).toNat) pt

/-- The words a timer leaves: Q, ET and ET_ACC, T_REF, FL, IN_M. -/
def timerOut (q : Bool) (et : Nat) (acc ref : Word) (run : Bool) (fl inp : Word) : BOut :=
  ⟨[boolW q, w32 et], [acc, ref, setBit fl 0 run, boolW (bB inp)], []⟩

/-- TON, TOF, TP and TONR (R405); a persistent timer restored by a warm restart resumes from its ET (R400). -/
def timerBlk (t : Nat) (c : BCtx) (i o m : List Word) : BOut :=
  let ms := c.latch.ms
  let now := w32 ms
  let inp := bB (wAt i 0)
  let pt := (wAt i (i.length - 1)).toNat
  let et0 := wAt o 1
  let fl := wAt m 2
  let resume := c.kind == 1 && bitOf fl 0
  let acc := if resume then et0 else wAt m 0
  let ref := if resume then now else wAt m 1
  let run := bitOf fl 0
  let was := bB (wAt m 3)
  match t with
  | 0x38 =>
    if !inp then timerOut false 0 acc ref false fl (wAt i 0)
    else
      let rise := !was
      let (acc, ref, run) := if rise then (0, now, true) else (acc, ref, run)
      let et := if run then etNow acc ref ms pt else 0
      timerOut (run && decide (pt ≤ et)) et acc ref run fl (wAt i 0)
  | 0x39 =>
    if inp then timerOut true 0 acc ref false fl (wAt i 0)
    else
      let (acc, ref, run) := if was then (0, now, true) else (acc, ref, run)
      if run then
        let et := etNow acc ref ms pt
        timerOut (decide (et < pt)) et acc ref (decide (et < pt)) fl (wAt i 0)
      else timerOut false (min et0.toNat pt) acc ref false fl (wAt i 0)
  | 0x3A =>
    let (acc, ref, run) := if inp && !was && !run then (0, now, true) else (acc, ref, run)
    if run then
      let et := etNow acc ref ms pt
      let on := decide (et < pt)
      timerOut on (if on || inp then et else 0) acc ref on fl (wAt i 0)
    else timerOut false (if inp then min et0.toNat pt else 0) acc ref false fl (wAt i 0)
  | _ =>
    if bB (wAt i 1) then timerOut false 0 0 now false fl (wAt i 0)
    else if inp then
      let (acc, ref) := if run then (acc, ref) else (et0, now)
      let et := etNow acc ref ms pt
      timerOut (decide (pt ≤ et)) et acc ref true fl (wAt i 0)
    else
      let et := min et0.toNat pt
      timerOut (decide (pt ≤ et)) et (w32 et) now false fl (wAt i 0)

/-- R_TRIG, F_TRIG, CTU, CTD and CTUD (R405). -/
def countBlk (t : Nat) (i o m : List Word) : BOut :=
  let a := bB (wAt i 0)
  let b := bB (wAt i 1)
  let rise := fun k => bB (wAt i k) && !bB (wAt m k)
  let up := fun (v : Int) => min (v + 1) (2 ^ 31 - 1)
  let down := fun (v : Int) => max (v - 1) (-2 ^ 31)
  match t with
  | 0x3C => ⟨[boolW (a && !bB (wAt m 0))], [boolW a], []⟩
  | 0x3D => ⟨[boolW (bB (wAt m 0) && !a)], [boolW a], []⟩
  | 0x3E =>
    let v := sw (wAt o 1)
    let v := if b then 0 else if rise 0 then up v else v
    ⟨[boolW (decide (sw (wAt i 2) ≤ v)), iw v], [boolW a], []⟩
  | 0x3F =>
    let v := sw (wAt o 1)
    let v := if b then sw (wAt i 2) else if rise 0 then down v else v
    ⟨[boolW (decide (v ≤ 0)), iw v], [boolW a], []⟩
  | _ =>
    let v := sw (wAt o 2)
    let v := if bB (wAt i 2) then 0 else if bB (wAt i 3) then sw (wAt i 4)
      else if rise 0 && !rise 1 then up v else if rise 1 && !rise 0 then down v else v
    ⟨[boolW (decide (sw (wAt i 4) ≤ v)), boolW (decide (v ≤ 0)), iw v], [boolW a, boolW b], []⟩

/-! ### Signals, selection and schedules (R406) -/

/-- RAMP (R406). -/
def rampBlk (c : BCtx) (i : List Word) (q : Word) : Word :=
  let x := wAt i 0
  if isNaN x then q
  else if bB (wAt i 3) || c.first || isNaN q then x
  else
    let step := fun k => fmul (wAt i k) (fOfQ c.dt 1000)
    if c.dt = 0 then q
    else if flt q x then fminN x (fadd q (step 1))
    else if flt x q then fmaxN x (fsub q (step 2))
    else q

/-- TOW_CLOCK (R406). -/
def towBlk (c : BCtx) (i o m : List Word) : BOut :=
  let set := bB (wAt i 0) && !bB (wAt m 3) && decide ((wAt i 1).toNat < 604800)
  let base := if set then wAt i 1 else wAt m 0
  let lo := if set then w32 c.latch.count else wAt m 1
  let hi := if set then w32 (c.latch.count >>> 32) else wAt m 2
  let st : Int := lo.toNat + hi.toNat * 2 ^ 32
  let secs := ((c.latch.count : Int) - st) / 32768
  let tow := ((base.toNat + secs) % 604800).toNat
  ⟨[w32 tow, w32 (tow % 86400), w32 (tow / 86400), boolW ((set || bB (wAt o 3)) && c.latch.countValid)],
    [base, lo, hi, boolW (bB (wAt i 0))], []⟩

/-- SCHED (R406): the used entries are those before the first unused one. -/
def schedBlk (tow : Nat) (m : List Word) : List Word :=
  let used := m.takeWhile (· != 0xFFFFFFFF)
  let at_ := fun (w : Word) => fld w 19 0
  match used.getLast? with
  | none => let e := Config.schedEmpty tow; [boolW e.1, w32 e.2]
  | some last =>
    let cur := ((used.filter (fun w => decide (at_ w ≤ tow))).getLast?).getD last
    let next := match used.find? (fun w => decide (tow < at_ w)) with
      | some w => at_ w - tow
      | none => at_ (wAt used 0) + 604800 - tow
    [boolW (bitOf cur 31), w32 next]

/-- Codes 0x41 to 0x50 (R406). -/
def signalBlk (t : Nat) (c : BCtx) (i o m : List Word) : BOut :=
  let x := wAt i 0
  let q := wAt o 0
  let held := ⟨o, m, []⟩
  match t with
  | 0x41 =>
    if isNaN x then held
    else outsOnly [if fle (wAt i 1) x then 1 else if fle x (wAt i 2) then 0 else boolW (bB q)]
  | 0x42 => outsOnly [rampBlk c i q]
  | 0x43 => outsOnly [iw (min (max (sw (wAt i 1)) (sw x)) (sw (wAt i 2)))]
  | 0x44 => outsOnly [if isNaN (wAt i 1) then qNaN else fminN (fmaxN (wAt i 1) x) (wAt i 2)]
  | 0x45 =>
    let span := fsub (wAt i 2) (wAt i 1)
    outsOnly [if feq (wAt i 2) (wAt i 1) then qNaN
      else fadd (wAt i 3) (fdiv (fmul (fsub x (wAt i 1)) (fsub (wAt i 4) (wAt i 3))) span)]
  | 0x46 =>
    let tc := (wAt i 1).toNat
    if isNaN x then held
    else if c.first || (tc = 0 && c.kind != 2) then outsOnly [x]
    else if c.dt = 0 then held
    else outsOnly [fadd q (fdiv (fmul (fsub x q) (fOfNat c.dt)) (fOfNat (tc + c.dt)))]
  | 0x47 => if isNaN x then held else outsOnly [if isNaN q || flt (wAt i 1) (fabs (fsub x q)) then x else q]
  | 0x48 => outsOnly [boolW (bB (wAt i (if bB x then 2 else 1)))]
  | 0x49 => outsOnly [wAt i (if bB x then 2 else 1)]
  | 0x4A => outsOnly [wAt i (if bB x then 2 else 1)]
  | 0x4E => towBlk c i o m
  | 0x4F => ⟨schedBlk x.toNat m, m, []⟩
  | 0x50 =>
    let v := w32 (c.hc / max 1 c.inst.param.toNat)
    if c.first then ⟨[0], [v], []⟩
    else if bB x && v != wAt m 0 then ⟨[1], [v], []⟩
    else ⟨[0], m, []⟩
  | _ =>
    let k := x.toNat
    let last := i.length - 2
    let v := wAt i (1 + min k last)
    outsOnly [if t = 0x4B then boolW (bB v) else v, boolW (decide (last < k))]

/-! ### Points, stations, loops and meters (R407 to R409) -/

/-- A remote station is within its timeout at the latch (R418). -/
def rioOkAt (cfg : Word) (r : Rio) (now : Nat) : Bool :=
  bitOf cfg 0 && !r.late && (match r.last with
    | some t => decide (now ≤ t + fld cfg 31 16 * 1000000)
    | none => false)

/-- A metering set of the cartridge is in use by the live circuit map (R318). -/
def setInUse (par0 : List Nat) (phase : Bool) (n : Nat) : Bool :=
  let t := fun k => nAt par0 (16 * k) % 4
  let f := fun k j => nAt par0 (16 * k + 4 + j) % 128
  if phase then
    (upto 96).any (fun k => (t k == 1 && f k 0 == n) || (t k == 2 && (f k 0 == n || f k 1 == n || f k 2 == n)))
  else t n == 1 || t n == 2

/-- A visible register: the internal count divided by 1000 (R290). -/
def visibleReg (l : List Nat) (j : Nat) : Nat := nAt l j / 1000

/-- The set a metering block names, as the snapshot holds it; none while it is unused or the cartridge does not run (R408). -/
def meterSet (c : BCtx) : Option (List Nat) :=
  let p := c.inst.param
  let n := fld p 7 1
  let l := c.latch
  if l.mtrRun && setInUse l.par0 (bitOf p 0) n then
    some (tget (fun _ => []) (if bitOf p 0 then l.snapPhs else l.snapCirc) n)
  else none

/-- MTR_REG and MTR_DELTA (R407 to R409). -/
def meterBlk (t : Nat) (c : BCtx) (i o m : List Word) : BOut :=
  match meterSet c with
  | none => ⟨setNth o (o.length - 1) 0, m, []⟩
  | some set =>
    let v := visibleReg set (fld c.inst.param 10 8)
    if t = 0x60 then
      ⟨[w32 v, w32 (v >>> 32), fOfQ v 1000000, w32 c.latch.snapSave, 1], m, []⟩
    else
      let slot := w32 c.latch.slot
      let moved := wAt m 3 != slot
      let rise := bB (wAt i 0) && !bB (wAt m 4)
      let acc := if rise then 0 else if moved then wAt o 0 else wAt m 2
      let base := if rise || moved then v else (wAt m 0).toNat + (wAt m 1).toNat * 2 ^ 32
      let d : Nat := (v + 2 ^ 64 - base) % 2 ^ 64
      ⟨[fadd acc (fOfQ d 1000000), 1], [w32 base, w32 (base >>> 32), acc, slot, boolW (bB (wAt i 0))], []⟩

/-- MTR_INT (R407, R408): NEW is 1 for one execution only, even where the rest holds (DEDUCED, log 27). -/
def intervalBlk (c : BCtx) (o m : List Word) : BOut :=
  let k := c.inst.param.toNat
  let l := c.latch
  match (tget (fun _ => Circ.reset) l.circs k).recs with
  | r :: _ =>
    if l.mtrRun && setInUse l.par0 false k then
      let seq := wAt r 0
      ⟨[fOfNat (wAt r 4).toNat, fOfNat (wAt r 5).toNat, seq, wAt r 6, boolW (seq != wAt m 0)], [seq], []⟩
    else ⟨setNth o 4 0, m, []⟩
  | [] => ⟨setNth o 4 0, m, []⟩

/-- CAN port and buffer at the latch. -/
def latchBuf (l : Latch) (p b : Nat) : CanBuf :=
  tget (fun _ => CanBuf.reset) (tget (fun _ => CanPort.reset) l.can p).buf b

/-- CAN_RX (R407, R633). -/
def canRxBlk (c : BCtx) (m : List Word) : BOut :=
  let b := latchBuf c.latch (fld c.inst.param 1 0) (fld c.inst.param 7 2)
  let d := b.arrivals - wAt m 0
  let ws := bytesWords b.bytes
  ⟨(upto 16).map (wAt ws) ++ [w32 b.bytes.length, w32 (fld b.id 28 0), boolW (d != 0), boolW (decide (1 < d.toNat))],
    [b.arrivals], []⟩

/-- CAN_TX (R407): ST is 1 while the block's frame is pending. -/
def canTxBlk (c : BCtx) (i m : List Word) : BOut :=
  let p := fld c.inst.param 1 0
  let k := fld c.inst.param 7 2
  let b := latchBuf c.latch p k
  let pend := match b.tx with
    | some t => t.src == 1 && t.by_ == c.inst.iid
    | none => false
  let ended := wAt m 1 == 1 && !pend
  let free := wAt m 1 != 1 || ended
  let send := bB (wAt i 18) && !bB (wAt m 0) && free
  let st : Word := if send then 1 else if ended then 0 else wAt m 1
  ⟨[boolW (ended && b.result == 1), boolW (ended && b.result != 1)], [boolW (bB (wAt i 18)), st],
    if send then [.can p k c.inst.iid (wAt i 17).toNat (wAt i 16).toNat (i.take 16)] else []⟩

/-- Codes 0x51 to 0x65 (R406, R407). -/
def outerBlk (t : Nat) (c : BCtx) (i o m : List Word) : BOut :=
  let p := c.inst.param
  let l := c.latch
  let st := fld p 4 0
  let cfg := wAt l.stCfg st
  let r := tget (fun _ => Rio.reset) l.rio st
  let loop := 0x800 + 8 * fld p 7 0
  let loopWords := [lpt l (loop + 3), lpt l (loop + 4), lpt l (loop + 7), lpt l (loop + 5),
    w32 (fld (lpt l (loop + 5)) 2 0)]
  if isPtRd t then outsOnly [canonOf (t - 0x51) (lpt l (fld p 15 0))]
  else if isPtWr t then
    ⟨[], [], if bB (wAt i 1) then [.point (fld p 15 0) (canonOf (t - 0x56) (wAt i 0))] else []⟩
  else match t with
  | 0x5B =>
    if rioOkAt cfg r l.up then outsOnly [canonOf (fld p 13 11) (wAt r.input (fld p 10 5)), 1]
    else outsOnly [wAt o 0, 0]
  | 0x5C => ⟨[], [], if bB (wAt i 1) then [.rio st (fld p 10 5) (canonOf (fld p 13 11) (wAt i 0))] else []⟩
  | 0x5D =>
    let age := match r.last with
      | some a => min ((l.up - a) / 1000000) 0xFFFFFFFF
      | none => 0xFFFFFFFF
    outsOnly [boolW (rioOkAt cfg r l.up), w32 age, r.upd]
  | 0x5E =>
    ⟨loopWords, [], (if bB (wAt i 3) then [.point loop (wAt i 0)] else []) ++
      (if bB (wAt i 4) then [.point (loop + 1) (wAt i 1)] else []) ++
      (if bB (wAt i 5) && decide ((wAt i 2).toNat ≤ 4) then [.point (loop + 2) (wAt i 2)] else [])⟩
  | 0x5F => outsOnly loopWords
  | 0x60 => meterBlk t c i o m
  | 0x61 => meterBlk t c i o m
  | 0x62 => intervalBlk c o m
  | 0x63 => canRxBlk c m
  | 0x64 => canTxBlk c i m
  | _ =>
    let q := tget (fun _ => CanPort.reset) l.can (fld p 1 0)
    outsOnly [w32 q.st, w32 q.tec, w32 q.rec_, boolW (q.st == 2)]

/-! ### Events, totals and the rest (R410) -/

/-- A millisecond count as a time word, one more than the count; 0 stands for no time (DESIGN CHOICE, log 28). -/
def stampOf (ms : Nat) : Word := if w32 (ms + 1) = 0 then w32 ms else w32 (ms + 1)

/-- A time word of a running delay, begun again at the first execution after a warm restart (DESIGN CHOICE, log 28). -/
def stampIn (c : BCtx) (w : Word) : Word := if w = 0 then 0 else if c.kind = 1 then stampOf c.latch.ms else w

/-- Milliseconds since a time word. -/
def sinceStamp (c : BCtx) (w : Word) : Nat := (w32 (c.latch.ms + 1) - w).toNat

/-- BLINK (R410). -/
def blinkBlk (c : BCtx) (i m : List Word) : BOut :=
  if !bB (wAt i 0) then ⟨[0], [0], []⟩ else
    let w := stampIn c (wAt m 0)
    let w := if w = 0 || c.first then stampOf c.latch.ms else w
    let on := (wAt i 1).toNat
    let per := on + (wAt i 2).toNat
    if per = 0 then ⟨[boolW (Config.blinkIdle c.latch.ms)], [w], []⟩
    else ⟨[boolW (decide (sinceStamp c w % per < on))], [w], []⟩

/-- One side of ALARM: its output and time word, and whether it was set at this execution. -/
def alarmSide (c : BCtx) (q : Bool) (w : Word) (excess clear : Bool) (dly : Nat) : Bool × Word × Bool :=
  if !excess then (q && !clear, 0, false)
  else
    let w := if w = 0 then stampOf c.latch.ms else w
    let set := !q && decide (dly ≤ sinceStamp c w)
    (q || set, w, set)

/-- ALARM (R410). -/
def alarmBlk (c : BCtx) (i o m : List Word) : BOut :=
  let x := wAt i 0
  let ack := bB (wAt i 5)
  let un := bB (wAt o 2) && !(ack && !bB (wAt m 2))
  let wh := if c.first then 0 else stampIn c (wAt m 0)
  let wl := if c.first then 0 else stampIn c (wAt m 1)
  if isNaN x then ⟨[wAt o 0, wAt o 1, boolW un], [wh, wl, boolW ack], []⟩
  else
    let dly := (wAt i 4).toNat
    let hys := wAt i 3
    let h := alarmSide c (bB (wAt o 0)) wh (flt (wAt i 1) x) (flt x (fsub (wAt i 1) hys)) dly
    let l := alarmSide c (bB (wAt o 1)) wl (flt x (wAt i 2)) (flt (fadd (wAt i 2) hys) x) dly
    let tag := fld c.inst.param 15 0
    let ev := fun (b : Bool) => if b && tag != 0 then [Fx.event c.inst.iid tag x c.inst.typ c.inst.part] else []
    ⟨[boolW h.1, boolW l.1, boolW (un || h.2.2 || l.2.2)], [h.2.1, l.2.1, boolW ack], ev h.2.2 ++ ev l.2.2⟩

/-- TOTAL (R410): the exact product is rounded once to binary64, then added (DESIGN CHOICE, log 29). -/
def totalBlk (c : BCtx) (i m : List Word) : BOut :=
  let acc := (wAt m 0).toNat + (wAt m 1).toNat * 2 ^ 32
  let acc := if bB (wAt i 2) then 0
    else if bB (wAt i 1) then
      (match fQ (wAt i 0) with
       | some (n, d) => dAdd acc (fRound fmt64 (decide (n < 0)) (n.natAbs * c.dt) (d * 1000))
       | none => acc)
    else acc
  ⟨[dToReal acc], [w32 acc, w32 (acc >>> 32)], []⟩

/-- The stage target: ceil(DEM × N / 100) in REAL arithmetic, limited to 0 to N (R404, R410). -/
def stageTarget (dem : Word) (n : Nat) : Nat :=
  let x := fdiv (fmul dem (fOfNat n)) (fOfNat 100)
  match rv x with
  | .nan => 0
  | .inf s => if s then 0 else n
  | .fin _ _ _ => min n ((fCeil x).getD 0).toNat

/-- STAGE (R410): T_REF is the time word at which the present delay began, 0 while none runs; bit 31 of C tells a delay that
removes a stage (DESIGN CHOICE, log 28). The first execution after a switch limits C to N at once (R439). -/
def stageBlk (c : BCtx) (i m : List Word) : BOut :=
  let n := max 1 (min 8 (wAt i 1).toNat)
  let c0 := fld (wAt m 0) 30 0
  let cc := if c.kind = 2 then min c0 n else c0
  let fin := fun (k : Nat) (down : Bool) (t : Word) =>
    BOut.mk ((upto 8).map (fun j => boolW (decide (j < k))) ++ [w32 k]) [setBit (w32 k) 31 down, t] []
  if isNaN (wAt i 0) then fin cc (bitOf (wAt m 0) 31) (wAt m 1)
  else
    let tgt := stageTarget (wAt i 0) n
    if tgt = cc then fin cc false 0
    else
      let down := decide (tgt < cc)
      let now := stampOf c.latch.ms
      let t := wAt m 1
      let goes := t != 0 && bitOf (wAt m 0) 31 == down && !c.first && c.kind != 1
      let t := if goes then t else now
      if (wAt i (if down then 3 else 2)).toNat ≤ sinceStamp c t then
        let k := if down then cc - 1 else cc + 1
        if k = tgt then fin k false 0 else fin k down now
      else fin cc down t

/-! ### The expression block (R412 to R415) -/

/-- True: neither 0.0 nor NaN (R413). -/
def isTrue (w : Word) : Bool := !isNaN w && !feq w 0

/-- The REAL of a truth value. -/
def realB (b : Bool) : Word := if b then 0x3F800000 else 0

/-- What a program changes: outputs Q and B, and states. -/
structure ExprSt where
  stack : List Word
  outs : List Word
  ints : List Word

/-- An operation on the two top entries. -/
def exprBin (op : Nat) (a b : Word) : Word :=
  match op with
  | 0x09 => fadd a b
  | 0x0A => fsub a b
  | 0x0B => fmul a b
  | 0x0C => fdiv a b
  | 0x0F => fminN a b
  | 0x10 => fmaxN a b
  | 0x14 => fpow a b
  | 0x16 => realB (flt a b)
  | 0x17 => realB (fle a b)
  | 0x18 => realB (feq a b)
  | 0x19 => realB (isTrue a && isTrue b)
  | _ => realB (isTrue a || isTrue b)

/-- An operation on the top entry. -/
def exprUn (op : Nat) (x : Word) : Word :=
  match op with
  | 0x0D => fneg x
  | 0x0E => fabs x
  | 0x11 => fsqrt x
  | 0x12 => fexp x
  | 0x13 => fln x
  | 0x15 => ffloor x
  | 0x1B => realB (!isTrue x)
  | _ => realB (isNaN x)

/-- One operation other than END and JZ (R413). -/
def exprStep (op a : Nat) (consts ins : List Word) (e : ExprSt) : ExprSt :=
  match op, e.stack with
  | 0x01, k => { e with stack := wAt ins a :: k }
  | 0x02, k => { e with stack := wAt consts a :: k }
  | 0x03, k => { e with stack := wAt e.ints a :: k }
  | 0x04, x :: k => { e with stack := k, ints := setNth e.ints a x }
  | 0x05, x :: k => { e with stack := k, outs := setNth (setNth e.outs a x) (4 + a) (boolW (isTrue x)) }
  | 0x06, x :: k => { e with stack := x :: x :: k }
  | 0x07, b :: a :: k => { e with stack := a :: b :: k }
  | 0x08, _ :: k => { e with stack := k }
  | 0x1C, c :: b :: a :: k => { e with stack := (if isTrue c then b else a) :: k }
  | 0x1D, hi :: lo :: v :: k => { e with stack := fminN (fmaxN v lo) hi :: k }
  | _, k =>
    if exprEffect op = (2, 1) then
      (match k with
       | b :: a :: k => { e with stack := exprBin op a b :: k }
       | _ => e)
    else
      (match k with
       | x :: k => { e with stack := exprUn op x :: k }
       | _ => e)

/-- A program run from its first operation, `skip` operations of it jumped over (R413, R414). -/
def exprRun (consts ins : List Word) : List Nat → Nat → ExprSt → ExprSt
  | [], _, e => e
  | w :: r, 0, e =>
    let (op, a) := exprOp w
    if op = 0 then e
    else if op = 0x1F then
      (match e.stack with
       | x :: k => exprRun consts ins r (if isTrue x then 0 else a) { e with stack := k }
       | [] => e)
    else exprRun consts ins r 0 (exprStep op a consts ins e)
  | _ :: r, n + 1, e => exprRun consts ins r n e

/-- EXPR (R412 to R415). -/
def exprBlk (c : BCtx) (i o m : List Word) : BOut :=
  let (consts, ops) := exprProg c.img.expr c.inst.param.toNat
  let e := exprRun consts i ops 0 ⟨[], o, m⟩
  ⟨e.outs, e.ints, []⟩

/-- Codes 0x66 to 0x6F (R410). -/
def restBlk (t : Nat) (c : BCtx) (i o m : List Word) : BOut :=
  let x := wAt i 0
  match t with
  | 0x66 => exprBlk c i o m
  | 0x67 => blinkBlk c i m
  | 0x68 => alarmBlk c i o m
  | 0x69 =>
    let q := bB x && !bB (wAt m 0)
    ⟨[boolW q], [boolW (bB x)],
      if q then [.event c.inst.iid (fld c.inst.param 15 0) (wAt i 1) c.inst.typ c.inst.part] else []⟩
  | 0x6A =>
    let a := if bB (wAt i 1) then 0 else if bB x then min ((wAt m 0).toNat + c.dt) 0xFFFFFFFF else (wAt m 0).toNat
    ⟨[w32 (a / 1000), fOfQ a 3600000], [w32 a], []⟩
  | 0x6B => totalBlk c i m
  | 0x6C => stageBlk c i m
  | 0x6D =>
    let v := notNaNs i
    outsOnly [if v.isEmpty then qNaN else fdiv (foldReal fadd v) (fOfNat v.length), w32 v.length]
  | 0x6E => outsOnly [if bB (wAt i 1) then wAt o 0 else x]
  | _ => outsOnly [canonOf (fld c.inst.param 2 0) x]

/-- One execution of a block: its outputs, internal words and effects. -/
def execBlk (c : BCtx) (i o m : List Word) : BOut :=
  let t := c.inst.typ
  if t < 0x0E then outsOnly [logicBlk t i o]
  else if t < 0x20 then outsOnly [compareBlk t (wAt i 0) (wAt i 1)]
  else if t < 0x38 then outsOnly (arithBlk t c.inst.param i)
  else if t < 0x3C then timerBlk t c i o m
  else if t < 0x41 then countBlk t i o m
  else if t < 0x51 then signalBlk t c i o m
  else if t < 0x66 then outerBlk t c i o m
  else restBlk t c i o m

end Sys2Proof.Machine
end

