-- ==== Sys2Proof/Machine/Time.lean ====
section
/-! DEFINITION. The passing of time: the RTC's ticks, operating time, the network-time counter and the time since
start-up, all of which run with the main clock or the 32.768 kHz crystal. -/

namespace Sys2Proof.Machine

/-! ### Ticks of the RTC domain (R651 to R659) -/

/-- RTC_EVENT bits become set: reported at once, or after the next start-up when the module does not run (R660, R668). -/
def rtcEvent (s : State) (bits : Word) : State :=
  if s.clk.alive then raiseBoth s oRtcEvent bits
  else
    let new := bits &&& ~~~ (rget s oRtcEvent)
    let s := ror s oRtcEvent new
    { s with rtc := { s.rtc with unreported := s.rtc.unreported ||| new } }

/-- The count is valid: OSC_STOP is 0 (R662). -/
def countValid (s : State) : Bool := !bitOf (rget s oRtcStatus) 0

/-- OSC_STOP becomes 1 (R661). -/
def oscStop (s : State) : State := if countValid s then rtcEvent (ror s oRtcStatus 1) 2 else s

/-- The countdown passes from 1 to 0: latched, and reloaded or left at 0 (R659). -/
def cdExpire (s : State) : State :=
  rtcEvent { s with rtc := { s.rtc with cd := if s.rtc.cdReload then s.rtc.cdLoad.toNat else 0 } } 1

/-- A count in two words, COUNT_VALID in bit 31 of the second (R673). -/
def countWords (s : State) (c : Nat) : List Word := [w32 c, w32 (c >>> 32 + (countValid s).toNat * 2 ^ 31)]

/-- The RTC_SET record of a resume (R656, R673). -/
def rtcSetRec (s : State) (before after ticks : Nat) : State :=
  recEvent s 0x104 0xB 0xFFFF (countWords s before ++ countWords s after ++ [w32 ticks])

/-- A requested halt or resume takes place at a tick edge (R653): a halting edge is still counted, and ADD makes up the
ticks missed since (DEDUCED, log 20). -/
def rtcEdge (s : State) : State :=
  let r := s.rtc
  if r.haltReq && !r.halted then
    { s with rtc := { r with halted := true, haltTicks := 0, before := r.count, count := (r.count + 1) % 2 ^ 48 } }
  else if !r.haltReq && r.halted then
    let after := (r.count + 1 + (if r.addReq then r.haltTicks else 0)) % 2 ^ 48
    rtcSetRec { s with rtc := { r with halted := false, addReq := false, count := after } } r.before after r.haltTicks
  else if r.halted then { s with rtc := { r with haltTicks := min (r.haltTicks + 1) (2 ^ 32 - 1) } }
  else { s with rtc := { r with count := (r.count + 1) % 2 ^ 48 } }

/-- A HALT of 1 is cleared as by a write of HALT 0 with ADD 1 (R656). -/
def unhalt (s : State) : State :=
  if s.rtc.haltReq then { s with rtc := { s.rtc with haltReq := false, addReq := s.rtc.halted || s.rtc.addReq } } else s

/-- One edge of the countdown, then a written value (R657, R658). -/
def cdEdge (s : State) : State :=
  let s := if s.rtc.cd = 0 then s else if s.rtc.cd = 1 then cdExpire s else { s with rtc := { s.rtc with cd := s.rtc.cd - 1 } }
  match s.rtc.cdWrite with
  | some v => { s with rtc := { s.rtc with cd := v.toNat, cdLoad := if v = 0 then s.rtc.cdLoad else v, cdWrite := none } }
  | none => s

/-- `n` further edges at which nothing is waiting to take effect. -/
def quietTicks (s : State) (n : Nat) : State :=
  let r := s.rtc
  let s := if r.halted then { s with rtc := { r with haltTicks := min (r.haltTicks + n) (2 ^ 32 - 1) } }
    else { s with rtc := { r with count := (r.count + n) % 2 ^ 48 } }
  let r := s.rtc
  if r.cd = 0 then s
  else if n < r.cd then { s with rtc := { r with cd := r.cd - n } }
  else
    let excess := n - r.cd
    let s := cdExpire s
    let l := s.rtc.cd
    if l = 0 then s else { s with rtc := { s.rtc with cd := l - excess % l } }

/-- `n` ticks of the RTC domain. -/
def rtcTicks (s : State) : Nat → State
  | 0 => s
  | n + 1 => quietTicks (cdEdge (rtcEdge s)) n

/-! ### Elapsed time -/

/-- Nanoseconds of the RTC domain: whole ticks of 1/32,768 s, no edge while its oscillator has stopped (R661). -/
def rtcElapse (s : State) (ns : Nat) : State :=
  if bitOf s.clk.good 2 then
    let a := s.rtc.tickNs + ns * 32768
    rtcTicks { s with rtc := { s.rtc with tickNs := a % 1000000000 } } (a / 1000000000)
  else s

/-- Operating time advances in units of 0.1 s while a logic input and XTAL are good, but not in reset-wait (R669). -/
def opElapse (s : State) (ns : Nat) : State :=
  if bitOf s.clk.good 0 && s.clk.power < 2 && (s.base.la || s.base.lb) && s.clk.resetWait.isNone then
    let a := s.rtc.opNs + ns
    { s with rtc := { s.rtc with opNs := a % 100000000, optime := (s.rtc.optime + a / 100000000) % 2 ^ 40 } }
  else s

/-- Operating time is saved into the other of its two words (R669). -/
def saveOptime (s : State) : State :=
  let r := s.rtc
  { s with rtc := if r.optimeNext then { r with optimeB := (r.optime, true), optimeNext := false }
    else { r with optimeA := (r.optime, true), optimeNext := true } }

/-- The MAC domain has a clock (R123, R128). -/
def macRuns (s : State) : Bool := !s.clk.macStopped && s.clk.src.getD 3 3 != 3

/-- The network-time counter advances at its rate, in steps of 2^-32 ns; it stands while MAC or the timestamp units stand
(R128, R133, R612). -/
def ntElapse (s : State) (ns : Nat) : State :=
  if !macRuns s || !bitOf (rget s oGateOpen) 17 then s else
    let step : Int := (ns : Int) * 2 ^ 32 + (ns : Int) * s.ptp.rate * 2 ^ 32 / 1000000000 + s.ptp.sub
    { s with ptp := { s.ptp with ns := s.ptp.ns + (step / 2 ^ 32).toNat, sub := (step % 2 ^ 32).toNat } }

/-- Nanoseconds pass. -/
def elapseNs (s : State) (ns : Nat) : State :=
  let s := ntElapse (opElapse (rtcElapse s ns) ns) ns
  { s with up := s.up + ns }

/-- Phase units pass at the frequency the clock runs at, a correction being spread over the cycle and steering changing its
length (R82, R87, R91). -/
def elapseUnits (s : State) (n : Nat) : State :=
  if s.phc.freq = 0 then s else
    let len : Int := 65536 + s.phc.corr
    let num := n * ((10 ^ 13 : Int) + s.phc.steer * s.phc.freq).toNat * len.toNat + s.phc.rem
    let den := s.phc.freq * 4096 * 65536
    elapseNs { s with phc := { s.phc with rem := num % den } } (num / den)

end Sys2Proof.Machine
end

