-- ==== Sys2Proof/Machine/Ether.lean ====
section
/-! DEFINITION. The Ethernet ports and the switch: classification, learning, forwarding, steering, queues and counters, and
the framing of Fieldlink (R583 to R606, R623). -/

namespace Sys2Proof.Machine

/-! ### Ports and counters -/

/-- Ethernet port `p`. -/
def eport (s : State) (p : Nat) : EPort := tget (fun _ => EPort.reset) s.eth.ports p

/-- The state with Ethernet port `p` replaced. -/
def setPort (s : State) (p : Nat) (v : EPort) : State :=
  { s with eth := { s.eth with ports := tset (fun _ => EPort.reset) s.eth.ports p v } }

/-- The state with Ethernet port `p` changed. -/
def modPort (s : State) (p : Nat) (f : EPort → EPort) : State := setPort s p (f (eport s p))

/-- ETH_P_CTRL.EN. -/
def portEn (s : State) (p : Nat) : Bool := bitOf (rget s (oPort p)) 0

/-- Counter `k` of port `p` advances; a change of its bit 31 sets its bit of ETH_P_STAT_HALF (R596 to R598). -/
def bump (s : State) (p k n : Nat) : State :=
  let e := eport s p
  let old := tget (fun _ => (0 : Word)) e.counters k
  let new := old + w32 n
  let s := setPort s p { e with counters := tset (fun _ => 0) e.counters k new }
  if bitOf old 31 = bitOf new 31 then s else raiseBits s (oPort p + 8) (oneBit k) (w32 p) 0 true false []

/-- MAX of a port in bytes (R593, R626). -/
def maxLen (s : State) (p : Nat) : Nat :=
  match rfld s (oPort p) 2 1 with
  | 0 => 1518
  | 1 => 1522
  | _ => 2000

/-- The module's address, and whether it is in use (R586). -/
def ownMac (s : State) : Nat := (rget s oEthMacLo).toNat + rfld s oEthMacHi 15 0 * 2 ^ 32

/-- ETH_MAC.VALID. -/
def macValid (s : State) : Bool := bitOf (rget s oEthMacHi) 16

/-! ### Reading a frame -/

/-- Destination and source address, the first octet least significant. -/
def daOf (b : List Nat) : Nat := leNat (b.take 6)
/-- The source address. -/
def saOf (b : List Nat) : Nat := leNat ((b.drop 6).take 6)

/-- The two bytes at an offset, most significant first. -/
def be16 (b : List Nat) (o : Nat) : Nat := beNat ((b.drop o).take 2)

/-- An EtherType of a VLAN tag. -/
def isTagType (t : Nat) : Bool := t == 0x8100 || t == 0x88A8

/-- The first VLAN tag. -/
def tagOf (b : List Nat) : Option Nat := if isTagType (be16 b 12) then some (be16 b 14) else none

/-- The offset of the EtherType that follows any VLAN tags (R590). -/
def etypeOfs (b : List Nat) : Nat :=
  if !isTagType (be16 b 12) then 12 else if !isTagType (be16 b 16) then 16 else 20

/-- The EtherType that follows any VLAN tags. -/
def etypeOf (b : List Nat) : Nat := be16 b (etypeOfs b)

/-- The VLAN identifier a frame is learnt under; 0 untagged. -/
def vidOf (b : List Nat) : Nat := ((tagOf b).getD 0) % 4096

/-- The group bit of an address. -/
def isGroup (mac : Nat) : Bool := mac % 2 == 1

/-- The broadcast address. -/
def bcast : Nat := 2 ^ 48 - 1

/-- The Fieldlink group address 03-53-4B-46-4C-00 and the PTP address 01-1B-19-00-00-00 (R586). -/
def flGroup : Nat := leNat [0x03, 0x53, 0x4B, 0x46, 0x4C, 0x00]
/-- The PTP address. -/
def ptpGroup : Nat := leNat [0x01, 0x1B, 0x19, 0, 0, 0]

/-- An address 01-80-C2-00-00-00 to 0F, never forwarded (R585). -/
def isReserved (mac : Nat) : Bool := mac % 2 ^ 40 == leNat [0x01, 0x80, 0xC2, 0, 0] && mac / 2 ^ 40 ≤ 0x0F

/-! ### Transmit queues (R587, R588) -/

/-- The highest-numbered queue that holds a frame. -/
def topQueue (l : List TxFrame) : Option Nat := ([7, 6, 5, 4, 3, 2, 1, 0] : List Nat).find? (fun q => l.any (fun f => f.queue == q))

/-- A frame enters a queue; low-power idle ends, and a free line takes it up (R587, R599). -/
def txEnq (s : State) (p : Nat) (f : TxFrame) : State :=
  modPort s p (fun e =>
    let cur := if e.link && e.cur.isNone then some f.queue else e.cur
    { e with txq := e.txq ++ [f], lpi := false, cur := cur })

/-- Bytes waiting in a queue. -/
def queueFill (e : EPort) (q : Nat) : Nat := ((e.txq.filter (fun f => f.queue == q)).map (fun f => f.bytes.length)).sum

/-- A frame of the internal port, padded to 60 bytes (R548); while VALID is 0 nothing is sent (R586). -/
def sendInternal (s : State) (p q : Nat) (bytes : List Nat) (rg : Option Nat) : State :=
  if macValid s then txEnq s p ⟨q, bytes ++ List.replicate (60 - bytes.length) 0, rg, false, 0⟩ else s

/-- The ports a frame of the internal port to an address goes to (R584). -/
def outPorts (s : State) (mac vid : Nat) : List Nat :=
  match s.eth.fdb.find? (fun l => l.mac == mac && l.vid == vid) with
  | some l => [l.port]
  | none => (upto 2).filter (fun p => (eport s p).link)

/-- A frame of the internal port to wherever its address leads. -/
def sendTo (s : State) (q mac vid : Nat) (bytes : List Nat) : State :=
  forAll (outPorts s mac vid) (fun s p => sendInternal s p q bytes none) s

/-- The queue of a forwarded frame: its PCP (R587). -/
def fwdQueue (b : List Nat) : Nat := ((tagOf b).getD 0) / 8192

/-- A frame forwarded from one port to the other: dropped at egress beyond MAX or where its queue is full (R588, R595). -/
def forward (s : State) (p : Nat) (bytes : List Nat) (ingress : Nat) : State :=
  let o := 1 - p
  if maxLen s o < bytes.length + 4 then bump s o 11 1
  else if 16384 < queueFill (eport s o) (fwdQueue bytes) + bytes.length then bump s o 11 1
  else txEnq (bump s p 12 1) o ⟨fwdQueue bytes, bytes, none, true, ingress⟩

/-! ### Receive queues (R589 to R592) -/

/-- A filter in force matches a frame (R590). -/
def filterHit (f : List Word) (b : List Nat) : Bool :=
  let c := wAt f 0
  let tag := tagOf b
  bitOf c 0 &&
  (!bitOf c 1 || daOf b == (wAt f 1).toNat + fld (wAt f 2) 15 0 * 2 ^ 32) &&
  (!bitOf c 2 || tag.map (· % 4096) == some (fld (wAt f 3) 11 0)) &&
  (!bitOf c 3 || tag.map (· / 8192) == some (fld (wAt f 3) 14 12)) &&
  (!bitOf c 4 || etypeOf b == fld (wAt f 3) 31 16)

/-- The filters of a port in force, in ascending index. -/
def filtersOf (s : State) (p : Nat) : List (List Word) := (eport s p).filt.map Prod.snd

/-- The queue a frame is steered to (R589). -/
def steer (s : State) (p : Nat) (b : List Nat) : Nat :=
  match (filtersOf s p).find? (fun f => filterHit f b) with
  | some f => fld (wAt f 0) 8 5
  | none => 0

/-- An ETH_RX_POST for a queue of a port. -/
def isRxPost (p q : Nat) (f : Flight) : Bool := opOf f == 0x79 && fld (tgtOf f) 4 0 == p + 2 * q

/-- A posted buffer takes a frame and its descriptor completes (R548, R592). -/
def fillPost (s : State) (n : Nat) (f : Flight) (x : RxFrame) : State :=
  completeOut s n f (bytesWords x.bytes) (w32 x.bytes.length) (w32 x.flags) x.ts

/-- A frame for the host in receive queue `q` (R592). -/
def rxDeliver (s : State) (p q : Nat) (bytes : List Nat) (flags : Nat) : State :=
  let x : RxFrame := ⟨q, bytes, flags, nowTs s⟩
  match waitingRings s (isRxPost p q) with
  | (n, f) :: _ => fillPost s n f x
  | [] =>
    if 8 ≤ ((eport s p).rxq.filter (fun y => y.queue == q)).length then bump s p 8 1
    else modPort s p (fun e => { e with rxq := e.rxq ++ [x] })

/-- An enabled filter with M_DA matches a destination address (R586). -/
def daFilter (s : State) (p mac : Nat) : Bool :=
  (filtersOf s p).any (fun f => bitOf (wAt f 0) 0 && bitOf (wAt f 0) 1 && mac == (wAt f 1).toNat + fld (wAt f 2) 15 0 * 2 ^ 32)

/-- The internal port takes a frame (R586). -/
def internalTakes (s : State) (p : Nat) (b : List Nat) : Bool :=
  let d := daOf b
  (macValid s && d == ownMac s) || d == bcast || d == flGroup || d == ptpGroup || daFilter s p d

/-- A discarded Fieldlink frame is poisoned and counted (R603). -/
def flReject (s : State) : State := rinc (poison s 8) oFlErr

/-- A frame the internal port has taken: Fieldlink and PTP go to the firmware, which acts on them in steps of its own; an
unknown Fieldlink type is discarded; the rest goes to the host (R589, R604). -/
def internalFrame (s : State) (p : Nat) (b : List Nat) : State :=
  if etypeOf b = 0x88F7 then s
  else if etypeOf b = 0x88B5 then
    (if [0x01, 0x02, 0x10, 0x11, 0x20, 0x21].contains (nAt b (etypeOfs b + 3)) then s else flReject s)
  else rxDeliver s p (steer s p b) b (if (tagOf b).isSome then 8 else 0)

/-- The source address is learnt (R584). -/
def learn (s : State) (p : Nat) (b : List Nat) : State :=
  let m := saOf b
  let v := vidOf b
  if isGroup m then s else
    let rest := s.eth.fdb.filter (fun l => !(l.mac == m && l.vid == v))
    if 1024 ≤ rest.length then s else { s with eth := { s.eth with fdb := rest ++ [⟨m, v, p, s.up⟩] } }

/-- An accepted frame passes the switch (R584 to R586). -/
def switchFrame (s : State) (p : Nat) (b : List Nat) (ingress : Nat) : State :=
  let d := daOf b
  let s := learn s p b
  let fwd := bitOf (rget s oSwCtrl) 0 && (eport s (1 - p)).link && !isReserved d
  if macValid s && d = ownMac s then internalFrame s p b
  else match (if isGroup d then none else s.eth.fdb.find? (fun l => l.mac == d && l.vid == vidOf b)) with
  | some l => if l.port ≠ p ∧ fwd then forward s p b ingress else s
  | none =>
    let s := if fwd then forward s p b ingress else s
    if internalTakes s p b then internalFrame s p b else s

/-- FRAME_RECEIVED (R584 to R586, R589 to R598, R601): the port, the frame without its FCS, whether that is good, and the
ingress timestamp in 2^-16 ns. -/
def receiveFrame (s : State) (p : Nat) (b : List Nat) (fcs : Bool) (ingress : Nat) : State :=
  let l := b.length + 4
  if l ≤ 63 then bump s p 4 1
  else if maxLen s p < l then
    let s := bump s p 5 1
    if bitOf (rget s (oPort p)) 5 then
      rxDeliver s p 12 (b.take 2000) (1 + 2 * (2000 < b.length : Bool).toNat + 4 * (!fcs).toNat + 8 * (tagOf b).isSome.toNat)
    else s
  else if !fcs then bump s p 6 1
  else
    let s := bump (bump s p 0 1) p 1 l
    let d := daOf b
    let s := if d = bcast then bump s p 2 1 else if isGroup d then bump s p 3 1 else s
    let s := if etypeOf b = 0x88F7 then modPort s p (fun e => { e with ptpAt := some s.up }) else s
    if etypeOf b = 0x8808 then bump s p 7 1 else switchFrame s p b ingress

/-! ### Transmission (R587, R596, R623) -/

/-- A PTP event message over Ethernet: Sync or Delay_Req. -/
def isPtpEvent (b : List Nat) : Bool := etypeOf b == 0x88F7 && nAt b (etypeOfs b + 2) % 16 ≤ 1

/-- The residence time added to correctionField, saturating (R623). -/
def correctFrame (b : List Nat) (residence : Nat) : List Nat :=
  let o := etypeOfs b + 2 + 8
  let v := signedOf 64 (beNat ((b.drop o).take 8)) + residence
  let v : Int := if 2 ^ 63 - 1 < v then 2 ^ 63 - 1 else v
  b.take o ++ beBytes 8 (twosOf 64 v) ++ b.drop (o + 8)

/-- The list without its first frame of a queue, and that frame. -/
def popQueue (q : Nat) : List TxFrame → Option (TxFrame × List TxFrame)
  | [] => none
  | f :: r => if f.queue = q then some (f, r) else (popQueue q r).map (fun x => (x.1, f :: x.2))

/-- Entries of a timestamp queue no older than 1 s (R622). -/
def freshTsq (s : State) (l : List Tsq) : List Tsq := l.filter (fun e => decide (s.up ≤ e.at_ + 1000000000))

/-- A Delay_Req of this module is on the line: its entry of the timestamp queue, or, with 16 held, none, and the exchange is
abandoned (R622). -/
def captureReq (s : State) (p seq : Nat) : State :=
  let s := modPort s p (fun e => { e with tsq := freshTsq s e.tsq })
  if 16 ≤ (eport s p).tsq.length then
    raiseBoth (bump { s with ptp := { s.ptp with req := none } } p 15 1) oEthEvent 4
  else modPort s p (fun x => { x with tsq := x.tsq ++ [⟨1, seq, rfld s oPtpCtrl 7 1, s.ptp.ns, s.up⟩] })

/-- A Delay_Req of the internal port, which alone sends PTP from queue 6. -/
def isOwnReq (f : TxFrame) : Bool := !f.fwd && f.ring.isNone && f.queue == 6 && etypeOf f.bytes == 0x88F7

/-- An ETH_TX descriptor of a ring. -/
def isEthTx (f : Flight) : Bool := opOf f == 0x78

/-- The frame on a port's line ends: sent, counted, and the next of the highest queue follows (R587, R596, R622, R623). -/
def transmitEnd (s : State) (p egress : Nat) : State :=
  let e := eport s p
  match e.cur.bind (fun q => popQueue q e.txq) with
  | none => s
  | some (f, r) =>
    let tc := f.fwd && bitOf (rget s oSwCtrl) 1 && isPtpEvent f.bytes
    let b := if tc then correctFrame f.bytes (egress - f.ingress) else f.bytes
    let e := { e with txq := r, cur := topQueue r, idleAt := if r.isEmpty then s.up else e.idleAt }
    let s := emit (setPort s p e) (.eth p b)
    let s := if isOwnReq f then captureReq s p (be16 f.bytes (etypeOfs f.bytes + 2 + 30)) else s
    let s := bump (bump s p 9 1) p 10 (b.length + 4)
    let s := if tc then bump s p 13 1 else s
    match f.ring with
    | some n => forAll (waitingRings s isEthTx) (fun s x => if x.1 = n then complete s n x.2 0 0 0 0 else s) s
    | none => s

/-! ### Links and low power (R583, R599 to R601) -/

/-- The PTP slave runs on a port (R615). -/
def ptpOn (s : State) (p : Nat) : Bool :=
  let c := rget s oPtpCtrl
  bitOf c 0 && (fld c 9 8 == 0 || fld c 9 8 == p + 1)

/-- Within the last 600 s. -/
def recent (s : State) (t : Option Nat) : Bool :=
  match t with
  | some t => decide (s.up ≤ t + 600000000000)
  | none => false

/-- The port is step-locked (R601). -/
def stepLock (s : State) (p : Nat) : Bool :=
  let e := eport s p
  recent s e.hbAt || recent s e.ptpAt || ptpOn s p || nAt s.clk.src 3 == p + 1

/-- A link goes down; its frames wait (R583, R596). -/
def dropLink (s : State) (p : Nat) : State :=
  let e := eport s p
  let s := setPort s p { e with link := false, speed := 0, lpi := false, cur := none }
  if e.link then bump s p 16 1 else s

/-- A renegotiation drops the link and is counted (R600). -/
def renegotiate (s : State) (p : Nat) (down : Bool) : State :=
  bump (dropLink (modPort s p (fun e => { e with stepped := down })) p) p 17 1

/-- LPI_ENTRY (R599): both ends agree, and the queues have stayed empty for LPI_IDLE. -/
def execLpiEntry (p : Fin 2) (s : State) : Host.Outcome State Fault Refusal :=
  let e := eport s p
  let idle := decide (e.idleAt + rfld s (oPort p) 13 6 * 10000 ≤ s.up)
  done s (if bitOf (rget s (oPort p)) 3 && e.link && 2 ≤ e.speed && e.txq.isEmpty && !e.lpi && idle then
    bump (setPort s p { e with lpi := true }) p 14 1 else s)

/-- A port's MAC is clocked (R128, R132). -/
def macUp (s : State) (p : Nat) : Bool := s.clk.alive && s.clk.resetWait.isNone && macRuns s && bitOf (rget s oGateOpen) (14 + p)

/-- FRAME_RECEIVED (R593). -/
def execFrameReceived (p : Fin 2) (bytes : List Nat) (fcs : Bool) (ingress : Nat) (s : State) : Host.Outcome State Fault Refusal :=
  done s (if portEn s p && (eport s p).link && macUp s p then receiveFrame s p (bytes.map (· % 256)) fcs ingress else s)

/-- FRAME_TRANSMIT_END (R587): the port, and the egress timestamp in 2^-16 ns. -/
def execFrameTransmitEnd (p : Fin 2) (egress : Nat) (s : State) : Host.Outcome State Fault Refusal :=
  done s (if macUp s p then transmitEnd s p egress else s)

/-- ADDRESS_AGE_OUT (R584): 300 s without a frame from the address. -/
def execAddressAgeOut (mac : BitVec 48) (vid : BitVec 12) (s : State) : Host.Outcome State Fault Refusal :=
  let old := fun (l : Learnt) => l.mac == mac.toNat && l.vid == vid.toNat && decide (l.at_ + 300000000000 ≤ s.up)
  done s { s with eth := { s.eth with fdb := s.eth.fdb.filter (fun l => !old l) } }

/-- A write of FILT_CTRL: the four words take effect together; a QUEUE above 11 is ignored (R591). -/
def filterWrite (s : State) (p n : Nat) (v : Word) : State :=
  if 11 < fld v 8 5 then s else
    let o := oPort p + 0x100 + 0x10 * n
    let s := rwrite s o v
    modPort s p (fun e => { e with filt := tset (fun _ => []) e.filt n [rget s o, rget s (o + 4), rget s (o + 8), rget s (o + 12)] })

/-- FILTER_APPLY (R591). -/
def execFilterApply (p : Fin 2) (n : Fin 32) (v : Word) (s : State) : Host.Outcome State Fault Refusal :=
  done s (reached s (14 + p.val) fun s => filterWrite s p n v)

/-! ### Fieldlink framing (R602, R604) -/

/-- The next sequence number of a Fieldlink type and destination (R602). -/
def flNext (s : State) (key : Nat) : Word × State :=
  let q := tget (fun _ => (0 : Word)) s.eth.flSeq key + 1
  (q, { s with eth := { s.eth with flSeq := tset (fun _ => 0) s.eth.flSeq key q } })

/-- The bytes of a Fieldlink frame in version 1, from destination address to CRC (R602). -/
def flFrame (s : State) (typ : Nat) (seq : Word) (mac : Nat) (body : List Nat) : List Nat :=
  let c := rget s oFlCtrl
  let hdr := [1, typ] ++ leBytes 2 body.length ++ leBytes 2 (fld c 15 0) ++ leBytes 2 (s.base.slot + 4 * s.base.holdOut.toNat) ++
    wordBytes seq ++ [1, 1] ++ [0, 0]
  let tag := if fld c 27 16 = 0 then [] else [0x81, 0x00] ++ beBytes 2 (fld c 30 28 * 8192 + fld c 27 16)
  leBytes 6 mac ++ leBytes 6 (ownMac s) ++ tag ++ [0x88, 0xB5] ++ hdr ++ body ++ wordBytes (crc32c (hdr ++ body))

/-- A Fieldlink frame of a type to an address, in a transmit queue (R587, R602). -/
def flSend (s : State) (typ q key mac : Nat) (body : List Nat) : State :=
  let (n, s) := flNext s (256 * typ + key)
  sendTo s q mac (rfld s oFlCtrl 27 16) (flFrame s typ n mac body)

end Sys2Proof.Machine
end

