-- ==== Sys2Proof/Machine/Can.lean ====
section
/-! DEFINITION. The CAN ports: buffers, mapped points, transmission, errors and the ball (R627 to R650). -/

namespace Sys2Proof.Machine

/-! ### Ports and buffers -/

/-- CAN port `p`. -/
def canPort (s : State) (p : Nat) : CanPort := tget (fun _ => CanPort.reset) s.can p

/-- The state with CAN port `p` replaced. -/
def setCanPort (s : State) (p : Nat) (c : CanPort) : State := { s with can := tset (fun _ => CanPort.reset) s.can p c }

/-- The state with CAN port `p` changed. -/
def modCanPort (s : State) (p : Nat) (f : CanPort → CanPort) : State := setCanPort s p (f (canPort s p))

/-- Message buffer `b` of port `p`. -/
def canBuf (s : State) (p b : Nat) : CanBuf := tget (fun _ => CanBuf.reset) (canPort s p).buf b

/-- The state with a message buffer changed. -/
def modCanBuf (s : State) (p b : Nat) (f : CanBuf → CanBuf) : State :=
  modCanPort s p (fun c => { c with buf := tset (fun _ => CanBuf.reset) c.buf b (f (tget (fun _ => CanBuf.reset) c.buf b)) })

/-- CAN_P_EVENT bits become set: a REG_EVENT with the port as object, and a recorder event (R649). -/
def canEvent (s : State) (p bit : Nat) : State := raiseBits s (oCan p + 0x10) (oneBit bit) (w32 p) 0 true true []

/-- CAN_P_EVENT.CFG_ERR. -/
def canCfgErr (s : State) (p : Nat) : State := canEvent s p 4

/-- CAN_P_CTRL.EN. -/
def canEn (s : State) (p : Nat) : Bool := bitOf (rget s (oCan p)) 0

/-- The port takes part in bus traffic: enabled, PLL_SYS good and its gate open (R628, R630). -/
def canOnBus (s : State) (p : Nat) : Bool := canEn s p && bitOf s.clk.good 6 && bitOf (rget s oGateOpen) (10 + p)

/-- This module's CAN transmitters are its own: a single base, or the ball is held (R41, R639). -/
def canHolds (s : State) : Bool := !onTwin s || s.base.holdOut

/-- The port can send: on the bus, not monitoring, not in bus-off. -/
def canSends (s : State) (p : Nat) : Bool := canOnBus s p && canHolds s && !(canPort s p).monitor && (canPort s p).st != 2

/-- A data length that ISO 11898-1 allows (R547). -/
def canLenOk (fd : Bool) (n : Nat) : Bool := n ≤ 8 || (fd && [12, 16, 20, 24, 32, 48, 64].contains n)

/-- A CAN_TX descriptor for a buffer. -/
def isCanTx (p b : Nat) (f : Flight) : Bool := opOf f == 0x70 && fld (tgtOf f) 7 0 == p + 4 * b

/-! ### How pending frames end (R636) -/

/-- The identifier word of a frame: bit 29 IDE, 30 FDF, 31 BRS (R546). -/
def canIdWord (id : Nat) (ide fdf brs : Bool) : Word :=
  w32 (id % 2 ^ 29 + ide.toNat * 2 ^ 29 + fdf.toNat * 2 ^ 30 + brs.toNat * 2 ^ 31)

/-- A pending frame fails with a cause. -/
def failTx (s : State) (p cause b : Nat) : State :=
  match (canBuf s p b).tx with
  | none => s
  | some t =>
    let s := modCanBuf s p b (fun k => { k with tx := none, result := if t.src = 1 then 2 else k.result })
    if t.src = 0 then completeAll s (isCanTx p b) 0x16 0 0 (w32 cause) else s

/-- Every pending frame of a port fails with a cause. -/
def failAllTx (s : State) (p cause : Nat) : State := forAll (upto 64) (fun s b => failTx s p cause b) s

/-- A port is taken off the bus by a write of EN 0 (R630). -/
def canStop (s : State) (p : Nat) : State :=
  failAllTx (modCanPort s p (fun c => { c with monitor := false, recovering := false })) p 6

/-- The ball is lost: enabled ports monitor the bus, and every pending frame fails (R639, R641); a recovery under way ends
with NOT_BALL_HOLDER (DEDUCED, log 33). -/
def canBallLost (s : State) : State :=
  forAll (upto 4) (fun s p =>
    if canEn s p then
      let s := modCanPort s p (fun c => { c with monitor := true, recovering := false, st := 0, tec := 0, rec_ := 0 })
      completeAll (failAllTx s p 5) (fun f => opOf f == 0x72 && fld (tgtOf f) 1 0 == p) 0xA 0 0 0
    else s) s

/-- A frame is queued in a transmit buffer (R634). -/
def queueTx (s : State) (p b : Nat) (t : CanTx) : State :=
  let n := (canPort s p).ord
  modCanPort (modCanBuf s p b (fun k => { k with tx := some t, ord := n })) p (fun c => { c with ord := n + 1 })

/-- A frame's place in arbitration: its 11 most significant identifier bits, base before extended, the rest of an extended
identifier, and the buffer (R634). -/
def canRank (t : CanTx) (b : Nat) : Nat :=
  let hi := if t.ide then t.id / 2 ^ 18 else t.id
  let lo := if t.ide then t.id % 2 ^ 18 else 0
  ((hi * 2 + t.ide.toNat) * 2 ^ 18 + lo) * 64 + b

/-- The frame of a buffer can be the one on the bus: every pending frame that goes before it in arbitration was queued after it
and after the latest transmission ended (R634). -/
def canTurn (s : State) (p b : Nat) (t : CanTx) : Bool :=
  let c := canPort s p
  c.buf.all (fun e => match e.2.tx with
    | some g => decide (canRank t b ≤ canRank g e.1) || (decide ((canBuf s p b).ord < e.2.ord) && decide (c.mark ≤ e.2.ord))
    | none => true)

/-- A CAN_TX block's frame is queued at the commit, or fails at once (R407, R636): format by the buffer's IDE and FD_OK
(DESIGN CHOICE, log 32). -/
def blockSend (s : State) (p b iid id len : Nat) (data : List Word) : State :=
  let c := rget s (oCanBuf p b)
  let fd := bitOf c 4 && (canPort s p).fd
  if canSends s p && canLenOk fd len && (canBuf s p b).tx.isNone then
    queueTx s p b { id := id % 2 ^ (if bitOf c 3 then 29 else 11), ide := bitOf c 3, fdf := fd, brs := fd,
                    bytes := (wordsBytes data).take len, oneShot := false, src := 1, by_ := iid }
  else modCanBuf s p b (fun k => { k with result := 2 })

/-! ### Fields of mapped frames (R644) -/

/-- A bit of a frame's data, numbered from bit 0 of byte 0. -/
def dataBit (l : List Nat) (k : Nat) : Nat := (nAt l (k / 8) >>> (k % 8)) % 2

/-- `n` data bits from bit `k`, the first least significant. -/
def dataBits (l : List Nat) (k : Nat) : Nat → Nat
  | 0 => 0
  | n + 1 => dataBit l k + 2 * dataBits l (k + 1) n

/-- The raw field: its bytes run from the least significant one, or with BIG_END from the most significant (R644; log 30). -/
def rawField (l : List Nat) (start len : Nat) (big : Bool) : Nat :=
  if !big then dataBits l start len
  else (upto (ceilDiv len 8)).foldl (fun a j => let w := min 8 (len - 8 * j); a * 2 ^ w + dataBits l (start + 8 * j) w) 0

/-- The data bits a raw value gives its field: bit numbers with their values. -/
def fieldBits (v start len : Nat) (big : Bool) : List (Nat × Nat) :=
  (upto len).map (fun k =>
    let src := if !big then k else
      let j := k / 8
      let after := len - min len (8 * (j + 1))
      after + k % 8
    (start + k, (v >>> src) % 2))

/-- Data with one bit replaced. -/
def putBit (l : List Nat) (k v : Nat) : List Nat :=
  let x := nAt l (k / 8)
  setNth l (k / 8) (if v = 0 then (if (x >>> (k % 8)) % 2 = 1 then x - 2 ^ (k % 8) else x)
    else (if (x >>> (k % 8)) % 2 = 1 then x else x + 2 ^ (k % 8)))

/-- A REAL entry that carries the field as binary32. -/
def isRawReal (len : Nat) (scale ofs : Word) : Bool := len == 32 && feq scale 0x3F800000 && feq ofs 0

/-- The value a received field gives its point (R644). -/
def decodeField (ctl scale ofs : Word) (raw : Nat) : Word :=
  let len := fld ctl 28 23
  let v : Int := if bitOf ctl 12 then signedOf len raw else raw
  match fld ctl 11 9 with
  | 0 => boolW (raw != 0)
  | 3 => if isRawReal len scale ofs then w32 raw else fadd (fmul (fOfInt v) scale) ofs
  | _ => iw v

/-- The raw field a point's value gives (R644): a REAL by the inverse rule, half to even, saturated, NaN all ones. -/
def encodeField (ctl scale ofs v : Word) : Nat :=
  let len := fld ctl 28 23
  match fld ctl 11 9 with
  | 0 => (v != 0).toNat
  | 3 =>
    let lo : Int := if bitOf ctl 12 then -(2 ^ (len - 1) : Int) else 0
    let hi : Int := if bitOf ctl 12 then 2 ^ (len - 1) - 1 else 2 ^ len - 1
    if isNaN v then 2 ^ len - 1
    else if isRawReal len scale ofs then v.toNat
    else
      match rv (fdiv (fsub v ofs) scale) with
      | .nan => 2 ^ len - 1
      | .inf s => twosOf len (if s then lo else hi)
      | .fin s n d => twosOf len (max lo (min hi (if s then -(divRne n d : Int) else divRne n d)))
  | _ => v.toNat % 2 ^ len

/-- The enabled map entries of a buffer, ascending. -/
def mapsOf (s : State) (p b : Nat) : List Nat :=
  (upto 256).filter (fun m =>
    let c := rget s (oCanMap m)
    bitOf c 0 && fld c 2 1 == p && fld c 8 3 == b)

/-- A stored frame's mapped points, as one commit (R645). -/
def decodeMaps (s : State) (p b : Nat) (bytes : List Nat) : State :=
  forAll (mapsOf s p b) (fun s m =>
    let c := rget s (oCanMap m)
    let st := fld c 22 14
    let len := fld c 28 23
    if 8 * bytes.length < st + len then modCanPort s p (fun k => { k with short := k.short + 1 })
    else pset s (0x400 + m)
      (decodeField c (rget s (oCanMap m + 4)) (rget s (oCanMap m + 8)) (rawField bytes st len (bitOf c 13)))) s

/-- A mapped transmit buffer's data: fields of its points after forces, all other bits 0 (R646). -/
def encodeMaps (s : State) (p b : Nat) : List Nat :=
  (mapsOf s p b).foldl (fun l m =>
    let c := rget s (oCanMap m)
    let raw := encodeField c (rget s (oCanMap m + 4)) (rget s (oCanMap m + 8)) (pval s (0x400 + m))
    (fieldBits raw (fld c 22 14) (fld c 28 23) (bitOf c 13)).foldl (fun l e => putBit l e.1 e.2) l)
    (List.replicate (rfld s (oCanBuf p b + 0xC) 22 16) 0)

/-! ### Set-up registers (R630, R631, R643) -/

/-- The bit timings meet R629. -/
def timingOk (n d : Word) : Bool :=
  let seg := fun (brp t1 t2 sjw b1 h1 h2 : Nat) =>
    1 ≤ brp && brp ≤ 32 && b1 ≤ t1 && t1 ≤ h1 && 1 ≤ t2 && t2 ≤ h2 && 1 ≤ sjw && sjw ≤ t2
  let tn := (1 + fld n 14 6 + fld n 21 15) * fld n 5 0
  let td := (1 + fld d 11 6 + fld d 16 12) * fld d 5 0
  seg (fld n 5 0) (fld n 14 6) (fld n 21 15) (fld n 28 22) 2 256 127 &&
  seg (fld d 5 0) (fld d 11 6) (fld d 16 12) (fld d 21 17) 2 63 16 && 100 ≤ tn && 20 ≤ td && td ≤ tn

/-- A write of CAN_P_CTRL (R630); a port that joins the bus is error active, which a CAN_RECOVER still waiting awaits (R638). -/
def canCtrlWrite (s : State) (p : Nat) (v : Word) : State :=
  let was := canEn s p
  if bitOf v 0 && !was then
    if timingOk (rget s (oCan p + 4)) (rget s (oCan p + 8)) then
      let s := modCanPort (rwrite s (oCan p) v) p (fun c => { c with
        st := 0, tec := 0, rec_ := 0, recovering := false, monitor := !canHolds s, fd := bitOf v 1 })
      completeAll s (fun f => opOf f == 0x72 && fld (tgtOf f) 1 0 == p) 0 0 0 0
    else canCfgErr (rwrite s (oCan p) (setBit v 0 false)) p
  else if !bitOf v 0 && was then canStop (rwrite s (oCan p) v) p
  else rwrite s (oCan p) v

/-- A write of a bit-timing register: ignored with CFG_ERR while the port is enabled (R630). -/
def canTimingWrite (s : State) (p o : Nat) (v : Word) : State :=
  if canEn s p then canCfgErr s p else rwrite s (oCan p + o) v

/-- A CAN block of the active image names a buffer. -/
def imageCan (s : State) (p b : Nat) : Bool :=
  match s.img with
  | some im => im.insts.any (fun i => (i.typ == 0x63 || i.typ == 0x64) && fld i.param 7 0 == p + 4 * b)
  | none => false

/-- The active image would break R377 in a state (R692). -/
def imageClash (s : State) : Bool :=
  match s.img with
  | some im => breaksParts s im
  | none => false

/-- A buffer set-up keeps to the ranges of R649. -/
def canBufOk (s : State) (p b : Nat) (v : Word) : Bool :=
  let t := rget s (oCanBuf p b + 0xC)
  let mode := fld t 24 23
  fld v 9 5 ≤ 16 && mode != 3 &&
  (!bitOf v 1 || ((mode == 0 || 10 ≤ fld t 15 0) && (!bitOf v 2 || canLenOk (bitOf v 4) (fld t 22 16))))

/-- A write of CAN_B_CTRL (R631): fields other than EN take effect only with EN going from 0 to 1. -/
def canBufWrite (s : State) (p b : Nat) (v : Word) : State :=
  let o := oCanBuf p b
  let old := rget s o
  if !bitOf old 0 then
    let t := rwrite s o v
    if !bitOf v 0 then t
    else if canBufOk s p b v && !imageClash t then
      modCanBuf t p b (fun k => { k with has := false, bytes := [], id := 0, stale := false, dirty := false, last := none, held := [], next := s.up })
    else canCfgErr (rset t o (setBit (rget t o) 0 false)) p
  else
    let s := if fld v 9 1 != fld old 9 1 then canCfgErr s p else s
    if bitOf v 0 then s
    else if !(mapsOf s p b).isEmpty || imageCan s p b then canCfgErr s p
    else rset s o (setBit old 0 false)

/-- A write of CAN_B_ID, CAN_B_MASK or CAN_B_TIMING (R631). -/
def canBufFieldWrite (s : State) (p b o : Nat) (v : Word) : State :=
  if bitOf (rget s (oCanBuf p b)) 0 then canCfgErr s p else rwrite s (oCanBuf p b + o) v

/-- Two fields of data bits overlap. -/
def fieldsMeet (a b : Word) : Bool := fld a 22 14 < fld b 22 14 + fld b 28 23 && fld b 22 14 < fld a 22 14 + fld a 28 23

/-- A map entry may be enabled with a control word (R643). -/
def canMapOk (s : State) (m : Nat) (v : Word) : Bool :=
  let p := fld v 2 1
  let b := fld v 8 3
  let c := rget s (oCanBuf p b)
  let len := fld v 28 23
  let ty := fld v 11 9
  let scale := rget s (oCanMap m + 4)
  bitOf c 0 && bitOf c 2 &&
  fld v 22 14 + len ≤ (if bitOf c 1 then 8 * rfld s (oCanBuf p b + 0xC) 22 16 else 512) &&
  1 ≤ len && len ≤ 32 && ty ≤ 4 && (ty != 0 || len == 1) &&
  (ty != 3 || (isFinite scale && !feq scale 0 && isFinite (rget s (oCanMap m + 8)))) &&
  !(bitOf c 1 && (mapsOf s p b).any (fun k => k != m && fieldsMeet v (rget s (oCanMap k))))

/-- A write of CAN_M_CTRL (R643). -/
def canMapWrite (s : State) (m : Nat) (v : Word) : State :=
  let o := oCanMap m
  let old := rget s o
  if !bitOf old 0 then
    let t := rwrite s o v
    if !bitOf v 0 then t
    else if canMapOk s m v && !imageClash t then t
    else canCfgErr (rset t o (setBit (rget t o) 0 false)) (fld v 2 1)
  else
    let p := fld old 2 1
    let s := if fld v 28 1 != fld old 28 1 then canCfgErr s p else s
    if bitOf v 0 then s else rset s o (setBit old 0 false)

/-- A write of CAN_M_SCALE or CAN_M_OFS (R643). -/
def canMapFieldWrite (s : State) (m o : Nat) (v : Word) : State :=
  let c := rget s (oCanMap m)
  if bitOf c 0 then canCfgErr s (fld c 2 1) else rwrite s (oCanMap m + o) v

/-- A recovery command (R638). -/
def canRecover (s : State) (p : Nat) : State :=
  if (canPort s p).st = 2 && canEn s p then modCanPort s p (fun c => { c with recovering := true }) else s

/-- A write of a register of the CAN block. -/
def canWrite (s : State) (off : Nat) (v : Word) : State :=
  let o := off % 0x10000
  if o < 0x4000 then
    let p := o / 0x1000
    let q := o % 0x1000
    if q = 0 then canCtrlWrite s p v
    else if q = 4 ∨ q = 8 then canTimingWrite s p q v
    else if q = 0x14 then (if bitOf v 0 then canRecover s p else s)
    else if 0x100 ≤ q ∧ q < 0x900 then
      (if q % 0x20 = 0 then canBufWrite s p ((q - 0x100) / 0x20) v
       else if q % 0x20 ≤ 0xC then canBufFieldWrite s p ((q - 0x100) / 0x20) (q % 0x20) v else s)
    else rwrite s off v
  else if 0x8000 ≤ o ∧ o < 0x9000 then
    (if o % 0x10 = 0 then canMapWrite s ((o - 0x8000) / 0x10) v
     else if o % 0x10 ≤ 8 then canMapFieldWrite s ((o - 0x8000) / 0x10) (o % 0x10) v else s)
  else s

/-! ### The commands -/

/-- CAN_PORT_ENABLE (R630). -/
def execCanPortEnable (p : Fin 4) (v : Word) (s : State) : Host.Outcome State Fault Refusal :=
  done s (reached s (10 + p.val) fun s => canCtrlWrite s p (setBit v 0 true))

/-- CAN_PORT_DISABLE (R630). -/
def execCanPortDisable (p : Fin 4) (v : Word) (s : State) : Host.Outcome State Fault Refusal :=
  done s (reached s (10 + p.val) fun s => canCtrlWrite s p (setBit v 0 false))

/-- CAN_BUFFER_ENABLE (R631). -/
def execCanBufferEnable (p : Fin 4) (b : Fin 64) (v : Word) (s : State) : Host.Outcome State Fault Refusal :=
  done s (reached s (10 + p.val) fun s => canBufWrite s p b v)

/-- CAN_MAP_ENABLE (R643). -/
def execCanMapEnable (m : Fin 256) (v : Word) (s : State) : Host.Outcome State Fault Refusal := done s (reached s 0 fun s => canMapWrite s m v)

/-- The lowest-numbered enabled receive buffer that takes a frame (R632). -/
def canMatch (s : State) (p id : Nat) (ide fdf : Bool) : Option Nat :=
  (upto 64).find? (fun b =>
    let c := rget s (oCanBuf p b)
    let m := rfld s (oCanBuf p b + 8) 28 0
    bitOf c 0 && !bitOf c 1 && (id &&& m) == (rfld s (oCanBuf p b + 4) 28 0 &&& m) && bitOf c 3 == ide && (!fdf || bitOf c 4))

/-- A frame stored in a receive buffer (R633, R645). -/
def storeFrame (s : State) (p b : Nat) (idw : Word) (bytes : List Nat) : State :=
  let s := forAll (canBuf s p b).held (fun s e => pset s e.1 e.2) s
  let s := modCanBuf s p b (fun k => { k with
    arrivals := k.arrivals + 1, has := true, id := idw, bytes := bytes, at_ := s.up, stale := false, held := [] })
  if bitOf (rget s (oCanBuf p b)) 2 then decodeMaps s p b bytes else s

/-- CAN_FRAME_RECEIVED (R627, R632, R639, R645). -/
def execCanFrameReceived (p : Fin 4) (id : BitVec 29) (ide fdf brs remote : Bool) (bytes : List Nat) (s : State) :
    Host.Outcome State Fault Refusal :=
  done s (
    if !canOnBus s p || (canPort s p).st == 2 || (fdf && !(canPort s p).fd) || !canLenOk fdf bytes.length then s else
    let s := modCanPort s p (fun c => { c with rx := c.rx + 1 })
    let id := id.toNat % 2 ^ (if ide then 29 else 11)
    match (if remote then none else canMatch s p id ide fdf) with
    | some b => storeFrame s p b (canIdWord id ide fdf brs) (bytes.map (· % 256))
    | none => modCanPort s p (fun c => { c with unmatched := c.unmatched + 1 }))

/-- CAN_TRANSMIT_END (R634, R636, R648): a frame that is not one-shot is tried again. -/
def execCanTransmitEnd (p : Fin 4) (b : Fin 64) (cause : Fin 4) (s : State) : Host.Outcome State Fault Refusal :=
  done s (
    match (canBuf s p b).tx with
    | none => s
    | some t =>
      if !canSends s p || !canTurn s p b t then s else
      let s := modCanPort s p (fun c => { c with mark := c.ord })
      if cause.val = 0 then
        let s := emit s (.can p (canIdWord t.id t.ide t.fdf t.brs) t.bytes)
        let s := modCanPort s p (fun c => { c with tx := c.tx + 1 })
        let s := modCanBuf s p b (fun k => { k with
          tx := none, arrivals := k.arrivals + 1, result := if t.src = 1 then 1 else k.result })
        if t.src = 0 then completeAll s (isCanTx p b) 0 0 0 0 else s
      else if t.oneShot then failTx s p cause b
      else s)

/-- CAN_ERROR_STATE_CHANGE (R637, R638). -/
def execCanErrorStateChange (p : Fin 4) (tec rec_ : Nat) (s : State) : Host.Outcome State Fault Refusal :=
  done s (
    let c := canPort s p
    if !canOnBus s p || c.monitor || c.st == 2 then s else
    let st := if 255 < tec then 2 else if 128 ≤ tec ∨ 128 ≤ rec_ then 1 else 0
    let s := setCanPort s p { c with st := st, tec := min tec 255, rec_ := min rec_ 255 }
    if st = 2 then failAllTx (canEvent s p 1) p 4
    else if st = 1 ∧ c.st = 0 then canEvent s p 0
    else s)

/-- CAN_RECOVER_CMD (R638). -/
def execCanRecoverCmd (p : Fin 4) (s : State) : Host.Outcome State Fault Refusal := done s (reached s (10 + p.val) fun s => canRecover s p)

/-- CAN_RECOVERED (R638). -/
def execCanRecovered (p : Fin 4) (s : State) : Host.Outcome State Fault Refusal :=
  done s (
    if (canPort s p).recovering then
      let s := modCanPort s p (fun c => { c with recovering := false, st := 0, tec := 0, rec_ := 0 })
      completeAll (canEvent s p 2) (fun f => opOf f == 0x72 && fld (tgtOf f) 1 0 == p) 0 0 0 0
    else s)

/-- CAN_BALL_TAKEN (R642): the port is error active, and its mapped buffers begin their periods. -/
def execCanBallTaken (p : Fin 4) (s : State) : Host.Outcome State Fault Refusal :=
  done s (
    if canOnBus s p && canHolds s && (canPort s p).monitor then
      let s := modCanPort s p (fun c => { c with monitor := false, st := 0, tec := 0, rec_ := 0 })
      forAll (upto 64) (fun s b => if bitOf (rget s (oCanBuf p b)) 2 then modCanBuf s p b (fun k => { k with next := s.up }) else s) s
    else s)

/-- The turn of a mapped transmit buffer has come: its period, or in mode 2 a change at least 10 ms after the latest frame (R646). -/
def mappedDue (s : State) (p b : Nat) : Bool :=
  let k := canBuf s p b
  decide (k.next ≤ s.up) ||
  (rfld s (oCanBuf p b + 0xC) 24 23 == 2 && k.dirty && (match k.last with
    | some t => decide (t + 10000000 ≤ s.up)
    | none => true))

/-- A mapped buffer's frame, encoded from its points (R646). -/
def mappedFrame (s : State) (p b : Nat) : CanTx :=
  let c := rget s (oCanBuf p b)
  let fd := bitOf c 4 && (canPort s p).fd
  { id := rfld s (oCanBuf p b + 4) 28 0 % 2 ^ (if bitOf c 3 then 29 else 11), ide := bitOf c 3, fdf := fd, brs := fd,
    bytes := encodeMaps s p b, oneShot := false, src := 2, by_ := 0 }

/-- MAPPED_TX (R646): a frame still pending is left in place and not re-encoded. -/
def execMappedTx (p : Fin 4) (b : Fin 64) (s : State) : Host.Outcome State Fault Refusal :=
  done s (
    let c := rget s (oCanBuf p b)
    let mode := rfld s (oCanBuf p b + 0xC) 24 23
    if bitOf c 0 && bitOf c 1 && bitOf c 2 && mode != 0 && s.ble.running && canSends s p && mappedDue s p b then
      let t := if (canBuf s p b).tx.isSome then s else
        modCanBuf (queueTx s p b (mappedFrame s p b)) p b (fun k => { k with dirty := false, last := some s.up })
      modCanBuf t p b (fun k => if s.up < k.next then k else
        { k with next := s.up + rfld s (oCanBuf p b + 0xC) 15 0 * 1000000 })
    else s)

/-- The latest frame of a receive buffer is older than its timeout: its REAL points read NaN until the next (R633, R645). -/
def goStale (s : State) (p b : Nat) : State :=
  let real := ((mapsOf s p b).filter (fun m => rfld s (oCanMap m) 11 9 == 3)).map (0x400 + ·)
  let held := real.map (fun id => (id, pnat s id))
  let s := canEvent (modCanBuf s p b (fun k => { k with stale := true, held := held })) p 3
  forAll real (fun s id => pset s id qNaN) s

/-- CAN_RX_STALE (R633, R645). -/
def execCanRxStale (p : Fin 4) (b : Fin 64) (s : State) : Host.Outcome State Fault Refusal :=
  done s (
    let c := rget s (oCanBuf p b)
    let k := canBuf s p b
    if bitOf c 0 && !bitOf c 1 && rfld s (oCanBuf p b + 0xC) 15 0 != 0 && k.has && !k.stale &&
        decide (k.at_ + rfld s (oCanBuf p b + 0xC) 15 0 * 1000000 < s.up) then goStale s p b else s)

end Sys2Proof.Machine
end

