-- ==== Sys2Proof/Machine/Engine.lean ====
section
/-! DEFINITION. The control engine's passes: the control law, its modes, selector groups, saturation supervision and the
one commit at a pass's end (R326 to R354). -/

namespace Sys2Proof.Machine

/-- The frequency the clock runs at, in units of 2^-16 Hz (R97). -/
def phcFreqWord (s : State) : Nat := freqIn s 65536

/-- The controller runs and this module computes (R334). -/
def computes (s : State) : Bool := s.ble.running && !isStandby s

/-! ### One loop -/

/-- What one computation of a loop yields before its achieved output is known. -/
structure LoopRes where
  n : Nat
  /-- The loop is OFF. -/
  off : Bool
  eff : Nat
  bad : Bool
  fallback : Bool
  limited : Bool
  y : Word
  r : Word
  yf : Word
  p : Word
  d : Word
  ff : Word
  v : Word
  u : Word
  ts : Word
  e : Word
  ki : Word
  /-- A value the engine writes into the SP point (R338, R340). -/
  sp : Option Word
  st : LoopSt

/-- The law of R335: yf, P, D and v from the gains [KP, KI, KD, B, TF, FF_GAIN]. -/
def pidLaw (g : List Word) (neg : Bool) (r y yf0 i ff ts : Word) : Word × Word × Word × Word :=
  let kp := wAt g 0
  let kd := wAt g 2
  let tf := wAt g 4
  let a := if feq tf 0 then 0 else fdiv tf (fadd tf ts)
  let yf := fadd (fmul a yf0) (fmul (fsub (dec 1 1) a) y)
  let sg := fun w => if neg then fneg w else w
  let p := fmul (sg kp) (fsub (fmul (wAt g 3) r) y)
  let d := fdiv (fmul (fneg (sg kd)) (fsub yf yf0)) ts
  (yf, p, d, fadd (fadd (fadd p i) d) ff)

/-- The region that contains a key (R342). -/
def regionOf (los : List Word) (key : Word) : Nat :=
  ((upto los.length).filter (fun j => j == 0 || fle (wAt los j) key)).getLastD 0

/-- The region of a computation (R343). -/
def nextRegion (los : List Word) (hys key : Word) (cur : Nat) (init : Bool) : Nat :=
  let cur := min cur (los.length - 1)
  if !isFinite key then (if init then 0 else cur)
  else if init then regionOf los key
  else if (0 < cur && flt key (fsub (wAt los cur) hys)) ||
      (cur + 1 < los.length && fle (fadd (wAt los (cur + 1)) hys) key) then regionOf los key
  else cur

/-- The reader of a pass: latched points after forces, loop points of loops computed earlier with their new value (R331). -/
def passRead (s : State) (acc : List (Nat × Word)) (id : Nat) : Word :=
  if id = 0xFFFF then qNaN else
  match pointForce s id with
  | some f => f.val
  | none =>
    match alook acc id with
    | some v => v
    | none => pnat s id

/-- The PV of a loop is bad (R339). -/
def pvBad (s : State) (pv : Nat) (y : Word) : Bool := !isFinite y || (pv < 0xC0 && !bitOf (chan s pv).diag 0)

/-- The requested mode: the MODE point, or the natural value where a force puts it out of range (R338; log 21). -/
def reqMode (s : State) (rd : Nat → Word) (n : Nat) : Nat :=
  let m := (rd (loopPt n 2)).toNat
  if m ≤ 4 then m else (pnat s (loopPt n 2)).toNat % 8

/-- A loop that is OFF (R341). -/
def offRes (n : Nat) (l : LoopSt) : LoopRes :=
  { n := n, off := true, eff := 0, bad := false, fallback := false, limited := false, y := 0, r := 0, yf := 0, p := 0,
    d := 0, ff := 0, v := 0, u := 0, ts := 0, e := 0, ki := 0, sp := none,
    st := { l with status := l.status &&& ~~~ (0x3F : Word), satRun := 0, init := true, own := false, fresh := true } }

/-- The setpoint of a computation: r, a value written into SP, and whether SP_FALLBACK holds (R338 to R340). -/
def setpoint (t : Tab Word) (rd : Nat → Word) (n eff : Nat) (l : LoopSt) (bad init : Bool) (y : Word) :
    Word × Option Word × Bool :=
  let lim := fclamp (cfgL t n 0x4C) (cfgL t n 0x50)
  let sp := rd (loopPt n 0)
  match eff with
  | 2 => (lim sp, none, false)
  | 3 =>
    let src := rd (fld (cfgL t n 0x10) 15 0)
    if isFinite src then (lim src, none, false)
    else
      let r := if init || !l.hasR then lim sp else lim l.r
      (r, some (if init || !l.hasR then r else l.r), true)
  | 5 => (sp, none, false)
  | _ => if bitOf (cfgL t n 0) 8 && !bad then (y, some y, false) else (sp, none, false)

/-- U_ACH at the initialisation of R337: the OUT point, the last own output, or OUT_LO. -/
def initAch (t : Tab Word) (rd : Nat → Word) (n : Nat) (l : LoopSt) : Word :=
  if l.own then l.uach else
  let g := lGroup t n
  let out := if g = 127 then lOut t n else gOut t g
  let v := if out = 0xFFFF then qNaN else if g != 127 && gNeg t g then fneg (rd out) else rd out
  if isFinite v then v else if l.ever then l.u else cfgL t n 0x38

/-- The gains of a computation and its region (R335, R343). -/
def gainsOf (t : Tab Word) (rd : Nat → Word) (n : Nat) (l : LoopSt) (init : Bool) : List Word × Nat :=
  let c := cfgL t n 0
  let w := fun o => cfgL t n o
  let cur := fld l.status 14 12
  if bitOf c 9 then
    let st := fld c 17 10
    let los := (upto (fld c 21 18)).map (fun j => poolW t (st + j) 0)
    let j := nextRegion los (w 0x58) (rd (fld (w 0x14) 31 16)) cur init
    let e := st + j
    ([poolW t e 4, poolW t e 8, poolW t e 0xC, w 0x2C, w 0x30, w 0x44], j)
  else ([w 0x20, w 0x24, w 0x28, w 0x2C, w 0x30, w 0x44], cur)

/-- The own output of a computation and whether the rate limit changed it (R335, R338 to R340). -/
def ownOut (t : Tab Word) (rd : Nat → Word) (n eff : Nat) (uach v ts : Word) : Word × Bool :=
  let lim := fclamp (cfgL t n 0x38) (cfgL t n 0x3C)
  match eff with
  | 1 => let m := rd (loopPt n 1); (if isFinite m then lim m else uach, false)
  | 4 => let k := rd (fld (cfgL t n 0x10) 31 16); (if isFinite k then lim k else uach, false)
  | 5 => (if fld (cfgL t n 0) 7 6 = 0 then uach else cfgL t n 0x48, false)
  | _ =>
    let u := lim v
    let rate := cfgL t n 0x40
    if flt 0 rate then
      let u2 := fclamp (fsub uach (fmul rate ts)) (fadd uach (fmul rate ts)) u
      (u2, !feq u2 u)
    else (u, false)

/-- One loop's computation up to its own output (R335, R337 to R344). -/
def evalLoop (s : State) (rd : Nat → Word) (h : Nat) (n : Nat) : LoopRes :=
  let t := s.live
  let l := loopSt s n
  let mode := reqMode s rd n
  if mode = 0 then offRes n l else
  let c := cfgL t n 0
  let neg := bitOf c 5
  let y := rd (fld (cfgL t n 0xC) 15 0)
  let bad := pvBad s (fld (cfgL t n 0xC) 15 0) y
  let eff := if bad && (mode == 2 || mode == 3) then 5 else mode
  let f2 := fmul (dec 2 1) (fOfQ (phcFreqWord s) 65536)
  let ts := fdiv (fOfNat (if l.fresh then lPeriod t n else h - l.hlast)) f2
  let init := l.init
  let first := init && !bad
  let (r, sp, fb) := setpoint t rd n eff l bad init y
  let eff := if fb then 2 else eff
  let ffv := if bitOf c 25 then rd (fld (cfgL t n 0x14) 15 0) else qNaN
  let ffOf := fun g => if isFinite ffv then fmul g ffv else 0
  let (g, reg) := gainsOf t rd n l init
  let ff := ffOf (wAt g 5)
  let sg := fun w => if neg then fneg w else w
  -- R337
  let uach := if init then initAch t rd n l else l.uach
  let yf0 := if first then y else l.yf
  let p0 := fmul (sg (wAt g 0)) (fsub (fmul (wAt g 3) r) y)
  let i0 := if first then fsub (fsub uach p0) ff else l.i
  -- R344
  let newLaw := pidLaw g neg r y yf0 i0 ff ts
  let old := l.used
  let i1 := if init || bad || old.isEmpty || old == g then i0
    else fadd i0 (fsub (pidLaw old neg r y yf0 i0 (ffOf (wAt old 5)) ts).2.2.2 newLaw.2.2.2)
  let law := if bad then (l.yf, p0, (0 : Word), l.v) else pidLaw g neg r y yf0 i1 ff ts
  let (u, lim) := ownOut t rd n eff uach law.2.2.2 ts
  { n := n, off := false, eff := eff, bad := bad, fallback := fb, limited := lim, y := y, r := r, yf := law.1, p := law.2.1,
    d := law.2.2.1, ff := ff, v := law.2.2.2, u := u, ts := ts, e := sg (fsub r y), ki := wAt g 1, sp := sp,
    st := { l with i := i1, uach := uach, init := if bad then true else false, own := bad,
                   used := if bad then l.used else g, status := setFld l.status 14 12 reg } }

/-- Milliseconds of a sample time, to the nearest (R348). -/
def tsMs (ts : Word) : Nat :=
  match fQ ts with
  | some (n, d) => divRne (n.toNat * 1000) d
  | none => 0

/-- The integral of a computed loop (R336, R339); a FAIL whose PV is no number leaves it (DEDUCED, log 22). -/
def nextI (t : Tab Word) (x : LoopRes) (ua : Word) : Word :=
  if x.bad && (x.eff == 1 || x.eff == 4 || !isFinite x.y) then x.st.i
  else if x.eff = 2 ∨ x.eff = 3 then
    let tt := cfgL t x.n 0x34
    let kt := if feq tt 0 then dec 1 1 else fmin2 (fdiv x.ts tt) (dec 1 1)
    fadd (fadd x.st.i (fmul (fmul x.ki x.ts) x.e)) (fmul kt (fsub ua x.v))
  else fsub (fsub (fsub ua x.p) x.d) x.ff

/-- The saturation counters after a computation at a limit or off it (R348). -/
def satStep (l : LoopSt) (atLim : Bool) (ms : Nat) : LoopSt :=
  if atLim then
    let acc := l.satFrac + ms
    { l with satRun := w32 (min (l.satRun.toNat + ms) (2 ^ 32 - 1)), satFrac := acc % 1000,
             satTot := w32 (min (l.satTot.toNat + acc / 1000) (2 ^ 32 - 1)) }
  else { l with satRun := 0 }

/-- SAT_ALARM of a loop after its counters moved: the loop, and 1 for a set, 2 for a clear, 0 for neither (R349). -/
def satAlarm (t : Tab Word) (n : Nat) (l : LoopSt) : LoopSt × Nat :=
  let a := cfgL t n 0x54
  let reached := match fQ a with
    | some (k, d) => decide (k.toNat * 1000 ≤ l.satRun.toNat * d)
    | none => false
  if bitOf l.status 5 then
    (if l.satRun = 0 then ({ l with status := setBit l.status 5 false }, 2) else (l, 0))
  else if flt 0 a && reached then ({ l with status := setBit l.status 5 true, satCnt := l.satCnt + 1 }, 1)
  else (l, 0)

/-- The state of a computed loop with its achieved output (R336, R346, R348, R354). -/
def finishLoop (t : Tab Word) (h : Nat) (x : LoopRes) (ua : Word) (sel forced : Bool) : LoopSt × Nat :=
  let keep := x.bad && (x.eff == 1 || x.eff == 4)
  let hi := feq x.u (cfgL t x.n 0x3C) && (x.eff == 2 || x.eff == 3)
  let lo := feq x.u (cfgL t x.n 0x38) && (x.eff == 2 || x.eff == 3)
  let l := x.st
  let l := satStep { l with
      i := nextI t x ua, yf := if x.bad then l.yf else x.yf, v := x.v, u := x.u, uach := ua, hlast := h, lastH := some h,
      r := if keep then l.r else x.r, y := if keep then l.y else x.y, hasR := l.hasR || !keep, ever := true, fresh := false }
    (hi || lo) (tsMs x.ts)
  let w := (l.status &&& 0xFFFF7020) + 0x10000 + w32 (x.eff + hi.toNat * 8 + lo.toNat * 16 + x.bad.toNat * 64
    + x.fallback.toNat * 128 + sel.toNat * 256 + forced.toNat * 512 + x.limited.toNat * 2048)
  satAlarm t x.n { l with status := w }

/-! ### A pass -/

/-- What a pass has gathered: new loop states, loop points for later loops, point writes in order, and events as bit and loop. -/
structure PassAcc where
  loops : List (Nat × LoopSt)
  fresh : List (Nat × Word)
  writes : List (Nat × Word)
  events : List (Nat × Nat)
  reached : List Nat
  groups : Nat

/-- REAL points of a loop that a computation writes: SP, PV, R and OUT, the only ones a binding can name (R338, R340, R351,
R361). -/
def loopReals (x : LoopRes) : List (Nat × Word) :=
  let keep := x.bad && (x.eff == 1 || x.eff == 4)
  (match x.sp with
   | some v => [(loopPt x.n 0, v)]
   | none => []) ++
  (if keep then [] else [(loopPt x.n 3, x.y), (loopPt x.n 7, x.r)]) ++ [(loopPt x.n 4, x.u)]

/-- Every point of a loop that a computation writes (R351). -/
def loopWritesOf (x : LoopRes) (l : LoopSt) : List (Nat × Word) :=
  loopReals x ++ [(loopPt x.n 5, l.status), (loopPt x.n 6, l.satTot)]

/-- One loop of a pass is finished. -/
def passLoop (s : State) (h : Nat) (x : LoopRes) (ua : Word) (sel forced : Bool) (a : PassAcc) : PassAcc :=
  let old := (loopSt s x.n).status
  if x.off then
    { a with loops := a.loops ++ [(x.n, x.st)],
             events := a.events ++ (if bitOf old 5 then [(5, x.n)] else []) }
  else
    let (l, sat) := finishLoop s.live h x ua sel forced
    let ws := loopWritesOf x l
    let ev := (if sat = 1 then [(2, x.n)] else if sat = 2 then [(5, x.n)] else []) ++
      (if x.bad && !bitOf old 6 then [(3, x.n)] else []) ++ (if x.fallback && !bitOf old 7 then [(4, x.n)] else [])
    { a with loops := a.loops ++ [(x.n, l)], fresh := ws ++ a.fresh, writes := a.writes ++ ws, events := a.events ++ ev }

/-- The lowest output of the candidates; the lowest-numbered where several share it (R346). -/
def lowest : List LoopRes → Option LoopRes
  | [] => none
  | x :: r =>
    match lowest r with
    | none => some x
    | some y => if flt y.u x.u then some y else some x

/-- The forced value of an output point as loops see it: u_ach of every member (R354). -/
def forcedOut (s : State) (out : Nat) (neg : Bool) : Option Word :=
  if out = 0xFFFF then none else (pointForce s out).map (fun f => if neg then fneg f.val else f.val)

/-- A loop in no group: its own output, or a forced one (R336, R354). -/
def passSingle (s : State) (h n : Nat) (a : PassAcc) : PassAcc :=
  let x := evalLoop s (passRead s a.fresh) h n
  let out := lOut s.live n
  let f := forcedOut s out false
  let a := passLoop s h x (f.getD x.u) false f.isSome a
  if x.off || out == 0xFFFF then a else { a with writes := a.writes ++ [(out, x.u)] }

/-- The due members of a group in ascending order, each reading the loop points of those before it (R331). -/
def groupMembers (s : State) (h : Nat) : List Nat → List (Nat × Word) → List LoopRes
  | [], _ => []
  | n :: r, fresh =>
    let x := evalLoop s (passRead s fresh) h n
    x :: groupMembers s h r (if x.off then fresh else loopReals x ++ fresh)

/-- A selector group: all its due members, resolved together (R345 to R347). -/
def passGroup (s : State) (h g : Nat) (ms : List Nat) (a : PassAcc) : PassAcc :=
  let xs := groupMembers s h ms a.fresh
  let neg := gNeg s.live g
  let out := gOut s.live g
  let isCand := fun (x : LoopRes) => !x.off && (x.eff == 1 || x.eff == 2 || x.eff == 3 || x.eff == 5)
  let win := lowest (xs.filter isCand)
  let f := forcedOut s out neg
  let a := xs.foldl (fun a x =>
    let own := match win with
      | some w => if isCand x then w.u else x.u
      | none => x.u
    let sel := match win with
      | some w => w.n == x.n
      | none => false
    passLoop s h x (f.getD own) sel f.isSome a) { a with groups := a.groups + 1 }
  match win with
  | some w => { a with writes := a.writes ++ [(out, if neg then fneg w.u else w.u)] }
  | none => a

/-- Loop `n` is due at half cycle `h` of a pass number (R326, R329). -/
def isDue (s : State) (p h n : Nat) : Bool :=
  let l := loopSt s n
  lPass s.live n == p && lPeriod s.live n != 0 && h % lPeriod s.live n == lSlot s.live n &&
  l.lastH != some h && canBeDue s.live s.live n

/-- The due loops in ascending order, a group at its lowest-numbered due member (R331, R345). -/
def passLoops (s : State) (h : Nat) (due : List Nat) : PassAcc :=
  due.foldl (fun a n =>
    if a.reached.contains n then a else
    let g := lGroup s.live n
    if g = 127 then passSingle s h n { a with reached := n :: a.reached }
    else
      let ms := due.filter (fun k => lGroup s.live k == g)
      passGroup s h g ms { a with reached := ms ++ a.reached }) ⟨[], [], [], [], [], 0⟩

/-- A loop's state at its pass's end: STARVED as a schedule commit within the pass has left it (R329). -/
def endLoop (s : State) (n : Nat) (l : LoopSt) : State :=
  setLoop s n { l with status := setBit l.status 10 (bitOf (loopSt s n).status 10 && !canBeDue s.live s.live n) }

/-- The end of the pass in progress: one commit of its loop states and points, and its events (R331). -/
def endPass (s : State) : State :=
  match s.lce.run with
  | none => s
  | some r =>
    let s := { s with lce := { s.lce with run := none, sent := (s.lce.sent ++ r.loops.map Prod.fst).eraseDups } }
    let s := forAll r.loops (fun s e => endLoop s e.1 e.2) s
    let s := forAll r.writes (fun s e => pset s e.1 e.2) s
    let s := commitPoints s (r.writes.map Prod.fst)
    forAll r.events (fun s e => loopEvent s e.1 e.2 (e.1 == 2 || e.1 == 5)) s

/-- The pass in progress has come to its end. -/
def passDue (s : State) : Bool := (s.lce.run.map (fun r => decide (r.stop ≤ absA s))).getD false

/-- The longest a pass of `n` due loops and `g` groups may take, in 0.1 microseconds: R332, and 16 % of the speed while CORE
runs on RC. -/
def passMax (s : State) (n g : Nat) : Nat :=
  let d := 50 + 3 * n + g
  if nAt s.clk.src 0 = 1 then ceilDiv (d * 25) 4 else d

/-- The duration of a pass in whole phase units: a free value of at most `passMax` (R332; log 144). -/
def passUnits (s : State) (p n g : Nat) : Nat :=
  ceilDiv (min (Config.passTime (absA s) p) (passMax s n g) * s.phc.freq * 4096) 100000000000

/-- A pass starts (R331): it latches its inputs and computes with the half-cycle number of its own firing's unit; what it has
computed is written at its end. -/
def startPass (s : State) (p unit : Nat) : State :=
  let h := unit / 2048
  let due := (enLoops s.live).filter (isDue s p h)
  let a := passLoops s h due
  let r : PassRun := ⟨unit, absA s + passUnits s p due.length a.groups, a.loops, a.writes, a.events⟩
  let s := { s with lce := { s.lce with run := some r } }
  if r.stop ≤ absA s then endPass s else s

/-- A firing of a pass: it starts, waits behind the pass in progress, or is dropped (R332, R334). -/
def firePass (s : State) (p : Nat) : State :=
  if !computes s || !lceClock s then s
  else if s.lce.wait.isEmpty && s.lce.run.isNone then startPass s p (absA s)
  else if s.lce.wait.any (fun w => w.2 == p) then raiseHost (rinc s oLceSkip) oLceEvent 1
  else { s with lce := { s.lce with wait := s.lce.wait ++ [(absA s, p)] } }

/-- A memory error in the loop states: corrected and counted, or the controller is to stop (R569, R571). -/
def noteEcc (s : State) (e : Ecc) : State :=
  match e with
  | .corrected => rinc s oEccCorr
  | _ => s

end Sys2Proof.Machine
end

