-- ==== Sys2Proof/Machine/Ctl.lean ====
section
/-! DEFINITION. The controller: instance data, the retain area, stopping for any cause, and the tasks' registers (R386,
R389, R392 to R397, R419, R571). -/

namespace Sys2Proof.Machine

/-- Instance data word `k` as committed. -/
def dget (s : State) (k : Nat) : Word := tget (fun _ => 0) s.ble.data k

/-- The state with a committed instance data word replaced and marked for the next state frame. -/
def dset (s : State) (k : Nat) (v : Word) : State :=
  { s with ble := { s.ble with data := tset (fun _ => 0) s.ble.data k v, dirty := (s.ble.dirty ++ [k]).eraseDups } }

/-- Registers and run of task `t` (R420). -/
def task (s : State) (t : Nat) : TaskRun := tget (fun _ => TaskRun.reset) s.ble.tasks t

/-- The state with task `t`'s registers replaced. -/
def setTask (s : State) (t : Nat) (r : TaskRun) : State :=
  { s with ble := { s.ble with tasks := tset (fun _ => TaskRun.reset) s.ble.tasks t r } }

/-- BLE_EVENT bits become set: a host event and a recorder event (R419). -/
def bleEvent (s : State) (bit : Nat) (extra : List Word) : State := raiseBits s oBleEvent (oneBit bit) 0xFFFFFFFF 0 true true extra

/-- The instance that owns a data word. -/
def ownerOf (im : Image) (k : Nat) : Option Inst := im.insts.find? (fun i => i.ofs ≤ k && k < i.ofs + instWords i)

/-- The instance of the active image with an identifier. -/
def instById (im : Image) (iid : Nat) : Option Inst := im.insts.find? (fun i => i.iid == iid)

/-- A cycle of task `t` is in progress or preempted. -/
def inCycle (s : State) (t : Nat) : Bool :=
  (match s.ble.run with
   | some c => c.task == t
   | none => false) || s.ble.stack.any (fun c => c.task == t)

/-- A firing of task `t` waits (R384, R388). -/
def waitsFiring (s : State) (t : Nat) : Bool := s.ble.wait.any (fun w => w.1 == t)

/-! ### Host writes between cycles (R386, R537) -/

/-- The task that owns a data word of the active image. -/
def ownerTask (s : State) (k : Nat) : Option Nat := s.img.bind (fun im => (ownerOf im k).map Inst.task)

/-- A waiting INST_WRITE whose instance's task has no cycle in progress. -/
def freeInstWrite (s : State) (f : Flight) : Bool :=
  opOf f == 0x35 &&
  (match s.img.bind (fun im => instById im (tgtOf f).toNat) with
   | some i => !inCycle s i.task
   | none => true)

/-- Host writes take effect for every task between cycles, and their descriptors complete (R386). -/
def applyWrites (s : State) : State :=
  let ready := s.ble.writes.filter (fun w => match ownerTask s w.1 with
    | some t => !inCycle s t
    | none => true)
  if ready.isEmpty then s else
    let s := { s with ble := { s.ble with writes := s.ble.writes.filter (fun w => !ready.contains w) } }
    let s := forAll ready (fun s w => dset s w.1 w.2.1) s
    completeAll s (freeInstWrite s) 0 0 0 0

/-! ### The retain area (R393 to R397) -/

/-- A retained copy belongs to an image (R397). -/
def copyFits (im : Image) (c : RetainCopy) : Bool := c.id == im.retainId && c.count == im.retainWords

/-- The valid copy with the higher save sequence number for an image (R397). -/
def retainFor (s : State) (im : Image) : Option RetainCopy :=
  match s.ble.retA.filter (copyFits im), s.ble.retB.filter (copyFits im) with
  | some a, some b => if b.seq.toNat ≤ a.seq.toNat then some a else some b
  | some a, none => some a
  | none, b => b

/-- The copy that holds the latest save is copy A. -/
def latestIsA (s : State) : Bool :=
  match s.ble.retA, s.ble.retB with
  | some a, some b => b.seq.toNat ≤ a.seq.toNat
  | some _, none => true
  | none, _ => false

/-- Sequence number of the latest completed save. -/
def retainSeqNo (s : State) : Word :=
  let q := fun (c : Option RetainCopy) => (c.map RetainCopy.seq).getD 0
  if (q s.ble.retB).toNat ≤ (q s.ble.retA).toNat then q s.ble.retA else q s.ble.retB

/-- A save as the committed words now stand (R394). -/
def saveCopy (s : State) (im : Image) : RetainCopy :=
  { seq := retainSeqNo s + 1, id := im.retainId, count := im.retainWords, optime := s.rtc.optime,
    words := (retList im).map (dget s) ++ (retVars im).map (pnat s), gen := rfld s oLceCommitStatus 15 0,
    loops := loopArea s }

/-- A save begins; the loop-state area is written beside it (R355, R394). -/
def startSave (s : State) : State :=
  match s.img with
  | some im => saveSat { s with ble := { s.ble with saving := some (saveCopy s im), again := false } }
  | none => s

/-- A save that must not be skipped: at once, or after the one in progress (R396). -/
def forceSave (s : State) : State :=
  if s.ble.saving.isSome then { s with ble := { s.ble with again := true } } else startSave s

/-- A save that falls due at a commit: skipped and counted while another is being written (R395). -/
def dueSave (s : State) : State :=
  if s.ble.saving.isSome then bleEvent (rinc s 0x50014) 2 [] else startSave s

/-- The save being written is complete: it stands in the copy that did not hold the latest one (R394). -/
def endSave (s : State) : State :=
  match s.ble.saving with
  | none => s
  | some c =>
    let b := if latestIsA s then { s.ble with retB := some c, saving := none } else { s.ble with retA := some c, saving := none }
    let s := { s with ble := b }
    if s.ble.again then startSave s else s

/-! ### Stopping (R334, R389, R396, R495, R571) -/

/-- A planned handoff after a trip: to a synchronised standby, at the next boundary, and not within 60 s of a takeover after
a trip (R495). -/
def planTrip (s : State) : State :=
  let soon := match s.twn.tripAt with
    | some t => decide (s.up < t + 60000000000)
    | none => false
  if s.twn.role == 1 && s.twn.pair == 4 && bitOf (rget s oTwnCtrl) 2 && s.twn.plan.isNone && !soon then
    let p : Plan := { at_ := s.phc.cycle + 1, cause := 5, ring := none, req := s.phc.cycle, out := false }
    refreshPair { s with twn := { s.twn with tripped := true, plan := some p } }
  else { s with twn := { s.twn with tripped := s.twn.role == 1 && onTwin s } }

/-- The controller stops: cycles and passes in progress are abandoned, waiting firings discarded, every bank gets cause
STOP, and the retain area is saved (R334, R389, R396). -/
def stopCtl (s : State) (cause tripTask : Nat) : State :=
  let s := { s with
    ble := { s.ble with running := false, stopCause := cause, tripTask := tripTask, run := none, stack := [], wait := [] },
    lce := { s.lce with run := none, wait := [] } }
  let s := applyWrites (forceSave (allCause s 5))
  if cause = 4 ∨ cause = 5 ∨ cause = 7 then planTrip s else s

/-- An uncorrectable error at rest in memory the program runs on (R571); the poisoned word is noted (R582). -/
def integrityStop (s : State) : State :=
  let s := poison s 4
  if s.ble.running then stopCtl s 7 0 else s

/-- What SECDED finds where a step works: nothing, a corrected error, or one that stops the controller (R569, R571). -/
def withEcc (s : State) (e : Ecc) (f : State → State) : State :=
  match e with
  | .uncorrectable => integrityStop s
  | _ => f (noteEcc s e)

/-- The logic side stops and waits for a start-up: HOLD_OUT low, every bank in its safe state, nothing runs (R152). -/
def holdReset (s : State) (cause : Nat) : State :=
  let s := hwSafe (flushEvents s)
  let b := { s.ble with running := false, stopCause := 1, run := none, stack := [], wait := [] }
  { s with
    clk := { s.clk with alive := false, startCause := cause, linkPcie := false }, phc := { s.phc with run := false, fire := false }, ble := b,
    lce := { s.lce with run := none, wait := [] }, twn := { s.twn with role := 0, plan := none } }

/-- The module leaves for its update: the controller stops with its save, and the module resets itself with cause UPDATE
(R734, R738). -/
def updReset (s : State) : State :=
  let s := endSave (if s.ble.running then stopCtl s s.ble.stopCause 0 else s)
  holdReset { s with upd := { s.upd with leaving := 0 } } 6

/-- A planned handoff asked for by an update is refused: the install ends, or a fallback asks again after 60 s (R734, R738). -/
def leaveRefused (s : State) : State :=
  let u := s.upd
  if u.leaving = 1 then { s with upd := { u with leaving := 0, stage := 3, installErr := 9, mark := false } }
  else { s with upd := { u with askAt := s.up } }

/-! ### Passes as commands -/

/-- LCE_PASS (R326, R331, R358): the commit point of a completed build comes before the pass is dispatched (R760). -/
def execLcePass (n : Fin 1024) (e : Ecc) (s : State) : Host.Outcome State Fault Refusal :=
  let s' := dueCommits s
  let s' := if lcePending s' && s'.lce.built && anyFires s' (fun act _ => act == 2) && clockRuns s' then lceCommitNow s' else s'
  done s (match fireEntry s' n 2 with
    | some (arg, t) => if computes t && lceClock t then withEcc t e (fun t => firePass t (fld arg 3 0)) else t
    | none => s')

/-- WAITING_PASS_START (R331, R332): once the pass before it has ended; the waiting pass keeps its own half-cycle number. -/
def execWaitingPassStart (s : State) : Host.Outcome State Fault Refusal :=
  done s (match s.lce.run, s.lce.wait with
    | none, (a, p) :: r =>
      if computes s && lceClock s then startPass { s with lce := { s.lce with wait := r } } p a else s
    | _, _ => s)

end Sys2Proof.Machine
end

