-- ==== Sys2Proof/Machine/Task.lean ====
section
/-! DEFINITION. Task cycles: firing, overruns and the program watchdog, execution, commit, and the restarts (R377 to R401). -/

namespace Sys2Proof.Machine

/-! ### One cycle's execution (R382, R383, R452) -/

/-- A force on a pin of an instance. -/
def pinForce (fs : List Force) (iid pin : Nat) : Option Word :=
  (fs.find? (fun f => f.kind == 1 && f.obj == iid && f.pin == pin)).map Force.val

/-- What a cycle's execution works on: instance data, how instances were last executed, rewired memories still to load, and
the effects asked for. -/
structure Work where
  data : Tab Word
  last : Tab Nat
  rewired : List (Nat × Nat × Nat)
  fx : List Fx

/-- A word of the working instance data. -/
def workGet (w : Work) (k : Nat) : Word := tget (fun _ => 0) w.data k

/-- Words written into the working instance data from an index on. -/
def workPut (d : Tab Word) (k : Nat) : List Word → Tab Word
  | [] => d
  | v :: r => workPut (tset (fun _ => 0) d k v) (k + 1) r

/-- The natural inputs of instance `n`: its connections' sources, or its own words (R373, R383). -/
def naturalIns (im : Image) (w : Work) (n : Nat) (i : Inst) : List Word :=
  (upto i.nIn).map (fun k =>
    match im.conns.find? (fun c => c.dst == n && c.dstPin == k) with
    | some c => (match im.insts[c.src]? with
      | some x => workGet w (x.ofs + c.srcPin)
      | none => workGet w (i.ofs + k))
    | none => workGet w (i.ofs + k))

/-- Instance `n` executes once: inputs copied and forced, the block's behaviour, outputs forced (R382, R452). -/
def runInst (im : Image) (l : Latch) (hc n : Nat) (w : Work) : Work :=
  match im.insts[n]? with
  | none => w
  | some i =>
    let nOut := (sigOf i).outs.length
    let nat := naturalIns im w n i
    let ins := (upto i.nIn).map (fun k => (pinForce l.forces i.iid k).getD (wAt nat k))
    let outs := (upto nOut).map (fun k => workGet w (i.ofs + i.nIn + k))
    let ints := (upto (sigOf i).ints.length).map (fun k => workGet w (i.ofs + i.nIn + nOut + k))
    -- R440: memories to be loaded from their inputs before this first execution
    let mine := w.rewired.filter (fun r => r.1 == n)
    let ints := mine.foldl (fun m r => setNth m (r.2.1 - i.nIn - nOut) (boolW (bB (wAt ins r.2.2)))) ints
    let r := execBlk ⟨l, im, i, hc, tget (fun _ => 0) w.last n⟩ ins outs ints
    let outs := (upto nOut).map (fun k => (pinForce l.forces i.iid (i.nIn + k)).getD (wAt r.outs k))
    let keep := if r.ints.isEmpty then ints else r.ints
    { data := workPut w.data i.ofs (nat ++ outs ++ keep), last := tset (fun _ => 0) w.last n (3 + l.ms),
      rewired := w.rewired.filter (fun r => r.1 != n), fx := w.fx ++ r.fx }

/-- A cycle executed from its latch. -/
def runCycle (s : State) (im : Image) (d : TaskDef) (c : Cycle) : Work :=
  d.order.foldl (fun w n => runInst im c.latch (c.unit / 2048) n w) ⟨c.latch.data, s.ble.lastMs, s.ble.rewired, []⟩

/-! ### The commit (R382, R411, R417) -/

/-- Committed instance data with the words of one instance taken from a cycle's working data. -/
def mergeInst (s : State) (w : Work) (i : Inst) : State :=
  forAll (upto (instWords i)) (fun s k =>
    let v := workGet w (i.ofs + k)
    if dget s (i.ofs + k) = v then s else dset s (i.ofs + k) v) s

/-- The points a cycle writes, in order. -/
def fxPoints (l : List Fx) : List (Nat × Word) :=
  l.filterMap (fun f => match f with
    | .point id v => some (id, v)
    | _ => none)

/-- The program events a cycle raises, in order. -/
def fxEvents (l : List Fx) : List Fx :=
  l.filter (fun f => match f with
    | .event _ _ _ _ _ => true
    | _ => false)

/-- A value that no write gives a loop's MODE point, whoever makes it (R338). -/
def badMode (id : Nat) (v : Word) : Bool := 0x800 ≤ id && id < 0x1000 && id % 8 == 2 && decide (4 < v.toNat)

/-- Point writes of one commit: natural values, then one frame to each bank concerned; a write to a counting input is a
preset for the bank and leaves the natural value to its readings (R162, R181, R451). -/
def writePoints (s : State) (ws : List (Nat × Word)) : State :=
  let ws := ws.filter (fun w => !badMode w.1 w.2)
  let s := forAll ws (fun s w => if w.1 < 0xC0 && chMode s w.1 == 2 then s else pset s w.1 w.2) s
  commitWrites s ws

/-- A word of a station's output image (R417). -/
def setRioOut (s : State) (st idx : Nat) (v : Word) : State :=
  let r := tget (fun _ => Rio.reset) s.eth.rio st
  let o := if r.output.isEmpty then List.replicate 64 0 else r.output
  { s with eth := { s.eth with rio := tset (fun _ => Rio.reset) s.eth.rio st { r with output := setNth o idx v } } }

/-- Remote writes and CAN transmissions of a commit. -/
def commitOuter (s : State) (f : Fx) : State :=
  match f with
  | .rio st idx v => setRioOut s st idx v
  | .can p b iid id len d => blockSend s p b iid id len d
  | _ => s

/-- A program event with its cycle's timestamp (R411, R552). -/
def commitEvent (t : Nat) (ts : Nat) (s : State) (f : Fx) : State :=
  match f with
  | .event iid tag v typ part =>
    { s with evq := s.evq ++ [⟨4, 4, part, ts, s.rtc.optime, [w32 iid, w32 tag, v, w32 t, w32 typ], 5, 0xFFFF, true, false⟩] }
  | _ => s

/-- A BLE_EVENT bit that names a task becomes set (R389, R390, R552). -/
def taskEvent (s : State) (bit t : Nat) : State := raiseBits s oBleEvent (oneBit bit) (w32 t) 0 true true []

/-- At most 64 program events of a cycle are committed, the others counted (R411). -/
def commitEvents (s : State) (t ts : Nat) (l : List Fx) : State :=
  let s := forAll (l.take 64) (commitEvent t ts) s
  let n := l.length - 64
  if n = 0 then s else bleEvent (rset s 0x5001C (rget s 0x5001C + w32 n)) 3 []

/-- The slowest used task: the longest PERIOD of its schedule entry, the highest number among equals (R394). -/
def slowestTask (s : State) (im : Image) : Option Nat :=
  let es := (schedList s.live).filterMap (fun n =>
    let t := fld (schedWord s.live n 2) 3 0
    if entryEn s.live n && entryAction s.live n == 3 && (taskOf im t).isSome then some (t, entryPeriod s.live n) else none)
  (es.foldl (fun b e => match b with
    | none => some e
    | some m => if m.2 < e.2 || (m.2 == e.2 && m.1 < e.1) then some e else some m) none).map Prod.fst

/-- A finished cycle is committed as one (R382), and its retain save is made where one is due (R394, R443). -/
def commitCycle (s : State) (im : Image) (c : Cycle) (time : Nat) : State :=
  match taskOf im c.task with
  | none => s
  | some d =>
    let w := runCycle s im d c
    let s := { s with ble := { s.ble with lastMs := w.last, rewired := w.rewired } }
    let s := forAll (d.order.filterMap (im.insts[·]?)) (fun s i => mergeInst s w i) s
    let s := writePoints s (fxPoints w.fx)
    let s := forAll w.fx commitOuter s
    let s := commitEvents s c.task c.ts (fxEvents w.fx)
    let r := task s c.task
    let s := setTask s c.task { r with cycles := r.cycles + 1, last := min time 65535, max := max r.max (min time 65535) }
    if s.ble.switchSave then forceSave { s with ble := { s.ble with switchSave := false } }
    else if slowestTask s im = some c.task then dueSave s
    else s

/-! ### Starting a cycle (R381, R382, R384) -/

/-- What a cycle takes at its latch. -/
def takeLatch (s : State) : Latch :=
  { pts := s.pts, forces := s.forces, data := s.ble.data, rio := s.eth.rio,
    stCfg := (upto 32).map (fun n => rget s (oStation n)), can := s.can, snapCirc := s.mtr.snapCirc,
    snapPhs := s.mtr.snapPhs, snapSave := s.mtr.snapSave, circs := s.mtr.circs, mtrRun := s.mtr.running,
    par0 := (alook s.mtr.par 0).getD [], slot := s.base.slot, count := s.rtc.count, countValid := countValid s,
    ms := s.up / 1000000, up := s.up }

/-- A cycle of task `t` starts with the firing of a unit: its latch is taken now. -/
def startCycle (s : State) (t unit ts : Nat) : State :=
  { s with ble := { s.ble with run := some ⟨t, unit, ts, takeLatch s⟩ } }

/-- PRIORITY of a task of the active image. -/
def prioOf (s : State) (t : Nat) : Nat := ((s.img.bind (fun im => taskOf im t)).map TaskDef.prio).getD 16

/-- A firing whose latch does not wait for a pass of its own phase unit (R333). -/
def mayLatch (s : State) (unit : Nat) : Bool :=
  !s.lce.wait.any (fun w => w.1 == unit) && !(s.lce.run.map (fun r => r.unit == unit)).getD false

/-- The waiting firings that no pass holds: a held one holds those of equal priority behind it (R333, R384). -/
def readyFirings (s : State) : List (Nat × Nat × Nat × Nat) → List Nat → List (Nat × Nat × Nat × Nat)
  | [], _ => []
  | w :: r, held =>
    if mayLatch s w.2.1 && !held.contains (prioOf s w.1) then w :: readyFirings s r held
    else readyFirings s r (prioOf s w.1 :: held)

/-- The waiting firing that starts next: the highest priority, then the order in which they wait (R384). -/
def bestWaiting (s : State) : Option (Nat × Nat × Nat × Nat) :=
  (readyFirings s s.ble.wait []).foldl (fun b w => match b with
    | none => some w
    | some x => if prioOf s w.1 < prioOf s x.1 then some w else some x) none

/-- A cycle of task `t` can start now: with none running it precedes the latest preempted cycle; the running one it preempts
at a block boundary, `executed` blocks of that cycle being done (R384). -/
def goesAhead (s : State) (t executed : Nat) : Bool :=
  match s.ble.run, s.ble.stack with
  | none, [] => true
  | none, c :: _ => decide (prioOf s t < prioOf s c.task)
  | some c, _ =>
    decide (prioOf s t < prioOf s c.task) &&
    (match s.img.bind (fun im => taskOf im c.task) with
     | some d => decide (executed < d.order.length)
     | none => false)

/-- A cycle starts, a running one being put aside (R384). -/
def beginCycle (s : State) (t unit ts : Nat) : State :=
  startCycle { s with ble := { s.ble with stack := s.ble.run.toList ++ s.ble.stack } } t unit ts

/-- The waiting firing that comes next starts, if its turn has come (R384). -/
def startWaiting (s : State) (executed : Nat) : State :=
  match bestWaiting s with
  | some w =>
    if goesAhead s w.1 executed then
      beginCycle { s with ble := { s.ble with wait := s.ble.wait.erase w } } w.1 w.2.1 w.2.2.2
    else s
  | none => s

/-- A firing that finds no cycle of its task: it starts, preempts, or waits, behind every waiting one of equal priority
(R384). -/
def dispatchTask (s : State) (t entry executed : Nat) : State :=
  let a := absA s
  if mayLatch s a && goesAhead s t executed && !s.ble.wait.any (fun w => prioOf s w.1 == prioOf s t) then
    beginCycle s t a (nowTs s)
  else { s with ble := { s.ble with wait := s.ble.wait ++ [(t, a, entry, nowTs s)] } }

/-- An overrun of a task (R389, R390). -/
def overrun (s : State) (t : Nat) (d : TaskDef) : State :=
  if !d.comfort then stopCtl (taskEvent s 0 t) 4 t
  else
    let r := task s t
    let r := { r with ovrRun := min 15 (r.ovrRun + 1), ovr := r.ovr + 1 }
    let acts := d.tol != 15 && decide (d.tol < r.ovrRun) && !r.acted
    let s := setTask s t (if acts then { r with acted := true, stopped := r.stopped || d.action == 1 } else r)
    if !acts then s
    else
      let s := taskEvent s 1 t
      if d.action = 2 then stopCtl s 5 t else s

/-- A firing of task `t` (R381, R388, R391). -/
def fireTask (s : State) (t entry executed : Nat) : State :=
  match s.img.bind (fun im => taskOf im t) with
  | none => s
  | some d =>
    let busy := inCycle s t || waitsFiring s t
    let s := if busy then s else setTask s t { task s t with ovrRun := 0, acted := false }
    if !computes s || (task s t).stopped then s
    else if busy then overrun s t d
    else dispatchTask s t entry executed

/-- The block engine's clock runs: its gate is open (R133). -/
def bleClock (s : State) : Bool := s.clk.alive && bitOf (rget s oGateOpen) 1

/-- BLE_TASK (R106 to R110, R381 to R392). -/
def execBleTask (n : Fin 1024) (executed : Nat) (e : Ecc) (s : State) : Host.Outcome State Fault Refusal :=
  let c := dueCommits s
  done s (match fireEntry c n 3 with
    | some (arg, t) =>
      if bleClock t && t.img.isSome then withEcc t e (fun t => fireTask t (fld arg 3 0) n executed) else t
    | none => c)

/-- TASK_CYCLE_RESUME (R384): a waiting firing starts, preempting a running cycle between two of its blocks, or the preempted
cycle goes on with its own latch. How many blocks the running cycle has done by then is open (log 154). -/
def execTaskCycleResume (s : State) : Host.Outcome State Fault Refusal :=
  done s (
    if !bleClock s then s else
    let f := takeFree s
    let t := startWaiting f.2 (Config.blocksDone f.1)
    match t.ble.run, t.ble.stack with
    | none, c :: r => { t with ble := { t.ble with run := some c, stack := r } }
    | _, _ => t)

/-! ### The program store (R380) -/

/-- Store copy 0 holds the latest valid image. -/
def latestIs0 (s : State) : Bool :=
  match s.ble.store0, s.ble.store1 with
  | some a, some b => if b.good then a.good && decide (b.seq ≤ a.seq) else true
  | some _, none => true
  | none, _ => false

/-- An image that has become active is written into the copy that does not hold the latest valid one (R380). -/
def storeImage (s : State) : State :=
  match s.img with
  | none => s
  | some im =>
    let q := fun (c : Option StoreCopy) => match c with
      | some c => if c.good then c.seq else 0
      | none => 0
    { s with ble := { s.ble with storing := some ⟨max (q s.ble.store0) (q s.ble.store1) + 1, im.bytes, true⟩ } }

/-- PROGRAM_STORE_WRITE_DONE (R380): the trailer is written last. -/
def execProgramStoreWriteDone (s : State) : Host.Outcome State Fault Refusal :=
  done s (match s.ble.storing with
    | none => s
    | some c =>
      if latestIs0 s then { s with ble := { s.ble with store1 := some c, storing := none } }
      else { s with ble := { s.ble with store0 := some c, storing := none } })

/-! ### Restarts (R356, R398 to R401) -/

/-- Instance data as its initial values. -/
def initTab (im : Image) : Tab Word := workPut [] 0 im.init

/-- Instance data as a restart begins with it: initial values, S0 to S3 of EXPR 0.0 (R398, R415; log 145). -/
def restartTab (im : Image) : Tab Word :=
  im.insts.foldl (fun d i => if i.typ = 0x66 then workPut d (i.ofs + i.nIn + 8) [0, 0, 0, 0] else d) (initTab im)

/-- Program variables take their INIT values (R398). -/
def initVars (s : State) (im : Image) : State := forAll im.vars (fun s v => pset s v.point v.init) s

/-- Tasks after a restart: none stopped, no overruns, the longest duration afresh (R392, R399, R420). -/
def freshTasks (s : State) : State :=
  forAll (upto 16) (fun s t => setTask s t { task s t with stopped := false, ovrRun := 0, acted := false, max := 0 }) s

/-- A timer that is not persistent is not running after a warm restart; IN_M keeps its restored value (R400). -/
def stopTimer (d : Tab Word) (i : Inst) : Tab Word :=
  if isTimer i.typ && !i.persist then
    let o := i.ofs + i.nIn
    let fl := tget (fun _ => 0) d (o + 4)
    workPut (workPut d o [0, 0]) (o + 4) [setBit fl 0 false]
  else d

/-- Instance data at a warm restart: initial values, retained words, then the timers' rule (R399, R400). -/
def warmTab (im : Image) (words : List Word) : Tab Word :=
  let d := ((retList im).zip words).foldl (fun d e => tset (fun _ => 0) d e.1 e.2) (restartTab im)
  im.insts.foldl stopTimer d

/-- A loop at a cold restart (R356). -/
def coldLoop (s : State) (n : Nat) : State :=
  let t := s.live
  let s := pset s (loopPt n 2) (w32 (fld (cfgL t n 0) 24 22))
  let s := pset s (loopPt n 0) (cfgL t n 0x5C)
  let s := pset s (loopPt n 1) (cfgL t n 0x38)
  setLoop s n { loopSt s n with init := true, own := false, fresh := true }

/-- A loop at a warm restart: its saved words, or initialisation where the configuration generation differs (R356). -/
def warmLoop (c : RetainCopy) (s : State) (n : Nat) : State :=
  match alook c.loops n with
  | none => coldLoop s n
  | some a =>
    let s := pset (pset (pset s (loopPt n 2) a.mode) (loopPt n 0) a.sp) (loopPt n 1) a.man
    let l := loopSt s n
    if c.gen = rfld s oLceCommitStatus 15 0 then
      setLoop s n { l with i := a.i, yf := a.yf, uach := a.uach, status := setFld l.status 14 12 a.region, init := a.init,
                           own := false, fresh := true }
    else setLoop s n { l with init := true, own := false, fresh := true }

/-- The state of a program that starts afresh: no cycle, no waiting firing. -/
def clearCycles (s : State) : State :=
  { s with ble := { s.ble with run := none, stack := [], wait := [], rewired := [] }, lce := { s.lce with run := none, wait := [] } }

/-- A cold restart (R356, R398). -/
def coldStart (s : State) (im : Image) : State :=
  let s := clearCycles { s with ble := { s.ble with data := restartTab im, lastMs := [] } }
  let s := freshTasks (initVars s im)
  forAll (enLoops s.live) coldLoop s

/-- A warm restart from a retained copy (R356, R399, R400). -/
def warmStart (s : State) (im : Image) (c : RetainCopy) : State :=
  let kinds := (upto im.insts.length).foldl (fun m k =>
    if ((im.insts[k]?).map Inst.retain).getD false then tset (fun _ => 0) m k 1 else m) []
  let s := clearCycles { s with ble := { s.ble with data := warmTab im c.words, lastMs := kinds } }
  let s := initVars s im
  let s := forAll ((retVars im).zip (c.words.drop (retList im).length)) (fun s e => pset s e.1 e.2) s
  let s := freshTasks s
  forAll (enLoops s.live) (warmLoop c) s

/-- Cause STOP as the controller now runs or not, a standby counting as running (R205). -/
def followStop (s : State) : State := if s.ble.running || isStandby s then allDrop s 5 else allCause s 5

/-- The controller runs from here: cause STOP is gone (R205), and a warm start is used where the retain area is valid
(R379). -/
def runController (s : State) (im : Image) (cold : Bool) : State :=
  let s := match (if cold then none else retainFor s im) with
    | some c => warmStart s im c
    | none => coldStart s im
  allDrop { s with ble := { s.ble with running := true, stopCause := 0 } } 5

end Sys2Proof.Machine
end

