-- ==== Sys2Proof/Machine/Online.lean ====
section
/-! DEFINITION. Online change: activation, the carry plan, the switch and its results (R421 to R448, R456, R457). -/

namespace Sys2Proof.Machine

/-! ### The carry plan (R432 to R440) -/

/-- A word to carry: its new index, its old index and the conversion (R425, R437). -/
structure Carry where
  dst : Nat
  src : Nat
  op : Nat
  typ : Nat
  deriving DecidableEq, Repr

/-- The instance of the old image that a new instance is matched with (R432). -/
def matchOf (old : Image) (i : Inst) : Option Inst := old.insts.find? (fun o => o.iid == i.iid && o.typ == i.typ)

/-- A type whose PARAM names the object or period its internal words refer to (R432). -/
def paramState (t : Nat) : Bool := t == 0x50 || t == 0x61 || t == 0x62 || t == 0x63 || t == 0x64

/-- Input `k` of instance `n` has a connection. -/
def connected (im : Image) (n k : Nat) : Bool := im.conns.any (fun c => c.dst == n && c.dstPin == k)

/-- The words carried by default for a matched instance `n` of the new image, by role (R432). -/
def defaultCarry (new : Image) (n : Nat) (i o : Inst) : List Carry :=
  let nOut := (sigOf i).outs.length
  let oOut := (sigOf o).outs.length
  let ins := (upto i.nIn).filterMap (fun k =>
    if k < o.nIn ∧ connected new n k then some ⟨i.ofs + k, o.ofs + k, 1, wordType i k⟩ else none)
  let outs := (upto (min nOut oOut)).map (fun k =>
    (⟨i.ofs + i.nIn + k, o.ofs + o.nIn + k, 1, wordType i (i.nIn + k)⟩ : Carry))
  let ints := if paramState i.typ && i.param != o.param then [] else
    (upto (sigOf i).ints.length).map (fun k =>
      (⟨i.ofs + i.nIn + nOut + k, o.ofs + o.nIn + oOut + k, 1, wordType i (i.nIn + nOut + k)⟩ : Carry))
  ins ++ outs ++ ints

/-- The instances of an image with their indices. -/
def indexed (im : Image) : List (Nat × Inst) := (upto im.insts.length).zip im.insts

/-- The default carry of every matched instance. -/
def defaultPlan (old new : Image) : List Carry :=
  (indexed new).flatMap (fun e => match matchOf old e.2 with
    | some o => defaultCarry new e.1 e.2 o
    | none => [])

/-- A conversion rule (R436). -/
structure Rule where
  newIid : Nat
  oldIid : Nat
  newWord : Nat
  oldWord : Nat
  op : Nat
  point : Nat
  reserved : Bool
  deriving DecidableEq, Repr

/-- The rules of an image. -/
def rulesOf (im : Image) : List Rule :=
  (entries 4 (im.rules.length / 4) im.rules).map (fun w =>
    let b := wAt w 2
    let c := wAt w 3
    { newIid := (wAt w 0).toNat, oldIid := (wAt w 1).toNat, newWord := fld b 7 0, oldWord := fld b 15 8, op := fld b 23 16,
      point := fld c 15 0, reserved := fld b 31 24 != 0 || fld c 31 16 != 0 })

/-- Source and destination types a conversion accepts (R437). -/
def convOk (op src dst : Nat) : Bool :=
  match op with
  | 0 => true
  | 1 => src == dst
  | 2 => src == 1 && dst == 3
  | 3 => src == 2 && dst == 3
  | 4 => src == 3 && dst == 1
  | 5 => src == 3 && dst == 2
  | 6 => src == 1 && dst == 2
  | 7 => src == 2 && dst == 1
  | 8 => src == 0 && (dst == 1 || dst == 2 || dst == 4 || dst == 3)
  | 9 => (src == 1 || src == 2 || src == 4) && dst == 0
  | _ => false

/-- What a conversion gives (R437). -/
def convWord (op typ : Nat) (v : Word) : Word :=
  match op with
  | 2 => fOfInt (sw v)
  | 3 => fOfNat v.toNat
  | 4 => wAt (realToInt v (-2 ^ 31) (2 ^ 31 - 1)) 0
  | 5 => wAt (realToInt v 0 (2 ^ 32 - 1)) 0
  | 6 => if sw v < 0 then 0 else v
  | 7 => if 0x7FFFFFFF < v.toNat then 0x7FFFFFFF else v
  | 8 => if typ = 3 then realB (v != 0) else boolW (v != 0)
  | 9 => boolW (v != 0)
  | _ => v

/-- Type of a word of an instance named by IID; none where it does not exist. -/
def iidWordType (im : Image) (iid w : Nat) : Option Nat :=
  (instById im iid).bind (fun i => if w < instWords i then some (wordType i w) else none)

/-- A rule is allowed (R438): an INIT rule of an instance need name no source (DEDUCED, log 35). -/
def ruleOk (old new : Image) (r : Rule) : Bool :=
  let srcDst : Option (Nat × Nat) :=
    if r.newIid = 0 then
      (if r.oldIid = 0 ∧ r.newWord = 0 ∧ r.oldWord = 0 then
        (match (varOf old r.point).map VarDef.typ, (varOf new r.point).map VarDef.typ with
         | some a, some b => some (a, b)
         | none, some b => if r.op = 0 then some (b, b) else none
         | _, none => none)
       else none)
    else if r.point ≠ 0 then none
    else
      (match iidWordType old r.oldIid r.oldWord, iidWordType new r.newIid r.newWord with
       | some a, some b => some (a, b)
       | none, some b => if r.op = 0 ∧ r.oldIid = 0 then some (b, b) else none
       | _, none => none)
  !r.reserved && (match srcDst with
    | some (a, b) => convOk r.op a b
    | none => false)

/-- Two rules name one destination. -/
def sameDest (a b : Rule) : Bool := a.newIid == b.newIid && a.newWord == b.newWord && a.point == b.point

/-- Every rule passes R438. -/
def rulesPass (old new : Image) : Bool :=
  let l := rulesOf new
  l.all (ruleOk old new) && (firstBadIn (fun seen r => seen.any (sameDest r)) l [] 0).isNone

/-- The carry of a rule for an instance word; none where it takes its initial value. -/
def ruleCarry (old new : Image) (r : Rule) : Option Carry :=
  match instById old r.oldIid, instById new r.newIid with
  | some o, some i => if r.op = 0 then none else some ⟨i.ofs + r.newWord, o.ofs + r.oldWord, r.op, wordType i r.newWord⟩
  | _, _ => none

/-- The destination of a rule for an instance word. -/
def ruleDest (new : Image) (r : Rule) : Option Nat := (instById new r.newIid).map (fun i => i.ofs + r.newWord)

/-- The carry plan: the defaults, replaced by the rules for the words they name (R425, R438). -/
def carryPlan (old new : Image) : List Carry :=
  let rs := (rulesOf new).filter (fun r => r.newIid != 0)
  let named := rs.filterMap (ruleDest new)
  (defaultPlan old new).filter (fun c => !named.contains c.dst) ++ rs.filterMap (ruleCarry old new)

/-- The new instance data as the switch fills it (R430 step 1). -/
def carriedData (d : Tab Word) (new : Image) (plan : List Carry) : Tab Word :=
  plan.foldl (fun m c => tset (fun _ => 0) m c.dst (convWord c.op c.typ (tget (fun _ => 0) d c.src))) (initTab new)

/-- The input pin a previous-input memory belongs to, the memories counted in table order; none for H_M, SEQ_M and CNT_M (R440). -/
def memPin (typ j : Nat) : Option Nat :=
  if typ = 0x50 ∨ typ = 0x62 ∨ typ = 0x63 then none
  else if typ = 0x40 then some j
  else if typ = 0x64 then some 18
  else if typ = 0x68 then some 5
  else some 0

/-- The source of an input: its IID and output role; none when unconnected (R440). -/
def sourceOf (im : Image) (n k : Nat) : Option (Nat × Nat) :=
  (im.conns.find? (fun c => c.dst == n && c.dstPin == k)).bind (fun c =>
    (im.insts[c.src]?).map (fun i => (i.iid, c.srcPin - i.nIn)))

/-- Memories of the new image to be loaded from their inputs at the first execution (R440). -/
def rewiredMems (old new : Image) : List (Nat × Nat × Nat) :=
  if !new.suppress then [] else
  (indexed new).flatMap (fun e =>
    match (indexed old).find? (fun o => o.2.iid == e.2.iid && o.2.typ == e.2.typ) with
    | none => []
    | some o =>
      let ms := memWords e.2
      (upto ms.length).filterMap (fun j => (memPin e.2.typ j).bind (fun pin =>
        if sourceOf new e.1 pin = sourceOf old o.1 pin then none else some (e.1, nAt ms j, pin))))

/-- How each instance was last executed, right after a switch: a matched one that had not been executed since a restart is as
it was (R400, R401, R439). -/
def switchKinds (last : Tab Nat) (old new : Image) : Tab Nat :=
  (indexed new).foldl (fun m e =>
    match (indexed old).find? (fun o => o.2.iid == e.2.iid && o.2.typ == e.2.typ) with
    | some o =>
      if e.2.typ = 0x50 ∧ e.2.param ≠ o.2.param then m
      else tset (fun _ => 0) m e.1 (min 2 (tget (fun _ => 0) last o.1))
    | none => m) []

/-- Matched, new, discarded and type-changed instances (R448; DEDUCED, log 36: each instance is counted once). -/
def switchCounts (old new : Image) : Nat × Nat × Nat × Nat :=
  let has := fun (im : Image) (i : Inst) => im.insts.any (fun o => o.iid == i.iid)
  ((new.insts.filter (fun i => (matchOf old i).isSome)).length, (new.insts.filter (fun i => !has old i)).length,
    (old.insts.filter (fun i => !has new i)).length,
    (new.insts.filter (fun i => has old i && (matchOf old i).isNone)).length)

/-! ### Variables and forces (R434, R456, R457) -/

/-- Program variables at a switch (R434, R437). -/
def carryVars (s : State) (old new : Image) : State :=
  let rs := (rulesOf new).filter (fun r => r.newIid == 0)
  let vals := new.vars.map (fun v =>
    let keep := match varOf old v.point with
      | some o => if o.typ = v.typ then pnat s v.point else v.init
      | none => v.init
    (v.point, match rs.find? (fun r => r.point == v.point) with
      | some r => if r.op = 0 then v.init else convWord r.op v.typ (pnat s v.point)
      | none => keep))
  let s := forAll old.vars (fun s v => if (varOf new v.point).isSome then s else pset s v.point 0) s
  forAll vals (fun s e => pset s e.1 e.2) s

/-- The pin a force names has its role and type in the new image; its number there (R456). -/
def pinInNew (old new : Image) (f : Force) : Option Nat :=
  match instById old f.obj, instById new f.obj with
  | some o, some i =>
    let pin := if f.pin < o.nIn then f.pin else i.nIn + (f.pin - o.nIn)
    let there := if f.pin < o.nIn then decide (f.pin < i.nIn) else decide (pin < i.nIn + (sigOf i).outs.length)
    if o.typ = i.typ ∧ there ∧ wordType i pin = f.typ then some pin else none
  | _, _ => none

/-- A force's object does not survive a switch (R456). -/
def forceDies (old new : Image) (f : Force) : Bool :=
  if f.kind = 1 then (pinInNew old new f).isNone
  else if 0x1800 ≤ f.obj then ((varOf new f.obj).map VarDef.typ) != some f.typ
  else false

/-- A force as it stands after a switch: on the pin of its role (R456). -/
def movedForce (old new : Image) (f : Force) : Force :=
  { f with pin := if f.kind = 1 then (pinInNew old new f).getD f.pin else f.pin }

/-- Forces at a switch: those without an object released, the others kept on the pin of their role; the standby's table
follows (R455, R457). -/
def switchForces (s : State) (old new : Image) : State :=
  let s := releaseForces s (forceDies old new) 0
  let moved := s.forces.filter (fun f => (movedForce old new f).pin != f.pin)
  let s := forAll moved (fun s f => noteForce s { f with kind := f.kind + 2 }) s
  let s := forAll moved (fun s f => noteForce s (movedForce old new f)) s
  { s with forces := s.forces.map (movedForce old new) }

/-! ### Results (R448, R536) -/

/-- A pending activation ends: its descriptor completes (R423, R536). -/
def endAct (s : State) (status : Nat) (r0 r1 detail : Word) : State :=
  match s.ble.act with
  | none => s
  | some a =>
    let s := { s with ble := { s.ble with act := none } }
    forAll (waitingRings s (fun f => opOf f == 0x32)) (fun s e =>
      if e.1 = a.ring then complete s e.1 e.2 status r0 r1 detail else s) s

/-- A pending activation ends with a result other than DONE and CANCELLED. -/
def failAct (s : State) (code : Nat) (extra : Word) : State := endAct s 0xD 0 0 (w32 code ||| extra)

/-- PHC fields of a SCHEDULE refusal (R536). -/
def schedDetail (code : Nat) (ctrl : Bool) (idx : Nat) : Word := w32 ((code <<< 8) + (ctrl.toNat <<< 12) + (idx <<< 16))

/-- The first failing condition of R424 for a new image, as a result code with PHC fields; none: accepted. -/
def actCheck (s : State) (sched : Bool) : Option (Nat × Word) :=
  match s.ble.inactive with
  | none => some (1, 0)
  | some new =>
    if s.ble.act.isSome then some (2, 0)
    else if new.insts.any (fun i => (blockWrites i).any (writeConflict s)) then some (3, 0)
    else
      let sch : Option Word :=
        if sched then (phcCheck s (some new)).map (fun r => schedDetail r.1 r.2.1 r.2.2)
        else (periodFault s.live new).map (fun n => schedDetail 7 false n)
      match sch with
      | some d => some (4, d)
      | none =>
        if !(match s.img with
             | some old => rulesPass old new
             | none => (rulesOf new).isEmpty) then some (5, 0)
        else if (s.twn.pair = 3 ∨ s.twn.pair = 4 ∨ s.twn.pair = 5) ∧ s.twn.role = 1 ∧
            (s.twn.pair = 5 ∨ s.twn.reason ≠ 0 ∨ s.twn.peerImage ≠ new.digest) then some (6, 0)
        else none

/-- The image in the inactive bank becomes the active one; the old one stays there (R379, R422). -/
def turnImage (s : State) (new : Image) : State := storeImage { s with img := some new, ble := { s.ble with inactive := s.img } }

/-- The ACTIVATED event (R448, R552). -/
def activated (s : State) (new : Image) (r0 r1 : Word) : State :=
  pushEv s 7 4 0 [new.programId, new.build, r0, r1] 5 0xFFFF true true

/-- What an activation reports: RESULT0, RESULT1 and the forces released; with no image active before, every instance is new
(R448, R536). -/
def actResults (old : Option Image) (new : Image) (gone : Nat) : Word × Word × Word :=
  let n := match old with
    | some o => switchCounts o new
    | none => (0, new.insts.length, 0, 0)
  (w32 (n.1 % 65536 + (n.2.1 % 65536) * 65536), w32 (n.2.2.1 % 65536 + (n.2.2.2 % 65536) * 65536), w32 gone)

/-- Activation while the controller is stopped: at once, instance data at its initial values until the restart (R379). -/
def activateStopped (s : State) (new : Image) (sched : Bool) : State × Word × Word × Word :=
  let before := s.forces.length
  let t := match s.img with
    | some old => carryVars (switchForces s old new) old { new with rules := [] }
    | none => initVars s new
  let r := actResults s.img new (before - t.forces.length)
  let t := { t with ble := { t.ble with data := initTab new, lastMs := [], rewired := [] } }
  let t := turnImage t new
  let t := if sched then phcLive t else t
  (activated (noteMirror t 5) new r.1 r.2.1, r)

/-- Phase units of the switch: 20 µs + 2 ns for each carried word (R427). -/
def switchUnits (s : State) (c : Nat) : Nat := ceilDiv ((20000 + 2 * c) * s.phc.freq * 4096) 10000000000000

/-- No firing of an enabled BLE_TASK entry of a table falls within the next `n` units, the present one included. -/
def noTaskFiring (s : State) (t : Tab Word) (n : Nat) : Bool :=
  (schedList t).all (fun k =>
    !(entryEn t k && entryAction t k == 3 && entryPeriod t k != 0) ||
    decide ((n : Int) < ((entryOffset t k : Int) - absA s) % (entryPeriod t k * 2048 : Nat)))

/-- The switch can begin at this phase unit (R428). -/
def windowOpen (s : State) (a : Activation) (c : Nat) : Bool :=
  a.built && decide (absA s ≤ a.builtAt + 256 * 4096) && s.ble.run.isNone && s.ble.stack.isEmpty && s.ble.wait.isEmpty && s.ble.saving.isNone && s.ble.running &&
  noTaskFiring s s.live (switchUnits s c) && (!a.schedWith || noTaskFiring s s.regs (switchUnits s c))

/-- The switch itself, made as one step at its phase unit (R430, R441, R443; DESIGN CHOICE, log 34). -/
def makeSwitch (s : State) (a : Activation) (old new : Image) : State :=
  let before := s.forces.length
  let data := carriedData s.ble.data new (carryPlan old new)
  let s := switchForces s old new
  let r := actResults (some old) new (before - s.forces.length)
  let s := carryVars s old new
  let s := { s with ble := { s.ble with data := data, lastMs := switchKinds s.ble.lastMs old new, rewired := rewiredMems old new } }
  let s := { s with ble := { s.ble with switchSave := true, dirty := upto new.dataWords } }
  let s := forAll (upto 16) (fun s t => setTask s t { task s t with ovrRun := 0, acted := false }) s
  let s := turnImage s new
  let s := if a.schedWith then phcLive s else s
  let s := activated (noteMirror s 5) new r.1 r.2.1
  endAct s 0 r.1 r.2.1 r.2.2

/-! ### The commands -/

/-- ONLINE_BUILD_COMPLETE (R425). -/
def execOnlineBuildComplete (s : State) : Host.Outcome State Fault Refusal :=
  done s (match s.ble.act with
    | some a => if a.built then s else { s with ble := { s.ble with act := some { a with built := true, builtAt := absA s } } }
    | none => s)

/-- ONLINE_SWITCH (R428, R430, R431, R444, R445). -/
def execOnlineSwitch (poisoned : Option Nat) (s : State) : Host.Outcome State Fault Refusal :=
  done s (
    match s.ble.act, s.img, s.ble.inactive with
    | some a, some old, some new =>
      if !windowOpen s a (carryPlan old new).length then s else
      match (if a.schedWith then phcCheck s (some new) else none) with
      | some (code, ctrl, idx) => failAct s 4 (schedDetail code ctrl idx)
      | none =>
        match poisoned with
        | some i => failAct (stopCtl (poison s 0xB) 6 0) 0xA (w32 ((i % 65536) * 65536))
        | none => makeSwitch s a old new
    | _, _, _ => s)

/-- NO_WINDOW (R429). -/
def execNoWindow (s : State) : Host.Outcome State Fault Refusal :=
  done s (match s.ble.act with
    | some a => if a.built && decide (a.builtAt + 256 * 4096 < absA s) then failAct s 9 0 else s
    | none => s)

end Sys2Proof.Machine
end

