-- ==== Sys2Proof/Machine/Twin.lean ====
section
/-! DEFINITION. The pair: state frames and rally, synchronisation, misses and the declaration of failure, takeover, planned
handoffs, the full copy, self-tests and heartbeats (R459 to R498, R606). -/

namespace Sys2Proof.Machine

/-! ### What a frame carries (R471, R472) -/

/-- An item as the words of a frame, for its size and its CRC (R471 and R472 state no layout; DESIGN CHOICE, log 37). -/
def itemWords : CopyItem → List Word
  | .data k v => [w32 k, v]
  | .var id v => [w32 (id + (1 <<< 24)), v]
  | .loop n mode sp man i yf ua h st gen tot cnt init =>
    [w32 (n + (2 <<< 24)), mode, sp, man, i, yf, ua, w32 h, st, w32 (gen + 65536 * init.toNat), tot, cnt]
  | .output c v => [w32 (c + (3 <<< 24)), v]
  | .rio n w => w32 (n + (4 <<< 24)) :: w
  | .input c v d => [w32 (c + (5 <<< 24)), v, d]
  | .count c v ts => [w32 (c + (6 <<< 24)), v, w32 ts, w32 (ts >>> 32)]
  | .force k o p t v q ts => [w32 (k + (7 <<< 24)), w32 o, w32 p, w32 t, v, w32 q, w32 ts, w32 (ts >>> 32)]
  | .unforce k o p => [w32 (k + (8 <<< 24)), w32 o, w32 p]
  | .forceClear => [w32 (9 <<< 24)]
  | .ring n q => [w32 (n + (10 <<< 24)), q]
  | .retain q c => [w32 (11 <<< 24), q, c]
  | .mirror b g w => w32 (b + (12 <<< 24)) :: w32 g :: w.flatMap (fun e => [w32 e.1, e.2])
  | .ctl r c => [w32 (c + (13 <<< 24)), boolW r]
  | .image len ofs b => w32 (len + (14 <<< 24)) :: w32 ofs :: bytesWords b
  | .switched d w => w32 (15 <<< 24) :: bytesWords d ++ w
  | .active b => w32 (16 <<< 24) :: bytesWords b
  | .retainCopy q id n t w => w32 (17 <<< 24) :: q :: bytesWords id ++ [w32 n, w32 t] ++ w

/-- Bytes of an item in a frame. -/
def itemSize (i : CopyItem) : Nat := 4 * (itemWords i).length

/-- The items that fit into the rest of a frame (R472). -/
def fitItems : Nat → List CopyItem → List CopyItem
  | _, [] => []
  | room, i :: r => if itemSize i ≤ room then i :: fitItems (room - itemSize i) r else []

/-- A force as an item. -/
def forceItem (f : Force) : CopyItem :=
  if f.kind < 2 then .force f.kind f.obj f.pin f.typ f.val f.part f.ts else .unforce (f.kind - 2) f.obj f.pin

/-- A loop's words as an item (R357). -/
def loopItem (s : State) (n : Nat) : CopyItem :=
  let l := loopSt s n
  .loop n (pnat s (loopPt n 2)) (pnat s (loopPt n 0)) (pnat s (loopPt n 1)) l.i l.yf l.uach l.hlast l.status
    (rfld s oLceCommitStatus 15 0) l.satTot l.satCnt l.init

/-- The live words of a staged set. -/
def setWords (t : Tab Word) (p : Nat → Bool) : List (Nat × Word) := t.filter (fun e => p e.1)

/-- A mirrored block as an item (R478). -/
def mirrorItem (s : State) (blk : Nat) : List CopyItem :=
  match blk with
  | 0 => [.mirror 0 0 [(oStartCfg, rget s oStartCfg)]]
  | 2 => [.mirror 2 (rfld s oPhcCommitStatus 15 0) (setWords s.live inPhcSet)]
  | 4 => [.mirror 4 (rfld s oLceCommitStatus 15 0) (setWords s.live inLceSet)]
  | 5 => (match s.img with
    | some im => [.switched im.digest ((upto im.dataWords).map (dget s))]
    | none => [])
  | 7 => [.mirror 7 0 [(oTwnCtrl, rget s oTwnCtrl), (oTwnRevert, rget s oTwnRevert)]]
  | b => [.mirror b (rfld s (oBank (b - 16) + 0xC) 15 0) (setWords s.live (inBankSet (b - 16)))]

/-- The latest retain save (R394). -/
def latestSave (s : State) : Option RetainCopy := if latestIsA s then s.ble.retA else s.ble.retB

/-- The retain checksum of the latest save (R471). -/
def retainItem (s : State) : List CopyItem :=
  match latestSave s with
  | some c => [.retain c.seq (crcWords c.words)]
  | none => []

/-- Committed outputs, remote outputs and field inputs (R471). -/
def fieldItems (s : State) : List CopyItem :=
  (upto 192).flatMap (fun c =>
    let m := chMode s c
    if isOutMode m then [.output c (pnat s c)] else []) ++
  s.eth.rio.map (fun e => .rio e.1 e.2.output) ++
  (upto 192).flatMap (fun c =>
    let m := chMode s c
    if isHolderOnly m then [.input c (pnat s c) (chan s c).diag]
    else if m = 2 then [.count c (pnat s c) (tsOf s.phc.flags (chan s c).batchA)] else [])

/-- The enabled command pairs with their committed sequence numbers (R471). -/
def ringItems (s : State) : List CopyItem :=
  s.rings.filterMap (fun e => if e.2.enabled && !isEventPair s e.1 then some (.ring e.1 e.2.committed) else none)

/-- The content of the sample's frame, in the order of R471's table; whether the controller runs rides with the rally
(DEDUCED, log 38). -/
def frameItems (s : State) : List CopyItem :=
  (if s.twn.tripped then [] else [CopyItem.ctl s.ble.running s.ble.stopCause]) ++
  s.ble.dirty.map (fun k => .data k (dget s k)) ++ s.ble.dirtyVars.map (fun id => .var id (pnat s id)) ++
  s.lce.sent.map (loopItem s) ++ fieldItems s ++ s.twn.forceSent.map forceItem ++ ringItems s ++ retainItem s ++
  s.twn.mirror.flatMap (mirrorItem s)

/-- The next piece of an image that is being carried to the standby, as far as there is room for it (R446, R472). -/
def loadPiece (s : State) (room : Nat) : Option CopyItem :=
  match s.twn.loadOut, s.ble.inactive with
  | some o, some im => if 12 ≤ room then some (.image im.bytes.length o ((im.bytes.drop o).take ((room - 8) / 4 * 4))) else none
  | _, _ => none

/-- How much of the image has been carried once a piece has gone out; none when it is all. -/
def afterPiece (o : Option Nat) (p : Option CopyItem) : Option Nat :=
  match p with
  | some (.image len ofs b) => if ofs + b.length < len then some (ofs + b.length) else none
  | _ => o

/-- The holder sends a state frame: the lease stands at 3 again, and what it carried is no longer owed (R463, R471, R472). -/
def sendState (s : State) (final : Bool) : State :=
  let all := frameItems s
  let fits := fitItems (98304 - 64) all
  let excess := fits.length != all.length
  let piece := if excess then none else loadPiece s (98304 - 64 - (fits.map itemSize).sum)
  let items := fits ++ piece.toList
  let w := s.twn
  let d := (s.img.map Image.digest).getD []
  let head := [w32 w.verUsed, w.seqTx + 1, w32 (nowTs s), w32 (nowTs s >>> 32), w32 (absA s / 2048), w32 w.pair, w.own,
    w32 ((w.plan.map Plan.at_).getD 0)] ++ bytesWords d
  let s := emit s (.stateFrame w.verUsed (w.seqTx + 1) (nowTs s) (absA s / 2048) w.pair w.own.toNat (w.plan.map Plan.at_) final
    excess d items (crcWords (head ++ items.flatMap itemWords)))
  { s with
    twn := { w with seqTx := w.seqTx + 1, lease := 3, forceSent := [], mirror := [], loadOut := afterPiece w.loadOut piece },
    ble := { s.ble with dirty := [], dirtyVars := [] }, lce := { s.lce with sent := [] } }

/-- A sample instant: the holder sends its frame; both modules remember it for their checks (R464, R471, R474). -/
def sampleNow (s : State) : State :=
  if !onTwin s then s else
    let s := { s with twn := { s.twn with sampleA := absA s } }
    if s.twn.role = 1 && s.base.holdOut then sendState s false else s

/-- TWN_SAMPLE (R471): default samples are taken in place of the firings while no entry of PERIOD 1 is enabled (R464). -/
def execTwnSample (n : Fin 1024) (s : State) : Host.Outcome State Fault Refusal :=
  let c := dueCommits s
  done s (match fireEntry c n 6 with
    | some (_, t) => if hasSample t.live then sampleNow t else t
    | none => c)

/-- DEFAULT_SAMPLE (R464). -/
def execDefaultSample (s : State) : Host.Outcome State Fault Refusal :=
  let c := dueCommits s
  done s (if clockRuns c && !hasSample c.live && absA c % 2048 == 0 then sampleNow c else c)

/-! ### Synchronisation (R468) -/

/-- The first failing condition of R468 of a standby, in the order of its table; 0 when synchronised. -/
def syncReason (s : State) : Nat :=
  let w := s.twn
  if w.partner ≠ 1 then 1
  else if !w.tlUp then 2
  else if w.verUsed = 0 then 3
  else if bitOf w.own 7 then 4
  else if !oneSample s.live then 5
  else if s.img.map Image.digest != (if w.peerImage.isEmpty then none else some w.peerImage) then 6
  else if !w.copied then 7
  else if !w.clockOk then 8
  else if !w.frameOk then 9
  else if (match w.retain, s.ble.saving.orElse (fun _ => latestSave s) with
      | some (q, c), some r => !(r.seq == q && crcWords r.words == c)
      | some _, none => true
      | none, _ => false) then 10
  else 0

/-- A standby's reason follows its conditions; a loss asks for a new full copy (R468, R469). -/
def updateSync (s : State) : State :=
  if s.twn.role ≠ 2 then refreshPair s else
    let old := s.twn.reason
    let r := syncReason s
    let s := { s with twn := { s.twn with reason := r } }
    let s := if r ≠ 0 ∧ old = 0 then twnEvent { s with twn := { s.twn with copied := false, asked := false } } 5
      else if r = 0 ∧ old ≠ 0 then twnEvent s 6 else s
    refreshPair s

/-- TWN_HEALTH.PEER takes a value (R481, R497). -/
def putPeer (s : State) (h : Word) : State :=
  if s.twn.peer = h then s else healthEvent { s with twn := { s.twn with peer := h } }

/-! ### Applying what arrives (R473, R478) -/

/-- A staged set as it arrives in a mirrored commit: the shadows are overwritten (R478). -/
def putShadow (s : State) (p : Nat → Bool) (ws : List (Nat × Word)) : State :=
  { s with regs := (ws.filter (fun e => p e.1)).foldl (fun m e => tset regReset m e.1 e.2) (s.regs.filter (fun e => !p e.1)) }

/-- APPLIED_GEN of a mirrored block. -/
def putGen (s : State) (off gen : Nat) : State := rset s off (w32 (gen % 65536))

/-- A mirrored commit becomes live on receipt, with the same APPLIED_GEN (R478). -/
def applyMirror (s : State) (blk gen : Nat) (ws : List (Nat × Word)) : State :=
  match blk with
  | 0 => forAll ws (fun s e => if e.1 = oStartCfg then rset s e.1 e.2 else s) s
  | 7 => refreshPair (forAll ws (fun s e => if e.1 = oTwnCtrl ∨ e.1 = oTwnRevert then rset s e.1 e.2 else s) s)
  | 2 => putGen (starvedCheck (phcApply (putShadow s inPhcSet ws))) oPhcCommitStatus gen
  | 4 =>
    let s := putShadow s inLceSet ws
    let s := putGen (lceApply s (s.regs.filter (fun e => inLceSet e.1))) oLceCommitStatus gen
    { s with lce := { s.lce with gen := gen % 65536 } }
  | b =>
    if 16 ≤ b ∧ b < 28 then
      putGen (bankApply (putShadow s (inBankSet (b - 16)) ws) (b - 16)) (oBank (b - 16) + 0xC) gen
    else s

/-- The forces without the one on an object. -/
def dropForce (l : List Force) (kind obj pin : Nat) : List Force :=
  l.filter (fun f => !(f.kind == kind && f.obj == obj && (kind == 0 || f.pin == pin)))

/-- The standby keeps a retain area like the holder's: a new save is written from its own copy of the data (R473). -/
def followSave (s : State) (seq : Word) : State :=
  match s.img with
  | none => s
  | some im =>
    let have_ := (s.ble.saving.orElse (fun _ => latestSave s)).map RetainCopy.seq
    if have_ = some seq then s
    else saveSat { s with ble := { s.ble with saving := some { saveCopy s im with seq := seq } } }

/-- A piece of an image from the holder; the whole image is taken into the inactive bank once it passes R376 (R446). -/
def takeInactive (s : State) (len ofs : Nat) (piece : List Nat) : State :=
  let got := if ofs = 0 then piece else if ofs = s.twn.loadIn.length then s.twn.loadIn ++ piece else s.twn.loadIn
  if got.length < len then { s with twn := { s.twn with loadIn := got } }
  else
    let s := { s with twn := { s.twn with loadIn := [] } }
    match imageCheck s got with
    | none => { s with ble := { s.ble with inactive := some (parseImage got) } }
    | some _ => s

/-- The standby's controller copies whether the holder's runs; a standby counts as running for cause STOP (R205, R473; log 38). -/
def followCtl (s : State) (running : Bool) (cause : Nat) : State :=
  { s with ble := { s.ble with running := running, stopCause := if running then 0 else cause } }

/-- The standby makes a switch of the holder's: its inactive image with that digest becomes the active one, with the instance
data of the carry plan's result and the memories still to be loaded (R440, R447). -/
def followSwitch (s : State) (digest : List Nat) (words : List Word) : State :=
  match s.ble.inactive with
  | some new =>
    if new.digest = digest ∧ s.img.map Image.digest ≠ some digest then
      let mems := match s.img with
        | some old => rewiredMems old new
        | none => []
      turnImage { s with ble := { s.ble with data := workPut [] 0 words, lastMs := [], rewired := mems } } new
    else s
  | none => s

/-- An instance data word arrives: its instance has been executed, so its memories have been loaded (R440, R473). -/
def takeData (s : State) (k : Nat) (v : Word) : State :=
  let own := fun (n : Nat) => ((s.img.bind (fun im => im.insts[n]?)).map (fun i => i.ofs ≤ k && k < i.ofs + instWords i)).getD false
  { s with ble := { s.ble with data := tset (fun _ => 0) s.ble.data k v, rewired := s.ble.rewired.filter (fun r => !own r.1) } }

/-- One item is applied (R473). -/
def applyItem (s : State) (i : CopyItem) : State :=
  match i with
  | .data k v => takeData s k v
  | .var id v => pset s id v
  | .loop n mode sp man i yf ua h st _ tot cnt init =>
    let s := pset (pset (pset (pset s (loopPt n 2) mode) (loopPt n 0) sp) (loopPt n 1) man) (loopPt n 5) st
    let l := loopSt s n
    let l := { l with i := i, yf := yf, uach := ua, hlast := h, status := st, satTot := tot, satCnt := cnt }
    setLoop (pset s (loopPt n 6) tot) n
      { l with init := init, own := init && bitOf st 6 && fld st 2 0 != 0, fresh := init && !(bitOf st 6 && fld st 2 0 != 0),
               ever := !init || fld st 31 16 != 0, used := [], lastH := if init then l.lastH else some h }
  | .output c v => pset s c v
  | .rio n w => { s with eth := { s.eth with rio := tset (fun _ => Rio.reset) s.eth.rio n { tget (fun _ => Rio.reset) s.eth.rio n with output := w } } }
  | .input c v d => { s with twn := { s.twn with ins := aset s.twn.ins c (v, d) } }
  | .count c v _ => { s with twn := { s.twn with counts := aset s.twn.counts c (v, pnat s c) } }
  | .force k o p t v q ts => { s with forces := dropForce s.forces k o p ++ [⟨k, o, p, t, v, q, ts⟩] }
  | .unforce k o p => { s with forces := dropForce s.forces k o p }
  | .forceClear => { s with forces := [] }
  | .ring n q => { s with twn := { s.twn with ringPos := aset s.twn.ringPos n q } }
  | .retain q c => followSave { s with twn := { s.twn with retain := some (q, c) } } q
  | .mirror b g w => applyMirror s b g w
  | .ctl r c => followCtl s r c
  | .image len ofs b => takeInactive s len ofs b
  | .switched d w => followSwitch s d w
  | .active b =>
    let im := parseImage b
    storeImage { s with img := some im, ble := { s.ble with data := initTab im, lastMs := [], rewired := [] } }
  | .retainCopy q id n t w =>
    { s with ble := { s.ble with retA := some ⟨q, id, n, t, w, rfld s oLceCommitStatus 15 0, loopArea s⟩, retB := none, saving := none } }

/-- The standby's banks get the committed outputs as preload frames (R473). -/
def preload (s : State) (items : List CopyItem) : State :=
  let outs := items.filterMap (fun i => match i with
    | .output c _ => some c
    | _ => none)
  forAll (upto 12) (fun s b => if outs.any (fun c => c / 16 == b) then sendOutput s b [] else s) s

/-- The rally frame a standby sends (R473). -/
def sendRally (s : State) (copy back : Bool) : State :=
  emit s (.rallyFrame s.twn.pair s.twn.reason s.twn.own.toNat copy back ((s.ble.inactive.map Image.digest).getD []))

/-! ### Taking and losing the ball (R459, R482 to R489) -/

/-- The hardware grants a request for the ball: HOLD_IN is not asserted, the lease has not expired, the module may hold it, and
slot B loses a tie (R459, R463). -/
def grants (s : State) (tie : Bool) : Bool :=
  seatedNow s && !haltedMod s && s.clk.alive && s.clk.resetWait.isNone &&
  (!onTwin s || (!s.base.holdIn && !s.twn.leaseExp && !(tie && s.base.slot == 2)))

/-- A holder-only input at a takeover: the value and band of the last frame's, TRANSITIONAL set (R486). -/
def takeInput (s : State) (c : Nat) : State :=
  if !isHolderOnly (chMode s c) then s else
    match alook s.twn.ins c with
    | some (v, d) => pset (putDiag s c (setBit (setFld (chan s c).diag 19 17 (fld d 19 17)) 20 true)) c v
    | none => putDiag s c (setBit (chan s c).diag 20 true)

/-- Presets of bank `b`'s counting inputs: the holder's count plus the edges this module's bank has counted since (R487). -/
def countPresets (s : State) (b : Nat) : List (Nat × Word) :=
  (upto 16).filterMap (fun i =>
    let c := 16 * b + i
    if chMode s c ≠ 2 then none else
      (alook s.twn.counts c).map (fun p => (i, p.1 + (w32 (chan s c).count - p.2))))

/-- The command pairs a takeover repositions, with their D_n (R580). -/
def takenRings (s : State) : List (Nat × Word) :=
  s.twn.ringPos.filter (fun e => (ring s e.1).enabled && !isEventPair s e.1)

/-- HANDOFF records of a set of rings (R553). -/
def handoffRecords (s : State) (l : List (Nat × Word)) (cause : Nat) (taken : Bool) : State :=
  forAll l (fun s e =>
    let last := l.getLast?.map Prod.fst == some e.1
    pushEv s 3 1 (ringPart s e.1) [w32 cause, w32 (taken.toNat + 2 * last.toNat), w32 e.1, e.2] 7 e.1 true false) s

/-- Every instance of the active image as after a restart that restored its words: what it measured time by was the other
module's (R401, R482; log 147). -/
def resumeKinds (s : State) : Tab Nat :=
  (upto ((s.img.map (fun im => im.insts.length)).getD 0)).foldl (fun m k => tset (fun _ => 0) m k 1) []

/-- The effects of a takeover: the field paths, the counts, the rings and the host's events (R482, R485 to R489, R580). The count
of the time event of R119 is this module's own pending timed actions, since no frame carries the old holder's (DESIGN CHOICE,
log 148). -/
def takeover (s : State) (cause start : Nat) (planned : Bool) : State :=
  let s := setHold s true s.base.holdIn
  let w := { s.twn with role := 1, partner := if planned then 2 else 0, cause := cause, count := (s.twn.count + 1) % 65536 }
  let w := { w with lastTs := nowTs s, lease := 3, from_ := start, senseOpen := false, transA := absA s + unitsOfUs s 200 }
  let w := { w with plan := none, reason := 1, isolated := false, copied := false, tripped := false }
  let w := { w with tripAt := if cause = 5 then some s.up else w.tripAt }
  let s := { s with twn := w, ble := { s.ble with dirty := [], dirtyVars := [], lastMs := resumeKinds s } }
  let s := followStop { s with phc := { s.phc with steer := if s.phc.st = 4 then s.phc.steer else 0 } }
  let s := forAll (upto 192) takeInput s
  let s := forAll (upto 12) (fun s b =>
    let p := countPresets s b
    if p.isEmpty then s else sendOutput s b p) s
  let rs := takenRings s
  let s := forAll rs (fun s e => modRing (haltRing s e.1) e.1 (fun r => { r with committed := e.2 })) s
  let s := handoffRecords s rs cause true
  let s := timeEvent s 3 (w32 s.phc.timed.length) false
  let s := { s with phc := { s.phc with timed := [] } }
  refreshPair (twnEvent s 0)

/-- What a module that loses the ball while running ends: its pending activation and timed actions, and its CAN
transmissions (R119, R447, R489, R641). -/
def ballLost (s : State) (cause : Nat) : State :=
  let s := canBallLost s
  let s := failAct s 8 0
  let s := completeAll { s with phc := { s.phc with timed := [] } } (fun f => opOf f == 0x40) 0x14 0 0 0
  let rs := s.rings.filterMap (fun e => if e.2.enabled && !isEventPair s e.1 then some (e.1, e.2.committed) else none)
  let s := handoffRecords (twnEvent s 1) rs cause false
  let w := { s.twn with role := 2, partner := 1, plan := none, copied := false, asked := false, reason := 1 }
  let w := { w with seqRx := none, frameOk := true, clockOk := false, retain := none }
  let b := { s.ble with wait := [], run := none, stack := [] }
  updateSync (followStop { s with twn := w, lce := { s.lce with wait := [], run := none }, ble := b })

/-- An unsynchronised take: the banks in their safe state, and a restart as if there were no partner (R149, R496). -/
def unsyncTake (s : State) : State :=
  let s := takeover { s with ble := { s.ble with running := false, stopCause := 1 } } 6 (absA s) false
  match s.img with
  | none => s
  | some im =>
    match rfld s oStartCfg 1 0 with
    | 0 => runController s im false
    | 1 => runController s im true
    | _ => s

/-- A refused request after a declaration: ISOLATED (R483). -/
def goIsolated (s : State) : State := refreshPair (twnEvent { s with twn := { s.twn with isolated := true } } 8)

/-- Loads that wait for the standby's copy complete (R446, R535). -/
def endLoads (s : State) (im : Image) : State := completeAll s (fun f => opOf f == 0x31) 0 im.programId im.build 0

/-- The partner is gone: a load no longer waits for it (R446). -/
def partnerGone (s : State) : State :=
  match s.ble.inactive with
  | some im => endLoads s im
  | none => s

/-- The declaration that the holder has failed, and what the standby then does (R476, R482, R483, R496). -/
def declareFailed (s : State) : State :=
  let synced := s.twn.reason == 0
  let s := twnEvent { s with twn := { s.twn with partner := 0 } } 2
  if bitOf s.twn.own 7 then updateSync s
  else if synced then
    (if grants s false then takeover s 1 (absA s + 64) false else goIsolated (updateSync s))
  else if bitOf (rget s oTwnCtrl) 1 then
    (if grants s false then unsyncTake s else goIsolated (updateSync s))
  else updateSync s

/-- Both rally paths have at least four misses: failure is declared once, or the holder is alone (R476, R477). -/
def declareCheck (s : State) : State :=
  let w := s.twn
  if w.tlMiss < 4 ∨ w.flMiss < 4 then s
  else if w.role = 2 ∧ w.partner = 1 ∧ !w.isolated then declareFailed s
  else if w.role = 1 ∧ w.partner ≠ 0 then
    partnerGone (refreshPair (twnEvent { s with twn := { w with partner := 0, reason := 1 } } 2))
  else s

/-- The alarm of a path, once for each run of at least four misses on it while the other path is good (R476). -/
def pathAlarm (s : State) (tl : Bool) : State :=
  let w := s.twn
  if tl then
    (if 4 ≤ w.tlMiss ∧ w.flMiss = 0 ∧ !w.alarmTl then twnEvent { s with twn := { w with alarmTl := true } } 3 else s)
  else if 4 ≤ w.flMiss ∧ w.tlMiss = 0 ∧ !w.alarmFl then twnEvent { s with twn := { w with alarmFl := true } } 4
  else s

/-- A valid frame of the partner ends the path's run of misses (R474, R475). -/
def goodTl (w : Twn) : Twn := { w with tlMiss := 0, alarmTl := false }

/-- The same on the Fieldlink path. -/
def goodFl (w : Twn) : Twn := { w with flMiss := 0, alarmFl := false, flUp := true }

/-- A Twinlink miss (R474, R476). -/
def missTl (s : State) : State :=
  let w := s.twn
  pathAlarm { s with twn := { w with tlMiss := min 7 (w.tlMiss + 1), tlMissTot := (w.tlMissTot + 1) % 65536 } } true

/-- A Fieldlink miss (R475, R476). -/
def missFl (s : State) : State :=
  let w := s.twn
  pathAlarm { s with twn := { w with flMiss := min 7 (w.flMiss + 1), flMissTot := (w.flMissTot + 1) % 65536, flUp := false } } false

/-- TWINLINK_CHECK (R474, R477). -/
def execTwinlinkCheck (s : State) : Host.Outcome State Fault Refusal :=
  done s (
    if onTwin s && clockRuns s && s.twn.role != 0 && absA s == s.twn.sampleA + 256 &&
        s.twn.tlHalf != some (s.twn.sampleA / 2048) then
      updateSync (declareCheck (missTl s))
    else s)

/-- FIELDLINK_MISS (R475, R477). -/
def execFieldlinkMiss (s : State) : Host.Outcome State Fault Refusal :=
  done s (if onTwin s && s.twn.role != 0 then updateSync (declareCheck (missFl s)) else s)

/-- TWINLINK_LINK_DOWN (R30). -/
def execTwinlinkLinkDown (up : Bool) (s : State) : Host.Outcome State Fault Refusal :=
  done s (if onTwin s then updateSync { s with twn := { s.twn with tlUp := up } } else s)

/-- BALL_REQUEST (R459, R466, R490). -/
def execBallRequest (tie : Bool) (s : State) : Host.Outcome State Fault Refusal :=
  done s (
    if s.base.holdOut || !grants s tie then s
    else if s.twn.role = 1 then setHold s true s.base.holdIn
    else if s.twn.role = 2 then
      match s.twn.plan with
      | some p => if p.out && !bitOf s.twn.own 7 then takeover s p.cause (p.at_ * 4096 + 256) true else s
      | none => if s.twn.partner ≠ 1 && bitOf (rget s oTwnCtrl) 1 && !bitOf s.twn.own 7 && !s.twn.isolated then unsyncTake s else s
    else s)

/-- A planned handoff has been completed: HANDOFF_REQ completes with the boundary's timestamp (R541). -/
def handedOver (s : State) (p : Plan) : State :=
  let ts := tsOf s.phc.flags (p.at_ * 4096)
  let s := match p.ring with
    | some n => forAll (waitingRings s (fun f => opOf f == 0x41)) (fun s e =>
        if e.1 = n then completeTs s e.1 e.2 ts else s) s
    | none => s
  let s := ballLost s p.cause
  if s.upd.leaving ≠ 0 ∧ p.ring.isNone = true then updReset s else s

/-- HOLD_LINE_CHANGE (R459, R460, R489). -/
def execHoldLineChange (level : Bool) (s : State) : Host.Outcome State Fault Refusal :=
  done s (
    if !onTwin s then s else
      let held := s.base.holdOut
      let s := setHold s (s.base.holdOut && !level) level
      if level && s.twn.role = 1 then
        match s.twn.plan with
        | some p => if p.out then handedOver s p else if held then ballLost s 0 else s
        | none => if held then ballLost s 0 else s
      else s)

/-- LEASE_EXPIRY (R463): the lease counter stands at 0. -/
def execLeaseExpiry (s : State) : Host.Outcome State Fault Refusal :=
  done s (
    if onTwin s && s.base.holdOut && s.phc.fire && s.twn.lease == 0 then
      let s := setHold { s with twn := { s.twn with leaseExp := true } } false s.base.holdIn
      ballLost s 0
    else s)

/-- SENSE_PATH_OPEN (R485). -/
def execSensePathOpen (s : State) : Host.Outcome State Fault Refusal :=
  done s (if onTwin s && !s.base.holdOut then { s with twn := { s.twn with senseOpen := true } } else s)

/-! ### Frames -/

/-- The standby's clock is neither LOCKED nor SYNTH_STEERED: its cycle is made shorter or longer than its own rate gives, toward
the holder's boundaries, by a free amount of at most 500 ppm, never by a step (R470). -/
def steerPair (s : State) (lag : Int) : State :=
  if s.phc.st = 1 ∨ s.phc.st = 4 ∨ s.phc.freq = 0 then s
  else if lag = 0 then { s with phc := { s.phc with steer := 0 } }
  else
    let (k, s) := takeFree s
    let d : Int := (min (Config.pairSteer k) (10 ^ 13 / s.phc.freq * 500 / 1000500) : Nat)
    { s with phc := { s.phc with steer := if 0 < lag then -d else d } }

/-- A current or voltage output of this module measures otherwise than the holder's value by more than 2 % of range (R480). -/
def disagrees (s : State) (c : Nat) : Bool :=
  let m := chMode s c
  (m == 8 && flt (dec 4 10) (fabs (fsub (chan s c).sig (outWord s c)))) ||
  (m == 0xA && flt (dec 2 10) (fabs (fsub (chan s c).sig (outWord s c))))

/-- Since when a terminal has disagreed (R480). -/
def notePlaus (s : State) : State :=
  let bad := (upto 192).any (disagrees s)
  { s with twn := { s.twn with plausAt := if bad then some (s.twn.plausAt.getD s.up) else none } }

/-- The items of a frame in the order they are applied: a switch of the image comes first (R447). -/
def switchFirst (l : List CopyItem) : List CopyItem :=
  let sw := fun (i : CopyItem) => match i with
    | .switched _ _ => true
    | _ => false
  l.filter sw ++ l.filter (fun i => !sw i)

/-- A state frame fails its check: poisoned, not applied, the miss of its sample, and the standby unsynchronised; it is answered
as any other (R473, R570). -/
def badFrame (s : State) : State :=
  let s := poison s 7
  let w := { s.twn with frameOk := false, tlHalf := some (s.twn.sampleA / 2048) }
  let s := updateSync (declareCheck (missTl { s with twn := w }))
  if s.twn.role = 2 then sendRally s false false else s

/-- What the pair's bookkeeping holds after a state frame (R469 to R473, R490). -/
def frameTwn (w : Twn) (seq : Word) (half : Nat) (plan : Option Plan) (excess : Bool) (digest : List Nat) (lag : Int)
    (items : List CopyItem) : Twn :=
  let missed := match w.seqRx with
    | some q => seq != q + 1
    | none => false
  let ok := w.frameOk && !missed && !excess
  let w := { goodTl w with tlHalf := some half, partner := 1, isolated := false, seqRx := some seq, frameOk := ok }
  let w := { w with during := if w.asked then w.during ++ items else [], clockOk := decide (lag.natAbs ≤ 128) }
  { w with peerImage := digest, ringPos := [], plan := plan }

/-- A valid state frame reaches the standby (R468, R470 to R473, R490). -/
def goodFrame (s : State) (seq : Word) (half : Nat) (health : Word) (plan : Option (Nat × Nat)) (final excess : Bool)
    (digest : List Nat) (lag : Int) (items : List CopyItem) : State :=
  let pl : Option Plan := plan.map (fun p => { at_ := p.1, cause := p.2, ring := none, req := 0, out := final })
  let s := { s with twn := frameTwn s.twn seq half pl excess digest lag items }
  let s := steerPair (putPeer s health) lag
  let s := notePlaus (preload (forAll (switchFirst items) applyItem s) items)
  let s := updateSync s
  let s := if final then
      match s.twn.plan with
      | some p => if grants s false && !bitOf s.twn.own 7 then takeover s p.cause (p.at_ * 4096 + 256) true else s
      | none => s
    else s
  if s.twn.role = 2 then sendRally s false false else s

/-- STATE_FRAME_RX (R471 to R473). -/
def execStateFrameRx (ok : Bool) (seq : Word) (_ts half : Nat) (health : BitVec 16) (plan : Option (Nat × Nat))
    (final excess : Bool) (digest : List Nat) (lag : Int) (items : List CopyItem) (s : State) : Host.Outcome State Fault Refusal :=
  done s (
    if !onTwin s || s.twn.role != 2 || !s.twn.tlUp then s
    else if !ok then badFrame s
    else goodFrame s seq half (w32 health.toNat) plan final excess digest lag items)

/-- The full copy a holder sends; with the active image where the standby lacks it (R469). -/
def copyItems (s : State) (image : Bool) : List CopyItem :=
  (match s.img with
    | some im => (if image then [CopyItem.active im.bytes] else []) ++ (upto im.dataWords).map (fun k => .data k (dget s k)) ++
        im.vars.map (fun v => .var v.point (pnat s v.point))
    | none => []) ++
  (s.lce.loops.map Prod.fst).map (loopItem s) ++ [.forceClear] ++ s.forces.map forceItem ++
  ([0, 2, 4, 7] ++ (upto 12).map (16 + ·)).flatMap (mirrorItem s) ++
  (match latestSave s with
    | some c => [.retainCopy c.seq c.id c.count c.optime c.words]
    | none => [])

/-- A window without LCE_PASS and BLE_TASK firings begins at the boundary of cycle `c` (R491). -/
def windowAt (s : State) (c : Nat) : Bool :=
  (schedList s.live).all (fun n =>
    !(entryEn s.live n && (entryAction s.live n == 2 || entryAction s.live n == 3) && entryPeriod s.live n != 0) ||
    decide (256 ≤ ((entryOffset s.live n : Int) - (c * 4096 : Nat)) % (entryPeriod s.live n * 2048 : Nat)))

/-- The first boundary of a request at cycle `req` from cycle `lo` on that lies within 16 cycles (R491). -/
def nextWindow (s : State) (req lo : Nat) : Option Nat :=
  ((upto 18).map (lo + ·)).find? (fun c => decide (c ≤ req + 16) && windowAt s c)

/-- The holder plans a handoff on a request by the standby or the host: the first boundary at least one cycle ahead (R491). -/
def planHandoff (s : State) (cause : Nat) (rg : Option Nat) : Option State :=
  let lo := s.phc.cycle + (if s.phc.phase = 0 then 1 else 2)
  (nextWindow s s.phc.cycle lo).map (fun c =>
    refreshPair { s with twn := { s.twn with plan := some { at_ := c, cause := cause, ring := rg, req := s.phc.cycle, out := false } } })

/-- The standby the holder sees is synchronised and free of unfit and degraded bits (R493, R494). -/
def standbyClean (s : State) : Bool :=
  s.twn.partner == 2 && s.twn.reason == 0 && !bitOf s.twn.peer 7 && !bitOf s.twn.peer 8

/-- The holder sends a full copy; an image whose load waits for the standby is carried again from its start (R446, R469). -/
def sendCopy (s : State) (image : Bool) : State :=
  let s := emit s (.fullCopy (copyItems s image))
  if (waitingRings s (fun f => opOf f == 0x31)).isEmpty then s else { s with twn := { s.twn with loadOut := some 0 } }

/-- A valid rally frame reaches the holder (R446, R469, R477, R493). -/
def goodRally (s : State) (pair reason : Nat) (health : Word) (copy back : Bool) (digest : List Nat) : State :=
  let w := { goodTl s.twn with tlHalf := some (s.twn.sampleA / 2048), partner := 2, reason := if pair = 4 then 0 else reason }
  let s := { s with twn := { w with peerImage := digest } }
  let s := refreshPair (putPeer s health)
  let s := if copy then sendCopy s (reason == 6) else s
  let s := match s.ble.inactive with
    | some im => if im.digest = digest then endLoads s im else s
    | none => s
  if back && s.twn.plan.isNone && standbyClean s then (planHandoff s 2 none).getD s else s

/-- RALLY_FRAME_RX (R473, R477). -/
def execRallyFrameRx (ok : Bool) (pair : Fin 8 × Fin 16) (health : BitVec 16) (copy back : Bool) (digest : List Nat) (s : State) :
    Host.Outcome State Fault Refusal :=
  done s (
    if !onTwin s || s.twn.role != 1 || !s.twn.tlUp then s
    else if !ok then
      let s := poison s 7
      updateSync (declareCheck (missTl { s with twn := { s.twn with tlHalf := some (s.twn.sampleA / 2048) } }))
    else goodRally s pair.1 pair.2 (w32 health.toNat) copy back digest)

/-- FULL_COPY_REQUEST (R469): conditions 0x1 to 0x5 hold, the image apart, which the copy brings. -/
def execFullCopyRequest (s : State) : Host.Outcome State Fault Refusal :=
  done s (
    if onTwin s && s.twn.role == 2 && !s.twn.copied && !s.twn.asked && !s.twn.tripped &&
        (syncReason s == 6 || syncReason s == 7) then
      sendRally { s with twn := { s.twn with asked := true, during := [] } } true false
    else s)

/-- FULL_COPY_COMPLETE (R469): the state frames that arrived meanwhile are applied on top of the copy. -/
def execFullCopyComplete (items : List CopyItem) (s : State) : Host.Outcome State Fault Refusal :=
  done s (
    if onTwin s && s.twn.role == 2 && s.twn.asked then
      let s := forAll (items ++ switchFirst s.twn.during) applyItem s
      updateSync { s with twn := { s.twn with copied := true, asked := false, frameOk := true, during := [] } }
    else s)

/-! ### Planned handoffs (R490 to R495) -/

/-- A task cycle is in progress (R491). -/
def taskBusy (s : State) : Bool := s.ble.run.isSome || !s.ble.stack.isEmpty

/-- A pass or a task cycle is in progress (R144). -/
def cycleBusy (s : State) : Bool := taskBusy s || s.lce.run.isSome

/-- A planned handoff is given up: HANDOFF_REQ completes with REFUSED and a code (R541). -/
def endPlan (s : State) (p : Plan) (code : Nat) : State :=
  let s := refreshPair { s with twn := { s.twn with plan := none } }
  match p.ring with
  | some n => forAll (waitingRings s (fun f => opOf f == 0x41)) (fun s e =>
      if e.1 = n then complete s e.1 e.2 0xD 0 0 (w32 code) else s) s
  | none => if s.upd.leaving ≠ 0 ∧ p.cause = 3 then leaveRefused s else s

/-- The boundary cannot be used because a task cycle is in progress: the next one, within 16 cycles of a request that needs
the window of R491. -/
def postpone (s : State) (p : Plan) : State :=
  if p.cause = 4 ∨ p.cause = 5 then { s with twn := { s.twn with plan := some { p with at_ := p.at_ + 1 } } }
  else match nextWindow s p.req (p.at_ + 1) with
    | some c => { s with twn := { s.twn with plan := some { p with at_ := c } } }
    | none => endPlan s p 2

/-- PLANNED_HANDOFF_BOUNDARY (R490, R491). -/
def execPlannedHandoffBoundary (s : State) : Host.Outcome State Fault Refusal :=
  done s (
    match s.twn.plan with
    | some p =>
      if s.twn.role = 1 && onTwin s && !p.out && s.base.holdOut && absA s == p.at_ * 4096 then
        if taskBusy s then postpone s p else
          let s := sendState s true
          let s := setHold { s with twn := { s.twn with plan := some { p with out := true } } } false s.base.holdIn
          refreshPair (canBallLost s)
      else s
    | none => s)

/-- HANDOFF_FAIL (R492): 512 units after the boundary the standby has not asserted its line. -/
def execHandoffFail (s : State) : Host.Outcome State Fault Refusal :=
  done s (
    match s.twn.plan with
    | some p =>
      if s.twn.role = 1 && p.out && !s.base.holdIn && grants s false && decide (p.at_ * 4096 + 512 ≤ absA s) then
        let s := setHold s true false
        let s := { s with twn := { s.twn with from_ := p.at_ * 4096 + 512, lease := 3 } }
        endPlan (twnEvent s 9) p 3
      else s
    | none => s)

/-- TAKEBACK (R493): the conditions have held for REVERT_S; the delay begins again, for the request may be refused. -/
def execTakeback (s : State) : Host.Outcome State Fault Refusal :=
  done s (
    match s.twn.backAt with
    | some t =>
      if backReady s && s.twn.plan.isNone && decide (t + rfld s oTwnRevert 11 0 * 1000000000 ≤ s.up) then
        sendRally { s with twn := { s.twn with backAt := some s.up } } false true
      else s
    | none => s)

/-! ### Self-tests (R480, R481) -/

/-- TWN_HEALTH.OWN with its summary bits (R498). -/
def withSummary (h : Word) : Word := setBit (setBit h 7 (bitOf h 0)) 8 (fld h 6 1 != 0)

/-- Where the scrub found an uncorrectable error outside the program's memory, the item is poisoned (R571). -/
def scrubItem (s : State) (place chunk : Nat) : State :=
  match place with
  | 1 => failAct { s with ble := { s.ble with inactive := none } } 1 0
  | 2 => { s with upd := { s.upd with chunks := s.upd.chunks.filter (fun e => e.1 != chunk) } }
  | _ => s

/-- Whether a test fails: PLAUS when a terminal has disagreed for 1 s, BANK when a bank's link is down or its field supply not
good; every other one as found (R480). -/
def testFails (s : State) (bit : Nat) (found : Bool) : Bool :=
  match bit with
  | 4 => (s.twn.plausAt.map (fun t => decide (t + 1000000000 ≤ s.up))).getD false
  | 6 => (upto 12).any (fun b => !((bank s b).linkUp && (bank s b).fsGood))
  | _ => found

/-- SELF_TEST (R480, R481): an unfit standby restarts itself with cause SUP_WDOG. -/
def execSelfTest (bit : Fin 7) (found : Bool) (place : Fin 3) (item : Nat) (s : State) : Host.Outcome State Fault Refusal :=
  done s (
    if !onTwin s || s.twn.role != 2 || !s.clk.alive then s else
      let fail := testFails s bit found
      let s := if bit.val == 0 && fail then scrubItem (poison s 4) place item else s
      let s := if bit.val == 2 then { s with twn := { s.twn with testing := some (item, absA s) } } else s
      let h := withSummary (setBit s.twn.own bit fail)
      let s := if h = s.twn.own then s else healthEvent { s with twn := { s.twn with own := h } }
      let s := updateSync s
      if bitOf s.twn.own 7 then holdReset s 5 else s)

/-! ### Heartbeats and negotiation (R466, R467, R475, R602 to R606) -/

/-- The version and the features common with a partner (R467). -/
def meetVersion (s : State) (verMin verMax : Nat) (features : BitVec 8) : State :=
  { s with twn := { s.twn with verUsed := if verMin ≤ 1 ∧ 1 ≤ verMax then 1 else 0,
                               features := (features &&& Config.twinFeatures).toNat } }

/-- A negotiation frame over both paths: 0 starting, 1 holding the ball, 2 standby (R466, R467, R604). -/
def sendNegotiate (s : State) (state : Nat) : State :=
  let s := emit s (.negotiate state s.phc.cycle 1 1 Config.twinFeatures)
  flSend s 2 7 0 flGroup ([state, 0, 0, 0] ++ leBytes 8 s.phc.cycle ++ [1, 1, 0, 0])

/-- HEARTBEAT_SEND (R475, R604). -/
def execHeartbeatSend (s : State) : Host.Outcome State Fault Refusal :=
  done s (
    if onTwin s && s.clk.alive && s.clk.resetWait.isNone then
      let h := s.twn.sampleA / 2048
      flSend s 1 7 0 flGroup (leBytes 8 h ++ [s.twn.pair, s.twn.role] ++ leBytes 2 s.twn.own.toNat ++ [0, 0, 0, 0])
    else s)

/-- A port's record of the partner's latest heartbeat (R601). -/
def noteHeartbeat (s : State) (port : Nat) : State :=
  modPort s port (fun e => { e with hbAt := some s.up })

/-- What a heartbeat or a negotiation frame tells of the partner (R466, R606). -/
def notePartner (s : State) (role : Nat) : State :=
  if s.twn.role = 0 then s else { s with twn := { s.twn with partner := if role = 0 then 3 else role } }

/-- A heartbeat of the partner is accepted (R475, R477, R606). -/
def acceptHeartbeat (s : State) (port role : Nat) (health : Word) : State :=
  let s := noteHeartbeat s port
  let s := notePartner { s with twn := { goodFl s.twn with isolated := false } } role
  updateSync (if s.twn.role = 0 then s else putPeer s health)

/-- A negotiation frame of the partner is accepted: the version and features in use follow, and a partner that is starting is
answered (R466, R467). -/
def acceptNegotiate (s : State) (n : Nat × Nat × BitVec 8) (role : Nat) : State :=
  let s := updateSync (notePartner (meetVersion s n.1 n.2.1 n.2.2) role)
  if role = 0 then sendNegotiate s s.twn.role else s

/-- HEARTBEAT_RX (R603, R606). -/
def execHeartbeatRx (port : Fin 2) (ok : Bool) (ver verMin verMax : Nat) (pairId : BitVec 16) (slot : Fin 4) (seq : Word)
    (negotiate : Option (Nat × Nat × BitVec 8)) (role : Fin 3) (health : BitVec 16) (s : State) : Host.Outcome State Fault Refusal :=
  done s (
    if !macValid s || !(eport s port).link || !macUp s port then s
    else if !ok || ver != 1 then flReject s
    else if pairId.toNat ≠ rfld s oFlCtrl 15 0 ∨ !onTwin s then s
    else if slot.val = s.base.slot then raiseBoth s oEthEvent 1
    else if slot.val + s.base.slot ≠ 3 then s
    else if s.eth.flRx = some seq then s
    else
      let e := { s.eth with flRx := some seq, partnerVer := if verMin ≤ 1 ∧ 1 ≤ verMax then 1 else 0 }
      match negotiate with
      | some n => acceptNegotiate { s with eth := e } n role
      | none => acceptHeartbeat { s with eth := e } port role (w32 health.toNat))

end Sys2Proof.Machine
end

