-- ==== Sys2Proof/Machine/Net.lean ====
section
/-! DEFINITION. Network time and its slave, links, and remote stations (R583, R600, R601, R607 to R622). -/

namespace Sys2Proof.Machine

/-! ### The states of network time (R617, R621) -/

/-- ETH_PTP_EVENT bits become set: a host event and a recorder event (R624). -/
def ptpEvent (s : State) (bit : Nat) : State := raiseBoth s oPtpEvent (oneBit bit)

/-- ETH_EVENT bits become set. -/
def ethEvent (s : State) (bit : Nat) : State := raiseBoth s oEthEvent (oneBit bit)

/-- Network time is locked (R617). -/
def netLocked (s : State) : Bool := s.ptp.st == 2

/-- A pending TIMED descriptor of a ring ends with a status (R117, R540). -/
def endTimed (s : State) (n status : Nat) : State :=
  forAll (waitingRings s (fun f => opOf f == 0x40)) (fun s e => if e.1 = n then complete s n e.2 status 0 0 0 else s) s

/-- Pending network-time targets not yet fixed are cancelled with LOST_NETTIME (R117). -/
def lostNettime (s : State) : State :=
  let gone := s.phc.timed.filter (fun t => t.net && !t.fixed)
  forAll gone (fun s t => endTimed s t.ring 0x12) { s with phc := { s.phc with timed := s.phc.timed.filter (fun t => !(t.net && !t.fixed)) } }

/-- Network time takes a state; on leaving LOCKED, UNLOCKED and the cancellation of R117. -/
def ptpState (s : State) (st : Nat) : State :=
  let was := s.ptp.st
  let s := { s with ptp := { s.ptp with st := st } }
  if was = 2 ∧ st ≠ 2 then lostNettime (ptpEvent s 1) else if was ≠ 2 ∧ st = 2 then ptpEvent s 0 else s

/-- A new acquisition (R617, R618). -/
def acquire (s : State) : State :=
  ptpState { s with ptp := { s.ptp with firstOff := true, lockN := 0, refuseRun := 0 } } 1

/-- The master is lost: HOLDOVER from ACQUIRE or LOCKED (R617). -/
def loseMaster (s : State) : State :=
  let s := { s with ptp := { s.ptp with master := none, delay := none, msDiff := none, req := none, sync := none, syncAt := none } }
  if s.ptp.st = 1 ∨ s.ptp.st = 2 then ptpState s 3 else s

/-- After a forced switch of MAC a LOCKED or ACQUIRE state becomes ACQUIRE (R621). -/
def ptpForced (s : State) : State :=
  if s.ptp.st = 1 ∨ s.ptp.st = 2 then acquire (ptpEvent s 5) else s

/-- MAC runs again: ACQUIRE if a master is selected, HOLDOVER otherwise (R621). -/
def ptpRestart (s : State) : State :=
  if s.ptp.st = 0 then s else if s.ptp.master.isSome then acquire s else ptpState s 3

/-! ### The selection of a master (R615) -/

/-- One dataset is better than another: compared most significant first. -/
def better : List Nat → List Nat → Bool
  | a :: r, b :: t => if a < b then true else if b < a then false else better r t
  | [], _ => false
  | _ :: _, [] => false

/-- A foreign master has qualified: two Announce messages within four intervals, the latest of them not longer ago (R615). -/
def qualified (up : Nat) (f : Foreign) : Bool := decide (2 ≤ f.count) && decide (up ≤ f.last + 4 * f.ival)

/-- The best qualified foreign master. -/
def bestMaster (s : State) : Option Foreign :=
  (s.ptp.foreign.filter (qualified s.up)).foldl (fun b f => match b with
    | none => some f
    | some x => if better f.data x.data then some f else some x) none

/-- The selected master follows the foreign masters; a different one starts an acquisition (R615, R617). -/
def selectMaster (s : State) : State :=
  match bestMaster s with
  | none => s
  | some f =>
    let s := { s with ptp := { s.ptp with gm := f.gm, utc := f.utc, utcValid := f.utcValid, port := f.port } }
    if s.ptp.master = some f.id then s else
      let p := { s.ptp with master := some f.id, delay := none, msDiff := none, req := none, sync := none, syncAt := none, twoStep := false }
      acquire (ptpEvent { s with ptp := p } 4)

/-- The slave processes a message of a port and domain (R613, R615). -/
def hears (s : State) (p dom : Nat) : Bool :=
  ptpOn s p && macValid s && (eport s p).link && macUp s p && dom == rfld s oPtpCtrl 7 1

/-- ANNOUNCE_RX (R615): two messages within 4 intervals qualify. -/
def execAnnounceRx (p : Fin 2) (dom id : Nat) (data : List Nat) (gm ival : Nat) (utc : BitVec 16) (utcValid : Bool) (s : State) :
    Host.Outcome State Fault Refusal :=
  done s (
    if !hears s p dom then s else
      let old := s.ptp.foreign.find? (fun f => f.id == id)
      let n := match old with
        | some f => if s.up ≤ f.last + 4 * ival then f.count + 1 else 1
        | none => 1
      let f : Foreign := ⟨id, p, data, gm, n, s.up, ival, w32 utc.toNat, utcValid⟩
      let s := { s with ptp := { s.ptp with foreign := s.ptp.foreign.filter (fun g => g.id != id) ++ [f] } }
      selectMaster s)

/-- No Announce of a master has arrived for 3 announce intervals, or no Sync for 4 sync intervals (R615). -/
def masterGone (s : State) (m : Nat) : Bool :=
  !(s.ptp.foreign.any (fun f => f.id == m && decide (s.up < f.last + 3 * f.ival))) ||
  (match s.ptp.syncAt with
    | some (t, i) => decide (t + 4 * i ≤ s.up)
    | none => false)

/-- MASTER_LOST (R615, R617): the selected master is gone; another qualified one is taken if there is one. -/
def execMasterLost (s : State) : Host.Outcome State Fault Refusal :=
  done s (
    match s.ptp.master with
    | none => s
    | some m =>
      if !masterGone s m then s else
      let s := { s with ptp := { s.ptp with foreign := s.ptp.foreign.filter (fun f => f.id != m) } }
      if (bestMaster s).isSome then selectMaster s else loseMaster s)

/-! ### Offsets and delays (R616 to R620) -/

/-- JUMP_US in nanoseconds. -/
def jumpNs (s : State) : Nat := rfld s oPtpLimits 31 16 * 1000

/-- A value is refused while LOCKED (R620). -/
def refuse (s : State) : State :=
  let s := ptpEvent { s with ptp := { s.ptp with refuseRun := s.ptp.refuseRun + 1 } } 3
  if 4 ≤ s.ptp.refuseRun then
    let n := s.ptp.refuseRun
    let s := acquire s
    { s with ptp := { s.ptp with refuseRun := min n 7 } }
  else s

/-- The network-time counter moves by a number of nanoseconds. -/
def stepTime (s : State) (d : Int) : State := { s with ptp := { s.ptp with ns := ((s.ptp.ns : Int) + d).toNat } }

/-- The rate the servo chooses: within 500 ppm, otherwise free (R619). -/
def servo (s : State) : State :=
  let (k, s) := takeFree s
  let r : Int := Config.servoRate k
  { s with ptp := { s.ptp with rate := max (-500000) (min 500000 r) } }

/-- An accepted offset: step at the first of an acquisition where allowed, rate otherwise; 16 within 1 µs lock (R617 to R619). -/
def acceptOffset (s : State) (o : Int) : State :=
  let allowed := s.ptp.firstOff && (s.ptp.virgin || bitOf (rget s oPtpCtrl) 10)
  let big := decide (rfld s oPtpLimits 15 0 * 1000 ≤ o.natAbs)
  let n := if o.natAbs ≤ 1000 then s.ptp.lockN + 1 else 0
  let s := { s with ptp := { s.ptp with refuseRun := 0, firstOff := false, virgin := false, lockN := n } }
  let s := if allowed && big then ptpEvent (stepTime s (-o)) 2 else servo s
  if s.ptp.st = 1 ∧ 16 ≤ s.ptp.lockN then ptpState s 2 else s

/-- A Sync yields t2 − t1 − cs; with a delay it yields an offset (R616, R620). -/
def gotSync (s : State) (d : Int) : State :=
  let s := { s with ptp := { s.ptp with msDiff := some d } }
  match s.ptp.delay with
  | none => s
  | some dl =>
    let o := d - dl
    let s := { s with ptp := { s.ptp with offset := o } }
    if s.ptp.st = 2 ∧ jumpNs s < o.natAbs then refuse s
    else if s.ptp.st = 1 ∨ s.ptp.st = 2 then acceptOffset s o else s

/-- A message of the selected master. -/
def fromMaster (s : State) (p dom id : Nat) : Bool := hears s p dom && s.ptp.master == some id

/-- SYNC_RX (R613, R616). -/
def execSyncRx (p : Fin 2) (dom id : Nat) (seq : BitVec 16 × Nat) (twoStep : Bool) (t1 corr : Int) (s : State) :
    Host.Outcome State Fault Refusal :=
  done s (
    if !fromMaster s p dom id then s else
      let s := { s with ptp := { s.ptp with twoStep := twoStep, syncAt := some (s.up, seq.2) } }
      if twoStep then { s with ptp := { s.ptp with sync := some (seq.1.toNat, s.ptp.ns, corr, s.up) } }
      else gotSync { s with ptp := { s.ptp with sync := none } } ((s.ptp.ns : Int) - t1 - corr))

/-- FOLLOW_UP_RX (R613): matched to its Sync by sequence within 1 s. -/
def execFollowUpRx (p : Fin 2) (dom id : Nat) (seq : BitVec 16) (t1 corr : Int) (s : State) : Host.Outcome State Fault Refusal :=
  done s (
    if !fromMaster s p dom id then s else
      match s.ptp.sync with
      | some (q, t2, c, at_) =>
        if q = seq.toNat ∧ s.up ≤ at_ + 1000000000 then
          gotSync { s with ptp := { s.ptp with sync := none } } ((t2 : Int) - t1 - c - corr)
        else s
      | none => s)

/-- The bytes of a Delay_Req (R613, R614). -/
def delayReq (s : State) (seq : Nat) : List Nat :=
  let m := leBytes 6 (ownMac s)
  let id := m.take 3 ++ [0xFF, 0xFE] ++ m.drop 3
  leBytes 6 ptpGroup ++ m ++ [0x88, 0xF7] ++ [0x01, 0x12] ++ beBytes 2 44 ++ [rfld s oPtpCtrl 7 1, 0, 0, 0] ++ List.replicate 12 0 ++
    id ++ beBytes 2 (s.ptp.port + 1) ++ beBytes 2 seq ++ [1, 0x7F] ++ List.replicate 10 0

/-- DELAY_REQ_SEND (R614): a Delay_Req enters its queue; its timestamp is taken as it leaves (R622). -/
def execDelayReqSend (s : State) : Host.Outcome State Fault Refusal :=
  done s (
    let p := s.ptp.port
    if !(s.ptp.master.isSome && ptpOn s p && macValid s && (eport s p).link) then s else
      let q := (s.ptp.reqSeq + 1) % 65536
      sendInternal { s with ptp := { s.ptp with reqSeq := q, req := some (q, p) } } p 6 (delayReq s q) none)

/-- DELAY_RESP_RX (R616, R620): a negative delay is discarded. -/
def execDelayRespRx (p : Fin 2) (dom id : Nat) (seq : BitVec 16) (t4 corr : Int) (s : State) : Host.Outcome State Fault Refusal :=
  done s (
    if !fromMaster s p dom id then s else
      let s := modPort s p (fun e => { e with tsq := freshTsq s e.tsq })
      match s.ptp.req, (eport s p).tsq.find? (fun e => e.seq == seq.toNat), s.ptp.msDiff with
      | some (q, _), some e, some ms =>
        if q ≠ seq.toNat then s else
          let s := modPort s p (fun x => { x with tsq := x.tsq.filter (fun y => y.seq != q) })
          let s := { s with ptp := { s.ptp with req := none } }
          let d := (ms + (t4 - e.ts - corr)) / 2
          if d < 0 then s
          else
            let far := match s.ptp.accDelay with
              | some a => decide (jumpNs s < (d - a).natAbs)
              | none => false
            if s.ptp.st == 2 && far then refuse s
            else { s with ptp := { s.ptp with delay := some d, accDelay := some d, refuseRun := 0 } }
      | _, _, _ => s)

/-! ### Links (R583, R600, R601, R617) -/

/-- PORT_LINK_UP (R583); a stepped-down port advertises 100 Mb/s alone (R600). -/
def execPortLinkUp (p : Fin 2) (speed : Fin 4) (s : State) : Host.Outcome State Fault Refusal :=
  done s (if portEn s p && speed.val != 0 && !s.clk.macStopped && (!(eport s p).stepped || speed.val == 2) then
    modPort s p (fun e => { e with link := true, speed := speed, cur := topQueue e.txq, idleAt := s.up }) else s)

/-- A port's link is lost; link loss on the master's port ends in HOLDOVER (R583, R617). -/
def linkLost (s : State) (p : Nat) : State :=
  let s := dropLink s p
  if s.ptp.master.isSome && s.ptp.port == p then loseMaster { s with ptp := { s.ptp with foreign := s.ptp.foreign.filter (fun f => f.port != p) } }
  else s

/-- PORT_LINK_DOWN (R583, R617). -/
def execPortLinkDown (p : Fin 2) (s : State) : Host.Outcome State Fault Refusal := done s (linkLost s p)

/-- A renegotiation, whose link loss is one like any other (R600, R617). -/
def reneg (s : State) (p : Nat) (down : Bool) : State := linkLost (renegotiate s p down) p

/-- SPEED_STEP_DOWN (R600). -/
def execSpeedStepDown (p : Fin 2) (s : State) : Host.Outcome State Fault Refusal :=
  let e := eport s p
  done s (if bitOf (rget s (oPort p)) 4 && e.link && e.speed == 3 && !stepLock s p then reneg s p true else s)

/-- SPEED_STEP_UP (R600). -/
def execSpeedStepUp (p : Fin 2) (s : State) : Host.Outcome State Fault Refusal :=
  let e := eport s p
  done s (if e.stepped && e.link && !stepLock s p then reneg s p false else s)

/-- STEP_LOCK_END (R600, R601): no lock holds any longer; a stepped-down port whose STEP_EN has been written 0 renegotiates
now. -/
def execStepLockEnd (p : Fin 2) (s : State) : Host.Outcome State Fault Refusal :=
  done s (
    if !stepLock s p && (eport s p).stepped && !bitOf (rget s (oPort p)) 4 then reneg s p false else s)

/-! ### Remote stations (R607 to R609) -/

/-- Station `n`. -/
def rio (s : State) (n : Nat) : Rio := tget (fun _ => Rio.reset) s.eth.rio n

/-- The state with station `n` replaced. -/
def setRio (s : State) (n : Nat) (r : Rio) : State := { s with eth := { s.eth with rio := tset (fun _ => Rio.reset) s.eth.rio n r } }

/-- The station's address. -/
def stationMac (s : State) (n : Nat) : Nat := (rget s (oStation n + 4)).toNat + rfld s (oStation n + 8) 15 0 * 2 ^ 32

/-- STATION_REQ (R608): PERIOD_MS after the latest one. -/
def execStationReq (n : Fin 32) (s : State) : Host.Outcome State Fault Refusal :=
  done s (
    let due := match (rio s n).reqAt with
      | some t => decide (t + rfld s (oStation n) 15 6 * 1000000 ≤ s.up)
      | none => true
    if s.base.holdOut && bitOf (rget s (oStation n)) 0 && due then
      let o := (rio s n).output
      flSend (setRio s n { rio s n with reqAt := some s.up }) 0x10 5 (n + 1) (stationMac s n) ([n.val, 0, 0, 0] ++ wordsBytes ((o ++ List.replicate 64 0).take 64))
    else s)

/-- A response to a station's entry is rejected (R609). -/
def rejectRsp (s : State) (n : Nat) : State := let r := rio s n; setRio s n { r with rej := r.rej + 1 }

/-- A sequence number is newer than the last accepted one (R609). -/
def newerSeq (last : Option Word) (q : Word) : Bool :=
  match last with
  | none => true
  | some l => 1 ≤ (q - l).toNat && (q - l).toNat ≤ 2 ^ 31 - 1

/-- STATION_RSP (R416, R603, R605, R609). -/
def execStationRsp (ok : Bool) (ver verMin verMax : Nat) (pairId : BitVec 16) (n : Fin 256) (mac : BitVec 48) (seq status : Word)
    (words : List Word) (s : State) : Host.Outcome State Fault Refusal :=
  done s (
    if !macValid s then s
    else if !ok || ver != 1 then flReject s
    else if 32 ≤ n.val then s
    else
      let r := rio s n
      if pairId.toNat = rfld s oFlCtrl 15 0 ∧ bitOf (rget s (oStation n)) 0 ∧ mac.toNat = stationMac s n ∧ newerSeq r.seqRx seq then
        let v := if verMin ≤ 1 ∧ 1 ≤ verMax then 1 else 0
        let r := { r with input := (words ++ List.replicate 64 0).take 64, last := some s.up, late := false, upd := r.upd + 1 }
        setRio s n { r with status := status, seqRx := some seq, ver := v }
      else rejectRsp s n)

/-- STATION_TIMEOUT (R418): the latest update is older than TIMEOUT_MS. -/
def execStationTimeout (n : Fin 32) (s : State) : Host.Outcome State Fault Refusal :=
  done s (match (rio s n).last with
    | some t => if t + rfld s (oStation n) 31 16 * 1000000 < s.up then setRio s n { rio s n with late := true } else s
    | none => s)

/-- STATION_CFG (R607, R624). -/
def stationCfg (s : State) : State := ethEvent s 1

/-- A station set-up keeps to R607. -/
def stationOk (s : State) (n : Nat) (v : Word) : Bool :=
  1 ≤ fld v 15 6 && fld v 15 6 ≤ 1000 && 2 * fld v 15 6 ≤ fld v 31 16 && fld v 5 1 ≤ 16 &&
  stationMac s n != 0 && !isGroup (stationMac s n)

/-- A write of ETH_RIO_CTRL (R607, R692): fields are taken with EN going from 0 to 1; while EN is 1 only EN can change. -/
def stationWrite (s : State) (n : Nat) (v : Word) : State :=
  let o := oStation n
  let old := rget s o
  if bitOf old 0 then
    let s := if old ||| 1 = v ||| 1 then s else stationCfg s
    rset s o (setBit old 0 (bitOf v 0))
  else
    let t := rwrite s o v
    if !bitOf v 0 then t
    else if stationOk t n v && !imageClash t then
      setRio t n { rio t n with last := none, late := false, seqRx := none, ver := 0, reqAt := none }
    else stationCfg (rset t o (setBit v 0 false))

/-- A write of a station's address (R607). -/
def stationFieldWrite (s : State) (n o : Nat) (v : Word) : State :=
  if bitOf (rget s (oStation n)) 0 then (if rget (rwrite s o v) o = rget s o then s else stationCfg s) else rwrite s o v

/-- STATION_ENABLE (R607). -/
def execStationEnable (n : Fin 32) (v : Word) (s : State) : Host.Outcome State Fault Refusal := done s (reached s 0 fun s => stationWrite s n v)

/-! ### Writes of the ETH block (R583, R600, R612, R617, R624, R626) -/

/-- A write of ETH_PTP_CTRL: PORT_SEL 0b11 is ignored; EN 0 loses the master; masters no longer heard are forgotten. -/
def ptpCtrlWrite (s : State) (v : Word) : State :=
  let v := if fld v 9 8 = 3 then setFld v 9 8 (rfld s oPtpCtrl 9 8) else v
  let dom := rfld s oPtpCtrl 7 1
  let s := rwrite s oPtpCtrl v
  let keep := fun (f : Foreign) => bitOf v 0 && fld v 7 1 == dom && ptpOn s f.port
  let gone := s.ptp.master.isSome && !(s.ptp.foreign.any (fun f => some f.id == s.ptp.master && keep f))
  let s := { s with ptp := { s.ptp with foreign := s.ptp.foreign.filter keep } }
  if gone then
    (if bitOf v 0 && (bestMaster s).isSome then selectMaster s else loseMaster s)
  else if !bitOf v 0 && s.ptp.st != 0 then ptpState s 3 else s

/-- A write of ETH_P_CTRL: MAX_LEN 0b11 and LPI_IDLE 0 are ignored; EN 0 takes the link down; STEP_EN 0 steps a port up. -/
def portCtrlWrite (s : State) (p : Nat) (v : Word) : State :=
  let old := rget s (oPort p)
  let v := if fld v 2 1 = 3 then setFld v 2 1 (fld old 2 1) else v
  let v := if fld v 13 6 = 0 then setFld v 13 6 (fld old 13 6) else v
  let s := rwrite s (oPort p) v
  if !bitOf v 0 then linkLost s p
  else if !bitOf v 4 && (eport s p).stepped && !stepLock s p then reneg s p false
  else s

/-- A write of a register of the ETH block. -/
def ethWrite (s : State) (off : Nat) (v : Word) : State :=
  let o := off % 0x10000
  if o = 0x20 then ptpCtrlWrite s v
  else if o = 0x24 then (if fld v 15 0 = 0 ∨ fld v 31 16 = 0 then s else rwrite s off v)
  else if 0x400 ≤ o ∧ o < 0x800 then
    (let n := (o - 0x400) / 0x20
     if o % 0x20 = 0 then stationWrite s n v else if o % 0x20 = 4 ∨ o % 0x20 = 8 then stationFieldWrite s n off v else s)
  else if 0x1000 ≤ o ∧ o < 0x3000 then
    (let p := (o - 0x1000) / 0x1000
     let q := o % 0x1000
     if q = 0 then portCtrlWrite s p v
     else if 0x100 ≤ q ∧ q < 0x300 ∧ q % 0x10 = 0 then filterWrite s p ((q - 0x100) / 0x10) v
     else rwrite s off v)
  else rwrite s off v

end Sys2Proof.Machine
end

