-- ==== Sys2Proof/Machine/Power.lean ====
section
/-! DEFINITION. Seating, supplies and temperature, clock sources and domains, gates, the frequency meter, and the power
states with the power-fail warning (R35 to R38, R47, R71 to R73, R120 to R146, R152). -/

namespace Sys2Proof.Machine

/-! ### The end of running -/

/-- SUP_WDOG_EXPIRY (R152): the module resets; its START_UP follows. -/
def execSupWdogExpiry (s : State) : Host.Outcome State Fault Refusal := done s (if s.clk.alive then holdReset s 5 else s)

/-! ### Seating and the base (R35 to R38, R73) -/

/-- SEATING_RECOGNISED (R35). -/
def execSeatingRecognised (s : State) : Host.Outcome State Fault Refusal :=
  done s { s with base := { s.base with seatLow := true, seated := true } }

/-- Seating is lost: hardware acts at once, and the module waits until it is seated again (R36, R152). -/
def unseat (s : State) : State := holdReset { s with base := { s.base with seated := false } } 3

/-- SEAT_LOSS (R36). -/
def execSeatLoss (s : State) : Host.Outcome State Fault Refusal :=
  done s (unseat { s with base := { s.base with seatLow := false } })

/-- SLOT_CODE_CHANGE (R38): a change while seated is a loss of seating and is recorded; off a twin base the base's
pull-down holds HOLD_IN low (R29, R39). -/
def execSlotCodeChange (code : Fin 4) (s : State) : Host.Outcome State Fault Refusal :=
  done s (
    if code.val = s.base.slot then s
    else
      let old := s.base.slot
      let was := seatedNow s
      let s := { s with base := { s.base with slot := code.val } }
      let s := if onTwin s then s else setHold s s.base.holdOut false
      if was then unseat (recEvent s 0x102 0 0xFFFF [w32 old, w32 code.val]) else s)

/-- PEER_SEAT_CHG (R73). -/
def execPeerSeatChg (present : Bool) (s : State) : Host.Outcome State Fault Refusal :=
  done s (
    if s.base.peer = present then s
    else raiseHost { s with base := { s.base with peer := present } } oBaseEvent 4)

/-- The reference is invalid: no source is in use (R77, R100). -/
def refGone (s : State) : State :=
  let was := s.phc.refSrc
  let s := { s with phc := { s.phc with refValid := false, refSrc := 3 } }
  if was = 3 then s else raisePhc s 8

/-- THERMAL_UPDATE (R72, R73): the warning comes at 105 degrees and goes below 100. The estimate FIELD_DISS comes with the
command: the spec has it made from the banks' reports and gives no formula (DESIGN CHOICE, log 149). -/
def execThermalUpdate (temp diss : BitVec 12) (s : State) : Host.Outcome State Fault Refusal :=
  done s (
    let t := signedOf 12 temp.toNat
    let w := if 840 ≤ t then true else if t < 800 then false else s.base.thermWarn
    let was := s.base.thermWarn
    let s := { s with base := { s.base with intTemp := temp.toNat, fieldDiss := diss.toNat, thermWarn := w } }
    if w && !was then raiseHost s oBaseEvent 8 else s)

/-! ### The logic inputs (R47, R142, R143) -/

/-- LOGIC_INPUT_GOOD (R47, R143): an absence of both inputs that ends before the warning is a dip. -/
def execLogicInputGood (b : Bool) (s : State) : Host.Outcome State Fault Refusal :=
  done s (
    let both := !s.base.la && !s.base.lb
    let s := if b then { s with base := { s.base with lb := true } } else { s with base := { s.base with la := true } }
    if both && s.clk.alive && !s.clk.warned then raiseHost s oPwrEvent 2 else s)

/-- LOGIC_INPUT_LOST (R47, R73): the loss of one while the other remains also writes a recorder event; with neither, the
storage is no longer full (R142). -/
def execLogicInputLost (b : Bool) (s : State) : Host.Outcome State Fault Refusal :=
  done s (
    let was := if b then s.base.lb else s.base.la
    if !was then s else
      let other := if b then s.base.la else s.base.lb
      let s := if b then { s with base := { s.base with lb := false } } else { s with base := { s.base with la := false } }
      let s := if other then s else rclr s oPwrStatus 2
      raiseBits s oBaseEvent (if b then 2 else 1) 0xFFFFFFFF 0 true other [])

/-- HOLDUP_FULL (R142). -/
def execHoldupFull (s : State) : Host.Outcome State Fault Refusal := done s (if s.base.la || s.base.lb then ror s oPwrStatus 2 else s)

/-! ### Clock sources and domains (R120 to R131) -/

/-- The source a domain's code selects; none for a reserved code and for MAC stopped (R123). -/
def clkSource (d code : Nat) : Option Nat :=
  if d = 3 then (match code with
    | 0 => some 7
    | 1 => some 4
    | 2 => some 5
    | _ => none)
  else match code with
    | 0 => some 6
    | 1 => some 1
    | 2 => if d = 2 then some 3 else none
    | _ => none

/-- The monitor reports a source good; a recovered clock can be selected only while its port links at 1000 Mb/s (R120, R126). -/
def usable (s : State) (n : Nat) : Bool :=
  bitOf s.clk.good n && (n != 4 || (eport s 0).speed == 3) && (n != 5 || (eport s 1).speed == 3)

/-- CLK_SW_STATUS.BUSY of a domain. -/
def switching (s : State) (d : Nat) : Bool := rfld s oSwStatus d d == 1

/-- A request to switch domain `d` (R125, R126). -/
def requestSwitch (s : State) (d code : Nat) : State :=
  if code = rfld s oSrcSel (2 * d + 1) (2 * d) then s
  else
    let ok := !switching s d && (match clkSource d code with
      | some n => usable s n
      | none => d == 3)
    if !ok then ror s oSwStatus 0x40000
    else
      let s := rsetFld s oSrcSel (2 * d + 1) (2 * d) code
      let s := ror s oSwStatus (oneBit d)
      { s with clk := { s.clk with target := setNth s.clk.target d code } }

/-- CLOCK_SOURCE_SWITCH (R125, R126): a write of CLK_SRC_SEL. -/
def srcWrite (s : State) (v : Word) : State := forAll (upto 4) (fun s d => requestSwitch s d (fld v (2 * d + 1) (2 * d))) s

/-- CLOCK_SOURCE_SWITCH. -/
def execClockSourceSwitch (v : Word) (s : State) : Host.Outcome State Fault Refusal := done s (reached s 0 fun s => srcWrite s v)

/-- A domain runs from the source it was switching to, with the cycle counts a switch reports (R125, R127); network
time goes on when MAC had stood (R621). -/
def endSwitch (s : State) (d old new : Nat) : State :=
  let stood := d == 3 && nAt s.clk.src 3 == 3
  let s := { s with clk := { s.clk with src := setNth s.clk.src d (nAt s.clk.target d) } }
  let s := rclr s oSwStatus (oneBit d)
  let s := rsetFld s oSwStatus 17 8 (old + 16 * new + 256 * d)
  if stood then ptpRestart s else s

/-- SWITCH_COMPLETE (R125): three old cycles and five new ones were lost. -/
def execSwitchComplete (d : Fin 4) (s : State) : Host.Outcome State Fault Refusal :=
  done s (if switching s d.val then endSwitch s d.val 3 5 else s)

/-- A switch made by the escape path: FORCED and a recorder event (R127, R621). -/
def forceSwitch (s : State) (d : Nat) : State :=
  let old := nAt s.clk.src d
  let s := ror (endSwitch s d 15 15) oSwStatus (oneBit (4 + d))
  let s := recEvent s 0x103 1 0xFFFF [w32 d, w32 old, w32 (nAt s.clk.src d)]
  if d = 3 then ptpForced s else s

/-- FORCED_SWITCH (R127). -/
def execForcedSwitch (d : Fin 4) (s : State) : Host.Outcome State Fault Refusal :=
  done s (if switching s d.val then forceSwitch s d.val else s)

/-- A source feeds CORE, FABRIC or IO (R130). -/
def feedsCore (s : State) (n : Nat) : Bool := ([0, 1, 2] : List Nat).any (fun d => clkSource d (nAt s.clk.src d) == some n)

/-- The source selected for MAC fails: MAC goes to PLL_MAC, or stops with both ports down while that is failed (R128). -/
def macFail (s : State) (n : Nat) : State :=
  if clkSource 3 (nAt s.clk.src 3) ≠ some n then s
  else if bitOf s.clk.good 7 then
    let s := rsetFld { s with clk := { s.clk with target := setNth s.clk.target 3 0 } } oSrcSel 7 6 0
    forceSwitch s 3
  else
    let s := rsetFld { s with clk := { s.clk with src := setNth s.clk.src 3 0, macStopped := true } } oSrcSel 7 6 0
    linkLost (linkLost s 0) 1

/-- The frequency meter's reference fails: the measurement ends with ERR and a count of 0 (R138). -/
def fmRefFail (s : State) (n : Nat) : State :=
  match s.clk.fm with
  | some (_, r, _) =>
    if r = n then
      let s := rset (rset { s with clk := { s.clk with fm := none } } oFmLo 0) oFmHi 0
      rclr (ror s oFmCtrl 0x40000000) oFmCtrl 0x80000000
    else s
  | none => s

/-- The monitor checks a source (R129): a recovered clock while its port links at 1000 Mb/s, PCIE_REF while PE_PERST_N is
high. -/
def monitored (s : State) (n : Nat) : Bool :=
  (n != 3 || s.clk.perst) && (n != 4 || (eport s 0).speed == 3) && (n != 5 || (eport s 1).speed == 3)

/-- SOURCE_FAIL (R128 to R131): FAIL is set; a source of CORE, FABRIC or IO sends the field safe and holds the controller in
reset-wait, PLL_SYS takes the CAN ports off their buses (R628), RTCX makes the count invalid (R661). Of two failed sources
the latest is the one reset-wait waits for (DESIGN CHOICE, log 126). -/
def execSourceFail (n : Fin 9) (s : State) : Host.Outcome State Fault Refusal :=
  done s (
    if !bitOf s.clk.good n.val || !monitored s n.val then s else
      let s := { s with clk := { s.clk with good := s.clk.good &&& ~~~ (oneBit n.val) } }
      let s := fmRefFail (raiseBoth s oClkMon (oneBit (16 + n.val))) n.val
      let s := if n.val = 6 then forAll (upto 4) (fun s p => if canEn s p then failAllTx s p 6 else s) s else s
      let s := if n.val = 2 then oscStop s else s
      if feedsCore s n.val then
        let s := holdReset s 2
        { s with clk := { s.clk with alive := true, resetWait := some n.val } }
      else macFail s n.val)

/-- SOURCE_GOOD (R128, R129, R621). -/
def execSourceGood (n : Fin 9) (s : State) : Host.Outcome State Fault Refusal :=
  done s (
    let back := s.clk.macStopped && n.val == 7
    let since := if s.clk.resetWait == some n.val && !bitOf s.clk.good n.val then s.up else s.clk.goodAt
    let s := { s with clk := { s.clk with good := s.clk.good ||| oneBit n.val, macStopped := s.clk.macStopped && n.val != 7, goodAt := since } }
    if back then ptpRestart s else s)

/-- RESET_WAIT_EXIT (R131): the failed source has been good for 10 ms; START_UP with cause CLOCK_FAIL follows. -/
def execResetWaitExit (s : State) : Host.Outcome State Fault Refusal :=
  done s (match s.clk.resetWait with
    | some n => if bitOf s.clk.good n ∧ s.clk.goodAt + 10000000 ≤ s.up then { s with clk := { s.clk with resetWait := none, alive := false } } else s
    | none => s)

/-! ### Gates (R132 to R137) -/

/-- Blocks whose enable in CLK_GATE_RUN is not fixed (R132). -/
def gateRw (bit : Nat) : Bool := bitOf (regInfo oGateRun).rw bit

/-- A gate closes: a CAN port's pending frames fail (R628, R636); every block keeps its state (R133). -/
def closeGate (s : State) (bit : Nat) : State :=
  let s := rclr { s with clk := { s.clk with closing := s.clk.closing &&& ~~~ (oneBit bit) } } oGateOpen (oneBit bit)
  if 10 ≤ bit ∧ bit < 14 ∧ canEn s (bit - 10) then failAllTx s (bit - 10) 6 else s

/-- A gate opens, and the block resumes with the state it held (R137). -/
def openGate (s : State) (bit : Nat) : State :=
  ror { s with clk := { s.clk with closing := s.clk.closing &&& ~~~ (oneBit bit) } } oGateOpen (oneBit bit)

/-- A change of BLE or LCE is refused while the controller runs (R134). -/
def gateRefused (s : State) (change : Word) : Bool := s.ble.running && change &&& 6 != 0

/-- A write of CLK_GATE_RUN: in RUN each cleared enable closes its gate, each set one opens it (R133 to R137). -/
def gateRunWrite (s : State) (v : Word) : State :=
  let old := rget s oGateRun
  let new := writeWord (regInfo oGateRun) old v
  if gateRefused s (old ^^^ new) then ror s oGateAbort 0x80000000
  else
    let s := rset s oGateRun new
    if s.clk.power ≠ 0 then s else
    forAll (upto 20) (fun s i =>
      if bitOf old i == bitOf new i then s else if bitOf new i then openGate s i else closeGate s i) s

/-- GATE_CLOSE (R134, R135): the enable is written 0; the gate closes once the bus interface is idle. -/
def execGateClose (bit : Fin 20) (idle : Bool) (s : State) : Host.Outcome State Fault Refusal :=
  done s (reached s 0 fun s => 
    let b := bit.val
    if !gateRw b then s
    else if bitOf (rget s oGateRun) b && gateRefused s (oneBit b) then ror s oGateAbort 0x80000000
    else
      let s := rclr s oGateRun (oneBit b)
      if s.clk.power ≠ 0 ∨ !bitOf (rget s oGateOpen) b then s
      else if idle then closeGate s b
      else { s with clk := { s.clk with closing := s.clk.closing ||| oneBit b } })

/-- GATE_CLOSE_TIMEOUT (R135): the access still outstanding is ended, and the gate closes. -/
def execGateCloseTimeout (bit : Fin 20) (s : State) : Host.Outcome State Fault Refusal :=
  done s (if bitOf s.clk.closing bit.val then ror (closeGate s bit.val) oGateAbort (oneBit bit.val) else s)

/-- GATE_OPEN (R134, R137). -/
def execGateOpen (bit : Fin 20) (s : State) : Host.Outcome State Fault Refusal :=
  done s (reached s 0 fun s => if gateRw bit.val then gateRunWrite s (rget s oGateRun ||| oneBit bit.val) else s)

/-- SLEEP_WAKE (R133): work has arrived for a block whose clock was stopped. -/
def execSleepWake (bit : Fin 20) (s : State) : Host.Outcome State Fault Refusal :=
  done s (if s.clk.power = 1 then { s with clk := { s.clk with idle := s.clk.idle &&& ~~~ (oneBit bit.val) } } else s)

/-- CLK_PWR_CTRL.MODE takes effect at a cycle boundary (R139, R140). In SLEEP a block whose enable is 0 is taken as idle from
each boundary until work arrives (DEDUCED, log 41). -/
def modeBoundary (s : State) : State :=
  if bitOf (rget s oPwrCtrl) 0 then
    let s := rset { s with clk := { s.clk with power := 1, closing := 0, idle := ~~~ (rget s oGateSleep) &&& 0xFFFFF } } oGateOpen 0xFFFFF
    ror s oPwrStatus 1
  else if s.clk.power = 1 then
    let s := rclr { s with clk := { s.clk with power := 0, idle := 0 } } oPwrStatus 1
    forAll (upto 20) (fun s i => if bitOf (rget s oGateRun) i then s else closeGate s i) s
  else s

/-! ### The frequency meter (R138) -/

/-- A write of CLK_FM_CTRL (R138). -/
def fmWrite (s : State) (v : Word) : State :=
  let s := rwrite s oFmCtrl v
  let m := fld v 3 0
  let r := fld v 7 4
  let k := fld v 12 8
  if !bitOf v 16 || s.clk.fm.isSome then s
  else if k < 8 ∨ 24 < k ∨ m = r ∨ 8 < m ∨ 8 < r then ror s oFmCtrl 0x40000000
  else ror (rclr { s with clk := { s.clk with fm := some (m, r, k) } } oFmCtrl 0x40000000) oFmCtrl 0x80000000

/-- FM_START (R138): a write to a block whose gate is closed is dropped (R136). -/
def execFmStart (v : Word) (s : State) : Host.Outcome State Fault Refusal := done s (reached s 18 fun s => fmWrite s v)

/-- FM_DONE (R138). -/
def execFmDone (count : BitVec 64) (s : State) : Host.Outcome State Fault Refusal :=
  done s (
    if s.clk.fm.isSome && bitOf (rget s oGateOpen) 18 then
      let s := { s with clk := { s.clk with fm := none } }
      let s := rset (rset s oFmLo (w32 count.toNat)) oFmHi (w32 (count.toNat >>> 32))
      rclr s oFmCtrl 0x80000000
    else s)

/-! ### Logic power failing (R143 to R146) -/

/-- The power-fail recorder event, and the recorder's queue written out (R144, R673, R676). -/
def pfRecord (s : State) : State :=
  let ts := nowTs s
  let s := recEvent { s with clk := { s.clk with pfRetain := false } } 0x101 1 0xFFFF (countWords s s.rtc.count ++ [w32 ts, w32 (ts >>> 32)])
  recorderDrain (flushEvents s)

/-- Step 3 of R144 once no pass or cycle is in progress: the retain write, or with no image the record at once. -/
def pfSave (s : State) : State :=
  if !s.clk.pfRetain || cycleBusy s then s
  else if s.img.isSome then forceSave s
  else pfRecord s

/-- POWER_FAIL_WARNING (R144). -/
def execPowerFailWarning (s : State) : Host.Outcome State Fault Refusal :=
  done s (
    if !s.clk.alive || s.clk.warned then s else
      let s := { s with clk := { s.clk with warned := true, pfRetain := true } }
      let s := { s with ble := { s.ble with wait := [] }, lce := { s.lce with wait := [] } }
      let s := raiseHost (ror s oPwrStatus 4) oPwrEvent 1
      let s := if s.twn.role == 1 && s.twn.pair == 4 && s.twn.plan.isNone then
          let p : Plan := { at_ := s.phc.cycle + 1, cause := 4, ring := none, req := s.phc.cycle, out := false }
          refreshPair { s with twn := { s.twn with plan := some p } }
        else s
      saveOptime (recorderDrain (flushEvents (pfSave s))))

/-- RETAIN_SAVE_DONE (R144, R394): with the power failing, the recorder event follows the save. -/
def execRetainSaveDone (s : State) : Host.Outcome State Fault Refusal :=
  done s (
    let t := endSave s
    if s.ble.saving.isSome && t.clk.pfRetain && !cycleBusy t && t.ble.saving.isNone then pfRecord t else t)

/-- TASK_CYCLE_COMMIT (R382, R384, R386, R394): with the power failing, the last cycle's commit is followed by the retain write
(R144). -/
def execTaskCycleCommit (time : Nat) (s : State) : Host.Outcome State Fault Refusal :=
  done s (
    if !bleClock s then s else
    match s.ble.run, s.img with
    | some c, some im =>
      let s := commitCycle { s with ble := { s.ble with run := none } } im c time
      pfSave (startWaiting (applyWrites s) 0)
    | _, _ => s)

/-- POWER_FAIL_RESTART (R145): an input is good again and the actions of R144 are complete; START_UP follows. -/
def execPowerFailRestart (s : State) : Host.Outcome State Fault Refusal :=
  done s (
    if s.clk.alive && s.clk.warned && (s.base.la || s.base.lb) && !s.clk.pfRetain && (s.twn.plan.isNone || s.twn.role != 1) then
      holdReset s 1
    else s)

/-- HOLDUP_END (R146, R656): the field goes safe, then DEEP-SLEEP, or nothing without backup. -/
def execHoldupEnd (backup : Bool) (s : State) : Host.Outcome State Fault Refusal :=
  done s (
    if s.base.la || s.base.lb then s else
      let s := unhalt (holdReset s 0)
      { s with clk := { s.clk with power := if backup then 2 else 3, warned := false, pfRetain := false } })

end Sys2Proof.Machine
end

