-- ==== Sys2Proof/Machine/Phase.lean ====
section
/-! DEFINITION. The phase clock: reference markers, cycle boundaries and step cycles, the mapping to network time, the PHC and
partition commits, and the firings of the schedule that no other file gives (R74 to R119, R463, R689 to R691). -/

namespace Sys2Proof.Machine

/-! ### Reference markers (R74 to R83) -/

/-- The source in use, 0 for V1: the first whose fundamental is at least 40 V; 3 while there is none, and while no cartridge is
present or it does not run (R76, R77). -/
def refSource (s : State) : Nat :=
  if s.base.cart && s.mtr.running then (([0, 1, 2] : List Nat).find? (fun k => decide (40000 ≤ nAt s.mtr.fund k))).getD 3 else 3

/-- From the zero crossing of source `k` to the next of V1, in 1/16 phase unit: by the angle measured while V1 was present, and
by 120 and 240 degrees where none has been measured (R76). -/
def markerShift (s : State) (k : Nat) : Int :=
  match k with
  | 1 => 65536 - (s.mtr.angles.1.getD 21845 : Nat)
  | 2 => 65536 - (s.mtr.angles.2.getD 43691 : Nat)
  | _ => 0

/-- The reference is valid at a measured frequency (R77). -/
def refOk (s : State) (freq : Nat) : Bool := refSource s != 3 && decide (450000 ≤ freq) && decide (freq ≤ 650000)

/-- What a status frame tells: validity, source and frequency (R74, R97, R100). -/
def takeRef (s : State) (freq : Nat) : State :=
  let ok := refOk s freq
  let src := if ok then refSource s else 3
  let was := s.phc.refSrc
  let s := { s with phc := { s.phc with refValid := ok, refSrc := src, refFreq := if ok then freq else s.phc.refFreq } }
  if was = src then s else raisePhc s 8

/-- The boundary that a marker at `at_` sixteenths of a phase unit of this cycle belongs to, as one more than its cycle number,
and its distance from it: the nearer boundary, so that the distance lies from −2047 to +2048 phase units (R91, R97). -/
def markerPlace (s : State) (at_ : Int) : Nat × Int :=
  let k := (at_ + 32767) / 65536
  (((s.phc.cycle : Int) + 1 + k).toNat, at_ - 65536 * k)

/-- A marker while the clock runs (R81 to R83, R90, R91): outside the window, or with the reference invalid, it counts as
missing; in HOLDOVER and synthetic running it only qualifies the mains. A marker that comes after its boundary is taken up at
the next boundary, so that its error is removed over the cycle after the one it falls in (R82 leaves open which cycle that is
then; DESIGN CHOICE, log 127). -/
def takeMarker (s : State) (at_ : Int) : State :=
  let (b, e) := markerPlace s at_
  let p := { s.phc with perr := e }
  if s.phc.markFor = b ∨ s.phc.stepping ∨ !s.phc.refValid then { s with phc := p }
  else if s.phc.st = 2 ∨ s.phc.st = 3 ∨ s.phc.st = 4 then { s with phc := { p with markFor := b, validN := p.validN + 1 } }
  else if e.natAbs ≤ 4096 then
    let n := if e.natAbs ≤ 128 then p.lockN + 1 else 0
    { s with phc := { p with markFor := b, missN := 0, lockN := n, corrNext := e, goodFreq := p.freq } }
  else { s with phc := p }

/-- REFERENCE_MARKER (R74 to R77, R81): the edge comes where the cartridge shifts it from the crossing of its source. In ACQUIRE
the clock begins its first cycle at a marker, which counts as the first of the 16 boundaries (R81 leaves open whether it does;
DESIGN CHOICE, log 128). -/
def execReferenceMarker (freq : Nat) (frac : Fin 16) (since : Nat) (sub : Fin 16) (s : State) : Host.Outcome State Fault Refusal :=
  done s (
    let s := takeRef s freq
    if s.phc.st = 0 ∧ !s.phc.run then
      if s.phc.refValid then
        let p := { s.phc with run := true, cycle := 0, phase := 0, freq := freq, markFor := 1, lockN := 1 }
        { s with phc := { p with missN := 0, corr := 0, corrNext := 0, perr := 0, goodFreq := freq } }
      else s
    else if s.phc.run then
      takeMarker s ((s.phc.phase * 16 + frac.val : Nat) + markerShift s s.phc.refSrc - (16 * since + sub.val : Nat))
    else s)

/-- Loss of mains is declared (R83, R100): it acts at the next boundary. -/
def declareLoss (s : State) : State :=
  let p := { s.phc with lossDue := true, holdExp := if s.phc.st = 5 then s.phc.holdExp else false }
  raisePhc { s with phc := p } 4

/-- A marker has been missed (R81, R83, R90): in ACQUIRE it ends the attempt, at the second in a row mains is lost. -/
def missMarker (s : State) : State :=
  let s := { s with phc := { s.phc with lockN := 0, validN := 0 } }
  match s.phc.st with
  | 0 => { s with phc := { s.phc with run := false, freq := 0 } }
  | 1 => if 1 ≤ s.phc.missN then declareLoss { s with phc := { s.phc with missN := s.phc.missN + 1 } }
         else { s with phc := { s.phc with missN := s.phc.missN + 1 } }
  | 5 => if 1 ≤ s.phc.missN then declareLoss { s with phc := { s.phc with missN := s.phc.missN + 1 } }
         else { s with phc := { s.phc with missN := s.phc.missN + 1 } }
  | _ => s

/-- MISSING_MARKER (R83): the window of this cycle's boundary closes without a valid marker. -/
def execMissingMarker (s : State) : Host.Outcome State Fault Refusal :=
  done s (
    if s.phc.run && !s.phc.stepping && !s.phc.lossDue && s.phc.markFor < s.phc.cycle + 1 then
      missMarker { s with phc := { s.phc with markFor := s.phc.cycle + 1 } }
    else s)

/-- HOLDOVER_TIMEOUT (R85): 10 s have passed since the loss of mains was declared. -/
def execHoldoverTimeout (s : State) : Host.Outcome State Fault Refusal :=
  done s (if s.phc.st = 2 ∨ (s.phc.st = 5 ∧ s.phc.from_ = 2) then { s with phc := { s.phc with holdExp := true } } else s)

/-! ### Time and network time (R101 to R103) -/

/-- The lease falls by one at a half-cycle boundary; at 0 the ball goes (R463, R464). -/
def leaseTick (s : State) : State :=
  if onTwin s && s.base.holdOut && s.phc.fire then
    if s.twn.lease ≤ 1 then
      ballLost (setHold { s with twn := { s.twn with lease := 0, leaseExp := true } } false s.base.holdIn) 0
    else { s with twn := { s.twn with lease := s.twn.lease - 1 } }
  else s

/-- The present unit becomes a later phase of the cycle; crossing phase 2048 is a half-cycle boundary. -/
def reachPhase (s : State) (p : Nat) : State :=
  let was := s.phc.phase
  let s := heldDue (elapseUnits { s with phc := { s.phc with phase := p } } (p - was))
  if was < 2048 ∧ 2048 ≤ p then leaseTick s else s

/-- The pass in progress ends, and with the power failing its commit may be the last one the retain write waits for (R144). -/
def finishPass (s : State) : State := if passDue s then pfSave (endPass s) else s

/-- A later phase of the cycle is reached; a pass that ends on the way is committed at its own unit (R331). -/
def advancePhase (s : State) (p : Nat) : State :=
  let e := ((s.lce.run.map PassRun.stop).getD 0) - s.phc.cycle * 4096
  if s.phc.phase < e ∧ e < p then finishPass (reachPhase (finishPass (reachPhase s e)) p) else finishPass (reachPhase s p)

/-- One phase unit passes, the cycle's last unit waiting for its boundary (log 42); where the clock does not run, one tick of the
RTC domain passes (R651; DESIGN CHOICE, log 3). -/
def tick (s : State) : State :=
  let s := flushEvents s
  if s.phc.run && s.clk.alive then (if s.phc.phase < 4095 then advancePhase s (s.phc.phase + 1) else s) else elapseNs s 30518

/-- A step on an empty queue: one phase unit passes (DESIGN CHOICE, log 3). -/
def idle (s : State) : Host.Outcome State Fault Refusal := done s (tick s)

/-- The phase units of a network time, from the two latest captures (R103); none while the conversion is not available. -/
def toPhase (s : State) (t : Nat) : Option Int :=
  let c := s.phc.cap1
  let b := s.phc.cap0
  if c.valid && b.valid && b.ns < c.ns then
    let l : Int := c.ns - b.ns
    some ((c.ts % 2 ^ 60 : Nat) + (2 * ((t : Int) - c.ns) * 4096 + l) / (2 * l))
  else none

/-- The capture of phase 0 (R101). -/
def takeCapture (s : State) : State :=
  if s.phc.st = 0 then s else
    let c : Capture := ⟨netLocked s, nowTs s, s.ptp.ns⟩
    { s with phc := { s.phc with cap0 := s.phc.cap1, cap1 := c, gen := (s.phc.gen + 1) % 2 ^ 32 } }

/-- A pending network-time target converted again at a boundary (R116, R117). -/
def reconvert (s : State) (t : Timed) : State :=
  if !t.net || t.fixed then s
  else match toPhase s t.at_ with
    | none => s
    | some u =>
      let a := absA s
      let others := s.phc.timed.filter (fun x => x.ring != t.ring)
      if u ≤ a then endTimed { s with phc := { s.phc with timed := others } } t.ring 0x10
      else { s with phc := { s.phc with timed := s.phc.timed.map (fun x =>
        if x.ring == t.ring then { x with unit := u.toNat, fixed := decide (u < a + 4096) } else x) } }

/-! ### The state machine at a boundary (R78 to R94) -/

/-- The clock may be steered to network time (R87). -/
def steers (s : State) : Bool := netLocked s && bitOf (lget s oPhcCtrl) 1

/-- The state after a boundary (R81, R85, R88, R90, R94). Where the 50th valid marker and the end of the 10 s fall on one
boundary, the clock relocks from HOLDOVER (the spec gives no order; DESIGN CHOICE, log 129). -/
def nextSt (s : State) : Nat :=
  let p := s.phc
  let synth := if steers s then 4 else 3
  match p.st with
  | 0 => if 16 ≤ p.lockN then 1 else 0
  | 1 => if p.lossDue then 2 else 1
  | 2 => if 50 ≤ p.validN then 5 else if p.holdExp then synth else 2
  | 5 => if p.lossDue then p.from_ else if 16 ≤ p.lockN then 1 else 5
  | _ => if 50 ≤ p.validN then 5 else synth

/-- The flags of a state (R78, R79); those of RELOCK are those of the state it was entered from. -/
def flagsOf (st from_ : Nat) : Nat :=
  let f := fun st => match st with
    | 2 => 5
    | 3 => 6
    | 4 => 2
    | _ => 0
  if st = 5 then f from_ else f st

/-- The state takes its next value, with the counts a new state begins with (R81, R85, R90, R94); HOLDOVER runs at the frequency
of the last good marker (R85), and a clock that leaves steering for SYNTH_FREE keeps its rate (R88). -/
def changeState (s : State) (st : Nat) : State :=
  if st = s.phc.st then s else
    let p := { s.phc with st := st, from_ := if st = 5 then s.phc.st else s.phc.from_, lossDue := false }
    let p := if st = 5 then { p with lockN := 0, missN := 0, relockFirst := true } else p
    let p := if st = 1 then { p with holdExp := false, missN := 0 } else p
    let p := if 2 ≤ st ∧ st ≤ 4 then { p with validN := 0, lockN := 0, missN := 0, slew := st != 2 && p.freq != nominal s } else p
    let p := if (s.phc.st = 3 ∧ st = 4) ∨ (s.phc.st = 4 ∧ st = 3) ∨ s.phc.st = 2 then
        { p with validN := s.phc.validN, slew := if s.phc.st = 2 then p.slew else s.phc.slew } else p
    { s with phc := if st = 2 then { p with freq := p.goodFreq } else p }

/-- One step of the slew of R86 toward nominal: 0.01 Hz at most. -/
def slewStep (s : State) : State :=
  let n := nominal s
  let f := s.phc.freq
  let g := if f + 100 < n then f + 100 else if n + 100 < f then f - 100 else n
  { s with phc := { s.phc with freq := g, slew := g != n } }

/-- The distance of the present network time from the nearest instant of the grid s + k / f, in nanoseconds, positive when the
instant lies behind (R87). -/
def gridError (s : State) : Int :=
  let f := nominal s / 10000
  let r := s.ptp.ns % 1000000000 * f % 1000000000
  if 2 * r ≤ 1000000000 then (r / f : Nat) else -(((1000000000 - r) / f : Nat) : Int)

/-- Steering to network time: the cycle is made shorter or longer, by at most 500 ppm of its rate, toward the grid. The distance
left shrinks at every cycle, at a pace the spec does not give (R87; log 43). -/
def steerNet (s : State) : State :=
  let e := gridError s
  let cycle := 10 ^ 13 / nominal s
  let m := min e.natAbs (cycle * 500 / 1000500)
  if m = 0 then { s with phc := { s.phc with freq := nominal s, steer := 0 } } else
    let (k, s) := takeFree s
    let d : Int := (1 + Config.steerPace k % m : Nat)
    { s with phc := { s.phc with freq := nominal s, steer := if 0 < e then -d else d } }

/-- The frequency of the cycle that begins (R81, R82, R85 to R91). -/
def takeFreq (s : State) : State :=
  let p := s.phc
  if p.st = 3 ∨ p.st = 4 then
    let s := if p.slew then slewStep s else s
    if s.phc.st = 4 ∧ !s.phc.slew then steerNet s else s
  else if p.st = 2 then s
  else { s with phc := { p with freq := if p.refValid then p.refFreq else p.freq, steer := 0 } }

/-- By how much a step cycle is longer than a nominal cycle, in 1/16 phase unit, for a marker at `e` from its first boundary: it
ends at the first marker 2048 phase units or more after that boundary, markers coming a nominal cycle apart (R92, R93; DEDUCED,
log 44). -/
def stepExtra (e : Int) : Int := if e < 32768 then e else e - 65536

/-- The correction of the cycle that begins: the phase error of its boundary, spread over the cycle, or in RELOCK a step cycle
when it exceeds 64 phase units (R82, R91, R92). An error from 21 to 64 units is more than 0.5 % of a cycle: the rest is left to
the cycles that follow (DESIGN CHOICE, log 130). -/
def takeCorr (s : State) : State :=
  let p := { s.phc with corrNext := 0, corr := 0, stepping := false }
  match s.phc.st with
  | 0 => { s with phc := { p with corr := s.phc.corrNext } }
  | 1 => { s with phc := { p with corr := s.phc.corrNext } }
  | 5 =>
    let e := if s.phc.relockFirst then s.phc.perr else s.phc.corrNext
    let p := { p with relockFirst := false }
    if e.natAbs ≤ 1024 then
      let c : Int := if 327 < e then 327 else if e < -327 then -327 else e
      { s with phc := { p with corr := c, corrNext := e - c } }
    else
      { s with phc := { p with corr := stepExtra e, stepping := true } }
  | _ => { s with phc := p }

/-! ### The partition table (R689 to R691) -/

/-- Offsets of the partition set (R721). -/
def inPartSet (o : Nat) : Bool := (0x200 ≤ o && o < 0x500) || (0x600 ≤ o && o < 0xA00)

/-- The first partition word that is out of range, as ERR_INDEX (R690). -/
def badPart (s : State) : Option Nat :=
  let bad := s.regs.filter (fun e => inPartSet e.1 && decide (16 < e.2.toNat))
  match bad with
  | [] => none
  | e :: _ => some (if e.1 < 0x500 then (e.1 - 0x200) / 4 else 0x100 + (e.1 - 0x600) / 4)

/-- An enabled loop breaks code 0x5 of R361 under a partition table. -/
def loopBreaks (t : State) (n : Nat) : Bool :=
  let part := loopPart t n
  let g := lGroup t.live n
  (part != 0 && ((bindings t.live n).filter (· != 0xFFFF)).any (fun id => ppart t id != part)) ||
  (g != 127 && (members t.live g).any (fun m => m < n && loopPart t m != part))

/-- An enabled group breaks it. -/
def groupBreaks (t : State) (g : Nat) : Bool :=
  match members t.live g with
  | m :: _ => loopPart t m != 0 && ppart t (gOut t.live g) != loopPart t m
  | [] => false

/-- A refusal of the partition set: code and ERR_INDEX (R690). A group's refusal names its first loop (DEDUCED, log 45). -/
def partCheck (s : State) : Option (Nat × Nat) :=
  let t := { s with live := takeShadow s.regs s.live inPartSet }
  match badPart s with
  | some i => some (1, i)
  | none =>
    match (enLoops t.live).find? (loopBreaks t), (enGroups t.live).find? (groupBreaks t) with
    | some n, _ => some (2, 0x100 + n)
    | none, some g => some (2, 0x100 + ((members t.live g).headD 0))
    | none, none =>
      if (s.img.map (breaksParts t)).getD false then some (3, 0x3FF)
      else if (s.ble.inactive.map (breaksParts t)).getD false then some (4, 0x3FF)
      else if s.ble.act.isSome then some (5, 0x3FF) else none

/-- The partition of what a force acts on. -/
def forcePart (s : State) (f : Force) : Nat :=
  if f.kind = 0 then ppart s f.obj
  else ((s.img.bind (fun im => instById im f.obj)).map Inst.part).getD f.part

/-- The partition set becomes live: forces follow their objects, watches of other partitions' rings go (R689, R691). -/
def partApply (s : State) : State :=
  let old := s
  let s := { s with live := takeShadow s.regs s.live inPartSet }
  let s := rset s oPartStatus (w32 ((rfld s oPartStatus 15 0 + 1) % 65536))
  let fs := s.forces.map (fun f => if forcePart old f = forcePart s f then f else { f with part := forcePart s f })
  let ws := s.watches.filter (fun w => ppart old w.point == ppart s w.point || w.part == 0 || w.part == ppart s w.point)
  { s with forces := fs, watches := ws }

/-- The partition commit at phase 0 (R689). -/
def partDue (s : State) : State :=
  if !bitOf (rget s oPartStatus) 31 then s
  else match partCheck s with
    | none => partApply s
    | some (code, i) => rset s oPartStatus (w32 (rfld s oPartStatus 15 0 + (i <<< 16) + (code <<< 26)))

/-- GLB_PART_COMMIT (R689): the word written. -/
def partRequest (s : State) (v : Word) : State := if bitOf v 0 then ror s oPartStatus 0x80000000 else s

/-- GLB_PART_COMMIT. -/
def execGlbPartCommit (v : Word) (s : State) : Host.Outcome State Fault Refusal := done s (reached s 0 fun s => partRequest s v)

/-! ### The boundary (R80, R82, R95, R101, R116, R140) -/

/-- The periodic time event of TEVT_EXP (R98). -/
def periodicEvent (s : State) : State :=
  let k := fld (lget s oPhcCtrl) 6 2
  if clockRuns s && k != 0 && s.phc.cycle % 2 ^ k == 0 then timeEvent s 0 0 false else s

/-- The clock's state, frequency, correction and flags for the cycle that begins, and the capture of its phase 0; an event that
arises has the flags now in force (R80, R100, R101). -/
def newCycle (s : State) : State :=
  let was := s.phc.st
  let s := takeCorr (takeFreq (changeState s (nextSt s)))
  let s := { s with phc := { s.phc with flags := flagsOf s.phc.st s.phc.from_ + 8 * s.phc.stepping.toNat } }
  let s := takeCapture s
  if s.phc.st = was then s else raisePhc s 1

/-- The cycle number advances and phase 0 of the next cycle is reached; every effect of a boundary follows in its order. -/
def boundary (s : State) : State :=
  let s := flushEvents s
  let s := advancePhase s 4096
  let p := { s.phc with cycle := (s.phc.cycle + 1) % 2 ^ 48, phase := 0 }
  let s := leaseTick (newCycle { s with phc := p })
  let s := forAll s.phc.timed reconvert s
  let s := dueCommits (partDue s)
  periodicEvent (modeBoundary s)

/-- CYCLE_BOUNDARY (R82). -/
def execCycleBoundary (s : State) : Host.Outcome State Fault Refusal :=
  done s (if s.phc.run && s.clk.alive && s.clk.resetWait.isNone && !s.phc.stepping then boundary s else s)

/-- A step cycle without a marker ends at 6144 phase units of nominal length: the phases it has still to emit are spread over
the time that is left (R92). -/
def stretchStep (s : State) : State :=
  let p : Int := s.phc.phase
  let left : Int := 98304 - p * (65536 + s.phc.corr) / 4096
  { s with phc := { s.phc with corr := left * 4096 / (4096 - p) - 65536 } }

/-- STEP_CYCLE_END (R92, R93): at the first marker 2048 units or more after its boundary, which comes when all its phases have
been emitted; or without a valid one at 6144 units of nominal length, which counts as missing. -/
def execStepCycleEnd (marker : Bool) (s : State) : Host.Outcome State Fault Refusal :=
  done s (
    if s.phc.run && s.clk.alive && s.clk.resetWait.isNone && s.phc.stepping then
      let good := marker && s.phc.refValid
      let s := if good then s else stretchStep s
      let p := { s.phc with markFor := s.phc.cycle + 2, stepping := false }
      let p := if good then { p with lockN := 1, missN := 0, corrNext := 0, perr := 0 } else p
      let s := { s with phc := p }
      let s := if good then s else missMarker s
      boundary (raisePhc s 2)
    else s)

/-! ### The PHC commit (R111 to R114, R444) -/

/-- A commit of the PHC set is requested; none while an activation carries it (R444). -/
def phcRequest (s : State) : State :=
  if phcPending s || (s.ble.act.map Activation.schedWith).getD false then s
  else { ror s oPhcCommitStatus 0x80000000 with phc := { s.phc with reqA := absA s } }

/-- PHC_COMMIT (R111): the word written. -/
def execPhcCommit (v : Word) (s : State) : Host.Outcome State Fault Refusal :=
  done s (reached s 6 fun s => if bitOf v 0 then unlessStandby s phcRequest else s)

/-- PHC_COMMIT_POINT (R111). -/
def execPhcCommitPoint (s : State) : Host.Outcome State Fault Refusal := done s (phcDue s)

/-! ### Firings (R106 to R108, R118) -/

/-- BANK_CONVERT (R161). -/
def execBankConvert (n : Fin 1024) (s : State) : Host.Outcome State Fault Refusal :=
  let c := dueCommits s
  done s (match fireEntry c n 1 with
    | some (arg, t) => convert t arg
    | none => c)

/-- The timed ZC_OUTPUT of a ring whose phase unit is fixed and lies at least 200 microseconds ahead (R115, R116, R188). -/
def timedZc (s : State) (r : Nat) : Option Timed :=
  s.phc.timed.find? (fun t => t.ring == r && t.action == 4 && (t.fixed || !t.net) && decide (absA s + unitsOfUs s 200 ≤ t.unit))

/-- ZC_OUTPUT (R188): the logic side announces the entry's next firing, or that of a timed action. -/
def execZcOutput (n : Fin 1088) (ok again : Bool) (s : State) : Host.Outcome State Fault Refusal :=
  done s (
    if !(clockRuns s && canSend s) then s
    else if n.val < 1024 then
      (if entryEn s.live n && entryAction s.live n == 4 && entryPeriod s.live n != 0 then
        sendTiming s n (schedWord s.live n 2) (nextFiring s n) ok again
      else s)
    else match timedZc s (n.val - 1024) with
      | some t => sendTiming s n t.arg t.unit ok again
      | none => s)

/-- HOST_EVENT (R107). -/
def execHostEvent (n : Fin 1024) (s : State) : Host.Outcome State Fault Refusal :=
  let c := dueCommits s
  done s (match fireEntry c n 7 with
    | some (arg, t) => timeEvent t 2 (w32 (fld arg 15 0)) false
    | none => c)

/-- What a timed action does (R115): a ZC_OUTPUT switches what the bank holds its timing frame for (R157). -/
def timedEffect (s : State) (t : Timed) : State :=
  match t.action with
  | 1 => convert s t.arg
  | 4 => zcSwitch s (fld t.arg 3 0) (1024 + t.ring)
  | _ => timeEvent s 2 (w32 (fld t.arg 15 0)) false

/-- TIMED_ACTION_FIRE (R116, R118): after every schedule firing of its rank, completing with the timestamp at which it fired.
Timed actions of one rank at one phase unit fire in ascending ring number (R118 gives no order among them; DESIGN CHOICE, log 131). -/
def execTimedActionFire (r : Fin 64) (s : State) : Host.Outcome State Fault Refusal :=
  let c := dueCommits s
  done s (match c.phc.timed.find? (fun t => t.ring == r.val) with
    | some t =>
      if c.phc.run && c.clk.alive && c.phc.st != 0 && t.unit == absA c && (t.fixed || !t.net) && inOrder c t.action (1024 + r.val) then
        let p := { c.phc with timed := c.phc.timed.filter (fun x => x.ring != r.val), last := some (absA c, t.action, 1024 + r.val) }
        let ts := nowTs c
        let d := timedEffect { c with phc := p } t
        forAll (waitingRings d (fun f => opOf f == 0x40)) (fun d e =>
          if e.1 = r.val then completeTs d e.1 e.2 ts else d) d
      else c
    | none => c)

end Sys2Proof.Machine
end

