-- ==== Sys2Proof/Machine/Meter.lean ====
section
/-! DEFINITION. What the cartridge computes from the samples of one cycle: corrected currents, power, RMS values, harmonics,
energies and angles (R274, R280 to R283). All of it is exact integer arithmetic on the samples, rounded to the nearest where a
quantity is formed (log 107). -/

namespace Sys2Proof.Machine

/-! ### The circuit map (R275) -/

/-- Word at a byte offset of a block. -/
def pWord (l : List Nat) (o : Nat) : Word := w32 (leNat ((l.drop o).take 4))

/-- TYPE of circuit `k` in a circuit map (R275). -/
def cType (m : List Nat) (k : Nat) : Nat := fld (pWord m (16 * k)) 1 0
/-- VSRC of circuit `k`. -/
def cVsrc (m : List Nat) (k : Nat) : Nat := fld (pWord m (16 * k)) 3 2
/-- DEMAND_SET of circuit `k`. -/
def cSet (m : List Nat) (k : Nat) : Nat := fld (pWord m (16 * k)) 6 4
/-- Inputs of circuit `k`, A first. -/
def cIns (m : List Nat) (k : Nat) : List Nat :=
  let w := pWord m (16 * k + 4)
  match cType m k with
  | 1 => [fld w 6 0]
  | 2 => [fld w 6 0, fld w 14 8, fld w 22 16]
  | _ => []
/-- INV of input `j` of circuit `k`, 0 for IN_A. -/
def cInv (m : List Nat) (k j : Nat) : Bool := bitOf (pWord m (16 * k + 4)) (24 + j)
/-- IPR of circuit `k` in 0.1 A. -/
def cIpr (m : List Nat) (k : Nat) : Nat := (pWord m (16 * k + 8)).toNat
/-- PH_ERR of circuit `k` in 0.01 degrees. -/
def cPhErr (m : List Nat) (k : Nat) : Int := signedOf 16 (fld (pWord m (16 * k + 12)) 15 0)
/-- RATIO_ERR of circuit `k` in ppm. -/
def cRatioErr (m : List Nat) (k : Nat) : Int := signedOf 16 (fld (pWord m (16 * k + 12)) 31 16)

/-! ### Samples -/

/-- The 256 samples of a list. -/
def samples256 (l : List Int) : List Int := (l ++ List.replicate 256 0).take 256

/-- The samples of voltage `k`, 0 for V1, in mV. -/
def vSamples (m : CycleMeas) (k : Nat) : List Int := samples256 (m.v.getD k [])

/-- The samples of current input `n`, in microvolts at the sensor's output. -/
def iSamples (m : CycleMeas) (n : Nat) : List Int := samples256 ((alook m.i n).getD [])

/-- The samples delayed by `d` sample periods, cyclically. -/
def rotated (l : List Int) (d : Nat) : List Int := let k := 256 - d % 256; l.drop k ++ l.take k

/-- The samples delayed by `d` in 2^-16 of a sample period, between two samples linearly (how a phase correction is applied to
samples the spec does not say; DESIGN CHOICE, log 139). -/
def delayed (l : List Int) (d : Int) : List Int :=
  let w := (d / 65536 % 256).toNat
  let f := d % 65536
  List.zipWith (fun a b => (a * (65536 - f) + b * f) / 65536) (rotated l w) (rotated l (w + 1))

/-- The corrected current of input `j` of circuit `k`, in nA (R281): scaled by IPR / 0.333 V, divided by one plus RATIO_ERR, its
gain corrected, delayed by PH_ERR less the phase correction, and inverted where INV says so. A Rogowski coil's output is that
of a current transformer (R273), so SENSOR changes nothing. `c` is the gain in ppm and the phase in microradians. -/
def corrected (map : List Nat) (c : Int × Int) (m : CycleMeas) (k j n : Nat) : List Int :=
  let num : Int := cIpr map k * 100000 * (1000000 + c.1) * (if cInv map k j then -1 else 1)
  let den : Nat := 333 * (1000000 + cRatioErr map k).toNat
  let d := cPhErr map k * 256 * 65536 / 36000 - c.2 * 2670176857 / 1000000000
  delayed ((iSamples m n).map (fun u => qRne (u * num) den)) d

/-! ### Sums, RMS values and harmonics -/

/-- The sum of the products of two lists of samples. -/
def dot (a b : List Int) : Int := (List.zipWith (· * ·) a b).sum

/-- The RMS of samples, in their unit. -/
def rms (l : List Int) : Nat := isqrt ((dot l l).toNat / 256)

/-- The cosine of 0 to 64 256ths of a turn, times 2^30. -/
def cosTab : List Int :=
  [1073741824, 1073418433, 1072448455, 1070832474, 1068571464, 1065666786, 1062120190, 1057933813,
   1053110176, 1047652185, 1041563127, 1034846671, 1027506862, 1019548121, 1010975242, 1001793390,
   992008094, 981625251, 970651112, 959092290, 946955747, 934248793, 920979082, 907154608,
   892783698, 877875009, 862437520, 846480531, 830013654, 813046808, 795590213, 777654384,
   759250125, 740388522, 721080937, 701339000, 681174602, 660599890, 639627258, 618269338,
   596538995, 574449320, 552013618, 529245404, 506158392, 482766489, 459083786, 435124548,
   410903207, 386434353, 361732726, 336813204, 311690799, 286380643, 260897982, 235258165,
   209476638, 183568930, 157550647, 131437462, 105245103, 78989349, 52686014, 26350943,
   0]

/-- The cosine of `k` 256ths of a turn, times 2^30. -/
def cosOf (k : Nat) : Int :=
  let k := k % 256
  let k := if 128 < k then 256 - k else k
  if k ≤ 64 then cosTab.getD k 0 else -(cosTab.getD (128 - k) 0)

/-- The sums of the samples times the cosine and the sine of the harmonic's angle: X_h is 2/256 of the first less `i` times the
second (R281). -/
def dft (l : List Int) (h : Nat) : Int × Int :=
  (dot l ((upto 256).map (fun j => cosOf (h * j))), dot l ((upto 256).map (fun j => cosOf (h * j + 192))))

/-- H_h, the RMS of a harmonic (R281). -/
def harm (x : Int × Int) : Nat := isqrt ((x.1 * x.1 + x.2 * x.2).toNat / 2 ^ 75)

/-- Harmonics 1 to 31 of samples. -/
def harms (l : List Int) : List Nat := (upto 31).map (fun h => harm (dft l (h + 1)))

/-- Fundamental reactive power of two fundamentals, in units of 2^-75 of the product of the samples' units: positive while the
current lags (R281). -/
def reactive (v i : Int × Int) : Int := v.1 * i.2 - v.2 * i.1

/-! ### The angle of a fundamental -/

/-- arctan(2^-k) for k from 0, in 2^-32 of a turn. -/
def atanTab : List Int :=
  [536870912, 316933406, 167458907, 85004756, 42667331, 21354465,
   10679838, 5340245, 2670163, 1335087, 667544, 333772,
   166886, 83443, 41722, 20861, 10430, 5215,
   2608, 1304, 652, 326, 163, 81,
   41, 20, 10, 5]

/-- The steps of CORDIC: a vector in the right half plane is turned onto the positive axis, and the angle it had is summed. -/
def cordic : List Int → Nat → Int → Int → Int → Int
  | [], _, _, _, a => a
  | t :: r, k, x, y, a =>
    if 0 ≤ y then cordic r (k + 1) (x + y / 2 ^ k) (y - x / 2 ^ k) (a + t)
    else cordic r (k + 1) (x - y / 2 ^ k) (y + x / 2 ^ k) (a - t)

/-- The lag of a fundamental, in 1/65536 of a cycle (1/16 phase unit). -/
def lagOf (x : Int × Int) : Int :=
  let s : Int := if x.1 < 0 then -1 else 1
  let a := cordic atanTab 0 (s * x.1) (s * x.2) 0
  (((if x.1 < 0 then a + 2 ^ 31 else a) + 2 ^ 15) / 2 ^ 16) % 65536

/-- The fundamentals of V1 to V3, in mV RMS (R76). -/
def fundOf (m : CycleMeas) : List Nat := (upto 3).map (fun k => harm (dft (vSamples m k) 1))

/-- The angle by which voltage `k` lags V1, while both are present (R76). -/
def angleOf (m : CycleMeas) (f : List Nat) (k : Nat) : Option Nat :=
  if 40000 ≤ nAt f 0 ∧ 40000 ≤ nAt f k then
    some (((lagOf (dft (vSamples m k) 1) - lagOf (dft (vSamples m 0) 1)) % 65536).toNat)
  else none

/-! ### One input over one cycle -/

/-- What a cycle gives for one current input in use (R281): active and fundamental reactive power in pW, apparent power in pVA, RMS
voltage in mV and current in nA, harmonics, energies in µWh, µvarh and µVAh, and the conditions of its status (log 48). -/
structure InRes where
  n : Nat
  p : Int
  q : Int
  s : Nat
  v : Nat
  i : Nat
  hv : List Nat
  hi : List Nat
  e : Int
  eq : Int
  es : Nat
  noV : Bool
  excess : Bool
  low : Bool
  deriving DecidableEq, Repr

/-- Picowatts of a cycle of a length as energy in µWh: 1 µWh is 3600 µJ. -/
def energyOf (num : Int) (den ns : Nat) : Int := qRne (num * ns) (den * (36 * 10 ^ 17))

/-- Input `j` of circuit `k` over a cycle of `ns` (R274, R281): below 0.1 % of IPR it gives no energy. -/
def inRes (map : List Nat) (c : Int × Int) (m : CycleMeas) (ns k j n : Nat) : InRes :=
  let vs := vSamples m (if cType map k = 1 then cVsrc map k else j)
  let is := corrected map c m k j n
  let v := rms vs
  let i := rms is
  let pn := dot vs is
  let qn := reactive (dft vs 1) (dft is 1)
  let low := decide (i < cIpr map k * 100000)
  let u := iSamples m n
  { n := n, p := qRne pn 256, q := qRne qn (2 ^ 75), s := v * i, v := v, i := i, hv := harms vs, hi := harms is,
    e := if low then 0 else energyOf pn 256 ns, eq := if low then 0 else energyOf qn (2 ^ 75) ns,
    es := if low then 0 else (energyOf (v * i : Nat) 1 ns).toNat,
    noV := decide (v < 20000), low := low,
    excess := decide (400000 < rms u) || u.any (fun x => decide (1200000 < x.natAbs)) || decide (360000 < v) }

/-- The neutral current of a three-phase circuit, in nA (R282): the RMS of the sum of its corrected currents. -/
def neutralOf (l : List (List Int)) : Nat :=
  match l with
  | [a, b, c] => rms (List.zipWith (· + ·) (List.zipWith (· + ·) a b) c)
  | _ => 0

/-! ### Averages (R283) -/

/-- Two lists of sums added. -/
def addHarms (a b : List Nat) : List Nat := if a.isEmpty then b else List.zipWith (· + ·) a b

/-- An input's cycle added to its window. -/
def InAcc.add (a : InAcc) (r : InRes) : InAcc :=
  { n := a.n + 1, p := a.p + r.p, q := a.q + r.q, s := a.s + r.s, v := a.v + r.v, i := a.i + r.i, hv := addHarms a.hv r.hv,
    hi := addHarms a.hi r.hi, noV := a.noV || r.noV, excess := a.excess || r.excess, low := r.low }

/-- Total harmonic distortion in percent of sums over `n` cycles, whose 1 % of range is `floor` (R283). -/
def thdOf (h : List Nat) (n floor : Nat) : Word :=
  let h1 := nAt h 0
  if h1 < floor * n ∨ h1 = 0 then qNaN
  else fOfQ (isqrt (((h.drop 1).map (fun x => x * x)).sum * 10 ^ 16) : Nat) (h1 * 10 ^ 6)

end Sys2Proof.Machine
end

