-- ==== Sys2Proof/Machine/Cart.lean ====
section
/-! DEFINITION. The metering cartridge: seal, starts and saves, energies and their classification, demand intervals, pulses,
parameters, the log and the doors (R262 to R325). -/

namespace Sys2Proof.Machine

/-! ### Its state -/

/-- The state with the cartridge changed. -/
def modMtr (s : State) (f : Mtr → Mtr) : State := { s with mtr := f s.mtr }

/-- Circuit `k`. -/
def circ (s : State) (k : Nat) : Circ := tget (fun _ => Circ.reset) s.mtr.circs k
/-- The state with circuit `k` replaced. -/
def setCirc (s : State) (k : Nat) (c : Circ) : State := modMtr s (fun m => { m with circs := tset (fun _ => Circ.reset) m.circs k c })
/-- Demand set `j`. -/
def dset_ (s : State) (j : Nat) : DemSet := tget (fun _ => DemSet.reset) s.mtr.sets j
/-- The state with demand set `j` replaced. -/
def setDset (s : State) (j : Nat) (d : DemSet) : State := modMtr s (fun m => { m with sets := tset (fun _ => DemSet.reset) m.sets j d })
/-- Pulse output `o`, 8 the MTR indicator. -/
def pulse (s : State) (o : Nat) : Pulse := tget (fun _ => Pulse.reset) s.mtr.pulses o
/-- The state with a pulse output replaced. -/
def setPulse (s : State) (o : Nat) (p : Pulse) : State := modMtr s (fun m => { m with pulses := tset (fun _ => Pulse.reset) m.pulses o p })

/-- MTR_EVENT bits become set: a host event (R325). -/
def mtrEvent (s : State) (bit : Nat) : State := raiseHost s oMtrEvent (oneBit bit)

/-- A saturating 32-bit counter (R312). -/
def satInc (w : Word) : Word := if w = 0xFFFFFFFF then w else w + 1

/-! ### Parameter blocks (R266, R275, R285, R291, R298) -/

/-- Length of parameter block `b`, 4 being the tenant table (R320). -/
def blockLen (b : Nat) : Nat := nAt [1536, 12320, 72, 64, 96] b

/-- A block no commit has written: unused circuits, and zeros. -/
def parDefault (b : Nat) : List Nat :=
  if b = 0 then (List.replicate 96 ([0, 0, 0, 0, 0, 0x7F, 0x7F, 0] ++ List.replicate 8 0)).flatten
  else List.replicate (blockLen b) 0

/-- The live bytes of parameter block `b`; the tenant table as block 4 (R320). -/
def parBytes (s : State) (b : Nat) : List Nat :=
  if b = 4 then (upto 96).map (circPart s) else (alook s.mtr.par b).getD (parDefault b)

/-- Entry `k` of a circuit map lies outside its ranges (R275, R276). -/
def badCircuit (m : List Nat) (k : Nat) : Bool :=
  let w0 := pWord m (16 * k)
  let w1 := pWord m (16 * k + 4)
  let w3 := pWord m (16 * k + 12)
  let t := cType m k
  let one := fun n => n ≤ 95
  if t = 0 then w0 != 0 || w1 != 0x7F7F00 || cIpr m k != 0 || w3 != 0
  else
    t == 3 || fld w0 31 7 != 0 || 2 < fld w0 3 2 || (t == 2 && fld w0 3 2 != 0) || bitOf w1 7 || bitOf w1 15 || bitOf w1 23 ||
    fld w1 31 28 != 0 || !one (fld w1 6 0) ||
    (t == 1 && (fld w1 14 8 != 0x7F || fld w1 22 16 != 0x7F)) || (t == 2 && !(one (fld w1 14 8) && one (fld w1 22 16))) ||
    cIpr m k < 10 || 60000 < cIpr m k || 500 < (signedOf 16 (fld w3 15 0)).natAbs || 20000 < (signedOf 16 (fld w3 31 16)).natAbs ||
    !(cIns m k).Nodup || (cIns m k).any (fun n => (upto k).any (fun j => (cIns m j).contains n))

/-- Temperature `j` of a compensation table, in 0.1 degrees. -/
def tcTemp (l : List Nat) (j : Nat) : Int := signedOf 16 (leNat ((l.drop (2 * j)).take 2))
/-- Gain and phase correction of input `n` at point `j`. -/
def tcPoint (l : List Nat) (n j : Nat) : Int × Int :=
  let o := 0x20 + 128 * n + 8 * j
  (sw (pWord l o), sw (pWord l (o + 4)))

/-- Entry `n` of a compensation table fails: a correction outside its range, and for entry 0 temperatures that do not ascend. -/
def badComp (l : List Nat) (n : Nat) : Bool :=
  (n == 0 && (upto 15).any (fun j => decide (tcTemp l (j + 1) ≤ tcTemp l j))) ||
  (upto 16).any (fun j => 50000 < (tcPoint l n j).1.natAbs || 20000 < (tcPoint l n j).2.natAbs)

/-- Entry `o` of the pulse block fails its ranges (R298); an entry of zeros is unused (DESIGN CHOICE, log 47). -/
def badPulse (l : List Nat) (o : Nat) : Bool :=
  let w := pWord l (8 * o)
  let g := (pWord l (8 * o + 4)).toNat
  if w = 0 ∧ g = 0 then false
  else
    fld w 31 20 != 0 || 95 < fld w 8 2 || 6 < fld w 11 9 || g == 0 ||
    (if o = 8 then fld w 19 12 != 0 || 1000000 < g else fld w 19 12 < 30 || 250 < fld w 19 12 || 100000 < g)

/-- LEN of a demand set in seconds; 0 unused (R291). -/
def lenS (l : List Nat) (j : Nat) : Nat := nAt [0, 300, 600, 900, 1800, 3600, 0, 0] (fld (pWord l (8 * j)) 2 0)
/-- SUBS of a demand set. -/
def subsOf (l : List Nat) (j : Nat) : Nat := fld (pWord l (8 * j)) 12 3

/-- Entry `j` of the demand sets fails (R291). -/
def badDemand (l : List Nat) (j : Nat) : Bool :=
  let w := pWord l (8 * j)
  5 < fld w 2 0 || fld w 31 14 != 0 ||
  (lenS l j != 0 && (subsOf l j == 0 || lenS l j < subsOf l j || 540 * subsOf l j < lenS l j))

/-- The first failing entry of a staged block (R276, R291, R320). -/
def blockFault (b : Nat) (l : List Nat) : Option Nat :=
  match b with
  | 0 => (upto 96).find? (badCircuit l)
  | 1 => (upto 96).find? (badComp l)
  | 2 => (upto 9).find? (badPulse l)
  | _ => (upto 8).find? (badDemand l)

/-! ### The log (R309 to R313) -/

/-- The legal region is full (R313). -/
def legalFull (s : State) : Bool := 512 ≤ s.mtr.legalLog.length

/-- A record of the metrology log (R310): the operational region is a ring, the legal one is never overwritten. -/
def mtrLog (s : State) (legal : Bool) (code : Nat) (args : List Word) : State :=
  if legal && legalFull s then s else
    let a := (args ++ List.replicate 4 0).take 4
    let t := s.mtr.optime
    let r := withCrc ([w32 s.mtr.logSeq, w32 t, w32 ((t >>> 32) % 256 + 256 * legal.toNat + (code <<< 16))] ++ a)
    modMtr s (fun m =>
      let m := { m with logSeq := m.logSeq + 1 }
      if legal then { m with legalLog := m.legalLog ++ [r] }
      else { m with opLog := (if 512 ≤ m.opLog.length then m.opLog.drop 1 else m.opLog) ++ [r] })

/-- An event logged at most once an hour, given when it was last logged (R311). -/
def hourPast (s : State) (last : Option Nat) : Bool :=
  match last with
  | some t => decide (t + 36000 ≤ s.mtr.optime)
  | none => true

/-! ### The seal (R265, R266, R321) -/

/-- SEAL_CHANGE (R265, R266): counted and recorded; a staged block is a copy of the live one from the opening; it goes at the
closing, as software does that was handed over and not yet taken. -/
def execSealChange (open_ : Bool) (s : State) : Host.Outcome State Fault Refusal :=
  done s (
    if !s.mtr.running || s.mtr.sealOpen == open_ then s
    else
      let live := (upto 4).map (fun b => (b, parBytes s b))
      let s := modMtr s (fun m => { m with sealOpen := open_, staged := if open_ then live else [] })
      let s := if open_ then s else { s with upd := { s.upd with cartSw := none } }
      let s := if open_ then modMtr s (fun m => { m with cntSeal := satInc m.cntSeal }) else s
      mtrEvent (if open_ then mtrLog s true 1 [s.mtr.cntSeal] else mtrLog s true 2 []) 0)

/-! ### Points and the read window (R314 to R318) -/

/-- Points go back to what an unused circuit reads (R315). -/
def clearPts (s : State) (ids : List Nat) : State := forAll ids (fun s id => pset s id (ptDefault id)) s

/-- The sixteen points of circuit `k`. -/
def circPts (k : Nat) : List Nat := (upto 16).map (0x1000 + 16 * k + ·)

/-- Every metering point goes back (R315). -/
def clearMetering (s : State) : State := clearPts (clearPts s ((upto 96).flatMap circPts)) [0x1600, 0x1601, 0x1602, 0x1603]

/-- A snapshot enters the read window (R317): registers, save number, metering points, and the map its FLAGS follow. -/
def snapshot (s : State) : State :=
  let pts := s.pts.filter (fun e => 0x1000 ≤ e.1 && e.1 < 0x1604)
  let map := parBytes s 0
  modMtr s (fun m => { m with
    snapCirc := m.circ, snapPhs := m.phs, snapSave := m.saveSeq, snapPts := pts, snapMap := map, snapGen := m.snapGen + 1 })

/-- Sum of a list of binary32 numbers, in order. -/
def fsum : List Word → Word
  | [] => 0
  | a :: r => r.foldl fadd a

/-- What the averaging window has summed of input `n`. -/
def accOf (s : State) (n : Nat) : InAcc := tget (fun _ => InAcc.reset) s.mtr.acc n

/-- An average of a sum of `n` values, in units of 1/`den`. -/
def avg (sum : Int) (n den : Nat) : Word := fOfQ sum (n * den)

/-- The metering points of a circuit in use, from the averages of a window (R283, R314; log 48 for the status word). The least
fundamental for which a distortion is given is 1 % of 300 V and of 120 % of IPR (log 140). -/
def circRefresh (map : List Nat) (s : State) (k : Nat) : State :=
  let ins := cIns map k
  let xs := ins.map (accOf s)
  if ins.isEmpty || xs.any (fun a => a.n == 0) then s else
    let at3 := fun (f : InAcc → Word) (j : Nat) => (xs[j]?.map f).getD qNaN
    let p := fsum (xs.map (fun a => avg a.p a.n (10 ^ 12)))
    let a := fsum (xs.map (fun a => avg a.s a.n (10 ^ 12)))
    let v := fun a : InAcc => avg a.v a.n 1000
    let i := fun a : InAcc => avg a.i a.n (10 ^ 9)
    let pf := if flt a (dec (cIpr map k * 23 * ins.length) 1000) then qNaN else fdiv p a
    let st := setBit (setBit (setBit (setBit 1 1 (xs.any InAcc.noV)) 2 (xs.any InAcc.excess)) 3 (flt p 0)) 4 (xs.all InAcc.low)
    let low := [p, fsum (xs.map (fun a => avg a.q a.n (10 ^ 12))), a, pf, at3 v 0, at3 v 1, at3 v 2, at3 i 0, at3 i 1, at3 i 2]
    let high := [(xs.map (fun a => thdOf a.hv a.n 3000)).foldl fmaxN qNaN,
      (xs.map (fun a => thdOf a.hi a.n (cIpr map k * 1200000))).foldl fmaxN qNaN,
      if ins.length = 3 then avg (tget (fun _ => 0) s.mtr.nacc k : Nat) ((xs.map InAcc.n).headD 1) (10 ^ 9) else qNaN, st]
    let s := forAll (upto 10) (fun s q => pset s (0x1000 + 16 * k + q) (wAt low q)) s
    forAll (upto 4) (fun s q => pset s (0x1000 + 16 * k + 12 + q) (wAt high q)) s

/-- The sums of an averaging window begin again. -/
def clearAcc (m : Mtr) : Mtr := { m with winN := 0, acc := [], vacc := [], nacc := [] }

/-- The averaging window ends after 10 cycles below 55 Hz, after 12 otherwise (R283): points and a snapshot (R314, R317). -/
def windowStep (m : CycleMeas) (s : State) : State :=
  let n := s.mtr.winN + 1
  if n < (if m.freq < 550000 then 10 else 12) then modMtr s (fun c => { c with winN := n })
  else
    let s := forAll (upto 96) (circRefresh (parBytes s 0)) s
    let v := fun k => avg (nAt s.mtr.vacc k) n 1000
    let s := pset (pset (pset (pset s 0x1600 (dec m.freq 10000)) 0x1601 (v 0)) 0x1602 (v 1)) 0x1603 (v 2)
    snapshot (modMtr s clearAcc)

/-! ### Energies, registers and pulses (R274, R282, R288 to R290, R299, R301) -/

/-- What one cycle's energies add to AP, AN, VQ1 to VQ4 and VA (R288). -/
def classify (e eq : Int) (es : Nat) : List Nat :=
  let a := e.natAbs
  let r := eq.natAbs
  let imp := decide (0 ≤ e)
  let pos := decide (0 ≤ eq)
  [if imp then a else 0, if imp then 0 else a, if imp && pos then r else 0, if !imp && pos then r else 0,
    if !imp && !pos then r else 0, if imp && !pos then r else 0, es]

/-- A register set after an addition, each register modulo 2^64 (R290). -/
def regsAdd (l d : List Nat) : List Nat := (upto 7).map (fun j => (nAt l j + nAt d j) % 2 ^ 64)

/-- One pulse output takes an addition to a register (R299, R301). -/
def pulseAdd (s : State) (o weight d : Nat) : State :=
  let p := pulse s o
  let a := p.acc + weight * d
  let n := a / 1000000000
  let total := p.pend + n
  let lost := total - 65535
  let s := setPulse s o { p with acc := a % 1000000000, pend := min total 65535, lost := p.lost + lost }
  if lost = 0 then s
  else
    let s := mtrEvent s 3
    if hourPast s p.logged then
      let s := mtrLog s false 0x105 [w32 o, w32 (pulse s o).lost]
      setPulse s o { pulse s o with lost := 0, logged := some s.mtr.optime }
    else s

/-- The outputs that watch a register set take what the cycle added to it (R298, R299). -/
def pulsesOf (s : State) (phase : Bool) (n : Nat) (d : List Nat) : State :=
  let l := parBytes s 2
  forAll (upto 9) (fun s o =>
    let w := pWord l (8 * o)
    if bitOf w 0 && bitOf w 1 == phase && fld w 8 2 == n then pulseAdd s o (pWord l (8 * o + 4)).toNat (nAt d (fld w 11 9))
    else s) s

/-- A phase set counts. -/
def addPhase (s : State) (n : Nat) (d : List Nat) : State :=
  pulsesOf (modMtr s (fun m => { m with phs := tset (fun _ => []) m.phs n (regsAdd (tget (fun _ => []) m.phs n) d) })) true n d

/-- A circuit set counts. -/
def addCirc (s : State) (k : Nat) (d : List Nat) : State :=
  pulsesOf (modMtr s (fun m => { m with circ := tset (fun _ => []) m.circ k (regsAdd (tget (fun _ => []) m.circ k) d) })) false k d

/-- The corrections of input `n` in force (R286). -/
def corrOf (s : State) (n : Nat) : Int × Int := (alook s.mtr.corr n).getD (0, 0)

/-- One circuit's cycle: each input into its phase set, the signed sum into the circuit set, and all of it into the averaging
window (R282, R283, R288, R289). -/
def circCycle (map : List Nat) (m : CycleMeas) (ns : Nat) (s : State) (k : Nat) : State :=
  let ins := (cIns map k).zipIdx
  if ins.isEmpty then s else
    let rs := ins.map (fun x => inRes map (corrOf s x.1) m ns k x.2 x.1)
    let nl := neutralOf (ins.map (fun x => corrected map (corrOf s x.1) m k x.2 x.1))
    let s := forAll rs (fun s r => addPhase s r.n (classify r.e r.eq r.es)) s
    let s := addCirc s k (classify ((rs.map InRes.e).sum) ((rs.map InRes.eq).sum) ((rs.map InRes.es).sum))
    modMtr s (fun c => { c with
      acc := rs.foldl (fun t r => tset (fun _ => InAcc.reset) t r.n ((tget (fun _ => InAcc.reset) t r.n).add r)) c.acc,
      nacc := tset (fun _ => 0) c.nacc k (tget (fun _ => 0) c.nacc k + nl) })

/-! ### Demand intervals (R291 to R297) -/

/-- Import and export registers of circuit `k`. -/
def apOf (s : State) (k : Nat) : Nat := nAt (tget (fun _ => []) s.mtr.circ k) 0
/-- AN of circuit `k`. -/
def anOf (s : State) (k : Nat) : Nat := nAt (tget (fun _ => []) s.mtr.circ k) 1

/-- Demand in W: the increase in µWh divided by the nominal length, to the nearest (R296). -/
def demandW (now start len : Nat) : Nat := (2 * ((now + 2 ^ 64 - start) % 2 ^ 64) * 3600 + len * 1000000) / (2 * len * 1000000)

/-- The length of circuit `k`'s interval so far by the cartridge's crystal, in milliseconds (R297). -/
def circMs (s : State) (k : Nat) : Nat := (s.mtr.us - (circ s k).start) / 1000

/-- A length in milliseconds departs from a nominal one in seconds by more than 0.5 % (R297). -/
def irregular (ms len : Nat) : Bool := decide (5 * len < ((ms : Int) - len * 1000).natAbs)

/-- A circuit's interval ends: its record, its demand points, and a new tenant (R278, R296, R297). -/
def circEnd (s : State) (k set ts len : Nat) (auto part : Bool) : State :=
  let c := circ s k
  let ms := circMs s k
  let irr := irregular ms len
  let imp := demandW (apOf s k) c.ap0 len
  let exp := demandW (anOf s k) c.an0 len
  let flags := (part || c.part).toNat + 2 * irr.toNat + 4 * auto.toNat + 8 * c.changed.toNat + 256 * c.tenant + 8192 * set
  let r := withCrc [w32 (c.seq + 1), w32 ts, w32 (ts >>> 32), w32 ms, w32 imp, w32 exp, w32 flags]
  let c := { c with seq := c.seq + 1, recs := (r :: c.recs).take 96, ap0 := apOf s k, an0 := anOf s k, start := s.mtr.us, part := false, changed := false }
  let s := setCirc s k c
  pset (pset s (0x1000 + 16 * k + 10) (fOfNat imp)) (0x1000 + 16 * k + 11) (fOfNat exp)

/-- A new tenant of the circuits of a set takes effect (R278). -/
def tenantTurn (map : List Nat) (set : Nat) (s : State) (k : Nat) : State :=
  let c := circ s k
  match c.tenantNext with
  | some t => if cSet map k = set then setCirc s k { c with tenant := t, tenantNext := none } else s
  | none => s

/-- An interval of a set ends at the present cycle boundary (R296, R297). -/
def endInterval (s : State) (j ts : Nat) (nt : Option Nat) (byAuto : Bool) : State :=
  let d := dset_ s j
  let map := parBytes s 0
  let len := lenS (parBytes s 3) j
  let ks := (upto 96).filter (fun k => cType map k != 0 && cSet map k == j)
  let irr := ks.any (fun k => irregular (circMs s k) len)
  let s := forAll ks (fun s k => circEnd s k j (if byAuto then 0 else ts) len d.auto d.part) s
  let s := forAll (upto 96) (tenantTurn map j) s
  let s := setDset s j { d with subs := 0, start := s.mtr.us, auto := false, part := false, lastB := nt.map Int.ofNat }
  if !ks.isEmpty && (irr || d.auto) then mtrEvent s 4 else s

/-- The interval ends with this sub-interval end (R294). With no earlier end on network time, the one a sub-interval before
counts (DESIGN CHOICE, log 49). -/
def endsNow (s : State) (j : Nat) (nt : Option Nat) : Bool :=
  let l := parBytes s 3
  let w := pWord l (8 * j)
  let n := subsOf l j
  match (if bitOf w 13 then nt else none) with
  | none => n ≤ (dset_ s j).subs
  | some t =>
    let len : Int := lenS l j
    let u : Int := t + sw (pWord l (8 * j + 4))
    let prev : Int := ((dset_ s j).lastB.map (fun b => b + sw (pWord l (8 * j + 4)))).getD (u - len / n)
    let b := (prev / len + 1) * len
    2 * n * b ≤ 2 * n * u + len

/-- A sub-interval of a used set ends at the present cycle boundary (R293 to R295). -/
def endSub (s : State) (j ts : Nat) (nt : Option Nat) (byAuto : Bool) : State :=
  if lenS (parBytes s 3) j = 0 then s else
    let d := dset_ s j
    let d := { d with subs := d.subs + 1, subEnd := s.mtr.us, strobe := none, auto := d.auto || byAuto, autoRun := if byAuto then d.autoRun + 1 else 0 }
    let s := setDset s j d
    if endsNow s j nt then endInterval s j ts nt byAuto else s

/-- CLOSE_STROBE (R292, R293): at the boundary just passed, or at the end of the cycle in progress. -/
def execCloseStrobe (after : Bool) (s : State) : Host.Outcome State Fault Refusal :=
  done s (
    match s.mtr.strobes with
    | [] => s
    | (mask, ts, nt) :: r =>
      let s := modMtr s (fun m => { m with strobes := r })
      if !s.mtr.running then s
      else forAll (upto 8) (fun s j =>
        if !mask.testBit j then s
        else if after then endSub s j ts nt false
        else setDset s j { dset_ s j with strobe := some (ts, nt) }) s)

/-- AUTO_CLOSE (R295): 1.25 nominal sub-intervals have passed without a strobe, or one since the last automatic end. -/
def execAutoClose (j : Fin 8) (s : State) : Host.Outcome State Fault Refusal :=
  done s (
    let d := dset_ s j.val
    let l := parBytes s 3
    let sub := lenS l j.val * 1000000
    let wait := if d.autoRun = 0 then sub * 5 / 4 else sub
    if s.mtr.running && lenS l j.val != 0 && d.strobe.isNone && decide (wait ≤ (s.mtr.us - d.subEnd) * subsOf l j.val) then
      let s := endSub s j.val 0 none true
      let d := dset_ s j.val
      if hourPast s d.logged then
        let s := mtrLog s false 0x104 [w32 j.val, w32 d.autoRun]
        setDset s j.val { dset_ s j.val with logged := some s.mtr.optime }
      else s
    else s)

/-! ### Parameters that take effect (R277, R297, R302) -/

/-- The interval of circuit `k` begins now, marked PARTIAL. -/
def circBegin (s : State) (k : Nat) : State :=
  setCirc s k { circ s k with ap0 := apOf s k, an0 := anOf s k, start := s.mtr.us, part := true }

/-- What a changed entry of block `b` does besides becoming live. -/
def entryChanged (b : Nat) (old new : List Nat) (s : State) (i : Nat) : State :=
  match b with
  | 0 =>
    if (old.drop (16 * i)).take 16 = (new.drop (16 * i)).take 16 then s
    else
      let fresh := cType old i == 0 || cSet old i != cSet new i
      let s := setCirc s i { circ s i with changed := true }
      let s := if fresh then circBegin s i else s
      if cType new i = 0 then clearPts s (circPts i) else s
  | 2 =>
    if (old.drop (8 * i)).take 8 = (new.drop (8 * i)).take 8 then s else setPulse s i { pulse s i with acc := 0, pend := 0 }
  | 3 =>
    if (old.drop (8 * i)).take 8 = (new.drop (8 * i)).take 8 then s
    else
      let map := parBytes s 0
      let s := setDset s i { dset_ s i with subs := 0, start := s.mtr.us, subEnd := s.mtr.us, auto := false, part := true }
      forAll ((upto 96).filter (fun k => cType map k != 0 && cSet map k == i)) circBegin s
  | _ => s

/-- A block accepted becomes live (R320, R325). -/
def applyBlock (s : State) (b : Nat) (new : List Nat) : State :=
  let old := parBytes s b
  let s := modMtr s (fun m => { m with par := aset m.par b new })
  let n := if b = 0 then 96 else if b = 2 then 9 else if b = 3 then 8 else 0
  mtrEvent (forAll (upto n) (entryChanged b old new) s) 1

/-- Every commit accepted and waiting takes effect. -/
def applyBlocks (s : State) : State :=
  let l := s.mtr.applied
  forAll l (fun s x => applyBlock s x.1 x.2) (modMtr s (fun m => { m with applied := [] }))

/-! ### The cycle (R280 to R290) -/

/-- The cartridge's own time advances (R304, R310). -/
def mtrElapse (s : State) (us : Nat) : State :=
  let a := s.mtr.optimeUs + us
  modMtr s (fun m => { m with us := m.us + us, optime := (m.optime + a / 100000) % 2 ^ 40, optimeUs := a % 100000 })

/-- The length of a cycle of samples: that of the source's cycle, or 20 ms by the crystal while no source has 40 V (R280). -/
def cycleNs (s : State) (m : CycleMeas) : Nat := if s.mtr.fund.any (fun f => decide (40000 ≤ f)) then m.ns else 20000000

/-- The voltages of a cycle: their fundamentals, the angles they show, and their sums for the averages (R76, R283). -/
def voltCycle (m : CycleMeas) (s : State) : State :=
  let f := fundOf m
  let a := ((angleOf m f 1).orElse (fun _ => s.mtr.angles.1), (angleOf m f 2).orElse (fun _ => s.mtr.angles.2))
  modMtr s (fun c => { c with fund := f, angles := a, vacc := (upto 3).map (fun k => nAt c.vacc k + rms (vSamples m k)) })

/-- The cartridge does not run: outputs off, points and reference gone (R77, R303, R315). -/
def mtrStop (s : State) : State :=
  let s := modMtr s (fun m => { m with running := false, showing := none, dipping := none })
  let s := forAll (upto 9) (fun s o => if (pulse s o).on then emit (setPulse s o { pulse s o with on := false }) (.pulse o false) else s) s
  refGone (clearMetering s)

/-- A cycle ends at a cartridge time past the end of a hold-up: the cartridge has stopped before (R305, R306). -/
def heldOut (s : State) (us : Nat) : Bool := match s.mtr.dipping with
  | some t => decide (t < s.mtr.us + us)
  | none => false

/-- CARTRIDGE_CYCLE (R281): energies, sub-interval ends that waited for this boundary, accepted commits, new corrections, and
the averaging window. -/
def execCartridgeCycle (m : CycleMeas) (s : State) : Host.Outcome State Fault Refusal :=
  done s (
    let ns := cycleNs s m
    if !s.mtr.running then s
    else if heldOut s (ns / 1000) then mtrStop s
    else
      let map := parBytes s 0
      let s := forAll (upto 96) (circCycle map m ns) (voltCycle m (mtrElapse s (ns / 1000)))
      let s := forAll (upto 8) (fun s j => match (dset_ s j).strobe with
        | some (ts, nt) => endSub s j ts nt false
        | none => s) s
      let s := applyBlocks s
      windowStep m (modMtr s (fun c => { c with corr := c.corrNext })))

/-- Linear interpolation between two points. -/
def lerp (t t0 t1 y0 y1 : Int) : Int := if t1 ≤ t0 then y0 else y0 + (y1 - y0) * (t - t0) / (t1 - t0)

/-- The corrections of input `n` at a temperature: end values outside the table (R286). -/
def corrAt (l : List Nat) (n : Nat) (t : Int) : Int × Int :=
  if t ≤ tcTemp l 0 then tcPoint l n 0
  else match (upto 15).find? (fun j => t ≤ tcTemp l (j + 1)) with
    | none => tcPoint l n 15
    | some j =>
      let a := tcPoint l n j
      let b := tcPoint l n (j + 1)
      let f := lerp t (tcTemp l j) (tcTemp l (j + 1))
      (f a.1 b.1, f a.2 b.2)

/-- TEMPERATURE_READING (R286). -/
def execTemperatureReading (t : BitVec 12) (s : State) : Host.Outcome State Fault Refusal :=
  done s (
    if !s.mtr.running then s else
      let v := signedOf 12 t.toNat
      let l := parBytes s 1
      let c := (upto 96).filterMap (fun n => if corrAt l n v = (0, 0) then none else some (n, corrAt l n v))
      modMtr s (fun m => { m with temp := v, corrNext := c }))

/-- The MTR indicator begins the next of the 16 flashes that show CHECK_ID, most significant bit first (R263, R320). -/
def flashNext (s : State) : State :=
  match s.mtr.showing with
  | some k =>
    if k < 16 && !(pulse s 8).on then
      emit (setPulse (modMtr s (fun m => { m with showing := some (k + 1) })) 8 { pulse s 8 with on := true }) (.flash (bitOf s.mtr.swVer (31 - k)))
    else s
  | none => s

/-- PULSE_OUTPUT (R300, R303): a pending pulse begins, or the one on the output ends; on the MTR indicator that shows the check
identifier, a flash of it. -/
def execPulseOutput (o : Fin 9) (on : Bool) (s : State) : Host.Outcome State Fault Refusal :=
  done s (
    let p := pulse s o.val
    if on && o.val == 8 && s.mtr.showing.isSome then flashNext s
    else if !on then (if p.on then emit (setPulse s o.val { p with on := false }) (.pulse o.val false) else s)
    else if s.mtr.running && !p.on && p.pend != 0 && bitOf (pWord (parBytes s 2) (8 * o.val)) 0 && !(o.val == 8 && s.mtr.showing.isSome) then
      emit (setPulse s o.val { p with on := true, pend := p.pend - 1 }) (.pulse o.val true)
    else s)

/-! ### Saves and starts (R304 to R308) -/

/-- The words of register sets. -/
def regWords (t : Tab (List Nat)) : List Word := t.flatMap (fun e => w32 e.1 :: e.2.flatMap (fun r => [w32 r, w32 (r >>> 32)]))

/-- A slot's words, in the order its CRC-32C is taken over them (R304 gives no layout; log 141). -/
def slotWords (k : SaveSlot) : List Word :=
  [w32 k.seq, w32 k.optime, w32 (k.optime >>> 32), boolW k.residual] ++ regWords k.circ ++ regWords k.phs ++
  k.pulses.flatMap (fun e => [w32 e.1, w32 e.2.acc, w32 (e.2.acc >>> 32), w32 e.2.pend, w32 e.2.lost]) ++
  k.sets.flatMap (fun e => [w32 e.1, w32 e.2.subs, w32 e.2.start, w32 (e.2.start >>> 32), w32 e.2.subEnd, w32 (e.2.subEnd >>> 32),
    boolW e.2.auto, w32 e.2.autoRun, boolW e.2.part]) ++
  k.ivals.flatMap (fun e => [w32 e.1, w32 e.2.1, w32 (e.2.1 >>> 32), w32 e.2.2.1, w32 (e.2.2.1 >>> 32), w32 e.2.2.2.1,
    w32 (e.2.2.2.1 >>> 32), boolW e.2.2.2.2.1, boolW e.2.2.2.2.2])

/-- The slot a save writes, without its CRC. -/
def slotOf (m : Mtr) (residual : Bool) : SaveSlot :=
  { seq := m.saveSeq + 1, optime := m.optime, residual := residual, circ := m.circ, phs := m.phs, pulses := m.pulses, sets := m.sets,
    ivals := m.circs.map (fun e => (e.1, e.2.ap0, e.2.an0, e.2.start, e.2.part, e.2.changed)), crc := 0 }

/-- A save into the next slot (R304, R305). -/
def mtrSave (s : State) (residual : Bool) : State :=
  let k := slotOf s.mtr residual
  let k := { k with crc := crcWords (slotWords k) }
  let q := k.seq
  modMtr s (fun m => { m with saveSeq := q, slots := aset m.slots (q % 16) k })

/-- PERIODIC_SAVE (R304, R317). -/
def execPeriodicSave (s : State) : Host.Outcome State Fault Refusal := done s (if s.mtr.running then snapshot (mtrSave s false) else s)

/-- CART_CHG (R73, R77). -/
def execCartChg (present : Bool) (s : State) : Host.Outcome State Fault Refusal :=
  done s (
    if s.base.cart = present then s
    else
      let s := { s with base := { s.base with cart := present } }
      let s := if present then s else mtrStop s
      raiseHost s oBaseEvent 16)

/-- SUPPLY_LOSS (R305, R306, R317): the residual save and its snapshot; the cartridge goes on metering until its hold-up of at
least 15 ms ends. -/
def execSupplyLoss (s : State) : Host.Outcome State Fault Refusal :=
  done s (
    if s.mtr.running && s.mtr.dipping.isNone then
      let (k, s) := takeFree (snapshot (mtrSave s true))
      modMtr s (fun m => { m with dipping := some (m.us + 15000 + Config.cartHoldup k) })
    else s)

/-- CARTRIDGE_SUPPLY_DIP (R306): the supply is back before the cartridge has stopped. -/
def execCartridgeSupplyDip (s : State) : Host.Outcome State Fault Refusal :=
  done s (
    if s.mtr.running && s.mtr.dipping.isSome then mtrLog (modMtr s (fun m => { m with dipping := none })) false 0x102 []
    else s)

/-- The valid slot with the highest save number: one that reads as it was written, so that its CRC passes. -/
def bestSlot (s : State) (good : BitVec 16) : Option SaveSlot :=
  (s.mtr.slots.filter (fun e => e.2.crc == crcWords (slotWords { e.2 with crc := 0 }) && good.getLsbD e.1)).foldl (fun b e => match b with
    | some k => if k.seq < e.2.seq then some e.2 else b
    | none => some e.2) none

/-- A cartridge fault is logged with a code the spec does not give (R308, R311; log 50). -/
def mtrFault (s : State) : State :=
  let (k, s) := takeFree s
  let s := mtrLog s false 0x106 [Config.cartFault k]
  if s.mtr.fault then s else mtrEvent (modMtr s (fun m => { m with fault := true })) 5

/-- A slot is loaded (R307): the power failure is counted, and a residual loss when the slot is periodic. -/
def loadSlot (s : State) (k : SaveSlot) : State :=
  let t := [w32 k.optime, w32 (k.optime >>> 32)]
  let off := k.pulses.map (fun e => (e.1, { e.2 with on := false }))
  let s := modMtr s (fun m => { m with circ := k.circ, phs := k.phs, pulses := off, sets := k.sets, optime := k.optime, saveSeq := k.seq, cntPwr := satInc m.cntPwr })
  let s := forAll k.ivals (fun s e => setCirc s e.1 { circ s e.1 with ap0 := e.2.1, an0 := e.2.2.1, start := e.2.2.2.1, part := e.2.2.2.2.1, changed := e.2.2.2.2.2 }) s
  let s := mtrLog s false 0x100 (s.mtr.cntPwr :: t)
  if k.residual then s
  else
    let s := modMtr s (fun m => { m with cntRes := satInc m.cntRes })
    mtrEvent (mtrLog s false 0x101 (s.mtr.cntRes :: t)) 2

/-- Intervals begin at a start (R297; log 51). -/
def startIntervals (s : State) : State :=
  let s := forAll (upto 8) (fun s j => setDset s j { dset_ s j with subs := 0, start := 0, subEnd := 0, auto := false, autoRun := 0, part := true, strobe := none }) s
  forAll (upto 96) (fun s k => let s := circBegin s k; setCirc s k { circ s k with changed := false }) s

/-- What a start of the cartridge's processor begins afresh, with the version it computes (R76, R263, R283, R286). -/
def freshRun (m : Mtr) (sw_ : Word) : Mtr :=
  { clearAcc m with swVer := sw_, us := 0, optimeUs := 0, dipping := none, fund := [], angles := (none, none), corr := [], corrNext := [] }

/-- CARTRIDGE_RUN (R263, R271, R307, R308): its supply has returned, after a hold-up that had ended. -/
def execCartridgeRun (sw_ : Word) (good : BitVec 16) (s : State) : Host.Outcome State Fault Refusal :=
  done s (
    if (s.mtr.running && s.mtr.dipping.isNone) || !s.base.cart then s else
      let s := if s.mtr.running then mtrStop s else s
      let s := modMtr s (fun m => freshRun m sw_)
      let s := modMtr s (fun m => { m with openDoor := { m.openDoor with busy := false }, secDoor := { m.secDoor with busy := false } })
      if s.mtr.slots.isEmpty then applyBlocks (startIntervals (modMtr s (fun m => { m with running := true })))
      else match bestSlot s good with
        | none => mtrFault s
        | some k => applyBlocks (startIntervals (loadSlot (modMtr s (fun m => { m with running := true })) k)))

/-! ### What the doors do (R267, R268, R278, R320 to R322) -/

/-- A log record by its number. -/
def findLog (s : State) (seq : Word) : Option (List Word) := (s.mtr.opLog ++ s.mtr.legalLog).find? (fun r => wAt r 0 == seq)

/-- An interval record of a circuit by its number. -/
def findInterval (s : State) (k : Nat) (seq : Word) : Option (List Word) := (circ s k).recs.find? (fun r => wAt r 0 == seq)

/-- 32 bytes of a block; none for a bad argument (R320). -/
def readBlock (s : State) (b o : Nat) : Option (List Word) :=
  if 4 < b ∨ o % 32 ≠ 0 ∨ blockLen b ≤ o then none
  else some ((upto 8).map (fun j => pWord (parBytes s b) (o + 4 * j)))

/-- A circuit's next billing partition: result code, and the interval at which it takes effect (R278, R311). -/
def tenantSet (s : State) (k p : Nat) : Nat × Nat × State :=
  if 95 < k ∨ 16 < p then (2, 0, s)
  else
    let c := circ s k
    let q := c.seq + 2
    let s := setCirc s k { c with tenantNext := some p }
    (0, q, mtrLog s false 0x103 [w32 k, w32 c.tenant, w32 p, w32 q])

/-- Bytes of MTR_SDATA. -/
def sdata (s : State) : List Nat := (upto 64).flatMap (fun j => wordBytes (rget s (0x61100 + 4 * j)))

/-- An open-door command: its result, and the state after it. -/
def openRun (s : State) (op : Nat) (a0 a1 : Word) : Nat × State :=
  let put := fun (r : Option (List Word)) (code : Nat) => match r with
    | some w => (0, modMtr s (fun m => { m with resp := w }))
    | none => (code, s)
  if !s.mtr.running then (8, s)
  else match op with
  | 1 => put (findLog s a0) 3
  | 2 => put (findInterval s a0.toNat a1) 3
  | 3 => let r := tenantSet s a0.toNat a1.toNat; (r.1, r.2.2)
  | 4 => put (readBlock s a0.toNat a1.toNat) 2
  | 5 => (0, modMtr s (fun m => { m with showing := some 0 }))
  | _ => (1, s)

/-- A block's bytes with 256 of them replaced; those past its end are ignored (R320). -/
def putBytes (l new : List Nat) (o : Nat) : List Nat := (l.take o ++ new ++ l.drop (o + new.length)).take l.length

/-- PARAM_COMMIT: checked, logged, and left to take effect at the next cycle boundary (R276, R311 to R313, R320). -/
def commitBlock (s : State) (b : Nat) : Nat × State :=
  if 3 < b then (2, s)
  else
    let l := (alook s.mtr.staged b).getD (parBytes s b)
    match blockFault b l with
    | some i => (5, rset s 0x61008 (w32 i))
    | none =>
      if legalFull s then (6, s)
      else
        let s := modMtr s (fun m => { m with cntParam := satInc m.cntParam, applied := m.applied ++ [(b, l)] })
        let d := bytesWords ((sha256 l).take 8)
        (0, mtrLog s true 3 [w32 b, s.mtr.cntParam, wAt d 0, wAt d 1])

/-- SET_METER_ID (R268, R311, R312). -/
def meterIdSet (s : State) : Nat × State :=
  let l := (sdata s).take 16
  if s.mtr.meterId.isSome then (7, s)
  else if !l.all (fun c => 0x20 ≤ c && c ≤ 0x7E) then (2, s)
  else if legalFull s then (6, s)
  else
    let s := modMtr s (fun m => { m with meterId := some l, cntParam := satInc m.cntParam })
    (0, mtrLog s true 4 (bytesWords l))

/-- A secure-door command: its result, and the state after it (R320, R321). -/
def secRun (s : State) (op : Nat) (a0 a1 : Word) : Nat × State :=
  let b := a0.toNat
  let o := a1.toNat
  if !s.mtr.running then (8, s)
  else if !s.mtr.sealOpen then (4, s)
  else match op with
  | 0x10 =>
    if 3 < b ∨ o % 256 ≠ 0 ∨ blockLen b ≤ o then (2, s)
    else (0, modMtr s (fun m => { m with staged := aset m.staged b (putBytes ((alook m.staged b).getD (parBytes s b)) (sdata s) o) }))
  | 0x11 => commitBlock s b
  | 0x12 => if 3 < b then (2, s) else (0, modMtr s (fun m => { m with staged := aset m.staged b (parBytes s b) }))
  | 0x13 => meterIdSet s
  | _ => (1, s)

/-- A command is written to the open door: no effect while it is busy (R320). -/
def openCmd (s : State) (op : Nat) : State :=
  if s.mtr.openDoor.busy then s
  else modMtr s (fun m => { m with openDoor := { m.openDoor with busy := true, op := op, arg0 := rget s 0x60054, arg1 := rget s 0x60058 } })

/-- A command is written to the secure door. -/
def secCmd (s : State) (op : Nat) : State :=
  if s.mtr.secDoor.busy then s
  else modMtr s (fun m => { m with secDoor := { m.secDoor with busy := true, op := op, arg0 := rget s 0x61004, arg1 := rget s 0x61008 } })

/-- The arguments are written, then the open-door command. -/
def openWith (s : State) (op : Nat) (a0 a1 : Word) : State := openCmd (rset (rset s 0x60054 a0) 0x60058 a1) op

/-- The arguments are written, then the secure-door command. -/
def secWith (s : State) (op : Nat) (a0 a1 : Word) : State := secCmd (rset (rset s 0x61004 a0) 0x61008 a1) op

/-- READ_LOG. -/
def execReadLog (a0 : Word) (s : State) : Host.Outcome State Fault Refusal := done s (reached s 8 fun s => openWith s 1 a0 (rget s 0x60058))
/-- READ_INTERVAL. -/
def execReadInterval (a0 a1 : Word) (s : State) : Host.Outcome State Fault Refusal := done s (reached s 8 fun s => openWith s 2 a0 a1)
/-- SET_TENANT. -/
def execSetTenant (a0 a1 : Word) (s : State) : Host.Outcome State Fault Refusal := done s (reached s 8 fun s => openWith s 3 a0 a1)
/-- READ_PARAM. -/
def execReadParam (a0 a1 : Word) (s : State) : Host.Outcome State Fault Refusal := done s (reached s 8 fun s => openWith s 4 a0 a1)
/-- SHOW_CHECK. -/
def execShowCheck (s : State) : Host.Outcome State Fault Refusal := done s (reached s 8 fun s => openCmd s 5)
/-- SHOW_CHECK_END (R303). -/
def execShowCheckEnd (s : State) : Host.Outcome State Fault Refusal := done s (modMtr s (fun m => { m with showing := none }))
/-- PARAM_STAGE. -/
def execParamStage (a0 a1 : Word) (s : State) : Host.Outcome State Fault Refusal := done s (reached s 8 fun s => secWith s 0x10 a0 a1)
/-- PARAM_COMMIT. -/
def execParamCommit (a0 : Word) (s : State) : Host.Outcome State Fault Refusal := done s (reached s 8 fun s => secWith s 0x11 a0 (rget s 0x61008))
/-- PARAM_DISCARD. -/
def execParamDiscard (a0 : Word) (s : State) : Host.Outcome State Fault Refusal := done s (reached s 8 fun s => secWith s 0x12 a0 (rget s 0x61008))
/-- SET_METER_ID. -/
def execSetMeterId (s : State) : Host.Outcome State Fault Refusal := done s (reached s 8 fun s => secCmd s 0x13)

/-- A door after its command: result, count, not busy (R325). -/
def doorEnd (d : Door) (code : Nat) : Door := { d with busy := false, result := code, done := w32 ((d.done.toNat + 1) % 65536) }

/-- DOOR_COMMAND_DONE (R320). -/
def execDoorCommandDone (secure : Bool) (s : State) : Host.Outcome State Fault Refusal :=
  done s (
    if secure then
      let d := s.mtr.secDoor
      if !d.busy then s else
        let r := secRun s d.op d.arg0 d.arg1
        modMtr r.2 (fun m => { m with secDoor := doorEnd m.secDoor r.1 })
    else
      let d := s.mtr.openDoor
      if !d.busy then s else
        let r := openRun s d.op d.arg0 d.arg1
        modMtr r.2 (fun m => { m with openDoor := doorEnd m.openDoor r.1 }))

/-! ### Close strobes from the schedule (R292) -/

/-- MTR_CLOSE (R292). -/
def execMtrClose (n : Fin 1024) (s : State) : Host.Outcome State Fault Refusal :=
  let c := dueCommits s
  done s (match fireEntry c n 5 with
    | some (arg, t) =>
      let ts := nowTs t
      let nt := if netLocked t then some (t.ptp.ns / 1000000000) else none
      let s' := emit t (.strobe ([w32 (fld arg 7 0), w32 ts, w32 (ts >>> 32)] ++ (match nt with
        | some x => [w32 x, w32 (x >>> 32)]
        | none => [])))
      modMtr s' (fun m => { m with strobes := m.strobes ++ [(fld arg 7 0, ts, nt)] })
    | none => c)

end Sys2Proof.Machine
end

