-- ==== Sys2Proof/Machine/Crypto.lean ====
section
/-! DEFINITION. AES-256 in Galois/counter mode, the P-256 curve with ECDSA and the shared secret of two points, as the
standards the spec names give them (R695, R700, R716, R717, R725, R729). -/

namespace Sys2Proof.Machine

/-! ### AES-256 -/

/-- The substitution table. -/
def aesSbox : List Nat :=
  [0x63, 0x7C, 0x77, 0x7B, 0xF2, 0x6B, 0x6F, 0xC5, 0x30, 0x01, 0x67, 0x2B, 0xFE, 0xD7, 0xAB, 0x76] ++
  [0xCA, 0x82, 0xC9, 0x7D, 0xFA, 0x59, 0x47, 0xF0, 0xAD, 0xD4, 0xA2, 0xAF, 0x9C, 0xA4, 0x72, 0xC0] ++
  [0xB7, 0xFD, 0x93, 0x26, 0x36, 0x3F, 0xF7, 0xCC, 0x34, 0xA5, 0xE5, 0xF1, 0x71, 0xD8, 0x31, 0x15] ++
  [0x04, 0xC7, 0x23, 0xC3, 0x18, 0x96, 0x05, 0x9A, 0x07, 0x12, 0x80, 0xE2, 0xEB, 0x27, 0xB2, 0x75] ++
  [0x09, 0x83, 0x2C, 0x1A, 0x1B, 0x6E, 0x5A, 0xA0, 0x52, 0x3B, 0xD6, 0xB3, 0x29, 0xE3, 0x2F, 0x84] ++
  [0x53, 0xD1, 0x00, 0xED, 0x20, 0xFC, 0xB1, 0x5B, 0x6A, 0xCB, 0xBE, 0x39, 0x4A, 0x4C, 0x58, 0xCF] ++
  [0xD0, 0xEF, 0xAA, 0xFB, 0x43, 0x4D, 0x33, 0x85, 0x45, 0xF9, 0x02, 0x7F, 0x50, 0x3C, 0x9F, 0xA8] ++
  [0x51, 0xA3, 0x40, 0x8F, 0x92, 0x9D, 0x38, 0xF5, 0xBC, 0xB6, 0xDA, 0x21, 0x10, 0xFF, 0xF3, 0xD2] ++
  [0xCD, 0x0C, 0x13, 0xEC, 0x5F, 0x97, 0x44, 0x17, 0xC4, 0xA7, 0x7E, 0x3D, 0x64, 0x5D, 0x19, 0x73] ++
  [0x60, 0x81, 0x4F, 0xDC, 0x22, 0x2A, 0x90, 0x88, 0x46, 0xEE, 0xB8, 0x14, 0xDE, 0x5E, 0x0B, 0xDB] ++
  [0xE0, 0x32, 0x3A, 0x0A, 0x49, 0x06, 0x24, 0x5C, 0xC2, 0xD3, 0xAC, 0x62, 0x91, 0x95, 0xE4, 0x79] ++
  [0xE7, 0xC8, 0x37, 0x6D, 0x8D, 0xD5, 0x4E, 0xA9, 0x6C, 0x56, 0xF4, 0xEA, 0x65, 0x7A, 0xAE, 0x08] ++
  [0xBA, 0x78, 0x25, 0x2E, 0x1C, 0xA6, 0xB4, 0xC6, 0xE8, 0xDD, 0x74, 0x1F, 0x4B, 0xBD, 0x8B, 0x8A] ++
  [0x70, 0x3E, 0xB5, 0x66, 0x48, 0x03, 0xF6, 0x0E, 0x61, 0x35, 0x57, 0xB9, 0x86, 0xC1, 0x1D, 0x9E] ++
  [0xE1, 0xF8, 0x98, 0x11, 0x69, 0xD9, 0x8E, 0x94, 0x9B, 0x1E, 0x87, 0xE9, 0xCE, 0x55, 0x28, 0xDF] ++
  [0x8C, 0xA1, 0x89, 0x0D, 0xBF, 0xE6, 0x42, 0x68, 0x41, 0x99, 0x2D, 0x0F, 0xB0, 0x54, 0xBB, 0x16]

/-- Multiplication by x in GF(2^8). -/
def xtime (b : Nat) : Nat := if b < 128 then 2 * b else (2 * b) ^^^ 0x11B

/-- Exclusive or of two byte strings. -/
def xorB (a b : List Nat) : List Nat := List.zipWith (· ^^^ ·) a b

/-- A byte string with every byte substituted. -/
def subB (l : List Nat) : List Nat := l.map (nAt aesSbox)

/-- The key schedule's next eight words (32 bytes) from the latest eight. -/
def aesNext (k : List Nat) (rcon : Nat) : List Nat :=
  let w := fun j => (k.drop (4 * j)).take 4
  let l := w 7
  let w0 := xorB (w 0) (xorB (subB (l.drop 1 ++ l.take 1)) [rcon, 0, 0, 0])
  let w1 := xorB (w 1) w0
  let w2 := xorB (w 2) w1
  let w3 := xorB (w 3) w2
  let w4 := xorB (w 4) (subB w3)
  let w5 := xorB (w 5) w4
  let w6 := xorB (w 6) w5
  w0 ++ w1 ++ w2 ++ w3 ++ w4 ++ w5 ++ w6 ++ xorB (w 7) w6

/-- The expanded key: 240 bytes and more. -/
def aesExpand (k : List Nat) : List Nat :=
  (([1, 2, 4, 8, 16, 32, 64] : List Nat).foldl (fun (a : List Nat × List Nat) rc => (a.1 ++ aesNext a.2 rc, aesNext a.2 rc)) (k, k)).1

/-- The rows of a state, column by column, shifted. -/
def shiftRows (s : List Nat) : List Nat := (upto 16).map (fun i => nAt s ((5 * i) % 16))

/-- One column mixed. -/
def mixCol (c : List Nat) : List Nat :=
  (upto 4).map (fun i =>
    xtime (nAt c i) ^^^ (xtime (nAt c ((i + 1) % 4)) ^^^ nAt c ((i + 1) % 4)) ^^^ nAt c ((i + 2) % 4) ^^^ nAt c ((i + 3) % 4))

/-- The four columns mixed. -/
def mixCols (s : List Nat) : List Nat := (upto 4).flatMap (fun j => mixCol ((s.drop (4 * j)).take 4))

/-- Encryption of one block with an expanded key. -/
def aesBlock (ek b : List Nat) : List Nat :=
  let rk := fun r => (ek.drop (16 * r)).take 16
  let s := (upto 13).foldl (fun s r => xorB (mixCols (shiftRows (subB s))) (rk (r + 1))) (xorB b (rk 0))
  xorB (shiftRows (subB s)) (rk 14)

/-! ### Galois/counter mode -/

/-- The product of two elements of GF(2^128), most significant bit first. -/
def gfMul (x y : Nat) : Nat :=
  ((upto 128).foldl (fun (a : Nat × Nat) i =>
    (if x.testBit (127 - i) then a.1 ^^^ a.2 else a.1,
     if a.2 % 2 = 1 then (a.2 / 2) ^^^ (0xE1 <<< 120) else a.2 / 2)) (0, y)).1

/-- A byte string in blocks of sixteen, the last filled with zeros. -/
def blocks16 : Nat → List Nat → List (List Nat)
  | 0, _ => []
  | n + 1, l => if l.isEmpty then [] else (l.take 16 ++ List.replicate (16 - l.length) 0) :: blocks16 n (l.drop 16)

/-- The hash of additional data and ciphertext. -/
def ghash (h : Nat) (aad ct : List Nat) : Nat :=
  let bs := blocks16 (aad.length + 1) aad ++ blocks16 (ct.length + 1) ct ++ [beBytes 8 (8 * aad.length) ++ beBytes 8 (8 * ct.length)]
  bs.foldl (fun y b => gfMul (y ^^^ beNat b) h) 0

/-- The key stream applied to a byte string from a counter on. -/
def ctrGo (ek nonce : List Nat) : Nat → Nat → List Nat → List Nat
  | 0, _, _ => []
  | n + 1, c, l =>
    if l.isEmpty then [] else xorB (l.take 16) (aesBlock ek (nonce ++ beBytes 4 c)) ++ ctrGo ek nonce n (c + 1) (l.drop 16)

/-- The tag of additional data and ciphertext. -/
def gcmTag (ek nonce aad ct : List Nat) : List Nat :=
  let h := beNat (aesBlock ek (List.replicate 16 0))
  xorB (aesBlock ek (nonce ++ [0, 0, 0, 1])) (beBytes 16 (ghash h aad ct))

/-- Encryption: ciphertext and tag. -/
def gcmSeal (key nonce aad pt : List Nat) : List Nat × List Nat :=
  let ek := aesExpand key
  let ct := ctrGo ek nonce (pt.length + 1) 2 pt
  (ct, gcmTag ek nonce aad ct)

/-- Decryption: none when the tag does not verify. -/
def gcmOpen (key nonce aad ct tag : List Nat) : Option (List Nat) :=
  let ek := aesExpand key
  if gcmTag ek nonce aad ct = tag then some (ctrGo ek nonce (ct.length + 1) 2 ct) else none

/-! ### P-256 -/

/-- The field's prime. -/
def p256P : Nat := 0xFFFFFFFF00000001000000000000000000000000FFFFFFFFFFFFFFFFFFFFFFFF
/-- The order of the base point. -/
def p256N : Nat := 0xFFFFFFFF00000000FFFFFFFFFFFFFFFFBCE6FAADA7179E84F3B9CAC2FC632551
/-- The curve's constant term. -/
def p256B : Nat := 0x5AC635D8AA3A93E7B3EBBD55769886BC651D06B0CC53B0F63BCE3C3E27D2604B
/-- The base point. -/
def p256G : Nat × Nat :=
  (0x6B17D1F2E12C4247F8BCE6E563A440F277037D812DEB33A0F4A13945D898C296,
   0x4FE342E2FE1A7F9B8EE7EB4A7C0F9E162BCE33576B315ECECBB6406837BF51F5)

/-- A power modulo `m`, taking `k` bits of the exponent. -/
def powMod (m : Nat) : Nat → Nat → Nat → Nat → Nat
  | 0, _, _, a => a
  | k + 1, b, e, a => powMod m k (b * b % m) (e / 2) (if e % 2 = 1 then a * b % m else a)

/-- The inverse modulo a prime. -/
def invMod (m a : Nat) : Nat := powMod m 256 (a % m) (m - 2) 1

/-- A difference modulo `m`. -/
def subMod (m a b : Nat) : Nat := (a + m - b % m) % m

/-- The sum of two points; none is the point at infinity. -/
def ptAdd : Option (Nat × Nat) → Option (Nat × Nat) → Option (Nat × Nat)
  | none, q => q
  | p, none => p
  | some (x1, y1), some (x2, y2) =>
    let m := p256P
    if x1 = x2 ∧ (y1 + y2) % m = 0 then none
    else
      let l := if x1 = x2 then (3 * x1 * x1 + (m - 3)) * invMod m (2 * y1) % m
        else subMod m y2 y1 * invMod m (subMod m x2 x1) % m
      let x3 := subMod m (l * l) (x1 + x2)
      some (x3, subMod m (l * subMod m x1 x3) y1)

/-- A multiple of a point, taking `k` bits of the scalar. -/
def ptMulGo : Nat → Option (Nat × Nat) → Nat → Option (Nat × Nat) → Option (Nat × Nat)
  | 0, _, _, a => a
  | k + 1, p, e, a => ptMulGo k (ptAdd p p) (e / 2) (if e % 2 = 1 then ptAdd a p else a)

/-- A multiple of a point. -/
def ptMul (e : Nat) (p : Nat × Nat) : Option (Nat × Nat) := ptMulGo 256 (some p) e none

/-- A pair of coordinates lies on the curve. -/
def onCurve (p : Nat × Nat) : Bool :=
  p.1 < p256P && p.2 < p256P && p.2 * p.2 % p256P == (p.1 * p.1 * p.1 + (p256P - 3) * p.1 + p256B) % p256P

/-- A point as 64 bytes, X before Y, big-endian (R701). -/
def ptBytes (p : Option (Nat × Nat)) : List Nat :=
  match p with
  | some (x, y) => beBytes 32 x ++ beBytes 32 y
  | none => List.replicate 64 0

/-- A point from its 64 bytes. -/
def ptOf (l : List Nat) : Nat × Nat := (beNat (l.take 32), beNat ((l.drop 32).take 32))

/-- The public point of a private scalar. -/
def pubOf (d : Nat) : List Nat := ptBytes (ptMul d p256G)

/-- A scalar from 1 to the order less 1. -/
def scalarOf (n : Nat) : Nat := n % (p256N - 1) + 1

/-- ECDSA over a 32-byte digest with the per-signature scalar `k`: r and s, 64 bytes. -/
def ecdsaSign (d k : Nat) (digest : List Nat) : List Nat :=
  let r := ((ptMul k p256G).map (fun p => p.1 % p256N)).getD 0
  let s := invMod p256N k * ((beNat digest + r * d) % p256N) % p256N
  beBytes 32 r ++ beBytes 32 s

/-- An ECDSA signature verifies under a public point. -/
def ecdsaVerify (pub digest sig : List Nat) : Bool :=
  let q := ptOf pub
  let r := beNat (sig.take 32)
  let s := beNat ((sig.drop 32).take 32)
  if r = 0 ∨ s = 0 ∨ p256N ≤ r ∨ p256N ≤ s ∨ !onCurve q then false
  else
    let w := invMod p256N s
    match ptAdd (ptMul (beNat digest * w % p256N) p256G) (ptMul (r * w % p256N) q) with
    | some p => p.1 % p256N == r
    | none => false

end Sys2Proof.Machine
end

