-- ==== Sys2Proof/Machine/Security.lean ====
section
/-! DEFINITION. Worlds, partitions and the key store: the attribution table, refusals, the life cycle, masks, the entropy
source and the key operations (R679 to R722). -/

namespace Sys2Proof.Machine

/-! ### Worlds (R679 to R684, R722) -/

/-- Masters of R679 that "all" and "S" stand for in R684. -/
def mAll : Nat := 0xFFF
def mS : Nat := 0x601

/-- The regions of R684: first and last page, SECURE, NS_R, NS_W, masters. -/
def satRegions : List (Nat × Nat × Nat × Nat) :=
  [(0x10000, 0x107FF, 0xC, mAll), (0x10800, 0x10DFF, 0xC, mAll), (0x10E00, 0x10EFF, 0xC, mAll), (0x10F00, 0x10F7F, 0xC, 0x1003)] ++
  [(0x10F80, 0x10FFF, 0x2, mS), (0x11000, 0x11001, 0x2, 0x1), (0x20000, 0x202FF, 0xC, mAll), (0x20300, 0x2030F, 0x6, mS + 0x2)] ++
  [(0x20380, 0x203FF, 0x2, 0x401), (0x40000, 0x437FF, 0x6, mS + 0x12), (0x800C0, 0x800CF, 0x2, 0x401), (0x80061, 0x80061, 0x2, 0x1)] ++
  [(0x80000, 0x800DF, 0xC, mAll), (0x43800, 0x43FFF, 0xC, 0x3)]

/-- The words the firmware writes into the attribution table (R681, R684). -/
def satWritten : Tab Word :=
  (satRegions.zipIdx).flatMap (fun e =>
    [(4 * e.2, w32 (e.1.1 <<< 12)), (4 * e.2 + 1, w32 (e.1.2.1 <<< 12)), (4 * e.2 + 2, w32 (e.1.2.2.1 + 1)), (4 * e.2 + 3, w32 e.1.2.2.2)])

/-- Word `w` of entry `n` of the attribution table. -/
def satWord (s : State) (n w : Nat) : Word := tget (fun _ => 0) s.sec.sat (4 * n + w)

/-- An enabled entry covers a page. -/
def satCovers (s : State) (page n : Nat) : Bool :=
  bitOf (satWord s n 2) 0 && decide (fld (satWord s n 0) 31 12 ≤ page) && decide (page ≤ fld (satWord s n 1) 31 12)

/-- Masters of the secure world (R679). -/
def secureMaster (m : Nat) : Bool := m == 0 || m == 9 || m == 10

/-- The masters that reach the SEC block and the secure door in any state of the table: SUP_S and KEY, and SUP_S
(R17, R319, R683, R722; DEDUCED, log 125). -/
def worldOk (m page : Nat) : Bool :=
  if 0x800C0 ≤ page ∧ page ≤ 0x800CF then m == 0 || m == 10 else if page = 0x80061 then m == 0 else true

/-- An access of a master to an internal address is allowed (R680, R682). -/
def satAllows (s : State) (m addr : Nat) (write : Bool) : Bool :=
  worldOk m (addr / 4096) &&
  if !s.sec.locked then true
  else match (upto 64).find? (satCovers s (addr / 4096)) with
    | none => secureMaster m
    | some n =>
      bitOf (satWord s n 3) m &&
      (secureMaster m || (if write then bitOf (satWord s n 2) 3 && !bitOf (satWord s n 2) 1 else bitOf (satWord s n 2) 2))

/-- A bit of GLB_SEC_EVENT by a refused access: the host event when it becomes set, the recorder event at each refusal. -/
def secRefusal (s : State) (bit : Nat) (extra : List Word) : State :=
  let new := !bitOf (rget s oSecEvent) bit
  regEvent (ror s oSecEvent (oneBit bit)) oSecEvent (oneBit bit) 0xFFFFFFFF 0 new true extra

/-- An access is refused by the attribution table (R683, R722). -/
def worldViol (s : State) (m addr : Nat) (write : Bool) : State :=
  let s := { s with sec := { s.sec with violInfo := w32 (m + (write.toNat <<< 4)), violAddr := w32 addr } }
  secRefusal s 1 [w32 m, w32 addr, w32 write.toNat]

/-- An access tagged `t` to an object of partition `p` is allowed (R686). -/
def partOk (t p : Nat) : Bool := t == 0 || t == p

/-- A partition refusal of a master is counted and recorded (R686). -/
def partViol (s : State) (m t : Nat) (obj : Word) : State :=
  secRefusal (rinc s oPartViol) 0 [w32 m, w32 t, obj]

/-- A descriptor is refused for its partition: ACCESS with the first object refused (R511, R686). -/
def refuseAccess (s : State) (n : Nat) (f : Flight) (obj : Word) : State :=
  complete (partViol s 4 (ringPart s n) obj) n f 9 0 0 obj

/-! ### The key store (R693 to R710) -/

/-- The slot area in use (R711, R713). -/
def keyTab (s : State) : Tab KeySlot := if s.sec.lc = 3 then s.sec.debug else s.sec.slots

/-- A slot of the area in use. -/
def keySlot (s : State) (k : Nat) : KeySlot := tget (fun _ => KeySlot.reset) (keyTab s) k

/-- Slot `k` after a journalled write of its record: the select bit has turned (R706). -/
def putSlot (s : State) (k : Nat) (v : KeySlot) : State :=
  let t := tset (fun _ => KeySlot.reset) (keyTab s) k { v with sel := !(keySlot s k).sel }
  if s.sec.lc = 3 then { s with sec := { s.sec with debug := t } } else { s with sec := { s.sec with slots := t } }

/-- The root generation in use (R695, R713). -/
def rootGenNow (s : State) : Word := if s.sec.lc = 3 then 0 else s.sec.rootGen

/-- The ASCII bytes of R713. -/
def testRootText : List Nat := [0x53, 0x4B, 0x45, 0x56, 0x45, 0x4C, 0x20, 0x54, 0x45, 0x53, 0x54, 0x20, 0x52, 0x4F, 0x4F, 0x54]

/-- The root in use. -/
def rootNow (s : State) : List Nat := if s.sec.lc = 3 then sha256 testRootText else s.sec.root

/-- A slot's present generation; slot 0 stands for the root (R695, R702). -/
def genOf (s : State) (k : Nat) : Word := if k = 0 then rootGenNow s else (keySlot s k).gen

/-- A key is usable: held whole, of its parent's present generation, and its parent usable, up to slot 0 (R702). -/
def usableGo (s : State) : Nat → Nat → Bool
  | 0, _ => false
  | n + 1, k =>
    k == 0 ||
    (let v := keySlot s k
     v.full && !v.damaged && v.parentGen == genOf s v.parent && usableGo s n v.parent)

/-- A key is usable: the hierarchy has at most four levels (R696). -/
def usable_ (s : State) (k : Nat) : Bool := usableGo s 4 k

/-- The number of usable keys in slots 2 to 255 (R721). -/
def usableCount (s : State) : Nat := ((upto 254).filter (fun j => usable_ s (j + 2))).length

/-- The life-cycle state's bit is set in an attribute word (R697). -/
def lcBit (s : State) (attr : Word) : Bool := bitOf attr (23 + s.sec.lc)

/-- A ring can invoke a key (R698): its partition's HOST bit, the non-secure world, the life-cycle state. -/
def ringInvokes (s : State) (part : Nat) (v : KeySlot) : Bool :=
  bitOf v.attr part && bitOf v.attr 22 && lcBit s v.attr

/-- Why a named slot cannot serve as a key of a ring: 9 ACCESS, or REFUSED with its code (R698, R705). -/
def keyFault (s : State) (part k : Nat) : Option (Nat × Nat) :=
  let v := keySlot s k
  if k < 2 then some (0xD, 8)
  else if v.damaged then some (0xD, 10)
  else if !v.full then some (0xD, 3)
  else if !ringInvokes s part v then some (9, k)
  else if !usable_ s k then some (0xD, 3)
  else none

/-- The attributes a new key may have under its parent on a ring of a partition (R699). -/
def attrOk (parent : Option Word) (part : Nat) (a : Word) : Bool :=
  fld a 22 21 != 0 &&
  (match parent with
   | none => true
   | some p => (a &&& 0x0F9FFFFF) &&& ~~~ p == 0 && (a &&& 0x600000) &&& ~~~ p == 0) &&
  (part == 0 || (a &&& 0x1FFFF) == oneBit part)

/-- Why a parent cannot take the new key: its access, its state, its level and its kind (R696, R698, R705). -/
def parentFault (s : State) (part p : Nat) (derive : Bool) : Option (Nat × Nat) :=
  if p = 0 then (if part = 0 then none else some (9, 0))
  else if p = 1 then some (9, 1)
  else match keyFault s part p with
    | some e => some e
    | none =>
      let v := keySlot s p
      if !bitOf v.attr 28 || v.level ≥ 3 || (derive && v.kind != 0) then some (0xD, 4) else none

/-- Why a new key cannot be made in slot `t` under parent `p` with attributes `a` (R699, R705, R714). -/
def newFault (s : State) (part t p : Nat) (a : Word) (derive : Bool) : Option (Nat × Nat) :=
  if s.sec.lc = 4 then some (0xD, 6)
  else if t < 2 then some (0xD, 8)
  else match parentFault s part p derive with
    | some e => some e
    | none =>
      if !attrOk (if p = 0 then none else some (keySlot s p).attr) part a then some (0xD, 5)
      else if usable_ s t then some (0xD, 2) else none

/-- The new key stands in its slot (R696, R702, R706). -/
def newKey (s : State) (t p : Nat) (a : Word) (kind origin : Nat) (secret : List Nat) : State :=
  let level := if p = 0 then 1 else (keySlot s p).level + 1
  let pub := if kind = 0 then [] else pubOf (beNat secret)
  putSlot s t { (keySlot s t) with
    gen := genOf s t + 1, full := true, damaged := false, kind := kind, attr := a, parent := p, parentGen := genOf s p,
    level := level, origin := origin, secret := secret, pub := pub }

/-- A random number of 256 bits from the source of R710. -/
def drawRandom (s : State) : Nat × State :=
  let f := takeFree s
  (Config.random f.1 % 2 ^ 256, f.2)

/-- A salt: a generation as four little-endian bytes and 28 zero bytes (R695, R700). -/
def genSalt (g : Word) : List Nat := leBytes 4 g.toNat ++ List.replicate 28 0

/-- KEY_GEN (R700, R702). -/
def kopGen (s : State) (n : Nat) (f : Flight) : State :=
  let t := (tgtOf f).toNat
  let p := (parOf f 0).toNat
  let kind := (parOf f 2).toNat
  match newFault s (ringPart s n) t p (parOf f 1) false with
  | some e => complete s n f e.1 0 0 (w32 e.2)
  | none =>
    if !s.sec.entropyOk then complete s n f 0xD 0 0 9
    else
      let d := drawRandom s
      let x := if kind = 0 then d.1 else scalarOf d.1
      let s := newKey d.2 t p (parOf f 1) kind 0 (beBytes 32 x)
      if kind = 0 then complete s n f 0 (genOf s t) 0 0
      else completeOut s n f (bytesWords (keySlot s t).pub) (genOf s t) 0 (nowTs s)

/-- KEY_DERIVE (R700). -/
def kopDerive (s : State) (n : Nat) (f : Flight) : State :=
  let t := (tgtOf f).toNat
  let p := (parOf f 0).toNat
  match newFault s (ringPart s n) t p (parOf f 1) true with
  | some e => complete s n f e.1 0 0 (w32 e.2)
  | none =>
    let ikm := if p = 0 then rootNow s else (keySlot s p).secret
    let k := hkdf (genSalt (genOf s p)) ikm (wordsBytes f.input) 32
    let s := newKey s t p (parOf f 1) 0 1 k
    complete s n f 0 (genOf s t) 0 0

/-- A slot is emptied and its generation advances (R702, R703). -/
def emptySlot (s : State) (k : Nat) : State :=
  putSlot s k { KeySlot.reset with gen := (keySlot s k).gen + 1 }

/-- KEY_INVALIDATE (R703). -/
def kopInvalidate (s : State) (n : Nat) (f : Flight) : State :=
  let k := (tgtOf f).toNat
  let part := ringPart s n
  if s.sec.lc = 4 then complete s n f 0xD 0 0 6
  else match keyFault s part k with
    | some e => complete s n f e.1 0 0 (w32 e.2)
    | none =>
      if part != 0 && ((keySlot s k).attr &&& 0x1FFFF) != oneBit part then complete s n f 9 0 0 (w32 k)
      else
        let before := usableCount s
        let s := emptySlot s k
        complete s n f 0 (w32 (before - 1 - usableCount s)) 0 0

/-- The group attestation key's scalar and public point (R696, R718). -/
def groupScalar : Nat := scalarOf Config.groupKey
def groupPub : List Nat := pubOf groupScalar

/-- The report on key `k` that KEY_ATTEST signs, with the nonce of a host (R717). -/
def attestHead (s : State) (k : Nat) (nonce : List Nat) : List Nat :=
  let v := keySlot s k
  let pub := if v.kind = 0 then List.replicate 64 0 else v.pub
  leBytes 4 (1 + v.kind * 256 + v.origin * 65536 + v.level * 16777216) ++ leBytes 4 v.attr.toNat ++ leBytes 4 s.sec.lc ++
    List.replicate 4 0 ++ pub ++ nonce ++ (sha256 groupPub).take 8

/-- KEY_ATTEST (R717). -/
def kopAttest (s : State) (n : Nat) (f : Flight) : State :=
  let k := (tgtOf f).toNat
  if s.sec.lc = 3 ∨ s.sec.lc = 4 then complete s n f 0xD 0 0 6
  else match keyFault s (ringPart s n) k with
    | some e => complete s n f e.1 0 0 (w32 e.2)
    | none =>
      if !s.sec.entropyOk then complete s n f 0xD 0 0 9
      else
        let head := attestHead s k ((wordsBytes f.input).take 32)
        let d := drawRandom s
        completeOut d.2 n f (bytesWords (head ++ ecdsaSign groupScalar (scalarOf d.1) (sha256 head))) 0 0 (nowTs s)

/-- The ASCII bytes of R716. -/
def enrolText : List Nat := [0x53, 0x4B, 0x56, 0x2D, 0x45, 0x4E, 0x52, 0x4F, 0x4C, 0x2D, 0x31]

/-- The enrolled key that a payload unwraps to; none when its tag does not verify (R715, R716). -/
def unwrapKey (priv : Nat) (f : Flight) : Option (List Nat) :=
  let b := wordsBytes f.input
  let e := ptOf ((b.drop 8).take 64)
  if !onCurve e then none
  else match ptMul priv e with
    | none => none
    | some z =>
      let info := enrolText ++ leBytes 4 (tgtOf f).toNat ++ leBytes 4 (parOf f 0).toNat ++ leBytes 4 (parOf f 1).toNat
      gcmOpen (hkdf (List.replicate 32 0) (beBytes 32 z.1) info 32) ((b.drop 72).take 12) (b.take 8) ((b.drop 84).take 32)
        ((b.drop 116).take 16)

/-- Why an UNWRAP key cannot serve (R715). -/
def unwrapFault (s : State) (u : Nat) : Option (Nat × Nat) :=
  match keyFault s 0 u with
  | some e => some e
  | none => if (keySlot s u).kind != 2 then some (0xD, 7) else none

/-- KEY_ENROL (R715, R716). -/
def kopEnrol (s : State) (n : Nat) (f : Flight) : State :=
  let t := (tgtOf f).toNat
  let p := (parOf f 0).toNat
  let w0 := wAt f.input 0
  let u := fld w0 23 16
  let kind := fld w0 15 8
  match newFault s (ringPart s n) t p (parOf f 1) false with
  | some e => complete s n f e.1 0 0 (w32 e.2)
  | none => match unwrapFault s u with
    | some e => complete s n f e.1 0 0 (w32 e.2)
    | none => match unwrapKey (beNat (keySlot s u).secret) f with
      | none => complete s n f 0xD 0 0 1
      | some k =>
        let s := newKey s t p (parOf f 1) kind 2 k
        complete s n f 0 (genOf s t) 0 0

/-- The key of an operation on data: none with the completion made (R698, R705, R714). -/
def dataKey (s : State) (n : Nat) (f : Flight) (kind : Nat) : Option KeySlot × State :=
  let k := (tgtOf f).toNat
  if s.sec.lc = 4 then (none, complete s n f 0xD 0 0 6)
  else match keyFault s (ringPart s n) k with
    | some e => (none, complete s n f e.1 0 0 (w32 e.2))
    | none => if (keySlot s k).kind != kind then (none, complete s n f 0xD 0 0 7) else (some (keySlot s k), s)

/-- AEAD, encrypting or decrypting: nonce, associated data, data, tag (R545). -/
def kopAead (s : State) (n : Nat) (f : Flight) : State :=
  match dataKey s n f 0 with
  | (none, t) => t
  | (some v, _) =>
    let b := wordsBytes f.input
    let al := (parOf f 1).toNat
    let nonce := b.take 12
    let aad := (b.drop 12).take al
    let m := b.length - 28 - al
    let data := (b.drop (12 + al)).take m
    let tag := b.drop (12 + al + m)
    if bitOf (parOf f 0) 0 then
      match gcmOpen v.secret nonce aad data tag with
      | none => complete s n f 0xD 0 0 1
      | some pt => completeOut s n f (bytesWords (nonce ++ aad ++ pt ++ tag)) 0 0 (nowTs s)
    else
      let r := gcmSeal v.secret nonce aad data
      completeOut s n f (bytesWords (nonce ++ aad ++ r.1 ++ r.2)) 0 0 (nowTs s)

/-- SIGN (R545, R701). -/
def kopSign (s : State) (n : Nat) (f : Flight) : State :=
  match dataKey s n f 1 with
  | (none, t) => t
  | (some v, _) =>
    let x := takeFree s
    let sig := ecdsaSign (beNat v.secret) (scalarOf (Config.signNonce x.1)) ((wordsBytes f.input).take 32)
    completeOut x.2 n f (bytesWords sig) 0 0 (nowTs s)

/-- KEY_INFO (R545, R698, R708): attributes, parent slot, generation, and a last word whose bits the spec does not place. -/
def kopInfo (s : State) (n : Nat) (f : Flight) : State :=
  let k := (tgtOf f).toNat
  let v := keySlot s k
  if k = 0 then complete s n f 0xD 0 0 8
  else if k = 1 ∨ (v.full && !v.damaged && !ringInvokes s (ringPart s n) v) = true then complete s n f 9 0 0 (w32 k)
  else
    let x := takeFree s
    completeOut x.2 n f [v.attr, w32 v.parent, v.gen, Config.keyInfoLast v.damaged x.1] 0 0 (nowTs s)

/-! ### Masks, the entropy source and the life cycle -/

/-- Every slot that holds a key, and the root, is masked anew (R709). -/
def remaskAll (s : State) : State :=
  let ks := 0 :: (keyTab s).map Prod.fst
  let m := ks.foldl (fun m k => tset (fun _ => 0) m k (tget (fun _ => 0) m k + 1)) s.sec.masks
  { s with sec := { s.sec with masks := m, remask := s.sec.remask + 1, maskAt := s.up, remaskDue := false } }

/-- REMASK (R709, R710): 10 minutes after the last round; postponed while the random source has failed. -/
def execRemask (s : State) : Host.Outcome State Fault Refusal :=
  done s (
    if !(s.clk.alive && s.sec.rootOk && decide (s.sec.maskAt + 600000000000 ≤ s.up)) then s
    else if s.sec.entropyOk then remaskAll s
    else { s with sec := { s.sec with remaskDue := true } })

/-- ENTROPY_FAIL (R710). -/
def execEntropyFail (s : State) : Host.Outcome State Fault Refusal :=
  done s (if s.clk.alive then raiseBoth { s with sec := { s.sec with entropyOk := false } } oSecEvent 4 else s)

/-- ENTROPY_RECOVER (R710): a postponed remask runs at once. -/
def execEntropyRecover (s : State) : Host.Outcome State Fault Refusal :=
  let t := { s with sec := { s.sec with entropyOk := true } }
  done s (if !s.clk.alive then s else if t.sec.remaskDue then remaskAll t else t)

/-- A transition of R712. -/
def lcAllowed (s : State) (to_ : Nat) : Bool :=
  match s.sec.lc with
  | 1 => to_ == 2 || to_ == 3
  | 2 => to_ == 3 || to_ == 4
  | 3 => to_ == s.sec.lcFrom
  | 4 => to_ == 1
  | _ => false

/-- A write of GLB_LC_CTRL (R712). -/
def lcRequest (s : State) (v : Word) : State :=
  let q := fld v 2 0
  if q = 7 ∨ lcAllowed s q = true then rset s oLcCtrl (w32 q) else raiseBoth s oSecEvent 0x10

/-- LC_REQUEST. -/
def execLcRequest (value : Word) (s : State) : Host.Outcome State Fault Refusal := done s (reached s 0 fun s => lcRequest s value)

/-- Entry into DECOMMISSIONED: the root generation advances and slots 2 to 255 are emptied (R714). -/
def decommission (s : State) : State :=
  let s := { s with sec := { s.sec with rootGen := s.sec.rootGen + 1 } }
  forAll (s.sec.slots.map Prod.fst) (fun s k => if 2 ≤ k ∧ ((keySlot s k).full || (keySlot s k).damaged) = true then emptySlot s k else s) s

/-- The saved life-cycle request is acted on at start-up step 1 (R712 to R714). -/
def lcStart (s : State) : State :=
  let q := rfld s oLcCtrl 2 0
  let s := rset s oLcCtrl 7
  if q = 7 then s
  else if q = 4 then decommission { s with sec := { s.sec with lc := 4 } }
  else if q = 3 then { s with sec := { s.sec with lcFrom := s.sec.lc, lc := 3 } }
  else { s with sec := { s.sec with lc := q } }

/-- Records found damaged at start-up step 1 (R707, R708). -/
def damageSlots (s : State) (l : List Nat) : State :=
  forAll l (fun s k =>
    let v := keySlot s k
    if k = 0 ∨ v.full = false then s
    else
      let t := tset (fun _ => KeySlot.reset) (keyTab s) k { v with damaged := true }
      let s := if s.sec.lc = 3 then { s with sec := { s.sec with debug := t } } else { s with sec := { s.sec with slots := t } }
      raiseBoth (poison s 9) oSecEvent 8) s

end Sys2Proof.Machine
end

