-- ==== Sys2Proof/Machine/Update.lean ====
section
/-! DEFINITION. Firmware and settings update: chunks, verification, installing, trial, fallback and cartridge software
(R723 to R742). -/

namespace Sys2Proof.Machine

/-! ### The image header (R723, R724) -/

/-- A little-endian field of a header. -/
def hdr (b : List Nat) (o n : Nat) : Nat := leNat ((b.drop o).take n)

/-- Bytes of a header. -/
def hdrB (b : List Nat) (o n : Nat) : List Nat := (b.drop o).take n

/-- The staged header, when chunk 0 is present. -/
def stagedHdr (s : State) : Option (List Nat) := alook s.upd.chunks 0

/-- UPD_EVENT bits become set (R742). -/
def updEvent (s : State) (bit : Nat) : State := raiseBoth s oUpdEvent (oneBit bit)

/-- The state with the update engine changed. -/
def modUpd (s : State) (f : Upd → Upd) : State := { s with upd := f s.upd }

/-- The content key a header unwraps to under the product transport key (R725). -/
def contentKey (h : List Nat) : Option (List Nat) :=
  gcmOpen (beBytes 32 Config.transportKey) (hdrB h 0x30 12) (hdrB h 0 0x30) (hdrB h 0x40 32) (hdrB h 0x60 16)

/-- The nonce of chunk `n` (R724). -/
def chunkNonce (h : List Nat) (n : Nat) : List Nat := hdrB h 0x70 8 ++ xorB (hdrB h 0x78 4) (leBytes 4 n)

/-- The image identifier (R724). -/
def imageId (h : List Nat) : List Nat := (sha256 (h.take 0x80)).take 8

/-- The plaintext of a content chunk; none when its tag fails (R724). -/
def openChunk (h key : List Nat) (n : Nat) (c : List Nat) : Option (List Nat) :=
  gcmOpen key (chunkNonce h n) (leBytes 4 n ++ imageId h) (c.take (c.length - 16)) (c.drop (c.length - 16))

/-- A chunk authenticates against a header: chunk 0 by the tag of its wrapped key, the others by their own (R728). -/
def chunkTagOk (h : List Nat) (n : Nat) (c : List Nat) : Bool :=
  match contentKey h with
  | none => false
  | some k => n == 0 || (openChunk h k n c).isSome

/-- The length chunk `n` of `count` must have, as far as it is known (R724). -/
def chunkLen (s : State) (n count : Nat) : Option Nat :=
  if n = 0 ∨ n + 1 < count then some 4096
  else match stagedHdr s with
    | some h =>
      let l := hdr h 0x14 4 - 4096 * (count - 1)
      if 32 ≤ l ∧ l ≤ 4096 ∧ l % 16 = 0 then some l else none
    | none => none

/-- A chunk's length is allowed. -/
def chunkLenOk (s : State) (n count len : Nat) : Bool :=
  match chunkLen s n count with
  | some l => len == l
  | none => decide (32 ≤ len) && decide (len ≤ 4096) && len % 16 == 0

/-! ### Receiving chunks (R727 to R732) -/

/-- Every stored chunk is checked against the chunk 0 that has come: those that fail lose their bit (R728). -/
def recheck (s : State) : State :=
  match stagedHdr s, s.upd.count with
  | some h, some c =>
    let bad := s.upd.chunks.filter (fun e => e.1 != 0 && !(chunkLenOk s e.1 c e.2.length && chunkTagOk h e.1 e.2))
    if bad.isEmpty then s
    else
      let s := modUpd s (fun u => { u with chunks := u.chunks.filter (fun e => !(bad.any (fun b => b.1 == e.1))) })
      forAll bad (fun s _ => poison s 0xA) s
  | _, _ => s

/-- Every chunk of the open transfer is present: verification begins (R729). -/
def maybeFull (s : State) : State :=
  match s.upd.count with
  | some c => if s.upd.chunks.length = c then modUpd s (fun u => { u with stage := 2 }) else s
  | none => s

/-- A chunk arrives: status, RESULT0, DETAIL, whether it was stored, and the state (R728). -/
def chunkIn (s : State) (n count : Nat) (c : List Nat) : (Nat × Nat × Nat) × Bool × State :=
  let u := s.upd
  if u.stage = 2 ∨ u.stage = 5 then ((0xE, 0, 0), false, s)
  else if u.stage = 3 ∨ u.stage = 4 then ((0xD, 0, 2), false, s)
  else if count ≤ n then ((4, 0, 0), false, s)
  else if count < 2 ∨ 6144 < count then ((4, 0, 1), false, s)
  else if u.stage = 1 ∧ u.count ≠ some count then ((0xD, 0, 1), false, s)
  else if !chunkLenOk s n count c.length then ((8, 0, (chunkLen s n count).getD 0), false, s)
  else if (alook u.chunks n).isSome then ((0, u.chunks.length, 0), false, s)
  else
    let bad := match (if n = 0 then some c else stagedHdr s) with
      | some h => !chunkTagOk h n c
      | none => false
    if bad then ((6, 0, 0xA), false, poison s 0xA)
    else
      let s := modUpd s (fun u => { u with stage := 1, count := some count, chunks := aset u.chunks n c })
      let s := if n = 0 then recheck s else s
      ((0, s.upd.chunks.length, 0), true, maybeFull s)

/-- UPD_FL_SRC (R731). -/
def flSrc (s : State) : Nat := (rget s 0xD0024).toNat + rfld s 0xD0028 15 0 * 2 ^ 32

/-- A bit map of chunks from `lo`, `n` bytes (R730, R731). -/
def chunkMap (s : State) (lo n : Nat) : List Nat :=
  (upto n).map (fun j => ((upto 8).map (fun i => (alook s.upd.chunks (lo + 8 * j + i)).isSome.toNat * 2 ^ i)).sum)

/-- The lowest missing chunk. -/
def lowestMissing (s : State) : Nat := ((upto 6144).find? (fun n => (alook s.upd.chunks n).isNone)).getD 6144

/-- UPD_REPORT is sent (R731, R732). -/
def sendReport (s : State) : State :=
  let lo := lowestMissing s / 8 * 8
  let body := [s.upd.stage, 0, 0, 0] ++ leBytes 4 s.upd.chunks.length ++ leBytes 4 lo ++ [0, 0, 0, 0] ++ chunkMap s lo 128
  flSend s 0x21 5 0 (flSrc s) body

/-- A ring chunk or a whole assembled one replaces the partial chunk of its index (R732). -/
def dropPart (s : State) (n : Nat) : State := modUpd s (fun u => { u with parts := u.parts.filter (fun p => p.idx != n) })

/-- UPD_CHUNK (R728, R732, R546). -/
def uopChunk (s : State) (n : Nat) (f : Flight) : State :=
  let k := (parOf f 0).toNat
  let r := chunkIn s k (parOf f 1).toNat (wordsBytes f.input)
  let s := if r.1.1 = 0 then dropPart r.2.2 k else r.2.2
  let s := if r.2.1 && bitOf (rget s oUpdCtrl) 1 then sendReport s else s
  complete s n f r.1.1 (w32 r.1.2.1) 0 (w32 r.1.2.2)

/-- UPD_STATUS (R730). -/
def uopStatus (s : State) (n : Nat) (f : Flight) : State :=
  completeOut s n f (bytesWords (chunkMap s 0 768)) (w32 s.upd.chunks.length) 0 (nowTs s)

/-- The staging area is emptied (R730, R735, R741). -/
def emptyStage (s : State) : State := modUpd s (fun u => { u with stage := 0, chunks := [], count := none, parts := [], cartSw := none })

/-- UPD_ABORT (R730). -/
def uopAbort (s : State) (n : Nat) (f : Flight) : State :=
  if s.upd.stage = 5 then complete s n f 0xE 0 0 0 else complete (emptyStage s) n f 0 0 0 0

/-- UPD_CONFIRM (R730, R739). -/
def uopConfirm (s : State) (n : Nat) (f : Flight) : State :=
  if !s.upd.trial then complete s n f 0xD 0 0 1
  else
    let b := if s.upd.active = 0 then s.upd.bank0 else s.upd.bank1
    let s := modUpd s (fun u => { u with
      trial := false, floor := max u.floor b.floor, outcome := 3, oldRegs := [], oldLive := [], kept := 0, fallback := false, leaving := 0 })
    complete (updEvent s 4) n f 0 0 0 0

/-- Bytes of fragment `k` of a chunk of a length (R731). -/
def fragLen (len k : Nat) : Nat := min 1440 (len - 1440 * k)

/-- The partial chunk a fragment belongs to, with the fragment in it (R732). -/
def addFrag (s : State) (n count len k : Nat) (d : List Nat) : Partial_ :=
  match s.upd.parts.find? (fun p => p.idx == n && p.count == count && p.len == len) with
  | some p => { p with frags := aset p.frags k d }
  | none => { idx := n, count := count, len := len, frags := [(k, d)] }

/-- A fragment that has been accepted (R732). -/
def takeFrag (s : State) (n count len k : Nat) (d : List Nat) : State :=
  let p := addFrag s n count len k d
  let l := s.upd.parts.filter (fun q => q.idx != n)
  let l := (if 8 ≤ l.length then l.drop 1 else l) ++ [p]
  let s := modUpd s (fun u => { u with parts := l, fragAt := some s.up })
  if p.frags.length = ceilDiv len 1440 then
    let r := chunkIn (dropPart s n) n count (p.frags.flatMap Prod.snd)
    if r.2.1 then sendReport r.2.2 else r.2.2
  else s

/-- UPD_FRAG (R603, R731, R732): whether it is sound, its destination and source, and its body. -/
def execUpdFrag (ok : Bool) (dst src : BitVec 48) (idx count : Word) (frag : Fin 256) (len : Word) (data : List Nat) (s : State) :
    Host.Outcome State Fault Refusal :=
  let l := len.toNat
  done s (
    if !blockUp s 5 then s
    else if !ok then flReject s
    else if bitOf (rget s oUpdCtrl) 1 && macValid s && dst.toNat == ownMac s && src.toNat == flSrc s && decide (frag.val < 3) &&
        decide (1440 * frag.val < l) && decide (l ≤ 4096) && data.length == fragLen l frag.val then
      takeFrag s idx.toNat count.toNat l frag.val data
    else s)

/-- UPD_REPORT (R732): every second while fragments have arrived within the last 10 s. -/
def execUpdReport (s : State) : Host.Outcome State Fault Refusal :=
  let lately := match s.upd.fragAt with
    | some t => decide (s.up ≤ t + 10000000000)
    | none => false
  done s (
    if blockUp s 5 && bitOf (rget s oUpdCtrl) 1 && lately && decide (s.upd.reportAt + 1000000000 ≤ s.up) then
      sendReport (modUpd s (fun u => { u with reportAt := s.up }))
    else s)

/-! ### Verification (R729) -/

/-- Bytes that must be zero in a header (R723). -/
def hdrZeros (h : List Nat) : Bool :=
  (hdrB h 0x1C 4 ++ hdrB h 0x2B 5 ++ hdrB h 0x3C 4 ++ hdrB h 0x7C 4 ++ h.drop 0x100).all (· == 0)

/-- The public point of a signing key (R725). -/
def signPoint (n : Nat) : List Nat := beBytes 32 (Config.signPoint n).1 ++ beBytes 32 (Config.signPoint n).2

/-- The plaintext content of the staged image, when every tag verifies. -/
def plainOf (s : State) (h : List Nat) : Option (List Nat) :=
  match contentKey h with
  | none => none
  | some k => (s.upd.chunks.filter (fun e => e.1 != 0)).foldl (fun a e => match a, openChunk h k e.1 e.2 with
    | some l, some p => some (l ++ p)
    | _, _ => none) (some [])

/-- The staged file's chunks after chunk 0, as stored. -/
def storedOf (s : State) : List Nat := (s.upd.chunks.filter (fun e => e.1 != 0)).flatMap Prod.snd

/-- Both digests match (R723). -/
def digestsOk (s : State) (h : List Nat) : Bool :=
  sha256 (storedOf s) == hdrB h 0x80 32 &&
  (match plainOf s h with
   | some p => sha256 (p.take (hdr h 0x18 4)) == hdrB h 0xA0 32
   | none => false)

/-- FORMAT_VER of the active block image, if there is one. -/
def imgFormat (s : State) : Option Nat := s.img.map (fun im => leNat ((im.bytes.drop 4).take 2))

/-- A version lies within a range of a header. -/
def verIn (h : List Nat) (o v : Nat) : Bool := decide (hdr h o 1 ≤ v) && decide (v ≤ hdr h (o + 1) 1)

/-- The outcome of verification: 0 passed, or VERIFY_ERR (R729). -/
def verifyCode (s : State) : Nat :=
  let h := (stagedHdr s).getD []
  let kind := hdr h 6 1
  let n := hdr h 0x12 2
  let last := ((alook s.upd.chunks (n - 1)).getD []).length
  if !(hdr h 0 4 = 0x57464B53 ∧ hdr h 4 2 = 1 ∧ kind ≤ 1 ∧ hdrZeros h ∧ s.upd.count = some n ∧ hdr h 0x14 4 = 4096 * (n - 1) + last) then 1
  else if hdr h 8 4 ≠ 0x54580192 then 2
  else if 3 < hdr h 7 1 ∨ ecdsaVerify (signPoint (hdr h 7 1)) (sha256 (h.take 0xC0)) (hdrB h 0xC0 64) = false then 3
  else if (contentKey h).isNone then 4
  else if !digestsOk s h then 5
  else if (kind = 0 ∧ (16707600 < hdr h 0x18 4 ∨ 4096 < n)) ∨ (kind = 1 ∧ 2097152 < hdr h 0x18 4) then 6
  else if hdr h 0xC 2 < s.upd.floor then 7
  else if kind = 0 ∧ !verIn h 0x28 s.upd.setFmt then 8
  else if kind = 0 ∧ ((imgFormat s).map (fun v => !verIn h 0x26 v)).getD false = true then 9
  else 0

/-- UPDATE_VERIFY_DONE (R729). -/
def execUpdateVerifyDone (s : State) : Host.Outcome State Fault Refusal :=
  done s (
    if s.upd.stage ≠ 2 || !(s.clk.alive && blockUp s 5) then s else
      let e := verifyCode s
      let s := modUpd s (fun u => { u with stage := if e = 0 then 3 else 4, verifyErr := e })
      updEvent s (if e = 0 then 0 else 1))

/-! ### Installing (R733, R734) -/

/-- This module holds the ball on a twin base. -/
def holdsTwin (s : State) : Bool := onTwin s && s.twn.role == 1

/-- KIND and RELEASE of the staged image. -/
def stagedKind (s : State) : Nat := hdr ((stagedHdr s).getD []) 6 1
def stagedRel (s : State) : Nat := hdr ((stagedHdr s).getD []) 0xC 2

/-- INSTALL_ERR of an INSTALL; 0 where it is accepted (R733). -/
def installErr (s : State) (aloneOk : Bool) : Nat :=
  let p := s.upd.peerRel
  if s.upd.stage ≠ 3 ∨ stagedKind s = 1 then 1
  else if bitOf (rget s oUpdCtrl) 0 then 2
  else if s.rtc.batLow then 3
  else if !bitOf (rget s oPwrStatus) 1 then 4
  else if s.twn.pair = 5 then 5
  else if holdsTwin s = true ∧ s.twn.pair ≠ 4 ∧ ¬(aloneOk = true ∧ s.twn.pair = 2) then 6
  else if s.upd.trial then 7
  else if p ≠ 0 ∧ (p + 1 < stagedRel s ∨ stagedRel s + 1 < p) then 8
  else 0

/-- The module leaves the ball, if it holds it with a synchronised standby, and then stops and resets (R734, R738). -/
def leaveBall (s : State) : State :=
  if holdsTwin s && s.twn.pair == 4 then
    (match planHandoff s 3 none with
     | some t => t
     | none => leaveRefused s)
  else if holdsTwin s && s.twn.pair == 5 then leaveRefused s
  else updReset s

/-- UPD_CMD.INSTALL (R733, R734). -/
def installCmd (s : State) (aloneOk : Bool) : State :=
  let e := installErr s aloneOk
  if e ≠ 0 then modUpd s (fun u => { u with installErr := e })
  else leaveBall (modUpd s (fun u => { u with stage := 5, mark := true, installErr := 0, leaving := 1 }))

/-- INSTALL. -/
def execInstall (aloneOk : Bool) (s : State) : Host.Outcome State Fault Refusal := done s (reached s 5 fun s => installCmd s aloneOk)

/-! ### Trial and fallback (R737 to R739) -/

/-- The fallback is marked pending and the module leaves (R738). -/
def fallBack (s : State) : State :=
  if s.upd.fallback then s else leaveBall (modUpd s (fun u => { u with fallback := true, leaving := 2, askAt := s.up }))

/-- UPD_CMD.FALLBACK (R738): ignored outside a trial. -/
def fallbackCmd (s : State) : State := if s.upd.trial then fallBack s else s

/-- FALLBACK. -/
def execFallback (s : State) : Host.Outcome State Fault Refusal := done s (reached s 5 fun s => fallbackCmd s)

/-- The operating time the trial ends at (R737), in 0.1 s. -/
def trialEnd (s : State) : Nat := s.upd.trialAt + rfld s oUpdCtrl 13 6 * 36000

/-- TRIAL_TIME_EXPIRY (R737, R738). -/
def execTrialTimeExpiry (s : State) : Host.Outcome State Fault Refusal :=
  done s (if s.clk.alive && s.upd.trial && decide (trialEnd s ≤ s.rtc.optime) then fallBack s else s)

/-- FALLBACK_HANDOFF_RETRY (R738). -/
def execFallbackHandoffRetry (s : State) : Host.Outcome State Fault Refusal :=
  done s (
    if s.clk.alive && s.upd.fallback && s.upd.leaving == 2 && s.twn.plan.isNone && decide (s.upd.askAt + 60000000000 ≤ s.up) then
      leaveBall (modUpd s (fun u => { u with askAt := s.up }))
    else s)

/-! ### Cartridge software (R740, R741) -/

/-- INSTALL_ERR of a CART_INSTALL; 0 where it is accepted (R740). -/
def cartErr (s : State) : Nat :=
  if s.upd.stage ≠ 3 ∨ stagedKind s = 0 then 1
  else if bitOf (rget s oUpdCtrl) 0 then 2
  else if !s.mtr.sealOpen then 0xA
  else if !s.mtr.running then 0xB
  else 0

/-- UPD_CMD.CART_INSTALL (R740). -/
def cartInstallCmd (s : State) : State :=
  let e := cartErr s
  if e ≠ 0 then modUpd s (fun u => { u with installErr := e })
  else
    let h := (stagedHdr s).getD []
    let p := ((plainOf s h).getD []).take (hdr h 0x18 4)
    emit (modUpd s (fun u => { u with cartSw := some p, installErr := 0 })) (.door 0 (bytesWords p))

/-- CART_INSTALL. -/
def execCartInstall (s : State) : Host.Outcome State Fault Refusal := done s (reached s 5 fun s => cartInstallCmd s)

/-- The cartridge has taken new software: residual save, restart, log, counter; the module's staging area is empty (R741). -/
def cartUpdated (s : State) (sw_ : Word) : State :=
  let old := s.mtr.swVer
  let s := mtrStop (mtrSave s true)
  let s := modMtr s (fun m => { freshRun m sw_ with running := true })
  let s := match bestSlot s 0xFFFF with
    | some k => loadSlot s k
    | none => s
  let s := applyBlocks (startIntervals s)
  let s := forAll (upto 96) (fun s k => setCirc s k { circ s k with changed := true }) s
  let s := modMtr (mtrLog s true 5 [old, sw_]) (fun m => { m with cntParam := satInc m.cntParam })
  updEvent (emptyStage s) 5

/-- CART_SOFTWARE_DONE (R741): whether the cartridge's own checks passed, and the new version and check identifier. -/
def execCartSoftwareDone (ok : Bool) (sw_ : Word) (s : State) : Host.Outcome State Fault Refusal :=
  done s (
    if s.upd.cartSw.isNone || !s.mtr.running then s
    else if !ok || fld sw_ 15 0 == fld s.mtr.swVer 15 0 || legalFull s then
      updEvent (modUpd s (fun u => { u with cartSw := none, installErr := 0xC })) 6
    else cartUpdated s sw_)

/-! ### Start-up step 2 (R147, R735 to R738) -/

/-- Bank `b` of the flash. -/
def fwBank (s : State) (b : Nat) : FwBank := if b = 0 then s.upd.bank0 else s.upd.bank1

/-- The state with bank `b` replaced. -/
def setFw (s : State) (b : Nat) (v : FwBank) : State :=
  modUpd s (fun u => if b = 0 then { u with bank0 := v } else { u with bank1 := v })

/-- The bank that the staged file fills (R735). -/
def stagedBank (s : State) : FwBank :=
  let h := (stagedHdr s).getD []
  { full := true, chunks := s.upd.chunks, rel := hdr h 0xC 2, build := hdr h 0xE 2, floor := hdr h 0x10 2, setFmt := hdr h 0x2A 1 }

/-- The install mark is acted on (R735): `bad` when the copied bank fails verification. -/
def installCopy (s : State) (bad : Bool) : State :=
  let other := 1 - s.upd.active
  if !s.upd.mark then s
  else if bad then updEvent (modUpd (setFw s other FwBank.reset) (fun u => { u with mark := false, stage := 4, verifyErr := 5 })) 1
  else
    let s := setFw s other (stagedBank s)
    let s := modUpd s (fun u => { u with
      active := other, trial := true, startsUsed := 0, trialAt := s.rtc.optime, mark := false, outcome := 1, convert := true })
    updEvent (emptyStage s) 2

/-- A register that the settings hold (R154, R355, R497, R583, R630, R712, R742, R759; log 55). -/
def isSetting (off : Nat) : Bool :=
  (regInfo off).rws != 0 ||
  ([0x54, 0x118, 0x70000, 0x70004, 0xD0000, 0xD0024, 0xD0028] : List Nat).contains off ||
  ((off / 0x10000 == 9 || off / 0x10000 == 10) && (regInfo off).rw != 0)

/-- The registers of a table that are settings. -/
def settingsOf (t : Tab Word) : Tab Word := t.filter (fun e => isSetting e.1)

/-- A table whose settings are replaced by others. -/
def withSettings (t old : Tab Word) : Tab Word :=
  (settingsOf old).foldl (fun r e => tset regReset r e.1 e.2) (t.filter (fun e => !isSetting e.1))

/-- The fallback bank becomes active, with its own settings (R738). -/
def fallNow (s : State) : State :=
  let s := setFw s s.upd.active FwBank.reset
  let back := !s.upd.convert
  let s := if back then { s with regs := withSettings s.regs s.upd.oldRegs, live := s.upd.oldLive } else s
  let s := modUpd s (fun u => { u with
    active := 1 - u.active, trial := false, startsUsed := 0, fallback := false, leaving := 0, outcome := 2, convert := false,
    setFmt := if back then u.kept else u.setFmt, kept := 0, oldRegs := [], oldLive := [] })
  updEvent s 3

/-- A start on a trial bank counts; at TRIAL_STARTS it falls back (R737, R738). -/
def countStart (s : State) : State :=
  if !s.upd.trial then s
  else
    let s := modUpd s (fun u => { u with startsUsed := u.startsUsed + 1 })
    if rfld s oUpdCtrl 5 2 ≤ s.upd.startsUsed then fallNow s else s

/-- Bank selection (R147): which banks fail verification. None: both do. A confirmed bank given up leaves no readable settings. -/
def selectBank (s : State) (bad0 bad1 : Bool) : Option (State × Bool) :=
  let ok := fun b => (fwBank s b).full && !(if b = 0 then bad0 else bad1)
  if ok s.upd.active then some (s, true)
  else if !ok (1 - s.upd.active) then none
  else if s.upd.trial then some (fallNow s, true)
  else some (modUpd s (fun u => { u with active := 1 - u.active }), false)

/-- Step 2 (R735, R737, R738): the state, and whether a settings area can be read; none halts with HALT_CODE 0x3. -/
def firmwareStart (s : State) (copyBad bad0 bad1 : Bool) : Option (State × Bool) :=
  let s := installCopy s copyBad
  let s := if s.upd.fallback && s.upd.trial then fallNow s else countStart s
  selectBank s bad0 bad1

/-- The first start of an installed image converts the settings into the other area (R736). -/
def convertSettings (s : State) : State :=
  if !s.upd.convert then s
  else modUpd s (fun u => { u with
    oldRegs := settingsOf s.regs, oldLive := s.live, kept := u.setFmt, setFmt := (fwBank s u.active).setFmt, convert := false })

end Sys2Proof.Machine
end

