-- ==== Sys2Proof/Machine/Regs.lean ====
section
/-! DEFINITION. What every register of BAR0 reads (R97 to R102, R153, R215, R217, R318, R325, R362 to R365, R419, R420,
R497, R554, R555, R624 to R626, R649, R668, R671, R721, R722, R742 to R758). -/

namespace Sys2Proof.Machine

/-- A bit at a place. -/
def bw (b : Bool) (i : Nat) : Word := if b then oneBit i else 0

/-- A number in a field. -/
def fw (v hi lo : Nat) : Word := setFld 0 hi lo v

/-- A number shown in units `d` times coarser, rounded in a way the spec leaves open (log 56). -/
def coarse (reg : Nat) (v : Int) (d : Nat) : Int :=
  if v % d = 0 then v / d else v / d + (Config.roundUp reg (twosOf 32 v)).toNat

/-- BUILD and RELEASE of a firmware bank. -/
def verWord (b : FwBank) : Word := if b.full then fw b.build 15 0 ||| fw b.rel 31 16 else 0

/-- Block GLB. A module halted before step 3 has loaded no settings: each reads its reset value (R154, R721). -/
def readGlb (s : State) (o : Nat) : Word :=
  if o = 0x8 then (if started s then verWord (fwBank s s.upd.active) else 0)
  else if o = 0x40 then
    fw s.base.slot 1 0 ||| bw (seatedNow s) 2 ||| bw s.base.peer 3 ||| bw s.base.la 4 ||| bw s.base.lb 5 ||| bw s.base.cart 6
  else if o = 0x44 then fw s.base.intTemp 11 0 ||| fw s.base.fieldDiss 27 16 ||| bw s.base.thermWarn 28
  else if o = 0x110 then
    fw s.sec.lc 2 0 ||| bw s.sec.rootOk 3 ||| bw s.sec.locked 4 ||| bw s.sec.entropyOk 5 ||| fw (usableCount s) 15 8 |||
    fw ((keyTab s).filter (fun e => e.2.damaged)).length 23 16
  else if haltedMod s && isSetting o then regReset o
  else rget s o

/-- Block CLK. -/
def readClk (s : State) (o : Nat) : Word :=
  if o = 0x8 then s.clk.good &&& 0x1FF ||| rget s oClkMon
  else if o = 0x1C then rget s oGateOpen &&& ~~~ s.clk.idle
  else rget s (0x10000 + o)

/-- Block PHC. -/
def readPhc (s : State) (o : Nat) : Word :=
  let p := s.phc
  let ts := nowTs s
  if o = 0x4 then
    fw p.st 2 0 ||| bw p.slew 3 ||| fw p.flags 7 4 ||| bw p.refValid 8 ||| fw p.refSrc 10 9 ||| bw (netLocked s) 11
  else if o = 0x8 then w32 ts
  else if o = 0xC then w32 (ts >>> 32)
  else if o = 0x10 then w32 (phcFreqWord s)
  else if o = 0x14 then (if p.refValid then w32 (divRne (p.refFreq * 65536) 10000) else 0)
  else if o = 0x18 then w32 (twosOf 16 p.perr)
  else if o = 0x20 then w32 p.gen
  else if 0x24 ≤ o ∧ o < 0x38 then wAt (mapWords s) ((o - 0x24) / 4)
  else if 0x8000 ≤ o ∧ o < 0xC000 then lget s (0x20000 + o - 0x4000)
  else rget s (0x20000 + o)

/-- A channel's diagnostic latches are not empty (R215). -/
def attn (s : State) (b : Nat) : Word :=
  (upto 16).foldl (fun w i => w ||| bw (rget s (oLatch (16 * b + i)) != 0) i) 0

/-- Page of bank `b`. -/
def readBnk (s : State) (b o : Nat) : Word :=
  let k := bank s b
  if o = 0x10 then bw k.linkUp 0 ||| bw k.fsGood 1 ||| bw k.safe 2 ||| k.causes ||| fw k.temp 23 16
  else if o = 0x14 then fw k.fsVolt 11 0 ||| fw k.fsCurr 28 16
  else if o = 0x28 then attn s b
  else if 0x100 ≤ o ∧ o < 0x300 ∧ o % 0x20 = 0xC then (chan s (16 * b + (o - 0x100) / 0x20)).diag
  else if 0x100 ≤ o ∧ o < 0x300 ∧ o % 0x20 = 0x14 then (chan s (16 * b + (o - 0x100) / 0x20)).meas
  else if 0x400 ≤ o ∧ o < 0x800 ∧ o % 0x40 = 0x30 then (chan s (16 * b + (o - 0x400) / 0x40)).sig
  else if 0x400 ≤ o ∧ o < 0x800 ∧ o % 0x40 = 0x34 then (chan s (16 * b + (o - 0x400) / 0x40)).drive
  else rget s (oBank b + o)

/-- The state of loop `n` (R365). -/
def readLoop (s : State) (n q : Nat) : Word :=
  let l := loopSt s n
  wAt [l.status, pnat s (loopPt n 0), pnat s (loopPt n 1), l.r, l.y, l.yf, l.i, l.v, l.u, l.uach, w32 l.hlast, l.satRun,
    l.satTot, l.satCnt, pnat s (loopPt n 2)] q

/-- Block LCE. -/
def readLce (s : State) (o : Nat) : Word :=
  if o = 0x8 then bw (computes s) 0 ||| fw (enLoops s.live).length 9 1
  else if 0x20 ≤ o ∧ o < 0x40 then
    (upto 32).foldl (fun w j => w ||| bw (bitOf (loopSt s (32 * ((o - 0x20) / 4) + j)).status 5) j) 0
  else if 0xA000 ≤ o ∧ o < 0xE000 then readLoop s ((o - 0xA000) / 0x40) (o % 0x40 / 4)
  else rget s (0x40000 + o)

/-- Block BLE. -/
def readBle (s : State) (o : Nat) : Word :=
  let e := s.ble
  if o = 0x0 then
    fw (if isStandby s then 2 else e.running.toNat) 1 0 ||| fw e.stopCause 5 2 ||| fw e.tripTask 9 6 ||| bw s.img.isSome 10 |||
    bw ((s.img.bind (retainFor s)).isSome) 11
  else if o = 0x4 then (s.img.map Image.programId).getD 0
  else if o = 0x8 then (s.img.map Image.build).getD 0
  else if o = 0x18 then retainSeqNo s
  else if 0x100 ≤ o ∧ o < 0x200 then
    let t := (o - 0x100) / 0x10
    let r := task s t
    (match o % 0x10 with
     | 0 => fw (if (s.img.bind (fun im => taskOf im t)).isNone then 0 else if r.stopped then 2 else 1) 1 0 ||| fw r.ovrRun 5 2
     | 4 => r.cycles
     | 8 => r.ovr
     | 12 => fw r.last 15 0 ||| fw r.max 31 16
     | _ => 0)
  else rget s (0x50000 + o)

/-- A register set of the read window (R318). -/
def readSet (s : State) (phase : Bool) (n q : Nat) : Word :=
  let l := tget (fun _ => []) (if phase then s.mtr.snapPhs else s.mtr.snapCirc) n
  let m := s.mtr.snapMap
  if q < 14 then w32 (visibleReg l (q / 2) >>> (32 * (q % 2)))
  else if q = 14 then w32 s.mtr.snapSave
  else bw (setInUse m phase n) 0 ||| bw (!phase && cType m n == 2) 1

/-- The status word of a door (R325). -/
def doorWord (d : Door) : Word := bw d.busy 0 ||| fw d.result 7 4 ||| fw d.done.toNat 31 16

/-- Block MTR. -/
def readMtr (s : State) (o : Nat) : Word :=
  let m := s.mtr
  if o = 0x0 then
    bw s.base.cart 0 ||| bw m.running 1 ||| bw m.sealOpen 2 ||| bw m.meterId.isSome 3 ||| bw (legalFull s) 4 ||| bw m.fault 5 |||
    fw (twosOf 8 (coarse 0 m.temp 10)) 15 8
  else if o = 0x8 then m.swVer
  else if o = 0x10 then m.cntSeal
  else if o = 0x14 then m.cntParam
  else if o = 0x18 then m.cntPwr
  else if o = 0x1C then m.cntRes
  else if 0x20 ≤ o ∧ o < 0x30 then wAt (bytesWords (m.meterId.getD (List.replicate 16 0x20))) ((o - 0x20) / 4)
  else if o = 0x30 then w32 m.optime
  else if o = 0x34 then w32 (m.optime >>> 32 % 256)
  else if o = 0x40 then m.snapGen
  else if o = 0x5C then doorWord m.openDoor
  else if 0x400 ≤ o ∧ o < 0x420 then wAt m.resp ((o - 0x400) / 4)
  else if o = 0x100C then doorWord m.secDoor
  else if 0x8000 ≤ o ∧ o < 0x9800 then readSet s false ((o - 0x8000) / 0x40) (o % 0x40 / 4)
  else if 0xA000 ≤ o ∧ o < 0xB800 then readSet s true ((o - 0xA000) / 0x40) (o % 0x40 / 4)
  else if 0xC000 ≤ o ∧ o < 0xD800 then tget ptDefault m.snapPts (0x1000 + 16 * ((o - 0xC000) / 0x40) + o % 0x40 / 4)
  else if 0xD800 ≤ o ∧ o < 0xD810 then tget ptDefault m.snapPts (0x1600 + (o - 0xD800) / 4)
  else if 0x8000 ≤ o then 0
  else rget s (0x60000 + o)

/-- Block TWN. -/
def readTwn (s : State) (o : Nat) : Word :=
  let t := s.twn
  if o = 0x8 then
    fw t.pair 2 0 ||| fw t.role 4 3 ||| bw s.base.holdOut 5 ||| bw s.base.holdIn 6 ||| bw t.tlUp 7 ||| bw t.flUp 8 ||| fw t.tlMiss 11 9 |||
    fw t.flMiss 14 12 ||| bw t.leaseExp 15 ||| fw t.reason 19 16
  else if o = 0xC then t.own &&& 0xFFFF ||| fw t.peer.toNat 31 16
  else if o = 0x14 then fw t.tlMissTot 15 0 ||| fw t.flMissTot 31 16
  else if o = 0x18 then 0x101 ||| fw t.verUsed 23 16 ||| fw t.features 31 24
  else if o = 0x1C then fw t.cause 3 0 ||| fw t.count 31 16
  else if o = 0x20 then w32 t.lastTs
  else if o = 0x24 then w32 (t.lastTs >>> 32)
  else rget s (0x70000 + o)

/-- Block RNG. -/
def readRng (s : State) (o : Nat) : Word :=
  if 0x1000 ≤ o ∧ o < 0x2000 then
    let n := (o - 0x1000) / 0x40
    let r := ring s n
    (match o % 0x40 with
     | 0x20 => bw r.enabled 0 ||| bw r.halted 1 ||| fw r.flight.length 24 16
     | 0x24 => fw r.sqHead 11 0 ||| fw r.cqTail 27 16
     | 0x28 => r.committed
     | 0x30 => w32 r.lost
     | _ => rget s (0x80000 + o))
  else if 0x8000 ≤ o ∧ o < 0x8400 then tget msixDefault s.msix ((o - 0x8000) / 4)
  else if 0x9000 ≤ o ∧ o < 0x9008 then tget (fun _ => 0) s.msixPend ((o - 0x9000) / 4)
  else rget s (0x80000 + o)

/-- A page of an Ethernet port. -/
def readPort (s : State) (p q : Nat) : Word :=
  let e := eport s p
  if q = 4 then bw e.link 0 ||| fw e.speed 2 1 ||| bw e.lpi 3 ||| bw e.stepped 4 ||| bw (stepLock s p) 5
  else if q = 0xC then w32 (freshTsq s e.tsq).length
  else if 0x400 ≤ q ∧ q < 0x448 then tget (fun _ => 0) e.counters ((q - 0x400) / 4)
  else rget s (oPort p + q)

/-- Block ETH. -/
def readEth (s : State) (o : Nat) : Word :=
  let p := s.ptp
  let sec := p.ns / 1000000000
  if o = 0x14 then 0x101 ||| fw s.eth.partnerVer 23 16
  else if o = 0x28 then fw p.st 1 0 ||| fw p.port 2 2 ||| bw p.twoStep 3 ||| fw p.refuseRun 6 4
  else if o = 0x2C then iw (max (-(2 ^ 31)) (min (2 ^ 31 - 1) p.offset))
  else if o = 0x30 then iw p.rate
  else if o = 0x34 then iw (p.accDelay.getD 0)
  else if o = 0x38 then w32 p.gm
  else if o = 0x3C then w32 (p.gm >>> 32)
  else if o = 0x40 then p.utc &&& 0xFFFF ||| bw p.utcValid 16
  else if o = 0x50 then w32 (p.ns % 1000000000)
  else if o = 0x54 then w32 sec
  else if o = 0x58 then w32 ((sec >>> 32) % 65536)
  else if 0x400 ≤ o ∧ o < 0x800 ∧ o % 0x20 = 0xC then
    let n := (o - 0x400) / 0x20
    bw (rioOkAt (rget s (oStation n)) (rio s n) s.up) 0 ||| bw (bitOf (rget s (oStation n)) 0) 1 ||| fw (rio s n).ver 9 2 |||
    fw (rio s n).status.toNat 31 16
  else if 0x400 ≤ o ∧ o < 0x800 ∧ o % 0x20 = 0x10 then (rio s ((o - 0x400) / 0x20)).rej
  else if 0x1000 ≤ o ∧ o < 0x3000 then readPort s (o / 0x1000 - 1) (o % 0x1000)
  else rget s (0x90000 + o)

/-- Block CAN. -/
def readCan (s : State) (o : Nat) : Word :=
  if o < 0x4000 then
    let p := o / 0x1000
    let q := o % 0x1000
    let c := canPort s p
    if q = 0xC then fw c.st 1 0 ||| bw c.monitor 2 ||| bw c.recovering 3 ||| fw (min c.tec 255) 15 8 ||| fw (min c.rec_ 255) 23 16
    else if q = 0x18 then c.rx
    else if q = 0x1C then c.tx
    else if q = 0x20 then c.unmatched
    else if q = 0x24 then c.short
    else if 0x100 ≤ q ∧ q < 0x900 ∧ q % 0x20 = 0x10 then
      bw (canBuf s p ((q - 0x100) / 0x20)).tx.isSome 0 ||| bw (canBuf s p ((q - 0x100) / 0x20)).stale 1
    else if 0x100 ≤ q ∧ q < 0x900 ∧ q % 0x20 = 0x14 then (canBuf s p ((q - 0x100) / 0x20)).arrivals
    else rget s (0xA0000 + o)
  else rget s (0xA0000 + o)

/-- Block RTC. -/
def readRtc (s : State) (o : Nat) : Word :=
  let r := s.rtc
  if o = 0x0 then bw r.haltReq 0 ||| bw r.cdReload 2
  else if o = 0x4 then rget s oRtcStatus ||| bw (countValid s) 2 ||| bw r.halted 3 ||| bw (r.cd != 0) 4
  else if o = 0x10 then w32 r.count
  else if o = 0x14 then w32 ((r.count >>> 32) % 65536)
  else if o = 0x18 then w32 r.haltTicks
  else if o = 0x20 then w32 r.cd
  else if o = 0x24 then r.cdLoad
  else if o = 0x30 then fw r.batV 9 0 ||| bw r.batLow 10 ||| bw r.batAbsent 11 ||| bw r.batBusy 12
  else if o = 0x40 then w32 r.optime
  else if o = 0x44 then w32 ((r.optime >>> 32) % 256)
  else if o = 0x48 then r.pwrCycles
  else if o = 0x50 then s.recNext
  else if 0x100 ≤ o ∧ o < 0x140 then wAt (tget (fun _ => []) s.recSlots (rfld s oRecSel 14 0)) ((o - 0x100) / 4)
  else rget s (0xB0000 + o)

/-- A journal word: the select bits of 32 slots (R706). -/
def journal (s : State) (w : Nat) : Word := (upto 32).foldl (fun v i => v ||| bw (keySlot s (32 * w + i)).sel i) 0

/-- Block SEC (R722). -/
def readSec (s : State) (o : Nat) : Word :=
  if o = 0x0 then bw s.sec.locked 0
  else if o = 0x4 then s.sec.violInfo
  else if o = 0x8 then s.sec.violAddr
  else if o = 0x10 then s.sec.rootGen
  else if o = 0x14 then s.sec.remask
  else if 0x100 ≤ o ∧ o < 0x500 then tget (fun _ => 0) s.sec.sat ((o - 0x100) / 4)
  else if 0x1000 ≤ o ∧ o < 0x1020 then journal s ((o - 0x1000) / 4)
  else 0

/-- BUILD and RELEASE of the staged header. -/
def stagedVer (s : State) : Word :=
  match stagedHdr s with
  | some h => fw (hdr h 0xE 2) 15 0 ||| fw (hdr h 0xC 2) 31 16
  | none => 0

/-- Operating minutes left in the trial (R742). -/
def minLeft (s : State) : Nat := if s.upd.trial then (coarse 1 ((trialEnd s : Int) - s.rtc.optime) 600).toNat else 0

/-- Block UPD. -/
def readUpd (s : State) (o : Nat) : Word :=
  let u := s.upd
  if o = 0x8 then
    fw u.stage 2 0 ||| bw u.trial 3 ||| fw u.verifyErr 7 4 ||| fw u.installErr 11 8 ||| fw u.outcome 13 12 ||| fw u.chunks.length 28 16
  else if o = 0xC then verWord (fwBank s u.active)
  else if o = 0x10 then stagedVer s
  else if o = 0x14 then verWord (fwBank s (1 - u.active))
  else if o = 0x18 then fw u.startsUsed 3 0 ||| fw (minLeft s) 31 16
  else if o = 0x1C then fw u.floor 15 0
  else if o = 0x20 then fw u.peerRel 15 0
  else if o = 0x2C then fw u.setFmt 7 0 ||| fw u.kept 15 8
  else rget s (0xD0000 + o)

/-- What the register at an offset of BAR0 holds, a write-only register zero (R15). -/
def readWord (s : State) (off : Nat) : Word :=
  let o := off % 0x10000
  match off / 0x10000 with
  | 0 => readGlb s o
  | 1 => readClk s o
  | 2 => readPhc s o
  | 3 => if o < 0xC000 then readBnk s (o / 0x1000) (o % 0x1000) else 0
  | 4 => readLce s o
  | 5 => readBle s o
  | 6 => readMtr s o
  | 7 => readTwn s o
  | 8 => readRng s o
  | 9 => readEth s o
  | 10 => readCan s o
  | 11 => readRtc s o
  | 12 => readSec s o
  | 13 => readUpd s o
  | _ => 0

end Sys2Proof.Machine
end

