-- ==== Sys2Proof/Machine/RingCtl.lean ====
section
/-! DEFINITION. The ring engine outside its descriptors: versions, enabling and disabling a pair, doorbells, interrupts,
watch reports, and the resets of the endpoint. -/

namespace Sys2Proof.Machine

/-! ### Versions (R505, R506) -/

/-- Some ring is enabled. -/
def anyRing (s : State) : Bool := s.rings.any (fun e => e.2.enabled)

/-- The highest version in both ranges; 0 for none (R505). -/
def versionUsed (min1 max1 min2 max2 : Nat) : Nat :=
  let hi := min max1 max2
  if max min1 min2 ≤ hi then hi else 0

/-- A write of RNG_VER_HOST (R506); the module offers version 1 alone, and no feature. -/
def verWrite (s : State) (v : Word) : State :=
  if anyRing s then ror s oRngErr 1
  else rset (rset s oRngVerHost v) oRngVerUsed (w32 (versionUsed 1 1 (fld v 7 0) (fld v 15 8)))

/-- RNG_VER_HOST (R506). -/
def execRngVerHost (v : Word) (s : State) : Host.Outcome State Fault Refusal := done s (reached s 4 fun s => verWrite s v)

/-! ### Enabling and disabling (R507 to R510) -/

/-- RNG_R_ERR bits of a pair: 0 DB_ERR, 1 CFG_ERR, 2 EVT_LOST, 3 DMA_ERR (R555). -/
def ringErr (s : State) (n bit : Nat) : State := ror s (oRing n + 0x2C) (oneBit bit)

/-- A base is a non-zero multiple of 64 (R507); its low word lies at an offset of the pair's registers. -/
def baseOk (s : State) (n o : Nat) : Bool :=
  let lo := rget s (oRing n + o)
  fld lo 5 0 == 0 && (lo ||| rget s (oRing n + o + 4)) != 0

/-- The conditions of R508 on a write of RNG_R_CTRL; an event pair needs its completion base alone (DEDUCED, log 60). -/
def canEnable (s : State) (n : Nat) (v : Word) : Bool :=
  let z := fld v 10 7
  started s && rget s oRngVerUsed != 0 && s.busMaster && decide (4 ≤ z) && decide (z ≤ 12) && decide (fld v 6 2 ≤ 16) &&
    baseOk s n 0xC && (bitOf v 1 || baseOk s n 4)

/-- A pair is enabled: indices 0, PHASE 1, SEQ from RNG_R_SEQ_START, nothing committed (R508; COMMITTED log 61). -/
def enableRing (s : State) (n : Nat) (v : Word) : State :=
  let r := ring s n
  let q := rget s (oRing n + 0x14)
  let t := { Ring.reset with
    ctrl := v, enabled := true, seq := q, epoch := r.epoch + 1, lost := r.lost, turn := r.turn,
    past := (r.epoch, r.done, r.bad) :: r.past }
  setRing (rset s (oRing n) v) n (if bitOf v 1 then t else { t with committed := q - 1 })

/-- EN is written 0: fetching stops; a command pair closes when its last descriptor completes, an event pair at once (R510). -/
def disableRing (s : State) (n : Nat) : State :=
  let s := rclr s (oRing n) 1
  if isEventPair s n then modRing s n (fun r => { r with enabled := false })
  else closeRing (modRing s n (fun r => { r with closing := true, rung := false })) n

/-- A write of RNG_R_CTRL (R508 to R510). -/
def ringCtrlWrite (s : State) (n : Nat) (w : Word) : State :=
  let v := w &&& 0x1FFFF
  let old := rget s (oRing n)
  if bitOf old 0 then
    (if (v ^^^ old) &&& 0x1FFFE != 0 then ringErr s n 1 else if bitOf v 0 then s else disableRing s n)
  else if bitOf v 0 then
    (if !(ring s n).enabled && canEnable s n v then enableRing s n v else ringErr (rset s (oRing n) (v &&& 0x1FFFE)) n 1)
  else rset s (oRing n) v

/-- A write of RNG_R_SEQ_START; one that changes it while EN is 1 is refused (R509). -/
def ringSetupWrite (s : State) (n o : Nat) (v : Word) : State :=
  if bitOf (rget s (oRing n)) 0 then (if rget s (oRing n + o) = v then s else ringErr s n 1) else rset s (oRing n + o) v

/-- RING_ENABLE (R508): a write of RNG_R_CTRL with EN 1. -/
def execRingEnable (n : Fin 64) (v : Word) (s : State) : Host.Outcome State Fault Refusal :=
  done s (reached s 4 fun s => ringCtrlWrite s n.val (v ||| 1))

/-- RING_DISABLE (R510): a write of RNG_R_CTRL with EN 0. -/
def execRingDisable (n : Fin 64) (v : Word) (s : State) : Host.Outcome State Fault Refusal :=
  done s (reached s 4 fun s => ringCtrlWrite s n.val (v &&& 0x1FFFE))

/-! ### Doorbells (R512, R513, R565, R574, R761) -/

/-- What a doorbell write covers, for the fences behind it: every enabled command pair with its descriptors made available and its enable (R565). -/
def coverSnap (s : State) : List (Nat × Nat × Nat) :=
  s.rings.filterMap (fun e => if e.2.enabled && !isEventPair s e.1 then some (e.1, e.2.avail, e.2.epoch) else none)

/-- A write of SQ_TAIL (R512, R513); on a halted ring it allows fetching again (R574). -/
def tailWrite (s : State) (n : Nat) (v : Word) : State :=
  let t := fld v 11 0
  let r := ring s n
  let z := ringSize s n
  if !r.enabled || decide (z ≤ t) || isEventPair s n then ringErr s n 0 else
    let s := modRing s n (fun r => { r with sqTail := t, avail := r.fetched + (t + z - r.sqHead) % z })
    let c : Covers := ⟨(ring s n).avail, coverSnap s⟩
    modRing s n (fun r =>
      if r.halted then { r with rung := true, wantResume := true, covers := [c] } else { r with covers := r.covers ++ [c] })

/-- A write of CQ_HEAD (R512, R513); an event pair that owed a LOST record writes it now (R550). -/
def headWrite (s : State) (n : Nat) (v : Word) : State :=
  let h := fld v 11 0
  let r := ring s n
  let z := ringSize s n
  if !r.enabled || decide (z ≤ h) || decide ((r.cqTail + z - r.cqHead) % z < (h + z - r.cqHead) % z) then ringErr s n 0 else
    let s := modRing s n (fun r => { r with cqHead := h })
    if isEventPair s n then tellLost s n else s

/-- SQ_TAIL (R512). -/
def execSqTail (n : Fin 64) (v : Word) (s : State) : Host.Outcome State Fault Refusal :=
  done s (reached s 4 fun s => tailWrite s n.val v)

/-- CQ_HEAD (R512). -/
def execCqHead (n : Fin 64) (v : Word) (s : State) : Host.Outcome State Fault Refusal :=
  done s (reached s 4 fun s => headWrite s n.val v)

/-! ### Interrupts, lost events, watches -/

/-- INTERRUPT_TIMER (R516): the oldest record that counts has waited TIME_US. -/
def execInterruptTimer (n : Fin 64) (s : State) : Host.Outcome State Fault Refusal :=
  done s (
    let us := rfld s (oRing n.val + 0x18) 27 16
    if !(ring s n.val).enabled || (ring s n.val).unsig == 0 || us == 0 || decide (s.up < (ring s n.val).unsigAt + 1000 * us) then s
    else raiseVec (modRing s n.val (fun r => { r with unsig := 0 })) (fld (ring s n.val).ctrl 16 11))

/-- EVENT_LOST (R550): the events that have arisen find an event pair full. -/
def execEventLost (n : Fin 64) (s : State) : Host.Outcome State Fault Refusal :=
  done s (if (ring s n.val).enabled && isEventPair s n.val && cqFree s n.val == 0 then flushEvents s else s)

/-- The minimum interval of a watch ends; a change held is reported with the value then standing (R530). -/
def closeInterval (point part : Nat) (a : State × List Watch) (w : Watch) : State × List Watch :=
  if w.point = point ∧ w.part = part ∧ w.closed = true ∧ w.since + w.minMs * 1000000 ≤ a.1.up then
    (if w.held then
      let r := watchReport a.1 w
      (r.1, a.2 ++ [r.2])
     else (a.1, a.2 ++ [{ w with closed := false }]))
  else (a.1, a.2 ++ [w])

/-- WATCH_REPORT (R530): the end of the minimum interval of a watch. -/
def execWatchReport (point : BitVec 16) (part : Fin 17) (s : State) : Host.Outcome State Fault Refusal :=
  done s (
    let r := s.watches.foldl (closeInterval point.toNat part.val) (s, [])
    { r.1 with watches := r.2 })

/-! ### Resets of the endpoint (R151, R500, R503) -/

/-- Registers of a range return to their reset values. -/
def resetRange (s : State) (lo hi : Nat) : State :=
  { s with regs := s.regs.filter (fun e => decide (e.1 < lo) || decide (hi ≤ e.1)) }

/-- Every ring is torn down: what its descriptors in flight asked for and had not begun is dropped, with the pending timed
actions and the watches (R151, R152; log 62). -/
def tearRings (s : State) : State :=
  let s := resetRange { s with rings := [] } 0x81000 0x82000
  { s with phc := { s.phc with timed := [] }, ble := { s.ble with writes := [] }, watches := [] }

/-- The endpoint and the ring engine at their reset (R151, R500). -/
def endpointReset (s : State) : State :=
  let s := resetRange (tearRings s) 0x80000 0x90000
  { s with msix := [], msixPend := [], busMaster := false, memEnable := false }

/-- PE_PERST (R151): PE_PERST_N goes low. -/
def execPePerst (s : State) : Host.Outcome State Fault Refusal :=
  done s (let s := endpointReset s; { s with clk := { s.clk with perst := false, linkPcie := false } })

/-- PE_PERST_RELEASE (R150): PE_PERST_N goes high, and the endpoint answers while the logic side runs. -/
def execPePerstRelease (s : State) : Host.Outcome State Fault Refusal :=
  done s { s with clk := { s.clk with perst := true, linkPcie := s.clk.alive && notHeld s } }

/-- FUNCTION_LEVEL_RESET (R500). -/
def execFunctionLevelReset (s : State) : Host.Outcome State Fault Refusal :=
  done s (if s.clk.linkPcie then endpointReset s else s)

/-- Bus Master Enable is cleared (R503). -/
def clearBusMaster (s : State) : State :=
  let s := if anyRing s then tearRings s else s
  { s with busMaster := false }

/-- BUS_MASTER_DISABLE (R503). -/
def execBusMasterDisable (s : State) : Host.Outcome State Fault Refusal :=
  done s (if s.clk.linkPcie then clearBusMaster s else s)

end Sys2Proof.Machine
end

