-- ==== Sys2Proof/Machine/RtcOps.lean ====
section
/-! DEFINITION. Commands of the real-time counter, the countdown, the backup cell monitor and the recorder (R651 to R678). -/

namespace Sys2Proof.Machine

/-- A write of RTC_CTRL: HALT, ADD and CD_RELOAD (R653, R654, R659). A halt or resume takes place at the next tick edge. -/
def rtcCtrlWrite (s : State) (halt add reload : Bool) : State :=
  let r := { s.rtc with cdReload := reload }
  { s with rtc := if halt then { r with haltReq := true } else { r with haltReq := false, addReq := if r.halted && r.haltReq then add else r.addReq } }

/-- RTC_HALT (R653, R654). -/
def execRtcHalt (reload : Bool) (s : State) : Host.Outcome State Fault Refusal := done s (reached s 0 fun s => rtcCtrlWrite s true false reload)
/-- RTC_RESUME (R653). -/
def execRtcResume (reload : Bool) (s : State) : Host.Outcome State Fault Refusal := done s (reached s 0 fun s => rtcCtrlWrite s false false reload)
/-- RTC_RESUME_ADD (R653). -/
def execRtcResumeAdd (reload : Bool) (s : State) : Host.Outcome State Fault Refusal := done s (reached s 0 fun s => rtcCtrlWrite s false true reload)

/-- A new count takes effect, or is refused while HALT is 0 (R653, R655). -/
def countWrite (s : State) (c : Nat) : State :=
  if s.rtc.haltReq then { s with rtc := { s.rtc with count := c % 2 ^ 48 } } else rtcEvent s 8

/-- RTC_COUNT_WRITE (R653, R655). -/
def execRtcCountWrite (c : BitVec 48) (s : State) : Host.Outcome State Fault Refusal := done s (reached s 0 fun s => countWrite s c.toNat)

/-- RTC_CD_WRITE (R658). -/
def execRtcCdWrite (v : Word) (s : State) : Host.Outcome State Fault Refusal := done s (reached s 0 fun s => { s with rtc := { s.rtc with cdWrite := some v } })

/-- CD_EXPIRED (R657, R659): the countdown passes from 1 to 0. -/
def execCdExpired (s : State) : Host.Outcome State Fault Refusal := done s (if s.rtc.cd = 1 then cdExpire s else s)

/-- OSC_STOP (R661). -/
def execOscStop (s : State) : Host.Outcome State Fault Refusal := done s (oscStop s)

/-- Every register of the RTC domain at its reset value (R663, R668). -/
def rtcDomainReset (s : State) : State :=
  let r := { s.rtc with count := 0, haltReq := false, halted := false, haltTicks := 0, addReq := false, before := 0, cd := 0 }
  let r := { r with cdLoad := 0, cdWrite := none, cdReload := false, unreported := 0, tickNs := 0 }
  let s := rset (rset { s with rtc := r } oRtcStatus 3) oRtcEvent 0
  { s with lowHeld := s.lowHeld.filter (fun e => e.1 != 0xB0010) }

/-- RETENTION_LOST (R661, R663). -/
def execRetentionLost (s : State) : Host.Outcome State Fault Refusal :=
  done s (let was := countValid s; let s := rtcDomainReset s; if was then rtcEvent s 2 else s)

/-- The monitor's gate enable in the present power state (R132, R665). -/
def batEnabled (s : State) : Bool :=
  bitOf (rget s (match s.clk.power with
    | 0 => oGateRun
    | 1 => oGateSleep
    | _ => oGateDeep)) 19

/-- A measurement begins (R665). -/
def batStart (s : State) : State := { s with rtc := { s.rtc with batBusy := true } }

/-- BATTERY_MEASURE (R665): the hourly measurement, or one a write of 1 to MEASURE asks for. -/
def execBatteryMeasure (hourly : Bool) (s : State) : Host.Outcome State Fault Refusal :=
  done s (if hourly then (if batEnabled s then batStart s else s) else reached s 19 batStart)

/-- A measurement ends (R665, R666). -/
def batDone (s : State) (v : Nat) : State :=
  let was := s.rtc.batLow
  let low := if v < 330 then true else if 340 ≤ v then false else was
  let s := { s with rtc := { s.rtc with batBusy := false, batV := v, batLow := low, batAbsent := decide (v < 200) } }
  if low && !was then rtcEvent s 4 else s

/-- BATTERY_MEASURE_DONE (R665, R666). -/
def execBatteryMeasureDone (v : BitVec 10) (s : State) : Host.Outcome State Fault Refusal :=
  done s (if s.rtc.batBusy then batDone s v.toNat else s)

/-- OPTIME_SAVE (R669): a second after the latest save. -/
def execOptimeSave (s : State) : Host.Outcome State Fault Refusal :=
  let last := if s.rtc.optimeNext then s.rtc.optimeA else s.rtc.optimeB
  done s (if s.clk.alive && (!last.2 || decide (last.1 + 10 ≤ s.rtc.optime)) then saveOptime s else s)

/-- RECORD_WRITE (R674, R675): the recorder's next access for the oldest event waiting, every event that has arisen being queued
first. -/
def execRecordWrite (s : State) : Host.Outcome State Fault Refusal := done s (recorderStep (flushEvents s))

/-- RECORD_DROP (R676): the events that have arisen find the queue full. -/
def execRecordDrop (s : State) : Host.Outcome State Fault Refusal := done s (if 256 ≤ s.recq.length then flushEvents s else s)

end Sys2Proof.Machine
end

