-- ==== Sys2Proof/Machine/Bus.lean ====
section
/-! DEFINITION. Accesses of the host and of the secure supervisor to the registers: what stands in their way, what a write
of each register does, and the words a read latches. -/

namespace Sys2Proof.Machine

/-! ### Writes, block by block (R15) -/

/-- The low register of a 64-bit value by its high register, where a write of the pair takes effect on the high one (R12). -/
def lowOf (off : Nat) : Option Nat :=
  if off = 0xB0014 ∨ off = 0x90004 ∨ off = 0xD0028 then some (off - 4)
  else if 0x81000 ≤ off ∧ off < 0x82000 ∧ (off % 0x40 = 8 ∨ off % 0x40 = 0x10) then some (off - 4) else none

/-- A register is the low one of such a pair. -/
def isLow (off : Nat) : Bool := (lowOf (off + 4)).isSome

/-- The low word a write of the high register takes up: the one written since, or the one that stands (R12). -/
def lowWord (s : State) (hi : Nat) : Word := (alook s.lowHeld (hi - 4)).getD (readWord s (hi - 4))

/-- A write of the high register of a pair of plain registers: both words take effect (R12). -/
def pairWrite (s : State) (hi : Nat) (v : Word) : State :=
  rwrite (rwrite { s with lowHeld := terase s.lowHeld (hi - 4) } (hi - 4) (lowWord s hi)) hi v

/-- Block GLB (R745). -/
def glbWrite (s : State) (o : Nat) (v : Word) : State :=
  if o = 0x54 then (if fld v 1 0 = 3 then s else noteMirror (rwrite s o v) 0)
  else if o = 0x100 then partRequest s v
  else if o = 0x118 then lcRequest s v
  else rwrite s o v

/-- Block CLK (R746). -/
def clkWrite (s : State) (o : Nat) (v : Word) : State :=
  if o = 0x0 then srcWrite s v
  else if o = 0x10 then gateRunWrite s v
  else if o = 0x30 then fmWrite s v
  else rwrite s (0x10000 + o) v

/-- Block PHC (R747). -/
def phcWrite (s : State) (o : Nat) (v : Word) : State :=
  if o = 0x40 then (if bitOf v 0 then unlessStandby s phcRequest else s) else rwrite s (0x20000 + o) v

/-- Block BNK, the page of bank `b` (R748). -/
def bnkWrite (s : State) (b o : Nat) (v : Word) : State :=
  if 12 ≤ b then s
  else if o = 0x8 then (if bitOf v 0 then unlessStandby s (fun s => bankRequest s b) else s)
  else if o = 0x1C then (if bitOf v 0 then addCause s b 7 else s)
  else if o = 0x20 then (if bitOf v 0 then releaseMet (dropCause s b 7) b else s)
  else rwrite s (oBank b + o) v

/-- Block LCE (R749). -/
def lceWrite (s : State) (o : Nat) (v : Word) : State :=
  if o = 0x0 then (if bitOf v 0 then unlessStandby s lceRequest else s) else rwrite s (0x40000 + o) v

/-- Block MTR (R751). -/
def mtrWrite (s : State) (o : Nat) (v : Word) : State :=
  if o = 0x50 then openCmd s (fld v 7 0)
  else if o = 0x1000 then secCmd s (fld v 7 0)
  else rwrite s (0x60000 + o) v

/-- Block TWN (R752): both settings are mirrored (R478). -/
def twnWrite (s : State) (o : Nat) (v : Word) : State :=
  if o = 0x0 then refreshPair (noteMirror (rwrite s oTwnCtrl v) 7)
  else if o = 0x4 then (if 10 ≤ fld v 11 0 ∧ fld v 11 0 ≤ 3600 then noteMirror (rwrite s oTwnRevert v) 7 else s)
  else rwrite s (0x70000 + o) v

/-- A write of the MSI-X table: a vector that is unmasked with its pending bit set is sent (R517). -/
def msixWrite (s : State) (k : Nat) (v : Word) : State :=
  let s := { s with msix := tset msixDefault s.msix k v }
  let e := k / 4
  let p := tget (fun _ => 0) s.msixPend (e / 32)
  if k % 4 = 3 ∧ bitOf v 0 = false ∧ bitOf p (e % 32) = true then
    emit { s with msixPend := tset (fun _ => 0) s.msixPend (e / 32) (p &&& ~~~ (oneBit (e % 32))) } (.msix e)
  else s

/-- A write of the high base register of a pair of rings: both words take effect; one that changes the base while EN is 1 is
refused (R12, R509). -/
def ringBaseWrite (s : State) (n q : Nat) (v : Word) : State :=
  let hi := oRing n + q
  let low := lowWord s hi
  let s := { s with lowHeld := terase s.lowHeld (hi - 4) }
  if bitOf (rget s (oRing n)) 0 then
    (if rget s (hi - 4) = low ∧ rget s hi = v then s else ringErr s n 1)
  else rset (rset s (hi - 4) low) hi v

/-- A write of one register of ring pair `n` (R555). -/
def ringWrite (s : State) (n q : Nat) (v : Word) : State :=
  if q = 0x0 then ringCtrlWrite s n v
  else if q = 0x8 ∨ q = 0x10 then ringBaseWrite s n q v
  else if q = 0x14 then ringSetupWrite s n q v
  else rwrite s (oRing n + q) v

/-- Block RNG (R753). -/
def rngWrite (s : State) (o : Nat) (v : Word) : State :=
  if o = 0x4 then verWrite s v
  else if 0x1000 ≤ o ∧ o < 0x2000 then ringWrite s ((o - 0x1000) / 0x40) (o % 0x40) v
  else if 0x8000 ≤ o ∧ o < 0x8400 then msixWrite s ((o - 0x8000) / 4) v
  else rwrite s (0x80000 + o) v

/-- Block RTC (R756). -/
def rtcWrite (s : State) (o : Nat) (v : Word) : State :=
  if o = 0x0 then rtcCtrlWrite s (bitOf v 0) (bitOf v 1) (bitOf v 2)
  else if o = 0x14 then
    countWrite { s with lowHeld := terase s.lowHeld 0xB0010 } ((lowWord s 0xB0014).toNat + fld v 15 0 * 2 ^ 32)
  else if o = 0x20 then { s with rtc := { s.rtc with cdWrite := some v } }
  else if o = 0x34 then (if bitOf v 0 then batStart s else s)
  else rwrite s (0xB0000 + o) v

/-- The bits of word `k` of a region entry that are not reserved (R681); a reserved bit ignores what is written (R13). -/
def satMask (k : Nat) : Word := if k % 4 ≤ 1 then 0xFFFFF000 else if k % 4 = 2 then 0xF else 0x1FFF

/-- Block SEC: the attribution table until it is locked, and the lock (R722). -/
def secWrite (s : State) (o : Nat) (v : Word) : State :=
  if s.sec.locked then s
  else if o = 0x0 then { s with sec := { s.sec with locked := bitOf v 0 } }
  else if 0x100 ≤ o ∧ o < 0x500 then
    let k := (o - 0x100) / 4
    { s with sec := { s.sec with sat := tset (fun _ => 0) s.sec.sat k (v &&& satMask k) } }
  else s

/-- A write of UPD_CTRL: a field out of its range keeps its value (R742). -/
def updCtrlWrite (s : State) (v : Word) : State :=
  let old := rget s oUpdCtrl
  let v := if fld v 5 2 = 0 then setFld v 5 2 (fld old 5 2) else v
  let v := if fld v 13 6 = 0 ∨ 168 < fld v 13 6 then setFld v 13 6 (fld old 13 6) else v
  rwrite s oUpdCtrl v

/-- A write of UPD_CMD: its commands in the order of their bits (R742). -/
def updCmdWrite (s : State) (v : Word) : State :=
  let s := if bitOf v 0 then installCmd s (bitOf v 1) else s
  let s := if bitOf v 2 then fallbackCmd s else s
  if bitOf v 3 then cartInstallCmd s else s

/-- Block UPD (R758). -/
def updWrite (s : State) (o : Nat) (v : Word) : State :=
  if o = 0x0 then updCtrlWrite s v
  else if o = 0x4 then updCmdWrite s v
  else rwrite s (0xD0000 + o) v

/-- What a write of a register does once it is let through (R12, R15). -/
def regWrite (s : State) (off : Nat) (v : Word) : State :=
  let o := off % 0x10000
  if isLow off then
    (if off / 0x10000 = 8 ∧ bitOf (rget s (oRing ((o - 0x1000) / 0x40))) 0 = true then ringErr s ((o - 0x1000) / 0x40) 1
     else { s with lowHeld := aset s.lowHeld off v })
  else if off = 0x90004 ∨ off = 0xD0028 then pairWrite s off v
  else match off / 0x10000 with
    | 0 => glbWrite s o v
    | 1 => clkWrite s o v
    | 2 => phcWrite s o v
    | 3 => bnkWrite s (o / 0x1000) (o % 0x1000) v
    | 4 => lceWrite s o v
    | 5 => rwrite s off v
    | 6 => mtrWrite s o v
    | 7 => twnWrite s o v
    | 8 => rngWrite s o v
    | 9 => ethWrite s off v
    | 10 => canWrite s off v
    | 11 => rtcWrite s o v
    | 12 => secWrite s o v
    | 13 => updWrite s o v
    | _ => s

/-! ### What stands in the way of an access -/

/-- The gate behind which a register lies, where it can be closed (R132). -/
def gateOf (off : Nat) : Option Nat :=
  let o := off % 0x10000
  match off / 0x10000 with
  | 1 => if 0x30 ≤ o ∧ o < 0x3C then some 18 else none
  | 2 => some 6
  | 3 => some 7
  | 4 => some 2
  | 5 => some 1
  | 6 => some 8
  | 7 => some 9
  | 8 => some 4
  | 9 => if 0x1000 ≤ o ∧ o < 0x2000 then some 14 else if 0x2000 ≤ o ∧ o < 0x3000 then some 15
         else if 0x50 ≤ o ∧ o < 0x5C then some 17 else none
  | 10 => if o < 0x4000 then some (10 + o / 0x1000) else none
  | 11 => if 0x30 ≤ o ∧ o < 0x38 then some 19 else none
  | 12 => some 3
  | 13 => some 5
  | _ => none

/-- The master an access comes from (R679). -/
def masterOf : Target → Nat
  | .secure => 0
  | _ => 4

/-- The function answers memory accesses: the endpoint is up and Memory Space Enable is set; the secure supervisor reaches
the registers inside the module. -/
def targetUp (s : State) : Target → Bool
  | .secure => true
  | .config => s.clk.linkPcie
  | _ => s.clk.linkPcie && s.memEnable

/-- A register block answers: the logic side runs and is not held, a halted module shows the GLB block alone and takes no
write, and the block's gate is open (R130, R136, R148). -/
def blockAnswers (s : State) (off : Nat) (write : Bool) : Bool :=
  s.clk.alive && notHeld s && (!haltedMod s || (!write && off / 0x10000 == 0)) &&
    (match gateOf off with
     | none => true
     | some g => blockUp s g)

/-- A register access wakes the block it goes to (R133). -/
def wakeFor (s : State) (off : Nat) : State :=
  match gateOf off with
  | none => s
  | some g => { s with clk := { s.clk with idle := s.clk.idle &&& ~~~ (oneBit g) } }

/-- An access to BAR0 offsets: done where it is let through, else refused by the attribution table or ended with an error
response (R136, R683); offsets above the setup blocks are reserved and answer nothing (R17). -/
def access (s : State) (t : Target) (off : Nat) (write : Bool) (f : State → State) (none_ : State → State) : State :=
  if 0xE0000 ≤ off ∨ blockAnswers s off write = false then none_ s
  else if satAllows s (masterOf t) (0x80000000 + off) write then f (wakeFor s off)
  else none_ (worldViol s (masterOf t) (0x80000000 + off) write)

/-! ### REGISTER_WRITE and LATCHED_READ -/

/-- The MSI-X table and pending bits take 64-bit accesses too (R502). -/
def wideOk (off : Nat) : Bool := (decide (0x88000 ≤ off) && decide (off < 0x88400)) || off == 0x89000

/-- A write of one 32-bit word at a BAR0 offset. -/
def barWrite (s : State) (t : Target) (off : Nat) (v : Word) : State := access s t off true (fun s => regWrite s off v) id

/-- A doorbell write (R512). -/
def bellWrite (s : State) (off : Nat) (v : Word) : State :=
  let f (s : State) : State :=
    if off % 0x1000 = 0 then tailWrite s (off / 0x1000) v else if off % 0x1000 = 4 then headWrite s (off / 0x1000) v else s
  if s.clk.alive && s.clk.resetWait.isNone && !haltedMod s && blockUp s 4 && decide (off < 0x40000) then f (wakeFor s 0x80000) else s

/-- A write of configuration space: Memory Space Enable and Bus Master Enable of the Command register (R499, R503). -/
def configWrite (s : State) (off v : Nat) : State :=
  if off = 4 then
    let s := { s with memEnable := v.testBit 1 }
    if v.testBit 2 then { s with busMaster := true } else if s.busMaster then clearBusMaster s else s
  else s

/-- REGISTER_WRITE (R11 to R15, R502, R512): a write of the host or of the secure supervisor. -/
def execRegisterWrite (t : Target) (off width value : Nat) (s : State) : Host.Outcome State Fault Refusal :=
  done s (
    if !targetUp s t then s
    else match t with
      | .config => configWrite s off value
      | .bar2 => if width = 4 ∧ off % 4 = 0 then bellWrite s off (w32 value) else s
      | _ =>
        if width = 4 ∧ off % 4 = 0 then barWrite s t off (w32 value)
        else if width = 8 ∧ off % 8 = 0 ∧ wideOk off = true then
          barWrite (barWrite s t off (w32 value)) t (off + 4) (w32 (value >>> 32))
        else s)

/-- The high registers a read of a low register latches (R12). -/
def latches (off : Nat) : List Nat :=
  let next := [0x20008, 0x20024, 0x20030, 0x10034, 0x60030, 0x70020, 0x90038, 0xB0010, 0xB0040]
  if next.contains off || isLow off then [off + 4]
  else if off = 0x90050 then [0x90054, 0x90058]
  else if (0x68000 ≤ off ∧ off < 0x69800 ∨ 0x6A000 ≤ off ∧ off < 0x6B800) ∧ off % 0x40 < 0x38 ∧ off % 8 = 0 then [off + 4]
  else []

/-- What a read returns: a latched high word once, else the register; write-only bits read zero (R12, R15). -/
def readOut (s : State) (off : Nat) : Word :=
  match alook s.latch off with
  | some v => v
  | none => readWord s off &&& ~~~ (regInfo off).wo

/-- The state after a read: a latched word is used up, and a low word latches its high ones (R12). -/
def afterRead (s : State) (off : Nat) : State :=
  forAll (latches off) (fun s h => { s with latch := aset s.latch h (readWord s h) }) { s with latch := terase s.latch off }

/-- A read of one 32-bit word at a BAR0 offset. -/
def barRead (s : State) (t : Target) (off : Nat) : State :=
  access s t off false (fun s => emit (afterRead s off) (.readData off (readOut s off))) (fun s => emit s (.readData off 0))

/-- What configuration space holds: the Command register's two bits and the class code (R499), the rest free (log 57). -/
def configRead (s : State) (off : Nat) : Word :=
  let f := Config.configWord (off / 4 * 4)
  if off / 4 = 1 then setBit (setBit f 1 s.memEnable) 2 s.busMaster
  else if off / 4 = 2 then setFld f 31 8 0x088000
  else f

/-- LATCHED_READ (R11, R12, R502): a read of the host or of the secure supervisor. -/
def execLatchedRead (t : Target) (off width : Nat) (s : State) : Host.Outcome State Fault Refusal :=
  done s (
    if !targetUp s t then s
    else match t with
      | .config => emit s (.readData off (w32 ((configRead s off).toNat >>> (8 * (off % 4)) % 2 ^ (8 * width))))
      | .bar2 => emit s (.readData off 0)
      | _ =>
        if width = 4 ∧ off % 4 = 0 then barRead s t off
        else if width = 8 ∧ off % 8 = 0 ∧ wideOk off = true then barRead (barRead s t off) t (off + 4)
        else emit s (.readData off 0))

end Sys2Proof.Machine
end

