-- ==== Sys2Proof/Machine/RingExec.lean ====
section
/-! DEFINITION. Descriptors from fetch to their commit turn: what an operation asks of its descriptor, the checks in their
order, fetching into the in-flight window, and failed reads of host memory. -/

namespace Sys2Proof.Machine

/-! ### What an operation asks of its descriptor (R520, R522, R526 to R546) -/

/-- The form of an operation: TARGET in range, its PARAM words out of range, how many PARAM words it uses, the payload flags
it needs, the least and greatest LEN with the step from the least, and a frame length it refuses. -/
structure OpForm where
  target : Bool := true
  bad : List Bool := []
  used : Nat := 0
  pin : Bool := false
  pout : Bool := false
  lo : Nat := 8
  hi : Nat := 65540
  step : Nat := 4
  frame : Option Nat := none
  deriving DecidableEq, Repr

/-- A block CFG_WRITE and CFG_READ allow (R531), and a bank only for BNK. -/
def cfgTargetOk (t : Nat) : Bool :=
  ([0, 1, 2, 3, 4, 7, 9, 10, 11] : List Nat).contains (t % 16) && decide (t / 16 ≤ (if t % 16 = 3 then 11 else 0))

/-- Bytes of a block or of a bank page (R531). -/
def cfgSize (t : Nat) : Nat := if t % 16 = 3 then 0x1000 else 0x10000

/-- The argument of a timed action has a reserved bit or a value out of range (R107, R115). -/
def timedArgBad (action : Nat) (a : Word) : Bool :=
  match action with
  | 1 => fld a 31 12 != 0
  | 4 => fld a 15 4 != 0 || decide (11 < fld a 3 0)
  | 7 => fld a 31 16 != 0
  | _ => false

/-- The form of CAN_TX (R546, R547): its data in PARAM2 to PARAM7 up to 24 bytes, in a payload beyond. -/
def canTxForm (t : Nat) (p0 p1 : Word) : OpForm :=
  let len := fld p1 6 0
  let fd := bitOf p0 30
  let ok := decide (len ≤ 8) || (fd && ([12, 16, 20, 24, 32, 48, 64] : List Nat).contains len)
  let bad := [!bitOf p0 29 && fld p0 28 11 != 0, fld p1 31 9 != 0 || bitOf p1 7]
  let tg := decide (t ≤ 0xFF)
  if !ok then { target := tg, bad := bad, used := 8, frame := some len }
  else if len ≤ 24 then { target := tg, bad := bad, used := 2 + (len + 3) / 4 }
  else { target := tg, bad := bad, used := 2, pin := true, lo := len + 4, hi := len + 4 }

/-- The forms of the operations on points, configuration, the controller, the program, forces and the pair; none for an
opcode not among them. -/
def formCore (op t : Nat) (p : Nat → Nat) (w : Nat → Word) : Option OpForm :=
  match op with
  | 0x00 => some { target := t == 0 }
  | 0x01 => some { target := t == 0, used := 2 }
  | 0x02 => some { target := t == 0, used := 1 }
  | 0x10 => some { target := decide (t < 0x2000), used := 2, pout := true, lo := 8 * p 0 + 4,
                   bad := [p 0 == 0 || decide (256 < p 0) || decide (0x2000 < t + p 0), decide (1 < p 1)] }
  | 0x11 =>
    let g : OpForm := { target := decide (t < 0x2000), bad := [p 0 == 0 || decide (256 < p 0) || decide (0x2000 < t + p 0)] }
    some (if p 0 ≤ 7 then { g with used := 1 + p 0 } else { g with used := 1, pin := true, lo := 4 * p 0 + 4, hi := 4 * p 0 + 4 })
  | 0x12 => some { target := decide (t < 0x2000), used := 3, bad := [decide (1 < p 0), false, decide (0xFFFF < p 2)] }
  | 0x13 => some { target := decide (t < 32), used := 2, pout := true, lo := 4 * p 1 + 12,
                   bad := [decide (63 < p 0), p 1 == 0 || decide (64 < p 0 + p 1)] }
  | 0x14 =>
    let g : OpForm := { target := decide (t < 32), bad := [decide (63 < p 0), p 1 == 0 || decide (64 < p 0 + p 1)] }
    some (if p 1 ≤ 6 then { g with used := 2 + p 1 } else { g with used := 2, pin := true, lo := 4 * p 1 + 4, hi := 4 * p 1 + 4 })
  | 0x20 => some { target := cfgTargetOk t, pin := true, lo := 12, hi := 65532, step := 8 }
  | 0x21 => some { target := cfgTargetOk t, used := 2, pout := true, lo := 4 * p 1 + 4,
                   bad := [p 0 % 4 != 0 || decide (cfgSize t ≤ p 0),
                           p 1 == 0 || decide (16384 < p 1) || decide (cfgSize t < p 0 + 4 * p 1)] }
  | 0x30 => some { target := t == 0, used := if p 0 = 3 then 2 else 1, bad := [decide (4 < p 0), p 0 == 3 && decide (15 < p 1)] }
  | 0x31 => some { target := t == 0, used := 2, pin := true, lo := 12, step := 8 }
  | 0x32 => some { target := t == 0, used := 1, bad := [decide (1 < p 0)] }
  | 0x33 => some { target := t == 0 }
  | 0x34 => some { used := 2, pout := true, lo := 4 * p 1 + 4, bad := [false, p 1 == 0 || decide (256 < p 1)] }
  | 0x35 => some { used := 2 + p 1, bad := [false, p 1 == 0 || decide (6 < p 1)] }
  | 0x36 => some { target := t == 0, used := 5,
                   bad := [decide (1 < p 0), p 0 == 0 && decide (0xFFFF < p 1), p 0 == 0 && p 2 != 0, decide (4 < p 3)] }
  | 0x37 => some { target := t == 0, used := 3,
                   bad := [p 0 != 0 && p 0 != 1 && p 0 != 0xFF,
                           (p 0 == 0 && decide (0xFFFF < p 1)) || (p 0 == 0xFF && p 1 != 0), p 0 != 1 && p 2 != 0] }
  | 0x38 => some { target := t == 0, used := 1, pout := true }
  | 0x40 => some { target := t == 0, used := if p 2 = 1 then 6 else 5,
                   bad := [decide (15 < p 0), timedArgBad (p 0) (w 1), decide (1 < p 2), false,
                           p 2 == 1 && decide (0xFFFF < p 4), p 2 == 1 && decide (1000000000 ≤ p 5)] }
  | 0x41 => some { target := t == 0 }
  | _ => none

/-- The forms of the operations on metering, the recorder, keys, CAN, Ethernet and the update. -/
def formMore (op t : Nat) (p : Nat → Nat) (w : Nat → Word) : Option OpForm :=
  let slot := decide (t < 256)
  let attr := fld (w 1) 31 29 != 0
  match op with
  | 0x50 => some { target := decide (t < 192), pout := true, lo := 68 }
  | 0x51 => some { target := decide (t < 96), used := 1, pout := true, lo := 36 }
  | 0x52 => some { target := t == 0, used := 1, pout := true, lo := 36 }
  | 0x53 => some { target := t == 0, used := 2, pout := true, lo := 36, bad := [decide (4 < p 0), p 1 % 32 != 0] }
  | 0x54 => some { target := decide (t < 96), used := 1, bad := [decide (16 < p 0)] }
  | 0x58 => some { target := t == 0, used := 2, pout := true, bad := [false, p 1 == 0 || decide (64 < p 1)] }
  | 0x60 =>
    let g : OpForm := { target := slot, used := 3, bad := [decide (255 < p 0), attr, decide (2 < p 2)] }
    some (if p 2 = 0 then g else { g with pout := true, lo := 68 })
  | 0x61 => some { target := slot, used := 2, pin := true, lo := 8, hi := 260, bad := [decide (255 < p 0), attr] }
  | 0x62 => some { target := slot }
  | 0x63 => some { target := slot, pin := true, pout := true, lo := 188, hi := 188 }
  | 0x64 => some { target := slot, used := 2, pin := true, lo := 136, hi := 136, bad := [decide (255 < p 0), attr] }
  | 0x65 => some { target := slot, used := 2, pin := true, pout := true, lo := 32 + (p 1 + 3) / 4 * 4,
                   bad := [decide (1 < p 0), decide (65508 < p 1)] }
  | 0x66 => some { target := slot, pin := true, pout := true, lo := 68, hi := 68 }
  | 0x67 => some { target := slot, pout := true, lo := 20 }
  | 0x70 => some (canTxForm t (w 0) (w 1))
  | 0x71 => some { target := decide (t < 256), pout := true, lo := 12 }
  | 0x72 => some { target := decide (t < 4) }
  | 0x78 => some { target := decide (t < 10), pin := true }
  | 0x79 => some { target := decide (t < 26), pout := true, lo := 2004 }
  | 0x7C => some { target := t == 0, used := 2, pin := true }
  | 0x7D => some { target := t == 0, pout := true, lo := 772 }
  | 0x7E => some { target := t == 0 }
  | 0x7F => some { target := t == 0 }
  | _ => none

/-- The form of a descriptor's operation; none for a reserved opcode. -/
def opForm (ws : List Word) : Option OpForm :=
  let op := fld (wAt ws 0) 7 0
  let t := (wAt ws 2).toNat
  let p := fun k => (wAt ws (4 + k)).toNat
  let w := fun k => wAt ws (4 + k)
  if op < 0x50 then formCore op t p w else formMore op t p w

/-- The first PARAM word that is out of range, or non-zero and not used (R522). -/
def firstBadParam (g : OpForm) (ws : List Word) : Option Nat :=
  (upto 8).find? (fun k => (g.bad.getD k false) || (decide (g.used ≤ k) && wAt ws (4 + k) != 0))

/-- A payload that breaks R520 or suits its operation ill, with DETAIL. -/
def badPayload (g : OpForm) (ws : List Word) : Option Word :=
  let len := (wAt ws 14).toNat
  let w0 := wAt ws 0
  if !g.pin && !g.pout then
    (if wAt ws 12 = 0 ∧ wAt ws 13 = 0 ∧ len = 0 then none else some 0)
  else if bitOf w0 8 != g.pin ∨ bitOf w0 9 != g.pout ∨ len < g.lo ∨ (g.lo = g.hi ∧ len ≠ g.lo) then some (w32 g.lo)
  else if len < 8 ∨ g.hi < len ∨ (len - g.lo) % g.step ≠ 0 ∨ len % 4 ≠ 0 ∨ fld (wAt ws 12) 1 0 ≠ 0 then some 0
  else none

/-- What R522 and R520 find wrong with a descriptor, as status and DETAIL (DEDUCED, log 64: opcode, reserved bits, TARGET,
PARAM words, flags and frame length, payload). -/
def opStatic (ws : List Word) : Option (Nat × Word) :=
  let w0 := wAt ws 0
  match opForm ws with
  | none => some (3, 0)
  | some g =>
    if fld w0 31 11 ≠ 0 ∨ wAt ws 3 ≠ 0 then some (4, Config.badDetail (w0 ||| wAt ws 3).toNat)
    else if !g.target then some (4, 8)
    else match firstBadParam g ws with
      | some k => some (4, w32 k)
      | none =>
        if (bitOf w0 8 && !g.pin) || (bitOf w0 9 && !g.pout) then some (4, Config.badDetail w0.toNat)
        else match g.frame with
          | some n => some (0x15, w32 n)
          | none => (badPayload g ws).map (fun d => (8, d))

/-! ### Fetch (R514, R521, R556, R557, R570, R574 to R576) -/

/-- Descriptors in flight on all rings. -/
def inFlight (s : State) : Nat := (s.rings.map (fun e => e.2.flight.length)).sum

/-- The window has an entry for ring `n`, one staying reserved for each other enabled command pair with none in flight (R557). -/
def windowFree (s : State) (n : Nat) : Bool :=
  let idle := s.rings.filter (fun e => e.1 != n && e.2.enabled && !e.2.closing && !isEventPair s e.1 && e.2.flight.isEmpty)
  decide (inFlight s + idle.length < 256)

/-- A halted ring fetches once its SQ_TAIL has been written, and nothing behind a RESUME until that has committed (R574). -/
def haltOk (r : Ring) : Bool := !r.halted || (r.rung && !r.flight.any (fun f => f.early.map Prod.fst != some 2))

/-- The ring engine runs. -/
def ringsRun (s : State) : Bool := s.clk.alive && s.clk.resetWait.isNone && blockUp s 4

/-- Ring `n` has a descriptor that may be fetched (R503, R510, R514, R557, R574). -/
def hasWork (s : State) (n : Nat) : Bool :=
  let r := ring s n
  ringsRun s && s.busMaster && r.enabled && !r.closing && !isEventPair s n && r.sqHead != r.sqTail && haltOk r &&
    decide (r.flight.length < cqFree s n) && windowFree s n

/-- The pair of the latest fetch, by its number and its turn; the round robin begins at pair 0 (R557). -/
def lastTurn (s : State) : Nat × Nat := s.rings.foldl (fun a e => if a.2 < e.2.turn then (e.1, e.2.turn) else a) (63, 0)

/-- It is the turn of ring `n`: no other pair with a descriptor to fetch comes before it in the round robin (R557). -/
def itsTurn (s : State) (n : Nat) : Bool :=
  let after := fun m => (m + 63 - (lastTurn s).1) % 64
  s.rings.all (fun e => e.1 == n || !hasWork s e.1 || decide (after n < after e.1))

/-- The module may fetch the next descriptor of ring `n` (R557). -/
def canFetch (s : State) (n : Nat) : Bool := hasWork s n && itsTurn s n

/-- Sixteen words of a descriptor as read. -/
def descWords (ws : List Word) : List Word := (ws ++ List.replicate 16 0).take 16

/-- Payload words as read: as many as LEN says. -/
def payloadWords (ws pay : List Word) : List Word :=
  let k := (wAt ws 14).toNat / 4
  (pay ++ List.replicate (k - pay.length) 0).take k

/-- A descriptor's input payload after its CRC check; a failed read completes with DMA_ERROR (R504, R570). -/
def takePayload (s : State) (f : Flight) (pay : List Word) (readOk : Bool) : State × Flight :=
  if !bitOf (wAt f.words 0) 8 then (s, f)
  else if !readOk then (s, { f with early := some (7, 0) })
  else
    let l := payloadWords f.words pay
    let d := l.dropLast
    if crcWords d = wAt l (l.length - 1) then (s, { f with input := d })
    else (poison s 2, { f with early := some (6, 2) })

/-- Fetch and execution of a descriptor, up to its commit turn (R522, R570, R574 to R576). -/
def classifyDesc (s : State) (n : Nat) (f : Flight) (pay : List Word) (readOk : Bool) : State × Flight :=
  let r := ring s n
  let crcOk := crcWords (f.words.take 15) == wAt f.words 15
  let fail := fun (st : Nat) (d : Word) => { f with early := some (st, d) }
  if r.halted then
    (if r.wantResume && crcOk && opOf f == 2 then (s, { f with early := opStatic f.words })
     else
      let s := if crcOk then s else poison s 1
      (modRing s n (fun r => { r with wantResume := false }), fail 2 0))
  else if !crcOk then (poison s 1, fail 6 1)
  else if opOf f = 2 then (s, fail 0xD 2)
  else if wAt f.words 1 ≠ r.seq then (s, fail 5 r.seq)
  else
    let s := modRing s n (fun r => { r with seq := r.seq + 1, dupLeft := r.dupLeft - 1 })
    if r.dupLeft ≠ 0 then (s, { f with dup := true })
    else match opStatic f.words with
      | some e => (s, { f with early := some e })
      | none => takePayload s f pay readOk

/-- A descriptor enters the window: its slot is past, and the doorbells that cover only earlier ones are forgotten. -/
def fetch (s : State) (n : Nat) (words pay : List Word) (readOk : Bool) : State :=
  let r := ring s n
  let f : Flight := { ord := r.fetched, slot := r.sqHead, words := descWords words, input := [], early := none, waiting := false, dup := false }
  let z := ringSize s n
  let oldest := (r.flight.head?.map Flight.ord).getD r.fetched
  let turn := (lastTurn s).2 + 1
  let s := modRing s n (fun r => { r with
    turn := turn, sqHead := (r.sqHead + 1) % z, fetched := r.fetched + 1, covers := r.covers.filter (fun c => decide (oldest < c.upto)) })
  let x := classifyDesc s n f pay readOk
  modRing x.1 n (fun r => { r with flight := r.flight ++ [x.2] })

/-- DESCRIPTOR_FETCH (R556): ring, descriptor as read, and its payload as read for PL_IN. -/
def execDescriptorFetch (n : Fin 64) (words pay : List Word) (s : State) : Host.Outcome State Fault Refusal :=
  done s (if canFetch s n.val then fetch s n.val words pay true else s)

/-- DMA_TIMEOUT (R504): with no descriptor, the descriptor's own read has failed, and the ring halts at its slot; with one, the
read of its payload. -/
def execDmaTimeout (n : Fin 64) (words : List Word) (s : State) : Host.Outcome State Fault Refusal :=
  done s (
    if !canFetch s n.val then s
    else if words.isEmpty then
      let turn := (lastTurn s).2 + 1
      ringErr (modRing s n.val (fun r => { r with turn := turn, halted := true, wantResume := true, rung := false })) n.val 3
    else fetch s n.val words [] false)

end Sys2Proof.Machine
end

