-- ==== Sys2Proof/Machine/RingOps.lean ====
section
/-! DEFINITION. What the ring operations do at their commit turn: ring control, points, configuration, the controller, the
program, forces, timed actions and the handoff (R526 to R541, R565, R575). -/

namespace Sys2Proof.Machine

/-- A descriptor at its commit turn begins to wait for something outside the ring (R559). -/
def setWaiting (s : State) (n : Nat) (f : Flight) : State :=
  modRing s n (fun r => { r with flight := r.flight.map (fun g => if g.ord = f.ord then { g with waiting := true } else g) })

/-- A descriptor completes OK with results and no payload. -/
def ok (s : State) (n : Nat) (f : Flight) (r0 r1 : Word) : State := complete s n f 0 r0 r1 0

/-- A descriptor fails with a status and DETAIL. -/
def fail (s : State) (n : Nat) (f : Flight) (status : Nat) (detail : Word) : State := complete s n f status 0 0 detail

/-- A descriptor completes OK with output, or PAYLOAD_LEN where the buffer is too small (R520). -/
def output (s : State) (n : Nat) (f : Flight) (data : List Word) (r0 r1 : Word) : State :=
  if (wAt f.words 14).toNat < 4 * data.length + 4 then fail s n f 8 (w32 (4 * data.length + 4))
  else completeOut s n f data r0 r1 (nowTs s)

/-- The first object of a list outside the ring's partition (R511, R687). -/
def firstRefused (s : State) (n : Nat) (part : Nat → Nat) (l : List Nat) : Option Nat := l.find? (fun i => !partOk (ringPart s n) (part i))

/-! ### Ring control (R565, R566, R575) -/

/-- How a fence stands to one ring it names: waiting, done well, or done with a descriptor that did not end well (R565, R566). -/
def fenceRing (s : State) (m upto_ ep : Nat) : Option Bool :=
  let q := ring s m
  let ended := fun (n : Nat) (bad : List Nat) => decide (n < upto_) || bad.any (fun o => decide (o < upto_))
  if q.epoch ≠ ep then some (((q.past.find? (fun e => e.1 == ep)).map (fun e => ended e.2.1 e.2.2)).getD true)
  else if q.done < upto_ ∧ q.enabled = true ∧ q.halted = false then none
  else some (ended q.done q.bad)

/-- FENCE: waits in its place until every named ring has done what its doorbell covers (R565, R566). -/
def opFence (s : State) (n : Nat) (f : Flight) : State :=
  let mask := (parOf f 0).toNat + (parOf f 1).toNat * 2 ^ 32
  let snap := (((ring s n).covers.find? (fun c => decide (f.ord < c.upto))).map Covers.snap).getD []
  let named := snap.filter (fun e => e.1 != n && mask.testBit e.1)
  let res := named.map (fun e => (e.1, fenceRing s e.1 e.2.1 e.2.2))
  if res.any (fun e => e.2.isNone) then s
  else
    let bits := res.foldl (fun a e => if e.2 = some true then a ||| (1 <<< e.1) else a) 0
    ok s n f (w32 bits) (w32 (bits >>> 32))

/-- RESUME on a halted ring (R575). -/
def opResume (s : State) (n : Nat) (f : Flight) : State :=
  let c := (ring s n).committed
  let q := parOf f 0
  let k := (c + 1 - q).toNat
  if k < ringSize s n then
    ok (modRing s n (fun r => { r with halted := false, wantResume := false, rung := false, seq := q, dupLeft := k })) n f c 0
  else fail s n f 0xD 1

/-! ### Points (R526 to R530) -/

/-- PT_READ (R527). -/
def opPtRead (s : State) (n : Nat) (f : Flight) : State :=
  let ids := (upto (parOf f 0).toNat).map ((tgtOf f).toNat + ·)
  match firstRefused s n (ppart s) ids with
  | some id => refuseAccess s n f (w32 id)
  | none =>
    let val := fun id => if (ptype s id).isNone then 0 else if bitOf (parOf f 1) 0 then pnat s id else pval s id
    output s n f (ids.flatMap (fun id => [val id, statusWord s id])) (parOf f 0) 0

/-- Why a host cannot write a value to a point, as status and DETAIL (R338, R353, R387, R528). -/
def ptWriteFault (s : State) (w : Nat × Word) : Option (Nat × Word) :=
  if !hostWritable s w.1 then some (0xB, w32 w.1)
  else if writtenElsewhere s w.1 then some (0xC, w32 w.1)
  else if 0x800 ≤ w.1 ∧ w.1 < 0x1000 ∧ w.1 % 8 = 2 ∧ 4 < w.2.toNat then some (0xD, 1)
  else none

/-- PT_WRITE: one commit, or refused whole (R528, R529, R451). -/
def opPtWrite (s : State) (n : Nat) (f : Flight) : State :=
  let k := (parOf f 0).toNat
  let ids := (upto k).map ((tgtOf f).toNat + ·)
  let ws := ids.zip (if k ≤ 7 then (upto k).map (fun j => parOf f (1 + j)) else f.input)
  match firstRefused s n (ppart s) ids with
  | some id => refuseAccess s n f (w32 id)
  | none =>
    match ws.findSome? (ptWriteFault s) with
    | some e => fail s n f e.1 e.2
    | none =>
      let forced := (ids.filter (fun id => (pointForce s id).isSome)).length
      let s := writePoints s (ws.map (fun w => (w.1, canonOf ((ptype s w.1).getD 4) w.2)))
      ok s n f (if forced = 0 then 0 else Config.forcedMark forced) 0

/-- A watch of a partition on a point. -/
def isWatch (point part : Nat) (w : Watch) : Bool := w.point == point && w.part == part

/-- PT_WATCH, adding or removing the watch of the ring's partition on a point (R530; log 65). -/
def opPtWatch (s : State) (n : Nat) (f : Flight) : State :=
  let id := (tgtOf f).toNat
  let part := ringPart s n
  let has := s.watches.any (isWatch id part)
  let rest := s.watches.filter (fun w => !isWatch id part w)
  if !partOk part (ppart s id) then refuseAccess s n f (w32 id)
  else if bitOf (parOf f 0) 0 then
    (if !has && decide (2048 ≤ s.watches.length) then fail s n f 0x13 0
     else
      let w : Watch := { point := id, part := part, deadband := parOf f 1, minMs := (parOf f 2).toNat, last := pval s id,
                         lastForced := (pointForce s id).isSome, held := false, closed := false, since := 0 }
      ok { s with watches := rest ++ [w] } n f (w32 (rest.length + 1)) 0)
  else if has then ok { s with watches := rest } n f (w32 rest.length) 0
  else fail s n f 0xF 0

/-- RIO_READ: AGE, UPD and words of a station's input image (R416, R418, R526). -/
def opRioRead (s : State) (n : Nat) (f : Flight) : State :=
  let st := (tgtOf f).toNat
  let r := rio s st
  if !partOk (ringPart s n) (stationPart s st) then refuseAccess s n f (tgtOf f)
  else
    let age := match r.last with
      | some a => min ((s.up - a) / 1000000) 0xFFFFFFFF
      | none => 0xFFFFFFFF
    output s n f ([w32 age, r.upd] ++ (upto (parOf f 1).toNat).map (fun j => wAt r.input ((parOf f 0).toNat + j))) 0 0

/-- A word of a station's output image that an RIO_WR block of the active image writes (R529). -/
def rioWritten (s : State) (st idx : Nat) : Bool :=
  match s.img with
  | some im => im.insts.any (fun i => i.typ == 0x5C && fld i.param 4 0 == st && fld i.param 10 5 == idx)
  | none => false

/-- RIO_WRITE (R417, R529). -/
def opRioWrite (s : State) (n : Nat) (f : Flight) : State :=
  let st := (tgtOf f).toNat
  let k := (parOf f 1).toNat
  let ix := (upto k).map ((parOf f 0).toNat + ·)
  if !partOk (ringPart s n) (stationPart s st) then refuseAccess s n f (tgtOf f)
  else match ix.find? (rioWritten s st) with
    | some i => fail s n f 0xC (w32 i)
    | none => ok (forAll (ix.zip (if k ≤ 6 then (upto k).map (fun j => parOf f (2 + j)) else f.input)) (fun s w => setRioOut s st w.1 w.2) s) n f 0 0

/-! ### Configuration (R531, R532) -/

/-- BAR0 offset at which a TARGET's offsets begin. -/
def cfgBase (t : Nat) : Nat := if t % 16 = 3 then oBank (t / 16) else (t % 16) * 0x10000

/-- A pair names a register that CFG_WRITE can write (R532). -/
def cfgPairOk (t : Nat) (o : Word) : Bool :=
  let i := regInfo (cfgBase t + o.toNat)
  decide (o.toNat < cfgSize t) && fld o 1 0 == 0 && (i.rw ||| i.rws) != 0

/-- The pairs of a payload. -/
def pairsOf : List Word → List (Word × Word)
  | o :: v :: r => (o, v) :: pairsOf r
  | _ => []

/-- The ring engine's access to a register: the block's gate is open (R136). -/
def cfgUp (s : State) (off : Nat) : Bool :=
  match gateOf off with
  | none => true
  | some g => blockUp s g

/-- An access of the ring engine ends in a bus error: the descriptor fails with one of the statuses of R524, which names none
for it (R136; log 137). -/
def busFail (s : State) (n : Nat) (f : Flight) : State :=
  let (k, s) := takeFree s
  fail s n f (3 + Config.busError k % 22) 0

/-- The block of a staged set has a commit pending (R532), or its set is held for an activation (R444; DEDUCED, log 66). -/
def cfgBusy (s : State) (t : Nat) : Bool :=
  match t % 16 with
  | 2 => phcPending s || (s.ble.act.map Activation.schedWith).getD false
  | 3 => bankPending s (t / 16)
  | 4 => lcePending s
  | _ => false

/-- The commit request that ends a CFG_WRITE of a staged set. -/
def cfgRequest (s : State) (t : Nat) : State :=
  match t % 16 with
  | 2 => phcRequest s
  | 3 => bankRequest s (t / 16)
  | _ => lceRequest s

/-- CFG_WRITE (R532). -/
def opCfgWrite (s : State) (n : Nat) (f : Flight) : State :=
  let t := (tgtOf f).toNat
  let ps := pairsOf f.input
  match (ps.zipIdx).find? (fun e => !cfgPairOk t e.1.1) with
  | some e => fail s n f 4 (Config.badDetail e.2)
  | none =>
    if ps.any (fun p => !cfgUp s (cfgBase t + p.1.toNat)) then busFail s n f
    else if cfgBusy s t then fail s n f 0xE 0
    else
      let s := forAll ps (fun s p => regWrite s (cfgBase t + p.1.toNat) p.2) s
      if t % 16 = 2 ∨ t % 16 = 3 ∨ t % 16 = 4 then cfgRequest (setWaiting s n f) t else ok s n f 0 0

/-- Words read one after the other, as register reads return them (R532). -/
def cfgReadGo (s : State) (off : Nat) : Nat → State × List Word
  | 0 => (s, [])
  | k + 1 =>
    let r := cfgReadGo (afterRead s off) (off + 4) k
    (r.1, readOut s off :: r.2)

/-- CFG_READ (R531, R532). -/
def opCfgRead (s : State) (n : Nat) (f : Flight) : State :=
  let o := cfgBase (tgtOf f).toNat + (parOf f 0).toNat
  if (upto (parOf f 1).toNat).any (fun k => !cfgUp s (o + 4 * k)) then busFail s n f
  else
    let r := cfgReadGo s o (parOf f 1).toNat
    output r.1 n f r.2 0 0

/-! ### The controller and the program (R533 to R537) -/

/-- CTRL 0: the controller stops (R534). -/
def ctrlStop (s : State) (n : Nat) (f : Flight) : State := ok (if s.ble.running then stopCtl s 3 0 else s) n f 0 0

/-- CTRL 1 and 2: a restart (R534). -/
def ctrlRestart (s : State) (n : Nat) (f : Flight) (cold : Bool) : State :=
  if s.ble.running then fail s n f 0x17 0
  else match s.img with
    | none => fail s n f 0xD 1
    | some im => ok (runController s im cold) n f (if !cold && (retainFor s im).isSome then 1 else 2) 0

/-- CTRL 3: a stopped task starts at its next firing (R392, R534). -/
def ctrlTaskStart (s : State) (n : Nat) (f : Flight) (t : Nat) : State :=
  if s.ble.running && (task s t).stopped then ok (setTask s t { task s t with stopped := false }) n f 0 0 else fail s n f 0x17 0

/-- CTRL 4: the completion is written, then the module resets itself (R534). -/
def ctrlReset (s : State) (n : Nat) (f : Flight) : State := holdReset (ok s n f 0 0) 4

/-- CTRL (R534). -/
def opCtrl (s : State) (n : Nat) (f : Flight) : State :=
  match (parOf f 0).toNat with
  | 0 => ctrlStop s n f
  | 1 => ctrlRestart s n f false
  | 2 => ctrlRestart s n f true
  | 3 => ctrlTaskStart s n f (parOf f 1).toNat
  | _ => ctrlReset s n f

/-- The last chunk of a load: the image is checked, and with a partner the completion waits for its copy (R376, R446, R535). -/
def loadEnd (s : State) (n : Nat) (f : Flight) (b : List Nat) : State :=
  match imageCheck s b with
  | some (code, i) => fail s n f 0xD (w32 (code + (i % 65536) * 65536))
  | none =>
    let im := parseImage b
    let s := { s with ble := { s.ble with inactive := some im } }
    if s.twn.role = 1 ∧ (s.twn.pair = 3 ∨ s.twn.pair = 4) then setWaiting { s with twn := { s.twn with loadOut := some 0 } } n f
    else ok s n f im.programId im.build

/-- IMG_LOAD (R421, R535). -/
def opImgLoad (s : State) (n : Nat) (f : Flight) : State :=
  let o := (parOf f 0).toNat
  let len := (parOf f 1).toNat
  let d := wordsBytes f.input
  if s.ble.act.isSome then fail s n f 0xE 0
  else
    let prev : Option (List Nat) := if o = 0 then some [] else match s.ble.load with
      | some (l, b) => if l = len ∧ b.length = o then some b else none
      | none => none
    match prev with
    | none => fail s n f 4 0
    | some b =>
      let b := b ++ d
      let s := if o = 0 then { s with ble := { s.ble with inactive := none } } else s
      if len ≤ b.length then loadEnd { s with ble := { s.ble with load := none } } n f b
      else ok { s with ble := { s.ble with load := some (len, b) } } n f 0 0

/-- IMG_ACTIVATE (R379, R423, R424, R536). -/
def opImgActivate (s : State) (n : Nat) (f : Flight) : State :=
  let sched := bitOf (parOf f 0) 0
  match actCheck s sched with
  | some (code, d) => fail s n f 0xD (w32 code ||| d)
  | none =>
    if s.ble.running then
      { setWaiting s n f with ble := { s.ble with act := some { ring := n, schedWith := sched, built := false, builtAt := 0 } } }
    else match s.ble.inactive with
      | none => s
      | some new =>
        let r := activateStopped s new sched
        complete r.1 n f 0 r.2.1 r.2.2.1 r.2.2.2

/-- IMG_CANCEL (R423, R536). -/
def opImgCancel (s : State) (n : Nat) (f : Flight) : State :=
  if s.ble.act.isSome then ok (endAct s 0x14 0 0 0) n f 0 0 else fail s n f 0xF 0

/-- The instance a descriptor names, where the ring reaches it and its words (R537). -/
def instFor (s : State) (n : Nat) (f : Flight) : Except State Inst :=
  match s.img.bind (fun im => instById im (tgtOf f).toNat) with
  | none => .error (fail s n f 0xF 0)
  | some i =>
    if !partOk (ringPart s n) i.part then .error (refuseAccess s n f (tgtOf f))
    else if instWords i ≤ (parOf f 0).toNat then .error (fail s n f 4 0)
    else if instWords i < (parOf f 0).toNat + (parOf f 1).toNat then .error (fail s n f 4 1)
    else .ok i

/-- INST_READ (R533, R537). -/
def opInstRead (s : State) (n : Nat) (f : Flight) : State :=
  match instFor s n f with
  | .error t => t
  | .ok i => output s n f ((upto (parOf f 1).toNat).map (fun j => dget s (i.ofs + (parOf f 0).toNat + j))) 0 0

/-- INST_WRITE: between cycles of the instance's task (R386, R537). -/
def opInstWrite (s : State) (n : Nat) (f : Flight) : State :=
  match instFor s n f with
  | .error t => t
  | .ok i =>
    let ws := (upto (parOf f 1).toNat).map (fun j =>
      let k := (parOf f 0).toNat + j
      (i.ofs + k, canonOf (wordType i k) (parOf f (2 + j)), n))
    applyWrites { setWaiting s n f with ble := { s.ble with writes := s.ble.writes ++ ws } }

/-! ### Forces (R449 to R454, R538) -/

/-- A point or pin that a force can be set on, with its type; none for any other key (R450). -/
def forceType (s : State) (kind obj pin : Nat) : Option Nat :=
  if kind = 0 then
    (if obj < 0xC0 ∨ (0x400 ≤ obj ∧ obj < 0x500) ∨ (0x800 ≤ obj ∧ obj < 0x1000 ∧ obj % 8 < 3) ∨ 0x1800 ≤ obj then ptype s obj else none)
  else
    (s.img.bind (fun im => instById im obj)).bind (fun i =>
      if pin < i.nIn + (sigOf i).outs.length then some (wordType i pin) else none)

/-- The partition of a force's object. -/
def keyPart (s : State) (kind obj : Nat) : Nat :=
  if kind = 0 then ppart s obj else (((s.img.bind (fun im => instById im obj)).map Inst.part).getD 0)

/-- A force entry has this key. -/
def forceIs (kind obj pin : Nat) (f : Force) : Bool := f.kind == kind && f.obj == obj && (kind == 0 || f.pin == pin)

/-- A point's readers see another value: an output channel's bank gets a frame, a mapped transmit point counts as changed
(R162, R451, R454, R560, R646). -/
def forceSeen (s : State) (kind obj : Nat) : State :=
  if kind = 0 then (if obj < 0xC0 then commitPoints s [obj] else if obj < 0x500 then notePoint s obj else s) else s

/-- FORCE_SET (R449, R450, R538). -/
def opForceSet (s : State) (n : Nat) (f : Flight) : State :=
  let kind := (parOf f 0).toNat
  let obj := (parOf f 1).toNat
  let pin := (parOf f 2).toNat
  let typ := (parOf f 3).toNat
  let v := parOf f 4
  let has := s.forces.any (forceIs kind obj pin)
  match forceType s kind obj pin with
  | none => fail s n f 0xD 1
  | some t =>
    if !partOk (ringPart s n) (keyPart s kind obj) then refuseAccess s n f (w32 obj)
    else if kind = 0 ∧ obj < 0xC0 ∧ chMode s obj = 0 then fail s n f 0xD 4
    else if t ≠ typ then fail s n f 0xD 2
    else if t = 0 ∧ 1 < v.toNat then fail s n f 0xD 3
    else if !has && decide (512 ≤ s.forces.length) then fail s n f 0x13 0
    else
      let e : Force := { kind := kind, obj := obj, pin := pin, typ := typ, val := v, part := keyPart s kind obj, ts := nowTs s }
      let l := if has then s.forces.map (fun g => if forceIs kind obj pin g then e else g) else s.forces ++ [e]
      ok (forceSeen (noteForce { s with forces := l } e) kind obj) n f (boolW has) 0

/-- Forces that pass a test are released, on the host's word (R454). -/
def dropForces (s : State) (p : Force → Bool) : State :=
  forAll (s.forces.filter p) (fun s g => forceSeen (noteForce s { g with kind := g.kind + 2 }) g.kind g.obj)
    { s with forces := s.forces.filter (fun g => !p g) }

/-- FORCE_RELEASE: of a key, or of every force of the ring's partition (R533, R538). -/
def opForceRelease (s : State) (n : Nat) (f : Flight) : State :=
  let kind := (parOf f 0).toNat
  let part := ringPart s n
  if kind = 0xFF then
    ok (dropForces s (fun g => g.part == part)) n f (w32 (s.forces.filter (fun g => g.part == part)).length) 0
  else match s.forces.find? (forceIs kind (parOf f 1).toNat (parOf f 2).toNat) with
    | none => fail s n f 0xF 0
    | some g =>
      if !partOk part g.part then refuseAccess s n f (parOf f 1)
      else ok (dropForces s (forceIs kind (parOf f 1).toNat (parOf f 2).toNat)) n f 1 0

/-- A force as the list shows it (R538). -/
def forceWords (g : Force) : List Word :=
  [w32 (g.kind + (g.typ <<< 8) + (g.part <<< 11)), w32 g.obj, w32 g.pin, g.val, w32 g.ts, w32 (g.ts >>> 32)]

/-- FORCE_LIST: as many as the buffer takes, from an index; a tenant's ring lists its own (R533, R538). -/
def opForceList (s : State) (n : Nat) (f : Flight) : State :=
  let part := ringPart s n
  let mine := s.forces.filter (fun g => part == 0 || g.part == part)
  let l := (mine.drop (parOf f 0).toNat).take (((wAt f.words 14).toNat - 4) / 24)
  output s n f (l.flatMap forceWords) (w32 l.length) (w32 s.forces.length)

/-! ### Timed actions and the handoff (R115 to R117, R539 to R541) -/

/-- TIMED: accepted, it waits for its firing (R115, R116, R117, R540). -/
def opTimed (s : State) (n : Nat) (f : Flight) : State :=
  let a := (parOf f 0).toNat
  let net := bitOf (parOf f 2) 0
  let lo := (parOf f 3).toNat
  let hi := (parOf f 4).toNat
  let at_ := (lo + hi * 2 ^ 32) * 1000000000 + (parOf f 5).toNat
  if a ≠ 1 ∧ a ≠ 4 ∧ a ≠ 7 then fail s n f 0xD 1
  else if 64 ≤ s.phc.timed.length then fail s n f 0x13 0
  else if net && !netLocked s then fail s n f 0x11 0
  else match (if net then toPhase s at_ else some (((lo + hi * 2 ^ 32) % 2 ^ 60 : Nat) : Int)) with
    | none => fail s n f 0x11 0
    | some u =>
      if u < absA s + 2048 then fail s n f 0x10 0
      else
        let t : Timed := { ring := n, action := a, arg := parOf f 1, net := net, at_ := at_, unit := u.toNat,
                           fixed := !net || decide (u < absA s + 4096) }
        { setWaiting s n f with phc := { s.phc with timed := s.phc.timed ++ [t] } }

/-- HANDOFF_REQ (R491, R494, R541; log 67). -/
def opHandoffReq (s : State) (n : Nat) (f : Flight) : State :=
  if s.twn.plan.isSome then fail s n f 0xE 0
  else if s.twn.role ≠ 1 ∨ standbyClean s = false then fail s n f 0xD 1
  else match planHandoff s 3 (some n) with
    | none => fail s n f 0xD 2
    | some t => setWaiting t n f

end Sys2Proof.Machine
end

