-- ==== Sys2Proof/Machine/RingMore.lean ====
section
/-! DEFINITION. What the ring operations on metering, the recorder, CAN and Ethernet do at their commit turn, and the checks
of the key operations' payloads (R542 to R548, R592, R633 to R638, R678). -/

namespace Sys2Proof.Machine

/-! ### Metering (R542, R543) -/

/-- A cartridge result other than OK (R543). -/
def mtrFail (s : State) (n : Nat) (f : Flight) (code : Nat) : State :=
  if code = 8 then fail s n f 0x18 0 else fail s n f 0xD (w32 code)

/-- The billing partition of a register set (R543, R685). -/
def billPart (s : State) (phase : Bool) (k : Nat) : Nat :=
  if phase then ((circuitOfInput s k).map (circPart s)).getD 0 else circPart s k

/-- MTR_READ_SET: a register set from the latest complete snapshot (R317, R318, R543). -/
def opMtrSet (s : State) (n : Nat) (f : Flight) : State :=
  let phase := bitOf (tgtOf f) 0
  let k := fld (tgtOf f) 7 1
  if !s.mtr.running then mtrFail s n f 8
  else if !partOk (ringPart s n) (billPart s phase k) then refuseAccess s n f (w32 k)
  else output s n f ((upto 16).map (readSet s phase k)) s.mtr.snapGen 0

/-- MTR_READ_INTERVAL: decided by the PARTITION field of the record (R543). -/
def opMtrInterval (s : State) (n : Nat) (f : Flight) : State :=
  let k := (tgtOf f).toNat
  if !s.mtr.running then mtrFail s n f 8
  else match (if parOf f 0 = 0 then (circ s k).recs.head? else findInterval s k (parOf f 0)) with
    | none => mtrFail s n f 3
    | some r => if partOk (ringPart s n) (fld (wAt r 6) 12 8) then output s n f r 0 0 else refuseAccess s n f (tgtOf f)

/-- MTR_READ_LOG. -/
def opMtrLog (s : State) (n : Nat) (f : Flight) : State :=
  if !s.mtr.running then mtrFail s n f 8
  else match findLog s (parOf f 0) with
    | none => mtrFail s n f 3
    | some r => output s n f r 0 0

/-- MTR_READ_PARAM. -/
def opMtrParam (s : State) (n : Nat) (f : Flight) : State :=
  if !s.mtr.running then mtrFail s n f 8
  else match readBlock s (parOf f 0).toNat (parOf f 1).toNat with
    | none => mtrFail s n f 2
    | some r => output s n f r 0 0

/-- MTR_SET_TENANT. -/
def opMtrTenant (s : State) (n : Nat) (f : Flight) : State :=
  if !s.mtr.running then mtrFail s n f 8
  else
    let r := tenantSet s (tgtOf f).toNat (parOf f 0).toNat
    if r.1 = 0 then ok r.2.2 n f (w32 r.2.1) 0 else mtrFail s n f r.1

/-! ### The recorder (R544, R678) -/

/-- The record with a sequence number, where it passes the read procedure (R678). -/
def readRecord (s : State) (seq : Word) : Option (List Word) :=
  let r := tget (fun _ => []) s.recSlots (seq.toNat % 32768)
  if wAt r 0 = seq ∧ wholeRec r = true then some r else none

/-- The first `k` of the records a ring reads from `seq` on, among the next `m` sequence numbers. -/
def recRun (s : State) (part : Nat) (seq : Word) : Nat → Nat → List (List Word)
  | 0, _ => []
  | m + 1, k =>
    if k = 0 then [] else
      match readRecord s seq with
      | some r => if part = 0 ∨ fld (wAt r 2) 12 8 = part then r :: recRun s part (seq + 1) m (k - 1) else recRun s part (seq + 1) m k
      | none => recRun s part (seq + 1) m k

/-- How many sequence numbers a read from `seq` on looks at: from the oldest slot where `seq` is older, none where it lies ahead
(R544). -/
def recBack (s : State) (seq : Word) : Nat := let k := (s.recNext - seq).toNat; if 0x80000000 ≤ k then 0 else min k 32768

/-- The records a ring of a partition reads from `seq` on, at most `k` (R544). -/
def recsFrom (s : State) (part : Nat) (seq : Word) (k : Nat) : List (List Word) :=
  recRun s part (s.recNext - w32 (recBack s seq)) (recBack s seq) k

/-- REC_READ (R544): its second result is the number of the first record returned, or the one it began at. -/
def opRecRead (s : State) (n : Nat) (f : Flight) : State :=
  let l := recsFrom s (ringPart s n) (parOf f 0) (parOf f 1).toNat
  output s n f l.flatten (w32 l.length) ((l.head?.map (fun r => wAt r 0)).getD (s.recNext - w32 (recBack s (parOf f 0))))

/-! ### Payloads of the key operations (R715, R717) -/

/-- KEY_ATTEST's payload holds zeros beyond its nonce. -/
def opKeyAttest (s : State) (n : Nat) (f : Flight) : State :=
  if (f.input.drop 8).any (· != 0) then fail s n f 4 (Config.badDetail 0) else kopAttest s n f

/-- KEY_ENROL's payload: FORMAT 1, KIND 0 to 2, its reserved byte and word zero (R715). -/
def opKeyEnrol (s : State) (n : Nat) (f : Flight) : State :=
  let w := wAt f.input 0
  if fld w 7 0 ≠ 1 ∨ 2 < fld w 15 8 ∨ fld w 31 24 ≠ 0 ∨ wAt f.input 1 ≠ 0 then fail s n f 4 (Config.badDetail w.toNat) else kopEnrol s n f

/-! ### CAN (R546, R547, R633 to R640) -/

/-- CAN_TX (R635, R636). A port off the bus fails the frame as stopped (DEDUCED, log 68). -/
def opCanTx (s : State) (n : Nat) (f : Flight) : State :=
  let p := fld (tgtOf f) 1 0
  let b := fld (tgtOf f) 7 2
  let c := rget s (oCanBuf p b)
  let w := parOf f 0
  let len := fld (parOf f 1) 6 0
  if !partOk (ringPart s n) (canBufPart s p b) then refuseAccess s n f (tgtOf f)
  else if imageCan s p b then fail s n f 0xC (tgtOf f)
  else if !bitOf c 0 || !bitOf c 1 || bitOf c 2 then fail s n f 0xD 1
  else if (canBuf s p b).tx.isSome then fail s n f 0xE 0
  else if bitOf w 30 && !(canPort s p).fd then fail s n f 0xD 2
  else if !canOnBus s p then fail s n f 0x16 6
  else if (canPort s p).st = 2 then fail s n f 0x16 4
  else
    let data := if len ≤ 24 then (upto 6).map (fun j => parOf f (2 + j)) else f.input
    setWaiting (queueTx s p b { id := fld w 28 0, ide := bitOf w 29, fdf := bitOf w 30, brs := bitOf w 31,
                                bytes := (wordsBytes data).take len, oneShot := bitOf (parOf f 1) 8, src := 0, by_ := n }) n f

/-- CAN_RX (R633, R635). -/
def opCanRx (s : State) (n : Nat) (f : Flight) : State :=
  let p := fld (tgtOf f) 1 0
  let b := fld (tgtOf f) 7 2
  let c := rget s (oCanBuf p b)
  let k := canBuf s p b
  if !partOk (ringPart s n) (canBufPart s p b) then refuseAccess s n f (tgtOf f)
  else if !bitOf c 0 || bitOf c 1 then fail s n f 0xD 1
  else
    let data := if k.has then [k.id, w32 k.bytes.length] ++ bytesWords k.bytes else [0, 0]
    if (wAt f.words 14).toNat < 4 * data.length + 4 then fail s n f 8 (w32 (4 * data.length + 4))
    else output (modCanBuf s p b (fun k => { k with read := k.arrivals })) n f data (k.arrivals - k.read) (boolW k.has)

/-- CAN_RECOVER (R638). -/
def opCanRecover (s : State) (n : Nat) (f : Flight) : State :=
  let p := fld (tgtOf f) 1 0
  if (canPort s p).st = 2 && canEn s p then setWaiting (canRecover s p) n f else fail s n f 0xD 1

/-! ### Ethernet (R546, R548, R586, R592) -/

/-- ETH_TX: it waits for room, for the port's turn, and while no address is valid (R548, R586, R588). -/
def opEthTx (s : State) (n : Nat) (f : Flight) : State :=
  let p := fld (tgtOf f) 0 0
  let b := wordsBytes f.input
  if maxLen s p < max b.length 60 + 4 then fail s n f 0x15 (w32 b.length)
  else if !macValid s || decide (16384 < queueFill (eport s p) (fld (tgtOf f) 3 1) + max b.length 60) then s
  else setWaiting (sendInternal s p (fld (tgtOf f) 3 1) b (some n)) n f

/-- The first waiting frame of a receive queue, and the rest. -/
def popRx (q : Nat) : List RxFrame → Option (RxFrame × List RxFrame)
  | [] => none
  | x :: r => if x.queue = q then some (x, r) else (popRx q r).map (fun y => (y.1, x :: y.2))

/-- ETH_RX_POST: filled by a frame that awaits a buffer, or by the next one (R548, R592). -/
def opEthRxPost (s : State) (n : Nat) (f : Flight) : State :=
  let p := fld (tgtOf f) 0 0
  match popRx (fld (tgtOf f) 4 1) (eport s p).rxq with
  | some (x, r) => fillPost (modPort s p (fun e => { e with rxq := r })) n f x
  | none => setWaiting s n f

end Sys2Proof.Machine
end

