-- ==== Sys2Proof/Machine/RingRows.lean ====
section
/-! DEFINITION. The commit turn of a descriptor, and each ring operation as a command: its descriptor is fetched, and
commits when nothing of its ring is before it (R556, R568 to R573). -/

namespace Sys2Proof.Machine

/-! ### The commit turn (R511, R525, R556, R570) -/

/-- An owner-only operation (R511, R525). -/
def ownerOnly (op : Nat) : Bool :=
  ([0x20, 0x21, 0x30, 0x31, 0x32, 0x33, 0x40, 0x41, 0x52, 0x53, 0x54, 0x64, 0x72, 0x78, 0x79, 0x7C, 0x7D, 0x7E, 0x7F] : List Nat).contains op

/-- An operation that changes state (R525). -/
def changesState (op : Nat) : Bool :=
  ([0x11, 0x14, 0x20, 0x30, 0x31, 0x32, 0x33, 0x35, 0x36, 0x37, 0x40, 0x41, 0x70, 0x72] : List Nat).contains op

/-- The operations of formCore. -/
def runCore (s : State) (n : Nat) (f : Flight) : State :=
  match opOf f with
  | 0x00 => ok s n f 0 0
  | 0x01 => opFence s n f
  | 0x02 => opResume s n f
  | 0x10 => opPtRead s n f
  | 0x11 => opPtWrite s n f
  | 0x12 => opPtWatch s n f
  | 0x13 => opRioRead s n f
  | 0x14 => opRioWrite s n f
  | 0x20 => opCfgWrite s n f
  | 0x21 => opCfgRead s n f
  | 0x30 => opCtrl s n f
  | 0x31 => opImgLoad s n f
  | 0x32 => opImgActivate s n f
  | 0x33 => opImgCancel s n f
  | 0x34 => opInstRead s n f
  | 0x35 => opInstWrite s n f
  | 0x36 => opForceSet s n f
  | 0x37 => opForceRelease s n f
  | 0x38 => opForceList s n f
  | 0x40 => opTimed s n f
  | 0x41 => opHandoffReq s n f
  | _ => fail s n f 3 0

/-- An operation of the update engine; with its gate closed it ends in a bus error (R136). -/
def updOp (f : State → Nat → Flight → State) (s : State) (n : Nat) (d : Flight) : State :=
  if blockUp s 5 then f s n d else busFail s n d

/-- The operations of formMore. -/
def runMore (s : State) (n : Nat) (f : Flight) : State :=
  match opOf f with
  | 0x50 => opMtrSet s n f
  | 0x51 => opMtrInterval s n f
  | 0x52 => opMtrLog s n f
  | 0x53 => opMtrParam s n f
  | 0x54 => opMtrTenant s n f
  | 0x58 => opRecRead s n f
  | 0x60 => kopGen s n f
  | 0x61 => kopDerive s n f
  | 0x62 => kopInvalidate s n f
  | 0x63 => opKeyAttest s n f
  | 0x64 => opKeyEnrol s n f
  | 0x65 => kopAead s n f
  | 0x66 => kopSign s n f
  | 0x67 => kopInfo s n f
  | 0x70 => opCanTx s n f
  | 0x71 => opCanRx s n f
  | 0x72 => opCanRecover s n f
  | 0x78 => opEthTx s n f
  | 0x79 => opEthRxPost s n f
  | 0x7C => updOp uopChunk s n f
  | 0x7D => updOp uopStatus s n f
  | 0x7E => updOp uopConfirm s n f
  | 0x7F => updOp uopAbort s n f
  | _ => fail s n f 3 0

/-- A descriptor's effect at its commit turn. -/
def opRun (s : State) (n : Nat) (f : Flight) : State := if opOf f < 0x50 then runCore s n f else runMore s n f

/-- The output payload an effect has written for a ring: its address and words. -/
def payloadOut (s t : State) (n : Nat) : Option (Nat × List Word) :=
  (t.out.drop s.out.length).findSome? (fun o => match o with
    | .payload m a l => if m = n then some (a, l) else none
    | _ => none)

/-- The last word inverted. -/
def breakCrc (l : List Word) : List Word := l.dropLast ++ [~~~ (wAt l (l.length - 1))]

/-- The effect, unless the data it would return are found poisoned: the output payload at hop 3, the read window at hop 12 (R570). -/
def runChecked (s : State) (n : Nat) (f : Flight) (hop : Nat) : State :=
  let t := opRun s n f
  match payloadOut s t n with
  | none => t
  | some (a, l) =>
    if hop = 3 then fail (poison (emit s (.payload n a (breakCrc l))) 3) n f 6 3
    else if hop = 0xC ∧ opOf f = 0x50 then fail (poison s 0xC) n f 6 0xC
    else t

/-- The oldest descriptor of a ring at its commit turn. -/
def commitOne (s : State) (n : Nat) (f : Flight) (hop : Nat) : State :=
  if hop = 4 then fail (poison s 4) n f 6 4
  else if f.dup then complete s n f 1 0 0 0
  else match f.early with
    | some e => fail s n f e.1 e.2
    | none =>
      if ownerOnly (opOf f) && ringPart s n != 0 then fail s n f 9 (tgtOf f)
      else if changesState (opOf f) && onTwin s && !s.base.holdOut then fail s n f 0xA 0
      else runChecked s n f hop

/-- The commit turn of a ring, where its oldest descriptor has not yet begun to wait. -/
def commitFront (s : State) (n hop : Nat) : State :=
  match (ring s n).flight with
  | f :: _ => if ringsRun s && s.busMaster && !f.waiting then commitOne s n f hop else s
  | [] => s

/-- DESCRIPTOR_COMMIT (R556). -/
def execDescriptorCommit (n : Fin 64) (hop : Fin 13) (s : State) : Host.Outcome State Fault Refusal := done s (commitFront s n.val hop.val)

/-! ### The operations as commands -/

/-- The sixteen words of a descriptor with an opcode (R518). -/
def descOf (op : Nat) (d : Desc) : List Word :=
  let l := [w32 (op + 256 * d.flags.toNat), d.seq, d.target, d.w3] ++ (d.par ++ List.replicate 8 0).take 8 ++
    [w32 d.addr.toNat, w32 (d.addr.toNat >>> 32), d.len]
  l ++ [crcWords l]

/-- A descriptor as if with another PARAM0. -/
def withPar0 (d : Desc) (v : Word) : Desc := { d with par := v :: d.par.tail }

/-- A host's descriptor reaches the module: fetched, and committed when nothing of its ring is before it. -/
def submit (s : State) (n op : Nat) (d : Desc) : State :=
  if canFetch s n then
    let t := fetch s n (descOf op d) (withCrc d.payload) true
    if (ring t n).flight.length ≤ 1 then commitFront t n 0 else t
  else s

/-- NOP (R526). -/
def execNop (n : Fin 64) (d : Desc) (s : State) : Host.Outcome State Fault Refusal := done s (submit s n.val 0x00 d)
/-- FENCE (R565). -/
def execFence (n : Fin 64) (d : Desc) (s : State) : Host.Outcome State Fault Refusal := done s (submit s n.val 0x01 d)
/-- RESUME (R575). -/
def execResume (n : Fin 64) (d : Desc) (s : State) : Host.Outcome State Fault Refusal := done s (submit s n.val 0x02 d)
/-- PT_READ (R527). -/
def execPtRead (n : Fin 64) (d : Desc) (s : State) : Host.Outcome State Fault Refusal := done s (submit s n.val 0x10 d)
/-- PT_WRITE (R529). -/
def execPtWrite (n : Fin 64) (d : Desc) (s : State) : Host.Outcome State Fault Refusal := done s (submit s n.val 0x11 d)
/-- PT_WATCH_ADD (R530). -/
def execPtWatchAdd (n : Fin 64) (d : Desc) (s : State) : Host.Outcome State Fault Refusal := done s (submit s n.val 0x12 (withPar0 d 1))
/-- PT_WATCH_REMOVE (R530). -/
def execPtWatchRemove (n : Fin 64) (d : Desc) (s : State) : Host.Outcome State Fault Refusal := done s (submit s n.val 0x12 (withPar0 d 0))
/-- RIO_READ (R526). -/
def execRioRead (n : Fin 64) (d : Desc) (s : State) : Host.Outcome State Fault Refusal := done s (submit s n.val 0x13 d)
/-- RIO_WRITE (R529). -/
def execRioWrite (n : Fin 64) (d : Desc) (s : State) : Host.Outcome State Fault Refusal := done s (submit s n.val 0x14 d)
/-- CFG_WRITE (R532). -/
def execCfgWrite (n : Fin 64) (d : Desc) (s : State) : Host.Outcome State Fault Refusal := done s (submit s n.val 0x20 d)
/-- CFG_READ (R531). -/
def execCfgRead (n : Fin 64) (d : Desc) (s : State) : Host.Outcome State Fault Refusal := done s (submit s n.val 0x21 d)
/-- CTRL_STOP (R534). -/
def execCtrlStop (n : Fin 64) (d : Desc) (s : State) : Host.Outcome State Fault Refusal := done s (submit s n.val 0x30 (withPar0 d 0))
/-- CTRL_RESTART (R534). -/
def execCtrlRestart (n : Fin 64) (d : Desc) (s : State) : Host.Outcome State Fault Refusal := done s (submit s n.val 0x30 (withPar0 d 1))
/-- CTRL_RESTART_COLD (R534). -/
def execCtrlRestartCold (n : Fin 64) (d : Desc) (s : State) : Host.Outcome State Fault Refusal := done s (submit s n.val 0x30 (withPar0 d 2))
/-- CTRL_TASK_START (R534). -/
def execCtrlTaskStart (n : Fin 64) (d : Desc) (s : State) : Host.Outcome State Fault Refusal := done s (submit s n.val 0x30 (withPar0 d 3))
/-- CTRL_RESET (R534). -/
def execCtrlReset (n : Fin 64) (d : Desc) (s : State) : Host.Outcome State Fault Refusal := done s (submit s n.val 0x30 (withPar0 d 4))
/-- IMG_LOAD (R535). -/
def execImgLoad (n : Fin 64) (d : Desc) (s : State) : Host.Outcome State Fault Refusal := done s (submit s n.val 0x31 d)
/-- IMG_ACTIVATE (R424). -/
def execImgActivate (n : Fin 64) (d : Desc) (s : State) : Host.Outcome State Fault Refusal := done s (submit s n.val 0x32 d)
/-- IMG_CANCEL (R423). -/
def execImgCancel (n : Fin 64) (d : Desc) (s : State) : Host.Outcome State Fault Refusal := done s (submit s n.val 0x33 d)
/-- INST_READ (R533). -/
def execInstRead (n : Fin 64) (d : Desc) (s : State) : Host.Outcome State Fault Refusal := done s (submit s n.val 0x34 d)
/-- INST_WRITE (R537). -/
def execInstWrite (n : Fin 64) (d : Desc) (s : State) : Host.Outcome State Fault Refusal := done s (submit s n.val 0x35 d)
/-- FORCE_SET (R450). -/
def execForceSet (n : Fin 64) (d : Desc) (s : State) : Host.Outcome State Fault Refusal := done s (submit s n.val 0x36 d)
/-- FORCE_RELEASE (R454). -/
def execForceRelease (n : Fin 64) (d : Desc) (s : State) : Host.Outcome State Fault Refusal := done s (submit s n.val 0x37 d)
/-- FORCE_LIST (R538). -/
def execForceList (n : Fin 64) (d : Desc) (s : State) : Host.Outcome State Fault Refusal := done s (submit s n.val 0x38 d)
/-- TIMED (R540). -/
def execTimed (n : Fin 64) (d : Desc) (s : State) : Host.Outcome State Fault Refusal := done s (submit s n.val 0x40 d)
/-- HANDOFF_REQ (R541). -/
def execHandoffReq (n : Fin 64) (d : Desc) (s : State) : Host.Outcome State Fault Refusal := done s (submit s n.val 0x41 d)
/-- MTR_READ_SET (R543). -/
def execMtrReadSet (n : Fin 64) (d : Desc) (s : State) : Host.Outcome State Fault Refusal := done s (submit s n.val 0x50 d)
/-- MTR_READ_INTERVAL (R543). -/
def execMtrReadInterval (n : Fin 64) (d : Desc) (s : State) : Host.Outcome State Fault Refusal := done s (submit s n.val 0x51 d)
/-- MTR_READ_LOG (R542). -/
def execMtrReadLog (n : Fin 64) (d : Desc) (s : State) : Host.Outcome State Fault Refusal := done s (submit s n.val 0x52 d)
/-- MTR_READ_PARAM (R542). -/
def execMtrReadParam (n : Fin 64) (d : Desc) (s : State) : Host.Outcome State Fault Refusal := done s (submit s n.val 0x53 d)
/-- MTR_SET_TENANT (R543). -/
def execMtrSetTenant (n : Fin 64) (d : Desc) (s : State) : Host.Outcome State Fault Refusal := done s (submit s n.val 0x54 d)
/-- REC_READ (R544). -/
def execRecRead (n : Fin 64) (d : Desc) (s : State) : Host.Outcome State Fault Refusal := done s (submit s n.val 0x58 d)
/-- KEY_GEN (R700). -/
def execKeyGen (n : Fin 64) (d : Desc) (s : State) : Host.Outcome State Fault Refusal := done s (submit s n.val 0x60 d)
/-- KEY_DERIVE (R700). -/
def execKeyDerive (n : Fin 64) (d : Desc) (s : State) : Host.Outcome State Fault Refusal := done s (submit s n.val 0x61 d)
/-- KEY_INVALIDATE (R703). -/
def execKeyInvalidate (n : Fin 64) (d : Desc) (s : State) : Host.Outcome State Fault Refusal := done s (submit s n.val 0x62 d)
/-- KEY_ATTEST (R717). -/
def execKeyAttest (n : Fin 64) (d : Desc) (s : State) : Host.Outcome State Fault Refusal := done s (submit s n.val 0x63 d)
/-- KEY_ENROL (R716). -/
def execKeyEnrol (n : Fin 64) (d : Desc) (s : State) : Host.Outcome State Fault Refusal := done s (submit s n.val 0x64 d)
/-- AEAD_ENCRYPT (R545). -/
def execAeadEncrypt (n : Fin 64) (d : Desc) (s : State) : Host.Outcome State Fault Refusal := done s (submit s n.val 0x65 (withPar0 d 0))
/-- AEAD_DECRYPT (R545). -/
def execAeadDecrypt (n : Fin 64) (d : Desc) (s : State) : Host.Outcome State Fault Refusal := done s (submit s n.val 0x65 (withPar0 d 1))
/-- SIGN (R545). -/
def execSign (n : Fin 64) (d : Desc) (s : State) : Host.Outcome State Fault Refusal := done s (submit s n.val 0x66 d)
/-- KEY_INFO (R545). -/
def execKeyInfo (n : Fin 64) (d : Desc) (s : State) : Host.Outcome State Fault Refusal := done s (submit s n.val 0x67 d)
/-- CAN_TX (R635). -/
def execCanTx (n : Fin 64) (d : Desc) (s : State) : Host.Outcome State Fault Refusal := done s (submit s n.val 0x70 d)
/-- CAN_RX (R633). -/
def execCanRx (n : Fin 64) (d : Desc) (s : State) : Host.Outcome State Fault Refusal := done s (submit s n.val 0x71 d)
/-- CAN_RECOVER (R638). -/
def execCanRecover (n : Fin 64) (d : Desc) (s : State) : Host.Outcome State Fault Refusal := done s (submit s n.val 0x72 d)
/-- ETH_TX (R548). -/
def execEthTx (n : Fin 64) (d : Desc) (s : State) : Host.Outcome State Fault Refusal := done s (submit s n.val 0x78 d)
/-- ETH_RX_POST (R592). -/
def execEthRxPost (n : Fin 64) (d : Desc) (s : State) : Host.Outcome State Fault Refusal := done s (submit s n.val 0x79 d)
/-- UPD_CHUNK (R728). -/
def execUpdChunk (n : Fin 64) (d : Desc) (s : State) : Host.Outcome State Fault Refusal := done s (submit s n.val 0x7C d)
/-- UPD_STATUS (R730). -/
def execUpdStatus (n : Fin 64) (d : Desc) (s : State) : Host.Outcome State Fault Refusal := done s (submit s n.val 0x7D d)
/-- UPD_CONFIRM (R739). -/
def execUpdConfirm (n : Fin 64) (d : Desc) (s : State) : Host.Outcome State Fault Refusal := done s (submit s n.val 0x7E d)
/-- UPD_ABORT (R730). -/
def execUpdAbort (n : Fin 64) (d : Desc) (s : State) : Host.Outcome State Fault Refusal := done s (submit s n.val 0x7F d)

end Sys2Proof.Machine
end

