-- ==== Sys2Proof/Machine/StartUp.lean ====
section
/-! DEFINITION. START_UP: what a reset loses and keeps, and the eight start-up steps (R147 to R154). -/

namespace Sys2Proof.Machine

/-! ### What survives (R152, R668) -/

/-- A register's word as a reset leaves it, live sets and settings apart: only the RTC domain keeps its own (R668). -/
def keptReg (off : Nat) : Bool := 0xB0000 ≤ off && off < 0xB0030

/-- The words of the settings as they are loaded: staged fields as last applied, plain fields as last written (R12 to R16, R759). -/
def loadedRegs (s : State) : Tab Word :=
  let offs := ((s.regs.map Prod.fst ++ s.live.map Prod.fst).filter isSetting).eraseDups
  let w := fun o => let m := (regInfo o).rws; (lget s o &&& m) ||| (rget s o &&& ~~~ m)
  offs.foldl (fun t o => tset regReset t o (w o)) (s.regs.filter (fun e => !isSetting e.1))

/-- A bank's logic side afresh, with the hardware's causes (R152, R205). -/
def resetBank (k : Bank) : Bank :=
  { k with linkUp := false, outq := [], batches := [], timing := [], reqA := 0, comA := none, relA := 0, held := [], seqDn := 0, seqUp := 0,
           cfgDue := k.run, cfgAgain := false, causes := k.causes ||| 0x30, safe := true }

/-- A channel's logic side afresh. -/
def resetChan (h : Chan) : Chan :=
  { h with diag := 0, latPend := 0, latOpen := false, meas := 0, sig := qNaN, drive := 0, failRun := 0, firstRead := true,
           lastGood := 0, modeA := 0, zc := [] }

/-- The control engine afresh; its area in MRAM is kept. -/
def resetLce (l : Lce) : Lce := { Lce.reset with gen := l.gen, satArea := l.satArea, satAt := l.satAt }

/-- The block engine afresh; the retain area and the program store are kept. -/
def resetBle (b : Ble) : Ble := { Ble.reset with retA := b.retA, retB := b.retB, store0 := b.store0, store1 := b.store1 }

/-- The security block afresh; the key store and the life cycle are kept. -/
def resetSec (x : Sec) : Sec :=
  { x with rootOk := false, locked := false, entropyOk := false, root := [], remask := 0, maskAt := 0, remaskDue := false, violInfo := 0,
           violAddr := 0, sat := [] }

/-- The update engine afresh; the journal and the staging area are kept. -/
def resetUpd (u : Upd) : Upd :=
  { u with installErr := 0, leaving := 0, askAt := 0, parts := [], fragAt := none, reportAt := 0, cartSw := none, peerRel := 0 }

/-- The clocks as the boot firmware leaves them: every domain on code 0 (R124). -/
def resetClk (c : Clk) : Clk :=
  { c with src := [0, 0, 0, 0], target := [0, 0, 0, 0], forcing := [false, false, false, false], macStopped := false, closing := 0,
           idle := 0, fm := none, power := 0, alive := true, warned := false, pfRetain := false, linkPcie := c.perst }

/-- What only the logic side held is gone: events, records, network time, ports, and the engines (R152); the cell's registers
are at their reset values (R668). -/
def dropLogic (s : State) : State :=
  let s := { s with evq := [], recq := [], recLost := 0, recLostCls := 0, up := 0, ptp := Ptp.reset, eth := Eth.reset, can := [] }
  let s := { s with rtc := { s.rtc with batV := 0, batLow := false, batAbsent := false, batBusy := false } }
  { s with img := none, lce := resetLce s.lce, ble := resetBle s.ble, twn := Twn.reset, sec := resetSec s.sec, upd := resetUpd s.upd }

/-- Registers that are neither settings nor kept by a reset are gone, and the clocks start afresh (R124, R152). -/
def dropRegs (s : State) : State :=
  let s := { s with regs := s.regs.filter (fun e => keptReg e.1 || isSetting e.1), latch := [], lowHeld := [], pts := [] }
  let b := { s.base with holdOut := false, intTemp := 0, fieldDiss := 0, thermWarn := false }
  { s with base := b, phc := Phc.reset, clk := resetClk s.clk }

/-- Everything a reset loses is gone (R152); records that wait are written first (DESIGN CHOICE, log 70). -/
def dropVolatile (s : State) : State :=
  let s := dropRegs (endpointReset (recorderDrain (flushEvents s)))
  let s := forAll (upto 12) (fun s b => modBank s b resetBank) s
  let s := forAll (s.ch.map Prod.fst) (fun s c => modChan s c resetChan) s
  rset (dropLogic s) oSrcSel 0

/-! ### Steps 1 and 2 (R147, R656, R665, R693, R735) -/

/-- A start halts: STAGE 0xF, HALT_CODE, and a START_HALT record with the stage reached (R148, R154, R673). -/
def haltStart (s : State) (cause code at_ : Nat) : State :=
  recEvent (rset s oStartStatus (w32 (0xF + 16 * code + 256 * cause))) 0x106 0 0xFFFF [w32 code, w32 at_]

/-- Step 1: the life-cycle request, the root, the key store, the backup cell, the halted count (R656, R665, R693, R707 to R712). -/
def step1 (s : State) (e : StartEnv) : State :=
  let s := lcStart (batDone (batStart (unhalt s)) e.cell.toNat)
  let s := { s with sec := { s.sec with rootOk := true, entropyOk := e.entropyGood, root := beBytes 32 (Config.pufRoot % 2 ^ 256) } }
  let s := damageSlots s e.damagedKeys
  if e.entropyGood then remaskAll s else { s with sec := { s.sec with remaskDue := true } }

/-- Step 2 ends with the attribution table written and locked (R680, R684). -/
def lockSat (s : State) : State := { s with sec := { s.sec with sat := satWritten, locked := true } }

/-! ### Step 3 (R147, R380, R455, R458, R664, R669, R670, R677, R736) -/

/-- A record read from MRAM fails: it is not loaded (R570). -/
def mramBad (s : State) (good : Bool) (f : State → State) : State := if good then s else f (poison s 9)

/-- Settings are loaded, or every setting stands at its reset value (R147, R736). -/
def loadSettings (s : State) (good : Bool) : State :=
  if good then
    let t := convertSettings s
    let t := { t with regs := loadedRegs t }
    rset t oLceCommitStatus (w32 t.lce.gen)
  else { s with regs := s.regs.filter (fun e => !isSetting e.1), live := [], lce := { s.lce with gen := 0 } }

/-- A loop's saturation counts as their area holds them (R350). -/
def keptCount (a : Word × Word × Nat) : LoopSt := { LoopSt.reset with satTot := a.1, satCnt := a.2.1, satFrac := a.2.2 }

/-- The saturation counts of the area are the loops', and the totals are on their points (R350, R351). -/
def keptCounts (s : State) : State :=
  forAll s.lce.satArea (fun s e => pset s (loopPt e.1 6) e.2.1)
    { s with lce := { s.lce with loops := s.lce.satArea.map (fun a => (a.1, keptCount a.2)) } }

/-- What the other areas hold is taken as far as it reads whole. -/
def loadAreas (s : State) (e : StartEnv) : State :=
  let s := mramBad s e.settingsGood id
  let s := mramBad s e.retAGood (fun s => { s with ble := { s.ble with retA := none } })
  let s := mramBad s e.retBGood (fun s => { s with ble := { s.ble with retB := none } })
  let s := mramBad s e.loopsGood (fun s =>
    { s with ble := { s.ble with retA := s.ble.retA.map (fun c => { c with loops := [] }),
                                 retB := s.ble.retB.map (fun c => { c with loops := [] }) } })
  let s := mramBad s e.satGood (fun s => { s with lce := { s.lce with satArea := [] } })
  let s := mramBad s e.forcesGood (fun s => { s with forces := [] })
  keptCounts s

/-- Port, buffer and filter settings take effect as they were enabled (R591, R630, R631). -/
def loadPorts (s : State) : State :=
  let s := forAll (upto 4) (fun s p =>
    if canEn s p then modCanPort s p (fun c => { c with monitor := !canHolds s, fd := bitOf (rget s (oCan p)) 1 }) else s) s
  forAll (upto 2) (fun s p => forAll (upto 32) (fun s n =>
    let o := oPort p + 0x100 + 0x10 * n
    let w := [rget s o, rget s (o + 4), rget s (o + 8), rget s (o + 12)]
    if w.all (· == 0) then s else modPort s p (fun e => { e with filt := tset (fun _ => []) e.filt n w })) s) s

/-- Slots of the recorder found damaged are poisoned, and numbering goes on after the latest record that is whole (R570, R677). -/
def findRecords (s : State) (bad : List (Fin 32768)) : State :=
  let s := forAll bad (fun s n =>
    let w := (tget (fun _ => []) s.recSlots n.val ++ List.replicate 16 0).take 16
    poison { s with recSlots := tset (fun _ => []) s.recSlots n.val (setNth w 15 0) } 9) s
  { s with recNext := ((latestRec s).map (fun r => wAt r 0 + 1)).getD 1 }

/-- Operating time goes on from the larger of the saved value and the latest record's; the power-cycle count advances (R669, R670). -/
def resumeTime (s : State) : State × Word :=
  let r := (latestRec s).getD []
  let last := (wAt r 1).toNat + fld (wAt r 2) 7 0 * 2 ^ 32
  let saved := fun (p : Nat × Bool) => if p.2 then p.1 else 0
  let t := max last (max (saved s.rtc.optimeA) (saved s.rtc.optimeB))
  ({ s with rtc := { s.rtc with optime := t, opNs := 0, pwrCycles := s.rtc.pwrCycles + 1 } }, wAt r 1)

/-- A store copy that is not made active is named by a recorder event (R380; log 71). -/
def storeRefused (s : State) (copy code : Nat) : State := recEvent s Config.storeEvent.toNat 5 0xFFFF [w32 copy, w32 code]

/-- What refuses an image of the store against the settings now live; none where it passes (R376, R380). -/
def storeCode (s : State) (b : List Nat) : Option Nat :=
  match imageCheck s b with
  | some (code, _) => some code
  | none => (periodFault s.live (parseImage b)).map (fun _ => 0x10)

/-- A copy that is whole is made the active image, where none is yet and it passes (R380). -/
def tryStore (s : State) (c : Nat × StoreCopy) : State :=
  if s.img.isSome then s
  else match storeCode s c.2.bytes with
    | some code => storeRefused s c.1 code
    | none => { s with img := some (parseImage c.2.bytes) }

/-- The program store is loaded: a copy that fails its own check is named, then the whole one with the higher store sequence
number comes first (R380). -/
def loadStore (s : State) (g0 g1 : Bool) : State :=
  let copies := [(0, s.ble.store0, g0), (1, s.ble.store1, g1)].filterMap (fun c => c.2.1.map (fun k => (c.1, k, k.good && c.2.2)))
  let whole := (copies.filter (fun c => c.2.2)).map (fun c => (c.1, c.2.1))
  let s := forAll (copies.filter (fun c => !c.2.2)) (fun s c => storeRefused s c.1 0) s
  forAll (match whole with
    | [a, b] => if b.2.seq ≤ a.2.seq then [a, b] else [b, a]
    | l => l) tryStore s

/-- What the RTC domain latched while the module did not run is reported (R660, R664). -/
def reportRtc (s : State) : State :=
  let lost := bitOf (rget s oRtcStatus) 1
  let s := if lost then recEvent s 0x105 0xB 0xFFFF [w32 s.rtc.batV, boolW s.rtc.batAbsent] else s
  let bits := s.rtc.unreported ||| (if lost then 2 else 0)
  let s := if bits = 0 then s else regEvent s oRtcEvent bits 0xFFFFFFFF 0 true true []
  { s with rtc := { s.rtc with unreported := 0 } }

/-- A channel's first diagnostic word: NOT_READY for an input, and what the bank's supply and safe state give; it is no change
of the word, so nothing is latched (R201, R210, R220, R251; DESIGN CHOICE, log 136). -/
def startDiag (s : State) (c : Nat) : State :=
  let m := chMode s c
  let w := fixDiag s c (if isDigIn m || isAnIn m then 8 else 0)
  if w = (chan s c).diag then s else pset (modChan s c (fun h => { h with diag := w })) (0x100 + c) w

/-- Step 3. -/
def step3 (s : State) (e : StartEnv) (good : Bool) (cause : Nat) : State :=
  let s := forAll (upto 192) startDiag (loadPorts (loadAreas (loadSettings s good) e))
  let s := rset s oStartStatus (if good then 0 else 0x10000)
  let (s, last) := resumeTime (findRecords s e.badRecords)
  let s := loadStore s e.store0Good e.store1Good
  let s := releaseForces s (fun f => forceType s f.kind f.obj f.pin != some f.typ) 2
  recEvent (reportRtc s) 0x100 0 0xFFFF ([w32 cause] ++ countWords s s.rtc.count ++ [last])

/-! ### Steps 4 to 8 (R84, R147, R149, R205, R466, R467) -/

/-- Step 4: running banks whose links come up. -/
def step4 (s : State) (up : BitVec 12) : State :=
  forAll (upto 12) (fun s b =>
    if up.getLsbD b && (bank s b).run then ror (logicHeard (gotFrame s b) b) oStartStatus (oneBit (20 + b)) else s) s

/-- Network time that a port's slave has locked while the clock was waited for (R84, R617). -/
def lockNet (s : State) (n : NetEnv) : State :=
  if !(ptpOn s n.port && macValid s && portEn s n.port && n.speed.val != 0) then s else
    let s := modPort s n.port (fun e => { e with link := true, speed := n.speed })
    let f : Foreign := ⟨n.master, n.port, n.data, n.gm, 2, s.up, n.ival, w32 n.utc.toNat, n.utcValid⟩
    let p := { s.ptp with foreign := [f], master := some n.master, port := n.port, gm := n.gm, ns := n.ns, utc := w32 n.utc.toNat }
    let p := { p with utcValid := n.utcValid, rate := max (-500000) (min 500000 n.rate), delay := some n.delay, accDelay := some n.delay }
    ptpState { s with ptp := { p with virgin := false, firstOff := false, lockN := 16 } } 2

/-- Step 5: the clock runs its first cycle, number 0, locked or under R84; a change of state or source is an event as any other
(R77, R84, R95, R100). -/
def step5 (s : State) (e : StartEnv) : State :=
  let s := match e.net with
    | some n => lockNet s n
    | none => s
  let heard := e.refFreq != 0
  let f := if heard then e.refFreq else nominal s
  let ok := heard && refOk s e.refFreq
  let st := if e.locked && ok then 1 else if steers s then 4 else 3
  let p := { s.phc with st := st, run := true, freq := f, refFreq := e.refFreq, goodFreq := f, cycle := 0 }
  let p := { p with refValid := ok, refSrc := if ok then refSource s else 3 }
  let p := { p with slew := st != 1 && f != nominal s, flags := flagsOf st 0 }
  let s := raisePhc { s with phc := p } (if ok then 9 else 1)
  if st = 1 then s else ror s oStartStatus 0x20000

/-- What the negotiation tells of a partner (R467). -/
def meetPartner (s : State) (p : PartnerEnv) (there : Nat) : State :=
  let s := meetVersion { s with twn := { s.twn with partner := there } } p.verMin p.verMax p.features
  { s with upd := { s.upd with peerRel := p.release.toNat } }

/-- The ball is taken at start-up; the lease stands at 3 until the first phase event (R464, R465, R485). -/
def takeBall (s : State) : State :=
  let s := setHold s true s.base.holdIn
  refreshPair { s with twn := { s.twn with role := 1, lease := 3, senseOpen := false } }

/-- The module stays standby. -/
def joinPair (s : State) : State := updateSync { s with twn := { s.twn with role := 2 } }

/-- Step 6: pair negotiation, over both paths (R465, R466). -/
def step6 (s : State) (partner : Option PartnerEnv) : State :=
  if !onTwin s then takeBall s
  else
    let s := sendNegotiate s 0
    match partner with
    | none => if grants s false then takeBall s else joinPair s
    | some p =>
      if p.state.val = 1 then joinPair (meetPartner { s with phc := { s.phc with cycle := p.cycle.toNat } } p 1)
      else if grants s (p.state.val == 0) then takeBall (meetPartner s p 2)
      else joinPair (meetPartner s p (if p.state.val = 0 then 1 else 2))

/-- Step 7: the restart of R149. -/
def step7 (s : State) (good : Bool) : State :=
  if isStandby s then s
  else match s.img with
    | none => s
    | some im =>
      let pol := rfld s oStartCfg 1 0
      if !good then { s with ble := { s.ble with stopCause := Config.stopDefault.toNat } }
      else if pol = 2 then { s with ble := { s.ble with stopCause := 2 } }
      else
        let warm := pol = 0 ∧ (retainFor s im).isSome = true
        rsetFld (runController s im (pol == 1)) oStartStatus 13 12 (if warm then 1 else 2)

/-- Step 8: the first phase event, at phase 0 of the cycle (R98, R101); HW clears, and STOP where the controller runs or the module is standby (R205). -/
def step8 (s : State) (cause : Nat) : State :=
  let s := allDrop { s with phc := { s.phc with fire := true } } 4
  let s := followStop s
  let s := rsetFld (rsetFld s oStartStatus 3 0 9) oStartStatus 11 8 cause
  periodicEvent (takeCapture (rsetFld s oStartStatus 15 14 (if onTwin s then s.twn.role else 0)))

/-- The start-up steps on a module whose clocks are good. -/
def startSteps (s : State) (e : StartEnv) (cause : Nat) : State :=
  let s := dropVolatile s
  if !e.pufGood then haltStart s cause 2 1
  else
    let s := step1 s e
    match firmwareStart s e.copyBad e.fw0Bad e.fw1Bad with
    | none => haltStart s cause 3 2
    | some (s, area) =>
      let good := area && e.settingsGood
      let s := step3 (lockSat s) e good cause
      step8 (step7 (step6 (step5 (step4 s e.banksUp) e) e.partner) good) cause

/-- A source of bring-up that is not good: XTAL and the two PLLs (R122, R154). -/
def badSource (s : State) : Option Nat := ([0, 6, 7] : List Nat).find? (fun n => !bitOf s.clk.good n)

/-- The module is reset and can start: a logic input is good, it is seated, and no source holds it (R35, R131, R139). -/
def mayStart (s : State) : Bool :=
  (!s.clk.alive || stage s == 0) && s.clk.resetWait.isNone && seatedNow s && (s.base.la || s.base.lb)

/-- A start whose clocks do not come good is held in reset-wait with HALT_CODE 0x1; no domain has left the source it has at
reset (R124, R130, R154). -/
def startHeld (s : State) (n : Nat) : State :=
  let s := rset (dropVolatile s) oStartStatus (w32 (0x1F + 256 * s.clk.startCause))
  let c := { s.clk with resetWait := some n, startCause := 2, src := [1, 1, 1, 3], target := [1, 1, 1, 3] }
  rset { s with clk := c } oSrcSel 0xD5

/-- START_UP (R147). -/
def execStartUp (env : StartEnv) (s : State) : Host.Outcome State Fault Refusal :=
  done s (
    if !mayStart s then s
    else match badSource s with
      | some n => startHeld s n
      | none => startSteps s env s.clk.startCause)

end Sys2Proof.Machine
end

