-- ==== Sys2Proof/Machine/Dispatch.lean ====
section
/-! DEFINITION. The effect of every command, one arm each. -/

namespace Sys2Proof.Machine

/-- A command's effect on everything but the queue. -/
def exec (i : Instr) (s : State) : Host.Outcome State Fault Refusal :=
  match i with
  | .registerWrite tgt off width value => Sys2Proof.Machine.execRegisterWrite tgt off width value s
  | .latchedRead tgt off width => Sys2Proof.Machine.execLatchedRead tgt off width s
  | .seatingRecognised => Sys2Proof.Machine.execSeatingRecognised s
  | .seatLoss => Sys2Proof.Machine.execSeatLoss s
  | .slotCodeChange code => Sys2Proof.Machine.execSlotCodeChange code s
  | .logicInputGood b => Sys2Proof.Machine.execLogicInputGood b s
  | .logicInputLost b => Sys2Proof.Machine.execLogicInputLost b s
  | .peerSeatChg present => Sys2Proof.Machine.execPeerSeatChg present s
  | .cartChg present => Sys2Proof.Machine.execCartChg present s
  | .thermalUpdate temp diss => Sys2Proof.Machine.execThermalUpdate temp diss s
  | .referenceMarker freq frac since sub => Sys2Proof.Machine.execReferenceMarker freq frac since sub s
  | .cycleBoundary => Sys2Proof.Machine.execCycleBoundary s
  | .missingMarker => Sys2Proof.Machine.execMissingMarker s
  | .holdoverTimeout => Sys2Proof.Machine.execHoldoverTimeout s
  | .stepCycleEnd marker => Sys2Proof.Machine.execStepCycleEnd marker s
  | .bankConvert entry => Sys2Proof.Machine.execBankConvert entry s
  | .lcePass entry ecc => Sys2Proof.Machine.execLcePass entry ecc s
  | .waitingPassStart => Sys2Proof.Machine.execWaitingPassStart s
  | .bleTask entry executed ecc => Sys2Proof.Machine.execBleTask entry executed ecc s
  | .taskCycleResume => Sys2Proof.Machine.execTaskCycleResume s
  | .taskCycleCommit time => Sys2Proof.Machine.execTaskCycleCommit time s
  | .zcOutput entry ok again => Sys2Proof.Machine.execZcOutput entry ok again s
  | .zcSwitch bank => Sys2Proof.Machine.execZcSwitch bank s
  | .mtrClose entry => Sys2Proof.Machine.execMtrClose entry s
  | .twnSample entry => Sys2Proof.Machine.execTwnSample entry s
  | .defaultSample => Sys2Proof.Machine.execDefaultSample s
  | .hostEvent entry => Sys2Proof.Machine.execHostEvent entry s
  | .phcCommit value => Sys2Proof.Machine.execPhcCommit value s
  | .phcCommitPoint => Sys2Proof.Machine.execPhcCommitPoint s
  | .timedActionFire ring => Sys2Proof.Machine.execTimedActionFire ring s
  | .clockSourceSwitch value => Sys2Proof.Machine.execClockSourceSwitch value s
  | .switchComplete dom => Sys2Proof.Machine.execSwitchComplete dom s
  | .forcedSwitch dom => Sys2Proof.Machine.execForcedSwitch dom s
  | .sourceFail src => Sys2Proof.Machine.execSourceFail src s
  | .resetWaitExit => Sys2Proof.Machine.execResetWaitExit s
  | .gateClose bit idle => Sys2Proof.Machine.execGateClose bit idle s
  | .gateCloseTimeout bit => Sys2Proof.Machine.execGateCloseTimeout bit s
  | .gateOpen bit => Sys2Proof.Machine.execGateOpen bit s
  | .sleepWake bit => Sys2Proof.Machine.execSleepWake bit s
  | .fmStart value => Sys2Proof.Machine.execFmStart value s
  | .fmDone count => Sys2Proof.Machine.execFmDone count s
  | .powerFailWarning => Sys2Proof.Machine.execPowerFailWarning s
  | .powerFailRestart => Sys2Proof.Machine.execPowerFailRestart s
  | .holdupEnd backup => Sys2Proof.Machine.execHoldupEnd backup s
  | .startUp env => Sys2Proof.Machine.execStartUp env s
  | .pePerst => Sys2Proof.Machine.execPePerst s
  | .supWdogExpiry => Sys2Proof.Machine.execSupWdogExpiry s
  | .bankLinkKeepalive bank ok => Sys2Proof.Machine.execBankLinkKeepalive bank ok s
  | .readingFrame bank ok raw => Sys2Proof.Machine.execReadingFrame bank ok raw s
  | .diagnosticFrame bank ok temp volt curr meas => Sys2Proof.Machine.execDiagnosticFrame bank ok temp volt curr meas s
  | .keepAliveFrame bank toBank ok => Sys2Proof.Machine.execKeepAliveFrame bank toBank ok s
  | .outputFrame bank ok poisoned => Sys2Proof.Machine.execOutputFrame bank ok poisoned s
  | .configurationFrame bank ok => Sys2Proof.Machine.execConfigurationFrame bank ok s
  | .linkDown bank => Sys2Proof.Machine.execLinkDown bank s
  | .bnkCommit bank value => Sys2Proof.Machine.execBnkCommit bank value s
  | .bankCommitPoint bank => Sys2Proof.Machine.execBankCommitPoint bank s
  | .pwmPeriodStart ch => Sys2Proof.Machine.execPwmPeriodStart ch s
  | .shortShutdown ch => Sys2Proof.Machine.execShortShutdown ch s
  | .overloadShutdown ch => Sys2Proof.Machine.execOverloadShutdown ch s
  | .outputRetry ch => Sys2Proof.Machine.execOutputRetry ch s
  | .faultClear ch long => Sys2Proof.Machine.execFaultClear ch long s
  | .openWireDetect ch open_ => Sys2Proof.Machine.execOpenWireDetect ch open_ s
  | .openLoadDetect ch open_ => Sys2Proof.Machine.execOpenLoadDetect ch open_ s
  | .extDriveDetect ch drive => Sys2Proof.Machine.execExtDriveDetect ch drive s
  | .loadShed bank ch => Sys2Proof.Machine.execLoadShed bank ch s
  | .fieldSupplyLost bank => Sys2Proof.Machine.execFieldSupplyLost bank s
  | .fieldSupplyGood bank => Sys2Proof.Machine.execFieldSupplyGood bank s
  | .bankControllerReset bank => Sys2Proof.Machine.execBankControllerReset bank s
  | .bankStart bank => Sys2Proof.Machine.execBankStart bank s
  | .bankOvertemp bank => Sys2Proof.Machine.execBankOvertemp bank s
  | .overtempClearable bank => Sys2Proof.Machine.execOvertempClearable bank s
  | .bnkSafeCmd bank value => Sys2Proof.Machine.execBnkSafeCmd bank value s
  | .bnkRelease bank value => Sys2Proof.Machine.execBnkRelease bank value s
  | .bankWatchdogExpiry bank => Sys2Proof.Machine.execBankWatchdogExpiry bank s
  | .diagLatchReport ch => Sys2Proof.Machine.execDiagLatchReport ch s
  | .complianceChange ch short => Sys2Proof.Machine.execComplianceChange ch short s
  | .voltageOutputShort ch short => Sys2Proof.Machine.execVoltageOutputShort ch short s
  | .inputSample ch mv => Sys2Proof.Machine.execInputSample ch mv s
  | .countPathSample ch mv => Sys2Proof.Machine.execCountPathSample ch mv s
  | .currentOutputOpen ch open_ => Sys2Proof.Machine.execCurrentOutputOpen ch open_ s
  | .holdupFull => Sys2Proof.Machine.execHoldupFull s
  | .sourceGood src => Sys2Proof.Machine.execSourceGood src s
  | .pePerstRelease => Sys2Proof.Machine.execPePerstRelease s
  | .lceCommit value => Sys2Proof.Machine.execLceCommit value s
  | .lceBuildComplete => Sys2Proof.Machine.execLceBuildComplete s
  | .saturationSave => Sys2Proof.Machine.execSaturationSave s
  | .retainSaveDone => Sys2Proof.Machine.execRetainSaveDone s
  | .programStoreWriteDone => Sys2Proof.Machine.execProgramStoreWriteDone s
  | .onlineBuildComplete => Sys2Proof.Machine.execOnlineBuildComplete s
  | .onlineSwitch poisoned => Sys2Proof.Machine.execOnlineSwitch poisoned s
  | .noWindow => Sys2Proof.Machine.execNoWindow s
  | .canPortEnable port value => Sys2Proof.Machine.execCanPortEnable port value s
  | .canPortDisable port value => Sys2Proof.Machine.execCanPortDisable port value s
  | .canBufferEnable port buf value => Sys2Proof.Machine.execCanBufferEnable port buf value s
  | .canMapEnable entry value => Sys2Proof.Machine.execCanMapEnable entry value s
  | .canFrameReceived port id ide fdf brs remote bytes => Sys2Proof.Machine.execCanFrameReceived port id ide fdf brs remote bytes s
  | .canTransmitEnd port buf cause => Sys2Proof.Machine.execCanTransmitEnd port buf cause s
  | .canErrorStateChange port tec rec_ => Sys2Proof.Machine.execCanErrorStateChange port tec rec_ s
  | .canRecoverCmd port => Sys2Proof.Machine.execCanRecoverCmd port s
  | .canRecovered port => Sys2Proof.Machine.execCanRecovered port s
  | .canBallTaken port => Sys2Proof.Machine.execCanBallTaken port s
  | .mappedTx port buf => Sys2Proof.Machine.execMappedTx port buf s
  | .canRxStale port buf => Sys2Proof.Machine.execCanRxStale port buf s
  | .ballRequest tie => Sys2Proof.Machine.execBallRequest tie s
  | .holdLineChange level => Sys2Proof.Machine.execHoldLineChange level s
  | .leaseExpiry => Sys2Proof.Machine.execLeaseExpiry s
  | .stateFrameRx ok seq ts half health plan final excess digest lag items => Sys2Proof.Machine.execStateFrameRx ok seq ts half health plan final excess digest lag items s
  | .rallyFrameRx ok pair health copy back digest => Sys2Proof.Machine.execRallyFrameRx ok pair health copy back digest s
  | .twinlinkCheck => Sys2Proof.Machine.execTwinlinkCheck s
  | .twinlinkLinkDown up => Sys2Proof.Machine.execTwinlinkLinkDown up s
  | .heartbeatSend => Sys2Proof.Machine.execHeartbeatSend s
  | .heartbeatRx port ok ver verMin verMax pairId slot seq negotiate role health => Sys2Proof.Machine.execHeartbeatRx port ok ver verMin verMax pairId slot seq negotiate role health s
  | .fieldlinkMiss => Sys2Proof.Machine.execFieldlinkMiss s
  | .fullCopyRequest => Sys2Proof.Machine.execFullCopyRequest s
  | .fullCopyComplete items => Sys2Proof.Machine.execFullCopyComplete items s
  | .selfTest bit found place item => Sys2Proof.Machine.execSelfTest bit found place item s
  | .plannedHandoffBoundary => Sys2Proof.Machine.execPlannedHandoffBoundary s
  | .handoffFail => Sys2Proof.Machine.execHandoffFail s
  | .takeback => Sys2Proof.Machine.execTakeback s
  | .sensePathOpen => Sys2Proof.Machine.execSensePathOpen s
  | .portLinkUp port speed => Sys2Proof.Machine.execPortLinkUp port speed s
  | .portLinkDown port => Sys2Proof.Machine.execPortLinkDown port s
  | .frameReceived port bytes fcs ingress => Sys2Proof.Machine.execFrameReceived port bytes fcs ingress s
  | .frameTransmitEnd port egress => Sys2Proof.Machine.execFrameTransmitEnd port egress s
  | .addressAgeOut mac vid => Sys2Proof.Machine.execAddressAgeOut mac vid s
  | .lpiEntry port => Sys2Proof.Machine.execLpiEntry port s
  | .speedStepDown port => Sys2Proof.Machine.execSpeedStepDown port s
  | .speedStepUp port => Sys2Proof.Machine.execSpeedStepUp port s
  | .filterApply port filter value => Sys2Proof.Machine.execFilterApply port filter value s
  | .announceRx port dom id data gm ival utc utcValid => Sys2Proof.Machine.execAnnounceRx port dom id data gm ival utc utcValid s
  | .syncRx port dom id seq twoStep t1 corr => Sys2Proof.Machine.execSyncRx port dom id seq twoStep t1 corr s
  | .followUpRx port dom id seq t1 corr => Sys2Proof.Machine.execFollowUpRx port dom id seq t1 corr s
  | .delayRespRx port dom id seq t4 corr => Sys2Proof.Machine.execDelayRespRx port dom id seq t4 corr s
  | .delayReqSend => Sys2Proof.Machine.execDelayReqSend s
  | .masterLost => Sys2Proof.Machine.execMasterLost s
  | .stationReq station => Sys2Proof.Machine.execStationReq station s
  | .stationRsp ok ver verMin verMax pairId station mac seq status words => Sys2Proof.Machine.execStationRsp ok ver verMin verMax pairId station mac seq status words s
  | .stationTimeout station => Sys2Proof.Machine.execStationTimeout station s
  | .stationEnable station value => Sys2Proof.Machine.execStationEnable station value s
  | .stepLockEnd port => Sys2Proof.Machine.execStepLockEnd port s
  | .sealChange open_ => Sys2Proof.Machine.execSealChange open_ s
  | .cartridgeRun sw slots => Sys2Proof.Machine.execCartridgeRun sw slots s
  | .cartridgeCycle m => Sys2Proof.Machine.execCartridgeCycle m s
  | .closeStrobe after => Sys2Proof.Machine.execCloseStrobe after s
  | .autoClose set => Sys2Proof.Machine.execAutoClose set s
  | .temperatureReading temp => Sys2Proof.Machine.execTemperatureReading temp s
  | .pulseOutput output on => Sys2Proof.Machine.execPulseOutput output on s
  | .periodicSave => Sys2Proof.Machine.execPeriodicSave s
  | .supplyLoss => Sys2Proof.Machine.execSupplyLoss s
  | .cartridgeSupplyDip => Sys2Proof.Machine.execCartridgeSupplyDip s
  | .readLog arg0 => Sys2Proof.Machine.execReadLog arg0 s
  | .readInterval arg0 arg1 => Sys2Proof.Machine.execReadInterval arg0 arg1 s
  | .setTenant arg0 arg1 => Sys2Proof.Machine.execSetTenant arg0 arg1 s
  | .readParam arg0 arg1 => Sys2Proof.Machine.execReadParam arg0 arg1 s
  | .showCheck => Sys2Proof.Machine.execShowCheck s
  | .showCheckEnd => Sys2Proof.Machine.execShowCheckEnd s
  | .paramStage arg0 arg1 => Sys2Proof.Machine.execParamStage arg0 arg1 s
  | .paramCommit arg0 => Sys2Proof.Machine.execParamCommit arg0 s
  | .paramDiscard arg0 => Sys2Proof.Machine.execParamDiscard arg0 s
  | .setMeterId => Sys2Proof.Machine.execSetMeterId s
  | .doorCommandDone secure => Sys2Proof.Machine.execDoorCommandDone secure s
  | .rtcHalt reload => Sys2Proof.Machine.execRtcHalt reload s
  | .rtcResume reload => Sys2Proof.Machine.execRtcResume reload s
  | .rtcResumeAdd reload => Sys2Proof.Machine.execRtcResumeAdd reload s
  | .rtcCountWrite count => Sys2Proof.Machine.execRtcCountWrite count s
  | .rtcCdWrite value => Sys2Proof.Machine.execRtcCdWrite value s
  | .cdExpired => Sys2Proof.Machine.execCdExpired s
  | .oscStop => Sys2Proof.Machine.execOscStop s
  | .retentionLost => Sys2Proof.Machine.execRetentionLost s
  | .batteryMeasure hourly => Sys2Proof.Machine.execBatteryMeasure hourly s
  | .batteryMeasureDone volt => Sys2Proof.Machine.execBatteryMeasureDone volt s
  | .optimeSave => Sys2Proof.Machine.execOptimeSave s
  | .recordWrite => Sys2Proof.Machine.execRecordWrite s
  | .recordDrop => Sys2Proof.Machine.execRecordDrop s
  | .rngVerHost value => Sys2Proof.Machine.execRngVerHost value s
  | .ringEnable ring value => Sys2Proof.Machine.execRingEnable ring value s
  | .ringDisable ring value => Sys2Proof.Machine.execRingDisable ring value s
  | .sqTail ring value => Sys2Proof.Machine.execSqTail ring value s
  | .cqHead ring value => Sys2Proof.Machine.execCqHead ring value s
  | .descriptorFetch ring words payload => Sys2Proof.Machine.execDescriptorFetch ring words payload s
  | .descriptorCommit ring hop => Sys2Proof.Machine.execDescriptorCommit ring hop s
  | .dmaTimeout ring words => Sys2Proof.Machine.execDmaTimeout ring words s
  | .interruptTimer ring => Sys2Proof.Machine.execInterruptTimer ring s
  | .functionLevelReset => Sys2Proof.Machine.execFunctionLevelReset s
  | .busMasterDisable => Sys2Proof.Machine.execBusMasterDisable s
  | .eventLost ring => Sys2Proof.Machine.execEventLost ring s
  | .watchReport point part => Sys2Proof.Machine.execWatchReport point part s
  | .nop ring d => Sys2Proof.Machine.execNop ring d s
  | .fence ring d => Sys2Proof.Machine.execFence ring d s
  | .resume ring d => Sys2Proof.Machine.execResume ring d s
  | .ptRead ring d => Sys2Proof.Machine.execPtRead ring d s
  | .ptWrite ring d => Sys2Proof.Machine.execPtWrite ring d s
  | .ptWatchAdd ring d => Sys2Proof.Machine.execPtWatchAdd ring d s
  | .ptWatchRemove ring d => Sys2Proof.Machine.execPtWatchRemove ring d s
  | .rioRead ring d => Sys2Proof.Machine.execRioRead ring d s
  | .rioWrite ring d => Sys2Proof.Machine.execRioWrite ring d s
  | .cfgWrite ring d => Sys2Proof.Machine.execCfgWrite ring d s
  | .cfgRead ring d => Sys2Proof.Machine.execCfgRead ring d s
  | .ctrlStop ring d => Sys2Proof.Machine.execCtrlStop ring d s
  | .ctrlRestart ring d => Sys2Proof.Machine.execCtrlRestart ring d s
  | .ctrlRestartCold ring d => Sys2Proof.Machine.execCtrlRestartCold ring d s
  | .ctrlTaskStart ring d => Sys2Proof.Machine.execCtrlTaskStart ring d s
  | .ctrlReset ring d => Sys2Proof.Machine.execCtrlReset ring d s
  | .imgLoad ring d => Sys2Proof.Machine.execImgLoad ring d s
  | .imgActivate ring d => Sys2Proof.Machine.execImgActivate ring d s
  | .imgCancel ring d => Sys2Proof.Machine.execImgCancel ring d s
  | .instRead ring d => Sys2Proof.Machine.execInstRead ring d s
  | .instWrite ring d => Sys2Proof.Machine.execInstWrite ring d s
  | .forceSet ring d => Sys2Proof.Machine.execForceSet ring d s
  | .forceRelease ring d => Sys2Proof.Machine.execForceRelease ring d s
  | .forceList ring d => Sys2Proof.Machine.execForceList ring d s
  | .timed ring d => Sys2Proof.Machine.execTimed ring d s
  | .handoffReq ring d => Sys2Proof.Machine.execHandoffReq ring d s
  | .mtrReadSet ring d => Sys2Proof.Machine.execMtrReadSet ring d s
  | .mtrReadInterval ring d => Sys2Proof.Machine.execMtrReadInterval ring d s
  | .mtrReadLog ring d => Sys2Proof.Machine.execMtrReadLog ring d s
  | .mtrReadParam ring d => Sys2Proof.Machine.execMtrReadParam ring d s
  | .mtrSetTenant ring d => Sys2Proof.Machine.execMtrSetTenant ring d s
  | .recRead ring d => Sys2Proof.Machine.execRecRead ring d s
  | .keyGen ring d => Sys2Proof.Machine.execKeyGen ring d s
  | .keyDerive ring d => Sys2Proof.Machine.execKeyDerive ring d s
  | .keyInvalidate ring d => Sys2Proof.Machine.execKeyInvalidate ring d s
  | .keyAttest ring d => Sys2Proof.Machine.execKeyAttest ring d s
  | .keyEnrol ring d => Sys2Proof.Machine.execKeyEnrol ring d s
  | .aeadEncrypt ring d => Sys2Proof.Machine.execAeadEncrypt ring d s
  | .aeadDecrypt ring d => Sys2Proof.Machine.execAeadDecrypt ring d s
  | .sign ring d => Sys2Proof.Machine.execSign ring d s
  | .keyInfo ring d => Sys2Proof.Machine.execKeyInfo ring d s
  | .canTx ring d => Sys2Proof.Machine.execCanTx ring d s
  | .canRx ring d => Sys2Proof.Machine.execCanRx ring d s
  | .canRecover ring d => Sys2Proof.Machine.execCanRecover ring d s
  | .ethTx ring d => Sys2Proof.Machine.execEthTx ring d s
  | .ethRxPost ring d => Sys2Proof.Machine.execEthRxPost ring d s
  | .updChunk ring d => Sys2Proof.Machine.execUpdChunk ring d s
  | .updStatus ring d => Sys2Proof.Machine.execUpdStatus ring d s
  | .updConfirm ring d => Sys2Proof.Machine.execUpdConfirm ring d s
  | .updAbort ring d => Sys2Proof.Machine.execUpdAbort ring d s
  | .glbPartCommit value => Sys2Proof.Machine.execGlbPartCommit value s
  | .lcRequest value => Sys2Proof.Machine.execLcRequest value s
  | .remask => Sys2Proof.Machine.execRemask s
  | .entropyFail => Sys2Proof.Machine.execEntropyFail s
  | .entropyRecover => Sys2Proof.Machine.execEntropyRecover s
  | .updFrag ok dst src idx count frag len data => Sys2Proof.Machine.execUpdFrag ok dst src idx count frag len data s
  | .updReport => Sys2Proof.Machine.execUpdReport s
  | .updateVerifyDone => Sys2Proof.Machine.execUpdateVerifyDone s
  | .install aloneOk => Sys2Proof.Machine.execInstall aloneOk s
  | .fallback => Sys2Proof.Machine.execFallback s
  | .cartInstall => Sys2Proof.Machine.execCartInstall s
  | .cartSoftwareDone ok sw => Sys2Proof.Machine.execCartSoftwareDone ok sw s
  | .trialTimeExpiry => Sys2Proof.Machine.execTrialTimeExpiry s
  | .fallbackHandoffRetry => Sys2Proof.Machine.execFallbackHandoffRetry s

end Sys2Proof.Machine
end

