-- ==== Sys2Proof/Safety.lean ====
section
/-! DEFINITION. What counts as a safe state of the module: the hold line under its hardware gating, the only thing that
decides which module drives the field; and the terms in which statements say what a command leaves alone. -/

namespace Sys2Proof

open Machine

/-- HOLD_OUT is asserted only on a seated, running module that is neither halted nor held in reset-wait, and never while
HOLD_IN is asserted (R35, R36, R130, R146, R148, R459). -/
def HoldGated (s : State) : Prop :=
  s.base.holdOut = true →
    seatedNow s = true ∧ haltedMod s = false ∧ s.clk.resetWait = none ∧ s.clk.alive = true ∧ s.base.holdIn = false

/-- A write of a register of the block of gate `bit` reaches it (R130, R136, R148). -/
def Reaches (s : State) (bit : Nat) : Prop :=
  s.clk.alive = true ∧ s.clk.resetWait = none ∧ haltedMod s = false ∧ blockUp s bit = true

/-- Where a marker lies that arrives now: the boundary it belongs to, as one more than its cycle number, and its distance from it in
1/16 phase unit (R74, R76, R91, R97). -/
def markerSeen (s : State) (frac : Fin 16) (since : Nat) (sub : Fin 16) : Nat × Int :=
  markerPlace s ((s.phc.phase * 16 + frac.val : Nat) + markerShift s (refSource s) - (16 * since + sub.val : Nat))

/-- The pass or the task that a schedule entry names (R105). -/
def entryArg (s : State) (n : Nat) : Nat := fld (schedWord s.live n 2) 3 0

/-! ### What a command leaves alone -/

/-- A piece of the state: one field each, the base split into the hold line the module drives and the rest. -/
inductive Piece where
  | regs | live | latch | lowHeld | pts | base | hold | phc | clk | banks | ch | rings | evq
  | recq | recSlots | recNext | recLost | recLostCls | watches | rtc | msix | msixPend | busMaster | memEnable
  | forces | img | up | ptp | eth | can | mtr | lce | ble | twn | sec | upd | free | out
  deriving DecidableEq, Repr

/-- The base apart from the hold line the module drives. -/
def baseRest (s : State) : Base := { s.base with holdOut := false }

/-- The events waiting to be written that no watch has raised: a watch's report follows any command (R530). -/
def ownEvents (s : State) : List Ev := s.evq.filter (fun e => e.code != 5)

/-- The watches as they were set up, apart from what each has reported last (R530). -/
def watchSetups (s : State) : List (Nat × Nat × Word × Nat) := s.watches.map (fun w => (w.point, w.part, w.deadband, w.minMs))

/-- The conditions under which hardware lets HOLD_OUT stand (R35, R36, R130, R146, R148, R459). -/
def holdMay (s : State) : Bool :=
  seatedNow s && !haltedMod s && s.clk.resetWait.isNone && s.clk.alive && !s.base.holdIn

/-- A command that took `s` to `t` left a piece of the state alone: what it held is what it holds. HOLD_OUT falls where
hardware no longer lets it stand; the event queue and the watches move only by the watches' own reports. -/
def Piece.same (p : Piece) (s t : State) : Prop :=
  match p with
  | .regs => t.regs = s.regs
  | .live => t.live = s.live
  | .latch => t.latch = s.latch
  | .lowHeld => t.lowHeld = s.lowHeld
  | .pts => t.pts = s.pts
  | .base => baseRest t = baseRest s
  | .hold => t.base.holdOut = (s.base.holdOut && holdMay t)
  | .phc => t.phc = s.phc
  | .clk => t.clk = s.clk
  | .banks => t.banks = s.banks
  | .ch => t.ch = s.ch
  | .rings => t.rings = s.rings
  | .evq => ownEvents t = ownEvents s
  | .recq => t.recq = s.recq
  | .recSlots => t.recSlots = s.recSlots
  | .recNext => t.recNext = s.recNext
  | .recLost => t.recLost = s.recLost
  | .recLostCls => t.recLostCls = s.recLostCls
  | .watches => watchSetups t = watchSetups s
  | .rtc => t.rtc = s.rtc
  | .msix => t.msix = s.msix
  | .msixPend => t.msixPend = s.msixPend
  | .busMaster => t.busMaster = s.busMaster
  | .memEnable => t.memEnable = s.memEnable
  | .forces => t.forces = s.forces
  | .img => t.img = s.img
  | .up => t.up = s.up
  | .ptp => t.ptp = s.ptp
  | .eth => t.eth = s.eth
  | .can => t.can = s.can
  | .mtr => t.mtr = s.mtr
  | .lce => t.lce = s.lce
  | .ble => t.ble = s.ble
  | .twn => t.twn = s.twn
  | .sec => t.sec = s.sec
  | .upd => t.upd = s.upd
  | .free => t.free = s.free
  | .out => t.out = s.out

/-- From `s` to `t` nothing changed but the pieces listed, and the queue of commands stands. -/
def Frame (may : List Piece) (s t : State) : Prop := t.pending = s.pending ∧ ∀ p, p ∉ may → p.same s t

/-- Of the registers of BAR0 only those listed changed. -/
def RegsOnly (l : List Nat) (s t : State) : Prop := ∀ o, o ∉ l → rget t o = rget s o

/-- Of the channels only those listed changed. -/
def ChansOnly (l : List Nat) (s t : State) : Prop := ∀ c, c ∉ l → chan t c = chan s c

/-- Of the banks only those listed changed. -/
def BanksOnly (l : List Nat) (s t : State) : Prop := ∀ b, b ∉ l → bank t b = bank s b

/-- Of the ring pairs only those listed changed. -/
def RingsOnly (l : List Nat) (s t : State) : Prop := ∀ n, n ∉ l → ring t n = ring s n

/-- A REG_EVENT of these bits of a latched register waits to be written to the host (R552). -/
def Noted (off : Nat) (bits : Word) (t : State) : Prop :=
  ∃ e ∈ t.evq, e.code = 1 ∧ e.toHost = true ∧ wAt e.body 0 = w32 off ∧ wAt e.body 1 &&& bits = bits

/-- Bit `i` of a latched event register is set; where it was not, its REG_EVENT waits for the host (R15, R552). -/
def Raised (off i : Nat) (s t : State) : Prop :=
  rget t off = rget s off ||| oneBit i ∧ (bitOf (rget s off) i = false → Noted off (oneBit i) t)

/-- Bit `i` of PHC_EVENT is set; where it was not, its time event waits for the host and the recorder (R100, R552). -/
def PhcRaised (i : Nat) (s t : State) : Prop :=
  rget t oPhcEvent = rget s oPhcEvent ||| oneBit i ∧
  (bitOf (rget s oPhcEvent) i = false →
    ∃ e ∈ t.evq, e.code = 2 ∧ e.toHost = true ∧ e.toRec = true ∧ wAt e.body 5 = 1 ∧ wAt e.body 6 = oneBit i)

/-! ### What a descriptor's commit leaves -/

/-- Nothing stands in the way of a descriptor with an opcode on ring `n`: it may be fetched, nothing of its ring is before it, the
ring runs and expects its SEQ, its form and payload are right, and the ring may give such an operation now (R511, R514, R518, R520,
R521, R522, R525, R557). -/
def Ready (s : State) (n op : Nat) (d : Desc) : Prop :=
  canFetch s n = true ∧ (ring s n).flight = [] ∧ (ring s n).halted = false ∧ (ring s n).dupLeft = 0 ∧ d.seq = (ring s n).seq ∧
  opStatic (descOf op d) = none ∧ (d.flags.getLsbD 0 = true → 4 * (d.payload.length + 1) = d.len.toNat) ∧
  (ownerOnly op = true → ringPart s n = 0) ∧ (changesState op = true → onTwin s = true → s.base.holdOut = true)

/-- The completion of a ready descriptor is written and its ring has nothing in flight: COMMITTED follows an OK, a failing status
halts the ring (R523, R524, R525, R572, R573). -/
def Completed (s : State) (n op : Nat) (d : Desc) (status : Nat) (r0 r1 detail : Word) (t : State) : Prop :=
  Out.completion n (ring s n).cqTail (withCrc [d.seq, w32 (status + (op <<< 16) + ((ring s n).phase.toNat <<< 31)), r0, r1, detail,
    w32 (nowTs s), w32 (nowTs s >>> 32)]) ∈ t.out ∧
  (ring t n).flight = [] ∧ (ring t n).done = (ring s n).done + 1 ∧ (ring t n).halted = decide (2 < status) ∧
  (ring t n).committed = (if status = 0 then d.seq else (ring s n).committed)

/-- A ready descriptor completes OK, its output payload and its CRC written to the address it gives (R520, R523). -/
def Returned (s : State) (n op : Nat) (d : Desc) (data : List Word) (r0 r1 : Word) (t : State) : Prop :=
  Out.payload n d.addr.toNat (withCrc data) ∈ t.out ∧ Completed s n op d 0 r0 r1 (w32 (4 * (data.length + 1))) t

/-- What a fence of ring `n` has to wait for: the rings its mask names, with the descriptors and the enabling its doorbell covers
(R565). -/
def fenceSees (s : State) (n : Nat) (d : Desc) : List (Nat × Nat × Nat) :=
  ((((ring s n).covers.find? (fun c => decide ((ring s n).fetched < c.upto))).map Covers.snap).getD []).filter (fun e =>
    e.1 != n && ((wAt d.par 0).toNat + (wAt d.par 1).toNat * 2 ^ 32).testBit e.1)

/-- Word `i` of a list of values an operation writes: after its first `used` PARAM words while they fit, in its payload beyond
(R528, R529). -/
def dataWord (d : Desc) (used count i : Nat) : Word := if used + count ≤ 8 then wAt d.par (used + i) else wAt d.payload i

/-- A ready descriptor has begun and waits at the front of its ring for what completes it (R556, R559). -/
def Waits (s : State) (n : Nat) (t : State) : Prop :=
  (ring t n).flight.length = 1 ∧ (∀ f ∈ (ring t n).flight, f.waiting = true) ∧ (ring t n).done = (ring s n).done

end Sys2Proof
end

