-- ==== Sys2Proof/Certificates/Slice0/Obligations.lean ====
section
/-! DEFINITION. The statements for the provers. Each effect statement says, per command, the conditions under which it has its own
effect, that it then answers a next state, what that state holds,
  and what it leaves alone (`Frame`: the pieces of the state that may
differ). -/

section

open Sys2Proof Sys2Proof.Machine

/-- Seating and its loss (R29, R34 to R36, R38, R47): recognised seating is noted; a slot code that changes while the module is not
seated is taken, and off a twin base HOLD_IN reads low; at a loss of seating, and when the slot code of a seated module changes, the
module lets HOLD_OUT fall, every bank is safe with cause HW, the program stops and the module is held in reset. -/
def Obligations.SeatingCommandsEffects : Prop :=
  ∀ s : State,
    (∃ t, exec .seatingRecognised s = .next t ∧ Frame [.base] s t ∧
      baseRest t = { baseRest s with seatLow := true, seated := true }) ∧
    (∃ t, exec .seatLoss s = .next t ∧ Frame [.regs, .pts, .base, .hold, .phc, .clk, .banks, .ch, .rings, .evq, .recq,
      .recLost, .recLostCls, .msixPend, .can, .lce, .ble, .twn, .out] s t ∧
      baseRest t = { baseRest s with seatLow := false, seated := false } ∧ t.base.holdOut = false ∧ t.clk.alive = false ∧
      t.clk.startCause = 3 ∧ t.ble.running = false ∧ ∀ b, b < 12 → (bank t b).safe = true ∧ bitOf (bank t b).causes 4 = true) ∧
    (∀ c : Fin 4, c.val ≠ s.base.slot → seatedNow s = false → ∃ t, exec (.slotCodeChange c) s = .next t ∧
      Frame [.regs, .pts, .base, .hold, .banks, .ch, .evq, .can, .ble] s t ∧ t.base.slot = c.val ∧
        t.base.seated = s.base.seated ∧ t.clk = s.clk ∧
      t.base.holdIn = (s.base.holdIn && (c == 1 || c == 2))) ∧
    (∀ c : Fin 4, c.val ≠ s.base.slot → seatedNow s = true → ∃ t, exec (.slotCodeChange c) s = .next t ∧
      Frame [.regs, .pts, .base, .hold, .phc, .clk, .banks, .ch, .rings, .evq, .recq, .recLost, .recLostCls, .msixPend, .can,
        .lce, .ble, .twn, .out] s t ∧ t.base.slot = c.val ∧ t.base.seated = false ∧ t.base.holdOut = false ∧
      t.base.holdIn = (s.base.holdIn && (c == 1 || c == 2)) ∧ t.clk.alive = false ∧ t.clk.startCause = 3 ∧
      t.ble.running = false ∧ ∀ b, b < 12 → (bank t b).safe = true ∧ bitOf (bank t b).causes 4 = true)

/-- The inputs of the terminal base (R47, R73, R76, R142, R143): a partner seated or unseated and a cartridge placed or removed are
taken and raise BASE_EVENT; a cartridge removed stops measuring and leaves the phase clock without a reference; a logic input
that comes good ends a dip, one that is lost raises BASE_EVENT; the storage becomes full. The temperature and the dissipation are
taken, and the warning comes at 105 °C and goes below 100 °C (R72); that FIELD_DISS comes with the command is the model's choice
(log 149). -/
def Obligations.BaseInputEffects : Prop :=
  ∀ s : State,
    (∀ p, s.base.peer ≠ p → ∃ t, exec (.peerSeatChg p) s = .next t ∧ Frame [.regs, .base, .evq] s t ∧
      baseRest t = { baseRest s with peer := p } ∧ RegsOnly [oBaseEvent] s t ∧ Raised oBaseEvent 2 s t) ∧
    (s.base.cart = false → ∃ t, exec (.cartChg true) s = .next t ∧ Frame [.regs, .pts, .base, .phc, .evq, .can, .mtr, .ble,
      .out] s t ∧ Raised oBaseEvent 4 s t ∧
      baseRest t = { baseRest s with cart := true } ∧ RegsOnly [oBaseEvent] s t) ∧
    (s.base.cart = true → ∃ t, exec (.cartChg false) s = .next t ∧ Frame [.regs, .pts, .base, .phc, .evq, .can, .mtr, .ble,
      .out] s t ∧ t.base.cart = false ∧
      Raised oBaseEvent 4 s t ∧ t.mtr.running = false ∧ t.phc.refValid = false ∧ t.phc.refSrc = 3) ∧
    (∀ temp diss : BitVec 12, 840 ≤ signedOf 12 temp.toNat → ∃ t, exec (.thermalUpdate temp diss) s = .next t ∧
      Frame [.regs, .base, .evq] s t ∧ RegsOnly [oBaseEvent] s t ∧
      baseRest t = { baseRest s with intTemp := temp.toNat, fieldDiss := diss.toNat, thermWarn := true } ∧
      (s.base.thermWarn = false → Raised oBaseEvent 3 s t)) ∧
    (∀ temp diss : BitVec 12, signedOf 12 temp.toNat < 800 → ∃ t, exec (.thermalUpdate temp diss) s = .next t ∧ Frame [.base] s t ∧
      baseRest t = { baseRest s with intTemp := temp.toNat, fieldDiss := diss.toNat, thermWarn := false }) ∧
    (∀ temp diss : BitVec 12, 800 ≤ signedOf 12 temp.toNat → signedOf 12 temp.toNat < 840 → ∃ t,
      exec (.thermalUpdate temp diss) s = .next t ∧
      Frame [.base] s t ∧ baseRest t = { baseRest s with intTemp := temp.toNat, fieldDiss := diss.toNat }) ∧
    (∀ b, ∃ t, exec (.logicInputGood b) s = .next t ∧ Frame [.regs, .base, .evq] s t ∧ RegsOnly [oPwrEvent] s t ∧
      baseRest t = { baseRest s with la := s.base.la || !b, lb := s.base.lb || b } ∧
      (s.base.la = false → s.base.lb = false → s.clk.alive = true → s.clk.warned = false → Raised oPwrEvent 1 s t)) ∧
    (∀ b, (if b then s.base.lb else s.base.la) = true → ∃ t, exec (.logicInputLost b) s = .next t ∧
      Frame [.regs, .base, .evq] s t ∧ baseRest t = { baseRest s with la := s.base.la && b, lb := s.base.lb && !b } ∧
      RegsOnly [oPwrStatus, oBaseEvent] s t ∧ Raised oBaseEvent b.toNat s t ∧
      rget t oPwrStatus = (if (if b then s.base.la else s.base.lb) then rget s oPwrStatus else rget s oPwrStatus &&& ~~~ (oneBit 1))) ∧
    (s.base.la = true ∨ s.base.lb = true → ∃ t, exec .holdupFull s = .next t ∧ Frame [.regs] s t ∧
      RegsOnly [oPwrStatus] s t ∧ rget t oPwrStatus = rget s oPwrStatus ||| oneBit 1)

/-- Clock-source commands (R125 to R131): a write of CLK_SRC_SEL that changes one domain's code to a source that is good begins its
switch, and one made while that domain switches sets REJECT. A switch that completes reports the domain with three old cycles and
five new ones, a forced one with fifteen and fifteen, its FORCED bit and its recorder event. A failed source is noted; where it
feeds CORE, FABRIC or IO, HOLD_OUT falls, every bank is safe with cause HW and the module waits in reset-wait for that source. A
source that comes good is noted, with the time at which the one waited for did; ten milliseconds later reset-wait ends. -/
def Obligations.ClockSourceCommandsEffects : Prop :=
  ∀ s : State,
    (∀ (d : Fin 4) (v : Word), Reaches s 0 →
      (∀ e : Fin 4, e ≠ d → fld v (2 * e.val + 1) (2 * e.val) = rfld s oSrcSel (2 * e.val + 1) (2 * e.val)) →
      fld v (2 * d.val + 1) (2 * d.val) ≠ rfld s oSrcSel (2 * d.val + 1) (2 * d.val) → switching s d.val = false →
      (clkSource d.val (fld v (2 * d.val + 1) (2 * d.val))).elim (d == 3) (usable s) = true →
      ∃ t, exec (.clockSourceSwitch v) s = .next t ∧ Frame [.regs, .clk] s t ∧ RegsOnly [oSrcSel, oSwStatus] s t ∧
        rget t oSrcSel = setFld (rget s oSrcSel) (2 * d.val + 1) (2 * d.val) (fld v (2 * d.val + 1) (2 * d.val)) ∧
        rget t oSwStatus = rget s oSwStatus ||| oneBit d.val ∧
        t.clk = { s.clk with target := setNth s.clk.target d.val (fld v (2 * d.val + 1) (2 * d.val)) }) ∧
    (∀ (d : Fin 4) (v : Word), Reaches s 0 →
      (∀ e : Fin 4, e ≠ d → fld v (2 * e.val + 1) (2 * e.val) = rfld s oSrcSel (2 * e.val + 1) (2 * e.val)) →
      fld v (2 * d.val + 1) (2 * d.val) ≠ rfld s oSrcSel (2 * d.val + 1) (2 * d.val) → switching s d.val = true →
      ∃ t, exec (.clockSourceSwitch v) s = .next t ∧ Frame [.regs] s t ∧ RegsOnly [oSwStatus] s t ∧
        rget t oSwStatus = rget s oSwStatus ||| oneBit 18) ∧
    (∀ d : Fin 4, switching s d.val = true → ∃ t, exec (.switchComplete d) s = .next t ∧ Frame [.regs, .phc, .clk, .rings,
      .evq, .msixPend, .ptp, .out] s t ∧
      rget t oSwStatus = setFld (rget s oSwStatus &&& ~~~ (oneBit d.val)) 17 8 (3 + 16 * 5 + 256 * d.val) ∧
      t.clk = { s.clk with src := setNth s.clk.src d.val (nAt s.clk.target d.val) }) ∧
    (∀ d : Fin 4, switching s d.val = true → ∃ t, exec (.forcedSwitch d) s = .next t ∧ Frame [.regs, .phc, .clk, .rings, .evq,
      .msixPend, .ptp, .out] s t ∧
      rget t oSwStatus =
        setFld (rget s oSwStatus &&& ~~~ (oneBit d.val)) 17 8 (15 + 16 * 15 + 256 * d.val) ||| oneBit (4 + d.val) ∧
      t.clk = { s.clk with src := setNth s.clk.src d.val (nAt s.clk.target d.val) } ∧
      ∃ e ∈ t.evq, e.code = 0x103 ∧ e.toRec = true ∧ e.body = [w32 d.val, w32 (nAt s.clk.src d.val), w32 (nAt t.clk.src d.val)]) ∧
    (∀ n : Fin 9, bitOf s.clk.good n.val = true → monitored s n.val = true → feedsCore s n.val = true →
      ∃ t, exec (.sourceFail n) s = .next t ∧ Frame [.regs, .pts, .hold, .phc, .clk, .banks, .ch, .rings, .evq, .recq,
        .recLost, .recLostCls, .rtc, .msixPend, .ptp, .eth, .can, .lce, .ble, .twn, .out] s t ∧
        t.clk.good = s.clk.good &&& ~~~ (oneBit n.val) ∧
        t.base.holdOut = false ∧ t.clk.resetWait = some n.val ∧ t.clk.alive = true ∧ t.clk.startCause = 2 ∧
        t.ble.running = false ∧ ∀ b, b < 12 → (bank t b).safe = true ∧ bitOf (bank t b).causes 4 = true) ∧
    (∀ n : Fin 9, bitOf s.clk.good n.val = true → monitored s n.val = true → feedsCore s n.val = false → n.val ≠ 2 → n.val ≠ 6 →
      clkSource 3 (nAt s.clk.src 3) ≠ some n.val → ∃ t, exec (.sourceFail n) s = .next t ∧ Frame [.regs, .pts, .hold, .phc,
        .clk, .banks, .ch, .rings, .evq, .recq, .recLost, .recLostCls, .rtc, .msixPend, .ptp, .eth, .can, .lce, .ble, .twn,
        .out] s t ∧
        t.clk.good = s.clk.good &&& ~~~ (oneBit n.val) ∧ t.clk.src = s.clk.src ∧ t.clk.resetWait = s.clk.resetWait ∧
        RegsOnly [oClkMon, oFmLo, oFmHi, oFmCtrl] s t ∧ Raised oClkMon (16 + n.val) s t) ∧
    (∀ n : Fin 9, ∃ t, exec (.sourceGood n) s = .next t ∧ Frame [.regs, .phc, .clk, .rings, .evq, .msixPend, .ptp, .out] s t ∧
      t.clk = { s.clk with good := s.clk.good ||| oneBit n.val, macStopped := t.clk.macStopped, goodAt := t.clk.goodAt } ∧
      t.clk.macStopped = (s.clk.macStopped && n.val != 7) ∧
      t.clk.goodAt = (if s.clk.resetWait = some n.val ∧ bitOf s.clk.good n.val = false then s.up else s.clk.goodAt)) ∧
    (∀ n, s.clk.resetWait = some n → bitOf s.clk.good n = true → s.clk.goodAt + 10000000 ≤ s.up →
      ∃ t, exec .resetWaitExit s = .next t ∧ Frame [.clk] s t ∧
        t.clk = { s.clk with resetWait := none, alive := false })

/-- Gates and the frequency meter (R132 to R138): an enable written 0 closes its gate at once where the block is idle and leaves it
closing where it is not, and an overdue one closes at its time-out; an enable written 1 opens it; closing BLE or LCE is refused
while the controller runs. In SLEEP work wakes a block. A measurement starts with valid selections, sets ERR with two equal ones,
and ends with its count. -/
def Obligations.GateAndMeterCommandsEffects : Prop :=
  ∀ s : State,
    (∀ bit : Fin 20, Reaches s 0 → gateRw bit.val = true → gateRefused s (oneBit bit.val) = false → s.clk.power = 0 →
      bitOf (rget s oGateOpen) bit.val = true → ∃ t, exec (.gateClose bit true) s = .next t ∧ Frame [.regs, .clk, .rings,
        .msixPend, .can, .out] s t ∧
        rget t oGateRun = rget s oGateRun &&& ~~~ (oneBit bit.val) ∧ rget t oGateOpen = rget s oGateOpen &&& ~~~ (oneBit bit.val) ∧
        t.clk = { s.clk with closing := s.clk.closing &&& ~~~ (oneBit bit.val) }) ∧
    (∀ bit : Fin 20, Reaches s 0 → gateRw bit.val = true → gateRefused s (oneBit bit.val) = false → s.clk.power = 0 →
      bitOf (rget s oGateOpen) bit.val = true → ∃ t, exec (.gateClose bit false) s = .next t ∧ Frame [.regs, .clk] s t ∧
        RegsOnly [oGateRun] s t ∧ rget t oGateRun = rget s oGateRun &&& ~~~ (oneBit bit.val) ∧
        t.clk = { s.clk with closing := s.clk.closing ||| oneBit bit.val }) ∧
    (∀ (bit : Fin 20) (idle : Bool), Reaches s 0 → gateRw bit.val = true → bitOf (rget s oGateRun) bit.val = true →
      gateRefused s (oneBit bit.val) = true → ∃ t, exec (.gateClose bit idle) s = .next t ∧ Frame [.regs] s t ∧
        RegsOnly [oGateAbort] s t ∧ rget t oGateAbort = rget s oGateAbort ||| oneBit 31) ∧
    (∀ bit : Fin 20, bitOf s.clk.closing bit.val = true → ∃ t, exec (.gateCloseTimeout bit) s = .next t ∧
      Frame [.regs, .clk, .rings, .msixPend, .can, .out] s t ∧ rget t oGateOpen = rget s oGateOpen &&& ~~~ (oneBit bit.val) ∧
      rget t oGateAbort = rget s oGateAbort ||| oneBit bit.val ∧
        t.clk = { s.clk with closing := s.clk.closing &&& ~~~ (oneBit bit.val) }) ∧
    (∀ bit : Fin 20, Reaches s 0 → gateRw bit.val = true → bitOf (rget s oGateRun) bit.val = false →
      gateRefused s (oneBit bit.val) = false →
      s.clk.power = 0 → ∃ t, exec (.gateOpen bit) s = .next t ∧ Frame [.regs, .clk, .rings, .msixPend, .can, .out] s t ∧
        RegsOnly [oGateRun, oGateOpen] s t ∧
      rget t oGateRun = rget s oGateRun ||| oneBit bit.val ∧ rget t oGateOpen = rget s oGateOpen ||| oneBit bit.val) ∧
    (∀ bit : Fin 20, s.clk.power = 1 → ∃ t, exec (.sleepWake bit) s = .next t ∧ Frame [.clk] s t ∧
      t.clk = { s.clk with idle := s.clk.idle &&& ~~~ (oneBit bit.val) }) ∧
    (∀ v : Word, Reaches s 18 → s.clk.fm = none → bitOf v 16 = true → 8 ≤ fld v 12 8 → fld v 12 8 ≤ 24 → fld v 3 0 ≠ fld v 7 4 →
      fld v 3 0 ≤ 8 → fld v 7 4 ≤ 8 → ∃ t, exec (.fmStart v) s = .next t ∧ Frame [.regs, .clk] s t ∧ RegsOnly [oFmCtrl] s t ∧
        t.clk = { s.clk with fm := some (fld v 3 0, fld v 7 4, fld v 12 8) } ∧
        bitOf (rget t oFmCtrl) 31 = true ∧ bitOf (rget t oFmCtrl) 30 = false) ∧
    (∀ v : Word, Reaches s 18 → s.clk.fm = none → bitOf v 16 = true → fld v 3 0 = fld v 7 4 →
      ∃ t, exec (.fmStart v) s = .next t ∧ Frame [.regs] s t ∧ RegsOnly [oFmCtrl] s t ∧ bitOf (rget t oFmCtrl) 30 = true) ∧
    (∀ count : BitVec 64, s.clk.fm.isSome = true → bitOf (rget s oGateOpen) 18 = true → ∃ t, exec (.fmDone count) s = .next t ∧
      Frame [.regs, .clk] s t ∧ RegsOnly [oFmLo, oFmHi, oFmCtrl] s t ∧ t.clk = { s.clk with fm := none } ∧
      rget t oFmLo = w32 count.toNat ∧ rget t oFmHi = w32 (count.toNat / 2 ^ 32) ∧
      rget t oFmCtrl = rget s oFmCtrl &&& ~~~ (oneBit 31))

/-- Power failing and starting (R139 to R152): the power-fail warning drops the waiting firings and sets its event; the restart
after it, the supervisor's watchdog and the end of hold-up send the field safe and hold the controller in reset, each under its
cause. A start halts before step 1 for want of a good source, at step 2 for want of a good PUF or of a firmware bank that passes,
and otherwise runs its steps to the end. PERST takes the host's side down; its release brings the link of a live module up. -/
def Obligations.PowerAndStartCommandsEffects : Prop :=
  ∀ s : State,
    (s.clk.alive = true → s.clk.warned = false → ∃ t, exec .powerFailWarning s = .next t ∧ Frame [.regs, .clk, .rings, .evq,
      .recq, .recSlots, .recNext, .recLost, .recLostCls, .rtc, .msixPend, .lce, .ble, .twn, .out] s t ∧
      t.clk.warned = true ∧ t.ble.wait = [] ∧ t.lce.wait = [] ∧ rget t oPwrStatus = rget s oPwrStatus ||| oneBit 2 ∧
      rget t oPwrEvent = rget s oPwrEvent ||| oneBit 0) ∧
    (s.clk.alive = true → s.clk.warned = true → (s.base.la || s.base.lb) = true → s.clk.pfRetain = false → s.twn.plan = none →
      ∃ t, exec .powerFailRestart s = .next t ∧ Frame [.regs, .pts, .hold, .phc, .clk, .banks, .ch, .rings, .evq, .recq,
        .recLost, .recLostCls, .msixPend, .can, .lce, .ble, .twn, .out] s t ∧ t.base.holdOut = false ∧
      t.clk.alive = false ∧ t.clk.startCause = 1 ∧ ∀ b, b < 12 → (bank t b).safe = true ∧ bitOf (bank t b).causes 4 = true) ∧
    (∀ backup : Bool, (s.base.la || s.base.lb) = false → ∃ t, exec (.holdupEnd backup) s = .next t ∧ Frame [.regs, .pts, .hold,
      .phc, .clk, .banks, .ch, .rings, .evq, .recq, .recLost, .recLostCls, .rtc, .msixPend, .can, .lce, .ble, .twn, .out] s t ∧
      t.base.holdOut = false ∧ t.clk.alive = false ∧ t.clk.power = (if backup then 2 else 3) ∧ t.ble.running = false ∧
      t.rtc.haltReq = false ∧ ∀ b, b < 12 → (bank t b).safe = true ∧ bitOf (bank t b).causes 4 = true) ∧
    (s.clk.alive = true → ∃ t, exec .supWdogExpiry s = .next t ∧ Frame [.regs, .pts, .hold, .phc, .clk, .banks, .ch, .rings,
      .evq, .recq, .recLost, .recLostCls, .msixPend, .can, .lce, .ble, .twn, .out] s t ∧ t.base.holdOut = false ∧
      t.clk.alive = false ∧ t.clk.startCause = 5 ∧ t.ble.running = false ∧
      ∀ b, b < 12 → (bank t b).safe = true ∧ bitOf (bank t b).causes 4 = true) ∧
    (∀ (env : StartEnv) (n : Nat), mayStart s = true → badSource s = some n → ∃ t, exec (.startUp env) s = .next t ∧
      Frame [.regs, .live, .latch, .lowHeld, .pts, .base, .hold, .phc, .clk, .banks, .ch, .rings, .evq, .recq, .recSlots,
        .recNext, .recLost, .recLostCls, .watches, .rtc, .msix, .msixPend, .busMaster, .memEnable, .forces, .img, .up, .ptp,
        .eth, .can, .lce, .ble, .twn, .sec, .upd, .out] s t ∧ t.clk.resetWait = some n ∧ rget t oStartStatus = 0x1F ∧
        t.base.holdOut = false) ∧
    (∀ env : StartEnv, mayStart s = true → badSource s = none → env.pufGood = false → ∃ t, exec (.startUp env) s = .next t ∧
      Frame [.regs, .live, .latch, .lowHeld, .pts, .base, .hold, .phc, .clk, .banks, .ch, .rings, .evq, .recq, .recSlots,
        .recNext, .recLost, .recLostCls, .watches, .rtc, .msix, .msixPend, .busMaster, .memEnable, .forces, .img, .up, .ptp,
        .eth, .can, .lce, .ble, .twn, .sec, .upd, .out] s t ∧ rget t oStartStatus = w32 (0x2F + 256 * s.clk.startCause) ∧
        t.base.holdOut = false ∧
      t.img = none ∧ t.ble.running = false) ∧
    (∀ env : StartEnv, mayStart s = true → badSource s = none → env.pufGood = true →
      firmwareStart (step1 (dropVolatile s) env) env.copyBad env.fw0Bad env.fw1Bad = none → ∃ t, exec (.startUp env) s = .next t ∧
      Frame [.regs, .live, .latch, .lowHeld, .pts, .base, .hold, .phc, .clk, .banks, .ch, .rings, .evq, .recq, .recSlots,
        .recNext, .recLost, .recLostCls, .watches, .rtc, .msix, .msixPend, .busMaster, .memEnable, .forces, .img, .up, .ptp,
        .eth, .can, .lce, .ble, .twn, .sec, .upd, .out] s t ∧ haltedMod t = true ∧ rfld t oStartStatus 7 4 = 3 ∧
        t.base.holdOut = false) ∧
    (∀ env : StartEnv, mayStart s = true → badSource s = none → env.pufGood = true →
      (firmwareStart (step1 (dropVolatile s) env) env.copyBad env.fw0Bad env.fw1Bad).isSome = true →
      ∃ t, exec (.startUp env) s = .next t ∧ Frame [.regs, .live, .latch, .lowHeld, .pts, .base, .hold, .phc, .clk, .banks,
        .ch, .rings, .evq, .recq, .recSlots, .recNext, .recLost, .recLostCls, .watches, .rtc, .msix, .msixPend, .busMaster,
        .memEnable, .forces, .img, .up, .ptp, .eth, .can, .lce, .ble, .twn, .sec, .upd, .out] s t ∧ started t = true ∧
        t.phc.run = true ∧ t.phc.fire = true ∧
        t.sec.rootOk = true ∧ t.rtc.pwrCycles = s.rtc.pwrCycles + 1 ∧
        (s.clk.startCause < 16 → rfld t oStartStatus 11 8 = s.clk.startCause) ∧ (∀ b, b < 12 → bitOf (bank t b).causes 4 = false) ∧
        (onTwin s = false → t.twn.role = 1 ∧ t.base.holdOut = !s.base.holdIn)) ∧
    (∃ t, exec .pePerst s = .next t ∧ Frame [.regs, .phc, .clk, .rings, .watches, .msix, .msixPend, .busMaster, .memEnable,
      .ble] s t ∧ t.clk = { s.clk with perst := false, linkPcie := false } ∧
      t.msix = [] ∧ t.msixPend = [] ∧ t.busMaster = false ∧ t.memEnable = false ∧ ∀ n, n < 64 → (ring t n).enabled = false) ∧
    (∃ t, exec .pePerstRelease s = .next t ∧ Frame [.clk] s t ∧ t.clk = { s.clk with perst := true, linkPcie := s.clk.alive })

/-- The phase clock (R74 to R119). A valid marker starts the clock in ACQUIRE, counts toward LOCKED or RELOCK where it is within its
window, and in HOLDOVER and synthetic running qualifies the mains; outside its window it is not taken. A boundary begins the
next cycle in the state that follows. A missing marker ends ACQUIRE, is counted in LOCKED, and the second in a row declares loss of
mains; 10 s later HOLDOVER is over; a step cycle ends at its marker or without one. A HOST_EVENT entry and a timed action fire at
their unit, and the PHC set is requested, applied or refused. -/
def Obligations.PhaseClockCommandsEffects : Prop :=
  ∀ s : State,
    (∀ (freq : Nat) (frac : Fin 16) (since : Nat) (sub : Fin 16), refOk s freq = true → s.phc.st = 0 → s.phc.run = false →
      ∃ t, exec (.referenceMarker freq frac since sub) s = .next t ∧ Frame [.regs, .phc, .evq] s t ∧ RegsOnly [oPhcEvent] s t ∧
        t.phc.refValid = true ∧ t.phc.refFreq = freq ∧ t.phc.refSrc = refSource s ∧ (s.phc.refSrc ≠ refSource s → PhcRaised 3 s t) ∧
        t.phc.run = true ∧ t.phc.cycle = 0 ∧ t.phc.phase = 0 ∧ t.phc.freq = freq) ∧
    (∀ (freq : Nat) (frac : Fin 16) (since : Nat) (sub : Fin 16), refOk s freq = true → s.phc.run = true →
      s.phc.st = 0 ∨ s.phc.st = 1 ∨ s.phc.st = 5 → s.phc.stepping = false →
      s.phc.markFor ≠ (markerSeen s frac since sub).1 → (markerSeen s frac since sub).2.natAbs ≤ 4096 → ∃ t,
        exec (.referenceMarker freq frac since sub) s = .next t ∧
        Frame [.regs, .phc, .evq] s t ∧ RegsOnly [oPhcEvent] s t ∧ t.phc.refValid = true ∧ t.phc.refFreq = freq ∧
        t.phc.refSrc = refSource s ∧ t.phc.perr = (markerSeen s frac since sub).2 ∧
        t.phc.corrNext = (markerSeen s frac since sub).2 ∧ t.phc.missN = 0 ∧ t.phc.markFor = (markerSeen s frac since sub).1 ∧
        t.phc.goodFreq = s.phc.freq ∧ t.phc.lockN = (if (markerSeen s frac since sub).2.natAbs ≤ 128 then s.phc.lockN + 1 else 0)) ∧
    (∀ (freq : Nat) (frac : Fin 16) (since : Nat) (sub : Fin 16), refOk s freq = true → s.phc.run = true →
      s.phc.st = 2 ∨ s.phc.st = 3 ∨ s.phc.st = 4 → s.phc.stepping = false →
      s.phc.markFor ≠ (markerSeen s frac since sub).1 → ∃ t, exec (.referenceMarker freq frac since sub) s = .next t ∧
        Frame [.regs, .phc, .evq] s t ∧
        RegsOnly [oPhcEvent] s t ∧ t.phc.refValid = true ∧ t.phc.refFreq = freq ∧ t.phc.validN = s.phc.validN + 1 ∧
        t.phc.markFor = (markerSeen s frac since sub).1 ∧ t.phc.st = s.phc.st ∧ t.phc.freq = s.phc.freq) ∧
    (∀ (freq : Nat) (frac : Fin 16) (since : Nat) (sub : Fin 16), refOk s freq = true → s.phc.run = true →
      s.phc.st = 0 ∨ s.phc.st = 1 ∨ s.phc.st = 5 →
      4096 < (markerSeen s frac since sub).2.natAbs → ∃ t, exec (.referenceMarker freq frac since sub) s = .next t ∧
        Frame [.regs, .phc, .evq] s t ∧
        t.phc.refFreq = freq ∧ t.phc.perr = (markerSeen s frac since sub).2 ∧ t.phc.markFor = s.phc.markFor ∧
        t.phc.lockN = s.phc.lockN ∧ t.phc.corrNext = s.phc.corrNext) ∧
    (∀ (freq : Nat) (frac : Fin 16) (since : Nat) (sub : Fin 16), refOk s freq = false →
      ∃ t, exec (.referenceMarker freq frac since sub) s = .next t ∧ Frame [.regs, .phc, .evq] s t ∧ RegsOnly [oPhcEvent] s t ∧
        t.phc.refValid = false ∧ t.phc.refSrc = 3 ∧ t.phc.run = s.phc.run ∧ t.phc.markFor = s.phc.markFor ∧
        t.phc.validN = s.phc.validN) ∧
    (s.phc.run = true → s.clk.alive = true → s.clk.resetWait = none → s.phc.stepping = false → ∃ t,
      exec .cycleBoundary s = .next t ∧
      Frame [.regs, .live, .pts, .base, .hold, .phc, .clk, .banks, .ch, .rings, .evq, .recq, .recSlots, .recNext, .recLost,
        .recLostCls, .watches, .rtc, .msixPend, .forces, .up, .ptp, .can, .lce, .ble, .twn, .free, .out] s t ∧
        t.phc.cycle = (s.phc.cycle + 1) % 2 ^ 48 ∧ t.phc.phase = 0 ∧ t.phc.st = nextSt s ∧
      (nextSt s ≠ 0 → t.phc.gen = (s.phc.gen + 1) % 2 ^ 32) ∧
      (bitOf (rget s oPwrCtrl) 0 = true → t.clk.power = 1 ∧ rget t oGateOpen = 0xFFFFF)) ∧
    (s.phc.run = true → s.phc.stepping = false → s.phc.lossDue = false → s.phc.markFor < s.phc.cycle + 1 → s.phc.st = 0 →
      ∃ t, exec .missingMarker s = .next t ∧ Frame [.phc] s t ∧ t.phc.run = false ∧ t.phc.lockN = 0 ∧ t.phc.validN = 0 ∧
        t.phc.markFor = s.phc.cycle + 1) ∧
    (s.phc.run = true → s.phc.stepping = false → s.phc.lossDue = false → s.phc.markFor < s.phc.cycle + 1 →
      s.phc.st = 1 ∨ s.phc.st = 5 →
      s.phc.missN = 0 → ∃ t, exec .missingMarker s = .next t ∧ Frame [.phc] s t ∧ t.phc.missN = 1 ∧ t.phc.lossDue = false ∧
        t.phc.lockN = 0 ∧ t.phc.validN = 0 ∧ t.phc.markFor = s.phc.cycle + 1) ∧
    (s.phc.run = true → s.phc.stepping = false → s.phc.lossDue = false → s.phc.markFor < s.phc.cycle + 1 →
      s.phc.st = 1 ∨ s.phc.st = 5 →
      1 ≤ s.phc.missN → ∃ t, exec .missingMarker s = .next t ∧ Frame [.regs, .phc, .evq] s t ∧ RegsOnly [oPhcEvent] s t ∧
        t.phc.lossDue = true ∧ PhcRaised 2 s t ∧ t.phc.lockN = 0 ∧ t.phc.validN = 0 ∧ t.phc.markFor = s.phc.cycle + 1) ∧
    (s.phc.st = 2 → ∃ t, exec .holdoverTimeout s = .next t ∧ Frame [.phc] s t ∧ t.phc = { s.phc with holdExp := true }) ∧
    (∀ marker, s.phc.run = true → s.clk.alive = true → s.clk.resetWait = none → s.phc.stepping = true →
      ∃ t, exec (.stepCycleEnd marker) s = .next t ∧ Frame [.regs, .live, .pts, .base, .hold, .phc, .clk, .banks, .ch, .rings,
        .evq, .recq, .recSlots, .recNext, .recLost, .recLostCls, .watches, .rtc, .msixPend, .forces, .up, .ptp, .can, .lce,
        .ble, .twn, .free, .out] s t ∧ t.phc.cycle = (s.phc.cycle + 1) % 2 ^ 48 ∧
      t.phc.phase = 0 ∧ bitOf (rget t oPhcEvent) 1 = true) ∧
    (∀ n : Fin 1024, (fireEntry (dueCommits s) n.val 7).isSome = true → ∃ t, exec (.hostEvent n) s = .next t ∧
      Frame [.regs, .live, .pts, .phc, .banks, .ch, .rings, .evq, .msixPend, .forces, .can, .lce, .ble, .twn, .out] s t ∧
        ∃ e ∈ t.evq, e.code = 2 ∧ e.toHost = true ∧ wAt e.body 5 = 2 ∧
        wAt e.body 6 = w32 (fld (schedWord (dueCommits s).live n.val 2) 15 0)) ∧
    (∀ r : Fin 64, ∀ x, (dueCommits s).phc.timed.find? (fun x => x.ring == r.val) = some x → (dueCommits s).phc.run = true →
      (dueCommits s).clk.alive = true → (dueCommits s).phc.st ≠ 0 → x.unit = absA (dueCommits s) → (x.fixed || !x.net) = true →
      inOrder (dueCommits s) x.action (1024 + r.val) = true → ∃ t, exec (.timedActionFire r) s = .next t ∧
      Frame [.regs, .live, .pts, .phc, .banks, .ch, .rings, .evq, .msixPend, .forces, .can, .lce, .ble, .twn, .out] s t ∧
        t.phc.last = some (absA s, x.action, 1024 + r.val) ∧ ∀ y ∈ t.phc.timed, y.ring ≠ r.val) ∧
    (∀ v : Word, Reaches s 6 → bitOf v 0 = true → isStandby s = false → phcPending s = false → s.ble.act = none →
      ∃ t, exec (.phcCommit v) s = .next t ∧ Frame [.regs, .phc, .evq] s t ∧ RegsOnly [oPhcCommitStatus] s t ∧
        rget t oPhcCommitStatus = rget s oPhcCommitStatus ||| oneBit 31 ∧ t.phc = { s.phc with reqA := absA s }) ∧
    (∀ v : Word, Reaches s 6 → bitOf v 0 = true → isStandby s = true → ∃ t, exec (.phcCommit v) s = .next t ∧
      Frame [.regs, .phc, .evq] s t ∧ RegsOnly [oTwnEvent] s t ∧ t.phc = s.phc ∧ Raised oTwnEvent 10 s t) ∧
    (isPhcPoint s = true → phcCheck s s.img = none → ∃ t, exec .phcCommitPoint s = .next t ∧ Frame [.regs, .live, .pts, .phc,
      .rings, .evq, .msixPend, .can, .lce, .ble, .twn, .out] s t ∧
      phcPending t = false ∧ t.live = takeShadow s.regs s.live inPhcSet ∧
      rfld t oPhcCommitStatus 15 0 = (rfld s oPhcCommitStatus 15 0 + 1) % 65536) ∧
    (∀ r, isPhcPoint s = true → phcCheck s s.img = some r → r.1 < 16 → r.2.2 < 1024 → ∃ t, exec .phcCommitPoint s = .next t ∧
      Frame [.regs, .live, .pts, .phc, .rings, .evq, .msixPend, .can, .lce, .ble, .twn, .out] s t ∧ phcPending t = false ∧
        t.live = s.live ∧
      rfld t oPhcCommitStatus 15 0 = rfld s oPhcCommitStatus 15 0 ∧ rfld t oPhcCommitStatus 25 16 = r.2.2 ∧
      rfld t oPhcCommitStatus 29 26 = r.1)

/-- The links between the module and its banks (R155 to R158): a frame to a bank goes out with its sequence number and its CRC and
restarts the bank's watchdog, one from a bank brings the link up and its readings, diagnostics or news of life; a frame discarded is
counted, and an output or configuration frame is sent once more. A good output frame takes a safe bank with no cause out of its safe
state, a good configuration frame makes the bank apply the live set, and a link that goes down is reported. -/
def Obligations.BankFrameCommandsEffects : Prop :=
  ∀ s : State,
    (∀ b : Fin 12, canSend s = true → (bank s b).run = true → ∃ t, exec (.bankLinkKeepalive b true) s = .next t ∧
      Frame [.regs, .banks, .out] s t ∧ BanksOnly [b.val] s t ∧ RegsOnly [] s t ∧
      t.out = s.out ++ [.bankFrame b 0 (bank s b).seqDn [] (crcWords [0, w32 (bank s b).seqDn])] ∧
      (bank t b).heard = true ∧ (bank t b).seqDn = (bank s b).seqDn + 1) ∧
    (∀ b : Fin 12, canSend s = true → ∃ t, exec (.bankLinkKeepalive b false) s = .next t ∧
      Frame [.regs, .banks, .out] s t ∧ RegsOnly [oBank b + 0x24] s t ∧
      t.out = s.out ++ [.bankFrame b 0 (bank s b).seqDn [] (crcWords [0, w32 (bank s b).seqDn])] ∧
      rfld t (oBank b + 0x24) 15 0 = (rfld s (oBank b + 0x24) 15 0 + 1) % 65536 ∧ BanksOnly [b.val] s t ∧
      bank t b = { bank s b with seqDn := (bank s b).seqDn + 1 }) ∧
    (∀ (b : Fin 12) (raw : List Word) (bt : Batch), (bank s b).batches.head? = some bt →
      ∃ t, exec (.readingFrame b true raw) s = .next t ∧ Frame [.regs, .pts, .banks, .ch, .evq, .can, .ble] s t ∧
        BanksOnly [b.val] s t ∧
        ChansOnly (bankChans b) s t ∧ (bank t b).batches = (bank s b).batches.tail ∧ (bank t b).linkUp = true ∧
        (bank t b).seqUp = (bank s b).seqUp + 1 ∧
        (∀ i : Fin 16, isDigIn (chMode s (16 * b.val + i.val)) = true →
          (bt.conv.getD i.val ⟨0, 0, 0⟩).mode = chMode s (16 * b.val + i.val) → (chan s (16 * b.val + i.val)).modeA ≤ bt.unit →
          pnat t (16 * b.val + i.val) = wAt bt.vals i.val ∧ (chan t (16 * b.val + i.val)).batchA = bt.unit)) ∧
    (∀ (b : Fin 12) (raw : List Word), (bank s b).batches ≠ [] → ∃ t, exec (.readingFrame b false raw) s = .next t ∧
      Frame [.regs, .pts, .banks, .ch, .evq, .can, .ble] s t ∧ BanksOnly [b.val] s t ∧ ChansOnly (bankChans b) s t ∧
      bank t b = { bank s b with batches := (bank s b).batches.tail, seqUp := (bank s b).seqUp + 1 } ∧
      rfld t (oBank b + 0x24) 31 16 = (rfld s (oBank b + 0x24) 31 16 + 1) % 65536 ∧ bitOf (rget t oIntegEvent) 6 = true) ∧
    (∀ (b : Fin 12) (temp : BitVec 8) (volt : BitVec 12) (curr : BitVec 13) (meas : List Word), (bank s b).run = true →
      ∃ t, exec (.diagnosticFrame b true temp volt curr meas) s = .next t ∧ Frame [.regs, .pts, .banks, .ch, .evq, .can, .ble] s t ∧
        BanksOnly [b.val] s t ∧ ChansOnly (bankChans b) s t ∧ (bank t b).linkUp = true ∧ (bank t b).seqUp = (bank s b).seqUp + 1 ∧
        (bank t b).temp = temp.toNat ∧ (bank t b).fsVolt = volt.toNat ∧ (bank t b).fsCurr = curr.toNat ∧
        ∀ i : Fin 16, (chan t (16 * b.val + i.val)).meas = measFor (appMode s (16 * b.val + i.val)) (wAt meas i.val)) ∧
    (∀ (b : Fin 12) (temp : BitVec 8) (volt : BitVec 12) (curr : BitVec 13) (meas : List Word), (bank s b).run = true →
      ∃ t, exec (.diagnosticFrame b false temp volt curr meas) s = .next t ∧ Frame [.regs, .banks] s t ∧
        RegsOnly [oBank b + 0x24] s t ∧ rfld t (oBank b + 0x24) 31 16 = (rfld s (oBank b + 0x24) 31 16 + 1) % 65536 ∧
        BanksOnly [b.val] s t ∧ bank t b = { bank s b with seqUp := (bank s b).seqUp + 1 }) ∧
    (∀ b : Fin 12, canSend s = true → (bank s b).run = true → ∃ t, exec (.keepAliveFrame b true true) s = .next t ∧
      Frame [.regs, .pts, .banks, .ch, .evq, .can, .ble, .out] s t ∧ BanksOnly [b.val] s t ∧
      t.out = s.out ++ [.bankFrame b 0 (bank s b).seqDn [] (crcWords [0, w32 (bank s b).seqDn])] ∧
      (bank t b).heard = true ∧ (bank t b).seqDn = (bank s b).seqDn + 1) ∧
    (∀ b : Fin 12, (bank s b).run = true → ∃ t, exec (.keepAliveFrame b false true) s = .next t ∧
      Frame [.regs, .pts, .banks, .ch, .evq, .can, .ble, .out] s t ∧ BanksOnly [b.val] s t ∧ ChansOnly (bankChans b) s t ∧
        (bank t b).linkUp = true ∧
      (bank t b).seqUp = (bank s b).seqUp + 1) ∧
    (∀ (b : Fin 12) (toBank : Bool), canSend s = true → (bank s b).run = true → ∃ t,
      exec (.keepAliveFrame b toBank false) s = .next t ∧
      Frame [.regs, .pts, .banks, .ch, .evq, .can, .ble, .out] s t ∧ BanksOnly [b.val] s t ∧ RegsOnly [oBank b + 0x24] s t ∧
      (bank t b).heard = (bank s b).heard ∧ (bank t b).linkUp = (bank s b).linkUp ∧
      (if toBank then rfld t (oBank b + 0x24) 15 0 = (rfld s (oBank b + 0x24) 15 0 + 1) % 65536
       else rfld t (oBank b + 0x24) 31 16 = (rfld s (oBank b + 0x24) 31 16 + 1) % 65536)) ∧
    (∀ (b : Fin 12) (p : BitVec 16), canSend s = true → (bank s b).run = true → ∃ t, exec (.outputFrame b true p) s = .next t ∧
      Frame [.regs, .pts, .banks, .ch, .evq, .can, .ble, .out] s t ∧ BanksOnly [b.val] s t ∧ ChansOnly (bankChans b) s t ∧
        (p ≠ 0 → bitOf (rget t oIntegEvent) 5 = true) ∧
      (bank t b).outq = (bank s b).outq.tail ∧ (bank t b).heard = true ∧ ((bank t b).causes = 0 → (bank t b).safe = false)) ∧
    (∀ (b : Fin 12) (p : BitVec 16) (f : OFrame), canSend s = true → (bank s b).outq.head? = some f →
      ∃ t, exec (.outputFrame b false p) s = .next t ∧ Frame [.regs, .pts, .banks, .ch, .evq, .can, .ble, .out] s t ∧
        BanksOnly [b.val] s t ∧
        rfld t (oBank b + 0x24) 15 0 = (rfld s (oBank b + 0x24) 15 0 + 1) % 65536 ∧ (p ≠ 0 → bitOf (rget t oIntegEvent) 5 = true) ∧
        (bank t b).outq = (if f.again then (bank s b).outq.tail else { f with again := true } :: (bank s b).outq.tail)) ∧
    (∀ b : Fin 12, canSend s = true → (bank s b).cfgDue = true → (bank s b).run = true → ∃ t,
      exec (.configurationFrame b true) s = .next t ∧
      Frame [.regs, .pts, .banks, .ch, .evq, .can, .ble, .out] s t ∧ BanksOnly [b.val] s t ∧ ChansOnly (bankChans b) s t ∧
        (bank t b).confirmed = true ∧
      (bank t b).cfgDue = false ∧ (bank t b).applied = pageOf s b ∧ (bank t b).heard = true ∧ (bank t b).held = []) ∧
    (∀ b : Fin 12, canSend s = true → (bank s b).cfgDue = true → ∃ t, exec (.configurationFrame b false) s = .next t ∧
      Frame [.regs, .pts, .banks, .ch, .evq, .can, .ble, .out] s t ∧ BanksOnly [b.val] s t ∧ ChansOnly (bankChans b) s t ∧
      (bank t b).cfgDue = !(bank s b).cfgAgain ∧ (bank t b).applied = (bank s b).applied ∧
      rfld t (oBank b + 0x24) 15 0 = (rfld s (oBank b + 0x24) 15 0 + 1) % 65536) ∧
    (∀ b : Fin 12, canSend s = true → bitOf (chan s (16 * b)).diag 4 = false → ∃ t, exec (.linkDown b) s = .next t ∧
      Frame [.regs, .pts, .banks, .ch, .evq, .can, .ble] s t ∧ BanksOnly [b.val] s t ∧
        bank t b = { bank s b with linkUp := false } ∧ ChansOnly (bankChans b) s t ∧
      Raised (oBank b + 0x18) 1 s t ∧ ∀ i : Fin 16, bitOf (chan t (16 * b.val + i.val)).diag 4 = true)

/-- The banks' staged sets, conversions and safe commands (R161 to R172, R186 to R189, R205 to R207): a commit is requested,
  or told to a
standby; at the commit point the shadow set becomes live or is refused with its code. A firing latches a batch in each bank it
names,
  or is held for a new set; a zero-cross firing is announced by its timing frame and then made; a PWM period takes the on time of
its duty. BNK_SAFE_CMD adds a cause of the safe state and BNK_RELEASE clears those whose condition is met. -/
def Obligations.BankCommitAndSafeCommandsEffects : Prop :=
  ∀ s : State,
    (∀ (b : Fin 12) (v : Word), Reaches s 7 → bitOf v 0 = true → isStandby s = false → bankPending s b = false →
      ∃ t, exec (.bnkCommit b v) s = .next t ∧ Frame [.regs, .banks, .evq] s t ∧ RegsOnly [oBank b + 0xC] s t ∧
        rget t (oBank b + 0xC) = rget s (oBank b + 0xC) ||| oneBit 31 ∧ bank t b = { bank s b with reqA := absA s } ∧
        BanksOnly [b.val] s t) ∧
    (∀ (b : Fin 12) (v : Word), Reaches s 7 → bitOf v 0 = true → isStandby s = true → ∃ t, exec (.bnkCommit b v) s = .next t ∧
      Frame [.regs, .banks, .evq] s t ∧ RegsOnly [oTwnEvent] s t ∧ t.banks = s.banks ∧ Raised oTwnEvent 10 s t) ∧
    (∀ b : Fin 12, bankPending s b = true → isBankPoint s b = true → bankCheck s b = none → ∃ t,
      exec (.bankCommitPoint b) s = .next t ∧
      Frame [.regs, .live, .pts, .banks, .ch, .rings, .evq, .msixPend, .forces, .can, .ble, .twn, .out] s t ∧
        bankPending t b = false ∧ t.live = takeShadow s.regs s.live (inBankSet b) ∧
      (bank t b).cfgDue = true ∧ rfld t (oBank b + 0xC) 15 0 = (rfld s (oBank b + 0xC) 15 0 + 1) % 65536) ∧
    (∀ (b : Fin 12) (r : Nat × Nat), bankPending s b = true → isBankPoint s b = true → bankCheck s b = some r → r.1 < 32 →
      r.2 < 16 →
      ∃ t, exec (.bankCommitPoint b) s = .next t ∧ Frame [.regs, .live, .pts, .banks, .ch, .rings, .evq, .msixPend, .forces,
        .can, .ble, .twn, .out] s t ∧ bankPending t b = false ∧ t.live = s.live ∧
        t.banks = s.banks ∧ rfld t (oBank b + 0xC) 15 0 = rfld s (oBank b + 0xC) 15 0 ∧
        rfld t (oBank b + 0xC) 20 16 = r.1 ∧ rfld t (oBank b + 0xC) 24 21 = r.2) ∧
    (∀ n : Fin 1024, (fireEntry (dueCommits s) n.val 1).isSome = true → ∃ t, exec (.bankConvert n) s = .next t ∧ Frame [.regs,
      .live, .pts, .phc, .banks, .ch, .rings, .evq, .msixPend, .forces, .can, .lce, .ble, .twn, .out] s t ∧
      t.phc.last = some (absA s, 1, n.val) ∧
      ∀ b, b < 12 → (bank t b).batches = (bank (dueCommits s) b).batches ++
        (if (bitOf (schedWord (dueCommits s).live n.val 2) b && (bank (dueCommits s) b).run && !mustHold (dueCommits s) b) = true
         then [⟨absA s, (bankChans b).map (latchDig (dueCommits s)), (bankChans b).map (convOf (dueCommits s))⟩] else [])) ∧
    (∀ (n : Fin 1088) (again : Bool), n.val < 1024 → clockRuns s = true → canSend s = true → entryEn s.live n.val = true →
      entryAction s.live n.val = 4 → entryPeriod s.live n.val ≠ 0 → (bank s (fld (schedWord s.live n.val 2) 3 0)).run = true →
      ∃ t, exec (.zcOutput n true again) s = .next t ∧ Frame [.regs, .banks, .out] s t ∧
        BanksOnly [fld (schedWord s.live n.val 2) 3 0] s t ∧
        t.out = s.out ++ [.bankFrame (fld (schedWord s.live n.val 2) 3 0) 3 (bank s (fld (schedWord s.live n.val 2) 3 0)).seqDn
          [schedWord s.live n.val 2, w32 (nextFiring s n.val), w32 (nextFiring s n.val >>> 32)]
          (crcWords [3, w32 (bank s (fld (schedWord s.live n.val 2) 3 0)).seqDn, schedWord s.live n.val 2,
            w32 (nextFiring s n.val), w32 (nextFiring s n.val >>> 32)])] ∧
        (bank t (fld (schedWord s.live n.val 2) 3 0)).timing = (bank s (fld (schedWord s.live n.val 2) 3 0)).timing ++
          [⟨nextFiring s n.val, fld (schedWord s.live n.val 2) 31 16, n.val⟩]) ∧
    (∀ n : Fin 1088, 1024 ≤ n.val → ∀ x, timedZc s (n.val - 1024) = some x → clockRuns s = true → canSend s = true →
      (bank s (fld x.arg 3 0)).run = true →
      ∃ t, exec (.zcOutput n true false) s = .next t ∧ Frame [.regs, .banks, .out] s t ∧ BanksOnly [fld x.arg 3 0] s t ∧
        (bank t (fld x.arg 3 0)).timing = (bank s (fld x.arg 3 0)).timing ++ [⟨x.unit, fld x.arg 31 16, n.val⟩]) ∧
    (∀ (b : Fin 12) (n : Nat), zcNext s b = some n → n < 1024 → mustHold s b = false → ∃ t, exec (.zcSwitch b) s = .next t ∧
      Frame [.regs, .pts, .phc, .banks, .ch, .evq, .can, .ble] s t ∧ BanksOnly [b.val] s t ∧ ChansOnly (bankChans b) s t ∧
        t.phc.last = some (absA s, 4, n) ∧
      bank t b = { bank s b with timing := (bank s b).timing.filter (fun z => !(z.unit < absA s || (z.unit == absA s && z.entry == n))) } ∧
      ((bank s b).safe = true → t.ch = s.ch)) ∧
    (∀ c : Fin 192, appMode s c = 5 → (bank s (c / 16)).run = true → (bank s (c / 16)).safe = false →
      ∃ t, exec (.pwmPeriodStart c) s = .next t ∧ Frame [.ch] s t ∧ ChansOnly [c.val] s t ∧
        (chan t c).pwmOn = pwmOnUs (chan s c).applied (appPeriod s c) ∧ (chan t c).pwmPer = appPeriod s c) ∧
    (∀ (b : Fin 12) (v : Word), Reaches s 7 → bitOf v 0 = true → ∃ t, exec (.bnkSafeCmd b v) s = .next t ∧ Frame [.regs, .pts,
      .banks, .ch, .evq, .can, .ble] s t ∧
      BanksOnly [b.val] s t ∧ ChansOnly (bankChans b) s t ∧
        bank t b = { bank s b with causes := (bank s b).causes ||| oneBit 7, safe := true } ∧
      ((bank s b).safe = false → Raised (oBank b + 0x18) 5 s t)) ∧
    (∀ (b : Fin 12) (v : Word), Reaches s 7 → bitOf v 0 = true → ∃ t, exec (.bnkRelease b v) s = .next t ∧ Frame [.banks] s t ∧
      BanksOnly [b.val] s t ∧ bitOf (bank t b).causes 7 = false ∧ (bank t b).safe = (bank s b).safe ∧
      (bitOf (bank t b).causes 3 = (bitOf (bank s b).causes 3 && !((bank s b).linkUp && (bank s b).heard))) ∧
      (bitOf (bank t b).causes 6 = (bitOf (bank s b).causes 6 && !(bank s b).otClear)) ∧
      (bitOf (bank t b).causes 8 = (bitOf (bank s b).causes 8 && !(bank s b).confirmed)))

/-- Faults of output stages (R192 to R200): a short or an overload switches the stage off and latches it off where no retry is left;
a retry ends the shutdown and is counted; a fault clears while the stage is switched on, and the count of retries with it after the
long time; a shed channel latches off. -/
def Obligations.OutputFaultCommandsEffects : Prop :=
  ∀ s : State,
    (∀ c : Fin 192, digitalOn s c = true → ∃ t, exec (.shortShutdown c) s = .next t ∧ Frame [.ch] s t ∧ ChansOnly [c.val] s t ∧
      (chan t c).tripped = true ∧ stageOn t c = false ∧ bitOf (chan t c).bdiag 7 = true ∧
      bitOf (chan t c).bdiag 10 = (retryMax s c != 15 && decide (retryMax s c ≤ retryUsed s c))) ∧
    (∀ c : Fin 192, digitalOn s c = true → ∃ t, exec (.overloadShutdown c) s = .next t ∧ Frame [.ch] s t ∧ ChansOnly [c.val] s t ∧
      (chan t c).tripped = true ∧ stageOn t c = false ∧ bitOf (chan t c).bdiag 8 = true ∧
      bitOf (chan t c).bdiag 10 = (retryMax s c != 15 && decide (retryMax s c ≤ retryUsed s c))) ∧
    (∀ c : Fin 192, (chan s c).tripped = true → getB s c 10 = false → (chan s c).applied ≠ 0 → (bank s (c / 16)).run = true →
      ∃ t, exec (.outputRetry c) s = .next t ∧ Frame [.ch] s t ∧ ChansOnly [c.val] s t ∧ (chan t c).tripped = false ∧
      retryUsed t c = min 15 (retryUsed s c + 1) ∧ (chan t c).applied = (chan s c).applied) ∧
    (∀ (c : Fin 192) (long : Bool), digitalLive s c = true → ∃ t, exec (.faultClear c long) s = .next t ∧ Frame [.ch] s t ∧
      ChansOnly [c.val] s t ∧ bitOf (chan t c).bdiag 7 = false ∧ bitOf (chan t c).bdiag 8 = false ∧
      retryUsed t c = (if long then 0 else retryUsed s c)) ∧
    (∀ (b : Fin 12) (i : Fin 16), digitalLive s (16 * b.val + i.val) = true → ∃ t, exec (.loadShed b i) s = .next t ∧
      Frame [.regs, .ch, .evq] s t ∧ ChansOnly [16 * b.val + i.val] s t ∧ RegsOnly [oBank b + 0x18] s t ∧
      bitOf (chan t (16 * b.val + i.val)).bdiag 10 = true ∧ bitOf (chan t (16 * b.val + i.val)).bdiag 11 = true ∧
      stageOn t (16 * b.val + i.val) = false ∧ Raised (oBank b + 0x18) 7 s t)

/-- What a bank finds on its channels (R178, R191, R197, R198, R220, R230, R253): each finding sets or clears its bit of the bank's
own diagnostic word and no other channel changes; an open wire makes the input low. What a diagnostic latch has gathered in its 100 ms
is reported at their end. -/
def Obligations.DetectionCommandsEffects : Prop :=
  ∀ s : State,
    (∀ c : Fin 192, isDigIn (appMode s c) = true → openDet s c = true → (bank s (c / 16)).run = true →
      ∃ t, exec (.openWireDetect c true) s = .next t ∧ Frame [.ch] s t ∧ ChansOnly [c.val] s t ∧
        bitOf (chan t c).bdiag 6 = true ∧ (chan t c).filtSt = false ∧ bitOf (chan t c).bdiag 13 = false) ∧
    (∀ c : Fin 192, isDigIn (appMode s c) = true → openDet s c = true → (bank s (c / 16)).run = true →
      ∃ t, exec (.openWireDetect c false) s = .next t ∧ Frame [.ch] s t ∧ ChansOnly [c.val] s t ∧
        chan t c = { chan s c with bdiag := setBit (chan s c).bdiag 6 false }) ∧
    (∀ (c : Fin 192) (o : Bool), isDigOut (appMode s c) = true → openDet s c = true → (bank s (c / 16)).run = true →
      (bank s (c / 16)).driving = true → (o = true → appMode s c = 5 → stageOn s c = true ∧ 1000 ≤ (chan s c).pwmOn) →
      ∃ t, exec (.openLoadDetect c o) s = .next t ∧ Frame [.ch] s t ∧
        ChansOnly [c.val] s t ∧ chan t c = { chan s c with bdiag := setBit (chan s c).bdiag 6 o }) ∧
    (∀ (c : Fin 192) (d : Bool), isDigOut (appMode s c) = true → (bank s (c / 16)).run = true → (bank s (c / 16)).driving = true →
      ∃ t, exec (.extDriveDetect c d) s = .next t ∧ Frame [.ch] s t ∧
      ChansOnly [c.val] s t ∧ chan t c = { chan s c with bdiag := setBit (chan s c).bdiag 9 d }) ∧
    (∀ (c : Fin 192) (x : Bool), appMode s c = 8 → (bank s (c / 16)).run = true → (bank s (c / 16)).driving = true →
      ∃ t, exec (.complianceChange c x) s = .next t ∧ Frame [.ch] s t ∧ ChansOnly [c.val] s t ∧
        chan t c = { chan s c with bdiag := setBit (chan s c).bdiag 16 x }) ∧
    (∀ (c : Fin 192) (x : Bool), appMode s c = 0xA → (bank s (c / 16)).run = true → ∃ t,
      exec (.voltageOutputShort c x) s = .next t ∧
      Frame [.ch] s t ∧ ChansOnly [c.val] s t ∧ chan t c = { chan s c with bdiag := setBit (chan s c).bdiag 7 x }) ∧
    (∀ c : Fin 192, appMode s c = 8 → openDet s c = true → (bank s (c / 16)).run = true → (bank s (c / 16)).driving = true →
      bitOf (chan s c).bdiag 16 = true → fle (dec 1 1) (chan s c).applied = true → ∃ t,
        exec (.currentOutputOpen c true) s = .next t ∧
        Frame [.ch] s t ∧ ChansOnly [c.val] s t ∧ chan t c = { chan s c with bdiag := setBit (chan s c).bdiag 6 true }) ∧
    (∀ c : Fin 192, appMode s c = 8 → openDet s c = true → (bank s (c / 16)).run = true → (bank s (c / 16)).driving = true →
      ∃ t, exec (.currentOutputOpen c false) s = .next t ∧ Frame [.ch] s t ∧ ChansOnly [c.val] s t ∧
        chan t c = { chan s c with bdiag := setBit (chan s c).bdiag 6 false }) ∧
    (∀ c : Fin 192, (chan s c).latPend = 0 → ∃ t, exec (.diagLatchReport c) s = .next t ∧ Frame [.ch] s t ∧ ChansOnly [c.val] s t ∧
      chan t c = { chan s c with latOpen := false }) ∧
    (∀ c : Fin 192, (chan s c).latPend ≠ 0 → ∃ t, exec (.diagLatchReport c) s = .next t ∧ Frame [.ch, .evq] s t ∧
      ChansOnly [c.val] s t ∧ chan t c = { chan s c with latPend := 0, latOpen := true } ∧ Noted (oLatch c) (chan s c).latPend t)

/-- A bank's supply, controller, temperature and watchdog (R201 to R204, R212): each cause enters the safe state's mask of its
own bank, its event is raised, and other banks are left alone. -/
def Obligations.BankHealthCommandsEffects : Prop :=
  ∀ s : State,
    (∀ b : Fin 12, (bank s b).fsGood = true → ∃ t, exec (.fieldSupplyLost b) s = .next t ∧ Frame [.regs, .pts, .banks, .ch,
      .evq, .can, .ble] s t ∧
      BanksOnly [b.val] s t ∧ ChansOnly (bankChans b) s t ∧ bank t b = { bank s b with fsGood := false } ∧
        Raised (oBank b + 0x18) 2 s t ∧
      ∀ i, i < 16 → bitOf (chan t (16 * b + i)).diag 5 = true) ∧
    (∀ b : Fin 12, (bank s b).fsGood = false → ∃ t, exec (.fieldSupplyGood b) s = .next t ∧ Frame [.regs, .pts, .banks, .ch,
      .evq, .can, .ble] s t ∧
      BanksOnly [b.val] s t ∧ ChansOnly (bankChans b) s t ∧ bank t b = { bank s b with fsGood := true } ∧
        Raised (oBank b + 0x18) 3 s t ∧
      ∀ i, i < 16 → bitOf (chan t (16 * b + i)).diag 5 = false) ∧
    (∀ b : Fin 12, ∃ t, exec (.bankControllerReset b) s = .next t ∧ Frame [.regs, .pts, .banks, .ch, .evq, .can, .ble] s t ∧
      BanksOnly [b.val] s t ∧
      ChansOnly (bankChans b) s t ∧ bank t b = bankLost (bank s b) s.base.holdOut ∧
      ∀ i, i < 16 → (chan t (16 * b + i)).count = 0 ∧ stageOn t (16 * b + i) = false) ∧
    (∀ b : Fin 12, (bank s b).run = false → (bank s b).fsGood = true → ∃ t, exec (.bankStart b) s = .next t ∧ Frame [.regs,
      .pts, .banks, .ch, .evq, .can, .ble] s t ∧
      BanksOnly [b.val] s t ∧
        bank t b = { bank s b with run := true, cfgDue := true, cfgAgain := false, confirmed := false, causes := (bank s b).causes ||| oneBit 8, safe := true }) ∧
    (∀ b : Fin 12, (bank s b).run = true → ∃ t, exec (.bankOvertemp b) s = .next t ∧ Frame [.regs, .pts, .banks, .ch, .evq,
      .can, .ble] s t ∧ BanksOnly [b.val] s t ∧
      bank t b = { bank s b with otClear := false, causes := (bank s b).causes ||| oneBit 6, safe := true } ∧
      (bitOf (bank s b).causes 6 = false → bitOf (rget t (oBank b + 0x18)) 4 = true)) ∧
    (∀ b : Fin 12, bitOf (bank s b).causes 6 = true → ∃ t, exec (.overtempClearable b) s = .next t ∧ Frame [.banks] s t ∧
      BanksOnly [b.val] s t ∧ (bank t b).otClear = true ∧ bitOf (bank t b).causes 6 = !autoRelease s b) ∧
    (∀ b : Fin 12, (bank s b).run = true → ∃ t, exec (.bankWatchdogExpiry b) s = .next t ∧ Frame [.regs, .pts, .banks, .ch,
      .evq, .can, .ble] s t ∧
      BanksOnly [b.val] s t ∧ bank t b = { bank s b with heard := false, causes := (bank s b).causes ||| oneBit 3, safe := true } ∧
      bitOf (rget t (oBank b + 0x18)) 0 = true)

/-- Samples of digital inputs (R173 to R179): the level has hysteresis, the filter counts toward its length, and a counted
edge advances the count by one, modulo 2 to the 32. -/
def Obligations.InputSampleCommandsEffects : Prop :=
  ∀ s : State,
    (∀ (c : Fin 192) (mv : Nat), isDigIn (appMode s c) = true → (bank s (c / 16)).run = true → ∃ t,
      exec (.inputSample c mv) s = .next t ∧
      Frame [.ch] s t ∧ ChansOnly [c.val] s t ∧ (chan t c).fresh = false ∧
      (chan t c).samp = (if 9500 ≤ mv then true else if mv ≤ 8000 then false else !(chan s c).fresh && (chan s c).samp) ∧
      (chan t c).filt = (if (chan s c).fresh then (if (chan t c).samp then fld (appCh s c 4) 7 0 else 0)
        else if (chan t c).samp then min ((chan s c).filt + 1) (fld (appCh s c 4) 7 0) else (chan s c).filt - 1) ∧
      (chan t c).filtSt = (!bitOf (chan s c).bdiag 6 && (if (chan s c).fresh then (chan t c).samp
        else if (chan t c).filt = fld (appCh s c 4) 7 0 then true else if (chan t c).filt = 0 then false else (chan s c).filtSt)) ∧
      bitOf (chan t c).bdiag 13 = (chan t c).filtSt ∧ (chan t c).count = (chan s c).count) ∧
    (∀ (c : Fin 192) (mv : Nat), appMode s c = 2 → (bank s (c / 16)).run = true → ∃ t, exec (.countPathSample c mv) s = .next t ∧
      Frame [.ch] s t ∧ ChansOnly [c.val] s t ∧ (chan t c).cfresh = false ∧
      (chan t c).csamp = (if 9500 ≤ mv then true else if mv ≤ 8000 then false else !(chan s c).cfresh && (chan s c).csamp) ∧
      (chan t c).count = ((chan s c).count + (if (chan s c).cfresh || (chan t c).cfiltSt == (chan s c).cfiltSt then 0
        else match fld (appCh s c 4) 13 12 with
          | 0 => (chan t c).cfiltSt.toNat
          | 1 => (chan s c).cfiltSt.toNat
          | _ => 1)) % 2 ^ 32)

/-- The loop control engine (R326 to R362, R569, R571): a firing starts its pass, whose computed loops are sent when it ends, waits
behind the pass in progress, or is dropped and counted where its pass waits already; an uncorrectable error stops the controller and
a corrected one is counted. A waiting pass starts once none runs. A commit of the loop set is requested and built,
  and the saturation
times are saved. -/
def Obligations.LoopEngineCommandsEffects : Prop :=
  ∀ s : State,
    (∀ c, dueCommits s = c → ∀ n : Fin 1024, lcePending c = false → (fireEntry c n.val 2).isSome = true → computes c = true →
      lceClock c = true →
      c.lce.wait = [] → c.lce.run = none → ∃ t, exec (.lcePass n .clean) s = .next t ∧ Frame [.regs, .live, .pts, .phc, .banks,
        .ch, .rings, .evq, .msixPend, .forces, .can, .lce, .ble, .twn, .out] s t ∧
        t.phc.last = some (absA s, 2, n.val) ∧ t.lce.wait = [] ∧
        (∀ k ∈ enLoops c.live, isDue c (entryArg c n.val) (absA s / 2048) k = true →
          k ∈ t.lce.sent ∨ ∃ r ∈ t.lce.run, k ∈ r.loops.map Prod.fst) ∧
        (∀ r, t.lce.run = some r → r.unit = absA s ∧ absA s < r.stop)) ∧
    (∀ c, dueCommits s = c → ∀ n : Fin 1024, lcePending c = false → (fireEntry c n.val 2).isSome = true → computes c = true →
      lceClock c = true →
      c.lce.run.isSome = true → c.lce.wait.any (fun w => w.2 == entryArg c n.val) = false →
      ∃ t, exec (.lcePass n .clean) s = .next t ∧ Frame [.regs, .live, .pts, .phc, .banks, .ch, .rings, .evq, .msixPend,
        .forces, .can, .lce, .ble, .twn, .out] s t ∧ t.phc.last = some (absA s, 2, n.val) ∧
        t.lce = { c.lce with wait := c.lce.wait ++ [(absA s, entryArg c n.val)] }) ∧
    (∀ c, dueCommits s = c → ∀ n : Fin 1024, lcePending c = false → (fireEntry c n.val 2).isSome = true → computes c = true →
      lceClock c = true →
      c.lce.wait.any (fun w => w.2 == entryArg c n.val) = true → ∃ t, exec (.lcePass n .clean) s = .next t ∧ Frame [.regs,
        .live, .pts, .phc, .banks, .ch, .rings, .evq, .msixPend, .forces, .can, .lce, .ble, .twn, .out] s t ∧
        t.phc.last = some (absA s, 2, n.val) ∧ t.lce = c.lce ∧ rget t oLceSkip = rget c oLceSkip + 1 ∧
        bitOf (rget t oLceEvent) 0 = true) ∧
    (∀ c, dueCommits s = c → ∀ n : Fin 1024, lcePending c = false → (fireEntry c n.val 2).isSome = true → computes c = true →
      lceClock c = true →
      ∃ t, exec (.lcePass n .corrected) s = .next t ∧ Frame [.regs, .live, .pts, .phc, .banks, .ch, .rings, .evq, .msixPend,
        .forces, .can, .lce, .ble, .twn, .out] s t ∧ t.phc.last = some (absA s, 2, n.val) ∧
        rget t oEccCorr = rget c oEccCorr + 1) ∧
    (∀ c, dueCommits s = c → ∀ n : Fin 1024, lcePending c = false → (fireEntry c n.val 2).isSome = true → computes c = true →
      lceClock c = true →
      ∃ t, exec (.lcePass n .uncorrectable) s = .next t ∧ Frame [.regs, .live, .pts, .phc, .banks, .ch, .rings, .evq,
        .msixPend, .forces, .can, .lce, .ble, .twn, .out] s t ∧ t.phc.last = some (absA s, 2, n.val) ∧
        t.ble.running = false ∧ t.ble.stopCause = 7 ∧ t.lce.wait = [] ∧ t.lce.run = none ∧ bitOf (rget t oIntegEvent) 4 = true) ∧
    (∀ w, s.lce.wait.head? = some w → s.lce.run = none → computes s = true → lceClock s = true → ∃ t,
      exec .waitingPassStart s = .next t ∧
      Frame [.regs, .pts, .banks, .ch, .evq, .can, .lce, .ble, .out] s t ∧ t.lce.wait = s.lce.wait.tail ∧
      (∀ k ∈ enLoops s.live, isDue s w.2 (w.1 / 2048) k = true → k ∈ t.lce.sent ∨ ∃ r ∈ t.lce.run, k ∈ r.loops.map Prod.fst)) ∧
    (∀ v : Word, Reaches s 2 → bitOf v 0 = true → isStandby s = false → lcePending s = false → ∃ t,
      exec (.lceCommit v) s = .next t ∧
      Frame [.regs, .evq, .lce] s t ∧ RegsOnly [oLceCommitStatus] s t ∧
        rget t oLceCommitStatus = rget s oLceCommitStatus ||| oneBit 31 ∧
      t.lce = { s.lce with build := some (s.regs.filter (fun e => inLceSet e.1)), built := false }) ∧
    (∀ v : Word, Reaches s 2 → bitOf v 0 = true → isStandby s = true → ∃ t, exec (.lceCommit v) s = .next t ∧
      Frame [.regs, .evq, .lce] s t ∧ RegsOnly [oTwnEvent] s t ∧ t.lce = s.lce ∧ Raised oTwnEvent 10 s t) ∧
    (lceClock s = true → s.lce.build.isSome = true → ∃ t, exec .lceBuildComplete s = .next t ∧ Frame [.lce] s t ∧
      t.lce = { s.lce with built := true }) ∧
    (lceClock s = true → started s = true → s.clk.resetWait = none → ∃ t, exec .saturationSave s = .next t ∧
      Frame [.lce] s t ∧ t.lce = { s.lce with satArea := t.lce.satArea, satAt := s.rtc.optime } ∧
      t.lce.satArea = s.lce.loops.filterMap (fun e => if e.2.satTot = 0 ∧ e.2.satCnt = 0 ∧ e.2.satFrac = 0 then none
        else some (e.1, (e.2.satTot, e.2.satCnt, e.2.satFrac))))

/-- Task cycles (R381 to R396): a firing starts its cycle where none runs or waits, is an overrun that stops the controller where
its task without COMFORT still waits,
  and an uncorrectable error stops the controller. A preempted cycle goes on; a cycle commits its
count and its duration; a retain save goes into the copy that does not hold the latest one, and so does an image into the store. -/
def Obligations.TaskCycleCommandsEffects : Prop :=
  ∀ s : State,
    (∀ c, dueCommits s = c → ∀ (n : Fin 1024) (executed : Nat), (fireEntry c n.val 3).isSome = true → computes c = true →
      bleClock c = true →
      (c.img.bind (fun im => taskOf im (entryArg c n.val))).isSome = true → (task c (entryArg c n.val)).stopped = false →
      inCycle c (entryArg c n.val) = false → waitsFiring c (entryArg c n.val) = false → c.ble.run = none → c.ble.stack = [] →
      c.ble.wait = [] → mayLatch c (absA s) = true → ∃ t, exec (.bleTask n executed .clean) s = .next t ∧ Frame [.regs, .live,
        .pts, .phc, .banks, .ch, .rings, .evq, .msixPend, .forces, .can, .lce, .ble, .twn, .out] s t ∧
        t.phc.last = some (absA s, 3, n.val) ∧ t.ble.run.map Cycle.task = some (entryArg c n.val) ∧
        t.ble.run.map Cycle.unit = some (absA s) ∧ t.ble.wait = [] ∧ t.ble.stack = []) ∧
    (∀ c, dueCommits s = c → ∀ (n : Fin 1024) (executed : Nat), (fireEntry c n.val 3).isSome = true → computes c = true →
      bleClock c = true →
      ∀ d, c.img.bind (fun im => taskOf im (entryArg c n.val)) = some d → d.comfort = false →
        (task c (entryArg c n.val)).stopped = false →
      waitsFiring c (entryArg c n.val) = true → ∃ t, exec (.bleTask n executed .clean) s = .next t ∧ Frame [.regs, .live, .pts,
        .phc, .banks, .ch, .rings, .evq, .msixPend, .forces, .can, .lce, .ble, .twn, .out] s t ∧
        t.phc.last = some (absA s, 3, n.val) ∧ t.ble.running = false ∧ t.ble.stopCause = 4 ∧ t.ble.tripTask = entryArg c n.val ∧
        bitOf (rget t oBleEvent) 0 = true) ∧
    (∀ c, dueCommits s = c → ∀ (n : Fin 1024) (executed : Nat), (fireEntry c n.val 3).isSome = true → computes c = true →
      bleClock c = true →
      c.img.isSome = true → ∃ t, exec (.bleTask n executed .uncorrectable) s = .next t ∧ Frame [.regs, .live, .pts, .phc,
        .banks, .ch, .rings, .evq, .msixPend, .forces, .can, .lce, .ble, .twn, .out] s t ∧
        t.phc.last = some (absA s, 3, n.val) ∧ t.ble.running = false ∧ t.ble.stopCause = 7) ∧
    (bleClock s = true → s.ble.run = none → s.ble.wait = [] → ∀ c, s.ble.stack.head? = some c → ∃ t,
      exec .taskCycleResume s = .next t ∧
      Frame [.ble, .free] s t ∧ t.ble = { s.ble with run := some c, stack := s.ble.stack.tail }) ∧
    (∀ time : Nat, bleClock s = true → ∀ c, s.ble.run = some c → ∀ im, s.img = some im → (taskOf im c.task).isSome = true →
      ∃ t, exec (.taskCycleCommit time) s = .next t ∧ Frame [.regs, .pts, .clk, .banks, .ch, .rings, .evq, .recq, .recSlots,
        .recNext, .recLost, .recLostCls, .msixPend, .eth, .can, .lce, .ble, .out] s t ∧
        (task t c.task).cycles = (task s c.task).cycles + 1 ∧ (task t c.task).last = min time 65535 ∧
        (task t c.task).max = max (task s c.task).max (min time 65535) ∧ (s.ble.wait = [] → t.ble.run = none)) ∧
    (∀ c, s.ble.saving = some c → latestIsA s = true → ∃ t, exec .retainSaveDone s = .next t ∧ Frame [.regs, .clk, .rings,
      .evq, .recq, .recSlots, .recNext, .recLost, .recLostCls, .msixPend, .lce, .ble, .out] s t ∧
      t.ble.retB = some c ∧ t.ble.retA = s.ble.retA ∧ (s.ble.again = false → t.ble.saving = none)) ∧
    (∀ c, s.ble.saving = some c → latestIsA s = false → ∃ t, exec .retainSaveDone s = .next t ∧ Frame [.regs, .clk, .rings,
      .evq, .recq, .recSlots, .recNext, .recLost, .recLostCls, .msixPend, .lce, .ble, .out] s t ∧
      t.ble.retA = some c ∧ t.ble.retB = s.ble.retB ∧ (s.ble.again = false → t.ble.saving = none)) ∧
    (∀ c, s.ble.storing = some c → latestIs0 s = true → ∃ t, exec .programStoreWriteDone s = .next t ∧
      Frame [.ble] s t ∧ t.ble = { s.ble with store1 := some c, storing := none }) ∧
    (∀ c, s.ble.storing = some c → latestIs0 s = false → ∃ t, exec .programStoreWriteDone s = .next t ∧
      Frame [.ble] s t ∧ t.ble = { s.ble with store0 := some c, storing := none })

/-- Online activation (R422 to R448): the build ends; the switch puts the new image in place at its window with the data its plan
carries, and one that finds poisoned data stops the controller with the old image; an activation that finds no window within 256
cycles ends with the running program untouched. -/
def Obligations.OnlineChangeCommandsEffects : Prop :=
  ∀ s : State,
    (∀ a, s.ble.act = some a → a.built = false → ∃ t, exec .onlineBuildComplete s = .next t ∧ Frame [.ble] s t ∧
      t.ble = { s.ble with act := some { a with built := true, builtAt := absA s } }) ∧
    (∀ a, s.ble.act = some a → ∀ old, s.img = some old → ∀ new, s.ble.inactive = some new →
      windowOpen s a (carryPlan old new).length = true → (a.schedWith = true → phcCheck s (some new) = none) →
      ∃ t, exec (.onlineSwitch none) s = .next t ∧ Frame [.regs, .live, .pts, .phc, .banks, .ch, .rings, .evq, .msixPend,
        .forces, .img, .can, .lce, .ble, .twn, .out] s t ∧ t.ble.act = none ∧ t.img = some new ∧
        t.ble.inactive = some old ∧ t.ble.running = true ∧ t.ble.switchSave = true ∧
        t.ble.data = carriedData s.ble.data new (carryPlan old new)) ∧
    (∀ i : Nat, ∀ a, s.ble.act = some a → ∀ old, s.img = some old → ∀ new, s.ble.inactive = some new →
      windowOpen s a (carryPlan old new).length = true → (a.schedWith = true → phcCheck s (some new) = none) →
      ∃ t, exec (.onlineSwitch (some i)) s = .next t ∧ Frame [.regs, .live, .pts, .phc, .banks, .ch, .rings, .evq, .msixPend,
        .forces, .img, .can, .lce, .ble, .twn, .out] s t ∧ t.ble.act = none ∧ t.img = some old ∧
        t.ble.inactive = some new ∧ t.ble.running = false ∧ t.ble.stopCause = 6 ∧ bitOf (rget t oIntegEvent) 11 = true) ∧
    (∀ a, s.ble.act = some a → a.built = true → a.builtAt + 256 * 4096 < absA s → ∃ t, exec .noWindow s = .next t ∧
      Frame [.rings, .msixPend, .ble, .out] s t ∧ t.ble.act = none ∧ t.img = s.img ∧ t.ble.data = s.ble.data ∧
        t.ble.running = s.ble.running)

/-- CAN ports and their set-up (R627 to R643): a port with legal bit timings takes part in its bus,
  one without sets CFG_ERR and stays
off it, one that is disabled ends every pending frame; a buffer or map entry is enabled within its ranges, and outside them it
stays disabled and sets CFG_ERR. -/
def Obligations.CanSetupCommandsEffects : Prop :=
  ∀ s : State,
    (∀ (p : Fin 4) (v : Word), Reaches s (10 + p.val) → canEn s p = false →
      timingOk (rget s (oCan p + 4)) (rget s (oCan p + 8)) = true → ∃ t, exec (.canPortEnable p v) s = .next t ∧
        Frame [.regs, .rings, .evq, .msixPend, .can, .out] s t ∧ RegsOnly [oCan p] s t ∧ canEn t p = true ∧ (canPort t p).st = 0 ∧
        (canPort t p).tec = 0 ∧ (canPort t p).rec_ = 0 ∧ (canPort t p).monitor = !canHolds s ∧ (canPort t p).fd = bitOf v 1) ∧
    (∀ (p : Fin 4) (v : Word), Reaches s (10 + p.val) → canEn s p = false →
      timingOk (rget s (oCan p + 4)) (rget s (oCan p + 8)) = false → ∃ t, exec (.canPortEnable p v) s = .next t ∧
        Frame [.regs, .rings, .evq, .msixPend, .can, .out] s t ∧ canEn t p = false ∧ t.can = s.can ∧
        bitOf (rget t (oCan p + 0x10)) 4 = true) ∧
    (∀ (p : Fin 4) (v : Word), Reaches s (10 + p.val) → canEn s p = true → ∃ t, exec (.canPortDisable p v) s = .next t ∧
      Frame [.regs, .rings, .evq, .msixPend, .can, .out] s t ∧ canEn t p = false ∧ (canPort t p).monitor = false ∧
        (canPort t p).recovering = false ∧
      RegsOnly [oCan p] s t ∧ ∀ b, b < 64 → (canBuf t p b).tx = none) ∧
    (∀ (p : Fin 4) (b : Fin 64) (v : Word), Reaches s (10 + p.val) → bitOf (rget s (oCanBuf p b)) 0 = false → bitOf v 0 = true →
      canBufOk s p b v = true → imageClash (rwrite s (oCanBuf p b) v) = false → ∃ t, exec (.canBufferEnable p b v) s = .next t ∧
        Frame [.regs, .evq, .can] s t ∧ RegsOnly [oCanBuf p b] s t ∧
        rget t (oCanBuf p b) = writeWord (regInfo (oCanBuf p b)) (rget s (oCanBuf p b)) v ∧
        (canBuf t p b).has = false ∧ (canBuf t p b).stale = false ∧ (canBuf t p b).dirty = false ∧ (canBuf t p b).next = s.up) ∧
    (∀ (p : Fin 4) (b : Fin 64) (v : Word), Reaches s (10 + p.val) → bitOf (rget s (oCanBuf p b)) 0 = false → bitOf v 0 = true →
      canBufOk s p b v = false → ∃ t, exec (.canBufferEnable p b v) s = .next t ∧ Frame [.regs, .evq, .can] s t ∧
        RegsOnly [oCanBuf p b, oCan p + 0x10] s t ∧ bitOf (rget t (oCanBuf p b)) 0 = false ∧
        bitOf (rget t (oCan p + 0x10)) 4 = true ∧ t.can = s.can) ∧
    (∀ (m : Fin 256) (v : Word), Reaches s 0 → bitOf (rget s (oCanMap m)) 0 = false → bitOf v 0 = true → canMapOk s m v = true →
      imageClash (rwrite s (oCanMap m) v) = false → ∃ t, exec (.canMapEnable m v) s = .next t ∧ Frame [.regs, .evq] s t ∧
        RegsOnly [oCanMap m] s t ∧ rget t (oCanMap m) = writeWord (regInfo (oCanMap m)) (rget s (oCanMap m)) v) ∧
    (∀ (m : Fin 256) (v : Word), Reaches s 0 → bitOf (rget s (oCanMap m)) 0 = false → bitOf v 0 = true → canMapOk s m v = false →
      ∃ t, exec (.canMapEnable m v) s = .next t ∧ Frame [.regs, .evq] s t ∧ bitOf (rget t (oCanMap m)) 0 = false ∧
        bitOf (rget t (oCan (fld v 2 1) + 0x10)) 4 = true)

/-- Frames and error states on a CAN bus (R632 to R648): a frame taken counts and lands in the buffer it matches,
  a remote or unmatched
one is counted; a transmission that succeeds sends its frame, one that fails ends a one-shot frame and leaves another pending. The
error state follows the counters, bus-off ends every pending frame,
  and a port recovers from it. A monitoring port joins its bus with
the ball, a mapped buffer sends the frame of its points, and a buffer too long without a frame goes stale. -/
def Obligations.CanBusCommandsEffects : Prop :=
  ∀ s : State,
    (∀ (p : Fin 4) (id : BitVec 29) (ide fdf brs : Bool) (bytes : List Nat), canOnBus s p = true → (canPort s p).st ≠ 2 →
      (fdf = true → (canPort s p).fd = true) → canLenOk fdf bytes.length = true →
      ∀ b, canMatch s p (id.toNat % 2 ^ (if ide then 29 else 11)) ide fdf = some b →
      ∃ t, exec (.canFrameReceived p id ide fdf brs false bytes) s = .next t ∧ Frame [.pts, .can, .ble] s t ∧
        (canPort t p).rx = (canPort s p).rx + 1 ∧ (canBuf t p b).arrivals = (canBuf s p b).arrivals + 1 ∧
        (canBuf t p b).bytes = bytes.map (· % 256) ∧ (canBuf t p b).has = true ∧ (canBuf t p b).stale = false ∧
        (canBuf t p b).at_ = s.up) ∧
    (∀ (p : Fin 4) (id : BitVec 29) (ide fdf brs remote : Bool) (bytes : List Nat), canOnBus s p = true → (canPort s p).st ≠ 2 →
      (fdf = true → (canPort s p).fd = true) → canLenOk fdf bytes.length = true →
      (remote = true ∨ canMatch s p (id.toNat % 2 ^ (if ide then 29 else 11)) ide fdf = none) →
      ∃ t, exec (.canFrameReceived p id ide fdf brs remote bytes) s = .next t ∧ Frame [.pts, .can, .ble] s t ∧
        canPort t p = { canPort s p with rx := (canPort s p).rx + 1, unmatched := (canPort s p).unmatched + 1 }) ∧
    (∀ (p : Fin 4) (b : Fin 64), ∀ x, (canBuf s p b).tx = some x → canSends s p = true → canTurn s p b x = true →
      ∃ t, exec (.canTransmitEnd p b 0) s = .next t ∧ Frame [.rings, .msixPend, .can, .out] s t ∧ (canBuf t p b).tx = none ∧
        (canPort t p).tx = (canPort s p).tx + 1 ∧ (canBuf t p b).arrivals = (canBuf s p b).arrivals + 1 ∧
        Out.can p (canIdWord x.id x.ide x.fdf x.brs) x.bytes ∈ t.out) ∧
    (∀ (p : Fin 4) (b : Fin 64) (cause : Fin 4), ∀ x, (canBuf s p b).tx = some x → canSends s p = true → canTurn s p b x = true →
      cause.val ≠ 0 → x.oneShot = true → ∃ t, exec (.canTransmitEnd p b cause) s = .next t ∧ Frame [.rings, .msixPend, .can,
        .out] s t ∧
        (canBuf t p b).tx = none ∧ (canPort t p).tx = (canPort s p).tx ∧ (canBuf t p b).arrivals = (canBuf s p b).arrivals) ∧
    (∀ (p : Fin 4) (b : Fin 64) (cause : Fin 4), ∀ x, (canBuf s p b).tx = some x → canSends s p = true → canTurn s p b x = true →
      cause.val ≠ 0 → x.oneShot = false → ∃ t, exec (.canTransmitEnd p b cause) s = .next t ∧ Frame [.can] s t ∧
        canPort t p = { canPort s p with mark := (canPort s p).ord }) ∧
    (∀ (p : Fin 4) (tec rec_ : Nat), canOnBus s p = true → (canPort s p).monitor = false → (canPort s p).st ≠ 2 → 255 < tec →
      ∃ t, exec (.canErrorStateChange p tec rec_) s = .next t ∧ Frame [.regs, .rings, .evq, .msixPend, .can, .out] s t ∧
        (canPort t p).st = 2 ∧
        (canPort t p).tec = 255 ∧ bitOf (rget t (oCan p + 0x10)) 1 = true ∧ ∀ b, b < 64 → (canBuf t p b).tx = none) ∧
    (∀ (p : Fin 4) (tec rec_ : Nat), canOnBus s p = true → (canPort s p).monitor = false → (canPort s p).st ≠ 2 → tec ≤ 255 →
      ∃ t, exec (.canErrorStateChange p tec rec_) s = .next t ∧ Frame [.regs, .rings, .evq, .msixPend, .can, .out] s t ∧
        canPort t p = { canPort s p with st := if 128 ≤ tec ∨ 128 ≤ rec_ then 1 else 0, tec := tec, rec_ := min rec_ 255 } ∧
        (128 ≤ tec → (canPort s p).st = 0 → bitOf (rget t (oCan p + 0x10)) 0 = true)) ∧
    (∀ p : Fin 4, Reaches s (10 + p.val) → canOnBus s p = true → (canPort s p).monitor = false → (canPort s p).st = 2 →
      ∃ t, exec (.canRecoverCmd p) s = .next t ∧ Frame [.can] s t ∧
        canPort t p = { canPort s p with recovering := true }) ∧
    (∀ p : Fin 4, (canPort s p).recovering = true → ∃ t, exec (.canRecovered p) s = .next t ∧ Frame [.regs, .rings, .evq,
      .msixPend, .can, .out] s t ∧
      canPort t p = { canPort s p with recovering := false, st := 0, tec := 0, rec_ := 0 } ∧
        bitOf (rget t (oCan p + 0x10)) 2 = true) ∧
    (∀ p : Fin 4, canOnBus s p = true → canHolds s = true → (canPort s p).monitor = true → ∃ t, exec (.canBallTaken p) s = .next t ∧
      Frame [.can] s t ∧ (canPort t p).monitor = false ∧ (canPort t p).st = 0 ∧ (canPort t p).tec = 0 ∧
      (canPort t p).rec_ = 0 ∧ ∀ b, b < 64 → bitOf (rget s (oCanBuf p b)) 2 = true → (canBuf t p b).next = s.up) ∧
    (∀ (p : Fin 4) (b : Fin 64), bitOf (rget s (oCanBuf p b)) 0 = true → bitOf (rget s (oCanBuf p b)) 1 = true →
      bitOf (rget s (oCanBuf p b)) 2 = true → rfld s (oCanBuf p b + 0xC) 24 23 ≠ 0 → s.ble.running = true → canSends s p = true →
      mappedDue s p b = true → (canBuf s p b).tx = none → ∃ t, exec (.mappedTx p b) s = .next t ∧ Frame [.can] s t ∧
      ((canBuf t p b).tx.map CanTx.bytes) = some (encodeMaps s p b) ∧ (canBuf t p b).dirty = false ∧
        (canBuf t p b).last = some s.up) ∧
    (∀ (p : Fin 4) (b : Fin 64), bitOf (rget s (oCanBuf p b)) 0 = true → bitOf (rget s (oCanBuf p b)) 1 = false →
      rfld s (oCanBuf p b + 0xC) 15 0 ≠ 0 → (canBuf s p b).has = true → (canBuf s p b).stale = false →
      (canBuf s p b).at_ + rfld s (oCanBuf p b + 0xC) 15 0 * 1000000 < s.up →
      ∃ t, exec (.canRxStale p b) s = .next t ∧ Frame [.regs, .pts, .evq, .can, .ble] s t ∧ (canBuf t p b).stale = true ∧
      (canBuf t p b).bytes = (canBuf s p b).bytes ∧ bitOf (rget t (oCan p + 0x10)) 3 = true)

/-- The ball and the loss of rally (R459 to R489, R496): a granted request asserts HOLD_OUT, for a holder its own line,
  for a standby the
takeover of a planned handoff whose final frame has come,
  or of a partner that is gone; the partner's line or the lease takes the ball
away. A sense path opens and the Twinlink changes. A Twinlink or Fieldlink miss is counted,
  and a synchronised standby that misses its
holder on both paths takes the ball. -/
def Obligations.BallCommandsEffects : Prop :=
  ∀ s : State,
    (∀ tie : Bool, s.base.holdOut = false → s.base.holdIn = false → grants s tie = true → s.twn.role = 1 →
      ∃ t, exec (.ballRequest tie) s = .next t ∧ Frame [.regs, .pts, .base, .hold, .phc, .banks, .ch, .rings, .evq, .msixPend,
        .can, .lce, .ble, .twn, .out] s t ∧ t.base.holdOut = true ∧ t.twn = s.twn ∧
        t.ble = s.ble) ∧
    (∀ tie : Bool, s.base.holdOut = false → s.base.holdIn = false → grants s tie = true → s.twn.role = 2 →
      bitOf s.twn.own 7 = false →
      ∀ p, s.twn.plan = some p → p.out = true → ∃ t, exec (.ballRequest tie) s = .next t ∧ Frame [.regs, .pts, .base, .hold,
        .phc, .banks, .ch, .rings, .evq, .msixPend, .can, .lce, .ble, .twn, .out] s t ∧
        t.base.holdOut = true ∧ t.twn.role = 1 ∧ t.twn.cause = p.cause ∧ t.twn.count = (s.twn.count + 1) % 65536 ∧ t.twn.lease = 3 ∧
        t.twn.from_ = p.at_ * 4096 + 256 ∧ t.phc.timed = [] ∧ bitOf (rget t oTwnEvent) 0 = true) ∧
    (∀ tie : Bool, s.base.holdOut = false → s.base.holdIn = false → grants s tie = true → s.twn.role = 2 →
      bitOf s.twn.own 7 = false →
      s.twn.plan = none → s.twn.partner ≠ 1 → s.twn.isolated = false → bitOf (rget s oTwnCtrl) 1 = true →
      ∃ t, exec (.ballRequest tie) s = .next t ∧ Frame [.regs, .pts, .base, .hold, .phc, .banks, .ch, .rings, .evq, .msixPend,
        .can, .lce, .ble, .twn, .out] s t ∧ t.base.holdOut = true ∧ t.twn.role = 1 ∧
        t.twn.cause = 6 ∧ t.twn.count = (s.twn.count + 1) % 65536 ∧ t.twn.lease = 3 ∧ bitOf (rget t oTwnEvent) 0 = true) ∧
    (onTwin s = true → ∃ t, exec (.holdLineChange false) s = .next t ∧ Frame [.regs, .pts, .base, .hold, .phc, .clk, .banks,
      .ch, .rings, .evq, .recq, .recLost, .recLostCls, .msixPend, .can, .lce, .ble, .twn, .upd, .out] s t ∧
      baseRest t = { baseRest s with holdIn := false } ∧ t.twn = s.twn ∧ t.ble = s.ble) ∧
    (onTwin s = true → s.twn.role = 1 → s.twn.plan = none → s.base.holdOut = true → ∃ t, exec (.holdLineChange true) s = .next t ∧
      Frame [.regs, .pts, .base, .hold, .phc, .clk, .banks, .ch, .rings, .evq, .recq, .recLost, .recLostCls, .msixPend, .can,
        .lce, .ble, .twn, .upd, .out] s t ∧ t.base.holdIn = true ∧ t.base.holdOut = false ∧ t.twn.role = 2 ∧ t.phc.timed = [] ∧
      t.ble.run = none ∧ t.ble.wait = [] ∧ t.lce.wait = [] ∧ t.lce.run = none ∧ bitOf (rget t oTwnEvent) 1 = true) ∧
    (onTwin s = true → s.twn.role ≠ 1 → ∃ t, exec (.holdLineChange true) s = .next t ∧ Frame [.regs, .pts, .base, .hold, .phc,
      .clk, .banks, .ch, .rings, .evq, .recq, .recLost, .recLostCls, .msixPend, .can, .lce, .ble, .twn, .upd, .out] s t ∧
      t.base.holdIn = true ∧ t.base.holdOut = false ∧ t.twn = s.twn) ∧
    (onTwin s = true → s.base.holdOut = true → s.phc.fire = true → s.twn.lease = 0 → ∃ t, exec .leaseExpiry s = .next t ∧
      Frame [.regs, .pts, .base, .hold, .phc, .banks, .ch, .rings, .evq, .msixPend, .can, .lce, .ble, .twn, .out] s t ∧
        t.base.holdOut = false ∧ t.twn.leaseExp = true ∧ t.twn.lease = 0 ∧ t.twn.role = 2 ∧
      bitOf (rget t oTwnEvent) 1 = true) ∧
    (onTwin s = true → s.base.holdOut = false → ∃ t, exec .sensePathOpen s = .next t ∧ Frame [.twn] s t ∧
      t.twn = { s.twn with senseOpen := true }) ∧
    (∀ up : Bool, onTwin s = true → ∃ t, exec (.twinlinkLinkDown up) s = .next t ∧ Frame [.regs, .evq, .twn] s t ∧
      t.twn.tlUp = up ∧ t.twn.role = s.twn.role ∧ (up = false → s.twn.role = 2 → t.twn.reason = 1 ∨ t.twn.reason = 2)) ∧
    (onTwin s = true → clockRuns s = true → s.twn.role ≠ 0 → absA s = s.twn.sampleA + 256 →
      s.twn.tlHalf ≠ some (s.twn.sampleA / 2048) →
      ∃ t, exec .twinlinkCheck s = .next t ∧ Frame [.regs, .pts, .base, .hold, .phc, .banks, .ch, .rings, .evq, .msixPend,
        .can, .lce, .ble, .twn, .out] s t ∧ t.twn.tlMissTot = (s.twn.tlMissTot + 1) % 65536 ∧
        t.twn.tlMiss = min 7 (s.twn.tlMiss + 1)) ∧
    (onTwin s = true → clockRuns s = true → absA s = s.twn.sampleA + 256 → s.twn.tlHalf ≠ some (s.twn.sampleA / 2048) →
      s.twn.role = 2 → s.twn.partner = 1 → s.twn.isolated = false → s.twn.reason = 0 → bitOf s.twn.own 7 = false →
        3 ≤ s.twn.tlMiss →
      4 ≤ s.twn.flMiss → grants s false = true → ∃ t, exec .twinlinkCheck s = .next t ∧ Frame [.regs, .pts, .base, .hold, .phc,
        .banks, .ch, .rings, .evq, .msixPend, .can, .lce, .ble, .twn, .out] s t ∧
        t.twn.role = 1 ∧ t.base.holdOut = true ∧ t.twn.cause = 1 ∧ t.twn.from_ = absA s + 64 ∧ bitOf (rget t oTwnEvent) 2 = true) ∧
    (onTwin s = true → s.twn.role ≠ 0 → ∃ t, exec .fieldlinkMiss s = .next t ∧ Frame [.regs, .pts, .base, .hold, .phc, .banks,
      .ch, .rings, .evq, .msixPend, .can, .lce, .ble, .twn, .out] s t ∧
      t.twn.flMissTot = (s.twn.flMissTot + 1) % 65536 ∧ t.twn.flMiss = min 7 (s.twn.flMiss + 1) ∧ t.twn.flUp = false) ∧
    (onTwin s = true → s.twn.role = 2 → s.twn.partner = 1 → s.twn.isolated = false → s.twn.reason = 0 → bitOf s.twn.own 7 = false →
      4 ≤ s.twn.tlMiss → 3 ≤ s.twn.flMiss → grants s false = true → ∃ t, exec .fieldlinkMiss s = .next t ∧
        Frame [.regs, .pts, .base, .hold, .phc, .banks, .ch, .rings, .evq, .msixPend, .can, .lce, .ble, .twn, .out] s t ∧
        t.twn.role = 1 ∧ t.base.holdOut = true ∧ t.twn.cause = 1 ∧ t.twn.from_ = absA s + 64)

/-- What passes between the two modules (R464, R466 to R478,
  R602 to R606): a sample sends a holder's state frame and renews its lease,
and is noted by a standby. A good state frame is applied and answered, one that fails its check is not and counts as a miss; a rally
frame tells the holder of its standby, and one that fails is a miss. A heartbeat is sent,
  and one of the partner ends the Fieldlink's
misses; a negotiation frame settles version and features; one with this module's own slot raises ETH_EVENT. A full copy is asked for once
and completed. -/
def Obligations.PairTrafficCommandsEffects : Prop :=
  ∀ s : State,
    (∀ c, dueCommits s = c → ∀ n : Fin 1024, (fireEntry c n.val 6).isSome = true → hasSample c.live = true → onTwin s = true →
      c.twn.role = 1 →
      s.base.holdOut = true → ∃ t, exec (.twnSample n) s = .next t ∧ Frame [.regs, .live, .pts, .phc, .banks, .ch, .rings,
        .evq, .msixPend, .forces, .can, .lce, .ble, .twn, .out] s t ∧ t.twn.sampleA = absA s ∧
        t.twn.seqTx = c.twn.seqTx + 1 ∧ t.twn.lease = 3 ∧ t.ble.dirty = [] ∧ t.out.length = c.out.length + 1) ∧
    (∀ c, dueCommits s = c → ∀ n : Fin 1024, (fireEntry c n.val 6).isSome = true → hasSample c.live = true → onTwin s = true →
      c.twn.role = 2 →
      ∃ t, exec (.twnSample n) s = .next t ∧ Frame [.regs, .live, .pts, .phc, .banks, .ch, .rings, .evq, .msixPend, .forces,
        .can, .lce, .ble, .twn, .out] s t ∧ t.twn.sampleA = absA s ∧ t.twn.seqTx = c.twn.seqTx) ∧
    (∀ c, dueCommits s = c → clockRuns c = true → hasSample c.live = false → absA s % 2048 = 0 → onTwin s = true → c.twn.role = 1 →
      s.base.holdOut = true → ∃ t, exec .defaultSample s = .next t ∧ Frame [.regs, .live, .pts, .phc, .banks, .ch, .rings,
        .evq, .msixPend, .forces, .can, .lce, .ble, .twn, .out] s t ∧ t.twn.sampleA = absA s ∧
        t.twn.seqTx = c.twn.seqTx + 1 ∧ t.twn.lease = 3) ∧
    (∀ (seq : Word) (ts half : Nat) (health : BitVec 16) (plan : Option (Nat × Nat)) (excess : Bool) (digest : List Nat)
      (lag : Int) (items : List CopyItem), onTwin s = true → s.twn.role = 2 → s.twn.tlUp = true →
      ∃ t, exec (.stateFrameRx true seq ts half health plan false excess digest lag items) s = .next t ∧ Frame [.regs, .live,
        .pts, .base, .hold, .phc, .banks, .ch, .rings, .evq, .msixPend, .forces, .img, .eth, .can, .lce, .ble, .twn, .free,
        .out] s t ∧
        t.twn.role = 2 ∧ t.twn.tlMiss = 0 ∧ t.twn.tlHalf = some half ∧ t.twn.seqRx = some seq ∧ t.twn.peerImage = digest ∧
        t.twn.peer = w32 health.toNat ∧ t.out.length ≠ s.out.length ∧ (∀ k v, items = [.data k v] →
        tget (fun _ => 0) t.ble.data k = v)) ∧
    (∀ (seq : Word) (ts half : Nat) (health : BitVec 16) (p : Nat × Nat) (excess : Bool) (digest : List Nat) (lag : Int),
      onTwin s = true → s.twn.role = 2 → s.twn.tlUp = true → grants s false = true → bitOf s.twn.own 7 = false →
      ∃ t, exec (.stateFrameRx true seq ts half health (some p) true excess digest lag []) s = .next t ∧ Frame [.regs, .live,
        .pts, .base, .hold, .phc, .banks, .ch, .rings, .evq, .msixPend, .forces, .img, .eth, .can, .lce, .ble, .twn, .free,
        .out] s t ∧
        t.twn.role = 1 ∧ t.base.holdOut = true ∧ t.twn.cause = p.2 ∧ t.twn.from_ = p.1 * 4096 + 256) ∧
    (∀ (seq : Word) (ts half : Nat) (health : BitVec 16) (plan : Option (Nat × Nat)) (final excess : Bool) (digest : List Nat)
      (lag : Int) (items : List CopyItem), onTwin s = true → s.twn.role = 2 → s.twn.tlUp = true → s.twn.flMiss < 4 →
      ∃ t, exec (.stateFrameRx false seq ts half health plan final excess digest lag items) s = .next t ∧ Frame [.regs, .live,
        .pts, .base, .hold, .phc, .banks, .ch, .rings, .evq, .msixPend, .forces, .img, .eth, .can, .lce, .ble, .twn, .free,
        .out] s t ∧
        t.twn.tlMissTot = (s.twn.tlMissTot + 1) % 65536 ∧ t.twn.frameOk = false ∧ t.twn.role = 2 ∧ t.ble = s.ble ∧ t.pts = s.pts ∧
        t.live = s.live ∧ bitOf (rget t oIntegEvent) 7 = true) ∧
    (∀ (pair : Fin 8 × Fin 16) (health : BitVec 16) (copy back : Bool) (digest : List Nat), onTwin s = true → s.twn.role = 1 →
      s.twn.tlUp = true → ∃ t, exec (.rallyFrameRx true pair health copy back digest) s = .next t ∧ Frame [.regs, .pts, .base,
        .hold, .phc, .banks, .ch, .rings, .evq, .msixPend, .can, .lce, .ble, .twn, .out] s t ∧
        t.twn.tlMiss = 0 ∧ t.twn.partner = 2 ∧ t.twn.reason = (if pair.1.val = 4 then 0 else pair.2.val) ∧
        t.twn.peerImage = digest ∧
        t.twn.peer = w32 health.toNat ∧ (copy = true → s.out.length < t.out.length)) ∧
    (∀ (pair : Fin 8 × Fin 16) (health : BitVec 16) (copy back : Bool) (digest : List Nat), onTwin s = true → s.twn.role = 1 →
      s.twn.tlUp = true → ∃ t, exec (.rallyFrameRx false pair health copy back digest) s = .next t ∧ Frame [.regs, .pts, .base,
        .hold, .phc, .banks, .ch, .rings, .evq, .msixPend, .can, .lce, .ble, .twn, .out] s t ∧
        t.twn.tlMissTot = (s.twn.tlMissTot + 1) % 65536 ∧ bitOf (rget t oIntegEvent) 7 = true ∧ t.twn.peerImage = s.twn.peerImage) ∧
    (onTwin s = true → s.clk.alive = true → s.clk.resetWait = none → ∃ t, exec .heartbeatSend s = .next t ∧ Frame [.eth] s t ∧
      tget (fun _ => (0 : Word)) t.eth.flSeq 256 = tget (fun _ => (0 : Word)) s.eth.flSeq 256 + 1 ∧ t.eth.flRx = s.eth.flRx) ∧
    (∀ (port : Fin 2) (verMin verMax : Nat) (pairId : BitVec 16) (slot : Fin 4) (seq : Word) (role : Fin 3) (health : BitVec 16),
      macValid s = true → (eport s port).link = true → macUp s port = true → pairId.toNat = rfld s oFlCtrl 15 0 → onTwin s = true →
      slot.val + s.base.slot = 3 → s.eth.flRx ≠ some seq →
      ∃ t, exec (.heartbeatRx port true 1 verMin verMax pairId slot seq none role health) s = .next t ∧ Frame [.regs, .evq,
        .eth, .twn, .out] s t ∧
        t.twn.flMiss = 0 ∧ t.twn.flUp = true ∧ t.eth.flRx = some seq ∧ t.twn.isolated = false ∧ (eport t port).hbAt = some s.up) ∧
    (∀ (port : Fin 2) (verMin verMax : Nat) (pairId : BitVec 16) (slot : Fin 4) (seq : Word) (n : Nat × Nat × BitVec 8) (role : Fin 3)
      (health : BitVec 16), macValid s = true → (eport s port).link = true → macUp s port = true →
        pairId.toNat = rfld s oFlCtrl 15 0 →
      onTwin s = true → slot.val + s.base.slot = 3 → s.eth.flRx ≠ some seq →
      ∃ t, exec (.heartbeatRx port true 1 verMin verMax pairId slot seq (some n) role health) s = .next t ∧ Frame [.regs, .evq,
        .eth, .twn, .out] s t ∧
        t.eth.flRx = some seq ∧ t.twn.verUsed = (if n.1 ≤ 1 ∧ 1 ≤ n.2.1 then 1 else 0) ∧
        t.twn.features = (n.2.2 &&& Config.twinFeatures).toNat ∧ (role = 0 → s.out.length < t.out.length)) ∧
    (∀ (port : Fin 2) (verMin verMax : Nat) (pairId : BitVec 16) (slot : Fin 4) (seq : Word) (neg : Option (Nat × Nat × BitVec 8))
      (role : Fin 3) (health : BitVec 16), macValid s = true → (eport s port).link = true → macUp s port = true →
      pairId.toNat = rfld s oFlCtrl 15 0 → onTwin s = true → slot.val = s.base.slot →
      ∃ t, exec (.heartbeatRx port true 1 verMin verMax pairId slot seq neg role health) s = .next t ∧ Frame [.regs, .evq,
        .eth, .twn, .out] s t ∧
        t.twn = s.twn ∧ Raised oEthEvent 0 s t) ∧
    (onTwin s = true → s.twn.role = 2 → s.twn.copied = false → s.twn.asked = false → s.twn.tripped = false →
      (syncReason s = 6 ∨ syncReason s = 7) → ∃ t, exec .fullCopyRequest s = .next t ∧ Frame [.twn, .out] s t ∧
      t.twn = { s.twn with asked := true, during := [] } ∧
      t.out = s.out ++ [.rallyFrame s.twn.pair s.twn.reason s.twn.own.toNat true false ((s.ble.inactive.map Image.digest).getD [])]) ∧
    (∀ items : List CopyItem, onTwin s = true → s.twn.role = 2 → s.twn.asked = true → ∃ t,
      exec (.fullCopyComplete items) s = .next t ∧
      Frame [.regs, .live, .pts, .phc, .banks, .ch, .evq, .forces, .img, .eth, .can, .lce, .ble, .twn] s t ∧
        t.twn.asked = false ∧ t.twn.frameOk = true ∧ t.twn.during = [] ∧
      (s.twn.reason ≠ 0 → t.twn.copied = true))

/-- Self-tests and planned handoffs (R480 to R493): a result sets or clears its bit of the module's own health,
  and one that makes the
standby unfit resets it; the holder lets its line go at the named boundary with a final frame, or waits while a task cycle is in
progress; it takes the line back when the standby does not answer, and slot A asks for the ball back. -/
def Obligations.HandoffCommandsEffects : Prop :=
  ∀ s : State,
    (∀ (bit : Fin 7) (found : Bool) (place : Fin 3) (item : Nat), onTwin s = true → s.twn.role = 2 → s.clk.alive = true →
      bitOf (withSummary (setBit s.twn.own bit.val (testFails s bit.val found))) 7 = false →
      ∃ t, exec (.selfTest bit found place item) s = .next t ∧ Frame [.regs, .pts, .hold, .phc, .clk, .banks, .ch, .rings,
        .evq, .recq, .recLost, .recLostCls, .msixPend, .can, .lce, .ble, .twn, .upd, .out] s t ∧ t.twn.role = 2 ∧ t.clk = s.clk ∧
        t.twn.own = withSummary (setBit s.twn.own bit.val (testFails s bit.val found)) ∧
        (t.twn.own ≠ s.twn.own → bitOf (rget t oTwnEvent) 7 = true)) ∧
    (∀ (bit : Fin 7) (found : Bool) (place : Fin 3) (item : Nat), onTwin s = true → s.twn.role = 2 → s.clk.alive = true →
      bitOf (withSummary (setBit s.twn.own bit.val (testFails s bit.val found))) 7 = true →
      ∃ t, exec (.selfTest bit found place item) s = .next t ∧ Frame [.regs, .pts, .hold, .phc, .clk, .banks, .ch, .rings,
        .evq, .recq, .recLost, .recLostCls, .msixPend, .can, .lce, .ble, .twn, .upd, .out] s t ∧ t.twn.role = 0 ∧
        t.clk.alive = false ∧
        t.clk.startCause = 5 ∧ t.base.holdOut = false) ∧
    (∀ p, s.twn.plan = some p → s.twn.role = 1 → onTwin s = true → p.out = false → s.base.holdOut = true → absA s = p.at_ * 4096 →
      taskBusy s = false → ∃ t, exec .plannedHandoffBoundary s = .next t ∧ Frame [.regs, .pts, .base, .hold, .banks, .ch,
        .rings, .evq, .msixPend, .can, .lce, .ble, .twn, .upd, .out] s t ∧
        t.base.holdOut = false ∧ t.twn.plan = some { p with out := true } ∧ t.twn.seqTx = s.twn.seqTx + 1 ∧ t.twn.role = 1) ∧
    (∀ p, s.twn.plan = some p → s.twn.role = 1 → onTwin s = true → p.out = false → s.base.holdOut = true → absA s = p.at_ * 4096 →
      taskBusy s = true → p.cause = 4 ∨ p.cause = 5 → ∃ t, exec .plannedHandoffBoundary s = .next t ∧
        Frame [.twn] s t ∧ t.twn = { s.twn with plan := some { p with at_ := p.at_ + 1 } }) ∧
    (∀ p, s.twn.plan = some p → s.twn.role = 1 → p.out = true → s.base.holdIn = false → grants s false = true →
      p.at_ * 4096 + 512 ≤ absA s → ∃ t, exec .handoffFail s = .next t ∧ Frame [.regs, .pts, .base, .hold, .banks, .ch, .rings,
        .evq, .msixPend, .can, .ble, .twn, .upd, .out] s t ∧ t.base.holdOut = true ∧
      t.twn.plan = none ∧ t.twn.role = 1 ∧ t.twn.lease = 3 ∧ t.twn.from_ = p.at_ * 4096 + 512 ∧ bitOf (rget t oTwnEvent) 9 = true) ∧
    (∀ a, s.twn.backAt = some a → backReady s = true → s.twn.plan = none → a + rfld s oTwnRevert 11 0 * 1000000000 ≤ s.up →
      ∃ t, exec .takeback s = .next t ∧ Frame [.twn, .out] s t ∧ t.twn = { s.twn with backAt := some s.up } ∧
        t.out = s.out ++ [.rallyFrame s.twn.pair s.twn.reason s.twn.own.toNat false true ((s.ble.inactive.map Image.digest).getD [])])

/-- Ethernet ports and the switch (R583 to R601, R622): a link comes up and goes down,
  ending network time's master on its port; a good frame is
counted, a bad one is counted and goes nowhere; the frame on the line is sent and the next of the highest queue follows,
  this module's
own Delay_Req with its timestamp; addresses age out, a port enters low power, steps down to 100 Mb/s and up again,
  and a filter takes
effect whole. -/
def Obligations.EthernetPortCommandsEffects : Prop :=
  ∀ s : State,
    (∀ (p : Fin 2) (speed : Fin 4), portEn s p = true → speed.val ≠ 0 → s.clk.macStopped = false →
      ((eport s p).stepped = true → speed.val = 2) → ∃ t, exec (.portLinkUp p speed) s = .next t ∧ Frame [.eth] s t ∧
        eport t p = { eport s p with link := true, speed := speed.val, cur := topQueue (eport s p).txq, idleAt := s.up } ∧
        eport t (1 - p.val) = eport s (1 - p.val)) ∧
    (∀ p : Fin 2, (eport s p).link = true → ∃ t, exec (.portLinkDown p) s = .next t ∧ Frame [.regs, .phc, .rings, .evq,
      .msixPend, .ptp, .eth, .out] s t ∧ (eport t p).link = false ∧
      (eport t p).speed = 0 ∧ (eport t p).txq = (eport s p).txq ∧
      tget (fun _ => (0 : Word)) (eport t p).counters 16 = tget (fun _ => (0 : Word)) (eport s p).counters 16 + 1 ∧
      (s.ptp.master.isSome = true → s.ptp.port = p.val → t.ptp.master = none ∧ (s.ptp.st = 1 ∨ s.ptp.st = 2 → t.ptp.st = 3))) ∧
    (∀ (p : Fin 2) (bytes : List Nat) (ingress : Nat), portEn s p = true → (eport s p).link = true → macUp s p = true →
      60 ≤ bytes.length → bytes.length + 4 ≤ maxLen s p → ∃ t, exec (.frameReceived p bytes true ingress) s = .next t ∧
        Frame [.regs, .rings, .evq, .msixPend, .eth, .out] s t ∧
        tget (fun _ => (0 : Word)) (eport t p).counters 0 = tget (fun _ => (0 : Word)) (eport s p).counters 0 + 1) ∧
    (∀ (p : Fin 2) (bytes : List Nat) (ingress : Nat), portEn s p = true → (eport s p).link = true → macUp s p = true →
      60 ≤ bytes.length → bytes.length + 4 ≤ maxLen s p → ∃ t, exec (.frameReceived p bytes false ingress) s = .next t ∧
        Frame [.regs, .rings, .evq, .msixPend, .eth, .out] s t ∧ t.eth.fdb = s.eth.fdb ∧ (eport t p).rxq = (eport s p).rxq ∧
        t.out = s.out ∧
        tget (fun _ => (0 : Word)) (eport t p).counters 6 = tget (fun _ => (0 : Word)) (eport s p).counters 6 + 1) ∧
    (∀ (p : Fin 2) (egress : Nat), macUp s p = true → ∀ q, (eport s p).cur = some q → ∀ x, popQueue q (eport s p).txq = some x →
      ∃ t, exec (.frameTransmitEnd p egress) s = .next t ∧ Frame [.regs, .rings, .evq, .msixPend, .ptp, .eth, .out] s t ∧
        (eport t p).txq = x.2 ∧
      (eport t p).cur = topQueue x.2 ∧ s.out.length < t.out.length ∧
      tget (fun _ => (0 : Word)) (eport t p).counters 9 = tget (fun _ => (0 : Word)) (eport s p).counters 9 + 1 ∧
      (isOwnReq x.1 = true → (freshTsq s (eport s p).tsq).length < 16 →
        (eport t p).tsq.length = (freshTsq s (eport s p).tsq).length + 1)) ∧
    (∀ (mac : BitVec 48) (vid : BitVec 12), ∃ t, exec (.addressAgeOut mac vid) s = .next t ∧ Frame [.eth] s t ∧
      t.eth = { s.eth with fdb := t.eth.fdb } ∧ t.eth.fdb = s.eth.fdb.filter (fun l =>
        !(l.mac == mac.toNat && l.vid == vid.toNat && decide (l.at_ + 300000000000 ≤ s.up)))) ∧
    (∀ p : Fin 2, bitOf (rget s (oPort p)) 3 = true → (eport s p).link = true → 2 ≤ (eport s p).speed → (eport s p).txq = [] →
      (eport s p).lpi = false → (eport s p).idleAt + rfld s (oPort p) 13 6 * 10000 ≤ s.up → ∃ t, exec (.lpiEntry p) s = .next t ∧
      Frame [.regs, .evq, .eth] s t ∧ (eport t p).lpi = true ∧ (eport t p).link = true ∧
      tget (fun _ => (0 : Word)) (eport t p).counters 14 = tget (fun _ => (0 : Word)) (eport s p).counters 14 + 1) ∧
    (∀ p : Fin 2, bitOf (rget s (oPort p)) 4 = true → (eport s p).link = true → (eport s p).speed = 3 → stepLock s p = false →
      ∃ t, exec (.speedStepDown p) s = .next t ∧ Frame [.regs, .phc, .rings, .evq, .msixPend, .ptp, .eth, .out] s t ∧
        (eport t p).link = false ∧ (eport t p).stepped = true ∧
      tget (fun _ => (0 : Word)) (eport t p).counters 17 = tget (fun _ => (0 : Word)) (eport s p).counters 17 + 1) ∧
    (∀ p : Fin 2, (eport s p).stepped = true → (eport s p).link = true → stepLock s p = false → ∃ t,
      exec (.speedStepUp p) s = .next t ∧
      Frame [.regs, .phc, .rings, .evq, .msixPend, .ptp, .eth, .out] s t ∧ (eport t p).link = false ∧ (eport t p).stepped = false ∧
      tget (fun _ => (0 : Word)) (eport t p).counters 17 = tget (fun _ => (0 : Word)) (eport s p).counters 17 + 1) ∧
    (∀ (p : Fin 2) (n : Fin 32) (v : Word), Reaches s (14 + p.val) → fld v 8 5 ≤ 11 → ∃ t, exec (.filterApply p n v) s = .next t ∧
      Frame [.regs, .eth] s t ∧ RegsOnly [oPort p + 0x100 + 0x10 * n.val] s t ∧
      tget (fun _ => []) (eport t p).filt n.val = [writeWord (regInfo (oPort p + 0x100 + 0x10 * n.val)) (rget s (oPort p + 0x100 + 0x10 * n.val)) v,
        rget s (oPort p + 0x104 + 0x10 * n.val), rget s (oPort p + 0x108 + 0x10 * n.val),
        rget s (oPort p + 0x10C + 0x10 * n.val)]) ∧
    (∀ p : Fin 2, stepLock s p = false → (eport s p).stepped = true → bitOf (rget s (oPort p)) 4 = false →
      ∃ t, exec (.stepLockEnd p) s = .next t ∧ Frame [.regs, .phc, .rings, .evq, .msixPend, .ptp, .eth, .out] s t ∧
        (eport t p).link = false ∧ (eport t p).stepped = false ∧
      tget (fun _ => (0 : Word)) (eport t p).counters 17 = tget (fun _ => (0 : Word)) (eport s p).counters 17 + 1)

/-- The slave of network time (R613 to R622): an announcement is kept with its port and time,
  a Sync of the selected master gives its
difference at once or with its Follow_Up, a Delay_Req enters its queue, a response gives the delay where that is not negative and is
discarded where it is, and a master that is gone is forgotten. -/
def Obligations.NetworkTimeCommandsEffects : Prop :=
  ∀ s : State,
    (∀ (p : Fin 2) (dom id : Nat) (data : List Nat) (gm ival : Nat) (utc : BitVec 16) (uv : Bool), hears s p dom = true →
      ∃ t, exec (.announceRx p dom id data gm ival utc uv) s = .next t ∧ Frame [.regs, .phc, .rings, .evq, .msixPend, .ptp,
        .out] s t ∧
      ∃ f ∈ t.ptp.foreign, f.id = id ∧ f.port = p.val ∧ f.data = data ∧ f.gm = gm ∧ f.last = s.up ∧ f.ival = ival) ∧
    (∀ (p : Fin 2) (dom id : Nat) (seq : BitVec 16 × Nat) (t1 corr : Int), fromMaster s p dom id = true →
      ∃ t, exec (.syncRx p dom id seq true t1 corr) s = .next t ∧ Frame [.ptp] s t ∧
      t.ptp = { s.ptp with twoStep := true, syncAt := some (s.up, seq.2), sync := some (seq.1.toNat, s.ptp.ns, corr, s.up) }) ∧
    (∀ (p : Fin 2) (dom id : Nat) (seq : BitVec 16 × Nat) (t1 corr : Int), fromMaster s p dom id = true →
      ∃ t, exec (.syncRx p dom id seq false t1 corr) s = .next t ∧ Frame [.regs, .phc, .rings, .evq, .msixPend, .ptp, .free,
        .out] s t ∧ t.ptp.twoStep = false ∧
      t.ptp.sync = none ∧ t.ptp.msDiff = some ((s.ptp.ns : Int) - t1 - corr) ∧
      ∀ d, s.ptp.delay = some d → t.ptp.offset = (s.ptp.ns : Int) - t1 - corr - d) ∧
    (∀ (p : Fin 2) (dom id : Nat) (seq : BitVec 16) (t1 corr : Int), fromMaster s p dom id = true → ∀ x, s.ptp.sync = some x →
      x.1 = seq.toNat → s.up ≤ x.2.2.2 + 1000000000 → ∃ t, exec (.followUpRx p dom id seq t1 corr) s = .next t ∧ Frame [.regs,
        .phc, .rings, .evq, .msixPend, .ptp, .free, .out] s t ∧
      t.ptp.sync = none ∧ t.ptp.msDiff = some ((x.2.1 : Int) - t1 - x.2.2.1 - corr)) ∧
    (∀ (p : Fin 2) (dom id : Nat) (seq : BitVec 16) (t4 corr : Int), fromMaster s p dom id = true → ∀ r, s.ptp.req = some r →
      r.1 = seq.toNat → ∀ ms, s.ptp.msDiff = some ms → ∀ e,
        ((freshTsq s (eport s p).tsq).find? (fun e => e.seq == seq.toNat)) = some e →
      0 ≤ (ms + (t4 - e.ts - corr)) / 2 → s.ptp.st ≠ 2 → ∃ t, exec (.delayRespRx p dom id seq t4 corr) s = .next t ∧
        Frame [.regs, .phc, .rings, .evq, .msixPend, .ptp, .eth, .out] s t ∧
        t.ptp = { s.ptp with req := none, delay := t.ptp.delay, accDelay := t.ptp.delay, refuseRun := 0 } ∧
        t.ptp.delay = some ((ms + (t4 - e.ts - corr)) / 2)) ∧
    (∀ (p : Fin 2) (dom id : Nat) (seq : BitVec 16) (t4 corr : Int), fromMaster s p dom id = true → ∀ r, s.ptp.req = some r →
      r.1 = seq.toNat → ∀ ms, s.ptp.msDiff = some ms → ∀ e,
        ((freshTsq s (eport s p).tsq).find? (fun e => e.seq == seq.toNat)) = some e →
      (ms + (t4 - e.ts - corr)) / 2 < 0 → ∃ t, exec (.delayRespRx p dom id seq t4 corr) s = .next t ∧
        Frame [.regs, .phc, .rings, .evq, .msixPend, .ptp, .eth, .out] s t ∧ t.ptp = { s.ptp with req := none }) ∧
    (s.ptp.master.isSome = true → ptpOn s s.ptp.port = true → macValid s = true → (eport s s.ptp.port).link = true →
      ∃ t, exec .delayReqSend s = .next t ∧ Frame [.ptp, .eth] s t ∧ t.ptp.reqSeq = (s.ptp.reqSeq + 1) % 65536 ∧
      t.ptp.req = some ((s.ptp.reqSeq + 1) % 65536, s.ptp.port) ∧
      (eport t s.ptp.port).txq.length = (eport s s.ptp.port).txq.length + 1) ∧
    (∀ m, s.ptp.master = some m → masterGone s m = true → ∃ t, exec .masterLost s = .next t ∧ Frame [.regs, .phc, .rings, .evq,
      .msixPend, .ptp, .out] s t ∧
      t.ptp.foreign = s.ptp.foreign.filter (fun f => f.id != m) ∧ t.ptp.master ≠ some m ∧
      (bestMaster { s with ptp := { s.ptp with foreign := s.ptp.foreign.filter (fun f => f.id != m) } } = none →
        t.ptp.master = none ∧ (s.ptp.st = 1 ∨ s.ptp.st = 2 → t.ptp.st = 3)))

/-- Remote stations (R607 to R609): a request leaves at its period while the ball is held; a response with a newer sequence number of
the set-up address replaces the input image, another of a set-up station number is rejected and counted, one that fails its check is
discarded and counted; silence makes the station late. A station is enabled within its ranges, and outside them stays disabled with
STATION_CFG. -/
def Obligations.RemoteStationCommandsEffects : Prop :=
  ∀ s : State,
    (∀ n : Fin 32, s.base.holdOut = true → bitOf (rget s (oStation n)) 0 = true →
      ((rio s n).reqAt.map (fun a => a + rfld s (oStation n) 15 6 * 1000000)).getD 0 ≤ s.up → ∃ t,
        exec (.stationReq n) s = .next t ∧
      Frame [.eth] s t ∧ rio t n = { rio s n with reqAt := some s.up } ∧
      tget (fun _ => (0 : Word)) t.eth.flSeq (0x1000 + n.val + 1) = tget (fun _ => (0 : Word)) s.eth.flSeq (0x1000 + n.val + 1) + 1) ∧
    (∀ (vmin vmax : Nat) (pid : BitVec 16) (n : Fin 256) (mac : BitVec 48) (seq status : Word) (words : List Word),
      macValid s = true →
      n.val < 32 → pid.toNat = rfld s oFlCtrl 15 0 → bitOf (rget s (oStation n)) 0 = true → mac.toNat = stationMac s n →
      newerSeq (rio s n).seqRx seq = true → ∃ t, exec (.stationRsp true 1 vmin vmax pid n mac seq status words) s = .next t ∧
        Frame [.regs, .evq, .eth] s t ∧ (rio t n).input = (words ++ List.replicate 64 0).take 64 ∧ (rio t n).last = some s.up ∧
        (rio t n).late = false ∧ (rio t n).upd = (rio s n).upd + 1 ∧ (rio t n).status = status ∧ (rio t n).seqRx = some seq) ∧
    (∀ (vmin vmax : Nat) (pid : BitVec 16) (n : Fin 256) (mac : BitVec 48) (seq status : Word) (words : List Word),
      macValid s = true →
      n.val < 32 → (pid.toNat ≠ rfld s oFlCtrl 15 0 ∨ bitOf (rget s (oStation n)) 0 = false ∨ mac.toNat ≠ stationMac s n ∨
        newerSeq (rio s n).seqRx seq = false) → ∃ t, exec (.stationRsp true 1 vmin vmax pid n mac seq status words) s = .next t ∧
        Frame [.regs, .evq, .eth] s t ∧ rio t n = { rio s n with rej := (rio s n).rej + 1 }) ∧
    (∀ (ok : Bool) (ver vmin vmax : Nat) (pid : BitVec 16) (n : Fin 256) (mac : BitVec 48) (seq status : Word) (words : List Word),
      macValid s = true → (!ok || ver != 1) = true → ∃ t,
        exec (.stationRsp ok ver vmin vmax pid n mac seq status words) s = .next t ∧
        Frame [.regs, .evq, .eth] s t ∧ t.eth = s.eth ∧ rget t oFlErr = rget s oFlErr + 1 ∧ bitOf (rget t oIntegEvent) 8 = true) ∧
    (∀ n : Fin 32, ∀ a, (rio s n).last = some a → a + rfld s (oStation n) 31 16 * 1000000 < s.up →
      ∃ t, exec (.stationTimeout n) s = .next t ∧ Frame [.eth] s t ∧ rio t n = { rio s n with late := true }) ∧
    (∀ (n : Fin 32) (v : Word), Reaches s 0 → bitOf (rget s (oStation n)) 0 = false → bitOf v 0 = true →
      stationOk (rwrite s (oStation n) v) n v = true → imageClash (rwrite s (oStation n) v) = false →
      ∃ t, exec (.stationEnable n v) s = .next t ∧ Frame [.regs, .evq, .eth] s t ∧ RegsOnly [oStation n] s t ∧
        bitOf (rget t (oStation n)) 0 = true ∧ (rio t n).last = none ∧ (rio t n).seqRx = none ∧ (rio t n).late = false) ∧
    (∀ (n : Fin 32) (v : Word), Reaches s 0 → bitOf (rget s (oStation n)) 0 = false → bitOf v 0 = true →
      stationOk (rwrite s (oStation n) v) n v = false → ∃ t, exec (.stationEnable n v) s = .next t ∧
        Frame [.regs, .evq, .eth] s t ∧ RegsOnly [oStation n, oEthEvent] s t ∧ t.eth = s.eth ∧
        bitOf (rget t (oStation n)) 0 = false ∧ bitOf (rget t oEthEvent) 1 = true) ∧
    (∀ (n : Fin 32) (v : Word), Reaches s 0 → bitOf (rget s (oStation n)) 0 = true → ∃ t, exec (.stationEnable n v) s = .next t ∧
      Frame [.regs, .evq, .eth] s t ∧ RegsOnly [oStation n, oEthEvent] s t ∧
      rget t (oStation n) = setBit (rget s (oStation n)) 0 (bitOf v 0))

/-- The seal, starts, saves and supply of the metering cartridge (R263, R265, R266, R271, R303 to R308, R317): a broken seal is
counted and opens the staged blocks, closing it drops them and software handed over; a start takes the valid slot with the highest
number, counts the power failure and, after a periodic slot, a residual loss; without a valid slot it is a fault. A save goes into
the next slot with its CRC and a snapshot follows. At a supply loss the residual save is written and metering goes on, for 15 ms
at least; a supply back before that is logged and no start. -/
def Obligations.CartridgeLifeCommandsEffects : Prop :=
  ∀ s : State,
    (∀ b : Bool, s.mtr.running = true → s.mtr.sealOpen ≠ b → ∃ t, exec (.sealChange b) s = .next t ∧ Frame [.regs, .evq, .mtr,
      .upd] s t ∧
      RegsOnly [oMtrEvent] s t ∧ Raised oMtrEvent 0 s t ∧ t.mtr.sealOpen = b ∧
      t.mtr.cntSeal = (if b then satInc s.mtr.cntSeal else s.mtr.cntSeal) ∧
      t.mtr.staged = (if b then (upto 4).map (fun k => (k, parBytes s k)) else []) ∧
      t.upd.cartSw = (if b then s.upd.cartSw else none) ∧
      (s.mtr.legalLog.length < 512 → t.mtr.legalLog.length = s.mtr.legalLog.length + 1) ∧
      (512 ≤ s.mtr.legalLog.length → t.mtr.legalLog = s.mtr.legalLog) ∧ t.mtr.circ = s.mtr.circ ∧ t.mtr.par = s.mtr.par) ∧
    (∀ (sw_ : Word) (good : BitVec 16), (s.mtr.running = true → s.mtr.dipping.isSome = true) → s.base.cart = true →
      s.mtr.slots = [] →
      ∃ t, exec (.cartridgeRun sw_ good) s = .next t ∧ Frame [.regs, .pts, .phc, .evq, .can, .mtr, .ble, .free, .out] s t ∧
        t.mtr.running = true ∧ t.mtr.swVer = sw_ ∧
      t.mtr.us = 0 ∧ t.mtr.dipping = none ∧ t.mtr.winN = 0 ∧ t.mtr.corr = [] ∧ t.mtr.circ = s.mtr.circ ∧
        t.mtr.cntPwr = s.mtr.cntPwr ∧
      t.mtr.openDoor.busy = false ∧ t.mtr.secDoor.busy = false) ∧
    (∀ (sw_ : Word) (good : BitVec 16), (s.mtr.running = true → s.mtr.dipping.isSome = true) → s.base.cart = true →
      s.mtr.slots ≠ [] →
      bestSlot s good = none → ∃ t, exec (.cartridgeRun sw_ good) s = .next t ∧ Frame [.regs, .pts, .phc, .evq, .can, .mtr,
        .ble, .free, .out] s t ∧
      t.mtr.running = false ∧ t.mtr.fault = true ∧ (s.mtr.fault = false → Raised oMtrEvent 5 s t)) ∧
    (∀ (sw_ : Word) (good : BitVec 16), (s.mtr.running = true → s.mtr.dipping.isSome = true) → s.base.cart = true →
      ∀ k, bestSlot s good = some k → ∃ t, exec (.cartridgeRun sw_ good) s = .next t ∧ Frame [.regs, .pts, .phc, .evq, .can,
        .mtr, .ble, .free, .out] s t ∧
      t.mtr.running = true ∧ t.mtr.circ = k.circ ∧ t.mtr.phs = k.phs ∧ t.mtr.optime = k.optime ∧ t.mtr.saveSeq = k.seq ∧
      t.mtr.cntPwr = satInc s.mtr.cntPwr ∧ t.mtr.us = 0 ∧ t.mtr.dipping = none ∧ (∀ o : Fin 9, (pulse t o).on = false) ∧
      (k.residual = true → t.mtr.cntRes = s.mtr.cntRes) ∧
      (k.residual = false → t.mtr.cntRes = satInc s.mtr.cntRes ∧ bitOf (rget t oMtrEvent) 2 = true)) ∧
    (s.mtr.running = true → ∃ t, exec .periodicSave s = .next t ∧ Frame [.mtr] s t ∧ t.mtr.saveSeq = s.mtr.saveSeq + 1 ∧
      t.mtr.snapGen = s.mtr.snapGen + 1 ∧ t.mtr.snapCirc = s.mtr.circ ∧ t.mtr.snapPhs = s.mtr.phs ∧
        t.mtr.snapSave = s.mtr.saveSeq + 1 ∧
      t.mtr.snapMap = parBytes s 0 ∧
      alook t.mtr.slots ((s.mtr.saveSeq + 1) % 16) = some { slotOf s.mtr false with crc := crcWords (slotWords (slotOf s.mtr false)) }) ∧
    (s.mtr.running = true → s.mtr.dipping = none → ∃ t, exec .supplyLoss s = .next t ∧ Frame [.mtr, .free] s t ∧
      t.mtr.running = true ∧ t.mtr.dipping.elim false (fun d => decide (s.mtr.us + 15000 ≤ d)) = true ∧
        t.mtr.saveSeq = s.mtr.saveSeq + 1 ∧
      alook t.mtr.slots ((s.mtr.saveSeq + 1) % 16) = some { slotOf s.mtr true with crc := crcWords (slotWords (slotOf s.mtr true)) } ∧
      t.mtr.snapGen = s.mtr.snapGen + 1 ∧ t.mtr.snapSave = s.mtr.saveSeq + 1 ∧ t.mtr.circ = s.mtr.circ ∧
        t.mtr.pulses = s.mtr.pulses ∧
      t.pts = s.pts) ∧
    (s.mtr.running = true → s.mtr.dipping.isSome = true → ∃ t, exec .cartridgeSupplyDip s = .next t ∧ Frame [.mtr] s t ∧
      t.mtr.running = true ∧ t.mtr.dipping = none ∧ t.mtr.circ = s.mtr.circ ∧ t.mtr.cntPwr = s.mtr.cntPwr ∧
      t.mtr.logSeq = s.mtr.logSeq + 1)

/-- What the cartridge measures (R280 to R283, R286, R288 to R290, R292 to R295, R300, R303, R306, R314, R317,
  R320): a cycle's samples
as energies into the registers of every circuit in use, by the corrections in force; the averaging window's end with its points and
snapshot; a hold-up that ends within the cycle stops the cartridge. Strobes end sub-intervals at once or at the end of the cycle,
an overdue one is ended by the cartridge, a temperature gives the corrections for the next boundary, pulses begin and end one at a
time, and the indicator flashes CHECK_ID from its most significant bit. -/
def Obligations.MeteringCommandsEffects : Prop :=
  ∀ s : State,
    (∀ m : CycleMeas, s.mtr.running = true → heldOut s (cycleNs s m / 1000) = false → s.mtr.applied = [] →
      (∀ j : Fin 8, (dset_ s j).strobe = none) →
      ∃ t, exec (.cartridgeCycle m) s = .next t ∧ Frame [.regs, .pts, .phc, .evq, .can, .mtr, .ble, .out] s t ∧
        t.mtr.us = s.mtr.us + cycleNs s m / 1000 ∧
      t.mtr.optime = (s.mtr.optime + (s.mtr.optimeUs + cycleNs s m / 1000) / 100000) % 2 ^ 40 ∧
      t.mtr.optimeUs = (s.mtr.optimeUs + cycleNs s m / 1000) % 100000 ∧
      t.mtr.corr = s.mtr.corrNext ∧ t.mtr.par = s.mtr.par ∧ t.mtr.fund = fundOf m ∧
      t.mtr.winN = (if s.mtr.winN + 1 < (if m.freq < 550000 then 10 else 12) then s.mtr.winN + 1 else 0) ∧
      (∀ k : Fin 96, cIns (parBytes s 0) k = [] → tget (fun _ => []) t.mtr.circ k = tget (fun _ => []) s.mtr.circ k) ∧
      (∀ k : Fin 96, ∀ rs,
        (cIns (parBytes s 0) k).zipIdx.map (fun x => inRes (parBytes s 0) (corrOf s x.1) m (cycleNs s m) k x.2 x.1) = rs →
        rs ≠ [] → tget (fun _ => []) t.mtr.circ k = regsAdd (tget (fun _ => []) s.mtr.circ k)
          (classify (rs.map InRes.e).sum (rs.map InRes.eq).sum (rs.map InRes.es).sum))) ∧
    (∀ m : CycleMeas, s.mtr.running = true → heldOut s (cycleNs s m / 1000) = false → s.mtr.applied = [] →
      (∀ j : Fin 8, (dset_ s j).strobe = none) → s.mtr.winN + 1 < (if m.freq < 550000 then 10 else 12) →
      ∃ t, exec (.cartridgeCycle m) s = .next t ∧ t.mtr.snapGen = s.mtr.snapGen ∧ t.pts = s.pts ∧
      t.mtr.vacc = (upto 3).map (fun k => nAt s.mtr.vacc k + rms (vSamples m k))) ∧
    (∀ m : CycleMeas, s.mtr.running = true → heldOut s (cycleNs s m / 1000) = false → s.mtr.applied = [] →
      (∀ j : Fin 8, (dset_ s j).strobe = none) → (if m.freq < 550000 then 10 else 12) ≤ s.mtr.winN + 1 →
      ∃ t, exec (.cartridgeCycle m) s = .next t ∧ t.mtr.snapGen = s.mtr.snapGen + 1 ∧ pnat t 0x1600 = dec m.freq 10000 ∧
      pnat t 0x1601 = avg (nAt s.mtr.vacc 0 + rms (vSamples m 0) : Nat) (s.mtr.winN + 1) 1000 ∧ t.mtr.snapCirc = t.mtr.circ ∧
      t.mtr.acc = [] ∧ t.mtr.vacc = []) ∧
    (∀ m : CycleMeas, s.mtr.running = true → heldOut s (cycleNs s m / 1000) = true →
      ∃ t, exec (.cartridgeCycle m) s = .next t ∧ Frame [.regs, .pts, .phc, .evq, .can, .mtr, .ble, .out] s t ∧
        t.mtr.running = false ∧ t.mtr.circ = s.mtr.circ ∧
      (∀ o : Fin 9, (pulse t o).on = false) ∧ pnat t 0x1600 = ptDefault 0x1600 ∧ t.mtr.snapGen = s.mtr.snapGen) ∧
    (∀ n : Fin 1024, ∀ x, fireEntry (dueCommits s) n 5 = some x → ∃ t, exec (.mtrClose n) s = .next t ∧ Frame [.regs, .live,
      .pts, .phc, .banks, .ch, .rings, .evq, .msixPend, .forces, .can, .mtr, .lce, .ble, .twn, .out] s t ∧
      t.mtr.strobes = (dueCommits s).mtr.strobes ++ [(fld x.1 7 0, nowTs x.2,
        if netLocked x.2 then some (x.2.ptp.ns / 1000000000) else none)] ∧
      s.out.length < t.out.length) ∧
    (∀ x ∈ s.mtr.strobes.head?.toList, s.mtr.running = true → ∃ t, exec (.closeStrobe false) s = .next t ∧ Frame [.regs, .pts,
      .evq, .can, .mtr, .ble] s t ∧
      t.regs = s.regs ∧ t.pts = s.pts ∧ t.mtr = { s.mtr with strobes := s.mtr.strobes.tail, sets := t.mtr.sets } ∧
      ∀ j : Fin 8, dset_ t j = if x.1.testBit j then { dset_ s j with strobe := some x.2 } else dset_ s j) ∧
    (∀ x ∈ s.mtr.strobes.head?.toList, s.mtr.running = true → ∃ t, exec (.closeStrobe true) s = .next t ∧ Frame [.regs, .pts,
      .evq, .can, .mtr, .ble] s t ∧
      t.mtr.strobes = s.mtr.strobes.tail ∧ t.mtr.circ = s.mtr.circ ∧
      ∀ j : Fin 8, (x.1.testBit j = false ∨ lenS (parBytes s 3) j = 0 → dset_ t j = dset_ s j) ∧
        (x.1.testBit j = true → lenS (parBytes s 3) j ≠ 0 → (dset_ t j).subEnd = s.mtr.us ∧ (dset_ t j).strobe = none ∧
        (dset_ t j).autoRun = 0 ∧
          ((dset_ t j).subs = (dset_ s j).subs + 1 ∨ (dset_ t j).subs = 0 ∧ (dset_ t j).start = s.mtr.us))) ∧
    (∀ j : Fin 8, s.mtr.running = true → lenS (parBytes s 3) j ≠ 0 → (dset_ s j).strobe = none →
      (if (dset_ s j).autoRun = 0 then lenS (parBytes s 3) j * 1000000 * 5 / 4 else lenS (parBytes s 3) j * 1000000) ≤
        (s.mtr.us - (dset_ s j).subEnd) * subsOf (parBytes s 3) j →
      ∃ t, exec (.autoClose j) s = .next t ∧ Frame [.regs, .pts, .evq, .can, .mtr, .ble] s t ∧ (dset_ t j).subEnd = s.mtr.us ∧
      (dset_ t j).autoRun = (dset_ s j).autoRun + 1 ∧ t.mtr.circ = s.mtr.circ ∧ t.mtr.us = s.mtr.us ∧
      ∀ i : Fin 8, i ≠ j → dset_ t i = dset_ s i) ∧
    (∀ v : BitVec 12, s.mtr.running = true → ∃ t, exec (.temperatureReading v) s = .next t ∧ Frame [.mtr] s t ∧
      t.mtr.temp = signedOf 12 v.toNat ∧ t.mtr.corr = s.mtr.corr ∧
      (signedOf 12 v.toNat ≤ tcTemp (parBytes s 1) 0 → ∀ n : Fin 96, (alook t.mtr.corrNext n).getD (0,
        0) = tcPoint (parBytes s 1) n 0)) ∧
    (∀ o : Fin 9, (pulse s o).on = true → ∃ t, exec (.pulseOutput o false) s = .next t ∧ Frame [.mtr, .out] s t ∧
      pulse t o = { pulse s o with on := false } ∧ (∀ i : Fin 9, i ≠ o → pulse t i = pulse s i) ∧
        t.out = s.out ++ [.pulse o.val false]) ∧
    (∀ o : Fin 9, s.mtr.running = true → (pulse s o).on = false → (pulse s o).pend ≠ 0 →
      bitOf (pWord (parBytes s 2) (8 * o.val)) 0 = true → (o.val = 8 → s.mtr.showing = none) → ∃ t,
        exec (.pulseOutput o true) s = .next t ∧
      Frame [.mtr, .out] s t ∧ pulse t o = { pulse s o with on := true, pend := (pulse s o).pend - 1 } ∧
      (∀ i : Fin 9, i ≠ o → pulse t i = pulse s i) ∧ t.out = s.out ++ [.pulse o.val true]) ∧
    (∀ k, s.mtr.showing = some k → k < 16 → (pulse s 8).on = false → ∃ t, exec (.pulseOutput 8 true) s = .next t ∧
      Frame [.mtr, .out] s t ∧ t.mtr.showing = some (k + 1) ∧ pulse t 8 = { pulse s 8 with on := true } ∧
      t.out = s.out ++ [.flash (bitOf s.mtr.swVer (31 - k))])

/-- The two doors of the cartridge (R267, R268, R276, R303, R312, R313, R320, R321, R325): a command waits in its door, which takes
no second one, and its end leaves the result: 8 where the cartridge does not run, 4 at the secure door with the seal closed. A
commit of a block that fails names the entry, one with the legal log full is refused, another is counted, logged and waits for the
next cycle boundary. A meter identifier is set once. A log record is found by its number or not, a tenant takes effect later, and
SHOW_CHECK begins the flashes. -/
def Obligations.DoorCommandsEffects : Prop :=
  ∀ s : State,
    (∀ a0 : Word, Reaches s 8 → s.mtr.openDoor.busy = false → ∃ t, exec (.readLog a0) s = .next t ∧ Frame [.regs, .mtr] s t ∧
      RegsOnly [0x60054, 0x60058] s t ∧
      t.mtr = { s.mtr with openDoor := { s.mtr.openDoor with busy := true, op := 1, arg0 := rget t 0x60054, arg1 := rget t 0x60058 } } ∧
      rget t 0x60054 = a0) ∧
    (∀ a0 a1 : Word, Reaches s 8 → s.mtr.openDoor.busy = false → ∃ t, exec (.readInterval a0 a1) s = .next t ∧ Frame [.regs,
      .mtr] s t ∧
      RegsOnly [0x60054, 0x60058] s t ∧
        t.mtr = { s.mtr with openDoor := { s.mtr.openDoor with busy := true, op := 2, arg0 := a0, arg1 := a1 } }) ∧
    (∀ a0 a1 : Word, Reaches s 8 → s.mtr.openDoor.busy = false → ∃ t, exec (.setTenant a0 a1) s = .next t ∧ Frame [.regs,
      .mtr] s t ∧
      RegsOnly [0x60054, 0x60058] s t ∧
        t.mtr = { s.mtr with openDoor := { s.mtr.openDoor with busy := true, op := 3, arg0 := a0, arg1 := a1 } }) ∧
    (∀ a0 a1 : Word, Reaches s 8 → s.mtr.openDoor.busy = false → ∃ t, exec (.readParam a0 a1) s = .next t ∧ Frame [.regs,
      .mtr] s t ∧
      RegsOnly [0x60054, 0x60058] s t ∧
        t.mtr = { s.mtr with openDoor := { s.mtr.openDoor with busy := true, op := 4, arg0 := a0, arg1 := a1 } }) ∧
    (Reaches s 8 → s.mtr.openDoor.busy = false → ∃ t, exec .showCheck s = .next t ∧ Frame [.mtr] s t ∧ t.regs = s.regs ∧
      t.mtr.openDoor.busy = true ∧ t.mtr.openDoor.op = 5 ∧ t.mtr.showing = s.mtr.showing) ∧
    (Reaches s 8 → s.mtr.openDoor.busy = true → ∀ a0 a1 : Word, ∃ t, exec (.readParam a0 a1) s = .next t ∧ Frame [.regs,
      .mtr] s t ∧ t.mtr = s.mtr) ∧
    (∃ t, exec .showCheckEnd s = .next t ∧ Frame [.mtr] s t ∧ t.mtr = { s.mtr with showing := none }) ∧
    (∀ a0 a1 : Word, Reaches s 8 → s.mtr.secDoor.busy = false → ∃ t, exec (.paramStage a0 a1) s = .next t ∧ Frame [.regs,
      .mtr] s t ∧
      RegsOnly [0x61004, 0x61008] s t ∧
        t.mtr = { s.mtr with secDoor := { s.mtr.secDoor with busy := true, op := 0x10, arg0 := rget t 0x61004, arg1 := rget t 0x61008 } }) ∧
    (∀ a0 : Word, Reaches s 8 → s.mtr.secDoor.busy = false → ∃ t, exec (.paramCommit a0) s = .next t ∧ Frame [.regs, .mtr] s t ∧
      RegsOnly [0x61004, 0x61008] s t ∧ t.mtr.secDoor.busy = true ∧ t.mtr.secDoor.op = 0x11 ∧ t.mtr.par = s.mtr.par ∧
        t.mtr.staged = s.mtr.staged) ∧
    (∀ a0 : Word, Reaches s 8 → s.mtr.secDoor.busy = false → ∃ t, exec (.paramDiscard a0) s = .next t ∧ Frame [.regs, .mtr] s t ∧
      RegsOnly [0x61004, 0x61008] s t ∧ t.mtr.secDoor.busy = true ∧ t.mtr.secDoor.op = 0x12 ∧ t.mtr.staged = s.mtr.staged) ∧
    (Reaches s 8 → s.mtr.secDoor.busy = false → ∃ t, exec .setMeterId s = .next t ∧ Frame [.mtr] s t ∧ t.regs = s.regs ∧
      t.mtr.secDoor.busy = true ∧ t.mtr.secDoor.op = 0x13 ∧ t.mtr.meterId = s.mtr.meterId) ∧
    (∀ b : Bool, (if b then s.mtr.secDoor else s.mtr.openDoor).busy = true → s.mtr.running = false →
      ∃ t, exec (.doorCommandDone b) s = .next t ∧ Frame [.regs, .mtr] s t ∧
      (if b then t.mtr.secDoor else t.mtr.openDoor) = doorEnd (if b then s.mtr.secDoor else s.mtr.openDoor) 8) ∧
    (s.mtr.secDoor.busy = true → s.mtr.running = true → s.mtr.sealOpen = false →
      ∃ t, exec (.doorCommandDone true) s = .next t ∧ Frame [.regs, .mtr] s t ∧
      t.mtr = { s.mtr with secDoor := doorEnd s.mtr.secDoor 4 }) ∧
    (∀ l, (alook s.mtr.staged s.mtr.secDoor.arg0.toNat).getD (parBytes s s.mtr.secDoor.arg0.toNat) = l → s.mtr.secDoor.busy = true →
      s.mtr.secDoor.op = 0x11 → s.mtr.running = true → s.mtr.sealOpen = true → s.mtr.secDoor.arg0.toNat ≤ 3 → 
      ∀ i, blockFault s.mtr.secDoor.arg0.toNat l = some i → ∃ t, exec (.doorCommandDone true) s = .next t ∧ Frame [.regs,
        .mtr] s t ∧
      t.mtr.par = s.mtr.par ∧ t.mtr.secDoor.busy = false ∧ t.mtr.secDoor.result = 5 ∧
      rget t 0x61008 = w32 i ∧ t.mtr.applied = s.mtr.applied ∧ t.mtr.cntParam = s.mtr.cntParam) ∧
    (∀ l, (alook s.mtr.staged s.mtr.secDoor.arg0.toNat).getD (parBytes s s.mtr.secDoor.arg0.toNat) = l → s.mtr.secDoor.busy = true →
      s.mtr.secDoor.op = 0x11 → s.mtr.running = true → s.mtr.sealOpen = true → s.mtr.secDoor.arg0.toNat ≤ 3 → 
      blockFault s.mtr.secDoor.arg0.toNat l = none → 512 ≤ s.mtr.legalLog.length → ∃ t,
        exec (.doorCommandDone true) s = .next t ∧ Frame [.regs, .mtr] s t ∧
      t.mtr.par = s.mtr.par ∧ t.mtr.secDoor.busy = false ∧ 
      t.mtr.secDoor.result = 6 ∧ t.mtr.applied = s.mtr.applied ∧ t.mtr.legalLog = s.mtr.legalLog) ∧
    (∀ l, (alook s.mtr.staged s.mtr.secDoor.arg0.toNat).getD (parBytes s s.mtr.secDoor.arg0.toNat) = l → s.mtr.secDoor.busy = true →
      s.mtr.secDoor.op = 0x11 → s.mtr.running = true → s.mtr.sealOpen = true → s.mtr.secDoor.arg0.toNat ≤ 3 → 
      blockFault s.mtr.secDoor.arg0.toNat l = none → s.mtr.legalLog.length < 512 → ∃ t,
        exec (.doorCommandDone true) s = .next t ∧ Frame [.regs, .mtr] s t ∧
      t.mtr.par = s.mtr.par ∧ t.mtr.secDoor.busy = false ∧ 
      t.mtr.secDoor.result = 0 ∧ t.mtr.cntParam = satInc s.mtr.cntParam ∧ t.mtr.legalLog.length = s.mtr.legalLog.length + 1 ∧
      t.mtr.applied = s.mtr.applied ++ [(s.mtr.secDoor.arg0.toNat, l)]) ∧
    (s.mtr.secDoor.busy = true → s.mtr.secDoor.op = 0x13 → s.mtr.running = true → s.mtr.sealOpen = true → s.mtr.meterId ≠ none →
      ∃ t, exec (.doorCommandDone true) s = .next t ∧ Frame [.regs, .mtr] s t ∧
        t.mtr = { s.mtr with secDoor := doorEnd s.mtr.secDoor 7 }) ∧
    (s.mtr.openDoor.busy = true → s.mtr.openDoor.op = 1 → s.mtr.running = true → findLog s s.mtr.openDoor.arg0 = none →
      ∃ t, exec (.doorCommandDone false) s = .next t ∧ Frame [.regs, .mtr] s t ∧ t.regs = s.regs ∧
      t.mtr = { s.mtr with openDoor := doorEnd s.mtr.openDoor 3 }) ∧
    (∀ r, findLog s s.mtr.openDoor.arg0 = some r → s.mtr.openDoor.busy = true → s.mtr.openDoor.op = 1 → s.mtr.running = true →
      ∃ t, exec (.doorCommandDone false) s = .next t ∧ Frame [.regs, .mtr] s t ∧ t.regs = s.regs ∧
      t.mtr = { s.mtr with resp := r, openDoor := doorEnd s.mtr.openDoor 0 }) ∧
    (s.mtr.openDoor.busy = true → s.mtr.openDoor.op = 3 → s.mtr.running = true → s.mtr.openDoor.arg0.toNat ≤ 95 →
      s.mtr.openDoor.arg1.toNat ≤ 16 →
      ∃ t, exec (.doorCommandDone false) s = .next t ∧ Frame [.regs, .mtr] s t ∧ t.mtr.openDoor.result = 0 ∧
      (circ t s.mtr.openDoor.arg0.toNat).tenantNext = some s.mtr.openDoor.arg1.toNat ∧
      (circ t s.mtr.openDoor.arg0.toNat).tenant = (circ s s.mtr.openDoor.arg0.toNat).tenant ∧ t.mtr.logSeq = s.mtr.logSeq + 1) ∧
    (s.mtr.openDoor.busy = true → s.mtr.openDoor.op = 5 → s.mtr.running = true → ∃ t, exec (.doorCommandDone false) s = .next t ∧
      Frame [.regs, .mtr] s t ∧ t.regs = s.regs ∧ t.mtr = { s.mtr with showing := some 0, openDoor := doorEnd s.mtr.openDoor 0 })

/-- The real-time counter (R653 to R661, R663, R669): a halt or resume is requested, the count is written only while HALT is 1, a
written countdown waits for its edge, the countdown that passes from 1 to 0 is latched and reloaded or left, a stopped oscillator
and lost retention invalidate the count, and operating time is saved into its two words in turn once a second has passed. -/
def Obligations.RealTimeCounterCommandsEffects : Prop :=
  ∀ s : State,
    (∀ b : Bool, Reaches s 0 → ∃ t, exec (.rtcHalt b) s = .next t ∧ Frame [.rtc] s t ∧
      t.rtc = { s.rtc with cdReload := b, haltReq := true }) ∧
    (∀ b : Bool, Reaches s 0 → s.rtc.haltReq = true → ∃ t, exec (.rtcResume b) s = .next t ∧ Frame [.rtc] s t ∧
      t.rtc = { s.rtc with cdReload := b, haltReq := false, addReq := if s.rtc.halted then false else s.rtc.addReq }) ∧
    (∀ b : Bool, Reaches s 0 → s.rtc.haltReq = true → s.rtc.halted = true → ∃ t, exec (.rtcResumeAdd b) s = .next t ∧
      Frame [.rtc] s t ∧ t.rtc = { s.rtc with cdReload := b, haltReq := false, addReq := true }) ∧
    (∀ c : BitVec 48, Reaches s 0 → s.rtc.haltReq = true → ∃ t, exec (.rtcCountWrite c) s = .next t ∧
      Frame [.regs, .evq, .rtc] s t ∧ t.regs = s.regs ∧ t.rtc = { s.rtc with count := c.toNat }) ∧
    (∀ c : BitVec 48, Reaches s 0 → s.rtc.haltReq = false → ∃ t, exec (.rtcCountWrite c) s = .next t ∧
      Frame [.regs, .evq, .rtc] s t ∧ RegsOnly [oRtcEvent] s t ∧ t.rtc = s.rtc ∧ Raised oRtcEvent 3 s t) ∧
    (∀ v : Word, Reaches s 0 → ∃ t, exec (.rtcCdWrite v) s = .next t ∧ Frame [.rtc] s t ∧
      t.rtc = { s.rtc with cdWrite := some v }) ∧
    (s.rtc.cd = 1 → s.clk.alive = true → ∃ t, exec .cdExpired s = .next t ∧ Frame [.regs, .evq, .rtc] s t ∧
      RegsOnly [oRtcEvent] s t ∧
      t.rtc = { s.rtc with cd := if s.rtc.cdReload then s.rtc.cdLoad.toNat else 0 } ∧ Raised oRtcEvent 0 s t) ∧
    (bitOf (rget s oRtcStatus) 0 = false → s.clk.alive = true → ∃ t, exec .oscStop s = .next t ∧ Frame [.regs, .evq, .rtc] s t ∧
      RegsOnly [oRtcEvent, oRtcStatus] s t ∧ rget t oRtcStatus = rget s oRtcStatus ||| 1 ∧ t.rtc = s.rtc ∧ Raised oRtcEvent 1 s t) ∧
    (bitOf (rget s oRtcStatus) 0 = true → ∃ t, exec .oscStop s = .next t ∧ Frame [.regs, .evq, .rtc] s t ∧ t.regs = s.regs ∧
      t.rtc = s.rtc) ∧
    (∃ t, exec .retentionLost s = .next t ∧ Frame [.regs, .lowHeld, .evq, .rtc] s t ∧ RegsOnly [oRtcEvent, oRtcStatus] s t ∧
      rget t oRtcStatus = 3 ∧ t.rtc.count = 0 ∧ t.rtc.cd = 0 ∧ t.rtc.cdWrite = none ∧ t.rtc.haltReq = false ∧
        t.rtc.optime = s.rtc.optime) ∧
    (s.clk.alive = true → s.rtc.optimeNext = false → (s.rtc.optimeB.2 = true → s.rtc.optimeB.1 + 10 ≤ s.rtc.optime) →
      ∃ t, exec .optimeSave s = .next t ∧ Frame [.rtc] s t ∧
      t.rtc = { s.rtc with optimeA := (s.rtc.optime, true), optimeNext := true }) ∧
    (s.clk.alive = true → s.rtc.optimeNext = true → (s.rtc.optimeA.2 = true → s.rtc.optimeA.1 + 10 ≤ s.rtc.optime) →
      ∃ t, exec .optimeSave s = .next t ∧ Frame [.rtc] s t ∧
      t.rtc = { s.rtc with optimeB := (s.rtc.optime, true), optimeNext := false })

/-- The backup cell monitor (R665, R666): a measurement begins when a host asks for it, and hourly while its gate is enabled; a
warning below 3.30 V that ends at 3.40 V, no cell below 2.00 V. The recorder (R672, R674 to R676): the oldest waiting event is
written with the next sequence number in five accesses, the last of which makes VALID; with records dropped before, a LOST record
then joins the queue; and an event that finds the queue full is dropped and counted. -/
def Obligations.BatteryAndRecorderCommandsEffects : Prop :=
  ∀ s : State,
    (Reaches s 19 → ∃ t, exec (.batteryMeasure false) s = .next t ∧ Frame [.rtc] s t ∧ t.rtc = { s.rtc with batBusy := true }) ∧
    (batEnabled s = true → ∃ t, exec (.batteryMeasure true) s = .next t ∧ Frame [.rtc] s t ∧
      t.rtc = { s.rtc with batBusy := true }) ∧
    (∀ v : BitVec 10, s.rtc.batBusy = true → s.clk.alive = true → ∃ t, exec (.batteryMeasureDone v) s = .next t ∧ Frame [.regs,
      .evq, .rtc] s t ∧
      RegsOnly [oRtcEvent] s t ∧
        t.rtc = { s.rtc with batBusy := false, batV := v.toNat, batLow := t.rtc.batLow, batAbsent := decide (v.toNat < 200) } ∧
      (v.toNat < 330 → t.rtc.batLow = true ∧ (s.rtc.batLow = false → Raised oRtcEvent 2 s t) ∧ (s.rtc.batLow = true →
        t.regs = s.regs)) ∧
      (330 ≤ v.toNat → v.toNat < 340 → t.rtc.batLow = s.rtc.batLow ∧ t.regs = s.regs) ∧
      (340 ≤ v.toNat → t.rtc.batLow = false ∧ t.regs = s.regs)) ∧
    (∀ r ∈ s.recq.head?.toList, s.evq = [] → r.step < 4 → ∃ t, exec .recordWrite s = .next t ∧ Frame [.regs, .rings, .evq,
      .recq, .recSlots, .recNext, .recLost, .recLostCls, .msixPend, .out] s t ∧
      t.recq = { r with step := r.step + 1 } :: s.recq.tail ∧ t.recNext = s.recNext ∧ t.recLost = s.recLost ∧
      t.recSlots = tset (fun _ => []) s.recSlots (s.recNext.toNat % 32768)
        (recAccess (tget (fun _ => []) s.recSlots (s.recNext.toNat % 32768)) (recWords r s.recNext) r.step)) ∧
    (∀ r ∈ s.recq.head?.toList, s.evq = [] → 4 ≤ r.step → s.recLost = 0 → ∃ t, exec .recordWrite s = .next t ∧
      Frame [.regs, .rings, .evq, .recq, .recSlots, .recNext, .recLost, .recLostCls, .msixPend, .out] s t ∧
        t.recq = s.recq.tail ∧ t.recNext = s.recNext + 1 ∧ t.recLost = 0 ∧ t.regs = s.regs ∧
      t.rings = s.rings ∧ t.out = s.out ∧ tget (fun _ => []) t.recSlots (s.recNext.toNat % 32768) = recWords r s.recNext) ∧
    (∀ r ∈ s.recq.head?.toList, s.evq = [] → 4 ≤ r.step → s.recLost ≠ 0 → ∃ t, exec .recordWrite s = .next t ∧
      Frame [.regs, .rings, .evq, .recq, .recSlots, .recNext, .recLost, .recLostCls, .msixPend, .out] s t ∧
        t.recq.length = s.recq.length ∧ t.recNext = s.recNext + 1 ∧ t.recLost = 0 ∧ t.recLostCls = 0 ∧
      ∀ l ∈ t.recq.getLast?.toList, l.code = 0xF ∧ wAt l.body 0 = w32 s.recLost ∧ wAt l.body 1 = s.recLostCls) ∧
    (∀ e ∈ s.evq.head?.toList, e.toRec = true → e.toHost = false → s.evq.length = 1 → 256 ≤ s.recq.length → ∃ t,
      exec .recordDrop s = .next t ∧ Frame [.regs, .rings, .evq, .recq, .recLost, .recLostCls, .msixPend, .out] s t ∧
      t.recq = s.recq ∧ t.recLost = s.recLost + 1 ∧ t.recSlots = s.recSlots ∧ t.recNext = s.recNext)

/-- The ring engine outside its descriptors (R500, R503, R505, R506, R508, R510, R512, R513, R516, R517, R530, R550,
  R574): versions,
enabling and disabling a pair with its refusals, doorbells, the interrupt timer of a record that has waited TIME_US, an event lost,
the end of a watch's interval with a change held or none, and the resets that tear every ring down. -/
def Obligations.RingControlCommandsEffects : Prop :=
  ∀ s : State,
    (∀ v : Word, Reaches s 4 → anyRing s = false → ∃ t, exec (.rngVerHost v) s = .next t ∧ Frame [.regs] s t ∧
      RegsOnly [oRngVerHost, oRngVerUsed] s t ∧ rget t oRngVerHost = v ∧
      rget t oRngVerUsed = (if fld v 7 0 ≤ 1 ∧ 1 ≤ fld v 15 8 then 1 else 0)) ∧
    (∀ v : Word, Reaches s 4 → anyRing s = true → ∃ t, exec (.rngVerHost v) s = .next t ∧ Frame [.regs] s t ∧
      RegsOnly [oRngErr] s t ∧ rget t oRngErr = rget s oRngErr ||| 1) ∧
    (∀ (n : Fin 64) (v : Word), Reaches s 4 → bitOf (rget s (oRing n)) 0 = false → (ring s n).enabled = false →
      canEnable s n ((v ||| 1) &&& 0x1FFFF) = true → ∃ t, exec (.ringEnable n v) s = .next t ∧ Frame [.regs, .rings] s t ∧
      RegsOnly [oRing n] s t ∧ RingsOnly [n.val] s t ∧ rget t (oRing n) = (v ||| 1) &&& 0x1FFFF ∧ (ring t n).enabled = true ∧
      (ring t n).phase = true ∧ (ring t n).sqHead = 0 ∧ (ring t n).cqTail = 0 ∧ (ring t n).seq = rget s (oRing n + 0x14) ∧
      (ring t n).flight = [] ∧ (ring t n).halted = false) ∧
    (∀ (n : Fin 64) (v : Word), Reaches s 4 → bitOf (rget s (oRing n)) 0 = false → canEnable s n ((v ||| 1) &&& 0x1FFFF) = false →
      ∃ t, exec (.ringEnable n v) s = .next t ∧ Frame [.regs, .rings] s t ∧ RegsOnly [oRing n, oRing n + 0x2C] s t ∧
      t.rings = s.rings ∧ bitOf (rget t (oRing n)) 0 = false ∧ bitOf (rget t (oRing n + 0x2C)) 1 = true) ∧
    (∀ n : Fin 64, Reaches s 4 → bitOf (rget s (oRing n)) 0 = true → isEventPair s n = true ∨ (ring s n).flight = [] →
      ∃ t, exec (.ringDisable n (rget s (oRing n))) s = .next t ∧ Frame [.regs, .rings] s t ∧ RegsOnly [oRing n] s t ∧
      bitOf (rget t (oRing n)) 0 = false ∧ RingsOnly [n.val] s t ∧ (ring t n).enabled = false) ∧
    (∀ n : Fin 64, Reaches s 4 → bitOf (rget s (oRing n)) 0 = true → isEventPair s n = false → (ring s n).flight ≠ [] →
      ∃ t, exec (.ringDisable n (rget s (oRing n))) s = .next t ∧ Frame [.regs, .rings] s t ∧ RegsOnly [oRing n] s t ∧
      bitOf (rget t (oRing n)) 0 = false ∧ RingsOnly [n.val] s t ∧ (ring t n).closing = true ∧ (ring t n).rung = false ∧
      (ring t n).flight = (ring s n).flight) ∧
    (∀ (n : Fin 64) (v : Word), Reaches s 4 → (ring s n).enabled = true → isEventPair s n = false → fld v 11 0 < ringSize s n →
      ∃ t, exec (.sqTail n v) s = .next t ∧ Frame [.regs, .rings] s t ∧ RingsOnly [n.val] s t ∧ t.regs = s.regs ∧
      (ring t n).sqTail = fld v 11 0 ∧ (ring t n).sqHead = (ring s n).sqHead ∧ (ring t n).flight = (ring s n).flight ∧
      ((ring s n).halted = true → (ring t n).rung = true ∧ (ring t n).wantResume = true ∧ (ring t n).halted = true)) ∧
    (∀ (n : Fin 64) (v : Word), Reaches s 4 → (ring s n).enabled = false ∨ isEventPair s n = true ∨ ringSize s n ≤ fld v 11 0 →
      ∃ t, exec (.sqTail n v) s = .next t ∧ Frame [.regs, .rings] s t ∧ t.rings = s.rings ∧ RegsOnly [oRing n + 0x2C] s t ∧
      rget t (oRing n + 0x2C) = rget s (oRing n + 0x2C) ||| 1) ∧
    (∀ (n : Fin 64) (v : Word), Reaches s 4 → (ring s n).enabled = true → isEventPair s n = false → fld v 11 0 < ringSize s n →
      (fld v 11 0 + ringSize s n - (ring s n).cqHead) % ringSize s n ≤ ((ring s n).cqTail + ringSize s n - (ring s n).cqHead) % ringSize s n →
      ∃ t, exec (.cqHead n v) s = .next t ∧ Frame [.regs, .rings, .msixPend, .out] s t ∧ t.regs = s.regs ∧ RingsOnly [n.val] s t ∧
      ring t n = { ring s n with cqHead := fld v 11 0 }) ∧
    (∀ n : Fin 64, (ring s n).enabled = true → (ring s n).unsig ≠ 0 → rfld s (oRing n + 0x18) 27 16 ≠ 0 →
      (ring s n).unsigAt + 1000 * rfld s (oRing n + 0x18) 27 16 ≤ s.up →
      bitOf (tget msixDefault s.msix (4 * fld (ring s n).ctrl 16 11 + 3)) 0 = false →
      ∃ t, exec (.interruptTimer n) s = .next t ∧ Frame [.rings, .msixPend, .out] s t ∧ RingsOnly [n.val] s t ∧
      ring t n = { ring s n with unsig := 0 } ∧ t.out = s.out ++ [.msix (fld (ring s n).ctrl 16 11)] ∧ t.msixPend = s.msixPend) ∧
    (∀ n : Fin 64, (ring s n).enabled = true → (ring s n).unsig ≠ 0 → rfld s (oRing n + 0x18) 27 16 ≠ 0 →
      (ring s n).unsigAt + 1000 * rfld s (oRing n + 0x18) 27 16 ≤ s.up →
      bitOf (tget msixDefault s.msix (4 * fld (ring s n).ctrl 16 11 + 3)) 0 = true →
      ∃ t, exec (.interruptTimer n) s = .next t ∧ Frame [.rings, .msixPend, .out] s t ∧ RingsOnly [n.val] s t ∧
      ring t n = { ring s n with unsig := 0 } ∧ t.out = s.out ∧
      (tget (fun _ => 0) t.msixPend (fld (ring s n).ctrl 16 11 / 32)).getLsbD (fld (ring s n).ctrl 16 11 % 32) = true) ∧
    (∀ n : Fin 64, ∀ e ∈ s.evq.head?.toList, s.evq.length = 1 → e.toHost = true → e.toRec = false → takesEvent s n e = true →
      cqFree s n = 0 → ∃ t, exec (.eventLost n) s = .next t ∧ Frame [.regs, .rings, .evq, .recq, .recLost, .recLostCls,
        .msixPend, .out] s t ∧
      (ring t n).lost = (ring s n).lost + 1 ∧ bitOf (rget t (oRing n + 0x2C)) 2 = true ∧ (ring t n).cqTail = (ring s n).cqTail) ∧
    (∀ (k : Fin 512) (point : BitVec 16) (part : Fin 17), ∀ w, s.watches[k.val]? = some w → w.point = point.toNat →
      w.part = part.val →
      w.closed = true → w.held = true → w.since + w.minMs * 1000000 ≤ s.up → bitOf w.deadband 31 = false →
      ∃ t, exec (.watchReport point part) s = .next t ∧ Frame [.evq, .watches] s t ∧
      t.watches.length = s.watches.length ∧
        t.watches[k.val]? = some { watchNow s w with held := false, closed := w.minMs != 0, since := s.up } ∧
      Ev.mk 5 7 w.part (nowTs s) s.rtc.optime [w32 w.point, pval s w.point, statusWord s w.point] 0 w.point true false ∈ t.evq) ∧
    (∀ (k : Fin 512) (point : BitVec 16) (part : Fin 17), ∀ w, s.watches[k.val]? = some w → w.point = point.toNat →
      w.part = part.val →
      w.closed = true → w.held = false → w.since + w.minMs * 1000000 ≤ s.up → watchChanged s w = false →
      ∃ t, exec (.watchReport point part) s = .next t ∧ Frame [.evq, .watches] s t ∧
      t.watches[k.val]? = some { w with closed := false }) ∧
    (s.clk.linkPcie = true → ∃ t, exec .functionLevelReset s = .next t ∧ Frame [.regs, .phc, .rings, .watches, .msix,
      .msixPend, .busMaster, .memEnable, .ble] s t ∧ t.rings = [] ∧
      t.msix = [] ∧ t.msixPend = [] ∧ t.busMaster = false ∧ t.memEnable = false ∧ t.watches = [] ∧ t.phc.timed = [] ∧
        t.ble.writes = [] ∧
      t.clk.linkPcie = true ∧ ∀ o : Nat, o < 0x80000 ∨ 0x90000 ≤ o → rget t o = rget s o) ∧
    (s.clk.linkPcie = true → anyRing s = true → ∃ t, exec .busMasterDisable s = .next t ∧ Frame [.regs, .phc, .rings, .watches,
      .busMaster, .ble] s t ∧
      t.busMaster = false ∧ t.rings = [] ∧ t.watches = [] ∧ t.phc.timed = [] ∧ t.ble.writes = []) ∧
    (s.clk.linkPcie = true → anyRing s = false → ∃ t, exec .busMasterDisable s = .next t ∧ Frame [.regs, .phc, .rings,
      .watches, .busMaster, .ble] s t ∧
      t.busMaster = false ∧ t.rings = s.rings ∧ t.regs = s.regs ∧ t.phc = s.phc)

/-- Descriptors from fetch to commit (R504, R521, R524, R556, R557, R570, R572,
  R573): a fetch by the pair whose turn it is takes the
next slot; a CRC error and a SEQ out of order are left for the commit turn with their status, a good descriptor counts SEQ; at the
commit turn a failing descriptor completes with its status, halts the ring, and what is behind it completes NOT_EXECUTED, and a NOP
completes OK; a failed read of a descriptor halts the ring at its slot, one of its payload completes DMA_ERROR. -/
def Obligations.DescriptorCommandsEffects : Prop :=
  ∀ s : State,
    (∀ (n : Fin 64) (ws pay : List Word), canFetch s n = true → ∃ t, exec (.descriptorFetch n ws pay) s = .next t ∧
      Frame [.regs, .rings, .evq] s t ∧ RingsOnly [n.val] s t ∧ (ring t n).fetched = (ring s n).fetched + 1 ∧
      (ring t n).sqHead = ((ring s n).sqHead + 1) % ringSize s n ∧ (ring t n).flight.dropLast = (ring s n).flight ∧
      (ring t n).done = (ring s n).done ∧ (ring t n).turn = (lastTurn s).2 + 1 ∧ t.out = s.out) ∧
    (∀ (n : Fin 64) (ws pay : List Word), canFetch s n = true → (ring s n).halted = false →
      crcWords ((descWords ws).take 15) ≠ wAt (descWords ws) 15 → ∃ t, exec (.descriptorFetch n ws pay) s = .next t ∧
      (ring t n).seq = (ring s n).seq ∧ (ring t n).flight.getLast? =
        some (Flight.mk (ring s n).fetched (ring s n).sqHead (descWords ws) [] (some (6, 1)) false false)) ∧
    (∀ (n : Fin 64) (ws pay : List Word), canFetch s n = true → (ring s n).halted = false →
      crcWords ((descWords ws).take 15) = wAt (descWords ws) 15 → fld (wAt (descWords ws) 0) 7 0 ≠ 2 →
      wAt (descWords ws) 1 ≠ (ring s n).seq → ∃ t, exec (.descriptorFetch n ws pay) s = .next t ∧
      (ring t n).seq = (ring s n).seq ∧ (ring t n).flight.getLast? =
        some (Flight.mk (ring s n).fetched (ring s n).sqHead (descWords ws) [] (some (5, (ring s n).seq)) false false)) ∧
    (∀ (n : Fin 64) (ws pay : List Word), canFetch s n = true → (ring s n).halted = false → (ring s n).dupLeft = 0 →
      crcWords ((descWords ws).take 15) = wAt (descWords ws) 15 → fld (wAt (descWords ws) 0) 7 0 ≠ 2 →
      wAt (descWords ws) 1 = (ring s n).seq → opStatic (descWords ws) = none → bitOf (wAt (descWords ws) 0) 8 = false →
      ∃ t, exec (.descriptorFetch n ws pay) s = .next t ∧ t.regs = s.regs ∧ (ring t n).seq = (ring s n).seq + 1 ∧
      (ring t n).flight.getLast? = some (Flight.mk (ring s n).fetched (ring s n).sqHead (descWords ws) [] none false false)) ∧
    (∀ (n : Fin 64) (ws pay : List Word), canFetch s n = false → ∃ t, exec (.descriptorFetch n ws pay) s = .next t ∧
      Frame [.regs, .rings, .evq] s t ∧ t.rings = s.rings ∧ t.regs = s.regs) ∧
    (∀ (n : Fin 64) (hop : Fin 13), hop ≠ 4 → ∀ f ∈ (ring s n).flight.head?.toList, ∀ e, f.early = some e → 2 < e.1 →
      f.waiting = false → f.dup = false →
      ringsRun s = true → s.busMaster = true → ((ring s n).flight.map Flight.ord).Nodup → (ring s n).closing = false →
      ∃ t, exec (.descriptorCommit n hop) s = .next t ∧ Frame [.regs, .live, .latch, .lowHeld, .pts, .hold, .phc, .clk, .banks,
        .ch, .rings, .evq, .recq, .recLost, .recLostCls, .watches, .rtc, .msix, .msixPend, .forces, .img, .ptp, .eth, .can,
        .mtr, .lce, .ble, .twn, .sec, .upd, .free, .out] s t ∧ RingsOnly [n.val] s t ∧
      (ring t n).halted = true ∧ (ring t n).flight = [] ∧ (ring t n).committed = (ring s n).committed ∧
      (ring t n).done = (ring s n).done + (ring s n).flight.length ∧
      Out.completion n (ring s n).cqTail (withCrc [wAt f.words 1,
        w32 (e.1 + (opOf f <<< 16) + ((ring s n).phase.toNat <<< 31)), 0, 0, e.2,
        w32 (nowTs s), w32 (nowTs s >>> 32)]) ∈ t.out) ∧
    (∀ (n : Fin 64) (hop : Fin 13), hop ≠ 4 → ∀ f ∈ (ring s n).flight.head?.toList, f.early = none → opOf f = 0 →
      f.waiting = false → f.dup = false →
      ringsRun s = true → s.busMaster = true → ((ring s n).flight.map Flight.ord).Nodup → (ring s n).closing = false →
      ∃ t, exec (.descriptorCommit n hop) s = .next t ∧ Frame [.regs, .live, .latch, .lowHeld, .pts, .hold, .phc, .clk, .banks,
        .ch, .rings, .evq, .recq, .recLost, .recLostCls, .watches, .rtc, .msix, .msixPend, .forces, .img, .ptp, .eth, .can,
        .mtr, .lce, .ble, .twn, .sec, .upd, .free, .out] s t ∧ RingsOnly [n.val] s t ∧ t.regs = s.regs ∧
      (ring t n).halted = (ring s n).halted ∧ (ring t n).flight = (ring s n).flight.tail ∧ (ring t n).committed = wAt f.words 1 ∧
      (ring t n).done = (ring s n).done + 1) ∧
    (∀ n : Fin 64, canFetch s n = true → ∃ t, exec (.dmaTimeout n []) s = .next t ∧ Frame [.regs, .rings, .evq] s t ∧
      RingsOnly [n.val] s t ∧
      RegsOnly [oRing n + 0x2C] s t ∧ (ring t n).halted = true ∧ (ring t n).sqHead = (ring s n).sqHead ∧
      rget t (oRing n + 0x2C) = rget s (oRing n + 0x2C) ||| 8) ∧
    (∀ (n : Fin 64) (ws : List Word), canFetch s n = true → ws ≠ [] → bitOf (wAt ws 0) 8 = true → opStatic (descWords ws) = none →
      crcWords ((descWords ws).take 15) = wAt ws 15 → fld (wAt ws 0) 7 0 ≠ 2 → wAt ws 1 = (ring s n).seq →
        (ring s n).halted = false →
      (ring s n).dupLeft = 0 → ∃ t, exec (.dmaTimeout n ws) s = .next t ∧ Frame [.regs, .rings, .evq] s t ∧ RingsOnly [n.val] s t ∧
      t.regs = s.regs ∧ ∀ f ∈ (ring t n).flight.getLast?.toList, f.early = some (7, 0))

/-- Operations of a ring on itself and on points and stations (R511, R523, R526 to R530, R565, R566, R575): a fence waits for the
rings it names and ends when none of them stands before it; a resume takes the SEQ it names; a read returns values and status
words; a write of points is refused whole at the first point that may not be written, or writes every one; a watch is added in
place of an earlier one, or removed; and a station's words are read and written. -/
def Obligations.PointOperationsEffects : Prop :=
  ∀ s : State,
    (∀ (n : Fin 64) (d : Desc), Ready s n.val 0x00 d → ∃ t, exec (.nop n d) s = .next t ∧ Frame [.rings, .msixPend, .out] s t ∧
      Completed s n.val 0x00 d 0 0 0 0 t) ∧
    (∀ (n : Fin 64) (d : Desc), Ready s n.val 0x01 d → wAt d.par 0 = 0 → wAt d.par 1 = 0 → ∃ t, exec (.fence n d) s = .next t ∧
      Frame [.rings, .msixPend, .out] s t ∧ Completed s n.val 0x01 d 0 0 0 0 t) ∧
    (∀ (n : Fin 64) (d : Desc), Ready s n.val 0x01 d → (∀ e ∈ fenceSees s n d, (fenceRing s e.1 e.2.1 e.2.2).isSome = true) →
      ∃ t, exec (.fence n d) s = .next t ∧ Frame [.rings, .msixPend, .out] s t ∧ (ring t n).flight = [] ∧
      (ring t n).done = (ring s n).done + 1 ∧ (ring t n).committed = d.seq ∧ (ring t n).halted = false) ∧
    (∀ (n : Fin 64) (d : Desc), Ready s n.val 0x01 d → ∀ e ∈ fenceSees s n d, (ring s e.1).epoch = e.2.2 →
      (ring s e.1).done < e.2.1 → (ring s e.1).enabled = true → (ring s e.1).halted = false →
      ∃ t, exec (.fence n d) s = .next t ∧ Frame [.rings] s t ∧ (ring t n).flight.length = 1 ∧ (ring t n).done = (ring s n).done) ∧
    (∀ (n : Fin 64) (d : Desc), canFetch s n = true → (ring s n).flight = [] → (ring s n).halted = true →
      (ring s n).wantResume = true →
      opStatic (descOf 2 d) = none → ((ring s n).committed + 1 - wAt d.par 0).toNat < ringSize s n → ∃ t,
        exec (.resume n d) s = .next t ∧
      Frame [.rings, .msixPend, .out] s t ∧ Completed s n.val 0x02 d 0 (ring s n).committed 0 0 t ∧ (ring t n).seq = wAt d.par 0 ∧
      (ring t n).dupLeft = ((ring s n).committed + 1 - wAt d.par 0).toNat ∧ (ring t n).committed = (ring s n).committed) ∧
    (∀ (n : Fin 64) (d : Desc), Ready s n.val 0x10 d →
      (∀ i : Nat, i < (wAt d.par 0).toNat → partOk (ringPart s n) (ppart s (d.target.toNat + i)) = true) →
      8 * (wAt d.par 0).toNat + 4 ≤ d.len.toNat → ∃ t, exec (.ptRead n d) s = .next t ∧ Frame [.rings, .msixPend, .out] s t ∧
      Returned s n.val 0x10 d ((upto (wAt d.par 0).toNat).flatMap (fun i => [
        (if (ptype s (d.target.toNat + i)).isNone then 0 else if bitOf (wAt d.par 1) 0 then pnat s (d.target.toNat + i) else pval s (d.target.toNat + i)),
        statusWord s (d.target.toNat + i)])) (wAt d.par 0) 0 t) ∧
    (∀ (n : Fin 64) (d : Desc), Ready s n.val 0x11 d → ∀ i : Nat, i < (wAt d.par 0).toNat →
      (∀ j : Nat, j < i → partOk (ringPart s n) (ppart s (d.target.toNat + j)) = true) →
      partOk (ringPart s n) (ppart s (d.target.toNat + i)) = false → ∃ t, exec (.ptWrite n d) s = .next t ∧
      Frame [.regs, .rings, .evq, .msixPend, .out] s t ∧ Completed s n.val 0x11 d 9 0 0 (w32 (d.target.toNat + i)) t) ∧
    (∀ (n : Fin 64) (d : Desc), Ready s n.val 0x11 d →
      (∀ i : Nat, i < (wAt d.par 0).toNat → partOk (ringPart s n) (ppart s (d.target.toNat + i)) = true) →
      ∀ i : Nat, i < (wAt d.par 0).toNat →
      (∀ j : Nat, j < i → ptWriteFault s (d.target.toNat + j, dataWord d 1 (wAt d.par 0).toNat j) = none) →
      ∀ e, ptWriteFault s (d.target.toNat + i, dataWord d 1 (wAt d.par 0).toNat i) = some e →
      ∃ t, exec (.ptWrite n d) s = .next t ∧ Frame [.rings, .msixPend, .out] s t ∧ Completed s n.val 0x11 d e.1 0 0 e.2 t) ∧
    (∀ (n : Fin 64) (d : Desc), Ready s n.val 0x11 d →
      (∀ i : Nat, i < (wAt d.par 0).toNat → partOk (ringPart s n) (ppart s (d.target.toNat + i)) = true) →
      (∀ i : Nat, i < (wAt d.par 0).toNat → ptWriteFault s (d.target.toNat + i, dataWord d 1 (wAt d.par 0).toNat i) = none) →
      (∀ i : Nat, i < (wAt d.par 0).toNat → pointForce s (d.target.toNat + i) = none) →
      ∃ t, exec (.ptWrite n d) s = .next t ∧ Frame [.pts, .banks, .ch, .rings, .msixPend, .can, .ble, .out] s t ∧
      Completed s n.val 0x11 d 0 0 0 0 t ∧ ∀ i : Nat, i < (wAt d.par 0).toNat → chMode s (d.target.toNat + i) ≠ 2 →
        pnat t (d.target.toNat + i) = canonOf ((ptype s (d.target.toNat + i)).getD 4) (dataWord d 1 (wAt d.par 0).toNat i)) ∧
    (∀ (n : Fin 64) (d : Desc), Ready s n.val 0x12 d → wAt d.par 0 = 1 → partOk (ringPart s n) (ppart s d.target.toNat) = true →
      s.watches.length < 2048 ∨ s.watches.any (isWatch d.target.toNat (ringPart s n)) = true → ∃ t,
        exec (.ptWatchAdd n d) s = .next t ∧ Frame [.rings, .watches, .msixPend, .out] s t ∧
      t.watches.length = (s.watches.filter (fun w => !isWatch d.target.toNat (ringPart s n) w)).length + 1 ∧
      (∀ w ∈ t.watches.getLast?.toList, w.point = d.target.toNat ∧ w.part = ringPart s n ∧ w.deadband = wAt d.par 1 ∧
        w.minMs = (wAt d.par 2).toNat) ∧
      Completed s n.val 0x12 d 0 (w32 t.watches.length) 0 0 t) ∧
    (∀ (n : Fin 64) (d : Desc), Ready s n.val 0x12 d → wAt d.par 0 = 0 → partOk (ringPart s n) (ppart s d.target.toNat) = true →
      s.watches.any (isWatch d.target.toNat (ringPart s n)) = true →
      ∃ t, exec (.ptWatchRemove n d) s = .next t ∧ Frame [.rings, .watches, .msixPend, .out] s t ∧
      watchSetups t = watchSetups { s with watches := s.watches.filter (fun w => !isWatch d.target.toNat (ringPart s n) w) } ∧
      Completed s n.val 0x12 d 0 (w32 t.watches.length) 0 0 t) ∧
    (∀ (n : Fin 64) (d : Desc), Ready s n.val 0x12 d → wAt d.par 0 = 0 → partOk (ringPart s n) (ppart s d.target.toNat) = true →
      s.watches.any (isWatch d.target.toNat (ringPart s n)) = false →
      ∃ t, exec (.ptWatchRemove n d) s = .next t ∧ Frame [.rings, .msixPend, .out] s t ∧ Completed s n.val 0x12 d 0xF 0 0 0 t) ∧
    (∀ (n : Fin 64) (d : Desc), Ready s n.val 0x13 d → partOk (ringPart s n) (stationPart s d.target.toNat) = true →
      ∃ t, exec (.rioRead n d) s = .next t ∧ Frame [.rings, .msixPend, .out] s t ∧
      Returned s n.val 0x13 d ((match (rio s d.target.toNat).last with
          | some a => w32 (min ((s.up - a) / 1000000) 0xFFFFFFFF)
          | none => 0xFFFFFFFF) :: (rio s d.target.toNat).upd ::
        (upto (wAt d.par 1).toNat).map (fun j => wAt (rio s d.target.toNat).input ((wAt d.par 0).toNat + j))) 0 0 t) ∧
    (∀ (n : Fin 64) (d : Desc), Ready s n.val 0x14 d → partOk (ringPart s n) (stationPart s d.target.toNat) = true →
      (∀ j : Nat, j < (wAt d.par 1).toNat → rioWritten s d.target.toNat ((wAt d.par 0).toNat + j) = false) →
      ∃ t, exec (.rioWrite n d) s = .next t ∧ Frame [.rings, .eth, .msixPend, .out] s t ∧ Completed s n.val 0x14 d 0 0 0 0 t ∧
      ((rio s d.target.toNat).output.length = 64 → ∀ j : Nat, j < (wAt d.par 1).toNat →
        wAt (rio t d.target.toNat).output ((wAt d.par 0).toNat + j) = dataWord d 2 (wAt d.par 1).toNat j) ∧
      ∀ st : Fin 32, st.val ≠ d.target.toNat → rio t st = rio s st) ∧
    (∀ (n : Fin 64) (d : Desc), Ready s n.val 0x14 d → partOk (ringPart s n) (stationPart s d.target.toNat) = true →
      ∀ j : Nat, j < (wAt d.par 1).toNat → (∀ i : Nat, i < j → rioWritten s d.target.toNat ((wAt d.par 0).toNat + i) = false) →
      rioWritten s d.target.toNat ((wAt d.par 0).toNat + j) = true → ∃ t, exec (.rioWrite n d) s = .next t ∧
      Frame [.rings, .msixPend, .out] s t ∧ Completed s n.val 0x14 d 0xC 0 0 (w32 ((wAt d.par 0).toNat + j)) t)

/-- The operations on configuration (R136, R531, R532): pairs are checked whole before one is written,
  a staged set waits for its own
commit and nothing of it is live before, a busy one refuses, every other pair is written as a register write writes it, a read
returns the words as register reads do, and a pair or a word behind a closed gate fails the descriptor with nothing written. -/
def Obligations.ConfigurationOperationsEffects : Prop :=
  ∀ s : State,
    (∀ (n : Fin 64) (d : Desc), Ready s n.val 0x20 d → ∀ p ∈ (pairsOf d.payload).head?.toList,
      cfgPairOk d.target.toNat p.1 = false →
      ∃ t, exec (.cfgWrite n d) s = .next t ∧ Frame [.rings, .msixPend, .out] s t ∧ (ring t n).halted = true ∧
        (ring t n).flight = [] ∧
      (ring t n).committed = (ring s n).committed) ∧
    (∀ (n : Fin 64) (d : Desc), Ready s n.val 0x20 d → (∀ p ∈ pairsOf d.payload, cfgPairOk d.target.toNat p.1 = true) →
      (∀ p ∈ pairsOf d.payload, cfgUp s (cfgBase d.target.toNat + p.1.toNat) = true) →
      cfgBusy s d.target.toNat = true → ∃ t, exec (.cfgWrite n d) s = .next t ∧ Frame [.rings, .msixPend, .out] s t ∧
      Completed s n.val 0x20 d 0xE 0 0 0 t) ∧
    (∀ (n : Fin 64) (d : Desc), Ready s n.val 0x20 d → (∀ p ∈ pairsOf d.payload, cfgPairOk d.target.toNat p.1 = true) →
      (pairsOf d.payload).all (fun p => cfgUp s (cfgBase d.target.toNat + p.1.toNat)) = false →
      ∃ t, exec (.cfgWrite n d) s = .next t ∧ Frame [.rings, .msixPend, .free, .out] s t ∧ (ring t n).halted = true ∧
      (ring t n).flight = [] ∧ (ring t n).committed = (ring s n).committed) ∧
    (∀ (n : Fin 64) (d : Desc), Ready s n.val 0x20 d → (∀ p ∈ pairsOf d.payload, cfgPairOk d.target.toNat p.1 = true) →
      (∀ p ∈ pairsOf d.payload, cfgUp s (cfgBase d.target.toNat + p.1.toNat) = true) →
      d.target.toNat % 16 ≠ 2 → d.target.toNat % 16 ≠ 3 → d.target.toNat % 16 ≠ 4 → ∃ t, exec (.cfgWrite n d) s = .next t ∧
      Frame [.regs, .lowHeld, .pts, .hold, .phc, .clk, .banks, .ch, .rings, .evq, .recq, .recLost, .recLostCls, .rtc, .msix,
        .msixPend, .ptp, .eth, .can, .mtr, .lce, .ble, .twn, .sec, .upd, .out] s t ∧ Completed s n.val 0x20 d 0 0 0 0 t ∧ ∀ o : Nat,
        rget t o = rget (forAll (pairsOf d.payload) (fun s p => regWrite s (cfgBase d.target.toNat + p.1.toNat) p.2) s) o) ∧
    (∀ (n : Fin 64) (d : Desc), Ready s n.val 0x20 d → (∀ p ∈ pairsOf d.payload, cfgPairOk d.target.toNat p.1 = true) →
      (∀ p ∈ pairsOf d.payload, cfgUp s (cfgBase d.target.toNat + p.1.toNat) = true) → cfgBusy s d.target.toNat = false →
      d.target.toNat % 16 = 2 ∨ d.target.toNat % 16 = 3 ∨ d.target.toNat % 16 = 4 →
      ∃ t, exec (.cfgWrite n d) s = .next t ∧ Frame [.regs, .lowHeld, .pts, .hold, .phc, .clk, .banks, .ch, .rings, .evq,
        .recq, .recLost, .recLostCls, .rtc, .msix, .msixPend, .ptp, .eth, .can, .mtr, .lce, .ble, .twn, .sec, .upd, .out] s t ∧
        t.live = s.live ∧ t.pts = s.pts ∧ t.forces = s.forces ∧
      (ring t n).flight.length + (ring t n).done = (ring s n).done + 1) ∧
    (∀ (n : Fin 64) (d : Desc), Ready s n.val 0x21 d → 4 * (wAt d.par 1).toNat + 4 ≤ d.len.toNat →
      (∀ k : Nat, k < (wAt d.par 1).toNat → cfgUp s (cfgBase d.target.toNat + (wAt d.par 0).toNat + 4 * k) = true) →
      ∃ t, exec (.cfgRead n d) s = .next t ∧ Frame [.latch, .rings, .msixPend, .out] s t ∧
      Returned s n.val 0x21 d (cfgReadGo s (cfgBase d.target.toNat + (wAt d.par 0).toNat) (wAt d.par 1).toNat).2 0 0 t) ∧
    (∀ (n : Fin 64) (d : Desc), Ready s n.val 0x21 d →
      (upto (wAt d.par 1).toNat).all (fun k => cfgUp s (cfgBase d.target.toNat + (wAt d.par 0).toNat + 4 * k)) = false →
      ∃ t, exec (.cfgRead n d) s = .next t ∧ Frame [.rings, .msixPend, .free, .out] s t ∧ (ring t n).halted = true ∧
      (ring t n).flight = [] ∧ (ring t n).committed = (ring s n).committed)

/-- The controller by ring (R534): it stops with its cause, restarts warm or cold, a stopped task starts again,
  and the module resets
itself after the completion; what does not apply is refused. -/
def Obligations.ControllerOperationsEffects : Prop :=
  ∀ s : State,
    (∀ (n : Fin 64) (d : Desc), Ready s n.val 0x30 d → wAt d.par 0 = 0 → s.ble.running = true → ∃ t,
      exec (.ctrlStop n d) s = .next t ∧
      Frame [.regs, .pts, .banks, .ch, .rings, .evq, .msixPend, .can, .lce, .ble, .twn, .out] s t ∧
        Completed s n.val 0x30 d 0 0 0 0 t ∧ t.ble.running = false ∧ t.ble.stopCause = 3 ∧ t.ble.run = none ∧
      t.ble.wait = [] ∧ t.lce.wait = [] ∧ t.twn.role = s.twn.role) ∧
    (∀ (n : Fin 64) (d : Desc), Ready s n.val 0x30 d → wAt d.par 0 = 0 → s.ble.running = false → ∃ t,
      exec (.ctrlStop n d) s = .next t ∧
      Frame [.rings, .msixPend, .out] s t ∧ Completed s n.val 0x30 d 0 0 0 0 t) ∧
    (∀ (n : Fin 64) (d : Desc), Ready s n.val 0x30 d → wAt d.par 0 = 1 → s.ble.running = true → ∃ t,
      exec (.ctrlRestart n d) s = .next t ∧
      Frame [.rings, .msixPend, .out] s t ∧ Completed s n.val 0x30 d 0x17 0 0 0 t) ∧
    (∀ (n : Fin 64) (d : Desc), Ready s n.val 0x30 d → wAt d.par 0 = 1 → s.ble.running = false → s.img = none →
      ∃ t, exec (.ctrlRestart n d) s = .next t ∧ Frame [.rings, .msixPend, .out] s t ∧ Completed s n.val 0x30 d 0xD 0 0 1 t) ∧
    (∀ (n : Fin 64) (d : Desc), Ready s n.val 0x30 d → wAt d.par 0 = 1 → s.ble.running = false → ∀ im, s.img = some im →
      ∃ t, exec (.ctrlRestart n d) s = .next t ∧ Frame [.pts, .banks, .rings, .msixPend, .can, .lce, .ble, .out] s t ∧
        t.ble.running = true ∧ t.ble.stopCause = 0 ∧ t.ble.run = none ∧
      Completed s n.val 0x30 d 0 (if (retainFor s im).isSome then 1 else 2) 0 0 t) ∧
    (∀ (n : Fin 64) (d : Desc), Ready s n.val 0x30 d → wAt d.par 0 = 2 → s.ble.running = false → ∀ im, s.img = some im →
      ∃ t, exec (.ctrlRestartCold n d) s = .next t ∧ Frame [.pts, .banks, .rings, .msixPend, .can, .lce, .ble, .out] s t ∧
        t.ble.running = true ∧ t.ble.data = initTab im ∧
      Completed s n.val 0x30 d 0 2 0 0 t) ∧
    (∀ (n : Fin 64) (d : Desc), Ready s n.val 0x30 d → wAt d.par 0 = 3 → s.ble.running = true →
      (task s (wAt d.par 1).toNat).stopped = true →
      ∃ t, exec (.ctrlTaskStart n d) s = .next t ∧ Frame [.rings, .msixPend, .ble, .out] s t ∧ Completed s n.val 0x30 d 0 0 0 0 t ∧
      task t (wAt d.par 1).toNat = { task s (wAt d.par 1).toNat with stopped := false } ∧
      ∀ k : Fin 16, k.val ≠ (wAt d.par 1).toNat → task t k = task s k) ∧
    (∀ (n : Fin 64) (d : Desc), Ready s n.val 0x30 d → wAt d.par 0 = 3 →
      s.ble.running = false ∨ (task s (wAt d.par 1).toNat).stopped = false →
      ∃ t, exec (.ctrlTaskStart n d) s = .next t ∧ Frame [.rings, .msixPend, .out] s t ∧ Completed s n.val 0x30 d 0x17 0 0 0 t) ∧
    (∀ (n : Fin 64) (d : Desc), Ready s n.val 0x30 d → wAt d.par 0 = 4 → ∃ t, exec (.ctrlReset n d) s = .next t ∧ Frame [.regs,
      .pts, .hold, .phc, .clk, .banks, .ch, .rings, .evq, .recq, .recLost, .recLostCls, .msixPend, .can, .lce, .ble, .twn,
        .out] s t ∧
      Completed s n.val 0x30 d 0 0 0 0 t ∧ t.clk.alive = false ∧ t.clk.startCause = 4 ∧ t.base.holdOut = false ∧ t.phc.run = false ∧
      t.ble.running = false ∧ t.ble.stopCause = 1)

/-- Loading, activating and the instance words of a program (R376, R379, R386, R421 to R424, R511,
  R535 to R537): a load is taken in order
and checked whole, a good one becomes the inactive image, an activation passes its checks or is refused with the code,
  an instance is read and written by its words. -/
def Obligations.ProgramOperationsEffects : Prop :=
  ∀ s : State,
    (∀ (n : Fin 64) (d : Desc), Ready s n.val 0x31 d → s.ble.act ≠ none → ∃ t, exec (.imgLoad n d) s = .next t ∧
      Frame [.rings, .msixPend, .out] s t ∧ Completed s n.val 0x31 d 0xE 0 0 0 t) ∧
    (∀ (n : Fin 64) (d : Desc), Ready s n.val 0x31 d → s.ble.act = none → wAt d.par 0 = 0 →
      4 * d.payload.length < (wAt d.par 1).toNat →
      ∃ t, exec (.imgLoad n d) s = .next t ∧ Frame [.rings, .msixPend, .ble, .out] s t ∧ Completed s n.val 0x31 d 0 0 0 0 t ∧
      t.ble = { s.ble with inactive := none, load := some ((wAt d.par 1).toNat, wordsBytes d.payload) }) ∧
    (∀ (n : Fin 64) (d : Desc), Ready s n.val 0x31 d → s.ble.act = none → ∀ x, s.ble.load = some x → x.1 = (wAt d.par 1).toNat →
      x.2.length = (wAt d.par 0).toNat → wAt d.par 0 ≠ 0 → x.2.length + 4 * d.payload.length < x.1 → ∃ t,
        exec (.imgLoad n d) s = .next t ∧
      Frame [.rings, .msixPend, .ble, .out] s t ∧ Completed s n.val 0x31 d 0 0 0 0 t ∧
      t.ble = { s.ble with load := some (x.1, x.2 ++ wordsBytes d.payload) }) ∧
    (∀ (n : Fin 64) (d : Desc), Ready s n.val 0x31 d → s.ble.act = none → wAt d.par 0 ≠ 0 → s.ble.load = none →
      ∃ t, exec (.imgLoad n d) s = .next t ∧ Frame [.rings, .msixPend, .out] s t ∧ Completed s n.val 0x31 d 4 0 0 0 t) ∧
    (∀ (n : Fin 64) (d : Desc), Ready s n.val 0x31 d → s.ble.act = none → wAt d.par 0 = 0 →
      (wAt d.par 1).toNat ≤ 4 * d.payload.length →
      ∀ e, imageCheck s (wordsBytes d.payload) = some e → ∃ t, exec (.imgLoad n d) s = .next t ∧ Frame [.rings, .msixPend,
        .ble, .out] s t ∧
      Completed s n.val 0x31 d 0xD 0 0 (w32 (e.1 + (e.2 % 65536) * 65536)) t ∧
        t.ble = { s.ble with inactive := none, load := none }) ∧
    (∀ (n : Fin 64) (d : Desc), Ready s n.val 0x31 d → s.ble.act = none → wAt d.par 0 = 0 →
      (wAt d.par 1).toNat ≤ 4 * d.payload.length → imageCheck s (wordsBytes d.payload) = none → s.twn.role ≠ 1 ∨ s.twn.pair < 3 →
      ∃ t, exec (.imgLoad n d) s = .next t ∧ Frame [.rings, .msixPend, .ble, .out] s t ∧
      Completed s n.val 0x31 d 0 (parseImage (wordsBytes d.payload)).programId (parseImage (wordsBytes d.payload)).build 0 t ∧
      t.ble = { s.ble with inactive := some (parseImage (wordsBytes d.payload)), load := none }) ∧
    (∀ (n : Fin 64) (d : Desc), Ready s n.val 0x32 d → ∀ e, actCheck s (bitOf (wAt d.par 0) 0) = some e →
      ∃ t, exec (.imgActivate n d) s = .next t ∧ Frame [.rings, .msixPend, .out] s t ∧
        Completed s n.val 0x32 d 0xD 0 0 (w32 e.1 ||| e.2) t) ∧
    (∀ (n : Fin 64) (d : Desc), Ready s n.val 0x32 d → actCheck s (bitOf (wAt d.par 0) 0) = none → s.ble.running = true →
      ∃ t, exec (.imgActivate n d) s = .next t ∧ Frame [.rings, .ble] s t ∧ Waits s n.val t ∧ t.img = s.img ∧
      t.ble = { s.ble with act := some (Activation.mk n.val (bitOf (wAt d.par 0) 0) false 0) }) ∧
    (∀ (n : Fin 64) (d : Desc), Ready s n.val 0x32 d → actCheck s (bitOf (wAt d.par 0) 0) = none → s.ble.running = false →
      ∀ im, s.ble.inactive = some im → ∃ t, exec (.imgActivate n d) s = .next t ∧ Frame [.regs, .live, .pts, .phc, .rings,
        .evq, .msixPend, .forces, .img, .can, .lce, .ble, .twn, .out] s t ∧
      (ring t n).flight = [] ∧ (ring t n).committed = d.seq ∧ (ring t n).halted = false ∧ t.img = some im ∧ t.ble.inactive = s.img ∧
      t.ble.running = false) ∧
    (∀ (n : Fin 64) (d : Desc), Ready s n.val 0x33 d → s.ble.act ≠ none → ∃ t, exec (.imgCancel n d) s = .next t ∧
      Frame [.rings, .msixPend, .ble, .out] s t ∧ Completed s n.val 0x33 d 0 0 0 0 t ∧ t.ble = { s.ble with act := none }) ∧
    (∀ (n : Fin 64) (d : Desc), Ready s n.val 0x33 d → s.ble.act = none → ∃ t, exec (.imgCancel n d) s = .next t ∧
      Frame [.rings, .msixPend, .out] s t ∧ Completed s n.val 0x33 d 0xF 0 0 0 t) ∧
    (∀ (n : Fin 64) (d : Desc), Ready s n.val 0x34 d → ∀ i, s.img.bind (fun im => instById im d.target.toNat) = some i →
      partOk (ringPart s n) i.part = true → (wAt d.par 0).toNat + (wAt d.par 1).toNat ≤ instWords i →
      ∃ t, exec (.instRead n d) s = .next t ∧ Frame [.rings, .msixPend, .out] s t ∧
      Returned s n.val 0x34 d ((upto (wAt d.par 1).toNat).map (fun j => dget s (i.ofs + (wAt d.par 0).toNat + j))) 0 0 t) ∧
    (∀ (n : Fin 64) (d : Desc), Ready s n.val 0x34 d → ∀ i, s.img.bind (fun im => instById im d.target.toNat) = some i →
      partOk (ringPart s n) i.part = false → ∃ t, exec (.instRead n d) s = .next t ∧ Frame [.regs, .rings, .evq, .msixPend,
        .out] s t ∧
      Completed s n.val 0x34 d 9 0 0 d.target t) ∧
    (∀ (n : Fin 64) (d : Desc), Ready s n.val 0x34 d → s.img.bind (fun im => instById im d.target.toNat) = none →
      ∃ t, exec (.instRead n d) s = .next t ∧ Frame [.rings, .msixPend, .out] s t ∧ Completed s n.val 0x34 d 0xF 0 0 0 t) ∧
    (∀ (n : Fin 64) (d : Desc), Ready s n.val 0x35 d → ∀ i, s.img.bind (fun im => instById im d.target.toNat) = some i →
      partOk (ringPart s n) i.part = true → (wAt d.par 0).toNat + (wAt d.par 1).toNat ≤ instWords i → s.ble.writes = [] →
        s.ble.run = none →
      s.ble.stack = [] → ∃ t, exec (.instWrite n d) s = .next t ∧ Frame [.rings, .msixPend, .ble, .out] s t ∧
      Completed s n.val 0x35 d 0 0 0 0 t ∧ (∀ j : Nat, j < (wAt d.par 1).toNat → dget t (i.ofs + (wAt d.par 0).toNat + j) =
        canonOf (wordType i ((wAt d.par 0).toNat + j)) (wAt d.par (2 + j))) ∧
      ∀ k : Nat, k < i.ofs + (wAt d.par 0).toNat ∨ i.ofs + (wAt d.par 0).toNat + (wAt d.par 1).toNat ≤ k → dget t k = dget s k)

/-- Forces, timed actions and the handoff by ring (R115 to R117, R449 to R454, R491, R511, R525,
  R538 to R541): a force stands under its key until
it is released, a tenant's list holds its own, a timed action waits for its unit, a handoff for its window. -/
def Obligations.ForceAndTimedOperationsEffects : Prop :=
  ∀ s : State,
    (∀ (n : Fin 64) (d : Desc), Ready s n.val 0x36 d →
      forceType s (wAt d.par 0).toNat (wAt d.par 1).toNat (wAt d.par 2).toNat = none →
      ∃ t, exec (.forceSet n d) s = .next t ∧ Frame [.rings, .msixPend, .out] s t ∧ Completed s n.val 0x36 d 0xD 0 0 1 t) ∧
    (∀ (n : Fin 64) (d : Desc), Ready s n.val 0x36 d → ∀ ty,
      forceType s (wAt d.par 0).toNat (wAt d.par 1).toNat (wAt d.par 2).toNat = some ty →
      partOk (ringPart s n) (keyPart s (wAt d.par 0).toNat (wAt d.par 1).toNat) = true →
      (wAt d.par 0 = 0 → (wAt d.par 1).toNat < 0xC0 → chMode s (wAt d.par 1).toNat ≠ 0) → ty = (wAt d.par 3).toNat →
      (ty = 0 → (wAt d.par 4).toNat ≤ 1) →
      s.forces.length < 512 ∨ s.forces.any (forceIs (wAt d.par 0).toNat (wAt d.par 1).toNat (wAt d.par 2).toNat) = true → ∃ t,
        exec (.forceSet n d) s = .next t ∧
      Frame [.banks, .ch, .rings, .msixPend, .forces, .can, .ble, .twn, .out] s t ∧
      Completed s n.val 0x36 d 0 (boolW (s.forces.any (forceIs (wAt d.par 0).toNat (wAt d.par 1).toNat (wAt d.par 2).toNat))) 0 0 t ∧
      (∀ f ∈ t.forces, forceIs (wAt d.par 0).toNat (wAt d.par 1).toNat (wAt d.par 2).toNat f = true → f.val = wAt d.par 4) ∧
      t.forces.any (forceIs (wAt d.par 0).toNat (wAt d.par 1).toNat (wAt d.par 2).toNat) = true ∧
      (wAt d.par 0 = 0 → pval t (wAt d.par 1).toNat = wAt d.par 4 ∧ pnat t (wAt d.par 1).toNat = pnat s (wAt d.par 1).toNat) ∧
      t.forces.filter (fun f => !forceIs (wAt d.par 0).toNat (wAt d.par 1).toNat (wAt d.par 2).toNat f) =
        s.forces.filter (fun f => !forceIs (wAt d.par 0).toNat (wAt d.par 1).toNat (wAt d.par 2).toNat f)) ∧
    (∀ (n : Fin 64) (d : Desc), Ready s n.val 0x37 d → wAt d.par 0 = 0xFF → ∃ t, exec (.forceRelease n d) s = .next t ∧
      Frame [.banks, .ch, .rings, .msixPend, .forces, .can, .ble, .twn, .out] s t ∧
      t.forces = s.forces.filter (fun f => f.part != ringPart s n) ∧
      Completed s n.val 0x37 d 0 (w32 (s.forces.filter (fun f => f.part == ringPart s n)).length) 0 0 t) ∧
    (∀ (n : Fin 64) (d : Desc), Ready s n.val 0x37 d → wAt d.par 0 ≠ 0xFF →
      ∀ g, s.forces.find? (forceIs (wAt d.par 0).toNat (wAt d.par 1).toNat (wAt d.par 2).toNat) = some g →
        partOk (ringPart s n) g.part = true →
      ∃ t, exec (.forceRelease n d) s = .next t ∧ Frame [.banks, .ch, .rings, .msixPend, .forces, .can, .ble, .twn, .out] s t ∧
      t.forces = s.forces.filter (fun f => !forceIs (wAt d.par 0).toNat (wAt d.par 1).toNat (wAt d.par 2).toNat f) ∧
      Completed s n.val 0x37 d 0 1 0 0 t) ∧
    (∀ (n : Fin 64) (d : Desc), Ready s n.val 0x37 d → wAt d.par 0 ≠ 0xFF →
      s.forces.find? (forceIs (wAt d.par 0).toNat (wAt d.par 1).toNat (wAt d.par 2).toNat) = none → ∃ t,
        exec (.forceRelease n d) s = .next t ∧
      Frame [.rings, .msixPend, .out] s t ∧ Completed s n.val 0x37 d 0xF 0 0 0 t) ∧
    (∀ (n : Fin 64) (d : Desc), Ready s n.val 0x38 d → ∃ t, exec (.forceList n d) s = .next t ∧ Frame [.rings, .msixPend,
      .out] s t ∧
      Returned s n.val 0x38 d ((((s.forces.filter (fun g => ringPart s n == 0 || g.part == ringPart s n)).drop (wAt d.par 0).toNat).take
        ((d.len.toNat - 4) / 24)).flatMap forceWords)
        (w32 (((s.forces.filter (fun g => ringPart s n == 0 || g.part == ringPart s n)).drop (wAt d.par 0).toNat).take
        ((d.len.toNat - 4) / 24)).length) (w32 s.forces.length) t) ∧
    (∀ (n : Fin 64) (d : Desc), Ready s n.val 0x40 d → wAt d.par 0 = 1 ∨ wAt d.par 0 = 4 ∨ wAt d.par 0 = 7 →
      s.phc.timed.length < 64 →
      bitOf (wAt d.par 2) 0 = false → absA s + 2048 ≤ ((wAt d.par 3).toNat + (wAt d.par 4).toNat * 2 ^ 32) % 2 ^ 60 →
      ∃ t, exec (.timed n d) s = .next t ∧ Frame [.phc, .rings] s t ∧ Waits s n.val t ∧
        t.phc.timed.length = s.phc.timed.length + 1 ∧
      ∀ x ∈ t.phc.timed.getLast?.toList, x.ring = n.val ∧ x.action = (wAt d.par 0).toNat ∧ x.arg = wAt d.par 1 ∧
        x.unit = ((wAt d.par 3).toNat + (wAt d.par 4).toNat * 2 ^ 32) % 2 ^ 60 ∧ x.fixed = true) ∧
    (∀ (n : Fin 64) (d : Desc), Ready s n.val 0x40 d → wAt d.par 0 = 1 ∨ wAt d.par 0 = 4 ∨ wAt d.par 0 = 7 →
      s.phc.timed.length < 64 →
      bitOf (wAt d.par 2) 0 = true → netLocked s = true →
      ∀ u, toPhase s (((wAt d.par 3).toNat + (wAt d.par 4).toNat * 2 ^ 32) * 1000000000 + (wAt d.par 5).toNat) = some u →
      (absA s : Int) + 2048 ≤ u → ∃ t, exec (.timed n d) s = .next t ∧ Frame [.phc, .rings] s t ∧ Waits s n.val t ∧
      t.phc.timed = s.phc.timed ++ [Timed.mk n.val (wAt d.par 0).toNat (wAt d.par 1) true
        (((wAt d.par 3).toNat + (wAt d.par 4).toNat * 2 ^ 32) * 1000000000 + (wAt d.par 5).toNat) u.toNat (decide (u < absA s + 4096))]) ∧
    (∀ (n : Fin 64) (d : Desc), Ready s n.val 0x40 d → wAt d.par 0 = 1 ∨ wAt d.par 0 = 4 ∨ wAt d.par 0 = 7 →
      64 ≤ s.phc.timed.length →
      ∃ t, exec (.timed n d) s = .next t ∧ Frame [.rings, .msixPend, .out] s t ∧ Completed s n.val 0x40 d 0x13 0 0 0 t) ∧
    (∀ (n : Fin 64) (d : Desc), Ready s n.val 0x40 d → wAt d.par 0 = 1 ∨ wAt d.par 0 = 4 ∨ wAt d.par 0 = 7 →
      s.phc.timed.length < 64 →
      bitOf (wAt d.par 2) 0 = false → ((wAt d.par 3).toNat + (wAt d.par 4).toNat * 2 ^ 32) % 2 ^ 60 < absA s + 2048 →
      ∃ t, exec (.timed n d) s = .next t ∧ Frame [.rings, .msixPend, .out] s t ∧ Completed s n.val 0x40 d 0x10 0 0 0 t) ∧
    (∀ (n : Fin 64) (d : Desc), Ready s n.val 0x41 d → s.twn.plan ≠ none → ∃ t, exec (.handoffReq n d) s = .next t ∧
      Frame [.rings, .msixPend, .out] s t ∧ Completed s n.val 0x41 d 0xE 0 0 0 t) ∧
    (∀ (n : Fin 64) (d : Desc), Ready s n.val 0x41 d → s.twn.plan = none → s.twn.role ≠ 1 ∨ standbyClean s = false →
      ∃ t, exec (.handoffReq n d) s = .next t ∧ Frame [.rings, .msixPend, .out] s t ∧ Completed s n.val 0x41 d 0xD 0 0 1 t) ∧
    (∀ (n : Fin 64) (d : Desc), Ready s n.val 0x41 d → s.twn.plan = none → s.twn.role = 1 → standbyClean s = true →
      ∀ c, nextWindow s s.phc.cycle (s.phc.cycle + (if s.phc.phase = 0 then 1 else 2)) = some c → ∃ t,
        exec (.handoffReq n d) s = .next t ∧
      Frame [.rings, .twn] s t ∧ Waits s n.val t ∧ t.twn.role = 1 ∧ t.twn.plan.isSome = true ∧
      ∀ p, t.twn.plan = some p → p.at_ = c ∧ p.cause = 3 ∧ p.ring = some n.val ∧ p.req = s.phc.cycle)

/-- Metering and the recorder by ring (R278, R317, R320, R511, R542 to R544,
  R678): what is read is returned under its partition, an absent
one or a cartridge that does not run is refused, a tenant takes effect at the next interval, and a read of the recorder returns the
ring's own records from a sequence number on, or from the oldest slot where that is older. -/
def Obligations.MeteringAndRecorderOperationsEffects : Prop :=
  ∀ s : State,
    (∀ (n : Fin 64) (d : Desc), Ready s n.val 0x50 d → s.mtr.running = true →
      partOk (ringPart s n) (billPart s (bitOf d.target 0) (fld d.target 7 1)) = true → ∃ t, exec (.mtrReadSet n d) s = .next t ∧
      Frame [.rings, .msixPend, .out] s t ∧
      Returned s n.val 0x50 d ((upto 16).map (readSet s (bitOf d.target 0) (fld d.target 7 1))) s.mtr.snapGen 0 t) ∧
    (∀ (n : Fin 64) (d : Desc), Ready s n.val 0x50 d → s.mtr.running = true →
      partOk (ringPart s n) (billPart s (bitOf d.target 0) (fld d.target 7 1)) = false → ∃ t, exec (.mtrReadSet n d) s = .next t ∧
      Frame [.regs, .rings, .evq, .msixPend, .out] s t ∧ Completed s n.val 0x50 d 9 0 0 (w32 (fld d.target 7 1)) t) ∧
    (∀ (n : Fin 64) (d : Desc), Ready s n.val 0x50 d → s.mtr.running = false → ∃ t, exec (.mtrReadSet n d) s = .next t ∧
      Frame [.rings, .msixPend, .out] s t ∧ Completed s n.val 0x50 d 0x18 0 0 0 t) ∧
    (∀ (n : Fin 64) (d : Desc), Ready s n.val 0x51 d → s.mtr.running = false → ∃ t, exec (.mtrReadInterval n d) s = .next t ∧
      Frame [.rings, .msixPend, .out] s t ∧ Completed s n.val 0x51 d 0x18 0 0 0 t) ∧
    (∀ (n : Fin 64) (d : Desc), Ready s n.val 0x52 d → s.mtr.running = false → ∃ t, exec (.mtrReadLog n d) s = .next t ∧
      Frame [.rings, .msixPend, .out] s t ∧ Completed s n.val 0x52 d 0x18 0 0 0 t) ∧
    (∀ (n : Fin 64) (d : Desc), Ready s n.val 0x53 d → s.mtr.running = false → ∃ t, exec (.mtrReadParam n d) s = .next t ∧
      Frame [.rings, .msixPend, .out] s t ∧ Completed s n.val 0x53 d 0x18 0 0 0 t) ∧
    (∀ (n : Fin 64) (d : Desc), Ready s n.val 0x54 d → s.mtr.running = false → ∃ t, exec (.mtrSetTenant n d) s = .next t ∧
      Frame [.rings, .msixPend, .out] s t ∧ Completed s n.val 0x54 d 0x18 0 0 0 t) ∧
    (∀ (n : Fin 64) (d : Desc), Ready s n.val 0x51 d → s.mtr.running = true →
      ∀ r, (if wAt d.par 0 = 0 then (circ s d.target.toNat).recs.head? else findInterval s d.target.toNat (wAt d.par 0)) = some r →
      partOk (ringPart s n) (fld (wAt r 6) 12 8) = true → 4 * r.length + 4 ≤ d.len.toNat → ∃ t,
        exec (.mtrReadInterval n d) s = .next t ∧
      Frame [.rings, .msixPend, .out] s t ∧ Returned s n.val 0x51 d r 0 0 t) ∧
    (∀ (n : Fin 64) (d : Desc), Ready s n.val 0x52 d → s.mtr.running = true → findLog s (wAt d.par 0) = none →
      ∃ t, exec (.mtrReadLog n d) s = .next t ∧ Frame [.rings, .msixPend, .out] s t ∧ Completed s n.val 0x52 d 0xD 0 0 3 t) ∧
    (∀ (n : Fin 64) (d : Desc), Ready s n.val 0x52 d → s.mtr.running = true → ∀ r, findLog s (wAt d.par 0) = some r →
      4 * r.length + 4 ≤ d.len.toNat → ∃ t, exec (.mtrReadLog n d) s = .next t ∧ Frame [.rings, .msixPend, .out] s t ∧
      Returned s n.val 0x52 d r 0 0 t) ∧
    (∀ (n : Fin 64) (d : Desc), Ready s n.val 0x53 d → s.mtr.running = true → (wAt d.par 1).toNat < blockLen (wAt d.par 0).toNat →
      ∃ t, exec (.mtrReadParam n d) s = .next t ∧ Frame [.rings, .msixPend, .out] s t ∧
      Returned s n.val 0x53 d ((upto 8).map (fun j => pWord (parBytes s (wAt d.par 0).toNat) ((wAt d.par 1).toNat + 4 * j))) 0 0 t) ∧
    (∀ (n : Fin 64) (d : Desc), Ready s n.val 0x54 d → s.mtr.running = true → ∃ t, exec (.mtrSetTenant n d) s = .next t ∧
      Frame [.rings, .msixPend, .mtr, .out] s t ∧ Completed s n.val 0x54 d 0 (w32 ((circ s d.target.toNat).seq + 2)) 0 0 t ∧
      (circ t d.target.toNat).tenantNext = some (wAt d.par 0).toNat ∧
        (circ t d.target.toNat).tenant = (circ s d.target.toNat).tenant ∧
      (∀ k : Fin 96, k.val ≠ d.target.toNat → circ t k = circ s k) ∧ t.mtr.logSeq = s.mtr.logSeq + 1) ∧
    (∀ (n : Fin 64) (d : Desc), Ready s n.val 0x58 d →
      ∀ l, recsFrom s (ringPart s n) (wAt d.par 0) (wAt d.par 1).toNat = l → 4 * l.flatten.length + 4 ≤ d.len.toNat →
      ∃ t, exec (.recRead n d) s = .next t ∧ Frame [.rings, .msixPend, .out] s t ∧
      Returned s n.val 0x58 d l.flatten (w32 l.length)
        ((l.head?.map (fun r => wAt r 0)).getD (s.recNext - w32 (recBack s (wAt d.par 0)))) t)

/-- The key operations (R545, R696 to R705, R708, R710, R714 to R717): a key is generated, derived or enrolled where its parent and
attributes allow, a generated pair returns its public point, an invalidated slot advances its generation and takes what hangs on it,
a key is reported on, signs, encrypts and decrypts, a wrong tag or a wrapped key that does not verify is refused, and a slot that
cannot serve refuses with its code. What the random source gives is a free value. -/
def Obligations.KeyOperationsEffects : Prop :=
  ∀ s : State,
    (∀ (n : Fin 64) (d : Desc), Ready s n.val 0x60 d → ∀ e,
      newFault s (ringPart s n) d.target.toNat (wAt d.par 0).toNat (wAt d.par 1) false = some e →
      ∃ t, exec (.keyGen n d) s = .next t ∧ Frame [.rings, .msixPend, .out] s t ∧ Completed s n.val 0x60 d e.1 0 0 (w32 e.2) t) ∧
    (∀ (n : Fin 64) (d : Desc), Ready s n.val 0x60 d →
      newFault s (ringPart s n) d.target.toNat (wAt d.par 0).toNat (wAt d.par 1) false = none →
      s.sec.entropyOk = false → ∃ t, exec (.keyGen n d) s = .next t ∧ Frame [.rings, .msixPend, .out] s t ∧
        Completed s n.val 0x60 d 0xD 0 0 9 t) ∧
    (∀ (n : Fin 64) (d : Desc), Ready s n.val 0x60 d →
      newFault s (ringPart s n) d.target.toNat (wAt d.par 0).toNat (wAt d.par 1) false = none →
      s.sec.entropyOk = true → wAt d.par 2 = 0 → ∃ t, exec (.keyGen n d) s = .next t ∧ Frame [.rings, .msixPend, .sec, .free,
        .out] s t ∧
      Completed s n.val 0x60 d 0 ((keySlot s d.target.toNat).gen + 1) 0 0 t ∧ (keySlot t d.target.toNat).full = true ∧
      (keySlot t d.target.toNat).kind = 0 ∧ (keySlot t d.target.toNat).attr = wAt d.par 1 ∧ (keySlot t d.target.toNat).origin = 0 ∧
      (keySlot t d.target.toNat).parent = (wAt d.par 0).toNat ∧
      (keySlot t d.target.toNat).secret = beBytes 32 (Config.random s.free % 2 ^ 256) ∧
      ∀ k : Nat, k ≠ d.target.toNat → keySlot t k = keySlot s k) ∧
    (∀ (n : Fin 64) (d : Desc), Ready s n.val 0x60 d →
      newFault s (ringPart s n) d.target.toNat (wAt d.par 0).toNat (wAt d.par 1) false = none →
      s.sec.entropyOk = true → wAt d.par 2 ≠ 0 → ∃ t, exec (.keyGen n d) s = .next t ∧ Frame [.rings, .msixPend, .sec, .free,
        .out] s t ∧
      Returned s n.val 0x60 d (bytesWords (pubOf (beNat (keySlot t d.target.toNat).secret))) ((keySlot s d.target.toNat).gen + 1) 0 t ∧
      (keySlot t d.target.toNat).full = true ∧ (keySlot t d.target.toNat).kind = (wAt d.par 2).toNat ∧
      (keySlot t d.target.toNat).secret = beBytes 32 (scalarOf (Config.random s.free % 2 ^ 256)) ∧
      ∀ k : Nat, k ≠ d.target.toNat → keySlot t k = keySlot s k) ∧
    (∀ (n : Fin 64) (d : Desc), Ready s n.val 0x61 d →
      newFault s (ringPart s n) d.target.toNat (wAt d.par 0).toNat (wAt d.par 1) true = none →
      ∃ t, exec (.keyDerive n d) s = .next t ∧ Frame [.rings, .msixPend, .sec, .out] s t ∧
      Completed s n.val 0x61 d 0 ((keySlot s d.target.toNat).gen + 1) 0 0 t ∧
      (keySlot t d.target.toNat).secret = hkdf (genSalt (genOf s (wAt d.par 0).toNat))
        (if (wAt d.par 0).toNat = 0 then rootNow s else (keySlot s (wAt d.par 0).toNat).secret) (wordsBytes d.payload) 32 ∧
      (keySlot t d.target.toNat).origin = 1 ∧ ∀ k : Nat, k ≠ d.target.toNat → keySlot t k = keySlot s k) ∧
    (∀ (n : Fin 64) (d : Desc), Ready s n.val 0x62 d → s.sec.lc ≠ 4 → keyFault s (ringPart s n) d.target.toNat = none →
      ringPart s n = 0 ∨ (keySlot s d.target.toNat).attr &&& 0x1FFFF = oneBit (ringPart s n) →
      ∃ t, exec (.keyInvalidate n d) s = .next t ∧ Frame [.rings, .msixPend, .sec, .out] s t ∧
      (keySlot t d.target.toNat).full = false ∧ (keySlot t d.target.toNat).gen = (keySlot s d.target.toNat).gen + 1 ∧
      usable_ t d.target.toNat = false ∧ (∀ k : Nat, k ≠ d.target.toNat → keySlot t k = keySlot s k) ∧
      Completed s n.val 0x62 d 0 (w32 (usableCount s - 1 - usableCount t)) 0 0 t) ∧
    (∀ (n : Fin 64) (d : Desc), Ready s n.val 0x62 d → s.sec.lc ≠ 4 → ∀ e, keyFault s (ringPart s n) d.target.toNat = some e →
      ∃ t, exec (.keyInvalidate n d) s = .next t ∧ Frame [.rings, .msixPend, .out] s t ∧
        Completed s n.val 0x62 d e.1 0 0 (w32 e.2) t) ∧
    (∀ (n : Fin 64) (d : Desc), Ready s n.val 0x63 d → (d.payload.drop 8).all (· == 0) = true → s.sec.lc ≠ 3 → s.sec.lc ≠ 4 →
      keyFault s (ringPart s n) d.target.toNat = none → s.sec.entropyOk = true → ∃ t, exec (.keyAttest n d) s = .next t ∧
      Frame [.rings, .msixPend, .free, .out] s t ∧
      ∀ h, attestHead s d.target.toNat ((wordsBytes d.payload).take 32) = h →
      Returned s n.val 0x63 d (bytesWords (h ++ ecdsaSign groupScalar (scalarOf (Config.random s.free % 2 ^ 256)) (sha256 h))) 0 0 t) ∧
    (∀ (n : Fin 64) (d : Desc), Ready s n.val 0x63 d → (d.payload.drop 8).all (· == 0) = true → s.sec.lc = 3 ∨ s.sec.lc = 4 →
      ∃ t, exec (.keyAttest n d) s = .next t ∧ Frame [.rings, .msixPend, .out] s t ∧ Completed s n.val 0x63 d 0xD 0 0 6 t) ∧
    (∀ (n : Fin 64) (d : Desc), Ready s n.val 0x64 d → fld (wAt d.payload 0) 7 0 = 1 → fld (wAt d.payload 0) 15 8 ≤ 2 →
      fld (wAt d.payload 0) 31 24 = 0 → wAt d.payload 1 = 0 →
      newFault s (ringPart s n) d.target.toNat (wAt d.par 0).toNat (wAt d.par 1) false = none →
      ∀ e, unwrapFault s (fld (wAt d.payload 0) 23 16) = some e → ∃ t, exec (.keyEnrol n d) s = .next t ∧
      Frame [.rings, .msixPend, .out] s t ∧ Completed s n.val 0x64 d e.1 0 0 (w32 e.2) t) ∧
    (∀ (n : Fin 64) (d : Desc), Ready s n.val 0x64 d → fld (wAt d.payload 0) 7 0 = 1 → fld (wAt d.payload 0) 15 8 ≤ 2 →
      fld (wAt d.payload 0) 31 24 = 0 → wAt d.payload 1 = 0 →
      newFault s (ringPart s n) d.target.toNat (wAt d.par 0).toNat (wAt d.par 1) false = none →
      unwrapFault s (fld (wAt d.payload 0) 23 16) = none →
        unwrapKey (beNat (keySlot s (fld (wAt d.payload 0) 23 16)).secret) (Flight.mk 0 0 (descOf 0x64 d) d.payload none false false) = none →
      ∃ t, exec (.keyEnrol n d) s = .next t ∧ Frame [.rings, .msixPend, .out] s t ∧ Completed s n.val 0x64 d 0xD 0 0 1 t) ∧
    (∀ (n : Fin 64) (d : Desc), Ready s n.val 0x64 d → fld (wAt d.payload 0) 7 0 = 1 → fld (wAt d.payload 0) 15 8 ≤ 2 →
      fld (wAt d.payload 0) 31 24 = 0 → wAt d.payload 1 = 0 →
      newFault s (ringPart s n) d.target.toNat (wAt d.par 0).toNat (wAt d.par 1) false = none →
      unwrapFault s (fld (wAt d.payload 0) 23 16) = none → ∀ k,
        unwrapKey (beNat (keySlot s (fld (wAt d.payload 0) 23 16)).secret) (Flight.mk 0 0 (descOf 0x64 d) d.payload none false false) = some k →
      ∃ t, exec (.keyEnrol n d) s = .next t ∧ Frame [.rings, .msixPend, .sec, .out] s t ∧
      Completed s n.val 0x64 d 0 ((keySlot s d.target.toNat).gen + 1) 0 0 t ∧ (keySlot t d.target.toNat).origin = 2 ∧
      (keySlot t d.target.toNat).attr = wAt d.par 1 ∧ (keySlot t d.target.toNat).secret = k ∧
      (keySlot t d.target.toNat).kind = fld (wAt d.payload 0) 15 8 ∧
      ∀ j : Nat, j ≠ d.target.toNat → keySlot t j = keySlot s j) ∧
    (∀ (n : Fin 64) (d : Desc), Ready s n.val 0x65 d → wAt d.par 0 = 0 → s.sec.lc ≠ 4 →
      keyFault s (ringPart s n) d.target.toNat = none →
      (keySlot s d.target.toNat).kind = 0 → ∃ t, exec (.aeadEncrypt n d) s = .next t ∧
      Frame [.rings, .msixPend, .out] s t ∧
      Returned s n.val 0x65 d (bytesWords (((wordsBytes d.payload).take 12) ++ (((wordsBytes d.payload).drop 12).take (wAt d.par 1).toNat) ++
        (gcmSeal (keySlot s d.target.toNat).secret ((wordsBytes d.payload).take 12) (((wordsBytes d.payload).drop 12).take (wAt d.par 1).toNat)
          (((wordsBytes d.payload).drop (12 + (wAt d.par 1).toNat)).take ((wordsBytes d.payload).length - 28 - (wAt d.par 1).toNat))).1 ++
        (gcmSeal (keySlot s d.target.toNat).secret ((wordsBytes d.payload).take 12) (((wordsBytes d.payload).drop 12).take (wAt d.par 1).toNat)
          (((wordsBytes d.payload).drop (12 + (wAt d.par 1).toNat)).take ((wordsBytes d.payload).length - 28 - (wAt d.par 1).toNat))).2)) 0 0 t) ∧
    (∀ (n : Fin 64) (d : Desc), Ready s n.val 0x65 d → wAt d.par 0 = 1 → s.sec.lc ≠ 4 →
      keyFault s (ringPart s n) d.target.toNat = none →
      (keySlot s d.target.toNat).kind = 0 → gcmOpen (keySlot s d.target.toNat).secret ((wordsBytes d.payload).take 12)
        (((wordsBytes d.payload).drop 12).take (wAt d.par 1).toNat)
        (((wordsBytes d.payload).drop (12 + (wAt d.par 1).toNat)).take (4 * d.payload.length - 28 - (wAt d.par 1).toNat))
        ((wordsBytes d.payload).drop (12 + (wAt d.par 1).toNat + (4 * d.payload.length - 28 - (wAt d.par 1).toNat))) = none →
      ∃ t, exec (.aeadDecrypt n d) s = .next t ∧ Frame [.rings, .msixPend, .out] s t ∧ Completed s n.val 0x65 d 0xD 0 0 1 t) ∧
    (∀ (n : Fin 64) (d : Desc), Ready s n.val 0x65 d → wAt d.par 0 = 1 → s.sec.lc ≠ 4 →
      keyFault s (ringPart s n) d.target.toNat = none →
      (keySlot s d.target.toNat).kind = 0 → ∀ p, gcmOpen (keySlot s d.target.toNat).secret ((wordsBytes d.payload).take 12)
        (((wordsBytes d.payload).drop 12).take (wAt d.par 1).toNat)
        (((wordsBytes d.payload).drop (12 + (wAt d.par 1).toNat)).take (4 * d.payload.length - 28 - (wAt d.par 1).toNat))
        ((wordsBytes d.payload).drop (12 + (wAt d.par 1).toNat + (4 * d.payload.length - 28 - (wAt d.par 1).toNat))) = some p →
      ∃ t, exec (.aeadDecrypt n d) s = .next t ∧ Frame [.rings, .msixPend, .out] s t ∧
      Returned s n.val 0x65 d (bytesWords ((wordsBytes d.payload).take (12 + (wAt d.par 1).toNat) ++ p ++
        (wordsBytes d.payload).drop (12 + (wAt d.par 1).toNat + (4 * d.payload.length - 28 - (wAt d.par 1).toNat)))) 0 0 t) ∧
    (∀ (n : Fin 64) (d : Desc), Ready s n.val 0x66 d → s.sec.lc ≠ 4 → keyFault s (ringPart s n) d.target.toNat = none →
      (keySlot s d.target.toNat).kind ≠ 1 → ∃ t, exec (.sign n d) s = .next t ∧ Frame [.rings, .msixPend, .out] s t ∧
      Completed s n.val 0x66 d 0xD 0 0 7 t) ∧
    (∀ (n : Fin 64) (d : Desc), Ready s n.val 0x66 d → s.sec.lc ≠ 4 → keyFault s (ringPart s n) d.target.toNat = none →
      (keySlot s d.target.toNat).kind = 1 → ∃ t, exec (.sign n d) s = .next t ∧ Frame [.rings, .msixPend, .free, .out] s t ∧
      Returned s n.val 0x66 d (bytesWords (ecdsaSign (beNat (keySlot s d.target.toNat).secret) (scalarOf (Config.signNonce s.free))
        ((wordsBytes d.payload).take 32))) 0 0 t) ∧
    (∀ (n : Fin 64) (d : Desc), Ready s n.val 0x67 d → d.target = 0 → ∃ t, exec (.keyInfo n d) s = .next t ∧
      Frame [.rings, .msixPend, .out] s t ∧ Completed s n.val 0x67 d 0xD 0 0 8 t) ∧
    (∀ (n : Fin 64) (d : Desc), Ready s n.val 0x67 d → d.target = 1 → ∃ t, exec (.keyInfo n d) s = .next t ∧
      Frame [.rings, .msixPend, .out] s t ∧ Completed s n.val 0x67 d 9 0 0 1 t) ∧
    (∀ (n : Fin 64) (d : Desc), Ready s n.val 0x67 d → 2 ≤ d.target.toNat → ((keySlot s d.target.toNat).full = true →
      (keySlot s d.target.toNat).damaged = false → ringInvokes s (ringPart s n) (keySlot s d.target.toNat) = true) →
      ∃ t, exec (.keyInfo n d) s = .next t ∧ Frame [.rings, .msixPend, .free, .out] s t ∧
      Returned s n.val 0x67 d [(keySlot s d.target.toNat).attr, w32 (keySlot s d.target.toNat).parent,
        (keySlot s d.target.toNat).gen,
        Config.keyInfoLast (keySlot s d.target.toNat).damaged s.free] 0 0 t)

/-- The CAN and Ethernet operations (R511, R546 to R548, R586, R592, R633 to R638): a frame is queued and waits for its end,
  a received one is
returned with its arrivals, a recovery waits for the port, a posted buffer takes the next frame of its queue. -/
def Obligations.NetworkOperationsEffects : Prop :=
  ∀ s : State,
    (∀ (n : Fin 64) (d : Desc), Ready s n.val 0x70 d →
      partOk (ringPart s n) (canBufPart s (fld d.target 1 0) (fld d.target 7 2)) = true →
      imageCan s (fld d.target 1 0) (fld d.target 7 2) = false →
        bitOf (rget s (oCanBuf (fld d.target 1 0) (fld d.target 7 2))) 0 = true →
      bitOf (rget s (oCanBuf (fld d.target 1 0) (fld d.target 7 2))) 1 = true →
      bitOf (rget s (oCanBuf (fld d.target 1 0) (fld d.target 7 2))) 2 = false →
      (canBuf s (fld d.target 1 0) (fld d.target 7 2)).tx = none →
      (bitOf (wAt d.par 0) 30 = true → (canPort s (fld d.target 1 0)).fd = true) → canOnBus s (fld d.target 1 0) = true →
      (canPort s (fld d.target 1 0)).st ≠ 2 → ∃ t, exec (.canTx n d) s = .next t ∧ Frame [.rings, .can] s t ∧ Waits s n.val t ∧
      (canBuf t (fld d.target 1 0) (fld d.target 7 2)).tx = some (CanTx.mk (fld (wAt d.par 0) 28 0) (bitOf (wAt d.par 0) 29)
        (bitOf (wAt d.par 0) 30) (bitOf (wAt d.par 0) 31)
        ((wordsBytes (if fld (wAt d.par 1) 6 0 ≤ 24 then (upto 6).map (fun j => wAt d.par (2 + j)) else d.payload)).take (fld (wAt d.par 1) 6 0))
        (bitOf (wAt d.par 1) 8) 0 n.val)) ∧
    (∀ (n : Fin 64) (d : Desc), Ready s n.val 0x70 d →
      partOk (ringPart s n) (canBufPart s (fld d.target 1 0) (fld d.target 7 2)) = true →
      imageCan s (fld d.target 1 0) (fld d.target 7 2) = false →
      bitOf (rget s (oCanBuf (fld d.target 1 0) (fld d.target 7 2))) 0 = false ∨
        bitOf (rget s (oCanBuf (fld d.target 1 0) (fld d.target 7 2))) 1 = false →
      ∃ t, exec (.canTx n d) s = .next t ∧ Frame [.rings, .msixPend, .out] s t ∧ Completed s n.val 0x70 d 0xD 0 0 1 t) ∧
    (∀ (n : Fin 64) (d : Desc), Ready s n.val 0x70 d →
      partOk (ringPart s n) (canBufPart s (fld d.target 1 0) (fld d.target 7 2)) = true →
      imageCan s (fld d.target 1 0) (fld d.target 7 2) = false →
      bitOf (rget s (oCanBuf (fld d.target 1 0) (fld d.target 7 2))) 0 = true →
      bitOf (rget s (oCanBuf (fld d.target 1 0) (fld d.target 7 2))) 1 = true →
      bitOf (rget s (oCanBuf (fld d.target 1 0) (fld d.target 7 2))) 2 = false →
      (canBuf s (fld d.target 1 0) (fld d.target 7 2)).tx ≠ none →
      ∃ t, exec (.canTx n d) s = .next t ∧ Frame [.rings, .msixPend, .out] s t ∧ Completed s n.val 0x70 d 0xE 0 0 0 t) ∧
    (∀ (n : Fin 64) (d : Desc), Ready s n.val 0x71 d →
      partOk (ringPart s n) (canBufPart s (fld d.target 1 0) (fld d.target 7 2)) = true →
      bitOf (rget s (oCanBuf (fld d.target 1 0) (fld d.target 7 2))) 0 = true →
        bitOf (rget s (oCanBuf (fld d.target 1 0) (fld d.target 7 2))) 1 = false →
      (canBuf s (fld d.target 1 0) (fld d.target 7 2)).has = false → ∃ t, exec (.canRx n d) s = .next t ∧
      Frame [.rings, .msixPend, .can, .out] s t ∧
      Returned s n.val 0x71 d [0,
        0] ((canBuf s (fld d.target 1 0) (fld d.target 7 2)).arrivals - (canBuf s (fld d.target 1 0) (fld d.target 7 2)).read) 0 t ∧
      canBuf t (fld d.target 1 0) (fld d.target 7 2) =
        { canBuf s (fld d.target 1 0) (fld d.target 7 2) with read := (canBuf s (fld d.target 1 0) (fld d.target 7 2)).arrivals }) ∧
    (∀ (n : Fin 64) (d : Desc), Ready s n.val 0x71 d →
      partOk (ringPart s n) (canBufPart s (fld d.target 1 0) (fld d.target 7 2)) = true →
      bitOf (rget s (oCanBuf (fld d.target 1 0) (fld d.target 7 2))) 0 = true →
        bitOf (rget s (oCanBuf (fld d.target 1 0) (fld d.target 7 2))) 1 = false →
      (canBuf s (fld d.target 1 0) (fld d.target 7 2)).has = true →
      4 * (bytesWords (canBuf s (fld d.target 1 0) (fld d.target 7 2)).bytes).length + 12 ≤ d.len.toNat → ∃ t,
        exec (.canRx n d) s = .next t ∧
      Frame [.rings, .msixPend, .can, .out] s t ∧
      Returned s n.val 0x71 d ((canBuf s (fld d.target 1 0) (fld d.target 7 2)).id ::
        w32 (canBuf s (fld d.target 1 0) (fld d.target 7 2)).bytes.length :: bytesWords (canBuf s (fld d.target 1 0) (fld d.target 7 2)).bytes)
        ((canBuf s (fld d.target 1 0) (fld d.target 7 2)).arrivals - (canBuf s (fld d.target 1 0) (fld d.target 7 2)).read) 1 t ∧
      canBuf t (fld d.target 1 0) (fld d.target 7 2) =
        { canBuf s (fld d.target 1 0) (fld d.target 7 2) with read := (canBuf s (fld d.target 1 0) (fld d.target 7 2)).arrivals }) ∧
    (∀ (n : Fin 64) (d : Desc), Ready s n.val 0x71 d →
      partOk (ringPart s n) (canBufPart s (fld d.target 1 0) (fld d.target 7 2)) = false →
      ∃ t, exec (.canRx n d) s = .next t ∧ Frame [.regs, .rings, .evq, .msixPend, .out] s t ∧
        Completed s n.val 0x71 d 9 0 0 d.target t) ∧
    (∀ (n : Fin 64) (d : Desc), Ready s n.val 0x72 d → (canPort s (fld d.target 1 0)).st = 2 → canEn s (fld d.target 1 0) = true →
      ∃ t, exec (.canRecover n d) s = .next t ∧ Frame [.rings, .can] s t ∧ Waits s n.val t ∧
      canPort t (fld d.target 1 0) = { canPort s (fld d.target 1 0) with recovering := true }) ∧
    (∀ (n : Fin 64) (d : Desc), Ready s n.val 0x72 d → (canPort s (fld d.target 1 0)).st ≠ 2 ∨ canEn s (fld d.target 1 0) = false →
      ∃ t, exec (.canRecover n d) s = .next t ∧ Frame [.rings, .msixPend, .out] s t ∧ Completed s n.val 0x72 d 0xD 0 0 1 t) ∧
    (∀ (n : Fin 64) (d : Desc), Ready s n.val 0x78 d → max (4 * d.payload.length) 60 + 4 ≤ maxLen s (fld d.target 0 0) →
      macValid s = true →
      queueFill (eport s (fld d.target 0 0)) (fld d.target 3 1) + max (4 * d.payload.length) 60 ≤ 16384 → ∃ t,
        exec (.ethTx n d) s = .next t ∧
      Frame [.rings, .eth] s t ∧ Waits s n.val t ∧
      queueFill (eport t (fld d.target 0 0)) (fld d.target 3 1) = queueFill (eport s (fld d.target 0 0)) (fld d.target 3 1) + max (4 * d.payload.length) 60 ∧
      eport t (1 - fld d.target 0 0) = eport s (1 - fld d.target 0 0)) ∧
    (∀ (n : Fin 64) (d : Desc), Ready s n.val 0x78 d → maxLen s (fld d.target 0 0) < max (4 * d.payload.length) 60 + 4 →
      ∃ t, exec (.ethTx n d) s = .next t ∧ Frame [.rings, .msixPend, .out] s t ∧
        Completed s n.val 0x78 d 0x15 0 0 (w32 (4 * d.payload.length)) t) ∧
    (∀ (n : Fin 64) (d : Desc), Ready s n.val 0x79 d → popRx (fld d.target 4 1) (eport s (fld d.target 0 0)).rxq = none →
      ∃ t, exec (.ethRxPost n d) s = .next t ∧ Frame [.rings] s t ∧ Waits s n.val t) ∧
    (∀ (n : Fin 64) (d : Desc), Ready s n.val 0x79 d → ∀ x, popRx (fld d.target 4 1) (eport s (fld d.target 0 0)).rxq = some x →
      ∃ t, exec (.ethRxPost n d) s = .next t ∧ Frame [.rings, .msixPend, .eth, .out] s t ∧ (eport t (fld d.target 0 0)).rxq = x.2 ∧
      Out.payload n d.addr.toNat (withCrc (bytesWords x.1.bytes)) ∈ t.out ∧
      Out.completion n (ring s n).cqTail (withCrc [d.seq, w32 ((0x79 <<< 16) + ((ring s n).phase.toNat <<< 31)),
        w32 x.1.bytes.length,
        w32 x.1.flags, w32 (4 * ((bytesWords x.1.bytes).length + 1)), w32 x.1.ts, w32 (x.1.ts >>> 32)]) ∈ t.out ∧
      (ring t n).committed = d.seq ∧ (ring t n).flight = [])

/-- The update by ring (R546, R728 to R730, R739): a chunk is stored once and refused out of its state or its range,
  the state of the
transfer is returned, a trial is confirmed, a transfer abandoned; with the gate of the update engine closed a chunk fails (R136). -/
def Obligations.UpdateOperationsEffects : Prop :=
  ∀ s : State,
    (∀ (n : Fin 64) (d : Desc), Ready s n.val 0x7C d → blockUp s 5 = true → s.upd.stage = 2 ∨ s.upd.stage = 5 →
      ∃ t, exec (.updChunk n d) s = .next t ∧ Frame [.rings, .msixPend, .out] s t ∧ Completed s n.val 0x7C d 0xE 0 0 0 t) ∧
    (∀ (n : Fin 64) (d : Desc), Ready s n.val 0x7C d → blockUp s 5 = true → s.upd.stage = 3 ∨ s.upd.stage = 4 →
      ∃ t, exec (.updChunk n d) s = .next t ∧ Frame [.rings, .msixPend, .out] s t ∧ Completed s n.val 0x7C d 0xD 0 0 2 t) ∧
    (∀ (n : Fin 64) (d : Desc), Ready s n.val 0x7C d → blockUp s 5 = true → s.upd.stage = 0 ∨ s.upd.stage = 1 →
      (wAt d.par 1).toNat ≤ (wAt d.par 0).toNat →
      ∃ t, exec (.updChunk n d) s = .next t ∧ Frame [.rings, .msixPend, .out] s t ∧ Completed s n.val 0x7C d 4 0 0 0 t) ∧
    (∀ (n : Fin 64) (d : Desc), Ready s n.val 0x7C d → blockUp s 5 = true → s.upd.stage = 0 → s.upd.chunks = [] →
      0 < (wAt d.par 0).toNat → (wAt d.par 0).toNat + 1 < (wAt d.par 1).toNat → (wAt d.par 1).toNat ≤ 6144 →
        d.payload.length = 1024 →
      ∃ t, exec (.updChunk n d) s = .next t ∧ Frame [.rings, .msixPend, .upd, .eth, .out] s t ∧ Completed s n.val 0x7C d 0 1 0 0 t ∧
      t.upd.stage = 1 ∧ t.upd.count = some (wAt d.par 1).toNat ∧ t.upd.chunks = [((wAt d.par 0).toNat, wordsBytes d.payload)]) ∧
    (∀ (n : Fin 64) (d : Desc), Ready s n.val 0x7C d → blockUp s 5 = true → s.upd.stage = 1 →
      s.upd.count = some (wAt d.par 1).toNat →
      (wAt d.par 0).toNat < (wAt d.par 1).toNat → 2 ≤ (wAt d.par 1).toNat → (wAt d.par 1).toNat ≤ 6144 →
      chunkLenOk s (wAt d.par 0).toNat (wAt d.par 1).toNat (4 * d.payload.length) = true →
      (alook s.upd.chunks (wAt d.par 0).toNat).isSome = true →
      ∃ t, exec (.updChunk n d) s = .next t ∧ Frame [.rings, .msixPend, .upd, .out] s t ∧
      Completed s n.val 0x7C d 0 (w32 s.upd.chunks.length) 0 0 t ∧ t.upd.chunks = s.upd.chunks ∧ t.upd.stage = 1) ∧
    (∀ (n : Fin 64) (d : Desc), Ready s n.val 0x7D d → blockUp s 5 = true → ∃ t, exec (.updStatus n d) s = .next t ∧
      Frame [.rings, .msixPend, .out] s t ∧ Returned s n.val 0x7D d (bytesWords (chunkMap s 0 768)) (w32 s.upd.chunks.length) 0 t) ∧
    (∀ (n : Fin 64) (d : Desc), Ready s n.val 0x7E d → blockUp s 5 = true → s.upd.trial = false →
      ∃ t, exec (.updConfirm n d) s = .next t ∧ Frame [.rings, .msixPend, .out] s t ∧ Completed s n.val 0x7E d 0xD 0 0 1 t) ∧
    (∀ (n : Fin 64) (d : Desc), Ready s n.val 0x7E d → blockUp s 5 = true → s.upd.trial = true →
      ∃ t, exec (.updConfirm n d) s = .next t ∧ Frame [.regs, .rings, .evq, .msixPend, .upd, .out] s t ∧
      Completed s n.val 0x7E d 0 0 0 0 t ∧ t.upd.trial = false ∧ t.upd.fallback = false ∧ t.upd.outcome = 3 ∧
      s.upd.floor ≤ t.upd.floor ∧ Raised oUpdEvent 4 s t ∧ t.upd.active = s.upd.active) ∧
    (∀ (n : Fin 64) (d : Desc), Ready s n.val 0x7F d → blockUp s 5 = true → s.upd.stage = 5 →
      ∃ t, exec (.updAbort n d) s = .next t ∧ Frame [.rings, .msixPend, .out] s t ∧ Completed s n.val 0x7F d 0xE 0 0 0 t) ∧
    (∀ (n : Fin 64) (d : Desc), Ready s n.val 0x7F d → blockUp s 5 = true → s.upd.stage ≠ 5 →
      ∃ t, exec (.updAbort n d) s = .next t ∧ Frame [.rings, .msixPend, .upd, .out] s t ∧ Completed s n.val 0x7F d 0 0 0 0 t ∧
      t.upd = { s.upd with stage := 0, chunks := [], count := none, parts := [], cartSw := none }) ∧
    (∀ (n : Fin 64) (d : Desc), Ready s n.val 0x7C d → blockUp s 5 = false → ∃ t, exec (.updChunk n d) s = .next t ∧
      Frame [.rings, .msixPend, .free, .out] s t ∧ (ring t n).halted = true ∧ (ring t n).flight = [] ∧
      (ring t n).committed = (ring s n).committed)

/-- Worlds, the life cycle and the random source (R679 to R692, R709 to R712): a commit of the attribution of partitions pends,
  a life-cycle
request is saved where the transition exists and sets a bit of GLB_SEC_EVENT where it does not,
  a new round of masks comes 10 minutes after
the last one, and waits while the random source has failed. -/
def Obligations.SecurityCommandsEffects : Prop :=
  ∀ s : State,
    (∀ v : Word, Reaches s 0 → bitOf v 0 = true → ∃ t, exec (.glbPartCommit v) s = .next t ∧ Frame [.regs] s t ∧
      RegsOnly [oPartStatus] s t ∧ rget t oPartStatus = rget s oPartStatus ||| oneBit 31) ∧
    (∀ v : Word, Reaches s 0 → bitOf v 0 = false → ∃ t, exec (.glbPartCommit v) s = .next t ∧ Frame [.regs] s t ∧ t.regs = s.regs) ∧
    (∀ v : Word, Reaches s 0 → fld v 2 0 = 7 ∨ lcAllowed s (fld v 2 0) = true → ∃ t, exec (.lcRequest v) s = .next t ∧
      Frame [.regs, .evq] s t ∧ RegsOnly [oLcCtrl] s t ∧ rget t oLcCtrl = w32 (fld v 2 0)) ∧
    (∀ v : Word, Reaches s 0 → fld v 2 0 ≠ 7 → lcAllowed s (fld v 2 0) = false → ∃ t, exec (.lcRequest v) s = .next t ∧
      Frame [.regs, .evq] s t ∧ RegsOnly [oSecEvent] s t ∧ Raised oSecEvent 4 s t) ∧
    (s.clk.alive = true → s.sec.rootOk = true → s.sec.maskAt + 600000000000 ≤ s.up → s.sec.entropyOk = true → ∃ t,
      exec .remask s = .next t ∧ Frame [.sec] s t ∧
      t.sec = { s.sec with masks := t.sec.masks, remask := s.sec.remask + 1, maskAt := s.up, remaskDue := false }) ∧
    (s.clk.alive = true → s.sec.rootOk = true → s.sec.maskAt + 600000000000 ≤ s.up → s.sec.entropyOk = false → ∃ t,
      exec .remask s = .next t ∧ Frame [.sec] s t ∧
      t.sec = { s.sec with remaskDue := true }) ∧
    (s.clk.alive = true → ∃ t, exec .entropyFail s = .next t ∧ Frame [.regs, .evq, .sec] s t ∧ RegsOnly [oSecEvent] s t ∧
      Raised oSecEvent 2 s t ∧ t.sec = { s.sec with entropyOk := false }) ∧
    (s.clk.alive = true → s.sec.remaskDue = true → ∃ t, exec .entropyRecover s = .next t ∧ Frame [.sec] s t ∧
      t.sec = { s.sec with entropyOk := true, masks := t.sec.masks, remask := s.sec.remask + 1, maskAt := s.up, remaskDue := false }) ∧
    (s.clk.alive = true → s.sec.remaskDue = false → ∃ t, exec .entropyRecover s = .next t ∧ Frame [.sec] s t ∧
      t.sec = { s.sec with entropyOk := true })

/-- The update outside its ring (R725, R729, R731 to R734, R737, R738, R740 to R742): verification ends with its code, an install is
refused, or accepted and begun by a reset or by a planned handoff, a trial runs out into its fallback,
  fragments make up chunks, and cartridge software goes to the cartridge. -/
def Obligations.UpdateCommandsEffects : Prop :=
  ∀ s : State,
    (s.clk.alive = true → blockUp s 5 = true → s.upd.stage = 2 → ∃ t, exec .updateVerifyDone s = .next t ∧ Frame [.regs, .evq,
      .upd] s t ∧ RegsOnly [oUpdEvent] s t ∧
      t.upd = { s.upd with stage := if verifyCode s = 0 then 3 else 4, verifyErr := verifyCode s } ∧
      Raised oUpdEvent (if verifyCode s = 0 then 0 else 1) s t) ∧
    (∀ a : Bool, Reaches s 5 → installErr s a ≠ 0 → ∃ t, exec (.install a) s = .next t ∧ Frame [.regs, .pts, .hold, .phc, .clk,
      .banks, .ch, .rings, .evq, .recq, .recLost, .recLostCls, .msixPend, .can, .lce, .ble, .twn, .upd, .out] s t ∧
        t.regs = s.regs ∧
      t.clk = s.clk ∧ t.upd = { s.upd with installErr := installErr s a }) ∧
    (∀ a : Bool, Reaches s 5 → installErr s a = 0 → (holdsTwin s = true → s.twn.pair ≠ 4 ∧ s.twn.pair ≠ 5) → ∃ t,
      exec (.install a) s = .next t ∧
      Frame [.regs, .pts, .hold, .phc, .clk, .banks, .ch, .rings, .evq, .recq, .recLost, .recLostCls, .msixPend, .can, .lce,
        .ble, .twn, .upd, .out] s t ∧ t.upd.stage = 5 ∧ t.upd.mark = true ∧ t.upd.installErr = 0 ∧ t.clk.alive = false ∧
        t.clk.startCause = 6 ∧
      t.base.holdOut = false ∧ t.ble.running = false) ∧
    (∀ (a : Bool) (c : Nat), nextWindow s s.phc.cycle (s.phc.cycle + (if s.phc.phase = 0 then 1 else 2)) = some c →
      Reaches s 5 → installErr s a = 0 →
      holdsTwin s = true → s.twn.pair = 4 → ∃ t, exec (.install a) s = .next t ∧ Frame [.regs, .pts, .hold, .phc, .clk, .banks,
        .ch, .rings, .evq, .recq, .recLost, .recLostCls, .msixPend, .can, .lce, .ble, .twn, .upd, .out] s t ∧
      t.upd = { s.upd with stage := 5, mark := true, installErr := 0, leaving := 1 } ∧ t.clk = s.clk ∧
      t.twn.plan = some { at_ := c, cause := 3, ring := none, req := s.phc.cycle, out := false }) ∧
    (Reaches s 5 → s.upd.trial = true → s.upd.fallback = false → (holdsTwin s = true → s.twn.pair ≠ 4 ∧ s.twn.pair ≠ 5) → ∃ t,
      exec .fallback s = .next t ∧ Frame [.regs, .pts, .hold, .phc, .clk, .banks, .ch, .rings, .evq, .recq, .recLost,
        .recLostCls, .msixPend, .can, .lce, .ble, .twn, .upd, .out] s t ∧
      t.upd.fallback = true ∧ t.upd.trial = true ∧ t.clk.alive = false ∧ t.clk.startCause = 6 ∧ t.base.holdOut = false) ∧
    (∀ c : Nat, nextWindow s s.phc.cycle (s.phc.cycle + (if s.phc.phase = 0 then 1 else 2)) = some c → Reaches s 5 →
      s.upd.trial = true → s.upd.fallback = false →
      holdsTwin s = true → s.twn.pair = 4 → ∃ t, exec .fallback s = .next t ∧ Frame [.regs, .pts, .hold, .phc, .clk, .banks,
        .ch, .rings, .evq, .recq, .recLost, .recLostCls, .msixPend, .can, .lce, .ble, .twn, .upd, .out] s t ∧
      t.upd = { s.upd with fallback := true, leaving := 2, askAt := s.up } ∧ t.clk = s.clk ∧
      t.twn.plan = some { at_ := c, cause := 3, ring := none, req := s.phc.cycle, out := false }) ∧
    (Reaches s 5 → s.upd.trial = false → ∃ t, exec .fallback s = .next t ∧ Frame [.regs, .pts, .hold, .phc, .clk, .banks, .ch,
      .rings, .evq, .recq, .recLost, .recLostCls, .msixPend, .can, .lce, .ble, .twn, .upd, .out] s t ∧ t.upd = s.upd ∧
        t.clk = s.clk) ∧
    (s.clk.alive = true → s.upd.trial = true → trialEnd s ≤ s.rtc.optime → s.upd.fallback = false → (holdsTwin s = true →
      s.twn.pair ≠ 4 ∧ s.twn.pair ≠ 5) →
      ∃ t, exec .trialTimeExpiry s = .next t ∧ Frame [.regs, .pts, .hold, .phc, .clk, .banks, .ch, .rings, .evq, .recq,
        .recLost, .recLostCls, .msixPend, .can, .lce, .ble, .twn, .upd, .out] s t ∧ t.upd.fallback = true ∧ t.clk.alive = false) ∧
    (s.clk.alive = true → s.upd.fallback = true → s.upd.leaving = 2 → s.twn.plan = none → s.upd.askAt + 60000000000 ≤ s.up →
      (holdsTwin s = true → s.twn.pair ≠ 4 ∧ s.twn.pair ≠ 5) →
      ∃ t, exec .fallbackHandoffRetry s = .next t ∧ Frame [.regs, .pts, .hold, .phc, .clk, .banks, .ch, .rings, .evq, .recq,
        .recLost, .recLostCls, .msixPend, .can, .lce, .ble, .twn, .upd, .out] s t ∧ t.upd.askAt = s.up ∧ t.clk.alive = false ∧
      t.upd.fallback = true) ∧
    (Reaches s 5 → cartErr s ≠ 0 → ∃ t, exec .cartInstall s = .next t ∧ Frame [.upd, .out] s t ∧ t.out = s.out ∧
      t.upd = { s.upd with installErr := cartErr s }) ∧
    (Reaches s 5 → cartErr s = 0 → ∃ t, exec .cartInstall s = .next t ∧ Frame [.upd, .out] s t ∧ t.upd.installErr = 0 ∧
      t.upd.cartSw.isSome = true ∧ t.upd.stage = s.upd.stage ∧ t.out.length = s.out.length + 1) ∧
    (∀ v : Word, s.upd.cartSw ≠ none → s.mtr.running = true → ∃ t, exec (.cartSoftwareDone false v) s = .next t ∧
      Frame [.regs, .pts, .phc, .evq, .can, .mtr, .ble, .upd, .out] s t ∧ RegsOnly [oUpdEvent] s t ∧ t.mtr = s.mtr ∧
        t.upd = { s.upd with cartSw := none, installErr := 0xC } ∧
      Raised oUpdEvent 6 s t) ∧
    (∀ v : Word, s.upd.cartSw ≠ none → s.mtr.running = true → fld v 15 0 ≠ fld s.mtr.swVer 15 0 → s.mtr.legalLog.length < 512 →
      ∃ t, exec (.cartSoftwareDone true v) s = .next t ∧ Frame [.regs, .pts, .phc, .evq, .can, .mtr, .ble, .upd, .out] s t ∧
        t.mtr.swVer = v ∧ t.mtr.running = true ∧
      t.mtr.cntParam = satInc s.mtr.cntParam ∧ t.mtr.legalLog.length = s.mtr.legalLog.length + 1 ∧ t.upd.stage = 0 ∧
        t.upd.cartSw = none ∧
      Raised oUpdEvent 5 s t) ∧
    (∀ (idx count : Word) (frag : Fin 256) (len : Word) (data : List Nat), blockUp s 5 = true → bitOf (rget s oUpdCtrl) 1 = true →
      macValid s = true → frag.val < 3 → 1440 * frag.val < len.toNat → len.toNat ≤ 4096 → data.length = fragLen len.toNat frag.val →
      s.upd.parts = [] → 1440 < len.toNat →
      ∃ t, exec (.updFrag true (BitVec.ofNat 48 (ownMac s)) (BitVec.ofNat 48 (flSrc s)) idx count frag len data) s = .next t ∧
      Frame [.regs, .evq, .eth, .upd] s t ∧
        t.upd = { s.upd with parts := [Partial_.mk idx.toNat count.toNat len.toNat [(frag.val, data)]], fragAt := some s.up }) ∧
    (∀ (dst src : BitVec 48) (idx count : Word) (frag : Fin 256) (len : Word) (data : List Nat), blockUp s 5 = true →
      dst.toNat ≠ ownMac s ∨ src.toNat ≠ flSrc s → ∃ t, exec (.updFrag true dst src idx count frag len data) s = .next t ∧
      Frame [.regs, .evq, .eth, .upd] s t ∧ t.upd = s.upd) ∧
    (∀ x, s.upd.fragAt = some x → s.up ≤ x + 10000000000 → s.upd.reportAt + 1000000000 ≤ s.up → blockUp s 5 = true →
      bitOf (rget s oUpdCtrl) 1 = true →
      ∃ t, exec .updReport s = .next t ∧ Frame [.eth, .upd] s t ∧ t.upd = { s.upd with reportAt := s.up })

/-- Accesses to the registers (R11 to R15, R130, R136, R502, R503, R512,
  R683): a word-wide aligned write of the host or of the secure
supervisor that the block answers and the attribution table allows does what `regWrite` says,
  in CLK and BNK the access codes alone, in the
attribution table the bits that are not reserved and only before the lock; any other width or place does nothing but a 64-bit access to the MSI-X
table; a doorbell page is a doorbell write, the Command register of configuration space sets its two enables,
  and a read gives what `readOut`
says and latches the high words of a low one. -/
def Obligations.RegisterAccessesEffects : Prop :=
  ∀ s : State,
    (∀ (o width : Nat) (v : Nat), s.clk.linkPcie = true → s.memEnable = true → width ≠ 4 ∧ width ≠ 8 ∨ o % 4 ≠ 0 →
      ∃ t, exec (.registerWrite .bar0 o width v) s = .next t ∧ Frame [.regs, .lowHeld, .pts, .hold, .phc, .clk, .banks, .ch,
        .rings, .evq, .recq, .recLost, .recLostCls, .watches, .rtc, .msix, .msixPend, .busMaster, .memEnable, .ptp, .eth, .can,
        .mtr, .lce, .ble, .twn, .sec, .upd, .out] s t ∧ t.regs = s.regs ∧ t.live = s.live ∧
      t.rings = s.rings ∧ t.out = s.out) ∧
    (∀ (o width : Nat) (v : Nat), s.clk.linkPcie = false ∨ s.memEnable = false → ∃ t,
      exec (.registerWrite .bar0 o width v) s = .next t ∧
      Frame [.regs, .lowHeld, .pts, .hold, .phc, .clk, .banks, .ch, .rings, .evq, .recq, .recLost, .recLostCls, .watches, .rtc,
        .msix, .msixPend, .busMaster, .memEnable, .ptp, .eth, .can, .mtr, .lce, .ble, .twn, .sec, .upd, .out] s t ∧
        t.regs = s.regs ∧ t.rings = s.rings ∧ t.out = s.out) ∧
    (∀ (k : Fin 229376) (v : Word) (g : Nat), s.clk.linkPcie = true → s.memEnable = true → k.val * 4 < 0xE0000 →
      gateOf (k.val * 4) = some g →
      blockUp s g = false → ∃ t, exec (.registerWrite .bar0 (k.val * 4) 4 v.toNat) s = .next t ∧ Frame [.regs, .lowHeld, .pts,
        .hold, .phc, .clk, .banks, .ch, .rings, .evq, .recq, .recLost, .recLostCls, .watches, .rtc, .msix, .msixPend,
        .busMaster, .memEnable, .ptp, .eth, .can, .mtr, .lce, .ble, .twn, .sec, .upd, .out] s t ∧
      t.regs = s.regs ∧ t.rings = s.rings ∧ t.sec = s.sec) ∧
    (∀ (k : Fin 229376) (v : Word), s.clk.linkPcie = true → s.memEnable = true → k.val * 4 < 0xE0000 →
      blockAnswers s (k.val * 4) true = true → satAllows s 4 (0x80000000 + k.val * 4) true = true →
      ∃ t, exec (.registerWrite .bar0 (k.val * 4) 4 v.toNat) s = .next t ∧ Frame [.regs, .lowHeld, .pts, .hold, .phc, .clk,
        .banks, .ch, .rings, .evq, .recq, .recLost, .recLostCls, .watches, .rtc, .msix, .msixPend, .busMaster, .memEnable,
        .ptp, .eth, .can, .mtr, .lce, .ble, .twn, .sec, .upd, .out] s t ∧
      t.regs = (regWrite (wakeFor s (k.val * 4)) (k.val * 4) v).regs ∧
        t.lowHeld = (regWrite (wakeFor s (k.val * 4)) (k.val * 4) v).lowHeld ∧
      t.sec = (regWrite (wakeFor s (k.val * 4)) (k.val * 4) v).sec) ∧
    (∀ (k : Fin 229376) (v : Word), k.val * 4 < 0xE0000 → blockAnswers s (k.val * 4) true = true →
      satAllows s 0 (0x80000000 + k.val * 4) true = true →
      ∃ t, exec (.registerWrite .secure (k.val * 4) 4 v.toNat) s = .next t ∧ Frame [.regs, .lowHeld, .pts, .hold, .phc, .clk,
        .banks, .ch, .rings, .evq, .recq, .recLost, .recLostCls, .watches, .rtc, .msix, .msixPend, .busMaster, .memEnable,
        .ptp, .eth, .can, .mtr, .lce, .ble, .twn, .sec, .upd, .out] s t ∧
      t.regs = (regWrite (wakeFor s (k.val * 4)) (k.val * 4) v).regs ∧
        t.sec = (regWrite (wakeFor s (k.val * 4)) (k.val * 4) v).sec) ∧
    (∀ (k : Fin 256) (v : Word), s.sec.locked = false → blockAnswers s 0xC0100 true = true →
      ∃ t, exec (.registerWrite .secure (0xC0100 + 4 * k.val) 4 v.toNat) s = .next t ∧ Frame [.regs, .lowHeld, .pts, .hold,
        .phc, .clk, .banks, .ch, .rings, .evq, .recq, .recLost, .recLostCls, .watches, .rtc, .msix, .msixPend, .busMaster,
        .memEnable, .ptp, .eth, .can, .mtr, .lce, .ble, .twn, .sec, .upd, .out] s t ∧ t.regs = s.regs ∧
      t.sec = { s.sec with sat := t.sec.sat } ∧
      tget (fun _ => 0) t.sec.sat k.val = v &&& (if k.val % 4 ≤ 1 then 0xFFFFF000 else if k.val % 4 = 2 then 0xF else 0x1FFF) ∧
      ∀ j, j ≠ k.val → tget (fun _ => 0) t.sec.sat j = tget (fun _ => 0) s.sec.sat j) ∧
    (∀ (k : Fin 256) (v : Word), s.sec.locked = true → blockAnswers s 0xC0100 true = true →
      ∃ t, exec (.registerWrite .secure (0xC0100 + 4 * k.val) 4 v.toNat) s = .next t ∧ Frame [.regs, .lowHeld, .pts, .hold,
        .phc, .clk, .banks, .ch, .rings, .evq, .recq, .recLost, .recLostCls, .watches, .rtc, .msix, .msixPend, .busMaster,
        .memEnable, .ptp, .eth, .can, .mtr, .lce, .ble, .twn, .sec, .upd, .out] s t ∧ t.regs = s.regs ∧
      t.sec.sat = s.sec.sat ∧ t.sec.locked = true) ∧
    (∀ (k : Fin 229376) (v : Word), k.val * 4 / 0x10000 = 1 ∨ k.val * 4 / 0x10000 = 3 → s.clk.linkPcie = true → s.memEnable = true →
      blockAnswers s (k.val * 4) true = true → satAllows s 4 (0x80000000 + k.val * 4) true = true →
      (k.val * 4 / 0x10000 = 1 → k.val * 4 % 0x10000 ≠ 0 ∧ k.val * 4 % 0x10000 ≠ 0x10 ∧ k.val * 4 % 0x10000 ≠ 0x30) →
      (k.val * 4 / 0x10000 = 3 → k.val * 4 % 0x10000 < 0xC000 ∧ 0x100 ≤ k.val * 4 % 0x1000) →
      ∃ t, exec (.registerWrite .bar0 (k.val * 4) 4 v.toNat) s = .next t ∧ Frame [.regs, .lowHeld, .pts, .hold, .phc, .clk,
        .banks, .ch, .rings, .evq, .recq, .recLost, .recLostCls, .watches, .rtc, .msix, .msixPend, .busMaster, .memEnable,
        .ptp, .eth, .can, .mtr, .lce, .ble, .twn, .sec, .upd, .out] s t ∧ RegsOnly [k.val * 4] s t ∧
      rget t (k.val * 4) = writeWord (regInfo (k.val * 4)) (rget s (k.val * 4)) v ∧ t.live = s.live ∧ t.rings = s.rings) ∧
    (∀ (n : Fin 64) (v : Word), s.clk.linkPcie = true → s.memEnable = true → Reaches s 4 → (ring s n).enabled = true →
      isEventPair s n = false →
      fld v 11 0 < ringSize s n → ∃ t, exec (.registerWrite .bar2 (0x1000 * n.val) 4 v.toNat) s = .next t ∧ Frame [.regs,
        .lowHeld, .pts, .hold, .phc, .clk, .banks, .ch, .rings, .evq, .recq, .recLost, .recLostCls, .watches, .rtc, .msix,
        .msixPend, .busMaster, .memEnable, .ptp, .eth, .can, .mtr, .lce, .ble, .twn, .sec, .upd, .out] s t ∧
      t.regs = s.regs ∧ RingsOnly [n.val] s t ∧ (ring t n).sqTail = fld v 11 0) ∧
    (∀ (n : Fin 64) (v : Word), s.clk.linkPcie = true → s.memEnable = true → Reaches s 4 → (ring s n).enabled = true →
      fld v 11 0 < ringSize s n → isEventPair s n = false →
      (fld v 11 0 + ringSize s n - (ring s n).cqHead) % ringSize s n ≤ ((ring s n).cqTail + ringSize s n - (ring s n).cqHead) % ringSize s n →
      ∃ t, exec (.registerWrite .bar2 (0x1000 * n.val + 4) 4 v.toNat) s = .next t ∧ Frame [.regs, .lowHeld, .pts, .hold, .phc,
        .clk, .banks, .ch, .rings, .evq, .recq, .recLost, .recLostCls, .watches, .rtc, .msix, .msixPend, .busMaster,
        .memEnable, .ptp, .eth, .can, .mtr, .lce, .ble, .twn, .sec, .upd, .out] s t ∧
      t.regs = s.regs ∧ RingsOnly [n.val] s t ∧ (ring t n).cqHead = fld v 11 0) ∧
    (∀ v : Nat, s.clk.linkPcie = true → v.testBit 2 = true → ∃ t, exec (.registerWrite .config 4 4 v) s = .next t ∧
      Frame [.regs, .lowHeld, .pts, .hold, .phc, .clk, .banks, .ch, .rings, .evq, .recq, .recLost, .recLostCls, .watches, .rtc,
        .msix, .msixPend, .busMaster, .memEnable, .ptp, .eth, .can, .mtr, .lce, .ble, .twn, .sec, .upd, .out] s t ∧
      t.memEnable = v.testBit 1 ∧ t.busMaster = true ∧ t.rings = s.rings) ∧
    (∀ v : Nat, s.clk.linkPcie = true → v.testBit 2 = false → ∃ t, exec (.registerWrite .config 4 4 v) s = .next t ∧
      Frame [.regs, .lowHeld, .pts, .hold, .phc, .clk, .banks, .ch, .rings, .evq, .recq, .recLost, .recLostCls, .watches, .rtc,
        .msix, .msixPend, .busMaster, .memEnable, .ptp, .eth, .can, .mtr, .lce, .ble, .twn, .sec, .upd, .out] s t ∧
      t.memEnable = v.testBit 1 ∧ t.busMaster = false) ∧
    (∀ (k : Fin 229376) (v : Word), s.clk.linkPcie = true → s.memEnable = true → k.val * 4 < 0xE0000 →
      blockAnswers s (k.val * 4) true = true →
      satAllows s 4 (0x80000000 + k.val * 4) true = false → ∃ t, exec (.registerWrite .bar0 (k.val * 4) 4 v.toNat) s = .next t ∧
      Frame [.regs, .lowHeld, .pts, .hold, .phc, .clk, .banks, .ch, .rings, .evq, .recq, .recLost, .recLostCls, .watches, .rtc,
        .msix, .msixPend, .busMaster, .memEnable, .ptp, .eth, .can, .mtr, .lce, .ble, .twn, .sec, .upd, .out] s t ∧
        RegsOnly [oSecEvent] s t ∧ rget t oSecEvent = rget s oSecEvent ||| 2 ∧
      t.sec = { s.sec with violInfo := 0x14, violAddr := w32 (0x80000000 + k.val * 4) }) ∧
    (∀ (k : Fin 128) (v : BitVec 64), s.clk.linkPcie = true → s.memEnable = true → blockAnswers s 0x88000 true = true →
      satAllows s 4 (0x80088000 + 8 * k.val) true = true → satAllows s 4 (0x80088000 + 8 * k.val + 4) true = true →
      ∃ t, exec (.registerWrite .bar0 (0x88000 + 8 * k.val) 8 v.toNat) s = .next t ∧ Frame [.regs, .lowHeld, .pts, .hold, .phc,
        .clk, .banks, .ch, .rings, .evq, .recq, .recLost, .recLostCls, .watches, .rtc, .msix, .msixPend, .busMaster,
        .memEnable, .ptp, .eth, .can, .mtr, .lce, .ble, .twn, .sec, .upd, .out] s t ∧ t.regs = s.regs ∧
      tget msixDefault t.msix (2 * k.val) = w32 v.toNat ∧ tget msixDefault t.msix (2 * k.val + 1) = w32 (v.toNat >>> 32)) ∧
    (∀ o : Nat, o % 4 ≠ 0 → s.clk.linkPcie = true → s.memEnable = true → ∃ t, exec (.latchedRead .bar0 o 4) s = .next t ∧
      Frame [.regs, .latch, .clk, .evq, .sec, .out] s t ∧ t.out = s.out ++ [.readData o 0] ∧ t.latch = s.latch ∧ t.regs = s.regs) ∧
    (∀ (k : Fin 229376), s.clk.linkPcie = true → s.memEnable = true → k.val * 4 < 0xE0000 →
      blockAnswers s (k.val * 4) false = true →
      satAllows s 4 (0x80000000 + k.val * 4) false = true → ∃ t, exec (.latchedRead .bar0 (k.val * 4) 4) s = .next t ∧
      Frame [.regs, .latch, .clk, .evq, .sec, .out] s t ∧ t.regs = s.regs ∧ t.sec = s.sec ∧
        t.out = s.out ++ [.readData (k.val * 4) (readOut s (k.val * 4))] ∧
      (∀ h ∈ latches (k.val * 4), alook t.latch h = some (readWord (wakeFor s (k.val * 4)) h)) ∧
      (latches (k.val * 4) = [] → alook t.latch (k.val * 4) = none)) ∧
    (∀ (k : Fin 229376), k.val * 4 < 0xE0000 → blockAnswers s (k.val * 4) false = true →
      satAllows s 0 (0x80000000 + k.val * 4) false = true → ∃ t, exec (.latchedRead .secure (k.val * 4) 4) s = .next t ∧
      Frame [.regs, .latch, .clk, .evq, .sec, .out] s t ∧ t.regs = s.regs ∧ t.sec = s.sec ∧
        t.out = s.out ++ [.readData (k.val * 4) (readOut s (k.val * 4))] ∧
      (∀ h ∈ latches (k.val * 4), alook t.latch h = some (readWord (wakeFor s (k.val * 4)) h)) ∧
      (latches (k.val * 4) = [] → alook t.latch (k.val * 4) = none)) ∧
    (∀ (o : Nat) (width : Fin 5), s.clk.linkPcie = true → ∃ t, exec (.latchedRead .config o width) s = .next t ∧ Frame [.regs,
      .latch, .clk, .evq, .sec, .out] s t ∧
      t.regs = s.regs ∧ t.latch = s.latch ∧
      t.out = s.out ++ [.readData o (w32 ((configRead s o).toNat >>> (8 * (o % 4)) % 2 ^ (8 * width.val)))] ∧
      bitOf (configRead s 4) 1 = s.memEnable ∧ bitOf (configRead s 4) 2 = s.busMaster ∧ fld (configRead s 8) 31 8 = 0x088000) ∧
    (∀ o width : Nat, s.clk.linkPcie = true → s.memEnable = true → ∃ t, exec (.latchedRead .bar2 o width) s = .next t ∧
      Frame [.regs, .latch, .clk, .evq, .sec, .out] s t ∧ t.regs = s.regs ∧ t.latch = s.latch ∧ t.out = s.out ++ [.readData o 0]) ∧
    (∀ k : Fin 128, s.clk.linkPcie = true → s.memEnable = true → blockAnswers s 0x88000 false = true →
      satAllows s 4 (0x80088000 + 8 * k.val) false = true → satAllows s 4 (0x80088000 + 8 * k.val + 4) false = true →
      ∃ t, exec (.latchedRead .bar0 (0x88000 + 8 * k.val) 8) s = .next t ∧ Frame [.regs, .latch, .clk, .evq, .sec, .out] s t ∧
        t.regs = s.regs ∧
      t.out.length = s.out.length + 2 ∧ t.msix = s.msix) ∧
    (∀ (k : Fin 229376), s.clk.linkPcie = true → s.memEnable = true → blockAnswers s (k.val * 4) false = false →
      ∃ t, exec (.latchedRead .bar0 (k.val * 4) 4) s = .next t ∧ Frame [.regs, .latch, .clk, .evq, .sec, .out] s t ∧
        t.out = s.out ++ [.readData (k.val * 4) 0] ∧
      t.sec = s.sec)

/-- A step with a command at the front of the queue is that command's effect on the state with the queue's rest. -/
def Obligations.StepRunsFrontCommand : Prop :=
  ∀ (s : State) (c : Instr) (rest : List Instr), s.pending = c :: rest → step s = exec c { s with pending := rest }

/-- A step on an empty queue passes one unit of the running phase clock within its cycle (the model's choice, log 3, log 42): the
events that wait are written first; where the phase clock does not run one tick of the RTC domain passes,
  and at the cycle's last unit
nothing does. -/
def Obligations.IdleStepPassesOnePhaseUnit : Prop :=
  ∀ s : State, s.pending = [] → ∃ t, step s = .next t ∧ t.pending = [] ∧ t.phc.cycle = s.phc.cycle ∧
    (s.phc.run = true → s.clk.alive = true → s.phc.phase < 4095 → t.phc.phase = s.phc.phase + 1) ∧
    (s.phc.run = false ∨ s.clk.alive = false → t.phc = s.phc ∧ t.up = s.up + 30518) ∧
    (s.phc.run = true → s.clk.alive = true → 4095 ≤ s.phc.phase → t.phc = s.phc ∧ t.up = s.up)

/-- What reset leaves in the registers whose reset values the spec states (R98, R99, R153, R215, R419, R497, R624, R649,
R721, R742). -/
def Obligations.ResetRegisterValues : Prop :=
  (∀ e ∈ ([(0x10000, 0xD5), (0x10004, 0), (0x1001C, 0xFFFFF), (0x10030, 0x810), (0x10040, 0), (0x20000, 2), (0x20004, 0x600)] ++
      [(0x20044, 0), (0x30000, 1), (0x30004, 0xC8), (0x3000C, 0), (0x30010, 0x14), (0x30100, 0x300), (0x50000, 4)] ++
      [(0x70000, 7), (0x70004, 0x3C), (0x90008, 3), (0x90010, 0x70000000), (0xA0000, 2)] ++
      [(0x80000, 0x101), (0x81000, 0), (0x81018, 1), (0xB0000, 0), (0xB0004, 3), (0xD0000, 0x60C)] ++
      [(0x50, 0), (0x104, 0), (0x108, 0), (0x110, 1), (0x114, 0), (0x118, 7), (0x200, 0), (0x600, 0)] : List (Nat × Word)),
    readWord State.reset e.1 = e.2) ∧
  State.reset.base.holdOut = false ∧ State.reset.pending = [] ∧ State.reset.rings = [] ∧ State.reset.busMaster = false ∧
  State.reset.sec.locked = false

/-- At reset the hold line obeys its hardware gating. -/
def Obligations.HoldLineGatedAtReset : Prop := HoldGated State.reset

/-- Every step from a state in which HOLD_OUT obeys its gating (R35, R36, R130, R146, R148, R459) leaves one in which it does. -/
def Obligations.EveryStepKeepsHoldLineGated : Prop :=
  ∀ s t : State, HoldGated s → step s = .next t → HoldGated t

/-- Every command answers a next state, on every state and with every operand, and leaves the queue of commands as it is. -/
def Obligations.EveryCommandAnswersAndKeepsQueue : Prop :=
  ∀ (c : Instr) (s : State), ∃ t, exec c s = .next t ∧ t.pending = s.pending

/-- As many steps as commands wait serve the whole queue, in its order: the run answers and the queue is
empty; fewer steps leave the rest of the queue as it was. -/
def Obligations.RunServesWholeQueueInOrder : Prop :=
  (∀ s : State, ∃ t, Host.Core.run Sys2Proof.core s.pending.length s = .next t ∧ t.pending = []) ∧
  ∀ (s : State) (a b : List Instr), s.pending = a ++ b → ∃ t, Host.Core.run Sys2Proof.core a.length s = .next t ∧ t.pending = b

/-- HOLD_OUT rises in six commands only: the start-up that takes the ball, an answered ball request, a Twinlink check, a missed
Fieldlink heartbeat, a state frame (the last one of a planned handoff, or one whose check fails) and a failed handoff (R459 to R462,
R474 to R477, R485, R488, R490). -/
def Obligations.HoldLineRisesOnlyByBallCommands : Prop :=
  ∀ (c : Instr) (s t : State), exec c s = .next t → s.base.holdOut = false → t.base.holdOut = true →
    (∃ e, c = .startUp e) ∨ (∃ e, c = .ballRequest e) ∨ c = .twinlinkCheck ∨ c = .fieldlinkMiss ∨
      (∃ ok seq ts half health plan final excess digest lag items,
        c = .stateFrameRx ok seq ts half health plan final excess digest lag items) ∨
      c = .handoffFail

/-- The legal region of the metrology log only grows, at its end, and never past 512 records (R309, R310, R313). -/
def Obligations.LegalLogOnlyGrowsWithinItsRegion : Prop :=
  ∀ (c : Instr) (s t : State), exec c s = .next t → s.mtr.legalLog <+: t.mtr.legalLog ∧
    (s.mtr.legalLog.length ≤ 512 → t.mtr.legalLog.length ≤ 512)

/-- The security attribution table, once locked, stays locked and as it is through every command but a start-up (R680, R722). -/
def Obligations.LockedAttributionTableStands : Prop :=
  ∀ (c : Instr) (s t : State), exec c s = .next t → s.sec.locked = true → (∀ e, c ≠ .startUp e) →
    t.sec.locked = true ∧ t.sec.sat = s.sec.sat

/-- At its commit turn an owner-only operation of a tenant's ring completes ACCESS with the object, an operation that changes state
completes NOT_BALL_HOLDER on a module of a pair without the ball, and neither has an effect (R479, R511, R525, R572). -/
def Obligations.TenantAndStandbyRefusals : Prop :=
  ∀ s : State,
    (∀ n : Fin 64, ∀ f ∈ (ring s n).flight.head?.toList, f.early = none → f.waiting = false → f.dup = false → ringsRun s = true →
      s.busMaster = true → (ring s n).closing = false → ((ring s n).flight.map Flight.ord).Nodup → ownerOnly (opOf f) = true →
      ringPart s n ≠ 0 → ∃ t, exec (.descriptorCommit n 0) s = .next t ∧ Frame [.regs, .rings, .msixPend, .out] s t ∧
      RingsOnly [n.val] s t ∧ (ring t n).halted = true ∧ (ring t n).committed = (ring s n).committed ∧
      Out.completion n (ring s n).cqTail (withCrc [wAt f.words 1, w32 (9 + (opOf f <<< 16) + ((ring s n).phase.toNat <<< 31)), 0, 0,
        wAt f.words 2, w32 (nowTs s), w32 (nowTs s >>> 32)]) ∈ t.out) ∧
    (∀ n : Fin 64, ∀ f ∈ (ring s n).flight.head?.toList, f.early = none → f.waiting = false → f.dup = false → ringsRun s = true →
      s.busMaster = true → (ring s n).closing = false → ((ring s n).flight.map Flight.ord).Nodup → changesState (opOf f) = true →
      (ownerOnly (opOf f) = true → ringPart s n = 0) → onTwin s = true → s.base.holdOut = false →
      ∃ t, exec (.descriptorCommit n 0) s = .next t ∧ Frame [.regs, .rings, .msixPend, .out] s t ∧
      RingsOnly [n.val] s t ∧ (ring t n).halted = true ∧ (ring t n).committed = (ring s n).committed ∧
      Out.completion n (ring s n).cqTail (withCrc [wAt f.words 1, w32 (10 + (opOf f <<< 16) + ((ring s n).phase.toNat <<< 31)),
        0, 0,
        0, w32 (nowTs s), w32 (nowTs s >>> 32)]) ∈ t.out)

/-- R513: a TAIL or HEAD too large, a TAIL of an event pair and a HEAD past the module's own tail are ignored and set DB_ERR. -/
def Obligations.BadDoorbellIgnoredWithDbErr : Prop :=
  ∀ s : State,
    (∀ (n : Fin 64) (v : Word), Reaches s 4 → ringSize s n ≤ fld v 11 0 ∨ isEventPair s n = true →
      ∃ t, exec (.sqTail n v) s = .next t ∧ Frame [.regs] s t ∧ RegsOnly [oRing n + 0x2C] s t ∧ t.rings = s.rings ∧
      rget t (oRing n + 0x2C) = rget s (oRing n + 0x2C) ||| 1) ∧
    (∀ (n : Fin 64) (v : Word), Reaches s 4 → ringSize s n ≤ fld v 11 0 ∨
      ((ring s n).cqTail + ringSize s n - (ring s n).cqHead) % ringSize s n <
        (fld v 11 0 + ringSize s n - (ring s n).cqHead) % ringSize s n →
      ∃ t, exec (.cqHead n v) s = .next t ∧ Frame [.regs] s t ∧ RegsOnly [oRing n + 0x2C] s t ∧ t.rings = s.rings ∧
      rget t (oRing n + 0x2C) = rget s (oRing n + 0x2C) ||| 1)

/-- R313: with the legal region full, seal openings are counted and not recorded, every command that would write a legal record is
refused, by the door with LOG_FULL, and LOG_LEGAL_FULL reads 1. -/
def Obligations.FullLegalLogRefusesLegalRecords : Prop :=
  ∀ s : State, 512 ≤ s.mtr.legalLog.length →
    bitOf (readWord s 0x60000) 4 = true ∧
    (s.mtr.running = true → s.mtr.sealOpen = false → ∃ t, exec (.sealChange true) s = .next t ∧
      t.mtr.cntSeal = satInc s.mtr.cntSeal ∧
      t.mtr.legalLog = s.mtr.legalLog) ∧
    (s.mtr.running = true → s.mtr.sealOpen = true → s.mtr.secDoor.busy = true → s.mtr.secDoor.op = 0x11 →
      s.mtr.secDoor.arg0.toNat < 4 →
      blockFault s.mtr.secDoor.arg0.toNat ((alook s.mtr.staged s.mtr.secDoor.arg0.toNat).getD (parBytes s s.mtr.secDoor.arg0.toNat)) = none →
      ∃ t, exec (.doorCommandDone true) s = .next t ∧ t.mtr.secDoor.result = 6 ∧ t.mtr.secDoor.busy = false ∧
      t.mtr.legalLog = s.mtr.legalLog ∧ t.mtr.par = s.mtr.par ∧ t.mtr.applied = s.mtr.applied ∧ t.mtr.cntParam = s.mtr.cntParam) ∧
    (s.mtr.running = true → s.mtr.sealOpen = true → s.mtr.secDoor.busy = true → s.mtr.secDoor.op = 0x13 → s.mtr.meterId = none →
      ((sdata s).take 16).all (fun c => decide (0x20 ≤ c) && decide (c ≤ 0x7E)) = true → ∃ t,
        exec (.doorCommandDone true) s = .next t ∧
      t.mtr.secDoor.result = 6 ∧ t.mtr.legalLog = s.mtr.legalLog ∧ t.mtr.meterId = none ∧ t.mtr.cntParam = s.mtr.cntParam) ∧
    (∀ (ok : Bool) (v : Word), ∃ t, exec (.cartSoftwareDone ok v) s = .next t ∧ t.mtr.legalLog = s.mtr.legalLog ∧
      t.mtr.swVer = s.mtr.swVer ∧ t.mtr.cntParam = s.mtr.cntParam)

/-- R576: a descriptor among the duplicates is checked for its CRC and its SEQ alone; at its commit turn it completes DUPLICATE, with
no output payload and no effect. A RESUME carries no sequence number and is no duplicate (R575). -/
def Obligations.DuplicateDescriptorHasNoEffect : Prop :=
  ∀ s : State,
    (∀ (n : Fin 64) (ws pay : List Word), canFetch s n = true → (ring s n).halted = false → (ring s n).dupLeft ≠ 0 →
      crcWords ((descWords ws).take 15) = wAt (descWords ws) 15 → wAt (descWords ws) 1 = (ring s n).seq →
      fld (wAt (descWords ws) 0) 7 0 ≠ 2 → ∃ t, exec (.descriptorFetch n ws pay) s = .next t ∧ Frame [.rings] s t ∧
      RingsOnly [n.val] s t ∧ (ring t n).seq = (ring s n).seq + 1 ∧ (ring t n).dupLeft = (ring s n).dupLeft - 1 ∧
      ∀ f ∈ (ring t n).flight.getLast?.toList, f.dup = true ∧ f.early = none ∧ f.waiting = false ∧ f.words = descWords ws) ∧
    (∀ n : Fin 64, ∀ f ∈ (ring s n).flight.head?.toList, f.dup = true → f.waiting = false → ringsRun s = true → s.busMaster = true →
      ((ring s n).flight.map Flight.ord).Nodup → (ring s n).closing = false →
      ∃ t, exec (.descriptorCommit n 0) s = .next t ∧ Frame [.rings, .msixPend, .out] s t ∧ RingsOnly [n.val] s t ∧
      (ring t n).flight = (ring s n).flight.tail ∧ (ring t n).committed = (ring s n).committed ∧
        (ring t n).halted = (ring s n).halted ∧
      (∀ o ∈ t.out, o ∈ s.out ∨ (∃ v, o = .msix v) ∨ o = .completion n (ring s n).cqTail (withCrc [wAt f.words 1,
        w32 (1 + (opOf f <<< 16) + ((ring s n).phase.toNat <<< 31)), 0, 0, 0, w32 (nowTs s), w32 (nowTs s >>> 32)])) ∧
      Out.completion n (ring s n).cqTail (withCrc [wAt f.words 1,
        w32 (1 + (opOf f <<< 16) + ((ring s n).phase.toNat <<< 31)), 0, 0, 0, w32 (nowTs s), w32 (nowTs s >>> 32)]) ∈ t.out)

/-- R659: at the countdown's expiry CD_EXPIRED is set, and the countdown reloads from RTC_CD_LOAD and runs on, or stays at 0. -/
def Obligations.CountdownExpiryReloadsOrStops : Prop :=
  ∀ s : State, s.rtc.cd = 1 → ∃ t, exec .cdExpired s = .next t ∧ bitOf (rget t oRtcEvent) 0 = true ∧
    (s.rtc.cdReload = true → t.rtc.cd = s.rtc.cdLoad.toNat) ∧
    (s.rtc.cdReload = false → t.rtc.cd = 0 ∧ ∀ n : Nat, (rtcTicks { t with rtc := { t.rtc with cdWrite := none } } n).rtc.cd = 0) ∧
    t.rtc.cdReload = s.rtc.cdReload ∧ t.rtc.cdLoad = s.rtc.cdLoad ∧ t.rtc.count = s.rtc.count

/-- Authenticated decryption gives back what authenticated encryption sealed, and refuses any other tag (R545, R701). -/
def Obligations.AeadOpensWhatItSealed : Prop :=
  ∀ key nonce aad pt : List Nat, key.length = 32 → nonce.length = 12 →
    gcmOpen key nonce aad (gcmSeal key nonce aad pt).1 (gcmSeal key nonce aad pt).2 = some pt ∧
    ∀ tag : List Nat, tag ≠ (gcmSeal key nonce aad pt).2 → gcmOpen key nonce aad (gcmSeal key nonce aad pt).1 tag = none

/-- A CAN field written into a frame's data reads back, in either byte order, and no other bit of the data moves (R644, R646). -/
def Obligations.CanFieldReadsBackAndMovesNoOtherBit : Prop :=
  ∀ (l : List Nat) (v start len : Nat) (big : Bool), (∀ x ∈ l, x < 256) → 1 ≤ len → start + len ≤ 8 * l.length →
    rawField ((fieldBits v start len big).foldl (fun l e => putBit l e.1 e.2) l) start len big = v % 2 ^ len ∧
    ∀ k : Nat, k < start ∨ start + len ≤ k →
      dataBits ((fieldBits v start len big).foldl (fun l e => putBit l e.1 e.2) l) k 1 = dataBits l k 1

/-- The phase stays below 4096 and the cycle number below 2^48 through every command (R74, R75). -/
def Obligations.PhaseAndCycleStayInRange : Prop :=
  ∀ (c : Instr) (s t : State), exec c s = .next t → s.phc.phase < 4096 → s.phc.cycle < 2 ^ 48 →
    t.phc.phase < 4096 ∧ t.phc.cycle < 2 ^ 48

end
end

