-- ==== Sys2Proof/Laws/Keeps.lean ====
section
/-! SUPPORT. Which pieces of the state an operation leaves exactly as they were: the relation, how it composes, and one lemma
for each field of the state. The other files of this folder that begin with Keeps apply it to every operation of the
machine, one lemma each. -/

namespace Sys2Proof.Laws

open Machine

/-- A piece of the state is exactly what it was. -/
def exactly (p : Piece) (s t : State) : Prop :=
  match p with
  | .regs => t.regs = s.regs
  | .live => t.live = s.live
  | .latch => t.latch = s.latch
  | .lowHeld => t.lowHeld = s.lowHeld
  | .pts => t.pts = s.pts
  | .base => baseRest t = baseRest s
  | .hold => t.base.holdOut = s.base.holdOut
  | .phc => t.phc = s.phc
  | .clk => t.clk = s.clk
  | .banks => t.banks = s.banks
  | .ch => t.ch = s.ch
  | .rings => t.rings = s.rings
  | .evq => t.evq = s.evq
  | .recq => t.recq = s.recq
  | .recSlots => t.recSlots = s.recSlots
  | .recNext => t.recNext = s.recNext
  | .recLost => t.recLost = s.recLost
  | .recLostCls => t.recLostCls = s.recLostCls
  | .watches => t.watches = s.watches
  | .rtc => t.rtc = s.rtc
  | .msix => t.msix = s.msix
  | .msixPend => t.msixPend = s.msixPend
  | .busMaster => t.busMaster = s.busMaster
  | .memEnable => t.memEnable = s.memEnable
  | .forces => t.forces = s.forces
  | .img => t.img = s.img
  | .up => t.up = s.up
  | .ptp => t.ptp = s.ptp
  | .eth => t.eth = s.eth
  | .can => t.can = s.can
  | .mtr => t.mtr = s.mtr
  | .lce => t.lce = s.lce
  | .ble => t.ble = s.ble
  | .twn => t.twn = s.twn
  | .sec => t.sec = s.sec
  | .upd => t.upd = s.upd
  | .free => t.free = s.free
  | .out => t.out = s.out

theorem exactly_refl (p : Piece) (s : State) : exactly p s s := by cases p <;> rfl

theorem exactly_trans {p : Piece} {s t u : State} (h : exactly p s t) (g : exactly p t u) : exactly p s u := by
  cases p <;> exact Eq.trans g h

/-- From `s` to `t` every piece but those listed is exactly what it was, and so is the queue of commands. -/
def Keeps (may : List Piece) (s t : State) : Prop := t.pending = s.pending ∧ ∀ p, p ∉ may → exactly p s t

theorem Keeps.refl (may : List Piece) (s : State) : Keeps may s s := ⟨rfl, fun p _ => exactly_refl p s⟩

theorem Keeps.trans {may : List Piece} {s t u : State} (h : Keeps may s t) (g : Keeps may t u) : Keeps may s u :=
  ⟨g.1.trans h.1, fun p hp => exactly_trans (h.2 p hp) (g.2 p hp)⟩

theorem Keeps.mono {a b : List Piece} {s t : State} (h : Keeps a s t) (hab : a ⊆ b) : Keeps b s t :=
  ⟨h.1, fun p hp => h.2 p (fun q => hp (hab q))⟩

/-- One operation more, whose pieces are among those listed. -/
theorem Keeps.step {a may : List Piece} {s t u : State} (h : Keeps may s t) (g : Keeps a t u) (ha : a ⊆ may) : Keeps may s u :=
  h.trans (g.mono ha)

theorem Keeps.letState {may : List Piece} {s v : State} {b : State → State} (h : Keeps may s v)
    (hb : ∀ x, Keeps may s x → Keeps may s (b x)) : Keeps may s (have x := v; b x) := hb v h

theorem Keeps.letAny {α : Sort _} {may : List Piece} {s : State} {v : α} {b : α → State} (hb : ∀ x, Keeps may s (b x)) :
    Keeps may s (have x := v; b x) := hb v

theorem Keeps.let_fst {β : Type} {may : List Piece} {s : State} {v : State × β} {b : State × β → State}
    (h : Keeps may s v.1) (hb : ∀ x, Keeps may s x.1 → Keeps may s (b x)) : Keeps may s (have x := v; b x) := hb v h

theorem Keeps.let_snd {β : Type} {may : List Piece} {s : State} {v : β × State} {b : β × State → State}
    (h : Keeps may s v.2) (hb : ∀ x, Keeps may s x.2 → Keeps may s (b x)) : Keeps may s (have x := v; b x) := hb v h

theorem Keeps.ite {may : List Piece} {c : Prop} [Decidable c] {s t u : State} (h : Keeps may s t) (g : Keeps may s u) :
    Keeps may s (if c then t else u) := by split <;> assumption

theorem Keeps.ite_fst {β : Type} {may : List Piece} {c : Prop} [Decidable c] {s : State} {t u : State × β}
    (h : Keeps may s t.1) (g : Keeps may s u.1) : Keeps may s (if c then t else u).1 := by split <;> assumption

theorem Keeps.ite_snd {β : Type} {may : List Piece} {c : Prop} [Decidable c] {s : State} {t u : β × State}
    (h : Keeps may s t.2) (g : Keeps may s u.2) : Keeps may s (if c then t else u).2 := by split <;> assumption

theorem Keeps.getD {may : List Piece} {s d : State} {o : Option State} (h : ∀ t, o = some t → Keeps may s t)
    (g : Keeps may s d) : Keeps may s (o.getD d) := by
  cases o with
  | none => exact g
  | some t => exact h t rfl

theorem Keeps.forAll {α : Type} {may : List Piece} {s t : State} {l : List α} {f : State → α → State}
    (h : Keeps may s t) (hf : ∀ u a, Keeps may s u → Keeps may s (f u a)) : Keeps may s (Machine.forAll l f t) := by
  unfold Machine.forAll
  induction l generalizing t with
  | nil => exact h
  | cons a l ih => exact ih (hf t a h)

theorem Keeps.foldl {α : Type} {may : List Piece} {s t : State} {l : List α} {f : State → α → State}
    (h : Keeps may s t) (hf : ∀ u a, Keeps may s u → Keeps may s (f u a)) : Keeps may s (l.foldl f t) := Keeps.forAll h hf

/-- A fold that carries something beside the state. -/
theorem Keeps.foldl_fst {α β : Type} {may : List Piece} {s : State} {l : List α} {f : State × β → α → State × β}
    {p : State × β} (h : Keeps may s p.1) (hf : ∀ q a, Keeps may s q.1 → Keeps may s (f q a).1) :
    Keeps may s (l.foldl f p).1 := by
  induction l generalizing p with
  | nil => exact h
  | cons a l ih => exact ih (hf p a h)

theorem Keeps.foldl_snd {α β : Type} {may : List Piece} {s : State} {l : List α} {f : β × State → α → β × State}
    {p : β × State} (h : Keeps may s p.2) (hf : ∀ q a, Keeps may s q.2 → Keeps may s (f q a).2) :
    Keeps may s (l.foldl f p).2 := by
  induction l generalizing p with
  | nil => exact h
  | cons a l ih => exact ih (hf p a h)

theorem Keeps.of_eq_fst {β : Type} {may : List Piece} {s t : State} {p : State × β} {b : β} (h : Keeps may s p.1)
    (e : p = (t, b)) : Keeps may s t := by subst e; exact h

theorem Keeps.of_eq_snd {β : Type} {may : List Piece} {s t : State} {p : β × State} {b : β} (h : Keeps may s p.2)
    (e : p = (b, t)) : Keeps may s t := by subst e; exact h

/-! ### One field replaced -/

theorem Keeps.regs {may : List Piece} {s t : State} {v} (h : Keeps may s t) (hw : Piece.regs ∈ may) :
    Keeps may s { t with regs := v } :=
  ⟨h.1, fun p hp => by cases p <;> first | exact h.2 _ hp | exact absurd hw hp⟩

theorem Keeps.live {may : List Piece} {s t : State} {v} (h : Keeps may s t) (hw : Piece.live ∈ may) :
    Keeps may s { t with live := v } :=
  ⟨h.1, fun p hp => by cases p <;> first | exact h.2 _ hp | exact absurd hw hp⟩

theorem Keeps.latch {may : List Piece} {s t : State} {v} (h : Keeps may s t) (hw : Piece.latch ∈ may) :
    Keeps may s { t with latch := v } :=
  ⟨h.1, fun p hp => by cases p <;> first | exact h.2 _ hp | exact absurd hw hp⟩

theorem Keeps.lowHeld {may : List Piece} {s t : State} {v} (h : Keeps may s t) (hw : Piece.lowHeld ∈ may) :
    Keeps may s { t with lowHeld := v } :=
  ⟨h.1, fun p hp => by cases p <;> first | exact h.2 _ hp | exact absurd hw hp⟩

theorem Keeps.pts {may : List Piece} {s t : State} {v} (h : Keeps may s t) (hw : Piece.pts ∈ may) :
    Keeps may s { t with pts := v } :=
  ⟨h.1, fun p hp => by cases p <;> first | exact h.2 _ hp | exact absurd hw hp⟩

theorem Keeps.phc {may : List Piece} {s t : State} {v} (h : Keeps may s t) (hw : Piece.phc ∈ may) :
    Keeps may s { t with phc := v } :=
  ⟨h.1, fun p hp => by cases p <;> first | exact h.2 _ hp | exact absurd hw hp⟩

theorem Keeps.clk {may : List Piece} {s t : State} {v} (h : Keeps may s t) (hw : Piece.clk ∈ may) :
    Keeps may s { t with clk := v } :=
  ⟨h.1, fun p hp => by cases p <;> first | exact h.2 _ hp | exact absurd hw hp⟩

theorem Keeps.banks {may : List Piece} {s t : State} {v} (h : Keeps may s t) (hw : Piece.banks ∈ may) :
    Keeps may s { t with banks := v } :=
  ⟨h.1, fun p hp => by cases p <;> first | exact h.2 _ hp | exact absurd hw hp⟩

theorem Keeps.ch {may : List Piece} {s t : State} {v} (h : Keeps may s t) (hw : Piece.ch ∈ may) :
    Keeps may s { t with ch := v } :=
  ⟨h.1, fun p hp => by cases p <;> first | exact h.2 _ hp | exact absurd hw hp⟩

theorem Keeps.rings {may : List Piece} {s t : State} {v} (h : Keeps may s t) (hw : Piece.rings ∈ may) :
    Keeps may s { t with rings := v } :=
  ⟨h.1, fun p hp => by cases p <;> first | exact h.2 _ hp | exact absurd hw hp⟩

theorem Keeps.evq {may : List Piece} {s t : State} {v} (h : Keeps may s t) (hw : Piece.evq ∈ may) :
    Keeps may s { t with evq := v } :=
  ⟨h.1, fun p hp => by cases p <;> first | exact h.2 _ hp | exact absurd hw hp⟩

theorem Keeps.recq {may : List Piece} {s t : State} {v} (h : Keeps may s t) (hw : Piece.recq ∈ may) :
    Keeps may s { t with recq := v } :=
  ⟨h.1, fun p hp => by cases p <;> first | exact h.2 _ hp | exact absurd hw hp⟩

theorem Keeps.recSlots {may : List Piece} {s t : State} {v} (h : Keeps may s t) (hw : Piece.recSlots ∈ may) :
    Keeps may s { t with recSlots := v } :=
  ⟨h.1, fun p hp => by cases p <;> first | exact h.2 _ hp | exact absurd hw hp⟩

theorem Keeps.recNext {may : List Piece} {s t : State} {v} (h : Keeps may s t) (hw : Piece.recNext ∈ may) :
    Keeps may s { t with recNext := v } :=
  ⟨h.1, fun p hp => by cases p <;> first | exact h.2 _ hp | exact absurd hw hp⟩

theorem Keeps.recLost {may : List Piece} {s t : State} {v} (h : Keeps may s t) (hw : Piece.recLost ∈ may) :
    Keeps may s { t with recLost := v } :=
  ⟨h.1, fun p hp => by cases p <;> first | exact h.2 _ hp | exact absurd hw hp⟩

theorem Keeps.recLostCls {may : List Piece} {s t : State} {v} (h : Keeps may s t) (hw : Piece.recLostCls ∈ may) :
    Keeps may s { t with recLostCls := v } :=
  ⟨h.1, fun p hp => by cases p <;> first | exact h.2 _ hp | exact absurd hw hp⟩

theorem Keeps.watches {may : List Piece} {s t : State} {v} (h : Keeps may s t) (hw : Piece.watches ∈ may) :
    Keeps may s { t with watches := v } :=
  ⟨h.1, fun p hp => by cases p <;> first | exact h.2 _ hp | exact absurd hw hp⟩

theorem Keeps.rtc {may : List Piece} {s t : State} {v} (h : Keeps may s t) (hw : Piece.rtc ∈ may) :
    Keeps may s { t with rtc := v } :=
  ⟨h.1, fun p hp => by cases p <;> first | exact h.2 _ hp | exact absurd hw hp⟩

theorem Keeps.msix {may : List Piece} {s t : State} {v} (h : Keeps may s t) (hw : Piece.msix ∈ may) :
    Keeps may s { t with msix := v } :=
  ⟨h.1, fun p hp => by cases p <;> first | exact h.2 _ hp | exact absurd hw hp⟩

theorem Keeps.msixPend {may : List Piece} {s t : State} {v} (h : Keeps may s t) (hw : Piece.msixPend ∈ may) :
    Keeps may s { t with msixPend := v } :=
  ⟨h.1, fun p hp => by cases p <;> first | exact h.2 _ hp | exact absurd hw hp⟩

theorem Keeps.busMaster {may : List Piece} {s t : State} {v} (h : Keeps may s t) (hw : Piece.busMaster ∈ may) :
    Keeps may s { t with busMaster := v } :=
  ⟨h.1, fun p hp => by cases p <;> first | exact h.2 _ hp | exact absurd hw hp⟩

theorem Keeps.memEnable {may : List Piece} {s t : State} {v} (h : Keeps may s t) (hw : Piece.memEnable ∈ may) :
    Keeps may s { t with memEnable := v } :=
  ⟨h.1, fun p hp => by cases p <;> first | exact h.2 _ hp | exact absurd hw hp⟩

theorem Keeps.forces {may : List Piece} {s t : State} {v} (h : Keeps may s t) (hw : Piece.forces ∈ may) :
    Keeps may s { t with forces := v } :=
  ⟨h.1, fun p hp => by cases p <;> first | exact h.2 _ hp | exact absurd hw hp⟩

theorem Keeps.img {may : List Piece} {s t : State} {v} (h : Keeps may s t) (hw : Piece.img ∈ may) :
    Keeps may s { t with img := v } :=
  ⟨h.1, fun p hp => by cases p <;> first | exact h.2 _ hp | exact absurd hw hp⟩

theorem Keeps.up {may : List Piece} {s t : State} {v} (h : Keeps may s t) (hw : Piece.up ∈ may) :
    Keeps may s { t with up := v } :=
  ⟨h.1, fun p hp => by cases p <;> first | exact h.2 _ hp | exact absurd hw hp⟩

theorem Keeps.ptp {may : List Piece} {s t : State} {v} (h : Keeps may s t) (hw : Piece.ptp ∈ may) :
    Keeps may s { t with ptp := v } :=
  ⟨h.1, fun p hp => by cases p <;> first | exact h.2 _ hp | exact absurd hw hp⟩

theorem Keeps.eth {may : List Piece} {s t : State} {v} (h : Keeps may s t) (hw : Piece.eth ∈ may) :
    Keeps may s { t with eth := v } :=
  ⟨h.1, fun p hp => by cases p <;> first | exact h.2 _ hp | exact absurd hw hp⟩

theorem Keeps.can {may : List Piece} {s t : State} {v} (h : Keeps may s t) (hw : Piece.can ∈ may) :
    Keeps may s { t with can := v } :=
  ⟨h.1, fun p hp => by cases p <;> first | exact h.2 _ hp | exact absurd hw hp⟩

theorem Keeps.mtr {may : List Piece} {s t : State} {v} (h : Keeps may s t) (hw : Piece.mtr ∈ may) :
    Keeps may s { t with mtr := v } :=
  ⟨h.1, fun p hp => by cases p <;> first | exact h.2 _ hp | exact absurd hw hp⟩

theorem Keeps.lce {may : List Piece} {s t : State} {v} (h : Keeps may s t) (hw : Piece.lce ∈ may) :
    Keeps may s { t with lce := v } :=
  ⟨h.1, fun p hp => by cases p <;> first | exact h.2 _ hp | exact absurd hw hp⟩

theorem Keeps.ble {may : List Piece} {s t : State} {v} (h : Keeps may s t) (hw : Piece.ble ∈ may) :
    Keeps may s { t with ble := v } :=
  ⟨h.1, fun p hp => by cases p <;> first | exact h.2 _ hp | exact absurd hw hp⟩

theorem Keeps.twn {may : List Piece} {s t : State} {v} (h : Keeps may s t) (hw : Piece.twn ∈ may) :
    Keeps may s { t with twn := v } :=
  ⟨h.1, fun p hp => by cases p <;> first | exact h.2 _ hp | exact absurd hw hp⟩

theorem Keeps.sec {may : List Piece} {s t : State} {v} (h : Keeps may s t) (hw : Piece.sec ∈ may) :
    Keeps may s { t with sec := v } :=
  ⟨h.1, fun p hp => by cases p <;> first | exact h.2 _ hp | exact absurd hw hp⟩

theorem Keeps.upd {may : List Piece} {s t : State} {v} (h : Keeps may s t) (hw : Piece.upd ∈ may) :
    Keeps may s { t with upd := v } :=
  ⟨h.1, fun p hp => by cases p <;> first | exact h.2 _ hp | exact absurd hw hp⟩

theorem Keeps.free {may : List Piece} {s t : State} {v} (h : Keeps may s t) (hw : Piece.free ∈ may) :
    Keeps may s { t with free := v } :=
  ⟨h.1, fun p hp => by cases p <;> first | exact h.2 _ hp | exact absurd hw hp⟩

theorem Keeps.out {may : List Piece} {s t : State} {v} (h : Keeps may s t) (hw : Piece.out ∈ may) :
    Keeps may s { t with out := v } :=
  ⟨h.1, fun p hp => by cases p <;> first | exact h.2 _ hp | exact absurd hw hp⟩

theorem Keeps.base {may : List Piece} {s t : State} {v} (h : Keeps may s t) (hw : Piece.base ∈ may)
    (hh : v.holdOut = t.base.holdOut) : Keeps may s { t with base := v } :=
  ⟨h.1, fun p hp => by
    cases p <;> first | exact absurd hw hp | exact h.2 _ hp | exact hh.trans (h.2 _ hp)⟩

theorem Keeps.baseHold {may : List Piece} {s t : State} {v} (h : Keeps may s t) (hw : Piece.base ∈ may)
    (hh : Piece.hold ∈ may) : Keeps may s { t with base := v } :=
  ⟨h.1, fun p hp => by
    cases p <;> first | exact absurd hw hp | exact absurd hh hp | exact h.2 _ hp⟩

theorem Keeps.holdOut {may : List Piece} {s t : State} {v} (h : Keeps may s t) (hw : Piece.hold ∈ may) :
    Keeps may s { t with base := { t.base with holdOut := v } } :=
  ⟨h.1, fun p hp => by
    cases p <;> first | exact absurd hw hp | exact h.2 _ hp⟩

/-- Several fields replaced at once. -/
theorem Keeps.many {may : List Piece} {s t u : State} (h : Keeps may s t) (hp : u.pending = t.pending)
    (hu : ∀ p, p ∉ may → exactly p t u) : Keeps may s u := h.trans ⟨hp, hu⟩

/-! ### Operations that take another -/

theorem Keeps.reached {may : List Piece} {s t : State} {b : Nat} {f : State → State} (h : Keeps may s t)
    (hf : ∀ u, Keeps may s u → Keeps may s (f u)) : Keeps may s (Machine.reached t b f) := by
  unfold Machine.reached
  split
  · exact hf t h
  · exact h

end Sys2Proof.Laws
end

