-- ==== Sys2Proof/Laws/KeepsOps.lean ====
section
/-! SUPPORT. For every operation of Machine/Ops.lean: the pieces of the state it may change; every other piece is exactly
what it was. -/

namespace Sys2Proof.Laws

open Machine

theorem emit_keeps (s : State) (o : Out) : Keeps [.out] s (emit s o) := by
  unfold emit
  exact Keeps.out (Keeps.refl _ _) (by decide)

theorem rset_keeps (s : State) (off : Nat) (v : Word) : Keeps [.regs] s (rset s off v) := by
  unfold rset
  exact Keeps.regs (Keeps.refl _ _) (by decide)

theorem ror_keeps (s : State) (off : Nat) (m : Word) : Keeps [.regs] s (ror s off m) := by
  unfold ror
  exact Keeps.step (Keeps.refl _ _) (rset_keeps ..) (by decide)

theorem pushEv_keeps (s : State) (code : Nat) (cls : Nat) (part : Nat) (body : List Word) (block : Nat) (obj : Nat) (host :
    Bool) (rec_ : Bool) : Keeps [.evq] s (pushEv s code cls part body block obj host rec_) := by
  unfold pushEv
  exact Keeps.evq (Keeps.refl _ _) (by decide)

theorem regEvent_keeps (s : State) (off : Nat) (bits : Word) (obj : Word) (part : Nat) (host : Bool) (rec_ : Bool) (extra :
    List Word) : Keeps [.evq] s (regEvent s off bits obj part host rec_ extra) := by
  unfold regEvent
  split
  · exact Keeps.evq (Keeps.refl _ _) (by decide)
  · exact Keeps.step (Keeps.refl _ _) (pushEv_keeps ..) (by decide)

theorem raiseBits_keeps (s : State) (off : Nat) (bits : Word) (obj : Word) (part : Nat) (host : Bool) (rec_ : Bool) (extra :
    List Word) : Keeps [.regs, .evq] s (raiseBits s off bits obj part host rec_ extra) := by
  unfold raiseBits
  extract_lets +onlyGivenNames _
  refine Keeps.ite (Keeps.refl _ _) ?_
  exact Keeps.step (Keeps.step (Keeps.refl _ _) (ror_keeps ..) (by decide)) (regEvent_keeps ..) (by decide)

theorem raiseBoth_keeps (s : State) (off : Nat) (bits : Word) : Keeps [.regs, .evq] s (raiseBoth s off bits) := by
  unfold raiseBoth
  exact Keeps.step (Keeps.refl _ _) (raiseBits_keeps ..) (by decide)

theorem twnEvent_keeps (s : State) (bit : Nat) : Keeps [.regs, .evq] s (twnEvent s bit) := by
  unfold twnEvent
  exact Keeps.step (Keeps.refl _ _) (raiseBoth_keeps ..) (by decide)

theorem healthEvent_keeps (s : State) : Keeps [.regs, .evq] s (healthEvent s) := by
  unfold healthEvent
  refine Keeps.ite (Keeps.step (Keeps.refl _ _) (regEvent_keeps ..) (by decide)) ?_
  exact Keeps.step (Keeps.refl _ _) (twnEvent_keeps ..) (by decide)

theorem lset_keeps (s : State) (off : Nat) (v : Word) : Keeps [.live] s (lset s off v) := by
  unfold lset
  exact Keeps.live (Keeps.refl _ _) (by decide)

theorem setBank_keeps (s : State) (b : Nat) (v : Bank) : Keeps [.banks] s (setBank s b v) := by
  unfold setBank
  exact Keeps.banks (Keeps.refl _ _) (by decide)

theorem modBank_keeps (s : State) (b : Nat) (f : Bank → Bank) : Keeps [.banks] s (modBank s b f) := by
  unfold modBank
  exact Keeps.step (Keeps.refl _ _) (setBank_keeps ..) (by decide)

theorem setChan_keeps (s : State) (c : Nat) (v : Chan) : Keeps [.ch] s (setChan s c v) := by
  unfold setChan
  exact Keeps.ch (Keeps.refl _ _) (by decide)

theorem modChan_keeps (s : State) (c : Nat) (f : Chan → Chan) : Keeps [.ch] s (modChan s c f) := by
  unfold modChan
  exact Keeps.step (Keeps.refl _ _) (setChan_keeps ..) (by decide)

theorem noteForce_keeps (s : State) (f : Force) : Keeps [.twn] s (noteForce s f) := by
  unfold noteForce
  extract_lets +onlyGivenNames _
  exact Keeps.twn (Keeps.refl _ _) (by decide)

theorem noteMirror_keeps (s : State) (blk : Nat) : Keeps [.twn] s (noteMirror s blk) := by
  unfold noteMirror
  exact Keeps.twn (Keeps.refl _ _) (by decide)

theorem notePoint_keeps (s : State) (id : Nat) : Keeps [.can, .ble] s (notePoint s id) := by
  unfold notePoint
  refine Keeps.ite (Keeps.ble (Keeps.refl _ _) (by decide)) ?_
  refine Keeps.ite ?_ ?_
  · extract_lets +onlyGivenNames _
    refine Keeps.ite ?_ ?_
    · extract_lets +onlyGivenNames _
      extract_lets +onlyGivenNames _
      extract_lets +onlyGivenNames _
      exact Keeps.can (Keeps.refl _ _) (by decide)
    exact Keeps.refl _ _
  exact Keeps.refl _ _

theorem poison_keeps (s : State) (hop : Nat) : Keeps [.regs, .evq] s (poison s hop) := by
  unfold poison
  extract_lets +onlyGivenNames _
  extract_lets +onlyGivenNames x1
  have h1 : Keeps [.regs, .evq] s x1 := Keeps.step (Keeps.refl _ _) (rset_keeps ..) (by decide)
  clear_value x1
  exact Keeps.step h1 (raiseBoth_keeps ..) (by decide)

theorem pset_keeps (s : State) (id : Nat) (v : Word) : Keeps [.pts, .can, .ble] s (pset s id v) := by
  unfold pset
  extract_lets +onlyGivenNames x0
  have h0 : Keeps [.pts, .can, .ble] s x0 := Keeps.pts (Keeps.refl _ _) (by decide)
  clear_value x0
  exact Keeps.ite h0 (Keeps.step h0 (notePoint_keeps ..) (by decide))

theorem raiseHost_keeps (s : State) (off : Nat) (bits : Word) : Keeps [.regs, .evq] s (raiseHost s off bits) := by
  unfold raiseHost
  exact Keeps.step (Keeps.refl _ _) (raiseBits_keeps ..) (by decide)

theorem timeEvent_keeps (s : State) (kind : Nat) (w6 : Word) (rec_ : Bool) : Keeps [.evq] s (timeEvent s kind w6 rec_) := by
  unfold timeEvent
  exact Keeps.step (Keeps.refl _ _) (pushEv_keeps ..) (by decide)

theorem raisePhc_keeps (s : State) (bits : Word) : Keeps [.regs, .evq] s (raisePhc s bits) := by
  unfold raisePhc
  extract_lets +onlyGivenNames _
  refine Keeps.ite (Keeps.refl _ _) ?_
  exact Keeps.step (Keeps.step (Keeps.refl _ _) (ror_keeps ..) (by decide)) (timeEvent_keeps ..) (by decide)

theorem rclr_keeps (s : State) (off : Nat) (m : Word) : Keeps [.regs] s (rclr s off m) := by
  unfold rclr
  exact Keeps.step (Keeps.refl _ _) (rset_keeps ..) (by decide)

theorem recEvent_keeps (s : State) (code : Nat) (block : Nat) (obj : Nat) (body : List Word) : Keeps [.evq] s (recEvent s code
    block obj body) := by
  unfold recEvent
  exact Keeps.step (Keeps.refl _ _) (pushEv_keeps ..) (by decide)

theorem refreshPair_keeps (s : State) : Keeps [.twn] s (refreshPair s) := by
  unfold refreshPair
  extract_lets +onlyGivenNames _
  extract_lets +onlyGivenNames _
  exact Keeps.twn (Keeps.refl _ _) (by decide)

theorem rinc_keeps (s : State) (off : Nat) : Keeps [.regs] s (rinc s off) := by
  unfold rinc
  exact Keeps.step (Keeps.refl _ _) (rset_keeps ..) (by decide)

theorem rsetFld_keeps (s : State) (off : Nat) (hi : Nat) (lo : Nat) (v : Nat) : Keeps [.regs] s (rsetFld s off hi lo v) := by
  unfold rsetFld
  exact Keeps.step (Keeps.refl _ _) (rset_keeps ..) (by decide)

theorem rwrite_keeps (s : State) (off : Nat) (v : Word) : Keeps [.regs] s (rwrite s off v) := by
  unfold rwrite
  exact Keeps.step (Keeps.refl _ _) (rset_keeps ..) (by decide)

theorem takeFree_keeps (s : State) : Keeps [.free] s (takeFree s).2 := by
  unfold takeFree
  exact Keeps.free (Keeps.refl _ _) (by decide)

theorem Keeps.unlessStandby {may : List Piece} {s t : State} {f : State → State} (h : Keeps may s t)
    (hf : ∀ u, Keeps may s u → Keeps may s (f u)) (ha : [.regs, .evq] ⊆ may) : Keeps may s (Machine.unlessStandby t f) := by
  unfold Machine.unlessStandby
  split
  · exact h.step (twnEvent_keeps ..) ha
  · exact hf t h

end Sys2Proof.Laws
end

