-- ==== Sys2Proof/Laws/KeepsBankOps.lean ====
section
/-! SUPPORT. For every operation of Machine/BankOps.lean: the pieces of the state it may change; every other piece is exactly
what it was. -/

namespace Sys2Proof.Laws

open Machine

theorem setB_keeps (s : State) (c : Nat) (i : Nat) (v : Bool) : Keeps [.ch] s (setB s c i v) := by
  unfold setB
  exact Keeps.step (Keeps.refl _ _) (modChan_keeps ..) (by decide)

theorem failValue_keeps (s : State) (c : Nat) : Keeps [.pts, .can, .ble] s (failValue s c) := by
  unfold failValue
  split
  · exact Keeps.step (Keeps.refl _ _) (pset_keeps ..) (by decide)
  · exact Keeps.step (Keeps.refl _ _) (pset_keeps ..) (by decide)
  · exact Keeps.refl _ _

theorem latchReport_keeps (s : State) (c : Nat) (bits : Word) : Keeps [.evq] s (latchReport s c bits) := by
  unfold latchReport
  exact Keeps.step (Keeps.refl _ _) (regEvent_keeps ..) (by decide)

theorem latchRise_keeps (s : State) (c : Nat) (rise : Word) : Keeps [.regs, .ch, .evq] s (latchRise s c rise) := by
  unfold latchRise
  extract_lets +onlyGivenNames _
  refine Keeps.ite (Keeps.refl _ _) ?_
  extract_lets +onlyGivenNames x1
  have h1 : Keeps [.regs, .ch, .evq] s x1 := Keeps.step (Keeps.refl _ _) (ror_keeps ..) (by decide)
  clear_value x1
  extract_lets +onlyGivenNames _
  refine Keeps.ite (Keeps.step h1 (setChan_keeps ..) (by decide)) ?_
  exact Keeps.step (Keeps.step h1 (setChan_keeps ..) (by decide)) (latchReport_keeps ..) (by decide)

theorem putDiag_keeps (s : State) (c : Nat) (w : Word) : Keeps [.regs, .pts, .ch, .evq, .can, .ble] s (putDiag s c w) := by
  unfold putDiag
  extract_lets +onlyGivenNames _
  extract_lets +onlyGivenNames _
  extract_lets +onlyGivenNames -merge -useContext _ x2
  have h2 : Keeps [.regs, .pts, .ch, .evq, .can, .ble] s x2 := Keeps.step (Keeps.refl _ _) (setChan_keeps ..) (by decide)
  clear_value x2
  extract_lets +onlyGivenNames x3
  have h3 : Keeps [.regs, .pts, .ch, .evq, .can, .ble] s x3 := Keeps.step h2 (pset_keeps ..) (by decide)
  clear_value x3
  extract_lets +onlyGivenNames x4
  have h4 : Keeps [.regs, .pts, .ch, .evq, .can, .ble] s x4 := Keeps.step h3 (latchRise_keeps ..) (by decide)
  clear_value x4
  exact Keeps.ite (Keeps.step h4 (failValue_keeps ..) (by decide)) h4

theorem setDiagBit_keeps (s : State) (c : Nat) (i : Nat) (v : Bool) : Keeps [.regs, .pts, .ch, .evq, .can, .ble] s (setDiagBit
    s c i v) := by
  unfold setDiagBit
  extract_lets +onlyGivenNames x0
  have h0 : Keeps [.regs, .pts, .ch, .evq, .can, .ble] s x0 := Keeps.step (Keeps.refl _ _) (setB_keeps ..) (by decide)
  clear_value x0
  exact Keeps.step h0 (putDiag_keeps ..) (by decide)

theorem bankEvent_keeps (s : State) (b : Nat) (bits : Word) (extra : List Word) : Keeps [.regs, .evq] s (bankEvent s b bits
    extra) := by
  unfold bankEvent
  exact Keeps.step (Keeps.refl _ _) (raiseBits_keeps ..) (by decide)

theorem safeEvent_keeps (s : State) (b : Nat) (bit : Word) : Keeps [.regs, .evq] s (safeEvent s b bit) := by
  unfold safeEvent
  extract_lets +onlyGivenNames _
  refine Keeps.ite (Keeps.step (Keeps.refl _ _) (bankEvent_keeps ..) (by decide)) ?_
  exact Keeps.step (Keeps.refl _ _) (regEvent_keeps ..) (by decide)

theorem redoStage_keeps (s : State) (c : Nat) : Keeps [.ch] s (redoStage s c) := by
  unfold redoStage
  exact Keeps.step (Keeps.refl _ _) (setB_keeps ..) (by decide)

theorem applyNow_keeps (s : State) (c : Nat) (v : Word) : Keeps [.ch] s (applyNow s c v) := by
  unfold applyNow
  extract_lets +onlyGivenNames x0
  have h0 : Keeps [.ch] s x0 := Keeps.step (Keeps.refl _ _) (modChan_keeps ..) (by decide)
  clear_value x0
  extract_lets +onlyGivenNames x1
  have h1 : Keeps [.ch] s x1 := Keeps.ite (Keeps.step h0 (modChan_keeps ..) (by decide)) h0
  clear_value x1
  exact Keeps.step h1 (redoStage_keeps ..) (by decide)

theorem startPeriod_keeps (s : State) (c : Nat) (per : Nat) : Keeps [.ch] s (startPeriod s c per) := by
  unfold startPeriod
  exact Keeps.step (Keeps.step (Keeps.refl _ _) (modChan_keeps ..) (by decide)) (redoStage_keeps ..) (by decide)

theorem safeChan_keeps (s : State) (c : Nat) : Keeps [.ch] s (safeChan s c) := by
  unfold safeChan
  extract_lets +onlyGivenNames _
  refine Keeps.ite (Keeps.refl _ _) ?_
  extract_lets +onlyGivenNames _
  extract_lets +onlyGivenNames _
  extract_lets +onlyGivenNames x3
  have h3 : Keeps [.ch] s x3 := Keeps.step (Keeps.step (Keeps.refl _ _) (applyNow_keeps ..) (by decide)) (modChan_keeps ..) (by
      decide)
  clear_value x3
  extract_lets +onlyGivenNames x4
  have h4 : Keeps [.ch] s x4 := Keeps.ite (Keeps.step h3 (startPeriod_keeps ..) (by decide)) h3
  clear_value x4
  exact Keeps.ite (Keeps.step h4 (modChan_keeps ..) (by decide)) h4

abbrev enterSafe_may : List Piece := [.regs, .pts, .banks, .ch, .evq, .can, .ble]

theorem enterSafe_keeps (s : State) (b : Nat) : Keeps enterSafe_may s (enterSafe s b) := by
  unfold enterSafe
  extract_lets +onlyGivenNames x0
  have h0 : Keeps enterSafe_may s x0 := Keeps.step (Keeps.refl _ _) (modBank_keeps ..) (by decide)
  clear_value x0
  extract_lets +onlyGivenNames x1
  have h1 : Keeps enterSafe_may s x1 := by
    refine Keeps.forAll h0 fun _ _ h2 => ?_
    exact Keeps.step h2 (safeChan_keeps ..) (by decide)
  clear_value x1
  extract_lets +onlyGivenNames x3
  have h3 : Keeps enterSafe_may s x3 := by
    refine Keeps.forAll h1 fun _ _ h4 => ?_
    exact Keeps.step h4 (setDiagBit_keeps ..) (by decide)
  clear_value x3
  exact Keeps.step h3 (safeEvent_keeps ..) (by decide)

abbrev addCause_may : List Piece := [.regs, .pts, .banks, .ch, .evq, .can, .ble]

theorem addCause_keeps (s : State) (b : Nat) (bit : Nat) : Keeps addCause_may s (addCause s b bit) := by
  unfold addCause
  extract_lets +onlyGivenNames x0
  have h0 : Keeps addCause_may s x0 := Keeps.step (Keeps.refl _ _) (modBank_keeps ..) (by decide)
  clear_value x0
  exact Keeps.ite h0 (Keeps.step h0 (enterSafe_keeps ..) (by decide))

theorem allCause_keeps (s : State) (bit : Nat) : Keeps [.regs, .pts, .banks, .ch, .evq, .can, .ble] s (allCause s bit) := by
  unfold allCause
  refine Keeps.forAll (Keeps.refl _ _) fun _ _ h0 => ?_
  exact Keeps.step h0 (addCause_keeps ..) (by decide)

theorem dropCause_keeps (s : State) (b : Nat) (bit : Nat) : Keeps [.banks] s (dropCause s b bit) := by
  unfold dropCause
  exact Keeps.step (Keeps.refl _ _) (modBank_keeps ..) (by decide)

theorem allDrop_keeps (s : State) (bit : Nat) : Keeps [.banks] s (allDrop s bit) := by
  unfold allDrop
  refine Keeps.forAll (Keeps.refl _ _) fun _ _ h0 => ?_
  exact Keeps.step h0 (dropCause_keeps ..) (by decide)

theorem redoDiag_keeps (s : State) (c : Nat) : Keeps [.regs, .pts, .ch, .evq, .can, .ble] s (redoDiag s c) := by
  unfold redoDiag
  exact Keeps.step (Keeps.refl _ _) (putDiag_keeps ..) (by decide)

theorem takeSafe_keeps (s : State) (c : Nat) (unit : Nat) (v : Word) : Keeps [.ch] s (takeSafe s c unit v) := by
  unfold takeSafe
  extract_lets +onlyGivenNames _
  refine Keeps.ite (Keeps.refl _ _) ?_
  extract_lets +onlyGivenNames x1
  have h1 : Keeps [.ch] s x1 := by
    refine Keeps.ite (Keeps.step (Keeps.step (Keeps.refl _ _) (modChan_keeps ..) (by decide)) (redoStage_keeps ..) (by decide))
        ?_
    exact Keeps.refl _ _
  clear_value x1
  exact Keeps.ite (Keeps.step h1 (modChan_keeps ..) (by decide)) h1

theorem commandOff_keeps (s : State) (c : Nat) : Keeps [.ch] s (commandOff s c) := by
  unfold commandOff
  extract_lets +onlyGivenNames _
  extract_lets +onlyGivenNames x1
  have h1 : Keeps [.ch] s x1 := Keeps.step (Keeps.refl _ _) (modChan_keeps ..) (by decide)
  clear_value x1
  exact Keeps.ite (Keeps.step h1 (modChan_keeps ..) (by decide)) h1

theorem takeOut_keeps (s : State) (c : Nat) (unit : Nat) (v : Word) : Keeps [.ch] s (takeOut s c unit v) := by
  unfold takeOut
  extract_lets +onlyGivenNames _
  refine Keeps.ite (Keeps.refl _ _) ?_
  extract_lets +onlyGivenNames _
  extract_lets +onlyGivenNames x2
  have h2 : Keeps [.ch] s x2 := Keeps.step (Keeps.refl _ _) (modChan_keeps ..) (by decide)
  clear_value x2
  refine Keeps.ite h2 ?_
  extract_lets +onlyGivenNames x3
  have h3 : Keeps [.ch] s x3 := Keeps.ite (Keeps.step h2 (commandOff_keeps ..) (by decide)) h2
  clear_value x3
  refine Keeps.ite (Keeps.step (Keeps.step h3 (modChan_keeps ..) (by decide)) (redoStage_keeps ..) (by decide)) ?_
  exact Keeps.step h3 (applyNow_keeps ..) (by decide)

abbrev applyFrame_may : List Piece := [.regs, .pts, .banks, .ch, .evq, .can, .ble]

theorem applyFrame_keeps (s : State) (b : Nat) (f : OFrame) : Keeps applyFrame_may s (applyFrame s b f) := by
  unfold applyFrame
  extract_lets +onlyGivenNames x0
  have h0 : Keeps applyFrame_may s x0 := by
    refine Keeps.forAll (Keeps.refl _ _) fun _ _ h1 => ?_
    exact Keeps.step h1 (modChan_keeps ..) (by decide)
  clear_value x0
  extract_lets +onlyGivenNames _
  refine Keeps.ite ?_ ?_
  · refine Keeps.forAll h0 fun _ _ h3 => ?_
    exact Keeps.step h3 (takeSafe_keeps ..) (by decide)
  extract_lets +onlyGivenNames _
  extract_lets +onlyGivenNames x5
  have h5 : Keeps applyFrame_may s x5 := Keeps.ite (Keeps.step h0 (setBank_keeps ..) (by decide)) h0
  clear_value x5
  extract_lets +onlyGivenNames x6
  have h6 : Keeps applyFrame_may s x6 := by
    refine Keeps.forAll h5 fun _ _ h7 => ?_
    exact Keeps.step h7 (takeOut_keeps ..) (by decide)
  clear_value x6
  refine Keeps.ite ?_ ?_
  · refine Keeps.step ?_ (safeEvent_keeps ..) (by decide)
    refine Keeps.forAll h6 fun _ _ h8 => ?_
    exact Keeps.step h8 (setDiagBit_keeps ..) (by decide)
  refine Keeps.forAll h6 fun _ _ h9 => ?_
  exact Keeps.step h9 (redoDiag_keeps ..) (by decide)

theorem releaseMet_keeps (s : State) (b : Nat) : Keeps [.banks] s (releaseMet s b) := by
  unfold releaseMet
  refine Keeps.forAll (Keeps.refl _ _) fun _ _ h0 => ?_
  exact Keeps.ite (Keeps.step h0 (dropCause_keeps ..) (by decide)) h0

theorem autoClear_keeps (s : State) (b : Nat) : Keeps [.banks] s (autoClear s b) := by
  unfold autoClear
  exact Keeps.ite (Keeps.step (Keeps.refl _ _) (releaseMet_keeps ..) (by decide)) (Keeps.refl _ _)

theorem bankHeard_keeps (s : State) (b : Nat) : Keeps [.banks] s (bankHeard s b) := by
  unfold bankHeard
  exact Keeps.step (Keeps.step (Keeps.refl _ _) (modBank_keeps ..) (by decide)) (autoClear_keeps ..) (by decide)

theorem stopDriving_keeps (s : State) (b : Nat) : Keeps [.regs, .pts, .ch, .evq, .can, .ble] s (stopDriving s b) := by
  unfold stopDriving
  refine Keeps.forAll (Keeps.refl _ _) fun _ _ h0 => ?_
  extract_lets +onlyGivenNames x1
  have h1 : Keeps [.regs, .pts, .ch, .evq, .can, .ble] s x1 := by
    refine Keeps.ite (Keeps.step (Keeps.step (Keeps.step h0 (setB_keeps ..) (by decide)) (setB_keeps ..) (by decide))
        (setB_keeps ..) (by decide)) ?_
    exact h0
  clear_value x1
  exact Keeps.step (Keeps.step h1 (redoStage_keeps ..) (by decide)) (redoDiag_keeps ..) (by decide)

abbrev bankHold_may : List Piece := [.regs, .pts, .banks, .ch, .evq, .can, .ble]

theorem bankHold_keeps (s : State) (b : Nat) (ownRise : Bool) (peerRise : Bool) : Keeps bankHold_may s (bankHold s b ownRise
    peerRise) := by
  unfold bankHold
  extract_lets +onlyGivenNames _
  extract_lets +onlyGivenNames _
  extract_lets +onlyGivenNames _
  extract_lets +onlyGivenNames x3
  have h3 : Keeps bankHold_may s x3 := Keeps.step (Keeps.refl _ _) (setBank_keeps ..) (by decide)
  clear_value x3
  refine Keeps.ite h3 ?_
  refine Keeps.ite ?_ ?_
  · refine Keeps.forAll h3 fun _ _ h4 => ?_
    exact Keeps.step (Keeps.step h4 (redoStage_keeps ..) (by decide)) (redoDiag_keeps ..) (by decide)
  exact Keeps.step h3 (stopDriving_keeps ..) (by decide)

theorem sendFrame_keeps (s : State) (b : Nat) (kind : Nat) (body : List Word) : Keeps [.banks, .out] s (sendFrame s b kind
    body) := by
  unfold sendFrame
  extract_lets +onlyGivenNames _
  extract_lets +onlyGivenNames x1
  have h1 : Keeps [.banks, .out] s x1 := Keeps.step (Keeps.refl _ _) (modBank_keeps ..) (by decide)
  clear_value x1
  exact Keeps.step h1 (emit_keeps ..) (by decide)

theorem noteDrive_keeps (s : State) (b : Nat) (f : OFrame) : Keeps [.ch] s (noteDrive s b f) := by
  unfold noteDrive
  refine Keeps.ite (Keeps.refl _ _) ?_
  refine Keeps.forAll (Keeps.refl _ _) fun _ _ h0 => ?_
  extract_lets +onlyGivenNames _
  exact Keeps.ite (Keeps.step h0 (modChan_keeps ..) (by decide)) h0

theorem sendOutput_keeps (s : State) (b : Nat) (presets : List (Nat × Word)) : Keeps [.banks, .ch, .out] s (sendOutput s b
    presets) := by
  unfold sendOutput
  extract_lets +onlyGivenNames _
  extract_lets +onlyGivenNames x1
  have h1 : Keeps [.banks, .ch, .out] s x1 := Keeps.step (Keeps.refl _ _) (noteDrive_keeps ..) (by decide)
  clear_value x1
  extract_lets +onlyGivenNames x2
  have h2 : Keeps [.banks, .ch, .out] s x2 := Keeps.step h1 (modBank_keeps ..) (by decide)
  clear_value x2
  exact Keeps.step h2 (sendFrame_keeps ..) (by decide)

theorem commitPoints_keeps (s : State) (ids : List Nat) : Keeps [.banks, .ch, .out] s (commitPoints s ids) := by
  unfold commitPoints
  refine Keeps.forAll (Keeps.refl _ _) fun _ _ h0 => ?_
  exact Keeps.ite (Keeps.step h0 (sendOutput_keeps ..) (by decide)) h0

theorem commitWrites_keeps (s : State) (ws : List (Nat × Word)) : Keeps [.banks, .ch, .out] s (commitWrites s ws) := by
  unfold commitWrites
  refine Keeps.forAll (Keeps.refl _ _) fun _ _ h0 => ?_
  extract_lets +onlyGivenNames _
  exact Keeps.ite (Keeps.step h0 (sendOutput_keeps ..) (by decide)) h0

theorem downErr_keeps (s : State) (b : Nat) : Keeps [.regs] s (downErr s b) := by
  unfold downErr
  extract_lets +onlyGivenNames _
  exact Keeps.step (Keeps.refl _ _) (rsetFld_keeps ..) (by decide)

theorem gotFrame_keeps (s : State) (b : Nat) : Keeps [.banks] s (gotFrame s b) := by
  unfold gotFrame
  exact Keeps.step (Keeps.refl _ _) (modBank_keeps ..) (by decide)

theorem hwSafe_keeps (s : State) : Keeps [.regs, .pts, .hold, .banks, .ch, .evq, .can, .ble] s (hwSafe s) := by
  unfold hwSafe
  exact Keeps.step (Keeps.holdOut (Keeps.refl _ _) (by decide)) (allCause_keeps ..) (by decide)

abbrev logicHeard_may : List Piece := [.regs, .pts, .banks, .ch, .evq, .can, .ble]

theorem logicHeard_keeps (s : State) (b : Nat) : Keeps logicHeard_may s (logicHeard s b) := by
  unfold logicHeard
  extract_lets +onlyGivenNames _
  extract_lets +onlyGivenNames x1
  have h1 : Keeps logicHeard_may s x1 := Keeps.step (Keeps.refl _ _) (modBank_keeps ..) (by decide)
  clear_value x1
  extract_lets +onlyGivenNames x2
  have h2 : Keeps logicHeard_may s x2 := by
    refine Keeps.ite h1 ?_
    refine Keeps.forAll h1 fun _ _ h3 => ?_
    exact Keeps.step h3 (putDiag_keeps ..) (by decide)
  clear_value x2
  exact Keeps.step h2 (autoClear_keeps ..) (by decide)

theorem putSig_keeps (s : State) (c : Nat) (v : Word) : Keeps [.pts, .ch, .can, .ble] s (putSig s c v) := by
  unfold putSig
  exact Keeps.step (Keeps.step (Keeps.refl _ _) (modChan_keeps ..) (by decide)) (pset_keeps ..) (by decide)

theorem readAnIn_keeps (s : State) (c : Nat) (v : Conv) (tr : Bool) (raw : Word) : Keeps [.regs, .pts, .ch, .evq, .can, .ble] s
    (readAnIn s c v tr raw) := by
  unfold readAnIn
  extract_lets +onlyGivenNames _
  extract_lets +onlyGivenNames _
  extract_lets +onlyGivenNames _
  extract_lets +onlyGivenNames _
  extract_lets +onlyGivenNames _
  extract_lets +onlyGivenNames _
  extract_lets +onlyGivenNames x6
  have h6 : Keeps [.regs, .pts, .ch, .evq, .can, .ble] s x6 := Keeps.step (Keeps.refl _ _) (putSig_keeps ..) (by decide)
  clear_value x6
  extract_lets +onlyGivenNames x7
  have h7 : Keeps [.regs, .pts, .ch, .evq, .can, .ble] s x7 := Keeps.step h6 (modChan_keeps ..) (by decide)
  clear_value x7
  refine Keeps.ite (Keeps.step h7 (putDiag_keeps ..) (by decide)) ?_
  extract_lets +onlyGivenNames _
  extract_lets +onlyGivenNames x9
  have h9 : Keeps [.regs, .pts, .ch, .evq, .can, .ble] s x9 := Keeps.step h7 (putDiag_keeps ..) (by decide)
  clear_value x9
  refine Keeps.ite h9 ?_
  refine Keeps.ite (Keeps.step (Keeps.step h9 (pset_keeps ..) (by decide)) (modChan_keeps ..) (by decide)) ?_
  exact Keeps.ite (Keeps.step h9 (pset_keeps ..) (by decide)) h9

theorem readOpen_keeps (s : State) (c : Nat) : Keeps [.regs, .pts, .ch, .evq, .can, .ble] s (readOpen s c) := by
  unfold readOpen
  extract_lets +onlyGivenNames x0
  have h0 : Keeps [.regs, .pts, .ch, .evq, .can, .ble] s x0 := Keeps.step (Keeps.step (Keeps.refl _ _) (putSig_keeps ..) (by
      decide)) (modChan_keeps ..) (by
      decide)
  clear_value x0
  exact Keeps.step h0 (putDiag_keeps ..) (by decide)

theorem readChan_keeps (s : State) (c : Nat) (unit : Nat) (k : Conv) (v : Word) (raw : Word) : Keeps [.regs, .pts, .ch, .evq,
    .can, .ble] s (readChan s c unit k v raw) := by
  unfold readChan
  extract_lets +onlyGivenNames _
  refine Keeps.ite (Keeps.step (Keeps.refl _ _) (putDiag_keeps ..) (by decide)) ?_
  refine Keeps.ite ?_ ?_
  · refine Keeps.ite (Keeps.refl _ _) ?_
    extract_lets +onlyGivenNames x1
    have h1 : Keeps [.regs, .pts, .ch, .evq, .can, .ble] s x1 := Keeps.step (Keeps.step (Keeps.refl _ _) (putDiag_keeps ..) (by
        decide)) (modChan_keeps ..) (by
        decide)
    clear_value x1
    exact Keeps.step h1 (pset_keeps ..) (by decide)
  refine Keeps.ite ?_ ?_
  · refine Keeps.ite (Keeps.step (Keeps.refl _ _) (readOpen_keeps ..) (by decide)) ?_
    refine Keeps.ite (Keeps.step (Keeps.refl _ _) (putDiag_keeps ..) (by decide)) ?_
    exact Keeps.step (Keeps.refl _ _) (readAnIn_keeps ..) (by decide)
  refine Keeps.ite ?_ ?_
  · extract_lets +onlyGivenNames x2
    have h2 : Keeps [.regs, .pts, .ch, .evq, .can, .ble] s x2 := Keeps.ite (Keeps.refl _ _) (Keeps.step (Keeps.refl _ _)
        (putSig_keeps ..) (by decide))
    clear_value x2
    exact Keeps.step h2 (putDiag_keeps ..) (by decide)
  exact Keeps.step (Keeps.refl _ _) (putDiag_keeps ..) (by decide)

abbrev setHold_may : List Piece := [.regs, .pts, .base, .hold, .banks, .ch, .evq, .can, .ble]

theorem setHold_keeps (s : State) (own : Bool) (peer : Bool) : Keeps setHold_may s (setHold s own peer) := by
  unfold setHold
  extract_lets +onlyGivenNames _
  extract_lets +onlyGivenNames _
  extract_lets +onlyGivenNames -merge -useContext _ x2
  have h2 : Keeps setHold_may s x2 := Keeps.baseHold (Keeps.refl _ _) (by decide) (by decide)
  clear_value x2
  refine Keeps.forAll h2 fun _ _ h3 => ?_
  exact Keeps.step h3 (bankHold_keeps ..) (by decide)

theorem takeDiag_keeps (s : State) (c : Nat) : Keeps [.regs, .pts, .ch, .evq, .can, .ble] s (takeDiag s c) := by
  unfold takeDiag
  extract_lets +onlyGivenNames _
  exact Keeps.step (Keeps.refl _ _) (putDiag_keeps ..) (by decide)

theorem upErr_keeps (s : State) (b : Nat) : Keeps [.regs] s (upErr s b) := by
  unfold upErr
  extract_lets +onlyGivenNames _
  exact Keeps.step (Keeps.refl _ _) (rsetFld_keeps ..) (by decide)

end Sys2Proof.Laws
end

