-- ==== Sys2Proof/Laws/KeepsSched.lean ====
section
/-! SUPPORT. For every operation of Machine/Sched.lean: the pieces of the state it may change; every other piece is exactly
what it was. -/

namespace Sys2Proof.Laws

open Machine

theorem beginSlew_keeps (s : State) : Keeps [.phc] s (beginSlew s) := by
  unfold beginSlew
  extract_lets +onlyGivenNames _
  exact Keeps.phc (Keeps.refl _ _) (by decide)

theorem fireEntry_keeps {s t : State} {n a : Nat} {w : Word} (h : fireEntry s n a = some (w, t)) : Keeps [.phc] s t := by
  unfold fireEntry at h
  split at h
  · cases h
    exact (Keeps.refl _ _).phc (by decide)
  · cases h

theorem renominal_keeps (s : State) (old : Nat) : Keeps [.phc] s (renominal s old) := by
  unfold renominal
  exact Keeps.ite (Keeps.step (Keeps.refl _ _) (beginSlew_keeps ..) (by decide)) (Keeps.refl _ _)

theorem phcApply_keeps (s : State) : Keeps [.regs, .live, .phc] s (phcApply s) := by
  unfold phcApply
  extract_lets +onlyGivenNames -merge -useContext _ x0
  have h0 : Keeps [.regs, .live, .phc] s x0 := Keeps.phc (Keeps.refl _ _) (by decide)
  clear_value x0
  extract_lets +onlyGivenNames _
  extract_lets +onlyGivenNames x2
  have h2 : Keeps [.regs, .live, .phc] s x2 := Keeps.step (Keeps.live h0 (by decide)) (renominal_keeps ..) (by decide)
  clear_value x2
  exact Keeps.step h2 (rset_keeps ..) (by decide)

theorem phcRefuse_keeps (s : State) (code : Nat) (ctrl : Bool) (idx : Nat) : Keeps [.regs] s (phcRefuse s code ctrl idx) := by
  unfold phcRefuse
  exact Keeps.step (Keeps.refl _ _) (rset_keeps ..) (by decide)

end Sys2Proof.Laws
end

