-- ==== Sys2Proof/Laws/KeepsWatches.lean ====
section
/-! SUPPORT. For every operation of Machine/Watches.lean: the pieces of the state it may change; every other piece is exactly
what it was. -/

namespace Sys2Proof.Laws

open Machine

theorem settle_keeps (s : State) : Keeps [.hold] s (settle s) := by
  unfold settle
  exact Keeps.ite ((Keeps.refl _ _).holdOut (by decide)) (Keeps.refl _ _)

theorem watchReport_keeps (s : State) (w : Watch) : Keeps [.evq] s (watchReport s w).1 := by
  unfold watchReport
  exact (Keeps.refl _ _).step (pushEv_keeps ..) (by decide)

theorem watchOne_keeps (a : State × List Watch) (w : Watch) : Keeps [.evq] a.1 (watchOne a w).1 := by
  unfold watchOne
  dsimp only
  split
  · exact Keeps.refl _ _
  split
  · exact Keeps.refl _ _
  · exact watchReport_keeps ..

theorem watchScan_keeps (s : State) : Keeps [.evq, .watches] s (watchScan s) := by
  unfold watchScan
  split
  · exact Keeps.refl _ _
  · refine Keeps.watches ?_ (by decide)
    refine Keeps.foldl_fst (Keeps.refl _ _) fun q a h => ?_
    exact h.step (watchOne_keeps ..) (by decide)

end Sys2Proof.Laws
end

