-- ==== Sys2Proof/Laws/KeepsRingBase.lean ====
section
/-! SUPPORT. For every operation of Machine/RingBase.lean: the pieces of the state it may change; every other piece is exactly
what it was. -/

namespace Sys2Proof.Laws

open Machine

theorem setRing_keeps (s : State) (n : Nat) (r : Ring) : Keeps [.rings] s (setRing s n r) := by
  unfold setRing
  exact Keeps.rings (Keeps.refl _ _) (by decide)

theorem closeRing_keeps (s : State) (n : Nat) : Keeps [.rings] s (closeRing s n) := by
  unfold closeRing
  extract_lets +onlyGivenNames _
  exact Keeps.ite (Keeps.step (Keeps.refl _ _) (setRing_keeps ..) (by decide)) (Keeps.refl _ _)

theorem modRing_keeps (s : State) (n : Nat) (f : Ring → Ring) : Keeps [.rings] s (modRing s n f) := by
  unfold modRing
  exact Keeps.step (Keeps.refl _ _) (setRing_keeps ..) (by decide)

theorem stepCq_keeps (s : State) (n : Nat) : Keeps [.rings] s (stepCq s n) := by
  unfold stepCq
  extract_lets +onlyGivenNames _
  exact Keeps.step (Keeps.refl _ _) (modRing_keeps ..) (by decide)

theorem raiseVec_keeps (s : State) (v : Nat) : Keeps [.msixPend, .out] s (raiseVec s v) := by
  unfold raiseVec
  refine Keeps.ite (Keeps.msixPend (Keeps.refl _ _) (by decide)) ?_
  exact Keeps.step (Keeps.refl _ _) (emit_keeps ..) (by decide)

theorem countIntr_keeps (s : State) (n : Nat) : Keeps [.rings, .msixPend, .out] s (countIntr s n) := by
  unfold countIntr
  extract_lets +onlyGivenNames _
  extract_lets +onlyGivenNames _
  refine Keeps.ite (Keeps.step (Keeps.step (Keeps.refl _ _) (modRing_keeps ..) (by decide)) (raiseVec_keeps ..) (by decide)) ?_
  exact Keeps.step (Keeps.refl _ _) (modRing_keeps ..) (by decide)

theorem writeCompletion_keeps (s : State) (n : Nat) (f : Flight) (status : Nat) (r0 : Word) (r1 : Word) (detail : Word) (ts :
    Nat) : Keeps [.rings, .msixPend, .out] s (writeCompletion s n f status r0 r1 detail ts) := by
  unfold writeCompletion
  extract_lets +onlyGivenNames _
  extract_lets +onlyGivenNames _
  extract_lets +onlyGivenNames _
  extract_lets +onlyGivenNames _
  extract_lets +onlyGivenNames x4
  have h4 : Keeps [.rings, .msixPend, .out] s x4 := Keeps.step (Keeps.refl _ _) (emit_keeps ..) (by decide)
  clear_value x4
  extract_lets +onlyGivenNames x5
  have h5 : Keeps [.rings, .msixPend, .out] s x5 := Keeps.step h4 (stepCq_keeps ..) (by decide)
  clear_value x5
  extract_lets +onlyGivenNames x6
  have h6 : Keeps [.rings, .msixPend, .out] s x6 := Keeps.step h5 (modRing_keeps ..) (by decide)
  clear_value x6
  exact Keeps.ite h6 (Keeps.step h6 (countIntr_keeps ..) (by decide))

theorem notExecuted_keeps (s : State) (n : Nat) (l : List Flight) : Keeps [.rings, .msixPend, .out] s (notExecuted s n l) := by
  unfold notExecuted
  refine Keeps.forAll (Keeps.refl _ _) fun _ _ h0 => ?_
  exact Keeps.step h0 (writeCompletion_keeps ..) (by decide)

theorem haltRing_keeps (s : State) (n : Nat) : Keeps [.rings, .msixPend, .out] s (haltRing s n) := by
  unfold haltRing
  extract_lets +onlyGivenNames _
  extract_lets +onlyGivenNames x1
  have h1 : Keeps [.rings, .msixPend, .out] s x1 := Keeps.step (Keeps.refl _ _) (modRing_keeps ..) (by decide)
  clear_value x1
  exact Keeps.step h1 (notExecuted_keeps ..) (by decide)

theorem complete_keeps (s : State) (n : Nat) (f : Flight) (status : Nat) (r0 : Word) (r1 : Word) (detail : Word) : Keeps
    [.rings, .msixPend, .out] s (complete s n f status r0 r1 detail) := by
  unfold complete
  extract_lets +onlyGivenNames x0
  have h0 : Keeps [.rings, .msixPend, .out] s x0 := Keeps.step (Keeps.refl _ _) (writeCompletion_keeps ..) (by decide)
  clear_value x0
  extract_lets +onlyGivenNames x1
  have h1 : Keeps [.rings, .msixPend, .out] s x1 := Keeps.ite h0 (Keeps.step h0 (haltRing_keeps ..) (by decide))
  clear_value x1
  exact Keeps.step h1 (closeRing_keeps ..) (by decide)

theorem completeAll_keeps (s : State) (p : Flight → Bool) (status : Nat) (r0 : Word) (r1 : Word) (detail : Word) : Keeps
    [.rings, .msixPend, .out] s (completeAll s p status r0 r1 detail) := by
  unfold completeAll
  refine Keeps.forAll (Keeps.refl _ _) fun _ _ h0 => ?_
  exact Keeps.step h0 (complete_keeps ..) (by decide)

theorem completeOut_keeps (s : State) (n : Nat) (f : Flight) (data : List Word) (r0 : Word) (r1 : Word) (ts : Nat) : Keeps
    [.rings, .msixPend, .out] s (completeOut s n f data r0 r1 ts) := by
  unfold completeOut
  extract_lets +onlyGivenNames x0
  have h0 : Keeps [.rings, .msixPend, .out] s x0 := Keeps.step (Keeps.refl _ _) (emit_keeps ..) (by decide)
  clear_value x0
  exact Keeps.step (Keeps.step h0 (writeCompletion_keeps ..) (by decide)) (closeRing_keeps ..) (by decide)

theorem completeTs_keeps (s : State) (n : Nat) (f : Flight) (ts : Nat) : Keeps [.rings, .msixPend, .out] s (completeTs s n f
    ts) := by
  unfold completeTs
  exact Keeps.step (Keeps.step (Keeps.refl _ _) (writeCompletion_keeps ..) (by decide)) (closeRing_keeps ..) (by decide)

theorem loseEvent_keeps (s : State) (n : Nat) (cls : Nat) : Keeps [.regs, .rings] s (loseEvent s n cls) := by
  unfold loseEvent
  extract_lets +onlyGivenNames x0
  have h0 : Keeps [.regs, .rings] s x0 := Keeps.step (Keeps.refl _ _) (modRing_keeps ..) (by decide)
  clear_value x0
  exact Keeps.step h0 (ror_keeps ..) (by decide)

theorem writeRecord_keeps (s : State) (n : Nat) (code : Nat) (part : Nat) (cls : Nat) (ts : Nat) (body : List Word) : Keeps
    [.rings, .msixPend, .out] s (writeRecord s n code part cls ts body) := by
  unfold writeRecord
  extract_lets +onlyGivenNames _
  extract_lets +onlyGivenNames _
  extract_lets +onlyGivenNames _
  extract_lets +onlyGivenNames _
  extract_lets +onlyGivenNames x4
  have h4 : Keeps [.rings, .msixPend, .out] s x4 := Keeps.step (Keeps.refl _ _) (emit_keeps ..) (by decide)
  clear_value x4
  exact Keeps.step (Keeps.step (Keeps.step h4 (modRing_keeps ..) (by decide)) (stepCq_keeps ..) (by decide)) (countIntr_keeps
      ..) (by decide)

theorem tellLost_keeps (s : State) (n : Nat) : Keeps [.rings, .msixPend, .out] s (tellLost s n) := by
  unfold tellLost
  extract_lets +onlyGivenNames _
  refine Keeps.ite (Keeps.refl _ _) ?_
  extract_lets +onlyGivenNames x1
  have h1 : Keeps [.rings, .msixPend, .out] s x1 := Keeps.step (Keeps.refl _ _) (modRing_keeps ..) (by decide)
  clear_value x1
  extract_lets +onlyGivenNames _
  exact Keeps.step h1 (writeRecord_keeps ..) (by decide)

theorem giveEvent_keeps (s : State) (n : Nat) (e : Ev) : Keeps [.regs, .rings, .msixPend, .out] s (giveEvent s n e) := by
  unfold giveEvent
  extract_lets +onlyGivenNames x0
  have h0 : Keeps [.regs, .rings, .msixPend, .out] s x0 := Keeps.step (Keeps.refl _ _) (tellLost_keeps ..) (by decide)
  clear_value x0
  refine Keeps.ite (Keeps.step h0 (loseEvent_keeps ..) (by decide)) ?_
  exact Keeps.step h0 (writeRecord_keeps ..) (by decide)

theorem deliver_keeps (s : State) (e : Ev) : Keeps [.regs, .rings, .msixPend, .out] s (deliver s e) := by
  unfold deliver
  refine Keeps.forAll (Keeps.refl _ _) fun _ _ h0 => ?_
  exact Keeps.ite (Keeps.step h0 (giveEvent_keeps ..) (by decide)) h0

theorem dropRecord_keeps (s : State) (cls : Nat) : Keeps [.regs, .evq, .recLost, .recLostCls] s (dropRecord s cls) := by
  unfold dropRecord
  extract_lets +onlyGivenNames x0
  have h0 : Keeps [.regs, .evq, .recLost, .recLostCls] s x0 := Keeps.step (Keeps.refl _ _) (rinc_keeps ..) (by decide)
  clear_value x0
  extract_lets +onlyGivenNames x1
  have h1 : Keeps [.regs, .evq, .recLost, .recLostCls] s x1 := by
    refine Keeps.many (t := x0) ?_ rfl (fun p hp => by cases p <;> first | rfl | exact absurd (by decide) hp)
    exact h0
  clear_value x1
  exact Keeps.step h1 (raiseBoth_keeps ..) (by decide)

theorem enqueueRec_keeps (s : State) (e : Ev) : Keeps [.regs, .evq, .recq, .recLost, .recLostCls] s (enqueueRec s e) := by
  unfold enqueueRec
  refine Keeps.ite (Keeps.step (Keeps.refl _ _) (dropRecord_keeps ..) (by decide)) ?_
  exact Keeps.recq (Keeps.refl _ _) (by decide)

abbrev flushEvents_may : List Piece := [.regs, .rings, .evq, .recq, .recLost, .recLostCls, .msixPend, .out]

theorem flushEvents_keeps (s : State) : Keeps flushEvents_may s (flushEvents s) := by
  unfold flushEvents
  refine Keeps.forAll (Keeps.evq (Keeps.refl _ _) (by decide)) fun _ _ h0 => ?_
  extract_lets +onlyGivenNames x1
  have h1 : Keeps flushEvents_may s x1 := Keeps.ite (Keeps.step h0 (deliver_keeps ..) (by decide)) h0
  clear_value x1
  exact Keeps.ite (Keeps.step h1 (enqueueRec_keeps ..) (by decide)) h1

abbrev recorderStep_may : List Piece := [.recq, .recSlots, .recNext, .recLost, .recLostCls]

theorem recorderStep_keeps (s : State) : Keeps recorderStep_may s (recorderStep s) := by
  unfold recorderStep
  split
  · exact Keeps.refl _ _
  · extract_lets +onlyGivenNames x0
    have h0 : Keeps recorderStep_may s x0 := Keeps.recSlots (Keeps.refl _ _) (by decide)
    clear_value x0
    refine Keeps.ite (Keeps.recq h0 (by decide)) ?_
    extract_lets +onlyGivenNames x1
    have h1 : Keeps recorderStep_may s x1 := by
      refine Keeps.many (t := x0) ?_ rfl (fun p hp => by cases p <;> first | rfl | exact absurd (by decide) hp)
      exact h0
    clear_value x1
    refine Keeps.ite h1 ?_
    extract_lets +onlyGivenNames _
    refine Keeps.many (t := x1) ?_ rfl (fun p hp => by cases p <;> first | rfl | exact absurd (by decide) hp)
    exact h1

theorem recorderDrain_keeps (s : State) : Keeps [.recq, .recSlots, .recNext, .recLost, .recLostCls] s (recorderDrain s) := by
  unfold recorderDrain
  refine Keeps.forAll (Keeps.refl _ _) fun _ _ h0 => ?_
  exact Keeps.step h0 (recorderStep_keeps ..) (by decide)

end Sys2Proof.Laws
end

