-- ==== Sys2Proof/Laws/KeepsBank.lean ====
section
/-! SUPPORT. For every operation of Machine/Bank.lean: the pieces of the state it may change; every other piece is exactly
what it was. -/

namespace Sys2Proof.Laws

open Machine

theorem forceGone_keeps (s : State) (f : Force) (reason : Nat) : Keeps [.evq, .twn] s (forceGone s f reason) := by
  unfold forceGone
  extract_lets +onlyGivenNames x0
  have h0 : Keeps [.evq, .twn] s x0 := Keeps.step (Keeps.refl _ _) (noteForce_keeps ..) (by decide)
  clear_value x0
  exact Keeps.step h0 (pushEv_keeps ..) (by decide)

theorem releaseForces_keeps (s : State) (p : Force → Bool) (reason : Nat) : Keeps [.evq, .forces, .twn] s (releaseForces s p
    reason) := by
  unfold releaseForces
  extract_lets +onlyGivenNames _
  refine Keeps.forAll (Keeps.forces (Keeps.refl _ _) (by decide)) fun _ _ h1 => ?_
  exact Keeps.step h1 (forceGone_keeps ..) (by decide)

abbrev modeChanged_may : List Piece := [.regs, .pts, .ch, .evq, .forces, .can, .ble, .twn]

theorem modeChanged_keeps (s : State) (c : Nat) : Keeps modeChanged_may s (modeChanged s c) := by
  unfold modeChanged
  extract_lets +onlyGivenNames _
  extract_lets +onlyGivenNames x1
  have h1 : Keeps modeChanged_may s x1 := Keeps.step (Keeps.refl _ _) (pset_keeps ..) (by decide)
  clear_value x1
  extract_lets +onlyGivenNames x2
  have h2 : Keeps modeChanged_may s x2 := Keeps.step h1 (putSig_keeps ..) (by decide)
  clear_value x2
  extract_lets +onlyGivenNames x3
  have h3 : Keeps modeChanged_may s x3 := Keeps.step h2 (modChan_keeps ..) (by decide)
  clear_value x3
  extract_lets +onlyGivenNames _
  extract_lets +onlyGivenNames x5
  have h5 : Keeps modeChanged_may s x5 := Keeps.step h3 (putDiag_keeps ..) (by decide)
  clear_value x5
  exact Keeps.ite (Keeps.step h5 (releaseForces_keeps ..) (by decide)) h5

abbrev bankApply_may : List Piece := [.regs, .live, .pts, .banks, .ch, .evq, .forces, .can, .ble, .twn]

theorem bankApply_keeps (s : State) (b : Nat) : Keeps bankApply_may s (bankApply s b) := by
  unfold bankApply
  extract_lets +onlyGivenNames _
  extract_lets +onlyGivenNames x1
  have h1 : Keeps bankApply_may s x1 := Keeps.live (Keeps.refl _ _) (by decide)
  clear_value x1
  extract_lets +onlyGivenNames _
  extract_lets +onlyGivenNames x3
  have h3 : Keeps bankApply_may s x3 := Keeps.step h1 (rset_keeps ..) (by decide)
  clear_value x3
  extract_lets +onlyGivenNames x4
  have h4 : Keeps bankApply_may s x4 := by
    refine Keeps.forAll h3 fun _ _ h5 => ?_
    exact Keeps.ite h5 (Keeps.step h5 (modeChanged_keeps ..) (by decide))
  clear_value x4
  exact Keeps.step (Keeps.step h4 (modBank_keeps ..) (by decide)) (noteMirror_keeps ..) (by decide)

theorem bankRefuse_keeps (s : State) (b : Nat) (ch : Nat) (code : Nat) : Keeps [.regs] s (bankRefuse s b ch code) := by
  unfold bankRefuse
  extract_lets +onlyGivenNames _
  exact Keeps.step (Keeps.refl _ _) (rset_keeps ..) (by decide)

abbrev bankCommitNow_may : List Piece := [.regs, .live, .pts, .banks, .ch, .rings, .evq, .msixPend, .forces, .can, .ble, .twn,
    .out]

theorem bankCommitNow_keeps (s : State) (b : Nat) : Keeps bankCommitNow_may s (bankCommitNow s b) := by
  unfold bankCommitNow
  split
  · extract_lets +onlyGivenNames x0
    have h0 : Keeps bankCommitNow_may s x0 := Keeps.step (Keeps.refl _ _) (bankApply_keeps ..) (by decide)
    clear_value x0
    exact Keeps.step h0 (completeAll_keeps ..) (by decide)
  · extract_lets +onlyGivenNames x1
    have h1 : Keeps bankCommitNow_may s x1 := Keeps.step (Keeps.refl _ _) (bankRefuse_keeps ..) (by decide)
    clear_value x1
    exact Keeps.step h1 (completeAll_keeps ..) (by decide)

theorem bankMode_keeps (s : State) (c : Nat) (restart : Bool) : Keeps [.ch] s (bankMode s c restart) := by
  unfold bankMode
  extract_lets +onlyGivenNames _
  extract_lets +onlyGivenNames x1
  have h1 : Keeps [.ch] s x1 := Keeps.step (Keeps.refl _ _) (modChan_keeps ..) (by decide)
  clear_value x1
  extract_lets +onlyGivenNames x2
  have h2 : Keeps [.ch] s x2 := Keeps.ite (Keeps.step h1 (setB_keeps ..) (by decide)) h1
  clear_value x2
  exact Keeps.ite (Keeps.step h2 (safeChan_keeps ..) (by decide)) h2

theorem bankRequest_keeps (s : State) (b : Nat) : Keeps [.regs, .banks] s (bankRequest s b) := by
  unfold bankRequest
  refine Keeps.ite (Keeps.refl _ _) ?_
  exact Keeps.step (Keeps.step (Keeps.refl _ _) (ror_keeps ..) (by decide)) (modBank_keeps ..) (by decide)

theorem clipFilter_keeps (s : State) (c : Nat) : Keeps [.ch] s (clipFilter s c) := by
  unfold clipFilter
  extract_lets +onlyGivenNames _
  exact Keeps.ite (Keeps.step (Keeps.refl _ _) (modChan_keeps ..) (by decide)) (Keeps.refl _ _)

theorem hold_keeps (s : State) (b : Nat) (f : Option Nat) : Keeps [.banks] s (hold s b f) := by
  unfold hold
  exact Keeps.step (Keeps.refl _ _) (modBank_keeps ..) (by decide)

theorem latchBatch_keeps (s : State) (b : Nat) (unit : Nat) : Keeps [.banks] s (latchBatch s b unit) := by
  unfold latchBatch
  extract_lets +onlyGivenNames _
  exact Keeps.step (Keeps.refl _ _) (modBank_keeps ..) (by decide)

theorem convert_keeps (s : State) (mask : Word) : Keeps [.banks] s (convert s mask) := by
  unfold convert
  refine Keeps.forAll (Keeps.refl _ _) fun _ _ h0 => ?_
  refine Keeps.ite (Keeps.ite (Keeps.step h0 (hold_keeps ..) (by decide)) (Keeps.step h0 (latchBatch_keeps ..) (by decide))) ?_
  exact h0

theorem execBankCommitPoint_keeps (b : Fin 12) (s : State) : ∃ u, execBankCommitPoint b s = .next (close s u) ∧ Keeps [.regs,
    .live, .pts, .banks, .ch, .rings, .evq, .msixPend, .forces, .can, .ble, .twn, .out] s u := by
  refine ⟨_, rfl, ?_⟩
  exact Keeps.ite (Keeps.step (Keeps.refl _ _) (bankCommitNow_keeps ..) (by decide)) (Keeps.refl _ _)

abbrev execBankControllerReset_may : List Piece := [.regs, .pts, .banks, .ch, .evq, .can, .ble]

theorem execBankControllerReset_keeps (b : Fin 12) (s : State) : ∃ u, execBankControllerReset b s = .next (close s u) ∧ Keeps
    execBankControllerReset_may s u := by
  refine ⟨_, rfl, ?_⟩
  extract_lets +onlyGivenNames x0
  have h0 : Keeps execBankControllerReset_may s x0 := Keeps.step (Keeps.refl _ _) (modBank_keeps ..) (by decide)
  clear_value x0
  refine Keeps.forAll h0 fun _ _ h1 => ?_
  exact Keeps.step (Keeps.step h1 (modChan_keeps ..) (by decide)) (redoDiag_keeps ..) (by decide)

theorem keepAlive_keeps (s : State) (b : Nat) (ok : Bool) : Keeps [.regs, .banks, .out] s (keepAlive s b ok) := by
  unfold keepAlive
  refine Keeps.ite (Keeps.refl _ _) ?_
  extract_lets +onlyGivenNames x0
  have h0 : Keeps [.regs, .banks, .out] s x0 := Keeps.step (Keeps.refl _ _) (sendFrame_keeps ..) (by decide)
  clear_value x0
  refine Keeps.ite (Keeps.step h0 (downErr_keeps ..) (by decide)) ?_
  exact Keeps.ite (Keeps.step h0 (bankHeard_keeps ..) (by decide)) h0

theorem execBankLinkKeepalive_keeps (b : Fin 12) (ok : Bool) (s : State) : ∃ u, execBankLinkKeepalive b ok s = .next (close s
    u) ∧ Keeps [.regs, .banks, .out] s u := by
  refine ⟨_, rfl, ?_⟩
  exact Keeps.step (Keeps.refl _ _) (keepAlive_keeps ..) (by decide)

abbrev execBankOvertemp_may : List Piece := [.regs, .pts, .banks, .ch, .evq, .can, .ble]

theorem execBankOvertemp_keeps (b : Fin 12) (s : State) : ∃ u, execBankOvertemp b s = .next (close s u) ∧ Keeps
    execBankOvertemp_may s u := by
  refine ⟨_, rfl, ?_⟩
  refine Keeps.ite (Keeps.refl _ _) ?_
  extract_lets +onlyGivenNames _
  extract_lets +onlyGivenNames x1
  have h1 : Keeps execBankOvertemp_may s x1 := Keeps.step (Keeps.step (Keeps.refl _ _) (modBank_keeps ..) (by decide))
      (addCause_keeps ..) (by
      decide)
  clear_value x1
  exact Keeps.ite h1 (Keeps.step h1 (bankEvent_keeps ..) (by decide))

theorem execBankStart_keeps (b : Fin 12) (s : State) : ∃ u, execBankStart b s = .next (close s u) ∧ Keeps [.regs, .pts, .banks,
    .ch, .evq, .can, .ble] s u := by
  refine ⟨_, rfl, ?_⟩
  refine Keeps.ite (Keeps.refl _ _) ?_
  exact Keeps.step (Keeps.step (Keeps.refl _ _) (modBank_keeps ..) (by decide)) (addCause_keeps ..) (by decide)

theorem execBankWatchdogExpiry_keeps (b : Fin 12) (s : State) : ∃ u, execBankWatchdogExpiry b s = .next (close s u) ∧ Keeps
    [.regs, .pts, .banks, .ch, .evq, .can, .ble] s u := by
  refine ⟨_, rfl, ?_⟩
  refine Keeps.ite (Keeps.refl _ _) ?_
  exact Keeps.step (Keeps.step (Keeps.step (Keeps.refl _ _) (modBank_keeps ..) (by decide)) (addCause_keeps ..) (by decide))
      (bankEvent_keeps ..) (by decide)

theorem execBnkCommit_keeps (b : Fin 12) (v : Word) (s : State) : ∃ u, execBnkCommit b v s = .next (close s u) ∧ Keeps [.regs,
    .banks, .evq] s u := by
  refine ⟨_, rfl, ?_⟩
  refine Keeps.reached (Keeps.refl _ _) (fun _ h0 => ?_)
  refine Keeps.ite ?_ ?_
  · refine Keeps.unlessStandby ?_ (fun _ h1 => ?_) (by decide)
    · exact h0
    exact Keeps.step h1 (bankRequest_keeps ..) (by decide)
  exact h0

theorem execBnkRelease_keeps (b : Fin 12) (v : Word) (s : State) : ∃ u, execBnkRelease b v s = .next (close s u) ∧ Keeps
    [.banks] s u := by
  refine ⟨_, rfl, ?_⟩
  refine Keeps.reached (Keeps.refl _ _) (fun _ h0 => ?_)
  refine Keeps.ite (Keeps.step (Keeps.step h0 (dropCause_keeps ..) (by decide)) (releaseMet_keeps ..) (by decide)) ?_
  exact h0

theorem execBnkSafeCmd_keeps (b : Fin 12) (v : Word) (s : State) : ∃ u, execBnkSafeCmd b v s = .next (close s u) ∧ Keeps
    [.regs, .pts, .banks, .ch, .evq, .can, .ble] s u := by
  refine ⟨_, rfl, ?_⟩
  refine Keeps.reached (Keeps.refl _ _) (fun _ h0 => ?_)
  exact Keeps.ite (Keeps.step h0 (addCause_keeps ..) (by decide)) h0

theorem execComplianceChange_keeps (c : Fin 192) (short : Bool) (s : State) : ∃ u, execComplianceChange c short s = .next
    (close s u) ∧ Keeps [.ch] s u := by
  refine ⟨_, rfl, ?_⟩
  exact Keeps.ite (Keeps.step (Keeps.refl _ _) (setB_keeps ..) (by decide)) (Keeps.refl _ _)

theorem zcChan_keeps (s : State) (c : Nat) (a : Nat) : Keeps [.regs, .pts, .ch, .evq, .can, .ble] s (zcChan s c a) := by
  unfold zcChan
  refine Keeps.ite ?_ ?_
  · extract_lets +onlyGivenNames x0
    clear_value x0
    split
    · extract_lets +onlyGivenNames x1
      have h1 : Keeps [.regs, .pts, .ch, .evq, .can, .ble] s x1 := Keeps.step (Keeps.refl _ _) (setChan_keeps ..) (by decide)
      clear_value x1
      exact Keeps.step (Keeps.step h1 (applyNow_keeps ..) (by decide)) (redoDiag_keeps ..) (by decide)
    · exact Keeps.refl _ _
  exact Keeps.refl _ _

abbrev zcFire_may : List Piece := [.regs, .pts, .banks, .ch, .evq, .can, .ble]

theorem zcFire_keeps (s : State) (b : Nat) (a : Nat) (entry : Nat) : Keeps zcFire_may s (zcFire s b a entry) := by
  unfold zcFire
  extract_lets +onlyGivenNames _
  extract_lets +onlyGivenNames x1
  have h1 : Keeps zcFire_may s x1 := Keeps.step (Keeps.refl _ _) (modBank_keeps ..) (by decide)
  clear_value x1
  refine Keeps.ite h1 ?_
  refine Keeps.forAll h1 fun _ _ h2 => ?_
  refine Keeps.forAll h2 fun _ _ h3 => ?_
  exact Keeps.ite (Keeps.step h3 (zcChan_keeps ..) (by decide)) h3

abbrev runHeld_may : List Piece := [.regs, .pts, .banks, .ch, .evq, .can, .ble]

theorem runHeld_keeps (s : State) (b : Nat) : Keeps runHeld_may s (runHeld s b) := by
  unfold runHeld
  extract_lets +onlyGivenNames x0
  clear_value x0
  extract_lets +onlyGivenNames x1
  have h1 : Keeps runHeld_may s x1 := Keeps.step (Keeps.refl _ _) (modBank_keeps ..) (by decide)
  clear_value x1
  refine Keeps.ite h1 ?_
  refine Keeps.forAll h1 fun _ _ h2 => ?_
  split
  · exact Keeps.step h2 (latchBatch_keeps ..) (by decide)
  · exact Keeps.step h2 (zcFire_keeps ..) (by decide)

abbrev execConfigurationFrame_may : List Piece := [.regs, .pts, .banks, .ch, .evq, .can, .ble, .out]

theorem execConfigurationFrame_keeps (b : Fin 12) (ok : Bool) (s : State) : ∃ u, execConfigurationFrame b ok s = .next (close s
    u) ∧ Keeps execConfigurationFrame_may s u := by
  refine ⟨_, rfl, ?_⟩
  refine Keeps.ite (Keeps.refl _ _) ?_
  extract_lets +onlyGivenNames x0
  have h0 : Keeps execConfigurationFrame_may s x0 := Keeps.step (Keeps.refl _ _) (sendFrame_keeps ..) (by decide)
  clear_value x0
  refine Keeps.ite ?_ ?_
  · extract_lets +onlyGivenNames x1
    have h1 : Keeps execConfigurationFrame_may s x1 := Keeps.step h0 (downErr_keeps ..) (by decide)
    clear_value x1
    refine Keeps.ite (Keeps.step (Keeps.step h1 (modBank_keeps ..) (by decide)) (runHeld_keeps ..) (by decide)) ?_
    exact Keeps.step h1 (modBank_keeps ..) (by decide)
  refine Keeps.ite h0 ?_
  extract_lets +onlyGivenNames _
  extract_lets +onlyGivenNames _
  extract_lets +onlyGivenNames x4
  have h4 : Keeps execConfigurationFrame_may s x4 := Keeps.step h0 (modBank_keeps ..) (by decide)
  clear_value x4
  extract_lets +onlyGivenNames x5
  have h5 : Keeps execConfigurationFrame_may s x5 := by
    refine Keeps.forAll h4 fun _ _ h6 => ?_
    extract_lets +onlyGivenNames _
    refine Keeps.ite (Keeps.step h6 (bankMode_keeps ..) (by decide)) ?_
    exact Keeps.step h6 (clipFilter_keeps ..) (by decide)
  clear_value x5
  exact Keeps.step (Keeps.step h5 (runHeld_keeps ..) (by decide)) (bankHeard_keeps ..) (by decide)

theorem execCountPathSample_keeps (c : Fin 192) (mv : Nat) (s : State) : ∃ u, execCountPathSample c mv s = .next (close s u) ∧
    Keeps [.ch] s u := by
  refine ⟨_, rfl, ?_⟩
  refine Keeps.ite (Keeps.refl _ _) ?_
  extract_lets +onlyGivenNames _
  extract_lets +onlyGivenNames _
  extract_lets +onlyGivenNames _
  extract_lets +onlyGivenNames _
  extract_lets +onlyGivenNames _
  extract_lets +onlyGivenNames _
  exact Keeps.step (Keeps.refl _ _) (setChan_keeps ..) (by decide)

theorem execCurrentOutputOpen_keeps (c : Fin 192) (open_ : Bool) (s : State) : ∃ u, execCurrentOutputOpen c open_ s = .next
    (close s u) ∧ Keeps [.ch] s u := by
  refine ⟨_, rfl, ?_⟩
  refine Keeps.ite (Keeps.refl _ _) ?_
  refine Keeps.ite (Keeps.ite (Keeps.step (Keeps.refl _ _) (setB_keeps ..) (by decide)) (Keeps.refl _ _)) ?_
  exact Keeps.step (Keeps.refl _ _) (setB_keeps ..) (by decide)

theorem execDiagLatchReport_keeps (c : Fin 192) (s : State) : ∃ u, execDiagLatchReport c s = .next (close s u) ∧ Keeps [.ch,
    .evq] s u := by
  refine ⟨_, rfl, ?_⟩
  extract_lets +onlyGivenNames _
  refine Keeps.ite (Keeps.step (Keeps.refl _ _) (setChan_keeps ..) (by decide)) ?_
  exact Keeps.step (Keeps.step (Keeps.refl _ _) (setChan_keeps ..) (by decide)) (latchReport_keeps ..) (by decide)

abbrev execDiagnosticFrame_may : List Piece := [.regs, .pts, .banks, .ch, .evq, .can, .ble]

theorem execDiagnosticFrame_keeps (b : Fin 12) (ok : Bool) (temp : BitVec 8) (volt : BitVec 12) (curr : BitVec 13) (meas : List
    Word) (s : State) : ∃ u, execDiagnosticFrame b ok temp volt curr meas s = .next (close s u) ∧ Keeps execDiagnosticFrame_may
    s u := by
  refine ⟨_, rfl, ?_⟩
  refine Keeps.ite (Keeps.refl _ _) ?_
  extract_lets +onlyGivenNames x0
  have h0 : Keeps execDiagnosticFrame_may s x0 := Keeps.step (Keeps.refl _ _) (gotFrame_keeps ..) (by decide)
  clear_value x0
  refine Keeps.ite (Keeps.step h0 (upErr_keeps ..) (by decide)) ?_
  extract_lets +onlyGivenNames x1
  have h1 : Keeps execDiagnosticFrame_may s x1 := Keeps.step h0 (logicHeard_keeps ..) (by decide)
  clear_value x1
  extract_lets +onlyGivenNames x2
  have h2 : Keeps execDiagnosticFrame_may s x2 := Keeps.step h1 (modBank_keeps ..) (by decide)
  clear_value x2
  refine Keeps.forAll h2 fun _ _ h3 => ?_
  extract_lets +onlyGivenNames _
  exact Keeps.step (Keeps.step (Keeps.step h3 (modChan_keeps ..) (by decide)) (redoStage_keeps ..) (by decide)) (takeDiag_keeps
      ..) (by decide)

theorem execExtDriveDetect_keeps (c : Fin 192) (drive : Bool) (s : State) : ∃ u, execExtDriveDetect c drive s = .next (close s
    u) ∧ Keeps [.ch] s u := by
  refine ⟨_, rfl, ?_⟩
  exact Keeps.ite (Keeps.step (Keeps.refl _ _) (setB_keeps ..) (by decide)) (Keeps.refl _ _)

theorem execFaultClear_keeps (c : Fin 192) (long : Bool) (s : State) : ∃ u, execFaultClear c long s = .next (close s u) ∧ Keeps
    [.ch] s u := by
  refine ⟨_, rfl, ?_⟩
  refine Keeps.ite (Keeps.refl _ _) ?_
  extract_lets +onlyGivenNames x0
  have h0 : Keeps [.ch] s x0 := Keeps.step (Keeps.step (Keeps.refl _ _) (setB_keeps ..) (by decide)) (setB_keeps ..) (by decide)
  clear_value x0
  exact Keeps.ite (Keeps.step h0 (modChan_keeps ..) (by decide)) h0

theorem setFsLow_keeps (s : State) (b : Nat) (low : Bool) : Keeps [.regs, .pts, .ch, .evq, .can, .ble] s (setFsLow s b low) :=
    by
  unfold setFsLow
  refine Keeps.forAll (Keeps.refl _ _) fun _ _ h0 => ?_
  exact Keeps.step h0 (setDiagBit_keeps ..) (by decide)

theorem execFieldSupplyGood_keeps (b : Fin 12) (s : State) : ∃ u, execFieldSupplyGood b s = .next (close s u) ∧ Keeps [.regs,
    .pts, .banks, .ch, .evq, .can, .ble] s u := by
  refine ⟨_, rfl, ?_⟩
  refine Keeps.ite (Keeps.refl _ _) ?_
  exact Keeps.step (Keeps.step (Keeps.step (Keeps.refl _ _) (modBank_keeps ..) (by decide)) (setFsLow_keeps ..) (by decide))
      (bankEvent_keeps ..) (by decide)

theorem execFieldSupplyLost_keeps (b : Fin 12) (s : State) : ∃ u, execFieldSupplyLost b s = .next (close s u) ∧ Keeps [.regs,
    .pts, .banks, .ch, .evq, .can, .ble] s u := by
  refine ⟨_, rfl, ?_⟩
  refine Keeps.ite (Keeps.refl _ _) ?_
  exact Keeps.step (Keeps.step (Keeps.step (Keeps.refl _ _) (modBank_keeps ..) (by decide)) (setFsLow_keeps ..) (by decide))
      (bankEvent_keeps ..) (by decide)

theorem execInputSample_keeps (c : Fin 192) (mv : Nat) (s : State) : ∃ u, execInputSample c mv s = .next (close s u) ∧ Keeps
    [.ch] s u := by
  refine ⟨_, rfl, ?_⟩
  refine Keeps.ite (Keeps.refl _ _) ?_
  extract_lets +onlyGivenNames _
  extract_lets +onlyGivenNames _
  extract_lets +onlyGivenNames _
  extract_lets +onlyGivenNames _
  extract_lets +onlyGivenNames _
  exact Keeps.step (Keeps.step (Keeps.refl _ _) (setChan_keeps ..) (by decide)) (setB_keeps ..) (by decide)

theorem execKeepAliveFrame_keeps (b : Fin 12) (toBank : Bool) (ok : Bool) (s : State) : ∃ u, execKeepAliveFrame b toBank ok s =
    .next (close s u) ∧ Keeps [.regs, .pts, .banks, .ch, .evq, .can, .ble, .out] s u := by
  refine ⟨_, rfl, ?_⟩
  refine Keeps.ite (Keeps.step (Keeps.refl _ _) (keepAlive_keeps ..) (by decide)) ?_
  refine Keeps.ite (Keeps.refl _ _) ?_
  refine Keeps.ite (Keeps.step (Keeps.step (Keeps.refl _ _) (gotFrame_keeps ..) (by decide)) (logicHeard_keeps ..) (by decide))
      ?_
  exact Keeps.step (Keeps.step (Keeps.refl _ _) (gotFrame_keeps ..) (by decide)) (upErr_keeps ..) (by decide)

abbrev execLinkDown_may : List Piece := [.regs, .pts, .banks, .ch, .evq, .can, .ble]

theorem execLinkDown_keeps (b : Fin 12) (s : State) : ∃ u, execLinkDown b s = .next (close s u) ∧ Keeps execLinkDown_may s u :=
    by
  refine ⟨_, rfl, ?_⟩
  refine Keeps.ite (Keeps.refl _ _) ?_
  extract_lets +onlyGivenNames x0
  have h0 : Keeps execLinkDown_may s x0 := Keeps.step (Keeps.refl _ _) (modBank_keeps ..) (by decide)
  clear_value x0
  extract_lets +onlyGivenNames x1
  have h1 : Keeps execLinkDown_may s x1 := by
    refine Keeps.forAll h0 fun _ _ h2 => ?_
    exact Keeps.step h2 (putDiag_keeps ..) (by decide)
  clear_value x1
  exact Keeps.step h1 (bankEvent_keeps ..) (by decide)

theorem execLoadShed_keeps (b : Fin 12) (i : Fin 16) (s : State) : ∃ u, execLoadShed b i s = .next (close s u) ∧ Keeps [.regs,
    .ch, .evq] s u := by
  refine ⟨_, rfl, ?_⟩
  refine Keeps.ite (Keeps.refl _ _) ?_
  exact Keeps.step (Keeps.step (Keeps.step (Keeps.step (Keeps.refl _ _) (setB_keeps ..) (by decide)) (setB_keeps ..) (by
      decide)) (redoStage_keeps ..) (by decide)) (bankEvent_keeps ..) (by decide)

theorem execOpenLoadDetect_keeps (c : Fin 192) (open_ : Bool) (s : State) : ∃ u, execOpenLoadDetect c open_ s = .next (close s
    u) ∧ Keeps [.ch] s u := by
  refine ⟨_, rfl, ?_⟩
  exact Keeps.ite (Keeps.step (Keeps.refl _ _) (setB_keeps ..) (by decide)) (Keeps.refl _ _)

theorem execOpenWireDetect_keeps (c : Fin 192) (open_ : Bool) (s : State) : ∃ u, execOpenWireDetect c open_ s = .next (close s
    u) ∧ Keeps [.ch] s u := by
  refine ⟨_, rfl, ?_⟩
  refine Keeps.ite (Keeps.refl _ _) ?_
  refine Keeps.ite (Keeps.step (Keeps.step (Keeps.step (Keeps.refl _ _) (modChan_keeps ..) (by decide)) (setB_keeps ..) (by
      decide)) (setB_keeps ..) (by decide)) ?_
  exact Keeps.step (Keeps.refl _ _) (setB_keeps ..) (by decide)

abbrev execOutputFrame_may : List Piece := [.regs, .pts, .banks, .ch, .evq, .can, .ble, .out]

theorem execOutputFrame_keeps (b : Fin 12) (ok : Bool) (p : BitVec 16) (s : State) : ∃ u, execOutputFrame b ok p s = .next
    (close s u) ∧ Keeps execOutputFrame_may s u := by
  refine ⟨_, rfl, ?_⟩
  refine Keeps.ite (Keeps.refl _ _) ?_
  extract_lets +onlyGivenNames x0
  have h0 : Keeps execOutputFrame_may s x0 := Keeps.ite (Keeps.refl _ _) (Keeps.step (Keeps.refl _ _) (poison_keeps ..) (by
      decide))
  clear_value x0
  extract_lets +onlyGivenNames _
  extract_lets +onlyGivenNames _
  extract_lets +onlyGivenNames _
  extract_lets +onlyGivenNames x4
  have h4 : Keeps execOutputFrame_may s x4 := by
    refine Keeps.ite (Keeps.step (Keeps.step h0 (noteDrive_keeps ..) (by decide)) (sendFrame_keeps ..) (by decide)) ?_
    exact h0
  clear_value x4
  extract_lets +onlyGivenNames _
  refine Keeps.ite ?_ ?_
  · extract_lets +onlyGivenNames x6
    have h6 : Keeps execOutputFrame_may s x6 := Keeps.step h4 (downErr_keeps ..) (by decide)
    clear_value x6
    refine Keeps.ite (Keeps.step h6 (modBank_keeps ..) (by decide)) ?_
    exact Keeps.step (Keeps.step h6 (sendFrame_keeps ..) (by decide)) (modBank_keeps ..) (by decide)
  refine Keeps.ite (Keeps.step (Keeps.step (Keeps.step h4 (modBank_keeps ..) (by decide)) (bankHeard_keeps ..) (by decide))
      (applyFrame_keeps ..) (by decide)) ?_
  exact Keeps.step h4 (modBank_keeps ..) (by decide)

theorem execOutputRetry_keeps (c : Fin 192) (s : State) : ∃ u, execOutputRetry c s = .next (close s u) ∧ Keeps [.ch] s u := by
  refine ⟨_, rfl, ?_⟩
  refine Keeps.ite (Keeps.refl _ _) ?_
  exact Keeps.step (Keeps.step (Keeps.refl _ _) (modChan_keeps ..) (by decide)) (redoStage_keeps ..) (by decide)

theorem shutdown_keeps (s : State) (c : Nat) (bit : Nat) : Keeps [.ch] s (shutdown s c bit) := by
  unfold shutdown
  extract_lets +onlyGivenNames _
  extract_lets +onlyGivenNames x1
  have h1 : Keeps [.ch] s x1 := Keeps.step (Keeps.step (Keeps.refl _ _) (modChan_keeps ..) (by decide)) (setB_keeps ..) (by
      decide)
  clear_value x1
  exact Keeps.step (Keeps.ite (Keeps.step h1 (setB_keeps ..) (by decide)) h1) (redoStage_keeps ..) (by decide)

theorem execOverloadShutdown_keeps (c : Fin 192) (s : State) : ∃ u, execOverloadShutdown c s = .next (close s u) ∧ Keeps [.ch]
    s u := by
  refine ⟨_, rfl, ?_⟩
  exact Keeps.ite (Keeps.step (Keeps.refl _ _) (shutdown_keeps ..) (by decide)) (Keeps.refl _ _)

theorem execOvertempClearable_keeps (b : Fin 12) (s : State) : ∃ u, execOvertempClearable b s = .next (close s u) ∧ Keeps
    [.banks] s u := by
  refine ⟨_, rfl, ?_⟩
  refine Keeps.ite (Keeps.step (Keeps.step (Keeps.refl _ _) (modBank_keeps ..) (by decide)) (autoClear_keeps ..) (by decide)) ?_
  exact Keeps.refl _ _

theorem execPwmPeriodStart_keeps (c : Fin 192) (s : State) : ∃ u, execPwmPeriodStart c s = .next (close s u) ∧ Keeps [.ch] s u
    := by
  refine ⟨_, rfl, ?_⟩
  exact Keeps.ite (Keeps.refl _ _) (Keeps.step (Keeps.refl _ _) (startPeriod_keeps ..) (by decide))

abbrev execReadingFrame_may : List Piece := [.regs, .pts, .banks, .ch, .evq, .can, .ble]

theorem execReadingFrame_keeps (b : Fin 12) (ok : Bool) (raw : List Word) (s : State) : ∃ u, execReadingFrame b ok raw s =
    .next (close s u) ∧ Keeps execReadingFrame_may s u := by
  refine ⟨_, rfl, ?_⟩
  split
  · exact Keeps.refl _ _
  · extract_lets +onlyGivenNames x0
    have h0 : Keeps execReadingFrame_may s x0 := Keeps.step (Keeps.step (Keeps.refl _ _) (modBank_keeps ..) (by decide))
        (gotFrame_keeps ..)
        (by decide)
    clear_value x0
    refine Keeps.ite ?_ ?_
    · refine Keeps.forAll (Keeps.step h0 (logicHeard_keeps ..) (by decide)) fun _ _ h1 => ?_
      exact Keeps.step h1 (readChan_keeps ..) (by decide)
    extract_lets +onlyGivenNames x2
    have h2 : Keeps execReadingFrame_may s x2 := Keeps.step (Keeps.step h0 (upErr_keeps ..) (by decide)) (poison_keeps ..) (by
        decide)
    clear_value x2
    refine Keeps.forAll h2 fun _ _ h3 => ?_
    exact Keeps.ite h3 (Keeps.step h3 (putDiag_keeps ..) (by decide))

theorem execShortShutdown_keeps (c : Fin 192) (s : State) : ∃ u, execShortShutdown c s = .next (close s u) ∧ Keeps [.ch] s u :=
    by
  refine ⟨_, rfl, ?_⟩
  exact Keeps.ite (Keeps.step (Keeps.refl _ _) (shutdown_keeps ..) (by decide)) (Keeps.refl _ _)

theorem execVoltageOutputShort_keeps (c : Fin 192) (short : Bool) (s : State) : ∃ u, execVoltageOutputShort c short s = .next
    (close s u) ∧ Keeps [.ch] s u := by
  refine ⟨_, rfl, ?_⟩
  exact Keeps.ite (Keeps.step (Keeps.refl _ _) (setB_keeps ..) (by decide)) (Keeps.refl _ _)

theorem zcSwitch_keeps (s : State) (b : Nat) (entry : Nat) : Keeps [.regs, .pts, .banks, .ch, .evq, .can, .ble] s (zcSwitch s b
    entry) := by
  unfold zcSwitch
  refine Keeps.ite (Keeps.step (Keeps.refl _ _) (hold_keeps ..) (by decide)) ?_
  exact Keeps.step (Keeps.refl _ _) (zcFire_keeps ..) (by decide)

theorem execZcSwitch_keeps (b : Fin 12) (s : State) : ∃ u, execZcSwitch b s = .next (close s u) ∧ Keeps [.regs, .pts, .phc,
    .banks, .ch, .evq, .can, .ble] s u := by
  refine ⟨_, rfl, ?_⟩
  split
  · refine Keeps.ite (Keeps.step (Keeps.phc (Keeps.refl _ _) (by decide)) (zcSwitch_keeps ..) (by decide)) ?_
    exact Keeps.refl _ _
  · exact Keeps.refl _ _

theorem heldDue_keeps (s : State) : Keeps [.regs, .pts, .banks, .ch, .evq, .can, .ble] s (heldDue s) := by
  unfold heldDue
  refine Keeps.forAll (Keeps.refl _ _) fun _ _ h0 => ?_
  exact Keeps.ite (Keeps.step h0 (runHeld_keeps ..) (by decide)) h0

theorem sendTiming_keeps (s : State) (entry : Nat) (arg : Word) (unit : Nat) (ok : Bool) (again : Bool) : Keeps [.regs, .banks,
    .out] s (sendTiming s entry arg unit ok again) := by
  unfold sendTiming
  extract_lets +onlyGivenNames _
  extract_lets +onlyGivenNames _
  extract_lets +onlyGivenNames x2
  have h2 : Keeps [.regs, .banks, .out] s x2 := Keeps.step (Keeps.refl _ _) (sendFrame_keeps ..) (by decide)
  clear_value x2
  extract_lets +onlyGivenNames x3
  have h3 : Keeps [.regs, .banks, .out] s x3 := by
    refine Keeps.ite h2 ?_
    exact Keeps.step (Keeps.step h2 (downErr_keeps ..) (by decide)) (sendFrame_keeps ..) (by decide)
  clear_value x3
  extract_lets +onlyGivenNames x4
  have h4 : Keeps [.regs, .banks, .out] s x4 := Keeps.ite h3 (Keeps.step h3 (downErr_keeps ..) (by decide))
  clear_value x4
  refine Keeps.ite ?_ ?_
  · extract_lets +onlyGivenNames _
    exact Keeps.step (Keeps.step h4 (modBank_keeps ..) (by decide)) (bankHeard_keeps ..) (by decide)
  exact h4

end Sys2Proof.Laws
end

