-- ==== Sys2Proof/Laws/KeepsLce.lean ====
section
/-! SUPPORT. For every operation of Machine/Lce.lean: the pieces of the state it may change; every other piece is exactly
what it was. -/

namespace Sys2Proof.Laws

open Machine

theorem banksDue_keeps (s : State) : Keeps [.regs, .live, .pts, .banks, .ch, .rings, .evq, .msixPend, .forces, .can, .ble,
    .twn, .out] s (banksDue s) := by
  unfold banksDue
  refine Keeps.forAll (Keeps.refl _ _) fun _ _ h0 => ?_
  exact Keeps.ite (Keeps.step h0 (bankCommitNow_keeps ..) (by decide)) h0

theorem setLoop_keeps (s : State) (n : Nat) (l : LoopSt) : Keeps [.lce] s (setLoop s n l) := by
  unfold setLoop
  exact Keeps.lce (Keeps.refl _ _) (by decide)

theorem loopEvent_keeps (s : State) (bit : Nat) (n : Nat) (rec_ : Bool) : Keeps [.regs, .evq] s (loopEvent s bit n rec_) := by
  unfold loopEvent
  exact Keeps.step (Keeps.step (Keeps.refl _ _) (ror_keeps ..) (by decide)) (regEvent_keeps ..) (by decide)

theorem starvedCheck_keeps (s : State) : Keeps [.regs, .pts, .evq, .can, .lce, .ble] s (starvedCheck s) := by
  unfold starvedCheck
  refine Keeps.forAll (Keeps.refl _ _) fun _ _ h0 => ?_
  refine Keeps.ite h0 ?_
  extract_lets +onlyGivenNames _
  extract_lets +onlyGivenNames _
  exact Keeps.step (Keeps.step (Keeps.step h0 (setLoop_keeps ..) (by decide)) (pset_keeps ..) (by decide)) (loopEvent_keeps ..)
      (by decide)

abbrev phcLive_may : List Piece := [.regs, .live, .pts, .phc, .rings, .evq, .msixPend, .can, .lce, .ble, .twn, .out]

theorem phcLive_keeps (s : State) : Keeps phcLive_may s (phcLive s) := by
  unfold phcLive
  extract_lets +onlyGivenNames x0
  have h0 : Keeps phcLive_may s x0 := Keeps.step (Keeps.step (Keeps.step (Keeps.refl _ _) (phcApply_keeps ..) (by decide))
      (starvedCheck_keeps ..) (by decide)) (noteMirror_keeps ..) (by decide)
  clear_value x0
  exact Keeps.step h0 (completeAll_keeps ..) (by decide)

theorem phcCommitNow_keeps (s : State) : Keeps [.regs, .live, .pts, .phc, .rings, .evq, .msixPend, .can, .lce, .ble, .twn,
    .out] s (phcCommitNow s) := by
  unfold phcCommitNow
  split
  · exact Keeps.step (Keeps.refl _ _) (phcLive_keeps ..) (by decide)
  · exact Keeps.step (Keeps.step (Keeps.refl _ _) (phcRefuse_keeps ..) (by decide)) (completeAll_keeps ..) (by decide)

theorem phcDue_keeps (s : State) : Keeps [.regs, .live, .pts, .phc, .rings, .evq, .msixPend, .can, .lce, .ble, .twn, .out] s
    (phcDue s) := by
  unfold phcDue
  exact Keeps.ite (Keeps.step (Keeps.refl _ _) (phcCommitNow_keeps ..) (by decide)) (Keeps.refl _ _)

theorem dueCommits_keeps (s : State) : Keeps [.regs, .live, .pts, .phc, .banks, .ch, .rings, .evq, .msixPend, .forces, .can,
    .lce, .ble, .twn, .out] s (dueCommits s) := by
  unfold dueCommits
  exact Keeps.step (Keeps.step (Keeps.refl _ _) (phcDue_keeps ..) (by decide)) (banksDue_keeps ..) (by decide)

theorem execLceBuildComplete_keeps (s : State) : ∃ u, execLceBuildComplete s = .next (close s u) ∧ Keeps [.lce] s u := by
  refine ⟨_, rfl, ?_⟩
  exact Keeps.ite (Keeps.lce (Keeps.refl _ _) (by decide)) (Keeps.refl _ _)

theorem lceRequest_keeps (s : State) : Keeps [.regs, .lce] s (lceRequest s) := by
  unfold lceRequest
  refine Keeps.ite (Keeps.refl _ _) ?_
  extract_lets +onlyGivenNames x0
  have h0 : Keeps [.regs, .lce] s x0 := Keeps.step (Keeps.refl _ _) (ror_keeps ..) (by decide)
  clear_value x0
  exact Keeps.lce h0 (by decide)

theorem execLceCommit_keeps (v : Word) (s : State) : ∃ u, execLceCommit v s = .next (close s u) ∧ Keeps [.regs, .evq, .lce] s u
    := by
  refine ⟨_, rfl, ?_⟩
  refine Keeps.reached (Keeps.refl _ _) (fun _ h0 => ?_)
  refine Keeps.ite ?_ ?_
  · refine Keeps.unlessStandby ?_ (fun _ h1 => ?_) (by decide)
    · exact h0
    exact Keeps.step h1 (lceRequest_keeps ..) (by decide)
  exact h0

theorem saveSat_keeps (s : State) : Keeps [.lce] s (saveSat s) := by
  unfold saveSat
  exact Keeps.lce (Keeps.refl _ _) (by decide)

theorem execSaturationSave_keeps (s : State) : ∃ u, execSaturationSave s = .next (close s u) ∧ Keeps [.lce] s u := by
  refine ⟨_, rfl, ?_⟩
  exact Keeps.ite (Keeps.step (Keeps.refl _ _) (saveSat_keeps ..) (by decide)) (Keeps.refl _ _)

abbrev lceApply_may : List Piece := [.regs, .live, .pts, .evq, .can, .lce, .ble, .twn]

theorem lceApply_keeps (s : State) (t : Tab Word) : Keeps lceApply_may s (lceApply s t) := by
  unfold lceApply
  extract_lets +onlyGivenNames _
  extract_lets +onlyGivenNames x1
  have h1 : Keeps lceApply_may s x1 := Keeps.live (Keeps.refl _ _) (by decide)
  clear_value x1
  extract_lets +onlyGivenNames x2
  have h2 : Keeps lceApply_may s x2 := Keeps.step h1 (rset_keeps ..) (by decide)
  clear_value x2
  extract_lets +onlyGivenNames -merge -useContext _ x3
  have h3 : Keeps lceApply_may s x3 := Keeps.lce h2 (by decide)
  clear_value x3
  extract_lets +onlyGivenNames x4
  have h4 : Keeps lceApply_may s x4 := by
    refine Keeps.forAll h3 fun _ _ h5 => ?_
    exact Keeps.ite h5 (Keeps.step h5 (setLoop_keeps ..) (by decide))
  clear_value x4
  exact Keeps.step (Keeps.step h4 (starvedCheck_keeps ..) (by decide)) (noteMirror_keeps ..) (by decide)

abbrev lceCommitNow_may : List Piece := [.regs, .live, .pts, .rings, .evq, .msixPend, .can, .lce, .ble, .twn, .out]

theorem lceCommitNow_keeps (s : State) : Keeps lceCommitNow_may s (lceCommitNow s) := by
  unfold lceCommitNow
  split
  · exact Keeps.refl _ _
  · extract_lets +onlyGivenNames x0
    clear_value x0
    extract_lets +onlyGivenNames -merge -useContext _ x1
    have h1 : Keeps lceCommitNow_may s x1 := Keeps.lce (Keeps.refl _ _) (by decide)
    clear_value x1
    split
    · extract_lets +onlyGivenNames x2
      have h2 : Keeps lceCommitNow_may s x2 := Keeps.step h1 (lceApply_keeps ..) (by decide)
      clear_value x2
      exact Keeps.step h2 (completeAll_keeps ..) (by decide)
    · extract_lets +onlyGivenNames x3
      have h3 : Keeps lceCommitNow_may s x3 := Keeps.step h1 (rset_keeps ..) (by decide)
      clear_value x3
      exact Keeps.step h3 (completeAll_keeps ..) (by decide)

end Sys2Proof.Laws
end

