-- ==== Sys2Proof/Laws/KeepsEngine.lean ====
section
/-! SUPPORT. For every operation of Machine/Engine.lean: the pieces of the state it may change; every other piece is exactly
what it was. -/

namespace Sys2Proof.Laws

open Machine

theorem endLoop_keeps (s : State) (n : Nat) (l : LoopSt) : Keeps [.lce] s (endLoop s n l) := by
  unfold endLoop
  exact Keeps.step (Keeps.refl _ _) (setLoop_keeps ..) (by decide)

abbrev endPass_may : List Piece := [.regs, .pts, .banks, .ch, .evq, .can, .lce, .ble, .out]

theorem endPass_keeps (s : State) : Keeps endPass_may s (endPass s) := by
  unfold endPass
  split
  · exact Keeps.refl _ _
  · extract_lets +onlyGivenNames -merge -useContext _ x0
    have h0 : Keeps endPass_may s x0 := Keeps.lce (Keeps.refl _ _) (by decide)
    clear_value x0
    extract_lets +onlyGivenNames x1
    have h1 : Keeps endPass_may s x1 := by
      refine Keeps.forAll h0 fun _ _ h2 => ?_
      exact Keeps.step h2 (endLoop_keeps ..) (by decide)
    clear_value x1
    extract_lets +onlyGivenNames x3
    have h3 : Keeps endPass_may s x3 := by
      refine Keeps.forAll h1 fun _ _ h4 => ?_
      exact Keeps.step h4 (pset_keeps ..) (by decide)
    clear_value x3
    extract_lets +onlyGivenNames x5
    have h5 : Keeps endPass_may s x5 := Keeps.step h3 (commitPoints_keeps ..) (by decide)
    clear_value x5
    refine Keeps.forAll h5 fun _ _ h6 => ?_
    exact Keeps.step h6 (loopEvent_keeps ..) (by decide)

abbrev startPass_may : List Piece := [.regs, .pts, .banks, .ch, .evq, .can, .lce, .ble, .out]

theorem startPass_keeps (s : State) (p : Nat) (unit : Nat) : Keeps startPass_may s (startPass s p unit) := by
  unfold startPass
  extract_lets +onlyGivenNames _
  extract_lets +onlyGivenNames _
  extract_lets +onlyGivenNames _
  extract_lets +onlyGivenNames _
  extract_lets +onlyGivenNames -merge -useContext _ x4
  have h4 : Keeps startPass_may s x4 := Keeps.lce (Keeps.refl _ _) (by decide)
  clear_value x4
  exact Keeps.ite (Keeps.step h4 (endPass_keeps ..) (by decide)) h4

theorem firePass_keeps (s : State) (p : Nat) : Keeps [.regs, .pts, .banks, .ch, .evq, .can, .lce, .ble, .out] s (firePass s p)
    := by
  unfold firePass
  refine Keeps.ite (Keeps.refl _ _) ?_
  refine Keeps.ite (Keeps.step (Keeps.refl _ _) (startPass_keeps ..) (by decide)) ?_
  refine Keeps.ite (Keeps.step (Keeps.step (Keeps.refl _ _) (rinc_keeps ..) (by decide)) (raiseHost_keeps ..) (by decide)) ?_
  exact Keeps.lce (Keeps.refl _ _) (by decide)

theorem noteEcc_keeps (s : State) (e : Ecc) : Keeps [.regs] s (noteEcc s e) := by
  unfold noteEcc
  split
  · exact Keeps.step (Keeps.refl _ _) (rinc_keeps ..) (by decide)
  · exact Keeps.refl _ _

end Sys2Proof.Laws
end

