-- ==== Sys2Proof/Laws/KeepsCtl.lean ====
section
/-! SUPPORT. For every operation of Machine/Ctl.lean: the pieces of the state it may change; every other piece is exactly
what it was. -/

namespace Sys2Proof.Laws

open Machine

theorem dset_keeps (s : State) (k : Nat) (v : Word) : Keeps [.ble] s (dset s k v) := by
  unfold dset
  exact Keeps.ble (Keeps.refl _ _) (by decide)

theorem applyWrites_keeps (s : State) : Keeps [.rings, .msixPend, .ble, .out] s (applyWrites s) := by
  unfold applyWrites
  extract_lets +onlyGivenNames _
  refine Keeps.ite (Keeps.refl _ _) ?_
  extract_lets +onlyGivenNames -merge -useContext _ x1
  have h1 : Keeps [.rings, .msixPend, .ble, .out] s x1 := Keeps.ble (Keeps.refl _ _) (by decide)
  clear_value x1
  extract_lets +onlyGivenNames x2
  have h2 : Keeps [.rings, .msixPend, .ble, .out] s x2 := by
    refine Keeps.forAll h1 fun _ _ h3 => ?_
    exact Keeps.step h3 (dset_keeps ..) (by decide)
  clear_value x2
  exact Keeps.step h2 (completeAll_keeps ..) (by decide)

theorem bleEvent_keeps (s : State) (bit : Nat) (extra : List Word) : Keeps [.regs, .evq] s (bleEvent s bit extra) := by
  unfold bleEvent
  exact Keeps.step (Keeps.refl _ _) (raiseBits_keeps ..) (by decide)

theorem startSave_keeps (s : State) : Keeps [.lce, .ble] s (startSave s) := by
  unfold startSave
  split
  · exact Keeps.step (Keeps.ble (Keeps.refl _ _) (by decide)) (saveSat_keeps ..) (by decide)
  · exact Keeps.refl _ _

theorem dueSave_keeps (s : State) : Keeps [.regs, .evq, .lce, .ble] s (dueSave s) := by
  unfold dueSave
  refine Keeps.ite (Keeps.step (Keeps.step (Keeps.refl _ _) (rinc_keeps ..) (by decide)) (bleEvent_keeps ..) (by decide)) ?_
  exact Keeps.step (Keeps.refl _ _) (startSave_keeps ..) (by decide)

theorem endSave_keeps (s : State) : Keeps [.lce, .ble] s (endSave s) := by
  unfold endSave
  split
  · exact Keeps.refl _ _
  · extract_lets +onlyGivenNames -merge -useContext _ _ _
    extract_lets +onlyGivenNames x1
    have h1 : Keeps [.lce, .ble] s x1 := Keeps.ble (Keeps.refl _ _) (by decide)
    clear_value x1
    exact Keeps.ite (Keeps.step h1 (startSave_keeps ..) (by decide)) h1

theorem forceSave_keeps (s : State) : Keeps [.lce, .ble] s (forceSave s) := by
  unfold forceSave
  refine Keeps.ite (Keeps.ble (Keeps.refl _ _) (by decide)) ?_
  exact Keeps.step (Keeps.refl _ _) (startSave_keeps ..) (by decide)

theorem planTrip_keeps (s : State) : Keeps [.twn] s (planTrip s) := by
  unfold planTrip
  extract_lets +onlyGivenNames _
  refine Keeps.ite ?_ ?_
  · extract_lets +onlyGivenNames _
    exact Keeps.step (Keeps.twn (Keeps.refl _ _) (by decide)) (refreshPair_keeps ..) (by decide)
  exact Keeps.twn (Keeps.refl _ _) (by decide)

abbrev stopCtl_may : List Piece := [.regs, .pts, .banks, .ch, .rings, .evq, .msixPend, .can, .lce, .ble, .twn, .out]

theorem stopCtl_keeps (s : State) (cause : Nat) (tripTask : Nat) : Keeps stopCtl_may s (stopCtl s cause tripTask) := by
  unfold stopCtl
  extract_lets +onlyGivenNames -merge -useContext _ _ x0
  have h0 : Keeps stopCtl_may s x0 := by
    refine Keeps.many (t := s) ?_ rfl (fun p hp => by cases p <;> first | rfl | exact absurd (by decide) hp)
    exact Keeps.refl _ _
  clear_value x0
  extract_lets +onlyGivenNames x1
  have h1 : Keeps stopCtl_may s x1 := Keeps.step (Keeps.step (Keeps.step h0 (allCause_keeps ..) (by decide)) (forceSave_keeps
      ..) (by
      decide)) (applyWrites_keeps ..) (by decide)
  clear_value x1
  exact Keeps.ite (Keeps.step h1 (planTrip_keeps ..) (by decide)) h1

abbrev integrityStop_may : List Piece := [.regs, .pts, .banks, .ch, .rings, .evq, .msixPend, .can, .lce, .ble, .twn, .out]

theorem integrityStop_keeps (s : State) : Keeps integrityStop_may s (integrityStop s) := by
  unfold integrityStop
  extract_lets +onlyGivenNames x0
  have h0 : Keeps integrityStop_may s x0 := Keeps.step (Keeps.refl _ _) (poison_keeps ..) (by decide)
  clear_value x0
  exact Keeps.ite (Keeps.step h0 (stopCtl_keeps ..) (by decide)) h0

theorem Keeps.withEcc {may : List Piece} {s t : State} {e : Ecc} {f : State → State} (h : Keeps may s t)
    (hf : ∀ u, Keeps may s u → Keeps may s (f u)) (ha : [.regs, .pts, .banks, .ch, .rings, .evq, .msixPend, .can, .lce, .ble, .twn, .out] ⊆ may) :
    Keeps may s (Machine.withEcc t e f) := by
  unfold Machine.withEcc
  split
  · exact h.step ((integrityStop_keeps ..).mono (by decide)) ha
  · exact hf _ (h.step ((noteEcc_keeps ..).mono (b := [.regs, .pts, .banks, .ch, .rings, .evq, .msixPend, .can, .lce, .ble, .twn, .out]) (by decide)) ha)

theorem execLcePass_keeps (n : Fin 1024) (e : Ecc) (s : State) : ∃ u, execLcePass n e s = .next (close s u) ∧ Keeps [.regs,
    .live, .pts, .phc, .banks, .ch, .rings, .evq, .msixPend, .forces, .can, .lce, .ble, .twn, .out] s u := by
  refine ⟨_, rfl, ?_⟩
  split
  · refine Keeps.ite ?_ ?_
    · refine Keeps.withEcc ?_ (fun _ h0 => ?_) (by decide)
      · refine Keeps.step ?_ (fireEntry_keeps (by assumption)) (by decide)
        refine Keeps.ite (Keeps.step (Keeps.step (Keeps.refl _ _) (dueCommits_keeps ..) (by decide)) (lceCommitNow_keeps ..)
            (by decide)) ?_
        exact Keeps.step (Keeps.refl _ _) (dueCommits_keeps ..) (by decide)
      exact Keeps.step h0 (firePass_keeps ..) (by decide)
    refine Keeps.step ?_ (fireEntry_keeps (by assumption)) (by decide)
    refine Keeps.ite (Keeps.step (Keeps.step (Keeps.refl _ _) (dueCommits_keeps ..) (by decide)) (lceCommitNow_keeps ..) (by
        decide)) ?_
    exact Keeps.step (Keeps.refl _ _) (dueCommits_keeps ..) (by decide)
  · refine Keeps.ite (Keeps.step (Keeps.step (Keeps.refl _ _) (dueCommits_keeps ..) (by decide)) (lceCommitNow_keeps ..) (by
      decide)) ?_
    exact Keeps.step (Keeps.refl _ _) (dueCommits_keeps ..) (by decide)

theorem execWaitingPassStart_keeps (s : State) : ∃ u, execWaitingPassStart s = .next (close s u) ∧ Keeps [.regs, .pts, .banks,
    .ch, .evq, .can, .lce, .ble, .out] s u := by
  refine ⟨_, rfl, ?_⟩
  split
  · refine Keeps.ite (Keeps.step (Keeps.lce (Keeps.refl _ _) (by decide)) (startPass_keeps ..) (by decide)) ?_
    exact Keeps.refl _ _
  · exact Keeps.refl _ _

abbrev holdReset_may : List Piece := [.regs, .pts, .hold, .phc, .clk, .banks, .ch, .rings, .evq, .recq, .recLost, .recLostCls,
    .msixPend, .can, .lce, .ble, .twn, .out]

theorem holdReset_keeps (s : State) (cause : Nat) : Keeps holdReset_may s (holdReset s cause) := by
  unfold holdReset
  extract_lets +onlyGivenNames x0
  have h0 : Keeps holdReset_may s x0 := Keeps.step (Keeps.step (Keeps.refl _ _) (flushEvents_keeps ..) (by decide))
      (hwSafe_keeps ..)
      (by decide)
  clear_value x0
  extract_lets +onlyGivenNames -merge -useContext _ _
  refine Keeps.many (t := x0) ?_ rfl (fun p hp => by cases p <;> first | rfl | exact absurd (by decide) hp)
  exact h0

theorem leaveRefused_keeps (s : State) : Keeps [.upd] s (leaveRefused s) := by
  unfold leaveRefused
  extract_lets +onlyGivenNames _
  exact Keeps.ite (Keeps.upd (Keeps.refl _ _) (by decide)) (Keeps.upd (Keeps.refl _ _) (by decide))

theorem setTask_keeps (s : State) (t : Nat) (r : TaskRun) : Keeps [.ble] s (setTask s t r) := by
  unfold setTask
  exact Keeps.ble (Keeps.refl _ _) (by decide)

abbrev updReset_may : List Piece := [.regs, .pts, .hold, .phc, .clk, .banks, .ch, .rings, .evq, .recq, .recLost, .recLostCls,
    .msixPend, .can, .lce, .ble, .twn, .upd, .out]

theorem updReset_keeps (s : State) : Keeps updReset_may s (updReset s) := by
  unfold updReset
  extract_lets +onlyGivenNames x0
  have h0 : Keeps updReset_may s x0 := Keeps.step (Keeps.ite (Keeps.step (Keeps.refl _ _) (stopCtl_keeps ..) (by decide))
      (Keeps.refl _
      _)) (endSave_keeps ..) (by decide)
  clear_value x0
  exact Keeps.step (Keeps.upd h0 (by decide)) (holdReset_keeps ..) (by decide)

end Sys2Proof.Laws
end

