-- ==== Sys2Proof/Laws/KeepsTime.lean ====
section
/-! SUPPORT. For every operation of Machine/Time.lean: the pieces of the state it may change; every other piece is exactly
what it was. -/

namespace Sys2Proof.Laws

open Machine

theorem rtcEvent_keeps (s : State) (bits : Word) : Keeps [.regs, .evq, .rtc] s (rtcEvent s bits) := by
  unfold rtcEvent
  refine Keeps.ite (Keeps.step (Keeps.refl _ _) (raiseBoth_keeps ..) (by decide)) ?_
  extract_lets +onlyGivenNames _
  extract_lets +onlyGivenNames x1
  have h1 : Keeps [.regs, .evq, .rtc] s x1 := Keeps.step (Keeps.refl _ _) (ror_keeps ..) (by decide)
  clear_value x1
  exact Keeps.rtc h1 (by decide)

theorem cdExpire_keeps (s : State) : Keeps [.regs, .evq, .rtc] s (cdExpire s) := by
  unfold cdExpire
  exact Keeps.step (Keeps.rtc (Keeps.refl _ _) (by decide)) (rtcEvent_keeps ..) (by decide)

theorem cdEdge_keeps (s : State) : Keeps [.regs, .evq, .rtc] s (cdEdge s) := by
  unfold cdEdge
  extract_lets +onlyGivenNames -merge -useContext _ x0
  have h0 : Keeps [.regs, .evq, .rtc] s x0 := by
    refine Keeps.ite (Keeps.refl _ _) ?_
    refine Keeps.ite (Keeps.step (Keeps.refl _ _) (cdExpire_keeps ..) (by decide)) ?_
    exact Keeps.rtc (Keeps.refl _ _) (by decide)
  clear_value x0
  split
  · exact Keeps.rtc h0 (by decide)
  · exact h0

theorem quietTicks_keeps (s : State) (n : Nat) : Keeps [.regs, .evq, .rtc] s (quietTicks s n) := by
  unfold quietTicks
  extract_lets +onlyGivenNames _
  extract_lets +onlyGivenNames x1
  have h1 : Keeps [.regs, .evq, .rtc] s x1 := Keeps.ite (Keeps.rtc (Keeps.refl _ _) (by decide)) (Keeps.rtc (Keeps.refl _ _)
      (by decide))
  clear_value x1
  extract_lets +onlyGivenNames _
  refine Keeps.ite h1 ?_
  refine Keeps.ite (Keeps.rtc h1 (by decide)) ?_
  extract_lets +onlyGivenNames _
  extract_lets +onlyGivenNames x4
  have h4 : Keeps [.regs, .evq, .rtc] s x4 := Keeps.step h1 (cdExpire_keeps ..) (by decide)
  clear_value x4
  extract_lets +onlyGivenNames _
  exact Keeps.ite h4 (Keeps.rtc h4 (by decide))

theorem rtcSetRec_keeps (s : State) (before : Nat) (after : Nat) (ticks : Nat) : Keeps [.evq] s (rtcSetRec s before after
    ticks) := by
  unfold rtcSetRec
  exact Keeps.step (Keeps.refl _ _) (recEvent_keeps ..) (by decide)

theorem rtcEdge_keeps (s : State) : Keeps [.evq, .rtc] s (rtcEdge s) := by
  unfold rtcEdge
  extract_lets +onlyGivenNames _
  refine Keeps.ite (Keeps.rtc (Keeps.refl _ _) (by decide)) ?_
  refine Keeps.ite ?_ ?_
  · extract_lets +onlyGivenNames _
    exact Keeps.step (Keeps.rtc (Keeps.refl _ _) (by decide)) (rtcSetRec_keeps ..) (by decide)
  exact Keeps.ite (Keeps.rtc (Keeps.refl _ _) (by decide)) (Keeps.rtc (Keeps.refl _ _) (by decide))

theorem rtcTicks_keeps (s : State) (y0 : Nat) : Keeps [.regs, .evq, .rtc] s (rtcTicks s y0) := by
  unfold rtcTicks
  split
  · exact Keeps.refl _ _
  · exact Keeps.step (Keeps.step (Keeps.step (Keeps.refl _ _) (rtcEdge_keeps ..) (by decide)) (cdEdge_keeps ..) (by decide))
      (quietTicks_keeps ..) (by decide)

theorem rtcElapse_keeps (s : State) (ns : Nat) : Keeps [.regs, .evq, .rtc] s (rtcElapse s ns) := by
  unfold rtcElapse
  refine Keeps.ite ?_ ?_
  · extract_lets +onlyGivenNames _
    exact Keeps.step (Keeps.rtc (Keeps.refl _ _) (by decide)) (rtcTicks_keeps ..) (by decide)
  exact Keeps.refl _ _

theorem ntElapse_keeps (s : State) (ns : Nat) : Keeps [.ptp] s (ntElapse s ns) := by
  unfold ntElapse
  refine Keeps.ite (Keeps.refl _ _) ?_
  extract_lets +onlyGivenNames _
  exact Keeps.ptp (Keeps.refl _ _) (by decide)

theorem opElapse_keeps (s : State) (ns : Nat) : Keeps [.rtc] s (opElapse s ns) := by
  unfold opElapse
  refine Keeps.ite ?_ ?_
  · extract_lets +onlyGivenNames _
    exact Keeps.rtc (Keeps.refl _ _) (by decide)
  exact Keeps.refl _ _

theorem elapseNs_keeps (s : State) (ns : Nat) : Keeps [.regs, .evq, .rtc, .up, .ptp] s (elapseNs s ns) := by
  unfold elapseNs
  extract_lets +onlyGivenNames x0
  have h0 : Keeps [.regs, .evq, .rtc, .up, .ptp] s x0 := Keeps.step (Keeps.step (Keeps.step (Keeps.refl _ _) (rtcElapse_keeps
      ..) (by decide))
      (opElapse_keeps ..) (by decide)) (ntElapse_keeps ..) (by decide)
  clear_value x0
  exact Keeps.up h0 (by decide)

theorem elapseUnits_keeps (s : State) (n : Nat) : Keeps [.regs, .phc, .evq, .rtc, .up, .ptp] s (elapseUnits s n) := by
  unfold elapseUnits
  refine Keeps.ite (Keeps.refl _ _) ?_
  extract_lets +onlyGivenNames _
  extract_lets +onlyGivenNames _
  extract_lets +onlyGivenNames _
  exact Keeps.step (Keeps.phc (Keeps.refl _ _) (by decide)) (elapseNs_keeps ..) (by decide)

theorem oscStop_keeps (s : State) : Keeps [.regs, .evq, .rtc] s (oscStop s) := by
  unfold oscStop
  refine Keeps.ite (Keeps.step (Keeps.step (Keeps.refl _ _) (ror_keeps ..) (by decide)) (rtcEvent_keeps ..) (by decide)) ?_
  exact Keeps.refl _ _

theorem saveOptime_keeps (s : State) : Keeps [.rtc] s (saveOptime s) := by
  unfold saveOptime
  extract_lets +onlyGivenNames _
  exact Keeps.rtc (Keeps.refl _ _) (by decide)

theorem unhalt_keeps (s : State) : Keeps [.rtc] s (unhalt s) := by
  unfold unhalt
  exact Keeps.ite (Keeps.rtc (Keeps.refl _ _) (by decide)) (Keeps.refl _ _)

end Sys2Proof.Laws
end

