-- ==== Sys2Proof/Laws/KeepsCan.lean ====
section
/-! SUPPORT. For every operation of Machine/Can.lean: the pieces of the state it may change; every other piece is exactly
what it was. -/

namespace Sys2Proof.Laws

open Machine

theorem setCanPort_keeps (s : State) (p : Nat) (c : CanPort) : Keeps [.can] s (setCanPort s p c) := by
  unfold setCanPort
  exact Keeps.can (Keeps.refl _ _) (by decide)

theorem modCanPort_keeps (s : State) (p : Nat) (f : CanPort → CanPort) : Keeps [.can] s (modCanPort s p f) := by
  unfold modCanPort
  exact Keeps.step (Keeps.refl _ _) (setCanPort_keeps ..) (by decide)

theorem modCanBuf_keeps (s : State) (p : Nat) (b : Nat) (f : CanBuf → CanBuf) : Keeps [.can] s (modCanBuf s p b f) := by
  unfold modCanBuf
  exact Keeps.step (Keeps.refl _ _) (modCanPort_keeps ..) (by decide)

theorem queueTx_keeps (s : State) (p : Nat) (b : Nat) (t : CanTx) : Keeps [.can] s (queueTx s p b t) := by
  unfold queueTx
  extract_lets +onlyGivenNames _
  exact Keeps.step (Keeps.step (Keeps.refl _ _) (modCanBuf_keeps ..) (by decide)) (modCanPort_keeps ..) (by decide)

theorem blockSend_keeps (s : State) (p : Nat) (b : Nat) (iid : Nat) (id : Nat) (len : Nat) (data : List Word) : Keeps [.can] s
    (blockSend s p b iid id len data) := by
  unfold blockSend
  extract_lets +onlyGivenNames _
  extract_lets +onlyGivenNames _
  refine Keeps.ite (Keeps.step (Keeps.refl _ _) (queueTx_keeps ..) (by decide)) ?_
  exact Keeps.step (Keeps.refl _ _) (modCanBuf_keeps ..) (by decide)

theorem failTx_keeps (s : State) (p : Nat) (cause : Nat) (b : Nat) : Keeps [.rings, .msixPend, .can, .out] s (failTx s p cause
    b) := by
  unfold failTx
  split
  · exact Keeps.refl _ _
  · extract_lets +onlyGivenNames x0
    have h0 : Keeps [.rings, .msixPend, .can, .out] s x0 := Keeps.step (Keeps.refl _ _) (modCanBuf_keeps ..) (by decide)
    clear_value x0
    exact Keeps.ite (Keeps.step h0 (completeAll_keeps ..) (by decide)) h0

theorem failAllTx_keeps (s : State) (p : Nat) (cause : Nat) : Keeps [.rings, .msixPend, .can, .out] s (failAllTx s p cause) :=
    by
  unfold failAllTx
  refine Keeps.forAll (Keeps.refl _ _) fun _ _ h0 => ?_
  exact Keeps.step h0 (failTx_keeps ..) (by decide)

theorem canBallLost_keeps (s : State) : Keeps [.rings, .msixPend, .can, .out] s (canBallLost s) := by
  unfold canBallLost
  refine Keeps.forAll (Keeps.refl _ _) fun _ _ h0 => ?_
  refine Keeps.ite ?_ ?_
  · extract_lets +onlyGivenNames x1
    have h1 : Keeps [.rings, .msixPend, .can, .out] s x1 := Keeps.step h0 (modCanPort_keeps ..) (by decide)
    clear_value x1
    exact Keeps.step (Keeps.step h1 (failAllTx_keeps ..) (by decide)) (completeAll_keeps ..) (by decide)
  exact h0

theorem canEvent_keeps (s : State) (p : Nat) (bit : Nat) : Keeps [.regs, .evq] s (canEvent s p bit) := by
  unfold canEvent
  exact Keeps.step (Keeps.refl _ _) (raiseBits_keeps ..) (by decide)

theorem canCfgErr_keeps (s : State) (p : Nat) : Keeps [.regs, .evq] s (canCfgErr s p) := by
  unfold canCfgErr
  exact Keeps.step (Keeps.refl _ _) (canEvent_keeps ..) (by decide)

theorem canBufFieldWrite_keeps (s : State) (p : Nat) (b : Nat) (o : Nat) (v : Word) : Keeps [.regs, .evq] s (canBufFieldWrite s
    p b o v) := by
  unfold canBufFieldWrite
  refine Keeps.ite (Keeps.step (Keeps.refl _ _) (canCfgErr_keeps ..) (by decide)) ?_
  exact Keeps.step (Keeps.refl _ _) (rwrite_keeps ..) (by decide)

theorem canBufWrite_keeps (s : State) (p : Nat) (b : Nat) (v : Word) : Keeps [.regs, .evq, .can] s (canBufWrite s p b v) := by
  unfold canBufWrite
  extract_lets +onlyGivenNames _
  extract_lets +onlyGivenNames _
  refine Keeps.ite ?_ ?_
  · extract_lets +onlyGivenNames x2
    have h2 : Keeps [.regs, .evq, .can] s x2 := Keeps.step (Keeps.refl _ _) (rwrite_keeps ..) (by decide)
    clear_value x2
    refine Keeps.ite h2 ?_
    refine Keeps.ite (Keeps.step h2 (modCanBuf_keeps ..) (by decide)) ?_
    exact Keeps.step (Keeps.step h2 (rset_keeps ..) (by decide)) (canCfgErr_keeps ..) (by decide)
  extract_lets +onlyGivenNames x3
  have h3 : Keeps [.regs, .evq, .can] s x3 := Keeps.ite (Keeps.step (Keeps.refl _ _) (canCfgErr_keeps ..) (by decide))
      (Keeps.refl _ _)
  clear_value x3
  refine Keeps.ite h3 ?_
  exact Keeps.ite (Keeps.step h3 (canCfgErr_keeps ..) (by decide)) (Keeps.step h3 (rset_keeps ..) (by decide))

theorem canStop_keeps (s : State) (p : Nat) : Keeps [.rings, .msixPend, .can, .out] s (canStop s p) := by
  unfold canStop
  exact Keeps.step (Keeps.step (Keeps.refl _ _) (modCanPort_keeps ..) (by decide)) (failAllTx_keeps ..) (by decide)

abbrev canCtrlWrite_may : List Piece := [.regs, .rings, .evq, .msixPend, .can, .out]

theorem canCtrlWrite_keeps (s : State) (p : Nat) (v : Word) : Keeps canCtrlWrite_may s (canCtrlWrite s p v) := by
  unfold canCtrlWrite
  extract_lets +onlyGivenNames _
  refine Keeps.ite ?_ ?_
  · refine Keeps.ite ?_ ?_
    · extract_lets +onlyGivenNames x1
      have h1 : Keeps canCtrlWrite_may s x1 := Keeps.step (Keeps.step (Keeps.refl _ _) (rwrite_keeps ..) (by decide))
          (modCanPort_keeps ..)
          (by decide)
      clear_value x1
      exact Keeps.step h1 (completeAll_keeps ..) (by decide)
    exact Keeps.step (Keeps.step (Keeps.refl _ _) (rwrite_keeps ..) (by decide)) (canCfgErr_keeps ..) (by decide)
  refine Keeps.ite (Keeps.step (Keeps.step (Keeps.refl _ _) (rwrite_keeps ..) (by decide)) (canStop_keeps ..) (by decide)) ?_
  exact Keeps.step (Keeps.refl _ _) (rwrite_keeps ..) (by decide)

theorem canMapFieldWrite_keeps (s : State) (m : Nat) (o : Nat) (v : Word) : Keeps [.regs, .evq] s (canMapFieldWrite s m o v) :=
    by
  unfold canMapFieldWrite
  extract_lets +onlyGivenNames _
  refine Keeps.ite (Keeps.step (Keeps.refl _ _) (canCfgErr_keeps ..) (by decide)) ?_
  exact Keeps.step (Keeps.refl _ _) (rwrite_keeps ..) (by decide)

theorem canMapWrite_keeps (s : State) (m : Nat) (v : Word) : Keeps [.regs, .evq] s (canMapWrite s m v) := by
  unfold canMapWrite
  extract_lets +onlyGivenNames _
  extract_lets +onlyGivenNames _
  refine Keeps.ite ?_ ?_
  · extract_lets +onlyGivenNames x2
    have h2 : Keeps [.regs, .evq] s x2 := Keeps.step (Keeps.refl _ _) (rwrite_keeps ..) (by decide)
    clear_value x2
    refine Keeps.ite h2 ?_
    exact Keeps.ite h2 (Keeps.step (Keeps.step h2 (rset_keeps ..) (by decide)) (canCfgErr_keeps ..) (by decide))
  extract_lets +onlyGivenNames _
  extract_lets +onlyGivenNames x4
  have h4 : Keeps [.regs, .evq] s x4 := Keeps.ite (Keeps.step (Keeps.refl _ _) (canCfgErr_keeps ..) (by decide)) (Keeps.refl _
      _)
  clear_value x4
  exact Keeps.ite h4 (Keeps.step h4 (rset_keeps ..) (by decide))

theorem canRecover_keeps (s : State) (p : Nat) : Keeps [.can] s (canRecover s p) := by
  unfold canRecover
  exact Keeps.ite (Keeps.step (Keeps.refl _ _) (modCanPort_keeps ..) (by decide)) (Keeps.refl _ _)

theorem canTimingWrite_keeps (s : State) (p : Nat) (o : Nat) (v : Word) : Keeps [.regs, .evq] s (canTimingWrite s p o v) := by
  unfold canTimingWrite
  refine Keeps.ite (Keeps.step (Keeps.refl _ _) (canCfgErr_keeps ..) (by decide)) ?_
  exact Keeps.step (Keeps.refl _ _) (rwrite_keeps ..) (by decide)

theorem canWrite_keeps (s : State) (off : Nat) (v : Word) : Keeps [.regs, .rings, .evq, .msixPend, .can, .out] s (canWrite s
    off v) := by
  unfold canWrite
  extract_lets +onlyGivenNames _
  refine Keeps.ite ?_ ?_
  · extract_lets +onlyGivenNames _
    extract_lets +onlyGivenNames _
    refine Keeps.ite (Keeps.step (Keeps.refl _ _) (canCtrlWrite_keeps ..) (by decide)) ?_
    refine Keeps.ite (Keeps.step (Keeps.refl _ _) (canTimingWrite_keeps ..) (by decide)) ?_
    refine Keeps.ite (Keeps.ite (Keeps.step (Keeps.refl _ _) (canRecover_keeps ..) (by decide)) (Keeps.refl _ _)) ?_
    refine Keeps.ite ?_ ?_
    · refine Keeps.ite (Keeps.step (Keeps.refl _ _) (canBufWrite_keeps ..) (by decide)) ?_
      exact Keeps.ite (Keeps.step (Keeps.refl _ _) (canBufFieldWrite_keeps ..) (by decide)) (Keeps.refl _ _)
    exact Keeps.step (Keeps.refl _ _) (rwrite_keeps ..) (by decide)
  refine Keeps.ite ?_ ?_
  · refine Keeps.ite (Keeps.step (Keeps.refl _ _) (canMapWrite_keeps ..) (by decide)) ?_
    exact Keeps.ite (Keeps.step (Keeps.refl _ _) (canMapFieldWrite_keeps ..) (by decide)) (Keeps.refl _ _)
  exact Keeps.refl _ _

theorem decodeMaps_keeps (s : State) (p : Nat) (b : Nat) (bytes : List Nat) : Keeps [.pts, .can, .ble] s (decodeMaps s p b
    bytes) := by
  unfold decodeMaps
  refine Keeps.forAll (Keeps.refl _ _) fun _ _ h0 => ?_
  extract_lets +onlyGivenNames _
  extract_lets +onlyGivenNames _
  extract_lets +onlyGivenNames _
  exact Keeps.ite (Keeps.step h0 (modCanPort_keeps ..) (by decide)) (Keeps.step h0 (pset_keeps ..) (by decide))

theorem execCanBallTaken_keeps (p : Fin 4) (s : State) : ∃ u, execCanBallTaken p s = .next (close s u) ∧ Keeps [.can] s u := by
  refine ⟨_, rfl, ?_⟩
  refine Keeps.ite ?_ ?_
  · extract_lets +onlyGivenNames x0
    have h0 : Keeps [.can] s x0 := Keeps.step (Keeps.refl _ _) (modCanPort_keeps ..) (by decide)
    clear_value x0
    refine Keeps.forAll h0 fun _ _ h1 => ?_
    exact Keeps.ite (Keeps.step h1 (modCanBuf_keeps ..) (by decide)) h1
  exact Keeps.refl _ _

theorem execCanBufferEnable_keeps (p : Fin 4) (b : Fin 64) (v : Word) (s : State) : ∃ u, execCanBufferEnable p b v s = .next
    (close s u) ∧ Keeps [.regs, .evq, .can] s u := by
  refine ⟨_, rfl, ?_⟩
  refine Keeps.reached (Keeps.refl _ _) (fun _ h0 => ?_)
  exact Keeps.step h0 (canBufWrite_keeps ..) (by decide)

abbrev execCanErrorStateChange_may : List Piece := [.regs, .rings, .evq, .msixPend, .can, .out]

theorem execCanErrorStateChange_keeps (p : Fin 4) (tec : Nat) (rec_ : Nat) (s : State) : ∃ u, execCanErrorStateChange p tec
    rec_ s = .next (close s u) ∧ Keeps execCanErrorStateChange_may s u := by
  refine ⟨_, rfl, ?_⟩
  extract_lets +onlyGivenNames _
  refine Keeps.ite (Keeps.refl _ _) ?_
  extract_lets +onlyGivenNames _
  extract_lets +onlyGivenNames x2
  have h2 : Keeps execCanErrorStateChange_may s x2 := Keeps.step (Keeps.refl _ _) (setCanPort_keeps ..) (by decide)
  clear_value x2
  refine Keeps.ite (Keeps.step (Keeps.step h2 (canEvent_keeps ..) (by decide)) (failAllTx_keeps ..) (by decide)) ?_
  exact Keeps.ite (Keeps.step h2 (canEvent_keeps ..) (by decide)) h2

theorem storeFrame_keeps (s : State) (p : Nat) (b : Nat) (idw : Word) (bytes : List Nat) : Keeps [.pts, .can, .ble] s
    (storeFrame s p b idw bytes) := by
  unfold storeFrame
  extract_lets +onlyGivenNames x0
  have h0 : Keeps [.pts, .can, .ble] s x0 := by
    refine Keeps.forAll (Keeps.refl _ _) fun _ _ h1 => ?_
    exact Keeps.step h1 (pset_keeps ..) (by decide)
  clear_value x0
  extract_lets +onlyGivenNames x2
  have h2 : Keeps [.pts, .can, .ble] s x2 := Keeps.step h0 (modCanBuf_keeps ..) (by decide)
  clear_value x2
  exact Keeps.ite (Keeps.step h2 (decodeMaps_keeps ..) (by decide)) h2

theorem execCanFrameReceived_keeps (p : Fin 4) (id : BitVec 29) (ide : Bool) (fdf : Bool) (brs : Bool) (remote : Bool) (bytes :
    List Nat) (s : State) : ∃ u, execCanFrameReceived p id ide fdf brs remote bytes s = .next (close s u) ∧ Keeps [.pts, .can,
    .ble] s u := by
  refine ⟨_, rfl, ?_⟩
  refine Keeps.ite (Keeps.refl _ _) ?_
  extract_lets +onlyGivenNames x0
  have h0 : Keeps [.pts, .can, .ble] s x0 := Keeps.step (Keeps.refl _ _) (modCanPort_keeps ..) (by decide)
  clear_value x0
  extract_lets +onlyGivenNames x1
  clear_value x1
  split
  · exact Keeps.step h0 (storeFrame_keeps ..) (by decide)
  · exact Keeps.step h0 (modCanPort_keeps ..) (by decide)

theorem execCanMapEnable_keeps (m : Fin 256) (v : Word) (s : State) : ∃ u, execCanMapEnable m v s = .next (close s u) ∧ Keeps
    [.regs, .evq] s u := by
  refine ⟨_, rfl, ?_⟩
  refine Keeps.reached (Keeps.refl _ _) (fun _ h0 => ?_)
  exact Keeps.step h0 (canMapWrite_keeps ..) (by decide)

theorem execCanPortDisable_keeps (p : Fin 4) (v : Word) (s : State) : ∃ u, execCanPortDisable p v s = .next (close s u) ∧ Keeps
    [.regs, .rings, .evq, .msixPend, .can, .out] s u := by
  refine ⟨_, rfl, ?_⟩
  refine Keeps.reached (Keeps.refl _ _) (fun _ h0 => ?_)
  exact Keeps.step h0 (canCtrlWrite_keeps ..) (by decide)

theorem execCanPortEnable_keeps (p : Fin 4) (v : Word) (s : State) : ∃ u, execCanPortEnable p v s = .next (close s u) ∧ Keeps
    [.regs, .rings, .evq, .msixPend, .can, .out] s u := by
  refine ⟨_, rfl, ?_⟩
  refine Keeps.reached (Keeps.refl _ _) (fun _ h0 => ?_)
  exact Keeps.step h0 (canCtrlWrite_keeps ..) (by decide)

theorem execCanRecoverCmd_keeps (p : Fin 4) (s : State) : ∃ u, execCanRecoverCmd p s = .next (close s u) ∧ Keeps [.can] s u :=
    by
  refine ⟨_, rfl, ?_⟩
  refine Keeps.reached (Keeps.refl _ _) (fun _ h0 => ?_)
  exact Keeps.step h0 (canRecover_keeps ..) (by decide)

abbrev execCanRecovered_may : List Piece := [.regs, .rings, .evq, .msixPend, .can, .out]

theorem execCanRecovered_keeps (p : Fin 4) (s : State) : ∃ u, execCanRecovered p s = .next (close s u) ∧ Keeps
    execCanRecovered_may s u := by
  refine ⟨_, rfl, ?_⟩
  refine Keeps.ite ?_ ?_
  · extract_lets +onlyGivenNames x0
    have h0 : Keeps execCanRecovered_may s x0 := Keeps.step (Keeps.refl _ _) (modCanPort_keeps ..) (by decide)
    clear_value x0
    exact Keeps.step (Keeps.step h0 (canEvent_keeps ..) (by decide)) (completeAll_keeps ..) (by decide)
  exact Keeps.refl _ _

theorem goStale_keeps (s : State) (p : Nat) (b : Nat) : Keeps [.regs, .pts, .evq, .can, .ble] s (goStale s p b) := by
  unfold goStale
  extract_lets +onlyGivenNames _
  extract_lets +onlyGivenNames _
  extract_lets +onlyGivenNames x2
  have h2 : Keeps [.regs, .pts, .evq, .can, .ble] s x2 := Keeps.step (Keeps.step (Keeps.refl _ _) (modCanBuf_keeps ..) (by
      decide)) (canEvent_keeps ..)
      (by decide)
  clear_value x2
  refine Keeps.forAll h2 fun _ _ h3 => ?_
  exact Keeps.step h3 (pset_keeps ..) (by decide)

theorem execCanRxStale_keeps (p : Fin 4) (b : Fin 64) (s : State) : ∃ u, execCanRxStale p b s = .next (close s u) ∧ Keeps
    [.regs, .pts, .evq, .can, .ble] s u := by
  refine ⟨_, rfl, ?_⟩
  extract_lets +onlyGivenNames _
  extract_lets +onlyGivenNames _
  exact Keeps.ite (Keeps.step (Keeps.refl _ _) (goStale_keeps ..) (by decide)) (Keeps.refl _ _)

theorem execCanTransmitEnd_keeps (p : Fin 4) (b : Fin 64) (cause : Fin 4) (s : State) : ∃ u, execCanTransmitEnd p b cause s =
    .next (close s u) ∧ Keeps [.rings, .msixPend, .can, .out] s u := by
  refine ⟨_, rfl, ?_⟩
  split
  · exact Keeps.refl _ _
  · refine Keeps.ite (Keeps.refl _ _) ?_
    extract_lets +onlyGivenNames x0
    have h0 : Keeps [.rings, .msixPend, .can, .out] s x0 := Keeps.step (Keeps.refl _ _) (modCanPort_keeps ..) (by decide)
    clear_value x0
    refine Keeps.ite ?_ ?_
    · extract_lets +onlyGivenNames x1
      have h1 : Keeps [.rings, .msixPend, .can, .out] s x1 := Keeps.step h0 (emit_keeps ..) (by decide)
      clear_value x1
      extract_lets +onlyGivenNames x2
      have h2 : Keeps [.rings, .msixPend, .can, .out] s x2 := Keeps.step h1 (modCanPort_keeps ..) (by decide)
      clear_value x2
      extract_lets +onlyGivenNames x3
      have h3 : Keeps [.rings, .msixPend, .can, .out] s x3 := Keeps.step h2 (modCanBuf_keeps ..) (by decide)
      clear_value x3
      exact Keeps.ite (Keeps.step h3 (completeAll_keeps ..) (by decide)) h3
    exact Keeps.ite (Keeps.step h0 (failTx_keeps ..) (by decide)) h0

theorem execMappedTx_keeps (p : Fin 4) (b : Fin 64) (s : State) : ∃ u, execMappedTx p b s = .next (close s u) ∧ Keeps [.can] s
    u := by
  refine ⟨_, rfl, ?_⟩
  extract_lets +onlyGivenNames _
  extract_lets +onlyGivenNames _
  refine Keeps.ite ?_ ?_
  · extract_lets +onlyGivenNames x2
    have h2 : Keeps [.can] s x2 := by
      refine Keeps.ite (Keeps.refl _ _) ?_
      exact Keeps.step (Keeps.step (Keeps.refl _ _) (queueTx_keeps ..) (by decide)) (modCanBuf_keeps ..) (by decide)
    clear_value x2
    exact Keeps.step h2 (modCanBuf_keeps ..) (by decide)
  exact Keeps.refl _ _

end Sys2Proof.Laws
end

