-- ==== Sys2Proof/Laws/KeepsTask.lean ====
section
/-! SUPPORT. For every operation of Machine/Task.lean: the pieces of the state it may change; every other piece is exactly
what it was. -/

namespace Sys2Proof.Laws

open Machine

theorem startCycle_keeps (s : State) (t : Nat) (unit : Nat) (ts : Nat) : Keeps [.ble] s (startCycle s t unit ts) := by
  unfold startCycle
  exact Keeps.ble (Keeps.refl _ _) (by decide)

theorem beginCycle_keeps (s : State) (t : Nat) (unit : Nat) (ts : Nat) : Keeps [.ble] s (beginCycle s t unit ts) := by
  unfold beginCycle
  exact Keeps.step (Keeps.ble (Keeps.refl _ _) (by decide)) (startCycle_keeps ..) (by decide)

theorem clearCycles_keeps (s : State) : Keeps [.lce, .ble] s (clearCycles s) := by
  unfold clearCycles
  refine Keeps.many (t := s) ?_ rfl (fun p hp => by cases p <;> first | rfl | exact absurd (by decide) hp)
  exact Keeps.refl _ _

theorem coldLoop_keeps (s : State) (n : Nat) : Keeps [.pts, .can, .lce, .ble] s (coldLoop s n) := by
  unfold coldLoop
  extract_lets +onlyGivenNames _
  extract_lets +onlyGivenNames x1
  have h1 : Keeps [.pts, .can, .lce, .ble] s x1 := Keeps.step (Keeps.refl _ _) (pset_keeps ..) (by decide)
  clear_value x1
  extract_lets +onlyGivenNames x2
  have h2 : Keeps [.pts, .can, .lce, .ble] s x2 := Keeps.step h1 (pset_keeps ..) (by decide)
  clear_value x2
  extract_lets +onlyGivenNames x3
  have h3 : Keeps [.pts, .can, .lce, .ble] s x3 := Keeps.step h2 (pset_keeps ..) (by decide)
  clear_value x3
  exact Keeps.step h3 (setLoop_keeps ..) (by decide)

theorem initVars_keeps (s : State) (im : Image) : Keeps [.pts, .can, .ble] s (initVars s im) := by
  unfold initVars
  refine Keeps.forAll (Keeps.refl _ _) fun _ _ h0 => ?_
  exact Keeps.step h0 (pset_keeps ..) (by decide)

theorem freshTasks_keeps (s : State) : Keeps [.ble] s (freshTasks s) := by
  unfold freshTasks
  refine Keeps.forAll (Keeps.refl _ _) fun _ _ h0 => ?_
  exact Keeps.step h0 (setTask_keeps ..) (by decide)

theorem coldStart_keeps (s : State) (im : Image) : Keeps [.pts, .can, .lce, .ble] s (coldStart s im) := by
  unfold coldStart
  extract_lets +onlyGivenNames -merge -useContext _ x0
  have h0 : Keeps [.pts, .can, .lce, .ble] s x0 := Keeps.step (Keeps.ble (Keeps.refl _ _) (by decide)) (clearCycles_keeps ..)
      (by decide)
  clear_value x0
  extract_lets +onlyGivenNames x1
  have h1 : Keeps [.pts, .can, .lce, .ble] s x1 := Keeps.step (Keeps.step h0 (initVars_keeps ..) (by decide)) (freshTasks_keeps
      ..) (by decide)
  clear_value x1
  refine Keeps.forAll h1 fun _ _ h2 => ?_
  exact Keeps.step h2 (coldLoop_keeps ..) (by decide)

theorem mergeInst_keeps (s : State) (w : Work) (i : Inst) : Keeps [.ble] s (mergeInst s w i) := by
  unfold mergeInst
  refine Keeps.forAll (Keeps.refl _ _) fun _ _ h0 => ?_
  extract_lets +onlyGivenNames _
  exact Keeps.ite h0 (Keeps.step h0 (dset_keeps ..) (by decide))

theorem setRioOut_keeps (s : State) (st : Nat) (idx : Nat) (v : Word) : Keeps [.eth] s (setRioOut s st idx v) := by
  unfold setRioOut
  extract_lets +onlyGivenNames _
  extract_lets +onlyGivenNames _
  exact Keeps.eth (Keeps.refl _ _) (by decide)

theorem commitOuter_keeps (s : State) (f : Fx) : Keeps [.eth, .can] s (commitOuter s f) := by
  unfold commitOuter
  split
  · exact Keeps.step (Keeps.refl _ _) (setRioOut_keeps ..) (by decide)
  · exact Keeps.step (Keeps.refl _ _) (blockSend_keeps ..) (by decide)
  · exact Keeps.refl _ _

theorem commitEvent_keeps (t : Nat) (ts : Nat) (s : State) (f : Fx) : Keeps [.evq] s (commitEvent t ts s f) := by
  unfold commitEvent
  split
  · exact Keeps.evq (Keeps.refl _ _) (by decide)
  · exact Keeps.refl _ _

theorem commitEvents_keeps (s : State) (t : Nat) (ts : Nat) (l : List Fx) : Keeps [.regs, .evq] s (commitEvents s t ts l) := by
  unfold commitEvents
  extract_lets +onlyGivenNames x0
  have h0 : Keeps [.regs, .evq] s x0 := by
    refine Keeps.forAll (Keeps.refl _ _) fun _ _ h1 => ?_
    exact Keeps.step h1 (commitEvent_keeps ..) (by decide)
  clear_value x0
  extract_lets +onlyGivenNames _
  exact Keeps.ite h0 (Keeps.step (Keeps.step h0 (rset_keeps ..) (by decide)) (bleEvent_keeps ..) (by decide))

theorem writePoints_keeps (s : State) (ws : List (Nat × Word)) : Keeps [.pts, .banks, .ch, .can, .ble, .out] s (writePoints s
    ws) := by
  unfold writePoints
  extract_lets +onlyGivenNames _
  extract_lets +onlyGivenNames x1
  have h1 : Keeps [.pts, .banks, .ch, .can, .ble, .out] s x1 := by
    refine Keeps.forAll (Keeps.refl _ _) fun _ _ h2 => ?_
    exact Keeps.ite h2 (Keeps.step h2 (pset_keeps ..) (by decide))
  clear_value x1
  exact Keeps.step h1 (commitWrites_keeps ..) (by decide)

abbrev commitCycle_may : List Piece := [.regs, .pts, .banks, .ch, .evq, .eth, .can, .lce, .ble, .out]

theorem commitCycle_keeps (s : State) (im : Image) (c : Cycle) (time : Nat) : Keeps commitCycle_may s (commitCycle s im c time)
    := by
  unfold commitCycle
  split
  · exact Keeps.refl _ _
  · extract_lets +onlyGivenNames _
    extract_lets +onlyGivenNames -merge -useContext _ x1
    have h1 : Keeps commitCycle_may s x1 := Keeps.ble (Keeps.refl _ _) (by decide)
    clear_value x1
    extract_lets +onlyGivenNames x2
    have h2 : Keeps commitCycle_may s x2 := by
      refine Keeps.forAll h1 fun _ _ h3 => ?_
      exact Keeps.step h3 (mergeInst_keeps ..) (by decide)
    clear_value x2
    extract_lets +onlyGivenNames x4
    have h4 : Keeps commitCycle_may s x4 := Keeps.step h2 (writePoints_keeps ..) (by decide)
    clear_value x4
    extract_lets +onlyGivenNames x5
    have h5 : Keeps commitCycle_may s x5 := by
      refine Keeps.forAll h4 fun _ _ h6 => ?_
      exact Keeps.step h6 (commitOuter_keeps ..) (by decide)
    clear_value x5
    extract_lets +onlyGivenNames x7
    have h7 : Keeps commitCycle_may s x7 := Keeps.step h5 (commitEvents_keeps ..) (by decide)
    clear_value x7
    extract_lets +onlyGivenNames _
    extract_lets +onlyGivenNames x9
    have h9 : Keeps commitCycle_may s x9 := Keeps.step h7 (setTask_keeps ..) (by decide)
    clear_value x9
    refine Keeps.ite (Keeps.step (Keeps.ble h9 (by decide)) (forceSave_keeps ..) (by decide)) ?_
    exact Keeps.ite (Keeps.step h9 (dueSave_keeps ..) (by decide)) h9

theorem dispatchTask_keeps (s : State) (t : Nat) (entry : Nat) (executed : Nat) : Keeps [.ble] s (dispatchTask s t entry
    executed) := by
  unfold dispatchTask
  extract_lets +onlyGivenNames _
  refine Keeps.ite (Keeps.step (Keeps.refl _ _) (beginCycle_keeps ..) (by decide)) ?_
  exact Keeps.ble (Keeps.refl _ _) (by decide)

theorem taskEvent_keeps (s : State) (bit : Nat) (t : Nat) : Keeps [.regs, .evq] s (taskEvent s bit t) := by
  unfold taskEvent
  exact Keeps.step (Keeps.refl _ _) (raiseBits_keeps ..) (by decide)

abbrev overrun_may : List Piece := [.regs, .pts, .banks, .ch, .rings, .evq, .msixPend, .can, .lce, .ble, .twn, .out]

theorem overrun_keeps (s : State) (t : Nat) (d : TaskDef) : Keeps overrun_may s (overrun s t d) := by
  unfold overrun
  refine Keeps.ite (Keeps.step (Keeps.step (Keeps.refl _ _) (taskEvent_keeps ..) (by decide)) (stopCtl_keeps ..) (by decide)) ?_
  extract_lets +onlyGivenNames _
  extract_lets +onlyGivenNames _
  extract_lets +onlyGivenNames _
  extract_lets +onlyGivenNames x3
  have h3 : Keeps overrun_may s x3 := Keeps.step (Keeps.refl _ _) (setTask_keeps ..) (by decide)
  clear_value x3
  refine Keeps.ite h3 ?_
  extract_lets +onlyGivenNames x4
  have h4 : Keeps overrun_may s x4 := Keeps.step h3 (taskEvent_keeps ..) (by decide)
  clear_value x4
  exact Keeps.ite (Keeps.step h4 (stopCtl_keeps ..) (by decide)) h4

abbrev fireTask_may : List Piece := [.regs, .pts, .banks, .ch, .rings, .evq, .msixPend, .can, .lce, .ble, .twn, .out]

theorem fireTask_keeps (s : State) (t : Nat) (entry : Nat) (executed : Nat) : Keeps fireTask_may s (fireTask s t entry
    executed) := by
  unfold fireTask
  split
  · exact Keeps.refl _ _
  · extract_lets +onlyGivenNames _
    extract_lets +onlyGivenNames -merge -useContext _ x1
    have h1 : Keeps fireTask_may s x1 := Keeps.ite (Keeps.refl _ _) (Keeps.step (Keeps.refl _ _) (setTask_keeps ..) (by decide))
    clear_value x1
    refine Keeps.ite h1 ?_
    refine Keeps.ite (Keeps.step h1 (overrun_keeps ..) (by decide)) ?_
    exact Keeps.step h1 (dispatchTask_keeps ..) (by decide)

theorem execBleTask_keeps (n : Fin 1024) (executed : Nat) (e : Ecc) (s : State) : ∃ u, execBleTask n executed e s = .next
    (close s u) ∧ Keeps [.regs, .live, .pts, .phc, .banks, .ch, .rings, .evq, .msixPend, .forces, .can, .lce, .ble, .twn, .out]
    s u := by
  refine ⟨_, rfl, ?_⟩
  split
  · refine Keeps.ite ?_ ?_
    · refine Keeps.withEcc (Keeps.step (Keeps.step (Keeps.refl _ _) (dueCommits_keeps ..) (by decide)) (fireEntry_keeps (by
        assumption)) (by decide)) (fun _ h0 => ?_) (by decide)
      exact Keeps.step h0 (fireTask_keeps ..) (by decide)
    exact Keeps.step (Keeps.step (Keeps.refl _ _) (dueCommits_keeps ..) (by decide)) (fireEntry_keeps (by assumption)) (by
        decide)
  · exact Keeps.step (Keeps.refl _ _) (dueCommits_keeps ..) (by decide)

theorem execProgramStoreWriteDone_keeps (s : State) : ∃ u, execProgramStoreWriteDone s = .next (close s u) ∧ Keeps [.ble] s u
    := by
  refine ⟨_, rfl, ?_⟩
  split
  · exact Keeps.refl _ _
  · exact Keeps.ite (Keeps.ble (Keeps.refl _ _) (by decide)) (Keeps.ble (Keeps.refl _ _) (by decide))

theorem startWaiting_keeps (s : State) (executed : Nat) : Keeps [.ble] s (startWaiting s executed) := by
  unfold startWaiting
  split
  · refine Keeps.ite (Keeps.step (Keeps.ble (Keeps.refl _ _) (by decide)) (beginCycle_keeps ..) (by decide)) ?_
    exact Keeps.refl _ _
  · exact Keeps.refl _ _

theorem execTaskCycleResume_keeps (s : State) : ∃ u, execTaskCycleResume s = .next (close s u) ∧ Keeps [.ble, .free] s u := by
  refine ⟨_, rfl, ?_⟩
  refine Keeps.ite (Keeps.refl _ _) ?_
  extract_lets +onlyGivenNames x0
  have h0 : Keeps [.ble, .free] s x0.2 := Keeps.step (Keeps.refl _ _) (takeFree_keeps ..) (by decide)
  clear_value x0
  extract_lets +onlyGivenNames x1
  have h1 : Keeps [.ble, .free] s x1 := Keeps.step h0 (startWaiting_keeps ..) (by decide)
  clear_value x1
  split
  · exact Keeps.ble h1 (by decide)
  · exact h1

theorem followStop_keeps (s : State) : Keeps [.regs, .pts, .banks, .ch, .evq, .can, .ble] s (followStop s) := by
  unfold followStop
  refine Keeps.ite (Keeps.step (Keeps.refl _ _) (allDrop_keeps ..) (by decide)) ?_
  exact Keeps.step (Keeps.refl _ _) (allCause_keeps ..) (by decide)

theorem warmLoop_keeps (c : RetainCopy) (s : State) (n : Nat) : Keeps [.pts, .can, .lce, .ble] s (warmLoop c s n) := by
  unfold warmLoop
  split
  · exact Keeps.step (Keeps.refl _ _) (coldLoop_keeps ..) (by decide)
  · extract_lets +onlyGivenNames x0
    have h0 : Keeps [.pts, .can, .lce, .ble] s x0 := Keeps.step (Keeps.step (Keeps.step (Keeps.refl _ _) (pset_keeps ..) (by
        decide)) (pset_keeps
        ..) (by decide)) (pset_keeps ..) (by decide)
    clear_value x0
    extract_lets +onlyGivenNames _
    exact Keeps.ite (Keeps.step h0 (setLoop_keeps ..) (by decide)) (Keeps.step h0 (setLoop_keeps ..) (by decide))

theorem warmStart_keeps (s : State) (im : Image) (c : RetainCopy) : Keeps [.pts, .can, .lce, .ble] s (warmStart s im c) := by
  unfold warmStart
  extract_lets +onlyGivenNames _
  extract_lets +onlyGivenNames -merge -useContext _ x1
  have h1 : Keeps [.pts, .can, .lce, .ble] s x1 := Keeps.step (Keeps.ble (Keeps.refl _ _) (by decide)) (clearCycles_keeps ..)
      (by decide)
  clear_value x1
  extract_lets +onlyGivenNames x2
  have h2 : Keeps [.pts, .can, .lce, .ble] s x2 := Keeps.step h1 (initVars_keeps ..) (by decide)
  clear_value x2
  extract_lets +onlyGivenNames x3
  have h3 : Keeps [.pts, .can, .lce, .ble] s x3 := by
    refine Keeps.forAll h2 fun _ _ h4 => ?_
    exact Keeps.step h4 (pset_keeps ..) (by decide)
  clear_value x3
  extract_lets +onlyGivenNames x5
  have h5 : Keeps [.pts, .can, .lce, .ble] s x5 := Keeps.step h3 (freshTasks_keeps ..) (by decide)
  clear_value x5
  refine Keeps.forAll h5 fun _ _ h6 => ?_
  exact Keeps.step h6 (warmLoop_keeps ..) (by decide)

theorem runController_keeps (s : State) (im : Image) (cold : Bool) : Keeps [.pts, .banks, .can, .lce, .ble] s (runController s
    im cold) := by
  unfold runController
  extract_lets +onlyGivenNames x0
  have h0 : Keeps [.pts, .banks, .can, .lce, .ble] s x0 := by
    subst x0
    split
    · exact Keeps.step (Keeps.refl _ _) (warmStart_keeps ..) (by decide)
    · exact Keeps.step (Keeps.refl _ _) (coldStart_keeps ..) (by decide)
  clear_value x0
  exact Keeps.step (Keeps.ble h0 (by decide)) (allDrop_keeps ..) (by decide)

theorem storeImage_keeps (s : State) : Keeps [.ble] s (storeImage s) := by
  unfold storeImage
  split
  · exact Keeps.refl _ _
  · extract_lets +onlyGivenNames _
    exact Keeps.ble (Keeps.refl _ _) (by decide)

end Sys2Proof.Laws
end

