-- ==== Sys2Proof/Laws/KeepsOnline.lean ====
section
/-! SUPPORT. For every operation of Machine/Online.lean: the pieces of the state it may change; every other piece is exactly
what it was. -/

namespace Sys2Proof.Laws

open Machine

theorem turnImage_keeps (s : State) (new : Image) : Keeps [.img, .ble] s (turnImage s new) := by
  unfold turnImage
  refine Keeps.step ?_ (storeImage_keeps ..) (by decide)
  refine Keeps.many (t := s) ?_ rfl (fun p hp => by cases p <;> first | rfl | exact absurd (by decide) hp)
  exact Keeps.refl _ _

theorem activated_keeps (s : State) (new : Image) (r0 : Word) (r1 : Word) : Keeps [.evq] s (activated s new r0 r1) := by
  unfold activated
  exact Keeps.step (Keeps.refl _ _) (pushEv_keeps ..) (by decide)

theorem switchForces_keeps (s : State) (old : Image) (new : Image) : Keeps [.evq, .forces, .twn] s (switchForces s old new) :=
    by
  unfold switchForces
  extract_lets +onlyGivenNames x0
  have h0 : Keeps [.evq, .forces, .twn] s x0 := Keeps.step (Keeps.refl _ _) (releaseForces_keeps ..) (by decide)
  clear_value x0
  extract_lets +onlyGivenNames _
  extract_lets +onlyGivenNames x2
  have h2 : Keeps [.evq, .forces, .twn] s x2 := by
    refine Keeps.forAll h0 fun _ _ h3 => ?_
    exact Keeps.step h3 (noteForce_keeps ..) (by decide)
  clear_value x2
  extract_lets +onlyGivenNames x4
  have h4 : Keeps [.evq, .forces, .twn] s x4 := by
    refine Keeps.forAll h2 fun _ _ h5 => ?_
    exact Keeps.step h5 (noteForce_keeps ..) (by decide)
  clear_value x4
  exact Keeps.forces h4 (by decide)

theorem carryVars_keeps (s : State) (old : Image) (new : Image) : Keeps [.pts, .can, .ble] s (carryVars s old new) := by
  unfold carryVars
  extract_lets +onlyGivenNames _
  extract_lets +onlyGivenNames _
  extract_lets +onlyGivenNames x2
  have h2 : Keeps [.pts, .can, .ble] s x2 := by
    refine Keeps.forAll (Keeps.refl _ _) fun _ _ h3 => ?_
    exact Keeps.ite h3 (Keeps.step h3 (pset_keeps ..) (by decide))
  clear_value x2
  refine Keeps.forAll h2 fun _ _ h4 => ?_
  exact Keeps.step h4 (pset_keeps ..) (by decide)

abbrev activateStopped_may : List Piece := [.regs, .live, .pts, .phc, .rings, .evq, .msixPend, .forces, .img, .can, .lce, .ble,
    .twn, .out]

theorem activateStopped_keeps (s : State) (new : Image) (sched : Bool) : Keeps activateStopped_may s (activateStopped s new
    sched).1 := by
  unfold activateStopped
  extract_lets +onlyGivenNames x0
  clear_value x0
  extract_lets +onlyGivenNames x1
  have h1 : Keeps activateStopped_may s x1 := by
    subst x1
    split
    · exact Keeps.step (Keeps.step (Keeps.refl _ _) (switchForces_keeps ..) (by decide)) (carryVars_keeps ..) (by decide)
    · exact Keeps.step (Keeps.refl _ _) (initVars_keeps ..) (by decide)
  clear_value x1
  extract_lets +onlyGivenNames _
  extract_lets +onlyGivenNames -merge -useContext _ x3
  have h3 : Keeps activateStopped_may s x3 := Keeps.ble h1 (by decide)
  clear_value x3
  extract_lets +onlyGivenNames x4
  have h4 : Keeps activateStopped_may s x4 := Keeps.step h3 (turnImage_keeps ..) (by decide)
  clear_value x4
  extract_lets +onlyGivenNames x5
  have h5 : Keeps activateStopped_may s x5 := Keeps.ite (Keeps.step h4 (phcLive_keeps ..) (by decide)) h4
  clear_value x5
  exact Keeps.step (Keeps.step h5 (noteMirror_keeps ..) (by decide)) (activated_keeps ..) (by decide)

theorem endAct_keeps (s : State) (status : Nat) (r0 : Word) (r1 : Word) (detail : Word) : Keeps [.rings, .msixPend, .ble, .out]
    s (endAct s status r0 r1 detail) := by
  unfold endAct
  split
  · exact Keeps.refl _ _
  · extract_lets +onlyGivenNames -merge -useContext _ x0
    have h0 : Keeps [.rings, .msixPend, .ble, .out] s x0 := Keeps.ble (Keeps.refl _ _) (by decide)
    clear_value x0
    refine Keeps.forAll h0 fun _ _ h1 => ?_
    exact Keeps.ite (Keeps.step h1 (complete_keeps ..) (by decide)) h1

theorem failAct_keeps (s : State) (code : Nat) (extra : Word) : Keeps [.rings, .msixPend, .ble, .out] s (failAct s code extra)
    := by
  unfold failAct
  exact Keeps.step (Keeps.refl _ _) (endAct_keeps ..) (by decide)

theorem execNoWindow_keeps (s : State) : ∃ u, execNoWindow s = .next (close s u) ∧ Keeps [.rings, .msixPend, .ble, .out] s u :=
    by
  refine ⟨_, rfl, ?_⟩
  split
  · exact Keeps.ite (Keeps.step (Keeps.refl _ _) (failAct_keeps ..) (by decide)) (Keeps.refl _ _)
  · exact Keeps.refl _ _

theorem execOnlineBuildComplete_keeps (s : State) : ∃ u, execOnlineBuildComplete s = .next (close s u) ∧ Keeps [.ble] s u := by
  refine ⟨_, rfl, ?_⟩
  split
  · exact Keeps.ite (Keeps.refl _ _) (Keeps.ble (Keeps.refl _ _) (by decide))
  · exact Keeps.refl _ _

abbrev makeSwitch_may : List Piece := [.regs, .live, .pts, .phc, .rings, .evq, .msixPend, .forces, .img, .can, .lce, .ble,
    .twn, .out]

theorem makeSwitch_keeps (s : State) (a : Activation) (old : Image) (new : Image) : Keeps makeSwitch_may s (makeSwitch s a old
    new) := by
  unfold makeSwitch
  extract_lets +onlyGivenNames _
  extract_lets +onlyGivenNames _
  extract_lets +onlyGivenNames x2
  have h2 : Keeps makeSwitch_may s x2 := Keeps.step (Keeps.refl _ _) (switchForces_keeps ..) (by decide)
  clear_value x2
  extract_lets +onlyGivenNames _
  extract_lets +onlyGivenNames x4
  have h4 : Keeps makeSwitch_may s x4 := Keeps.step h2 (carryVars_keeps ..) (by decide)
  clear_value x4
  extract_lets +onlyGivenNames -merge -useContext _ x5
  have h5 : Keeps makeSwitch_may s x5 := Keeps.ble h4 (by decide)
  clear_value x5
  extract_lets +onlyGivenNames -merge -useContext _ x6
  have h6 : Keeps makeSwitch_may s x6 := Keeps.ble h5 (by decide)
  clear_value x6
  extract_lets +onlyGivenNames x7
  have h7 : Keeps makeSwitch_may s x7 := by
    refine Keeps.forAll h6 fun _ _ h8 => ?_
    exact Keeps.step h8 (setTask_keeps ..) (by decide)
  clear_value x7
  extract_lets +onlyGivenNames x9
  have h9 : Keeps makeSwitch_may s x9 := Keeps.step h7 (turnImage_keeps ..) (by decide)
  clear_value x9
  extract_lets +onlyGivenNames x10
  have h10 : Keeps makeSwitch_may s x10 := Keeps.ite (Keeps.step h9 (phcLive_keeps ..) (by decide)) h9
  clear_value x10
  extract_lets +onlyGivenNames x11
  have h11 : Keeps makeSwitch_may s x11 := Keeps.step (Keeps.step h10 (noteMirror_keeps ..) (by decide)) (activated_keeps ..)
      (by decide)
  clear_value x11
  exact Keeps.step h11 (endAct_keeps ..) (by decide)

theorem execOnlineSwitch_keeps (poisoned : Option Nat) (s : State) : ∃ u, execOnlineSwitch poisoned s = .next (close s u) ∧
    Keeps [.regs, .live, .pts, .phc, .banks, .ch, .rings, .evq, .msixPend, .forces, .img, .can, .lce, .ble, .twn, .out] s u :=
    by
  refine ⟨_, rfl, ?_⟩
  split
  · refine Keeps.ite (Keeps.refl _ _) ?_
    split
    · exact Keeps.step (Keeps.refl _ _) (failAct_keeps ..) (by decide)
    · split
      · exact Keeps.step (Keeps.step (Keeps.step (Keeps.refl _ _) (poison_keeps ..) (by decide)) (stopCtl_keeps ..) (by
          decide)) (failAct_keeps ..) (by decide)
      · exact Keeps.step (Keeps.refl _ _) (makeSwitch_keeps ..) (by decide)
  · exact Keeps.refl _ _

end Sys2Proof.Laws
end

