-- ==== Sys2Proof/Laws/KeepsEther.lean ====
section
/-! SUPPORT. For every operation of Machine/Ether.lean: the pieces of the state it may change; every other piece is exactly
what it was. -/

namespace Sys2Proof.Laws

open Machine

theorem setPort_keeps (s : State) (p : Nat) (v : EPort) : Keeps [.eth] s (setPort s p v) := by
  unfold setPort
  exact Keeps.eth (Keeps.refl _ _) (by decide)

theorem bump_keeps (s : State) (p : Nat) (k : Nat) (n : Nat) : Keeps [.regs, .evq, .eth] s (bump s p k n) := by
  unfold bump
  extract_lets +onlyGivenNames _
  extract_lets +onlyGivenNames _
  extract_lets +onlyGivenNames _
  extract_lets +onlyGivenNames x3
  have h3 : Keeps [.regs, .evq, .eth] s x3 := Keeps.step (Keeps.refl _ _) (setPort_keeps ..) (by decide)
  clear_value x3
  exact Keeps.ite h3 (Keeps.step h3 (raiseBits_keeps ..) (by decide))

theorem modPort_keeps (s : State) (p : Nat) (f : EPort → EPort) : Keeps [.eth] s (modPort s p f) := by
  unfold modPort
  exact Keeps.step (Keeps.refl _ _) (setPort_keeps ..) (by decide)

theorem captureReq_keeps (s : State) (p : Nat) (seq : Nat) : Keeps [.regs, .evq, .ptp, .eth] s (captureReq s p seq) := by
  unfold captureReq
  extract_lets +onlyGivenNames x0
  have h0 : Keeps [.regs, .evq, .ptp, .eth] s x0 := Keeps.step (Keeps.refl _ _) (modPort_keeps ..) (by decide)
  clear_value x0
  refine Keeps.ite (Keeps.step (Keeps.step (Keeps.ptp h0 (by decide)) (bump_keeps ..) (by decide)) (raiseBoth_keeps ..) (by
      decide)) ?_
  exact Keeps.step h0 (modPort_keeps ..) (by decide)

theorem dropLink_keeps (s : State) (p : Nat) : Keeps [.regs, .evq, .eth] s (dropLink s p) := by
  unfold dropLink
  extract_lets +onlyGivenNames _
  extract_lets +onlyGivenNames x1
  have h1 : Keeps [.regs, .evq, .eth] s x1 := Keeps.step (Keeps.refl _ _) (setPort_keeps ..) (by decide)
  clear_value x1
  exact Keeps.ite (Keeps.step h1 (bump_keeps ..) (by decide)) h1

theorem execAddressAgeOut_keeps (mac : BitVec 48) (vid : BitVec 12) (s : State) : ∃ u, execAddressAgeOut mac vid s = .next
    (close s u) ∧ Keeps [.eth] s u := by
  refine ⟨_, rfl, ?_⟩
  exact Keeps.eth (Keeps.refl _ _) (by decide)

theorem filterWrite_keeps (s : State) (p : Nat) (n : Nat) (v : Word) : Keeps [.regs, .eth] s (filterWrite s p n v) := by
  unfold filterWrite
  refine Keeps.ite (Keeps.refl _ _) ?_
  extract_lets +onlyGivenNames _
  extract_lets +onlyGivenNames x1
  have h1 : Keeps [.regs, .eth] s x1 := Keeps.step (Keeps.refl _ _) (rwrite_keeps ..) (by decide)
  clear_value x1
  exact Keeps.step h1 (modPort_keeps ..) (by decide)

theorem execFilterApply_keeps (p : Fin 2) (n : Fin 32) (v : Word) (s : State) : ∃ u, execFilterApply p n v s = .next (close s
    u) ∧ Keeps [.regs, .eth] s u := by
  refine ⟨_, rfl, ?_⟩
  refine Keeps.reached (Keeps.refl _ _) (fun _ h0 => ?_)
  exact Keeps.step h0 (filterWrite_keeps ..) (by decide)

theorem fillPost_keeps (s : State) (n : Nat) (f : Flight) (x : RxFrame) : Keeps [.rings, .msixPend, .out] s (fillPost s n f x)
    := by
  unfold fillPost
  exact Keeps.step (Keeps.refl _ _) (completeOut_keeps ..) (by decide)

theorem rxDeliver_keeps (s : State) (p : Nat) (q : Nat) (bytes : List Nat) (flags : Nat) : Keeps [.regs, .rings, .evq,
    .msixPend, .eth, .out] s (rxDeliver s p q bytes flags) := by
  unfold rxDeliver
  extract_lets +onlyGivenNames x0
  clear_value x0
  split
  · exact Keeps.step (Keeps.refl _ _) (fillPost_keeps ..) (by decide)
  · refine Keeps.ite (Keeps.step (Keeps.refl _ _) (bump_keeps ..) (by decide)) ?_
    exact Keeps.step (Keeps.refl _ _) (modPort_keeps ..) (by decide)

theorem learn_keeps (s : State) (p : Nat) (b : List Nat) : Keeps [.eth] s (learn s p b) := by
  unfold learn
  extract_lets +onlyGivenNames _
  extract_lets +onlyGivenNames _
  refine Keeps.ite (Keeps.refl _ _) ?_
  extract_lets +onlyGivenNames _
  exact Keeps.ite (Keeps.refl _ _) (Keeps.eth (Keeps.refl _ _) (by decide))

theorem txEnq_keeps (s : State) (p : Nat) (f : TxFrame) : Keeps [.eth] s (txEnq s p f) := by
  unfold txEnq
  exact Keeps.step (Keeps.refl _ _) (modPort_keeps ..) (by decide)

theorem forward_keeps (s : State) (p : Nat) (bytes : List Nat) (ingress : Nat) : Keeps [.regs, .evq, .eth] s (forward s p bytes
    ingress) := by
  unfold forward
  extract_lets +onlyGivenNames _
  refine Keeps.ite (Keeps.step (Keeps.refl _ _) (bump_keeps ..) (by decide)) ?_
  refine Keeps.ite (Keeps.step (Keeps.refl _ _) (bump_keeps ..) (by decide)) ?_
  exact Keeps.step (Keeps.step (Keeps.refl _ _) (bump_keeps ..) (by decide)) (txEnq_keeps ..) (by decide)

theorem flReject_keeps (s : State) : Keeps [.regs, .evq] s (flReject s) := by
  unfold flReject
  exact Keeps.step (Keeps.step (Keeps.refl _ _) (poison_keeps ..) (by decide)) (rinc_keeps ..) (by decide)

theorem internalFrame_keeps (s : State) (p : Nat) (b : List Nat) : Keeps [.regs, .rings, .evq, .msixPend, .eth, .out] s
    (internalFrame s p b) := by
  unfold internalFrame
  refine Keeps.ite (Keeps.refl _ _) ?_
  refine Keeps.ite (Keeps.ite (Keeps.refl _ _) (Keeps.step (Keeps.refl _ _) (flReject_keeps ..) (by decide))) ?_
  exact Keeps.step (Keeps.refl _ _) (rxDeliver_keeps ..) (by decide)

abbrev switchFrame_may : List Piece := [.regs, .rings, .evq, .msixPend, .eth, .out]

theorem switchFrame_keeps (s : State) (p : Nat) (b : List Nat) (ingress : Nat) : Keeps switchFrame_may s (switchFrame s p b
    ingress) := by
  unfold switchFrame
  extract_lets +onlyGivenNames x0
  clear_value x0
  extract_lets +onlyGivenNames x1
  have h1 : Keeps switchFrame_may s x1 := Keeps.step (Keeps.refl _ _) (learn_keeps ..) (by decide)
  clear_value x1
  extract_lets +onlyGivenNames x2
  clear_value x2
  refine Keeps.ite (Keeps.step h1 (internalFrame_keeps ..) (by decide)) ?_
  split
  · exact Keeps.ite (Keeps.step h1 (forward_keeps ..) (by decide)) h1
  · extract_lets +onlyGivenNames x3
    have h3 : Keeps switchFrame_may s x3 := Keeps.ite (Keeps.step h1 (forward_keeps ..) (by decide)) h1
    clear_value x3
    exact Keeps.ite (Keeps.step h3 (internalFrame_keeps ..) (by decide)) h3

abbrev receiveFrame_may : List Piece := [.regs, .rings, .evq, .msixPend, .eth, .out]

theorem receiveFrame_keeps (s : State) (p : Nat) (b : List Nat) (fcs : Bool) (ingress : Nat) : Keeps receiveFrame_may s
    (receiveFrame s p b fcs ingress) := by
  unfold receiveFrame
  extract_lets +onlyGivenNames _
  refine Keeps.ite (Keeps.step (Keeps.refl _ _) (bump_keeps ..) (by decide)) ?_
  refine Keeps.ite ?_ ?_
  · extract_lets +onlyGivenNames x1
    have h1 : Keeps receiveFrame_may s x1 := Keeps.step (Keeps.refl _ _) (bump_keeps ..) (by decide)
    clear_value x1
    exact Keeps.ite (Keeps.step h1 (rxDeliver_keeps ..) (by decide)) h1
  refine Keeps.ite (Keeps.step (Keeps.refl _ _) (bump_keeps ..) (by decide)) ?_
  extract_lets +onlyGivenNames x2
  have h2 : Keeps receiveFrame_may s x2 := Keeps.step (Keeps.step (Keeps.refl _ _) (bump_keeps ..) (by decide)) (bump_keeps ..)
      (by decide)
  clear_value x2
  extract_lets +onlyGivenNames _
  extract_lets +onlyGivenNames x4
  have h4 : Keeps receiveFrame_may s x4 := by
    refine Keeps.ite (Keeps.step h2 (bump_keeps ..) (by decide)) ?_
    exact Keeps.ite (Keeps.step h2 (bump_keeps ..) (by decide)) h2
  clear_value x4
  extract_lets +onlyGivenNames x5
  have h5 : Keeps receiveFrame_may s x5 := Keeps.ite (Keeps.step h4 (modPort_keeps ..) (by decide)) h4
  clear_value x5
  exact Keeps.ite (Keeps.step h5 (bump_keeps ..) (by decide)) (Keeps.step h5 (switchFrame_keeps ..) (by decide))

theorem execFrameReceived_keeps (p : Fin 2) (bytes : List Nat) (fcs : Bool) (ingress : Nat) (s : State) : ∃ u,
    execFrameReceived p bytes fcs ingress s = .next (close s u) ∧ Keeps [.regs, .rings, .evq, .msixPend, .eth, .out] s u := by
  refine ⟨_, rfl, ?_⟩
  exact Keeps.ite (Keeps.step (Keeps.refl _ _) (receiveFrame_keeps ..) (by decide)) (Keeps.refl _ _)

abbrev transmitEnd_may : List Piece := [.regs, .rings, .evq, .msixPend, .ptp, .eth, .out]

theorem transmitEnd_keeps (s : State) (p : Nat) (egress : Nat) : Keeps transmitEnd_may s (transmitEnd s p egress) := by
  unfold transmitEnd
  extract_lets +onlyGivenNames x0
  clear_value x0
  split
  · exact Keeps.refl _ _
  · extract_lets +onlyGivenNames x1
    clear_value x1
    extract_lets +onlyGivenNames x2
    clear_value x2
    extract_lets +onlyGivenNames x3
    clear_value x3
    extract_lets +onlyGivenNames x4
    have h4 : Keeps transmitEnd_may s x4 := Keeps.step (Keeps.step (Keeps.refl _ _) (setPort_keeps ..) (by decide)) (emit_keeps
        ..) (by
        decide)
    clear_value x4
    extract_lets +onlyGivenNames x5
    have h5 : Keeps transmitEnd_may s x5 := Keeps.ite (Keeps.step h4 (captureReq_keeps ..) (by decide)) h4
    clear_value x5
    extract_lets +onlyGivenNames x6
    have h6 : Keeps transmitEnd_may s x6 := Keeps.step (Keeps.step h5 (bump_keeps ..) (by decide)) (bump_keeps ..) (by decide)
    clear_value x6
    extract_lets +onlyGivenNames x7
    have h7 : Keeps transmitEnd_may s x7 := Keeps.ite (Keeps.step h6 (bump_keeps ..) (by decide)) h6
    clear_value x7
    split
    · refine Keeps.forAll h7 fun _ _ h8 => ?_
      exact Keeps.ite (Keeps.step h8 (complete_keeps ..) (by decide)) h8
    · exact h7

theorem execFrameTransmitEnd_keeps (p : Fin 2) (egress : Nat) (s : State) : ∃ u, execFrameTransmitEnd p egress s = .next (close
    s u) ∧ Keeps [.regs, .rings, .evq, .msixPend, .ptp, .eth, .out] s u := by
  refine ⟨_, rfl, ?_⟩
  exact Keeps.ite (Keeps.step (Keeps.refl _ _) (transmitEnd_keeps ..) (by decide)) (Keeps.refl _ _)

theorem execLpiEntry_keeps (p : Fin 2) (s : State) : ∃ u, execLpiEntry p s = .next (close s u) ∧ Keeps [.regs, .evq, .eth] s u
    := by
  refine ⟨_, rfl, ?_⟩
  refine Keeps.ite (Keeps.step (Keeps.step (Keeps.refl _ _) (setPort_keeps ..) (by decide)) (bump_keeps ..) (by decide)) ?_
  exact Keeps.refl _ _

theorem flNext_keeps (s : State) (key : Nat) : Keeps [.eth] s (flNext s key).2 := by
  unfold flNext
  extract_lets +onlyGivenNames _
  exact Keeps.eth (Keeps.refl _ _) (by decide)

theorem sendInternal_keeps (s : State) (p : Nat) (q : Nat) (bytes : List Nat) (rg : Option Nat) : Keeps [.eth] s (sendInternal
    s p q bytes rg) := by
  unfold sendInternal
  exact Keeps.ite (Keeps.step (Keeps.refl _ _) (txEnq_keeps ..) (by decide)) (Keeps.refl _ _)

theorem sendTo_keeps (s : State) (q : Nat) (mac : Nat) (vid : Nat) (bytes : List Nat) : Keeps [.eth] s (sendTo s q mac vid
    bytes) := by
  unfold sendTo
  refine Keeps.forAll (Keeps.refl _ _) fun _ _ h0 => ?_
  exact Keeps.step h0 (sendInternal_keeps ..) (by decide)

theorem flSend_keeps (s : State) (typ : Nat) (q : Nat) (key : Nat) (mac : Nat) (body : List Nat) : Keeps [.eth] s (flSend s typ
    q key mac body) := by
  unfold flSend
  split
  · refine Keeps.step ?_ (sendTo_keeps ..) (by decide)
    refine Keeps.of_eq_snd ?_ ‹_›
    exact Keeps.step (Keeps.refl _ _) (flNext_keeps ..) (by decide)

theorem renegotiate_keeps (s : State) (p : Nat) (down : Bool) : Keeps [.regs, .evq, .eth] s (renegotiate s p down) := by
  unfold renegotiate
  exact Keeps.step (Keeps.step (Keeps.step (Keeps.refl _ _) (modPort_keeps ..) (by decide)) (dropLink_keeps ..) (by decide))
      (bump_keeps ..) (by decide)

end Sys2Proof.Laws
end

