-- ==== Sys2Proof/Laws/KeepsTwin.lean ====
section
/-! SUPPORT. For every operation of Machine/Twin.lean: the pieces of the state it may change; every other piece is exactly
what it was. -/

namespace Sys2Proof.Laws

open Machine

theorem noteHeartbeat_keeps (s : State) (port : Nat) : Keeps [.eth] s (noteHeartbeat s port) := by
  unfold noteHeartbeat
  exact Keeps.step (Keeps.refl _ _) (modPort_keeps ..) (by decide)

theorem notePartner_keeps (s : State) (role : Nat) : Keeps [.twn] s (notePartner s role) := by
  unfold notePartner
  exact Keeps.ite (Keeps.refl _ _) (Keeps.twn (Keeps.refl _ _) (by decide))

theorem putPeer_keeps (s : State) (h : Word) : Keeps [.regs, .evq, .twn] s (putPeer s h) := by
  unfold putPeer
  refine Keeps.ite (Keeps.refl _ _) ?_
  exact Keeps.step (Keeps.twn (Keeps.refl _ _) (by decide)) (healthEvent_keeps ..) (by decide)

theorem updateSync_keeps (s : State) : Keeps [.regs, .evq, .twn] s (updateSync s) := by
  unfold updateSync
  refine Keeps.ite (Keeps.step (Keeps.refl _ _) (refreshPair_keeps ..) (by decide)) ?_
  extract_lets +onlyGivenNames _
  extract_lets +onlyGivenNames _
  extract_lets +onlyGivenNames -merge -useContext _ x2
  have h2 : Keeps [.regs, .evq, .twn] s x2 := Keeps.twn (Keeps.refl _ _) (by decide)
  clear_value x2
  extract_lets +onlyGivenNames -merge -useContext _ x3
  have h3 : Keeps [.regs, .evq, .twn] s x3 := by
    refine Keeps.ite (Keeps.step (Keeps.twn h2 (by decide)) (twnEvent_keeps ..) (by decide)) ?_
    exact Keeps.ite (Keeps.step h2 (twnEvent_keeps ..) (by decide)) h2
  clear_value x3
  exact Keeps.step h3 (refreshPair_keeps ..) (by decide)

theorem acceptHeartbeat_keeps (s : State) (port : Nat) (role : Nat) (health : Word) : Keeps [.regs, .evq, .eth, .twn] s
    (acceptHeartbeat s port role health) := by
  unfold acceptHeartbeat
  extract_lets +onlyGivenNames x0
  have h0 : Keeps [.regs, .evq, .eth, .twn] s x0 := Keeps.step (Keeps.refl _ _) (noteHeartbeat_keeps ..) (by decide)
  try clear_value x0
  extract_lets +onlyGivenNames -merge -useContext _ x1
  have h1 : Keeps [.regs, .evq, .eth, .twn] s x1 := Keeps.step (Keeps.twn h0 (by decide)) (notePartner_keeps ..) (by decide)
  try clear_value x1
  exact Keeps.step (Keeps.ite h1 (Keeps.step h1 (putPeer_keeps ..) (by decide))) (updateSync_keeps ..) (by decide)

theorem meetVersion_keeps (s : State) (verMin : Nat) (verMax : Nat) (features : BitVec 8) : Keeps [.twn] s (meetVersion s
    verMin verMax features) := by
  unfold meetVersion
  exact Keeps.twn (Keeps.refl _ _) (by decide)

theorem sendNegotiate_keeps (s : State) (state : Nat) : Keeps [.eth, .out] s (sendNegotiate s state) := by
  unfold sendNegotiate
  extract_lets +onlyGivenNames x0
  have h0 : Keeps [.eth, .out] s x0 := Keeps.step (Keeps.refl _ _) (emit_keeps ..) (by decide)
  clear_value x0
  exact Keeps.step h0 (flSend_keeps ..) (by decide)

theorem acceptNegotiate_keeps (s : State) (n : Nat × Nat × BitVec 8) (role : Nat) : Keeps [.regs, .evq, .eth, .twn, .out] s
    (acceptNegotiate s n role) := by
  unfold acceptNegotiate
  extract_lets +onlyGivenNames x0
  have h0 : Keeps [.regs, .evq, .eth, .twn, .out] s x0 := Keeps.step (Keeps.step (Keeps.step (Keeps.refl _ _)
      (meetVersion_keeps ..) (by decide))
      (notePartner_keeps ..) (by decide)) (updateSync_keeps ..) (by decide)
  clear_value x0
  exact Keeps.ite (Keeps.step h0 (sendNegotiate_keeps ..) (by decide)) h0

theorem takeData_keeps (s : State) (k : Nat) (v : Word) : Keeps [.ble] s (takeData s k v) := by
  unfold takeData
  extract_lets +onlyGivenNames _
  exact Keeps.ble (Keeps.refl _ _) (by decide)

theorem followSave_keeps (s : State) (seq : Word) : Keeps [.lce, .ble] s (followSave s seq) := by
  unfold followSave
  split
  · exact Keeps.refl _ _
  · extract_lets +onlyGivenNames _
    refine Keeps.ite (Keeps.refl _ _) ?_
    exact Keeps.step (Keeps.ble (Keeps.refl _ _) (by decide)) (saveSat_keeps ..) (by decide)

theorem takeInactive_keeps (s : State) (len : Nat) (ofs : Nat) (piece : List Nat) : Keeps [.ble, .twn] s (takeInactive s len
    ofs piece) := by
  unfold takeInactive
  extract_lets +onlyGivenNames x0
  clear_value x0
  refine Keeps.ite (Keeps.twn (Keeps.refl _ _) (by decide)) ?_
  extract_lets +onlyGivenNames -merge -useContext _ x1
  have h1 : Keeps [.ble, .twn] s x1 := Keeps.twn (Keeps.refl _ _) (by decide)
  clear_value x1
  split
  · exact Keeps.ble h1 (by decide)
  · exact h1

theorem followSwitch_keeps (s : State) (digest : List Nat) (words : List Word) : Keeps [.img, .ble] s (followSwitch s digest
    words) := by
  unfold followSwitch
  split
  · refine Keeps.ite ?_ ?_
    · extract_lets +onlyGivenNames _
      exact Keeps.step (Keeps.ble (Keeps.refl _ _) (by decide)) (turnImage_keeps ..) (by decide)
    exact Keeps.refl _ _
  · exact Keeps.refl _ _

theorem putShadow_keeps (s : State) (p : Nat → Bool) (ws : List (Nat × Word)) : Keeps [.regs] s (putShadow s p ws) := by
  unfold putShadow
  exact Keeps.regs (Keeps.refl _ _) (by decide)

theorem putGen_keeps (s : State) (off : Nat) (gen : Nat) : Keeps [.regs] s (putGen s off gen) := by
  unfold putGen
  exact Keeps.step (Keeps.refl _ _) (rset_keeps ..) (by decide)

abbrev applyMirror_may : List Piece := [.regs, .live, .pts, .phc, .banks, .ch, .evq, .forces, .can, .lce, .ble, .twn]

theorem applyMirror_keeps (s : State) (blk : Nat) (gen : Nat) (ws : List (Nat × Word)) : Keeps applyMirror_may s (applyMirror s
    blk gen ws) := by
  unfold applyMirror
  split
  · refine Keeps.forAll (Keeps.refl _ _) fun _ _ h0 => ?_
    exact Keeps.ite (Keeps.step h0 (rset_keeps ..) (by decide)) h0
  · refine Keeps.step ?_ (refreshPair_keeps ..) (by decide)
    refine Keeps.forAll (Keeps.refl _ _) fun _ _ h1 => ?_
    exact Keeps.ite (Keeps.step h1 (rset_keeps ..) (by decide)) h1
  · exact Keeps.step (Keeps.step (Keeps.step (Keeps.step (Keeps.refl _ _) (putShadow_keeps ..) (by decide)) (phcApply_keeps ..)
      (by decide)) (starvedCheck_keeps ..) (by decide)) (putGen_keeps ..) (by decide)
  · extract_lets +onlyGivenNames x2
    have h2 : Keeps applyMirror_may s x2 := Keeps.step (Keeps.refl _ _) (putShadow_keeps ..) (by decide)
    clear_value x2
    extract_lets +onlyGivenNames x3
    have h3 : Keeps applyMirror_may s x3 := Keeps.step (Keeps.step h2 (lceApply_keeps ..) (by decide)) (putGen_keeps ..) (by
        decide)
    clear_value x3
    exact Keeps.lce h3 (by decide)
  · refine Keeps.ite (Keeps.step (Keeps.step (Keeps.step (Keeps.refl _ _) (putShadow_keeps ..) (by decide)) (bankApply_keeps
      ..) (by decide)) (putGen_keeps ..) (by decide)) ?_
    exact Keeps.refl _ _

theorem followCtl_keeps (s : State) (running : Bool) (cause : Nat) : Keeps [.ble] s (followCtl s running cause) := by
  unfold followCtl
  exact Keeps.ble (Keeps.refl _ _) (by decide)

abbrev applyItem_may : List Piece := [.regs, .live, .pts, .phc, .banks, .ch, .evq, .forces, .img, .eth, .can, .lce, .ble, .twn]

theorem applyItem_keeps (s : State) (i : CopyItem) : Keeps applyItem_may s (applyItem s i) := by
  unfold applyItem
  split
  · exact Keeps.step (Keeps.refl _ _) (takeData_keeps ..) (by decide)
  · exact Keeps.step (Keeps.refl _ _) (pset_keeps ..) (by decide)
  · extract_lets +onlyGivenNames x0
    have h0 : Keeps applyItem_may s x0 := Keeps.step (Keeps.step (Keeps.step (Keeps.step (Keeps.refl _ _) (pset_keeps ..) (by
        decide))
        (pset_keeps ..) (by decide)) (pset_keeps ..) (by decide)) (pset_keeps ..) (by decide)
    clear_value x0
    extract_lets +onlyGivenNames _
    extract_lets +onlyGivenNames _
    exact Keeps.step (Keeps.step h0 (pset_keeps ..) (by decide)) (setLoop_keeps ..) (by decide)
  · exact Keeps.step (Keeps.refl _ _) (pset_keeps ..) (by decide)
  · exact Keeps.eth (Keeps.refl _ _) (by decide)
  · exact Keeps.twn (Keeps.refl _ _) (by decide)
  · exact Keeps.twn (Keeps.refl _ _) (by decide)
  · exact Keeps.forces (Keeps.refl _ _) (by decide)
  · exact Keeps.forces (Keeps.refl _ _) (by decide)
  · exact Keeps.forces (Keeps.refl _ _) (by decide)
  · exact Keeps.twn (Keeps.refl _ _) (by decide)
  · exact Keeps.step (Keeps.twn (Keeps.refl _ _) (by decide)) (followSave_keeps ..) (by decide)
  · exact Keeps.step (Keeps.refl _ _) (applyMirror_keeps ..) (by decide)
  · exact Keeps.step (Keeps.refl _ _) (followCtl_keeps ..) (by decide)
  · exact Keeps.step (Keeps.refl _ _) (takeInactive_keeps ..) (by decide)
  · exact Keeps.step (Keeps.refl _ _) (followSwitch_keeps ..) (by decide)
  · extract_lets +onlyGivenNames _
    refine Keeps.step ?_ (storeImage_keeps ..) (by decide)
    refine Keeps.many (t := s) ?_ rfl (fun p hp => by cases p <;> first | rfl | exact absurd (by decide) hp)
    exact Keeps.refl _ _
  · exact Keeps.ble (Keeps.refl _ _) (by decide)

theorem pathAlarm_keeps (s : State) (tl : Bool) : Keeps [.regs, .evq, .twn] s (pathAlarm s tl) := by
  unfold pathAlarm
  extract_lets +onlyGivenNames _
  refine Keeps.ite ?_ ?_
  · refine Keeps.ite (Keeps.step (Keeps.twn (Keeps.refl _ _) (by decide)) (twnEvent_keeps ..) (by decide)) ?_
    exact Keeps.refl _ _
  refine Keeps.ite (Keeps.step (Keeps.twn (Keeps.refl _ _) (by decide)) (twnEvent_keeps ..) (by decide)) ?_
  exact Keeps.refl _ _

theorem missTl_keeps (s : State) : Keeps [.regs, .evq, .twn] s (missTl s) := by
  unfold missTl
  extract_lets +onlyGivenNames _
  exact Keeps.step (Keeps.twn (Keeps.refl _ _) (by decide)) (pathAlarm_keeps ..) (by decide)

theorem goIsolated_keeps (s : State) : Keeps [.regs, .evq, .twn] s (goIsolated s) := by
  unfold goIsolated
  exact Keeps.step (Keeps.step (Keeps.twn (Keeps.refl _ _) (by decide)) (twnEvent_keeps ..) (by decide)) (refreshPair_keeps ..)
      (by decide)

theorem takeInput_keeps (s : State) (c : Nat) : Keeps [.regs, .pts, .ch, .evq, .can, .ble] s (takeInput s c) := by
  unfold takeInput
  refine Keeps.ite (Keeps.refl _ _) ?_
  split
  · exact Keeps.step (Keeps.step (Keeps.refl _ _) (putDiag_keeps ..) (by decide)) (pset_keeps ..) (by decide)
  · exact Keeps.step (Keeps.refl _ _) (putDiag_keeps ..) (by decide)

theorem handoffRecords_keeps (s : State) (l : List (Nat × Word)) (cause : Nat) (taken : Bool) : Keeps [.evq] s (handoffRecords
    s l cause taken) := by
  unfold handoffRecords
  refine Keeps.forAll (Keeps.refl _ _) fun _ _ h0 => ?_
  extract_lets +onlyGivenNames _
  exact Keeps.step h0 (pushEv_keeps ..) (by decide)

abbrev takeover_may : List Piece := [.regs, .pts, .base, .hold, .phc, .banks, .ch, .rings, .evq, .msixPend, .can, .ble, .twn,
    .out]

theorem takeover_keeps (s : State) (cause : Nat) (start : Nat) (planned : Bool) : Keeps takeover_may s (takeover s cause start
    planned) := by
  unfold takeover
  extract_lets +onlyGivenNames x0
  have h0 : Keeps takeover_may s x0 := Keeps.step (Keeps.refl _ _) (setHold_keeps ..) (by decide)
  clear_value x0
  extract_lets +onlyGivenNames -merge -useContext _ _
  extract_lets +onlyGivenNames _
  extract_lets +onlyGivenNames _
  extract_lets +onlyGivenNames _
  extract_lets +onlyGivenNames -merge -useContext _ x5
  have h5 : Keeps takeover_may s x5 := by
    refine Keeps.many (t := x0) ?_ rfl (fun p hp => by cases p <;> first | rfl | exact absurd (by decide) hp)
    exact h0
  clear_value x5
  extract_lets +onlyGivenNames -merge -useContext _ x6
  have h6 : Keeps takeover_may s x6 := Keeps.step (Keeps.phc h5 (by decide)) (followStop_keeps ..) (by decide)
  clear_value x6
  extract_lets +onlyGivenNames x7
  have h7 : Keeps takeover_may s x7 := by
    refine Keeps.forAll h6 fun _ _ h8 => ?_
    exact Keeps.step h8 (takeInput_keeps ..) (by decide)
  clear_value x7
  extract_lets +onlyGivenNames x9
  have h9 : Keeps takeover_may s x9 := by
    refine Keeps.forAll h7 fun _ _ h10 => ?_
    extract_lets +onlyGivenNames _
    exact Keeps.ite h10 (Keeps.step h10 (sendOutput_keeps ..) (by decide))
  clear_value x9
  extract_lets +onlyGivenNames _
  extract_lets +onlyGivenNames x13
  have h13 : Keeps takeover_may s x13 := by
    refine Keeps.forAll h9 fun _ _ h14 => ?_
    exact Keeps.step (Keeps.step h14 (haltRing_keeps ..) (by decide)) (modRing_keeps ..) (by decide)
  clear_value x13
  extract_lets +onlyGivenNames x15
  have h15 : Keeps takeover_may s x15 := Keeps.step h13 (handoffRecords_keeps ..) (by decide)
  clear_value x15
  extract_lets +onlyGivenNames x16
  have h16 : Keeps takeover_may s x16 := Keeps.step h15 (timeEvent_keeps ..) (by decide)
  clear_value x16
  extract_lets +onlyGivenNames -merge -useContext _ x17
  have h17 : Keeps takeover_may s x17 := Keeps.phc h16 (by decide)
  clear_value x17
  exact Keeps.step (Keeps.step h17 (twnEvent_keeps ..) (by decide)) (refreshPair_keeps ..) (by decide)

abbrev unsyncTake_may : List Piece := [.regs, .pts, .base, .hold, .phc, .banks, .ch, .rings, .evq, .msixPend, .can, .lce, .ble,
    .twn, .out]

theorem unsyncTake_keeps (s : State) : Keeps unsyncTake_may s (unsyncTake s) := by
  unfold unsyncTake
  extract_lets +onlyGivenNames -merge -useContext _ x0
  have h0 : Keeps unsyncTake_may s x0 := Keeps.step (Keeps.ble (Keeps.refl _ _) (by decide)) (takeover_keeps ..) (by decide)
  clear_value x0
  split
  · exact h0
  · split
    · exact Keeps.step h0 (runController_keeps ..) (by decide)
    · exact Keeps.step h0 (runController_keeps ..) (by decide)
    · exact h0

abbrev declareFailed_may : List Piece := [.regs, .pts, .base, .hold, .phc, .banks, .ch, .rings, .evq, .msixPend, .can, .lce,
    .ble, .twn, .out]

theorem declareFailed_keeps (s : State) : Keeps declareFailed_may s (declareFailed s) := by
  unfold declareFailed
  extract_lets +onlyGivenNames _
  extract_lets +onlyGivenNames -merge -useContext _ x1
  have h1 : Keeps declareFailed_may s x1 := Keeps.step (Keeps.twn (Keeps.refl _ _) (by decide)) (twnEvent_keeps ..) (by decide)
  clear_value x1
  refine Keeps.ite (Keeps.step h1 (updateSync_keeps ..) (by decide)) ?_
  refine Keeps.ite ?_ ?_
  · refine Keeps.ite (Keeps.step h1 (takeover_keeps ..) (by decide)) ?_
    exact Keeps.step (Keeps.step h1 (updateSync_keeps ..) (by decide)) (goIsolated_keeps ..) (by decide)
  refine Keeps.ite ?_ ?_
  · refine Keeps.ite (Keeps.step h1 (unsyncTake_keeps ..) (by decide)) ?_
    exact Keeps.step (Keeps.step h1 (updateSync_keeps ..) (by decide)) (goIsolated_keeps ..) (by decide)
  exact Keeps.step h1 (updateSync_keeps ..) (by decide)

theorem endLoads_keeps (s : State) (im : Image) : Keeps [.rings, .msixPend, .out] s (endLoads s im) := by
  unfold endLoads
  exact Keeps.step (Keeps.refl _ _) (completeAll_keeps ..) (by decide)

theorem partnerGone_keeps (s : State) : Keeps [.rings, .msixPend, .out] s (partnerGone s) := by
  unfold partnerGone
  split
  · exact Keeps.step (Keeps.refl _ _) (endLoads_keeps ..) (by decide)
  · exact Keeps.refl _ _

theorem declareCheck_keeps (s : State) : Keeps [.regs, .pts, .base, .hold, .phc, .banks, .ch, .rings, .evq, .msixPend, .can,
    .lce, .ble, .twn, .out] s (declareCheck s) := by
  unfold declareCheck
  extract_lets +onlyGivenNames _
  refine Keeps.ite (Keeps.refl _ _) ?_
  refine Keeps.ite (Keeps.step (Keeps.refl _ _) (declareFailed_keeps ..) (by decide)) ?_
  refine Keeps.ite (Keeps.step (Keeps.step (Keeps.step (Keeps.twn (Keeps.refl _ _) (by decide)) (twnEvent_keeps ..) (by
      decide)) (refreshPair_keeps ..) (by decide)) (partnerGone_keeps ..) (by decide)) ?_
  exact Keeps.refl _ _

theorem sendRally_keeps (s : State) (copy : Bool) (back : Bool) : Keeps [.out] s (sendRally s copy back) := by
  unfold sendRally
  exact Keeps.step (Keeps.refl _ _) (emit_keeps ..) (by decide)

abbrev badFrame_may : List Piece := [.regs, .pts, .base, .hold, .phc, .banks, .ch, .rings, .evq, .msixPend, .can, .lce, .ble,
    .twn, .out]

theorem badFrame_keeps (s : State) : Keeps badFrame_may s (badFrame s) := by
  unfold badFrame
  extract_lets +onlyGivenNames x0
  have h0 : Keeps badFrame_may s x0 := Keeps.step (Keeps.refl _ _) (poison_keeps ..) (by decide)
  clear_value x0
  extract_lets +onlyGivenNames -merge -useContext _ _
  extract_lets +onlyGivenNames x2
  have h2 : Keeps badFrame_may s x2 := Keeps.step (Keeps.step (Keeps.step (Keeps.twn h0 (by decide)) (missTl_keeps ..) (by
      decide))
      (declareCheck_keeps ..) (by decide)) (updateSync_keeps ..) (by decide)
  clear_value x2
  exact Keeps.ite (Keeps.step h2 (sendRally_keeps ..) (by decide)) h2

abbrev ballLost_may : List Piece := [.regs, .pts, .phc, .banks, .ch, .rings, .evq, .msixPend, .can, .lce, .ble, .twn, .out]

theorem ballLost_keeps (s : State) (cause : Nat) : Keeps ballLost_may s (ballLost s cause) := by
  unfold ballLost
  extract_lets +onlyGivenNames x0
  have h0 : Keeps ballLost_may s x0 := Keeps.step (Keeps.refl _ _) (canBallLost_keeps ..) (by decide)
  clear_value x0
  extract_lets +onlyGivenNames x1
  have h1 : Keeps ballLost_may s x1 := Keeps.step h0 (failAct_keeps ..) (by decide)
  clear_value x1
  extract_lets +onlyGivenNames -merge -useContext _ x2
  have h2 : Keeps ballLost_may s x2 := Keeps.step (Keeps.phc h1 (by decide)) (completeAll_keeps ..) (by decide)
  clear_value x2
  extract_lets +onlyGivenNames _
  extract_lets +onlyGivenNames x4
  have h4 : Keeps ballLost_may s x4 := Keeps.step (Keeps.step h2 (twnEvent_keeps ..) (by decide)) (handoffRecords_keeps ..) (by
      decide)
  clear_value x4
  extract_lets +onlyGivenNames -merge -useContext _ _
  extract_lets +onlyGivenNames _
  extract_lets +onlyGivenNames -merge -useContext _ _
  refine Keeps.step ?_ (updateSync_keeps ..) (by decide)
  refine Keeps.step ?_ (followStop_keeps ..) (by decide)
  refine Keeps.many (t := x4) ?_ rfl (fun p hp => by cases p <;> first | rfl | exact absurd (by decide) hp)
  exact h4

theorem endPlan_keeps (s : State) (p : Plan) (code : Nat) : Keeps [.rings, .msixPend, .twn, .upd, .out] s (endPlan s p code) :=
    by
  unfold endPlan
  extract_lets +onlyGivenNames -merge -useContext _ x0
  have h0 : Keeps [.rings, .msixPend, .twn, .upd, .out] s x0 := Keeps.step (Keeps.twn (Keeps.refl _ _) (by decide))
      (refreshPair_keeps ..) (by decide)
  clear_value x0
  split
  · refine Keeps.forAll h0 fun _ _ h1 => ?_
    exact Keeps.ite (Keeps.step h1 (complete_keeps ..) (by decide)) h1
  · exact Keeps.ite (Keeps.step h0 (leaveRefused_keeps ..) (by decide)) h0

theorem execBallRequest_keeps (tie : Bool) (s : State) : ∃ u, execBallRequest tie s = .next (close s u) ∧ Keeps [.regs, .pts,
    .base, .hold, .phc, .banks, .ch, .rings, .evq, .msixPend, .can, .lce, .ble, .twn, .out] s u := by
  refine ⟨_, rfl, ?_⟩
  refine Keeps.ite (Keeps.refl _ _) ?_
  refine Keeps.ite (Keeps.step (Keeps.refl _ _) (setHold_keeps ..) (by decide)) ?_
  refine Keeps.ite ?_ ?_
  · split
    · exact Keeps.ite (Keeps.step (Keeps.refl _ _) (takeover_keeps ..) (by decide)) (Keeps.refl _ _)
    · exact Keeps.ite (Keeps.step (Keeps.refl _ _) (unsyncTake_keeps ..) (by decide)) (Keeps.refl _ _)
  exact Keeps.refl _ _

theorem sendState_keeps (s : State) (final : Bool) : Keeps [.lce, .ble, .twn, .out] s (sendState s final) := by
  unfold sendState
  extract_lets +onlyGivenNames _
  extract_lets +onlyGivenNames _
  extract_lets +onlyGivenNames _
  extract_lets +onlyGivenNames _
  extract_lets +onlyGivenNames _
  extract_lets +onlyGivenNames _
  extract_lets +onlyGivenNames _
  extract_lets +onlyGivenNames _
  extract_lets +onlyGivenNames x8
  have h8 : Keeps [.lce, .ble, .twn, .out] s x8 := Keeps.step (Keeps.refl _ _) (emit_keeps ..) (by decide)
  clear_value x8
  refine Keeps.many (t := x8) ?_ rfl (fun p hp => by cases p <;> first | rfl | exact absurd (by decide) hp)
  exact h8

theorem sampleNow_keeps (s : State) : Keeps [.lce, .ble, .twn, .out] s (sampleNow s) := by
  unfold sampleNow
  refine Keeps.ite (Keeps.refl _ _) ?_
  extract_lets +onlyGivenNames -merge -useContext _ x0
  have h0 : Keeps [.lce, .ble, .twn, .out] s x0 := Keeps.twn (Keeps.refl _ _) (by decide)
  clear_value x0
  exact Keeps.ite (Keeps.step h0 (sendState_keeps ..) (by decide)) h0

theorem execDefaultSample_keeps (s : State) : ∃ u, execDefaultSample s = .next (close s u) ∧ Keeps [.regs, .live, .pts, .phc,
    .banks, .ch, .rings, .evq, .msixPend, .forces, .can, .lce, .ble, .twn, .out] s u := by
  refine ⟨_, rfl, ?_⟩
  refine Keeps.ite (Keeps.step (Keeps.step (Keeps.refl _ _) (dueCommits_keeps ..) (by decide)) (sampleNow_keeps ..) (by
      decide)) ?_
  exact Keeps.step (Keeps.refl _ _) (dueCommits_keeps ..) (by decide)

theorem missFl_keeps (s : State) : Keeps [.regs, .evq, .twn] s (missFl s) := by
  unfold missFl
  extract_lets +onlyGivenNames _
  exact Keeps.step (Keeps.twn (Keeps.refl _ _) (by decide)) (pathAlarm_keeps ..) (by decide)

theorem execFieldlinkMiss_keeps (s : State) : ∃ u, execFieldlinkMiss s = .next (close s u) ∧ Keeps [.regs, .pts, .base, .hold,
    .phc, .banks, .ch, .rings, .evq, .msixPend, .can, .lce, .ble, .twn, .out] s u := by
  refine ⟨_, rfl, ?_⟩
  refine Keeps.ite (Keeps.step (Keeps.step (Keeps.step (Keeps.refl _ _) (missFl_keeps ..) (by decide)) (declareCheck_keeps ..)
      (by decide)) (updateSync_keeps ..) (by decide)) ?_
  exact Keeps.refl _ _

abbrev execFullCopyComplete_may : List Piece := [.regs, .live, .pts, .phc, .banks, .ch, .evq, .forces, .img, .eth, .can, .lce,
    .ble, .twn]

theorem execFullCopyComplete_keeps (items : List CopyItem) (s : State) : ∃ u, execFullCopyComplete items s = .next (close s u)
    ∧ Keeps execFullCopyComplete_may s u := by
  refine ⟨_, rfl, ?_⟩
  refine Keeps.ite ?_ ?_
  · extract_lets +onlyGivenNames x0
    have h0 : Keeps execFullCopyComplete_may s x0 := by
      refine Keeps.forAll (Keeps.refl _ _) fun _ _ h1 => ?_
      exact Keeps.step h1 (applyItem_keeps ..) (by decide)
    clear_value x0
    exact Keeps.step (Keeps.twn h0 (by decide)) (updateSync_keeps ..) (by decide)
  exact Keeps.refl _ _

theorem execFullCopyRequest_keeps (s : State) : ∃ u, execFullCopyRequest s = .next (close s u) ∧ Keeps [.twn, .out] s u := by
  refine ⟨_, rfl, ?_⟩
  refine Keeps.ite (Keeps.step (Keeps.twn (Keeps.refl _ _) (by decide)) (sendRally_keeps ..) (by decide)) ?_
  exact Keeps.refl _ _

abbrev execHandoffFail_may : List Piece := [.regs, .pts, .base, .hold, .banks, .ch, .rings, .evq, .msixPend, .can, .ble, .twn,
    .upd, .out]

theorem execHandoffFail_keeps (s : State) : ∃ u, execHandoffFail s = .next (close s u) ∧ Keeps execHandoffFail_may s u := by
  refine ⟨_, rfl, ?_⟩
  split
  · refine Keeps.ite ?_ ?_
    · extract_lets +onlyGivenNames x0
      have h0 : Keeps execHandoffFail_may s x0 := Keeps.step (Keeps.refl _ _) (setHold_keeps ..) (by decide)
      clear_value x0
      extract_lets +onlyGivenNames -merge -useContext _ x1
      have h1 : Keeps execHandoffFail_may s x1 := Keeps.twn h0 (by decide)
      clear_value x1
      exact Keeps.step (Keeps.step h1 (twnEvent_keeps ..) (by decide)) (endPlan_keeps ..) (by decide)
    exact Keeps.refl _ _
  · exact Keeps.refl _ _

theorem execHeartbeatRx_keeps (port : Fin 2) (ok : Bool) (ver : Nat) (verMin : Nat) (verMax : Nat) (pairId : BitVec 16) (slot :
    Fin 4) (seq : Word) (negotiate : Option (Nat × Nat × BitVec 8)) (role : Fin 3) (health : BitVec 16) (s : State) : ∃ u,
    execHeartbeatRx port ok ver verMin verMax pairId slot seq negotiate role health s = .next (close s u) ∧ Keeps [.regs, .evq,
    .eth, .twn, .out] s u := by
  refine ⟨_, rfl, ?_⟩
  refine Keeps.ite (Keeps.refl _ _) ?_
  refine Keeps.ite (Keeps.step (Keeps.refl _ _) (flReject_keeps ..) (by decide)) ?_
  refine Keeps.ite (Keeps.refl _ _) ?_
  refine Keeps.ite (Keeps.step (Keeps.refl _ _) (raiseBoth_keeps ..) (by decide)) ?_
  refine Keeps.ite (Keeps.refl _ _) ?_
  refine Keeps.ite (Keeps.refl _ _) ?_
  extract_lets +onlyGivenNames -merge -useContext _ x0
  clear_value x0
  split
  · exact Keeps.step (Keeps.eth (Keeps.refl _ _) (by decide)) (acceptNegotiate_keeps ..) (by decide)
  · exact Keeps.step (Keeps.eth (Keeps.refl _ _) (by decide)) (acceptHeartbeat_keeps ..) (by decide)

theorem execHeartbeatSend_keeps (s : State) : ∃ u, execHeartbeatSend s = .next (close s u) ∧ Keeps [.eth] s u := by
  refine ⟨_, rfl, ?_⟩
  refine Keeps.ite ?_ ?_
  · extract_lets +onlyGivenNames _
    exact Keeps.step (Keeps.refl _ _) (flSend_keeps ..) (by decide)
  exact Keeps.refl _ _

abbrev handedOver_may : List Piece := [.regs, .pts, .hold, .phc, .clk, .banks, .ch, .rings, .evq, .recq, .recLost, .recLostCls,
    .msixPend, .can, .lce, .ble, .twn, .upd, .out]

theorem handedOver_keeps (s : State) (p : Plan) : Keeps handedOver_may s (handedOver s p) := by
  unfold handedOver
  extract_lets +onlyGivenNames x0
  clear_value x0
  extract_lets +onlyGivenNames x1
  have h1 : Keeps handedOver_may s x1 := by
    subst x1
    split
    · refine Keeps.forAll (Keeps.refl _ _) fun _ _ h2 => ?_
      exact Keeps.ite (Keeps.step h2 (completeTs_keeps ..) (by decide)) h2
    · exact Keeps.refl _ _
  clear_value x1
  extract_lets +onlyGivenNames x3
  have h3 : Keeps handedOver_may s x3 := Keeps.step h1 (ballLost_keeps ..) (by decide)
  clear_value x3
  exact Keeps.ite (Keeps.step h3 (updReset_keeps ..) (by decide)) h3

abbrev execHoldLineChange_may : List Piece := [.regs, .pts, .base, .hold, .phc, .clk, .banks, .ch, .rings, .evq, .recq,
    .recLost, .recLostCls, .msixPend, .can, .lce, .ble, .twn, .upd, .out]

theorem execHoldLineChange_keeps (level : Bool) (s : State) : ∃ u, execHoldLineChange level s = .next (close s u) ∧ Keeps
    execHoldLineChange_may s u := by
  refine ⟨_, rfl, ?_⟩
  refine Keeps.ite (Keeps.refl _ _) ?_
  extract_lets +onlyGivenNames x0
  clear_value x0
  extract_lets +onlyGivenNames x1
  have h1 : Keeps execHoldLineChange_may s x1 := Keeps.step (Keeps.refl _ _) (setHold_keeps ..) (by decide)
  clear_value x1
  refine Keeps.ite ?_ ?_
  · split
    · refine Keeps.ite (Keeps.step h1 (handedOver_keeps ..) (by decide)) ?_
      exact Keeps.ite (Keeps.step h1 (ballLost_keeps ..) (by decide)) h1
    · exact Keeps.ite (Keeps.step h1 (ballLost_keeps ..) (by decide)) h1
  exact h1

abbrev execLeaseExpiry_may : List Piece := [.regs, .pts, .base, .hold, .phc, .banks, .ch, .rings, .evq, .msixPend, .can, .lce,
    .ble, .twn, .out]

theorem execLeaseExpiry_keeps (s : State) : ∃ u, execLeaseExpiry s = .next (close s u) ∧ Keeps execLeaseExpiry_may s u := by
  refine ⟨_, rfl, ?_⟩
  refine Keeps.ite ?_ ?_
  · extract_lets +onlyGivenNames -merge -useContext _ x0
    have h0 : Keeps execLeaseExpiry_may s x0 := Keeps.step (Keeps.twn (Keeps.refl _ _) (by decide)) (setHold_keeps ..) (by
        decide)
    clear_value x0
    exact Keeps.step h0 (ballLost_keeps ..) (by decide)
  exact Keeps.refl _ _

theorem postpone_keeps (s : State) (p : Plan) : Keeps [.rings, .msixPend, .twn, .upd, .out] s (postpone s p) := by
  unfold postpone
  refine Keeps.ite (Keeps.twn (Keeps.refl _ _) (by decide)) ?_
  split
  · exact Keeps.twn (Keeps.refl _ _) (by decide)
  · exact Keeps.step (Keeps.refl _ _) (endPlan_keeps ..) (by decide)

abbrev execPlannedHandoffBoundary_may : List Piece := [.regs, .pts, .base, .hold, .banks, .ch, .rings, .evq, .msixPend, .can,
    .lce, .ble, .twn, .upd, .out]

theorem execPlannedHandoffBoundary_keeps (s : State) : ∃ u, execPlannedHandoffBoundary s = .next (close s u) ∧ Keeps
    execPlannedHandoffBoundary_may s u := by
  refine ⟨_, rfl, ?_⟩
  split
  · refine Keeps.ite ?_ ?_
    · refine Keeps.ite (Keeps.step (Keeps.refl _ _) (postpone_keeps ..) (by decide)) ?_
      extract_lets +onlyGivenNames x0
      have h0 : Keeps execPlannedHandoffBoundary_may s x0 := Keeps.step (Keeps.refl _ _) (sendState_keeps ..) (by decide)
      clear_value x0
      extract_lets +onlyGivenNames -merge -useContext _ x1
      have h1 : Keeps execPlannedHandoffBoundary_may s x1 := Keeps.step (Keeps.twn h0 (by decide)) (setHold_keeps ..) (by
          decide)
      clear_value x1
      exact Keeps.step (Keeps.step h1 (canBallLost_keeps ..) (by decide)) (refreshPair_keeps ..) (by decide)
    exact Keeps.refl _ _
  · exact Keeps.refl _ _

theorem sendCopy_keeps (s : State) (image : Bool) : Keeps [.twn, .out] s (sendCopy s image) := by
  unfold sendCopy
  extract_lets +onlyGivenNames x0
  have h0 : Keeps [.twn, .out] s x0 := Keeps.step (Keeps.refl _ _) (emit_keeps ..) (by decide)
  clear_value x0
  exact Keeps.ite h0 (Keeps.twn h0 (by decide))

theorem planHandoff_keeps {s t : State} {cause : Nat} {rg : Option Nat} (h : planHandoff s cause rg = some t) : Keeps [.twn] s t := by
  unfold planHandoff at h
  obtain ⟨c, -, rfl⟩ := Option.map_eq_some_iff.mp h
  exact ((Keeps.refl _ _).twn (by decide)).step (refreshPair_keeps ..) (by decide)

abbrev goodRally_may : List Piece := [.regs, .rings, .evq, .msixPend, .twn, .out]

theorem goodRally_keeps (s : State) (pair : Nat) (reason : Nat) (health : Word) (copy : Bool) (back : Bool) (digest : List Nat)
    : Keeps goodRally_may s (goodRally s pair reason health copy back digest) := by
  unfold goodRally
  extract_lets +onlyGivenNames -merge -useContext _ x0
  clear_value x0
  extract_lets +onlyGivenNames x1
  have h1 : Keeps goodRally_may s x1 := Keeps.twn (Keeps.refl _ _) (by decide)
  clear_value x1
  extract_lets +onlyGivenNames x2
  have h2 : Keeps goodRally_may s x2 := Keeps.step (Keeps.step h1 (putPeer_keeps ..) (by decide)) (refreshPair_keeps ..) (by
      decide)
  clear_value x2
  extract_lets +onlyGivenNames x3
  have h3 : Keeps goodRally_may s x3 := Keeps.ite (Keeps.step h2 (sendCopy_keeps ..) (by decide)) h2
  clear_value x3
  extract_lets +onlyGivenNames x4
  have h4 : Keeps goodRally_may s x4 := by
    subst x4
    split
    · exact Keeps.ite (Keeps.step h3 (endLoads_keeps ..) (by decide)) h3
    · exact h3
  clear_value x4
  refine Keeps.ite ?_ ?_
  · refine Keeps.getD (fun t5 g5 => ?_) ?_
    · exact Keeps.step h4 (planHandoff_keeps g5) (by decide)
    exact h4
  exact h4

abbrev execRallyFrameRx_may : List Piece := [.regs, .pts, .base, .hold, .phc, .banks, .ch, .rings, .evq, .msixPend, .can, .lce,
    .ble, .twn, .out]

theorem execRallyFrameRx_keeps (ok : Bool) (pair : Fin 8 × Fin 16) (health : BitVec 16) (copy : Bool) (back : Bool) (digest :
    List Nat) (s : State) : ∃ u, execRallyFrameRx ok pair health copy back digest s = .next (close s u) ∧ Keeps
    execRallyFrameRx_may s u := by
  refine ⟨_, rfl, ?_⟩
  refine Keeps.ite (Keeps.refl _ _) ?_
  refine Keeps.ite ?_ ?_
  · extract_lets +onlyGivenNames x0
    have h0 : Keeps execRallyFrameRx_may s x0 := Keeps.step (Keeps.refl _ _) (poison_keeps ..) (by decide)
    clear_value x0
    exact Keeps.step (Keeps.step (Keeps.step (Keeps.twn h0 (by decide)) (missTl_keeps ..) (by decide)) (declareCheck_keeps ..)
        (by decide)) (updateSync_keeps ..) (by decide)
  exact Keeps.step (Keeps.refl _ _) (goodRally_keeps ..) (by decide)

theorem scrubItem_keeps (s : State) (place : Nat) (chunk : Nat) : Keeps [.rings, .msixPend, .ble, .upd, .out] s (scrubItem s
    place chunk) := by
  unfold scrubItem
  split
  · exact Keeps.step (Keeps.ble (Keeps.refl _ _) (by decide)) (failAct_keeps ..) (by decide)
  · exact Keeps.upd (Keeps.refl _ _) (by decide)
  · exact Keeps.refl _ _

abbrev execSelfTest_may : List Piece := [.regs, .pts, .hold, .phc, .clk, .banks, .ch, .rings, .evq, .recq, .recLost,
    .recLostCls, .msixPend, .can, .lce, .ble, .twn, .upd, .out]

theorem execSelfTest_keeps (bit : Fin 7) (found : Bool) (place : Fin 3) (item : Nat) (s : State) : ∃ u, execSelfTest bit found
    place item s = .next (close s u) ∧ Keeps execSelfTest_may s u := by
  refine ⟨_, rfl, ?_⟩
  refine Keeps.ite (Keeps.refl _ _) ?_
  extract_lets +onlyGivenNames _
  extract_lets +onlyGivenNames x1
  have h1 : Keeps execSelfTest_may s x1 := by
    refine Keeps.ite (Keeps.step (Keeps.step (Keeps.refl _ _) (poison_keeps ..) (by decide)) (scrubItem_keeps ..) (by decide))
        ?_
    exact Keeps.refl _ _
  clear_value x1
  extract_lets +onlyGivenNames -merge -useContext _ x2
  have h2 : Keeps execSelfTest_may s x2 := Keeps.ite (Keeps.twn h1 (by decide)) h1
  clear_value x2
  extract_lets +onlyGivenNames _
  extract_lets +onlyGivenNames -merge -useContext _ x4
  have h4 : Keeps execSelfTest_may s x4 := Keeps.ite h2 (Keeps.step (Keeps.twn h2 (by decide)) (healthEvent_keeps ..) (by
      decide))
  clear_value x4
  extract_lets +onlyGivenNames x5
  have h5 : Keeps execSelfTest_may s x5 := Keeps.step h4 (updateSync_keeps ..) (by decide)
  clear_value x5
  exact Keeps.ite (Keeps.step h5 (holdReset_keeps ..) (by decide)) h5

theorem execSensePathOpen_keeps (s : State) : ∃ u, execSensePathOpen s = .next (close s u) ∧ Keeps [.twn] s u := by
  refine ⟨_, rfl, ?_⟩
  exact Keeps.ite (Keeps.twn (Keeps.refl _ _) (by decide)) (Keeps.refl _ _)

theorem steerPair_keeps (s : State) (lag : Int) : Keeps [.phc, .free] s (steerPair s lag) := by
  unfold steerPair
  refine Keeps.ite (Keeps.refl _ _) ?_
  refine Keeps.ite (Keeps.phc (Keeps.refl _ _) (by decide)) ?_
  split
  · extract_lets +onlyGivenNames _
    refine Keeps.phc ?_ (by decide)
    refine Keeps.of_eq_snd ?_ ‹_›
    exact Keeps.step (Keeps.refl _ _) (takeFree_keeps ..) (by decide)

theorem preload_keeps (s : State) (items : List CopyItem) : Keeps [.banks, .ch, .out] s (preload s items) := by
  unfold preload
  extract_lets +onlyGivenNames _
  refine Keeps.forAll (Keeps.refl _ _) fun _ _ h1 => ?_
  exact Keeps.ite (Keeps.step h1 (sendOutput_keeps ..) (by decide)) h1

theorem notePlaus_keeps (s : State) : Keeps [.twn] s (notePlaus s) := by
  unfold notePlaus
  extract_lets +onlyGivenNames _
  exact Keeps.twn (Keeps.refl _ _) (by decide)

abbrev goodFrame_may : List Piece := [.regs, .live, .pts, .base, .hold, .phc, .banks, .ch, .rings, .evq, .msixPend, .forces,
    .img, .eth, .can, .lce, .ble, .twn, .free, .out]

theorem goodFrame_keeps (s : State) (seq : Word) (half : Nat) (health : Word) (plan : Option (Nat × Nat)) (final : Bool)
    (excess : Bool) (digest : List Nat) (lag : Int) (items : List CopyItem) : Keeps goodFrame_may s (goodFrame s seq half
    health plan final excess digest lag items) := by
  unfold goodFrame
  extract_lets +onlyGivenNames x0
  clear_value x0
  extract_lets +onlyGivenNames x1
  have h1 : Keeps goodFrame_may s x1 := Keeps.twn (Keeps.refl _ _) (by decide)
  clear_value x1
  extract_lets +onlyGivenNames x2
  have h2 : Keeps goodFrame_may s x2 := Keeps.step (Keeps.step h1 (putPeer_keeps ..) (by decide)) (steerPair_keeps ..) (by
      decide)
  clear_value x2
  extract_lets +onlyGivenNames x3
  have h3 : Keeps goodFrame_may s x3 := by
    refine Keeps.step ?_ (notePlaus_keeps ..) (by decide)
    refine Keeps.step ?_ (preload_keeps ..) (by decide)
    refine Keeps.forAll h2 fun _ _ h4 => ?_
    exact Keeps.step h4 (applyItem_keeps ..) (by decide)
  clear_value x3
  extract_lets +onlyGivenNames x5
  have h5 : Keeps goodFrame_may s x5 := Keeps.step h3 (updateSync_keeps ..) (by decide)
  clear_value x5
  extract_lets +onlyGivenNames x6
  have h6 : Keeps goodFrame_may s x6 := by
    refine Keeps.ite ?_ ?_
    · split
      · exact Keeps.ite (Keeps.step h5 (takeover_keeps ..) (by decide)) h5
      · exact h5
    exact h5
  clear_value x6
  exact Keeps.ite (Keeps.step h6 (sendRally_keeps ..) (by decide)) h6

theorem execStateFrameRx_keeps (ok : Bool) (seq : Word) (_ts : Nat) (half : Nat) (health : BitVec 16) (plan : Option (Nat ×
    Nat)) (final : Bool) (excess : Bool) (digest : List Nat) (lag : Int) (items : List CopyItem) (s : State) : ∃ u,
    execStateFrameRx ok seq _ts half health plan final excess digest lag items s = .next (close s u) ∧ Keeps [.regs, .live,
    .pts, .base, .hold, .phc, .banks, .ch, .rings, .evq, .msixPend, .forces, .img, .eth, .can, .lce, .ble, .twn, .free, .out] s
    u := by
  refine ⟨_, rfl, ?_⟩
  refine Keeps.ite (Keeps.refl _ _) ?_
  refine Keeps.ite (Keeps.step (Keeps.refl _ _) (badFrame_keeps ..) (by decide)) ?_
  exact Keeps.step (Keeps.refl _ _) (goodFrame_keeps ..) (by decide)

theorem execTakeback_keeps (s : State) : ∃ u, execTakeback s = .next (close s u) ∧ Keeps [.twn, .out] s u := by
  refine ⟨_, rfl, ?_⟩
  split
  · refine Keeps.ite (Keeps.step (Keeps.twn (Keeps.refl _ _) (by decide)) (sendRally_keeps ..) (by decide)) ?_
    exact Keeps.refl _ _
  · exact Keeps.refl _ _

theorem execTwinlinkCheck_keeps (s : State) : ∃ u, execTwinlinkCheck s = .next (close s u) ∧ Keeps [.regs, .pts, .base, .hold,
    .phc, .banks, .ch, .rings, .evq, .msixPend, .can, .lce, .ble, .twn, .out] s u := by
  refine ⟨_, rfl, ?_⟩
  refine Keeps.ite (Keeps.step (Keeps.step (Keeps.step (Keeps.refl _ _) (missTl_keeps ..) (by decide)) (declareCheck_keeps ..)
      (by decide)) (updateSync_keeps ..) (by decide)) ?_
  exact Keeps.refl _ _

theorem execTwinlinkLinkDown_keeps (up : Bool) (s : State) : ∃ u, execTwinlinkLinkDown up s = .next (close s u) ∧ Keeps [.regs,
    .evq, .twn] s u := by
  refine ⟨_, rfl, ?_⟩
  refine Keeps.ite (Keeps.step (Keeps.twn (Keeps.refl _ _) (by decide)) (updateSync_keeps ..) (by decide)) ?_
  exact Keeps.refl _ _

theorem execTwnSample_keeps (n : Fin 1024) (s : State) : ∃ u, execTwnSample n s = .next (close s u) ∧ Keeps [.regs, .live,
    .pts, .phc, .banks, .ch, .rings, .evq, .msixPend, .forces, .can, .lce, .ble, .twn, .out] s u := by
  refine ⟨_, rfl, ?_⟩
  split
  · refine Keeps.ite (Keeps.step (Keeps.step (Keeps.step (Keeps.refl _ _) (dueCommits_keeps ..) (by decide)) (fireEntry_keeps
      (by assumption)) (by decide)) (sampleNow_keeps ..) (by decide)) ?_
    exact Keeps.step (Keeps.step (Keeps.refl _ _) (dueCommits_keeps ..) (by decide)) (fireEntry_keeps (by assumption)) (by
        decide)
  · exact Keeps.step (Keeps.refl _ _) (dueCommits_keeps ..) (by decide)

end Sys2Proof.Laws
end

