-- ==== Sys2Proof/Laws/KeepsNet.lean ====
section
/-! SUPPORT. For every operation of Machine/Net.lean: the pieces of the state it may change; every other piece is exactly
what it was. -/

namespace Sys2Proof.Laws

open Machine

theorem servo_keeps (s : State) : Keeps [.ptp, .free] s (servo s) := by
  unfold servo
  split
  · extract_lets +onlyGivenNames _
    refine Keeps.ptp ?_ (by decide)
    refine Keeps.of_eq_snd ?_ ‹_›
    exact Keeps.step (Keeps.refl _ _) (takeFree_keeps ..) (by decide)

theorem ptpEvent_keeps (s : State) (bit : Nat) : Keeps [.regs, .evq] s (ptpEvent s bit) := by
  unfold ptpEvent
  exact Keeps.step (Keeps.refl _ _) (raiseBoth_keeps ..) (by decide)

theorem endTimed_keeps (s : State) (n : Nat) (status : Nat) : Keeps [.rings, .msixPend, .out] s (endTimed s n status) := by
  unfold endTimed
  refine Keeps.forAll (Keeps.refl _ _) fun _ _ h0 => ?_
  exact Keeps.ite (Keeps.step h0 (complete_keeps ..) (by decide)) h0

theorem lostNettime_keeps (s : State) : Keeps [.phc, .rings, .msixPend, .out] s (lostNettime s) := by
  unfold lostNettime
  extract_lets +onlyGivenNames _
  refine Keeps.forAll (Keeps.phc (Keeps.refl _ _) (by decide)) fun _ _ h1 => ?_
  exact Keeps.step h1 (endTimed_keeps ..) (by decide)

abbrev ptpState_may : List Piece := [.regs, .phc, .rings, .evq, .msixPend, .ptp, .out]

theorem ptpState_keeps (s : State) (st : Nat) : Keeps ptpState_may s (ptpState s st) := by
  unfold ptpState
  extract_lets +onlyGivenNames _
  extract_lets +onlyGivenNames -merge -useContext _ x1
  have h1 : Keeps ptpState_may s x1 := Keeps.ptp (Keeps.refl _ _) (by decide)
  clear_value x1
  refine Keeps.ite (Keeps.step (Keeps.step h1 (ptpEvent_keeps ..) (by decide)) (lostNettime_keeps ..) (by decide)) ?_
  exact Keeps.ite (Keeps.step h1 (ptpEvent_keeps ..) (by decide)) h1

theorem stepTime_keeps (s : State) (d : Int) : Keeps [.ptp] s (stepTime s d) := by
  unfold stepTime
  exact Keeps.ptp (Keeps.refl _ _) (by decide)

abbrev acceptOffset_may : List Piece := [.regs, .phc, .rings, .evq, .msixPend, .ptp, .free, .out]

theorem acceptOffset_keeps (s : State) (o : Int) : Keeps acceptOffset_may s (acceptOffset s o) := by
  unfold acceptOffset
  extract_lets +onlyGivenNames _
  extract_lets +onlyGivenNames _
  extract_lets +onlyGivenNames _
  extract_lets +onlyGivenNames -merge -useContext _ x3
  have h3 : Keeps acceptOffset_may s x3 := Keeps.ptp (Keeps.refl _ _) (by decide)
  clear_value x3
  extract_lets +onlyGivenNames x4
  have h4 : Keeps acceptOffset_may s x4 := by
    refine Keeps.ite (Keeps.step (Keeps.step h3 (stepTime_keeps ..) (by decide)) (ptpEvent_keeps ..) (by decide)) ?_
    exact Keeps.step h3 (servo_keeps ..) (by decide)
  clear_value x4
  exact Keeps.ite (Keeps.step h4 (ptpState_keeps ..) (by decide)) h4

theorem acquire_keeps (s : State) : Keeps [.regs, .phc, .rings, .evq, .msixPend, .ptp, .out] s (acquire s) := by
  unfold acquire
  exact Keeps.step (Keeps.ptp (Keeps.refl _ _) (by decide)) (ptpState_keeps ..) (by decide)

theorem ethEvent_keeps (s : State) (bit : Nat) : Keeps [.regs, .evq] s (ethEvent s bit) := by
  unfold ethEvent
  exact Keeps.step (Keeps.refl _ _) (raiseBoth_keeps ..) (by decide)

theorem stationCfg_keeps (s : State) : Keeps [.regs, .evq] s (stationCfg s) := by
  unfold stationCfg
  exact Keeps.step (Keeps.refl _ _) (ethEvent_keeps ..) (by decide)

theorem stationFieldWrite_keeps (s : State) (n : Nat) (o : Nat) (v : Word) : Keeps [.regs, .evq] s (stationFieldWrite s n o v)
    := by
  unfold stationFieldWrite
  refine Keeps.ite (Keeps.ite (Keeps.refl _ _) (Keeps.step (Keeps.refl _ _) (stationCfg_keeps ..) (by decide))) ?_
  exact Keeps.step (Keeps.refl _ _) (rwrite_keeps ..) (by decide)

abbrev loseMaster_may : List Piece := [.regs, .phc, .rings, .evq, .msixPend, .ptp, .out]

theorem loseMaster_keeps (s : State) : Keeps loseMaster_may s (loseMaster s) := by
  unfold loseMaster
  extract_lets +onlyGivenNames -merge -useContext _ x0
  have h0 : Keeps loseMaster_may s x0 := Keeps.ptp (Keeps.refl _ _) (by decide)
  try clear_value x0
  exact Keeps.ite (Keeps.step h0 (ptpState_keeps ..) (by decide)) h0

abbrev selectMaster_may : List Piece := [.regs, .phc, .rings, .evq, .msixPend, .ptp, .out]

theorem selectMaster_keeps (s : State) : Keeps selectMaster_may s (selectMaster s) := by
  unfold selectMaster
  split
  · exact Keeps.refl _ _
  · extract_lets +onlyGivenNames -merge -useContext _ x0
    have h0 : Keeps selectMaster_may s x0 := Keeps.ptp (Keeps.refl _ _) (by decide)
    try clear_value x0
    refine Keeps.ite h0 ?_
    extract_lets +onlyGivenNames -merge -useContext _ _
    exact Keeps.step (Keeps.step (Keeps.ptp h0 (by decide)) (ptpEvent_keeps ..) (by decide)) (acquire_keeps ..) (by decide)

abbrev ptpCtrlWrite_may : List Piece := [.regs, .phc, .rings, .evq, .msixPend, .ptp, .out]

theorem ptpCtrlWrite_keeps (s : State) (v : Word) : Keeps ptpCtrlWrite_may s (ptpCtrlWrite s v) := by
  unfold ptpCtrlWrite
  extract_lets +onlyGivenNames _
  extract_lets +onlyGivenNames _
  extract_lets +onlyGivenNames x2
  have h2 : Keeps ptpCtrlWrite_may s x2 := Keeps.step (Keeps.refl _ _) (rwrite_keeps ..) (by decide)
  clear_value x2
  extract_lets +onlyGivenNames _
  extract_lets +onlyGivenNames _
  extract_lets +onlyGivenNames -merge -useContext _ x5
  have h5 : Keeps ptpCtrlWrite_may s x5 := Keeps.ptp h2 (by decide)
  clear_value x5
  refine Keeps.ite ?_ ?_
  · refine Keeps.ite (Keeps.step h5 (selectMaster_keeps ..) (by decide)) ?_
    exact Keeps.step h5 (loseMaster_keeps ..) (by decide)
  exact Keeps.ite (Keeps.step h5 (ptpState_keeps ..) (by decide)) h5

abbrev linkLost_may : List Piece := [.regs, .phc, .rings, .evq, .msixPend, .ptp, .eth, .out]

theorem linkLost_keeps (s : State) (p : Nat) : Keeps linkLost_may s (linkLost s p) := by
  unfold linkLost
  extract_lets +onlyGivenNames x0
  have h0 : Keeps linkLost_may s x0 := Keeps.step (Keeps.refl _ _) (dropLink_keeps ..) (by decide)
  clear_value x0
  exact Keeps.ite (Keeps.step (Keeps.ptp h0 (by decide)) (loseMaster_keeps ..) (by decide)) h0

theorem reneg_keeps (s : State) (p : Nat) (down : Bool) : Keeps [.regs, .phc, .rings, .evq, .msixPend, .ptp, .eth, .out] s
    (reneg s p down) := by
  unfold reneg
  exact Keeps.step (Keeps.step (Keeps.refl _ _) (renegotiate_keeps ..) (by decide)) (linkLost_keeps ..) (by decide)

abbrev portCtrlWrite_may : List Piece := [.regs, .phc, .rings, .evq, .msixPend, .ptp, .eth, .out]

theorem portCtrlWrite_keeps (s : State) (p : Nat) (v : Word) : Keeps portCtrlWrite_may s (portCtrlWrite s p v) := by
  unfold portCtrlWrite
  extract_lets +onlyGivenNames _
  extract_lets +onlyGivenNames _
  extract_lets +onlyGivenNames _
  extract_lets +onlyGivenNames x3
  have h3 : Keeps portCtrlWrite_may s x3 := Keeps.step (Keeps.refl _ _) (rwrite_keeps ..) (by decide)
  clear_value x3
  refine Keeps.ite (Keeps.step h3 (linkLost_keeps ..) (by decide)) ?_
  exact Keeps.ite (Keeps.step h3 (reneg_keeps ..) (by decide)) h3

theorem setRio_keeps (s : State) (n : Nat) (r : Rio) : Keeps [.eth] s (setRio s n r) := by
  unfold setRio
  exact Keeps.eth (Keeps.refl _ _) (by decide)

theorem stationWrite_keeps (s : State) (n : Nat) (v : Word) : Keeps [.regs, .evq, .eth] s (stationWrite s n v) := by
  unfold stationWrite
  extract_lets +onlyGivenNames _
  extract_lets +onlyGivenNames _
  refine Keeps.ite ?_ ?_
  · extract_lets +onlyGivenNames x2
    have h2 : Keeps [.regs, .evq, .eth] s x2 := Keeps.ite (Keeps.refl _ _) (Keeps.step (Keeps.refl _ _) (stationCfg_keeps ..)
        (by decide))
    clear_value x2
    exact Keeps.step h2 (rset_keeps ..) (by decide)
  extract_lets +onlyGivenNames x3
  have h3 : Keeps [.regs, .evq, .eth] s x3 := Keeps.step (Keeps.refl _ _) (rwrite_keeps ..) (by decide)
  clear_value x3
  refine Keeps.ite h3 ?_
  refine Keeps.ite (Keeps.step h3 (setRio_keeps ..) (by decide)) ?_
  exact Keeps.step (Keeps.step h3 (rset_keeps ..) (by decide)) (stationCfg_keeps ..) (by decide)

theorem ethWrite_keeps (s : State) (off : Nat) (v : Word) : Keeps [.regs, .phc, .rings, .evq, .msixPend, .ptp, .eth, .out] s
    (ethWrite s off v) := by
  unfold ethWrite
  extract_lets +onlyGivenNames _
  refine Keeps.ite (Keeps.step (Keeps.refl _ _) (ptpCtrlWrite_keeps ..) (by decide)) ?_
  refine Keeps.ite (Keeps.ite (Keeps.refl _ _) (Keeps.step (Keeps.refl _ _) (rwrite_keeps ..) (by decide))) ?_
  refine Keeps.ite ?_ ?_
  · extract_lets +onlyGivenNames _
    refine Keeps.ite (Keeps.step (Keeps.refl _ _) (stationWrite_keeps ..) (by decide)) ?_
    exact Keeps.ite (Keeps.step (Keeps.refl _ _) (stationFieldWrite_keeps ..) (by decide)) (Keeps.refl _ _)
  refine Keeps.ite ?_ ?_
  · extract_lets +onlyGivenNames _
    extract_lets +onlyGivenNames _
    refine Keeps.ite (Keeps.step (Keeps.refl _ _) (portCtrlWrite_keeps ..) (by decide)) ?_
    refine Keeps.ite (Keeps.step (Keeps.refl _ _) (filterWrite_keeps ..) (by decide)) ?_
    exact Keeps.step (Keeps.refl _ _) (rwrite_keeps ..) (by decide)
  exact Keeps.step (Keeps.refl _ _) (rwrite_keeps ..) (by decide)

abbrev execAnnounceRx_may : List Piece := [.regs, .phc, .rings, .evq, .msixPend, .ptp, .out]

theorem execAnnounceRx_keeps (p : Fin 2) (dom : Nat) (id : Nat) (data : List Nat) (gm : Nat) (ival : Nat) (utc : BitVec 16)
    (utcValid : Bool) (s : State) : ∃ u, execAnnounceRx p dom id data gm ival utc utcValid s = .next (close s u) ∧ Keeps
    execAnnounceRx_may s u := by
  refine ⟨_, rfl, ?_⟩
  refine Keeps.ite (Keeps.refl _ _) ?_
  extract_lets +onlyGivenNames _
  extract_lets +onlyGivenNames _
  extract_lets +onlyGivenNames _
  extract_lets +onlyGivenNames -merge -useContext _ x3
  have h3 : Keeps execAnnounceRx_may s x3 := Keeps.ptp (Keeps.refl _ _) (by decide)
  clear_value x3
  exact Keeps.step h3 (selectMaster_keeps ..) (by decide)

theorem execDelayReqSend_keeps (s : State) : ∃ u, execDelayReqSend s = .next (close s u) ∧ Keeps [.ptp, .eth] s u := by
  refine ⟨_, rfl, ?_⟩
  extract_lets +onlyGivenNames _
  refine Keeps.ite (Keeps.refl _ _) ?_
  extract_lets +onlyGivenNames _
  exact Keeps.step (Keeps.ptp (Keeps.refl _ _) (by decide)) (sendInternal_keeps ..) (by decide)

abbrev refuse_may : List Piece := [.regs, .phc, .rings, .evq, .msixPend, .ptp, .out]

theorem refuse_keeps (s : State) : Keeps refuse_may s (refuse s) := by
  unfold refuse
  extract_lets +onlyGivenNames -merge -useContext _ x0
  have h0 : Keeps refuse_may s x0 := Keeps.step (Keeps.ptp (Keeps.refl _ _) (by decide)) (ptpEvent_keeps ..) (by decide)
  clear_value x0
  refine Keeps.ite ?_ ?_
  · extract_lets +onlyGivenNames _
    extract_lets +onlyGivenNames x2
    have h2 : Keeps refuse_may s x2 := Keeps.step h0 (acquire_keeps ..) (by decide)
    clear_value x2
    exact Keeps.ptp h2 (by decide)
  exact h0

abbrev execDelayRespRx_may : List Piece := [.regs, .phc, .rings, .evq, .msixPend, .ptp, .eth, .out]

theorem execDelayRespRx_keeps (p : Fin 2) (dom : Nat) (id : Nat) (seq : BitVec 16) (t4 : Int) (corr : Int) (s : State) : ∃ u,
    execDelayRespRx p dom id seq t4 corr s = .next (close s u) ∧ Keeps execDelayRespRx_may s u := by
  refine ⟨_, rfl, ?_⟩
  refine Keeps.ite (Keeps.refl _ _) ?_
  extract_lets +onlyGivenNames x0
  have h0 : Keeps execDelayRespRx_may s x0 := Keeps.step (Keeps.refl _ _) (modPort_keeps ..) (by decide)
  clear_value x0
  split
  · refine Keeps.ite h0 ?_
    extract_lets +onlyGivenNames x1
    have h1 : Keeps execDelayRespRx_may s x1 := Keeps.step h0 (modPort_keeps ..) (by decide)
    clear_value x1
    extract_lets +onlyGivenNames -merge -useContext _ x2
    have h2 : Keeps execDelayRespRx_may s x2 := Keeps.ptp h1 (by decide)
    clear_value x2
    extract_lets +onlyGivenNames _
    refine Keeps.ite h2 ?_
    extract_lets +onlyGivenNames _
    exact Keeps.ite (Keeps.step h2 (refuse_keeps ..) (by decide)) (Keeps.ptp h2 (by decide))
  · exact h0

abbrev gotSync_may : List Piece := [.regs, .phc, .rings, .evq, .msixPend, .ptp, .free, .out]

theorem gotSync_keeps (s : State) (d : Int) : Keeps gotSync_may s (gotSync s d) := by
  unfold gotSync
  extract_lets +onlyGivenNames -merge -useContext _ x0
  have h0 : Keeps gotSync_may s x0 := Keeps.ptp (Keeps.refl _ _) (by decide)
  clear_value x0
  split
  · exact h0
  · extract_lets +onlyGivenNames _
    extract_lets +onlyGivenNames -merge -useContext _ x2
    have h2 : Keeps gotSync_may s x2 := Keeps.ptp h0 (by decide)
    clear_value x2
    refine Keeps.ite (Keeps.step h2 (refuse_keeps ..) (by decide)) ?_
    exact Keeps.ite (Keeps.step h2 (acceptOffset_keeps ..) (by decide)) h2

theorem execFollowUpRx_keeps (p : Fin 2) (dom : Nat) (id : Nat) (seq : BitVec 16) (t1 : Int) (corr : Int) (s : State) : ∃ u,
    execFollowUpRx p dom id seq t1 corr s = .next (close s u) ∧ Keeps [.regs, .phc, .rings, .evq, .msixPend, .ptp, .free, .out]
    s u := by
  refine ⟨_, rfl, ?_⟩
  refine Keeps.ite (Keeps.refl _ _) ?_
  split
  · refine Keeps.ite (Keeps.step (Keeps.ptp (Keeps.refl _ _) (by decide)) (gotSync_keeps ..) (by decide)) ?_
    exact Keeps.refl _ _
  · exact Keeps.refl _ _

abbrev execMasterLost_may : List Piece := [.regs, .phc, .rings, .evq, .msixPend, .ptp, .out]

theorem execMasterLost_keeps (s : State) : ∃ u, execMasterLost s = .next (close s u) ∧ Keeps execMasterLost_may s u := by
  refine ⟨_, rfl, ?_⟩
  split
  · exact Keeps.refl _ _
  · refine Keeps.ite (Keeps.refl _ _) ?_
    extract_lets +onlyGivenNames -merge -useContext _ x0
    have h0 : Keeps execMasterLost_may s x0 := Keeps.ptp (Keeps.refl _ _) (by decide)
    clear_value x0
    refine Keeps.ite (Keeps.step h0 (selectMaster_keeps ..) (by decide)) ?_
    exact Keeps.step h0 (loseMaster_keeps ..) (by decide)

theorem execPortLinkDown_keeps (p : Fin 2) (s : State) : ∃ u, execPortLinkDown p s = .next (close s u) ∧ Keeps [.regs, .phc,
    .rings, .evq, .msixPend, .ptp, .eth, .out] s u := by
  refine ⟨_, rfl, ?_⟩
  exact Keeps.step (Keeps.refl _ _) (linkLost_keeps ..) (by decide)

theorem execPortLinkUp_keeps (p : Fin 2) (speed : Fin 4) (s : State) : ∃ u, execPortLinkUp p speed s = .next (close s u) ∧
    Keeps [.eth] s u := by
  refine ⟨_, rfl, ?_⟩
  exact Keeps.ite (Keeps.step (Keeps.refl _ _) (modPort_keeps ..) (by decide)) (Keeps.refl _ _)

theorem execSpeedStepDown_keeps (p : Fin 2) (s : State) : ∃ u, execSpeedStepDown p s = .next (close s u) ∧ Keeps [.regs, .phc,
    .rings, .evq, .msixPend, .ptp, .eth, .out] s u := by
  refine ⟨_, rfl, ?_⟩
  exact Keeps.ite (Keeps.step (Keeps.refl _ _) (reneg_keeps ..) (by decide)) (Keeps.refl _ _)

theorem execSpeedStepUp_keeps (p : Fin 2) (s : State) : ∃ u, execSpeedStepUp p s = .next (close s u) ∧ Keeps [.regs, .phc,
    .rings, .evq, .msixPend, .ptp, .eth, .out] s u := by
  refine ⟨_, rfl, ?_⟩
  exact Keeps.ite (Keeps.step (Keeps.refl _ _) (reneg_keeps ..) (by decide)) (Keeps.refl _ _)

theorem execStationEnable_keeps (n : Fin 32) (v : Word) (s : State) : ∃ u, execStationEnable n v s = .next (close s u) ∧ Keeps
    [.regs, .evq, .eth] s u := by
  refine ⟨_, rfl, ?_⟩
  refine Keeps.reached (Keeps.refl _ _) (fun _ h0 => ?_)
  exact Keeps.step h0 (stationWrite_keeps ..) (by decide)

theorem execStationReq_keeps (n : Fin 32) (s : State) : ∃ u, execStationReq n s = .next (close s u) ∧ Keeps [.eth] s u := by
  refine ⟨_, rfl, ?_⟩
  extract_lets +onlyGivenNames _
  refine Keeps.ite ?_ ?_
  · extract_lets +onlyGivenNames _
    exact Keeps.step (Keeps.step (Keeps.refl _ _) (setRio_keeps ..) (by decide)) (flSend_keeps ..) (by decide)
  exact Keeps.refl _ _

theorem rejectRsp_keeps (s : State) (n : Nat) : Keeps [.eth] s (rejectRsp s n) := by
  unfold rejectRsp
  extract_lets +onlyGivenNames _
  exact Keeps.step (Keeps.refl _ _) (setRio_keeps ..) (by decide)

theorem execStationRsp_keeps (ok : Bool) (ver : Nat) (verMin : Nat) (verMax : Nat) (pairId : BitVec 16) (n : Fin 256) (mac :
    BitVec 48) (seq : Word) (status : Word) (words : List Word) (s : State) : ∃ u, execStationRsp ok ver verMin verMax pairId n
    mac seq status words s = .next (close s u) ∧ Keeps [.regs, .evq, .eth] s u := by
  refine ⟨_, rfl, ?_⟩
  refine Keeps.ite (Keeps.refl _ _) ?_
  refine Keeps.ite (Keeps.step (Keeps.refl _ _) (flReject_keeps ..) (by decide)) ?_
  refine Keeps.ite (Keeps.refl _ _) ?_
  extract_lets +onlyGivenNames _
  refine Keeps.ite ?_ ?_
  · extract_lets +onlyGivenNames _
    extract_lets +onlyGivenNames _
    exact Keeps.step (Keeps.refl _ _) (setRio_keeps ..) (by decide)
  exact Keeps.step (Keeps.refl _ _) (rejectRsp_keeps ..) (by decide)

theorem execStationTimeout_keeps (n : Fin 32) (s : State) : ∃ u, execStationTimeout n s = .next (close s u) ∧ Keeps [.eth] s u
    := by
  refine ⟨_, rfl, ?_⟩
  split
  · exact Keeps.ite (Keeps.step (Keeps.refl _ _) (setRio_keeps ..) (by decide)) (Keeps.refl _ _)
  · exact Keeps.refl _ _

theorem execStepLockEnd_keeps (p : Fin 2) (s : State) : ∃ u, execStepLockEnd p s = .next (close s u) ∧ Keeps [.regs, .phc,
    .rings, .evq, .msixPend, .ptp, .eth, .out] s u := by
  refine ⟨_, rfl, ?_⟩
  exact Keeps.ite (Keeps.step (Keeps.refl _ _) (reneg_keeps ..) (by decide)) (Keeps.refl _ _)

abbrev execSyncRx_may : List Piece := [.regs, .phc, .rings, .evq, .msixPend, .ptp, .free, .out]

theorem execSyncRx_keeps (p : Fin 2) (dom : Nat) (id : Nat) (seq : BitVec 16 × Nat) (twoStep : Bool) (t1 : Int) (corr : Int) (s
    : State) : ∃ u, execSyncRx p dom id seq twoStep t1 corr s = .next (close s u) ∧ Keeps execSyncRx_may s u := by
  refine ⟨_, rfl, ?_⟩
  refine Keeps.ite (Keeps.refl _ _) ?_
  extract_lets +onlyGivenNames -merge -useContext _ x0
  have h0 : Keeps execSyncRx_may s x0 := Keeps.ptp (Keeps.refl _ _) (by decide)
  clear_value x0
  refine Keeps.ite (Keeps.ptp h0 (by decide)) ?_
  exact Keeps.step (Keeps.ptp h0 (by decide)) (gotSync_keeps ..) (by decide)

theorem ptpForced_keeps (s : State) : Keeps [.regs, .phc, .rings, .evq, .msixPend, .ptp, .out] s (ptpForced s) := by
  unfold ptpForced
  refine Keeps.ite (Keeps.step (Keeps.step (Keeps.refl _ _) (ptpEvent_keeps ..) (by decide)) (acquire_keeps ..) (by decide)) ?_
  exact Keeps.refl _ _

theorem ptpRestart_keeps (s : State) : Keeps [.regs, .phc, .rings, .evq, .msixPend, .ptp, .out] s (ptpRestart s) := by
  unfold ptpRestart
  refine Keeps.ite (Keeps.refl _ _) ?_
  refine Keeps.ite (Keeps.step (Keeps.refl _ _) (acquire_keeps ..) (by decide)) ?_
  exact Keeps.step (Keeps.refl _ _) (ptpState_keeps ..) (by decide)

end Sys2Proof.Laws
end

