-- ==== Sys2Proof/Laws/KeepsPower.lean ====
section
/-! SUPPORT. For every operation of Machine/Power.lean: the pieces of the state it may change; every other piece is exactly
what it was. -/

namespace Sys2Proof.Laws

open Machine

abbrev closeGate_may : List Piece := [.regs, .clk, .rings, .msixPend, .can, .out]

theorem closeGate_keeps (s : State) (bit : Nat) : Keeps closeGate_may s (closeGate s bit) := by
  unfold closeGate
  extract_lets +onlyGivenNames -merge -useContext _ x0
  have h0 : Keeps closeGate_may s x0 := Keeps.step (Keeps.clk (Keeps.refl _ _) (by decide)) (rclr_keeps ..) (by decide)
  clear_value x0
  exact Keeps.ite (Keeps.step h0 (failAllTx_keeps ..) (by decide)) h0

abbrev endSwitch_may : List Piece := [.regs, .phc, .clk, .rings, .evq, .msixPend, .ptp, .out]

theorem endSwitch_keeps (s : State) (d : Nat) (old : Nat) (new : Nat) : Keeps endSwitch_may s (endSwitch s d old new) := by
  unfold endSwitch
  extract_lets +onlyGivenNames _
  extract_lets +onlyGivenNames -merge -useContext _ x1
  have h1 : Keeps endSwitch_may s x1 := Keeps.clk (Keeps.refl _ _) (by decide)
  clear_value x1
  extract_lets +onlyGivenNames x2
  have h2 : Keeps endSwitch_may s x2 := Keeps.step h1 (rclr_keeps ..) (by decide)
  clear_value x2
  extract_lets +onlyGivenNames x3
  have h3 : Keeps endSwitch_may s x3 := Keeps.step h2 (rsetFld_keeps ..) (by decide)
  clear_value x3
  exact Keeps.ite (Keeps.step h3 (ptpRestart_keeps ..) (by decide)) h3

theorem requestSwitch_keeps (s : State) (d : Nat) (code : Nat) : Keeps [.regs, .clk] s (requestSwitch s d code) := by
  unfold requestSwitch
  refine Keeps.ite (Keeps.refl _ _) ?_
  extract_lets +onlyGivenNames _
  refine Keeps.ite (Keeps.step (Keeps.refl _ _) (ror_keeps ..) (by decide)) ?_
  extract_lets +onlyGivenNames x1
  have h1 : Keeps [.regs, .clk] s x1 := Keeps.step (Keeps.refl _ _) (rsetFld_keeps ..) (by decide)
  clear_value x1
  extract_lets +onlyGivenNames x2
  have h2 : Keeps [.regs, .clk] s x2 := Keeps.step h1 (ror_keeps ..) (by decide)
  clear_value x2
  exact Keeps.clk h2 (by decide)

theorem srcWrite_keeps (s : State) (v : Word) : Keeps [.regs, .clk] s (srcWrite s v) := by
  unfold srcWrite
  refine Keeps.forAll (Keeps.refl _ _) fun _ _ h0 => ?_
  exact Keeps.step h0 (requestSwitch_keeps ..) (by decide)

theorem execClockSourceSwitch_keeps (v : Word) (s : State) : ∃ u, execClockSourceSwitch v s = .next (close s u) ∧ Keeps [.regs,
    .clk] s u := by
  refine ⟨_, rfl, ?_⟩
  refine Keeps.reached (Keeps.refl _ _) (fun _ h0 => ?_)
  exact Keeps.step h0 (srcWrite_keeps ..) (by decide)

theorem execFmDone_keeps (count : BitVec 64) (s : State) : ∃ u, execFmDone count s = .next (close s u) ∧ Keeps [.regs, .clk] s
    u := by
  refine ⟨_, rfl, ?_⟩
  refine Keeps.ite ?_ ?_
  · extract_lets +onlyGivenNames -merge -useContext _ x0
    have h0 : Keeps [.regs, .clk] s x0 := Keeps.clk (Keeps.refl _ _) (by decide)
    clear_value x0
    extract_lets +onlyGivenNames x1
    have h1 : Keeps [.regs, .clk] s x1 := Keeps.step (Keeps.step h0 (rset_keeps ..) (by decide)) (rset_keeps ..) (by decide)
    clear_value x1
    exact Keeps.step h1 (rclr_keeps ..) (by decide)
  exact Keeps.refl _ _

theorem fmWrite_keeps (s : State) (v : Word) : Keeps [.regs, .clk] s (fmWrite s v) := by
  unfold fmWrite
  extract_lets +onlyGivenNames x0
  have h0 : Keeps [.regs, .clk] s x0 := Keeps.step (Keeps.refl _ _) (rwrite_keeps ..) (by decide)
  clear_value x0
  extract_lets +onlyGivenNames _
  extract_lets +onlyGivenNames _
  extract_lets +onlyGivenNames _
  refine Keeps.ite h0 ?_
  refine Keeps.ite (Keeps.step h0 (ror_keeps ..) (by decide)) ?_
  exact Keeps.step (Keeps.step (Keeps.clk h0 (by decide)) (rclr_keeps ..) (by decide)) (ror_keeps ..) (by decide)

theorem execFmStart_keeps (v : Word) (s : State) : ∃ u, execFmStart v s = .next (close s u) ∧ Keeps [.regs, .clk] s u := by
  refine ⟨_, rfl, ?_⟩
  refine Keeps.reached (Keeps.refl _ _) (fun _ h0 => ?_)
  exact Keeps.step h0 (fmWrite_keeps ..) (by decide)

abbrev forceSwitch_may : List Piece := [.regs, .phc, .clk, .rings, .evq, .msixPend, .ptp, .out]

theorem forceSwitch_keeps (s : State) (d : Nat) : Keeps forceSwitch_may s (forceSwitch s d) := by
  unfold forceSwitch
  extract_lets +onlyGivenNames _
  extract_lets +onlyGivenNames x1
  have h1 : Keeps forceSwitch_may s x1 := Keeps.step (Keeps.step (Keeps.refl _ _) (endSwitch_keeps ..) (by decide)) (ror_keeps
      ..) (by
      decide)
  clear_value x1
  extract_lets +onlyGivenNames x2
  have h2 : Keeps forceSwitch_may s x2 := Keeps.step h1 (recEvent_keeps ..) (by decide)
  clear_value x2
  exact Keeps.ite (Keeps.step h2 (ptpForced_keeps ..) (by decide)) h2

theorem execForcedSwitch_keeps (d : Fin 4) (s : State) : ∃ u, execForcedSwitch d s = .next (close s u) ∧ Keeps [.regs, .phc,
    .clk, .rings, .evq, .msixPend, .ptp, .out] s u := by
  refine ⟨_, rfl, ?_⟩
  exact Keeps.ite (Keeps.step (Keeps.refl _ _) (forceSwitch_keeps ..) (by decide)) (Keeps.refl _ _)

abbrev execGateClose_may : List Piece := [.regs, .clk, .rings, .msixPend, .can, .out]

theorem execGateClose_keeps (bit : Fin 20) (idle : Bool) (s : State) : ∃ u, execGateClose bit idle s = .next (close s u) ∧
    Keeps execGateClose_may s u := by
  refine ⟨_, rfl, ?_⟩
  refine Keeps.reached (Keeps.refl _ _) (fun _ h0 => ?_)
  extract_lets +onlyGivenNames _
  refine Keeps.ite h0 ?_
  refine Keeps.ite (Keeps.step h0 (ror_keeps ..) (by decide)) ?_
  extract_lets +onlyGivenNames x2
  have h2 : Keeps execGateClose_may s x2 := Keeps.step h0 (rclr_keeps ..) (by decide)
  clear_value x2
  exact Keeps.ite h2 (Keeps.ite (Keeps.step h2 (closeGate_keeps ..) (by decide)) (Keeps.clk h2 (by decide)))

theorem execGateCloseTimeout_keeps (bit : Fin 20) (s : State) : ∃ u, execGateCloseTimeout bit s = .next (close s u) ∧ Keeps
    [.regs, .clk, .rings, .msixPend, .can, .out] s u := by
  refine ⟨_, rfl, ?_⟩
  refine Keeps.ite (Keeps.step (Keeps.step (Keeps.refl _ _) (closeGate_keeps ..) (by decide)) (ror_keeps ..) (by decide)) ?_
  exact Keeps.refl _ _

theorem openGate_keeps (s : State) (bit : Nat) : Keeps [.regs, .clk] s (openGate s bit) := by
  unfold openGate
  exact Keeps.step (Keeps.clk (Keeps.refl _ _) (by decide)) (ror_keeps ..) (by decide)

abbrev gateRunWrite_may : List Piece := [.regs, .clk, .rings, .msixPend, .can, .out]

theorem gateRunWrite_keeps (s : State) (v : Word) : Keeps gateRunWrite_may s (gateRunWrite s v) := by
  unfold gateRunWrite
  extract_lets +onlyGivenNames _
  extract_lets +onlyGivenNames _
  refine Keeps.ite (Keeps.step (Keeps.refl _ _) (ror_keeps ..) (by decide)) ?_
  extract_lets +onlyGivenNames x2
  have h2 : Keeps gateRunWrite_may s x2 := Keeps.step (Keeps.refl _ _) (rset_keeps ..) (by decide)
  clear_value x2
  refine Keeps.ite h2 ?_
  refine Keeps.forAll h2 fun _ _ h3 => ?_
  refine Keeps.ite h3 ?_
  refine Keeps.ite (Keeps.step h3 (openGate_keeps ..) (by decide)) ?_
  exact Keeps.step h3 (closeGate_keeps ..) (by decide)

theorem execGateOpen_keeps (bit : Fin 20) (s : State) : ∃ u, execGateOpen bit s = .next (close s u) ∧ Keeps [.regs, .clk,
    .rings, .msixPend, .can, .out] s u := by
  refine ⟨_, rfl, ?_⟩
  refine Keeps.reached (Keeps.refl _ _) (fun _ h0 => ?_)
  exact Keeps.ite (Keeps.step h0 (gateRunWrite_keeps ..) (by decide)) h0

abbrev execHoldupEnd_may : List Piece := [.regs, .pts, .hold, .phc, .clk, .banks, .ch, .rings, .evq, .recq, .recLost,
    .recLostCls, .rtc, .msixPend, .can, .lce, .ble, .twn, .out]

theorem execHoldupEnd_keeps (backup : Bool) (s : State) : ∃ u, execHoldupEnd backup s = .next (close s u) ∧ Keeps
    execHoldupEnd_may s u := by
  refine ⟨_, rfl, ?_⟩
  refine Keeps.ite (Keeps.refl _ _) ?_
  extract_lets +onlyGivenNames x0
  have h0 : Keeps execHoldupEnd_may s x0 := Keeps.step (Keeps.step (Keeps.refl _ _) (holdReset_keeps ..) (by decide))
      (unhalt_keeps ..) (by
      decide)
  clear_value x0
  exact Keeps.clk h0 (by decide)

theorem execHoldupFull_keeps (s : State) : ∃ u, execHoldupFull s = .next (close s u) ∧ Keeps [.regs] s u := by
  refine ⟨_, rfl, ?_⟩
  exact Keeps.ite (Keeps.step (Keeps.refl _ _) (ror_keeps ..) (by decide)) (Keeps.refl _ _)

theorem execLogicInputGood_keeps (b : Bool) (s : State) : ∃ u, execLogicInputGood b s = .next (close s u) ∧ Keeps [.regs,
    .base, .evq] s u := by
  refine ⟨_, rfl, ?_⟩
  extract_lets +onlyGivenNames _
  extract_lets +onlyGivenNames -merge -useContext _ _ x1
  have h1 : Keeps [.regs, .base, .evq] s x1 := by
    refine Keeps.ite (Keeps.base (Keeps.refl _ _) (by decide) (by rfl)) ?_
    exact Keeps.base (Keeps.refl _ _) (by decide) (by rfl)
  clear_value x1
  exact Keeps.ite (Keeps.step h1 (raiseHost_keeps ..) (by decide)) h1

theorem execLogicInputLost_keeps (b : Bool) (s : State) : ∃ u, execLogicInputLost b s = .next (close s u) ∧ Keeps [.regs,
    .base, .evq] s u := by
  refine ⟨_, rfl, ?_⟩
  extract_lets +onlyGivenNames _
  refine Keeps.ite (Keeps.refl _ _) ?_
  extract_lets +onlyGivenNames _
  extract_lets +onlyGivenNames -merge -useContext _ _ x2
  have h2 : Keeps [.regs, .base, .evq] s x2 := by
    refine Keeps.ite (Keeps.base (Keeps.refl _ _) (by decide) (by rfl)) ?_
    exact Keeps.base (Keeps.refl _ _) (by decide) (by rfl)
  clear_value x2
  extract_lets +onlyGivenNames x3
  have h3 : Keeps [.regs, .base, .evq] s x3 := Keeps.ite h2 (Keeps.step h2 (rclr_keeps ..) (by decide))
  clear_value x3
  exact Keeps.step h3 (raiseBits_keeps ..) (by decide)

theorem execPeerSeatChg_keeps (present : Bool) (s : State) : ∃ u, execPeerSeatChg present s = .next (close s u) ∧ Keeps [.regs,
    .base, .evq] s u := by
  refine ⟨_, rfl, ?_⟩
  refine Keeps.ite (Keeps.refl _ _) ?_
  exact Keeps.step (Keeps.base (Keeps.refl _ _) (by decide) (by rfl)) (raiseHost_keeps ..) (by decide)

theorem execPowerFailRestart_keeps (s : State) : ∃ u, execPowerFailRestart s = .next (close s u) ∧ Keeps [.regs, .pts, .hold,
    .phc, .clk, .banks, .ch, .rings, .evq, .recq, .recLost, .recLostCls, .msixPend, .can, .lce, .ble, .twn, .out] s u := by
  refine ⟨_, rfl, ?_⟩
  exact Keeps.ite (Keeps.step (Keeps.refl _ _) (holdReset_keeps ..) (by decide)) (Keeps.refl _ _)

abbrev pfRecord_may : List Piece := [.regs, .clk, .rings, .evq, .recq, .recSlots, .recNext, .recLost, .recLostCls, .msixPend,
    .out]

theorem pfRecord_keeps (s : State) : Keeps pfRecord_may s (pfRecord s) := by
  unfold pfRecord
  extract_lets +onlyGivenNames _
  extract_lets +onlyGivenNames -merge -useContext _ x1
  have h1 : Keeps pfRecord_may s x1 := Keeps.step (Keeps.clk (Keeps.refl _ _) (by decide)) (recEvent_keeps ..) (by decide)
  clear_value x1
  exact Keeps.step (Keeps.step h1 (flushEvents_keeps ..) (by decide)) (recorderDrain_keeps ..) (by decide)

theorem pfSave_keeps (s : State) : Keeps [.regs, .clk, .rings, .evq, .recq, .recSlots, .recNext, .recLost, .recLostCls,
    .msixPend, .lce, .ble, .out] s (pfSave s) := by
  unfold pfSave
  refine Keeps.ite (Keeps.refl _ _) ?_
  refine Keeps.ite (Keeps.step (Keeps.refl _ _) (forceSave_keeps ..) (by decide)) ?_
  exact Keeps.step (Keeps.refl _ _) (pfRecord_keeps ..) (by decide)

abbrev execPowerFailWarning_may : List Piece := [.regs, .clk, .rings, .evq, .recq, .recSlots, .recNext, .recLost, .recLostCls,
    .rtc, .msixPend, .lce, .ble, .twn, .out]

theorem execPowerFailWarning_keeps (s : State) : ∃ u, execPowerFailWarning s = .next (close s u) ∧ Keeps
    execPowerFailWarning_may s u := by
  refine ⟨_, rfl, ?_⟩
  refine Keeps.ite (Keeps.refl _ _) ?_
  extract_lets +onlyGivenNames -merge -useContext _ x0
  have h0 : Keeps execPowerFailWarning_may s x0 := Keeps.clk (Keeps.refl _ _) (by decide)
  clear_value x0
  extract_lets +onlyGivenNames -merge -useContext _ _ x1
  have h1 : Keeps execPowerFailWarning_may s x1 := by
    refine Keeps.many (t := x0) ?_ rfl (fun p hp => by cases p <;> first | rfl | exact absurd (by decide) hp)
    exact h0
  clear_value x1
  extract_lets +onlyGivenNames x2
  have h2 : Keeps execPowerFailWarning_may s x2 := Keeps.step (Keeps.step h1 (ror_keeps ..) (by decide)) (raiseHost_keeps ..)
      (by decide)
  clear_value x2
  extract_lets +onlyGivenNames -merge -useContext _ _ x3
  have h3 : Keeps execPowerFailWarning_may s x3 := by
    refine Keeps.ite ?_ ?_
    · extract_lets +onlyGivenNames _
      exact Keeps.step (Keeps.twn h2 (by decide)) (refreshPair_keeps ..) (by decide)
    exact h2
  clear_value x3
  exact Keeps.step (Keeps.step (Keeps.step (Keeps.step h3 (pfSave_keeps ..) (by decide)) (flushEvents_keeps ..) (by decide))
      (recorderDrain_keeps ..) (by decide)) (saveOptime_keeps ..) (by decide)

theorem execResetWaitExit_keeps (s : State) : ∃ u, execResetWaitExit s = .next (close s u) ∧ Keeps [.clk] s u := by
  refine ⟨_, rfl, ?_⟩
  split
  · exact Keeps.ite (Keeps.clk (Keeps.refl _ _) (by decide)) (Keeps.refl _ _)
  · exact Keeps.refl _ _

abbrev execRetainSaveDone_may : List Piece := [.regs, .clk, .rings, .evq, .recq, .recSlots, .recNext, .recLost, .recLostCls,
    .msixPend, .lce, .ble, .out]

theorem execRetainSaveDone_keeps (s : State) : ∃ u, execRetainSaveDone s = .next (close s u) ∧ Keeps execRetainSaveDone_may s u
    := by
  refine ⟨_, rfl, ?_⟩
  extract_lets +onlyGivenNames x0
  have h0 : Keeps execRetainSaveDone_may s x0 := Keeps.step (Keeps.refl _ _) (endSave_keeps ..) (by decide)
  clear_value x0
  exact Keeps.ite (Keeps.step h0 (pfRecord_keeps ..) (by decide)) h0

theorem unseat_keeps (s : State) : Keeps [.regs, .pts, .base, .hold, .phc, .clk, .banks, .ch, .rings, .evq, .recq, .recLost,
    .recLostCls, .msixPend, .can, .lce, .ble, .twn, .out] s (unseat s) := by
  unfold unseat
  exact Keeps.step (Keeps.base (Keeps.refl _ _) (by decide) (by rfl)) (holdReset_keeps ..) (by decide)

theorem execSeatLoss_keeps (s : State) : ∃ u, execSeatLoss s = .next (close s u) ∧ Keeps [.regs, .pts, .base, .hold, .phc,
    .clk, .banks, .ch, .rings, .evq, .recq, .recLost, .recLostCls, .msixPend, .can, .lce, .ble, .twn, .out] s u := by
  refine ⟨_, rfl, ?_⟩
  exact Keeps.step (Keeps.base (Keeps.refl _ _) (by decide) (by rfl)) (unseat_keeps ..) (by decide)

theorem execSeatingRecognised_keeps (s : State) : ∃ u, execSeatingRecognised s = .next (close s u) ∧ Keeps [.base] s u := by
  refine ⟨_, rfl, ?_⟩
  exact Keeps.base (Keeps.refl _ _) (by decide) (by rfl)

theorem execSleepWake_keeps (bit : Fin 20) (s : State) : ∃ u, execSleepWake bit s = .next (close s u) ∧ Keeps [.clk] s u := by
  refine ⟨_, rfl, ?_⟩
  exact Keeps.ite (Keeps.clk (Keeps.refl _ _) (by decide)) (Keeps.refl _ _)

abbrev execSlotCodeChange_may : List Piece := [.regs, .pts, .base, .hold, .phc, .clk, .banks, .ch, .rings, .evq, .recq,
    .recLost, .recLostCls, .msixPend, .can, .lce, .ble, .twn, .out]

theorem execSlotCodeChange_keeps (code : Fin 4) (s : State) : ∃ u, execSlotCodeChange code s = .next (close s u) ∧ Keeps
    execSlotCodeChange_may s u := by
  refine ⟨_, rfl, ?_⟩
  refine Keeps.ite (Keeps.refl _ _) ?_
  extract_lets +onlyGivenNames _
  extract_lets +onlyGivenNames _
  extract_lets +onlyGivenNames -merge -useContext _ x2
  have h2 : Keeps execSlotCodeChange_may s x2 := Keeps.base (Keeps.refl _ _) (by decide) (by rfl)
  clear_value x2
  extract_lets +onlyGivenNames x3
  have h3 : Keeps execSlotCodeChange_may s x3 := Keeps.ite h2 (Keeps.step h2 (setHold_keeps ..) (by decide))
  clear_value x3
  refine Keeps.ite (Keeps.step (Keeps.step h3 (recEvent_keeps ..) (by decide)) (unseat_keeps ..) (by decide)) ?_
  exact h3

theorem fmRefFail_keeps (s : State) (n : Nat) : Keeps [.regs, .clk] s (fmRefFail s n) := by
  unfold fmRefFail
  split
  · refine Keeps.ite ?_ ?_
    · extract_lets +onlyGivenNames -merge -useContext _ x0
      have h0 : Keeps [.regs, .clk] s x0 := Keeps.step (Keeps.step (Keeps.clk (Keeps.refl _ _) (by decide)) (rset_keeps ..) (by
          decide))
          (rset_keeps ..) (by decide)
      clear_value x0
      exact Keeps.step (Keeps.step h0 (ror_keeps ..) (by decide)) (rclr_keeps ..) (by decide)
    exact Keeps.refl _ _
  · exact Keeps.refl _ _

abbrev macFail_may : List Piece := [.regs, .phc, .clk, .rings, .evq, .msixPend, .ptp, .eth, .out]

theorem macFail_keeps (s : State) (n : Nat) : Keeps macFail_may s (macFail s n) := by
  unfold macFail
  refine Keeps.ite (Keeps.refl _ _) ?_
  refine Keeps.ite ?_ ?_
  · extract_lets +onlyGivenNames -merge -useContext _ x0
    have h0 : Keeps macFail_may s x0 := Keeps.step (Keeps.clk (Keeps.refl _ _) (by decide)) (rsetFld_keeps ..) (by decide)
    clear_value x0
    exact Keeps.step h0 (forceSwitch_keeps ..) (by decide)
  extract_lets +onlyGivenNames -merge -useContext _ x1
  have h1 : Keeps macFail_may s x1 := Keeps.step (Keeps.clk (Keeps.refl _ _) (by decide)) (rsetFld_keeps ..) (by decide)
  clear_value x1
  exact Keeps.step (Keeps.step h1 (linkLost_keeps ..) (by decide)) (linkLost_keeps ..) (by decide)

abbrev execSourceFail_may : List Piece := [.regs, .pts, .hold, .phc, .clk, .banks, .ch, .rings, .evq, .recq, .recLost,
    .recLostCls, .rtc, .msixPend, .ptp, .eth, .can, .lce, .ble, .twn, .out]

theorem execSourceFail_keeps (n : Fin 9) (s : State) : ∃ u, execSourceFail n s = .next (close s u) ∧ Keeps execSourceFail_may s
    u := by
  refine ⟨_, rfl, ?_⟩
  refine Keeps.ite (Keeps.refl _ _) ?_
  extract_lets +onlyGivenNames -merge -useContext _ x0
  have h0 : Keeps execSourceFail_may s x0 := Keeps.clk (Keeps.refl _ _) (by decide)
  clear_value x0
  extract_lets +onlyGivenNames x1
  have h1 : Keeps execSourceFail_may s x1 := Keeps.step (Keeps.step h0 (raiseBoth_keeps ..) (by decide)) (fmRefFail_keeps ..)
      (by decide)
  clear_value x1
  extract_lets +onlyGivenNames x2
  have h2 : Keeps execSourceFail_may s x2 := by
    refine Keeps.ite ?_ ?_
    · refine Keeps.forAll h1 fun _ _ h3 => ?_
      exact Keeps.ite (Keeps.step h3 (failAllTx_keeps ..) (by decide)) h3
    exact h1
  clear_value x2
  extract_lets +onlyGivenNames x4
  have h4 : Keeps execSourceFail_may s x4 := Keeps.ite (Keeps.step h2 (oscStop_keeps ..) (by decide)) h2
  clear_value x4
  refine Keeps.ite ?_ ?_
  · extract_lets +onlyGivenNames x5
    have h5 : Keeps execSourceFail_may s x5 := Keeps.step h4 (holdReset_keeps ..) (by decide)
    clear_value x5
    exact Keeps.clk h5 (by decide)
  exact Keeps.step h4 (macFail_keeps ..) (by decide)

abbrev execSourceGood_may : List Piece := [.regs, .phc, .clk, .rings, .evq, .msixPend, .ptp, .out]

theorem execSourceGood_keeps (n : Fin 9) (s : State) : ∃ u, execSourceGood n s = .next (close s u) ∧ Keeps execSourceGood_may s
    u := by
  refine ⟨_, rfl, ?_⟩
  extract_lets +onlyGivenNames _
  extract_lets +onlyGivenNames _
  extract_lets +onlyGivenNames -merge -useContext _ x2
  have h2 : Keeps execSourceGood_may s x2 := Keeps.clk (Keeps.refl _ _) (by decide)
  clear_value x2
  exact Keeps.ite (Keeps.step h2 (ptpRestart_keeps ..) (by decide)) h2

theorem execSupWdogExpiry_keeps (s : State) : ∃ u, execSupWdogExpiry s = .next (close s u) ∧ Keeps [.regs, .pts, .hold, .phc,
    .clk, .banks, .ch, .rings, .evq, .recq, .recLost, .recLostCls, .msixPend, .can, .lce, .ble, .twn, .out] s u := by
  refine ⟨_, rfl, ?_⟩
  exact Keeps.ite (Keeps.step (Keeps.refl _ _) (holdReset_keeps ..) (by decide)) (Keeps.refl _ _)

theorem execSwitchComplete_keeps (d : Fin 4) (s : State) : ∃ u, execSwitchComplete d s = .next (close s u) ∧ Keeps [.regs,
    .phc, .clk, .rings, .evq, .msixPend, .ptp, .out] s u := by
  refine ⟨_, rfl, ?_⟩
  exact Keeps.ite (Keeps.step (Keeps.refl _ _) (endSwitch_keeps ..) (by decide)) (Keeps.refl _ _)

abbrev execTaskCycleCommit_may : List Piece := [.regs, .pts, .clk, .banks, .ch, .rings, .evq, .recq, .recSlots, .recNext,
    .recLost, .recLostCls, .msixPend, .eth, .can, .lce, .ble, .out]

theorem execTaskCycleCommit_keeps (time : Nat) (s : State) : ∃ u, execTaskCycleCommit time s = .next (close s u) ∧ Keeps
    execTaskCycleCommit_may s u := by
  refine ⟨_, rfl, ?_⟩
  refine Keeps.ite (Keeps.refl _ _) ?_
  split
  · extract_lets +onlyGivenNames -merge -useContext _ x0
    have h0 : Keeps execTaskCycleCommit_may s x0 := Keeps.step (Keeps.ble (Keeps.refl _ _) (by decide)) (commitCycle_keeps ..)
        (by decide)
    clear_value x0
    exact Keeps.step (Keeps.step (Keeps.step h0 (applyWrites_keeps ..) (by decide)) (startWaiting_keeps ..) (by decide))
        (pfSave_keeps ..) (by decide)
  · exact Keeps.refl _ _

theorem execThermalUpdate_keeps (temp : BitVec 12) (diss : BitVec 12) (s : State) : ∃ u, execThermalUpdate temp diss s = .next
    (close s u) ∧ Keeps [.regs, .base, .evq] s u := by
  refine ⟨_, rfl, ?_⟩
  extract_lets +onlyGivenNames _
  extract_lets +onlyGivenNames _
  extract_lets +onlyGivenNames _
  extract_lets +onlyGivenNames -merge -useContext _ x3
  have h3 : Keeps [.regs, .base, .evq] s x3 := Keeps.base (Keeps.refl _ _) (by decide) (by rfl)
  clear_value x3
  exact Keeps.ite (Keeps.step h3 (raiseHost_keeps ..) (by decide)) h3

abbrev modeBoundary_may : List Piece := [.regs, .clk, .rings, .msixPend, .can, .out]

theorem modeBoundary_keeps (s : State) : Keeps modeBoundary_may s (modeBoundary s) := by
  unfold modeBoundary
  refine Keeps.ite ?_ ?_
  · extract_lets +onlyGivenNames -merge -useContext _ x0
    have h0 : Keeps modeBoundary_may s x0 := Keeps.step (Keeps.clk (Keeps.refl _ _) (by decide)) (rset_keeps ..) (by decide)
    clear_value x0
    exact Keeps.step h0 (ror_keeps ..) (by decide)
  refine Keeps.ite ?_ ?_
  · extract_lets +onlyGivenNames -merge -useContext _ x1
    have h1 : Keeps modeBoundary_may s x1 := Keeps.step (Keeps.clk (Keeps.refl _ _) (by decide)) (rclr_keeps ..) (by decide)
    clear_value x1
    refine Keeps.forAll h1 fun _ _ h2 => ?_
    exact Keeps.ite h2 (Keeps.step h2 (closeGate_keeps ..) (by decide))
  exact Keeps.refl _ _

theorem refGone_keeps (s : State) : Keeps [.regs, .phc, .evq] s (refGone s) := by
  unfold refGone
  extract_lets +onlyGivenNames _
  extract_lets +onlyGivenNames -merge -useContext _ x1
  have h1 : Keeps [.regs, .phc, .evq] s x1 := Keeps.phc (Keeps.refl _ _) (by decide)
  clear_value x1
  exact Keeps.ite h1 (Keeps.step h1 (raisePhc_keeps ..) (by decide))

end Sys2Proof.Laws
end

