-- ==== Sys2Proof/Laws/KeepsPhase.lean ====
section
/-! SUPPORT. For every operation of Machine/Phase.lean: the pieces of the state it may change; every other piece is exactly
what it was. -/

namespace Sys2Proof.Laws

open Machine

theorem leaseTick_keeps (s : State) : Keeps [.regs, .pts, .base, .hold, .phc, .banks, .ch, .rings, .evq, .msixPend, .can, .lce,
    .ble, .twn, .out] s (leaseTick s) := by
  unfold leaseTick
  refine Keeps.ite ?_ ?_
  · refine Keeps.ite (Keeps.step (Keeps.step (Keeps.twn (Keeps.refl _ _) (by decide)) (setHold_keeps ..) (by decide))
      (ballLost_keeps ..) (by decide)) ?_
    exact Keeps.twn (Keeps.refl _ _) (by decide)
  exact Keeps.refl _ _

abbrev reachPhase_may : List Piece := [.regs, .pts, .base, .hold, .phc, .banks, .ch, .rings, .evq, .rtc, .msixPend, .up, .ptp,
    .can, .lce, .ble, .twn, .out]

theorem reachPhase_keeps (s : State) (p : Nat) : Keeps reachPhase_may s (reachPhase s p) := by
  unfold reachPhase
  extract_lets +onlyGivenNames _
  extract_lets +onlyGivenNames -merge -useContext _ x1
  have h1 : Keeps reachPhase_may s x1 := Keeps.step (Keeps.step (Keeps.phc (Keeps.refl _ _) (by decide)) (elapseUnits_keeps ..)
      (by
      decide)) (heldDue_keeps ..) (by decide)
  clear_value x1
  exact Keeps.ite (Keeps.step h1 (leaseTick_keeps ..) (by decide)) h1

theorem finishPass_keeps (s : State) : Keeps [.regs, .pts, .clk, .banks, .ch, .rings, .evq, .recq, .recSlots, .recNext,
    .recLost, .recLostCls, .msixPend, .can, .lce, .ble, .out] s (finishPass s) := by
  unfold finishPass
  refine Keeps.ite (Keeps.step (Keeps.step (Keeps.refl _ _) (endPass_keeps ..) (by decide)) (pfSave_keeps ..) (by decide)) ?_
  exact Keeps.refl _ _

theorem advancePhase_keeps (s : State) (p : Nat) : Keeps [.regs, .pts, .base, .hold, .phc, .clk, .banks, .ch, .rings, .evq,
    .recq, .recSlots, .recNext, .recLost, .recLostCls, .rtc, .msixPend, .up, .ptp, .can, .lce, .ble, .twn, .out] s
    (advancePhase s p) := by
  unfold advancePhase
  extract_lets +onlyGivenNames _
  refine Keeps.ite (Keeps.step (Keeps.step (Keeps.step (Keeps.step (Keeps.refl _ _) (reachPhase_keeps ..) (by decide))
      (finishPass_keeps ..) (by decide)) (reachPhase_keeps ..) (by decide)) (finishPass_keeps ..) (by decide)) ?_
  exact Keeps.step (Keeps.step (Keeps.refl _ _) (reachPhase_keeps ..) (by decide)) (finishPass_keeps ..) (by decide)

theorem partApply_keeps (s : State) : Keeps [.regs, .live, .watches, .forces] s (partApply s) := by
  unfold partApply
  extract_lets +onlyGivenNames x0
  have _ : Keeps [.regs, .live, .watches, .forces] s x0 := Keeps.refl _ _
  clear_value x0
  extract_lets +onlyGivenNames x1
  have h1 : Keeps [.regs, .live, .watches, .forces] s x1 := Keeps.live (Keeps.refl _ _) (by decide)
  clear_value x1
  extract_lets +onlyGivenNames x2
  have h2 : Keeps [.regs, .live, .watches, .forces] s x2 := Keeps.step h1 (rset_keeps ..) (by decide)
  clear_value x2
  extract_lets +onlyGivenNames _
  extract_lets +onlyGivenNames _
  refine Keeps.many (t := x2) ?_ rfl (fun p hp => by cases p <;> first | rfl | exact absurd (by decide) hp)
  exact h2

theorem partDue_keeps (s : State) : Keeps [.regs, .live, .watches, .forces] s (partDue s) := by
  unfold partDue
  refine Keeps.ite (Keeps.refl _ _) ?_
  split
  · exact Keeps.step (Keeps.refl _ _) (partApply_keeps ..) (by decide)
  · exact Keeps.step (Keeps.refl _ _) (rset_keeps ..) (by decide)

theorem reconvert_keeps (s : State) (t : Timed) : Keeps [.phc, .rings, .msixPend, .out] s (reconvert s t) := by
  unfold reconvert
  refine Keeps.ite (Keeps.refl _ _) ?_
  split
  · exact Keeps.refl _ _
  · extract_lets +onlyGivenNames _
    extract_lets +onlyGivenNames _
    refine Keeps.ite (Keeps.step (Keeps.phc (Keeps.refl _ _) (by decide)) (endTimed_keeps ..) (by decide)) ?_
    exact Keeps.phc (Keeps.refl _ _) (by decide)

theorem takeCapture_keeps (s : State) : Keeps [.phc] s (takeCapture s) := by
  unfold takeCapture
  refine Keeps.ite (Keeps.refl _ _) ?_
  extract_lets +onlyGivenNames _
  exact Keeps.phc (Keeps.refl _ _) (by decide)

theorem slewStep_keeps (s : State) : Keeps [.phc] s (slewStep s) := by
  unfold slewStep
  extract_lets +onlyGivenNames _
  extract_lets +onlyGivenNames _
  extract_lets +onlyGivenNames _
  exact Keeps.phc (Keeps.refl _ _) (by decide)

theorem steerNet_keeps (s : State) : Keeps [.phc, .free] s (steerNet s) := by
  unfold steerNet
  extract_lets +onlyGivenNames x0
  clear_value x0
  extract_lets +onlyGivenNames x1
  clear_value x1
  extract_lets +onlyGivenNames x2
  clear_value x2
  refine Keeps.ite (Keeps.phc (Keeps.refl _ _) (by decide)) ?_
  split
  · extract_lets +onlyGivenNames _
    refine Keeps.phc ?_ (by decide)
    refine Keeps.of_eq_snd ?_ ‹_›
    exact Keeps.step (Keeps.refl _ _) (takeFree_keeps ..) (by decide)

theorem takeFreq_keeps (s : State) : Keeps [.phc, .free] s (takeFreq s) := by
  unfold takeFreq
  extract_lets +onlyGivenNames _
  refine Keeps.ite ?_ ?_
  · extract_lets +onlyGivenNames x1
    have h1 : Keeps [.phc, .free] s x1 := Keeps.ite (Keeps.step (Keeps.refl _ _) (slewStep_keeps ..) (by decide)) (Keeps.refl _
        _)
    clear_value x1
    exact Keeps.ite (Keeps.step h1 (steerNet_keeps ..) (by decide)) h1
  exact Keeps.ite (Keeps.refl _ _) (Keeps.phc (Keeps.refl _ _) (by decide))

theorem changeState_keeps (s : State) (st : Nat) : Keeps [.phc] s (changeState s st) := by
  unfold changeState
  refine Keeps.ite (Keeps.refl _ _) ?_
  extract_lets +onlyGivenNames -merge -useContext _ _
  extract_lets +onlyGivenNames _
  extract_lets +onlyGivenNames _
  extract_lets +onlyGivenNames _
  extract_lets +onlyGivenNames _
  exact Keeps.phc (Keeps.refl _ _) (by decide)

theorem takeCorr_keeps (s : State) : Keeps [.phc] s (takeCorr s) := by
  unfold takeCorr
  extract_lets +onlyGivenNames -merge -useContext _ x0
  clear_value x0
  split
  · exact Keeps.phc (Keeps.refl _ _) (by decide)
  · exact Keeps.phc (Keeps.refl _ _) (by decide)
  · extract_lets +onlyGivenNames _
    extract_lets +onlyGivenNames _
    refine Keeps.ite ?_ ?_
    · extract_lets +onlyGivenNames _
      exact Keeps.phc (Keeps.refl _ _) (by decide)
    exact Keeps.phc (Keeps.refl _ _) (by decide)
  · exact Keeps.phc (Keeps.refl _ _) (by decide)

theorem newCycle_keeps (s : State) : Keeps [.regs, .phc, .evq, .free] s (newCycle s) := by
  unfold newCycle
  extract_lets +onlyGivenNames _
  extract_lets +onlyGivenNames x1
  have h1 : Keeps [.regs, .phc, .evq, .free] s x1 := Keeps.step (Keeps.step (Keeps.step (Keeps.refl _ _) (changeState_keeps ..)
      (by decide))
      (takeFreq_keeps ..) (by decide)) (takeCorr_keeps ..) (by decide)
  clear_value x1
  extract_lets +onlyGivenNames -merge -useContext _ x2
  have h2 : Keeps [.regs, .phc, .evq, .free] s x2 := Keeps.phc h1 (by decide)
  clear_value x2
  extract_lets +onlyGivenNames x3
  have h3 : Keeps [.regs, .phc, .evq, .free] s x3 := Keeps.step h2 (takeCapture_keeps ..) (by decide)
  clear_value x3
  exact Keeps.ite h3 (Keeps.step h3 (raisePhc_keeps ..) (by decide))

theorem periodicEvent_keeps (s : State) : Keeps [.evq] s (periodicEvent s) := by
  unfold periodicEvent
  extract_lets +onlyGivenNames _
  exact Keeps.ite (Keeps.step (Keeps.refl _ _) (timeEvent_keeps ..) (by decide)) (Keeps.refl _ _)

abbrev boundary_may : List Piece := [.regs, .live, .pts, .base, .hold, .phc, .clk, .banks, .ch, .rings, .evq, .recq, .recSlots,
    .recNext, .recLost, .recLostCls, .watches, .rtc, .msixPend, .forces, .up, .ptp, .can, .lce, .ble, .twn, .free, .out]

theorem boundary_keeps (s : State) : Keeps boundary_may s (boundary s) := by
  unfold boundary
  extract_lets +onlyGivenNames x0
  have h0 : Keeps boundary_may s x0 := Keeps.step (Keeps.refl _ _) (flushEvents_keeps ..) (by decide)
  clear_value x0
  extract_lets +onlyGivenNames x1
  have h1 : Keeps boundary_may s x1 := Keeps.step h0 (advancePhase_keeps ..) (by decide)
  clear_value x1
  extract_lets +onlyGivenNames -merge -useContext _ _
  extract_lets +onlyGivenNames x3
  have h3 : Keeps boundary_may s x3 := Keeps.step (Keeps.step (Keeps.phc h1 (by decide)) (newCycle_keeps ..) (by decide))
      (leaseTick_keeps ..) (by decide)
  clear_value x3
  extract_lets +onlyGivenNames x4
  have h4 : Keeps boundary_may s x4 := by
    refine Keeps.forAll h3 fun _ _ h5 => ?_
    exact Keeps.step h5 (reconvert_keeps ..) (by decide)
  clear_value x4
  extract_lets +onlyGivenNames x6
  have h6 : Keeps boundary_may s x6 := Keeps.step (Keeps.step h4 (partDue_keeps ..) (by decide)) (dueCommits_keeps ..) (by
      decide)
  clear_value x6
  exact Keeps.step (Keeps.step h6 (modeBoundary_keeps ..) (by decide)) (periodicEvent_keeps ..) (by decide)

theorem declareLoss_keeps (s : State) : Keeps [.regs, .phc, .evq] s (declareLoss s) := by
  unfold declareLoss
  extract_lets +onlyGivenNames -merge -useContext _ _
  exact Keeps.step (Keeps.phc (Keeps.refl _ _) (by decide)) (raisePhc_keeps ..) (by decide)

theorem execBankConvert_keeps (n : Fin 1024) (s : State) : ∃ u, execBankConvert n s = .next (close s u) ∧ Keeps [.regs, .live,
    .pts, .phc, .banks, .ch, .rings, .evq, .msixPend, .forces, .can, .lce, .ble, .twn, .out] s u := by
  refine ⟨_, rfl, ?_⟩
  split
  · exact Keeps.step (Keeps.step (Keeps.step (Keeps.refl _ _) (dueCommits_keeps ..) (by decide)) (fireEntry_keeps (by
      assumption)) (by decide)) (convert_keeps ..) (by decide)
  · exact Keeps.step (Keeps.refl _ _) (dueCommits_keeps ..) (by decide)

theorem execCycleBoundary_keeps (s : State) : ∃ u, execCycleBoundary s = .next (close s u) ∧ Keeps [.regs, .live, .pts, .base,
    .hold, .phc, .clk, .banks, .ch, .rings, .evq, .recq, .recSlots, .recNext, .recLost, .recLostCls, .watches, .rtc, .msixPend,
    .forces, .up, .ptp, .can, .lce, .ble, .twn, .free, .out] s u := by
  refine ⟨_, rfl, ?_⟩
  exact Keeps.ite (Keeps.step (Keeps.refl _ _) (boundary_keeps ..) (by decide)) (Keeps.refl _ _)

theorem partRequest_keeps (s : State) (v : Word) : Keeps [.regs] s (partRequest s v) := by
  unfold partRequest
  exact Keeps.ite (Keeps.step (Keeps.refl _ _) (ror_keeps ..) (by decide)) (Keeps.refl _ _)

theorem execGlbPartCommit_keeps (v : Word) (s : State) : ∃ u, execGlbPartCommit v s = .next (close s u) ∧ Keeps [.regs] s u :=
    by
  refine ⟨_, rfl, ?_⟩
  refine Keeps.reached (Keeps.refl _ _) (fun _ h0 => ?_)
  exact Keeps.step h0 (partRequest_keeps ..) (by decide)

theorem execHoldoverTimeout_keeps (s : State) : ∃ u, execHoldoverTimeout s = .next (close s u) ∧ Keeps [.phc] s u := by
  refine ⟨_, rfl, ?_⟩
  exact Keeps.ite (Keeps.phc (Keeps.refl _ _) (by decide)) (Keeps.refl _ _)

theorem execHostEvent_keeps (n : Fin 1024) (s : State) : ∃ u, execHostEvent n s = .next (close s u) ∧ Keeps [.regs, .live,
    .pts, .phc, .banks, .ch, .rings, .evq, .msixPend, .forces, .can, .lce, .ble, .twn, .out] s u := by
  refine ⟨_, rfl, ?_⟩
  split
  · exact Keeps.step (Keeps.step (Keeps.step (Keeps.refl _ _) (dueCommits_keeps ..) (by decide)) (fireEntry_keeps (by
      assumption)) (by decide)) (timeEvent_keeps ..) (by decide)
  · exact Keeps.step (Keeps.refl _ _) (dueCommits_keeps ..) (by decide)

theorem missMarker_keeps (s : State) : Keeps [.regs, .phc, .evq] s (missMarker s) := by
  unfold missMarker
  extract_lets +onlyGivenNames -merge -useContext _ x0
  have h0 : Keeps [.regs, .phc, .evq] s x0 := Keeps.phc (Keeps.refl _ _) (by decide)
  clear_value x0
  split
  · exact Keeps.phc h0 (by decide)
  · refine Keeps.ite (Keeps.step (Keeps.phc h0 (by decide)) (declareLoss_keeps ..) (by decide)) ?_
    exact Keeps.phc h0 (by decide)
  · refine Keeps.ite (Keeps.step (Keeps.phc h0 (by decide)) (declareLoss_keeps ..) (by decide)) ?_
    exact Keeps.phc h0 (by decide)
  · exact h0

theorem execMissingMarker_keeps (s : State) : ∃ u, execMissingMarker s = .next (close s u) ∧ Keeps [.regs, .phc, .evq] s u := by
  refine ⟨_, rfl, ?_⟩
  refine Keeps.ite (Keeps.step (Keeps.phc (Keeps.refl _ _) (by decide)) (missMarker_keeps ..) (by decide)) ?_
  exact Keeps.refl _ _

theorem phcRequest_keeps (s : State) : Keeps [.regs, .phc] s (phcRequest s) := by
  unfold phcRequest
  refine Keeps.ite (Keeps.refl _ _) ?_
  extract_lets +onlyGivenNames x0
  have h0 : Keeps [.regs, .phc] s x0 := Keeps.step (Keeps.refl _ _) (ror_keeps ..) (by decide)
  clear_value x0
  exact Keeps.phc h0 (by decide)

theorem execPhcCommit_keeps (v : Word) (s : State) : ∃ u, execPhcCommit v s = .next (close s u) ∧ Keeps [.regs, .phc, .evq] s u
    := by
  refine ⟨_, rfl, ?_⟩
  refine Keeps.reached (Keeps.refl _ _) (fun _ h0 => ?_)
  refine Keeps.ite ?_ ?_
  · refine Keeps.unlessStandby ?_ (fun _ h1 => ?_) (by decide)
    · exact h0
    exact Keeps.step h1 (phcRequest_keeps ..) (by decide)
  exact h0

theorem execPhcCommitPoint_keeps (s : State) : ∃ u, execPhcCommitPoint s = .next (close s u) ∧ Keeps [.regs, .live, .pts, .phc,
    .rings, .evq, .msixPend, .can, .lce, .ble, .twn, .out] s u := by
  refine ⟨_, rfl, ?_⟩
  exact Keeps.step (Keeps.refl _ _) (phcDue_keeps ..) (by decide)

theorem takeMarker_keeps (s : State) (at_ : Int) : Keeps [.phc] s (takeMarker s at_) := by
  unfold takeMarker
  split
  · extract_lets +onlyGivenNames -merge -useContext _ _
    refine Keeps.ite (Keeps.phc (Keeps.refl _ _) (by decide)) ?_
    refine Keeps.ite (Keeps.phc (Keeps.refl _ _) (by decide)) ?_
    refine Keeps.ite ?_ ?_
    · extract_lets +onlyGivenNames _
      exact Keeps.phc (Keeps.refl _ _) (by decide)
    exact Keeps.phc (Keeps.refl _ _) (by decide)

theorem takeRef_keeps (s : State) (freq : Nat) : Keeps [.regs, .phc, .evq] s (takeRef s freq) := by
  unfold takeRef
  extract_lets +onlyGivenNames _
  extract_lets +onlyGivenNames _
  extract_lets +onlyGivenNames _
  extract_lets +onlyGivenNames -merge -useContext _ x3
  have h3 : Keeps [.regs, .phc, .evq] s x3 := Keeps.phc (Keeps.refl _ _) (by decide)
  clear_value x3
  exact Keeps.ite h3 (Keeps.step h3 (raisePhc_keeps ..) (by decide))

theorem execReferenceMarker_keeps (freq : Nat) (frac : Fin 16) (since : Nat) (sub : Fin 16) (s : State) : ∃ u,
    execReferenceMarker freq frac since sub s = .next (close s u) ∧ Keeps [.regs, .phc, .evq] s u := by
  refine ⟨_, rfl, ?_⟩
  extract_lets +onlyGivenNames x0
  have h0 : Keeps [.regs, .phc, .evq] s x0 := Keeps.step (Keeps.refl _ _) (takeRef_keeps ..) (by decide)
  clear_value x0
  refine Keeps.ite ?_ ?_
  · refine Keeps.ite ?_ ?_
    · extract_lets +onlyGivenNames -merge -useContext _ _
      exact Keeps.phc h0 (by decide)
    exact h0
  exact Keeps.ite (Keeps.step h0 (takeMarker_keeps ..) (by decide)) h0

theorem stretchStep_keeps (s : State) : Keeps [.phc] s (stretchStep s) := by
  unfold stretchStep
  extract_lets +onlyGivenNames _
  extract_lets +onlyGivenNames _
  exact Keeps.phc (Keeps.refl _ _) (by decide)

abbrev execStepCycleEnd_may : List Piece := [.regs, .live, .pts, .base, .hold, .phc, .clk, .banks, .ch, .rings, .evq, .recq,
    .recSlots, .recNext, .recLost, .recLostCls, .watches, .rtc, .msixPend, .forces, .up, .ptp, .can, .lce, .ble, .twn, .free,
    .out]

theorem execStepCycleEnd_keeps (marker : Bool) (s : State) : ∃ u, execStepCycleEnd marker s = .next (close s u) ∧ Keeps
    execStepCycleEnd_may s u := by
  refine ⟨_, rfl, ?_⟩
  refine Keeps.ite ?_ ?_
  · extract_lets +onlyGivenNames _
    extract_lets +onlyGivenNames x1
    have h1 : Keeps execStepCycleEnd_may s x1 := Keeps.ite (Keeps.refl _ _) (Keeps.step (Keeps.refl _ _) (stretchStep_keeps ..)
        (by decide))
    clear_value x1
    extract_lets +onlyGivenNames -merge -useContext _ _
    extract_lets +onlyGivenNames _
    extract_lets +onlyGivenNames x4
    have h4 : Keeps execStepCycleEnd_may s x4 := Keeps.phc h1 (by decide)
    clear_value x4
    extract_lets +onlyGivenNames x5
    have h5 : Keeps execStepCycleEnd_may s x5 := Keeps.ite h4 (Keeps.step h4 (missMarker_keeps ..) (by decide))
    clear_value x5
    exact Keeps.step (Keeps.step h5 (raisePhc_keeps ..) (by decide)) (boundary_keeps ..) (by decide)
  exact Keeps.refl _ _

theorem timedEffect_keeps (s : State) (t : Timed) : Keeps [.regs, .pts, .banks, .ch, .evq, .can, .ble] s (timedEffect s t) := by
  unfold timedEffect
  split
  · exact Keeps.step (Keeps.refl _ _) (convert_keeps ..) (by decide)
  · exact Keeps.step (Keeps.refl _ _) (zcSwitch_keeps ..) (by decide)
  · exact Keeps.step (Keeps.refl _ _) (timeEvent_keeps ..) (by decide)

abbrev execTimedActionFire_may : List Piece := [.regs, .live, .pts, .phc, .banks, .ch, .rings, .evq, .msixPend, .forces, .can,
    .lce, .ble, .twn, .out]

theorem execTimedActionFire_keeps (r : Fin 64) (s : State) : ∃ u, execTimedActionFire r s = .next (close s u) ∧ Keeps
    execTimedActionFire_may s u := by
  refine ⟨_, rfl, ?_⟩
  split
  · refine Keeps.ite ?_ ?_
    · extract_lets +onlyGivenNames -merge -useContext _ _
      extract_lets +onlyGivenNames _
      extract_lets +onlyGivenNames x2
      have h2 : Keeps execTimedActionFire_may s x2 := Keeps.step (Keeps.phc (Keeps.step (Keeps.refl _ _) (dueCommits_keeps ..)
          (by decide)) (by
          decide)) (timedEffect_keeps ..) (by decide)
      clear_value x2
      refine Keeps.forAll h2 fun _ _ h3 => ?_
      exact Keeps.ite (Keeps.step h3 (completeTs_keeps ..) (by decide)) h3
    exact Keeps.step (Keeps.refl _ _) (dueCommits_keeps ..) (by decide)
  · exact Keeps.step (Keeps.refl _ _) (dueCommits_keeps ..) (by decide)

theorem execZcOutput_keeps (n : Fin 1088) (ok : Bool) (again : Bool) (s : State) : ∃ u, execZcOutput n ok again s = .next
    (close s u) ∧ Keeps [.regs, .banks, .out] s u := by
  refine ⟨_, rfl, ?_⟩
  refine Keeps.ite (Keeps.refl _ _) ?_
  refine Keeps.ite (Keeps.ite (Keeps.step (Keeps.refl _ _) (sendTiming_keeps ..) (by decide)) (Keeps.refl _ _)) ?_
  split
  · exact Keeps.step (Keeps.refl _ _) (sendTiming_keeps ..) (by decide)
  · exact Keeps.refl _ _

abbrev tick_may : List Piece := [.regs, .pts, .base, .hold, .phc, .clk, .banks, .ch, .rings, .evq, .recq, .recSlots, .recNext,
    .recLost, .recLostCls, .rtc, .msixPend, .up, .ptp, .can, .lce, .ble, .twn, .out]

theorem tick_keeps (s : State) : Keeps tick_may s (tick s) := by
  unfold tick
  extract_lets +onlyGivenNames x0
  have h0 : Keeps tick_may s x0 := Keeps.step (Keeps.refl _ _) (flushEvents_keeps ..) (by decide)
  clear_value x0
  refine Keeps.ite (Keeps.ite (Keeps.step h0 (advancePhase_keeps ..) (by decide)) h0) ?_
  exact Keeps.step h0 (elapseNs_keeps ..) (by decide)

end Sys2Proof.Laws
end

