-- ==== Sys2Proof/Laws/KeepsCart.lean ====
section
/-! SUPPORT. For every operation of Machine/Cart.lean: the pieces of the state it may change; every other piece is exactly
what it was. -/

namespace Sys2Proof.Laws

open Machine

theorem mtrEvent_keeps (s : State) (bit : Nat) : Keeps [.regs, .evq] s (mtrEvent s bit) := by
  unfold mtrEvent
  exact Keeps.step (Keeps.refl _ _) (raiseHost_keeps ..) (by decide)

theorem modMtr_keeps (s : State) (f : Mtr → Mtr) : Keeps [.mtr] s (modMtr s f) := by
  unfold modMtr
  exact Keeps.mtr (Keeps.refl _ _) (by decide)

theorem mtrLog_keeps (s : State) (legal : Bool) (code : Nat) (args : List Word) : Keeps [.mtr] s (mtrLog s legal code args) :=
    by
  unfold mtrLog
  refine Keeps.ite (Keeps.refl _ _) ?_
  extract_lets +onlyGivenNames _
  extract_lets +onlyGivenNames _
  extract_lets +onlyGivenNames _
  exact Keeps.step (Keeps.refl _ _) (modMtr_keeps ..) (by decide)

theorem setPulse_keeps (s : State) (o : Nat) (p : Pulse) : Keeps [.mtr] s (setPulse s o p) := by
  unfold setPulse
  exact Keeps.step (Keeps.refl _ _) (modMtr_keeps ..) (by decide)

theorem pulseAdd_keeps (s : State) (o : Nat) (weight : Nat) (d : Nat) : Keeps [.regs, .evq, .mtr] s (pulseAdd s o weight d) :=
    by
  unfold pulseAdd
  extract_lets +onlyGivenNames _
  extract_lets +onlyGivenNames _
  extract_lets +onlyGivenNames _
  extract_lets +onlyGivenNames _
  extract_lets +onlyGivenNames _
  extract_lets +onlyGivenNames x5
  have h5 : Keeps [.regs, .evq, .mtr] s x5 := Keeps.step (Keeps.refl _ _) (setPulse_keeps ..) (by decide)
  clear_value x5
  refine Keeps.ite h5 ?_
  extract_lets +onlyGivenNames x6
  have h6 : Keeps [.regs, .evq, .mtr] s x6 := Keeps.step h5 (mtrEvent_keeps ..) (by decide)
  clear_value x6
  refine Keeps.ite ?_ ?_
  · extract_lets +onlyGivenNames x7
    have h7 : Keeps [.regs, .evq, .mtr] s x7 := Keeps.step h6 (mtrLog_keeps ..) (by decide)
    clear_value x7
    exact Keeps.step h7 (setPulse_keeps ..) (by decide)
  exact h6

theorem pulsesOf_keeps (s : State) (phase : Bool) (n : Nat) (d : List Nat) : Keeps [.regs, .evq, .mtr] s (pulsesOf s phase n d)
    := by
  unfold pulsesOf
  extract_lets +onlyGivenNames _
  refine Keeps.forAll (Keeps.refl _ _) fun _ _ h1 => ?_
  extract_lets +onlyGivenNames _
  exact Keeps.ite (Keeps.step h1 (pulseAdd_keeps ..) (by decide)) h1

theorem addCirc_keeps (s : State) (k : Nat) (d : List Nat) : Keeps [.regs, .evq, .mtr] s (addCirc s k d) := by
  unfold addCirc
  exact Keeps.step (Keeps.step (Keeps.refl _ _) (modMtr_keeps ..) (by decide)) (pulsesOf_keeps ..) (by decide)

theorem addPhase_keeps (s : State) (n : Nat) (d : List Nat) : Keeps [.regs, .evq, .mtr] s (addPhase s n d) := by
  unfold addPhase
  exact Keeps.step (Keeps.step (Keeps.refl _ _) (modMtr_keeps ..) (by decide)) (pulsesOf_keeps ..) (by decide)

theorem setDset_keeps (s : State) (j : Nat) (d : DemSet) : Keeps [.mtr] s (setDset s j d) := by
  unfold setDset
  exact Keeps.step (Keeps.refl _ _) (modMtr_keeps ..) (by decide)

theorem setCirc_keeps (s : State) (k : Nat) (c : Circ) : Keeps [.mtr] s (setCirc s k c) := by
  unfold setCirc
  exact Keeps.step (Keeps.refl _ _) (modMtr_keeps ..) (by decide)

theorem circBegin_keeps (s : State) (k : Nat) : Keeps [.mtr] s (circBegin s k) := by
  unfold circBegin
  exact Keeps.step (Keeps.refl _ _) (setCirc_keeps ..) (by decide)

theorem clearPts_keeps (s : State) (ids : List Nat) : Keeps [.pts, .can, .ble] s (clearPts s ids) := by
  unfold clearPts
  refine Keeps.forAll (Keeps.refl _ _) fun _ _ h0 => ?_
  exact Keeps.step h0 (pset_keeps ..) (by decide)

theorem entryChanged_keeps (b : Nat) (old : List Nat) (new : List Nat) (s : State) (i : Nat) : Keeps [.pts, .can, .mtr, .ble] s
    (entryChanged b old new s i) := by
  unfold entryChanged
  split
  · refine Keeps.ite (Keeps.refl _ _) ?_
    extract_lets +onlyGivenNames _
    extract_lets +onlyGivenNames -merge -useContext _ x1
    have h1 : Keeps [.pts, .can, .mtr, .ble] s x1 := Keeps.step (Keeps.refl _ _) (setCirc_keeps ..) (by decide)
    clear_value x1
    extract_lets +onlyGivenNames x2
    have h2 : Keeps [.pts, .can, .mtr, .ble] s x2 := Keeps.ite (Keeps.step h1 (circBegin_keeps ..) (by decide)) h1
    clear_value x2
    exact Keeps.ite (Keeps.step h2 (clearPts_keeps ..) (by decide)) h2
  · exact Keeps.ite (Keeps.refl _ _) (Keeps.step (Keeps.refl _ _) (setPulse_keeps ..) (by decide))
  · refine Keeps.ite (Keeps.refl _ _) ?_
    extract_lets +onlyGivenNames _
    extract_lets +onlyGivenNames -merge -useContext _ x4
    have h4 : Keeps [.pts, .can, .mtr, .ble] s x4 := Keeps.step (Keeps.refl _ _) (setDset_keeps ..) (by decide)
    clear_value x4
    refine Keeps.forAll h4 fun _ _ h5 => ?_
    exact Keeps.step h5 (circBegin_keeps ..) (by decide)
  · exact Keeps.refl _ _

theorem applyBlock_keeps (s : State) (b : Nat) (new : List Nat) : Keeps [.regs, .pts, .evq, .can, .mtr, .ble] s (applyBlock s b
    new) := by
  unfold applyBlock
  extract_lets +onlyGivenNames _
  extract_lets +onlyGivenNames x1
  have h1 : Keeps [.regs, .pts, .evq, .can, .mtr, .ble] s x1 := Keeps.step (Keeps.refl _ _) (modMtr_keeps ..) (by decide)
  clear_value x1
  extract_lets +onlyGivenNames _
  refine Keeps.step ?_ (mtrEvent_keeps ..) (by decide)
  refine Keeps.forAll h1 fun _ _ h3 => ?_
  exact Keeps.step h3 (entryChanged_keeps ..) (by decide)

theorem applyBlocks_keeps (s : State) : Keeps [.regs, .pts, .evq, .can, .mtr, .ble] s (applyBlocks s) := by
  unfold applyBlocks
  extract_lets +onlyGivenNames _
  refine Keeps.forAll (Keeps.step (Keeps.refl _ _) (modMtr_keeps ..) (by decide)) fun _ _ h1 => ?_
  exact Keeps.step h1 (applyBlock_keeps ..) (by decide)

theorem circCycle_keeps (map : List Nat) (m : CycleMeas) (ns : Nat) (s : State) (k : Nat) : Keeps [.regs, .evq, .mtr] s
    (circCycle map m ns s k) := by
  unfold circCycle
  extract_lets +onlyGivenNames _
  refine Keeps.ite (Keeps.refl _ _) ?_
  extract_lets +onlyGivenNames _
  extract_lets +onlyGivenNames _
  extract_lets +onlyGivenNames x3
  have h3 : Keeps [.regs, .evq, .mtr] s x3 := by
    refine Keeps.forAll (Keeps.refl _ _) fun _ _ h4 => ?_
    exact Keeps.step h4 (addPhase_keeps ..) (by decide)
  clear_value x3
  extract_lets +onlyGivenNames x5
  have h5 : Keeps [.regs, .evq, .mtr] s x5 := Keeps.step h3 (addCirc_keeps ..) (by decide)
  clear_value x5
  exact Keeps.step h5 (modMtr_keeps ..) (by decide)

theorem circEnd_keeps (s : State) (k : Nat) (set : Nat) (ts : Nat) (len : Nat) (auto : Bool) (part : Bool) : Keeps [.pts, .can,
    .mtr, .ble] s (circEnd s k set ts len auto part) := by
  unfold circEnd
  extract_lets +onlyGivenNames _
  extract_lets +onlyGivenNames _
  extract_lets +onlyGivenNames _
  extract_lets +onlyGivenNames _
  extract_lets +onlyGivenNames _
  extract_lets +onlyGivenNames _
  extract_lets +onlyGivenNames _
  extract_lets +onlyGivenNames _
  extract_lets +onlyGivenNames x8
  have h8 : Keeps [.pts, .can, .mtr, .ble] s x8 := Keeps.step (Keeps.refl _ _) (setCirc_keeps ..) (by decide)
  clear_value x8
  exact Keeps.step (Keeps.step h8 (pset_keeps ..) (by decide)) (pset_keeps ..) (by decide)

theorem circRefresh_keeps (map : List Nat) (s : State) (k : Nat) : Keeps [.pts, .can, .ble] s (circRefresh map s k) := by
  unfold circRefresh
  extract_lets +onlyGivenNames _
  extract_lets +onlyGivenNames _
  refine Keeps.ite (Keeps.refl _ _) ?_
  extract_lets +onlyGivenNames _
  extract_lets +onlyGivenNames _
  extract_lets +onlyGivenNames _
  extract_lets +onlyGivenNames _
  extract_lets +onlyGivenNames _
  extract_lets +onlyGivenNames _
  extract_lets +onlyGivenNames _
  extract_lets +onlyGivenNames _
  extract_lets +onlyGivenNames _
  extract_lets +onlyGivenNames x11
  have h11 : Keeps [.pts, .can, .ble] s x11 := by
    refine Keeps.forAll (Keeps.refl _ _) fun _ _ h12 => ?_
    exact Keeps.step h12 (pset_keeps ..) (by decide)
  clear_value x11
  refine Keeps.forAll h11 fun _ _ h13 => ?_
  exact Keeps.step h13 (pset_keeps ..) (by decide)

theorem clearMetering_keeps (s : State) : Keeps [.pts, .can, .ble] s (clearMetering s) := by
  unfold clearMetering
  exact Keeps.step (Keeps.step (Keeps.refl _ _) (clearPts_keeps ..) (by decide)) (clearPts_keeps ..) (by decide)

theorem commitBlock_keeps (s : State) (b : Nat) : Keeps [.regs, .mtr] s (commitBlock s b).2 := by
  unfold commitBlock
  refine Keeps.ite_snd (Keeps.refl _ _) ?_
  extract_lets +onlyGivenNames x0
  clear_value x0
  split
  · exact Keeps.step (Keeps.refl _ _) (rset_keeps ..) (by decide)
  · refine Keeps.ite_snd (Keeps.refl _ _) ?_
    extract_lets +onlyGivenNames x1
    have h1 : Keeps [.regs, .mtr] s x1 := Keeps.step (Keeps.refl _ _) (modMtr_keeps ..) (by decide)
    clear_value x1
    extract_lets +onlyGivenNames _
    exact Keeps.step h1 (mtrLog_keeps ..) (by decide)

theorem tenantTurn_keeps (map : List Nat) (set : Nat) (s : State) (k : Nat) : Keeps [.mtr] s (tenantTurn map set s k) := by
  unfold tenantTurn
  extract_lets +onlyGivenNames x0
  clear_value x0
  split
  · exact Keeps.ite (Keeps.step (Keeps.refl _ _) (setCirc_keeps ..) (by decide)) (Keeps.refl _ _)
  · exact Keeps.refl _ _

theorem endInterval_keeps (s : State) (j : Nat) (ts : Nat) (nt : Option Nat) (byAuto : Bool) : Keeps [.regs, .pts, .evq, .can,
    .mtr, .ble] s (endInterval s j ts nt byAuto) := by
  unfold endInterval
  extract_lets +onlyGivenNames _
  extract_lets +onlyGivenNames _
  extract_lets +onlyGivenNames _
  extract_lets +onlyGivenNames _
  extract_lets +onlyGivenNames _
  extract_lets +onlyGivenNames x5
  have h5 : Keeps [.regs, .pts, .evq, .can, .mtr, .ble] s x5 := by
    refine Keeps.forAll (Keeps.refl _ _) fun _ _ h6 => ?_
    exact Keeps.step h6 (circEnd_keeps ..) (by decide)
  clear_value x5
  extract_lets +onlyGivenNames x7
  have h7 : Keeps [.regs, .pts, .evq, .can, .mtr, .ble] s x7 := by
    refine Keeps.forAll h5 fun _ _ h8 => ?_
    exact Keeps.step h8 (tenantTurn_keeps ..) (by decide)
  clear_value x7
  extract_lets +onlyGivenNames x9
  have h9 : Keeps [.regs, .pts, .evq, .can, .mtr, .ble] s x9 := Keeps.step h7 (setDset_keeps ..) (by decide)
  clear_value x9
  exact Keeps.ite (Keeps.step h9 (mtrEvent_keeps ..) (by decide)) h9

theorem endSub_keeps (s : State) (j : Nat) (ts : Nat) (nt : Option Nat) (byAuto : Bool) : Keeps [.regs, .pts, .evq, .can, .mtr,
    .ble] s (endSub s j ts nt byAuto) := by
  unfold endSub
  refine Keeps.ite (Keeps.refl _ _) ?_
  extract_lets +onlyGivenNames _
  extract_lets +onlyGivenNames _
  extract_lets +onlyGivenNames x2
  have h2 : Keeps [.regs, .pts, .evq, .can, .mtr, .ble] s x2 := Keeps.step (Keeps.refl _ _) (setDset_keeps ..) (by decide)
  clear_value x2
  exact Keeps.ite (Keeps.step h2 (endInterval_keeps ..) (by decide)) h2

theorem execAutoClose_keeps (j : Fin 8) (s : State) : ∃ u, execAutoClose j s = .next (close s u) ∧ Keeps [.regs, .pts, .evq,
    .can, .mtr, .ble] s u := by
  refine ⟨_, rfl, ?_⟩
  extract_lets +onlyGivenNames _
  extract_lets +onlyGivenNames _
  extract_lets +onlyGivenNames _
  extract_lets +onlyGivenNames _
  refine Keeps.ite ?_ ?_
  · extract_lets +onlyGivenNames x4
    have h4 : Keeps [.regs, .pts, .evq, .can, .mtr, .ble] s x4 := Keeps.step (Keeps.refl _ _) (endSub_keeps ..) (by decide)
    clear_value x4
    extract_lets +onlyGivenNames _
    refine Keeps.ite ?_ ?_
    · extract_lets +onlyGivenNames x6
      have h6 : Keeps [.regs, .pts, .evq, .can, .mtr, .ble] s x6 := Keeps.step h4 (mtrLog_keeps ..) (by decide)
      clear_value x6
      exact Keeps.step h6 (setDset_keeps ..) (by decide)
    exact h4
  exact Keeps.refl _ _

abbrev mtrStop_may : List Piece := [.regs, .pts, .phc, .evq, .can, .mtr, .ble, .out]

theorem mtrStop_keeps (s : State) : Keeps mtrStop_may s (mtrStop s) := by
  unfold mtrStop
  extract_lets +onlyGivenNames x0
  have h0 : Keeps mtrStop_may s x0 := Keeps.step (Keeps.refl _ _) (modMtr_keeps ..) (by decide)
  clear_value x0
  extract_lets +onlyGivenNames x1
  have h1 : Keeps mtrStop_may s x1 := by
    refine Keeps.forAll h0 fun _ _ h2 => ?_
    exact Keeps.ite (Keeps.step (Keeps.step h2 (setPulse_keeps ..) (by decide)) (emit_keeps ..) (by decide)) h2
  clear_value x1
  exact Keeps.step (Keeps.step h1 (clearMetering_keeps ..) (by decide)) (refGone_keeps ..) (by decide)

abbrev execCartChg_may : List Piece := [.regs, .pts, .base, .phc, .evq, .can, .mtr, .ble, .out]

theorem execCartChg_keeps (present : Bool) (s : State) : ∃ u, execCartChg present s = .next (close s u) ∧ Keeps execCartChg_may
    s u := by
  refine ⟨_, rfl, ?_⟩
  refine Keeps.ite (Keeps.refl _ _) ?_
  extract_lets +onlyGivenNames -merge -useContext _ x0
  have h0 : Keeps execCartChg_may s x0 := Keeps.base (Keeps.refl _ _) (by decide) (by rfl)
  clear_value x0
  extract_lets +onlyGivenNames x1
  have h1 : Keeps execCartChg_may s x1 := Keeps.ite h0 (Keeps.step h0 (mtrStop_keeps ..) (by decide))
  clear_value x1
  exact Keeps.step h1 (raiseHost_keeps ..) (by decide)

theorem mtrElapse_keeps (s : State) (us : Nat) : Keeps [.mtr] s (mtrElapse s us) := by
  unfold mtrElapse
  extract_lets +onlyGivenNames _
  exact Keeps.step (Keeps.refl _ _) (modMtr_keeps ..) (by decide)

theorem voltCycle_keeps (m : CycleMeas) (s : State) : Keeps [.mtr] s (voltCycle m s) := by
  unfold voltCycle
  extract_lets +onlyGivenNames _
  extract_lets +onlyGivenNames _
  exact Keeps.step (Keeps.refl _ _) (modMtr_keeps ..) (by decide)

theorem snapshot_keeps (s : State) : Keeps [.mtr] s (snapshot s) := by
  unfold snapshot
  extract_lets +onlyGivenNames _
  extract_lets +onlyGivenNames _
  exact Keeps.step (Keeps.refl _ _) (modMtr_keeps ..) (by decide)

theorem windowStep_keeps (m : CycleMeas) (s : State) : Keeps [.pts, .can, .mtr, .ble] s (windowStep m s) := by
  unfold windowStep
  extract_lets +onlyGivenNames _
  refine Keeps.ite (Keeps.step (Keeps.refl _ _) (modMtr_keeps ..) (by decide)) ?_
  extract_lets +onlyGivenNames x1
  have h1 : Keeps [.pts, .can, .mtr, .ble] s x1 := by
    refine Keeps.forAll (Keeps.refl _ _) fun _ _ h2 => ?_
    exact Keeps.step h2 (circRefresh_keeps ..) (by decide)
  clear_value x1
  extract_lets +onlyGivenNames _
  extract_lets +onlyGivenNames x4
  have h4 : Keeps [.pts, .can, .mtr, .ble] s x4 := Keeps.step (Keeps.step (Keeps.step (Keeps.step h1 (pset_keeps ..) (by
      decide)) (pset_keeps ..)
      (by decide)) (pset_keeps ..) (by decide)) (pset_keeps ..) (by decide)
  clear_value x4
  exact Keeps.step (Keeps.step h4 (modMtr_keeps ..) (by decide)) (snapshot_keeps ..) (by decide)

abbrev execCartridgeCycle_may : List Piece := [.regs, .pts, .phc, .evq, .can, .mtr, .ble, .out]

theorem execCartridgeCycle_keeps (m : CycleMeas) (s : State) : ∃ u, execCartridgeCycle m s = .next (close s u) ∧ Keeps
    execCartridgeCycle_may s u := by
  refine ⟨_, rfl, ?_⟩
  extract_lets +onlyGivenNames x0
  clear_value x0
  refine Keeps.ite (Keeps.refl _ _) ?_
  refine Keeps.ite (Keeps.step (Keeps.refl _ _) (mtrStop_keeps ..) (by decide)) ?_
  extract_lets +onlyGivenNames x1
  clear_value x1
  extract_lets +onlyGivenNames x2
  have h2 : Keeps execCartridgeCycle_may s x2 := by
    refine Keeps.forAll (Keeps.step (Keeps.step (Keeps.refl _ _) (mtrElapse_keeps ..) (by decide)) (voltCycle_keeps ..) (by
        decide)) fun _ _ h3 => ?_
    exact Keeps.step h3 (circCycle_keeps ..) (by decide)
  clear_value x2
  extract_lets +onlyGivenNames x4
  have h4 : Keeps execCartridgeCycle_may s x4 := by
    refine Keeps.forAll h2 fun _ _ h5 => ?_
    split
    · exact Keeps.step h5 (endSub_keeps ..) (by decide)
    · exact h5
  clear_value x4
  extract_lets +onlyGivenNames x6
  have h6 : Keeps execCartridgeCycle_may s x6 := Keeps.step h4 (applyBlocks_keeps ..) (by decide)
  clear_value x6
  exact Keeps.step (Keeps.step h6 (modMtr_keeps ..) (by decide)) (windowStep_keeps ..) (by decide)

theorem startIntervals_keeps (s : State) : Keeps [.mtr] s (startIntervals s) := by
  unfold startIntervals
  extract_lets +onlyGivenNames x0
  have h0 : Keeps [.mtr] s x0 := by
    refine Keeps.forAll (Keeps.refl _ _) fun _ _ h1 => ?_
    exact Keeps.step h1 (setDset_keeps ..) (by decide)
  clear_value x0
  refine Keeps.forAll h0 fun _ _ h2 => ?_
  extract_lets +onlyGivenNames x3
  have h3 : Keeps [.mtr] s x3 := Keeps.step h2 (circBegin_keeps ..) (by decide)
  clear_value x3
  exact Keeps.step h3 (setCirc_keeps ..) (by decide)

theorem mtrFault_keeps (s : State) : Keeps [.regs, .evq, .mtr, .free] s (mtrFault s) := by
  unfold mtrFault
  split
  · extract_lets +onlyGivenNames x0
    have h0 : Keeps [.regs, .evq, .mtr, .free] s x0 := by
      refine Keeps.step ?_ (mtrLog_keeps ..) (by decide)
      refine Keeps.of_eq_snd ?_ ‹_›
      exact Keeps.step (Keeps.refl _ _) (takeFree_keeps ..) (by decide)
    clear_value x0
    refine Keeps.ite h0 ?_
    exact Keeps.step (Keeps.step h0 (modMtr_keeps ..) (by decide)) (mtrEvent_keeps ..) (by decide)

theorem loadSlot_keeps (s : State) (k : SaveSlot) : Keeps [.regs, .evq, .mtr] s (loadSlot s k) := by
  unfold loadSlot
  extract_lets +onlyGivenNames _
  extract_lets +onlyGivenNames _
  extract_lets +onlyGivenNames x2
  have h2 : Keeps [.regs, .evq, .mtr] s x2 := Keeps.step (Keeps.refl _ _) (modMtr_keeps ..) (by decide)
  clear_value x2
  extract_lets +onlyGivenNames x3
  have h3 : Keeps [.regs, .evq, .mtr] s x3 := by
    refine Keeps.forAll h2 fun _ _ h4 => ?_
    exact Keeps.step h4 (setCirc_keeps ..) (by decide)
  clear_value x3
  extract_lets +onlyGivenNames x5
  have h5 : Keeps [.regs, .evq, .mtr] s x5 := Keeps.step h3 (mtrLog_keeps ..) (by decide)
  clear_value x5
  refine Keeps.ite h5 ?_
  extract_lets +onlyGivenNames x6
  have h6 : Keeps [.regs, .evq, .mtr] s x6 := Keeps.step h5 (modMtr_keeps ..) (by decide)
  clear_value x6
  exact Keeps.step (Keeps.step h6 (mtrLog_keeps ..) (by decide)) (mtrEvent_keeps ..) (by decide)

abbrev execCartridgeRun_may : List Piece := [.regs, .pts, .phc, .evq, .can, .mtr, .ble, .free, .out]

theorem execCartridgeRun_keeps (sw_ : Word) (good : BitVec 16) (s : State) : ∃ u, execCartridgeRun sw_ good s = .next (close s
    u) ∧ Keeps execCartridgeRun_may s u := by
  refine ⟨_, rfl, ?_⟩
  refine Keeps.ite (Keeps.refl _ _) ?_
  extract_lets +onlyGivenNames x0
  have h0 : Keeps execCartridgeRun_may s x0 := Keeps.ite (Keeps.step (Keeps.refl _ _) (mtrStop_keeps ..) (by decide))
      (Keeps.refl _ _)
  clear_value x0
  extract_lets +onlyGivenNames x1
  have h1 : Keeps execCartridgeRun_may s x1 := Keeps.step h0 (modMtr_keeps ..) (by decide)
  clear_value x1
  extract_lets +onlyGivenNames x2
  have h2 : Keeps execCartridgeRun_may s x2 := Keeps.step h1 (modMtr_keeps ..) (by decide)
  clear_value x2
  refine Keeps.ite (Keeps.step (Keeps.step (Keeps.step h2 (modMtr_keeps ..) (by decide)) (startIntervals_keeps ..) (by decide))
      (applyBlocks_keeps ..) (by decide)) ?_
  split
  · exact Keeps.step h2 (mtrFault_keeps ..) (by decide)
  · exact Keeps.step (Keeps.step (Keeps.step (Keeps.step h2 (modMtr_keeps ..) (by decide)) (loadSlot_keeps ..) (by decide))
      (startIntervals_keeps ..) (by decide)) (applyBlocks_keeps ..) (by decide)

theorem execCartridgeSupplyDip_keeps (s : State) : ∃ u, execCartridgeSupplyDip s = .next (close s u) ∧ Keeps [.mtr] s u := by
  refine ⟨_, rfl, ?_⟩
  refine Keeps.ite (Keeps.step (Keeps.step (Keeps.refl _ _) (modMtr_keeps ..) (by decide)) (mtrLog_keeps ..) (by decide)) ?_
  exact Keeps.refl _ _

theorem execCloseStrobe_keeps (after : Bool) (s : State) : ∃ u, execCloseStrobe after s = .next (close s u) ∧ Keeps [.regs,
    .pts, .evq, .can, .mtr, .ble] s u := by
  refine ⟨_, rfl, ?_⟩
  split
  · exact Keeps.refl _ _
  · extract_lets +onlyGivenNames x0
    have h0 : Keeps [.regs, .pts, .evq, .can, .mtr, .ble] s x0 := Keeps.step (Keeps.refl _ _) (modMtr_keeps ..) (by decide)
    clear_value x0
    refine Keeps.ite h0 ?_
    refine Keeps.forAll h0 fun _ _ h1 => ?_
    refine Keeps.ite h1 ?_
    exact Keeps.ite (Keeps.step h1 (endSub_keeps ..) (by decide)) (Keeps.step h1 (setDset_keeps ..) (by decide))

theorem tenantSet_keeps (s : State) (k p : Nat) : Keeps [.mtr] s (tenantSet s k p).2.2 := by
  unfold tenantSet
  split
  · exact Keeps.refl _ _
  · exact ((Keeps.refl _ _).step (setCirc_keeps ..) (by decide)).step (mtrLog_keeps ..) (by decide)

theorem openRun_keeps (s : State) (op : Nat) (a0 a1 : Word) : Keeps [.mtr] s (openRun s op a0 a1).2 := by
  have hp : ∀ (r : Option (List Word)) (c : Nat), Keeps [.mtr] s (match r with
      | some w => (0, modMtr s (fun m => { m with resp := w }))
      | none => (c, s)).2 := by
    intro r c
    cases r
    · exact Keeps.refl _ _
    · exact (Keeps.refl _ _).step (modMtr_keeps ..) (by decide)
  unfold openRun
  refine Keeps.ite_snd (Keeps.refl _ _) ?_
  split
  · exact hp ..
  · exact hp ..
  · exact (Keeps.refl _ _).step (tenantSet_keeps ..) (by decide)
  · exact hp ..
  · exact (Keeps.refl _ _).step (modMtr_keeps ..) (by decide)
  · exact Keeps.refl _ _

theorem meterIdSet_keeps (s : State) : Keeps [.mtr] s (meterIdSet s).2 := by
  unfold meterIdSet
  extract_lets +onlyGivenNames _
  refine Keeps.ite_snd (Keeps.refl _ _) ?_
  refine Keeps.ite_snd (Keeps.refl _ _) ?_
  refine Keeps.ite_snd (Keeps.refl _ _) ?_
  extract_lets +onlyGivenNames x1
  have h1 : Keeps [.mtr] s x1 := Keeps.step (Keeps.refl _ _) (modMtr_keeps ..) (by decide)
  clear_value x1
  exact Keeps.step h1 (mtrLog_keeps ..) (by decide)

theorem secRun_keeps (s : State) (op : Nat) (a0 : Word) (a1 : Word) : Keeps [.regs, .mtr] s (secRun s op a0 a1).2 := by
  unfold secRun
  extract_lets +onlyGivenNames x0
  clear_value x0
  extract_lets +onlyGivenNames x1
  clear_value x1
  refine Keeps.ite_snd (Keeps.refl _ _) ?_
  refine Keeps.ite_snd (Keeps.refl _ _) ?_
  split
  · exact Keeps.ite_snd (Keeps.refl _ _) (Keeps.step (Keeps.refl _ _) (modMtr_keeps ..) (by decide))
  · exact Keeps.step (Keeps.refl _ _) (commitBlock_keeps ..) (by decide)
  · exact Keeps.ite_snd (Keeps.refl _ _) (Keeps.step (Keeps.refl _ _) (modMtr_keeps ..) (by decide))
  · exact Keeps.step (Keeps.refl _ _) (meterIdSet_keeps ..) (by decide)
  · exact Keeps.refl _ _

theorem execDoorCommandDone_keeps (secure : Bool) (s : State) : ∃ u, execDoorCommandDone secure s = .next (close s u) ∧ Keeps
    [.regs, .mtr] s u := by
  refine ⟨_, rfl, ?_⟩
  refine Keeps.ite ?_ ?_
  · extract_lets +onlyGivenNames _
    refine Keeps.ite (Keeps.refl _ _) ?_
    extract_lets +onlyGivenNames x1
    have h1 : Keeps [.regs, .mtr] s x1.2 := Keeps.step (Keeps.refl _ _) (secRun_keeps ..) (by decide)
    clear_value x1
    exact Keeps.step h1 (modMtr_keeps ..) (by decide)
  extract_lets +onlyGivenNames _
  refine Keeps.ite (Keeps.refl _ _) ?_
  extract_lets +onlyGivenNames x3
  have h3 : Keeps [.regs, .mtr] s x3.2 := Keeps.step (Keeps.refl _ _) (openRun_keeps ..) (by decide)
  clear_value x3
  exact Keeps.step h3 (modMtr_keeps ..) (by decide)

abbrev execMtrClose_may : List Piece := [.regs, .live, .pts, .phc, .banks, .ch, .rings, .evq, .msixPend, .forces, .can, .mtr,
    .lce, .ble, .twn, .out]

theorem execMtrClose_keeps (n : Fin 1024) (s : State) : ∃ u, execMtrClose n s = .next (close s u) ∧ Keeps execMtrClose_may s u
    := by
  refine ⟨_, rfl, ?_⟩
  split
  · extract_lets +onlyGivenNames _
    extract_lets +onlyGivenNames _
    extract_lets +onlyGivenNames x2
    have h2 : Keeps execMtrClose_may s x2 := Keeps.step (Keeps.step (Keeps.step (Keeps.refl _ _) (dueCommits_keeps ..) (by
        decide))
        (fireEntry_keeps (by assumption)) (by decide)) (emit_keeps ..) (by decide)
    clear_value x2
    exact Keeps.step h2 (modMtr_keeps ..) (by decide)
  · exact Keeps.step (Keeps.refl _ _) (dueCommits_keeps ..) (by decide)

theorem secCmd_keeps (s : State) (op : Nat) : Keeps [.mtr] s (secCmd s op) := by
  unfold secCmd
  exact Keeps.ite (Keeps.refl _ _) (Keeps.step (Keeps.refl _ _) (modMtr_keeps ..) (by decide))

theorem secWith_keeps (s : State) (op : Nat) (a0 : Word) (a1 : Word) : Keeps [.regs, .mtr] s (secWith s op a0 a1) := by
  unfold secWith
  exact Keeps.step (Keeps.step (Keeps.step (Keeps.refl _ _) (rset_keeps ..) (by decide)) (rset_keeps ..) (by decide))
      (secCmd_keeps ..) (by decide)

theorem execParamCommit_keeps (a0 : Word) (s : State) : ∃ u, execParamCommit a0 s = .next (close s u) ∧ Keeps [.regs, .mtr] s u
    := by
  refine ⟨_, rfl, ?_⟩
  refine Keeps.reached (Keeps.refl _ _) (fun _ h0 => ?_)
  exact Keeps.step h0 (secWith_keeps ..) (by decide)

theorem execParamDiscard_keeps (a0 : Word) (s : State) : ∃ u, execParamDiscard a0 s = .next (close s u) ∧ Keeps [.regs, .mtr] s
    u := by
  refine ⟨_, rfl, ?_⟩
  refine Keeps.reached (Keeps.refl _ _) (fun _ h0 => ?_)
  exact Keeps.step h0 (secWith_keeps ..) (by decide)

theorem execParamStage_keeps (a0 : Word) (a1 : Word) (s : State) : ∃ u, execParamStage a0 a1 s = .next (close s u) ∧ Keeps
    [.regs, .mtr] s u := by
  refine ⟨_, rfl, ?_⟩
  refine Keeps.reached (Keeps.refl _ _) (fun _ h0 => ?_)
  exact Keeps.step h0 (secWith_keeps ..) (by decide)

theorem mtrSave_keeps (s : State) (residual : Bool) : Keeps [.mtr] s (mtrSave s residual) := by
  unfold mtrSave
  extract_lets +onlyGivenNames _
  extract_lets +onlyGivenNames _
  extract_lets +onlyGivenNames _
  exact Keeps.step (Keeps.refl _ _) (modMtr_keeps ..) (by decide)

theorem execPeriodicSave_keeps (s : State) : ∃ u, execPeriodicSave s = .next (close s u) ∧ Keeps [.mtr] s u := by
  refine ⟨_, rfl, ?_⟩
  refine Keeps.ite (Keeps.step (Keeps.step (Keeps.refl _ _) (mtrSave_keeps ..) (by decide)) (snapshot_keeps ..) (by decide)) ?_
  exact Keeps.refl _ _

theorem flashNext_keeps (s : State) : Keeps [.mtr, .out] s (flashNext s) := by
  unfold flashNext
  split
  · refine Keeps.ite (Keeps.step (Keeps.step (Keeps.step (Keeps.refl _ _) (modMtr_keeps ..) (by decide)) (setPulse_keeps ..)
      (by decide)) (emit_keeps ..) (by decide)) ?_
    exact Keeps.refl _ _
  · exact Keeps.refl _ _

theorem execPulseOutput_keeps (o : Fin 9) (on : Bool) (s : State) : ∃ u, execPulseOutput o on s = .next (close s u) ∧ Keeps
    [.mtr, .out] s u := by
  refine ⟨_, rfl, ?_⟩
  extract_lets +onlyGivenNames _
  refine Keeps.ite (Keeps.step (Keeps.refl _ _) (flashNext_keeps ..) (by decide)) ?_
  refine Keeps.ite ?_ ?_
  · refine Keeps.ite (Keeps.step (Keeps.step (Keeps.refl _ _) (setPulse_keeps ..) (by decide)) (emit_keeps ..) (by decide)) ?_
    exact Keeps.refl _ _
  refine Keeps.ite (Keeps.step (Keeps.step (Keeps.refl _ _) (setPulse_keeps ..) (by decide)) (emit_keeps ..) (by decide)) ?_
  exact Keeps.refl _ _

theorem openCmd_keeps (s : State) (op : Nat) : Keeps [.mtr] s (openCmd s op) := by
  unfold openCmd
  exact Keeps.ite (Keeps.refl _ _) (Keeps.step (Keeps.refl _ _) (modMtr_keeps ..) (by decide))

theorem openWith_keeps (s : State) (op : Nat) (a0 : Word) (a1 : Word) : Keeps [.regs, .mtr] s (openWith s op a0 a1) := by
  unfold openWith
  exact Keeps.step (Keeps.step (Keeps.step (Keeps.refl _ _) (rset_keeps ..) (by decide)) (rset_keeps ..) (by decide))
      (openCmd_keeps ..) (by decide)

theorem execReadInterval_keeps (a0 : Word) (a1 : Word) (s : State) : ∃ u, execReadInterval a0 a1 s = .next (close s u) ∧ Keeps
    [.regs, .mtr] s u := by
  refine ⟨_, rfl, ?_⟩
  refine Keeps.reached (Keeps.refl _ _) (fun _ h0 => ?_)
  exact Keeps.step h0 (openWith_keeps ..) (by decide)

theorem execReadLog_keeps (a0 : Word) (s : State) : ∃ u, execReadLog a0 s = .next (close s u) ∧ Keeps [.regs, .mtr] s u := by
  refine ⟨_, rfl, ?_⟩
  refine Keeps.reached (Keeps.refl _ _) (fun _ h0 => ?_)
  exact Keeps.step h0 (openWith_keeps ..) (by decide)

theorem execReadParam_keeps (a0 : Word) (a1 : Word) (s : State) : ∃ u, execReadParam a0 a1 s = .next (close s u) ∧ Keeps
    [.regs, .mtr] s u := by
  refine ⟨_, rfl, ?_⟩
  refine Keeps.reached (Keeps.refl _ _) (fun _ h0 => ?_)
  exact Keeps.step h0 (openWith_keeps ..) (by decide)

theorem execSealChange_keeps (open_ : Bool) (s : State) : ∃ u, execSealChange open_ s = .next (close s u) ∧ Keeps [.regs, .evq,
    .mtr, .upd] s u := by
  refine ⟨_, rfl, ?_⟩
  refine Keeps.ite (Keeps.refl _ _) ?_
  extract_lets +onlyGivenNames _
  extract_lets +onlyGivenNames x1
  have h1 : Keeps [.regs, .evq, .mtr, .upd] s x1 := Keeps.step (Keeps.refl _ _) (modMtr_keeps ..) (by decide)
  clear_value x1
  extract_lets +onlyGivenNames -merge -useContext _ x2
  have h2 : Keeps [.regs, .evq, .mtr, .upd] s x2 := Keeps.ite h1 (Keeps.upd h1 (by decide))
  clear_value x2
  extract_lets +onlyGivenNames x3
  have h3 : Keeps [.regs, .evq, .mtr, .upd] s x3 := Keeps.ite (Keeps.step h2 (modMtr_keeps ..) (by decide)) h2
  clear_value x3
  exact Keeps.step (Keeps.ite (Keeps.step h3 (mtrLog_keeps ..) (by decide)) (Keeps.step h3 (mtrLog_keeps ..) (by decide)))
      (mtrEvent_keeps ..) (by decide)

theorem execSetMeterId_keeps (s : State) : ∃ u, execSetMeterId s = .next (close s u) ∧ Keeps [.mtr] s u := by
  refine ⟨_, rfl, ?_⟩
  refine Keeps.reached (Keeps.refl _ _) (fun _ h0 => ?_)
  exact Keeps.step h0 (secCmd_keeps ..) (by decide)

theorem execSetTenant_keeps (a0 : Word) (a1 : Word) (s : State) : ∃ u, execSetTenant a0 a1 s = .next (close s u) ∧ Keeps
    [.regs, .mtr] s u := by
  refine ⟨_, rfl, ?_⟩
  refine Keeps.reached (Keeps.refl _ _) (fun _ h0 => ?_)
  exact Keeps.step h0 (openWith_keeps ..) (by decide)

theorem execShowCheck_keeps (s : State) : ∃ u, execShowCheck s = .next (close s u) ∧ Keeps [.mtr] s u := by
  refine ⟨_, rfl, ?_⟩
  refine Keeps.reached (Keeps.refl _ _) (fun _ h0 => ?_)
  exact Keeps.step h0 (openCmd_keeps ..) (by decide)

theorem execShowCheckEnd_keeps (s : State) : ∃ u, execShowCheckEnd s = .next (close s u) ∧ Keeps [.mtr] s u := by
  refine ⟨_, rfl, ?_⟩
  exact Keeps.step (Keeps.refl _ _) (modMtr_keeps ..) (by decide)

theorem execSupplyLoss_keeps (s : State) : ∃ u, execSupplyLoss s = .next (close s u) ∧ Keeps [.mtr, .free] s u := by
  refine ⟨_, rfl, ?_⟩
  refine Keeps.ite ?_ ?_
  · split
    · refine Keeps.step ?_ (modMtr_keeps ..) (by decide)
      refine Keeps.of_eq_snd ?_ ‹_›
      exact Keeps.step (Keeps.step (Keeps.step (Keeps.refl _ _) (mtrSave_keeps ..) (by decide)) (snapshot_keeps ..) (by
          decide)) (takeFree_keeps ..) (by decide)
  exact Keeps.refl _ _

theorem execTemperatureReading_keeps (t : BitVec 12) (s : State) : ∃ u, execTemperatureReading t s = .next (close s u) ∧ Keeps
    [.mtr] s u := by
  refine ⟨_, rfl, ?_⟩
  refine Keeps.ite (Keeps.refl _ _) ?_
  extract_lets +onlyGivenNames _
  extract_lets +onlyGivenNames _
  extract_lets +onlyGivenNames _
  exact Keeps.step (Keeps.refl _ _) (modMtr_keeps ..) (by decide)

end Sys2Proof.Laws
end

