-- ==== Sys2Proof/Laws/KeepsSecurity.lean ====
section
/-! SUPPORT. For every operation of Machine/Security.lean: the pieces of the state it may change; every other piece is exactly
what it was. -/

namespace Sys2Proof.Laws

open Machine

theorem damageSlots_keeps (s : State) (l : List Nat) : Keeps [.regs, .evq, .sec] s (damageSlots s l) := by
  unfold damageSlots
  refine Keeps.forAll (Keeps.refl _ _) fun _ _ h0 => ?_
  extract_lets +onlyGivenNames _
  refine Keeps.ite h0 ?_
  extract_lets +onlyGivenNames _
  extract_lets +onlyGivenNames -merge -useContext _ _ x3
  have h3 : Keeps [.regs, .evq, .sec] s x3 := Keeps.ite (Keeps.sec h0 (by decide)) (Keeps.sec h0 (by decide))
  clear_value x3
  exact Keeps.step (Keeps.step h3 (poison_keeps ..) (by decide)) (raiseBoth_keeps ..) (by decide)

theorem dataKey_keeps (s : State) (n : Nat) (f : Flight) (kind : Nat) : Keeps [.rings, .msixPend, .out] s (dataKey s n f
    kind).2 := by
  unfold dataKey
  extract_lets +onlyGivenNames x0
  clear_value x0
  refine Keeps.ite_snd (Keeps.step (Keeps.refl _ _) (complete_keeps ..) (by decide)) ?_
  split
  · exact Keeps.step (Keeps.refl _ _) (complete_keeps ..) (by decide)
  · exact Keeps.ite_snd (Keeps.step (Keeps.refl _ _) (complete_keeps ..) (by decide)) (Keeps.refl _ _)

theorem putSlot_keeps (s : State) (k : Nat) (v : KeySlot) : Keeps [.sec] s (putSlot s k v) := by
  unfold putSlot
  extract_lets +onlyGivenNames _
  exact Keeps.ite (Keeps.sec (Keeps.refl _ _) (by decide)) (Keeps.sec (Keeps.refl _ _) (by decide))

theorem emptySlot_keeps (s : State) (k : Nat) : Keeps [.sec] s (emptySlot s k) := by
  unfold emptySlot
  exact Keeps.step (Keeps.refl _ _) (putSlot_keeps ..) (by decide)

theorem decommission_keeps (s : State) : Keeps [.sec] s (decommission s) := by
  unfold decommission
  extract_lets +onlyGivenNames -merge -useContext _ x0
  have h0 : Keeps [.sec] s x0 := Keeps.sec (Keeps.refl _ _) (by decide)
  clear_value x0
  refine Keeps.forAll h0 fun _ _ h1 => ?_
  exact Keeps.ite (Keeps.step h1 (emptySlot_keeps ..) (by decide)) h1

theorem drawRandom_keeps (s : State) : Keeps [.free] s (drawRandom s).2 := by
  unfold drawRandom
  extract_lets +onlyGivenNames x0
  have h0 : Keeps [.free] s x0.2 := Keeps.step (Keeps.refl _ _) (takeFree_keeps ..) (by decide)
  clear_value x0
  exact h0

theorem execEntropyFail_keeps (s : State) : ∃ u, execEntropyFail s = .next (close s u) ∧ Keeps [.regs, .evq, .sec] s u := by
  refine ⟨_, rfl, ?_⟩
  refine Keeps.ite (Keeps.step (Keeps.sec (Keeps.refl _ _) (by decide)) (raiseBoth_keeps ..) (by decide)) ?_
  exact Keeps.refl _ _

theorem remaskAll_keeps (s : State) : Keeps [.sec] s (remaskAll s) := by
  unfold remaskAll
  extract_lets +onlyGivenNames _
  extract_lets +onlyGivenNames _
  exact Keeps.sec (Keeps.refl _ _) (by decide)

theorem execEntropyRecover_keeps (s : State) : ∃ u, execEntropyRecover s = .next (close s u) ∧ Keeps [.sec] s u := by
  refine ⟨_, rfl, ?_⟩
  refine Keeps.ite (Keeps.refl _ _) ?_
  refine Keeps.ite (Keeps.step (Keeps.sec (Keeps.refl _ _) (by decide)) (remaskAll_keeps ..) (by decide)) ?_
  exact Keeps.sec (Keeps.refl _ _) (by decide)

theorem lcRequest_keeps (s : State) (v : Word) : Keeps [.regs, .evq] s (lcRequest s v) := by
  unfold lcRequest
  extract_lets +onlyGivenNames _
  refine Keeps.ite (Keeps.step (Keeps.refl _ _) (rset_keeps ..) (by decide)) ?_
  exact Keeps.step (Keeps.refl _ _) (raiseBoth_keeps ..) (by decide)

theorem execLcRequest_keeps (value : Word) (s : State) : ∃ u, execLcRequest value s = .next (close s u) ∧ Keeps [.regs, .evq] s
    u := by
  refine ⟨_, rfl, ?_⟩
  refine Keeps.reached (Keeps.refl _ _) (fun _ h0 => ?_)
  exact Keeps.step h0 (lcRequest_keeps ..) (by decide)

theorem execRemask_keeps (s : State) : ∃ u, execRemask s = .next (close s u) ∧ Keeps [.sec] s u := by
  refine ⟨_, rfl, ?_⟩
  refine Keeps.ite (Keeps.refl _ _) ?_
  refine Keeps.ite (Keeps.step (Keeps.refl _ _) (remaskAll_keeps ..) (by decide)) ?_
  exact Keeps.sec (Keeps.refl _ _) (by decide)

theorem kopAead_keeps (s : State) (n : Nat) (f : Flight) : Keeps [.rings, .msixPend, .out] s (kopAead s n f) := by
  unfold kopAead
  split
  · refine Keeps.of_eq_snd ?_ ‹_›
    exact Keeps.step (Keeps.refl _ _) (dataKey_keeps ..) (by decide)
  · extract_lets +onlyGivenNames x0
    clear_value x0
    extract_lets +onlyGivenNames x1
    clear_value x1
    extract_lets +onlyGivenNames x2
    clear_value x2
    extract_lets +onlyGivenNames x3
    clear_value x3
    extract_lets +onlyGivenNames x4
    clear_value x4
    extract_lets +onlyGivenNames x5
    clear_value x5
    extract_lets +onlyGivenNames x6
    clear_value x6
    refine Keeps.ite ?_ ?_
    · split
      · exact Keeps.step (Keeps.refl _ _) (complete_keeps ..) (by decide)
      · exact Keeps.step (Keeps.refl _ _) (completeOut_keeps ..) (by decide)
    extract_lets +onlyGivenNames _
    exact Keeps.step (Keeps.refl _ _) (completeOut_keeps ..) (by decide)

theorem kopAttest_keeps (s : State) (n : Nat) (f : Flight) : Keeps [.rings, .msixPend, .free, .out] s (kopAttest s n f) := by
  unfold kopAttest
  extract_lets +onlyGivenNames x0
  clear_value x0
  refine Keeps.ite (Keeps.step (Keeps.refl _ _) (complete_keeps ..) (by decide)) ?_
  split
  · exact Keeps.step (Keeps.refl _ _) (complete_keeps ..) (by decide)
  · refine Keeps.ite (Keeps.step (Keeps.refl _ _) (complete_keeps ..) (by decide)) ?_
    extract_lets +onlyGivenNames _
    extract_lets +onlyGivenNames x2
    have h2 : Keeps [.rings, .msixPend, .free, .out] s x2.2 := Keeps.step (Keeps.refl _ _) (drawRandom_keeps ..) (by decide)
    clear_value x2
    exact Keeps.step h2 (completeOut_keeps ..) (by decide)

theorem newKey_keeps (s : State) (t : Nat) (p : Nat) (a : Word) (kind : Nat) (origin : Nat) (secret : List Nat) : Keeps [.sec]
    s (newKey s t p a kind origin secret) := by
  unfold newKey
  extract_lets +onlyGivenNames _
  extract_lets +onlyGivenNames _
  exact Keeps.step (Keeps.refl _ _) (putSlot_keeps ..) (by decide)

theorem kopDerive_keeps (s : State) (n : Nat) (f : Flight) : Keeps [.rings, .msixPend, .sec, .out] s (kopDerive s n f) := by
  unfold kopDerive
  extract_lets +onlyGivenNames x0
  clear_value x0
  extract_lets +onlyGivenNames x1
  clear_value x1
  split
  · exact Keeps.step (Keeps.refl _ _) (complete_keeps ..) (by decide)
  · extract_lets +onlyGivenNames _
    extract_lets +onlyGivenNames _
    extract_lets +onlyGivenNames x4
    have h4 : Keeps [.rings, .msixPend, .sec, .out] s x4 := Keeps.step (Keeps.refl _ _) (newKey_keeps ..) (by decide)
    clear_value x4
    exact Keeps.step h4 (complete_keeps ..) (by decide)

theorem kopEnrol_keeps (s : State) (n : Nat) (f : Flight) : Keeps [.rings, .msixPend, .sec, .out] s (kopEnrol s n f) := by
  unfold kopEnrol
  extract_lets +onlyGivenNames x0
  clear_value x0
  extract_lets +onlyGivenNames x1
  clear_value x1
  extract_lets +onlyGivenNames x2
  clear_value x2
  extract_lets +onlyGivenNames x3
  clear_value x3
  extract_lets +onlyGivenNames x4
  clear_value x4
  split
  · exact Keeps.step (Keeps.refl _ _) (complete_keeps ..) (by decide)
  · split
    · exact Keeps.step (Keeps.refl _ _) (complete_keeps ..) (by decide)
    · split
      · exact Keeps.step (Keeps.refl _ _) (complete_keeps ..) (by decide)
      · extract_lets +onlyGivenNames x5
        have h5 : Keeps [.rings, .msixPend, .sec, .out] s x5 := Keeps.step (Keeps.refl _ _) (newKey_keeps ..) (by decide)
        clear_value x5
        exact Keeps.step h5 (complete_keeps ..) (by decide)

theorem kopGen_keeps (s : State) (n : Nat) (f : Flight) : Keeps [.rings, .msixPend, .sec, .free, .out] s (kopGen s n f) := by
  unfold kopGen
  extract_lets +onlyGivenNames x0
  clear_value x0
  extract_lets +onlyGivenNames x1
  clear_value x1
  extract_lets +onlyGivenNames x2
  clear_value x2
  split
  · exact Keeps.step (Keeps.refl _ _) (complete_keeps ..) (by decide)
  · refine Keeps.ite (Keeps.step (Keeps.refl _ _) (complete_keeps ..) (by decide)) ?_
    extract_lets +onlyGivenNames x3
    have h3 : Keeps [.rings, .msixPend, .sec, .free, .out] s x3.2 := Keeps.step (Keeps.refl _ _) (drawRandom_keeps ..) (by
        decide)
    clear_value x3
    extract_lets +onlyGivenNames _
    extract_lets +onlyGivenNames x5
    have h5 : Keeps [.rings, .msixPend, .sec, .free, .out] s x5 := Keeps.step h3 (newKey_keeps ..) (by decide)
    clear_value x5
    refine Keeps.ite (Keeps.step h5 (complete_keeps ..) (by decide)) ?_
    exact Keeps.step h5 (completeOut_keeps ..) (by decide)

theorem kopInfo_keeps (s : State) (n : Nat) (f : Flight) : Keeps [.rings, .msixPend, .free, .out] s (kopInfo s n f) := by
  unfold kopInfo
  extract_lets +onlyGivenNames _
  extract_lets +onlyGivenNames _
  refine Keeps.ite (Keeps.step (Keeps.refl _ _) (complete_keeps ..) (by decide)) ?_
  refine Keeps.ite (Keeps.step (Keeps.refl _ _) (complete_keeps ..) (by decide)) ?_
  extract_lets +onlyGivenNames x2
  have h2 : Keeps [.rings, .msixPend, .free, .out] s x2.2 := Keeps.step (Keeps.refl _ _) (takeFree_keeps ..) (by decide)
  clear_value x2
  exact Keeps.step h2 (completeOut_keeps ..) (by decide)

theorem kopInvalidate_keeps (s : State) (n : Nat) (f : Flight) : Keeps [.rings, .msixPend, .sec, .out] s (kopInvalidate s n f)
    := by
  unfold kopInvalidate
  extract_lets +onlyGivenNames x0
  clear_value x0
  extract_lets +onlyGivenNames x1
  clear_value x1
  refine Keeps.ite (Keeps.step (Keeps.refl _ _) (complete_keeps ..) (by decide)) ?_
  split
  · exact Keeps.step (Keeps.refl _ _) (complete_keeps ..) (by decide)
  · refine Keeps.ite (Keeps.step (Keeps.refl _ _) (complete_keeps ..) (by decide)) ?_
    extract_lets +onlyGivenNames _
    extract_lets +onlyGivenNames x3
    have h3 : Keeps [.rings, .msixPend, .sec, .out] s x3 := Keeps.step (Keeps.refl _ _) (emptySlot_keeps ..) (by decide)
    clear_value x3
    exact Keeps.step h3 (complete_keeps ..) (by decide)

theorem kopSign_keeps (s : State) (n : Nat) (f : Flight) : Keeps [.rings, .msixPend, .free, .out] s (kopSign s n f) := by
  unfold kopSign
  split
  · refine Keeps.of_eq_snd ?_ ‹_›
    exact Keeps.step (Keeps.refl _ _) (dataKey_keeps ..) (by decide)
  · extract_lets +onlyGivenNames x0
    have h0 : Keeps [.rings, .msixPend, .free, .out] s x0.2 := Keeps.step (Keeps.refl _ _) (takeFree_keeps ..) (by decide)
    clear_value x0
    extract_lets +onlyGivenNames _
    exact Keeps.step h0 (completeOut_keeps ..) (by decide)

theorem lcStart_keeps (s : State) : Keeps [.regs, .sec] s (lcStart s) := by
  unfold lcStart
  extract_lets +onlyGivenNames _
  extract_lets +onlyGivenNames x1
  have h1 : Keeps [.regs, .sec] s x1 := Keeps.step (Keeps.refl _ _) (rset_keeps ..) (by decide)
  clear_value x1
  refine Keeps.ite h1 ?_
  refine Keeps.ite (Keeps.step (Keeps.sec h1 (by decide)) (decommission_keeps ..) (by decide)) ?_
  exact Keeps.ite (Keeps.sec h1 (by decide)) (Keeps.sec h1 (by decide))

theorem secRefusal_keeps (s : State) (bit : Nat) (extra : List Word) : Keeps [.regs, .evq] s (secRefusal s bit extra) := by
  unfold secRefusal
  extract_lets +onlyGivenNames _
  exact Keeps.step (Keeps.step (Keeps.refl _ _) (ror_keeps ..) (by decide)) (regEvent_keeps ..) (by decide)

theorem partViol_keeps (s : State) (m : Nat) (t : Nat) (obj : Word) : Keeps [.regs, .evq] s (partViol s m t obj) := by
  unfold partViol
  exact Keeps.step (Keeps.step (Keeps.refl _ _) (rinc_keeps ..) (by decide)) (secRefusal_keeps ..) (by decide)

theorem refuseAccess_keeps (s : State) (n : Nat) (f : Flight) (obj : Word) : Keeps [.regs, .rings, .evq, .msixPend, .out] s
    (refuseAccess s n f obj) := by
  unfold refuseAccess
  exact Keeps.step (Keeps.step (Keeps.refl _ _) (partViol_keeps ..) (by decide)) (complete_keeps ..) (by decide)

theorem worldViol_keeps (s : State) (m : Nat) (addr : Nat) (write : Bool) : Keeps [.regs, .evq, .sec] s (worldViol s m addr
    write) := by
  unfold worldViol
  extract_lets +onlyGivenNames -merge -useContext _ x0
  have h0 : Keeps [.regs, .evq, .sec] s x0 := Keeps.sec (Keeps.refl _ _) (by decide)
  clear_value x0
  exact Keeps.step h0 (secRefusal_keeps ..) (by decide)

end Sys2Proof.Laws
end

