-- ==== Sys2Proof/Laws/KeepsUpdate.lean ====
section
/-! SUPPORT. For every operation of Machine/Update.lean: the pieces of the state it may change; every other piece is exactly
what it was. -/

namespace Sys2Proof.Laws

open Machine

theorem modUpd_keeps (s : State) (f : Upd → Upd) : Keeps [.upd] s (modUpd s f) := by
  unfold modUpd
  exact Keeps.upd (Keeps.refl _ _) (by decide)

theorem cartInstallCmd_keeps (s : State) : Keeps [.upd, .out] s (cartInstallCmd s) := by
  unfold cartInstallCmd
  extract_lets +onlyGivenNames _
  refine Keeps.ite (Keeps.step (Keeps.refl _ _) (modUpd_keeps ..) (by decide)) ?_
  extract_lets +onlyGivenNames _
  extract_lets +onlyGivenNames _
  exact Keeps.step (Keeps.step (Keeps.refl _ _) (modUpd_keeps ..) (by decide)) (emit_keeps ..) (by decide)

theorem emptyStage_keeps (s : State) : Keeps [.upd] s (emptyStage s) := by
  unfold emptyStage
  exact Keeps.step (Keeps.refl _ _) (modUpd_keeps ..) (by decide)

theorem updEvent_keeps (s : State) (bit : Nat) : Keeps [.regs, .evq] s (updEvent s bit) := by
  unfold updEvent
  exact Keeps.step (Keeps.refl _ _) (raiseBoth_keeps ..) (by decide)

abbrev cartUpdated_may : List Piece := [.regs, .pts, .phc, .evq, .can, .mtr, .ble, .upd, .out]

theorem cartUpdated_keeps (s : State) (sw_ : Word) : Keeps cartUpdated_may s (cartUpdated s sw_) := by
  unfold cartUpdated
  extract_lets +onlyGivenNames x0
  clear_value x0
  extract_lets +onlyGivenNames x1
  have h1 : Keeps cartUpdated_may s x1 := Keeps.step (Keeps.step (Keeps.refl _ _) (mtrSave_keeps ..) (by decide))
      (mtrStop_keeps ..) (by
      decide)
  clear_value x1
  extract_lets +onlyGivenNames x2
  have h2 : Keeps cartUpdated_may s x2 := Keeps.step h1 (modMtr_keeps ..) (by decide)
  clear_value x2
  extract_lets +onlyGivenNames x3
  have h3 : Keeps cartUpdated_may s x3 := by
    subst x3
    split
    · exact Keeps.step h2 (loadSlot_keeps ..) (by decide)
    · exact h2
  clear_value x3
  extract_lets +onlyGivenNames x4
  have h4 : Keeps cartUpdated_may s x4 := Keeps.step (Keeps.step h3 (startIntervals_keeps ..) (by decide)) (applyBlocks_keeps
      ..) (by
      decide)
  clear_value x4
  extract_lets +onlyGivenNames x5
  have h5 : Keeps cartUpdated_may s x5 := by
    refine Keeps.forAll h4 fun _ _ h6 => ?_
    exact Keeps.step h6 (setCirc_keeps ..) (by decide)
  clear_value x5
  extract_lets +onlyGivenNames x7
  have h7 : Keeps cartUpdated_may s x7 := Keeps.step (Keeps.step h5 (mtrLog_keeps ..) (by decide)) (modMtr_keeps ..) (by decide)
  clear_value x7
  exact Keeps.step (Keeps.step h7 (emptyStage_keeps ..) (by decide)) (updEvent_keeps ..) (by decide)

theorem recheck_keeps (s : State) : Keeps [.regs, .evq, .upd] s (recheck s) := by
  unfold recheck
  split
  · extract_lets +onlyGivenNames _
    refine Keeps.ite (Keeps.refl _ _) ?_
    extract_lets +onlyGivenNames x1
    have h1 : Keeps [.regs, .evq, .upd] s x1 := Keeps.step (Keeps.refl _ _) (modUpd_keeps ..) (by decide)
    clear_value x1
    refine Keeps.forAll h1 fun _ _ h2 => ?_
    exact Keeps.step h2 (poison_keeps ..) (by decide)
  · exact Keeps.refl _ _

theorem maybeFull_keeps (s : State) : Keeps [.upd] s (maybeFull s) := by
  unfold maybeFull
  split
  · exact Keeps.ite (Keeps.step (Keeps.refl _ _) (modUpd_keeps ..) (by decide)) (Keeps.refl _ _)
  · exact Keeps.refl _ _

theorem chunkIn_keeps (s : State) (n count : Nat) (c : List Nat) : Keeps [.regs, .evq, .upd] s (chunkIn s n count c).2.2 := by
  have two : ∀ {c : Prop} [Decidable c] {x y : (Nat × Nat × Nat) × Bool × State}, Keeps [.regs, .evq, .upd] s x.2.2 → Keeps [.regs, .evq, .upd] s y.2.2 →
      Keeps [.regs, .evq, .upd] s (if c then x else y).2.2 := by intros; split <;> assumption
  unfold chunkIn
  refine two (Keeps.refl _ _) (two (Keeps.refl _ _) (two (Keeps.refl _ _) (two (Keeps.refl _ _) (two (Keeps.refl _ _)
    (two (Keeps.refl _ _) (two (Keeps.refl _ _) (two (Keeps.step (Keeps.refl _ _) (poison_keeps ..) (by decide)) ?_)))))))
  refine Keeps.step ?_ (maybeFull_keeps ..) (by decide)
  exact Keeps.ite (Keeps.step (Keeps.step (Keeps.refl _ _) (modUpd_keeps ..) (by decide)) (recheck_keeps ..) (by decide))
    (Keeps.step (Keeps.refl _ _) (modUpd_keeps ..) (by decide))

theorem convertSettings_keeps (s : State) : Keeps [.upd] s (convertSettings s) := by
  unfold convertSettings
  exact Keeps.ite (Keeps.refl _ _) (Keeps.step (Keeps.refl _ _) (modUpd_keeps ..) (by decide))

theorem setFw_keeps (s : State) (b : Nat) (v : FwBank) : Keeps [.upd] s (setFw s b v) := by
  unfold setFw
  exact Keeps.step (Keeps.refl _ _) (modUpd_keeps ..) (by decide)

theorem fallNow_keeps (s : State) : Keeps [.regs, .live, .evq, .upd] s (fallNow s) := by
  unfold fallNow
  extract_lets +onlyGivenNames x0
  have h0 : Keeps [.regs, .live, .evq, .upd] s x0 := Keeps.step (Keeps.refl _ _) (setFw_keeps ..) (by decide)
  clear_value x0
  extract_lets +onlyGivenNames _
  extract_lets +onlyGivenNames x2
  have h2 : Keeps [.regs, .live, .evq, .upd] s x2 := by
    refine Keeps.ite ?_ ?_
    · refine Keeps.many (t := x0) ?_ rfl (fun p hp => by cases p <;> first | rfl | exact absurd (by decide) hp)
      exact h0
    exact h0
  clear_value x2
  extract_lets +onlyGivenNames x3
  have h3 : Keeps [.regs, .live, .evq, .upd] s x3 := Keeps.step h2 (modUpd_keeps ..) (by decide)
  clear_value x3
  exact Keeps.step h3 (updEvent_keeps ..) (by decide)

theorem countStart_keeps (s : State) : Keeps [.regs, .live, .evq, .upd] s (countStart s) := by
  unfold countStart
  refine Keeps.ite (Keeps.refl _ _) ?_
  extract_lets +onlyGivenNames x0
  have h0 : Keeps [.regs, .live, .evq, .upd] s x0 := Keeps.step (Keeps.refl _ _) (modUpd_keeps ..) (by decide)
  clear_value x0
  exact Keeps.ite (Keeps.step h0 (fallNow_keeps ..) (by decide)) h0

theorem dropPart_keeps (s : State) (n : Nat) : Keeps [.upd] s (dropPart s n) := by
  unfold dropPart
  exact Keeps.step (Keeps.refl _ _) (modUpd_keeps ..) (by decide)

theorem execCartInstall_keeps (s : State) : ∃ u, execCartInstall s = .next (close s u) ∧ Keeps [.upd, .out] s u := by
  refine ⟨_, rfl, ?_⟩
  refine Keeps.reached (Keeps.refl _ _) (fun _ h0 => ?_)
  exact Keeps.step h0 (cartInstallCmd_keeps ..) (by decide)

theorem execCartSoftwareDone_keeps (ok : Bool) (sw_ : Word) (s : State) : ∃ u, execCartSoftwareDone ok sw_ s = .next (close s
    u) ∧ Keeps [.regs, .pts, .phc, .evq, .can, .mtr, .ble, .upd, .out] s u := by
  refine ⟨_, rfl, ?_⟩
  refine Keeps.ite (Keeps.refl _ _) ?_
  refine Keeps.ite (Keeps.step (Keeps.step (Keeps.refl _ _) (modUpd_keeps ..) (by decide)) (updEvent_keeps ..) (by decide)) ?_
  exact Keeps.step (Keeps.refl _ _) (cartUpdated_keeps ..) (by decide)

theorem leaveBall_keeps (s : State) : Keeps [.regs, .pts, .hold, .phc, .clk, .banks, .ch, .rings, .evq, .recq, .recLost,
    .recLostCls, .msixPend, .can, .lce, .ble, .twn, .upd, .out] s (leaveBall s) := by
  unfold leaveBall
  refine Keeps.ite ?_ ?_
  · split
    · exact Keeps.step (Keeps.refl _ _) (planHandoff_keeps (by assumption)) (by decide)
    · exact Keeps.step (Keeps.refl _ _) (leaveRefused_keeps ..) (by decide)
  refine Keeps.ite (Keeps.step (Keeps.refl _ _) (leaveRefused_keeps ..) (by decide)) ?_
  exact Keeps.step (Keeps.refl _ _) (updReset_keeps ..) (by decide)

theorem fallBack_keeps (s : State) : Keeps [.regs, .pts, .hold, .phc, .clk, .banks, .ch, .rings, .evq, .recq, .recLost,
    .recLostCls, .msixPend, .can, .lce, .ble, .twn, .upd, .out] s (fallBack s) := by
  unfold fallBack
  refine Keeps.ite (Keeps.refl _ _) ?_
  exact Keeps.step (Keeps.step (Keeps.refl _ _) (modUpd_keeps ..) (by decide)) (leaveBall_keeps ..) (by decide)

theorem fallbackCmd_keeps (s : State) : Keeps [.regs, .pts, .hold, .phc, .clk, .banks, .ch, .rings, .evq, .recq, .recLost,
    .recLostCls, .msixPend, .can, .lce, .ble, .twn, .upd, .out] s (fallbackCmd s) := by
  unfold fallbackCmd
  exact Keeps.ite (Keeps.step (Keeps.refl _ _) (fallBack_keeps ..) (by decide)) (Keeps.refl _ _)

theorem execFallback_keeps (s : State) : ∃ u, execFallback s = .next (close s u) ∧ Keeps [.regs, .pts, .hold, .phc, .clk,
    .banks, .ch, .rings, .evq, .recq, .recLost, .recLostCls, .msixPend, .can, .lce, .ble, .twn, .upd, .out] s u := by
  refine ⟨_, rfl, ?_⟩
  refine Keeps.reached (Keeps.refl _ _) (fun _ h0 => ?_)
  exact Keeps.step h0 (fallbackCmd_keeps ..) (by decide)

theorem execFallbackHandoffRetry_keeps (s : State) : ∃ u, execFallbackHandoffRetry s = .next (close s u) ∧ Keeps [.regs, .pts,
    .hold, .phc, .clk, .banks, .ch, .rings, .evq, .recq, .recLost, .recLostCls, .msixPend, .can, .lce, .ble, .twn, .upd, .out]
    s u := by
  refine ⟨_, rfl, ?_⟩
  refine Keeps.ite (Keeps.step (Keeps.step (Keeps.refl _ _) (modUpd_keeps ..) (by decide)) (leaveBall_keeps ..) (by decide)) ?_
  exact Keeps.refl _ _

theorem installCmd_keeps (s : State) (aloneOk : Bool) : Keeps [.regs, .pts, .hold, .phc, .clk, .banks, .ch, .rings, .evq,
    .recq, .recLost, .recLostCls, .msixPend, .can, .lce, .ble, .twn, .upd, .out] s (installCmd s aloneOk) := by
  unfold installCmd
  extract_lets +onlyGivenNames _
  refine Keeps.ite (Keeps.step (Keeps.refl _ _) (modUpd_keeps ..) (by decide)) ?_
  exact Keeps.step (Keeps.step (Keeps.refl _ _) (modUpd_keeps ..) (by decide)) (leaveBall_keeps ..) (by decide)

theorem execInstall_keeps (aloneOk : Bool) (s : State) : ∃ u, execInstall aloneOk s = .next (close s u) ∧ Keeps [.regs, .pts,
    .hold, .phc, .clk, .banks, .ch, .rings, .evq, .recq, .recLost, .recLostCls, .msixPend, .can, .lce, .ble, .twn, .upd, .out]
    s u := by
  refine ⟨_, rfl, ?_⟩
  refine Keeps.reached (Keeps.refl _ _) (fun _ h0 => ?_)
  exact Keeps.step h0 (installCmd_keeps ..) (by decide)

theorem execTrialTimeExpiry_keeps (s : State) : ∃ u, execTrialTimeExpiry s = .next (close s u) ∧ Keeps [.regs, .pts, .hold,
    .phc, .clk, .banks, .ch, .rings, .evq, .recq, .recLost, .recLostCls, .msixPend, .can, .lce, .ble, .twn, .upd, .out] s u :=
    by
  refine ⟨_, rfl, ?_⟩
  exact Keeps.ite (Keeps.step (Keeps.refl _ _) (fallBack_keeps ..) (by decide)) (Keeps.refl _ _)

theorem sendReport_keeps (s : State) : Keeps [.eth] s (sendReport s) := by
  unfold sendReport
  extract_lets +onlyGivenNames _
  extract_lets +onlyGivenNames _
  exact Keeps.step (Keeps.refl _ _) (flSend_keeps ..) (by decide)

theorem takeFrag_keeps (s : State) (n count len k : Nat) (d : List Nat) : Keeps [.regs, .evq, .eth, .upd] s (takeFrag s n count len k d) := by
  unfold takeFrag
  dsimp only
  split
  · refine Keeps.ite (Keeps.step ?_ (sendReport_keeps ..) (by decide)) ?_
    all_goals exact Keeps.step (Keeps.step (Keeps.step (Keeps.refl _ _) (modUpd_keeps ..) (by decide)) (dropPart_keeps ..)
      (by decide)) (chunkIn_keeps ..) (by decide)
  · exact Keeps.step (Keeps.refl _ _) (modUpd_keeps ..) (by decide)

theorem execUpdFrag_keeps (ok : Bool) (dst : BitVec 48) (src : BitVec 48) (idx : Word) (count : Word) (frag : Fin 256) (len :
    Word) (data : List Nat) (s : State) : ∃ u, execUpdFrag ok dst src idx count frag len data s = .next (close s u) ∧ Keeps
    [.regs, .evq, .eth, .upd] s u := by
  refine ⟨_, rfl, ?_⟩
  refine Keeps.ite (Keeps.refl _ _) ?_
  refine Keeps.ite (Keeps.step (Keeps.refl _ _) (flReject_keeps ..) (by decide)) ?_
  exact Keeps.ite (Keeps.step (Keeps.refl _ _) (takeFrag_keeps ..) (by decide)) (Keeps.refl _ _)

theorem execUpdReport_keeps (s : State) : ∃ u, execUpdReport s = .next (close s u) ∧ Keeps [.eth, .upd] s u := by
  refine ⟨_, rfl, ?_⟩
  refine Keeps.ite (Keeps.step (Keeps.step (Keeps.refl _ _) (modUpd_keeps ..) (by decide)) (sendReport_keeps ..) (by decide)) ?_
  exact Keeps.refl _ _

theorem execUpdateVerifyDone_keeps (s : State) : ∃ u, execUpdateVerifyDone s = .next (close s u) ∧ Keeps [.regs, .evq, .upd] s
    u := by
  refine ⟨_, rfl, ?_⟩
  refine Keeps.ite (Keeps.refl _ _) ?_
  extract_lets +onlyGivenNames _
  extract_lets +onlyGivenNames x1
  have h1 : Keeps [.regs, .evq, .upd] s x1 := Keeps.step (Keeps.refl _ _) (modUpd_keeps ..) (by decide)
  clear_value x1
  exact Keeps.step h1 (updEvent_keeps ..) (by decide)

theorem installCopy_keeps (s : State) (bad : Bool) : Keeps [.regs, .evq, .upd] s (installCopy s bad) := by
  unfold installCopy
  extract_lets +onlyGivenNames _
  refine Keeps.ite (Keeps.refl _ _) ?_
  refine Keeps.ite (Keeps.step (Keeps.step (Keeps.step (Keeps.refl _ _) (setFw_keeps ..) (by decide)) (modUpd_keeps ..) (by
      decide)) (updEvent_keeps ..) (by decide)) ?_
  extract_lets +onlyGivenNames x1
  have h1 : Keeps [.regs, .evq, .upd] s x1 := Keeps.step (Keeps.refl _ _) (setFw_keeps ..) (by decide)
  clear_value x1
  extract_lets +onlyGivenNames x2
  have h2 : Keeps [.regs, .evq, .upd] s x2 := Keeps.step h1 (modUpd_keeps ..) (by decide)
  clear_value x2
  exact Keeps.step (Keeps.step h2 (emptyStage_keeps ..) (by decide)) (updEvent_keeps ..) (by decide)

theorem selectBank_keeps {s t : State} {a b c : Bool} (h : selectBank s a b = some (t, c)) : Keeps [.regs, .live, .evq, .upd] s t := by
  have two : ∀ {p : Prop} [Decidable p] {x y : Option (State × Bool)}, (x = some (t, c) → Keeps [.regs, .live, .evq, .upd] s t) →
      (y = some (t, c) → Keeps [.regs, .live, .evq, .upd] s t) → ((if p then x else y) = some (t, c)) → Keeps [.regs, .live, .evq, .upd] s t := by
    intro p _ x y hx hy hp
    split at hp
    · exact hx hp
    · exact hy hp
  have got : ∀ {u : State} {d : Bool}, Keeps [.regs, .live, .evq, .upd] s u → some (u, d) = some (t, c) → Keeps [.regs, .live, .evq, .upd] s t := by
    intro u d hu hp
    cases hp
    exact hu
  unfold selectBank at h
  refine two (got (Keeps.refl _ _)) (fun h => two (fun e => by cases e) (fun h => two (got ?_) (got ?_) h) h) h
  · exact Keeps.step (Keeps.refl _ _) (fallNow_keeps ..) (by decide)
  · exact Keeps.step (Keeps.refl _ _) (modUpd_keeps ..) (by decide)

theorem firmwareStart_keeps {s t : State} {a b c d : Bool} (h : firmwareStart s a b c = some (t, d)) : Keeps [.regs, .live, .evq, .upd] s t := by
  unfold firmwareStart at h
  refine Keeps.step ?_ (selectBank_keeps h) (by decide)
  exact Keeps.ite (Keeps.step (Keeps.step (Keeps.refl _ _) (installCopy_keeps ..) (by decide)) (fallNow_keeps ..) (by decide))
    (Keeps.step (Keeps.step (Keeps.refl _ _) (installCopy_keeps ..) (by decide)) (countStart_keeps ..) (by decide))

theorem uopAbort_keeps (s : State) (n : Nat) (f : Flight) : Keeps [.rings, .msixPend, .upd, .out] s (uopAbort s n f) := by
  unfold uopAbort
  refine Keeps.ite (Keeps.step (Keeps.refl _ _) (complete_keeps ..) (by decide)) ?_
  exact Keeps.step (Keeps.step (Keeps.refl _ _) (emptyStage_keeps ..) (by decide)) (complete_keeps ..) (by decide)

theorem uopChunk_keeps (s : State) (n : Nat) (f : Flight) : Keeps [.regs, .rings, .evq, .msixPend, .eth, .upd, .out] s (uopChunk s n f) := by
  unfold uopChunk
  have h := (Keeps.refl [.regs, .rings, .evq, .msixPend, .eth, .upd, .out] s).step (chunkIn_keeps s (parOf f 0).toNat (parOf f 1).toNat (wordsBytes f.input)) (by decide)
  refine Keeps.step ?_ (complete_keeps ..) (by decide)
  refine Keeps.ite ?_ ?_
  · refine Keeps.step ?_ (sendReport_keeps ..) (by decide)
    exact Keeps.ite (h.step (dropPart_keeps ..) (by decide)) h
  · exact Keeps.ite (h.step (dropPart_keeps ..) (by decide)) h

abbrev uopConfirm_may : List Piece := [.regs, .rings, .evq, .msixPend, .upd, .out]

theorem uopConfirm_keeps (s : State) (n : Nat) (f : Flight) : Keeps uopConfirm_may s (uopConfirm s n f) := by
  unfold uopConfirm
  refine Keeps.ite (Keeps.step (Keeps.refl _ _) (complete_keeps ..) (by decide)) ?_
  extract_lets +onlyGivenNames _
  extract_lets +onlyGivenNames x1
  have h1 : Keeps uopConfirm_may s x1 := Keeps.step (Keeps.refl _ _) (modUpd_keeps ..) (by decide)
  clear_value x1
  exact Keeps.step (Keeps.step h1 (updEvent_keeps ..) (by decide)) (complete_keeps ..) (by decide)

theorem uopStatus_keeps (s : State) (n : Nat) (f : Flight) : Keeps [.rings, .msixPend, .out] s (uopStatus s n f) := by
  unfold uopStatus
  exact Keeps.step (Keeps.refl _ _) (completeOut_keeps ..) (by decide)

end Sys2Proof.Laws
end

