-- ==== Sys2Proof/Laws/KeepsRingCtl.lean ====
section
/-! SUPPORT. For every operation of Machine/RingCtl.lean: the pieces of the state it may change; every other piece is exactly
what it was. -/

namespace Sys2Proof.Laws

open Machine

theorem resetRange_keeps (s : State) (lo : Nat) (hi : Nat) : Keeps [.regs] s (resetRange s lo hi) := by
  unfold resetRange
  exact Keeps.regs (Keeps.refl _ _) (by decide)

theorem tearRings_keeps (s : State) : Keeps [.regs, .phc, .rings, .watches, .ble] s (tearRings s) := by
  unfold tearRings
  extract_lets +onlyGivenNames x0
  have h0 : Keeps [.regs, .phc, .rings, .watches, .ble] s x0 := Keeps.step (Keeps.rings (Keeps.refl _ _) (by decide))
      (resetRange_keeps ..) (by decide)
  clear_value x0
  refine Keeps.many (t := x0) ?_ rfl (fun p hp => by cases p <;> first | rfl | exact absurd (by decide) hp)
  exact h0

abbrev clearBusMaster_may : List Piece := [.regs, .phc, .rings, .watches, .busMaster, .ble]

theorem clearBusMaster_keeps (s : State) : Keeps clearBusMaster_may s (clearBusMaster s) := by
  unfold clearBusMaster
  extract_lets +onlyGivenNames x0
  have h0 : Keeps clearBusMaster_may s x0 := Keeps.ite (Keeps.step (Keeps.refl _ _) (tearRings_keeps ..) (by decide))
      (Keeps.refl _ _)
  clear_value x0
  exact Keeps.busMaster h0 (by decide)

theorem closeInterval_keeps (p q : Nat) (a : State × List Watch) (w : Watch) :
    Keeps [.evq] a.1 (closeInterval p q a w).1 := by
  unfold closeInterval
  split
  · split
    · exact watchReport_keeps ..
    · exact Keeps.refl _ _
  · exact Keeps.refl _ _

theorem disableRing_keeps (s : State) (n : Nat) : Keeps [.regs, .rings] s (disableRing s n) := by
  unfold disableRing
  extract_lets +onlyGivenNames x0
  have h0 : Keeps [.regs, .rings] s x0 := Keeps.step (Keeps.refl _ _) (rclr_keeps ..) (by decide)
  clear_value x0
  refine Keeps.ite (Keeps.step h0 (modRing_keeps ..) (by decide)) ?_
  exact Keeps.step (Keeps.step h0 (modRing_keeps ..) (by decide)) (closeRing_keeps ..) (by decide)

theorem enableRing_keeps (s : State) (n : Nat) (v : Word) : Keeps [.regs, .rings] s (enableRing s n v) := by
  unfold enableRing
  extract_lets +onlyGivenNames _
  extract_lets +onlyGivenNames _
  extract_lets +onlyGivenNames -merge -useContext _ _
  exact Keeps.step (Keeps.step (Keeps.refl _ _) (rset_keeps ..) (by decide)) (setRing_keeps ..) (by decide)

abbrev endpointReset_may : List Piece := [.regs, .phc, .rings, .watches, .msix, .msixPend, .busMaster, .memEnable, .ble]

theorem endpointReset_keeps (s : State) : Keeps endpointReset_may s (endpointReset s) := by
  unfold endpointReset
  extract_lets +onlyGivenNames x0
  have h0 : Keeps endpointReset_may s x0 := Keeps.step (Keeps.step (Keeps.refl _ _) (tearRings_keeps ..) (by decide))
      (resetRange_keeps ..)
      (by decide)
  clear_value x0
  refine Keeps.many (t := x0) ?_ rfl (fun p hp => by cases p <;> first | rfl | exact absurd (by decide) hp)
  exact h0

theorem execBusMasterDisable_keeps (s : State) : ∃ u, execBusMasterDisable s = .next (close s u) ∧ Keeps [.regs, .phc, .rings,
    .watches, .busMaster, .ble] s u := by
  refine ⟨_, rfl, ?_⟩
  exact Keeps.ite (Keeps.step (Keeps.refl _ _) (clearBusMaster_keeps ..) (by decide)) (Keeps.refl _ _)

theorem ringErr_keeps (s : State) (n : Nat) (bit : Nat) : Keeps [.regs] s (ringErr s n bit) := by
  unfold ringErr
  exact Keeps.step (Keeps.refl _ _) (ror_keeps ..) (by decide)

theorem headWrite_keeps (s : State) (n : Nat) (v : Word) : Keeps [.regs, .rings, .msixPend, .out] s (headWrite s n v) := by
  unfold headWrite
  extract_lets +onlyGivenNames _
  extract_lets +onlyGivenNames _
  extract_lets +onlyGivenNames _
  refine Keeps.ite (Keeps.step (Keeps.refl _ _) (ringErr_keeps ..) (by decide)) ?_
  extract_lets +onlyGivenNames x3
  have h3 : Keeps [.regs, .rings, .msixPend, .out] s x3 := Keeps.step (Keeps.refl _ _) (modRing_keeps ..) (by decide)
  clear_value x3
  exact Keeps.ite (Keeps.step h3 (tellLost_keeps ..) (by decide)) h3

theorem execCqHead_keeps (n : Fin 64) (v : Word) (s : State) : ∃ u, execCqHead n v s = .next (close s u) ∧ Keeps [.regs,
    .rings, .msixPend, .out] s u := by
  refine ⟨_, rfl, ?_⟩
  refine Keeps.reached (Keeps.refl _ _) (fun _ h0 => ?_)
  exact Keeps.step h0 (headWrite_keeps ..) (by decide)

theorem execEventLost_keeps (n : Fin 64) (s : State) : ∃ u, execEventLost n s = .next (close s u) ∧ Keeps [.regs, .rings, .evq,
    .recq, .recLost, .recLostCls, .msixPend, .out] s u := by
  refine ⟨_, rfl, ?_⟩
  exact Keeps.ite (Keeps.step (Keeps.refl _ _) (flushEvents_keeps ..) (by decide)) (Keeps.refl _ _)

theorem execFunctionLevelReset_keeps (s : State) : ∃ u, execFunctionLevelReset s = .next (close s u) ∧ Keeps [.regs, .phc,
    .rings, .watches, .msix, .msixPend, .busMaster, .memEnable, .ble] s u := by
  refine ⟨_, rfl, ?_⟩
  exact Keeps.ite (Keeps.step (Keeps.refl _ _) (endpointReset_keeps ..) (by decide)) (Keeps.refl _ _)

theorem execInterruptTimer_keeps (n : Fin 64) (s : State) : ∃ u, execInterruptTimer n s = .next (close s u) ∧ Keeps [.rings,
    .msixPend, .out] s u := by
  refine ⟨_, rfl, ?_⟩
  extract_lets +onlyGivenNames _
  refine Keeps.ite (Keeps.refl _ _) ?_
  exact Keeps.step (Keeps.step (Keeps.refl _ _) (modRing_keeps ..) (by decide)) (raiseVec_keeps ..) (by decide)

abbrev execPePerst_may : List Piece := [.regs, .phc, .clk, .rings, .watches, .msix, .msixPend, .busMaster, .memEnable, .ble]

theorem execPePerst_keeps (s : State) : ∃ u, execPePerst s = .next (close s u) ∧ Keeps execPePerst_may s u := by
  refine ⟨_, rfl, ?_⟩
  extract_lets +onlyGivenNames x0
  have h0 : Keeps execPePerst_may s x0 := Keeps.step (Keeps.refl _ _) (endpointReset_keeps ..) (by decide)
  clear_value x0
  exact Keeps.clk h0 (by decide)

theorem execPePerstRelease_keeps (s : State) : ∃ u, execPePerstRelease s = .next (close s u) ∧ Keeps [.clk] s u := by
  refine ⟨_, rfl, ?_⟩
  exact Keeps.clk (Keeps.refl _ _) (by decide)

theorem ringCtrlWrite_keeps (s : State) (n : Nat) (w : Word) : Keeps [.regs, .rings] s (ringCtrlWrite s n w) := by
  unfold ringCtrlWrite
  extract_lets +onlyGivenNames _
  extract_lets +onlyGivenNames _
  refine Keeps.ite ?_ ?_
  · refine Keeps.ite (Keeps.step (Keeps.refl _ _) (ringErr_keeps ..) (by decide)) ?_
    exact Keeps.ite (Keeps.refl _ _) (Keeps.step (Keeps.refl _ _) (disableRing_keeps ..) (by decide))
  refine Keeps.ite ?_ ?_
  · refine Keeps.ite (Keeps.step (Keeps.refl _ _) (enableRing_keeps ..) (by decide)) ?_
    exact Keeps.step (Keeps.step (Keeps.refl _ _) (rset_keeps ..) (by decide)) (ringErr_keeps ..) (by decide)
  exact Keeps.step (Keeps.refl _ _) (rset_keeps ..) (by decide)

theorem execRingDisable_keeps (n : Fin 64) (v : Word) (s : State) : ∃ u, execRingDisable n v s = .next (close s u) ∧ Keeps
    [.regs, .rings] s u := by
  refine ⟨_, rfl, ?_⟩
  refine Keeps.reached (Keeps.refl _ _) (fun _ h0 => ?_)
  exact Keeps.step h0 (ringCtrlWrite_keeps ..) (by decide)

theorem execRingEnable_keeps (n : Fin 64) (v : Word) (s : State) : ∃ u, execRingEnable n v s = .next (close s u) ∧ Keeps
    [.regs, .rings] s u := by
  refine ⟨_, rfl, ?_⟩
  refine Keeps.reached (Keeps.refl _ _) (fun _ h0 => ?_)
  exact Keeps.step h0 (ringCtrlWrite_keeps ..) (by decide)

theorem verWrite_keeps (s : State) (v : Word) : Keeps [.regs] s (verWrite s v) := by
  unfold verWrite
  refine Keeps.ite (Keeps.step (Keeps.refl _ _) (ror_keeps ..) (by decide)) ?_
  exact Keeps.step (Keeps.step (Keeps.refl _ _) (rset_keeps ..) (by decide)) (rset_keeps ..) (by decide)

theorem execRngVerHost_keeps (v : Word) (s : State) : ∃ u, execRngVerHost v s = .next (close s u) ∧ Keeps [.regs] s u := by
  refine ⟨_, rfl, ?_⟩
  refine Keeps.reached (Keeps.refl _ _) (fun _ h0 => ?_)
  exact Keeps.step h0 (verWrite_keeps ..) (by decide)

theorem tailWrite_keeps (s : State) (n : Nat) (v : Word) : Keeps [.regs, .rings] s (tailWrite s n v) := by
  unfold tailWrite
  extract_lets +onlyGivenNames _
  extract_lets +onlyGivenNames _
  extract_lets +onlyGivenNames _
  refine Keeps.ite (Keeps.step (Keeps.refl _ _) (ringErr_keeps ..) (by decide)) ?_
  extract_lets +onlyGivenNames x3
  have h3 : Keeps [.regs, .rings] s x3 := Keeps.step (Keeps.refl _ _) (modRing_keeps ..) (by decide)
  clear_value x3
  extract_lets +onlyGivenNames _
  exact Keeps.step h3 (modRing_keeps ..) (by decide)

theorem execSqTail_keeps (n : Fin 64) (v : Word) (s : State) : ∃ u, execSqTail n v s = .next (close s u) ∧ Keeps [.regs,
    .rings] s u := by
  refine ⟨_, rfl, ?_⟩
  refine Keeps.reached (Keeps.refl _ _) (fun _ h0 => ?_)
  exact Keeps.step h0 (tailWrite_keeps ..) (by decide)

theorem execWatchReport_keeps (p : BitVec 16) (q : Fin 17) (s : State) :
    ∃ u, execWatchReport p q s = .next (close s u) ∧ Keeps [.evq, .watches] s u := by
  refine ⟨_, rfl, ?_⟩
  refine Keeps.watches ?_ (by decide)
  refine Keeps.foldl_fst (Keeps.refl _ _) fun q a h => ?_
  exact h.step (closeInterval_keeps ..) (by decide)

theorem ringSetupWrite_keeps (s : State) (n : Nat) (o : Nat) (v : Word) : Keeps [.regs] s (ringSetupWrite s n o v) := by
  unfold ringSetupWrite
  refine Keeps.ite (Keeps.ite (Keeps.refl _ _) (Keeps.step (Keeps.refl _ _) (ringErr_keeps ..) (by decide))) ?_
  exact Keeps.step (Keeps.refl _ _) (rset_keeps ..) (by decide)

end Sys2Proof.Laws
end

