-- ==== Sys2Proof/Laws/KeepsRtcOps.lean ====
section
/-! SUPPORT. For every operation of Machine/RtcOps.lean: the pieces of the state it may change; every other piece is exactly
what it was. -/

namespace Sys2Proof.Laws

open Machine

theorem batDone_keeps (s : State) (v : Nat) : Keeps [.regs, .evq, .rtc] s (batDone s v) := by
  unfold batDone
  extract_lets +onlyGivenNames _
  extract_lets +onlyGivenNames _
  extract_lets +onlyGivenNames -merge -useContext _ x2
  have h2 : Keeps [.regs, .evq, .rtc] s x2 := Keeps.rtc (Keeps.refl _ _) (by decide)
  clear_value x2
  exact Keeps.ite (Keeps.step h2 (rtcEvent_keeps ..) (by decide)) h2

theorem batStart_keeps (s : State) : Keeps [.rtc] s (batStart s) := by
  unfold batStart
  exact Keeps.rtc (Keeps.refl _ _) (by decide)

theorem countWrite_keeps (s : State) (c : Nat) : Keeps [.regs, .evq, .rtc] s (countWrite s c) := by
  unfold countWrite
  refine Keeps.ite (Keeps.rtc (Keeps.refl _ _) (by decide)) ?_
  exact Keeps.step (Keeps.refl _ _) (rtcEvent_keeps ..) (by decide)

theorem execBatteryMeasure_keeps (hourly : Bool) (s : State) : ∃ u, execBatteryMeasure hourly s = .next (close s u) ∧ Keeps
    [.rtc] s u := by
  refine ⟨_, rfl, ?_⟩
  refine Keeps.ite (Keeps.ite (Keeps.step (Keeps.refl _ _) (batStart_keeps ..) (by decide)) (Keeps.refl _ _)) ?_
  refine Keeps.reached (Keeps.refl _ _) (fun _ h0 => ?_)
  exact Keeps.step h0 (batStart_keeps ..) (by decide)

theorem execBatteryMeasureDone_keeps (v : BitVec 10) (s : State) : ∃ u, execBatteryMeasureDone v s = .next (close s u) ∧ Keeps
    [.regs, .evq, .rtc] s u := by
  refine ⟨_, rfl, ?_⟩
  exact Keeps.ite (Keeps.step (Keeps.refl _ _) (batDone_keeps ..) (by decide)) (Keeps.refl _ _)

theorem execCdExpired_keeps (s : State) : ∃ u, execCdExpired s = .next (close s u) ∧ Keeps [.regs, .evq, .rtc] s u := by
  refine ⟨_, rfl, ?_⟩
  exact Keeps.ite (Keeps.step (Keeps.refl _ _) (cdExpire_keeps ..) (by decide)) (Keeps.refl _ _)

theorem execOptimeSave_keeps (s : State) : ∃ u, execOptimeSave s = .next (close s u) ∧ Keeps [.rtc] s u := by
  refine ⟨_, rfl, ?_⟩
  exact Keeps.ite (Keeps.step (Keeps.refl _ _) (saveOptime_keeps ..) (by decide)) (Keeps.refl _ _)

theorem execOscStop_keeps (s : State) : ∃ u, execOscStop s = .next (close s u) ∧ Keeps [.regs, .evq, .rtc] s u := by
  refine ⟨_, rfl, ?_⟩
  exact Keeps.step (Keeps.refl _ _) (oscStop_keeps ..) (by decide)

theorem execRecordDrop_keeps (s : State) : ∃ u, execRecordDrop s = .next (close s u) ∧ Keeps [.regs, .rings, .evq, .recq,
    .recLost, .recLostCls, .msixPend, .out] s u := by
  refine ⟨_, rfl, ?_⟩
  exact Keeps.ite (Keeps.step (Keeps.refl _ _) (flushEvents_keeps ..) (by decide)) (Keeps.refl _ _)

theorem execRecordWrite_keeps (s : State) : ∃ u, execRecordWrite s = .next (close s u) ∧ Keeps [.regs, .rings, .evq, .recq,
    .recSlots, .recNext, .recLost, .recLostCls, .msixPend, .out] s u := by
  refine ⟨_, rfl, ?_⟩
  exact Keeps.step (Keeps.step (Keeps.refl _ _) (flushEvents_keeps ..) (by decide)) (recorderStep_keeps ..) (by decide)

theorem rtcDomainReset_keeps (s : State) : Keeps [.regs, .lowHeld, .rtc] s (rtcDomainReset s) := by
  unfold rtcDomainReset
  extract_lets +onlyGivenNames -merge -useContext _ _
  extract_lets +onlyGivenNames _
  extract_lets +onlyGivenNames x2
  have h2 : Keeps [.regs, .lowHeld, .rtc] s x2 := Keeps.step (Keeps.step (Keeps.rtc (Keeps.refl _ _) (by decide)) (rset_keeps
      ..) (by decide))
      (rset_keeps ..) (by decide)
  clear_value x2
  exact Keeps.lowHeld h2 (by decide)

theorem execRetentionLost_keeps (s : State) : ∃ u, execRetentionLost s = .next (close s u) ∧ Keeps [.regs, .lowHeld, .evq,
    .rtc] s u := by
  refine ⟨_, rfl, ?_⟩
  extract_lets +onlyGivenNames _
  extract_lets +onlyGivenNames x1
  have h1 : Keeps [.regs, .lowHeld, .evq, .rtc] s x1 := Keeps.step (Keeps.refl _ _) (rtcDomainReset_keeps ..) (by decide)
  clear_value x1
  exact Keeps.ite (Keeps.step h1 (rtcEvent_keeps ..) (by decide)) h1

theorem execRtcCdWrite_keeps (v : Word) (s : State) : ∃ u, execRtcCdWrite v s = .next (close s u) ∧ Keeps [.rtc] s u := by
  refine ⟨_, rfl, ?_⟩
  refine Keeps.reached (Keeps.refl _ _) (fun _ h0 => ?_)
  exact Keeps.rtc h0 (by decide)

theorem execRtcCountWrite_keeps (c : BitVec 48) (s : State) : ∃ u, execRtcCountWrite c s = .next (close s u) ∧ Keeps [.regs,
    .evq, .rtc] s u := by
  refine ⟨_, rfl, ?_⟩
  refine Keeps.reached (Keeps.refl _ _) (fun _ h0 => ?_)
  exact Keeps.step h0 (countWrite_keeps ..) (by decide)

theorem rtcCtrlWrite_keeps (s : State) (halt : Bool) (add : Bool) (reload : Bool) : Keeps [.rtc] s (rtcCtrlWrite s halt add
    reload) := by
  unfold rtcCtrlWrite
  extract_lets +onlyGivenNames -merge -useContext _ _
  exact Keeps.rtc (Keeps.refl _ _) (by decide)

theorem execRtcHalt_keeps (reload : Bool) (s : State) : ∃ u, execRtcHalt reload s = .next (close s u) ∧ Keeps [.rtc] s u := by
  refine ⟨_, rfl, ?_⟩
  refine Keeps.reached (Keeps.refl _ _) (fun _ h0 => ?_)
  exact Keeps.step h0 (rtcCtrlWrite_keeps ..) (by decide)

theorem execRtcResume_keeps (reload : Bool) (s : State) : ∃ u, execRtcResume reload s = .next (close s u) ∧ Keeps [.rtc] s u :=
    by
  refine ⟨_, rfl, ?_⟩
  refine Keeps.reached (Keeps.refl _ _) (fun _ h0 => ?_)
  exact Keeps.step h0 (rtcCtrlWrite_keeps ..) (by decide)

theorem execRtcResumeAdd_keeps (reload : Bool) (s : State) : ∃ u, execRtcResumeAdd reload s = .next (close s u) ∧ Keeps [.rtc]
    s u := by
  refine ⟨_, rfl, ?_⟩
  refine Keeps.reached (Keeps.refl _ _) (fun _ h0 => ?_)
  exact Keeps.step h0 (rtcCtrlWrite_keeps ..) (by decide)

end Sys2Proof.Laws
end

