-- ==== Sys2Proof/Laws/KeepsBus.lean ====
section
/-! SUPPORT. For every operation of Machine/Bus.lean: the pieces of the state it may change; every other piece is exactly
what it was. -/

namespace Sys2Proof.Laws

open Machine

theorem wakeFor_keeps (s : State) (off : Nat) : Keeps [.clk] s (wakeFor s off) := by
  unfold wakeFor
  split
  · exact Keeps.refl _ _
  · exact Keeps.clk (Keeps.refl _ _) (by decide)

theorem Keeps.access {may : List Piece} {s t : State} {g : Target} {o : Nat} {w : Bool} {f k : State → State}
    (h : Keeps may s t) (hf : ∀ u, Keeps may s u → Keeps may s (f u)) (hk : ∀ u, Keeps may s u → Keeps may s (k u))
    (ha : [.regs, .clk, .evq, .sec] ⊆ may) : Keeps may s (Machine.access t g o w f k) := by
  unfold Machine.access
  split
  · exact hk t h
  split
  · exact hf _ (h.step ((wakeFor_keeps ..).mono (b := [.regs, .clk, .evq, .sec]) (by decide)) ha)
  · exact hk _ (h.step ((worldViol_keeps ..).mono (b := [.regs, .clk, .evq, .sec]) (by decide)) ha)

theorem afterRead_keeps (s : State) (off : Nat) : Keeps [.latch] s (afterRead s off) := by
  unfold afterRead
  refine Keeps.forAll (Keeps.latch (Keeps.refl _ _) (by decide)) fun _ _ h0 => ?_
  exact Keeps.latch h0 (by decide)

theorem barRead_keeps (s : State) (t : Target) (off : Nat) : Keeps [.regs, .latch, .clk, .evq, .sec, .out] s (barRead s t off)
    := by
  unfold barRead
  refine Keeps.access ?_ (fun u0 h0 => ?_) (fun u0 h0 => ?_) (by decide)
  · exact Keeps.refl _ _
  · exact Keeps.step (Keeps.step h0 (afterRead_keeps ..) (by decide)) (emit_keeps ..) (by decide)
  exact Keeps.step h0 (emit_keeps ..) (by decide)

theorem lceWrite_keeps (s : State) (o : Nat) (v : Word) : Keeps [.regs, .evq, .lce] s (lceWrite s o v) := by
  unfold lceWrite
  refine Keeps.ite ?_ ?_
  · refine Keeps.ite ?_ ?_
    · refine Keeps.unlessStandby ?_ (fun _ h0 => ?_) (by decide)
      · exact Keeps.refl _ _
      exact Keeps.step h0 (lceRequest_keeps ..) (by decide)
    exact Keeps.refl _ _
  exact Keeps.step (Keeps.refl _ _) (rwrite_keeps ..) (by decide)

theorem pairWrite_keeps (s : State) (hi : Nat) (v : Word) : Keeps [.regs, .lowHeld] s (pairWrite s hi v) := by
  unfold pairWrite
  exact Keeps.step (Keeps.step (Keeps.lowHeld (Keeps.refl _ _) (by decide)) (rwrite_keeps ..) (by decide)) (rwrite_keeps ..)
      (by decide)

theorem phcWrite_keeps (s : State) (o : Nat) (v : Word) : Keeps [.regs, .phc, .evq] s (phcWrite s o v) := by
  unfold phcWrite
  refine Keeps.ite ?_ ?_
  · refine Keeps.ite ?_ ?_
    · refine Keeps.unlessStandby ?_ (fun _ h0 => ?_) (by decide)
      · exact Keeps.refl _ _
      exact Keeps.step h0 (phcRequest_keeps ..) (by decide)
    exact Keeps.refl _ _
  exact Keeps.step (Keeps.refl _ _) (rwrite_keeps ..) (by decide)

theorem rtcWrite_keeps (s : State) (o : Nat) (v : Word) : Keeps [.regs, .lowHeld, .evq, .rtc] s (rtcWrite s o v) := by
  unfold rtcWrite
  refine Keeps.ite (Keeps.step (Keeps.refl _ _) (rtcCtrlWrite_keeps ..) (by decide)) ?_
  refine Keeps.ite (Keeps.step (Keeps.lowHeld (Keeps.refl _ _) (by decide)) (countWrite_keeps ..) (by decide)) ?_
  refine Keeps.ite (Keeps.rtc (Keeps.refl _ _) (by decide)) ?_
  refine Keeps.ite (Keeps.ite (Keeps.step (Keeps.refl _ _) (batStart_keeps ..) (by decide)) (Keeps.refl _ _)) ?_
  exact Keeps.step (Keeps.refl _ _) (rwrite_keeps ..) (by decide)

theorem twnWrite_keeps (s : State) (o : Nat) (v : Word) : Keeps [.regs, .twn] s (twnWrite s o v) := by
  unfold twnWrite
  refine Keeps.ite (Keeps.step (Keeps.step (Keeps.step (Keeps.refl _ _) (rwrite_keeps ..) (by decide)) (noteMirror_keeps ..)
      (by decide)) (refreshPair_keeps ..) (by decide)) ?_
  refine Keeps.ite ?_ ?_
  · refine Keeps.ite (Keeps.step (Keeps.step (Keeps.refl _ _) (rwrite_keeps ..) (by decide)) (noteMirror_keeps ..) (by decide))
      ?_
    exact Keeps.refl _ _
  exact Keeps.step (Keeps.refl _ _) (rwrite_keeps ..) (by decide)

theorem glbWrite_keeps (s : State) (o : Nat) (v : Word) : Keeps [.regs, .evq, .twn] s (glbWrite s o v) := by
  unfold glbWrite
  refine Keeps.ite ?_ ?_
  · refine Keeps.ite (Keeps.refl _ _) ?_
    exact Keeps.step (Keeps.step (Keeps.refl _ _) (rwrite_keeps ..) (by decide)) (noteMirror_keeps ..) (by decide)
  refine Keeps.ite (Keeps.step (Keeps.refl _ _) (partRequest_keeps ..) (by decide)) ?_
  refine Keeps.ite (Keeps.step (Keeps.refl _ _) (lcRequest_keeps ..) (by decide)) ?_
  exact Keeps.step (Keeps.refl _ _) (rwrite_keeps ..) (by decide)

theorem clkWrite_keeps (s : State) (o : Nat) (v : Word) : Keeps [.regs, .clk, .rings, .msixPend, .can, .out] s (clkWrite s o v)
    := by
  unfold clkWrite
  refine Keeps.ite (Keeps.step (Keeps.refl _ _) (srcWrite_keeps ..) (by decide)) ?_
  refine Keeps.ite (Keeps.step (Keeps.refl _ _) (gateRunWrite_keeps ..) (by decide)) ?_
  refine Keeps.ite (Keeps.step (Keeps.refl _ _) (fmWrite_keeps ..) (by decide)) ?_
  exact Keeps.step (Keeps.refl _ _) (rwrite_keeps ..) (by decide)

theorem updCtrlWrite_keeps (s : State) (v : Word) : Keeps [.regs] s (updCtrlWrite s v) := by
  unfold updCtrlWrite
  extract_lets +onlyGivenNames _
  extract_lets +onlyGivenNames _
  extract_lets +onlyGivenNames _
  exact Keeps.step (Keeps.refl _ _) (rwrite_keeps ..) (by decide)

abbrev updCmdWrite_may : List Piece := [.regs, .pts, .hold, .phc, .clk, .banks, .ch, .rings, .evq, .recq, .recLost,
    .recLostCls, .msixPend, .can, .lce, .ble, .twn, .upd, .out]

theorem updCmdWrite_keeps (s : State) (v : Word) : Keeps updCmdWrite_may s (updCmdWrite s v) := by
  unfold updCmdWrite
  extract_lets +onlyGivenNames x0
  have h0 : Keeps updCmdWrite_may s x0 := Keeps.ite (Keeps.step (Keeps.refl _ _) (installCmd_keeps ..) (by decide)) (Keeps.refl
      _ _)
  clear_value x0
  extract_lets +onlyGivenNames x1
  have h1 : Keeps updCmdWrite_may s x1 := Keeps.ite (Keeps.step h0 (fallbackCmd_keeps ..) (by decide)) h0
  clear_value x1
  exact Keeps.ite (Keeps.step h1 (cartInstallCmd_keeps ..) (by decide)) h1

theorem updWrite_keeps (s : State) (o : Nat) (v : Word) : Keeps [.regs, .pts, .hold, .phc, .clk, .banks, .ch, .rings, .evq,
    .recq, .recLost, .recLostCls, .msixPend, .can, .lce, .ble, .twn, .upd, .out] s (updWrite s o v) := by
  unfold updWrite
  refine Keeps.ite (Keeps.step (Keeps.refl _ _) (updCtrlWrite_keeps ..) (by decide)) ?_
  refine Keeps.ite (Keeps.step (Keeps.refl _ _) (updCmdWrite_keeps ..) (by decide)) ?_
  exact Keeps.step (Keeps.refl _ _) (rwrite_keeps ..) (by decide)

theorem msixWrite_keeps (s : State) (k : Nat) (v : Word) : Keeps [.msix, .msixPend, .out] s (msixWrite s k v) := by
  unfold msixWrite
  extract_lets +onlyGivenNames x0
  have h0 : Keeps [.msix, .msixPend, .out] s x0 := Keeps.msix (Keeps.refl _ _) (by decide)
  clear_value x0
  extract_lets +onlyGivenNames _
  extract_lets +onlyGivenNames _
  exact Keeps.ite (Keeps.step (Keeps.msixPend h0 (by decide)) (emit_keeps ..) (by decide)) h0

theorem ringBaseWrite_keeps (s : State) (n : Nat) (q : Nat) (v : Word) : Keeps [.regs, .lowHeld] s (ringBaseWrite s n q v) := by
  unfold ringBaseWrite
  extract_lets +onlyGivenNames _
  extract_lets +onlyGivenNames _
  extract_lets +onlyGivenNames x2
  have h2 : Keeps [.regs, .lowHeld] s x2 := Keeps.lowHeld (Keeps.refl _ _) (by decide)
  clear_value x2
  refine Keeps.ite (Keeps.ite h2 (Keeps.step h2 (ringErr_keeps ..) (by decide))) ?_
  exact Keeps.step (Keeps.step h2 (rset_keeps ..) (by decide)) (rset_keeps ..) (by decide)

theorem ringWrite_keeps (s : State) (n : Nat) (q : Nat) (v : Word) : Keeps [.regs, .lowHeld, .rings] s (ringWrite s n q v) := by
  unfold ringWrite
  refine Keeps.ite (Keeps.step (Keeps.refl _ _) (ringCtrlWrite_keeps ..) (by decide)) ?_
  refine Keeps.ite (Keeps.step (Keeps.refl _ _) (ringBaseWrite_keeps ..) (by decide)) ?_
  refine Keeps.ite (Keeps.step (Keeps.refl _ _) (ringSetupWrite_keeps ..) (by decide)) ?_
  exact Keeps.step (Keeps.refl _ _) (rwrite_keeps ..) (by decide)

theorem rngWrite_keeps (s : State) (o : Nat) (v : Word) : Keeps [.regs, .lowHeld, .rings, .msix, .msixPend, .out] s (rngWrite s
    o v) := by
  unfold rngWrite
  refine Keeps.ite (Keeps.step (Keeps.refl _ _) (verWrite_keeps ..) (by decide)) ?_
  refine Keeps.ite (Keeps.step (Keeps.refl _ _) (ringWrite_keeps ..) (by decide)) ?_
  refine Keeps.ite (Keeps.step (Keeps.refl _ _) (msixWrite_keeps ..) (by decide)) ?_
  exact Keeps.step (Keeps.refl _ _) (rwrite_keeps ..) (by decide)

theorem mtrWrite_keeps (s : State) (o : Nat) (v : Word) : Keeps [.regs, .mtr] s (mtrWrite s o v) := by
  unfold mtrWrite
  refine Keeps.ite (Keeps.step (Keeps.refl _ _) (openCmd_keeps ..) (by decide)) ?_
  refine Keeps.ite (Keeps.step (Keeps.refl _ _) (secCmd_keeps ..) (by decide)) ?_
  exact Keeps.step (Keeps.refl _ _) (rwrite_keeps ..) (by decide)

theorem bnkWrite_keeps (s : State) (b : Nat) (o : Nat) (v : Word) : Keeps [.regs, .pts, .banks, .ch, .evq, .can, .ble] s
    (bnkWrite s b o v) := by
  unfold bnkWrite
  refine Keeps.ite (Keeps.refl _ _) ?_
  refine Keeps.ite ?_ ?_
  · refine Keeps.ite ?_ ?_
    · refine Keeps.unlessStandby ?_ (fun _ h0 => ?_) (by decide)
      · exact Keeps.refl _ _
      exact Keeps.step h0 (bankRequest_keeps ..) (by decide)
    exact Keeps.refl _ _
  refine Keeps.ite (Keeps.ite (Keeps.step (Keeps.refl _ _) (addCause_keeps ..) (by decide)) (Keeps.refl _ _)) ?_
  refine Keeps.ite ?_ ?_
  · refine Keeps.ite (Keeps.step (Keeps.step (Keeps.refl _ _) (dropCause_keeps ..) (by decide)) (releaseMet_keeps ..) (by
      decide)) ?_
    exact Keeps.refl _ _
  exact Keeps.step (Keeps.refl _ _) (rwrite_keeps ..) (by decide)

theorem secWrite_keeps (s : State) (o : Nat) (v : Word) : Keeps [.sec] s (secWrite s o v) := by
  unfold secWrite
  refine Keeps.ite (Keeps.refl _ _) ?_
  refine Keeps.ite (Keeps.sec (Keeps.refl _ _) (by decide)) ?_
  refine Keeps.ite ?_ ?_
  · extract_lets +onlyGivenNames _
    exact Keeps.sec (Keeps.refl _ _) (by decide)
  exact Keeps.refl _ _

theorem regWrite_keeps (s : State) (off : Nat) (v : Word) : Keeps [.regs, .lowHeld, .pts, .hold, .phc, .clk, .banks, .ch,
    .rings, .evq, .recq, .recLost, .recLostCls, .rtc, .msix, .msixPend, .ptp, .eth, .can, .mtr, .lce, .ble, .twn, .sec, .upd,
    .out] s (regWrite s off v) := by
  unfold regWrite
  extract_lets +onlyGivenNames x0
  clear_value x0
  refine Keeps.ite ?_ ?_
  · refine Keeps.ite (Keeps.step (Keeps.refl _ _) (ringErr_keeps ..) (by decide)) ?_
    exact Keeps.lowHeld (Keeps.refl _ _) (by decide)
  refine Keeps.ite (Keeps.step (Keeps.refl _ _) (pairWrite_keeps ..) (by decide)) ?_
  split
  · exact Keeps.step (Keeps.refl _ _) (glbWrite_keeps ..) (by decide)
  · exact Keeps.step (Keeps.refl _ _) (clkWrite_keeps ..) (by decide)
  · exact Keeps.step (Keeps.refl _ _) (phcWrite_keeps ..) (by decide)
  · exact Keeps.step (Keeps.refl _ _) (bnkWrite_keeps ..) (by decide)
  · exact Keeps.step (Keeps.refl _ _) (lceWrite_keeps ..) (by decide)
  · exact Keeps.step (Keeps.refl _ _) (rwrite_keeps ..) (by decide)
  · exact Keeps.step (Keeps.refl _ _) (mtrWrite_keeps ..) (by decide)
  · exact Keeps.step (Keeps.refl _ _) (twnWrite_keeps ..) (by decide)
  · exact Keeps.step (Keeps.refl _ _) (rngWrite_keeps ..) (by decide)
  · exact Keeps.step (Keeps.refl _ _) (ethWrite_keeps ..) (by decide)
  · exact Keeps.step (Keeps.refl _ _) (canWrite_keeps ..) (by decide)
  · exact Keeps.step (Keeps.refl _ _) (rtcWrite_keeps ..) (by decide)
  · exact Keeps.step (Keeps.refl _ _) (secWrite_keeps ..) (by decide)
  · exact Keeps.step (Keeps.refl _ _) (updWrite_keeps ..) (by decide)
  · exact Keeps.refl _ _

theorem barWrite_keeps (s : State) (t : Target) (off : Nat) (v : Word) : Keeps [.regs, .lowHeld, .pts, .hold, .phc, .clk,
    .banks, .ch, .rings, .evq, .recq, .recLost, .recLostCls, .rtc, .msix, .msixPend, .ptp, .eth, .can, .mtr, .lce, .ble, .twn,
    .sec, .upd, .out] s (barWrite s t off v) := by
  unfold barWrite
  refine Keeps.access ?_ (fun u0 h0 => ?_) (fun u0 h0 => ?_) (by decide)
  · exact Keeps.refl _ _
  · exact Keeps.step h0 (regWrite_keeps ..) (by decide)
  exact h0

theorem bellWrite_keeps (s : State) (off : Nat) (v : Word) : Keeps [.regs, .clk, .rings, .msixPend, .out] s (bellWrite s off v)
    := by
  unfold bellWrite
  extract_lets +onlyGivenNames _
  refine Keeps.ite ?_ ?_
  · refine Keeps.ite (Keeps.step (Keeps.step (Keeps.refl _ _) (wakeFor_keeps ..) (by decide)) (tailWrite_keeps ..) (by decide))
      ?_
    refine Keeps.ite (Keeps.step (Keeps.step (Keeps.refl _ _) (wakeFor_keeps ..) (by decide)) (headWrite_keeps ..) (by decide))
        ?_
    exact Keeps.step (Keeps.refl _ _) (wakeFor_keeps ..) (by decide)
  exact Keeps.refl _ _

abbrev configWrite_may : List Piece := [.regs, .phc, .rings, .watches, .busMaster, .memEnable, .ble]

theorem configWrite_keeps (s : State) (off : Nat) (v : Nat) : Keeps configWrite_may s (configWrite s off v) := by
  unfold configWrite
  refine Keeps.ite ?_ ?_
  · extract_lets +onlyGivenNames x0
    have h0 : Keeps configWrite_may s x0 := Keeps.memEnable (Keeps.refl _ _) (by decide)
    clear_value x0
    refine Keeps.ite (Keeps.busMaster h0 (by decide)) ?_
    exact Keeps.ite (Keeps.step h0 (clearBusMaster_keeps ..) (by decide)) h0
  exact Keeps.refl _ _

theorem execLatchedRead_keeps (t : Target) (off : Nat) (width : Nat) (s : State) : ∃ u, execLatchedRead t off width s = .next
    (close s u) ∧ Keeps [.regs, .latch, .clk, .evq, .sec, .out] s u := by
  refine ⟨_, rfl, ?_⟩
  refine Keeps.ite (Keeps.refl _ _) ?_
  split
  · exact Keeps.step (Keeps.refl _ _) (emit_keeps ..) (by decide)
  · exact Keeps.step (Keeps.refl _ _) (emit_keeps ..) (by decide)
  · refine Keeps.ite (Keeps.step (Keeps.refl _ _) (barRead_keeps ..) (by decide)) ?_
    refine Keeps.ite (Keeps.step (Keeps.step (Keeps.refl _ _) (barRead_keeps ..) (by decide)) (barRead_keeps ..) (by decide)) ?_
    exact Keeps.step (Keeps.refl _ _) (emit_keeps ..) (by decide)

theorem execRegisterWrite_keeps (t : Target) (off : Nat) (width : Nat) (value : Nat) (s : State) : ∃ u, execRegisterWrite t off
    width value s = .next (close s u) ∧ Keeps [.regs, .lowHeld, .pts, .hold, .phc, .clk, .banks, .ch, .rings, .evq, .recq,
    .recLost, .recLostCls, .watches, .rtc, .msix, .msixPend, .busMaster, .memEnable, .ptp, .eth, .can, .mtr, .lce, .ble, .twn,
    .sec, .upd, .out] s u := by
  refine ⟨_, rfl, ?_⟩
  refine Keeps.ite (Keeps.refl _ _) ?_
  split
  · exact Keeps.step (Keeps.refl _ _) (configWrite_keeps ..) (by decide)
  · exact Keeps.ite (Keeps.step (Keeps.refl _ _) (bellWrite_keeps ..) (by decide)) (Keeps.refl _ _)
  · refine Keeps.ite (Keeps.step (Keeps.refl _ _) (barWrite_keeps ..) (by decide)) ?_
    refine Keeps.ite (Keeps.step (Keeps.step (Keeps.refl _ _) (barWrite_keeps ..) (by decide)) (barWrite_keeps ..) (by decide))
        ?_
    exact Keeps.refl _ _

end Sys2Proof.Laws
end

