-- ==== Sys2Proof/Laws/KeepsRingExec.lean ====
section
/-! SUPPORT. For every operation of Machine/RingExec.lean: the pieces of the state it may change; every other piece is exactly
what it was. -/

namespace Sys2Proof.Laws

open Machine

theorem takePayload_keeps (s : State) (f : Flight) (pay : List Word) (readOk : Bool) : Keeps [.regs, .evq] s (takePayload s f
    pay readOk).1 := by
  unfold takePayload
  refine Keeps.ite_fst (Keeps.refl _ _) ?_
  refine Keeps.ite_fst (Keeps.refl _ _) ?_
  extract_lets +onlyGivenNames _
  extract_lets +onlyGivenNames _
  exact Keeps.ite_fst (Keeps.refl _ _) (Keeps.step (Keeps.refl _ _) (poison_keeps ..) (by decide))

theorem classifyDesc_keeps (s : State) (n : Nat) (f : Flight) (pay : List Word) (readOk : Bool) : Keeps [.regs, .rings, .evq] s
    (classifyDesc s n f pay readOk).1 := by
  unfold classifyDesc
  extract_lets +onlyGivenNames x0
  clear_value x0
  extract_lets +onlyGivenNames x1
  clear_value x1
  extract_lets +onlyGivenNames _
  refine Keeps.ite_fst ?_ ?_
  · refine Keeps.ite_fst (Keeps.refl _ _) ?_
    extract_lets +onlyGivenNames x3
    have h3 : Keeps [.regs, .rings, .evq] s x3 := Keeps.ite (Keeps.refl _ _) (Keeps.step (Keeps.refl _ _) (poison_keeps ..) (by
        decide))
    clear_value x3
    exact Keeps.step h3 (modRing_keeps ..) (by decide)
  refine Keeps.ite_fst (Keeps.step (Keeps.refl _ _) (poison_keeps ..) (by decide)) ?_
  refine Keeps.ite_fst (Keeps.refl _ _) ?_
  refine Keeps.ite_fst (Keeps.refl _ _) ?_
  extract_lets +onlyGivenNames x4
  have h4 : Keeps [.regs, .rings, .evq] s x4 := Keeps.step (Keeps.refl _ _) (modRing_keeps ..) (by decide)
  clear_value x4
  refine Keeps.ite_fst h4 ?_
  split
  · exact h4
  · exact Keeps.step h4 (takePayload_keeps ..) (by decide)

theorem fetch_keeps (s : State) (n : Nat) (words : List Word) (pay : List Word) (readOk : Bool) : Keeps [.regs, .rings, .evq] s
    (fetch s n words pay readOk) := by
  unfold fetch
  extract_lets +onlyGivenNames _
  extract_lets +onlyGivenNames _
  extract_lets +onlyGivenNames _
  extract_lets +onlyGivenNames _
  extract_lets +onlyGivenNames _
  extract_lets +onlyGivenNames x5
  have h5 : Keeps [.regs, .rings, .evq] s x5 := Keeps.step (Keeps.refl _ _) (modRing_keeps ..) (by decide)
  clear_value x5
  extract_lets +onlyGivenNames x6
  have h6 : Keeps [.regs, .rings, .evq] s x6.1 := Keeps.step h5 (classifyDesc_keeps ..) (by decide)
  clear_value x6
  exact Keeps.step h6 (modRing_keeps ..) (by decide)

theorem execDescriptorFetch_keeps (n : Fin 64) (words : List Word) (pay : List Word) (s : State) : ∃ u, execDescriptorFetch n
    words pay s = .next (close s u) ∧ Keeps [.regs, .rings, .evq] s u := by
  refine ⟨_, rfl, ?_⟩
  exact Keeps.ite (Keeps.step (Keeps.refl _ _) (fetch_keeps ..) (by decide)) (Keeps.refl _ _)

theorem execDmaTimeout_keeps (n : Fin 64) (words : List Word) (s : State) : ∃ u, execDmaTimeout n words s = .next (close s u) ∧
    Keeps [.regs, .rings, .evq] s u := by
  refine ⟨_, rfl, ?_⟩
  refine Keeps.ite (Keeps.refl _ _) ?_
  refine Keeps.ite ?_ ?_
  · extract_lets +onlyGivenNames _
    exact Keeps.step (Keeps.step (Keeps.refl _ _) (modRing_keeps ..) (by decide)) (ringErr_keeps ..) (by decide)
  exact Keeps.step (Keeps.refl _ _) (fetch_keeps ..) (by decide)

end Sys2Proof.Laws
end

