-- ==== Sys2Proof/Laws/KeepsRingOps.lean ====
section
/-! SUPPORT. For every operation of Machine/RingOps.lean: the pieces of the state it may change; every other piece is exactly
what it was. -/

namespace Sys2Proof.Laws

open Machine

theorem fail_keeps (s : State) (n : Nat) (f : Flight) (status : Nat) (detail : Word) : Keeps [.rings, .msixPend, .out] s (fail
    s n f status detail) := by
  unfold fail
  exact Keeps.step (Keeps.refl _ _) (complete_keeps ..) (by decide)

theorem busFail_keeps (s : State) (n : Nat) (f : Flight) : Keeps [.rings, .msixPend, .free, .out] s (busFail s n f) := by
  unfold busFail
  split
  · refine Keeps.step ?_ (fail_keeps ..) (by decide)
    refine Keeps.of_eq_snd ?_ ‹_›
    exact Keeps.step (Keeps.refl _ _) (takeFree_keeps ..) (by decide)

theorem cfgReadGo_keeps (s : State) (off k : Nat) : Keeps [.latch] s (cfgReadGo s off k).1 := by
  induction k generalizing s off with
  | zero => exact Keeps.refl _ _
  | succ k ih =>
    unfold cfgReadGo
    refine Keeps.trans ?_ (ih _ _)
    exact (Keeps.refl _ _).step (afterRead_keeps ..) (by decide)

theorem cfgRequest_keeps (s : State) (t : Nat) : Keeps [.regs, .phc, .banks, .lce] s (cfgRequest s t) := by
  unfold cfgRequest
  split
  · exact Keeps.step (Keeps.refl _ _) (phcRequest_keeps ..) (by decide)
  · exact Keeps.step (Keeps.refl _ _) (bankRequest_keeps ..) (by decide)
  · exact Keeps.step (Keeps.refl _ _) (lceRequest_keeps ..) (by decide)

theorem ok_keeps (s : State) (n : Nat) (f : Flight) (r0 : Word) (r1 : Word) : Keeps [.rings, .msixPend, .out] s (ok s n f r0
    r1) := by
  unfold ok
  exact Keeps.step (Keeps.refl _ _) (complete_keeps ..) (by decide)

theorem ctrlReset_keeps (s : State) (n : Nat) (f : Flight) : Keeps [.regs, .pts, .hold, .phc, .clk, .banks, .ch, .rings, .evq,
    .recq, .recLost, .recLostCls, .msixPend, .can, .lce, .ble, .twn, .out] s (ctrlReset s n f) := by
  unfold ctrlReset
  exact Keeps.step (Keeps.step (Keeps.refl _ _) (ok_keeps ..) (by decide)) (holdReset_keeps ..) (by decide)

theorem ctrlRestart_keeps (s : State) (n : Nat) (f : Flight) (cold : Bool) : Keeps [.pts, .banks, .rings, .msixPend, .can,
    .lce, .ble, .out] s (ctrlRestart s n f cold) := by
  unfold ctrlRestart
  refine Keeps.ite (Keeps.step (Keeps.refl _ _) (fail_keeps ..) (by decide)) ?_
  split
  · exact Keeps.step (Keeps.refl _ _) (fail_keeps ..) (by decide)
  · exact Keeps.step (Keeps.step (Keeps.refl _ _) (runController_keeps ..) (by decide)) (ok_keeps ..) (by decide)

theorem ctrlStop_keeps (s : State) (n : Nat) (f : Flight) : Keeps [.regs, .pts, .banks, .ch, .rings, .evq, .msixPend, .can,
    .lce, .ble, .twn, .out] s (ctrlStop s n f) := by
  unfold ctrlStop
  exact Keeps.step (Keeps.ite (Keeps.step (Keeps.refl _ _) (stopCtl_keeps ..) (by decide)) (Keeps.refl _ _)) (ok_keeps ..) (by
      decide)

theorem ctrlTaskStart_keeps (s : State) (n : Nat) (f : Flight) (t : Nat) : Keeps [.rings, .msixPend, .ble, .out] s
    (ctrlTaskStart s n f t) := by
  unfold ctrlTaskStart
  refine Keeps.ite (Keeps.step (Keeps.step (Keeps.refl _ _) (setTask_keeps ..) (by decide)) (ok_keeps ..) (by decide)) ?_
  exact Keeps.step (Keeps.refl _ _) (fail_keeps ..) (by decide)

theorem forceSeen_keeps (s : State) (kind : Nat) (obj : Nat) : Keeps [.banks, .ch, .can, .ble, .out] s (forceSeen s kind obj)
    := by
  unfold forceSeen
  refine Keeps.ite ?_ ?_
  · refine Keeps.ite (Keeps.step (Keeps.refl _ _) (commitPoints_keeps ..) (by decide)) ?_
    exact Keeps.ite (Keeps.step (Keeps.refl _ _) (notePoint_keeps ..) (by decide)) (Keeps.refl _ _)
  exact Keeps.refl _ _

theorem dropForces_keeps (s : State) (p : Force → Bool) : Keeps [.banks, .ch, .forces, .can, .ble, .twn, .out] s (dropForces s
    p) := by
  unfold dropForces
  refine Keeps.forAll (Keeps.forces (Keeps.refl _ _) (by decide)) fun _ _ h0 => ?_
  exact Keeps.step (Keeps.step h0 (noteForce_keeps ..) (by decide)) (forceSeen_keeps ..) (by decide)

theorem instFor_keeps {s t : State} {n : Nat} {f : Flight} (h : instFor s n f = .error t) : Keeps [.regs, .rings, .evq, .msixPend, .out] s t := by
  unfold instFor at h
  split at h
  · cases h
    exact (Keeps.refl _ _).step (fail_keeps ..) (by decide)
  split at h
  · cases h
    exact (Keeps.refl _ _).step (refuseAccess_keeps ..) (by decide)
  split at h
  · cases h
    exact (Keeps.refl _ _).step (fail_keeps ..) (by decide)
  split at h
  · cases h
    exact (Keeps.refl _ _).step (fail_keeps ..) (by decide)
  · cases h

theorem setWaiting_keeps (s : State) (n : Nat) (f : Flight) : Keeps [.rings] s (setWaiting s n f) := by
  unfold setWaiting
  exact Keeps.step (Keeps.refl _ _) (modRing_keeps ..) (by decide)

theorem loadEnd_keeps (s : State) (n : Nat) (f : Flight) (b : List Nat) : Keeps [.rings, .msixPend, .ble, .twn, .out] s
    (loadEnd s n f b) := by
  unfold loadEnd
  split
  · exact Keeps.step (Keeps.refl _ _) (fail_keeps ..) (by decide)
  · extract_lets +onlyGivenNames _
    extract_lets +onlyGivenNames -merge -useContext _ x1
    have h1 : Keeps [.rings, .msixPend, .ble, .twn, .out] s x1 := Keeps.ble (Keeps.refl _ _) (by decide)
    try clear_value x1
    refine Keeps.ite (Keeps.step (Keeps.twn h1 (by decide)) (setWaiting_keeps ..) (by decide)) ?_
    exact Keeps.step h1 (ok_keeps ..) (by decide)

theorem output_keeps (s : State) (n : Nat) (f : Flight) (data : List Word) (r0 : Word) (r1 : Word) : Keeps [.rings, .msixPend,
    .out] s (output s n f data r0 r1) := by
  unfold output
  refine Keeps.ite (Keeps.step (Keeps.refl _ _) (fail_keeps ..) (by decide)) ?_
  exact Keeps.step (Keeps.refl _ _) (completeOut_keeps ..) (by decide)

abbrev opCfgRead_may : List Piece := [.latch, .rings, .msixPend, .free, .out]

theorem opCfgRead_keeps (s : State) (n : Nat) (f : Flight) : Keeps opCfgRead_may s (opCfgRead s n f) := by
  unfold opCfgRead
  extract_lets +onlyGivenNames _
  refine Keeps.ite (Keeps.step (Keeps.refl _ _) (busFail_keeps ..) (by decide)) ?_
  extract_lets +onlyGivenNames x1
  have h1 : Keeps opCfgRead_may s x1.1 := Keeps.step (Keeps.refl _ _) (cfgReadGo_keeps ..) (by decide)
  clear_value x1
  exact Keeps.step h1 (output_keeps ..) (by decide)

abbrev opCfgWrite_may : List Piece := [.regs, .lowHeld, .pts, .hold, .phc, .clk, .banks, .ch, .rings, .evq, .recq, .recLost,
    .recLostCls, .rtc, .msix, .msixPend, .ptp, .eth, .can, .mtr, .lce, .ble, .twn, .sec, .upd, .free, .out]

theorem opCfgWrite_keeps (s : State) (n : Nat) (f : Flight) : Keeps opCfgWrite_may s (opCfgWrite s n f) := by
  unfold opCfgWrite
  extract_lets +onlyGivenNames x0
  clear_value x0
  extract_lets +onlyGivenNames x1
  clear_value x1
  split
  · exact Keeps.step (Keeps.refl _ _) (fail_keeps ..) (by decide)
  · refine Keeps.ite (Keeps.step (Keeps.refl _ _) (busFail_keeps ..) (by decide)) ?_
    refine Keeps.ite (Keeps.step (Keeps.refl _ _) (fail_keeps ..) (by decide)) ?_
    extract_lets +onlyGivenNames x2
    have h2 : Keeps opCfgWrite_may s x2 := by
      refine Keeps.forAll (Keeps.refl _ _) fun _ _ h3 => ?_
      exact Keeps.step h3 (regWrite_keeps ..) (by decide)
    clear_value x2
    refine Keeps.ite (Keeps.step (Keeps.step h2 (setWaiting_keeps ..) (by decide)) (cfgRequest_keeps ..) (by decide)) ?_
    exact Keeps.step h2 (ok_keeps ..) (by decide)

theorem opCtrl_keeps (s : State) (n : Nat) (f : Flight) : Keeps [.regs, .pts, .hold, .phc, .clk, .banks, .ch, .rings, .evq,
    .recq, .recLost, .recLostCls, .msixPend, .can, .lce, .ble, .twn, .out] s (opCtrl s n f) := by
  unfold opCtrl
  split
  · exact Keeps.step (Keeps.refl _ _) (ctrlStop_keeps ..) (by decide)
  · exact Keeps.step (Keeps.refl _ _) (ctrlRestart_keeps ..) (by decide)
  · exact Keeps.step (Keeps.refl _ _) (ctrlRestart_keeps ..) (by decide)
  · exact Keeps.step (Keeps.refl _ _) (ctrlTaskStart_keeps ..) (by decide)
  · exact Keeps.step (Keeps.refl _ _) (ctrlReset_keeps ..) (by decide)

theorem opFence_keeps (s : State) (n : Nat) (f : Flight) : Keeps [.rings, .msixPend, .out] s (opFence s n f) := by
  unfold opFence
  extract_lets +onlyGivenNames _
  extract_lets +onlyGivenNames _
  extract_lets +onlyGivenNames _
  extract_lets +onlyGivenNames _
  refine Keeps.ite (Keeps.refl _ _) ?_
  extract_lets +onlyGivenNames _
  exact Keeps.step (Keeps.refl _ _) (ok_keeps ..) (by decide)

theorem opForceList_keeps (s : State) (n : Nat) (f : Flight) : Keeps [.rings, .msixPend, .out] s (opForceList s n f) := by
  unfold opForceList
  extract_lets +onlyGivenNames _
  extract_lets +onlyGivenNames _
  extract_lets +onlyGivenNames _
  exact Keeps.step (Keeps.refl _ _) (output_keeps ..) (by decide)

theorem opForceRelease_keeps (s : State) (n : Nat) (f : Flight) : Keeps [.regs, .banks, .ch, .rings, .evq, .msixPend, .forces,
    .can, .ble, .twn, .out] s (opForceRelease s n f) := by
  unfold opForceRelease
  extract_lets +onlyGivenNames x0
  clear_value x0
  extract_lets +onlyGivenNames x1
  clear_value x1
  refine Keeps.ite (Keeps.step (Keeps.step (Keeps.refl _ _) (dropForces_keeps ..) (by decide)) (ok_keeps ..) (by decide)) ?_
  split
  · exact Keeps.step (Keeps.refl _ _) (fail_keeps ..) (by decide)
  · refine Keeps.ite (Keeps.step (Keeps.refl _ _) (refuseAccess_keeps ..) (by decide)) ?_
    exact Keeps.step (Keeps.step (Keeps.refl _ _) (dropForces_keeps ..) (by decide)) (ok_keeps ..) (by decide)

theorem opForceSet_keeps (s : State) (n : Nat) (f : Flight) : Keeps [.regs, .banks, .ch, .rings, .evq, .msixPend, .forces,
    .can, .ble, .twn, .out] s (opForceSet s n f) := by
  unfold opForceSet
  extract_lets +onlyGivenNames x0
  clear_value x0
  extract_lets +onlyGivenNames x1
  clear_value x1
  extract_lets +onlyGivenNames x2
  clear_value x2
  extract_lets +onlyGivenNames x3
  clear_value x3
  extract_lets +onlyGivenNames x4
  clear_value x4
  extract_lets +onlyGivenNames x5
  clear_value x5
  split
  · exact Keeps.step (Keeps.refl _ _) (fail_keeps ..) (by decide)
  · refine Keeps.ite (Keeps.step (Keeps.refl _ _) (refuseAccess_keeps ..) (by decide)) ?_
    refine Keeps.ite (Keeps.step (Keeps.refl _ _) (fail_keeps ..) (by decide)) ?_
    refine Keeps.ite (Keeps.step (Keeps.refl _ _) (fail_keeps ..) (by decide)) ?_
    refine Keeps.ite (Keeps.step (Keeps.refl _ _) (fail_keeps ..) (by decide)) ?_
    refine Keeps.ite (Keeps.step (Keeps.refl _ _) (fail_keeps ..) (by decide)) ?_
    extract_lets +onlyGivenNames _
    extract_lets +onlyGivenNames _
    exact Keeps.step (Keeps.step (Keeps.step (Keeps.forces (Keeps.refl _ _) (by decide)) (noteForce_keeps ..) (by decide))
        (forceSeen_keeps ..) (by decide)) (ok_keeps ..) (by decide)

theorem opHandoffReq_keeps (s : State) (n : Nat) (f : Flight) : Keeps [.rings, .msixPend, .twn, .out] s (opHandoffReq s n f) :=
    by
  unfold opHandoffReq
  refine Keeps.ite (Keeps.step (Keeps.refl _ _) (fail_keeps ..) (by decide)) ?_
  refine Keeps.ite (Keeps.step (Keeps.refl _ _) (fail_keeps ..) (by decide)) ?_
  split
  · exact Keeps.step (Keeps.refl _ _) (fail_keeps ..) (by decide)
  · exact Keeps.step (Keeps.step (Keeps.refl _ _) (planHandoff_keeps (by assumption)) (by decide)) (setWaiting_keeps ..) (by
      decide)

abbrev opImgActivate_may : List Piece := [.regs, .live, .pts, .phc, .rings, .evq, .msixPend, .forces, .img, .can, .lce, .ble,
    .twn, .out]

theorem opImgActivate_keeps (s : State) (n : Nat) (f : Flight) : Keeps opImgActivate_may s (opImgActivate s n f) := by
  unfold opImgActivate
  extract_lets +onlyGivenNames x0
  clear_value x0
  split
  · exact Keeps.step (Keeps.refl _ _) (fail_keeps ..) (by decide)
  · refine Keeps.ite ?_ ?_
    · extract_lets +onlyGivenNames x1
      have h1 : Keeps opImgActivate_may s x1 := Keeps.step (Keeps.refl _ _) (setWaiting_keeps ..) (by decide)
      clear_value x1
      exact Keeps.ble h1 (by decide)
    split
    · exact Keeps.refl _ _
    · extract_lets +onlyGivenNames x2
      have h2 : Keeps opImgActivate_may s x2.1 := Keeps.step (Keeps.refl _ _) (activateStopped_keeps ..) (by decide)
      clear_value x2
      exact Keeps.step h2 (complete_keeps ..) (by decide)

theorem opImgCancel_keeps (s : State) (n : Nat) (f : Flight) : Keeps [.rings, .msixPend, .ble, .out] s (opImgCancel s n f) := by
  unfold opImgCancel
  refine Keeps.ite (Keeps.step (Keeps.step (Keeps.refl _ _) (endAct_keeps ..) (by decide)) (ok_keeps ..) (by decide)) ?_
  exact Keeps.step (Keeps.refl _ _) (fail_keeps ..) (by decide)

theorem opImgLoad_keeps (s : State) (n : Nat) (f : Flight) : Keeps [.rings, .msixPend, .ble, .twn, .out] s (opImgLoad s n f) :=
    by
  unfold opImgLoad
  extract_lets +onlyGivenNames x0
  clear_value x0
  extract_lets +onlyGivenNames x1
  clear_value x1
  extract_lets +onlyGivenNames x2
  clear_value x2
  refine Keeps.ite (Keeps.step (Keeps.refl _ _) (fail_keeps ..) (by decide)) ?_
  extract_lets +onlyGivenNames x3
  clear_value x3
  split
  · exact Keeps.step (Keeps.refl _ _) (fail_keeps ..) (by decide)
  · extract_lets +onlyGivenNames _
    extract_lets +onlyGivenNames -merge -useContext _ x5
    have h5 : Keeps [.rings, .msixPend, .ble, .twn, .out] s x5 := Keeps.ite (Keeps.ble (Keeps.refl _ _) (by decide))
        (Keeps.refl _ _)
    clear_value x5
    refine Keeps.ite (Keeps.step (Keeps.ble h5 (by decide)) (loadEnd_keeps ..) (by decide)) ?_
    exact Keeps.step (Keeps.ble h5 (by decide)) (ok_keeps ..) (by decide)

theorem opInstRead_keeps (s : State) (n : Nat) (f : Flight) : Keeps [.regs, .rings, .evq, .msixPend, .out] s (opInstRead s n f)
    := by
  unfold opInstRead
  split
  · exact Keeps.step (Keeps.refl _ _) (instFor_keeps (by assumption)) (by decide)
  · exact Keeps.step (Keeps.refl _ _) (output_keeps ..) (by decide)

abbrev opInstWrite_may : List Piece := [.regs, .rings, .evq, .msixPend, .ble, .out]

theorem opInstWrite_keeps (s : State) (n : Nat) (f : Flight) : Keeps opInstWrite_may s (opInstWrite s n f) := by
  unfold opInstWrite
  split
  · exact Keeps.step (Keeps.refl _ _) (instFor_keeps (by assumption)) (by decide)
  · extract_lets +onlyGivenNames _
    refine Keeps.step ?_ (applyWrites_keeps ..) (by decide)
    extract_lets +onlyGivenNames x1
    have h1 : Keeps opInstWrite_may s x1 := Keeps.step (Keeps.refl _ _) (setWaiting_keeps ..) (by decide)
    clear_value x1
    exact Keeps.ble h1 (by decide)

theorem opPtRead_keeps (s : State) (n : Nat) (f : Flight) : Keeps [.regs, .rings, .evq, .msixPend, .out] s (opPtRead s n f) :=
    by
  unfold opPtRead
  extract_lets +onlyGivenNames x0
  clear_value x0
  split
  · exact Keeps.step (Keeps.refl _ _) (refuseAccess_keeps ..) (by decide)
  · extract_lets +onlyGivenNames _
    exact Keeps.step (Keeps.refl _ _) (output_keeps ..) (by decide)

theorem opPtWatch_keeps (s : State) (n : Nat) (f : Flight) : Keeps [.regs, .rings, .evq, .watches, .msixPend, .out] s
    (opPtWatch s n f) := by
  unfold opPtWatch
  extract_lets +onlyGivenNames _
  extract_lets +onlyGivenNames _
  extract_lets +onlyGivenNames _
  extract_lets +onlyGivenNames _
  refine Keeps.ite (Keeps.step (Keeps.refl _ _) (refuseAccess_keeps ..) (by decide)) ?_
  refine Keeps.ite ?_ ?_
  · refine Keeps.ite (Keeps.step (Keeps.refl _ _) (fail_keeps ..) (by decide)) ?_
    extract_lets +onlyGivenNames _
    exact Keeps.step (Keeps.watches (Keeps.refl _ _) (by decide)) (ok_keeps ..) (by decide)
  refine Keeps.ite (Keeps.step (Keeps.watches (Keeps.refl _ _) (by decide)) (ok_keeps ..) (by decide)) ?_
  exact Keeps.step (Keeps.refl _ _) (fail_keeps ..) (by decide)

abbrev opPtWrite_may : List Piece := [.regs, .pts, .banks, .ch, .rings, .evq, .msixPend, .can, .ble, .out]

theorem opPtWrite_keeps (s : State) (n : Nat) (f : Flight) : Keeps opPtWrite_may s (opPtWrite s n f) := by
  unfold opPtWrite
  extract_lets +onlyGivenNames x0
  clear_value x0
  extract_lets +onlyGivenNames x1
  clear_value x1
  extract_lets +onlyGivenNames x2
  clear_value x2
  split
  · exact Keeps.step (Keeps.refl _ _) (refuseAccess_keeps ..) (by decide)
  · split
    · exact Keeps.step (Keeps.refl _ _) (fail_keeps ..) (by decide)
    · extract_lets +onlyGivenNames _
      extract_lets +onlyGivenNames x4
      have h4 : Keeps opPtWrite_may s x4 := Keeps.step (Keeps.refl _ _) (writePoints_keeps ..) (by decide)
      clear_value x4
      exact Keeps.step h4 (ok_keeps ..) (by decide)

theorem opResume_keeps (s : State) (n : Nat) (f : Flight) : Keeps [.rings, .msixPend, .out] s (opResume s n f) := by
  unfold opResume
  extract_lets +onlyGivenNames _
  extract_lets +onlyGivenNames _
  extract_lets +onlyGivenNames _
  refine Keeps.ite (Keeps.step (Keeps.step (Keeps.refl _ _) (modRing_keeps ..) (by decide)) (ok_keeps ..) (by decide)) ?_
  exact Keeps.step (Keeps.refl _ _) (fail_keeps ..) (by decide)

theorem opRioRead_keeps (s : State) (n : Nat) (f : Flight) : Keeps [.regs, .rings, .evq, .msixPend, .out] s (opRioRead s n f)
    := by
  unfold opRioRead
  extract_lets +onlyGivenNames _
  extract_lets +onlyGivenNames _
  refine Keeps.ite (Keeps.step (Keeps.refl _ _) (refuseAccess_keeps ..) (by decide)) ?_
  extract_lets +onlyGivenNames _
  exact Keeps.step (Keeps.refl _ _) (output_keeps ..) (by decide)

theorem opRioWrite_keeps (s : State) (n : Nat) (f : Flight) : Keeps [.regs, .rings, .evq, .msixPend, .eth, .out] s (opRioWrite
    s n f) := by
  unfold opRioWrite
  extract_lets +onlyGivenNames x0
  clear_value x0
  extract_lets +onlyGivenNames x1
  clear_value x1
  extract_lets +onlyGivenNames x2
  clear_value x2
  refine Keeps.ite (Keeps.step (Keeps.refl _ _) (refuseAccess_keeps ..) (by decide)) ?_
  split
  · exact Keeps.step (Keeps.refl _ _) (fail_keeps ..) (by decide)
  · refine Keeps.step ?_ (ok_keeps ..) (by decide)
    refine Keeps.forAll (Keeps.refl _ _) fun _ _ h3 => ?_
    exact Keeps.step h3 (setRioOut_keeps ..) (by decide)

theorem opTimed_keeps (s : State) (n : Nat) (f : Flight) : Keeps [.phc, .rings, .msixPend, .out] s (opTimed s n f) := by
  unfold opTimed
  extract_lets +onlyGivenNames x0
  clear_value x0
  extract_lets +onlyGivenNames x1
  clear_value x1
  extract_lets +onlyGivenNames x2
  clear_value x2
  extract_lets +onlyGivenNames x3
  clear_value x3
  extract_lets +onlyGivenNames x4
  clear_value x4
  refine Keeps.ite (Keeps.step (Keeps.refl _ _) (fail_keeps ..) (by decide)) ?_
  refine Keeps.ite (Keeps.step (Keeps.refl _ _) (fail_keeps ..) (by decide)) ?_
  refine Keeps.ite (Keeps.step (Keeps.refl _ _) (fail_keeps ..) (by decide)) ?_
  split
  · exact Keeps.step (Keeps.refl _ _) (fail_keeps ..) (by decide)
  · refine Keeps.ite (Keeps.step (Keeps.refl _ _) (fail_keeps ..) (by decide)) ?_
    extract_lets +onlyGivenNames _
    extract_lets +onlyGivenNames x6
    have h6 : Keeps [.phc, .rings, .msixPend, .out] s x6 := Keeps.step (Keeps.refl _ _) (setWaiting_keeps ..) (by decide)
    clear_value x6
    exact Keeps.phc h6 (by decide)

end Sys2Proof.Laws
end

