-- ==== Sys2Proof/Laws/KeepsRingMore.lean ====
section
/-! SUPPORT. For every operation of Machine/RingMore.lean: the pieces of the state it may change; every other piece is exactly
what it was. -/

namespace Sys2Proof.Laws

open Machine

theorem mtrFail_keeps (s : State) (n : Nat) (f : Flight) (code : Nat) : Keeps [.rings, .msixPend, .out] s (mtrFail s n f code)
    := by
  unfold mtrFail
  refine Keeps.ite (Keeps.step (Keeps.refl _ _) (fail_keeps ..) (by decide)) ?_
  exact Keeps.step (Keeps.refl _ _) (fail_keeps ..) (by decide)

theorem opCanRecover_keeps (s : State) (n : Nat) (f : Flight) : Keeps [.rings, .msixPend, .can, .out] s (opCanRecover s n f) :=
    by
  unfold opCanRecover
  extract_lets +onlyGivenNames _
  refine Keeps.ite (Keeps.step (Keeps.step (Keeps.refl _ _) (canRecover_keeps ..) (by decide)) (setWaiting_keeps ..) (by
      decide)) ?_
  exact Keeps.step (Keeps.refl _ _) (fail_keeps ..) (by decide)

theorem opCanRx_keeps (s : State) (n : Nat) (f : Flight) : Keeps [.regs, .rings, .evq, .msixPend, .can, .out] s (opCanRx s n f)
    := by
  unfold opCanRx
  extract_lets +onlyGivenNames _
  extract_lets +onlyGivenNames _
  extract_lets +onlyGivenNames _
  extract_lets +onlyGivenNames _
  refine Keeps.ite (Keeps.step (Keeps.refl _ _) (refuseAccess_keeps ..) (by decide)) ?_
  refine Keeps.ite (Keeps.step (Keeps.refl _ _) (fail_keeps ..) (by decide)) ?_
  extract_lets +onlyGivenNames _
  refine Keeps.ite (Keeps.step (Keeps.refl _ _) (fail_keeps ..) (by decide)) ?_
  exact Keeps.step (Keeps.step (Keeps.refl _ _) (modCanBuf_keeps ..) (by decide)) (output_keeps ..) (by decide)

theorem opCanTx_keeps (s : State) (n : Nat) (f : Flight) : Keeps [.regs, .rings, .evq, .msixPend, .can, .out] s (opCanTx s n f)
    := by
  unfold opCanTx
  extract_lets +onlyGivenNames _
  extract_lets +onlyGivenNames _
  extract_lets +onlyGivenNames _
  extract_lets +onlyGivenNames _
  extract_lets +onlyGivenNames _
  refine Keeps.ite (Keeps.step (Keeps.refl _ _) (refuseAccess_keeps ..) (by decide)) ?_
  refine Keeps.ite (Keeps.step (Keeps.refl _ _) (fail_keeps ..) (by decide)) ?_
  refine Keeps.ite (Keeps.step (Keeps.refl _ _) (fail_keeps ..) (by decide)) ?_
  refine Keeps.ite (Keeps.step (Keeps.refl _ _) (fail_keeps ..) (by decide)) ?_
  refine Keeps.ite (Keeps.step (Keeps.refl _ _) (fail_keeps ..) (by decide)) ?_
  refine Keeps.ite (Keeps.step (Keeps.refl _ _) (fail_keeps ..) (by decide)) ?_
  refine Keeps.ite (Keeps.step (Keeps.refl _ _) (fail_keeps ..) (by decide)) ?_
  extract_lets +onlyGivenNames _
  exact Keeps.step (Keeps.step (Keeps.refl _ _) (queueTx_keeps ..) (by decide)) (setWaiting_keeps ..) (by decide)

theorem opEthRxPost_keeps (s : State) (n : Nat) (f : Flight) : Keeps [.rings, .msixPend, .eth, .out] s (opEthRxPost s n f) := by
  unfold opEthRxPost
  extract_lets +onlyGivenNames x0
  clear_value x0
  split
  · exact Keeps.step (Keeps.step (Keeps.refl _ _) (modPort_keeps ..) (by decide)) (fillPost_keeps ..) (by decide)
  · exact Keeps.step (Keeps.refl _ _) (setWaiting_keeps ..) (by decide)

theorem opEthTx_keeps (s : State) (n : Nat) (f : Flight) : Keeps [.rings, .msixPend, .eth, .out] s (opEthTx s n f) := by
  unfold opEthTx
  extract_lets +onlyGivenNames _
  extract_lets +onlyGivenNames _
  refine Keeps.ite (Keeps.step (Keeps.refl _ _) (fail_keeps ..) (by decide)) ?_
  refine Keeps.ite (Keeps.refl _ _) ?_
  exact Keeps.step (Keeps.step (Keeps.refl _ _) (sendInternal_keeps ..) (by decide)) (setWaiting_keeps ..) (by decide)

theorem opKeyAttest_keeps (s : State) (n : Nat) (f : Flight) : Keeps [.rings, .msixPend, .free, .out] s (opKeyAttest s n f) :=
    by
  unfold opKeyAttest
  refine Keeps.ite (Keeps.step (Keeps.refl _ _) (fail_keeps ..) (by decide)) ?_
  exact Keeps.step (Keeps.refl _ _) (kopAttest_keeps ..) (by decide)

theorem opKeyEnrol_keeps (s : State) (n : Nat) (f : Flight) : Keeps [.rings, .msixPend, .sec, .out] s (opKeyEnrol s n f) := by
  unfold opKeyEnrol
  extract_lets +onlyGivenNames _
  refine Keeps.ite (Keeps.step (Keeps.refl _ _) (fail_keeps ..) (by decide)) ?_
  exact Keeps.step (Keeps.refl _ _) (kopEnrol_keeps ..) (by decide)

theorem opMtrInterval_keeps (s : State) (n : Nat) (f : Flight) : Keeps [.regs, .rings, .evq, .msixPend, .out] s (opMtrInterval
    s n f) := by
  unfold opMtrInterval
  extract_lets +onlyGivenNames x0
  clear_value x0
  refine Keeps.ite (Keeps.step (Keeps.refl _ _) (mtrFail_keeps ..) (by decide)) ?_
  split
  · exact Keeps.step (Keeps.refl _ _) (mtrFail_keeps ..) (by decide)
  · refine Keeps.ite (Keeps.step (Keeps.refl _ _) (output_keeps ..) (by decide)) ?_
    exact Keeps.step (Keeps.refl _ _) (refuseAccess_keeps ..) (by decide)

theorem opMtrLog_keeps (s : State) (n : Nat) (f : Flight) : Keeps [.rings, .msixPend, .out] s (opMtrLog s n f) := by
  unfold opMtrLog
  refine Keeps.ite (Keeps.step (Keeps.refl _ _) (mtrFail_keeps ..) (by decide)) ?_
  split
  · exact Keeps.step (Keeps.refl _ _) (mtrFail_keeps ..) (by decide)
  · exact Keeps.step (Keeps.refl _ _) (output_keeps ..) (by decide)

theorem opMtrParam_keeps (s : State) (n : Nat) (f : Flight) : Keeps [.rings, .msixPend, .out] s (opMtrParam s n f) := by
  unfold opMtrParam
  refine Keeps.ite (Keeps.step (Keeps.refl _ _) (mtrFail_keeps ..) (by decide)) ?_
  split
  · exact Keeps.step (Keeps.refl _ _) (mtrFail_keeps ..) (by decide)
  · exact Keeps.step (Keeps.refl _ _) (output_keeps ..) (by decide)

theorem opMtrSet_keeps (s : State) (n : Nat) (f : Flight) : Keeps [.regs, .rings, .evq, .msixPend, .out] s (opMtrSet s n f) :=
    by
  unfold opMtrSet
  extract_lets +onlyGivenNames _
  extract_lets +onlyGivenNames _
  refine Keeps.ite (Keeps.step (Keeps.refl _ _) (mtrFail_keeps ..) (by decide)) ?_
  refine Keeps.ite (Keeps.step (Keeps.refl _ _) (refuseAccess_keeps ..) (by decide)) ?_
  exact Keeps.step (Keeps.refl _ _) (output_keeps ..) (by decide)

theorem opMtrTenant_keeps (s : State) (n : Nat) (f : Flight) : Keeps [.rings, .msixPend, .mtr, .out] s (opMtrTenant s n f) := by
  unfold opMtrTenant
  refine Keeps.ite ((Keeps.refl _ _).step (mtrFail_keeps ..) (by decide)) ?_
  refine Keeps.ite ?_ ((Keeps.refl _ _).step (mtrFail_keeps ..) (by decide))
  exact ((Keeps.refl _ _).step (tenantSet_keeps ..) (by decide)).step (ok_keeps ..) (by decide)

theorem opRecRead_keeps (s : State) (n : Nat) (f : Flight) : Keeps [.rings, .msixPend, .out] s (opRecRead s n f) := by
  unfold opRecRead
  extract_lets +onlyGivenNames _
  exact Keeps.step (Keeps.refl _ _) (output_keeps ..) (by decide)

end Sys2Proof.Laws
end

