-- ==== Sys2Proof/Laws/KeepsRingRows.lean ====
section
/-! SUPPORT. For every operation of Machine/RingRows.lean: the pieces of the state it may change; every other piece is exactly
what it was. -/

namespace Sys2Proof.Laws

open Machine

theorem updOp_keeps {g : State → Nat → Flight → State} (hg : ∀ s n d, Keeps [.regs, .rings, .evq, .msixPend, .eth, .upd, .free, .out] s (g s n d)) (s : State) (n : Nat) (d : Flight) :
    Keeps [.regs, .rings, .evq, .msixPend, .eth, .upd, .free, .out] s (updOp g s n d) := by
  unfold updOp
  exact Keeps.ite (hg ..) ((Keeps.refl _ _).step (busFail_keeps ..) (by decide))

theorem runMore_keeps (s : State) (n : Nat) (f : Flight) : Keeps [.regs, .rings, .evq, .msixPend, .eth, .can, .mtr, .sec, .upd,
    .free, .out] s (runMore s n f) := by
  unfold runMore
  split
  · exact Keeps.step (Keeps.refl _ _) (opMtrSet_keeps ..) (by decide)
  · exact Keeps.step (Keeps.refl _ _) (opMtrInterval_keeps ..) (by decide)
  · exact Keeps.step (Keeps.refl _ _) (opMtrLog_keeps ..) (by decide)
  · exact Keeps.step (Keeps.refl _ _) (opMtrParam_keeps ..) (by decide)
  · exact Keeps.step (Keeps.refl _ _) (opMtrTenant_keeps ..) (by decide)
  · exact Keeps.step (Keeps.refl _ _) (opRecRead_keeps ..) (by decide)
  · exact Keeps.step (Keeps.refl _ _) (kopGen_keeps ..) (by decide)
  · exact Keeps.step (Keeps.refl _ _) (kopDerive_keeps ..) (by decide)
  · exact Keeps.step (Keeps.refl _ _) (kopInvalidate_keeps ..) (by decide)
  · exact Keeps.step (Keeps.refl _ _) (opKeyAttest_keeps ..) (by decide)
  · exact Keeps.step (Keeps.refl _ _) (opKeyEnrol_keeps ..) (by decide)
  · exact Keeps.step (Keeps.refl _ _) (kopAead_keeps ..) (by decide)
  · exact Keeps.step (Keeps.refl _ _) (kopSign_keeps ..) (by decide)
  · exact Keeps.step (Keeps.refl _ _) (kopInfo_keeps ..) (by decide)
  · exact Keeps.step (Keeps.refl _ _) (opCanTx_keeps ..) (by decide)
  · exact Keeps.step (Keeps.refl _ _) (opCanRx_keeps ..) (by decide)
  · exact Keeps.step (Keeps.refl _ _) (opCanRecover_keeps ..) (by decide)
  · exact Keeps.step (Keeps.refl _ _) (opEthTx_keeps ..) (by decide)
  · exact Keeps.step (Keeps.refl _ _) (opEthRxPost_keeps ..) (by decide)
  · exact Keeps.step (Keeps.refl _ _) (updOp_keeps (fun _ _ _ => (uopChunk_keeps ..).mono (by decide)) ..) (by decide)
  · exact Keeps.step (Keeps.refl _ _) (updOp_keeps (fun _ _ _ => (uopStatus_keeps ..).mono (by decide)) ..) (by decide)
  · exact Keeps.step (Keeps.refl _ _) (updOp_keeps (fun _ _ _ => (uopConfirm_keeps ..).mono (by decide)) ..) (by decide)
  · exact Keeps.step (Keeps.refl _ _) (updOp_keeps (fun _ _ _ => (uopAbort_keeps ..).mono (by decide)) ..) (by decide)
  · exact Keeps.step (Keeps.refl _ _) (fail_keeps ..) (by decide)

theorem runCore_keeps (s : State) (n : Nat) (f : Flight) : Keeps [.regs, .live, .latch, .lowHeld, .pts, .hold, .phc, .clk,
    .banks, .ch, .rings, .evq, .recq, .recLost, .recLostCls, .watches, .rtc, .msix, .msixPend, .forces, .img, .ptp, .eth, .can,
    .mtr, .lce, .ble, .twn, .sec, .upd, .free, .out] s (runCore s n f) := by
  unfold runCore
  split
  · exact Keeps.step (Keeps.refl _ _) (ok_keeps ..) (by decide)
  · exact Keeps.step (Keeps.refl _ _) (opFence_keeps ..) (by decide)
  · exact Keeps.step (Keeps.refl _ _) (opResume_keeps ..) (by decide)
  · exact Keeps.step (Keeps.refl _ _) (opPtRead_keeps ..) (by decide)
  · exact Keeps.step (Keeps.refl _ _) (opPtWrite_keeps ..) (by decide)
  · exact Keeps.step (Keeps.refl _ _) (opPtWatch_keeps ..) (by decide)
  · exact Keeps.step (Keeps.refl _ _) (opRioRead_keeps ..) (by decide)
  · exact Keeps.step (Keeps.refl _ _) (opRioWrite_keeps ..) (by decide)
  · exact Keeps.step (Keeps.refl _ _) (opCfgWrite_keeps ..) (by decide)
  · exact Keeps.step (Keeps.refl _ _) (opCfgRead_keeps ..) (by decide)
  · exact Keeps.step (Keeps.refl _ _) (opCtrl_keeps ..) (by decide)
  · exact Keeps.step (Keeps.refl _ _) (opImgLoad_keeps ..) (by decide)
  · exact Keeps.step (Keeps.refl _ _) (opImgActivate_keeps ..) (by decide)
  · exact Keeps.step (Keeps.refl _ _) (opImgCancel_keeps ..) (by decide)
  · exact Keeps.step (Keeps.refl _ _) (opInstRead_keeps ..) (by decide)
  · exact Keeps.step (Keeps.refl _ _) (opInstWrite_keeps ..) (by decide)
  · exact Keeps.step (Keeps.refl _ _) (opForceSet_keeps ..) (by decide)
  · exact Keeps.step (Keeps.refl _ _) (opForceRelease_keeps ..) (by decide)
  · exact Keeps.step (Keeps.refl _ _) (opForceList_keeps ..) (by decide)
  · exact Keeps.step (Keeps.refl _ _) (opTimed_keeps ..) (by decide)
  · exact Keeps.step (Keeps.refl _ _) (opHandoffReq_keeps ..) (by decide)
  · exact Keeps.step (Keeps.refl _ _) (fail_keeps ..) (by decide)

theorem opRun_keeps (s : State) (n : Nat) (f : Flight) : Keeps [.regs, .live, .latch, .lowHeld, .pts, .hold, .phc, .clk,
    .banks, .ch, .rings, .evq, .recq, .recLost, .recLostCls, .watches, .rtc, .msix, .msixPend, .forces, .img, .ptp, .eth, .can,
    .mtr, .lce, .ble, .twn, .sec, .upd, .free, .out] s (opRun s n f) := by
  unfold opRun
  refine Keeps.ite (Keeps.step (Keeps.refl _ _) (runCore_keeps ..) (by decide)) ?_
  exact Keeps.step (Keeps.refl _ _) (runMore_keeps ..) (by decide)

abbrev runChecked_may : List Piece := [.regs, .live, .latch, .lowHeld, .pts, .hold, .phc, .clk, .banks, .ch, .rings, .evq,
    .recq, .recLost, .recLostCls, .watches, .rtc, .msix, .msixPend, .forces, .img, .ptp, .eth, .can, .mtr, .lce, .ble, .twn,
    .sec, .upd, .free, .out]

theorem runChecked_keeps (s : State) (n : Nat) (f : Flight) (hop : Nat) : Keeps runChecked_may s (runChecked s n f hop) := by
  unfold runChecked
  extract_lets +onlyGivenNames x0
  have h0 : Keeps runChecked_may s x0 := Keeps.step (Keeps.refl _ _) (opRun_keeps ..) (by decide)
  clear_value x0
  split
  · exact h0
  · refine Keeps.ite (Keeps.step (Keeps.step (Keeps.step (Keeps.refl _ _) (emit_keeps ..) (by decide)) (poison_keeps ..) (by
      decide)) (fail_keeps ..) (by decide)) ?_
    refine Keeps.ite (Keeps.step (Keeps.step (Keeps.refl _ _) (poison_keeps ..) (by decide)) (fail_keeps ..) (by decide)) ?_
    exact h0

theorem commitOne_keeps (s : State) (n : Nat) (f : Flight) (hop : Nat) : Keeps [.regs, .live, .latch, .lowHeld, .pts, .hold,
    .phc, .clk, .banks, .ch, .rings, .evq, .recq, .recLost, .recLostCls, .watches, .rtc, .msix, .msixPend, .forces, .img, .ptp,
    .eth, .can, .mtr, .lce, .ble, .twn, .sec, .upd, .free, .out] s (commitOne s n f hop) := by
  unfold commitOne
  refine Keeps.ite (Keeps.step (Keeps.step (Keeps.refl _ _) (poison_keeps ..) (by decide)) (fail_keeps ..) (by decide)) ?_
  refine Keeps.ite (Keeps.step (Keeps.refl _ _) (complete_keeps ..) (by decide)) ?_
  split
  · exact Keeps.step (Keeps.refl _ _) (fail_keeps ..) (by decide)
  · refine Keeps.ite (Keeps.step (Keeps.refl _ _) (fail_keeps ..) (by decide)) ?_
    refine Keeps.ite (Keeps.step (Keeps.refl _ _) (fail_keeps ..) (by decide)) ?_
    exact Keeps.step (Keeps.refl _ _) (runChecked_keeps ..) (by decide)

theorem commitFront_keeps (s : State) (n : Nat) (hop : Nat) : Keeps [.regs, .live, .latch, .lowHeld, .pts, .hold, .phc, .clk,
    .banks, .ch, .rings, .evq, .recq, .recLost, .recLostCls, .watches, .rtc, .msix, .msixPend, .forces, .img, .ptp, .eth, .can,
    .mtr, .lce, .ble, .twn, .sec, .upd, .free, .out] s (commitFront s n hop) := by
  unfold commitFront
  split
  · exact Keeps.ite (Keeps.step (Keeps.refl _ _) (commitOne_keeps ..) (by decide)) (Keeps.refl _ _)
  · exact Keeps.refl _ _

abbrev submit_may : List Piece := [.regs, .live, .latch, .lowHeld, .pts, .hold, .phc, .clk, .banks, .ch, .rings, .evq, .recq,
    .recLost, .recLostCls, .watches, .rtc, .msix, .msixPend, .forces, .img, .ptp, .eth, .can, .mtr, .lce, .ble, .twn, .sec,
    .upd, .free, .out]

theorem submit_keeps (s : State) (n : Nat) (op : Nat) (d : Desc) : Keeps submit_may s (submit s n op d) := by
  unfold submit
  refine Keeps.ite ?_ ?_
  · extract_lets +onlyGivenNames x0
    have h0 : Keeps submit_may s x0 := Keeps.step (Keeps.refl _ _) (fetch_keeps ..) (by decide)
    clear_value x0
    exact Keeps.ite (Keeps.step h0 (commitFront_keeps ..) (by decide)) h0
  exact Keeps.refl _ _

theorem execAeadDecrypt_keeps (n : Fin 64) (d : Desc) (s : State) : ∃ u, execAeadDecrypt n d s = .next (close s u) ∧ Keeps
    [.regs, .live, .latch, .lowHeld, .pts, .hold, .phc, .clk, .banks, .ch, .rings, .evq, .recq, .recLost, .recLostCls,
    .watches, .rtc, .msix, .msixPend, .forces, .img, .ptp, .eth, .can, .mtr, .lce, .ble, .twn, .sec, .upd, .free, .out] s u :=
    by
  refine ⟨_, rfl, ?_⟩
  exact Keeps.step (Keeps.refl _ _) (submit_keeps ..) (by decide)

theorem execAeadEncrypt_keeps (n : Fin 64) (d : Desc) (s : State) : ∃ u, execAeadEncrypt n d s = .next (close s u) ∧ Keeps
    [.regs, .live, .latch, .lowHeld, .pts, .hold, .phc, .clk, .banks, .ch, .rings, .evq, .recq, .recLost, .recLostCls,
    .watches, .rtc, .msix, .msixPend, .forces, .img, .ptp, .eth, .can, .mtr, .lce, .ble, .twn, .sec, .upd, .free, .out] s u :=
    by
  refine ⟨_, rfl, ?_⟩
  exact Keeps.step (Keeps.refl _ _) (submit_keeps ..) (by decide)

theorem execCanRecover_keeps (n : Fin 64) (d : Desc) (s : State) : ∃ u, execCanRecover n d s = .next (close s u) ∧ Keeps
    [.regs, .live, .latch, .lowHeld, .pts, .hold, .phc, .clk, .banks, .ch, .rings, .evq, .recq, .recLost, .recLostCls,
    .watches, .rtc, .msix, .msixPend, .forces, .img, .ptp, .eth, .can, .mtr, .lce, .ble, .twn, .sec, .upd, .free, .out] s u :=
    by
  refine ⟨_, rfl, ?_⟩
  exact Keeps.step (Keeps.refl _ _) (submit_keeps ..) (by decide)

theorem execCanRx_keeps (n : Fin 64) (d : Desc) (s : State) : ∃ u, execCanRx n d s = .next (close s u) ∧ Keeps [.regs, .live,
    .latch, .lowHeld, .pts, .hold, .phc, .clk, .banks, .ch, .rings, .evq, .recq, .recLost, .recLostCls, .watches, .rtc, .msix,
    .msixPend, .forces, .img, .ptp, .eth, .can, .mtr, .lce, .ble, .twn, .sec, .upd, .free, .out] s u := by
  refine ⟨_, rfl, ?_⟩
  exact Keeps.step (Keeps.refl _ _) (submit_keeps ..) (by decide)

theorem execCanTx_keeps (n : Fin 64) (d : Desc) (s : State) : ∃ u, execCanTx n d s = .next (close s u) ∧ Keeps [.regs, .live,
    .latch, .lowHeld, .pts, .hold, .phc, .clk, .banks, .ch, .rings, .evq, .recq, .recLost, .recLostCls, .watches, .rtc, .msix,
    .msixPend, .forces, .img, .ptp, .eth, .can, .mtr, .lce, .ble, .twn, .sec, .upd, .free, .out] s u := by
  refine ⟨_, rfl, ?_⟩
  exact Keeps.step (Keeps.refl _ _) (submit_keeps ..) (by decide)

theorem execCfgRead_keeps (n : Fin 64) (d : Desc) (s : State) : ∃ u, execCfgRead n d s = .next (close s u) ∧ Keeps [.regs,
    .live, .latch, .lowHeld, .pts, .hold, .phc, .clk, .banks, .ch, .rings, .evq, .recq, .recLost, .recLostCls, .watches, .rtc,
    .msix, .msixPend, .forces, .img, .ptp, .eth, .can, .mtr, .lce, .ble, .twn, .sec, .upd, .free, .out] s u := by
  refine ⟨_, rfl, ?_⟩
  exact Keeps.step (Keeps.refl _ _) (submit_keeps ..) (by decide)

theorem execCfgWrite_keeps (n : Fin 64) (d : Desc) (s : State) : ∃ u, execCfgWrite n d s = .next (close s u) ∧ Keeps [.regs,
    .live, .latch, .lowHeld, .pts, .hold, .phc, .clk, .banks, .ch, .rings, .evq, .recq, .recLost, .recLostCls, .watches, .rtc,
    .msix, .msixPend, .forces, .img, .ptp, .eth, .can, .mtr, .lce, .ble, .twn, .sec, .upd, .free, .out] s u := by
  refine ⟨_, rfl, ?_⟩
  exact Keeps.step (Keeps.refl _ _) (submit_keeps ..) (by decide)

theorem execCtrlReset_keeps (n : Fin 64) (d : Desc) (s : State) : ∃ u, execCtrlReset n d s = .next (close s u) ∧ Keeps [.regs,
    .live, .latch, .lowHeld, .pts, .hold, .phc, .clk, .banks, .ch, .rings, .evq, .recq, .recLost, .recLostCls, .watches, .rtc,
    .msix, .msixPend, .forces, .img, .ptp, .eth, .can, .mtr, .lce, .ble, .twn, .sec, .upd, .free, .out] s u := by
  refine ⟨_, rfl, ?_⟩
  exact Keeps.step (Keeps.refl _ _) (submit_keeps ..) (by decide)

theorem execCtrlRestart_keeps (n : Fin 64) (d : Desc) (s : State) : ∃ u, execCtrlRestart n d s = .next (close s u) ∧ Keeps
    [.regs, .live, .latch, .lowHeld, .pts, .hold, .phc, .clk, .banks, .ch, .rings, .evq, .recq, .recLost, .recLostCls,
    .watches, .rtc, .msix, .msixPend, .forces, .img, .ptp, .eth, .can, .mtr, .lce, .ble, .twn, .sec, .upd, .free, .out] s u :=
    by
  refine ⟨_, rfl, ?_⟩
  exact Keeps.step (Keeps.refl _ _) (submit_keeps ..) (by decide)

theorem execCtrlRestartCold_keeps (n : Fin 64) (d : Desc) (s : State) : ∃ u, execCtrlRestartCold n d s = .next (close s u) ∧
    Keeps [.regs, .live, .latch, .lowHeld, .pts, .hold, .phc, .clk, .banks, .ch, .rings, .evq, .recq, .recLost, .recLostCls,
    .watches, .rtc, .msix, .msixPend, .forces, .img, .ptp, .eth, .can, .mtr, .lce, .ble, .twn, .sec, .upd, .free, .out] s u :=
    by
  refine ⟨_, rfl, ?_⟩
  exact Keeps.step (Keeps.refl _ _) (submit_keeps ..) (by decide)

theorem execCtrlStop_keeps (n : Fin 64) (d : Desc) (s : State) : ∃ u, execCtrlStop n d s = .next (close s u) ∧ Keeps [.regs,
    .live, .latch, .lowHeld, .pts, .hold, .phc, .clk, .banks, .ch, .rings, .evq, .recq, .recLost, .recLostCls, .watches, .rtc,
    .msix, .msixPend, .forces, .img, .ptp, .eth, .can, .mtr, .lce, .ble, .twn, .sec, .upd, .free, .out] s u := by
  refine ⟨_, rfl, ?_⟩
  exact Keeps.step (Keeps.refl _ _) (submit_keeps ..) (by decide)

theorem execCtrlTaskStart_keeps (n : Fin 64) (d : Desc) (s : State) : ∃ u, execCtrlTaskStart n d s = .next (close s u) ∧ Keeps
    [.regs, .live, .latch, .lowHeld, .pts, .hold, .phc, .clk, .banks, .ch, .rings, .evq, .recq, .recLost, .recLostCls,
    .watches, .rtc, .msix, .msixPend, .forces, .img, .ptp, .eth, .can, .mtr, .lce, .ble, .twn, .sec, .upd, .free, .out] s u :=
    by
  refine ⟨_, rfl, ?_⟩
  exact Keeps.step (Keeps.refl _ _) (submit_keeps ..) (by decide)

theorem execDescriptorCommit_keeps (n : Fin 64) (hop : Fin 13) (s : State) : ∃ u, execDescriptorCommit n hop s = .next (close s
    u) ∧ Keeps [.regs, .live, .latch, .lowHeld, .pts, .hold, .phc, .clk, .banks, .ch, .rings, .evq, .recq, .recLost,
    .recLostCls, .watches, .rtc, .msix, .msixPend, .forces, .img, .ptp, .eth, .can, .mtr, .lce, .ble, .twn, .sec, .upd, .free,
    .out] s u := by
  refine ⟨_, rfl, ?_⟩
  exact Keeps.step (Keeps.refl _ _) (commitFront_keeps ..) (by decide)

theorem execEthRxPost_keeps (n : Fin 64) (d : Desc) (s : State) : ∃ u, execEthRxPost n d s = .next (close s u) ∧ Keeps [.regs,
    .live, .latch, .lowHeld, .pts, .hold, .phc, .clk, .banks, .ch, .rings, .evq, .recq, .recLost, .recLostCls, .watches, .rtc,
    .msix, .msixPend, .forces, .img, .ptp, .eth, .can, .mtr, .lce, .ble, .twn, .sec, .upd, .free, .out] s u := by
  refine ⟨_, rfl, ?_⟩
  exact Keeps.step (Keeps.refl _ _) (submit_keeps ..) (by decide)

theorem execEthTx_keeps (n : Fin 64) (d : Desc) (s : State) : ∃ u, execEthTx n d s = .next (close s u) ∧ Keeps [.regs, .live,
    .latch, .lowHeld, .pts, .hold, .phc, .clk, .banks, .ch, .rings, .evq, .recq, .recLost, .recLostCls, .watches, .rtc, .msix,
    .msixPend, .forces, .img, .ptp, .eth, .can, .mtr, .lce, .ble, .twn, .sec, .upd, .free, .out] s u := by
  refine ⟨_, rfl, ?_⟩
  exact Keeps.step (Keeps.refl _ _) (submit_keeps ..) (by decide)

theorem execFence_keeps (n : Fin 64) (d : Desc) (s : State) : ∃ u, execFence n d s = .next (close s u) ∧ Keeps [.regs, .live,
    .latch, .lowHeld, .pts, .hold, .phc, .clk, .banks, .ch, .rings, .evq, .recq, .recLost, .recLostCls, .watches, .rtc, .msix,
    .msixPend, .forces, .img, .ptp, .eth, .can, .mtr, .lce, .ble, .twn, .sec, .upd, .free, .out] s u := by
  refine ⟨_, rfl, ?_⟩
  exact Keeps.step (Keeps.refl _ _) (submit_keeps ..) (by decide)

theorem execForceList_keeps (n : Fin 64) (d : Desc) (s : State) : ∃ u, execForceList n d s = .next (close s u) ∧ Keeps [.regs,
    .live, .latch, .lowHeld, .pts, .hold, .phc, .clk, .banks, .ch, .rings, .evq, .recq, .recLost, .recLostCls, .watches, .rtc,
    .msix, .msixPend, .forces, .img, .ptp, .eth, .can, .mtr, .lce, .ble, .twn, .sec, .upd, .free, .out] s u := by
  refine ⟨_, rfl, ?_⟩
  exact Keeps.step (Keeps.refl _ _) (submit_keeps ..) (by decide)

theorem execForceRelease_keeps (n : Fin 64) (d : Desc) (s : State) : ∃ u, execForceRelease n d s = .next (close s u) ∧ Keeps
    [.regs, .live, .latch, .lowHeld, .pts, .hold, .phc, .clk, .banks, .ch, .rings, .evq, .recq, .recLost, .recLostCls,
    .watches, .rtc, .msix, .msixPend, .forces, .img, .ptp, .eth, .can, .mtr, .lce, .ble, .twn, .sec, .upd, .free, .out] s u :=
    by
  refine ⟨_, rfl, ?_⟩
  exact Keeps.step (Keeps.refl _ _) (submit_keeps ..) (by decide)

theorem execForceSet_keeps (n : Fin 64) (d : Desc) (s : State) : ∃ u, execForceSet n d s = .next (close s u) ∧ Keeps [.regs,
    .live, .latch, .lowHeld, .pts, .hold, .phc, .clk, .banks, .ch, .rings, .evq, .recq, .recLost, .recLostCls, .watches, .rtc,
    .msix, .msixPend, .forces, .img, .ptp, .eth, .can, .mtr, .lce, .ble, .twn, .sec, .upd, .free, .out] s u := by
  refine ⟨_, rfl, ?_⟩
  exact Keeps.step (Keeps.refl _ _) (submit_keeps ..) (by decide)

theorem execHandoffReq_keeps (n : Fin 64) (d : Desc) (s : State) : ∃ u, execHandoffReq n d s = .next (close s u) ∧ Keeps
    [.regs, .live, .latch, .lowHeld, .pts, .hold, .phc, .clk, .banks, .ch, .rings, .evq, .recq, .recLost, .recLostCls,
    .watches, .rtc, .msix, .msixPend, .forces, .img, .ptp, .eth, .can, .mtr, .lce, .ble, .twn, .sec, .upd, .free, .out] s u :=
    by
  refine ⟨_, rfl, ?_⟩
  exact Keeps.step (Keeps.refl _ _) (submit_keeps ..) (by decide)

theorem execImgActivate_keeps (n : Fin 64) (d : Desc) (s : State) : ∃ u, execImgActivate n d s = .next (close s u) ∧ Keeps
    [.regs, .live, .latch, .lowHeld, .pts, .hold, .phc, .clk, .banks, .ch, .rings, .evq, .recq, .recLost, .recLostCls,
    .watches, .rtc, .msix, .msixPend, .forces, .img, .ptp, .eth, .can, .mtr, .lce, .ble, .twn, .sec, .upd, .free, .out] s u :=
    by
  refine ⟨_, rfl, ?_⟩
  exact Keeps.step (Keeps.refl _ _) (submit_keeps ..) (by decide)

theorem execImgCancel_keeps (n : Fin 64) (d : Desc) (s : State) : ∃ u, execImgCancel n d s = .next (close s u) ∧ Keeps [.regs,
    .live, .latch, .lowHeld, .pts, .hold, .phc, .clk, .banks, .ch, .rings, .evq, .recq, .recLost, .recLostCls, .watches, .rtc,
    .msix, .msixPend, .forces, .img, .ptp, .eth, .can, .mtr, .lce, .ble, .twn, .sec, .upd, .free, .out] s u := by
  refine ⟨_, rfl, ?_⟩
  exact Keeps.step (Keeps.refl _ _) (submit_keeps ..) (by decide)

theorem execImgLoad_keeps (n : Fin 64) (d : Desc) (s : State) : ∃ u, execImgLoad n d s = .next (close s u) ∧ Keeps [.regs,
    .live, .latch, .lowHeld, .pts, .hold, .phc, .clk, .banks, .ch, .rings, .evq, .recq, .recLost, .recLostCls, .watches, .rtc,
    .msix, .msixPend, .forces, .img, .ptp, .eth, .can, .mtr, .lce, .ble, .twn, .sec, .upd, .free, .out] s u := by
  refine ⟨_, rfl, ?_⟩
  exact Keeps.step (Keeps.refl _ _) (submit_keeps ..) (by decide)

theorem execInstRead_keeps (n : Fin 64) (d : Desc) (s : State) : ∃ u, execInstRead n d s = .next (close s u) ∧ Keeps [.regs,
    .live, .latch, .lowHeld, .pts, .hold, .phc, .clk, .banks, .ch, .rings, .evq, .recq, .recLost, .recLostCls, .watches, .rtc,
    .msix, .msixPend, .forces, .img, .ptp, .eth, .can, .mtr, .lce, .ble, .twn, .sec, .upd, .free, .out] s u := by
  refine ⟨_, rfl, ?_⟩
  exact Keeps.step (Keeps.refl _ _) (submit_keeps ..) (by decide)

theorem execInstWrite_keeps (n : Fin 64) (d : Desc) (s : State) : ∃ u, execInstWrite n d s = .next (close s u) ∧ Keeps [.regs,
    .live, .latch, .lowHeld, .pts, .hold, .phc, .clk, .banks, .ch, .rings, .evq, .recq, .recLost, .recLostCls, .watches, .rtc,
    .msix, .msixPend, .forces, .img, .ptp, .eth, .can, .mtr, .lce, .ble, .twn, .sec, .upd, .free, .out] s u := by
  refine ⟨_, rfl, ?_⟩
  exact Keeps.step (Keeps.refl _ _) (submit_keeps ..) (by decide)

theorem execKeyAttest_keeps (n : Fin 64) (d : Desc) (s : State) : ∃ u, execKeyAttest n d s = .next (close s u) ∧ Keeps [.regs,
    .live, .latch, .lowHeld, .pts, .hold, .phc, .clk, .banks, .ch, .rings, .evq, .recq, .recLost, .recLostCls, .watches, .rtc,
    .msix, .msixPend, .forces, .img, .ptp, .eth, .can, .mtr, .lce, .ble, .twn, .sec, .upd, .free, .out] s u := by
  refine ⟨_, rfl, ?_⟩
  exact Keeps.step (Keeps.refl _ _) (submit_keeps ..) (by decide)

theorem execKeyDerive_keeps (n : Fin 64) (d : Desc) (s : State) : ∃ u, execKeyDerive n d s = .next (close s u) ∧ Keeps [.regs,
    .live, .latch, .lowHeld, .pts, .hold, .phc, .clk, .banks, .ch, .rings, .evq, .recq, .recLost, .recLostCls, .watches, .rtc,
    .msix, .msixPend, .forces, .img, .ptp, .eth, .can, .mtr, .lce, .ble, .twn, .sec, .upd, .free, .out] s u := by
  refine ⟨_, rfl, ?_⟩
  exact Keeps.step (Keeps.refl _ _) (submit_keeps ..) (by decide)

theorem execKeyEnrol_keeps (n : Fin 64) (d : Desc) (s : State) : ∃ u, execKeyEnrol n d s = .next (close s u) ∧ Keeps [.regs,
    .live, .latch, .lowHeld, .pts, .hold, .phc, .clk, .banks, .ch, .rings, .evq, .recq, .recLost, .recLostCls, .watches, .rtc,
    .msix, .msixPend, .forces, .img, .ptp, .eth, .can, .mtr, .lce, .ble, .twn, .sec, .upd, .free, .out] s u := by
  refine ⟨_, rfl, ?_⟩
  exact Keeps.step (Keeps.refl _ _) (submit_keeps ..) (by decide)

theorem execKeyGen_keeps (n : Fin 64) (d : Desc) (s : State) : ∃ u, execKeyGen n d s = .next (close s u) ∧ Keeps [.regs, .live,
    .latch, .lowHeld, .pts, .hold, .phc, .clk, .banks, .ch, .rings, .evq, .recq, .recLost, .recLostCls, .watches, .rtc, .msix,
    .msixPend, .forces, .img, .ptp, .eth, .can, .mtr, .lce, .ble, .twn, .sec, .upd, .free, .out] s u := by
  refine ⟨_, rfl, ?_⟩
  exact Keeps.step (Keeps.refl _ _) (submit_keeps ..) (by decide)

theorem execKeyInfo_keeps (n : Fin 64) (d : Desc) (s : State) : ∃ u, execKeyInfo n d s = .next (close s u) ∧ Keeps [.regs,
    .live, .latch, .lowHeld, .pts, .hold, .phc, .clk, .banks, .ch, .rings, .evq, .recq, .recLost, .recLostCls, .watches, .rtc,
    .msix, .msixPend, .forces, .img, .ptp, .eth, .can, .mtr, .lce, .ble, .twn, .sec, .upd, .free, .out] s u := by
  refine ⟨_, rfl, ?_⟩
  exact Keeps.step (Keeps.refl _ _) (submit_keeps ..) (by decide)

theorem execKeyInvalidate_keeps (n : Fin 64) (d : Desc) (s : State) : ∃ u, execKeyInvalidate n d s = .next (close s u) ∧ Keeps
    [.regs, .live, .latch, .lowHeld, .pts, .hold, .phc, .clk, .banks, .ch, .rings, .evq, .recq, .recLost, .recLostCls,
    .watches, .rtc, .msix, .msixPend, .forces, .img, .ptp, .eth, .can, .mtr, .lce, .ble, .twn, .sec, .upd, .free, .out] s u :=
    by
  refine ⟨_, rfl, ?_⟩
  exact Keeps.step (Keeps.refl _ _) (submit_keeps ..) (by decide)

theorem execMtrReadInterval_keeps (n : Fin 64) (d : Desc) (s : State) : ∃ u, execMtrReadInterval n d s = .next (close s u) ∧
    Keeps [.regs, .live, .latch, .lowHeld, .pts, .hold, .phc, .clk, .banks, .ch, .rings, .evq, .recq, .recLost, .recLostCls,
    .watches, .rtc, .msix, .msixPend, .forces, .img, .ptp, .eth, .can, .mtr, .lce, .ble, .twn, .sec, .upd, .free, .out] s u :=
    by
  refine ⟨_, rfl, ?_⟩
  exact Keeps.step (Keeps.refl _ _) (submit_keeps ..) (by decide)

theorem execMtrReadLog_keeps (n : Fin 64) (d : Desc) (s : State) : ∃ u, execMtrReadLog n d s = .next (close s u) ∧ Keeps
    [.regs, .live, .latch, .lowHeld, .pts, .hold, .phc, .clk, .banks, .ch, .rings, .evq, .recq, .recLost, .recLostCls,
    .watches, .rtc, .msix, .msixPend, .forces, .img, .ptp, .eth, .can, .mtr, .lce, .ble, .twn, .sec, .upd, .free, .out] s u :=
    by
  refine ⟨_, rfl, ?_⟩
  exact Keeps.step (Keeps.refl _ _) (submit_keeps ..) (by decide)

theorem execMtrReadParam_keeps (n : Fin 64) (d : Desc) (s : State) : ∃ u, execMtrReadParam n d s = .next (close s u) ∧ Keeps
    [.regs, .live, .latch, .lowHeld, .pts, .hold, .phc, .clk, .banks, .ch, .rings, .evq, .recq, .recLost, .recLostCls,
    .watches, .rtc, .msix, .msixPend, .forces, .img, .ptp, .eth, .can, .mtr, .lce, .ble, .twn, .sec, .upd, .free, .out] s u :=
    by
  refine ⟨_, rfl, ?_⟩
  exact Keeps.step (Keeps.refl _ _) (submit_keeps ..) (by decide)

theorem execMtrReadSet_keeps (n : Fin 64) (d : Desc) (s : State) : ∃ u, execMtrReadSet n d s = .next (close s u) ∧ Keeps
    [.regs, .live, .latch, .lowHeld, .pts, .hold, .phc, .clk, .banks, .ch, .rings, .evq, .recq, .recLost, .recLostCls,
    .watches, .rtc, .msix, .msixPend, .forces, .img, .ptp, .eth, .can, .mtr, .lce, .ble, .twn, .sec, .upd, .free, .out] s u :=
    by
  refine ⟨_, rfl, ?_⟩
  exact Keeps.step (Keeps.refl _ _) (submit_keeps ..) (by decide)

theorem execMtrSetTenant_keeps (n : Fin 64) (d : Desc) (s : State) : ∃ u, execMtrSetTenant n d s = .next (close s u) ∧ Keeps
    [.regs, .live, .latch, .lowHeld, .pts, .hold, .phc, .clk, .banks, .ch, .rings, .evq, .recq, .recLost, .recLostCls,
    .watches, .rtc, .msix, .msixPend, .forces, .img, .ptp, .eth, .can, .mtr, .lce, .ble, .twn, .sec, .upd, .free, .out] s u :=
    by
  refine ⟨_, rfl, ?_⟩
  exact Keeps.step (Keeps.refl _ _) (submit_keeps ..) (by decide)

theorem execNop_keeps (n : Fin 64) (d : Desc) (s : State) : ∃ u, execNop n d s = .next (close s u) ∧ Keeps [.regs, .live,
    .latch, .lowHeld, .pts, .hold, .phc, .clk, .banks, .ch, .rings, .evq, .recq, .recLost, .recLostCls, .watches, .rtc, .msix,
    .msixPend, .forces, .img, .ptp, .eth, .can, .mtr, .lce, .ble, .twn, .sec, .upd, .free, .out] s u := by
  refine ⟨_, rfl, ?_⟩
  exact Keeps.step (Keeps.refl _ _) (submit_keeps ..) (by decide)

theorem execPtRead_keeps (n : Fin 64) (d : Desc) (s : State) : ∃ u, execPtRead n d s = .next (close s u) ∧ Keeps [.regs, .live,
    .latch, .lowHeld, .pts, .hold, .phc, .clk, .banks, .ch, .rings, .evq, .recq, .recLost, .recLostCls, .watches, .rtc, .msix,
    .msixPend, .forces, .img, .ptp, .eth, .can, .mtr, .lce, .ble, .twn, .sec, .upd, .free, .out] s u := by
  refine ⟨_, rfl, ?_⟩
  exact Keeps.step (Keeps.refl _ _) (submit_keeps ..) (by decide)

theorem execPtWatchAdd_keeps (n : Fin 64) (d : Desc) (s : State) : ∃ u, execPtWatchAdd n d s = .next (close s u) ∧ Keeps
    [.regs, .live, .latch, .lowHeld, .pts, .hold, .phc, .clk, .banks, .ch, .rings, .evq, .recq, .recLost, .recLostCls,
    .watches, .rtc, .msix, .msixPend, .forces, .img, .ptp, .eth, .can, .mtr, .lce, .ble, .twn, .sec, .upd, .free, .out] s u :=
    by
  refine ⟨_, rfl, ?_⟩
  exact Keeps.step (Keeps.refl _ _) (submit_keeps ..) (by decide)

theorem execPtWatchRemove_keeps (n : Fin 64) (d : Desc) (s : State) : ∃ u, execPtWatchRemove n d s = .next (close s u) ∧ Keeps
    [.regs, .live, .latch, .lowHeld, .pts, .hold, .phc, .clk, .banks, .ch, .rings, .evq, .recq, .recLost, .recLostCls,
    .watches, .rtc, .msix, .msixPend, .forces, .img, .ptp, .eth, .can, .mtr, .lce, .ble, .twn, .sec, .upd, .free, .out] s u :=
    by
  refine ⟨_, rfl, ?_⟩
  exact Keeps.step (Keeps.refl _ _) (submit_keeps ..) (by decide)

theorem execPtWrite_keeps (n : Fin 64) (d : Desc) (s : State) : ∃ u, execPtWrite n d s = .next (close s u) ∧ Keeps [.regs,
    .live, .latch, .lowHeld, .pts, .hold, .phc, .clk, .banks, .ch, .rings, .evq, .recq, .recLost, .recLostCls, .watches, .rtc,
    .msix, .msixPend, .forces, .img, .ptp, .eth, .can, .mtr, .lce, .ble, .twn, .sec, .upd, .free, .out] s u := by
  refine ⟨_, rfl, ?_⟩
  exact Keeps.step (Keeps.refl _ _) (submit_keeps ..) (by decide)

theorem execRecRead_keeps (n : Fin 64) (d : Desc) (s : State) : ∃ u, execRecRead n d s = .next (close s u) ∧ Keeps [.regs,
    .live, .latch, .lowHeld, .pts, .hold, .phc, .clk, .banks, .ch, .rings, .evq, .recq, .recLost, .recLostCls, .watches, .rtc,
    .msix, .msixPend, .forces, .img, .ptp, .eth, .can, .mtr, .lce, .ble, .twn, .sec, .upd, .free, .out] s u := by
  refine ⟨_, rfl, ?_⟩
  exact Keeps.step (Keeps.refl _ _) (submit_keeps ..) (by decide)

theorem execResume_keeps (n : Fin 64) (d : Desc) (s : State) : ∃ u, execResume n d s = .next (close s u) ∧ Keeps [.regs, .live,
    .latch, .lowHeld, .pts, .hold, .phc, .clk, .banks, .ch, .rings, .evq, .recq, .recLost, .recLostCls, .watches, .rtc, .msix,
    .msixPend, .forces, .img, .ptp, .eth, .can, .mtr, .lce, .ble, .twn, .sec, .upd, .free, .out] s u := by
  refine ⟨_, rfl, ?_⟩
  exact Keeps.step (Keeps.refl _ _) (submit_keeps ..) (by decide)

theorem execRioRead_keeps (n : Fin 64) (d : Desc) (s : State) : ∃ u, execRioRead n d s = .next (close s u) ∧ Keeps [.regs,
    .live, .latch, .lowHeld, .pts, .hold, .phc, .clk, .banks, .ch, .rings, .evq, .recq, .recLost, .recLostCls, .watches, .rtc,
    .msix, .msixPend, .forces, .img, .ptp, .eth, .can, .mtr, .lce, .ble, .twn, .sec, .upd, .free, .out] s u := by
  refine ⟨_, rfl, ?_⟩
  exact Keeps.step (Keeps.refl _ _) (submit_keeps ..) (by decide)

theorem execRioWrite_keeps (n : Fin 64) (d : Desc) (s : State) : ∃ u, execRioWrite n d s = .next (close s u) ∧ Keeps [.regs,
    .live, .latch, .lowHeld, .pts, .hold, .phc, .clk, .banks, .ch, .rings, .evq, .recq, .recLost, .recLostCls, .watches, .rtc,
    .msix, .msixPend, .forces, .img, .ptp, .eth, .can, .mtr, .lce, .ble, .twn, .sec, .upd, .free, .out] s u := by
  refine ⟨_, rfl, ?_⟩
  exact Keeps.step (Keeps.refl _ _) (submit_keeps ..) (by decide)

theorem execSign_keeps (n : Fin 64) (d : Desc) (s : State) : ∃ u, execSign n d s = .next (close s u) ∧ Keeps [.regs, .live,
    .latch, .lowHeld, .pts, .hold, .phc, .clk, .banks, .ch, .rings, .evq, .recq, .recLost, .recLostCls, .watches, .rtc, .msix,
    .msixPend, .forces, .img, .ptp, .eth, .can, .mtr, .lce, .ble, .twn, .sec, .upd, .free, .out] s u := by
  refine ⟨_, rfl, ?_⟩
  exact Keeps.step (Keeps.refl _ _) (submit_keeps ..) (by decide)

theorem execTimed_keeps (n : Fin 64) (d : Desc) (s : State) : ∃ u, execTimed n d s = .next (close s u) ∧ Keeps [.regs, .live,
    .latch, .lowHeld, .pts, .hold, .phc, .clk, .banks, .ch, .rings, .evq, .recq, .recLost, .recLostCls, .watches, .rtc, .msix,
    .msixPend, .forces, .img, .ptp, .eth, .can, .mtr, .lce, .ble, .twn, .sec, .upd, .free, .out] s u := by
  refine ⟨_, rfl, ?_⟩
  exact Keeps.step (Keeps.refl _ _) (submit_keeps ..) (by decide)

theorem execUpdAbort_keeps (n : Fin 64) (d : Desc) (s : State) : ∃ u, execUpdAbort n d s = .next (close s u) ∧ Keeps [.regs,
    .live, .latch, .lowHeld, .pts, .hold, .phc, .clk, .banks, .ch, .rings, .evq, .recq, .recLost, .recLostCls, .watches, .rtc,
    .msix, .msixPend, .forces, .img, .ptp, .eth, .can, .mtr, .lce, .ble, .twn, .sec, .upd, .free, .out] s u := by
  refine ⟨_, rfl, ?_⟩
  exact Keeps.step (Keeps.refl _ _) (submit_keeps ..) (by decide)

theorem execUpdChunk_keeps (n : Fin 64) (d : Desc) (s : State) : ∃ u, execUpdChunk n d s = .next (close s u) ∧ Keeps [.regs,
    .live, .latch, .lowHeld, .pts, .hold, .phc, .clk, .banks, .ch, .rings, .evq, .recq, .recLost, .recLostCls, .watches, .rtc,
    .msix, .msixPend, .forces, .img, .ptp, .eth, .can, .mtr, .lce, .ble, .twn, .sec, .upd, .free, .out] s u := by
  refine ⟨_, rfl, ?_⟩
  exact Keeps.step (Keeps.refl _ _) (submit_keeps ..) (by decide)

theorem execUpdConfirm_keeps (n : Fin 64) (d : Desc) (s : State) : ∃ u, execUpdConfirm n d s = .next (close s u) ∧ Keeps
    [.regs, .live, .latch, .lowHeld, .pts, .hold, .phc, .clk, .banks, .ch, .rings, .evq, .recq, .recLost, .recLostCls,
    .watches, .rtc, .msix, .msixPend, .forces, .img, .ptp, .eth, .can, .mtr, .lce, .ble, .twn, .sec, .upd, .free, .out] s u :=
    by
  refine ⟨_, rfl, ?_⟩
  exact Keeps.step (Keeps.refl _ _) (submit_keeps ..) (by decide)

theorem execUpdStatus_keeps (n : Fin 64) (d : Desc) (s : State) : ∃ u, execUpdStatus n d s = .next (close s u) ∧ Keeps [.regs,
    .live, .latch, .lowHeld, .pts, .hold, .phc, .clk, .banks, .ch, .rings, .evq, .recq, .recLost, .recLostCls, .watches, .rtc,
    .msix, .msixPend, .forces, .img, .ptp, .eth, .can, .mtr, .lce, .ble, .twn, .sec, .upd, .free, .out] s u := by
  refine ⟨_, rfl, ?_⟩
  exact Keeps.step (Keeps.refl _ _) (submit_keeps ..) (by decide)

end Sys2Proof.Laws
end

