-- ==== Sys2Proof/Laws/KeepsStartUp.lean ====
section
/-! SUPPORT. For every operation of Machine/StartUp.lean: the pieces of the state it may change; every other piece is exactly
what it was. -/

namespace Sys2Proof.Laws

open Machine

abbrev dropLogic_may : List Piece := [.evq, .recq, .recLost, .recLostCls, .rtc, .img, .up, .ptp, .eth, .can, .lce, .ble, .twn,
    .sec, .upd]

theorem dropLogic_keeps (s : State) : Keeps dropLogic_may s (dropLogic s) := by
  unfold dropLogic
  extract_lets +onlyGivenNames x0
  have h0 : Keeps dropLogic_may s x0 := by
    refine Keeps.many (t := s) ?_ rfl (fun p hp => by cases p <;> first | rfl | exact absurd (by decide) hp)
    exact Keeps.refl _ _
  clear_value x0
  extract_lets +onlyGivenNames -merge -useContext _ x1
  have h1 : Keeps dropLogic_may s x1 := Keeps.rtc h0 (by decide)
  clear_value x1
  refine Keeps.many (t := x1) ?_ rfl (fun p hp => by cases p <;> first | rfl | exact absurd (by decide) hp)
  exact h1

abbrev dropRegs_may : List Piece := [.regs, .latch, .lowHeld, .pts, .base, .hold, .phc, .clk]

theorem dropRegs_keeps (s : State) : Keeps dropRegs_may s (dropRegs s) := by
  unfold dropRegs
  extract_lets +onlyGivenNames x0
  have h0 : Keeps dropRegs_may s x0 := by
    refine Keeps.many (t := s) ?_ rfl (fun p hp => by cases p <;> first | rfl | exact absurd (by decide) hp)
    exact Keeps.refl _ _
  clear_value x0
  extract_lets +onlyGivenNames -merge -useContext _ _
  refine Keeps.many (t := x0) ?_ rfl (fun p hp => by cases p <;> first | rfl | exact absurd (by decide) hp)
  exact h0

abbrev dropVolatile_may : List Piece := [.regs, .latch, .lowHeld, .pts, .base, .hold, .phc, .clk, .banks, .ch, .rings, .evq,
    .recq, .recSlots, .recNext, .recLost, .recLostCls, .watches, .rtc, .msix, .msixPend, .busMaster, .memEnable, .img, .up,
    .ptp, .eth, .can, .lce, .ble, .twn, .sec, .upd, .out]

theorem dropVolatile_keeps (s : State) : Keeps dropVolatile_may s (dropVolatile s) := by
  unfold dropVolatile
  extract_lets +onlyGivenNames x0
  have h0 : Keeps dropVolatile_may s x0 := Keeps.step (Keeps.step (Keeps.step (Keeps.step (Keeps.refl _ _) (flushEvents_keeps
      ..) (by
      decide)) (recorderDrain_keeps ..) (by decide)) (endpointReset_keeps ..) (by decide)) (dropRegs_keeps ..) (by decide)
  clear_value x0
  extract_lets +onlyGivenNames x1
  have h1 : Keeps dropVolatile_may s x1 := by
    refine Keeps.forAll h0 fun _ _ h2 => ?_
    exact Keeps.step h2 (modBank_keeps ..) (by decide)
  clear_value x1
  extract_lets +onlyGivenNames x3
  have h3 : Keeps dropVolatile_may s x3 := by
    refine Keeps.forAll h1 fun _ _ h4 => ?_
    exact Keeps.step h4 (modChan_keeps ..) (by decide)
  clear_value x3
  exact Keeps.step (Keeps.step h3 (dropLogic_keeps ..) (by decide)) (rset_keeps ..) (by decide)

abbrev startHeld_may : List Piece := [.regs, .latch, .lowHeld, .pts, .base, .hold, .phc, .clk, .banks, .ch, .rings, .evq,
    .recq, .recSlots, .recNext, .recLost, .recLostCls, .watches, .rtc, .msix, .msixPend, .busMaster, .memEnable, .img, .up,
    .ptp, .eth, .can, .lce, .ble, .twn, .sec, .upd, .out]

theorem startHeld_keeps (s : State) (n : Nat) : Keeps startHeld_may s (startHeld s n) := by
  unfold startHeld
  extract_lets +onlyGivenNames x0
  have h0 : Keeps startHeld_may s x0 := Keeps.step (Keeps.step (Keeps.refl _ _) (dropVolatile_keeps ..) (by decide))
      (rset_keeps ..) (by
      decide)
  clear_value x0
  extract_lets +onlyGivenNames -merge -useContext _ _
  exact Keeps.step (Keeps.clk h0 (by decide)) (rset_keeps ..) (by decide)

theorem resumeTime_keeps (s : State) : Keeps [.rtc] s (resumeTime s).1 := by
  unfold resumeTime
  extract_lets +onlyGivenNames _
  extract_lets +onlyGivenNames _
  extract_lets +onlyGivenNames _
  extract_lets +onlyGivenNames _
  exact Keeps.rtc (Keeps.refl _ _) (by decide)

theorem findRecords_keeps (s : State) (bad : List (Fin 32768)) : Keeps [.regs, .evq, .recSlots, .recNext] s (findRecords s bad)
    := by
  unfold findRecords
  extract_lets +onlyGivenNames x0
  have h0 : Keeps [.regs, .evq, .recSlots, .recNext] s x0 := by
    refine Keeps.forAll (Keeps.refl _ _) fun _ _ h1 => ?_
    extract_lets +onlyGivenNames _
    exact Keeps.step (Keeps.recSlots h1 (by decide)) (poison_keeps ..) (by decide)
  clear_value x0
  exact Keeps.recNext h0 (by decide)

theorem loadSettings_keeps (s : State) (good : Bool) : Keeps [.regs, .live, .lce, .upd] s (loadSettings s good) := by
  unfold loadSettings
  refine Keeps.ite ?_ ?_
  · extract_lets +onlyGivenNames x0
    have h0 : Keeps [.regs, .live, .lce, .upd] s x0 := Keeps.step (Keeps.refl _ _) (convertSettings_keeps ..) (by decide)
    clear_value x0
    extract_lets +onlyGivenNames x1
    have h1 : Keeps [.regs, .live, .lce, .upd] s x1 := Keeps.regs h0 (by decide)
    clear_value x1
    exact Keeps.step h1 (rset_keeps ..) (by decide)
  refine Keeps.many (t := s) ?_ rfl (fun p hp => by cases p <;> first | rfl | exact absurd (by decide) hp)
  exact Keeps.refl _ _

theorem loadPorts_keeps (s : State) : Keeps [.eth, .can] s (loadPorts s) := by
  unfold loadPorts
  extract_lets +onlyGivenNames x0
  have h0 : Keeps [.eth, .can] s x0 := by
    refine Keeps.forAll (Keeps.refl _ _) fun _ _ h1 => ?_
    exact Keeps.ite (Keeps.step h1 (modCanPort_keeps ..) (by decide)) h1
  clear_value x0
  refine Keeps.forAll h0 fun _ _ h2 => ?_
  refine Keeps.forAll h2 fun _ _ h3 => ?_
  extract_lets +onlyGivenNames _
  extract_lets +onlyGivenNames _
  exact Keeps.ite h3 (Keeps.step h3 (modPort_keeps ..) (by decide))

theorem reportRtc_keeps (s : State) : Keeps [.evq, .rtc] s (reportRtc s) := by
  unfold reportRtc
  extract_lets +onlyGivenNames _
  extract_lets +onlyGivenNames x1
  have h1 : Keeps [.evq, .rtc] s x1 := Keeps.ite (Keeps.step (Keeps.refl _ _) (recEvent_keeps ..) (by decide)) (Keeps.refl _ _)
  clear_value x1
  extract_lets +onlyGivenNames _
  extract_lets +onlyGivenNames x3
  have h3 : Keeps [.evq, .rtc] s x3 := Keeps.ite h1 (Keeps.step h1 (regEvent_keeps ..) (by decide))
  clear_value x3
  exact Keeps.rtc h3 (by decide)

theorem Keeps.mramBad {may : List Piece} {s t : State} {g : Bool} {f : State → State} (h : Keeps may s t)
    (hf : ∀ u, Keeps may s u → Keeps may s (f u)) (ha : [.regs, .evq] ⊆ may) : Keeps may s (Machine.mramBad t g f) := by
  unfold Machine.mramBad
  split
  · exact h
  · exact hf _ (h.step (poison_keeps ..) ha)

theorem keptCounts_keeps (s : State) : Keeps [.pts, .can, .lce, .ble] s (keptCounts s) := by
  unfold keptCounts
  refine Keeps.forAll (Keeps.lce (Keeps.refl _ _) (by decide)) fun _ _ h0 => ?_
  exact Keeps.step h0 (pset_keeps ..) (by decide)

abbrev loadAreas_may : List Piece := [.regs, .pts, .evq, .forces, .can, .lce, .ble]

theorem loadAreas_keeps (s : State) (e : StartEnv) : Keeps loadAreas_may s (loadAreas s e) := by
  unfold loadAreas
  extract_lets +onlyGivenNames x0
  have h0 : Keeps loadAreas_may s x0 := by
    refine Keeps.mramBad (Keeps.refl _ _) (fun _ h1 => ?_) (by decide)
    exact h1
  clear_value x0
  extract_lets +onlyGivenNames x2
  have h2 : Keeps loadAreas_may s x2 := by
    refine Keeps.mramBad h0 (fun _ h3 => ?_) (by decide)
    exact Keeps.ble h3 (by decide)
  clear_value x2
  extract_lets +onlyGivenNames x4
  have h4 : Keeps loadAreas_may s x4 := by
    refine Keeps.mramBad h2 (fun _ h5 => ?_) (by decide)
    exact Keeps.ble h5 (by decide)
  clear_value x4
  extract_lets +onlyGivenNames x6
  have h6 : Keeps loadAreas_may s x6 := by
    refine Keeps.mramBad h4 (fun _ h7 => ?_) (by decide)
    exact Keeps.ble h7 (by decide)
  clear_value x6
  extract_lets +onlyGivenNames x8
  have h8 : Keeps loadAreas_may s x8 := by
    refine Keeps.mramBad h6 (fun _ h9 => ?_) (by decide)
    exact Keeps.lce h9 (by decide)
  clear_value x8
  extract_lets +onlyGivenNames x10
  have h10 : Keeps loadAreas_may s x10 := by
    refine Keeps.mramBad h8 (fun _ h11 => ?_) (by decide)
    exact Keeps.forces h11 (by decide)
  clear_value x10
  exact Keeps.step h10 (keptCounts_keeps ..) (by decide)

theorem startDiag_keeps (s : State) (c : Nat) : Keeps [.pts, .ch, .can, .ble] s (startDiag s c) := by
  unfold startDiag
  extract_lets +onlyGivenNames _
  extract_lets +onlyGivenNames _
  refine Keeps.ite (Keeps.refl _ _) ?_
  exact Keeps.step (Keeps.step (Keeps.refl _ _) (modChan_keeps ..) (by decide)) (pset_keeps ..) (by decide)

theorem storeRefused_keeps (s : State) (copy : Nat) (code : Nat) : Keeps [.evq] s (storeRefused s copy code) := by
  unfold storeRefused
  exact Keeps.step (Keeps.refl _ _) (recEvent_keeps ..) (by decide)

theorem tryStore_keeps (s : State) (c : Nat × StoreCopy) : Keeps [.evq, .img] s (tryStore s c) := by
  unfold tryStore
  refine Keeps.ite (Keeps.refl _ _) ?_
  split
  · exact Keeps.step (Keeps.refl _ _) (storeRefused_keeps ..) (by decide)
  · exact Keeps.img (Keeps.refl _ _) (by decide)

theorem loadStore_keeps (s : State) (g0 : Bool) (g1 : Bool) : Keeps [.evq, .img] s (loadStore s g0 g1) := by
  unfold loadStore
  extract_lets +onlyGivenNames _
  extract_lets +onlyGivenNames _
  extract_lets +onlyGivenNames x2
  have h2 : Keeps [.evq, .img] s x2 := by
    refine Keeps.forAll (Keeps.refl _ _) fun _ _ h3 => ?_
    exact Keeps.step h3 (storeRefused_keeps ..) (by decide)
  clear_value x2
  refine Keeps.forAll h2 fun _ _ h4 => ?_
  exact Keeps.step h4 (tryStore_keeps ..) (by decide)

abbrev step3_may : List Piece := [.regs, .live, .pts, .ch, .evq, .recSlots, .recNext, .rtc, .forces, .img, .eth, .can, .lce,
    .ble, .twn, .upd]

theorem step3_keeps (s : State) (e : StartEnv) (good : Bool) (cause : Nat) : Keeps step3_may s (step3 s e good cause) := by
  unfold step3
  extract_lets +onlyGivenNames x0
  have h0 : Keeps step3_may s x0 := by
    refine Keeps.forAll (Keeps.step (Keeps.step (Keeps.step (Keeps.refl _ _) (loadSettings_keeps ..) (by decide))
        (loadAreas_keeps ..) (by decide)) (loadPorts_keeps ..) (by decide)) fun _ _ h1 => ?_
    exact Keeps.step h1 (startDiag_keeps ..) (by decide)
  clear_value x0
  extract_lets +onlyGivenNames x2
  have h2 : Keeps step3_may s x2 := Keeps.step h0 (rset_keeps ..) (by decide)
  clear_value x2
  split
  · extract_lets +onlyGivenNames x3
    have h3 : Keeps step3_may s x3 := by
      refine Keeps.step ?_ (loadStore_keeps ..) (by decide)
      refine Keeps.of_eq_fst ?_ ‹_›
      exact Keeps.step (Keeps.step h2 (findRecords_keeps ..) (by decide)) (resumeTime_keeps ..) (by decide)
    clear_value x3
    extract_lets +onlyGivenNames x4
    have h4 : Keeps step3_may s x4 := Keeps.step h3 (releaseForces_keeps ..) (by decide)
    clear_value x4
    exact Keeps.step (Keeps.step h4 (reportRtc_keeps ..) (by decide)) (recEvent_keeps ..) (by decide)

theorem haltStart_keeps (s : State) (cause : Nat) (code : Nat) (at_ : Nat) : Keeps [.regs, .evq] s (haltStart s cause code at_)
    := by
  unfold haltStart
  exact Keeps.step (Keeps.step (Keeps.refl _ _) (rset_keeps ..) (by decide)) (recEvent_keeps ..) (by decide)

abbrev lockNet_may : List Piece := [.regs, .phc, .rings, .evq, .msixPend, .ptp, .eth, .out]

theorem lockNet_keeps (s : State) (n : NetEnv) : Keeps lockNet_may s (lockNet s n) := by
  unfold lockNet
  refine Keeps.ite (Keeps.refl _ _) ?_
  extract_lets +onlyGivenNames x0
  have h0 : Keeps lockNet_may s x0 := Keeps.step (Keeps.refl _ _) (modPort_keeps ..) (by decide)
  clear_value x0
  extract_lets +onlyGivenNames _
  extract_lets +onlyGivenNames -merge -useContext _ _
  extract_lets +onlyGivenNames _
  exact Keeps.step (Keeps.ptp h0 (by decide)) (ptpState_keeps ..) (by decide)

abbrev step5_may : List Piece := [.regs, .phc, .rings, .evq, .msixPend, .ptp, .eth, .out]

theorem step5_keeps (s : State) (e : StartEnv) : Keeps step5_may s (step5 s e) := by
  unfold step5
  extract_lets +onlyGivenNames x0
  have h0 : Keeps step5_may s x0 := by
    subst x0
    split
    · exact Keeps.step (Keeps.refl _ _) (lockNet_keeps ..) (by decide)
    · exact Keeps.refl _ _
  try clear_value x0
  extract_lets +onlyGivenNames _
  extract_lets +onlyGivenNames _
  extract_lets +onlyGivenNames _
  extract_lets +onlyGivenNames _
  extract_lets +onlyGivenNames -merge -useContext _ _
  extract_lets +onlyGivenNames _
  extract_lets +onlyGivenNames _
  extract_lets +onlyGivenNames x8
  have h8 : Keeps step5_may s x8 := Keeps.step (Keeps.phc h0 (by decide)) (raisePhc_keeps ..) (by decide)
  try clear_value x8
  exact Keeps.ite h8 (Keeps.step h8 (ror_keeps ..) (by decide))

theorem lockSat_keeps (s : State) : Keeps [.sec] s (lockSat s) := by
  unfold lockSat
  exact Keeps.sec (Keeps.refl _ _) (by decide)

abbrev step8_may : List Piece := [.regs, .pts, .phc, .banks, .ch, .evq, .can, .ble]

theorem step8_keeps (s : State) (cause : Nat) : Keeps step8_may s (step8 s cause) := by
  unfold step8
  extract_lets +onlyGivenNames -merge -useContext _ x0
  have h0 : Keeps step8_may s x0 := Keeps.step (Keeps.phc (Keeps.refl _ _) (by decide)) (allDrop_keeps ..) (by decide)
  clear_value x0
  extract_lets +onlyGivenNames x1
  have h1 : Keeps step8_may s x1 := Keeps.step h0 (followStop_keeps ..) (by decide)
  clear_value x1
  extract_lets +onlyGivenNames x2
  have h2 : Keeps step8_may s x2 := Keeps.step (Keeps.step h1 (rsetFld_keeps ..) (by decide)) (rsetFld_keeps ..) (by decide)
  clear_value x2
  exact Keeps.step (Keeps.step (Keeps.step h2 (rsetFld_keeps ..) (by decide)) (takeCapture_keeps ..) (by decide))
      (periodicEvent_keeps ..) (by decide)

theorem step7_keeps (s : State) (good : Bool) : Keeps [.regs, .pts, .banks, .can, .lce, .ble] s (step7 s good) := by
  unfold step7
  refine Keeps.ite (Keeps.refl _ _) ?_
  split
  · exact Keeps.refl _ _
  · extract_lets +onlyGivenNames _
    refine Keeps.ite (Keeps.ble (Keeps.refl _ _) (by decide)) ?_
    refine Keeps.ite (Keeps.ble (Keeps.refl _ _) (by decide)) ?_
    extract_lets +onlyGivenNames _
    exact Keeps.step (Keeps.step (Keeps.refl _ _) (runController_keeps ..) (by decide)) (rsetFld_keeps ..) (by decide)

theorem joinPair_keeps (s : State) : Keeps [.regs, .evq, .twn] s (joinPair s) := by
  unfold joinPair
  exact Keeps.step (Keeps.twn (Keeps.refl _ _) (by decide)) (updateSync_keeps ..) (by decide)

theorem meetPartner_keeps (s : State) (p : PartnerEnv) (there : Nat) : Keeps [.twn, .upd] s (meetPartner s p there) := by
  unfold meetPartner
  extract_lets +onlyGivenNames -merge -useContext _ x0
  have h0 : Keeps [.twn, .upd] s x0 := Keeps.step (Keeps.twn (Keeps.refl _ _) (by decide)) (meetVersion_keeps ..) (by decide)
  clear_value x0
  exact Keeps.upd h0 (by decide)

abbrev takeBall_may : List Piece := [.regs, .pts, .base, .hold, .banks, .ch, .evq, .can, .ble, .twn]

theorem takeBall_keeps (s : State) : Keeps takeBall_may s (takeBall s) := by
  unfold takeBall
  extract_lets +onlyGivenNames x0
  have h0 : Keeps takeBall_may s x0 := Keeps.step (Keeps.refl _ _) (setHold_keeps ..) (by decide)
  clear_value x0
  exact Keeps.step (Keeps.twn h0 (by decide)) (refreshPair_keeps ..) (by decide)

abbrev step6_may : List Piece := [.regs, .pts, .base, .hold, .phc, .banks, .ch, .evq, .eth, .can, .ble, .twn, .upd, .out]

theorem step6_keeps (s : State) (partner : Option PartnerEnv) : Keeps step6_may s (step6 s partner) := by
  unfold step6
  refine Keeps.ite (Keeps.step (Keeps.refl _ _) (takeBall_keeps ..) (by decide)) ?_
  extract_lets +onlyGivenNames x0
  have h0 : Keeps step6_may s x0 := Keeps.step (Keeps.refl _ _) (sendNegotiate_keeps ..) (by decide)
  clear_value x0
  split
  · refine Keeps.ite (Keeps.step h0 (takeBall_keeps ..) (by decide)) ?_
    exact Keeps.step h0 (joinPair_keeps ..) (by decide)
  · refine Keeps.ite (Keeps.step (Keeps.step (Keeps.phc h0 (by decide)) (meetPartner_keeps ..) (by decide)) (joinPair_keeps ..)
      (by decide)) ?_
    refine Keeps.ite (Keeps.step (Keeps.step h0 (meetPartner_keeps ..) (by decide)) (takeBall_keeps ..) (by decide)) ?_
    exact Keeps.step (Keeps.step h0 (meetPartner_keeps ..) (by decide)) (joinPair_keeps ..) (by decide)

theorem step4_keeps (s : State) (up : BitVec 12) : Keeps [.regs, .pts, .banks, .ch, .evq, .can, .ble] s (step4 s up) := by
  unfold step4
  refine Keeps.forAll (Keeps.refl _ _) fun _ _ h0 => ?_
  refine Keeps.ite (Keeps.step (Keeps.step (Keeps.step h0 (gotFrame_keeps ..) (by decide)) (logicHeard_keeps ..) (by decide))
      (ror_keeps ..) (by decide)) ?_
  exact h0

theorem step1_keeps (s : State) (e : StartEnv) : Keeps [.regs, .evq, .rtc, .sec] s (step1 s e) := by
  unfold step1
  extract_lets +onlyGivenNames x0
  have h0 : Keeps [.regs, .evq, .rtc, .sec] s x0 := Keeps.step (Keeps.step (Keeps.step (Keeps.step (Keeps.refl _ _)
      (unhalt_keeps ..) (by decide))
      (batStart_keeps ..) (by decide)) (batDone_keeps ..) (by decide)) (lcStart_keeps ..) (by decide)
  clear_value x0
  extract_lets +onlyGivenNames -merge -useContext _ x1
  have h1 : Keeps [.regs, .evq, .rtc, .sec] s x1 := Keeps.sec h0 (by decide)
  clear_value x1
  extract_lets +onlyGivenNames x2
  have h2 : Keeps [.regs, .evq, .rtc, .sec] s x2 := Keeps.step h1 (damageSlots_keeps ..) (by decide)
  clear_value x2
  exact Keeps.ite (Keeps.step h2 (remaskAll_keeps ..) (by decide)) (Keeps.sec h2 (by decide))

abbrev startSteps_may : List Piece := [.regs, .live, .latch, .lowHeld, .pts, .base, .hold, .phc, .clk, .banks, .ch, .rings,
    .evq, .recq, .recSlots, .recNext, .recLost, .recLostCls, .watches, .rtc, .msix, .msixPend, .busMaster, .memEnable, .forces,
    .img, .up, .ptp, .eth, .can, .lce, .ble, .twn, .sec, .upd, .out]

theorem startSteps_keeps (s : State) (e : StartEnv) (cause : Nat) : Keeps startSteps_may s (startSteps s e cause) := by
  unfold startSteps
  extract_lets +onlyGivenNames x0
  have h0 : Keeps startSteps_may s x0 := Keeps.step (Keeps.refl _ _) (dropVolatile_keeps ..) (by decide)
  clear_value x0
  refine Keeps.ite (Keeps.step h0 (haltStart_keeps ..) (by decide)) ?_
  extract_lets +onlyGivenNames x1
  have h1 : Keeps startSteps_may s x1 := Keeps.step h0 (step1_keeps ..) (by decide)
  clear_value x1
  split
  · exact Keeps.step h1 (haltStart_keeps ..) (by decide)
  · extract_lets +onlyGivenNames _
    extract_lets +onlyGivenNames x3
    have h3 : Keeps startSteps_may s x3 := Keeps.step (Keeps.step (Keeps.step h1 (firmwareStart_keeps (by assumption)) (by
        decide))
        (lockSat_keeps ..) (by decide)) (step3_keeps ..) (by decide)
    clear_value x3
    exact Keeps.step (Keeps.step (Keeps.step (Keeps.step (Keeps.step h3 (step4_keeps ..) (by decide)) (step5_keeps ..) (by
        decide)) (step6_keeps ..) (by decide)) (step7_keeps ..) (by decide)) (step8_keeps ..) (by decide)

theorem execStartUp_keeps (env : StartEnv) (s : State) : ∃ u, execStartUp env s = .next (close s u) ∧ Keeps [.regs, .live,
    .latch, .lowHeld, .pts, .base, .hold, .phc, .clk, .banks, .ch, .rings, .evq, .recq, .recSlots, .recNext, .recLost,
    .recLostCls, .watches, .rtc, .msix, .msixPend, .busMaster, .memEnable, .forces, .img, .up, .ptp, .eth, .can, .lce, .ble,
    .twn, .sec, .upd, .out] s u := by
  refine ⟨_, rfl, ?_⟩
  refine Keeps.ite (Keeps.refl _ _) ?_
  split
  · exact Keeps.step (Keeps.refl _ _) (startHeld_keeps ..) (by decide)
  · exact Keeps.step (Keeps.refl _ _) (startSteps_keeps ..) (by decide)

end Sys2Proof.Laws
end

