-- ==== Sys2Proof/Laws/State.lean ====
section
/-! SUPPORT. Reads after writes: the sparse stores, the registers, banks, channels, rings and points, and the fields each
basic update leaves, so that no proof unfolds a record update; and what closes a command. -/

namespace Sys2Proof.Laws

open Machine

/-! ### Sparse stores -/

theorem tget_terase_same {α : Type} (d : Nat → α) (m : Tab α) (k : Nat) : tget d (terase m k) k = d k := by
  induction m with
  | nil => rfl
  | cons e r ih =>
    obtain ⟨j, v⟩ := e
    by_cases h : j = k <;> simp [terase, tget, h, ih]

theorem tget_terase_other {α : Type} (d : Nat → α) (m : Tab α) {j k : Nat} (h : j ≠ k) :
    tget d (terase m k) j = tget d m j := by
  induction m with
  | nil => rfl
  | cons e r ih =>
    obtain ⟨i, v⟩ := e
    by_cases hk : i = k
    · have hj : ¬ i = j := fun e => h (e ▸ hk)
      simp [terase, tget, hk, ih, Ne.symm h]
    · by_cases hj : i = j <;> simp [terase, tget, hk, hj, ih, h]

theorem tget_tins_same {α : Type} (d : Nat → α) (m : Tab α) (k : Nat) (v : α) (h : ∀ e ∈ m, e.1 ≠ k) :
    tget d (tins m k v) k = v := by
  induction m with
  | nil => simp [tins, tget]
  | cons e r ih =>
    obtain ⟨j, w⟩ := e
    have hj : j ≠ k := h (j, w) (by simp)
    by_cases hk : k < j
    · simp [tins, tget, hk]
    · simp [tins, tget, hk, hj, ih (fun e he => h e (by simp [he]))]

theorem tget_tins_other {α : Type} (d : Nat → α) (m : Tab α) {j k : Nat} (v : α) (h : j ≠ k) :
    tget d (tins m k v) j = tget d m j := by
  induction m with
  | nil => simp [tins, tget, Ne.symm h]
  | cons e r ih =>
    obtain ⟨i, w⟩ := e
    by_cases hk : k < i
    · simp [tins, tget, hk, Ne.symm h]
    · simp only [tins, hk, if_false, tget, ih]

theorem key_terase {α : Type} (m : Tab α) (k : Nat) : ∀ e ∈ terase m k, e.1 ≠ k := by
  induction m with
  | nil => simp [terase]
  | cons e r ih =>
    obtain ⟨j, v⟩ := e
    by_cases h : j = k
    · simpa [terase, h] using ih
    · intro e he
      simp only [terase, h, if_false, List.mem_cons] at he
      rcases he with rfl | he
      · exact h
      · exact ih e he

@[simp] theorem tget_tset_same {α : Type} [DecidableEq α] (d : Nat → α) (m : Tab α) (k : Nat) (v : α) :
    tget d (tset d m k v) k = v := by
  unfold tset
  split
  · rename_i h
    rw [tget_terase_same, h]
  · exact tget_tins_same d _ k v (key_terase m k)

theorem tget_tset_other {α : Type} [DecidableEq α] (d : Nat → α) (m : Tab α) {j k : Nat} (v : α) (h : j ≠ k) :
    tget d (tset d m k v) j = tget d m j := by
  unfold tset
  split
  · exact tget_terase_other d m h
  · rw [tget_tins_other d _ v h, tget_terase_other d m h]

theorem tget_tset {α : Type} [DecidableEq α] (d : Nat → α) (m : Tab α) (j k : Nat) (v : α) :
    tget d (tset d m k v) j = if j = k then v else tget d m j := by
  split
  · rename_i h
    rw [h, tget_tset_same]
  · rename_i h
    exact tget_tset_other d m v h

theorem twfFrom_mono {α : Type} [DecidableEq α] (d : Nat → α) {a b : Nat} (h : a ≤ b) (m : Tab α) :
    twfFrom d b m = true → twfFrom d a m = true := by
  cases m with
  | nil => simp [twfFrom]
  | cons e r =>
    obtain ⟨k, v⟩ := e
    simp only [twfFrom, Bool.and_eq_true, decide_eq_true_eq]
    rintro ⟨⟨h1, h2⟩, h3⟩
    exact ⟨⟨Nat.le_trans h h1, h2⟩, h3⟩

theorem twfFrom_terase {α : Type} [DecidableEq α] (d : Nat → α) (b : Nat) (m : Tab α) (k : Nat) :
    twfFrom d b m = true → twfFrom d b (terase m k) = true := by
  induction m generalizing b with
  | nil => simp [terase, twfFrom]
  | cons e r ih =>
    obtain ⟨j, v⟩ := e
    simp only [twfFrom, Bool.and_eq_true, decide_eq_true_eq]
    rintro ⟨⟨h1, h2⟩, h3⟩
    by_cases hk : j = k
    · simp only [terase, hk, if_true]
      exact ih b (twfFrom_mono d (by omega) r h3)
    · simp only [terase, hk, if_false, twfFrom, Bool.and_eq_true, decide_eq_true_eq]
      exact ⟨⟨h1, h2⟩, ih _ h3⟩

theorem twfFrom_tins {α : Type} [DecidableEq α] (d : Nat → α) (b : Nat) (m : Tab α) (k : Nat) (v : α) (hb : b ≤ k)
    (hv : v ≠ d k) (hn : ∀ e ∈ m, e.1 ≠ k) : twfFrom d b m = true → twfFrom d b (tins m k v) = true := by
  induction m generalizing b with
  | nil => simp [tins, twfFrom, hb, hv]
  | cons e r ih =>
    obtain ⟨j, w⟩ := e
    have hj : j ≠ k := hn (j, w) (by simp)
    simp only [twfFrom, Bool.and_eq_true, decide_eq_true_eq]
    rintro ⟨⟨h1, h2⟩, h3⟩
    by_cases hk : k < j
    · simp only [tins, hk, if_true, twfFrom, Bool.and_eq_true, decide_eq_true_eq]
      exact ⟨⟨hb, hv⟩, ⟨hk, h2⟩, h3⟩
    · simp only [tins, hk, if_false, twfFrom, Bool.and_eq_true, decide_eq_true_eq]
      exact ⟨⟨h1, h2⟩, ih _ (by omega) (fun e he => hn e (by simp [he])) h3⟩

/-- A write keeps the canonical form. -/
theorem twf_tset {α : Type} [DecidableEq α] (d : Nat → α) (m : Tab α) (k : Nat) (v : α) (h : twf d m = true) :
    twf d (tset d m k v) = true := by
  unfold tset
  split
  · exact twfFrom_terase d 0 m k h
  · rename_i hv
    exact twfFrom_tins d 0 _ k v (Nat.zero_le k) hv (key_terase m k) (twfFrom_terase d 0 m k h)

/-! ### What a relation of pieces says of each field -/

theorem Keeps.regs_eq {may : List Piece} {s t : State} (h : Keeps may s t) (hp : Piece.regs ∉ may) : t.regs = s.regs := h.2 _ hp
theorem Keeps.live_eq {may : List Piece} {s t : State} (h : Keeps may s t) (hp : Piece.live ∉ may) : t.live = s.live := h.2 _ hp
theorem Keeps.latch_eq {may : List Piece} {s t : State} (h : Keeps may s t) (hp : Piece.latch ∉ may) : t.latch = s.latch := h.2 _ hp
theorem Keeps.lowHeld_eq {may : List Piece} {s t : State} (h : Keeps may s t) (hp : Piece.lowHeld ∉ may) : t.lowHeld = s.lowHeld := h.2 _ hp
theorem Keeps.pts_eq {may : List Piece} {s t : State} (h : Keeps may s t) (hp : Piece.pts ∉ may) : t.pts = s.pts := h.2 _ hp
theorem Keeps.phc_eq {may : List Piece} {s t : State} (h : Keeps may s t) (hp : Piece.phc ∉ may) : t.phc = s.phc := h.2 _ hp
theorem Keeps.clk_eq {may : List Piece} {s t : State} (h : Keeps may s t) (hp : Piece.clk ∉ may) : t.clk = s.clk := h.2 _ hp
theorem Keeps.banks_eq {may : List Piece} {s t : State} (h : Keeps may s t) (hp : Piece.banks ∉ may) : t.banks = s.banks := h.2 _ hp
theorem Keeps.ch_eq {may : List Piece} {s t : State} (h : Keeps may s t) (hp : Piece.ch ∉ may) : t.ch = s.ch := h.2 _ hp
theorem Keeps.rings_eq {may : List Piece} {s t : State} (h : Keeps may s t) (hp : Piece.rings ∉ may) : t.rings = s.rings := h.2 _ hp
theorem Keeps.evq_eq {may : List Piece} {s t : State} (h : Keeps may s t) (hp : Piece.evq ∉ may) : t.evq = s.evq := h.2 _ hp
theorem Keeps.recq_eq {may : List Piece} {s t : State} (h : Keeps may s t) (hp : Piece.recq ∉ may) : t.recq = s.recq := h.2 _ hp
theorem Keeps.recSlots_eq {may : List Piece} {s t : State} (h : Keeps may s t) (hp : Piece.recSlots ∉ may) : t.recSlots = s.recSlots := h.2 _ hp
theorem Keeps.recNext_eq {may : List Piece} {s t : State} (h : Keeps may s t) (hp : Piece.recNext ∉ may) : t.recNext = s.recNext := h.2 _ hp
theorem Keeps.recLost_eq {may : List Piece} {s t : State} (h : Keeps may s t) (hp : Piece.recLost ∉ may) : t.recLost = s.recLost := h.2 _ hp
theorem Keeps.recLostCls_eq {may : List Piece} {s t : State} (h : Keeps may s t) (hp : Piece.recLostCls ∉ may) : t.recLostCls = s.recLostCls := h.2 _ hp
theorem Keeps.watches_eq {may : List Piece} {s t : State} (h : Keeps may s t) (hp : Piece.watches ∉ may) : t.watches = s.watches := h.2 _ hp
theorem Keeps.rtc_eq {may : List Piece} {s t : State} (h : Keeps may s t) (hp : Piece.rtc ∉ may) : t.rtc = s.rtc := h.2 _ hp
theorem Keeps.msix_eq {may : List Piece} {s t : State} (h : Keeps may s t) (hp : Piece.msix ∉ may) : t.msix = s.msix := h.2 _ hp
theorem Keeps.msixPend_eq {may : List Piece} {s t : State} (h : Keeps may s t) (hp : Piece.msixPend ∉ may) : t.msixPend = s.msixPend := h.2 _ hp
theorem Keeps.busMaster_eq {may : List Piece} {s t : State} (h : Keeps may s t) (hp : Piece.busMaster ∉ may) : t.busMaster = s.busMaster := h.2 _ hp
theorem Keeps.memEnable_eq {may : List Piece} {s t : State} (h : Keeps may s t) (hp : Piece.memEnable ∉ may) : t.memEnable = s.memEnable := h.2 _ hp
theorem Keeps.forces_eq {may : List Piece} {s t : State} (h : Keeps may s t) (hp : Piece.forces ∉ may) : t.forces = s.forces := h.2 _ hp
theorem Keeps.img_eq {may : List Piece} {s t : State} (h : Keeps may s t) (hp : Piece.img ∉ may) : t.img = s.img := h.2 _ hp
theorem Keeps.up_eq {may : List Piece} {s t : State} (h : Keeps may s t) (hp : Piece.up ∉ may) : t.up = s.up := h.2 _ hp
theorem Keeps.ptp_eq {may : List Piece} {s t : State} (h : Keeps may s t) (hp : Piece.ptp ∉ may) : t.ptp = s.ptp := h.2 _ hp
theorem Keeps.eth_eq {may : List Piece} {s t : State} (h : Keeps may s t) (hp : Piece.eth ∉ may) : t.eth = s.eth := h.2 _ hp
theorem Keeps.can_eq {may : List Piece} {s t : State} (h : Keeps may s t) (hp : Piece.can ∉ may) : t.can = s.can := h.2 _ hp
theorem Keeps.mtr_eq {may : List Piece} {s t : State} (h : Keeps may s t) (hp : Piece.mtr ∉ may) : t.mtr = s.mtr := h.2 _ hp
theorem Keeps.lce_eq {may : List Piece} {s t : State} (h : Keeps may s t) (hp : Piece.lce ∉ may) : t.lce = s.lce := h.2 _ hp
theorem Keeps.ble_eq {may : List Piece} {s t : State} (h : Keeps may s t) (hp : Piece.ble ∉ may) : t.ble = s.ble := h.2 _ hp
theorem Keeps.twn_eq {may : List Piece} {s t : State} (h : Keeps may s t) (hp : Piece.twn ∉ may) : t.twn = s.twn := h.2 _ hp
theorem Keeps.sec_eq {may : List Piece} {s t : State} (h : Keeps may s t) (hp : Piece.sec ∉ may) : t.sec = s.sec := h.2 _ hp
theorem Keeps.upd_eq {may : List Piece} {s t : State} (h : Keeps may s t) (hp : Piece.upd ∉ may) : t.upd = s.upd := h.2 _ hp
theorem Keeps.free_eq {may : List Piece} {s t : State} (h : Keeps may s t) (hp : Piece.free ∉ may) : t.free = s.free := h.2 _ hp
theorem Keeps.out_eq {may : List Piece} {s t : State} (h : Keeps may s t) (hp : Piece.out ∉ may) : t.out = s.out := h.2 _ hp

theorem Keeps.holdOut_eq {may : List Piece} {s t : State} (h : Keeps may s t) (hp : Piece.hold ∉ may) :
    t.base.holdOut = s.base.holdOut := h.2 .hold hp

theorem Keeps.baseRest_eq {may : List Piece} {s t : State} (h : Keeps may s t) (hp : Piece.base ∉ may) :
    baseRest t = baseRest s := h.2 .base hp

theorem Keeps.rget {may : List Piece} {s t : State} (h : Keeps may s t) (hp : Piece.regs ∉ may) (o : Nat) :
    rget t o = Machine.rget s o := by unfold Machine.rget; rw [h.regs_eq hp]

theorem Keeps.lget {may : List Piece} {s t : State} (h : Keeps may s t) (hp : Piece.live ∉ may) (o : Nat) :
    lget t o = Machine.lget s o := by unfold Machine.lget; rw [h.live_eq hp]

theorem Keeps.chan {may : List Piece} {s t : State} (h : Keeps may s t) (hp : Piece.ch ∉ may) (c : Nat) :
    chan t c = Machine.chan s c := by unfold Machine.chan; rw [h.ch_eq hp]

theorem Keeps.bank {may : List Piece} {s t : State} (h : Keeps may s t) (hp : Piece.banks ∉ may) (b : Nat) :
    bank t b = Machine.bank s b := by unfold Machine.bank; rw [h.banks_eq hp]

theorem Keeps.ring {may : List Piece} {s t : State} (h : Keeps may s t) (hp : Piece.rings ∉ may) (n : Nat) :
    ring t n = Machine.ring s n := by unfold Machine.ring; rw [h.rings_eq hp]

theorem Keeps.pnat {may : List Piece} {s t : State} (h : Keeps may s t) (hp : Piece.pts ∉ may) (i : Nat) :
    pnat t i = Machine.pnat s i := by unfold Machine.pnat; rw [h.pts_eq hp]

/-! ### Reads after writes -/

@[simp] theorem rget_rset_same (s : State) (o : Nat) (v : Word) : rget (rset s o v) o = v := tget_tset_same ..

theorem rget_rset_other (s : State) {o p : Nat} (v : Word) (h : p ≠ o) : rget (rset s o v) p = rget s p :=
  tget_tset_other _ _ _ h

theorem rget_rset (s : State) (o p : Nat) (v : Word) : rget (rset s o v) p = if p = o then v else rget s p := tget_tset ..

@[simp] theorem lget_lset_same (s : State) (o : Nat) (v : Word) : lget (lset s o v) o = v := tget_tset_same ..

theorem lget_lset (s : State) (o p : Nat) (v : Word) : lget (lset s o v) p = if p = o then v else lget s p := tget_tset ..

@[simp] theorem chan_setChan_same (s : State) (c : Nat) (v : Chan) : chan (setChan s c v) c = v := tget_tset_same ..

theorem chan_setChan (s : State) (c d : Nat) (v : Chan) : chan (setChan s c v) d = if d = c then v else chan s d := tget_tset ..

theorem chan_modChan (s : State) (c d : Nat) (f : Chan → Chan) :
    chan (modChan s c f) d = if d = c then f (chan s c) else chan s d := tget_tset ..

@[simp] theorem bank_setBank_same (s : State) (b : Nat) (v : Bank) : bank (setBank s b v) b = v := tget_tset_same ..

theorem bank_setBank (s : State) (b d : Nat) (v : Bank) : bank (setBank s b v) d = if d = b then v else bank s d := tget_tset ..

theorem bank_modBank (s : State) (b d : Nat) (f : Bank → Bank) :
    bank (modBank s b f) d = if d = b then f (bank s b) else bank s d := tget_tset ..

/-! ### The fields each basic update leaves -/

@[simp] theorem rset_live (s : State) (o : Nat) (v : Word) : (rset s o v).live = s.live := rfl
@[simp] theorem rset_latch (s : State) (o : Nat) (v : Word) : (rset s o v).latch = s.latch := rfl
@[simp] theorem rset_lowHeld (s : State) (o : Nat) (v : Word) : (rset s o v).lowHeld = s.lowHeld := rfl
@[simp] theorem rset_pts (s : State) (o : Nat) (v : Word) : (rset s o v).pts = s.pts := rfl
@[simp] theorem rset_base (s : State) (o : Nat) (v : Word) : (rset s o v).base = s.base := rfl
@[simp] theorem rset_phc (s : State) (o : Nat) (v : Word) : (rset s o v).phc = s.phc := rfl
@[simp] theorem rset_clk (s : State) (o : Nat) (v : Word) : (rset s o v).clk = s.clk := rfl
@[simp] theorem rset_banks (s : State) (o : Nat) (v : Word) : (rset s o v).banks = s.banks := rfl
@[simp] theorem rset_ch (s : State) (o : Nat) (v : Word) : (rset s o v).ch = s.ch := rfl
@[simp] theorem rset_rings (s : State) (o : Nat) (v : Word) : (rset s o v).rings = s.rings := rfl
@[simp] theorem rset_evq (s : State) (o : Nat) (v : Word) : (rset s o v).evq = s.evq := rfl
@[simp] theorem rset_recq (s : State) (o : Nat) (v : Word) : (rset s o v).recq = s.recq := rfl
@[simp] theorem rset_recSlots (s : State) (o : Nat) (v : Word) : (rset s o v).recSlots = s.recSlots := rfl
@[simp] theorem rset_recNext (s : State) (o : Nat) (v : Word) : (rset s o v).recNext = s.recNext := rfl
@[simp] theorem rset_recLost (s : State) (o : Nat) (v : Word) : (rset s o v).recLost = s.recLost := rfl
@[simp] theorem rset_recLostCls (s : State) (o : Nat) (v : Word) : (rset s o v).recLostCls = s.recLostCls := rfl
@[simp] theorem rset_watches (s : State) (o : Nat) (v : Word) : (rset s o v).watches = s.watches := rfl
@[simp] theorem rset_rtc (s : State) (o : Nat) (v : Word) : (rset s o v).rtc = s.rtc := rfl
@[simp] theorem rset_msix (s : State) (o : Nat) (v : Word) : (rset s o v).msix = s.msix := rfl
@[simp] theorem rset_msixPend (s : State) (o : Nat) (v : Word) : (rset s o v).msixPend = s.msixPend := rfl
@[simp] theorem rset_busMaster (s : State) (o : Nat) (v : Word) : (rset s o v).busMaster = s.busMaster := rfl
@[simp] theorem rset_memEnable (s : State) (o : Nat) (v : Word) : (rset s o v).memEnable = s.memEnable := rfl
@[simp] theorem rset_forces (s : State) (o : Nat) (v : Word) : (rset s o v).forces = s.forces := rfl
@[simp] theorem rset_img (s : State) (o : Nat) (v : Word) : (rset s o v).img = s.img := rfl
@[simp] theorem rset_up (s : State) (o : Nat) (v : Word) : (rset s o v).up = s.up := rfl
@[simp] theorem rset_ptp (s : State) (o : Nat) (v : Word) : (rset s o v).ptp = s.ptp := rfl
@[simp] theorem rset_eth (s : State) (o : Nat) (v : Word) : (rset s o v).eth = s.eth := rfl
@[simp] theorem rset_can (s : State) (o : Nat) (v : Word) : (rset s o v).can = s.can := rfl
@[simp] theorem rset_mtr (s : State) (o : Nat) (v : Word) : (rset s o v).mtr = s.mtr := rfl
@[simp] theorem rset_lce (s : State) (o : Nat) (v : Word) : (rset s o v).lce = s.lce := rfl
@[simp] theorem rset_ble (s : State) (o : Nat) (v : Word) : (rset s o v).ble = s.ble := rfl
@[simp] theorem rset_twn (s : State) (o : Nat) (v : Word) : (rset s o v).twn = s.twn := rfl
@[simp] theorem rset_sec (s : State) (o : Nat) (v : Word) : (rset s o v).sec = s.sec := rfl
@[simp] theorem rset_upd (s : State) (o : Nat) (v : Word) : (rset s o v).upd = s.upd := rfl
@[simp] theorem rset_free (s : State) (o : Nat) (v : Word) : (rset s o v).free = s.free := rfl
@[simp] theorem rset_out (s : State) (o : Nat) (v : Word) : (rset s o v).out = s.out := rfl
@[simp] theorem rset_pending (s : State) (o : Nat) (v : Word) : (rset s o v).pending = s.pending := rfl

@[simp] theorem lset_regs (s : State) (o : Nat) (v : Word) : (lset s o v).regs = s.regs := rfl
@[simp] theorem lset_latch (s : State) (o : Nat) (v : Word) : (lset s o v).latch = s.latch := rfl
@[simp] theorem lset_lowHeld (s : State) (o : Nat) (v : Word) : (lset s o v).lowHeld = s.lowHeld := rfl
@[simp] theorem lset_pts (s : State) (o : Nat) (v : Word) : (lset s o v).pts = s.pts := rfl
@[simp] theorem lset_base (s : State) (o : Nat) (v : Word) : (lset s o v).base = s.base := rfl
@[simp] theorem lset_phc (s : State) (o : Nat) (v : Word) : (lset s o v).phc = s.phc := rfl
@[simp] theorem lset_clk (s : State) (o : Nat) (v : Word) : (lset s o v).clk = s.clk := rfl
@[simp] theorem lset_banks (s : State) (o : Nat) (v : Word) : (lset s o v).banks = s.banks := rfl
@[simp] theorem lset_ch (s : State) (o : Nat) (v : Word) : (lset s o v).ch = s.ch := rfl
@[simp] theorem lset_rings (s : State) (o : Nat) (v : Word) : (lset s o v).rings = s.rings := rfl
@[simp] theorem lset_evq (s : State) (o : Nat) (v : Word) : (lset s o v).evq = s.evq := rfl
@[simp] theorem lset_recq (s : State) (o : Nat) (v : Word) : (lset s o v).recq = s.recq := rfl
@[simp] theorem lset_recSlots (s : State) (o : Nat) (v : Word) : (lset s o v).recSlots = s.recSlots := rfl
@[simp] theorem lset_recNext (s : State) (o : Nat) (v : Word) : (lset s o v).recNext = s.recNext := rfl
@[simp] theorem lset_recLost (s : State) (o : Nat) (v : Word) : (lset s o v).recLost = s.recLost := rfl
@[simp] theorem lset_recLostCls (s : State) (o : Nat) (v : Word) : (lset s o v).recLostCls = s.recLostCls := rfl
@[simp] theorem lset_watches (s : State) (o : Nat) (v : Word) : (lset s o v).watches = s.watches := rfl
@[simp] theorem lset_rtc (s : State) (o : Nat) (v : Word) : (lset s o v).rtc = s.rtc := rfl
@[simp] theorem lset_msix (s : State) (o : Nat) (v : Word) : (lset s o v).msix = s.msix := rfl
@[simp] theorem lset_msixPend (s : State) (o : Nat) (v : Word) : (lset s o v).msixPend = s.msixPend := rfl
@[simp] theorem lset_busMaster (s : State) (o : Nat) (v : Word) : (lset s o v).busMaster = s.busMaster := rfl
@[simp] theorem lset_memEnable (s : State) (o : Nat) (v : Word) : (lset s o v).memEnable = s.memEnable := rfl
@[simp] theorem lset_forces (s : State) (o : Nat) (v : Word) : (lset s o v).forces = s.forces := rfl
@[simp] theorem lset_img (s : State) (o : Nat) (v : Word) : (lset s o v).img = s.img := rfl
@[simp] theorem lset_up (s : State) (o : Nat) (v : Word) : (lset s o v).up = s.up := rfl
@[simp] theorem lset_ptp (s : State) (o : Nat) (v : Word) : (lset s o v).ptp = s.ptp := rfl
@[simp] theorem lset_eth (s : State) (o : Nat) (v : Word) : (lset s o v).eth = s.eth := rfl
@[simp] theorem lset_can (s : State) (o : Nat) (v : Word) : (lset s o v).can = s.can := rfl
@[simp] theorem lset_mtr (s : State) (o : Nat) (v : Word) : (lset s o v).mtr = s.mtr := rfl
@[simp] theorem lset_lce (s : State) (o : Nat) (v : Word) : (lset s o v).lce = s.lce := rfl
@[simp] theorem lset_ble (s : State) (o : Nat) (v : Word) : (lset s o v).ble = s.ble := rfl
@[simp] theorem lset_twn (s : State) (o : Nat) (v : Word) : (lset s o v).twn = s.twn := rfl
@[simp] theorem lset_sec (s : State) (o : Nat) (v : Word) : (lset s o v).sec = s.sec := rfl
@[simp] theorem lset_upd (s : State) (o : Nat) (v : Word) : (lset s o v).upd = s.upd := rfl
@[simp] theorem lset_free (s : State) (o : Nat) (v : Word) : (lset s o v).free = s.free := rfl
@[simp] theorem lset_out (s : State) (o : Nat) (v : Word) : (lset s o v).out = s.out := rfl
@[simp] theorem lset_pending (s : State) (o : Nat) (v : Word) : (lset s o v).pending = s.pending := rfl

@[simp] theorem emit_regs (s : State) (o : Out) : (emit s o).regs = s.regs := rfl
@[simp] theorem emit_live (s : State) (o : Out) : (emit s o).live = s.live := rfl
@[simp] theorem emit_latch (s : State) (o : Out) : (emit s o).latch = s.latch := rfl
@[simp] theorem emit_lowHeld (s : State) (o : Out) : (emit s o).lowHeld = s.lowHeld := rfl
@[simp] theorem emit_pts (s : State) (o : Out) : (emit s o).pts = s.pts := rfl
@[simp] theorem emit_base (s : State) (o : Out) : (emit s o).base = s.base := rfl
@[simp] theorem emit_phc (s : State) (o : Out) : (emit s o).phc = s.phc := rfl
@[simp] theorem emit_clk (s : State) (o : Out) : (emit s o).clk = s.clk := rfl
@[simp] theorem emit_banks (s : State) (o : Out) : (emit s o).banks = s.banks := rfl
@[simp] theorem emit_ch (s : State) (o : Out) : (emit s o).ch = s.ch := rfl
@[simp] theorem emit_rings (s : State) (o : Out) : (emit s o).rings = s.rings := rfl
@[simp] theorem emit_evq (s : State) (o : Out) : (emit s o).evq = s.evq := rfl
@[simp] theorem emit_recq (s : State) (o : Out) : (emit s o).recq = s.recq := rfl
@[simp] theorem emit_recSlots (s : State) (o : Out) : (emit s o).recSlots = s.recSlots := rfl
@[simp] theorem emit_recNext (s : State) (o : Out) : (emit s o).recNext = s.recNext := rfl
@[simp] theorem emit_recLost (s : State) (o : Out) : (emit s o).recLost = s.recLost := rfl
@[simp] theorem emit_recLostCls (s : State) (o : Out) : (emit s o).recLostCls = s.recLostCls := rfl
@[simp] theorem emit_watches (s : State) (o : Out) : (emit s o).watches = s.watches := rfl
@[simp] theorem emit_rtc (s : State) (o : Out) : (emit s o).rtc = s.rtc := rfl
@[simp] theorem emit_msix (s : State) (o : Out) : (emit s o).msix = s.msix := rfl
@[simp] theorem emit_msixPend (s : State) (o : Out) : (emit s o).msixPend = s.msixPend := rfl
@[simp] theorem emit_busMaster (s : State) (o : Out) : (emit s o).busMaster = s.busMaster := rfl
@[simp] theorem emit_memEnable (s : State) (o : Out) : (emit s o).memEnable = s.memEnable := rfl
@[simp] theorem emit_forces (s : State) (o : Out) : (emit s o).forces = s.forces := rfl
@[simp] theorem emit_img (s : State) (o : Out) : (emit s o).img = s.img := rfl
@[simp] theorem emit_up (s : State) (o : Out) : (emit s o).up = s.up := rfl
@[simp] theorem emit_ptp (s : State) (o : Out) : (emit s o).ptp = s.ptp := rfl
@[simp] theorem emit_eth (s : State) (o : Out) : (emit s o).eth = s.eth := rfl
@[simp] theorem emit_can (s : State) (o : Out) : (emit s o).can = s.can := rfl
@[simp] theorem emit_mtr (s : State) (o : Out) : (emit s o).mtr = s.mtr := rfl
@[simp] theorem emit_lce (s : State) (o : Out) : (emit s o).lce = s.lce := rfl
@[simp] theorem emit_ble (s : State) (o : Out) : (emit s o).ble = s.ble := rfl
@[simp] theorem emit_twn (s : State) (o : Out) : (emit s o).twn = s.twn := rfl
@[simp] theorem emit_sec (s : State) (o : Out) : (emit s o).sec = s.sec := rfl
@[simp] theorem emit_upd (s : State) (o : Out) : (emit s o).upd = s.upd := rfl
@[simp] theorem emit_free (s : State) (o : Out) : (emit s o).free = s.free := rfl
@[simp] theorem emit_pending (s : State) (o : Out) : (emit s o).pending = s.pending := rfl

@[simp] theorem setBank_regs (s : State) (b : Nat) (v : Bank) : (setBank s b v).regs = s.regs := rfl
@[simp] theorem setBank_live (s : State) (b : Nat) (v : Bank) : (setBank s b v).live = s.live := rfl
@[simp] theorem setBank_latch (s : State) (b : Nat) (v : Bank) : (setBank s b v).latch = s.latch := rfl
@[simp] theorem setBank_lowHeld (s : State) (b : Nat) (v : Bank) : (setBank s b v).lowHeld = s.lowHeld := rfl
@[simp] theorem setBank_pts (s : State) (b : Nat) (v : Bank) : (setBank s b v).pts = s.pts := rfl
@[simp] theorem setBank_base (s : State) (b : Nat) (v : Bank) : (setBank s b v).base = s.base := rfl
@[simp] theorem setBank_phc (s : State) (b : Nat) (v : Bank) : (setBank s b v).phc = s.phc := rfl
@[simp] theorem setBank_clk (s : State) (b : Nat) (v : Bank) : (setBank s b v).clk = s.clk := rfl
@[simp] theorem setBank_ch (s : State) (b : Nat) (v : Bank) : (setBank s b v).ch = s.ch := rfl
@[simp] theorem setBank_rings (s : State) (b : Nat) (v : Bank) : (setBank s b v).rings = s.rings := rfl
@[simp] theorem setBank_evq (s : State) (b : Nat) (v : Bank) : (setBank s b v).evq = s.evq := rfl
@[simp] theorem setBank_recq (s : State) (b : Nat) (v : Bank) : (setBank s b v).recq = s.recq := rfl
@[simp] theorem setBank_recSlots (s : State) (b : Nat) (v : Bank) : (setBank s b v).recSlots = s.recSlots := rfl
@[simp] theorem setBank_recNext (s : State) (b : Nat) (v : Bank) : (setBank s b v).recNext = s.recNext := rfl
@[simp] theorem setBank_recLost (s : State) (b : Nat) (v : Bank) : (setBank s b v).recLost = s.recLost := rfl
@[simp] theorem setBank_recLostCls (s : State) (b : Nat) (v : Bank) : (setBank s b v).recLostCls = s.recLostCls := rfl
@[simp] theorem setBank_watches (s : State) (b : Nat) (v : Bank) : (setBank s b v).watches = s.watches := rfl
@[simp] theorem setBank_rtc (s : State) (b : Nat) (v : Bank) : (setBank s b v).rtc = s.rtc := rfl
@[simp] theorem setBank_msix (s : State) (b : Nat) (v : Bank) : (setBank s b v).msix = s.msix := rfl
@[simp] theorem setBank_msixPend (s : State) (b : Nat) (v : Bank) : (setBank s b v).msixPend = s.msixPend := rfl
@[simp] theorem setBank_busMaster (s : State) (b : Nat) (v : Bank) : (setBank s b v).busMaster = s.busMaster := rfl
@[simp] theorem setBank_memEnable (s : State) (b : Nat) (v : Bank) : (setBank s b v).memEnable = s.memEnable := rfl
@[simp] theorem setBank_forces (s : State) (b : Nat) (v : Bank) : (setBank s b v).forces = s.forces := rfl
@[simp] theorem setBank_img (s : State) (b : Nat) (v : Bank) : (setBank s b v).img = s.img := rfl
@[simp] theorem setBank_up (s : State) (b : Nat) (v : Bank) : (setBank s b v).up = s.up := rfl
@[simp] theorem setBank_ptp (s : State) (b : Nat) (v : Bank) : (setBank s b v).ptp = s.ptp := rfl
@[simp] theorem setBank_eth (s : State) (b : Nat) (v : Bank) : (setBank s b v).eth = s.eth := rfl
@[simp] theorem setBank_can (s : State) (b : Nat) (v : Bank) : (setBank s b v).can = s.can := rfl
@[simp] theorem setBank_mtr (s : State) (b : Nat) (v : Bank) : (setBank s b v).mtr = s.mtr := rfl
@[simp] theorem setBank_lce (s : State) (b : Nat) (v : Bank) : (setBank s b v).lce = s.lce := rfl
@[simp] theorem setBank_ble (s : State) (b : Nat) (v : Bank) : (setBank s b v).ble = s.ble := rfl
@[simp] theorem setBank_twn (s : State) (b : Nat) (v : Bank) : (setBank s b v).twn = s.twn := rfl
@[simp] theorem setBank_sec (s : State) (b : Nat) (v : Bank) : (setBank s b v).sec = s.sec := rfl
@[simp] theorem setBank_upd (s : State) (b : Nat) (v : Bank) : (setBank s b v).upd = s.upd := rfl
@[simp] theorem setBank_free (s : State) (b : Nat) (v : Bank) : (setBank s b v).free = s.free := rfl
@[simp] theorem setBank_out (s : State) (b : Nat) (v : Bank) : (setBank s b v).out = s.out := rfl
@[simp] theorem setBank_pending (s : State) (b : Nat) (v : Bank) : (setBank s b v).pending = s.pending := rfl

@[simp] theorem setChan_regs (s : State) (c : Nat) (v : Chan) : (setChan s c v).regs = s.regs := rfl
@[simp] theorem setChan_live (s : State) (c : Nat) (v : Chan) : (setChan s c v).live = s.live := rfl
@[simp] theorem setChan_latch (s : State) (c : Nat) (v : Chan) : (setChan s c v).latch = s.latch := rfl
@[simp] theorem setChan_lowHeld (s : State) (c : Nat) (v : Chan) : (setChan s c v).lowHeld = s.lowHeld := rfl
@[simp] theorem setChan_pts (s : State) (c : Nat) (v : Chan) : (setChan s c v).pts = s.pts := rfl
@[simp] theorem setChan_base (s : State) (c : Nat) (v : Chan) : (setChan s c v).base = s.base := rfl
@[simp] theorem setChan_phc (s : State) (c : Nat) (v : Chan) : (setChan s c v).phc = s.phc := rfl
@[simp] theorem setChan_clk (s : State) (c : Nat) (v : Chan) : (setChan s c v).clk = s.clk := rfl
@[simp] theorem setChan_banks (s : State) (c : Nat) (v : Chan) : (setChan s c v).banks = s.banks := rfl
@[simp] theorem setChan_rings (s : State) (c : Nat) (v : Chan) : (setChan s c v).rings = s.rings := rfl
@[simp] theorem setChan_evq (s : State) (c : Nat) (v : Chan) : (setChan s c v).evq = s.evq := rfl
@[simp] theorem setChan_recq (s : State) (c : Nat) (v : Chan) : (setChan s c v).recq = s.recq := rfl
@[simp] theorem setChan_recSlots (s : State) (c : Nat) (v : Chan) : (setChan s c v).recSlots = s.recSlots := rfl
@[simp] theorem setChan_recNext (s : State) (c : Nat) (v : Chan) : (setChan s c v).recNext = s.recNext := rfl
@[simp] theorem setChan_recLost (s : State) (c : Nat) (v : Chan) : (setChan s c v).recLost = s.recLost := rfl
@[simp] theorem setChan_recLostCls (s : State) (c : Nat) (v : Chan) : (setChan s c v).recLostCls = s.recLostCls := rfl
@[simp] theorem setChan_watches (s : State) (c : Nat) (v : Chan) : (setChan s c v).watches = s.watches := rfl
@[simp] theorem setChan_rtc (s : State) (c : Nat) (v : Chan) : (setChan s c v).rtc = s.rtc := rfl
@[simp] theorem setChan_msix (s : State) (c : Nat) (v : Chan) : (setChan s c v).msix = s.msix := rfl
@[simp] theorem setChan_msixPend (s : State) (c : Nat) (v : Chan) : (setChan s c v).msixPend = s.msixPend := rfl
@[simp] theorem setChan_busMaster (s : State) (c : Nat) (v : Chan) : (setChan s c v).busMaster = s.busMaster := rfl
@[simp] theorem setChan_memEnable (s : State) (c : Nat) (v : Chan) : (setChan s c v).memEnable = s.memEnable := rfl
@[simp] theorem setChan_forces (s : State) (c : Nat) (v : Chan) : (setChan s c v).forces = s.forces := rfl
@[simp] theorem setChan_img (s : State) (c : Nat) (v : Chan) : (setChan s c v).img = s.img := rfl
@[simp] theorem setChan_up (s : State) (c : Nat) (v : Chan) : (setChan s c v).up = s.up := rfl
@[simp] theorem setChan_ptp (s : State) (c : Nat) (v : Chan) : (setChan s c v).ptp = s.ptp := rfl
@[simp] theorem setChan_eth (s : State) (c : Nat) (v : Chan) : (setChan s c v).eth = s.eth := rfl
@[simp] theorem setChan_can (s : State) (c : Nat) (v : Chan) : (setChan s c v).can = s.can := rfl
@[simp] theorem setChan_mtr (s : State) (c : Nat) (v : Chan) : (setChan s c v).mtr = s.mtr := rfl
@[simp] theorem setChan_lce (s : State) (c : Nat) (v : Chan) : (setChan s c v).lce = s.lce := rfl
@[simp] theorem setChan_ble (s : State) (c : Nat) (v : Chan) : (setChan s c v).ble = s.ble := rfl
@[simp] theorem setChan_twn (s : State) (c : Nat) (v : Chan) : (setChan s c v).twn = s.twn := rfl
@[simp] theorem setChan_sec (s : State) (c : Nat) (v : Chan) : (setChan s c v).sec = s.sec := rfl
@[simp] theorem setChan_upd (s : State) (c : Nat) (v : Chan) : (setChan s c v).upd = s.upd := rfl
@[simp] theorem setChan_free (s : State) (c : Nat) (v : Chan) : (setChan s c v).free = s.free := rfl
@[simp] theorem setChan_out (s : State) (c : Nat) (v : Chan) : (setChan s c v).out = s.out := rfl
@[simp] theorem setChan_pending (s : State) (c : Nat) (v : Chan) : (setChan s c v).pending = s.pending := rfl

@[simp] theorem modBank_regs (s : State) (b : Nat) (f : Bank → Bank) : (modBank s b f).regs = s.regs := rfl
@[simp] theorem modBank_live (s : State) (b : Nat) (f : Bank → Bank) : (modBank s b f).live = s.live := rfl
@[simp] theorem modBank_latch (s : State) (b : Nat) (f : Bank → Bank) : (modBank s b f).latch = s.latch := rfl
@[simp] theorem modBank_lowHeld (s : State) (b : Nat) (f : Bank → Bank) : (modBank s b f).lowHeld = s.lowHeld := rfl
@[simp] theorem modBank_pts (s : State) (b : Nat) (f : Bank → Bank) : (modBank s b f).pts = s.pts := rfl
@[simp] theorem modBank_base (s : State) (b : Nat) (f : Bank → Bank) : (modBank s b f).base = s.base := rfl
@[simp] theorem modBank_phc (s : State) (b : Nat) (f : Bank → Bank) : (modBank s b f).phc = s.phc := rfl
@[simp] theorem modBank_clk (s : State) (b : Nat) (f : Bank → Bank) : (modBank s b f).clk = s.clk := rfl
@[simp] theorem modBank_ch (s : State) (b : Nat) (f : Bank → Bank) : (modBank s b f).ch = s.ch := rfl
@[simp] theorem modBank_rings (s : State) (b : Nat) (f : Bank → Bank) : (modBank s b f).rings = s.rings := rfl
@[simp] theorem modBank_evq (s : State) (b : Nat) (f : Bank → Bank) : (modBank s b f).evq = s.evq := rfl
@[simp] theorem modBank_recq (s : State) (b : Nat) (f : Bank → Bank) : (modBank s b f).recq = s.recq := rfl
@[simp] theorem modBank_recSlots (s : State) (b : Nat) (f : Bank → Bank) : (modBank s b f).recSlots = s.recSlots := rfl
@[simp] theorem modBank_recNext (s : State) (b : Nat) (f : Bank → Bank) : (modBank s b f).recNext = s.recNext := rfl
@[simp] theorem modBank_recLost (s : State) (b : Nat) (f : Bank → Bank) : (modBank s b f).recLost = s.recLost := rfl
@[simp] theorem modBank_recLostCls (s : State) (b : Nat) (f : Bank → Bank) : (modBank s b f).recLostCls = s.recLostCls := rfl
@[simp] theorem modBank_watches (s : State) (b : Nat) (f : Bank → Bank) : (modBank s b f).watches = s.watches := rfl
@[simp] theorem modBank_rtc (s : State) (b : Nat) (f : Bank → Bank) : (modBank s b f).rtc = s.rtc := rfl
@[simp] theorem modBank_msix (s : State) (b : Nat) (f : Bank → Bank) : (modBank s b f).msix = s.msix := rfl
@[simp] theorem modBank_msixPend (s : State) (b : Nat) (f : Bank → Bank) : (modBank s b f).msixPend = s.msixPend := rfl
@[simp] theorem modBank_busMaster (s : State) (b : Nat) (f : Bank → Bank) : (modBank s b f).busMaster = s.busMaster := rfl
@[simp] theorem modBank_memEnable (s : State) (b : Nat) (f : Bank → Bank) : (modBank s b f).memEnable = s.memEnable := rfl
@[simp] theorem modBank_forces (s : State) (b : Nat) (f : Bank → Bank) : (modBank s b f).forces = s.forces := rfl
@[simp] theorem modBank_img (s : State) (b : Nat) (f : Bank → Bank) : (modBank s b f).img = s.img := rfl
@[simp] theorem modBank_up (s : State) (b : Nat) (f : Bank → Bank) : (modBank s b f).up = s.up := rfl
@[simp] theorem modBank_ptp (s : State) (b : Nat) (f : Bank → Bank) : (modBank s b f).ptp = s.ptp := rfl
@[simp] theorem modBank_eth (s : State) (b : Nat) (f : Bank → Bank) : (modBank s b f).eth = s.eth := rfl
@[simp] theorem modBank_can (s : State) (b : Nat) (f : Bank → Bank) : (modBank s b f).can = s.can := rfl
@[simp] theorem modBank_mtr (s : State) (b : Nat) (f : Bank → Bank) : (modBank s b f).mtr = s.mtr := rfl
@[simp] theorem modBank_lce (s : State) (b : Nat) (f : Bank → Bank) : (modBank s b f).lce = s.lce := rfl
@[simp] theorem modBank_ble (s : State) (b : Nat) (f : Bank → Bank) : (modBank s b f).ble = s.ble := rfl
@[simp] theorem modBank_twn (s : State) (b : Nat) (f : Bank → Bank) : (modBank s b f).twn = s.twn := rfl
@[simp] theorem modBank_sec (s : State) (b : Nat) (f : Bank → Bank) : (modBank s b f).sec = s.sec := rfl
@[simp] theorem modBank_upd (s : State) (b : Nat) (f : Bank → Bank) : (modBank s b f).upd = s.upd := rfl
@[simp] theorem modBank_free (s : State) (b : Nat) (f : Bank → Bank) : (modBank s b f).free = s.free := rfl
@[simp] theorem modBank_out (s : State) (b : Nat) (f : Bank → Bank) : (modBank s b f).out = s.out := rfl
@[simp] theorem modBank_pending (s : State) (b : Nat) (f : Bank → Bank) : (modBank s b f).pending = s.pending := rfl

@[simp] theorem modChan_regs (s : State) (c : Nat) (f : Chan → Chan) : (modChan s c f).regs = s.regs := rfl
@[simp] theorem modChan_live (s : State) (c : Nat) (f : Chan → Chan) : (modChan s c f).live = s.live := rfl
@[simp] theorem modChan_latch (s : State) (c : Nat) (f : Chan → Chan) : (modChan s c f).latch = s.latch := rfl
@[simp] theorem modChan_lowHeld (s : State) (c : Nat) (f : Chan → Chan) : (modChan s c f).lowHeld = s.lowHeld := rfl
@[simp] theorem modChan_pts (s : State) (c : Nat) (f : Chan → Chan) : (modChan s c f).pts = s.pts := rfl
@[simp] theorem modChan_base (s : State) (c : Nat) (f : Chan → Chan) : (modChan s c f).base = s.base := rfl
@[simp] theorem modChan_phc (s : State) (c : Nat) (f : Chan → Chan) : (modChan s c f).phc = s.phc := rfl
@[simp] theorem modChan_clk (s : State) (c : Nat) (f : Chan → Chan) : (modChan s c f).clk = s.clk := rfl
@[simp] theorem modChan_banks (s : State) (c : Nat) (f : Chan → Chan) : (modChan s c f).banks = s.banks := rfl
@[simp] theorem modChan_rings (s : State) (c : Nat) (f : Chan → Chan) : (modChan s c f).rings = s.rings := rfl
@[simp] theorem modChan_evq (s : State) (c : Nat) (f : Chan → Chan) : (modChan s c f).evq = s.evq := rfl
@[simp] theorem modChan_recq (s : State) (c : Nat) (f : Chan → Chan) : (modChan s c f).recq = s.recq := rfl
@[simp] theorem modChan_recSlots (s : State) (c : Nat) (f : Chan → Chan) : (modChan s c f).recSlots = s.recSlots := rfl
@[simp] theorem modChan_recNext (s : State) (c : Nat) (f : Chan → Chan) : (modChan s c f).recNext = s.recNext := rfl
@[simp] theorem modChan_recLost (s : State) (c : Nat) (f : Chan → Chan) : (modChan s c f).recLost = s.recLost := rfl
@[simp] theorem modChan_recLostCls (s : State) (c : Nat) (f : Chan → Chan) : (modChan s c f).recLostCls = s.recLostCls := rfl
@[simp] theorem modChan_watches (s : State) (c : Nat) (f : Chan → Chan) : (modChan s c f).watches = s.watches := rfl
@[simp] theorem modChan_rtc (s : State) (c : Nat) (f : Chan → Chan) : (modChan s c f).rtc = s.rtc := rfl
@[simp] theorem modChan_msix (s : State) (c : Nat) (f : Chan → Chan) : (modChan s c f).msix = s.msix := rfl
@[simp] theorem modChan_msixPend (s : State) (c : Nat) (f : Chan → Chan) : (modChan s c f).msixPend = s.msixPend := rfl
@[simp] theorem modChan_busMaster (s : State) (c : Nat) (f : Chan → Chan) : (modChan s c f).busMaster = s.busMaster := rfl
@[simp] theorem modChan_memEnable (s : State) (c : Nat) (f : Chan → Chan) : (modChan s c f).memEnable = s.memEnable := rfl
@[simp] theorem modChan_forces (s : State) (c : Nat) (f : Chan → Chan) : (modChan s c f).forces = s.forces := rfl
@[simp] theorem modChan_img (s : State) (c : Nat) (f : Chan → Chan) : (modChan s c f).img = s.img := rfl
@[simp] theorem modChan_up (s : State) (c : Nat) (f : Chan → Chan) : (modChan s c f).up = s.up := rfl
@[simp] theorem modChan_ptp (s : State) (c : Nat) (f : Chan → Chan) : (modChan s c f).ptp = s.ptp := rfl
@[simp] theorem modChan_eth (s : State) (c : Nat) (f : Chan → Chan) : (modChan s c f).eth = s.eth := rfl
@[simp] theorem modChan_can (s : State) (c : Nat) (f : Chan → Chan) : (modChan s c f).can = s.can := rfl
@[simp] theorem modChan_mtr (s : State) (c : Nat) (f : Chan → Chan) : (modChan s c f).mtr = s.mtr := rfl
@[simp] theorem modChan_lce (s : State) (c : Nat) (f : Chan → Chan) : (modChan s c f).lce = s.lce := rfl
@[simp] theorem modChan_ble (s : State) (c : Nat) (f : Chan → Chan) : (modChan s c f).ble = s.ble := rfl
@[simp] theorem modChan_twn (s : State) (c : Nat) (f : Chan → Chan) : (modChan s c f).twn = s.twn := rfl
@[simp] theorem modChan_sec (s : State) (c : Nat) (f : Chan → Chan) : (modChan s c f).sec = s.sec := rfl
@[simp] theorem modChan_upd (s : State) (c : Nat) (f : Chan → Chan) : (modChan s c f).upd = s.upd := rfl
@[simp] theorem modChan_free (s : State) (c : Nat) (f : Chan → Chan) : (modChan s c f).free = s.free := rfl
@[simp] theorem modChan_out (s : State) (c : Nat) (f : Chan → Chan) : (modChan s c f).out = s.out := rfl
@[simp] theorem modChan_pending (s : State) (c : Nat) (f : Chan → Chan) : (modChan s c f).pending = s.pending := rfl

@[simp] theorem setRing_regs (s : State) (n : Nat) (v : Ring) : (setRing s n v).regs = s.regs := rfl
@[simp] theorem setRing_live (s : State) (n : Nat) (v : Ring) : (setRing s n v).live = s.live := rfl
@[simp] theorem setRing_latch (s : State) (n : Nat) (v : Ring) : (setRing s n v).latch = s.latch := rfl
@[simp] theorem setRing_lowHeld (s : State) (n : Nat) (v : Ring) : (setRing s n v).lowHeld = s.lowHeld := rfl
@[simp] theorem setRing_pts (s : State) (n : Nat) (v : Ring) : (setRing s n v).pts = s.pts := rfl
@[simp] theorem setRing_base (s : State) (n : Nat) (v : Ring) : (setRing s n v).base = s.base := rfl
@[simp] theorem setRing_phc (s : State) (n : Nat) (v : Ring) : (setRing s n v).phc = s.phc := rfl
@[simp] theorem setRing_clk (s : State) (n : Nat) (v : Ring) : (setRing s n v).clk = s.clk := rfl
@[simp] theorem setRing_banks (s : State) (n : Nat) (v : Ring) : (setRing s n v).banks = s.banks := rfl
@[simp] theorem setRing_ch (s : State) (n : Nat) (v : Ring) : (setRing s n v).ch = s.ch := rfl
@[simp] theorem setRing_evq (s : State) (n : Nat) (v : Ring) : (setRing s n v).evq = s.evq := rfl
@[simp] theorem setRing_recq (s : State) (n : Nat) (v : Ring) : (setRing s n v).recq = s.recq := rfl
@[simp] theorem setRing_recSlots (s : State) (n : Nat) (v : Ring) : (setRing s n v).recSlots = s.recSlots := rfl
@[simp] theorem setRing_recNext (s : State) (n : Nat) (v : Ring) : (setRing s n v).recNext = s.recNext := rfl
@[simp] theorem setRing_recLost (s : State) (n : Nat) (v : Ring) : (setRing s n v).recLost = s.recLost := rfl
@[simp] theorem setRing_recLostCls (s : State) (n : Nat) (v : Ring) : (setRing s n v).recLostCls = s.recLostCls := rfl
@[simp] theorem setRing_watches (s : State) (n : Nat) (v : Ring) : (setRing s n v).watches = s.watches := rfl
@[simp] theorem setRing_rtc (s : State) (n : Nat) (v : Ring) : (setRing s n v).rtc = s.rtc := rfl
@[simp] theorem setRing_msix (s : State) (n : Nat) (v : Ring) : (setRing s n v).msix = s.msix := rfl
@[simp] theorem setRing_msixPend (s : State) (n : Nat) (v : Ring) : (setRing s n v).msixPend = s.msixPend := rfl
@[simp] theorem setRing_busMaster (s : State) (n : Nat) (v : Ring) : (setRing s n v).busMaster = s.busMaster := rfl
@[simp] theorem setRing_memEnable (s : State) (n : Nat) (v : Ring) : (setRing s n v).memEnable = s.memEnable := rfl
@[simp] theorem setRing_forces (s : State) (n : Nat) (v : Ring) : (setRing s n v).forces = s.forces := rfl
@[simp] theorem setRing_img (s : State) (n : Nat) (v : Ring) : (setRing s n v).img = s.img := rfl
@[simp] theorem setRing_up (s : State) (n : Nat) (v : Ring) : (setRing s n v).up = s.up := rfl
@[simp] theorem setRing_ptp (s : State) (n : Nat) (v : Ring) : (setRing s n v).ptp = s.ptp := rfl
@[simp] theorem setRing_eth (s : State) (n : Nat) (v : Ring) : (setRing s n v).eth = s.eth := rfl
@[simp] theorem setRing_can (s : State) (n : Nat) (v : Ring) : (setRing s n v).can = s.can := rfl
@[simp] theorem setRing_mtr (s : State) (n : Nat) (v : Ring) : (setRing s n v).mtr = s.mtr := rfl
@[simp] theorem setRing_lce (s : State) (n : Nat) (v : Ring) : (setRing s n v).lce = s.lce := rfl
@[simp] theorem setRing_ble (s : State) (n : Nat) (v : Ring) : (setRing s n v).ble = s.ble := rfl
@[simp] theorem setRing_twn (s : State) (n : Nat) (v : Ring) : (setRing s n v).twn = s.twn := rfl
@[simp] theorem setRing_sec (s : State) (n : Nat) (v : Ring) : (setRing s n v).sec = s.sec := rfl
@[simp] theorem setRing_upd (s : State) (n : Nat) (v : Ring) : (setRing s n v).upd = s.upd := rfl
@[simp] theorem setRing_free (s : State) (n : Nat) (v : Ring) : (setRing s n v).free = s.free := rfl
@[simp] theorem setRing_out (s : State) (n : Nat) (v : Ring) : (setRing s n v).out = s.out := rfl
@[simp] theorem setRing_pending (s : State) (n : Nat) (v : Ring) : (setRing s n v).pending = s.pending := rfl

@[simp] theorem pushEv_regs (s : State) (a b c : Nat) (l : List Word) (d e : Nat) (f g : Bool) : (pushEv s a b c l d e f g).regs = s.regs := rfl
@[simp] theorem pushEv_live (s : State) (a b c : Nat) (l : List Word) (d e : Nat) (f g : Bool) : (pushEv s a b c l d e f g).live = s.live := rfl
@[simp] theorem pushEv_latch (s : State) (a b c : Nat) (l : List Word) (d e : Nat) (f g : Bool) : (pushEv s a b c l d e f g).latch = s.latch := rfl
@[simp] theorem pushEv_lowHeld (s : State) (a b c : Nat) (l : List Word) (d e : Nat) (f g : Bool) : (pushEv s a b c l d e f g).lowHeld = s.lowHeld := rfl
@[simp] theorem pushEv_pts (s : State) (a b c : Nat) (l : List Word) (d e : Nat) (f g : Bool) : (pushEv s a b c l d e f g).pts = s.pts := rfl
@[simp] theorem pushEv_base (s : State) (a b c : Nat) (l : List Word) (d e : Nat) (f g : Bool) : (pushEv s a b c l d e f g).base = s.base := rfl
@[simp] theorem pushEv_phc (s : State) (a b c : Nat) (l : List Word) (d e : Nat) (f g : Bool) : (pushEv s a b c l d e f g).phc = s.phc := rfl
@[simp] theorem pushEv_clk (s : State) (a b c : Nat) (l : List Word) (d e : Nat) (f g : Bool) : (pushEv s a b c l d e f g).clk = s.clk := rfl
@[simp] theorem pushEv_banks (s : State) (a b c : Nat) (l : List Word) (d e : Nat) (f g : Bool) : (pushEv s a b c l d e f g).banks = s.banks := rfl
@[simp] theorem pushEv_ch (s : State) (a b c : Nat) (l : List Word) (d e : Nat) (f g : Bool) : (pushEv s a b c l d e f g).ch = s.ch := rfl
@[simp] theorem pushEv_rings (s : State) (a b c : Nat) (l : List Word) (d e : Nat) (f g : Bool) : (pushEv s a b c l d e f g).rings = s.rings := rfl
@[simp] theorem pushEv_recq (s : State) (a b c : Nat) (l : List Word) (d e : Nat) (f g : Bool) : (pushEv s a b c l d e f g).recq = s.recq := rfl
@[simp] theorem pushEv_recSlots (s : State) (a b c : Nat) (l : List Word) (d e : Nat) (f g : Bool) : (pushEv s a b c l d e f g).recSlots = s.recSlots := rfl
@[simp] theorem pushEv_recNext (s : State) (a b c : Nat) (l : List Word) (d e : Nat) (f g : Bool) : (pushEv s a b c l d e f g).recNext = s.recNext := rfl
@[simp] theorem pushEv_recLost (s : State) (a b c : Nat) (l : List Word) (d e : Nat) (f g : Bool) : (pushEv s a b c l d e f g).recLost = s.recLost := rfl
@[simp] theorem pushEv_recLostCls (s : State) (a b c : Nat) (l : List Word) (d e : Nat) (f g : Bool) : (pushEv s a b c l d e f g).recLostCls = s.recLostCls := rfl
@[simp] theorem pushEv_watches (s : State) (a b c : Nat) (l : List Word) (d e : Nat) (f g : Bool) : (pushEv s a b c l d e f g).watches = s.watches := rfl
@[simp] theorem pushEv_rtc (s : State) (a b c : Nat) (l : List Word) (d e : Nat) (f g : Bool) : (pushEv s a b c l d e f g).rtc = s.rtc := rfl
@[simp] theorem pushEv_msix (s : State) (a b c : Nat) (l : List Word) (d e : Nat) (f g : Bool) : (pushEv s a b c l d e f g).msix = s.msix := rfl
@[simp] theorem pushEv_msixPend (s : State) (a b c : Nat) (l : List Word) (d e : Nat) (f g : Bool) : (pushEv s a b c l d e f g).msixPend = s.msixPend := rfl
@[simp] theorem pushEv_busMaster (s : State) (a b c : Nat) (l : List Word) (d e : Nat) (f g : Bool) : (pushEv s a b c l d e f g).busMaster = s.busMaster := rfl
@[simp] theorem pushEv_memEnable (s : State) (a b c : Nat) (l : List Word) (d e : Nat) (f g : Bool) : (pushEv s a b c l d e f g).memEnable = s.memEnable := rfl
@[simp] theorem pushEv_forces (s : State) (a b c : Nat) (l : List Word) (d e : Nat) (f g : Bool) : (pushEv s a b c l d e f g).forces = s.forces := rfl
@[simp] theorem pushEv_img (s : State) (a b c : Nat) (l : List Word) (d e : Nat) (f g : Bool) : (pushEv s a b c l d e f g).img = s.img := rfl
@[simp] theorem pushEv_up (s : State) (a b c : Nat) (l : List Word) (d e : Nat) (f g : Bool) : (pushEv s a b c l d e f g).up = s.up := rfl
@[simp] theorem pushEv_ptp (s : State) (a b c : Nat) (l : List Word) (d e : Nat) (f g : Bool) : (pushEv s a b c l d e f g).ptp = s.ptp := rfl
@[simp] theorem pushEv_eth (s : State) (a b c : Nat) (l : List Word) (d e : Nat) (f g : Bool) : (pushEv s a b c l d e f g).eth = s.eth := rfl
@[simp] theorem pushEv_can (s : State) (a b c : Nat) (l : List Word) (d e : Nat) (f g : Bool) : (pushEv s a b c l d e f g).can = s.can := rfl
@[simp] theorem pushEv_mtr (s : State) (a b c : Nat) (l : List Word) (d e : Nat) (f g : Bool) : (pushEv s a b c l d e f g).mtr = s.mtr := rfl
@[simp] theorem pushEv_lce (s : State) (a b c : Nat) (l : List Word) (d e : Nat) (f g : Bool) : (pushEv s a b c l d e f g).lce = s.lce := rfl
@[simp] theorem pushEv_ble (s : State) (a b c : Nat) (l : List Word) (d e : Nat) (f g : Bool) : (pushEv s a b c l d e f g).ble = s.ble := rfl
@[simp] theorem pushEv_twn (s : State) (a b c : Nat) (l : List Word) (d e : Nat) (f g : Bool) : (pushEv s a b c l d e f g).twn = s.twn := rfl
@[simp] theorem pushEv_sec (s : State) (a b c : Nat) (l : List Word) (d e : Nat) (f g : Bool) : (pushEv s a b c l d e f g).sec = s.sec := rfl
@[simp] theorem pushEv_upd (s : State) (a b c : Nat) (l : List Word) (d e : Nat) (f g : Bool) : (pushEv s a b c l d e f g).upd = s.upd := rfl
@[simp] theorem pushEv_free (s : State) (a b c : Nat) (l : List Word) (d e : Nat) (f g : Bool) : (pushEv s a b c l d e f g).free = s.free := rfl
@[simp] theorem pushEv_out (s : State) (a b c : Nat) (l : List Word) (d e : Nat) (f g : Bool) : (pushEv s a b c l d e f g).out = s.out := rfl
@[simp] theorem pushEv_pending (s : State) (a b c : Nat) (l : List Word) (d e : Nat) (f g : Bool) : (pushEv s a b c l d e f g).pending = s.pending := rfl

/-! ### The end of a command -/

theorem watchScan_spec (s : State) : ∃ q w, watchScan s = { s with evq := s.evq ++ q, watches := w } ∧
    q.filter (fun e => e.code != 5) = [] ∧
    w.map (fun w => (w.point, w.part, w.deadband, w.minMs)) = watchSetups s := by
  have fold : ∀ (l : List Watch) (a : State × List Watch), ∃ q w,
      l.foldl watchOne a = ({ a.1 with evq := a.1.evq ++ q }, a.2 ++ w) ∧ q.filter (fun e => e.code != 5) = [] ∧
      w.map (fun w => (w.point, w.part, w.deadband, w.minMs)) = l.map (fun w => (w.point, w.part, w.deadband, w.minMs)) := by
    intro l
    induction l with
    | nil => intro a; exact ⟨[], [], by simp, rfl, rfl⟩
    | cons x l ih =>
      intro a
      have one : ∃ q y, watchOne a x = ({ a.1 with evq := a.1.evq ++ q }, a.2 ++ [y]) ∧
          q.filter (fun e => e.code != 5) = [] ∧ (y.point, y.part, y.deadband, y.minMs) = (x.point, x.part, x.deadband, x.minMs) := by
        unfold watchOne
        dsimp only
        split
        · exact ⟨[], x, by simp, rfl, rfl⟩
        split
        · exact ⟨[], { x with held := true }, by simp, rfl, rfl⟩
        · exact ⟨_, _, rfl, rfl, rfl⟩
      obtain ⟨q, y, e, hq, hy⟩ := one
      obtain ⟨q2, w2, e2, hq2, hw2⟩ := ih (watchOne a x)
      refine ⟨q ++ q2, y :: w2, ?_, ?_, ?_⟩
      · rw [List.foldl_cons, e2, e]
        simp [List.append_assoc]
      · rw [List.filter_append, hq, hq2]; rfl
      · rw [List.map_cons, List.map_cons, hw2, hy]
  unfold watchScan
  split
  · refine ⟨[], s.watches, ?_, rfl, rfl⟩
    simp
  · obtain ⟨q, w, e, hq, hw⟩ := fold s.watches (s, [])
    refine ⟨q, w, ?_, hq, hw⟩
    rw [e]
    simp

/-- What closes a command touches the watches, the events they raise, and HOLD_OUT. -/
theorem close_spec (s t : State) : ∃ q w, close s t =
      { t with evq := t.evq ++ q, watches := w, base := { t.base with holdOut := t.base.holdOut && holdMay t }, pending := s.pending } ∧
    q.filter (fun e => e.code != 5) = [] ∧
    w.map (fun w => (w.point, w.part, w.deadband, w.minMs)) = watchSetups t := by
  obtain ⟨q, w, e, hq, hw⟩ := watchScan_spec t
  refine ⟨q, w, ?_, hq, hw⟩
  have hs : ∀ u : State, settle u = { u with base := { u.base with holdOut := u.base.holdOut && holdMay u } } := by
    intro u
    unfold settle
    split
    · rename_i h
      have : (u.base.holdOut && holdMay u) = false := by
        unfold holdMay
        simp only [Bool.and_eq_true, Bool.not_eq_true'] at h
        rw [h.2]; simp
      rw [this]
    · rename_i h
      have : (u.base.holdOut && holdMay u) = u.base.holdOut := by
        unfold holdMay
        cases hh : u.base.holdOut
        · rfl
        · simp only [hh, Bool.true_and, Bool.not_eq_true', Bool.not_eq_false] at h ⊢
          exact h
      rw [this]
  unfold close
  rw [e, hs]
  rfl

@[simp] theorem close_regs (s t : State) : (close s t).regs = t.regs := by
  obtain ⟨q, w, e, -, -⟩ := close_spec s t
  rw [e]
@[simp] theorem close_live (s t : State) : (close s t).live = t.live := by
  obtain ⟨q, w, e, -, -⟩ := close_spec s t
  rw [e]
@[simp] theorem close_latch (s t : State) : (close s t).latch = t.latch := by
  obtain ⟨q, w, e, -, -⟩ := close_spec s t
  rw [e]
@[simp] theorem close_lowHeld (s t : State) : (close s t).lowHeld = t.lowHeld := by
  obtain ⟨q, w, e, -, -⟩ := close_spec s t
  rw [e]
@[simp] theorem close_pts (s t : State) : (close s t).pts = t.pts := by
  obtain ⟨q, w, e, -, -⟩ := close_spec s t
  rw [e]
@[simp] theorem close_phc (s t : State) : (close s t).phc = t.phc := by
  obtain ⟨q, w, e, -, -⟩ := close_spec s t
  rw [e]
@[simp] theorem close_clk (s t : State) : (close s t).clk = t.clk := by
  obtain ⟨q, w, e, -, -⟩ := close_spec s t
  rw [e]
@[simp] theorem close_banks (s t : State) : (close s t).banks = t.banks := by
  obtain ⟨q, w, e, -, -⟩ := close_spec s t
  rw [e]
@[simp] theorem close_ch (s t : State) : (close s t).ch = t.ch := by
  obtain ⟨q, w, e, -, -⟩ := close_spec s t
  rw [e]
@[simp] theorem close_rings (s t : State) : (close s t).rings = t.rings := by
  obtain ⟨q, w, e, -, -⟩ := close_spec s t
  rw [e]
@[simp] theorem close_recq (s t : State) : (close s t).recq = t.recq := by
  obtain ⟨q, w, e, -, -⟩ := close_spec s t
  rw [e]
@[simp] theorem close_recSlots (s t : State) : (close s t).recSlots = t.recSlots := by
  obtain ⟨q, w, e, -, -⟩ := close_spec s t
  rw [e]
@[simp] theorem close_recNext (s t : State) : (close s t).recNext = t.recNext := by
  obtain ⟨q, w, e, -, -⟩ := close_spec s t
  rw [e]
@[simp] theorem close_recLost (s t : State) : (close s t).recLost = t.recLost := by
  obtain ⟨q, w, e, -, -⟩ := close_spec s t
  rw [e]
@[simp] theorem close_recLostCls (s t : State) : (close s t).recLostCls = t.recLostCls := by
  obtain ⟨q, w, e, -, -⟩ := close_spec s t
  rw [e]
@[simp] theorem close_rtc (s t : State) : (close s t).rtc = t.rtc := by
  obtain ⟨q, w, e, -, -⟩ := close_spec s t
  rw [e]
@[simp] theorem close_msix (s t : State) : (close s t).msix = t.msix := by
  obtain ⟨q, w, e, -, -⟩ := close_spec s t
  rw [e]
@[simp] theorem close_msixPend (s t : State) : (close s t).msixPend = t.msixPend := by
  obtain ⟨q, w, e, -, -⟩ := close_spec s t
  rw [e]
@[simp] theorem close_busMaster (s t : State) : (close s t).busMaster = t.busMaster := by
  obtain ⟨q, w, e, -, -⟩ := close_spec s t
  rw [e]
@[simp] theorem close_memEnable (s t : State) : (close s t).memEnable = t.memEnable := by
  obtain ⟨q, w, e, -, -⟩ := close_spec s t
  rw [e]
@[simp] theorem close_forces (s t : State) : (close s t).forces = t.forces := by
  obtain ⟨q, w, e, -, -⟩ := close_spec s t
  rw [e]
@[simp] theorem close_img (s t : State) : (close s t).img = t.img := by
  obtain ⟨q, w, e, -, -⟩ := close_spec s t
  rw [e]
@[simp] theorem close_up (s t : State) : (close s t).up = t.up := by
  obtain ⟨q, w, e, -, -⟩ := close_spec s t
  rw [e]
@[simp] theorem close_ptp (s t : State) : (close s t).ptp = t.ptp := by
  obtain ⟨q, w, e, -, -⟩ := close_spec s t
  rw [e]
@[simp] theorem close_eth (s t : State) : (close s t).eth = t.eth := by
  obtain ⟨q, w, e, -, -⟩ := close_spec s t
  rw [e]
@[simp] theorem close_can (s t : State) : (close s t).can = t.can := by
  obtain ⟨q, w, e, -, -⟩ := close_spec s t
  rw [e]
@[simp] theorem close_mtr (s t : State) : (close s t).mtr = t.mtr := by
  obtain ⟨q, w, e, -, -⟩ := close_spec s t
  rw [e]
@[simp] theorem close_lce (s t : State) : (close s t).lce = t.lce := by
  obtain ⟨q, w, e, -, -⟩ := close_spec s t
  rw [e]
@[simp] theorem close_ble (s t : State) : (close s t).ble = t.ble := by
  obtain ⟨q, w, e, -, -⟩ := close_spec s t
  rw [e]
@[simp] theorem close_twn (s t : State) : (close s t).twn = t.twn := by
  obtain ⟨q, w, e, -, -⟩ := close_spec s t
  rw [e]
@[simp] theorem close_sec (s t : State) : (close s t).sec = t.sec := by
  obtain ⟨q, w, e, -, -⟩ := close_spec s t
  rw [e]
@[simp] theorem close_upd (s t : State) : (close s t).upd = t.upd := by
  obtain ⟨q, w, e, -, -⟩ := close_spec s t
  rw [e]
@[simp] theorem close_free (s t : State) : (close s t).free = t.free := by
  obtain ⟨q, w, e, -, -⟩ := close_spec s t
  rw [e]
@[simp] theorem close_out (s t : State) : (close s t).out = t.out := by
  obtain ⟨q, w, e, -, -⟩ := close_spec s t
  rw [e]
@[simp] theorem close_pending (s t : State) : (close s t).pending = s.pending := rfl

@[simp] theorem close_baseRest (s t : State) : baseRest (close s t) = baseRest t := by
  obtain ⟨q, w, e, -, -⟩ := close_spec s t
  rw [e]; rfl

@[simp] theorem close_rget (s t : State) (o : Nat) : rget (close s t) o = rget t o := by unfold rget; rw [close_regs]

@[simp] theorem close_lget (s t : State) (o : Nat) : lget (close s t) o = lget t o := by unfold lget; rw [close_live]

@[simp] theorem close_chan (s t : State) (c : Nat) : chan (close s t) c = chan t c := by unfold chan; rw [close_ch]

@[simp] theorem close_bank (s t : State) (b : Nat) : bank (close s t) b = bank t b := by unfold bank; rw [close_banks]

@[simp] theorem close_ring (s t : State) (n : Nat) : ring (close s t) n = ring t n := by unfold ring; rw [close_rings]

@[simp] theorem close_pnat (s t : State) (i : Nat) : pnat (close s t) i = pnat t i := by unfold pnat; rw [close_pts]

@[simp] theorem close_ownEvents (s t : State) : ownEvents (close s t) = ownEvents t := by
  obtain ⟨q, w, e, hq, -⟩ := close_spec s t
  rw [e]
  unfold ownEvents
  rw [List.filter_append, hq, List.append_nil]

@[simp] theorem close_watchSetups (s t : State) : watchSetups (close s t) = watchSetups t := by
  obtain ⟨q, w, e, -, hw⟩ := close_spec s t
  rw [e]
  exact hw

@[simp] theorem close_holdMay (s t : State) : holdMay (close s t) = holdMay t := by
  obtain ⟨q, w, e, -, -⟩ := close_spec s t
  rw [e]; rfl

@[simp] theorem close_holdOut (s t : State) : (close s t).base.holdOut = (t.base.holdOut && holdMay t) := by
  obtain ⟨q, w, e, -, -⟩ := close_spec s t
  rw [e]

/-- A command that changes only the pieces listed leaves the frame that statements name. -/
theorem Keeps.frame {may : List Piece} {s u : State} (h : Keeps may s u) : Frame may s (close s u) := by
  refine ⟨rfl, fun p hp => ?_⟩
  have hx := h.2 p hp
  cases p
  case hold => exact (close_holdOut s u).trans (by rw [close_holdMay]; exact congrArg (· && holdMay u) hx)
  case base => exact (close_baseRest s u).trans hx
  case evq => exact (close_ownEvents s u).trans (by unfold ownEvents; rw [show u.evq = s.evq from hx])
  case watches => exact (close_watchSetups s u).trans (by unfold watchSetups; rw [show u.watches = s.watches from hx])
  all_goals first
    | exact (close_regs s u).trans hx | exact (close_live s u).trans hx | exact (close_latch s u).trans hx
    | exact (close_lowHeld s u).trans hx | exact (close_pts s u).trans hx | exact (close_phc s u).trans hx
    | exact (close_clk s u).trans hx | exact (close_banks s u).trans hx | exact (close_ch s u).trans hx
    | exact (close_rings s u).trans hx | exact (close_recq s u).trans hx | exact (close_recSlots s u).trans hx
    | exact (close_recNext s u).trans hx | exact (close_recLost s u).trans hx | exact (close_recLostCls s u).trans hx
    | exact (close_rtc s u).trans hx | exact (close_msix s u).trans hx | exact (close_msixPend s u).trans hx
    | exact (close_busMaster s u).trans hx | exact (close_memEnable s u).trans hx | exact (close_forces s u).trans hx
    | exact (close_img s u).trans hx | exact (close_up s u).trans hx | exact (close_ptp s u).trans hx
    | exact (close_eth s u).trans hx | exact (close_can s u).trans hx | exact (close_mtr s u).trans hx
    | exact (close_lce s u).trans hx | exact (close_ble s u).trans hx | exact (close_twn s u).trans hx
    | exact (close_sec s u).trans hx | exact (close_upd s u).trans hx | exact (close_free s u).trans hx
    | exact (close_out s u).trans hx

theorem Frame.mono {a b : List Piece} {s t : State} (h : Frame a s t) (hab : a ⊆ b) : Frame b s t :=
  ⟨h.1, fun p hp => h.2 p (fun q => hp (hab q))⟩

end Sys2Proof.Laws
end

