-- ==== Sys2Proof/Laws/Fields.lean ====
section
/-! SUPPORT. The fields the operations on registers, events and points leave, for the simplifier. -/

namespace Sys2Proof.Laws

open Machine

theorem Keeps.base_eq {may : List Piece} {s t : State} (h : Keeps may s t) (hb : Piece.base ∉ may) (hh : Piece.hold ∉ may) :
    t.base = s.base := by
  have h1 := h.baseRest_eq hb
  have h2 := h.holdOut_eq hh
  have e : ∀ u : State, u.base = { baseRest u with holdOut := u.base.holdOut } := fun _ => rfl
  rw [e t, e s, h1, h2]

@[simp] theorem rsetFld_live (s : State) (o a b v : Nat) : (rsetFld s o a b v).live = s.live := rfl
@[simp] theorem rsetFld_latch (s : State) (o a b v : Nat) : (rsetFld s o a b v).latch = s.latch := rfl
@[simp] theorem rsetFld_lowHeld (s : State) (o a b v : Nat) : (rsetFld s o a b v).lowHeld = s.lowHeld := rfl
@[simp] theorem rsetFld_pts (s : State) (o a b v : Nat) : (rsetFld s o a b v).pts = s.pts := rfl
@[simp] theorem rsetFld_base (s : State) (o a b v : Nat) : (rsetFld s o a b v).base = s.base := rfl
@[simp] theorem rsetFld_phc (s : State) (o a b v : Nat) : (rsetFld s o a b v).phc = s.phc := rfl
@[simp] theorem rsetFld_clk (s : State) (o a b v : Nat) : (rsetFld s o a b v).clk = s.clk := rfl
@[simp] theorem rsetFld_banks (s : State) (o a b v : Nat) : (rsetFld s o a b v).banks = s.banks := rfl
@[simp] theorem rsetFld_ch (s : State) (o a b v : Nat) : (rsetFld s o a b v).ch = s.ch := rfl
@[simp] theorem rsetFld_rings (s : State) (o a b v : Nat) : (rsetFld s o a b v).rings = s.rings := rfl
@[simp] theorem rsetFld_evq (s : State) (o a b v : Nat) : (rsetFld s o a b v).evq = s.evq := rfl
@[simp] theorem rsetFld_recq (s : State) (o a b v : Nat) : (rsetFld s o a b v).recq = s.recq := rfl
@[simp] theorem rsetFld_recSlots (s : State) (o a b v : Nat) : (rsetFld s o a b v).recSlots = s.recSlots := rfl
@[simp] theorem rsetFld_recNext (s : State) (o a b v : Nat) : (rsetFld s o a b v).recNext = s.recNext := rfl
@[simp] theorem rsetFld_recLost (s : State) (o a b v : Nat) : (rsetFld s o a b v).recLost = s.recLost := rfl
@[simp] theorem rsetFld_recLostCls (s : State) (o a b v : Nat) : (rsetFld s o a b v).recLostCls = s.recLostCls := rfl
@[simp] theorem rsetFld_watches (s : State) (o a b v : Nat) : (rsetFld s o a b v).watches = s.watches := rfl
@[simp] theorem rsetFld_rtc (s : State) (o a b v : Nat) : (rsetFld s o a b v).rtc = s.rtc := rfl
@[simp] theorem rsetFld_msix (s : State) (o a b v : Nat) : (rsetFld s o a b v).msix = s.msix := rfl
@[simp] theorem rsetFld_msixPend (s : State) (o a b v : Nat) : (rsetFld s o a b v).msixPend = s.msixPend := rfl
@[simp] theorem rsetFld_busMaster (s : State) (o a b v : Nat) : (rsetFld s o a b v).busMaster = s.busMaster := rfl
@[simp] theorem rsetFld_memEnable (s : State) (o a b v : Nat) : (rsetFld s o a b v).memEnable = s.memEnable := rfl
@[simp] theorem rsetFld_forces (s : State) (o a b v : Nat) : (rsetFld s o a b v).forces = s.forces := rfl
@[simp] theorem rsetFld_img (s : State) (o a b v : Nat) : (rsetFld s o a b v).img = s.img := rfl
@[simp] theorem rsetFld_up (s : State) (o a b v : Nat) : (rsetFld s o a b v).up = s.up := rfl
@[simp] theorem rsetFld_ptp (s : State) (o a b v : Nat) : (rsetFld s o a b v).ptp = s.ptp := rfl
@[simp] theorem rsetFld_eth (s : State) (o a b v : Nat) : (rsetFld s o a b v).eth = s.eth := rfl
@[simp] theorem rsetFld_can (s : State) (o a b v : Nat) : (rsetFld s o a b v).can = s.can := rfl
@[simp] theorem rsetFld_mtr (s : State) (o a b v : Nat) : (rsetFld s o a b v).mtr = s.mtr := rfl
@[simp] theorem rsetFld_lce (s : State) (o a b v : Nat) : (rsetFld s o a b v).lce = s.lce := rfl
@[simp] theorem rsetFld_ble (s : State) (o a b v : Nat) : (rsetFld s o a b v).ble = s.ble := rfl
@[simp] theorem rsetFld_twn (s : State) (o a b v : Nat) : (rsetFld s o a b v).twn = s.twn := rfl
@[simp] theorem rsetFld_sec (s : State) (o a b v : Nat) : (rsetFld s o a b v).sec = s.sec := rfl
@[simp] theorem rsetFld_upd (s : State) (o a b v : Nat) : (rsetFld s o a b v).upd = s.upd := rfl
@[simp] theorem rsetFld_free (s : State) (o a b v : Nat) : (rsetFld s o a b v).free = s.free := rfl
@[simp] theorem rsetFld_out (s : State) (o a b v : Nat) : (rsetFld s o a b v).out = s.out := rfl

@[simp] theorem rinc_live (s : State) (o : Nat) : (rinc s o).live = s.live := rfl
@[simp] theorem rinc_latch (s : State) (o : Nat) : (rinc s o).latch = s.latch := rfl
@[simp] theorem rinc_lowHeld (s : State) (o : Nat) : (rinc s o).lowHeld = s.lowHeld := rfl
@[simp] theorem rinc_pts (s : State) (o : Nat) : (rinc s o).pts = s.pts := rfl
@[simp] theorem rinc_base (s : State) (o : Nat) : (rinc s o).base = s.base := rfl
@[simp] theorem rinc_phc (s : State) (o : Nat) : (rinc s o).phc = s.phc := rfl
@[simp] theorem rinc_clk (s : State) (o : Nat) : (rinc s o).clk = s.clk := rfl
@[simp] theorem rinc_banks (s : State) (o : Nat) : (rinc s o).banks = s.banks := rfl
@[simp] theorem rinc_ch (s : State) (o : Nat) : (rinc s o).ch = s.ch := rfl
@[simp] theorem rinc_rings (s : State) (o : Nat) : (rinc s o).rings = s.rings := rfl
@[simp] theorem rinc_evq (s : State) (o : Nat) : (rinc s o).evq = s.evq := rfl
@[simp] theorem rinc_recq (s : State) (o : Nat) : (rinc s o).recq = s.recq := rfl
@[simp] theorem rinc_recSlots (s : State) (o : Nat) : (rinc s o).recSlots = s.recSlots := rfl
@[simp] theorem rinc_recNext (s : State) (o : Nat) : (rinc s o).recNext = s.recNext := rfl
@[simp] theorem rinc_recLost (s : State) (o : Nat) : (rinc s o).recLost = s.recLost := rfl
@[simp] theorem rinc_recLostCls (s : State) (o : Nat) : (rinc s o).recLostCls = s.recLostCls := rfl
@[simp] theorem rinc_watches (s : State) (o : Nat) : (rinc s o).watches = s.watches := rfl
@[simp] theorem rinc_rtc (s : State) (o : Nat) : (rinc s o).rtc = s.rtc := rfl
@[simp] theorem rinc_msix (s : State) (o : Nat) : (rinc s o).msix = s.msix := rfl
@[simp] theorem rinc_msixPend (s : State) (o : Nat) : (rinc s o).msixPend = s.msixPend := rfl
@[simp] theorem rinc_busMaster (s : State) (o : Nat) : (rinc s o).busMaster = s.busMaster := rfl
@[simp] theorem rinc_memEnable (s : State) (o : Nat) : (rinc s o).memEnable = s.memEnable := rfl
@[simp] theorem rinc_forces (s : State) (o : Nat) : (rinc s o).forces = s.forces := rfl
@[simp] theorem rinc_img (s : State) (o : Nat) : (rinc s o).img = s.img := rfl
@[simp] theorem rinc_up (s : State) (o : Nat) : (rinc s o).up = s.up := rfl
@[simp] theorem rinc_ptp (s : State) (o : Nat) : (rinc s o).ptp = s.ptp := rfl
@[simp] theorem rinc_eth (s : State) (o : Nat) : (rinc s o).eth = s.eth := rfl
@[simp] theorem rinc_can (s : State) (o : Nat) : (rinc s o).can = s.can := rfl
@[simp] theorem rinc_mtr (s : State) (o : Nat) : (rinc s o).mtr = s.mtr := rfl
@[simp] theorem rinc_lce (s : State) (o : Nat) : (rinc s o).lce = s.lce := rfl
@[simp] theorem rinc_ble (s : State) (o : Nat) : (rinc s o).ble = s.ble := rfl
@[simp] theorem rinc_twn (s : State) (o : Nat) : (rinc s o).twn = s.twn := rfl
@[simp] theorem rinc_sec (s : State) (o : Nat) : (rinc s o).sec = s.sec := rfl
@[simp] theorem rinc_upd (s : State) (o : Nat) : (rinc s o).upd = s.upd := rfl
@[simp] theorem rinc_free (s : State) (o : Nat) : (rinc s o).free = s.free := rfl
@[simp] theorem rinc_out (s : State) (o : Nat) : (rinc s o).out = s.out := rfl

@[simp] theorem ror_live (s : State) (o : Nat) (m : Word) : (ror s o m).live = s.live := rfl
@[simp] theorem ror_latch (s : State) (o : Nat) (m : Word) : (ror s o m).latch = s.latch := rfl
@[simp] theorem ror_lowHeld (s : State) (o : Nat) (m : Word) : (ror s o m).lowHeld = s.lowHeld := rfl
@[simp] theorem ror_pts (s : State) (o : Nat) (m : Word) : (ror s o m).pts = s.pts := rfl
@[simp] theorem ror_base (s : State) (o : Nat) (m : Word) : (ror s o m).base = s.base := rfl
@[simp] theorem ror_phc (s : State) (o : Nat) (m : Word) : (ror s o m).phc = s.phc := rfl
@[simp] theorem ror_clk (s : State) (o : Nat) (m : Word) : (ror s o m).clk = s.clk := rfl
@[simp] theorem ror_banks (s : State) (o : Nat) (m : Word) : (ror s o m).banks = s.banks := rfl
@[simp] theorem ror_ch (s : State) (o : Nat) (m : Word) : (ror s o m).ch = s.ch := rfl
@[simp] theorem ror_rings (s : State) (o : Nat) (m : Word) : (ror s o m).rings = s.rings := rfl
@[simp] theorem ror_evq (s : State) (o : Nat) (m : Word) : (ror s o m).evq = s.evq := rfl
@[simp] theorem ror_recq (s : State) (o : Nat) (m : Word) : (ror s o m).recq = s.recq := rfl
@[simp] theorem ror_recSlots (s : State) (o : Nat) (m : Word) : (ror s o m).recSlots = s.recSlots := rfl
@[simp] theorem ror_recNext (s : State) (o : Nat) (m : Word) : (ror s o m).recNext = s.recNext := rfl
@[simp] theorem ror_recLost (s : State) (o : Nat) (m : Word) : (ror s o m).recLost = s.recLost := rfl
@[simp] theorem ror_recLostCls (s : State) (o : Nat) (m : Word) : (ror s o m).recLostCls = s.recLostCls := rfl
@[simp] theorem ror_watches (s : State) (o : Nat) (m : Word) : (ror s o m).watches = s.watches := rfl
@[simp] theorem ror_rtc (s : State) (o : Nat) (m : Word) : (ror s o m).rtc = s.rtc := rfl
@[simp] theorem ror_msix (s : State) (o : Nat) (m : Word) : (ror s o m).msix = s.msix := rfl
@[simp] theorem ror_msixPend (s : State) (o : Nat) (m : Word) : (ror s o m).msixPend = s.msixPend := rfl
@[simp] theorem ror_busMaster (s : State) (o : Nat) (m : Word) : (ror s o m).busMaster = s.busMaster := rfl
@[simp] theorem ror_memEnable (s : State) (o : Nat) (m : Word) : (ror s o m).memEnable = s.memEnable := rfl
@[simp] theorem ror_forces (s : State) (o : Nat) (m : Word) : (ror s o m).forces = s.forces := rfl
@[simp] theorem ror_img (s : State) (o : Nat) (m : Word) : (ror s o m).img = s.img := rfl
@[simp] theorem ror_up (s : State) (o : Nat) (m : Word) : (ror s o m).up = s.up := rfl
@[simp] theorem ror_ptp (s : State) (o : Nat) (m : Word) : (ror s o m).ptp = s.ptp := rfl
@[simp] theorem ror_eth (s : State) (o : Nat) (m : Word) : (ror s o m).eth = s.eth := rfl
@[simp] theorem ror_can (s : State) (o : Nat) (m : Word) : (ror s o m).can = s.can := rfl
@[simp] theorem ror_mtr (s : State) (o : Nat) (m : Word) : (ror s o m).mtr = s.mtr := rfl
@[simp] theorem ror_lce (s : State) (o : Nat) (m : Word) : (ror s o m).lce = s.lce := rfl
@[simp] theorem ror_ble (s : State) (o : Nat) (m : Word) : (ror s o m).ble = s.ble := rfl
@[simp] theorem ror_twn (s : State) (o : Nat) (m : Word) : (ror s o m).twn = s.twn := rfl
@[simp] theorem ror_sec (s : State) (o : Nat) (m : Word) : (ror s o m).sec = s.sec := rfl
@[simp] theorem ror_upd (s : State) (o : Nat) (m : Word) : (ror s o m).upd = s.upd := rfl
@[simp] theorem ror_free (s : State) (o : Nat) (m : Word) : (ror s o m).free = s.free := rfl
@[simp] theorem ror_out (s : State) (o : Nat) (m : Word) : (ror s o m).out = s.out := rfl

@[simp] theorem rclr_live (s : State) (o : Nat) (m : Word) : (rclr s o m).live = s.live := rfl
@[simp] theorem rclr_latch (s : State) (o : Nat) (m : Word) : (rclr s o m).latch = s.latch := rfl
@[simp] theorem rclr_lowHeld (s : State) (o : Nat) (m : Word) : (rclr s o m).lowHeld = s.lowHeld := rfl
@[simp] theorem rclr_pts (s : State) (o : Nat) (m : Word) : (rclr s o m).pts = s.pts := rfl
@[simp] theorem rclr_base (s : State) (o : Nat) (m : Word) : (rclr s o m).base = s.base := rfl
@[simp] theorem rclr_phc (s : State) (o : Nat) (m : Word) : (rclr s o m).phc = s.phc := rfl
@[simp] theorem rclr_clk (s : State) (o : Nat) (m : Word) : (rclr s o m).clk = s.clk := rfl
@[simp] theorem rclr_banks (s : State) (o : Nat) (m : Word) : (rclr s o m).banks = s.banks := rfl
@[simp] theorem rclr_ch (s : State) (o : Nat) (m : Word) : (rclr s o m).ch = s.ch := rfl
@[simp] theorem rclr_rings (s : State) (o : Nat) (m : Word) : (rclr s o m).rings = s.rings := rfl
@[simp] theorem rclr_evq (s : State) (o : Nat) (m : Word) : (rclr s o m).evq = s.evq := rfl
@[simp] theorem rclr_recq (s : State) (o : Nat) (m : Word) : (rclr s o m).recq = s.recq := rfl
@[simp] theorem rclr_recSlots (s : State) (o : Nat) (m : Word) : (rclr s o m).recSlots = s.recSlots := rfl
@[simp] theorem rclr_recNext (s : State) (o : Nat) (m : Word) : (rclr s o m).recNext = s.recNext := rfl
@[simp] theorem rclr_recLost (s : State) (o : Nat) (m : Word) : (rclr s o m).recLost = s.recLost := rfl
@[simp] theorem rclr_recLostCls (s : State) (o : Nat) (m : Word) : (rclr s o m).recLostCls = s.recLostCls := rfl
@[simp] theorem rclr_watches (s : State) (o : Nat) (m : Word) : (rclr s o m).watches = s.watches := rfl
@[simp] theorem rclr_rtc (s : State) (o : Nat) (m : Word) : (rclr s o m).rtc = s.rtc := rfl
@[simp] theorem rclr_msix (s : State) (o : Nat) (m : Word) : (rclr s o m).msix = s.msix := rfl
@[simp] theorem rclr_msixPend (s : State) (o : Nat) (m : Word) : (rclr s o m).msixPend = s.msixPend := rfl
@[simp] theorem rclr_busMaster (s : State) (o : Nat) (m : Word) : (rclr s o m).busMaster = s.busMaster := rfl
@[simp] theorem rclr_memEnable (s : State) (o : Nat) (m : Word) : (rclr s o m).memEnable = s.memEnable := rfl
@[simp] theorem rclr_forces (s : State) (o : Nat) (m : Word) : (rclr s o m).forces = s.forces := rfl
@[simp] theorem rclr_img (s : State) (o : Nat) (m : Word) : (rclr s o m).img = s.img := rfl
@[simp] theorem rclr_up (s : State) (o : Nat) (m : Word) : (rclr s o m).up = s.up := rfl
@[simp] theorem rclr_ptp (s : State) (o : Nat) (m : Word) : (rclr s o m).ptp = s.ptp := rfl
@[simp] theorem rclr_eth (s : State) (o : Nat) (m : Word) : (rclr s o m).eth = s.eth := rfl
@[simp] theorem rclr_can (s : State) (o : Nat) (m : Word) : (rclr s o m).can = s.can := rfl
@[simp] theorem rclr_mtr (s : State) (o : Nat) (m : Word) : (rclr s o m).mtr = s.mtr := rfl
@[simp] theorem rclr_lce (s : State) (o : Nat) (m : Word) : (rclr s o m).lce = s.lce := rfl
@[simp] theorem rclr_ble (s : State) (o : Nat) (m : Word) : (rclr s o m).ble = s.ble := rfl
@[simp] theorem rclr_twn (s : State) (o : Nat) (m : Word) : (rclr s o m).twn = s.twn := rfl
@[simp] theorem rclr_sec (s : State) (o : Nat) (m : Word) : (rclr s o m).sec = s.sec := rfl
@[simp] theorem rclr_upd (s : State) (o : Nat) (m : Word) : (rclr s o m).upd = s.upd := rfl
@[simp] theorem rclr_free (s : State) (o : Nat) (m : Word) : (rclr s o m).free = s.free := rfl
@[simp] theorem rclr_out (s : State) (o : Nat) (m : Word) : (rclr s o m).out = s.out := rfl

@[simp] theorem recEvent_regs (s : State) (c b o : Nat) (l : List Word) : (recEvent s c b o l).regs = s.regs := rfl
@[simp] theorem recEvent_live (s : State) (c b o : Nat) (l : List Word) : (recEvent s c b o l).live = s.live := rfl
@[simp] theorem recEvent_latch (s : State) (c b o : Nat) (l : List Word) : (recEvent s c b o l).latch = s.latch := rfl
@[simp] theorem recEvent_lowHeld (s : State) (c b o : Nat) (l : List Word) : (recEvent s c b o l).lowHeld = s.lowHeld := rfl
@[simp] theorem recEvent_pts (s : State) (c b o : Nat) (l : List Word) : (recEvent s c b o l).pts = s.pts := rfl
@[simp] theorem recEvent_base (s : State) (c b o : Nat) (l : List Word) : (recEvent s c b o l).base = s.base := rfl
@[simp] theorem recEvent_phc (s : State) (c b o : Nat) (l : List Word) : (recEvent s c b o l).phc = s.phc := rfl
@[simp] theorem recEvent_clk (s : State) (c b o : Nat) (l : List Word) : (recEvent s c b o l).clk = s.clk := rfl
@[simp] theorem recEvent_banks (s : State) (c b o : Nat) (l : List Word) : (recEvent s c b o l).banks = s.banks := rfl
@[simp] theorem recEvent_ch (s : State) (c b o : Nat) (l : List Word) : (recEvent s c b o l).ch = s.ch := rfl
@[simp] theorem recEvent_rings (s : State) (c b o : Nat) (l : List Word) : (recEvent s c b o l).rings = s.rings := rfl
@[simp] theorem recEvent_recq (s : State) (c b o : Nat) (l : List Word) : (recEvent s c b o l).recq = s.recq := rfl
@[simp] theorem recEvent_recSlots (s : State) (c b o : Nat) (l : List Word) : (recEvent s c b o l).recSlots = s.recSlots := rfl
@[simp] theorem recEvent_recNext (s : State) (c b o : Nat) (l : List Word) : (recEvent s c b o l).recNext = s.recNext := rfl
@[simp] theorem recEvent_recLost (s : State) (c b o : Nat) (l : List Word) : (recEvent s c b o l).recLost = s.recLost := rfl
@[simp] theorem recEvent_recLostCls (s : State) (c b o : Nat) (l : List Word) : (recEvent s c b o l).recLostCls = s.recLostCls := rfl
@[simp] theorem recEvent_watches (s : State) (c b o : Nat) (l : List Word) : (recEvent s c b o l).watches = s.watches := rfl
@[simp] theorem recEvent_rtc (s : State) (c b o : Nat) (l : List Word) : (recEvent s c b o l).rtc = s.rtc := rfl
@[simp] theorem recEvent_msix (s : State) (c b o : Nat) (l : List Word) : (recEvent s c b o l).msix = s.msix := rfl
@[simp] theorem recEvent_msixPend (s : State) (c b o : Nat) (l : List Word) : (recEvent s c b o l).msixPend = s.msixPend := rfl
@[simp] theorem recEvent_busMaster (s : State) (c b o : Nat) (l : List Word) : (recEvent s c b o l).busMaster = s.busMaster := rfl
@[simp] theorem recEvent_memEnable (s : State) (c b o : Nat) (l : List Word) : (recEvent s c b o l).memEnable = s.memEnable := rfl
@[simp] theorem recEvent_forces (s : State) (c b o : Nat) (l : List Word) : (recEvent s c b o l).forces = s.forces := rfl
@[simp] theorem recEvent_img (s : State) (c b o : Nat) (l : List Word) : (recEvent s c b o l).img = s.img := rfl
@[simp] theorem recEvent_up (s : State) (c b o : Nat) (l : List Word) : (recEvent s c b o l).up = s.up := rfl
@[simp] theorem recEvent_ptp (s : State) (c b o : Nat) (l : List Word) : (recEvent s c b o l).ptp = s.ptp := rfl
@[simp] theorem recEvent_eth (s : State) (c b o : Nat) (l : List Word) : (recEvent s c b o l).eth = s.eth := rfl
@[simp] theorem recEvent_can (s : State) (c b o : Nat) (l : List Word) : (recEvent s c b o l).can = s.can := rfl
@[simp] theorem recEvent_mtr (s : State) (c b o : Nat) (l : List Word) : (recEvent s c b o l).mtr = s.mtr := rfl
@[simp] theorem recEvent_lce (s : State) (c b o : Nat) (l : List Word) : (recEvent s c b o l).lce = s.lce := rfl
@[simp] theorem recEvent_ble (s : State) (c b o : Nat) (l : List Word) : (recEvent s c b o l).ble = s.ble := rfl
@[simp] theorem recEvent_twn (s : State) (c b o : Nat) (l : List Word) : (recEvent s c b o l).twn = s.twn := rfl
@[simp] theorem recEvent_sec (s : State) (c b o : Nat) (l : List Word) : (recEvent s c b o l).sec = s.sec := rfl
@[simp] theorem recEvent_upd (s : State) (c b o : Nat) (l : List Word) : (recEvent s c b o l).upd = s.upd := rfl
@[simp] theorem recEvent_free (s : State) (c b o : Nat) (l : List Word) : (recEvent s c b o l).free = s.free := rfl
@[simp] theorem recEvent_out (s : State) (c b o : Nat) (l : List Word) : (recEvent s c b o l).out = s.out := rfl

@[simp] theorem timeEvent_regs (s : State) (k : Nat) (w : Word) (r : Bool) : (timeEvent s k w r).regs = s.regs := rfl
@[simp] theorem timeEvent_live (s : State) (k : Nat) (w : Word) (r : Bool) : (timeEvent s k w r).live = s.live := rfl
@[simp] theorem timeEvent_latch (s : State) (k : Nat) (w : Word) (r : Bool) : (timeEvent s k w r).latch = s.latch := rfl
@[simp] theorem timeEvent_lowHeld (s : State) (k : Nat) (w : Word) (r : Bool) : (timeEvent s k w r).lowHeld = s.lowHeld := rfl
@[simp] theorem timeEvent_pts (s : State) (k : Nat) (w : Word) (r : Bool) : (timeEvent s k w r).pts = s.pts := rfl
@[simp] theorem timeEvent_base (s : State) (k : Nat) (w : Word) (r : Bool) : (timeEvent s k w r).base = s.base := rfl
@[simp] theorem timeEvent_phc (s : State) (k : Nat) (w : Word) (r : Bool) : (timeEvent s k w r).phc = s.phc := rfl
@[simp] theorem timeEvent_clk (s : State) (k : Nat) (w : Word) (r : Bool) : (timeEvent s k w r).clk = s.clk := rfl
@[simp] theorem timeEvent_banks (s : State) (k : Nat) (w : Word) (r : Bool) : (timeEvent s k w r).banks = s.banks := rfl
@[simp] theorem timeEvent_ch (s : State) (k : Nat) (w : Word) (r : Bool) : (timeEvent s k w r).ch = s.ch := rfl
@[simp] theorem timeEvent_rings (s : State) (k : Nat) (w : Word) (r : Bool) : (timeEvent s k w r).rings = s.rings := rfl
@[simp] theorem timeEvent_recq (s : State) (k : Nat) (w : Word) (r : Bool) : (timeEvent s k w r).recq = s.recq := rfl
@[simp] theorem timeEvent_recSlots (s : State) (k : Nat) (w : Word) (r : Bool) : (timeEvent s k w r).recSlots = s.recSlots := rfl
@[simp] theorem timeEvent_recNext (s : State) (k : Nat) (w : Word) (r : Bool) : (timeEvent s k w r).recNext = s.recNext := rfl
@[simp] theorem timeEvent_recLost (s : State) (k : Nat) (w : Word) (r : Bool) : (timeEvent s k w r).recLost = s.recLost := rfl
@[simp] theorem timeEvent_recLostCls (s : State) (k : Nat) (w : Word) (r : Bool) : (timeEvent s k w r).recLostCls = s.recLostCls := rfl
@[simp] theorem timeEvent_watches (s : State) (k : Nat) (w : Word) (r : Bool) : (timeEvent s k w r).watches = s.watches := rfl
@[simp] theorem timeEvent_rtc (s : State) (k : Nat) (w : Word) (r : Bool) : (timeEvent s k w r).rtc = s.rtc := rfl
@[simp] theorem timeEvent_msix (s : State) (k : Nat) (w : Word) (r : Bool) : (timeEvent s k w r).msix = s.msix := rfl
@[simp] theorem timeEvent_msixPend (s : State) (k : Nat) (w : Word) (r : Bool) : (timeEvent s k w r).msixPend = s.msixPend := rfl
@[simp] theorem timeEvent_busMaster (s : State) (k : Nat) (w : Word) (r : Bool) : (timeEvent s k w r).busMaster = s.busMaster := rfl
@[simp] theorem timeEvent_memEnable (s : State) (k : Nat) (w : Word) (r : Bool) : (timeEvent s k w r).memEnable = s.memEnable := rfl
@[simp] theorem timeEvent_forces (s : State) (k : Nat) (w : Word) (r : Bool) : (timeEvent s k w r).forces = s.forces := rfl
@[simp] theorem timeEvent_img (s : State) (k : Nat) (w : Word) (r : Bool) : (timeEvent s k w r).img = s.img := rfl
@[simp] theorem timeEvent_up (s : State) (k : Nat) (w : Word) (r : Bool) : (timeEvent s k w r).up = s.up := rfl
@[simp] theorem timeEvent_ptp (s : State) (k : Nat) (w : Word) (r : Bool) : (timeEvent s k w r).ptp = s.ptp := rfl
@[simp] theorem timeEvent_eth (s : State) (k : Nat) (w : Word) (r : Bool) : (timeEvent s k w r).eth = s.eth := rfl
@[simp] theorem timeEvent_can (s : State) (k : Nat) (w : Word) (r : Bool) : (timeEvent s k w r).can = s.can := rfl
@[simp] theorem timeEvent_mtr (s : State) (k : Nat) (w : Word) (r : Bool) : (timeEvent s k w r).mtr = s.mtr := rfl
@[simp] theorem timeEvent_lce (s : State) (k : Nat) (w : Word) (r : Bool) : (timeEvent s k w r).lce = s.lce := rfl
@[simp] theorem timeEvent_ble (s : State) (k : Nat) (w : Word) (r : Bool) : (timeEvent s k w r).ble = s.ble := rfl
@[simp] theorem timeEvent_twn (s : State) (k : Nat) (w : Word) (r : Bool) : (timeEvent s k w r).twn = s.twn := rfl
@[simp] theorem timeEvent_sec (s : State) (k : Nat) (w : Word) (r : Bool) : (timeEvent s k w r).sec = s.sec := rfl
@[simp] theorem timeEvent_upd (s : State) (k : Nat) (w : Word) (r : Bool) : (timeEvent s k w r).upd = s.upd := rfl
@[simp] theorem timeEvent_free (s : State) (k : Nat) (w : Word) (r : Bool) : (timeEvent s k w r).free = s.free := rfl
@[simp] theorem timeEvent_out (s : State) (k : Nat) (w : Word) (r : Bool) : (timeEvent s k w r).out = s.out := rfl

@[simp] theorem regEvent_regs (s : State) (o : Nat) (b j : Word) (p : Nat) (h r : Bool) (x : List Word) : (regEvent s o b j p h r x).regs = s.regs := (regEvent_keeps ..).regs_eq (by decide)
@[simp] theorem regEvent_live (s : State) (o : Nat) (b j : Word) (p : Nat) (h r : Bool) (x : List Word) : (regEvent s o b j p h r x).live = s.live := (regEvent_keeps ..).live_eq (by decide)
@[simp] theorem regEvent_latch (s : State) (o : Nat) (b j : Word) (p : Nat) (h r : Bool) (x : List Word) : (regEvent s o b j p h r x).latch = s.latch := (regEvent_keeps ..).latch_eq (by decide)
@[simp] theorem regEvent_lowHeld (s : State) (o : Nat) (b j : Word) (p : Nat) (h r : Bool) (x : List Word) : (regEvent s o b j p h r x).lowHeld = s.lowHeld := (regEvent_keeps ..).lowHeld_eq (by decide)
@[simp] theorem regEvent_pts (s : State) (o : Nat) (b j : Word) (p : Nat) (h r : Bool) (x : List Word) : (regEvent s o b j p h r x).pts = s.pts := (regEvent_keeps ..).pts_eq (by decide)
@[simp] theorem regEvent_base (s : State) (o : Nat) (b j : Word) (p : Nat) (h r : Bool) (x : List Word) : (regEvent s o b j p h r x).base = s.base := (regEvent_keeps ..).base_eq (by decide) (by decide)
@[simp] theorem regEvent_phc (s : State) (o : Nat) (b j : Word) (p : Nat) (h r : Bool) (x : List Word) : (regEvent s o b j p h r x).phc = s.phc := (regEvent_keeps ..).phc_eq (by decide)
@[simp] theorem regEvent_clk (s : State) (o : Nat) (b j : Word) (p : Nat) (h r : Bool) (x : List Word) : (regEvent s o b j p h r x).clk = s.clk := (regEvent_keeps ..).clk_eq (by decide)
@[simp] theorem regEvent_banks (s : State) (o : Nat) (b j : Word) (p : Nat) (h r : Bool) (x : List Word) : (regEvent s o b j p h r x).banks = s.banks := (regEvent_keeps ..).banks_eq (by decide)
@[simp] theorem regEvent_ch (s : State) (o : Nat) (b j : Word) (p : Nat) (h r : Bool) (x : List Word) : (regEvent s o b j p h r x).ch = s.ch := (regEvent_keeps ..).ch_eq (by decide)
@[simp] theorem regEvent_rings (s : State) (o : Nat) (b j : Word) (p : Nat) (h r : Bool) (x : List Word) : (regEvent s o b j p h r x).rings = s.rings := (regEvent_keeps ..).rings_eq (by decide)
@[simp] theorem regEvent_recq (s : State) (o : Nat) (b j : Word) (p : Nat) (h r : Bool) (x : List Word) : (regEvent s o b j p h r x).recq = s.recq := (regEvent_keeps ..).recq_eq (by decide)
@[simp] theorem regEvent_recSlots (s : State) (o : Nat) (b j : Word) (p : Nat) (h r : Bool) (x : List Word) : (regEvent s o b j p h r x).recSlots = s.recSlots := (regEvent_keeps ..).recSlots_eq (by decide)
@[simp] theorem regEvent_recNext (s : State) (o : Nat) (b j : Word) (p : Nat) (h r : Bool) (x : List Word) : (regEvent s o b j p h r x).recNext = s.recNext := (regEvent_keeps ..).recNext_eq (by decide)
@[simp] theorem regEvent_recLost (s : State) (o : Nat) (b j : Word) (p : Nat) (h r : Bool) (x : List Word) : (regEvent s o b j p h r x).recLost = s.recLost := (regEvent_keeps ..).recLost_eq (by decide)
@[simp] theorem regEvent_recLostCls (s : State) (o : Nat) (b j : Word) (p : Nat) (h r : Bool) (x : List Word) : (regEvent s o b j p h r x).recLostCls = s.recLostCls := (regEvent_keeps ..).recLostCls_eq (by decide)
@[simp] theorem regEvent_watches (s : State) (o : Nat) (b j : Word) (p : Nat) (h r : Bool) (x : List Word) : (regEvent s o b j p h r x).watches = s.watches := (regEvent_keeps ..).watches_eq (by decide)
@[simp] theorem regEvent_rtc (s : State) (o : Nat) (b j : Word) (p : Nat) (h r : Bool) (x : List Word) : (regEvent s o b j p h r x).rtc = s.rtc := (regEvent_keeps ..).rtc_eq (by decide)
@[simp] theorem regEvent_msix (s : State) (o : Nat) (b j : Word) (p : Nat) (h r : Bool) (x : List Word) : (regEvent s o b j p h r x).msix = s.msix := (regEvent_keeps ..).msix_eq (by decide)
@[simp] theorem regEvent_msixPend (s : State) (o : Nat) (b j : Word) (p : Nat) (h r : Bool) (x : List Word) : (regEvent s o b j p h r x).msixPend = s.msixPend := (regEvent_keeps ..).msixPend_eq (by decide)
@[simp] theorem regEvent_busMaster (s : State) (o : Nat) (b j : Word) (p : Nat) (h r : Bool) (x : List Word) : (regEvent s o b j p h r x).busMaster = s.busMaster := (regEvent_keeps ..).busMaster_eq (by decide)
@[simp] theorem regEvent_memEnable (s : State) (o : Nat) (b j : Word) (p : Nat) (h r : Bool) (x : List Word) : (regEvent s o b j p h r x).memEnable = s.memEnable := (regEvent_keeps ..).memEnable_eq (by decide)
@[simp] theorem regEvent_forces (s : State) (o : Nat) (b j : Word) (p : Nat) (h r : Bool) (x : List Word) : (regEvent s o b j p h r x).forces = s.forces := (regEvent_keeps ..).forces_eq (by decide)
@[simp] theorem regEvent_img (s : State) (o : Nat) (b j : Word) (p : Nat) (h r : Bool) (x : List Word) : (regEvent s o b j p h r x).img = s.img := (regEvent_keeps ..).img_eq (by decide)
@[simp] theorem regEvent_up (s : State) (o : Nat) (b j : Word) (p : Nat) (h r : Bool) (x : List Word) : (regEvent s o b j p h r x).up = s.up := (regEvent_keeps ..).up_eq (by decide)
@[simp] theorem regEvent_ptp (s : State) (o : Nat) (b j : Word) (p : Nat) (h r : Bool) (x : List Word) : (regEvent s o b j p h r x).ptp = s.ptp := (regEvent_keeps ..).ptp_eq (by decide)
@[simp] theorem regEvent_eth (s : State) (o : Nat) (b j : Word) (p : Nat) (h r : Bool) (x : List Word) : (regEvent s o b j p h r x).eth = s.eth := (regEvent_keeps ..).eth_eq (by decide)
@[simp] theorem regEvent_can (s : State) (o : Nat) (b j : Word) (p : Nat) (h r : Bool) (x : List Word) : (regEvent s o b j p h r x).can = s.can := (regEvent_keeps ..).can_eq (by decide)
@[simp] theorem regEvent_mtr (s : State) (o : Nat) (b j : Word) (p : Nat) (h r : Bool) (x : List Word) : (regEvent s o b j p h r x).mtr = s.mtr := (regEvent_keeps ..).mtr_eq (by decide)
@[simp] theorem regEvent_lce (s : State) (o : Nat) (b j : Word) (p : Nat) (h r : Bool) (x : List Word) : (regEvent s o b j p h r x).lce = s.lce := (regEvent_keeps ..).lce_eq (by decide)
@[simp] theorem regEvent_ble (s : State) (o : Nat) (b j : Word) (p : Nat) (h r : Bool) (x : List Word) : (regEvent s o b j p h r x).ble = s.ble := (regEvent_keeps ..).ble_eq (by decide)
@[simp] theorem regEvent_twn (s : State) (o : Nat) (b j : Word) (p : Nat) (h r : Bool) (x : List Word) : (regEvent s o b j p h r x).twn = s.twn := (regEvent_keeps ..).twn_eq (by decide)
@[simp] theorem regEvent_sec (s : State) (o : Nat) (b j : Word) (p : Nat) (h r : Bool) (x : List Word) : (regEvent s o b j p h r x).sec = s.sec := (regEvent_keeps ..).sec_eq (by decide)
@[simp] theorem regEvent_upd (s : State) (o : Nat) (b j : Word) (p : Nat) (h r : Bool) (x : List Word) : (regEvent s o b j p h r x).upd = s.upd := (regEvent_keeps ..).upd_eq (by decide)
@[simp] theorem regEvent_free (s : State) (o : Nat) (b j : Word) (p : Nat) (h r : Bool) (x : List Word) : (regEvent s o b j p h r x).free = s.free := (regEvent_keeps ..).free_eq (by decide)
@[simp] theorem regEvent_out (s : State) (o : Nat) (b j : Word) (p : Nat) (h r : Bool) (x : List Word) : (regEvent s o b j p h r x).out = s.out := (regEvent_keeps ..).out_eq (by decide)

@[simp] theorem raiseBits_live (s : State) (o : Nat) (b j : Word) (p : Nat) (h r : Bool) (x : List Word) : (raiseBits s o b j p h r x).live = s.live := (raiseBits_keeps ..).live_eq (by decide)
@[simp] theorem raiseBits_latch (s : State) (o : Nat) (b j : Word) (p : Nat) (h r : Bool) (x : List Word) : (raiseBits s o b j p h r x).latch = s.latch := (raiseBits_keeps ..).latch_eq (by decide)
@[simp] theorem raiseBits_lowHeld (s : State) (o : Nat) (b j : Word) (p : Nat) (h r : Bool) (x : List Word) : (raiseBits s o b j p h r x).lowHeld = s.lowHeld := (raiseBits_keeps ..).lowHeld_eq (by decide)
@[simp] theorem raiseBits_pts (s : State) (o : Nat) (b j : Word) (p : Nat) (h r : Bool) (x : List Word) : (raiseBits s o b j p h r x).pts = s.pts := (raiseBits_keeps ..).pts_eq (by decide)
@[simp] theorem raiseBits_base (s : State) (o : Nat) (b j : Word) (p : Nat) (h r : Bool) (x : List Word) : (raiseBits s o b j p h r x).base = s.base := (raiseBits_keeps ..).base_eq (by decide) (by decide)
@[simp] theorem raiseBits_phc (s : State) (o : Nat) (b j : Word) (p : Nat) (h r : Bool) (x : List Word) : (raiseBits s o b j p h r x).phc = s.phc := (raiseBits_keeps ..).phc_eq (by decide)
@[simp] theorem raiseBits_clk (s : State) (o : Nat) (b j : Word) (p : Nat) (h r : Bool) (x : List Word) : (raiseBits s o b j p h r x).clk = s.clk := (raiseBits_keeps ..).clk_eq (by decide)
@[simp] theorem raiseBits_banks (s : State) (o : Nat) (b j : Word) (p : Nat) (h r : Bool) (x : List Word) : (raiseBits s o b j p h r x).banks = s.banks := (raiseBits_keeps ..).banks_eq (by decide)
@[simp] theorem raiseBits_ch (s : State) (o : Nat) (b j : Word) (p : Nat) (h r : Bool) (x : List Word) : (raiseBits s o b j p h r x).ch = s.ch := (raiseBits_keeps ..).ch_eq (by decide)
@[simp] theorem raiseBits_rings (s : State) (o : Nat) (b j : Word) (p : Nat) (h r : Bool) (x : List Word) : (raiseBits s o b j p h r x).rings = s.rings := (raiseBits_keeps ..).rings_eq (by decide)
@[simp] theorem raiseBits_recq (s : State) (o : Nat) (b j : Word) (p : Nat) (h r : Bool) (x : List Word) : (raiseBits s o b j p h r x).recq = s.recq := (raiseBits_keeps ..).recq_eq (by decide)
@[simp] theorem raiseBits_recSlots (s : State) (o : Nat) (b j : Word) (p : Nat) (h r : Bool) (x : List Word) : (raiseBits s o b j p h r x).recSlots = s.recSlots := (raiseBits_keeps ..).recSlots_eq (by decide)
@[simp] theorem raiseBits_recNext (s : State) (o : Nat) (b j : Word) (p : Nat) (h r : Bool) (x : List Word) : (raiseBits s o b j p h r x).recNext = s.recNext := (raiseBits_keeps ..).recNext_eq (by decide)
@[simp] theorem raiseBits_recLost (s : State) (o : Nat) (b j : Word) (p : Nat) (h r : Bool) (x : List Word) : (raiseBits s o b j p h r x).recLost = s.recLost := (raiseBits_keeps ..).recLost_eq (by decide)
@[simp] theorem raiseBits_recLostCls (s : State) (o : Nat) (b j : Word) (p : Nat) (h r : Bool) (x : List Word) : (raiseBits s o b j p h r x).recLostCls = s.recLostCls := (raiseBits_keeps ..).recLostCls_eq (by decide)
@[simp] theorem raiseBits_watches (s : State) (o : Nat) (b j : Word) (p : Nat) (h r : Bool) (x : List Word) : (raiseBits s o b j p h r x).watches = s.watches := (raiseBits_keeps ..).watches_eq (by decide)
@[simp] theorem raiseBits_rtc (s : State) (o : Nat) (b j : Word) (p : Nat) (h r : Bool) (x : List Word) : (raiseBits s o b j p h r x).rtc = s.rtc := (raiseBits_keeps ..).rtc_eq (by decide)
@[simp] theorem raiseBits_msix (s : State) (o : Nat) (b j : Word) (p : Nat) (h r : Bool) (x : List Word) : (raiseBits s o b j p h r x).msix = s.msix := (raiseBits_keeps ..).msix_eq (by decide)
@[simp] theorem raiseBits_msixPend (s : State) (o : Nat) (b j : Word) (p : Nat) (h r : Bool) (x : List Word) : (raiseBits s o b j p h r x).msixPend = s.msixPend := (raiseBits_keeps ..).msixPend_eq (by decide)
@[simp] theorem raiseBits_busMaster (s : State) (o : Nat) (b j : Word) (p : Nat) (h r : Bool) (x : List Word) : (raiseBits s o b j p h r x).busMaster = s.busMaster := (raiseBits_keeps ..).busMaster_eq (by decide)
@[simp] theorem raiseBits_memEnable (s : State) (o : Nat) (b j : Word) (p : Nat) (h r : Bool) (x : List Word) : (raiseBits s o b j p h r x).memEnable = s.memEnable := (raiseBits_keeps ..).memEnable_eq (by decide)
@[simp] theorem raiseBits_forces (s : State) (o : Nat) (b j : Word) (p : Nat) (h r : Bool) (x : List Word) : (raiseBits s o b j p h r x).forces = s.forces := (raiseBits_keeps ..).forces_eq (by decide)
@[simp] theorem raiseBits_img (s : State) (o : Nat) (b j : Word) (p : Nat) (h r : Bool) (x : List Word) : (raiseBits s o b j p h r x).img = s.img := (raiseBits_keeps ..).img_eq (by decide)
@[simp] theorem raiseBits_up (s : State) (o : Nat) (b j : Word) (p : Nat) (h r : Bool) (x : List Word) : (raiseBits s o b j p h r x).up = s.up := (raiseBits_keeps ..).up_eq (by decide)
@[simp] theorem raiseBits_ptp (s : State) (o : Nat) (b j : Word) (p : Nat) (h r : Bool) (x : List Word) : (raiseBits s o b j p h r x).ptp = s.ptp := (raiseBits_keeps ..).ptp_eq (by decide)
@[simp] theorem raiseBits_eth (s : State) (o : Nat) (b j : Word) (p : Nat) (h r : Bool) (x : List Word) : (raiseBits s o b j p h r x).eth = s.eth := (raiseBits_keeps ..).eth_eq (by decide)
@[simp] theorem raiseBits_can (s : State) (o : Nat) (b j : Word) (p : Nat) (h r : Bool) (x : List Word) : (raiseBits s o b j p h r x).can = s.can := (raiseBits_keeps ..).can_eq (by decide)
@[simp] theorem raiseBits_mtr (s : State) (o : Nat) (b j : Word) (p : Nat) (h r : Bool) (x : List Word) : (raiseBits s o b j p h r x).mtr = s.mtr := (raiseBits_keeps ..).mtr_eq (by decide)
@[simp] theorem raiseBits_lce (s : State) (o : Nat) (b j : Word) (p : Nat) (h r : Bool) (x : List Word) : (raiseBits s o b j p h r x).lce = s.lce := (raiseBits_keeps ..).lce_eq (by decide)
@[simp] theorem raiseBits_ble (s : State) (o : Nat) (b j : Word) (p : Nat) (h r : Bool) (x : List Word) : (raiseBits s o b j p h r x).ble = s.ble := (raiseBits_keeps ..).ble_eq (by decide)
@[simp] theorem raiseBits_twn (s : State) (o : Nat) (b j : Word) (p : Nat) (h r : Bool) (x : List Word) : (raiseBits s o b j p h r x).twn = s.twn := (raiseBits_keeps ..).twn_eq (by decide)
@[simp] theorem raiseBits_sec (s : State) (o : Nat) (b j : Word) (p : Nat) (h r : Bool) (x : List Word) : (raiseBits s o b j p h r x).sec = s.sec := (raiseBits_keeps ..).sec_eq (by decide)
@[simp] theorem raiseBits_upd (s : State) (o : Nat) (b j : Word) (p : Nat) (h r : Bool) (x : List Word) : (raiseBits s o b j p h r x).upd = s.upd := (raiseBits_keeps ..).upd_eq (by decide)
@[simp] theorem raiseBits_free (s : State) (o : Nat) (b j : Word) (p : Nat) (h r : Bool) (x : List Word) : (raiseBits s o b j p h r x).free = s.free := (raiseBits_keeps ..).free_eq (by decide)
@[simp] theorem raiseBits_out (s : State) (o : Nat) (b j : Word) (p : Nat) (h r : Bool) (x : List Word) : (raiseBits s o b j p h r x).out = s.out := (raiseBits_keeps ..).out_eq (by decide)

@[simp] theorem raiseHost_live (s : State) (o : Nat) (b : Word) : (raiseHost s o b).live = s.live := (raiseHost_keeps ..).live_eq (by decide)
@[simp] theorem raiseHost_latch (s : State) (o : Nat) (b : Word) : (raiseHost s o b).latch = s.latch := (raiseHost_keeps ..).latch_eq (by decide)
@[simp] theorem raiseHost_lowHeld (s : State) (o : Nat) (b : Word) : (raiseHost s o b).lowHeld = s.lowHeld := (raiseHost_keeps ..).lowHeld_eq (by decide)
@[simp] theorem raiseHost_pts (s : State) (o : Nat) (b : Word) : (raiseHost s o b).pts = s.pts := (raiseHost_keeps ..).pts_eq (by decide)
@[simp] theorem raiseHost_base (s : State) (o : Nat) (b : Word) : (raiseHost s o b).base = s.base := (raiseHost_keeps ..).base_eq (by decide) (by decide)
@[simp] theorem raiseHost_phc (s : State) (o : Nat) (b : Word) : (raiseHost s o b).phc = s.phc := (raiseHost_keeps ..).phc_eq (by decide)
@[simp] theorem raiseHost_clk (s : State) (o : Nat) (b : Word) : (raiseHost s o b).clk = s.clk := (raiseHost_keeps ..).clk_eq (by decide)
@[simp] theorem raiseHost_banks (s : State) (o : Nat) (b : Word) : (raiseHost s o b).banks = s.banks := (raiseHost_keeps ..).banks_eq (by decide)
@[simp] theorem raiseHost_ch (s : State) (o : Nat) (b : Word) : (raiseHost s o b).ch = s.ch := (raiseHost_keeps ..).ch_eq (by decide)
@[simp] theorem raiseHost_rings (s : State) (o : Nat) (b : Word) : (raiseHost s o b).rings = s.rings := (raiseHost_keeps ..).rings_eq (by decide)
@[simp] theorem raiseHost_recq (s : State) (o : Nat) (b : Word) : (raiseHost s o b).recq = s.recq := (raiseHost_keeps ..).recq_eq (by decide)
@[simp] theorem raiseHost_recSlots (s : State) (o : Nat) (b : Word) : (raiseHost s o b).recSlots = s.recSlots := (raiseHost_keeps ..).recSlots_eq (by decide)
@[simp] theorem raiseHost_recNext (s : State) (o : Nat) (b : Word) : (raiseHost s o b).recNext = s.recNext := (raiseHost_keeps ..).recNext_eq (by decide)
@[simp] theorem raiseHost_recLost (s : State) (o : Nat) (b : Word) : (raiseHost s o b).recLost = s.recLost := (raiseHost_keeps ..).recLost_eq (by decide)
@[simp] theorem raiseHost_recLostCls (s : State) (o : Nat) (b : Word) : (raiseHost s o b).recLostCls = s.recLostCls := (raiseHost_keeps ..).recLostCls_eq (by decide)
@[simp] theorem raiseHost_watches (s : State) (o : Nat) (b : Word) : (raiseHost s o b).watches = s.watches := (raiseHost_keeps ..).watches_eq (by decide)
@[simp] theorem raiseHost_rtc (s : State) (o : Nat) (b : Word) : (raiseHost s o b).rtc = s.rtc := (raiseHost_keeps ..).rtc_eq (by decide)
@[simp] theorem raiseHost_msix (s : State) (o : Nat) (b : Word) : (raiseHost s o b).msix = s.msix := (raiseHost_keeps ..).msix_eq (by decide)
@[simp] theorem raiseHost_msixPend (s : State) (o : Nat) (b : Word) : (raiseHost s o b).msixPend = s.msixPend := (raiseHost_keeps ..).msixPend_eq (by decide)
@[simp] theorem raiseHost_busMaster (s : State) (o : Nat) (b : Word) : (raiseHost s o b).busMaster = s.busMaster := (raiseHost_keeps ..).busMaster_eq (by decide)
@[simp] theorem raiseHost_memEnable (s : State) (o : Nat) (b : Word) : (raiseHost s o b).memEnable = s.memEnable := (raiseHost_keeps ..).memEnable_eq (by decide)
@[simp] theorem raiseHost_forces (s : State) (o : Nat) (b : Word) : (raiseHost s o b).forces = s.forces := (raiseHost_keeps ..).forces_eq (by decide)
@[simp] theorem raiseHost_img (s : State) (o : Nat) (b : Word) : (raiseHost s o b).img = s.img := (raiseHost_keeps ..).img_eq (by decide)
@[simp] theorem raiseHost_up (s : State) (o : Nat) (b : Word) : (raiseHost s o b).up = s.up := (raiseHost_keeps ..).up_eq (by decide)
@[simp] theorem raiseHost_ptp (s : State) (o : Nat) (b : Word) : (raiseHost s o b).ptp = s.ptp := (raiseHost_keeps ..).ptp_eq (by decide)
@[simp] theorem raiseHost_eth (s : State) (o : Nat) (b : Word) : (raiseHost s o b).eth = s.eth := (raiseHost_keeps ..).eth_eq (by decide)
@[simp] theorem raiseHost_can (s : State) (o : Nat) (b : Word) : (raiseHost s o b).can = s.can := (raiseHost_keeps ..).can_eq (by decide)
@[simp] theorem raiseHost_mtr (s : State) (o : Nat) (b : Word) : (raiseHost s o b).mtr = s.mtr := (raiseHost_keeps ..).mtr_eq (by decide)
@[simp] theorem raiseHost_lce (s : State) (o : Nat) (b : Word) : (raiseHost s o b).lce = s.lce := (raiseHost_keeps ..).lce_eq (by decide)
@[simp] theorem raiseHost_ble (s : State) (o : Nat) (b : Word) : (raiseHost s o b).ble = s.ble := (raiseHost_keeps ..).ble_eq (by decide)
@[simp] theorem raiseHost_twn (s : State) (o : Nat) (b : Word) : (raiseHost s o b).twn = s.twn := (raiseHost_keeps ..).twn_eq (by decide)
@[simp] theorem raiseHost_sec (s : State) (o : Nat) (b : Word) : (raiseHost s o b).sec = s.sec := (raiseHost_keeps ..).sec_eq (by decide)
@[simp] theorem raiseHost_upd (s : State) (o : Nat) (b : Word) : (raiseHost s o b).upd = s.upd := (raiseHost_keeps ..).upd_eq (by decide)
@[simp] theorem raiseHost_free (s : State) (o : Nat) (b : Word) : (raiseHost s o b).free = s.free := (raiseHost_keeps ..).free_eq (by decide)
@[simp] theorem raiseHost_out (s : State) (o : Nat) (b : Word) : (raiseHost s o b).out = s.out := (raiseHost_keeps ..).out_eq (by decide)

@[simp] theorem raiseBoth_live (s : State) (o : Nat) (b : Word) : (raiseBoth s o b).live = s.live := (raiseBoth_keeps ..).live_eq (by decide)
@[simp] theorem raiseBoth_latch (s : State) (o : Nat) (b : Word) : (raiseBoth s o b).latch = s.latch := (raiseBoth_keeps ..).latch_eq (by decide)
@[simp] theorem raiseBoth_lowHeld (s : State) (o : Nat) (b : Word) : (raiseBoth s o b).lowHeld = s.lowHeld := (raiseBoth_keeps ..).lowHeld_eq (by decide)
@[simp] theorem raiseBoth_pts (s : State) (o : Nat) (b : Word) : (raiseBoth s o b).pts = s.pts := (raiseBoth_keeps ..).pts_eq (by decide)
@[simp] theorem raiseBoth_base (s : State) (o : Nat) (b : Word) : (raiseBoth s o b).base = s.base := (raiseBoth_keeps ..).base_eq (by decide) (by decide)
@[simp] theorem raiseBoth_phc (s : State) (o : Nat) (b : Word) : (raiseBoth s o b).phc = s.phc := (raiseBoth_keeps ..).phc_eq (by decide)
@[simp] theorem raiseBoth_clk (s : State) (o : Nat) (b : Word) : (raiseBoth s o b).clk = s.clk := (raiseBoth_keeps ..).clk_eq (by decide)
@[simp] theorem raiseBoth_banks (s : State) (o : Nat) (b : Word) : (raiseBoth s o b).banks = s.banks := (raiseBoth_keeps ..).banks_eq (by decide)
@[simp] theorem raiseBoth_ch (s : State) (o : Nat) (b : Word) : (raiseBoth s o b).ch = s.ch := (raiseBoth_keeps ..).ch_eq (by decide)
@[simp] theorem raiseBoth_rings (s : State) (o : Nat) (b : Word) : (raiseBoth s o b).rings = s.rings := (raiseBoth_keeps ..).rings_eq (by decide)
@[simp] theorem raiseBoth_recq (s : State) (o : Nat) (b : Word) : (raiseBoth s o b).recq = s.recq := (raiseBoth_keeps ..).recq_eq (by decide)
@[simp] theorem raiseBoth_recSlots (s : State) (o : Nat) (b : Word) : (raiseBoth s o b).recSlots = s.recSlots := (raiseBoth_keeps ..).recSlots_eq (by decide)
@[simp] theorem raiseBoth_recNext (s : State) (o : Nat) (b : Word) : (raiseBoth s o b).recNext = s.recNext := (raiseBoth_keeps ..).recNext_eq (by decide)
@[simp] theorem raiseBoth_recLost (s : State) (o : Nat) (b : Word) : (raiseBoth s o b).recLost = s.recLost := (raiseBoth_keeps ..).recLost_eq (by decide)
@[simp] theorem raiseBoth_recLostCls (s : State) (o : Nat) (b : Word) : (raiseBoth s o b).recLostCls = s.recLostCls := (raiseBoth_keeps ..).recLostCls_eq (by decide)
@[simp] theorem raiseBoth_watches (s : State) (o : Nat) (b : Word) : (raiseBoth s o b).watches = s.watches := (raiseBoth_keeps ..).watches_eq (by decide)
@[simp] theorem raiseBoth_rtc (s : State) (o : Nat) (b : Word) : (raiseBoth s o b).rtc = s.rtc := (raiseBoth_keeps ..).rtc_eq (by decide)
@[simp] theorem raiseBoth_msix (s : State) (o : Nat) (b : Word) : (raiseBoth s o b).msix = s.msix := (raiseBoth_keeps ..).msix_eq (by decide)
@[simp] theorem raiseBoth_msixPend (s : State) (o : Nat) (b : Word) : (raiseBoth s o b).msixPend = s.msixPend := (raiseBoth_keeps ..).msixPend_eq (by decide)
@[simp] theorem raiseBoth_busMaster (s : State) (o : Nat) (b : Word) : (raiseBoth s o b).busMaster = s.busMaster := (raiseBoth_keeps ..).busMaster_eq (by decide)
@[simp] theorem raiseBoth_memEnable (s : State) (o : Nat) (b : Word) : (raiseBoth s o b).memEnable = s.memEnable := (raiseBoth_keeps ..).memEnable_eq (by decide)
@[simp] theorem raiseBoth_forces (s : State) (o : Nat) (b : Word) : (raiseBoth s o b).forces = s.forces := (raiseBoth_keeps ..).forces_eq (by decide)
@[simp] theorem raiseBoth_img (s : State) (o : Nat) (b : Word) : (raiseBoth s o b).img = s.img := (raiseBoth_keeps ..).img_eq (by decide)
@[simp] theorem raiseBoth_up (s : State) (o : Nat) (b : Word) : (raiseBoth s o b).up = s.up := (raiseBoth_keeps ..).up_eq (by decide)
@[simp] theorem raiseBoth_ptp (s : State) (o : Nat) (b : Word) : (raiseBoth s o b).ptp = s.ptp := (raiseBoth_keeps ..).ptp_eq (by decide)
@[simp] theorem raiseBoth_eth (s : State) (o : Nat) (b : Word) : (raiseBoth s o b).eth = s.eth := (raiseBoth_keeps ..).eth_eq (by decide)
@[simp] theorem raiseBoth_can (s : State) (o : Nat) (b : Word) : (raiseBoth s o b).can = s.can := (raiseBoth_keeps ..).can_eq (by decide)
@[simp] theorem raiseBoth_mtr (s : State) (o : Nat) (b : Word) : (raiseBoth s o b).mtr = s.mtr := (raiseBoth_keeps ..).mtr_eq (by decide)
@[simp] theorem raiseBoth_lce (s : State) (o : Nat) (b : Word) : (raiseBoth s o b).lce = s.lce := (raiseBoth_keeps ..).lce_eq (by decide)
@[simp] theorem raiseBoth_ble (s : State) (o : Nat) (b : Word) : (raiseBoth s o b).ble = s.ble := (raiseBoth_keeps ..).ble_eq (by decide)
@[simp] theorem raiseBoth_twn (s : State) (o : Nat) (b : Word) : (raiseBoth s o b).twn = s.twn := (raiseBoth_keeps ..).twn_eq (by decide)
@[simp] theorem raiseBoth_sec (s : State) (o : Nat) (b : Word) : (raiseBoth s o b).sec = s.sec := (raiseBoth_keeps ..).sec_eq (by decide)
@[simp] theorem raiseBoth_upd (s : State) (o : Nat) (b : Word) : (raiseBoth s o b).upd = s.upd := (raiseBoth_keeps ..).upd_eq (by decide)
@[simp] theorem raiseBoth_free (s : State) (o : Nat) (b : Word) : (raiseBoth s o b).free = s.free := (raiseBoth_keeps ..).free_eq (by decide)
@[simp] theorem raiseBoth_out (s : State) (o : Nat) (b : Word) : (raiseBoth s o b).out = s.out := (raiseBoth_keeps ..).out_eq (by decide)

@[simp] theorem raisePhc_live (s : State) (b : Word) : (raisePhc s b).live = s.live := (raisePhc_keeps ..).live_eq (by decide)
@[simp] theorem raisePhc_latch (s : State) (b : Word) : (raisePhc s b).latch = s.latch := (raisePhc_keeps ..).latch_eq (by decide)
@[simp] theorem raisePhc_lowHeld (s : State) (b : Word) : (raisePhc s b).lowHeld = s.lowHeld := (raisePhc_keeps ..).lowHeld_eq (by decide)
@[simp] theorem raisePhc_pts (s : State) (b : Word) : (raisePhc s b).pts = s.pts := (raisePhc_keeps ..).pts_eq (by decide)
@[simp] theorem raisePhc_base (s : State) (b : Word) : (raisePhc s b).base = s.base := (raisePhc_keeps ..).base_eq (by decide) (by decide)
@[simp] theorem raisePhc_phc (s : State) (b : Word) : (raisePhc s b).phc = s.phc := (raisePhc_keeps ..).phc_eq (by decide)
@[simp] theorem raisePhc_clk (s : State) (b : Word) : (raisePhc s b).clk = s.clk := (raisePhc_keeps ..).clk_eq (by decide)
@[simp] theorem raisePhc_banks (s : State) (b : Word) : (raisePhc s b).banks = s.banks := (raisePhc_keeps ..).banks_eq (by decide)
@[simp] theorem raisePhc_ch (s : State) (b : Word) : (raisePhc s b).ch = s.ch := (raisePhc_keeps ..).ch_eq (by decide)
@[simp] theorem raisePhc_rings (s : State) (b : Word) : (raisePhc s b).rings = s.rings := (raisePhc_keeps ..).rings_eq (by decide)
@[simp] theorem raisePhc_recq (s : State) (b : Word) : (raisePhc s b).recq = s.recq := (raisePhc_keeps ..).recq_eq (by decide)
@[simp] theorem raisePhc_recSlots (s : State) (b : Word) : (raisePhc s b).recSlots = s.recSlots := (raisePhc_keeps ..).recSlots_eq (by decide)
@[simp] theorem raisePhc_recNext (s : State) (b : Word) : (raisePhc s b).recNext = s.recNext := (raisePhc_keeps ..).recNext_eq (by decide)
@[simp] theorem raisePhc_recLost (s : State) (b : Word) : (raisePhc s b).recLost = s.recLost := (raisePhc_keeps ..).recLost_eq (by decide)
@[simp] theorem raisePhc_recLostCls (s : State) (b : Word) : (raisePhc s b).recLostCls = s.recLostCls := (raisePhc_keeps ..).recLostCls_eq (by decide)
@[simp] theorem raisePhc_watches (s : State) (b : Word) : (raisePhc s b).watches = s.watches := (raisePhc_keeps ..).watches_eq (by decide)
@[simp] theorem raisePhc_rtc (s : State) (b : Word) : (raisePhc s b).rtc = s.rtc := (raisePhc_keeps ..).rtc_eq (by decide)
@[simp] theorem raisePhc_msix (s : State) (b : Word) : (raisePhc s b).msix = s.msix := (raisePhc_keeps ..).msix_eq (by decide)
@[simp] theorem raisePhc_msixPend (s : State) (b : Word) : (raisePhc s b).msixPend = s.msixPend := (raisePhc_keeps ..).msixPend_eq (by decide)
@[simp] theorem raisePhc_busMaster (s : State) (b : Word) : (raisePhc s b).busMaster = s.busMaster := (raisePhc_keeps ..).busMaster_eq (by decide)
@[simp] theorem raisePhc_memEnable (s : State) (b : Word) : (raisePhc s b).memEnable = s.memEnable := (raisePhc_keeps ..).memEnable_eq (by decide)
@[simp] theorem raisePhc_forces (s : State) (b : Word) : (raisePhc s b).forces = s.forces := (raisePhc_keeps ..).forces_eq (by decide)
@[simp] theorem raisePhc_img (s : State) (b : Word) : (raisePhc s b).img = s.img := (raisePhc_keeps ..).img_eq (by decide)
@[simp] theorem raisePhc_up (s : State) (b : Word) : (raisePhc s b).up = s.up := (raisePhc_keeps ..).up_eq (by decide)
@[simp] theorem raisePhc_ptp (s : State) (b : Word) : (raisePhc s b).ptp = s.ptp := (raisePhc_keeps ..).ptp_eq (by decide)
@[simp] theorem raisePhc_eth (s : State) (b : Word) : (raisePhc s b).eth = s.eth := (raisePhc_keeps ..).eth_eq (by decide)
@[simp] theorem raisePhc_can (s : State) (b : Word) : (raisePhc s b).can = s.can := (raisePhc_keeps ..).can_eq (by decide)
@[simp] theorem raisePhc_mtr (s : State) (b : Word) : (raisePhc s b).mtr = s.mtr := (raisePhc_keeps ..).mtr_eq (by decide)
@[simp] theorem raisePhc_lce (s : State) (b : Word) : (raisePhc s b).lce = s.lce := (raisePhc_keeps ..).lce_eq (by decide)
@[simp] theorem raisePhc_ble (s : State) (b : Word) : (raisePhc s b).ble = s.ble := (raisePhc_keeps ..).ble_eq (by decide)
@[simp] theorem raisePhc_twn (s : State) (b : Word) : (raisePhc s b).twn = s.twn := (raisePhc_keeps ..).twn_eq (by decide)
@[simp] theorem raisePhc_sec (s : State) (b : Word) : (raisePhc s b).sec = s.sec := (raisePhc_keeps ..).sec_eq (by decide)
@[simp] theorem raisePhc_upd (s : State) (b : Word) : (raisePhc s b).upd = s.upd := (raisePhc_keeps ..).upd_eq (by decide)
@[simp] theorem raisePhc_free (s : State) (b : Word) : (raisePhc s b).free = s.free := (raisePhc_keeps ..).free_eq (by decide)
@[simp] theorem raisePhc_out (s : State) (b : Word) : (raisePhc s b).out = s.out := (raisePhc_keeps ..).out_eq (by decide)

@[simp] theorem twnEvent_live (s : State) (b : Nat) : (twnEvent s b).live = s.live := (twnEvent_keeps ..).live_eq (by decide)
@[simp] theorem twnEvent_latch (s : State) (b : Nat) : (twnEvent s b).latch = s.latch := (twnEvent_keeps ..).latch_eq (by decide)
@[simp] theorem twnEvent_lowHeld (s : State) (b : Nat) : (twnEvent s b).lowHeld = s.lowHeld := (twnEvent_keeps ..).lowHeld_eq (by decide)
@[simp] theorem twnEvent_pts (s : State) (b : Nat) : (twnEvent s b).pts = s.pts := (twnEvent_keeps ..).pts_eq (by decide)
@[simp] theorem twnEvent_base (s : State) (b : Nat) : (twnEvent s b).base = s.base := (twnEvent_keeps ..).base_eq (by decide) (by decide)
@[simp] theorem twnEvent_phc (s : State) (b : Nat) : (twnEvent s b).phc = s.phc := (twnEvent_keeps ..).phc_eq (by decide)
@[simp] theorem twnEvent_clk (s : State) (b : Nat) : (twnEvent s b).clk = s.clk := (twnEvent_keeps ..).clk_eq (by decide)
@[simp] theorem twnEvent_banks (s : State) (b : Nat) : (twnEvent s b).banks = s.banks := (twnEvent_keeps ..).banks_eq (by decide)
@[simp] theorem twnEvent_ch (s : State) (b : Nat) : (twnEvent s b).ch = s.ch := (twnEvent_keeps ..).ch_eq (by decide)
@[simp] theorem twnEvent_rings (s : State) (b : Nat) : (twnEvent s b).rings = s.rings := (twnEvent_keeps ..).rings_eq (by decide)
@[simp] theorem twnEvent_recq (s : State) (b : Nat) : (twnEvent s b).recq = s.recq := (twnEvent_keeps ..).recq_eq (by decide)
@[simp] theorem twnEvent_recSlots (s : State) (b : Nat) : (twnEvent s b).recSlots = s.recSlots := (twnEvent_keeps ..).recSlots_eq (by decide)
@[simp] theorem twnEvent_recNext (s : State) (b : Nat) : (twnEvent s b).recNext = s.recNext := (twnEvent_keeps ..).recNext_eq (by decide)
@[simp] theorem twnEvent_recLost (s : State) (b : Nat) : (twnEvent s b).recLost = s.recLost := (twnEvent_keeps ..).recLost_eq (by decide)
@[simp] theorem twnEvent_recLostCls (s : State) (b : Nat) : (twnEvent s b).recLostCls = s.recLostCls := (twnEvent_keeps ..).recLostCls_eq (by decide)
@[simp] theorem twnEvent_watches (s : State) (b : Nat) : (twnEvent s b).watches = s.watches := (twnEvent_keeps ..).watches_eq (by decide)
@[simp] theorem twnEvent_rtc (s : State) (b : Nat) : (twnEvent s b).rtc = s.rtc := (twnEvent_keeps ..).rtc_eq (by decide)
@[simp] theorem twnEvent_msix (s : State) (b : Nat) : (twnEvent s b).msix = s.msix := (twnEvent_keeps ..).msix_eq (by decide)
@[simp] theorem twnEvent_msixPend (s : State) (b : Nat) : (twnEvent s b).msixPend = s.msixPend := (twnEvent_keeps ..).msixPend_eq (by decide)
@[simp] theorem twnEvent_busMaster (s : State) (b : Nat) : (twnEvent s b).busMaster = s.busMaster := (twnEvent_keeps ..).busMaster_eq (by decide)
@[simp] theorem twnEvent_memEnable (s : State) (b : Nat) : (twnEvent s b).memEnable = s.memEnable := (twnEvent_keeps ..).memEnable_eq (by decide)
@[simp] theorem twnEvent_forces (s : State) (b : Nat) : (twnEvent s b).forces = s.forces := (twnEvent_keeps ..).forces_eq (by decide)
@[simp] theorem twnEvent_img (s : State) (b : Nat) : (twnEvent s b).img = s.img := (twnEvent_keeps ..).img_eq (by decide)
@[simp] theorem twnEvent_up (s : State) (b : Nat) : (twnEvent s b).up = s.up := (twnEvent_keeps ..).up_eq (by decide)
@[simp] theorem twnEvent_ptp (s : State) (b : Nat) : (twnEvent s b).ptp = s.ptp := (twnEvent_keeps ..).ptp_eq (by decide)
@[simp] theorem twnEvent_eth (s : State) (b : Nat) : (twnEvent s b).eth = s.eth := (twnEvent_keeps ..).eth_eq (by decide)
@[simp] theorem twnEvent_can (s : State) (b : Nat) : (twnEvent s b).can = s.can := (twnEvent_keeps ..).can_eq (by decide)
@[simp] theorem twnEvent_mtr (s : State) (b : Nat) : (twnEvent s b).mtr = s.mtr := (twnEvent_keeps ..).mtr_eq (by decide)
@[simp] theorem twnEvent_lce (s : State) (b : Nat) : (twnEvent s b).lce = s.lce := (twnEvent_keeps ..).lce_eq (by decide)
@[simp] theorem twnEvent_ble (s : State) (b : Nat) : (twnEvent s b).ble = s.ble := (twnEvent_keeps ..).ble_eq (by decide)
@[simp] theorem twnEvent_twn (s : State) (b : Nat) : (twnEvent s b).twn = s.twn := (twnEvent_keeps ..).twn_eq (by decide)
@[simp] theorem twnEvent_sec (s : State) (b : Nat) : (twnEvent s b).sec = s.sec := (twnEvent_keeps ..).sec_eq (by decide)
@[simp] theorem twnEvent_upd (s : State) (b : Nat) : (twnEvent s b).upd = s.upd := (twnEvent_keeps ..).upd_eq (by decide)
@[simp] theorem twnEvent_free (s : State) (b : Nat) : (twnEvent s b).free = s.free := (twnEvent_keeps ..).free_eq (by decide)
@[simp] theorem twnEvent_out (s : State) (b : Nat) : (twnEvent s b).out = s.out := (twnEvent_keeps ..).out_eq (by decide)

@[simp] theorem poison_live (s : State) (h : Nat) : (poison s h).live = s.live := (poison_keeps ..).live_eq (by decide)
@[simp] theorem poison_latch (s : State) (h : Nat) : (poison s h).latch = s.latch := (poison_keeps ..).latch_eq (by decide)
@[simp] theorem poison_lowHeld (s : State) (h : Nat) : (poison s h).lowHeld = s.lowHeld := (poison_keeps ..).lowHeld_eq (by decide)
@[simp] theorem poison_pts (s : State) (h : Nat) : (poison s h).pts = s.pts := (poison_keeps ..).pts_eq (by decide)
@[simp] theorem poison_base (s : State) (h : Nat) : (poison s h).base = s.base := (poison_keeps ..).base_eq (by decide) (by decide)
@[simp] theorem poison_phc (s : State) (h : Nat) : (poison s h).phc = s.phc := (poison_keeps ..).phc_eq (by decide)
@[simp] theorem poison_clk (s : State) (h : Nat) : (poison s h).clk = s.clk := (poison_keeps ..).clk_eq (by decide)
@[simp] theorem poison_banks (s : State) (h : Nat) : (poison s h).banks = s.banks := (poison_keeps ..).banks_eq (by decide)
@[simp] theorem poison_ch (s : State) (h : Nat) : (poison s h).ch = s.ch := (poison_keeps ..).ch_eq (by decide)
@[simp] theorem poison_rings (s : State) (h : Nat) : (poison s h).rings = s.rings := (poison_keeps ..).rings_eq (by decide)
@[simp] theorem poison_recq (s : State) (h : Nat) : (poison s h).recq = s.recq := (poison_keeps ..).recq_eq (by decide)
@[simp] theorem poison_recSlots (s : State) (h : Nat) : (poison s h).recSlots = s.recSlots := (poison_keeps ..).recSlots_eq (by decide)
@[simp] theorem poison_recNext (s : State) (h : Nat) : (poison s h).recNext = s.recNext := (poison_keeps ..).recNext_eq (by decide)
@[simp] theorem poison_recLost (s : State) (h : Nat) : (poison s h).recLost = s.recLost := (poison_keeps ..).recLost_eq (by decide)
@[simp] theorem poison_recLostCls (s : State) (h : Nat) : (poison s h).recLostCls = s.recLostCls := (poison_keeps ..).recLostCls_eq (by decide)
@[simp] theorem poison_watches (s : State) (h : Nat) : (poison s h).watches = s.watches := (poison_keeps ..).watches_eq (by decide)
@[simp] theorem poison_rtc (s : State) (h : Nat) : (poison s h).rtc = s.rtc := (poison_keeps ..).rtc_eq (by decide)
@[simp] theorem poison_msix (s : State) (h : Nat) : (poison s h).msix = s.msix := (poison_keeps ..).msix_eq (by decide)
@[simp] theorem poison_msixPend (s : State) (h : Nat) : (poison s h).msixPend = s.msixPend := (poison_keeps ..).msixPend_eq (by decide)
@[simp] theorem poison_busMaster (s : State) (h : Nat) : (poison s h).busMaster = s.busMaster := (poison_keeps ..).busMaster_eq (by decide)
@[simp] theorem poison_memEnable (s : State) (h : Nat) : (poison s h).memEnable = s.memEnable := (poison_keeps ..).memEnable_eq (by decide)
@[simp] theorem poison_forces (s : State) (h : Nat) : (poison s h).forces = s.forces := (poison_keeps ..).forces_eq (by decide)
@[simp] theorem poison_img (s : State) (h : Nat) : (poison s h).img = s.img := (poison_keeps ..).img_eq (by decide)
@[simp] theorem poison_up (s : State) (h : Nat) : (poison s h).up = s.up := (poison_keeps ..).up_eq (by decide)
@[simp] theorem poison_ptp (s : State) (h : Nat) : (poison s h).ptp = s.ptp := (poison_keeps ..).ptp_eq (by decide)
@[simp] theorem poison_eth (s : State) (h : Nat) : (poison s h).eth = s.eth := (poison_keeps ..).eth_eq (by decide)
@[simp] theorem poison_can (s : State) (h : Nat) : (poison s h).can = s.can := (poison_keeps ..).can_eq (by decide)
@[simp] theorem poison_mtr (s : State) (h : Nat) : (poison s h).mtr = s.mtr := (poison_keeps ..).mtr_eq (by decide)
@[simp] theorem poison_lce (s : State) (h : Nat) : (poison s h).lce = s.lce := (poison_keeps ..).lce_eq (by decide)
@[simp] theorem poison_ble (s : State) (h : Nat) : (poison s h).ble = s.ble := (poison_keeps ..).ble_eq (by decide)
@[simp] theorem poison_twn (s : State) (h : Nat) : (poison s h).twn = s.twn := (poison_keeps ..).twn_eq (by decide)
@[simp] theorem poison_sec (s : State) (h : Nat) : (poison s h).sec = s.sec := (poison_keeps ..).sec_eq (by decide)
@[simp] theorem poison_upd (s : State) (h : Nat) : (poison s h).upd = s.upd := (poison_keeps ..).upd_eq (by decide)
@[simp] theorem poison_free (s : State) (h : Nat) : (poison s h).free = s.free := (poison_keeps ..).free_eq (by decide)
@[simp] theorem poison_out (s : State) (h : Nat) : (poison s h).out = s.out := (poison_keeps ..).out_eq (by decide)

@[simp] theorem bankEvent_live (s : State) (b : Nat) (w : Word) (x : List Word) : (bankEvent s b w x).live = s.live := (bankEvent_keeps ..).live_eq (by decide)
@[simp] theorem bankEvent_latch (s : State) (b : Nat) (w : Word) (x : List Word) : (bankEvent s b w x).latch = s.latch := (bankEvent_keeps ..).latch_eq (by decide)
@[simp] theorem bankEvent_lowHeld (s : State) (b : Nat) (w : Word) (x : List Word) : (bankEvent s b w x).lowHeld = s.lowHeld := (bankEvent_keeps ..).lowHeld_eq (by decide)
@[simp] theorem bankEvent_pts (s : State) (b : Nat) (w : Word) (x : List Word) : (bankEvent s b w x).pts = s.pts := (bankEvent_keeps ..).pts_eq (by decide)
@[simp] theorem bankEvent_base (s : State) (b : Nat) (w : Word) (x : List Word) : (bankEvent s b w x).base = s.base := (bankEvent_keeps ..).base_eq (by decide) (by decide)
@[simp] theorem bankEvent_phc (s : State) (b : Nat) (w : Word) (x : List Word) : (bankEvent s b w x).phc = s.phc := (bankEvent_keeps ..).phc_eq (by decide)
@[simp] theorem bankEvent_clk (s : State) (b : Nat) (w : Word) (x : List Word) : (bankEvent s b w x).clk = s.clk := (bankEvent_keeps ..).clk_eq (by decide)
@[simp] theorem bankEvent_banks (s : State) (b : Nat) (w : Word) (x : List Word) : (bankEvent s b w x).banks = s.banks := (bankEvent_keeps ..).banks_eq (by decide)
@[simp] theorem bankEvent_ch (s : State) (b : Nat) (w : Word) (x : List Word) : (bankEvent s b w x).ch = s.ch := (bankEvent_keeps ..).ch_eq (by decide)
@[simp] theorem bankEvent_rings (s : State) (b : Nat) (w : Word) (x : List Word) : (bankEvent s b w x).rings = s.rings := (bankEvent_keeps ..).rings_eq (by decide)
@[simp] theorem bankEvent_recq (s : State) (b : Nat) (w : Word) (x : List Word) : (bankEvent s b w x).recq = s.recq := (bankEvent_keeps ..).recq_eq (by decide)
@[simp] theorem bankEvent_recSlots (s : State) (b : Nat) (w : Word) (x : List Word) : (bankEvent s b w x).recSlots = s.recSlots := (bankEvent_keeps ..).recSlots_eq (by decide)
@[simp] theorem bankEvent_recNext (s : State) (b : Nat) (w : Word) (x : List Word) : (bankEvent s b w x).recNext = s.recNext := (bankEvent_keeps ..).recNext_eq (by decide)
@[simp] theorem bankEvent_recLost (s : State) (b : Nat) (w : Word) (x : List Word) : (bankEvent s b w x).recLost = s.recLost := (bankEvent_keeps ..).recLost_eq (by decide)
@[simp] theorem bankEvent_recLostCls (s : State) (b : Nat) (w : Word) (x : List Word) : (bankEvent s b w x).recLostCls = s.recLostCls := (bankEvent_keeps ..).recLostCls_eq (by decide)
@[simp] theorem bankEvent_watches (s : State) (b : Nat) (w : Word) (x : List Word) : (bankEvent s b w x).watches = s.watches := (bankEvent_keeps ..).watches_eq (by decide)
@[simp] theorem bankEvent_rtc (s : State) (b : Nat) (w : Word) (x : List Word) : (bankEvent s b w x).rtc = s.rtc := (bankEvent_keeps ..).rtc_eq (by decide)
@[simp] theorem bankEvent_msix (s : State) (b : Nat) (w : Word) (x : List Word) : (bankEvent s b w x).msix = s.msix := (bankEvent_keeps ..).msix_eq (by decide)
@[simp] theorem bankEvent_msixPend (s : State) (b : Nat) (w : Word) (x : List Word) : (bankEvent s b w x).msixPend = s.msixPend := (bankEvent_keeps ..).msixPend_eq (by decide)
@[simp] theorem bankEvent_busMaster (s : State) (b : Nat) (w : Word) (x : List Word) : (bankEvent s b w x).busMaster = s.busMaster := (bankEvent_keeps ..).busMaster_eq (by decide)
@[simp] theorem bankEvent_memEnable (s : State) (b : Nat) (w : Word) (x : List Word) : (bankEvent s b w x).memEnable = s.memEnable := (bankEvent_keeps ..).memEnable_eq (by decide)
@[simp] theorem bankEvent_forces (s : State) (b : Nat) (w : Word) (x : List Word) : (bankEvent s b w x).forces = s.forces := (bankEvent_keeps ..).forces_eq (by decide)
@[simp] theorem bankEvent_img (s : State) (b : Nat) (w : Word) (x : List Word) : (bankEvent s b w x).img = s.img := (bankEvent_keeps ..).img_eq (by decide)
@[simp] theorem bankEvent_up (s : State) (b : Nat) (w : Word) (x : List Word) : (bankEvent s b w x).up = s.up := (bankEvent_keeps ..).up_eq (by decide)
@[simp] theorem bankEvent_ptp (s : State) (b : Nat) (w : Word) (x : List Word) : (bankEvent s b w x).ptp = s.ptp := (bankEvent_keeps ..).ptp_eq (by decide)
@[simp] theorem bankEvent_eth (s : State) (b : Nat) (w : Word) (x : List Word) : (bankEvent s b w x).eth = s.eth := (bankEvent_keeps ..).eth_eq (by decide)
@[simp] theorem bankEvent_can (s : State) (b : Nat) (w : Word) (x : List Word) : (bankEvent s b w x).can = s.can := (bankEvent_keeps ..).can_eq (by decide)
@[simp] theorem bankEvent_mtr (s : State) (b : Nat) (w : Word) (x : List Word) : (bankEvent s b w x).mtr = s.mtr := (bankEvent_keeps ..).mtr_eq (by decide)
@[simp] theorem bankEvent_lce (s : State) (b : Nat) (w : Word) (x : List Word) : (bankEvent s b w x).lce = s.lce := (bankEvent_keeps ..).lce_eq (by decide)
@[simp] theorem bankEvent_ble (s : State) (b : Nat) (w : Word) (x : List Word) : (bankEvent s b w x).ble = s.ble := (bankEvent_keeps ..).ble_eq (by decide)
@[simp] theorem bankEvent_twn (s : State) (b : Nat) (w : Word) (x : List Word) : (bankEvent s b w x).twn = s.twn := (bankEvent_keeps ..).twn_eq (by decide)
@[simp] theorem bankEvent_sec (s : State) (b : Nat) (w : Word) (x : List Word) : (bankEvent s b w x).sec = s.sec := (bankEvent_keeps ..).sec_eq (by decide)
@[simp] theorem bankEvent_upd (s : State) (b : Nat) (w : Word) (x : List Word) : (bankEvent s b w x).upd = s.upd := (bankEvent_keeps ..).upd_eq (by decide)
@[simp] theorem bankEvent_free (s : State) (b : Nat) (w : Word) (x : List Word) : (bankEvent s b w x).free = s.free := (bankEvent_keeps ..).free_eq (by decide)
@[simp] theorem bankEvent_out (s : State) (b : Nat) (w : Word) (x : List Word) : (bankEvent s b w x).out = s.out := (bankEvent_keeps ..).out_eq (by decide)

@[simp] theorem pset_regs (s : State) (i : Nat) (v : Word) : (pset s i v).regs = s.regs := (pset_keeps ..).regs_eq (by decide)
@[simp] theorem pset_live (s : State) (i : Nat) (v : Word) : (pset s i v).live = s.live := (pset_keeps ..).live_eq (by decide)
@[simp] theorem pset_latch (s : State) (i : Nat) (v : Word) : (pset s i v).latch = s.latch := (pset_keeps ..).latch_eq (by decide)
@[simp] theorem pset_lowHeld (s : State) (i : Nat) (v : Word) : (pset s i v).lowHeld = s.lowHeld := (pset_keeps ..).lowHeld_eq (by decide)
@[simp] theorem pset_base (s : State) (i : Nat) (v : Word) : (pset s i v).base = s.base := (pset_keeps ..).base_eq (by decide) (by decide)
@[simp] theorem pset_phc (s : State) (i : Nat) (v : Word) : (pset s i v).phc = s.phc := (pset_keeps ..).phc_eq (by decide)
@[simp] theorem pset_clk (s : State) (i : Nat) (v : Word) : (pset s i v).clk = s.clk := (pset_keeps ..).clk_eq (by decide)
@[simp] theorem pset_banks (s : State) (i : Nat) (v : Word) : (pset s i v).banks = s.banks := (pset_keeps ..).banks_eq (by decide)
@[simp] theorem pset_ch (s : State) (i : Nat) (v : Word) : (pset s i v).ch = s.ch := (pset_keeps ..).ch_eq (by decide)
@[simp] theorem pset_rings (s : State) (i : Nat) (v : Word) : (pset s i v).rings = s.rings := (pset_keeps ..).rings_eq (by decide)
@[simp] theorem pset_evq (s : State) (i : Nat) (v : Word) : (pset s i v).evq = s.evq := (pset_keeps ..).evq_eq (by decide)
@[simp] theorem pset_recq (s : State) (i : Nat) (v : Word) : (pset s i v).recq = s.recq := (pset_keeps ..).recq_eq (by decide)
@[simp] theorem pset_recSlots (s : State) (i : Nat) (v : Word) : (pset s i v).recSlots = s.recSlots := (pset_keeps ..).recSlots_eq (by decide)
@[simp] theorem pset_recNext (s : State) (i : Nat) (v : Word) : (pset s i v).recNext = s.recNext := (pset_keeps ..).recNext_eq (by decide)
@[simp] theorem pset_recLost (s : State) (i : Nat) (v : Word) : (pset s i v).recLost = s.recLost := (pset_keeps ..).recLost_eq (by decide)
@[simp] theorem pset_recLostCls (s : State) (i : Nat) (v : Word) : (pset s i v).recLostCls = s.recLostCls := (pset_keeps ..).recLostCls_eq (by decide)
@[simp] theorem pset_watches (s : State) (i : Nat) (v : Word) : (pset s i v).watches = s.watches := (pset_keeps ..).watches_eq (by decide)
@[simp] theorem pset_rtc (s : State) (i : Nat) (v : Word) : (pset s i v).rtc = s.rtc := (pset_keeps ..).rtc_eq (by decide)
@[simp] theorem pset_msix (s : State) (i : Nat) (v : Word) : (pset s i v).msix = s.msix := (pset_keeps ..).msix_eq (by decide)
@[simp] theorem pset_msixPend (s : State) (i : Nat) (v : Word) : (pset s i v).msixPend = s.msixPend := (pset_keeps ..).msixPend_eq (by decide)
@[simp] theorem pset_busMaster (s : State) (i : Nat) (v : Word) : (pset s i v).busMaster = s.busMaster := (pset_keeps ..).busMaster_eq (by decide)
@[simp] theorem pset_memEnable (s : State) (i : Nat) (v : Word) : (pset s i v).memEnable = s.memEnable := (pset_keeps ..).memEnable_eq (by decide)
@[simp] theorem pset_forces (s : State) (i : Nat) (v : Word) : (pset s i v).forces = s.forces := (pset_keeps ..).forces_eq (by decide)
@[simp] theorem pset_img (s : State) (i : Nat) (v : Word) : (pset s i v).img = s.img := (pset_keeps ..).img_eq (by decide)
@[simp] theorem pset_up (s : State) (i : Nat) (v : Word) : (pset s i v).up = s.up := (pset_keeps ..).up_eq (by decide)
@[simp] theorem pset_ptp (s : State) (i : Nat) (v : Word) : (pset s i v).ptp = s.ptp := (pset_keeps ..).ptp_eq (by decide)
@[simp] theorem pset_eth (s : State) (i : Nat) (v : Word) : (pset s i v).eth = s.eth := (pset_keeps ..).eth_eq (by decide)
@[simp] theorem pset_mtr (s : State) (i : Nat) (v : Word) : (pset s i v).mtr = s.mtr := (pset_keeps ..).mtr_eq (by decide)
@[simp] theorem pset_lce (s : State) (i : Nat) (v : Word) : (pset s i v).lce = s.lce := (pset_keeps ..).lce_eq (by decide)
@[simp] theorem pset_twn (s : State) (i : Nat) (v : Word) : (pset s i v).twn = s.twn := (pset_keeps ..).twn_eq (by decide)
@[simp] theorem pset_sec (s : State) (i : Nat) (v : Word) : (pset s i v).sec = s.sec := (pset_keeps ..).sec_eq (by decide)
@[simp] theorem pset_upd (s : State) (i : Nat) (v : Word) : (pset s i v).upd = s.upd := (pset_keeps ..).upd_eq (by decide)
@[simp] theorem pset_free (s : State) (i : Nat) (v : Word) : (pset s i v).free = s.free := (pset_keeps ..).free_eq (by decide)
@[simp] theorem pset_out (s : State) (i : Nat) (v : Word) : (pset s i v).out = s.out := (pset_keeps ..).out_eq (by decide)

@[simp] theorem close_seatLow (s t : State) : (close s t).base.seatLow = t.base.seatLow := congrArg (·.seatLow) (close_baseRest s t)
@[simp] theorem close_seated (s t : State) : (close s t).base.seated = t.base.seated := congrArg (·.seated) (close_baseRest s t)
@[simp] theorem close_slot (s t : State) : (close s t).base.slot = t.base.slot := congrArg (·.slot) (close_baseRest s t)
@[simp] theorem close_peer (s t : State) : (close s t).base.peer = t.base.peer := congrArg (·.peer) (close_baseRest s t)
@[simp] theorem close_la (s t : State) : (close s t).base.la = t.base.la := congrArg (·.la) (close_baseRest s t)
@[simp] theorem close_lb (s t : State) : (close s t).base.lb = t.base.lb := congrArg (·.lb) (close_baseRest s t)
@[simp] theorem close_cart (s t : State) : (close s t).base.cart = t.base.cart := congrArg (·.cart) (close_baseRest s t)
@[simp] theorem close_intTemp (s t : State) : (close s t).base.intTemp = t.base.intTemp := congrArg (·.intTemp) (close_baseRest s t)
@[simp] theorem close_fieldDiss (s t : State) : (close s t).base.fieldDiss = t.base.fieldDiss := congrArg (·.fieldDiss) (close_baseRest s t)
@[simp] theorem close_thermWarn (s t : State) : (close s t).base.thermWarn = t.base.thermWarn := congrArg (·.thermWarn) (close_baseRest s t)
@[simp] theorem close_holdIn (s t : State) : (close s t).base.holdIn = t.base.holdIn := congrArg (·.holdIn) (close_baseRest s t)

end Sys2Proof.Laws
end

