-- ==== Sys2Proof/Laws/Events.lean ====
section
/-! SUPPORT. What raising bits of a latched event register does: the register, the event, and nothing else. -/

namespace Sys2Proof.Laws

open Machine

theorem done_next (s a t : State) : done s a = .next t ↔ close s a = t := by simp [done]

/-- How a completion statement is met: the pieces the command may change, the state it closes, and its effect there. -/
theorem completes {may : List Piece} {s x : State} {o : Host.Outcome State Fault Refusal} {E : State → Prop}
    (hk : ∃ u, o = .next (close s u) ∧ Keeps may s u) (ho : o = done s x) (he : E (close s x)) :
    ∃ t, o = .next t ∧ Frame may s t ∧ E t := by
  obtain ⟨u, hu, hf⟩ := hk
  have e : close s x = close s u := by
    rw [ho, done] at hu
    exact Host.Outcome.next.inj hu
  exact ⟨close s u, hu, hf.frame, e ▸ he⟩

theorem or_new (x b : Word) : x ||| (b &&& ~~~ x) = x ||| b := by
  ext i hi
  simp only [BitVec.getElem_or, BitVec.getElem_and, BitVec.getElem_not]
  cases x[i] <;> simp

theorem or_none {x b : Word} (h : b &&& ~~~ x = 0) : x ||| b = x := by
  rw [← or_new, h]; exact BitVec.or_zero

@[simp] theorem rget_ror (s : State) (o p : Nat) (m : Word) : rget (ror s o m) p = if p = o then rget s o ||| m else rget s p :=
  rget_rset ..

@[simp] theorem rget_rclr (s : State) (o p : Nat) (m : Word) : rget (rclr s o m) p = if p = o then rget s o &&& ~~~ m else rget s p :=
  rget_rset ..

@[simp] theorem rget_rsetFld (s : State) (o p a b v : Nat) :
    rget (rsetFld s o a b v) p = if p = o then setFld (rget s o) a b v else rget s p := rget_rset ..

@[simp] theorem rget_regEvent (s : State) (off : Nat) (bits obj : Word) (part : Nat) (host rec_ : Bool) (extra : List Word) (p : Nat) :
    rget (regEvent s off bits obj part host rec_ extra) p = rget s p :=
  (regEvent_keeps ..).rget (by decide) p

/-- A raised bit is set; every other register stands (R15, R552). -/
@[simp] theorem rget_raiseBits (s : State) (off : Nat) (bits obj : Word) (part : Nat) (host rec_ : Bool) (extra : List Word) (p : Nat) :
    rget (raiseBits s off bits obj part host rec_ extra) p = if p = off then rget s off ||| bits else rget s p := by
  unfold raiseBits
  dsimp only
  split
  · rename_i h
    split
    · rename_i hp
      rw [hp, or_none h]
    · rfl
  · rw [rget_regEvent, rget_ror, or_new]

@[simp] theorem rget_raiseHost (s : State) (off : Nat) (bits : Word) (p : Nat) :
    rget (raiseHost s off bits) p = if p = off then rget s off ||| bits else rget s p := rget_raiseBits ..

@[simp] theorem rget_raiseBoth (s : State) (off : Nat) (bits : Word) (p : Nat) :
    rget (raiseBoth s off bits) p = if p = off then rget s off ||| bits else rget s p := rget_raiseBits ..

theorem mergeReg_mem {off : Nat} {bits obj value : Word} {ts : Nat} {host rec_ : Bool} {extra : List Word} {l q : List Ev}
    (h : mergeReg off bits obj value ts host rec_ extra l = some q) :
    ∃ e ∈ q, e.code = 1 ∧ e.toHost = host ∧ wAt e.body 0 = w32 off ∧ wAt e.body 1 &&& bits = bits := by
  induction l generalizing q with
  | nil => cases h
  | cons e r ih =>
    unfold mergeReg at h
    split at h
    · rename_i hc
      cases h
      refine ⟨_, List.mem_cons_self, hc.1, hc.2.2.2.2.1, rfl, ?_⟩
      show (wAt e.body 1 ||| bits) &&& bits = bits
      ext i hi
      simp only [BitVec.getElem_or, BitVec.getElem_and]
      cases bits[i] <;> simp
    · obtain ⟨q', hq', rfl⟩ := Option.map_eq_some_iff.mp h
      obtain ⟨x, hx, hx'⟩ := ih hq'
      exact ⟨x, List.mem_cons_of_mem _ hx, hx'⟩

/-- The event of bits that become set waits to be written (R552). -/
theorem noted_regEvent (s : State) (off : Nat) (bits obj : Word) (part : Nat) (rec_ : Bool) (extra : List Word) :
    Noted off bits (regEvent s off bits obj part true rec_ extra) := by
  unfold regEvent
  split
  · rename_i q hq
    exact mergeReg_mem hq
  · refine ⟨_, List.mem_append.mpr (Or.inr (List.mem_singleton.mpr rfl)), rfl, rfl, rfl, ?_⟩
    exact BitVec.and_self

/-- Bits of which none was set raise their event. -/
theorem noted_raiseBits (s : State) (off : Nat) (bits obj : Word) (part : Nat) (rec_ : Bool) (extra : List Word)
    (h0 : bits ≠ 0) (h : bits &&& ~~~ (rget s off) = bits) :
    Noted off bits (raiseBits s off bits obj part true rec_ extra) := by
  unfold raiseBits
  dsimp only
  rw [h, if_neg h0]
  exact noted_regEvent ..

theorem bitOf_oneBit (i : Nat) (h : i < 32) : bitOf (oneBit i) i = true := by
  unfold bitOf oneBit w32
  rw [BitVec.getLsbD_ofNat]
  simp [h, Nat.testBit_shiftLeft]

theorem bitOf_oneBit_other {i j : Nat} (h : j ≠ i) : bitOf (oneBit i) j = false := by
  unfold bitOf oneBit w32
  rw [BitVec.getLsbD_ofNat, Nat.shiftLeft_eq, Nat.one_mul, Nat.testBit_two_pow]
  simp [Ne.symm h]

theorem bitOf_or (x y : Word) (i : Nat) : bitOf (x ||| y) i = (bitOf x i || bitOf y i) := BitVec.getLsbD_or

theorem bitOf_or_oneBit (x : Word) (i : Nat) (h : i < 32) : bitOf (x ||| oneBit i) i = true := by
  rw [bitOf_or, bitOf_oneBit i h, Bool.or_true]

/-- A bit that was clear is new. -/
theorem new_oneBit {x : Word} {i : Nat} (h : bitOf x i = false) : oneBit i &&& ~~~ x = oneBit i := by
  ext j hj
  by_cases hji : j = i
  · subst hji
    have hx : x[j] = false := by rw [← BitVec.getLsbD_eq_getElem hj]; exact h
    simp [hx]
  · have ho : (oneBit i)[j] = false := by rw [← BitVec.getLsbD_eq_getElem hj]; exact bitOf_oneBit_other hji
    simp [ho]

theorem oneBit_ne {i : Nat} (h : i < 32) : oneBit i ≠ 0 := by
  intro e
  have := bitOf_oneBit i h
  rw [e] at this
  simp [bitOf] at this

theorem noted_raiseHost (s : State) (off : Nat) (bits : Word) (h0 : bits ≠ 0) (h : bits &&& ~~~ (rget s off) = bits) :
    Noted off bits (raiseHost s off bits) := noted_raiseBits _ _ _ _ _ _ _ h0 h

theorem noted_raiseBoth (s : State) (off : Nat) (bits : Word) (h0 : bits ≠ 0) (h : bits &&& ~~~ (rget s off) = bits) :
    Noted off bits (raiseBoth s off bits) := noted_raiseBits _ _ _ _ _ _ _ h0 h

/-- One bit of a latched event register raised for the host, and perhaps for the recorder too. -/
theorem raised_raiseBits (s : State) (off i : Nat) (obj : Word) (part : Nat) (rec_ : Bool) (extra : List Word) (h : i < 32) :
    Raised off i s (raiseBits s off (oneBit i) obj part true rec_ extra) :=
  ⟨by rw [rget_raiseBits, if_pos rfl], fun hb => noted_raiseBits _ _ _ _ _ _ _ (oneBit_ne h) (new_oneBit hb)⟩

theorem raised_raiseHost (s : State) (off i : Nat) (h : i < 32) : Raised off i s (raiseHost s off (oneBit i)) :=
  raised_raiseBits _ _ _ _ _ _ _ h

theorem raised_raiseBoth (s : State) (off i : Nat) (h : i < 32) : Raised off i s (raiseBoth s off (oneBit i)) :=
  raised_raiseBits _ _ _ _ _ _ _ h

theorem regsOnly_raiseBits (s : State) (off : Nat) (bits obj : Word) (part : Nat) (host rec_ : Bool) (extra : List Word) :
    RegsOnly [off] s (raiseBits s off bits obj part host rec_ extra) := by
  intro p hp
  rw [rget_raiseBits, if_neg (by simpa using hp)]

theorem Raised.of_eq {off i : Nat} {s s' t : State} (h : Raised off i s' t) (e : rget s' off = rget s off) : Raised off i s t := by
  unfold Raised at *
  rwa [e] at h

theorem Noted.close {off : Nat} {bits : Word} {t : State} (h : Noted off bits t) (s : State) : Noted off bits (close s t) := by
  obtain ⟨q, w, e, -, -⟩ := close_spec s t
  obtain ⟨x, hx, hx'⟩ := h
  exact ⟨x, by rw [e]; exact List.mem_append.mpr (Or.inl hx), hx'⟩

theorem Raised.close {off i : Nat} {s t : State} (h : Raised off i s t) (u : State) : Raised off i s (close u t) :=
  ⟨by rw [close_rget]; exact h.1, fun hb => Noted.close (h.2 hb) u⟩

theorem RegsOnly.close {l : List Nat} {s t : State} (h : RegsOnly l s t) (u : State) : RegsOnly l s (close u t) :=
  fun o ho => by rw [close_rget]; exact h o ho

theorem RegsOnly.trans {l : List Nat} {s t u : State} (h : RegsOnly l s t) (g : RegsOnly l t u) : RegsOnly l s u :=
  fun o ho => (g o ho).trans (h o ho)

theorem RegsOnly.mono {l m : List Nat} {s t : State} (h : RegsOnly l s t) (hl : l ⊆ m) : RegsOnly m s t :=
  fun o ho => h o (fun q => ho (hl q))

theorem RegsOnly.of_keeps {l : List Nat} {may : List Piece} {s t : State} (h : Keeps may s t) (hp : Piece.regs ∉ may) :
    RegsOnly l s t := fun o _ => h.rget hp o

theorem regsOnly_rset (s : State) (o : Nat) (v : Word) : RegsOnly [o] s (rset s o v) := fun p hp =>
  rget_rset_other s v (by simpa using hp)

end Sys2Proof.Laws
end

