-- ==== Sys2Proof/Laws/Banks.lean ====
section
/-! SUPPORT. Safe states: what a cause does to a bank, and what the hardware command does to all of them. -/

namespace Sys2Proof.Laws

open Machine

/-- A bank with a cause of the safe state active, in its safe state. -/
def safeWith (k : Bank) (bit : Nat) : Bank := { k with causes := k.causes ||| oneBit bit, safe := true }

/-- Entering the safe state marks the bank safe and changes nothing else of any bank (R205). -/
theorem bank_enterSafe (s : State) (b d : Nat) :
    bank (enterSafe s b) d = if d = b then { bank s b with safe := true } else bank s d := by
  unfold enterSafe
  extract_lets +onlyGivenNames x1 x2 x3
  have h3 : Keeps [.regs, .pts, .ch, .evq, .can, .ble] x1 x3 := by
    refine Keeps.forAll ?_ fun u a h => Keeps.step h (setDiagBit_keeps ..) (by decide)
    exact Keeps.forAll (Keeps.refl _ _) fun u a h => Keeps.step h (safeChan_keeps ..) (by decide)
  have h4 := h3.trans ((safeEvent_keeps x3 b 0x20).mono (by decide))
  rw [h4.bank (by decide)]
  exact bank_modBank ..

/-- A cause puts its bank in the safe state and leaves every other bank alone (R205, R210). -/
theorem bank_addCause (s : State) (b bit d : Nat) :
    bank (addCause s b bit) d = if d = b then safeWith (bank s b) bit else bank s d := by
  unfold addCause
  extract_lets +onlyGivenNames x0
  have h0 : ∀ d, bank x0 d = if d = b then { bank s b with causes := (bank s b).causes ||| oneBit bit } else bank s d :=
    fun d => bank_modBank ..
  clear_value x0
  split
  · rename_i hs
    rw [h0 d]
    split
    · rw [h0 b, if_pos rfl] at hs
      have hs' : (bank s b).safe = true := hs
      simp [safeWith, hs']
    · rfl
  · rw [bank_enterSafe, h0 d, h0 b]
    split <;> simp [safeWith]

/-- A cause in every bank. -/
theorem bank_allCause (s : State) (bit b : Nat) (hb : b < 12) : bank (allCause s bit) b = safeWith (bank s b) bit := by
  have go : ∀ (l : List Nat) (t : State), l.Nodup → ∀ d, bank (forAll l (fun s b => addCause s b bit) t) d =
      if d ∈ l then safeWith (bank t d) bit else bank t d := by
    intro l
    induction l with
    | nil => intro t _ d; simp [forAll]
    | cons a l ih =>
      intro t hn d
      have e : forAll (a :: l) (fun s b => addCause s b bit) t = forAll l (fun s b => addCause s b bit) (addCause t a bit) := rfl
      rw [e, ih _ (List.nodup_cons.mp hn).2 d, bank_addCause]
      by_cases hd : d = a
      · subst hd
        simp [(List.nodup_cons.mp hn).1]
      · simp [hd]
  unfold allCause
  rw [go _ _ (by decide)]
  exact if_pos (List.mem_range.mpr hb)

theorem bank_hwSafe (s : State) (b : Nat) (hb : b < 12) : bank (hwSafe s) b = safeWith (bank s b) 4 := bank_allCause _ _ _ hb

theorem holdOut_hwSafe (s : State) : (hwSafe s).base.holdOut = false := by
  unfold hwSafe
  rw [(allCause_keeps _ 4).holdOut_eq (by decide)]

/-- The logic side in reset: the line released, every bank in its safe state with cause HW, nothing runs (R36, R152). -/
theorem holdReset_spec (s : State) (cause : Nat) :
    (holdReset s cause).base.holdOut = false ∧ (holdReset s cause).clk.alive = false ∧
    (holdReset s cause).clk.startCause = cause ∧ (holdReset s cause).ble.running = false ∧
    ∀ b, b < 12 → bank (holdReset s cause) b = safeWith (bank s b) 4 := by
  refine ⟨?_, rfl, rfl, rfl, fun b hb => ?_⟩
  · have e : (holdReset s cause).base = (hwSafe (flushEvents s)).base := by unfold holdReset; dsimp only
    rw [e, holdOut_hwSafe]
  · have e : bank (holdReset s cause) b = bank (hwSafe (flushEvents s)) b := by unfold holdReset bank; dsimp only
    rw [e, bank_hwSafe _ _ hb, (flushEvents_keeps s).bank (by decide)]

end Sys2Proof.Laws
end

