-- ==== Sys2Proof/Laws/Bits.lean ====
section
/-! SUPPORT. Bit fields: what a field reads after it, or another one, has been written. -/

namespace Sys2Proof.Laws

open Machine

theorem testBit_fld (w : Word) (hi lo i : Nat) : (fld w hi lo).testBit i = (decide (i < hi - lo + 1) && w.getLsbD (lo + i)) := by
  unfold fld nbits
  rw [Nat.testBit_mod_two_pow, Nat.testBit_shiftRight]
  rfl

theorem getLsbD_w32 (n i : Nat) : (w32 n).getLsbD i = (decide (i < 32) && n.testBit i) := by
  unfold w32
  rw [BitVec.getLsbD_ofNat]

theorem getLsbD_maskOf (hi lo i : Nat) : (maskOf hi lo).getLsbD i = (decide (i < 32) && (decide (lo ≤ i) && decide (i - lo < hi - lo + 1))) := by
  unfold maskOf
  rw [getLsbD_w32, Nat.testBit_shiftLeft, Nat.testBit_two_pow_sub_one]

theorem getLsbD_setFld (w : Word) (hi lo v i : Nat) (h : i < 32) :
    (setFld w hi lo v).getLsbD i = if lo ≤ i ∧ i - lo < hi - lo + 1 then v.testBit (i - lo) else w.getLsbD i := by
  unfold setFld
  rw [BitVec.getLsbD_or, BitVec.getLsbD_and, BitVec.getLsbD_not, getLsbD_maskOf, getLsbD_w32, Nat.testBit_shiftLeft,
    Nat.testBit_mod_two_pow]
  by_cases h1 : lo ≤ i <;> by_cases h2 : i - lo < hi - lo + 1 <;> simp [h, h1, h2]

theorem fld_setFld_same (w : Word) (hi lo v : Nat) (h : hi < 32) (hl : lo ≤ hi) :
    fld (setFld w hi lo v) hi lo = v % 2 ^ (hi - lo + 1) := by
  apply Nat.eq_of_testBit_eq
  intro i
  rw [testBit_fld, Nat.testBit_mod_two_pow]
  by_cases hi' : i < hi - lo + 1
  · rw [getLsbD_setFld _ _ _ _ _ (by omega)]
    simp [hi']
  · simp [hi']

theorem fld_setFld_other (w : Word) (hi lo v a b : Nat) (h : a < 32) (hb : b ≤ a) (hd : a < lo ∨ hi < b) (hl : lo ≤ hi) :
    fld (setFld w hi lo v) a b = fld w a b := by
  apply Nat.eq_of_testBit_eq
  intro i
  rw [testBit_fld, testBit_fld]
  by_cases hi' : i < a - b + 1
  · rw [getLsbD_setFld _ _ _ _ _ (by omega), if_neg (by omega)]
  · simp [hi']

theorem bitOf_setFld (w : Word) (hi lo v i : Nat) (h : i < 32) :
    bitOf (setFld w hi lo v) i = if lo ≤ i ∧ i - lo < hi - lo + 1 then v.testBit (i - lo) else bitOf w i :=
  getLsbD_setFld _ _ _ _ _ h

theorem bitOf_eq_fld (w : Word) (i : Nat) : bitOf w i = (fld w i i == 1) := by
  have h : fld w i i < 2 := by unfold fld nbits; simp; omega
  have t := testBit_fld w i i 0
  simp only [Nat.sub_self, Nat.add_zero] at t
  unfold bitOf
  rcases Nat.lt_succ_iff_lt_or_eq.mp h with h0 | h1
  · have : fld w i i = 0 := by omega
    rw [this] at t ⊢
    simpa using t.symm
  · rw [h1] at t ⊢
    simpa using t.symm

end Sys2Proof.Laws
end

