-- ==== Sys2Proof/Laws/Cart.lean ====
section
/-! SUPPORT. The cartridge that stops: what goes with it. -/

namespace Sys2Proof.Laws

open Machine

theorem raisePhc_regs (s : State) (b : Word) : RegsOnly [oPhcEvent] s (raisePhc s b) := by
  intro o ho
  unfold raisePhc
  dsimp only
  split
  · rfl
  · show rget (ror s oPhcEvent _) o = rget s o
    rw [rget_ror, if_neg (by simpa using ho)]

theorem refGone_spec (s : State) : (refGone s).phc.refValid = false ∧ (refGone s).phc.refSrc = 3 ∧
    RegsOnly [oPhcEvent] s (refGone s) := by
  unfold refGone
  dsimp only
  split
  · exact ⟨rfl, rfl, fun _ _ => rfl⟩
  · exact ⟨by simp, by simp, raisePhc_regs _ _⟩

/-- A cartridge that stops runs no more; its outputs, its points and the reference are gone (R77, R303, R315). -/
theorem mtrStop_spec (s : State) : (mtrStop s).mtr.running = false ∧ (mtrStop s).phc.refValid = false ∧
    (mtrStop s).phc.refSrc = 3 ∧ RegsOnly [oPhcEvent] s (mtrStop s) := by
  unfold mtrStop
  extract_lets +onlyGivenNames x0 x1
  have h0 : x0.mtr.running = false := rfl
  have run : ∀ (l : List Nat) (t : State), t.mtr.running = false → (forAll l (fun s o =>
      if (pulse s o).on then emit (setPulse s o { pulse s o with on := false }) (.pulse o false) else s) t).mtr.running = false := by
    intro l
    induction l with
    | nil => exact fun t h => h
    | cons a l ih =>
      intro t h
      refine ih _ ?_
      dsimp only
      split
      · exact h
      · exact h
  have h1 : x1.mtr.running = false := by with_reducible exact run (upto 9) x0 h0
  have k1 : Keeps [.mtr, .out] s x1 := by
    refine Keeps.forAll (Keeps.step (Keeps.refl _ _) (modMtr_keeps ..) (by decide)) fun v a hv => ?_
    exact Keeps.ite (Keeps.step (Keeps.step hv (setPulse_keeps ..) (by decide)) (emit_keeps ..) (by decide)) hv
  clear_value x1
  have k2 : Keeps [.mtr, .out, .pts, .can, .ble] s (clearMetering x1) := Keeps.step (k1.mono (by decide)) (clearMetering_keeps ..) (by decide)
  obtain ⟨a, b, c⟩ := refGone_spec (clearMetering x1)
  refine ⟨?_, a, b, RegsOnly.trans (RegsOnly.of_keeps k2 (by decide)) c⟩
  rw [(refGone_keeps _).mtr_eq (by decide), (clearMetering_keeps _).mtr_eq (by decide), h1]

end Sys2Proof.Laws
end

