-- ==== Sys2Proof/Machine/Panel.lean ====
section
/-! DEFINITION. What the front of the module shows (R22): the indicators hold nothing of their own and follow the state. -/

namespace Sys2Proof.Machine

/-- What an indicator of the front shows (R22). -/
inductive Lamp where
  | off
  | steady
  | flashing
  deriving DecidableEq, Repr

/-- PWR: a logic input is good (R22). -/
def lampPwr (s : State) : Lamp := if s.base.la || s.base.lb then .steady else .off

/-- RUN: start-up, the running controller, a standby of a running holder among them, or neither (R22). -/
def lampRun (s : State) : Lamp :=
  if 1 ≤ stage s ∧ stage s ≤ 8 then .flashing else if s.ble.running then .steady else .off

/-- BALL: a partner in the other slot without a synchronised pair is shown before who holds the ball
(R22; DEDUCED, log 122). -/
def lampBall (s : State) : Lamp :=
  if onTwin s && s.base.peer && !(s.twn.pair == 4 || s.twn.pair == 5) then .flashing
  else if s.base.holdOut then .steady else .off

/-- A fault keeps the controller stopped, or a bank in its safe state by WDOG, OVERTEMP or FS (R205, R419): a halted start,
reset-wait after a clock failure, and the reset of an expired supervisor watchdog are such faults too (R130, R148, R152). -/
def faultStops (s : State) : Bool :=
  haltedMod s || s.clk.resetWait.isSome || (!s.clk.alive && s.clk.startCause == 5) ||
  (!s.ble.running && [4, 5, 6, 7].contains s.ble.stopCause) ||
  (upto 12).any (fun b => (bank s b).causes &&& 0x148 != 0)

/-- An alarm is raised: a path alarm of the pair not yet cleared, or a saturation alarm of a loop (R349, R476). -/
def alarmRaised (s : State) : Bool :=
  rfld s oTwnEvent 4 3 != 0 || s.lce.loops.any (fun e => bitOf e.2.status 5)

/-- FLT (R22; which alarms count is DEDUCED, log 122). -/
def lampFlt (s : State) : Lamp :=
  if faultStops s then .steady else if alarmRaised s then .flashing else .off

/-- MTR conducts a pulse, or a flash of the check identifier, as the cartridge drives it; dark while the cartridge does not run (R22,
R303, R320). -/
def lampMtr (s : State) : Bool := s.mtr.running && (pulse s 8).on

/-- MTR shows the check identifier in place of pulses (R303). -/
def mtrShowsCheck (s : State) : Bool := s.mtr.running && s.mtr.showing.isSome

end Sys2Proof.Machine
end

