-- ==== Sys2Proof/Tests/Witnesses.lean ====
section
/-! SUPPORT. The hypotheses of the statements are met: for every statement with hypotheses one theorem shows, clause by clause, a state
and operands that meet all of them together. -/

namespace Sys2Proof.Tests

set_option Elab.async false
set_option linter.unusedVariables false

open Machine

/-- A started module in base slot B, its clocks running. -/
def runState : State :=
  let s := State.reset
  let s := { s with clk := { s.clk with alive := true, resetWait := none, good := 0x1FF, power := 0 } }
  let s := rset (rsetFld s oStartStatus 3 0 9) oGateOpen 0xFFFFF
  { s with base := { s.base with seated := true, seatLow := true, slot := 1, la := true, lb := true } }

/-- The clocks and the phase clock run. -/
def runs (s : State) : State :=
  let s := rsetFld s oStartStatus 3 0 9
  { s with
    clk := { s.clk with alive := true, resetWait := none, warned := false, power := 0 }
    phc := { s.phc with fire := true, run := true, st := max 1 (s.phc.st % 6), last := none, stepping := false, freq := 500000 }
    twn := { s.twn with from_ := 0, plan := none, role := 1 } }

/-- Schedule entry 3 fires now. -/
def withEntry (action : Nat) (arg : Nat) (s : State) : State :=
  let s := runs s
  let s := { s with live := s.live.filter (fun e => e.1 < 0x24000 || 0x28000 ≤ e.1), regs := s.regs.filter (fun e => e.1 < 0x24000 || 0x28000 ≤ e.1) }
  let s := lset (lset (lset s (oSched 3 0) (w32 (2 ^ 31 + action * 65536 + 1))) (oSched 3 1) (w32 (absA s % 2048))) (oSched 3 2) (w32 arg)
  { s with regs := (s.live.filter (fun e => inPhcSet e.1)).foldl (fun m e => tset regReset m e.1 e.2) (s.regs.filter (fun e => !inPhcSet e.1)) }

/-- A descriptor for ring `n` with a target, parameters and a payload. -/
def dsc (s : State) (n op : Nat) (c : Nat × List Nat × List Word) (extra : Nat) : Desc :=
  let par := c.2.1.map w32
  let g := (opForm ([w32 op, 0, w32 c.1, 0] ++ (par ++ List.replicate 8 0).take 8 ++ [0, 0, 0, 0])).getD {}
  let fl := g.pin.toNat + 2 * g.pout.toNat + 4 * (extra % 2)
  let len := if g.pin then (if c.2.2.isEmpty then g.lo else 4 * (c.2.2.length + 1)) else if g.pout then g.lo + 64 * extra else 0
  let pl := if g.pin then (if c.2.2.isEmpty then (upto (len / 4 - 1)).map (fun j => w32 (j + extra)) else c.2.2) else []
  { flags := BitVec.ofNat 24 fl, seq := (ring s n).seq, target := w32 c.1, w3 := 0, par := (par ++ List.replicate 8 0).take 8, addr := if g.pin || g.pout then 0x1000 else 0, len := w32 len, payload := pl }

/-- A start at which everything is found good and no partner answers. -/
def goodStart : StartEnv :=
  { pufGood := true, entropyGood := true, cell := 800, badRecords := [], damagedKeys := [], copyBad := false, fw0Bad := false, fw1Bad := false, settingsGood := true, retAGood := true, retBGood := true, loopsGood := true, satGood := true, forcesGood := true, store0Good := true, store1Good := true, banksUp := 0xFFF, locked := true, refFreq := 500000, net := none, partner := none }

/-- A cycle that measured nothing. -/
def noMeas : CycleMeas := { ns := 20000000, freq := 500000, v := [[], [], []], i := [] }

namespace F1




theorem witness_SeatingCommandsEffects :
    (∃ (s : State) (c : Fin 4), c.val ≠ s.base.slot ∧ seatedNow s = false) ∧
    (∃ (s : State) (c : Fin 4), c.val ≠ s.base.slot ∧ seatedNow s = true) :=
  ⟨⟨State.reset, 0, by decide +kernel⟩,
   ⟨runState, 0, by decide +kernel⟩⟩

end F1

namespace F2


def st0 : State :=
  (fun s => { s with base := { s.base with cart := true } }) runState

theorem witness_BaseInputEffects :
    (∃ (s : State) (p : Bool), s.base.peer ≠ p) ∧
    (∃ (s : State), s.base.cart = false) ∧
    (∃ (s : State), s.base.cart = true) ∧
    (∃ (s : State) (temp : BitVec 12) (diss : BitVec 12), 840 ≤ signedOf 12 temp.toNat) ∧
    (∃ (s : State) (temp : BitVec 12) (diss : BitVec 12), signedOf 12 temp.toNat < 800) ∧
    (∃ (s : State) (temp : BitVec 12) (diss : BitVec 12), 800 ≤ signedOf 12 temp.toNat ∧ signedOf 12 temp.toNat < 840) ∧
    (∃ (s : State) (b : Bool), (if b then s.base.lb else s.base.la) = true) ∧
    (∃ (s : State), (s.base.la = true ∨ s.base.lb = true)) :=
  ⟨⟨runState, true, by decide +kernel⟩,
   ⟨runState, by decide +kernel⟩,
   ⟨st0, by decide +kernel⟩,
   ⟨runState, 0x384#12, 0, by decide +kernel⟩,
   ⟨runState, 0x000#12, 0, by decide +kernel⟩,
   ⟨runState, 0x334#12, 0, by decide +kernel⟩,
   ⟨runState, true, by decide +kernel⟩,
   ⟨runState, by decide +kernel⟩⟩

end F2

namespace F3


def st0 : State :=
  (fun s => rset s oSwStatus 0xF) runState
def st2 : State :=
  (fun s => { s with up := 11000000, clk := { s.clk with good := 0x1FF, resetWait := some 2, goodAt := 1000000 } }) runState

theorem witness_ClockSourceCommandsEffects :
    (∃ (s : State) (d : Fin 4) (v : Word), Reaches s 0 ∧ (∀ e : Fin 4, e ≠ d → fld v (2 * e.val + 1) (2 * e.val) = rfld s oSrcSel (2 * e.val + 1) (2 * e.val)) ∧ fld v (2 * d.val + 1) (2 * d.val) ≠ rfld s oSrcSel (2 * d.val + 1) (2 * d.val) ∧ switching s d.val = false ∧ (clkSource d.val (fld v (2 * d.val + 1) (2 * d.val))).elim (d == 3) (usable s) = true) ∧
    (∃ (s : State) (d : Fin 4) (v : Word), Reaches s 0 ∧ (∀ e : Fin 4, e ≠ d → fld v (2 * e.val + 1) (2 * e.val) = rfld s oSrcSel (2 * e.val + 1) (2 * e.val)) ∧ fld v (2 * d.val + 1) (2 * d.val) ≠ rfld s oSrcSel (2 * d.val + 1) (2 * d.val) ∧ switching s d.val = true) ∧
    (∃ (s : State) (d : Fin 4), switching s d.val = true) ∧
    (∃ (s : State) (d : Fin 4), switching s d.val = true) ∧
    (∃ (s : State) (n : Fin 9), bitOf s.clk.good n.val = true ∧ monitored s n.val = true ∧ feedsCore s n.val = true) ∧
    (∃ (s : State) (n : Fin 9), bitOf s.clk.good n.val = true ∧ monitored s n.val = true ∧ feedsCore s n.val = false ∧ n.val ≠ 2 ∧ n.val ≠ 6 ∧ clkSource 3 (nAt s.clk.src 3) ≠ some n.val) ∧
    (∃ (s : State), s.clk.goodAt + 10000000 ≤ s.up ∧ ((s.clk.resetWait).toList).any (fun n => decide (bitOf s.clk.good n = true)) = true) :=
  ⟨⟨runState, 0, 0x000000d4#32, by unfold Reaches; decide +kernel⟩,
   ⟨st0, 0, 0x000000d6#32, by unfold Reaches; decide +kernel⟩,
   ⟨st0, 0, by decide +kernel⟩,
   ⟨st0, 0, by decide +kernel⟩,
   ⟨runState, 1, by decide +kernel⟩,
   ⟨runState, 0, by decide +kernel⟩,
   ⟨st2, by decide +kernel⟩⟩

end F3

namespace F4


def st0 : State :=
  (fun s => { s with clk := { s.clk with alive := true, resetWait := none, power := 0, closing := if s.clk.closing = 0 then 3 else s.clk.closing, fm := some (1,2,9) } }) runState
def st1 : State :=
  (fun s => rset (rset { s with clk := { s.clk with alive := true, resetWait := none, power := 1, fm := none }, ble := {s.ble with running := false } } oStartStatus 9) oGateOpen 0xFFFFF) runState
def st2 : State :=
  (fun s => rset (rset { s with clk := { s.clk with alive := true, resetWait := none, power := 0, fm := none, closing := 0 }, ble := {s.ble with running := false } } oStartStatus 9) oGateRun 0) runState
def st3 : State :=
  (fun s => { rset (runs s) oGateRun 0xFFFFF with ble := { s.ble with running := true } }) runState

theorem witness_GateAndMeterCommandsEffects :
    (∃ (s : State) (bit : Fin 20), Reaches s 0 ∧ gateRw bit.val = true ∧ gateRefused s (oneBit bit.val) = false ∧ s.clk.power = 0 ∧ bitOf (rget s oGateOpen) bit.val = true) ∧
    (∃ (s : State) (bit : Fin 20), Reaches s 0 ∧ gateRw bit.val = true ∧ gateRefused s (oneBit bit.val) = false ∧ s.clk.power = 0 ∧ bitOf (rget s oGateOpen) bit.val = true) ∧
    (∃ (s : State) (bit : Fin 20) (idle : Bool), Reaches s 0 ∧ gateRw bit.val = true ∧ bitOf (rget s oGateRun) bit.val = true ∧ gateRefused s (oneBit bit.val) = true) ∧
    (∃ (s : State) (bit : Fin 20), bitOf s.clk.closing bit.val = true) ∧
    (∃ (s : State) (bit : Fin 20), Reaches s 0 ∧ gateRw bit.val = true ∧ bitOf (rget s oGateRun) bit.val = false ∧ gateRefused s (oneBit bit.val) = false ∧ s.clk.power = 0) ∧
    (∃ (s : State) (bit : Fin 20), s.clk.power = 1) ∧
    (∃ (s : State) (v : Word), Reaches s 18 ∧ s.clk.fm = none ∧ bitOf v 16 = true ∧ 8 ≤ fld v 12 8 ∧ fld v 12 8 ≤ 24 ∧ fld v 3 0 ≠ fld v 7 4 ∧ fld v 3 0 ≤ 8 ∧ fld v 7 4 ≤ 8) ∧
    (∃ (s : State) (v : Word), Reaches s 18 ∧ s.clk.fm = none ∧ bitOf v 16 = true ∧ fld v 3 0 = fld v 7 4) ∧
    (∃ (s : State) (count : BitVec 64), s.clk.fm.isSome = true ∧ bitOf (rget s oGateOpen) 18 = true) :=
  ⟨⟨runState, 1, by unfold Reaches; decide +kernel⟩,
   ⟨runState, 1, by unfold Reaches; decide +kernel⟩,
   ⟨st3, 1, true, by unfold Reaches; decide +kernel⟩,
   ⟨st0, 0, by decide +kernel⟩,
   ⟨st2, 1, by unfold Reaches; decide +kernel⟩,
   ⟨st1, 0, by decide +kernel⟩,
   ⟨runState, 0x00010c12#32, by unfold Reaches; decide +kernel⟩,
   ⟨runState, 0xffffffff#32, by unfold Reaches; decide +kernel⟩,
   ⟨st0, 0, by decide +kernel⟩⟩

end F4

namespace F5


def st0 : State :=
  (fun s => { s with clk := { s.clk with alive := false, resetWait := none, good := 0x1FF, perst := true, linkPcie := true }, base := { s.base with la := true, lb := true, seated := true, slot := 1 } }) runState
def st2 : State :=
  (fun s => { s with clk := { s.clk with alive := true, resetWait := none, warned := true, pfRetain := false }, base := { s.base with la := true }, twn := { s.twn with plan := none } }) runState
def st3 : State :=
  (fun s => { s with clk := { s.clk with alive := true, resetWait := none, warned := false }, base := { s.base with la := false, lb := false }, twn := { s.twn with role := 1, pair := 4, plan := none } }) runState
def st4 : State :=
  (fun s => { s with clk := { s.clk with alive := false, resetWait := none, good := 0x1FE }, base := { s.base with la := true, lb := true, seated := true, slot := 1 } }) runState

theorem witness_PowerAndStartCommandsEffects :
    (∃ (s : State), s.clk.alive = true ∧ s.clk.warned = false) ∧
    (∃ (s : State), s.clk.alive = true ∧ s.clk.warned = true ∧ (s.base.la || s.base.lb) = true ∧ s.clk.pfRetain = false ∧ s.twn.plan = none) ∧
    (∃ (s : State) (backup : Bool), (s.base.la || s.base.lb) = false) ∧
    (∃ (s : State), s.clk.alive = true) ∧
    (∃ (s : State) (env : StartEnv), mayStart s = true ∧ ((badSource s).toList).any (fun n => true) = true) ∧
    (∃ (s : State) (env : StartEnv), mayStart s = true ∧ badSource s = none ∧ env.pufGood = false) ∧
    (∃ (s : State) (env : StartEnv), mayStart s = true ∧ badSource s = none ∧ env.pufGood = true ∧ firmwareStart (step1 (dropVolatile s) env) env.copyBad env.fw0Bad env.fw1Bad = none) ∧
    (∃ (s : State) (env : StartEnv), mayStart s = true ∧ badSource s = none ∧ env.pufGood = true ∧ (firmwareStart (step1 (dropVolatile s) env) env.copyBad env.fw0Bad env.fw1Bad).isSome = true) :=
  ⟨⟨runState, by decide +kernel⟩,
   ⟨st2, by decide +kernel⟩,
   ⟨st3, true, by decide +kernel⟩,
   ⟨runState, by decide +kernel⟩,
   ⟨st4, goodStart, by decide +kernel⟩,
   ⟨st0, { goodStart with pufGood := false }, by decide +kernel⟩,
   ⟨st0, { goodStart with fw0Bad := true, fw1Bad := true }, by decide +kernel⟩,
   ⟨st0, goodStart, by decide +kernel⟩⟩

end F5

namespace F6


def st0 : State :=
  (fun s => withEntry 7 0x1234 s) runState
def st1 : State :=
  (fun s => let s := runs s; { s with phc := { s.phc with st := 1, missN := 1, markFor := 0, lossDue := false, cycle := 5, phase := 4095, refValid := true, lockN := 3 }, base := { s.base with cart := true }, mtr := { s.mtr with running := true, fund := [50000, 50000, 50000] } }) runState
def st3 : State :=
  (fun s => let s := runs s; { s with phc := { s.phc with st := 0, run := false, refSrc := 3 }, base := { s.base with cart := true }, mtr := { s.mtr with running := true, fund := [50000, 50000, 50000] } }) runState
def st4 : State :=
  (fun s => let s := runs s; { s with phc := { s.phc with st := 0, run := true, missN := 0, markFor := 0, lossDue := false, cycle := 5 } }) runState
def st5 : State :=
  (fun s => let s := runs s; { s with phc := { s.phc with st := 2, markFor := 0, cycle := 7 }, base := { s.base with cart := true }, mtr := { s.mtr with running := true, fund := [50000, 50000, 50000] } }) runState
def st6 : State :=
  (fun s => let s := runs s; { s with phc := { s.phc with st := 5, stepping := true, refValid := true } }) runState
def st8 : State :=
  (fun s => let s := rset (runs s) oGateOpen 0xFFFFF; { s with twn := { s.twn with role := 2 } }) runState
def st9 : State :=
  (fun s => let s := rset (runs s) oPhcCommitStatus 0x80000003; { s with phc := { s.phc with cycle := 9, phase := 0, reqA := 4 } }) runState
def st11 : State :=
  (fun s => let s := runs s; { s with phc := { s.phc with timed := [ { (s.phc.timed.headD ⟨0,0,0,false,0,0,false⟩) with ring := 3, unit := absA s, fixed := true, action := 7 } ] } }) runState
def st12 : State :=
  (fun s => let s := rset (rset (runs s) oPhcCommitStatus 0x80000003) oPhcCtrl 0x7C; { s with phc := { s.phc with cycle := 9, phase := 0, reqA := 4 }, ble := { s.ble with act := none } }) runState

theorem witness_PhaseClockCommandsEffects :
    (∃ (s : State) (freq : Nat) (frac : Fin 16) (since : Nat) (sub : Fin 16), refOk s freq = true ∧ s.phc.st = 0 ∧ s.phc.run = false) ∧
    (∃ (s : State) (freq : Nat) (frac : Fin 16) (since : Nat) (sub : Fin 16), refOk s freq = true ∧ s.phc.run = true ∧ (s.phc.st = 0 ∨ s.phc.st = 1 ∨ s.phc.st = 5) ∧ s.phc.stepping = false ∧ s.phc.markFor ≠ (markerSeen s frac since sub).1 ∧ (markerSeen s frac since sub).2.natAbs ≤ 4096) ∧
    (∃ (s : State) (freq : Nat) (frac : Fin 16) (since : Nat) (sub : Fin 16), refOk s freq = true ∧ s.phc.run = true ∧ (s.phc.st = 2 ∨ s.phc.st = 3 ∨ s.phc.st = 4) ∧ s.phc.stepping = false ∧ s.phc.markFor ≠ (markerSeen s frac since sub).1) ∧
    (∃ (s : State) (freq : Nat) (frac : Fin 16) (since : Nat) (sub : Fin 16), refOk s freq = true ∧ s.phc.run = true ∧ (s.phc.st = 0 ∨ s.phc.st = 1 ∨ s.phc.st = 5) ∧ 4096 < (markerSeen s frac since sub).2.natAbs) ∧
    (∃ (s : State) (freq : Nat) (frac : Fin 16) (since : Nat) (sub : Fin 16), refOk s freq = false) ∧
    (∃ (s : State), s.phc.run = true ∧ s.clk.alive = true ∧ s.clk.resetWait = none ∧ s.phc.stepping = false) ∧
    (∃ (s : State), s.phc.run = true ∧ s.phc.stepping = false ∧ s.phc.lossDue = false ∧ s.phc.markFor < s.phc.cycle + 1 ∧ s.phc.st = 0) ∧
    (∃ (s : State), s.phc.run = true ∧ s.phc.stepping = false ∧ s.phc.lossDue = false ∧ s.phc.markFor < s.phc.cycle + 1 ∧ (s.phc.st = 1 ∨ s.phc.st = 5) ∧ s.phc.missN = 0) ∧
    (∃ (s : State), s.phc.run = true ∧ s.phc.stepping = false ∧ s.phc.lossDue = false ∧ s.phc.markFor < s.phc.cycle + 1 ∧ (s.phc.st = 1 ∨ s.phc.st = 5) ∧ 1 ≤ s.phc.missN) ∧
    (∃ (s : State), s.phc.st = 2) ∧
    (∃ (s : State), s.phc.run = true ∧ s.clk.alive = true ∧ s.clk.resetWait = none ∧ s.phc.stepping = true) ∧
    (∃ (s : State) (n : Fin 1024), (fireEntry (dueCommits s) n.val 7).isSome = true) ∧
    (∃ (s : State) (r : Fin 64), (dueCommits s).phc.run = true ∧ (dueCommits s).clk.alive = true ∧ (dueCommits s).phc.st ≠ 0 ∧ (((dueCommits s).phc.timed.find? (fun x => x.ring == r.val)).toList).any (fun x => decide (x.unit = absA (dueCommits s)) && decide ((x.fixed || !x.net) = true) && decide (inOrder (dueCommits s) x.action (1024 + r.val) = true)) = true) ∧
    (∃ (s : State) (v : Word), Reaches s 6 ∧ bitOf v 0 = true ∧ isStandby s = false ∧ phcPending s = false ∧ s.ble.act = none) ∧
    (∃ (s : State) (v : Word), Reaches s 6 ∧ bitOf v 0 = true ∧ isStandby s = true) ∧
    (∃ (s : State), isPhcPoint s = true ∧ phcCheck s s.img = none) ∧
    (∃ (s : State), isPhcPoint s = true ∧ ((phcCheck s s.img).toList).any (fun r => decide (r.1 < 16) && decide (r.2.2 < 1024)) = true) :=
  ⟨⟨st3, 500000, 0, 0, 0, by decide +kernel⟩,
   ⟨st1, 500000, 0, 0, 0, by decide +kernel⟩,
   ⟨st5, 500000, 0, 0, 0, by decide +kernel⟩,
   ⟨st1, 500000, 0, 300, 0, by decide +kernel⟩,
   ⟨runState, 0, 0, 0, 0, by decide +kernel⟩,
   ⟨st0, by decide +kernel⟩,
   ⟨st4, by decide +kernel⟩,
   ⟨st0, by decide +kernel⟩,
   ⟨st1, by decide +kernel⟩,
   ⟨st5, by decide +kernel⟩,
   ⟨st6, by decide +kernel⟩,
   ⟨st0, 3, by decide +kernel⟩,
   ⟨st11, 3, by decide +kernel⟩,
   ⟨runState, 0x00000001#32, by unfold Reaches; decide +kernel⟩,
   ⟨st8, 0x00000001#32, by unfold Reaches; decide +kernel⟩,
   ⟨st9, by decide +kernel⟩,
   ⟨st12, by decide +kernel⟩⟩

end F6

namespace F7

def allBanks (s : State) (f : Bank → Bank) : State := (upto 12).foldl (fun s b => modBank s b f) (rset (runs s) oGateOpen 0xFFFFF)
def st0 : State :=
  (fun s => let s := allBanks s (fun k => { k with run := true }); let s := { s with phc := { s.phc with freq := 500000 } }; { s with phc := { s.phc with timed := [{ (s.phc.timed.headD ⟨0,0,0,false,0,0,false⟩) with ring := 3, unit := absA s + 5000, fixed := true, action := 4, arg := 0x30002 }] } }) runState
def st1 : State :=
  (fun s => (upto 12).foldl (fun s b => modBank s b (fun k => { k with batches := [⟨50000000000, [1,0,1], (bankChans b).map (fun c => ⟨chMode s c, 0, 0⟩)⟩] })) (runs s)) runState
def st4 : State :=
  (fun s => allBanks s (fun k => { k with run := true, linkUp := false, cfgDue := true, outq := (⟨3, [1,2,3], [(2,7)], false⟩ :: k.outq), batches := (⟨4, [1,0,1], (bankChans 0).map (convOf s)⟩ :: k.batches) })) runState
def st6 : State :=
  (fun s => let s := allBanks s (fun k => { k with linkUp := true, reqA := 0 }); (upto 12).foldl (fun s b => rset s (oBank b + 0xC) 0x80000003) { s with phc := { s.phc with phase := 0, cycle := 7 }, twn := { s.twn with role := 1 } }) runState
def st8 : State :=
  (fun s => { allBanks (rset s (oBank 0 + 0xC) 4) (fun k => { k with run := true }) with twn := { s.twn with role := 2 } }) runState
def st9 : State :=
  (fun s => allBanks (withEntry 1 5 s) (fun k => { k with run := true })) runState
def st10 : State :=
  (fun s => { allBanks (withEntry 4 0x30002 s) (fun k => { k with run := true , timing := [⟨absA s, 3, 3⟩, ⟨absA s + 1, 3, 3⟩, ⟨absA s, 3, 1030⟩] }) with phc := (withEntry 4 0x30002 s).phc }) runState
def st11 : State :=
  (fun s => let s := allBanks s (fun k => { k with linkUp := false, reqA := 0 }); (upto 12).foldl (fun s b => rset s (oBank b + 0xC) 0x80000003) { s with phc := { s.phc with phase := 0, cycle := 7 }, twn := { s.twn with role := 0 } }) runState
def st12 : State :=
  (fun s => allBanks s (fun k => { k with run := true, safe := false, applied := (upto 16).map (fun i => (0x100 + 0x20 * i, 5)) })) runState

theorem witness_BankFrameCommandsEffects :
    (∃ (s : State) (b : Fin 12), canSend s = true ∧ (bank s b).run = true) ∧
    (∃ (s : State) (b : Fin 12), canSend s = true) ∧
    (∃ (s : State) (b : Fin 12) (raw : List Word), (((bank s b).batches.head?).toList).any (fun bt => true) = true) ∧
    (∃ (s : State) (b : Fin 12) (raw : List Word), (bank s b).batches ≠ []) ∧
    (∃ (s : State) (b : Fin 12) (temp : BitVec 8) (volt : BitVec 12) (curr : BitVec 13) (meas : List Word), (bank s b).run = true) ∧
    (∃ (s : State) (b : Fin 12) (temp : BitVec 8) (volt : BitVec 12) (curr : BitVec 13) (meas : List Word), (bank s b).run = true) ∧
    (∃ (s : State) (b : Fin 12), canSend s = true ∧ (bank s b).run = true) ∧
    (∃ (s : State) (b : Fin 12), (bank s b).run = true) ∧
    (∃ (s : State) (b : Fin 12) (toBank : Bool), canSend s = true ∧ (bank s b).run = true) ∧
    (∃ (s : State) (b : Fin 12) (p : BitVec 16), canSend s = true ∧ (bank s b).run = true) ∧
    (∃ (s : State) (b : Fin 12) (p : BitVec 16), canSend s = true ∧ (((bank s b).outq.head?).toList).any (fun f => true) = true) ∧
    (∃ (s : State) (b : Fin 12), canSend s = true ∧ (bank s b).cfgDue = true ∧ (bank s b).run = true) ∧
    (∃ (s : State) (b : Fin 12), canSend s = true ∧ (bank s b).cfgDue = true) ∧
    (∃ (s : State) (b : Fin 12), canSend s = true ∧ bitOf (chan s (16 * b)).diag 4 = false) :=
  ⟨⟨st0, 0, by decide +kernel⟩,
   ⟨runState, 0, by decide +kernel⟩,
   ⟨st1, 0, [], by decide +kernel⟩,
   ⟨st1, 0, [], by decide +kernel⟩,
   ⟨st0, 0, 0, 0, 0, [], by decide +kernel⟩,
   ⟨st0, 0, 0, 0, 0, [], by decide +kernel⟩,
   ⟨st0, 0, by decide +kernel⟩,
   ⟨st0, 0, by decide +kernel⟩,
   ⟨st0, 0, true, by decide +kernel⟩,
   ⟨st0, 0, 0, by decide +kernel⟩,
   ⟨st4, 0, 0, by decide +kernel⟩,
   ⟨st4, 0, by decide +kernel⟩,
   ⟨st4, 0, by decide +kernel⟩,
   ⟨runState, 0, by decide +kernel⟩⟩

theorem witness_BankCommitAndSafeCommandsEffects :
    (∃ (s : State) (b : Fin 12) (v : Word), Reaches s 7 ∧ bitOf v 0 = true ∧ isStandby s = false ∧ bankPending s b = false) ∧
    (∃ (s : State) (b : Fin 12) (v : Word), Reaches s 7 ∧ bitOf v 0 = true ∧ isStandby s = true) ∧
    (∃ (s : State) (b : Fin 12), bankPending s b = true ∧ isBankPoint s b = true ∧ bankCheck s b = none) ∧
    (∃ (s : State) (b : Fin 12), bankPending s b = true ∧ isBankPoint s b = true ∧ ((bankCheck s b).toList).any (fun r => decide (r.1 < 32) && decide (r.2 < 16)) = true) ∧
    (∃ (s : State) (n : Fin 1024), (fireEntry (dueCommits s) n.val 1).isSome = true) ∧
    (∃ (s : State) (n : Fin 1088) (again : Bool), n.val < 1024 ∧ clockRuns s = true ∧ canSend s = true ∧ entryEn s.live n.val = true ∧ entryAction s.live n.val = 4 ∧ entryPeriod s.live n.val ≠ 0 ∧ (bank s (fld (schedWord s.live n.val 2) 3 0)).run = true) ∧
    (∃ (s : State) (n : Fin 1088), 1024 ≤ n.val ∧ clockRuns s = true ∧ canSend s = true ∧ ((timedZc s (n.val - 1024)).toList).any (fun x => decide ((bank s (fld x.arg 3 0)).run = true)) = true) ∧
    (∃ (s : State) (b : Fin 12), mustHold s b = false ∧ ((zcNext s b).toList).any (fun n => decide (n < 1024)) = true) ∧
    (∃ (s : State) (c : Fin 192), appMode s c = 5 ∧ (bank s (c / 16)).run = true ∧ (bank s (c / 16)).safe = false) ∧
    (∃ (s : State) (b : Fin 12) (v : Word), Reaches s 7 ∧ bitOf v 0 = true) ∧
    (∃ (s : State) (b : Fin 12) (v : Word), Reaches s 7 ∧ bitOf v 0 = true) :=
  ⟨⟨runState, 0, 0x00000001#32, by unfold Reaches; decide +kernel⟩,
   ⟨st8, 0, 0x00000001#32, by unfold Reaches; decide +kernel⟩,
   ⟨st6, 0, by decide +kernel⟩,
   ⟨st11, 0, by decide +kernel⟩,
   ⟨st9, 3, by decide +kernel⟩,
   ⟨st10, 3, true, by decide +kernel⟩,
   ⟨st0, 1027, by decide +kernel⟩,
   ⟨st10, 0, by decide +kernel⟩,
   ⟨st12, 0, by decide +kernel⟩,
   ⟨runState, 0, 0x00000001#32, by unfold Reaches; decide +kernel⟩,
   ⟨runState, 0, 0x00000001#32, by unfold Reaches; decide +kernel⟩⟩

end F7

namespace F9

def appl (m : Nat) (f : Chan → Chan) (g : Bank → Bank) (s : State) : State :=
  let s := (upto 12).foldl (fun s b => modBank s b (fun k => g { k with run := true, driving := true, applied := (upto 16).map (fun i => (0x100 + 0x20 * i, w32 (m + 128 + 0x300))) })) (rset (runs s) oGateOpen 0xFFFFF)
  ([0,1,2,3,15,16,17,191]).foldl (fun s c => modChan s c f) s
def nrm (h : Chan) : Chan := { h with tripped := false, bdiag := 0x01000180, applied := 0x40800000 }
def st0 : State :=
  (appl 3 nrm id) runState
def st1 : State :=
  (appl 3 (fun h => { nrm h with tripped := true, bdiag := 0x04000000 }) id) runState
def st2 : State :=
  (appl 8 nrm id) runState
def st3 : State :=
  (appl 8 (fun h => { nrm h with bdiag := 0x10000}) id) runState
def st4 : State :=
  (appl 0xA nrm id) runState
def st5 : State :=
  (appl 1 id id) runState
def st6 : State :=
  (appl 2 id id) runState
def st7 : State :=
  (appl 5 (fun h => { nrm h with pwmOn := 4 , latPend := 4 }) id) runState
def st8 : State :=
  (appl 3 (fun h => { nrm h with latPend := 0 }) (fun k => { k with run := false, fsGood := true, causes := 0x40 })) runState

theorem witness_OutputFaultCommandsEffects :
    (∃ (s : State) (c : Fin 192), digitalOn s c = true) ∧
    (∃ (s : State) (c : Fin 192), digitalOn s c = true) ∧
    (∃ (s : State) (c : Fin 192), (chan s c).tripped = true ∧ getB s c 10 = false ∧ (chan s c).applied ≠ 0 ∧ (bank s (c / 16)).run = true) ∧
    (∃ (s : State) (c : Fin 192) (long : Bool), digitalLive s c = true) ∧
    (∃ (s : State) (b : Fin 12) (i : Fin 16), digitalLive s (16 * b.val + i.val) = true) :=
  ⟨⟨st0, 0, by decide +kernel⟩,
   ⟨st0, 0, by decide +kernel⟩,
   ⟨st1, 0, by decide +kernel⟩,
   ⟨st0, 0, true, by decide +kernel⟩,
   ⟨st0, 0, 0, by decide +kernel⟩⟩

theorem witness_DetectionCommandsEffects :
    (∃ (s : State) (c : Fin 192), isDigIn (appMode s c) = true ∧ openDet s c = true ∧ (bank s (c / 16)).run = true) ∧
    (∃ (s : State) (c : Fin 192), isDigIn (appMode s c) = true ∧ openDet s c = true ∧ (bank s (c / 16)).run = true) ∧
    (∃ (s : State) (c : Fin 192) (o : Bool), isDigOut (appMode s c) = true ∧ openDet s c = true ∧ (bank s (c / 16)).run = true ∧ (bank s (c / 16)).driving = true ∧ (o = true → appMode s c = 5 → stageOn s c = true ∧ 1000 ≤ (chan s c).pwmOn)) ∧
    (∃ (s : State) (c : Fin 192) (d : Bool), isDigOut (appMode s c) = true ∧ (bank s (c / 16)).run = true ∧ (bank s (c / 16)).driving = true) ∧
    (∃ (s : State) (c : Fin 192) (x : Bool), appMode s c = 8 ∧ (bank s (c / 16)).run = true ∧ (bank s (c / 16)).driving = true) ∧
    (∃ (s : State) (c : Fin 192) (x : Bool), appMode s c = 0xA ∧ (bank s (c / 16)).run = true) ∧
    (∃ (s : State) (c : Fin 192), appMode s c = 8 ∧ openDet s c = true ∧ (bank s (c / 16)).run = true ∧ (bank s (c / 16)).driving = true ∧ bitOf (chan s c).bdiag 16 = true ∧ fle (dec 1 1) (chan s c).applied = true) ∧
    (∃ (s : State) (c : Fin 192), appMode s c = 8 ∧ openDet s c = true ∧ (bank s (c / 16)).run = true ∧ (bank s (c / 16)).driving = true) ∧
    (∃ (s : State) (c : Fin 192), (chan s c).latPend = 0) ∧
    (∃ (s : State) (c : Fin 192), (chan s c).latPend ≠ 0) :=
  ⟨⟨st5, 0, by decide +kernel⟩,
   ⟨st5, 0, by decide +kernel⟩,
   ⟨st0, 0, true, by decide +kernel⟩,
   ⟨st0, 0, true, by decide +kernel⟩,
   ⟨st2, 0, true, by decide +kernel⟩,
   ⟨st4, 0, true, by decide +kernel⟩,
   ⟨st3, 0, by decide +kernel⟩,
   ⟨st2, 0, by decide +kernel⟩,
   ⟨runState, 0, by decide +kernel⟩,
   ⟨st7, 0, by decide +kernel⟩⟩

theorem witness_BankHealthCommandsEffects :
    (∃ (s : State) (b : Fin 12), (bank s b).fsGood = true) ∧
    (∃ (s : State) (b : Fin 12), (bank s b).fsGood = false) ∧
    (∃ (s : State) (b : Fin 12), (bank s b).run = false ∧ (bank s b).fsGood = true) ∧
    (∃ (s : State) (b : Fin 12), (bank s b).run = true) ∧
    (∃ (s : State) (b : Fin 12), bitOf (bank s b).causes 6 = true) ∧
    (∃ (s : State) (b : Fin 12), (bank s b).run = true) :=
  ⟨⟨st8, 0, by decide +kernel⟩,
   ⟨runState, 0, by decide +kernel⟩,
   ⟨st8, 0, by decide +kernel⟩,
   ⟨st0, 0, by decide +kernel⟩,
   ⟨st8, 0, by decide +kernel⟩,
   ⟨st0, 0, by decide +kernel⟩⟩

theorem witness_InputSampleCommandsEffects :
    (∃ (s : State) (c : Fin 192) (mv : Nat), isDigIn (appMode s c) = true ∧ (bank s (c / 16)).run = true) ∧
    (∃ (s : State) (c : Fin 192) (mv : Nat), appMode s c = 2 ∧ (bank s (c / 16)).run = true) :=
  ⟨⟨st5, 0, 0, by decide +kernel⟩,
   ⟨st6, 0, 0, by decide +kernel⟩⟩

end F9

namespace F10

def task0 (s : State) (f : TaskDef → TaskDef) : State :=
  match s.img with
  | some im => { s with img := some { im with tasks := (List.replicate 16 (f (im.tasks.headD ⟨true, false, 3, 1, 0, 1, []⟩))) } }
  | none => s
def fx (s : State) : State := { s with ble := { s.ble with running := true, run := none, stack := [], wait := [], tasks := [] }, lce := { s.lce with wait := [], run := none } }
def open_ (s : State) : State := { rset s oGateOpen 0xFFFFF with clk := { s.clk with alive := true, resetWait := none } }
def imW : Image := { bytes := [], programId := 7, build := 9, suppress := false, dataWords := 12, retainWords := 0, retainId := [], digest := [1], tasks := [⟨true, false, 3, 1, 0, 1, []⟩], insts := [⟨0x5C, 2, false, false, 0, 0, 7, 0, 0⟩], conns := [], init := [], vars := [], expr := [], rules := [], writes := [] }
def st0 : State :=
  (fun s => open_ (fx (rset (withEntry 2 5 s) oLceCommitStatus 4))) runState
def st1 : State :=
  (fun s => open_ (let s := fx (rset (withEntry 2 5 s) oLceCommitStatus 4); { s with lce := { s.lce with run := some ⟨0, 10 ^ 12, [], [], []⟩, wait := [(3, 5)] } })) runState
def st2 : State :=
  (fun s => open_ (let s := fx (rset (withEntry 2 5 s) oLceCommitStatus 4); { s with lce := { s.lce with run := some ⟨0, 10 ^ 12, [], [], []⟩, wait := [(3, 4)] } })) runState
def st5 : State :=
  (fun s => open_ (let s := task0 (fx (withEntry 3 2 s)) (fun d => { d with used := true, comfort := true }); { s with ble := { s.ble with stack := s.ble.run.toList ++ [⟨2, 3, 4, takeLatch s⟩], saving := some ⟨3,[],4,5,[], 0, []⟩, again := false }, clk := { s.clk with pfRetain := false } })) runState
def st6 : State :=
  (fun s => open_ (let s := task0 (fx (withEntry 3 2 s)) (fun d => { d with used := true, comfort := true }); { s with ble := { s.ble with run := some ⟨2, 3, 4, takeLatch s⟩, storing := some ⟨3, [], true⟩, act := some ⟨2, false, false, 3⟩ } })) runState
def st7 : State :=
  (fun s => open_ (let s := fx (rset (rset (runs s) oGateOpen 0xFFFFF) oLceCommitStatus 5); { s with lce := { s.lce with build := some [] }, twn := { s.twn with role := 1 }, ble := { s.ble with act := some ⟨2, false, true, 3⟩, saving := none, inactive := s.img } })) runState
def st8 : State :=
  (fun s => open_ (let s := rset (rset (runs s) oGateOpen 0xFFFFF) oLceCommitStatus 5; { s with lce := { s.lce with wait := [(4096, 3), (4097, 1)] }, ble := { s.ble with running := true }, twn := { s.twn with role := 2 } })) runState
def st9 : State :=
  (fun s => open_ (let s := rset (rset (runs s) oGateOpen 0xFFFFF) oLceCommitStatus 5; { s with lce := { s.lce with wait := [(4096, 3), (4097, 1)] }, ble := { s.ble with running := true } })) runState
def st11 : State :=
  (fun s => rset (let s := fx { withEntry 3 0 s with img := some imW }; { s with ble := { s.ble with wait := [(0, 3, 4, 5)], running := true } }) oGateOpen 0xFFFFF) runState
def st12 : State :=
  (fun s => rset (let s := fx (runs s); { s with ble := { s.ble with saving := some ⟨3,[],4,5,[], 0, []⟩, retA := some ⟨2,[],4,5,[], 0, []⟩, retB := none, storing := some ⟨3, [], true⟩, store0 := some ⟨2, [], true⟩, store1 := none } }) oGateOpen 0xFFFFF) runState
def st13 : State :=
  (fun s => rset (let s := fx { runs s with img := some imW }; { s with phc := { s.phc with cycle := 1000 }, ble := { s.ble with act := some ⟨2, false, true, 3⟩, inactive := some imW, saving := none } }) oGateOpen 0xFFFFF) runState
def st14 : State :=
  (fun s => rset (let s := task0 (fx (withEntry 3 0 { s with img := some imW })) (fun d => { d with used := true }); { s with base := { s.base with holdOut := true } }) oGateOpen 0xFFFFF) runState
def st15 : State :=
  (fun s => rset (let s := fx { runs s with img := some imW }; { s with ble := { s.ble with run := some ⟨0, 0, 4, takeLatch s⟩ } }) oGateOpen 0xFFFFF) runState
def st16 : State :=
  (fun s => rset (let s := fx { runs s with img := some imW }; { s with ble := { s.ble with act := some ⟨2, false, true, absA s - 100⟩, inactive := some imW, saving := none } }) oGateOpen 0xFFFFF) runState

theorem witness_LoopEngineCommandsEffects :
    (∃ (s : State) (n : Fin 1024), ([dueCommits s]).any (fun c => decide (lcePending c = false) && decide ((fireEntry c n.val 2).isSome = true) && decide (computes c = true) && decide (lceClock c = true) && decide (c.lce.wait = []) && decide (c.lce.run = none)) = true) ∧
    (∃ (s : State) (n : Fin 1024), ([dueCommits s]).any (fun c => decide (lcePending c = false) && decide ((fireEntry c n.val 2).isSome = true) && decide (computes c = true) && decide (lceClock c = true) && decide (c.lce.run.isSome = true) && decide (c.lce.wait.any (fun w => w.2 == entryArg c n.val) = false)) = true) ∧
    (∃ (s : State) (n : Fin 1024), ([dueCommits s]).any (fun c => decide (lcePending c = false) && decide ((fireEntry c n.val 2).isSome = true) && decide (computes c = true) && decide (lceClock c = true) && decide (c.lce.wait.any (fun w => w.2 == entryArg c n.val) = true)) = true) ∧
    (∃ (s : State) (n : Fin 1024), ([dueCommits s]).any (fun c => decide (lcePending c = false) && decide ((fireEntry c n.val 2).isSome = true) && decide (computes c = true) && decide (lceClock c = true)) = true) ∧
    (∃ (s : State) (n : Fin 1024), ([dueCommits s]).any (fun c => decide (lcePending c = false) && decide ((fireEntry c n.val 2).isSome = true) && decide (computes c = true) && decide (lceClock c = true)) = true) ∧
    (∃ (s : State), s.lce.run = none ∧ computes s = true ∧ lceClock s = true ∧ ((s.lce.wait.head?).toList).any (fun w => true) = true) ∧
    (∃ (s : State) (v : Word), Reaches s 2 ∧ bitOf v 0 = true ∧ isStandby s = false ∧ lcePending s = false) ∧
    (∃ (s : State) (v : Word), Reaches s 2 ∧ bitOf v 0 = true ∧ isStandby s = true) ∧
    (∃ (s : State), lceClock s = true ∧ s.lce.build.isSome = true) ∧
    (∃ (s : State), lceClock s = true ∧ started s = true ∧ s.clk.resetWait = none) :=
  ⟨⟨st0, 3, by decide +kernel⟩,
   ⟨st2, 3, by decide +kernel⟩,
   ⟨st1, 3, by decide +kernel⟩,
   ⟨st0, 3, by decide +kernel⟩,
   ⟨st0, 3, by decide +kernel⟩,
   ⟨st9, by decide +kernel⟩,
   ⟨runState, 0x00000001#32, by unfold Reaches; decide +kernel⟩,
   ⟨st8, 0x00000001#32, by unfold Reaches; decide +kernel⟩,
   ⟨st7, by decide +kernel⟩,
   ⟨runState, by decide +kernel⟩⟩

theorem witness_TaskCycleCommandsEffects :
    (∃ (s : State) (n : Fin 1024) (executed : Nat), ([dueCommits s]).any (fun c => decide ((fireEntry c n.val 3).isSome = true) && decide (computes c = true) && decide (bleClock c = true) && decide ((c.img.bind (fun im => taskOf im (entryArg c n.val))).isSome = true) && decide ((task c (entryArg c n.val)).stopped = false) && decide (inCycle c (entryArg c n.val) = false) && decide (waitsFiring c (entryArg c n.val) = false) && decide (c.ble.run = none) && decide (c.ble.stack = []) && decide (c.ble.wait = []) && decide (mayLatch c (absA s) = true)) = true) ∧
    (∃ (s : State) (n : Fin 1024) (executed : Nat), ([dueCommits s]).any (fun c => ((c.img.bind (fun im => taskOf im (entryArg c n.val))).toList).any (fun d => decide ((fireEntry c n.val 3).isSome = true) && decide (computes c = true) && decide (bleClock c = true) && decide (d.comfort = false) && decide ((task c (entryArg c n.val)).stopped = false) && decide (waitsFiring c (entryArg c n.val) = true))) = true) ∧
    (∃ (s : State) (n : Fin 1024) (executed : Nat), ([dueCommits s]).any (fun c => decide ((fireEntry c n.val 3).isSome = true) && decide (computes c = true) && decide (bleClock c = true) && decide (c.img.isSome = true)) = true) ∧
    (∃ (s : State), bleClock s = true ∧ s.ble.run = none ∧ s.ble.wait = [] ∧ ((s.ble.stack.head?).toList).any (fun c => true) = true) ∧
    (∃ (s : State) (time : Nat), bleClock s = true ∧ ((s.ble.run).toList).any (fun c => ((s.img).toList).any (fun im => decide ((taskOf im c.task).isSome = true))) = true) ∧
    (∃ (s : State), latestIsA s = true ∧ ((s.ble.saving).toList).any (fun c => true) = true) ∧
    (∃ (s : State), latestIsA s = false ∧ ((s.ble.saving).toList).any (fun c => true) = true) ∧
    (∃ (s : State), latestIs0 s = true ∧ ((s.ble.storing).toList).any (fun c => true) = true) ∧
    (∃ (s : State), latestIs0 s = false ∧ ((s.ble.storing).toList).any (fun c => true) = true) :=
  ⟨⟨st14, 3, 0, by decide +kernel⟩,
   ⟨st11, 3, 0, by decide +kernel⟩,
   ⟨st11, 3, 0, by decide +kernel⟩,
   ⟨st5, by decide +kernel⟩,
   ⟨st15, 0, by decide +kernel⟩,
   ⟨st12, by decide +kernel⟩,
   ⟨st5, by decide +kernel⟩,
   ⟨st12, by decide +kernel⟩,
   ⟨st6, by decide +kernel⟩⟩

theorem witness_OnlineChangeCommandsEffects :
    (∃ (s : State), ((s.ble.act).toList).any (fun a => decide (a.built = false)) = true) ∧
    (∃ (s : State), (((s.ble.act).toList).any (fun a => ((s.img).toList).any (fun old => ((s.ble.inactive).toList).any (fun new => decide (windowOpen s a (carryPlan old new).length = true) && decide ((a.schedWith = true → phcCheck s (some new) = none))))) = true)) ∧
    (∃ (s : State) (i : Nat), (((s.ble.act).toList).any (fun a => ((s.img).toList).any (fun old => ((s.ble.inactive).toList).any (fun new => decide (windowOpen s a (carryPlan old new).length = true) && decide ((a.schedWith = true → phcCheck s (some new) = none))))) = true)) ∧
    (∃ (s : State), ((s.ble.act).toList).any (fun a => decide (a.built = true) && decide (a.builtAt + 256 * 4096 < absA s)) = true) :=
  ⟨⟨st6, by decide +kernel⟩,
   ⟨st16, by decide +kernel⟩,
   ⟨st16, 0, by decide +kernel⟩,
   ⟨st13, by decide +kernel⟩⟩

end F10

namespace F11

def up (s : State) : State := { rset (runs s) oGateOpen 0xFFFFF with base := { s.base with holdOut := true }, clk := { (runs s).clk with good := 0x1FF, closing := 0 } }
def ports (f : CanPort → CanPort) (s : State) : State := (upto 4).foldl (fun s p => modCanPort s p f) s
def en (s : State) : State := (upto 4).foldl (fun s p => rset (rset (rset s (oCan p) 3) (oCan p + 4) 0x0813a042) (oCan p + 8) 0x00223144) s
def tx1 (src : Nat) (os : Bool) : CanTx := ⟨5, false, false, false, [1,2], os, src, 3⟩
def bufs (f : CanBuf → CanBuf) (s : State) : State := (upto 4).foldl (fun s p => ([0, 1, 2, 3, 16, 63]).foldl (fun s b => modCanBuf s p b f) s) s
def st0 : State :=
  (fun s => rset (up s) (oCanBuf 0 0) 5) runState
def st2 : State :=
  (fun s => ports (fun c => { c with monitor := false, st := 0, recovering := true, fd := true }) (en (up s))) runState
def st3 : State :=
  (fun s => bufs (fun k => { k with tx := some (tx1 1 true), has := true, stale := false }) (ports (fun c => { c with monitor := false, st := 0 }) (en (up s)))) runState
def st4 : State :=
  (fun s => bufs (fun k => { k with tx := some (tx1 0 false), has := true, stale := false }) (ports (fun c => { c with monitor := false, st := 1 }) (en (up s)))) runState
def st5 : State :=
  (fun s => let s := ports (fun c => { c with monitor := true, st := 0 }) (en (up s)); { s with base := { s.base with slot := 1 } }) runState
def st6 : State :=
  (fun s => let s := ports (fun c => { c with monitor := false, st := 2 }) (en (up s)); s) runState
def st7 : State :=
  (fun s => let s := bufs (fun k => { k with tx := none, has := true, stale := false }) (ports (fun c => { c with monitor := false, st := 0 , fd := true}) (en (up s)));
    let s := { s with ble := { s.ble with running := true } };
    (upto 4).foldl (fun s p => ([0, 1, 2, 3, 16, 63]).foldl (fun s b => rset (rset s (oCanBuf p b) 7) (oCanBuf p b + 0xC) 0x00880010) s) s) runState
def st8 : State :=
  (fun s => let s := bufs (fun k => { k with tx := none, has := true, stale := false }) (ports (fun c => { c with monitor := false, st := 0 , fd := true}) (en (up s)));
    (upto 4).foldl (fun s p => ([0, 1, 2, 3, 16, 63]).foldl (fun s b => rset (rset s (oCanBuf p b) 5) (oCanBuf p b + 0xC) 0x00880010) s) s) runState
def st9 : State :=
  (fun s => (upto 4).foldl (fun s p => rset (rset (rset s (oCan p) 0) (oCan p + 4) 0) (oCan p + 8) 0) (up s)) runState
def st10 : State :=
  (fun s => let s := bufs (fun k => { k with tx := none, has := true, stale := false, at_ := 5 }) (ports (fun c => { c with monitor := false, st := 0 }) (en (up s))); { (upto 4).foldl (fun s p => ([0, 1, 2, 3]).foldl (fun s b => rset (rset s (oCanBuf p b) 5) (oCanBuf p b + 0xC) 0x00880010) s) s with up := 10 ^ 12 }) runState

theorem witness_CanSetupCommandsEffects :
    (∃ (s : State) (p : Fin 4) (v : Word), Reaches s (10 + p.val) ∧ canEn s p = false ∧ timingOk (rget s (oCan p + 4)) (rget s (oCan p + 8)) = true) ∧
    (∃ (s : State) (p : Fin 4) (v : Word), Reaches s (10 + p.val) ∧ canEn s p = false ∧ timingOk (rget s (oCan p + 4)) (rget s (oCan p + 8)) = false) ∧
    (∃ (s : State) (p : Fin 4) (v : Word), Reaches s (10 + p.val) ∧ canEn s p = true) ∧
    (∃ (s : State) (p : Fin 4) (b : Fin 64) (v : Word), Reaches s (10 + p.val) ∧ bitOf (rget s (oCanBuf p b)) 0 = false ∧ bitOf v 0 = true ∧ canBufOk s p b v = true ∧ imageClash (rwrite s (oCanBuf p b) v) = false) ∧
    (∃ (s : State) (p : Fin 4) (b : Fin 64) (v : Word), Reaches s (10 + p.val) ∧ bitOf (rget s (oCanBuf p b)) 0 = false ∧ bitOf v 0 = true ∧ canBufOk s p b v = false) ∧
    (∃ (s : State) (m : Fin 256) (v : Word), Reaches s 0 ∧ bitOf (rget s (oCanMap m)) 0 = false ∧ bitOf v 0 = true ∧ canMapOk s m v = true ∧ imageClash (rwrite s (oCanMap m) v) = false) ∧
    (∃ (s : State) (m : Fin 256) (v : Word), Reaches s 0 ∧ bitOf (rget s (oCanMap m)) 0 = false ∧ bitOf v 0 = true ∧ canMapOk s m v = false) :=
  ⟨⟨runState, 0, 0, by unfold Reaches; decide +kernel⟩,
   ⟨st9, 0, 0, by unfold Reaches; decide +kernel⟩,
   ⟨st2, 0, 0, by unfold Reaches; decide +kernel⟩,
   ⟨runState, 0, 0, 0x00000001#32, by unfold Reaches; decide +kernel⟩,
   ⟨runState, 0, 0, 0xffffffff#32, by unfold Reaches; decide +kernel⟩,
   ⟨st0, 0, 0x00800201#32, by unfold Reaches; decide +kernel⟩,
   ⟨runState, 0, 0x00000001#32, by unfold Reaches; decide +kernel⟩⟩

theorem witness_CanBusCommandsEffects :
    (∃ (s : State) (p : Fin 4) (id : BitVec 29) (ide : Bool) (fdf : Bool) (brs : Bool) (bytes : List Nat), canOnBus s p = true ∧ (canPort s p).st ≠ 2 ∧ (fdf = true → (canPort s p).fd = true) ∧ canLenOk fdf bytes.length = true ∧ ((canMatch s p (id.toNat % 2 ^ (if ide then 29 else 11)) ide fdf).toList).any (fun b => true) = true) ∧
    (∃ (s : State) (p : Fin 4) (id : BitVec 29) (ide : Bool) (fdf : Bool) (brs : Bool) (remote : Bool) (bytes : List Nat), canOnBus s p = true ∧ (canPort s p).st ≠ 2 ∧ (fdf = true → (canPort s p).fd = true) ∧ canLenOk fdf bytes.length = true ∧ (remote = true ∨ canMatch s p (id.toNat % 2 ^ (if ide then 29 else 11)) ide fdf = none)) ∧
    (∃ (s : State) (p : Fin 4) (b : Fin 64), canSends s p = true ∧ (((canBuf s p b).tx).toList).any (fun x => decide (canTurn s p b x = true)) = true) ∧
    (∃ (s : State) (p : Fin 4) (b : Fin 64) (cause : Fin 4), canSends s p = true ∧ cause.val ≠ 0 ∧ (((canBuf s p b).tx).toList).any (fun x => decide (canTurn s p b x = true) && decide (x.oneShot = true)) = true) ∧
    (∃ (s : State) (p : Fin 4) (b : Fin 64) (cause : Fin 4), canSends s p = true ∧ cause.val ≠ 0 ∧ (((canBuf s p b).tx).toList).any (fun x => decide (canTurn s p b x = true) && decide (x.oneShot = false)) = true) ∧
    (∃ (s : State) (p : Fin 4) (tec : Nat) (rec_ : Nat), canOnBus s p = true ∧ (canPort s p).monitor = false ∧ (canPort s p).st ≠ 2 ∧ 255 < tec) ∧
    (∃ (s : State) (p : Fin 4) (tec : Nat) (rec_ : Nat), canOnBus s p = true ∧ (canPort s p).monitor = false ∧ (canPort s p).st ≠ 2 ∧ tec ≤ 255) ∧
    (∃ (s : State) (p : Fin 4), Reaches s (10 + p.val) ∧ canOnBus s p = true ∧ (canPort s p).monitor = false ∧ (canPort s p).st = 2) ∧
    (∃ (s : State) (p : Fin 4), (canPort s p).recovering = true) ∧
    (∃ (s : State) (p : Fin 4), canOnBus s p = true ∧ canHolds s = true ∧ (canPort s p).monitor = true) ∧
    (∃ (s : State) (p : Fin 4) (b : Fin 64), bitOf (rget s (oCanBuf p b)) 0 = true ∧ bitOf (rget s (oCanBuf p b)) 1 = true ∧ bitOf (rget s (oCanBuf p b)) 2 = true ∧ rfld s (oCanBuf p b + 0xC) 24 23 ≠ 0 ∧ s.ble.running = true ∧ canSends s p = true ∧ mappedDue s p b = true ∧ (canBuf s p b).tx = none) ∧
    (∃ (s : State) (p : Fin 4) (b : Fin 64), bitOf (rget s (oCanBuf p b)) 0 = true ∧ bitOf (rget s (oCanBuf p b)) 1 = false ∧ rfld s (oCanBuf p b + 0xC) 15 0 ≠ 0 ∧ (canBuf s p b).has = true ∧ (canBuf s p b).stale = false ∧ (canBuf s p b).at_ + rfld s (oCanBuf p b + 0xC) 15 0 * 1000000 < s.up) :=
  ⟨⟨st8, 0, 0x00000000#29, false, false, true, [], by decide +kernel⟩,
   ⟨st2, 0, 0x00000000#29, true, true, true, true, [], by decide +kernel⟩,
   ⟨st3, 0, 0, by decide +kernel⟩,
   ⟨st3, 0, 0, 1, by decide +kernel⟩,
   ⟨st4, 0, 0, 1, by decide +kernel⟩,
   ⟨st2, 0, 300, 0, by decide +kernel⟩,
   ⟨st2, 0, 0, 0, by decide +kernel⟩,
   ⟨st6, 0, by unfold Reaches; decide +kernel⟩,
   ⟨st2, 0, by decide +kernel⟩,
   ⟨st5, 0, by decide +kernel⟩,
   ⟨st7, 0, 0, by decide +kernel⟩,
   ⟨st10, 0, 0, by decide +kernel⟩⟩

end F11

namespace F12

def tw (f : Twn → Twn) (s : State) : State :=
  let s := rsetFld (runs s) oTwnCtrl 1 0 3
  let s := { s with base := { s.base with slot := 1, seated := true, holdIn := false, holdOut := false } }
  { s with twn := f { s.twn with plan := none, tlUp := true, leaseExp := false, own := 0, isolated := false, tripped := false, tlHalf := none } }
def hold (s : State) : State := { s with base := { s.base with holdOut := true } }
def pl (s : State) (o : Bool) : Plan := ⟨s.phc.cycle, 2, none, 3, o⟩
def st0 : State :=
  (tw (fun w => { w with role := 1 })) runState
def st1 : State :=
  (fun s => hold (tw (fun w => { w with role := 1 }) s)) runState
def st2 : State :=
  (fun s => hold { tw (fun w => { w with role := 1, plan := some (pl s false) }) s with phc := { (runs s).phc with phase := 0 }, ble := { s.ble with run := none, stack := [] } }) runState
def st3 : State :=
  (fun s => { tw (fun w => { w with role := 1, plan := some (pl s true) }) s with phc := { (runs s).phc with phase := 600 } }) runState
def st4 : State :=
  (tw (fun w => { w with role := 2, partner := 1, tlMiss := 3, flMiss := 5, reason := 0, sampleA := 4000 })) runState
def st5 : State :=
  (fun s => let s := tw (fun w => { w with role := 2, partner := 1, tlMiss := 5, flMiss := 4, reason := 0 }) s; { s with twn := { s.twn with sampleA := absA s - 256 } }) runState
def st6 : State :=
  (fun s => let s := tw (fun w => { w with role := 2, partner := 1, tlMiss := 5, flMiss := 1, reason := 4 , copied := false, asked := true }) s; { s with twn := { s.twn with sampleA := absA s - 256 } }) runState
def st7 : State :=
  (fun s => tw (fun w => { w with role := 2, partner := 1, reason := 0, plan := some (pl s true) }) s) runState
def st8 : State :=
  (fun s => tw (fun w => { w with role := 2, partner := 1, reason := 0, tlUp := true, verUsed := 1, copied := false, asked := false, peerImage := (s.img.map Image.digest).getD [] }) (withEntry 6 0 s)) runState
def st9 : State :=
  (fun s => let s := hold (withEntry 6 0 s); { s with base := { s.base with slot := 2 } }) runState
def st10 : State :=
  (fun s => let s := hold (tw (fun w => { w with role := 1, lease := 0 }) s); { s with phc := { s.phc with fire := true } }) runState
def st11 : State :=
  (fun s => let s := tw (fun w => { w with role := 2, partner := 0, isolated := false, own := 0, plan := none }) s; rset s oTwnCtrl 3) runState
def st12 : State :=
  (fun s => let s := tw (fun w => { w with role := 2, partner := 1, own := 0, plan := none, reason := 0, backAt := some 0 }) s; rset (rset { s with base := { s.base with slot := 1 }, up := 10 ^ 14 } oTwnCtrl 1) oTwnRevert 3) runState
def st13 : State :=
  (fun s => let s := rset (tw (fun w => { w with role := 2 }) s) oFlCtrl 7; { rset (rset s oGateOpen 0xFFFFF) oEthMacHi 0x10000 with eth := { s.eth with flRx := none, ports := [(0, { EPort.reset with link := true, speed := 3 }), (1, { EPort.reset with link := true, speed := 2 })] }, clk := { s.clk with src := [0, 0, 0, 0], good := 0x1FF, macStopped := false } }) runState
def st16 : State :=
  (fun s => let s := { tw (fun w => { w with role := 2, partner := 1, tlMiss := 3, flMiss := 4, reason := 0, isolated := false, tlHalf := none }) s with phc := { (runs s).phc with cycle := 1, phase := 256 } }; { s with twn := { s.twn with sampleA := absA s - 256 } }) runState
def st17 : State :=
  (fun s => hold { tw (fun w => { w with role := 1, plan := some { pl s false with at_ := s.phc.cycle, cause := 4 } }) s with phc := { (runs s).phc with phase := 0 }, ble := { s.ble with run := some ⟨0, 3, 4, takeLatch s⟩, stack := [] } }) runState

theorem witness_BallCommandsEffects :
    (∃ (s : State) (tie : Bool), s.base.holdOut = false ∧ s.base.holdIn = false ∧ grants s tie = true ∧ s.twn.role = 1) ∧
    (∃ (s : State) (tie : Bool), s.base.holdOut = false ∧ s.base.holdIn = false ∧ grants s tie = true ∧ s.twn.role = 2 ∧ bitOf s.twn.own 7 = false ∧ ((s.twn.plan).toList).any (fun p => decide (p.out = true)) = true) ∧
    (∃ (s : State) (tie : Bool), s.base.holdOut = false ∧ s.base.holdIn = false ∧ grants s tie = true ∧ s.twn.role = 2 ∧ bitOf s.twn.own 7 = false ∧ s.twn.plan = none ∧ s.twn.partner ≠ 1 ∧ s.twn.isolated = false ∧ bitOf (rget s oTwnCtrl) 1 = true) ∧
    (∃ (s : State), onTwin s = true) ∧
    (∃ (s : State), onTwin s = true ∧ s.twn.role = 1 ∧ s.twn.plan = none ∧ s.base.holdOut = true) ∧
    (∃ (s : State), onTwin s = true ∧ s.twn.role ≠ 1) ∧
    (∃ (s : State), onTwin s = true ∧ s.base.holdOut = true ∧ s.phc.fire = true ∧ s.twn.lease = 0) ∧
    (∃ (s : State), onTwin s = true ∧ s.base.holdOut = false) ∧
    (∃ (s : State) (up : Bool), onTwin s = true) ∧
    (∃ (s : State), onTwin s = true ∧ clockRuns s = true ∧ s.twn.role ≠ 0 ∧ absA s = s.twn.sampleA + 256 ∧ s.twn.tlHalf ≠ some (s.twn.sampleA / 2048)) ∧
    (∃ (s : State), onTwin s = true ∧ clockRuns s = true ∧ absA s = s.twn.sampleA + 256 ∧ s.twn.tlHalf ≠ some (s.twn.sampleA / 2048) ∧ s.twn.role = 2 ∧ s.twn.partner = 1 ∧ s.twn.isolated = false ∧ s.twn.reason = 0 ∧ bitOf s.twn.own 7 = false ∧ 3 ≤ s.twn.tlMiss ∧ 4 ≤ s.twn.flMiss ∧ grants s false = true) ∧
    (∃ (s : State), onTwin s = true ∧ s.twn.role ≠ 0) ∧
    (∃ (s : State), onTwin s = true ∧ s.twn.role = 2 ∧ s.twn.partner = 1 ∧ s.twn.isolated = false ∧ s.twn.reason = 0 ∧ bitOf s.twn.own 7 = false ∧ 4 ≤ s.twn.tlMiss ∧ 3 ≤ s.twn.flMiss ∧ grants s false = true) :=
  ⟨⟨st0, true, by decide +kernel⟩,
   ⟨st7, true, by decide +kernel⟩,
   ⟨st11, true, by decide +kernel⟩,
   ⟨runState, by decide +kernel⟩,
   ⟨st1, by decide +kernel⟩,
   ⟨runState, by decide +kernel⟩,
   ⟨st10, by decide +kernel⟩,
   ⟨runState, by decide +kernel⟩,
   ⟨runState, true, by decide +kernel⟩,
   ⟨st16, by decide +kernel⟩,
   ⟨st16, by decide +kernel⟩,
   ⟨st0, by decide +kernel⟩,
   ⟨st5, by decide +kernel⟩⟩

theorem witness_PairTrafficCommandsEffects :
    (∃ (s : State) (n : Fin 1024), onTwin s = true ∧ s.base.holdOut = true ∧ ([dueCommits s]).any (fun c => decide ((fireEntry c n.val 6).isSome = true) && decide (hasSample c.live = true) && decide (c.twn.role = 1)) = true) ∧
    (∃ (s : State) (n : Fin 1024), onTwin s = true ∧ ([dueCommits s]).any (fun c => decide ((fireEntry c n.val 6).isSome = true) && decide (hasSample c.live = true) && decide (c.twn.role = 2)) = true) ∧
    (∃ (s : State), absA s % 2048 = 0 ∧ onTwin s = true ∧ s.base.holdOut = true ∧ ([dueCommits s]).any (fun c => decide (clockRuns c = true) && decide (hasSample c.live = false) && decide (c.twn.role = 1)) = true) ∧
    (∃ (s : State) (seq : Word) (ts : Nat) (half : Nat) (health : BitVec 16) (plan : Option (Nat × Nat)) (excess : Bool) (digest : List Nat) (lag : Int) (items : List CopyItem), onTwin s = true ∧ s.twn.role = 2 ∧ s.twn.tlUp = true) ∧
    (∃ (s : State) (seq : Word) (ts : Nat) (half : Nat) (health : BitVec 16) (p : Nat × Nat) (excess : Bool) (digest : List Nat) (lag : Int), onTwin s = true ∧ s.twn.role = 2 ∧ s.twn.tlUp = true ∧ grants s false = true ∧ bitOf s.twn.own 7 = false) ∧
    (∃ (s : State) (seq : Word) (ts : Nat) (half : Nat) (health : BitVec 16) (plan : Option (Nat × Nat)) (final : Bool) (excess : Bool) (digest : List Nat) (lag : Int) (items : List CopyItem), onTwin s = true ∧ s.twn.role = 2 ∧ s.twn.tlUp = true ∧ s.twn.flMiss < 4) ∧
    (∃ (s : State) (pair : Fin 8 × Fin 16) (health : BitVec 16) (copy : Bool) (back : Bool) (digest : List Nat), onTwin s = true ∧ s.twn.role = 1 ∧ s.twn.tlUp = true) ∧
    (∃ (s : State) (pair : Fin 8 × Fin 16) (health : BitVec 16) (copy : Bool) (back : Bool) (digest : List Nat), onTwin s = true ∧ s.twn.role = 1 ∧ s.twn.tlUp = true) ∧
    (∃ (s : State), onTwin s = true ∧ s.clk.alive = true ∧ s.clk.resetWait = none) ∧
    (∃ (s : State) (port : Fin 2) (verMin : Nat) (verMax : Nat) (pairId : BitVec 16) (slot : Fin 4) (seq : Word) (role : Fin 3) (health : BitVec 16), macValid s = true ∧ (eport s port).link = true ∧ macUp s port = true ∧ pairId.toNat = rfld s oFlCtrl 15 0 ∧ onTwin s = true ∧ slot.val + s.base.slot = 3 ∧ s.eth.flRx ≠ some seq) ∧
    (∃ (s : State) (port : Fin 2) (verMin : Nat) (verMax : Nat) (pairId : BitVec 16) (slot : Fin 4) (seq : Word) (n : Nat × Nat × BitVec 8) (role : Fin 3) (health : BitVec 16), macValid s = true ∧ (eport s port).link = true ∧ macUp s port = true ∧ pairId.toNat = rfld s oFlCtrl 15 0 ∧ onTwin s = true ∧ slot.val + s.base.slot = 3 ∧ s.eth.flRx ≠ some seq) ∧
    (∃ (s : State) (port : Fin 2) (verMin : Nat) (verMax : Nat) (pairId : BitVec 16) (slot : Fin 4) (seq : Word) (neg : Option (Nat × Nat × BitVec 8)) (role : Fin 3) (health : BitVec 16), macValid s = true ∧ (eport s port).link = true ∧ macUp s port = true ∧ pairId.toNat = rfld s oFlCtrl 15 0 ∧ onTwin s = true ∧ slot.val = s.base.slot) ∧
    (∃ (s : State), onTwin s = true ∧ s.twn.role = 2 ∧ s.twn.copied = false ∧ s.twn.asked = false ∧ s.twn.tripped = false ∧ (syncReason s = 6 ∨ syncReason s = 7)) ∧
    (∃ (s : State) (items : List CopyItem), onTwin s = true ∧ s.twn.role = 2 ∧ s.twn.asked = true) :=
  ⟨⟨st9, 3, by decide +kernel⟩,
   ⟨st8, 3, by decide +kernel⟩,
   ⟨st1, by decide +kernel⟩,
   ⟨st4, 0, 0, 0, 0, none, true, [], 0, [], by decide +kernel⟩,
   ⟨st4, 0, 0, 0, 0, default, true, [], 0, by decide +kernel⟩,
   ⟨st6, 0, 0, 0, 0, none, true, true, [], 0, [], by decide +kernel⟩,
   ⟨st0, default, 0, true, true, [], by decide +kernel⟩,
   ⟨st0, default, 0, true, true, [], by decide +kernel⟩,
   ⟨runState, by decide +kernel⟩,
   ⟨st13, 0, 0, 0, 0x0007#16, 2, 0x00000000#32, 0, 0, by decide +kernel⟩,
   ⟨st13, 0, 0, 0, 0x0007#16, 2, 0x00000000#32, default, 0, 0, by decide +kernel⟩,
   ⟨st13, 0, 0, 0, 0x0007#16, 1, 0, none, 0, 0, by decide +kernel⟩,
   ⟨st8, by decide +kernel⟩,
   ⟨st6, [], by decide +kernel⟩⟩

theorem witness_HandoffCommandsEffects :
    (∃ (s : State) (bit : Fin 7) (found : Bool) (place : Fin 3) (item : Nat), onTwin s = true ∧ s.twn.role = 2 ∧ s.clk.alive = true ∧ bitOf (withSummary (setBit s.twn.own bit.val (testFails s bit.val found))) 7 = false) ∧
    (∃ (s : State) (bit : Fin 7) (found : Bool) (place : Fin 3) (item : Nat), onTwin s = true ∧ s.twn.role = 2 ∧ s.clk.alive = true ∧ bitOf (withSummary (setBit s.twn.own bit.val (testFails s bit.val found))) 7 = true) ∧
    (∃ (s : State), s.twn.role = 1 ∧ onTwin s = true ∧ s.base.holdOut = true ∧ taskBusy s = false ∧ ((s.twn.plan).toList).any (fun p => decide (p.out = false) && decide (absA s = p.at_ * 4096)) = true) ∧
    (∃ (s : State), s.twn.role = 1 ∧ onTwin s = true ∧ s.base.holdOut = true ∧ taskBusy s = true ∧ (((s.twn.plan).toList).any (fun p => decide (p.out = false) && decide (absA s = p.at_ * 4096) && decide (p.cause = 4 ∨ p.cause = 5)) = true)) ∧
    (∃ (s : State), s.twn.role = 1 ∧ s.base.holdIn = false ∧ grants s false = true ∧ ((s.twn.plan).toList).any (fun p => decide (p.out = true) && decide (p.at_ * 4096 + 512 ≤ absA s)) = true) ∧
    (∃ (s : State), backReady s = true ∧ s.twn.plan = none ∧ ((s.twn.backAt).toList).any (fun a => decide (a + rfld s oTwnRevert 11 0 * 1000000000 ≤ s.up)) = true) :=
  ⟨⟨st4, 0, false, 0, 0, by decide +kernel⟩,
   ⟨st4, 0, true, 0, 0, by decide +kernel⟩,
   ⟨st2, by decide +kernel⟩,
   ⟨st17, by decide +kernel⟩,
   ⟨st3, by decide +kernel⟩,
   ⟨st12, by decide +kernel⟩⟩

end F12

namespace F13

def eu (f : EPort → EPort) (g : Ptp → Ptp) (s : State) : State :=
  let s := { rset (runs s) oGateOpen 0xFFFFF with clk := { (runs s).clk with good := 0x1FF, macStopped := false, src := [0, 0, 0, 0], closing := 0 } }
  let s := (upto 2).foldl (fun s p => modPort (rset s (oPort p) 0x11) p (fun e => f { e with link := true, speed := 3, hbAt := none, ptpAt := none })) s
  { rset (rset s oEthMacHi 0x10005) oPtpCtrl 1 with ptp := g s.ptp }
def fr (q : Nat) : TxFrame := ⟨q, List.replicate 60 1, none, false, 0⟩
def fx : Foreign := ⟨5, 0, [1,2,3,4,5,6], 9, 2, 0, 100, 7, true⟩
def st0 : State :=
  (fun s => (upto 3).foldl (fun s n => rset (rset (rset (rset s oFlCtrl 7) oEthMacHi 0x10000) (oStation n) 0x00200101) (oStation n + 4) 6) { runs s with eth := { s.eth with rio := (upto 3).map (fun n => (n, { Rio.reset with last := some 4, reqAt := none })) } }) runState
def st1 : State :=
  (eu id id) runState
def st2 : State :=
  (fun s => (upto 32).foldl (fun s n => rset (rset s (oStation n) 0) (oStation n + 4) 6) { rset (runs s) oGateOpen 0xFFFFF with img := none }) runState
def st3 : State :=
  (fun s => let s := eu (fun e => { e with tsq := [⟨1, 3, 0, 50, 10 ^ 12⟩], txq := [⟨6, delayReq s 3, none, false, 0⟩], cur := some 6, idleAt := 0, link := true, stepped := false, lpi := false }) (fun p => { p with master := none }) s; { rset (rset s oPtpCtrl 0) (oPort 0) 0x19 with up := 10 ^ 12, eth := { s.eth with fdb := [⟨5, 3, 0, 0⟩, ⟨5, 3, 0, 10 ^ 12⟩] } }) runState
def st4 : State :=
  (fun s => let s := eu (fun e => { e with txq := [], cur := none, idleAt := 0, link := true, stepped := true, lpi := false }) (fun p => { p with master := none }) s; { rset (rset (rset s oPtpCtrl 0) (oPort 0) 0x9) (oPort 1) 1 with up := 10 ^ 12 }) runState
def st5 : State :=
  (eu (fun e => { e with stepped := true, txq := [fr 2, fr 3], cur := some 3 }) (fun p => { p with master := some 5, port := 0, st := 1, foreign := [fx] })) runState
def st6 : State :=
  (eu (fun e => { e with speed := 2, txq := [], lpi := false, cur := none, tsq := [] }) (fun p => { p with master := some 5, port := 1, st := 2, foreign := [fx], sync := some (3, 5, 6, 10 ^ 12), delay := some 4 })) runState
def st7 : State :=
  (fun s => rset (rset (eu (fun e => { e with speed := 3, txq := [], lpi := false, stepped := true }) (fun p => { p with master := some 5, port := 0, st := 1, foreign := [{ fx with count := 1, id := 3 }], sync := some (3, 5, 6, 10 ^ 12) }) s) (oPort 0) 0x19) oPtpCtrl 0) runState
def st8 : State :=
  (fun s => let s := eu (fun e => { e with tsq := [⟨1, 3, 0, 50, 10 ^ 12⟩] }) (fun p => { p with master := some 5, port := 0, st := 1, req := some (3, 0), msDiff := some 1000 }) s; s) runState
def st9 : State :=
  (fun s => { eu (fun e => { e with tsq := [⟨1, 3, 0, 5000, 10 ^ 12⟩] }) (fun p => { p with master := some 5, port := 0, st := 1, req := some (3, 0), msDiff := some (-1000) }) s with up := 0 }) runState
def st10 : State :=
  (fun s => { s with up := 10 ^ 12, eth := { s.eth with rio := (upto 3).map (fun n => (n, { Rio.reset with last := some 4 })) } }) runState
def st11 : State :=
  (fun s => { rset s (oStation 0) 0x00200101 with base := { s.base with holdOut := true } }) runState

theorem witness_EthernetPortCommandsEffects :
    (∃ (s : State) (p : Fin 2) (speed : Fin 4), portEn s p = true ∧ speed.val ≠ 0 ∧ s.clk.macStopped = false ∧ ((eport s p).stepped = true → speed.val = 2)) ∧
    (∃ (s : State) (p : Fin 2), (eport s p).link = true) ∧
    (∃ (s : State) (p : Fin 2) (bytes : List Nat) (ingress : Nat), portEn s p = true ∧ (eport s p).link = true ∧ macUp s p = true ∧ 60 ≤ bytes.length ∧ bytes.length + 4 ≤ maxLen s p) ∧
    (∃ (s : State) (p : Fin 2) (bytes : List Nat) (ingress : Nat), portEn s p = true ∧ (eport s p).link = true ∧ macUp s p = true ∧ 60 ≤ bytes.length ∧ bytes.length + 4 ≤ maxLen s p) ∧
    (∃ (s : State) (p : Fin 2) (egress : Nat), macUp s p = true ∧ (((eport s p).cur).toList).any (fun q => ((popQueue q (eport s p).txq).toList).any (fun x => true)) = true) ∧
    (∃ (s : State) (p : Fin 2), bitOf (rget s (oPort p)) 3 = true ∧ (eport s p).link = true ∧ 2 ≤ (eport s p).speed ∧ (eport s p).txq = [] ∧ (eport s p).lpi = false ∧ (eport s p).idleAt + rfld s (oPort p) 13 6 * 10000 ≤ s.up) ∧
    (∃ (s : State) (p : Fin 2), bitOf (rget s (oPort p)) 4 = true ∧ (eport s p).link = true ∧ (eport s p).speed = 3 ∧ stepLock s p = false) ∧
    (∃ (s : State) (p : Fin 2), (eport s p).stepped = true ∧ (eport s p).link = true ∧ stepLock s p = false) ∧
    (∃ (s : State) (p : Fin 2) (n : Fin 32) (v : Word), Reaches s (14 + p.val) ∧ fld v 8 5 ≤ 11) ∧
    (∃ (s : State) (p : Fin 2), stepLock s p = false ∧ (eport s p).stepped = true ∧ bitOf (rget s (oPort p)) 4 = false) :=
  ⟨⟨runState, 0, 1, by decide +kernel⟩,
   ⟨st1, 0, by decide +kernel⟩,
   ⟨st1, 0, [0, 5, 1, 0, 5, 2, 0, 5, 3, 0, 5, 60, 1000000000, 0, 5, 1, 0, 5, 2, 0, 5, 3, 0, 5, 60, 1000000000, 0, 5, 1, 0, 5, 2, 0, 5, 3, 0, 5, 60, 1000000000, 0, 5, 1, 0, 5, 2, 0, 5, 3, 0, 5, 60, 1000000000, 0, 5, 1, 0, 5, 2, 0, 5, 3, 0, 5, 60, 1000000000], 0, by decide +kernel⟩,
   ⟨st1, 0, [0, 5, 1, 0, 5, 2, 0, 5, 3, 0, 5, 60, 1000000000, 0, 5, 1, 0, 5, 2, 0, 5, 3, 0, 5, 60, 1000000000, 0, 5, 1, 0, 5, 2, 0, 5, 3, 0, 5, 60, 1000000000, 0, 5, 1, 0, 5, 2, 0, 5, 3, 0, 5, 60, 1000000000, 0, 5, 1, 0, 5, 2, 0, 5, 3, 0, 5, 60, 1000000000], 0, by decide +kernel⟩,
   ⟨st3, 0, 0, by decide +kernel⟩,
   ⟨st4, 0, by decide +kernel⟩,
   ⟨st3, 0, by decide +kernel⟩,
   ⟨st4, 0, by decide +kernel⟩,
   ⟨runState, 0, 0, 0x00000000#32, by unfold Reaches; decide +kernel⟩,
   ⟨st4, 0, by decide +kernel⟩⟩

theorem witness_NetworkTimeCommandsEffects :
    (∃ (s : State) (p : Fin 2) (dom : Nat) (id : Nat) (data : List Nat) (gm : Nat) (ival : Nat) (utc : BitVec 16) (uv : Bool), hears s p dom = true) ∧
    (∃ (s : State) (p : Fin 2) (dom : Nat) (id : Nat) (seq : BitVec 16 × Nat) (t1 : Int) (corr : Int), fromMaster s p dom id = true) ∧
    (∃ (s : State) (p : Fin 2) (dom : Nat) (id : Nat) (seq : BitVec 16 × Nat) (t1 : Int) (corr : Int), fromMaster s p dom id = true) ∧
    (∃ (s : State) (p : Fin 2) (dom : Nat) (id : Nat) (seq : BitVec 16) (t1 : Int) (corr : Int), fromMaster s p dom id = true ∧ ((s.ptp.sync).toList).any (fun x => decide (x.1 = seq.toNat) && decide (s.up ≤ x.2.2.2 + 1000000000)) = true) ∧
    (∃ (s : State) (p : Fin 2) (dom : Nat) (id : Nat) (seq : BitVec 16) (t4 : Int) (corr : Int), fromMaster s p dom id = true ∧ s.ptp.st ≠ 2 ∧ ((s.ptp.req).toList).any (fun r => ((s.ptp.msDiff).toList).any (fun ms => ((((freshTsq s (eport s p).tsq).find? (fun e => e.seq == seq.toNat))).toList).any (fun e => decide (r.1 = seq.toNat) && decide (0 ≤ (ms + (t4 - e.ts - corr)) / 2)))) = true) ∧
    (∃ (s : State) (p : Fin 2) (dom : Nat) (id : Nat) (seq : BitVec 16) (t4 : Int) (corr : Int), fromMaster s p dom id = true ∧ ((s.ptp.req).toList).any (fun r => ((s.ptp.msDiff).toList).any (fun ms => ((((freshTsq s (eport s p).tsq).find? (fun e => e.seq == seq.toNat))).toList).any (fun e => decide (r.1 = seq.toNat) && decide ((ms + (t4 - e.ts - corr)) / 2 < 0)))) = true) ∧
    (∃ (s : State), s.ptp.master.isSome = true ∧ ptpOn s s.ptp.port = true ∧ macValid s = true ∧ (eport s s.ptp.port).link = true) ∧
    (∃ (s : State), ((s.ptp.master).toList).any (fun m => decide (masterGone s m = true)) = true) :=
  ⟨⟨st1, 0, 0, 0, [], 0, 0, 0, true, by decide +kernel⟩,
   ⟨st5, 0, 0, 5, default, 0, 0, by decide +kernel⟩,
   ⟨st5, 0, 0, 5, default, 0, 0, by decide +kernel⟩,
   ⟨st6, 0, 0, 5, 0x0003#16, 0, 0, by decide +kernel⟩,
   ⟨st8, 0, 0, 5, 0x0003#16, 0, 0, by decide +kernel⟩,
   ⟨st9, 0, 0, 5, 0x0003#16, 0, 0, by decide +kernel⟩,
   ⟨st5, by decide +kernel⟩,
   ⟨st7, by decide +kernel⟩⟩

theorem witness_RemoteStationCommandsEffects :
    (∃ (s : State) (n : Fin 32), s.base.holdOut = true ∧ bitOf (rget s (oStation n)) 0 = true ∧ ((rio s n).reqAt.map (fun a => a + rfld s (oStation n) 15 6 * 1000000)).getD 0 ≤ s.up) ∧
    (∃ (s : State) (vmin : Nat) (vmax : Nat) (pid : BitVec 16) (n : Fin 256) (mac : BitVec 48) (seq : Word) (status : Word) (words : List Word), macValid s = true ∧ n.val < 32 ∧ pid.toNat = rfld s oFlCtrl 15 0 ∧ bitOf (rget s (oStation n)) 0 = true ∧ mac.toNat = stationMac s n ∧ newerSeq (rio s n).seqRx seq = true) ∧
    (∃ (s : State) (vmin : Nat) (vmax : Nat) (pid : BitVec 16) (n : Fin 256) (mac : BitVec 48) (seq : Word) (status : Word) (words : List Word), macValid s = true ∧ n.val < 32 ∧ (pid.toNat ≠ rfld s oFlCtrl 15 0 ∨ bitOf (rget s (oStation n)) 0 = false ∨ mac.toNat ≠ stationMac s n ∨ newerSeq (rio s n).seqRx seq = false)) ∧
    (∃ (s : State) (ok : Bool) (ver : Nat) (vmin : Nat) (vmax : Nat) (pid : BitVec 16) (n : Fin 256) (mac : BitVec 48) (seq : Word) (status : Word) (words : List Word), macValid s = true ∧ (!ok || ver != 1) = true) ∧
    (∃ (s : State) (n : Fin 32), (((rio s n).last).toList).any (fun a => decide (a + rfld s (oStation n) 31 16 * 1000000 < s.up)) = true) ∧
    (∃ (s : State) (n : Fin 32) (v : Word), Reaches s 0 ∧ bitOf (rget s (oStation n)) 0 = false ∧ bitOf v 0 = true ∧ stationOk (rwrite s (oStation n) v) n v = true ∧ imageClash (rwrite s (oStation n) v) = false) ∧
    (∃ (s : State) (n : Fin 32) (v : Word), Reaches s 0 ∧ bitOf (rget s (oStation n)) 0 = false ∧ bitOf v 0 = true ∧ stationOk (rwrite s (oStation n) v) n v = false) ∧
    (∃ (s : State) (n : Fin 32) (v : Word), Reaches s 0 ∧ bitOf (rget s (oStation n)) 0 = true) :=
  ⟨⟨st11, 0, by decide +kernel⟩,
   ⟨st0, 0, 0, 0x0007#16, 0, 0x000000000006#48, 0x00000000#32, 0, [], by decide +kernel⟩,
   ⟨st0, 0, 0, 0x0003#16, 0, 0x000000000005#48, 0x00000000#32, 0, [], by decide +kernel⟩,
   ⟨st0, true, 0, 0, 0, 0, 0, 0, 0, 0, [], by decide +kernel⟩,
   ⟨st10, 0, by decide +kernel⟩,
   ⟨st2, 0, 0x00100041#32, by unfold Reaches; decide +kernel⟩,
   ⟨runState, 0, 0x00000001#32, by unfold Reaches; decide +kernel⟩,
   ⟨st0, 0, 0, by unfold Reaches; decide +kernel⟩⟩

end F13

namespace F14

def cmap : List Nat := [0x01, 0x00, 0, 0, 5, 0x7F, 0x7F, 0, 100, 0, 0, 0, 0, 0, 0, 0] ++ [0x12, 0x00, 0, 0, 6, 7, 8, 0, 100, 0, 0, 0, 0, 0, 0, 0] ++ (parDefault 0).drop 32
def pblk : List Nat := (upto 9).flatMap (fun o => [0x01, (2 * o) % 4, 50 % 256, 0, 10, 0, 0, 0])
def dblk : List Nat := (upto 8).flatMap (fun _ => [0x09, 0x00, 0, 0, 0, 0, 0, 0])
def tblk : List Nat := (upto 16).flatMap (fun j => [j * 10, 0]) ++ (upto 96).flatMap (fun n => (upto 16).flatMap (fun j => [(n + j) % 256, 0, 0, 0, j, 0, 0, 0]))
def mt (g : Mtr → Mtr) (s : State) : State :=
  let s := runs s
  let s := rset { s with base := { s.base with cart := true }, clk := { s.clk with good := 0x1FF, closing := 0 } } oGateOpen 0xFFFFF
  { s with mtr := g { s.mtr with running := true, par := [(0, cmap), (1, tblk), (2, pblk), (3, dblk)], sealOpen := true } }
def svs0 (r : Bool) : SaveSlot := { seq := 9, optime := 77, residual := r, circ := [(0, [1,2,3,4,5,6,7])], phs := [], pulses := [(2, { Pulse.reset with on := true, pend := 3 })], sets := [], ivals := [(3, 1, 2, 3, true, false)], crc := 0 }
def crcd (k : SaveSlot) : SaveSlot := { k with crc := crcWords (slotWords { k with crc := 0 }) }
def svs (r : Bool) : SaveSlot := crcd (svs0 r)
def st0 : State :=
  (mt id) runState
def st1 : State :=
  (mt (fun m => { m with sealOpen := false, strobes := [(5, 77, some 900), (3, 4, none)], us := 10 ^ 10, sets := [], staged := [], meterId := none, winN := 11 })) runState
def st2 : State :=
  (mt (fun m => { m with running := false, slots := [(3, svs false), (9, crcd { svs0 true with seq := 4 })], strobes := [], sets := (upto 3).map (fun j => (j, { DemSet.reset with strobe := some (3, none), autoRun := 1 })) })) runState
def st3 : State :=
  (mt (fun m => { m with slots := [(3, svs true), (9, crcd { svs0 true with seq := 4 })], us := 5000, dipping := some 9000, legalLog := List.replicate 512 [1] })) runState
def st4 : State :=
  (mt (fun m => { m with running := false, slots := [] , circs := [], dipping := none })) runState
def st5 : State :=
  (mt (fun m => { m with us := 10 ^ 12, strobes := [(255, 5, none)], sets := (upto 2).map (fun j => (j, { DemSet.reset with autoRun := 3 * j })), pulses := (upto 9).map (fun o => (o, { Pulse.reset with pend := 4, on := o % 2 == 0 })), showing := some 2, swVer := 0x5A000000, legalLog := [], applied := [(0, parDefault 0), (3, dblk)] })) runState
def st6 : State :=
  (fun s => withEntry 5 3 (mt id s)) runState
def st8 : State :=
  (mt (fun m => { m with secDoor := ⟨true, 0, 0, 0x11, 3, 0⟩, openDoor := ⟨true, 0, 0, 3, 5, 7⟩, staged := [(3, dblk)], legalLog := [] })) runState
def st9 : State :=
  (mt (fun m => { m with secDoor := ⟨true, 0, 0, 0x11, 3, 0⟩, openDoor := ⟨true, 0, 0, 3, 95, 16⟩, staged := [(3, [7])], legalLog := [] })) runState
def st10 : State :=
  (mt (fun m => { m with secDoor := ⟨true, 0, 0, 0x13, 3, 0⟩, meterId := some [1], openDoor := ⟨true, 0, 0, 1, 95, 16⟩, opLog := [[95, 2, 3]] })) runState
def st11 : State :=
  (mt (fun m => { m with secDoor := ⟨true, 0, 0, 0x11, 2, 0⟩, openDoor := ⟨true, 0, 0, 1, 9, 16⟩, legalLog := List.replicate 512 [], staged := [] })) runState
def st13 : State :=
  (mt (fun m => { m with showing := some 3, swVer := 0xA5000000, pulses := [(2, { Pulse.reset with pend := 4 })], openDoor := ⟨true, 0, 0, 5, 95, 16⟩ })) runState
def st14 : State :=
  (mt (fun m => { m with secDoor := ⟨true, 0, 0, 0x11, 3, 0⟩, sealOpen := true, running := true, staged := [(3, dblk)], legalLog := List.replicate 512 [] })) runState
def st15 : State :=
  (mt (fun m => { m with secDoor := ⟨true, 0, 0, 0x11, 0, 0⟩, running := false, openDoor := ⟨true, 0, 0, 3, 5, 7⟩})) runState
def st16 : State :=
  (mt (fun m => { m with secDoor := ⟨true, 0, 0, 0x11, 0, 0⟩, sealOpen := false, openDoor := ⟨true, 0, 0, 3, 5, 7⟩})) runState

theorem witness_CartridgeLifeCommandsEffects :
    (∃ (s : State) (b : Bool), s.mtr.running = true ∧ s.mtr.sealOpen ≠ b) ∧
    (∃ (s : State) (sw_ : Word) (good : BitVec 16), (s.mtr.running = true → s.mtr.dipping.isSome = true) ∧ s.base.cart = true ∧ s.mtr.slots = []) ∧
    (∃ (s : State) (sw_ : Word) (good : BitVec 16), (s.mtr.running = true → s.mtr.dipping.isSome = true) ∧ s.base.cart = true ∧ s.mtr.slots ≠ [] ∧ bestSlot s good = none) ∧
    (∃ (s : State) (sw_ : Word) (good : BitVec 16), (s.mtr.running = true → s.mtr.dipping.isSome = true) ∧ s.base.cart = true ∧ ((bestSlot s good).toList).any (fun k => true) = true) ∧
    (∃ (s : State), s.mtr.running = true) ∧
    (∃ (s : State), s.mtr.running = true ∧ s.mtr.dipping = none) ∧
    (∃ (s : State), s.mtr.running = true ∧ s.mtr.dipping.isSome = true) :=
  ⟨⟨st0, false, by decide +kernel⟩,
   ⟨st4, 0, 0, by decide +kernel⟩,
   ⟨st2, 0, 0x0000#16, by decide +kernel⟩,
   ⟨st2, 0, 0x0008#16, by decide +kernel⟩,
   ⟨st0, by decide +kernel⟩,
   ⟨st0, by decide +kernel⟩,
   ⟨st3, by decide +kernel⟩⟩

theorem witness_MeteringCommandsEffects :
    (∃ (s : State) (m : CycleMeas), s.mtr.running = true ∧ heldOut s (cycleNs s m / 1000) = false ∧ s.mtr.applied = [] ∧ (∀ j : Fin 8, (dset_ s j).strobe = none)) ∧
    (∃ (s : State) (m : CycleMeas), s.mtr.running = true ∧ heldOut s (cycleNs s m / 1000) = false ∧ s.mtr.applied = [] ∧ (∀ j : Fin 8, (dset_ s j).strobe = none) ∧ s.mtr.winN + 1 < (if m.freq < 550000 then 10 else 12)) ∧
    (∃ (s : State) (m : CycleMeas), s.mtr.running = true ∧ heldOut s (cycleNs s m / 1000) = false ∧ s.mtr.applied = [] ∧ (∀ j : Fin 8, (dset_ s j).strobe = none) ∧ (if m.freq < 550000 then 10 else 12) ≤ s.mtr.winN + 1) ∧
    (∃ (s : State) (m : CycleMeas), s.mtr.running = true ∧ heldOut s (cycleNs s m / 1000) = true) ∧
    (∃ (s : State) (n : Fin 1024), ((fireEntry (dueCommits s) n 5).toList).any (fun x => true) = true) ∧
    (∃ (s : State), s.mtr.running = true ∧ (s.mtr.strobes.head?.toList).any (fun x => true) = true) ∧
    (∃ (s : State), s.mtr.running = true ∧ (s.mtr.strobes.head?.toList).any (fun x => true) = true) ∧
    (∃ (s : State) (j : Fin 8), s.mtr.running = true ∧ lenS (parBytes s 3) j ≠ 0 ∧ (dset_ s j).strobe = none ∧ (if (dset_ s j).autoRun = 0 then lenS (parBytes s 3) j * 1000000 * 5 / 4 else lenS (parBytes s 3) j * 1000000) ≤ (s.mtr.us - (dset_ s j).subEnd) * subsOf (parBytes s 3) j) ∧
    (∃ (s : State) (v : BitVec 12), s.mtr.running = true) ∧
    (∃ (s : State) (o : Fin 9), (pulse s o).on = true) ∧
    (∃ (s : State) (o : Fin 9), s.mtr.running = true ∧ (pulse s o).on = false ∧ (pulse s o).pend ≠ 0 ∧ bitOf (pWord (parBytes s 2) (8 * o.val)) 0 = true ∧ (o.val = 8 → s.mtr.showing = none)) ∧
    (∃ (s : State), (pulse s 8).on = false ∧ ((s.mtr.showing).toList).any (fun k => decide (k < 16)) = true) :=
  ⟨⟨st0, noMeas, by decide +kernel⟩,
   ⟨st0, noMeas, by decide +kernel⟩,
   ⟨st1, noMeas, by decide +kernel⟩,
   ⟨st3, noMeas, by decide +kernel⟩,
   ⟨st6, 3, by decide +kernel⟩,
   ⟨st1, by decide +kernel⟩,
   ⟨st1, by decide +kernel⟩,
   ⟨st1, 0, by decide +kernel⟩,
   ⟨st0, 0, by decide +kernel⟩,
   ⟨st5, 0, by decide +kernel⟩,
   ⟨st5, 1, by decide +kernel⟩,
   ⟨st13, by decide +kernel⟩⟩

theorem witness_DoorCommandsEffects :
    (∃ (s : State) (a0 : Word), Reaches s 8 ∧ s.mtr.openDoor.busy = false) ∧
    (∃ (s : State) (a0 : Word) (a1 : Word), Reaches s 8 ∧ s.mtr.openDoor.busy = false) ∧
    (∃ (s : State) (a0 : Word) (a1 : Word), Reaches s 8 ∧ s.mtr.openDoor.busy = false) ∧
    (∃ (s : State) (a0 : Word) (a1 : Word), Reaches s 8 ∧ s.mtr.openDoor.busy = false) ∧
    (∃ (s : State), Reaches s 8 ∧ s.mtr.openDoor.busy = false) ∧
    (∃ (s : State) (a0 : Word) (a1 : Word), Reaches s 8 ∧ s.mtr.openDoor.busy = true) ∧
    (∃ (s : State) (a0 : Word) (a1 : Word), Reaches s 8 ∧ s.mtr.secDoor.busy = false) ∧
    (∃ (s : State) (a0 : Word), Reaches s 8 ∧ s.mtr.secDoor.busy = false) ∧
    (∃ (s : State) (a0 : Word), Reaches s 8 ∧ s.mtr.secDoor.busy = false) ∧
    (∃ (s : State), Reaches s 8 ∧ s.mtr.secDoor.busy = false) ∧
    (∃ (s : State) (b : Bool), (if b then s.mtr.secDoor else s.mtr.openDoor).busy = true ∧ s.mtr.running = false) ∧
    (∃ (s : State), s.mtr.secDoor.busy = true ∧ s.mtr.running = true ∧ s.mtr.sealOpen = false) ∧
    (∃ (s : State), s.mtr.secDoor.busy = true ∧ s.mtr.secDoor.op = 0x11 ∧ s.mtr.running = true ∧ s.mtr.sealOpen = true ∧ s.mtr.secDoor.arg0.toNat ≤ 3 ∧ ([(alook s.mtr.staged s.mtr.secDoor.arg0.toNat).getD (parBytes s s.mtr.secDoor.arg0.toNat)]).any (fun l => ((blockFault s.mtr.secDoor.arg0.toNat l).toList).any (fun i => true)) = true) ∧
    (∃ (s : State), s.mtr.secDoor.busy = true ∧ s.mtr.secDoor.op = 0x11 ∧ s.mtr.running = true ∧ s.mtr.sealOpen = true ∧ s.mtr.secDoor.arg0.toNat ≤ 3 ∧ 512 ≤ s.mtr.legalLog.length ∧ ([(alook s.mtr.staged s.mtr.secDoor.arg0.toNat).getD (parBytes s s.mtr.secDoor.arg0.toNat)]).any (fun l => decide (blockFault s.mtr.secDoor.arg0.toNat l = none)) = true) ∧
    (∃ (s : State), s.mtr.secDoor.busy = true ∧ s.mtr.secDoor.op = 0x11 ∧ s.mtr.running = true ∧ s.mtr.sealOpen = true ∧ s.mtr.secDoor.arg0.toNat ≤ 3 ∧ s.mtr.legalLog.length < 512 ∧ ([(alook s.mtr.staged s.mtr.secDoor.arg0.toNat).getD (parBytes s s.mtr.secDoor.arg0.toNat)]).any (fun l => decide (blockFault s.mtr.secDoor.arg0.toNat l = none)) = true) ∧
    (∃ (s : State), s.mtr.secDoor.busy = true ∧ s.mtr.secDoor.op = 0x13 ∧ s.mtr.running = true ∧ s.mtr.sealOpen = true ∧ s.mtr.meterId ≠ none) ∧
    (∃ (s : State), s.mtr.openDoor.busy = true ∧ s.mtr.openDoor.op = 1 ∧ s.mtr.running = true ∧ findLog s s.mtr.openDoor.arg0 = none) ∧
    (∃ (s : State), s.mtr.openDoor.busy = true ∧ s.mtr.openDoor.op = 1 ∧ s.mtr.running = true ∧ ((findLog s s.mtr.openDoor.arg0).toList).any (fun r => true) = true) ∧
    (∃ (s : State), s.mtr.openDoor.busy = true ∧ s.mtr.openDoor.op = 3 ∧ s.mtr.running = true ∧ s.mtr.openDoor.arg0.toNat ≤ 95 ∧ s.mtr.openDoor.arg1.toNat ≤ 16) ∧
    (∃ (s : State), s.mtr.openDoor.busy = true ∧ s.mtr.openDoor.op = 5 ∧ s.mtr.running = true) :=
  ⟨⟨runState, 0, by unfold Reaches; decide +kernel⟩,
   ⟨runState, 0, 0, by unfold Reaches; decide +kernel⟩,
   ⟨runState, 0, 0, by unfold Reaches; decide +kernel⟩,
   ⟨runState, 0, 0, by unfold Reaches; decide +kernel⟩,
   ⟨runState, by unfold Reaches; decide +kernel⟩,
   ⟨st8, 0, 0, by unfold Reaches; decide +kernel⟩,
   ⟨runState, 0, 0, by unfold Reaches; decide +kernel⟩,
   ⟨runState, 0, by unfold Reaches; decide +kernel⟩,
   ⟨runState, 0, by unfold Reaches; decide +kernel⟩,
   ⟨runState, by unfold Reaches; decide +kernel⟩,
   ⟨st15, true, by decide +kernel⟩,
   ⟨st16, by decide +kernel⟩,
   ⟨st9, by decide +kernel⟩,
   ⟨st14, by decide +kernel⟩,
   ⟨st8, by decide +kernel⟩,
   ⟨st10, by decide +kernel⟩,
   ⟨st11, by decide +kernel⟩,
   ⟨st10, by decide +kernel⟩,
   ⟨st8, by decide +kernel⟩,
   ⟨st13, by decide +kernel⟩⟩

end F14

namespace F15

def rt (g : Rtc → Rtc) (s : State) : State :=
  let s := runs s
  let s := rset { s with clk := { s.clk with good := 0x1FF, closing := 0 } } oGateOpen 0xFFFFF
  { s with rtc := g s.rtc }
def rc (n : Nat) : Rec := ⟨0x101, n % 32, n, 5, n % 16, n, [1, 2, 3], n % 5⟩
def st1 : State :=
  (rt (fun r => { r with haltReq := true, halted := true, cd := 5, batBusy := true })) runState
def st2 : State :=
  (rt (fun r => { r with haltReq := false, halted := true, cd := 1, cdReload := true, cdLoad := 9, batBusy := true, batLow := false })) runState
def st3 : State :=
  (fun s => rset (rset (rt (fun r => { r with cd := 1, batBusy := true, batLow := true, optimeNext := true }) { s with recq := (upto 3).map rc, recLost := 0, recNext := 7, evq := [], rings := [] }) oRtcStatus 0) oRtcEvent 0) runState
def st4 : State :=
  (fun s => rset (rset (rt (fun r => { r with cd := 1, batBusy := true, batLow := true, optimeNext := true }) { s with recq := (upto 6).drop 4 |>.map rc, recLost := 4, recLostCls := 2, evq := [], rings := [] }) oRtcStatus 0) oRtcEvent 0) runState
def st5 : State :=
  (fun s => { runs s with recq := (upto 256).map rc, evq := [⟨0x101, 3, 4, 0, 9, [1], 2, 3, false, true⟩], rings := [] }) runState
def st6 : State :=
  (fun s => { rt (fun r => { r with optime := 100, optimeNext := true, optimeA := (90, true) }) s with recq := [rc 4], evq := [], recLost := 0, recNext := 8 }) runState

theorem witness_RealTimeCounterCommandsEffects :
    (∃ (s : State) (b : Bool), Reaches s 0) ∧
    (∃ (s : State) (b : Bool), Reaches s 0 ∧ s.rtc.haltReq = true) ∧
    (∃ (s : State) (b : Bool), Reaches s 0 ∧ s.rtc.haltReq = true ∧ s.rtc.halted = true) ∧
    (∃ (s : State) (c : BitVec 48), Reaches s 0 ∧ s.rtc.haltReq = true) ∧
    (∃ (s : State) (c : BitVec 48), Reaches s 0 ∧ s.rtc.haltReq = false) ∧
    (∃ (s : State) (v : Word), Reaches s 0) ∧
    (∃ (s : State), s.rtc.cd = 1 ∧ s.clk.alive = true) ∧
    (∃ (s : State), bitOf (rget s oRtcStatus) 0 = false ∧ s.clk.alive = true) ∧
    (∃ (s : State), bitOf (rget s oRtcStatus) 0 = true) ∧
    (∃ (s : State), s.clk.alive = true ∧ s.rtc.optimeNext = false ∧ (s.rtc.optimeB.2 = true → s.rtc.optimeB.1 + 10 ≤ s.rtc.optime)) ∧
    (∃ (s : State), s.clk.alive = true ∧ s.rtc.optimeNext = true ∧ (s.rtc.optimeA.2 = true → s.rtc.optimeA.1 + 10 ≤ s.rtc.optime)) :=
  ⟨⟨runState, true, by unfold Reaches; decide +kernel⟩,
   ⟨st1, true, by unfold Reaches; decide +kernel⟩,
   ⟨st1, true, by unfold Reaches; decide +kernel⟩,
   ⟨st1, 0, by unfold Reaches; decide +kernel⟩,
   ⟨runState, 0, by unfold Reaches; decide +kernel⟩,
   ⟨runState, 0, by unfold Reaches; decide +kernel⟩,
   ⟨st2, by decide +kernel⟩,
   ⟨st3, by decide +kernel⟩,
   ⟨runState, by decide +kernel⟩,
   ⟨runState, by decide +kernel⟩,
   ⟨st3, by decide +kernel⟩⟩

theorem witness_BatteryAndRecorderCommandsEffects :
    (∃ (s : State), Reaches s 19) ∧
    (∃ (s : State), batEnabled s = true) ∧
    (∃ (s : State) (v : BitVec 10), s.rtc.batBusy = true ∧ s.clk.alive = true) ∧
    (∃ (s : State), s.evq = [] ∧ (s.recq.head?.toList).any (fun r => decide (r.step < 4)) = true) ∧
    (∃ (s : State), s.evq = [] ∧ s.recLost = 0 ∧ (s.recq.head?.toList).any (fun r => decide (4 ≤ r.step)) = true) ∧
    (∃ (s : State), s.evq = [] ∧ s.recLost ≠ 0 ∧ (s.recq.head?.toList).any (fun r => decide (4 ≤ r.step)) = true) ∧
    (∃ (s : State), s.evq.length = 1 ∧ 256 ≤ s.recq.length ∧ (s.evq.head?.toList).any (fun e => decide (e.toRec = true) && decide (e.toHost = false)) = true) :=
  ⟨⟨runState, by unfold Reaches; decide +kernel⟩,
   ⟨runState, by decide +kernel⟩,
   ⟨st1, 0, by decide +kernel⟩,
   ⟨st3, by decide +kernel⟩,
   ⟨st6, by decide +kernel⟩,
   ⟨st4, by decide +kernel⟩,
   ⟨st5, by decide +kernel⟩⟩

theorem witness_IdleStepPassesOnePhaseUnit :
    (∃ (s : State), s.pending = []) :=
  ⟨runState, by decide +kernel⟩

theorem witness_CountdownExpiryReloadsOrStops :
    (∃ (s : State), s.rtc.cd = 1) :=
  ⟨st2, by decide +kernel⟩

end F15

namespace F16

def wd (k : Nat) (sq : Word) : List Word := let l := [w32 k, sq] ++ List.replicate 13 0; l ++ [crcWords l]
def rg : Ring := { Ring.reset with ctrl := w32 (0x200 + 0x1800), enabled := true, seq := 5, sqTail := 5, cqTail := 3, committed := 4 }
def ev : Ring := { rg with ctrl := w32 (0x202), unsig := 2, cqTail := 15 }
def rb (f : Ring → Ring) (g : Ring → Ring) (s : State) : State :=
  let s := runs s
  let s := rset (rset { s with clk := { s.clk with good := 0x1FF, closing := 0, linkPcie := true, idle := 0 }, busMaster := true } oGateOpen 0xFFFFF) (oRing 1 + 0x18) 0x50001
  let s := rset (rset (rset s (oRing 2 + 4) 0x40) (oRing 2 + 0xC) 0x80) oRngVerUsed 1
  let s := rset (rset (rset s (oRing 0) 0x201) (oRing 1) 0x203) (oRing 2) 0
  { s with rings := [(0, f rg), (1, g ev)], base := { s.base with slot := 0 } }
def fl (ws : List Word) : Flight := ⟨0, 0, ws, [], none, false, false⟩
def st0 : State :=
  (rb id id) runState
def st1 : State :=
  (fun s => { runs s with rings := [], clk := { (runs s).clk with linkPcie := true } }) runState
def st2 : State :=
  (rb (fun r => { r with flight := [fl (wd 0 4)] , closing := true}) (fun r => { r with cqTail := 0, unsig := 0 })) runState
def st3 : State :=
  (rb (fun r => { r with flight := [fl (wd 0 4), { fl (wd 0 5) with ord := 1 }]}) (fun r => { r with cqTail := 0, unsig := 0, lostNew := 3, lostCls := 2 })) runState
def st4 : State :=
  (rb (fun r => { r with flight := [{ fl (wd 0 4) with early := some (4, 3)}, { fl (wd 0 5) with ord := 1 }]}) id) runState
def st6 : State :=
  (fun s => { rb id id s with watches := [⟨3, 2, 0, 50, 9, false, true, true, 0⟩, ⟨0, 0, 0, 50, 0, false, false, true, 7⟩, ⟨0, 0, 0, 50, 0, false, true, true, 7⟩, ⟨3, 1, 0, 50, pval s 3, (pointForce s 3).isSome, false, true, 7⟩, ⟨0, 0, 0, 50, pval s 0, (pointForce s 0).isSome, false, true, 7⟩, ⟨0, 0, 0, 0, 77, false, true, true, 7⟩], up := 10 ^ 9 }) runState
def st8 : State :=
  (fun s => rset (rb (fun r => { r with unsig := 3, unsigAt := 0 }) id { s with up := 10 ^ 12, msix := [(15, 0)] }) (oRing 0 + 0x18) 0x50001) runState
def st9 : State :=
  (fun s => let s := rset (rb id (fun r => { r with cqTail := 15, cqHead := 0 }) s) (oRing 1 + 0x1C) 0xFF; { s with evq := [{ ts := 1, optime := 2, block := 0, obj := 0, cls := 0, code := 1, part := 0, toHost := true, toRec := false, body := [] }] }) runState

theorem witness_RingControlCommandsEffects :
    (∃ (s : State) (v : Word), Reaches s 4 ∧ anyRing s = false) ∧
    (∃ (s : State) (v : Word), Reaches s 4 ∧ anyRing s = true) ∧
    (∃ (s : State) (n : Fin 64) (v : Word), Reaches s 4 ∧ bitOf (rget s (oRing n)) 0 = false ∧ (ring s n).enabled = false ∧ canEnable s n ((v ||| 1) &&& 0x1FFFF) = true) ∧
    (∃ (s : State) (n : Fin 64) (v : Word), Reaches s 4 ∧ bitOf (rget s (oRing n)) 0 = false ∧ canEnable s n ((v ||| 1) &&& 0x1FFFF) = false) ∧
    (∃ (s : State) (n : Fin 64), Reaches s 4 ∧ bitOf (rget s (oRing n)) 0 = true ∧ (isEventPair s n = true ∨ (ring s n).flight = [])) ∧
    (∃ (s : State) (n : Fin 64), Reaches s 4 ∧ bitOf (rget s (oRing n)) 0 = true ∧ isEventPair s n = false ∧ (ring s n).flight ≠ []) ∧
    (∃ (s : State) (n : Fin 64) (v : Word), Reaches s 4 ∧ (ring s n).enabled = true ∧ isEventPair s n = false ∧ fld v 11 0 < ringSize s n) ∧
    (∃ (s : State) (n : Fin 64) (v : Word), Reaches s 4 ∧ ((ring s n).enabled = false ∨ isEventPair s n = true ∨ ringSize s n ≤ fld v 11 0)) ∧
    (∃ (s : State) (n : Fin 64) (v : Word), Reaches s 4 ∧ (ring s n).enabled = true ∧ isEventPair s n = false ∧ fld v 11 0 < ringSize s n ∧ (fld v 11 0 + ringSize s n - (ring s n).cqHead) % ringSize s n ≤ ((ring s n).cqTail + ringSize s n - (ring s n).cqHead) % ringSize s n) ∧
    (∃ (s : State) (n : Fin 64), (ring s n).enabled = true ∧ (ring s n).unsig ≠ 0 ∧ rfld s (oRing n + 0x18) 27 16 ≠ 0 ∧ (ring s n).unsigAt + 1000 * rfld s (oRing n + 0x18) 27 16 ≤ s.up ∧ bitOf (tget msixDefault s.msix (4 * fld (ring s n).ctrl 16 11 + 3)) 0 = false) ∧
    (∃ (s : State) (n : Fin 64), (ring s n).enabled = true ∧ (ring s n).unsig ≠ 0 ∧ rfld s (oRing n + 0x18) 27 16 ≠ 0 ∧ (ring s n).unsigAt + 1000 * rfld s (oRing n + 0x18) 27 16 ≤ s.up ∧ bitOf (tget msixDefault s.msix (4 * fld (ring s n).ctrl 16 11 + 3)) 0 = true) ∧
    (∃ (s : State) (n : Fin 64), s.evq.length = 1 ∧ cqFree s n = 0 ∧ (s.evq.head?.toList).any (fun e => decide (e.toHost = true) && decide (e.toRec = false) && decide (takesEvent s n e = true)) = true) ∧
    (∃ (s : State) (k : Fin 512) (point : BitVec 16) (part : Fin 17), ((s.watches[k.val]?).toList).any (fun w => decide (w.point = point.toNat) && decide (w.part = part.val) && decide (w.closed = true) && decide (w.held = true) && decide (w.since + w.minMs * 1000000 ≤ s.up) && decide (bitOf w.deadband 31 = false)) = true) ∧
    (∃ (s : State) (k : Fin 512) (point : BitVec 16) (part : Fin 17), ((s.watches[k.val]?).toList).any (fun w => decide (w.point = point.toNat) && decide (w.part = part.val) && decide (w.closed = true) && decide (w.held = false) && decide (w.since + w.minMs * 1000000 ≤ s.up) && decide (watchChanged s w = false)) = true) ∧
    (∃ (s : State), s.clk.linkPcie = true) ∧
    (∃ (s : State), s.clk.linkPcie = true ∧ anyRing s = true) ∧
    (∃ (s : State), s.clk.linkPcie = true ∧ anyRing s = false) :=
  ⟨⟨runState, 0, by unfold Reaches; decide +kernel⟩,
   ⟨st0, 0, by unfold Reaches; decide +kernel⟩,
   ⟨st0, 2, 0x00010c12#32, by unfold Reaches; decide +kernel⟩,
   ⟨runState, 0, 0x00000000#32, by unfold Reaches; decide +kernel⟩,
   ⟨st0, 0, by unfold Reaches; decide +kernel⟩,
   ⟨st2, 0, by unfold Reaches; decide +kernel⟩,
   ⟨st0, 0, 0x00000000#32, by unfold Reaches; decide +kernel⟩,
   ⟨runState, 0, 0x00000000#32, by unfold Reaches; decide +kernel⟩,
   ⟨st0, 0, 0x00000000#32, by unfold Reaches; decide +kernel⟩,
   ⟨st8, 0, by decide +kernel⟩,
   ⟨st6, 1, by decide +kernel⟩,
   ⟨st9, 1, by decide +kernel⟩,
   ⟨st6, 0, 0x0003#16, 2, by decide +kernel⟩,
   ⟨st6, 1, 0x0000#16, 0, by decide +kernel⟩,
   ⟨st0, by decide +kernel⟩,
   ⟨st0, by decide +kernel⟩,
   ⟨st1, by decide +kernel⟩⟩

theorem witness_DescriptorCommandsEffects :
    (∃ (s : State) (n : Fin 64) (ws : List Word) (pay : List Word), canFetch s n = true) ∧
    (∃ (s : State) (n : Fin 64) (ws : List Word) (pay : List Word), canFetch s n = true ∧ (ring s n).halted = false ∧ crcWords ((descWords ws).take 15) ≠ wAt (descWords ws) 15) ∧
    (∃ (s : State) (n : Fin 64) (ws : List Word) (pay : List Word), canFetch s n = true ∧ (ring s n).halted = false ∧ crcWords ((descWords ws).take 15) = wAt (descWords ws) 15 ∧ fld (wAt (descWords ws) 0) 7 0 ≠ 2 ∧ wAt (descWords ws) 1 ≠ (ring s n).seq) ∧
    (∃ (s : State) (n : Fin 64) (ws : List Word) (pay : List Word), canFetch s n = true ∧ (ring s n).halted = false ∧ (ring s n).dupLeft = 0 ∧ crcWords ((descWords ws).take 15) = wAt (descWords ws) 15 ∧ fld (wAt (descWords ws) 0) 7 0 ≠ 2 ∧ wAt (descWords ws) 1 = (ring s n).seq ∧ opStatic (descWords ws) = none ∧ bitOf (wAt (descWords ws) 0) 8 = false) ∧
    (∃ (s : State) (n : Fin 64) (ws : List Word) (pay : List Word), canFetch s n = false) ∧
    (∃ (s : State) (n : Fin 64) (hop : Fin 13), hop ≠ 4 ∧ ringsRun s = true ∧ s.busMaster = true ∧ ((ring s n).flight.map Flight.ord).Nodup ∧ (ring s n).closing = false ∧ ((ring s n).flight.head?.toList).any (fun f => ((f.early).toList).any (fun e => decide (2 < e.1) && decide (f.waiting = false) && decide (f.dup = false))) = true) ∧
    (∃ (s : State) (n : Fin 64) (hop : Fin 13), hop ≠ 4 ∧ ringsRun s = true ∧ s.busMaster = true ∧ ((ring s n).flight.map Flight.ord).Nodup ∧ (ring s n).closing = false ∧ ((ring s n).flight.head?.toList).any (fun f => decide (f.early = none) && decide (opOf f = 0) && decide (f.waiting = false) && decide (f.dup = false)) = true) ∧
    (∃ (s : State) (n : Fin 64), canFetch s n = true) ∧
    (∃ (s : State) (n : Fin 64) (ws : List Word), canFetch s n = true ∧ ws ≠ [] ∧ bitOf (wAt ws 0) 8 = true ∧ opStatic (descWords ws) = none ∧ crcWords ((descWords ws).take 15) = wAt ws 15 ∧ fld (wAt ws 0) 7 0 ≠ 2 ∧ wAt ws 1 = (ring s n).seq ∧ (ring s n).halted = false ∧ (ring s n).dupLeft = 0) :=
  ⟨⟨st0, 0, [], [], by decide +kernel⟩,
   ⟨st0, 0, [], [], by decide +kernel⟩,
   ⟨st0, 0, [0x00000000#32, 0x00000004#32, 0x00000000#32, 0x00000000#32, 0x00000000#32, 0x00000000#32, 0x00000000#32, 0x00000000#32, 0x00000000#32, 0x00000000#32, 0x00000000#32, 0x00000000#32, 0x00000000#32, 0x00000000#32, 0x00000000#32, 0x28f89f33#32], [], by decide +kernel⟩,
   ⟨st0, 0, [0x00000000#32, 0x00000005#32, 0x00000000#32, 0x00000000#32, 0x00000000#32, 0x00000000#32, 0x00000000#32, 0x00000000#32, 0x00000000#32, 0x00000000#32, 0x00000000#32, 0x00000000#32, 0x00000000#32, 0x00000000#32, 0x00000000#32, 0xb6b242cb#32], [], by decide +kernel⟩,
   ⟨runState, 0, [], [], by decide +kernel⟩,
   ⟨st4, 0, 0, by decide +kernel⟩,
   ⟨st3, 0, 0, by decide +kernel⟩,
   ⟨st0, 0, by decide +kernel⟩,
   ⟨st0, 0, descOf 0x20 { flags := 1, seq := 5, target := 2, w3 := 0, par := List.replicate 8 0, addr := 0x1000, len := 12, payload := [0x20000, 2] }, by decide +kernel⟩⟩

end F16

namespace F17

def rg (k : Nat) : Ring := { Ring.reset with ctrl := w32 (0x200 + 4 * k + 0x1800), enabled := true, seq := 5, sqTail := 5, cqTail := 3, committed := 4 }
def rq (part : Nat) (f : State → State) (s : State) : State :=
  let s := runs s
  let s := rset { s with clk := { s.clk with good := 0x1FF, closing := 0, linkPcie := true, idle := 0 }, busMaster := true } oGateOpen 0xFFFFF
  let s := rset (rset s oRngVerUsed 1) (oRing 0) (w32 (0x201 + 4 * part))
  f { s with rings := [(0, rg part), (3, { rg 0 with cqTail := 9, phase := true, flight := [⟨4, 3, [], [], none, true, false⟩], done := 4, fetched := 5 })], base := { s.base with slot := 0 } }
def imW : Image := { bytes := [], programId := 7, build := 9, suppress := false, dataWords := 12, retainWords := 0, retainId := [], digest := [1], tasks := [⟨true, false, 3, 1, 0, 1, []⟩], insts := [⟨0x5C, 2, false, false, 0, 0, 7, 0, 0⟩], conns := [], init := [], vars := [], expr := [], rules := [], writes := [] }
def st0 : State :=
  (rq 0 id) runState
def st2 : State :=
  (fun s => rset (rq 0 (fun s => { s with live := [] }) s) oGateOpen 0x13) runState
def st4 : State :=
  (fun s => { (rq 0 (fun s => { s with forces := [] }) s) with img := some imW }) runState
def st6 : State :=
  (rq 2 id) runState
def st7 : State :=
  (rq 0 (fun s => { s with watches := [⟨3, 0, 0, 0, 0, false, false, false, 0⟩], forces := [] })) runState
def st9 : State :=
  (rq 0 (fun s => { s with rings := s.rings.map (fun e => (e.1, { e.2 with halted := e.1 == 0, rung := true, wantResume := true, covers := [⟨8, [(3, 5, 0), (0, 3, 0)]⟩] })) })) runState
def st10 : State :=
  (rq 0 (fun s => { s with rings := s.rings.map (fun e => (e.1, { e.2 with covers := [⟨8, [(3, 5, 0), (0, 3, 0)]⟩] })) })) runState
def st14 : State :=
  (rq 0 (fun s => { (rset s 0x20044 0x80000000) with img := some imW })) runState

theorem witness_PointOperationsEffects :
    (∃ (s : State) (n : Fin 64) (d : Desc), Ready s n.val 0x00 d) ∧
    (∃ (s : State) (n : Fin 64) (d : Desc), Ready s n.val 0x01 d ∧ wAt d.par 0 = 0 ∧ wAt d.par 1 = 0) ∧
    (∃ (s : State) (n : Fin 64) (d : Desc), Ready s n.val 0x01 d ∧ (fenceSees s n d).all (fun e => decide ((fenceRing s e.1 e.2.1 e.2.2).isSome = true)) = true) ∧
    (∃ (s : State) (n : Fin 64) (d : Desc), Ready s n.val 0x01 d ∧ (fenceSees s n d).any (fun e => decide ((ring s e.1).epoch = e.2.2) && decide ((ring s e.1).done < e.2.1) && decide ((ring s e.1).enabled = true) && decide ((ring s e.1).halted = false)) = true) ∧
    (∃ (s : State) (n : Fin 64) (d : Desc), canFetch s n = true ∧ (ring s n).flight = [] ∧ (ring s n).halted = true ∧ (ring s n).wantResume = true ∧ opStatic (descOf 2 d) = none ∧ ((ring s n).committed + 1 - wAt d.par 0).toNat < ringSize s n) ∧
    (∃ (s : State) (n : Fin 64) (d : Desc), Ready s n.val 0x10 d ∧ (∀ i : Nat, i < (wAt d.par 0).toNat → partOk (ringPart s n) (ppart s (d.target.toNat + i)) = true) ∧ 8 * (wAt d.par 0).toNat + 4 ≤ d.len.toNat) ∧
    (∃ (s : State) (n : Fin 64) (d : Desc) (i : Nat), Ready s n.val 0x11 d ∧ i < (wAt d.par 0).toNat ∧ (∀ j : Nat, j < i → partOk (ringPart s n) (ppart s (d.target.toNat + j)) = true) ∧ partOk (ringPart s n) (ppart s (d.target.toNat + i)) = false) ∧
    (∃ (s : State) (n : Fin 64) (d : Desc) (i : Nat), Ready s n.val 0x11 d ∧ (∀ i : Nat, i < (wAt d.par 0).toNat → partOk (ringPart s n) (ppart s (d.target.toNat + i)) = true) ∧ i < (wAt d.par 0).toNat ∧ (∀ j : Nat, j < i → ptWriteFault s (d.target.toNat + j, dataWord d 1 (wAt d.par 0).toNat j) = none) ∧ ((ptWriteFault s (d.target.toNat + i, dataWord d 1 (wAt d.par 0).toNat i)).toList).any (fun e => true) = true) ∧
    (∃ (s : State) (n : Fin 64) (d : Desc), Ready s n.val 0x11 d ∧ (∀ i : Nat, i < (wAt d.par 0).toNat → partOk (ringPart s n) (ppart s (d.target.toNat + i)) = true) ∧ (∀ i : Nat, i < (wAt d.par 0).toNat → ptWriteFault s (d.target.toNat + i, dataWord d 1 (wAt d.par 0).toNat i) = none) ∧ (∀ i : Nat, i < (wAt d.par 0).toNat → pointForce s (d.target.toNat + i) = none)) ∧
    (∃ (s : State) (n : Fin 64) (d : Desc), Ready s n.val 0x12 d ∧ wAt d.par 0 = 1 ∧ partOk (ringPart s n) (ppart s d.target.toNat) = true ∧ (s.watches.length < 2048 ∨ s.watches.any (isWatch d.target.toNat (ringPart s n)) = true)) ∧
    (∃ (s : State) (n : Fin 64) (d : Desc), Ready s n.val 0x12 d ∧ wAt d.par 0 = 0 ∧ partOk (ringPart s n) (ppart s d.target.toNat) = true ∧ s.watches.any (isWatch d.target.toNat (ringPart s n)) = true) ∧
    (∃ (s : State) (n : Fin 64) (d : Desc), Ready s n.val 0x12 d ∧ wAt d.par 0 = 0 ∧ partOk (ringPart s n) (ppart s d.target.toNat) = true ∧ s.watches.any (isWatch d.target.toNat (ringPart s n)) = false) ∧
    (∃ (s : State) (n : Fin 64) (d : Desc), Ready s n.val 0x13 d ∧ partOk (ringPart s n) (stationPart s d.target.toNat) = true) ∧
    (∃ (s : State) (n : Fin 64) (d : Desc), Ready s n.val 0x14 d ∧ partOk (ringPart s n) (stationPart s d.target.toNat) = true ∧ (∀ j : Nat, j < (wAt d.par 1).toNat → rioWritten s d.target.toNat ((wAt d.par 0).toNat + j) = false)) ∧
    (∃ (s : State) (n : Fin 64) (d : Desc) (j : Nat), Ready s n.val 0x14 d ∧ partOk (ringPart s n) (stationPart s d.target.toNat) = true ∧ j < (wAt d.par 1).toNat ∧ (∀ i : Nat, i < j → rioWritten s d.target.toNat ((wAt d.par 0).toNat + i) = false) ∧ rioWritten s d.target.toNat ((wAt d.par 0).toNat + j) = true) :=
  ⟨⟨st0, 0, dsc st0 0 0x0 (0, [], []) 0, by unfold Ready; decide +kernel⟩,
   ⟨st0, 0, dsc st0 0 0x1 (0, [], []) 0, by unfold Ready; decide +kernel⟩,
   ⟨st0, 0, dsc st0 0 0x1 (0, [], []) 0, by unfold Ready; decide +kernel⟩,
   ⟨st10, 0, dsc st10 0 0x1 (0, [8], []) 0, by unfold Ready; decide +kernel⟩,
   ⟨st9, 0, dsc st9 0 0x2 (0, [5], []) 0, by decide +kernel⟩,
   ⟨st0, 0, dsc st0 0 0x10 (0, [1], []) 0, by unfold Ready; decide +kernel⟩,
   ⟨st6, 0, dsc st6 0 0x11 (0x400, [1, 1], []) 0, 0, by unfold Ready; decide +kernel⟩,
   ⟨st0, 0, dsc st0 0 0x11 (0x400, [1, 1], []) 0, 0, by unfold Ready; decide +kernel⟩,
   ⟨st0, 0, dsc st0 0 0x11 (0x800, [3, 5, 6, 2], []) 0, by unfold Ready; decide +kernel⟩,
   ⟨st0, 0, dsc st0 0 0x12 (0, [1, 5, 100], []) 0, by unfold Ready; decide +kernel⟩,
   ⟨st7, 0, dsc st7 0 0x12 (3, [0], []) 0, by unfold Ready; decide +kernel⟩,
   ⟨st0, 0, dsc st0 0 0x12 (3, [0], []) 0, by unfold Ready; decide +kernel⟩,
   ⟨st0, 0, dsc st0 0 0x13 (0, [0, 1], []) 0, by unfold Ready; decide +kernel⟩,
   ⟨st0, 0, dsc st0 0 0x14 (0, [0, 7], [1,2,3,4,5,6,7]) 0, by unfold Ready; decide +kernel⟩,
   ⟨st4, 0, dsc st4 0 0x14 (0, [0, 7], [1,2,3,4,5,6,7]) 0, 0, by unfold Ready; decide +kernel⟩⟩

theorem witness_ConfigurationOperationsEffects :
    (∃ (s : State) (n : Fin 64) (d : Desc), Ready s n.val 0x20 d ∧ ((pairsOf d.payload).head?.toList).any (fun p => decide (cfgPairOk d.target.toNat p.1 = false)) = true) ∧
    (∃ (s : State) (n : Fin 64) (d : Desc), Ready s n.val 0x20 d ∧ (pairsOf d.payload).all (fun p => decide (cfgPairOk d.target.toNat p.1 = true)) = true ∧ (pairsOf d.payload).all (fun p => decide (cfgUp s (cfgBase d.target.toNat + p.1.toNat) = true)) = true ∧ cfgBusy s d.target.toNat = true) ∧
    (∃ (s : State) (n : Fin 64) (d : Desc), Ready s n.val 0x20 d ∧ (pairsOf d.payload).all (fun p => decide (cfgPairOk d.target.toNat p.1 = true)) = true ∧ (pairsOf d.payload).all (fun p => cfgUp s (cfgBase d.target.toNat + p.1.toNat)) = false) ∧
    (∃ (s : State) (n : Fin 64) (d : Desc), Ready s n.val 0x20 d ∧ (pairsOf d.payload).all (fun p => decide (cfgPairOk d.target.toNat p.1 = true)) = true ∧ (pairsOf d.payload).all (fun p => decide (cfgUp s (cfgBase d.target.toNat + p.1.toNat) = true)) = true ∧ d.target.toNat % 16 ≠ 2 ∧ d.target.toNat % 16 ≠ 3 ∧ d.target.toNat % 16 ≠ 4) ∧
    (∃ (s : State) (n : Fin 64) (d : Desc), Ready s n.val 0x20 d ∧ (pairsOf d.payload).all (fun p => decide (cfgPairOk d.target.toNat p.1 = true)) = true ∧ (pairsOf d.payload).all (fun p => decide (cfgUp s (cfgBase d.target.toNat + p.1.toNat) = true)) = true ∧ cfgBusy s d.target.toNat = false ∧ (d.target.toNat % 16 = 2 ∨ d.target.toNat % 16 = 3 ∨ d.target.toNat % 16 = 4)) ∧
    (∃ (s : State) (n : Fin 64) (d : Desc), Ready s n.val 0x21 d ∧ 4 * (wAt d.par 1).toNat + 4 ≤ d.len.toNat ∧ (∀ k : Nat, k < (wAt d.par 1).toNat → cfgUp s (cfgBase d.target.toNat + (wAt d.par 0).toNat + 4 * k) = true)) ∧
    (∃ (s : State) (n : Fin 64) (d : Desc), Ready s n.val 0x21 d ∧ (upto (wAt d.par 1).toNat).all (fun k => cfgUp s (cfgBase d.target.toNat + (wAt d.par 0).toNat + 4 * k)) = false) :=
  ⟨⟨st0, 0, dsc st0 0 0x20 (4, [], [0x100, 5, 0x104, 7]) 0, by unfold Ready; decide +kernel⟩,
   ⟨st14, 0, dsc st14 0 0x20 (2, [], [0x4000, 1]) 0, by unfold Ready; decide +kernel⟩,
   ⟨st2, 0, dsc st2 0 0x20 (3, [], [0x104, 3, 0x108, 2]) 0, by unfold Ready; decide +kernel⟩,
   ⟨st0, 0, dsc st0 0 0x20 (0, [], [0x54, 1]) 0, by unfold Ready; decide +kernel⟩,
   ⟨st0, 0, dsc st0 0 0x20 (3, [], [0x104, 3, 0x108, 2]) 0, by unfold Ready; decide +kernel⟩,
   ⟨st0, 0, dsc st0 0 0x21 (0, [0, 1], []) 0, by unfold Ready; decide +kernel⟩,
   ⟨st2, 0, dsc st2 0 0x21 (7, [0x20, 2], []) 0, by unfold Ready; decide +kernel⟩⟩

end F17

namespace F18

def rg (k : Nat) : Ring := { Ring.reset with ctrl := w32 (0x200 + 4 * k + 0x1800), enabled := true, seq := 5, sqTail := 5, cqTail := 3, committed := 4 }
def rq (part : Nat) (f : State → State) (s : State) : State :=
  let s := runs s
  let s := rset { s with clk := { s.clk with good := 0x1FF, closing := 0, linkPcie := true, idle := 0 }, busMaster := true } oGateOpen 0xFFFFF
  let s := rset (rset s oRngVerUsed 1) (oRing 0) (w32 (0x201 + 4 * part))
  f { s with rings := [(0, rg part), (3, { rg 0 with cqTail := 9, phase := true, flight := [⟨4, 3, [], [], none, true, false⟩], done := 4, fetched := 5 })], base := { s.base with slot := 0 } }
def im0 : Image := { bytes := [], programId := 7, build := 9, suppress := false, dataWords := 12, retainWords := 0, retainId := [], digest := [1], tasks := [], insts := [⟨0, 2, false, false, 0, 0, 7, 0, 0⟩, ⟨4, 2, false, false, 0, 1, 9, 3, 0⟩, ⟨0x20, 2, false, false, 0, 0, 10, 6, 0⟩], conns := [], init := [], vars := [], expr := [], rules := [], writes := [] }
def bl (f : Ble → Ble) (s : State) : State := { s with img := some im0, ble := f { s.ble with running := true, act := none, run := none, stack := [], wait := [], writes := [], load := none, saving := none } }
def hdrI : List Nat := wordsBytes ([0x49424B53, 0x01800001, 0, 0x1C0, 7, 9, 1, 0, 2, 0, 0, 0] ++ bytesWords ((sha256 []).take 8)
  ++ [0x180, 16, 0x190, 0, 0x190, 8, 0x198, 8, 0x1A0, 0, 0x1A0, 0, 0x1A0, 0] ++ List.replicate 4 0 ++ [1, 1, 0, 1] ++ List.replicate 60 0)
def bodyI : List Nat := wordsBytes [0x103, 5, 0, 0, 0, 0, 0, 0]
def imgI : List Nat := let b := hdrI ++ bodyI; b ++ sha256 b
def st0 : State :=
  (rq 0 (bl id)) runState
def st1 : State :=
  (rq 0 (fun s => bl id { s with phc := { s.phc with timed := [], cap1 := { s.phc.cap1 with valid := true, ns := 10 ^ 9 }, cap0 := { s.phc.cap1 with valid := true, ns := 0 } }, ptp := { s.ptp with st := 2 } })) runState
def st2 : State :=
  (rq 1 (bl id)) runState
def st3 : State :=
  (rq 0 (bl (fun b => { b with running := false, retA := none, retB := none, inactive := none }))) runState
def st4 : State :=
  (rq 0 (fun s => bl (fun b => { b with running := false, inactive := some im0, tasks := [] }) { s with twn := { s.twn with pair := 0, role := 0 } })) runState
def st5 : State :=
  (rq 0 (fun s => { s with img := none, ble := { s.ble with running := false } })) runState
def st6 : State :=
  (rq 0 (bl (fun b => { b with tasks := [(4, ⟨true, 0, false, 0, 0, 0, 0⟩)], load := some (16, [1,0,0,0,2,0,0,0]), inactive := some im0 }))) runState
def st7 : State :=
  (rq 0 (fun s => bl (fun b => { b with inactive := some im0, act := some ⟨5, false, false, 3⟩ }) { s with forces := [⟨0, 3, 0, 3, 8, 0, 5⟩, ⟨1, 7, 0, 0, 8, 0, 5⟩, ⟨0, 5, 0, 3, 8, 1, 5⟩] })) runState
def st10 : State :=
  (rq 0 (fun s => { s with twn := { s.twn with role := 1, partner := 2, reason := 0, peer := 0, plan := none }, base := { s.base with slot := 1, holdOut := true, seated := true, holdIn := false } })) runState
def st11 : State :=
  (rq 0 (fun s => { s with phc := { s.phc with timed := List.replicate 64 ⟨1, 1, 1, false, 0, 0, false⟩ }, twn := { s.twn with plan := some ⟨1, 2, none, 3, false⟩ } })) runState
def st12 : State :=
  (rq 0 (bl (fun b => { b with load := some (16, [1,0,0,0]), act := none }))) runState

theorem witness_ControllerOperationsEffects :
    (∃ (s : State) (n : Fin 64) (d : Desc), Ready s n.val 0x30 d ∧ wAt d.par 0 = 0 ∧ s.ble.running = true) ∧
    (∃ (s : State) (n : Fin 64) (d : Desc), Ready s n.val 0x30 d ∧ wAt d.par 0 = 0 ∧ s.ble.running = false) ∧
    (∃ (s : State) (n : Fin 64) (d : Desc), Ready s n.val 0x30 d ∧ wAt d.par 0 = 1 ∧ s.ble.running = true) ∧
    (∃ (s : State) (n : Fin 64) (d : Desc), Ready s n.val 0x30 d ∧ wAt d.par 0 = 1 ∧ s.ble.running = false ∧ s.img = none) ∧
    (∃ (s : State) (n : Fin 64) (d : Desc), Ready s n.val 0x30 d ∧ wAt d.par 0 = 1 ∧ s.ble.running = false ∧ ((s.img).toList).any (fun im => true) = true) ∧
    (∃ (s : State) (n : Fin 64) (d : Desc), Ready s n.val 0x30 d ∧ wAt d.par 0 = 2 ∧ s.ble.running = false ∧ ((s.img).toList).any (fun im => true) = true) ∧
    (∃ (s : State) (n : Fin 64) (d : Desc), Ready s n.val 0x30 d ∧ wAt d.par 0 = 3 ∧ s.ble.running = true ∧ (task s (wAt d.par 1).toNat).stopped = true) ∧
    (∃ (s : State) (n : Fin 64) (d : Desc), Ready s n.val 0x30 d ∧ wAt d.par 0 = 3 ∧ (s.ble.running = false ∨ (task s (wAt d.par 1).toNat).stopped = false)) ∧
    (∃ (s : State) (n : Fin 64) (d : Desc), Ready s n.val 0x30 d ∧ wAt d.par 0 = 4) :=
  ⟨⟨st0, 0, dsc st0 0 0x30 (0, [0], []) 0, by unfold Ready; decide +kernel⟩,
   ⟨st3, 0, dsc st3 0 0x30 (0, [0], []) 0, by unfold Ready; decide +kernel⟩,
   ⟨st0, 0, dsc st0 0 0x30 (0, [1], []) 0, by unfold Ready; decide +kernel⟩,
   ⟨st5, 0, dsc st5 0 0x30 (0, [1], []) 0, by unfold Ready; decide +kernel⟩,
   ⟨st3, 0, dsc st3 0 0x30 (0, [1], []) 0, by unfold Ready; decide +kernel⟩,
   ⟨st3, 0, dsc st3 0 0x30 (0, [2], []) 0, by unfold Ready; decide +kernel⟩,
   ⟨st6, 0, dsc st6 0 0x30 (0, [3, 4], []) 0, by unfold Ready; decide +kernel⟩,
   ⟨st0, 0, dsc st0 0 0x30 (0, [3, 4], []) 0, by unfold Ready; decide +kernel⟩,
   ⟨st0, 0, dsc st0 0 0x30 (0, [4], []) 0, by unfold Ready; decide +kernel⟩⟩

theorem witness_ProgramOperationsEffects :
    (∃ (s : State) (n : Fin 64) (d : Desc), Ready s n.val 0x31 d ∧ s.ble.act ≠ none) ∧
    (∃ (s : State) (n : Fin 64) (d : Desc), Ready s n.val 0x31 d ∧ s.ble.act = none ∧ wAt d.par 0 = 0 ∧ 4 * d.payload.length < (wAt d.par 1).toNat) ∧
    (∃ (s : State) (n : Fin 64) (d : Desc), Ready s n.val 0x31 d ∧ s.ble.act = none ∧ wAt d.par 0 ≠ 0 ∧ ((s.ble.load).toList).any (fun x => decide (x.1 = (wAt d.par 1).toNat) && decide (x.2.length = (wAt d.par 0).toNat) && decide (x.2.length + 4 * d.payload.length < x.1)) = true) ∧
    (∃ (s : State) (n : Fin 64) (d : Desc), Ready s n.val 0x31 d ∧ s.ble.act = none ∧ wAt d.par 0 ≠ 0 ∧ s.ble.load = none) ∧
    (∃ (s : State) (n : Fin 64) (d : Desc), Ready s n.val 0x31 d ∧ s.ble.act = none ∧ wAt d.par 0 = 0 ∧ (wAt d.par 1).toNat ≤ 4 * d.payload.length ∧ ((imageCheck s (wordsBytes d.payload)).toList).any (fun e => true) = true) ∧
    (∃ (s : State) (n : Fin 64) (d : Desc), Ready s n.val 0x31 d ∧ s.ble.act = none ∧ wAt d.par 0 = 0 ∧ (wAt d.par 1).toNat ≤ 4 * d.payload.length ∧ imageCheck s (wordsBytes d.payload) = none ∧ (s.twn.role ≠ 1 ∨ s.twn.pair < 3)) ∧
    (∃ (s : State) (n : Fin 64) (d : Desc), Ready s n.val 0x32 d ∧ ((actCheck s (bitOf (wAt d.par 0) 0)).toList).any (fun e => true) = true) ∧
    (∃ (s : State) (n : Fin 64) (d : Desc), Ready s n.val 0x32 d ∧ actCheck s (bitOf (wAt d.par 0) 0) = none ∧ s.ble.running = true) ∧
    (∃ (s : State) (n : Fin 64) (d : Desc), Ready s n.val 0x32 d ∧ actCheck s (bitOf (wAt d.par 0) 0) = none ∧ s.ble.running = false ∧ ((s.ble.inactive).toList).any (fun im => true) = true) ∧
    (∃ (s : State) (n : Fin 64) (d : Desc), Ready s n.val 0x33 d ∧ s.ble.act ≠ none) ∧
    (∃ (s : State) (n : Fin 64) (d : Desc), Ready s n.val 0x33 d ∧ s.ble.act = none) ∧
    (∃ (s : State) (n : Fin 64) (d : Desc), Ready s n.val 0x34 d ∧ ((s.img.bind (fun im => instById im d.target.toNat)).toList).any (fun i => decide (partOk (ringPart s n) i.part = true) && decide ((wAt d.par 0).toNat + (wAt d.par 1).toNat ≤ instWords i)) = true) ∧
    (∃ (s : State) (n : Fin 64) (d : Desc), Ready s n.val 0x34 d ∧ ((s.img.bind (fun im => instById im d.target.toNat)).toList).any (fun i => decide (partOk (ringPart s n) i.part = false)) = true) ∧
    (∃ (s : State) (n : Fin 64) (d : Desc), Ready s n.val 0x34 d ∧ s.img.bind (fun im => instById im d.target.toNat) = none) ∧
    (∃ (s : State) (n : Fin 64) (d : Desc), Ready s n.val 0x35 d ∧ s.ble.writes = [] ∧ s.ble.run = none ∧ s.ble.stack = [] ∧ ((s.img.bind (fun im => instById im d.target.toNat)).toList).any (fun i => decide (partOk (ringPart s n) i.part = true) && decide ((wAt d.par 0).toNat + (wAt d.par 1).toNat ≤ instWords i)) = true) :=
  ⟨⟨st7, 0, dsc st7 0 0x31 (0, [0, 448], bytesWords imgI) 0, by unfold Ready; decide +kernel⟩,
   ⟨st0, 0, dsc st0 0 0x31 (0, [0, 16], [1, 2]) 0, by unfold Ready; decide +kernel⟩,
   ⟨st12, 0, dsc st12 0 0x31 (0, [4, 16], [1, 2]) 0, by unfold Ready; decide +kernel⟩,
   ⟨st0, 0, dsc st0 0 0x31 (0, [8, 16], [3, 4]) 0, by unfold Ready; decide +kernel⟩,
   ⟨st0, 0, dsc st0 0 0x31 (0, [0, 8], [1, 2]) 0, by unfold Ready; decide +kernel⟩,
   ⟨st0, 0, dsc st0 0 0x31 (0, [0, 448], bytesWords imgI) 0, by unfold Ready; decide +kernel⟩,
   ⟨st0, 0, dsc st0 0 0x32 (0, [0], []) 0, by unfold Ready; decide +kernel⟩,
   ⟨st6, 0, dsc st6 0 0x32 (0, [0], []) 0, by unfold Ready; decide +kernel⟩,
   ⟨st4, 0, dsc st4 0 0x32 (0, [0], []) 0, by unfold Ready; decide +kernel⟩,
   ⟨st7, 0, dsc st7 0 0x33 (0, [], []) 0, by unfold Ready; decide +kernel⟩,
   ⟨st0, 0, dsc st0 0 0x33 (0, [], []) 0, by unfold Ready; decide +kernel⟩,
   ⟨st0, 0, dsc st0 0 0x34 (7, [0, 3], []) 0, by unfold Ready; decide +kernel⟩,
   ⟨st2, 0, dsc st2 0 0x34 (7, [0, 3], []) 0, by unfold Ready; decide +kernel⟩,
   ⟨st0, 0, dsc st0 0 0x34 (5, [0, 1], []) 0, by unfold Ready; decide +kernel⟩,
   ⟨st0, 0, dsc st0 0 0x35 (7, [0, 1, 5], []) 0, by unfold Ready; decide +kernel⟩⟩

theorem witness_ForceAndTimedOperationsEffects :
    (∃ (s : State) (n : Fin 64) (d : Desc), Ready s n.val 0x36 d ∧ forceType s (wAt d.par 0).toNat (wAt d.par 1).toNat (wAt d.par 2).toNat = none) ∧
    (∃ (s : State) (n : Fin 64) (d : Desc), Ready s n.val 0x36 d ∧ partOk (ringPart s n) (keyPart s (wAt d.par 0).toNat (wAt d.par 1).toNat) = true ∧ (wAt d.par 0 = 0 → (wAt d.par 1).toNat < 0xC0 → chMode s (wAt d.par 1).toNat ≠ 0) ∧ (s.forces.length < 512 ∨ s.forces.any (forceIs (wAt d.par 0).toNat (wAt d.par 1).toNat (wAt d.par 2).toNat) = true) ∧ (((forceType s (wAt d.par 0).toNat (wAt d.par 1).toNat (wAt d.par 2).toNat).toList).any (fun ty => decide (ty = (wAt d.par 3).toNat) && decide ((ty = 0 → (wAt d.par 4).toNat ≤ 1))) = true)) ∧
    (∃ (s : State) (n : Fin 64) (d : Desc), Ready s n.val 0x37 d ∧ wAt d.par 0 = 0xFF) ∧
    (∃ (s : State) (n : Fin 64) (d : Desc), Ready s n.val 0x37 d ∧ wAt d.par 0 ≠ 0xFF ∧ ((s.forces.find? (forceIs (wAt d.par 0).toNat (wAt d.par 1).toNat (wAt d.par 2).toNat)).toList).any (fun g => decide (partOk (ringPart s n) g.part = true)) = true) ∧
    (∃ (s : State) (n : Fin 64) (d : Desc), Ready s n.val 0x37 d ∧ wAt d.par 0 ≠ 0xFF ∧ s.forces.find? (forceIs (wAt d.par 0).toNat (wAt d.par 1).toNat (wAt d.par 2).toNat) = none) ∧
    (∃ (s : State) (n : Fin 64) (d : Desc), Ready s n.val 0x38 d) ∧
    (∃ (s : State) (n : Fin 64) (d : Desc), Ready s n.val 0x40 d ∧ (wAt d.par 0 = 1 ∨ wAt d.par 0 = 4 ∨ wAt d.par 0 = 7) ∧ s.phc.timed.length < 64 ∧ bitOf (wAt d.par 2) 0 = false ∧ absA s + 2048 ≤ ((wAt d.par 3).toNat + (wAt d.par 4).toNat * 2 ^ 32) % 2 ^ 60) ∧
    (∃ (s : State) (n : Fin 64) (d : Desc), Ready s n.val 0x40 d ∧ (wAt d.par 0 = 1 ∨ wAt d.par 0 = 4 ∨ wAt d.par 0 = 7) ∧ s.phc.timed.length < 64 ∧ bitOf (wAt d.par 2) 0 = true ∧ netLocked s = true ∧ ((toPhase s (((wAt d.par 3).toNat + (wAt d.par 4).toNat * 2 ^ 32) * 1000000000 + (wAt d.par 5).toNat)).toList).any (fun u => decide ((absA s : Int) + 2048 ≤ u)) = true) ∧
    (∃ (s : State) (n : Fin 64) (d : Desc), Ready s n.val 0x40 d ∧ (wAt d.par 0 = 1 ∨ wAt d.par 0 = 4 ∨ wAt d.par 0 = 7) ∧ 64 ≤ s.phc.timed.length) ∧
    (∃ (s : State) (n : Fin 64) (d : Desc), Ready s n.val 0x40 d ∧ (wAt d.par 0 = 1 ∨ wAt d.par 0 = 4 ∨ wAt d.par 0 = 7) ∧ s.phc.timed.length < 64 ∧ bitOf (wAt d.par 2) 0 = false ∧ ((wAt d.par 3).toNat + (wAt d.par 4).toNat * 2 ^ 32) % 2 ^ 60 < absA s + 2048) ∧
    (∃ (s : State) (n : Fin 64) (d : Desc), Ready s n.val 0x41 d ∧ s.twn.plan ≠ none) ∧
    (∃ (s : State) (n : Fin 64) (d : Desc), Ready s n.val 0x41 d ∧ s.twn.plan = none ∧ (s.twn.role ≠ 1 ∨ standbyClean s = false)) ∧
    (∃ (s : State) (n : Fin 64) (d : Desc), Ready s n.val 0x41 d ∧ s.twn.plan = none ∧ s.twn.role = 1 ∧ standbyClean s = true ∧ ((nextWindow s s.phc.cycle (s.phc.cycle + (if s.phc.phase = 0 then 1 else 2))).toList).any (fun c => true) = true) :=
  ⟨⟨st0, 0, dsc st0 0 0x36 (0, [0, 0x200, 0, 3, 9], []) 0, by unfold Ready; decide +kernel⟩,
   ⟨st0, 0, dsc st0 0 0x36 (0, [1, 7, 0, 0, 1], []) 0, by unfold Ready; decide +kernel⟩,
   ⟨st0, 0, dsc st0 0 0x37 (0, [0xFF], []) 0, by unfold Ready; decide +kernel⟩,
   ⟨st7, 0, dsc st7 0 0x37 (0, [0, 3], []) 0, by unfold Ready; decide +kernel⟩,
   ⟨st0, 0, dsc st0 0 0x37 (0, [0, 3], []) 0, by unfold Ready; decide +kernel⟩,
   ⟨st0, 0, dsc st0 0 0x38 (0, [0], []) 0, by unfold Ready; decide +kernel⟩,
   ⟨st0, 0, dsc st0 0 0x40 (0, [1, 5, 0, 0x10000000], []) 0, by unfold Ready; decide +kernel⟩,
   ⟨st1, 0, dsc st1 0 0x40 (0, [4, 0x30001, 1, 4000000, 0, 7], []) 0, by unfold Ready; decide +kernel⟩,
   ⟨st11, 0, dsc st11 0 0x40 (0, [4, 0x30001, 1, 4000000, 0, 7], []) 0, by unfold Ready; decide +kernel⟩,
   ⟨st0, 0, dsc st0 0 0x40 (0, [7, 5, 0, 3], []) 0, by unfold Ready; decide +kernel⟩,
   ⟨st11, 0, dsc st11 0 0x41 (0, [], []) 0, by unfold Ready; decide +kernel⟩,
   ⟨st0, 0, dsc st0 0 0x41 (0, [], []) 0, by unfold Ready; decide +kernel⟩,
   ⟨st10, 0, dsc st10 0 0x41 (0, [], []) 0, by unfold Ready; decide +kernel⟩⟩

end F18

namespace F19

def rg (k : Nat) : Ring := { Ring.reset with ctrl := w32 (0x200 + 4 * k + 0x1800), enabled := true, seq := 5, sqTail := 5, cqTail := 3, committed := 4 }
def rq (part : Nat) (f : State → State) (s : State) : State :=
  let s := runs s
  let s := rset { s with clk := { s.clk with good := 0x1FF, closing := 0, linkPcie := true, idle := 0 }, busMaster := true } oGateOpen 0xFFFFF
  let s := rset (rset s oRngVerUsed 1) (oRing 0) (w32 (0x201 + 4 * part))
  f { s with rings := [(0, rg part), (3, { rg 0 with cqTail := 9, phase := true, flight := [⟨4, 3, [], [], none, true, false⟩], done := 4, fetched := 5 })], base := { s.base with slot := 0 } }
def cmap : List Nat := [0x01, 0x00, 0, 0, 5, 0x7F, 0x7F, 0, 100, 0, 0, 0, 0, 0, 0, 0] ++ [0x12, 0x00, 0, 0, 6, 7, 8, 0, 100, 0, 0, 0, 0, 0, 0, 0] ++ (parDefault 0).drop 32
def mt (g : Mtr → Mtr) (s : State) : State :=
  { s with mtr := g { s.mtr with running := true, par := [(0, cmap)], sealOpen := true, opLog := [[5, 1, 2, 3, 4, 5, 6, 7]], legalLog := [[6, 1, 2, 3, 4, 5, 6, 7]], circs := [(0, { Circ.reset with tenant := 2, seq := 3, recs := [[3, 1, 2, 3, 4, 5, 0x200, 7], [2, 1, 2, 3, 4, 5, 0, 7]] })] } }
def sl (k : Nat) (a : Word) (p : Nat) : KeySlot := { KeySlot.reset with gen := 3, full := true, kind := k, attr := a, parent := p, parentGen := if p = 0 then 9 else 3, level := if p = 0 then 1 else 2, secret := beBytes 32 (12345 + k), pub := pubOf (12345 + k) }
def se (lc : Nat) (s : State) : State :=
  { s with sec := { s.sec with lc := lc, rootGen := 9, entropyOk := true, rootOk := true, root := List.replicate 32 7, debug := [], slots := [(2, sl 0 0x1FFFFFFF 0), (3, sl 1 0x1FFFFFFF 2), (4, { sl 2 0x0FFFFFFF 2 with pub := [] }), (5, { sl 0 0x1FFFFFFF 0 with parentGen := 1 }), (6, { sl 0 0x1FFFFFFF 0 with damaged := true }), (7, sl 0 0x01000004 0), (8, sl 0 0x11600004 0)] } }
def gct : List Word := let k := beBytes 32 12345; let r := gcmSeal k (List.replicate 12 9) [1,2,3,4] [5,6,7,8]; bytesWords (List.replicate 12 9 ++ [1,2,3,4] ++ r.1 ++ r.2)
def enr : List Word :=
  let h := leBytes 4 0x00040001 ++ leBytes 4 0
  let E := pubOf 777
  let z := ((ptMul 777 (ptOf (pubOf 12347))).map Prod.fst).getD 0
  let info := enrolText ++ leBytes 4 9 ++ leBytes 4 0 ++ leBytes 4 0x1FFFFFFF
  let r := gcmSeal (hkdf (List.replicate 32 0) (beBytes 32 z) info 32) (List.replicate 12 3) h (beBytes 32 4242)
  bytesWords (h ++ E ++ List.replicate 12 3 ++ r.1 ++ r.2)
def st0 : State :=
  (fun s => rq 0 (se 1) (mt id s)) runState
def st1 : State :=
  (fun s => rq 2 (se 1) (mt id s)) runState
def st2 : State :=
  (fun s => rq 0 (se 2) (mt (fun m => { m with running := false }) s)) runState
def st3 : State :=
  (rq 0 (se 3)) runState
def st5 : State :=
  (fun s => rq 0 (fun s => let s := se 1 s; { s with sec := { s.sec with entropyOk := false } }) s) runState

theorem witness_MeteringAndRecorderOperationsEffects :
    (∃ (s : State) (n : Fin 64) (d : Desc), Ready s n.val 0x50 d ∧ s.mtr.running = true ∧ partOk (ringPart s n) (billPart s (bitOf d.target 0) (fld d.target 7 1)) = true) ∧
    (∃ (s : State) (n : Fin 64) (d : Desc), Ready s n.val 0x50 d ∧ s.mtr.running = true ∧ partOk (ringPart s n) (billPart s (bitOf d.target 0) (fld d.target 7 1)) = false) ∧
    (∃ (s : State) (n : Fin 64) (d : Desc), Ready s n.val 0x50 d ∧ s.mtr.running = false) ∧
    (∃ (s : State) (n : Fin 64) (d : Desc), Ready s n.val 0x51 d ∧ s.mtr.running = false) ∧
    (∃ (s : State) (n : Fin 64) (d : Desc), Ready s n.val 0x52 d ∧ s.mtr.running = false) ∧
    (∃ (s : State) (n : Fin 64) (d : Desc), Ready s n.val 0x53 d ∧ s.mtr.running = false) ∧
    (∃ (s : State) (n : Fin 64) (d : Desc), Ready s n.val 0x54 d ∧ s.mtr.running = false) ∧
    (∃ (s : State) (n : Fin 64) (d : Desc), Ready s n.val 0x51 d ∧ s.mtr.running = true ∧ (((if wAt d.par 0 = 0 then (circ s d.target.toNat).recs.head? else findInterval s d.target.toNat (wAt d.par 0))).toList).any (fun r => decide (partOk (ringPart s n) (fld (wAt r 6) 12 8) = true) && decide (4 * r.length + 4 ≤ d.len.toNat)) = true) ∧
    (∃ (s : State) (n : Fin 64) (d : Desc), Ready s n.val 0x52 d ∧ s.mtr.running = true ∧ findLog s (wAt d.par 0) = none) ∧
    (∃ (s : State) (n : Fin 64) (d : Desc), Ready s n.val 0x52 d ∧ s.mtr.running = true ∧ ((findLog s (wAt d.par 0)).toList).any (fun r => decide (4 * r.length + 4 ≤ d.len.toNat)) = true) ∧
    (∃ (s : State) (n : Fin 64) (d : Desc), Ready s n.val 0x53 d ∧ s.mtr.running = true ∧ (wAt d.par 1).toNat < blockLen (wAt d.par 0).toNat) ∧
    (∃ (s : State) (n : Fin 64) (d : Desc), Ready s n.val 0x54 d ∧ s.mtr.running = true) ∧
    (∃ (s : State) (n : Fin 64) (d : Desc), Ready s n.val 0x58 d ∧ ([recsFrom s (ringPart s n) (wAt d.par 0) (wAt d.par 1).toNat]).any (fun l => decide (4 * l.flatten.length + 4 ≤ d.len.toNat)) = true) :=
  ⟨⟨st0, 0, dsc st0 0 0x50 (0, [], []) 0, by unfold Ready; decide +kernel⟩,
   ⟨st1, 0, dsc st1 0 0x50 (2, [], []) 0, by unfold Ready; decide +kernel⟩,
   ⟨st2, 0, dsc st2 0 0x50 (0, [], []) 0, by unfold Ready; decide +kernel⟩,
   ⟨st2, 0, dsc st2 0 0x51 (0, [0], []) 0, by unfold Ready; decide +kernel⟩,
   ⟨st2, 0, dsc st2 0 0x52 (0, [5], []) 0, by unfold Ready; decide +kernel⟩,
   ⟨st2, 0, dsc st2 0 0x53 (0, [0, 0], []) 0, by unfold Ready; decide +kernel⟩,
   ⟨st2, 0, dsc st2 0 0x54 (0, [3], []) 0, by unfold Ready; decide +kernel⟩,
   ⟨st0, 0, dsc st0 0 0x51 (0, [0], []) 0, by unfold Ready; decide +kernel⟩,
   ⟨st0, 0, dsc st0 0 0x52 (0, [7], []) 0, by unfold Ready; decide +kernel⟩,
   ⟨st0, 0, dsc st0 0 0x52 (0, [5], []) 0, by unfold Ready; decide +kernel⟩,
   ⟨st0, 0, dsc st0 0 0x53 (0, [0, 0], []) 0, by unfold Ready; decide +kernel⟩,
   ⟨st0, 0, dsc st0 0 0x54 (0, [3], []) 0, by unfold Ready; decide +kernel⟩,
   ⟨st0, 0, dsc st0 0 0x58 (0, [0, 4], []) 0, by unfold Ready; decide +kernel⟩⟩

theorem witness_KeyOperationsEffects :
    (∃ (s : State) (n : Fin 64) (d : Desc), Ready s n.val 0x60 d ∧ ((newFault s (ringPart s n) d.target.toNat (wAt d.par 0).toNat (wAt d.par 1) false).toList).any (fun e => true) = true) ∧
    (∃ (s : State) (n : Fin 64) (d : Desc), Ready s n.val 0x60 d ∧ newFault s (ringPart s n) d.target.toNat (wAt d.par 0).toNat (wAt d.par 1) false = none ∧ s.sec.entropyOk = false) ∧
    (∃ (s : State) (n : Fin 64) (d : Desc), Ready s n.val 0x60 d ∧ newFault s (ringPart s n) d.target.toNat (wAt d.par 0).toNat (wAt d.par 1) false = none ∧ s.sec.entropyOk = true ∧ wAt d.par 2 = 0) ∧
    (∃ (s : State) (n : Fin 64) (d : Desc), Ready s n.val 0x60 d ∧ newFault s (ringPart s n) d.target.toNat (wAt d.par 0).toNat (wAt d.par 1) false = none ∧ s.sec.entropyOk = true ∧ wAt d.par 2 ≠ 0) ∧
    (∃ (s : State) (n : Fin 64) (d : Desc), Ready s n.val 0x61 d ∧ newFault s (ringPart s n) d.target.toNat (wAt d.par 0).toNat (wAt d.par 1) true = none) ∧
    (∃ (s : State) (n : Fin 64) (d : Desc), Ready s n.val 0x62 d ∧ s.sec.lc ≠ 4 ∧ keyFault s (ringPart s n) d.target.toNat = none ∧ (ringPart s n = 0 ∨ (keySlot s d.target.toNat).attr &&& 0x1FFFF = oneBit (ringPart s n))) ∧
    (∃ (s : State) (n : Fin 64) (d : Desc), Ready s n.val 0x62 d ∧ s.sec.lc ≠ 4 ∧ ((keyFault s (ringPart s n) d.target.toNat).toList).any (fun e => true) = true) ∧
    (∃ (s : State) (n : Fin 64) (d : Desc), Ready s n.val 0x63 d ∧ (d.payload.drop 8).all (· == 0) = true ∧ s.sec.lc ≠ 3 ∧ s.sec.lc ≠ 4 ∧ keyFault s (ringPart s n) d.target.toNat = none ∧ s.sec.entropyOk = true) ∧
    (∃ (s : State) (n : Fin 64) (d : Desc), Ready s n.val 0x63 d ∧ (d.payload.drop 8).all (· == 0) = true ∧ (s.sec.lc = 3 ∨ s.sec.lc = 4)) ∧
    (∃ (s : State) (n : Fin 64) (d : Desc), Ready s n.val 0x64 d ∧ fld (wAt d.payload 0) 7 0 = 1 ∧ fld (wAt d.payload 0) 15 8 ≤ 2 ∧ fld (wAt d.payload 0) 31 24 = 0 ∧ wAt d.payload 1 = 0 ∧ newFault s (ringPart s n) d.target.toNat (wAt d.par 0).toNat (wAt d.par 1) false = none ∧ ((unwrapFault s (fld (wAt d.payload 0) 23 16)).toList).any (fun e => true) = true) ∧
    (∃ (s : State) (n : Fin 64) (d : Desc), Ready s n.val 0x64 d ∧ fld (wAt d.payload 0) 7 0 = 1 ∧ fld (wAt d.payload 0) 15 8 ≤ 2 ∧ fld (wAt d.payload 0) 31 24 = 0 ∧ wAt d.payload 1 = 0 ∧ newFault s (ringPart s n) d.target.toNat (wAt d.par 0).toNat (wAt d.par 1) false = none ∧ unwrapFault s (fld (wAt d.payload 0) 23 16) = none ∧ unwrapKey (beNat (keySlot s (fld (wAt d.payload 0) 23 16)).secret) (Flight.mk 0 0 (descOf 0x64 d) d.payload none false false) = none) ∧
    (∃ (s : State) (n : Fin 64) (d : Desc), Ready s n.val 0x64 d ∧ fld (wAt d.payload 0) 7 0 = 1 ∧ fld (wAt d.payload 0) 15 8 ≤ 2 ∧ fld (wAt d.payload 0) 31 24 = 0 ∧ wAt d.payload 1 = 0 ∧ newFault s (ringPart s n) d.target.toNat (wAt d.par 0).toNat (wAt d.par 1) false = none ∧ unwrapFault s (fld (wAt d.payload 0) 23 16) = none ∧ ((unwrapKey (beNat (keySlot s (fld (wAt d.payload 0) 23 16)).secret) (Flight.mk 0 0 (descOf 0x64 d) d.payload none false false)).toList).any (fun k => true) = true) ∧
    (∃ (s : State) (n : Fin 64) (d : Desc), Ready s n.val 0x65 d ∧ wAt d.par 0 = 0 ∧ s.sec.lc ≠ 4 ∧ keyFault s (ringPart s n) d.target.toNat = none ∧ (keySlot s d.target.toNat).kind = 0) ∧
    (∃ (s : State) (n : Fin 64) (d : Desc), Ready s n.val 0x65 d ∧ wAt d.par 0 = 1 ∧ s.sec.lc ≠ 4 ∧ keyFault s (ringPart s n) d.target.toNat = none ∧ (keySlot s d.target.toNat).kind = 0 ∧ gcmOpen (keySlot s d.target.toNat).secret ((wordsBytes d.payload).take 12) (((wordsBytes d.payload).drop 12).take (wAt d.par 1).toNat) (((wordsBytes d.payload).drop (12 + (wAt d.par 1).toNat)).take (4 * d.payload.length - 28 - (wAt d.par 1).toNat)) ((wordsBytes d.payload).drop (12 + (wAt d.par 1).toNat + (4 * d.payload.length - 28 - (wAt d.par 1).toNat))) = none) ∧
    (∃ (s : State) (n : Fin 64) (d : Desc), Ready s n.val 0x65 d ∧ wAt d.par 0 = 1 ∧ s.sec.lc ≠ 4 ∧ keyFault s (ringPart s n) d.target.toNat = none ∧ (keySlot s d.target.toNat).kind = 0 ∧ ((gcmOpen (keySlot s d.target.toNat).secret ((wordsBytes d.payload).take 12) (((wordsBytes d.payload).drop 12).take (wAt d.par 1).toNat) (((wordsBytes d.payload).drop (12 + (wAt d.par 1).toNat)).take (4 * d.payload.length - 28 - (wAt d.par 1).toNat)) ((wordsBytes d.payload).drop (12 + (wAt d.par 1).toNat + (4 * d.payload.length - 28 - (wAt d.par 1).toNat)))).toList).any (fun p => true) = true) ∧
    (∃ (s : State) (n : Fin 64) (d : Desc), Ready s n.val 0x66 d ∧ s.sec.lc ≠ 4 ∧ keyFault s (ringPart s n) d.target.toNat = none ∧ (keySlot s d.target.toNat).kind ≠ 1) ∧
    (∃ (s : State) (n : Fin 64) (d : Desc), Ready s n.val 0x66 d ∧ s.sec.lc ≠ 4 ∧ keyFault s (ringPart s n) d.target.toNat = none ∧ (keySlot s d.target.toNat).kind = 1) ∧
    (∃ (s : State) (n : Fin 64) (d : Desc), Ready s n.val 0x67 d ∧ d.target = 0) ∧
    (∃ (s : State) (n : Fin 64) (d : Desc), Ready s n.val 0x67 d ∧ d.target = 1) ∧
    (∃ (s : State) (n : Fin 64) (d : Desc), Ready s n.val 0x67 d ∧ 2 ≤ d.target.toNat ∧ ((keySlot s d.target.toNat).full = true → (keySlot s d.target.toNat).damaged = false → ringInvokes s (ringPart s n) (keySlot s d.target.toNat) = true)) :=
  ⟨⟨st0, 0, dsc st0 0 0x60 (9, [5, 1, 0], []) 0, by unfold Ready; decide +kernel⟩,
   ⟨st5, 0, dsc st5 0 0x60 (9, [0, 0x1FFFFFFF, 0], []) 0, by unfold Ready; decide +kernel⟩,
   ⟨st0, 0, dsc st0 0 0x60 (9, [0, 0x1FFFFFFF, 0], []) 0, by unfold Ready; decide +kernel⟩,
   ⟨st0, 0, dsc st0 0 0x60 (9, [2, 0x0FFFFFFF, 1], []) 0, by unfold Ready; decide +kernel⟩,
   ⟨st0, 0, dsc st0 0 0x61 (9, [0, 0x1FFFFFFF], []) 0, by unfold Ready; decide +kernel⟩,
   ⟨st0, 0, dsc st0 0 0x62 (2, [], []) 0, by unfold Ready; decide +kernel⟩,
   ⟨st0, 0, dsc st0 0 0x62 (5, [], []) 0, by unfold Ready; decide +kernel⟩,
   ⟨st0, 0, dsc st0 0 0x63 (2, [], (upto 46).map (fun j => if j < 8 then w32 j else 0)) 0, by unfold Ready; decide +kernel⟩,
   ⟨st3, 0, dsc st3 0 0x63 (2, [], (upto 46).map (fun j => if j < 8 then w32 j else 0)) 0, by unfold Ready; decide +kernel⟩,
   ⟨st0, 0, dsc st0 0 0x64 (9, [0, 0x1FFFFFFF], 0x00020001 :: 0 :: (upto 31).map w32) 0, by unfold Ready; decide +kernel⟩,
   ⟨st0, 0, dsc st0 0 0x64 (9, [0, 0x1FFFFFFF], 0x00040001 :: 0 :: (upto 31).map w32) 0, by unfold Ready; decide +kernel⟩,
   ⟨st0, 0, dsc st0 0 0x64 (9, [0, 0x1FFFFFFF], enr) 0, by unfold Ready; decide +kernel⟩,
   ⟨st0, 0, dsc st0 0 0x65 (2, [0, 4], (upto 12).map w32) 0, by unfold Ready; decide +kernel⟩,
   ⟨st0, 0, dsc st0 0 0x65 (2, [1, 4], (upto 12).map w32) 0, by unfold Ready; decide +kernel⟩,
   ⟨st0, 0, dsc st0 0 0x65 (2, [1, 4], gct) 0, by unfold Ready; decide +kernel⟩,
   ⟨st0, 0, dsc st0 0 0x66 (2, [], []) 0, by unfold Ready; decide +kernel⟩,
   ⟨st0, 0, dsc st0 0 0x66 (3, [], []) 0, by unfold Ready; decide +kernel⟩,
   ⟨st0, 0, dsc st0 0 0x67 (0, [], []) 0, by unfold Ready; decide +kernel⟩,
   ⟨st0, 0, dsc st0 0 0x67 (1, [], []) 0, by unfold Ready; decide +kernel⟩,
   ⟨st0, 0, dsc st0 0 0x67 (3, [], []) 0, by unfold Ready; decide +kernel⟩⟩

end F19

namespace F20

def rg (k : Nat) : Ring := { Ring.reset with ctrl := w32 (0x200 + 4 * k + 0x1800), enabled := true, seq := 5, sqTail := 5, cqTail := 3, committed := 4 }
def rq (part : Nat) (f : State → State) (s : State) : State :=
  let s := runs s
  let s := rset { s with clk := { s.clk with good := 0x1FF, closing := 0, linkPcie := true, idle := 0 }, busMaster := true } oGateOpen 0xFFFFF
  let s := rset (rset s oRngVerUsed 1) (oRing 0) (w32 (0x201 + 4 * part))
  f { s with rings := [(0, rg part), (3, { rg 0 with cqTail := 9, phase := true, flight := [⟨4, 3, [], [], none, true, false⟩], done := 4, fetched := 5 })], base := { s.base with slot := 0 } }
def cn (g : Nat → Word) (f : CanPort → CanPort) (h : CanBuf → CanBuf) (s : State) : State :=
  let s := rset (rset s (oGateOpen) 0xFFFFF) 0xA0000 1
  let s := (upto 4).foldl (fun s p => (upto 3).foldl (fun s b => modCanBuf (rset s (oCanBuf p b) (g b)) p b h) (modCanPort (rset s (0xA0000 + 0x1000 * p) 1) p f)) s
  { s with img := none }
def et (f : EPort → EPort) (s : State) : State :=
  let s := (upto 2).foldl (fun s p => modPort (rset s (oPort p) 0x11) p (fun e => f { e with link := true, speed := 3, txq := [], rxq := [] })) s
  rset s oEthMacHi 0x10005
def up (f : Upd → Upd) (s : State) : State := { s with upd := f { s.upd with chunks := [], count := none, stage := 0 } }
def st0 : State :=
  (rq 0 id) runState
def st1 : State :=
  (fun s => rset (rq 0 id s) oGateOpen 0xFFFDF) runState
def st3 : State :=
  (rq 0 (up (fun u => { u with stage := 1, count := some 4, chunks := [(2, [1]), (3, [2])] }))) runState
def st4 : State :=
  (rq 0 (cn (fun b => w32 (1 + 2 * ((b + 1) % 2))) (fun c => { c with st := 0, fd := true }) (fun k => { k with tx := none, has := true }))) runState
def st5 : State :=
  (rq 0 (cn (fun b => w32 (3 - 2 * (b % 2))) (fun c => { c with st := 2, fd := false }) (fun k => { k with tx := none, has := false }))) runState
def st7 : State :=
  (rq 0 (fun s => cn (fun b => w32 (3 - 2 * (b % 2))) (fun c => { c with st := 0, fd := true }) (fun k => { k with tx := some ⟨1, false, false, false, [], false, 0, 9⟩ }) s)) runState
def st8 : State :=
  (rq 0 (et id)) runState
def st9 : State :=
  (rq 0 (fun s => et (fun e => { e with rxq := [⟨0, [1,2,3,4], 2, 77⟩, ⟨1, [1,2,3,4,5,6,7,8], 2, 78⟩] }) s)) runState
def st10 : State :=
  (rq 0 (up (fun u => { u with trial := true }))) runState
def st11 : State :=
  (rq 0 (up (fun u => { u with stage := 5 }))) runState
def st12 : State :=
  (rq 0 (up (fun u => { u with stage := 3, trial := false }))) runState
def st15 : State :=
  (rq 2 (cn (fun _ => 1) id id)) runState

theorem witness_NetworkOperationsEffects :
    (∃ (s : State) (n : Fin 64) (d : Desc), Ready s n.val 0x70 d ∧ partOk (ringPart s n) (canBufPart s (fld d.target 1 0) (fld d.target 7 2)) = true ∧ imageCan s (fld d.target 1 0) (fld d.target 7 2) = false ∧ bitOf (rget s (oCanBuf (fld d.target 1 0) (fld d.target 7 2))) 0 = true ∧ bitOf (rget s (oCanBuf (fld d.target 1 0) (fld d.target 7 2))) 1 = true ∧ bitOf (rget s (oCanBuf (fld d.target 1 0) (fld d.target 7 2))) 2 = false ∧ (canBuf s (fld d.target 1 0) (fld d.target 7 2)).tx = none ∧ (bitOf (wAt d.par 0) 30 = true → (canPort s (fld d.target 1 0)).fd = true) ∧ canOnBus s (fld d.target 1 0) = true ∧ (canPort s (fld d.target 1 0)).st ≠ 2) ∧
    (∃ (s : State) (n : Fin 64) (d : Desc), Ready s n.val 0x70 d ∧ partOk (ringPart s n) (canBufPart s (fld d.target 1 0) (fld d.target 7 2)) = true ∧ imageCan s (fld d.target 1 0) (fld d.target 7 2) = false ∧ (bitOf (rget s (oCanBuf (fld d.target 1 0) (fld d.target 7 2))) 0 = false ∨ bitOf (rget s (oCanBuf (fld d.target 1 0) (fld d.target 7 2))) 1 = false)) ∧
    (∃ (s : State) (n : Fin 64) (d : Desc), Ready s n.val 0x70 d ∧ partOk (ringPart s n) (canBufPart s (fld d.target 1 0) (fld d.target 7 2)) = true ∧ imageCan s (fld d.target 1 0) (fld d.target 7 2) = false ∧ bitOf (rget s (oCanBuf (fld d.target 1 0) (fld d.target 7 2))) 0 = true ∧ bitOf (rget s (oCanBuf (fld d.target 1 0) (fld d.target 7 2))) 1 = true ∧ bitOf (rget s (oCanBuf (fld d.target 1 0) (fld d.target 7 2))) 2 = false ∧ (canBuf s (fld d.target 1 0) (fld d.target 7 2)).tx ≠ none) ∧
    (∃ (s : State) (n : Fin 64) (d : Desc), Ready s n.val 0x71 d ∧ partOk (ringPart s n) (canBufPart s (fld d.target 1 0) (fld d.target 7 2)) = true ∧ bitOf (rget s (oCanBuf (fld d.target 1 0) (fld d.target 7 2))) 0 = true ∧ bitOf (rget s (oCanBuf (fld d.target 1 0) (fld d.target 7 2))) 1 = false ∧ (canBuf s (fld d.target 1 0) (fld d.target 7 2)).has = false) ∧
    (∃ (s : State) (n : Fin 64) (d : Desc), Ready s n.val 0x71 d ∧ partOk (ringPart s n) (canBufPart s (fld d.target 1 0) (fld d.target 7 2)) = true ∧ bitOf (rget s (oCanBuf (fld d.target 1 0) (fld d.target 7 2))) 0 = true ∧ bitOf (rget s (oCanBuf (fld d.target 1 0) (fld d.target 7 2))) 1 = false ∧ (canBuf s (fld d.target 1 0) (fld d.target 7 2)).has = true ∧ 4 * (bytesWords (canBuf s (fld d.target 1 0) (fld d.target 7 2)).bytes).length + 12 ≤ d.len.toNat) ∧
    (∃ (s : State) (n : Fin 64) (d : Desc), Ready s n.val 0x71 d ∧ partOk (ringPart s n) (canBufPart s (fld d.target 1 0) (fld d.target 7 2)) = false) ∧
    (∃ (s : State) (n : Fin 64) (d : Desc), Ready s n.val 0x72 d ∧ (canPort s (fld d.target 1 0)).st = 2 ∧ canEn s (fld d.target 1 0) = true) ∧
    (∃ (s : State) (n : Fin 64) (d : Desc), Ready s n.val 0x72 d ∧ ((canPort s (fld d.target 1 0)).st ≠ 2 ∨ canEn s (fld d.target 1 0) = false)) ∧
    (∃ (s : State) (n : Fin 64) (d : Desc), Ready s n.val 0x78 d ∧ max (4 * d.payload.length) 60 + 4 ≤ maxLen s (fld d.target 0 0) ∧ macValid s = true ∧ queueFill (eport s (fld d.target 0 0)) (fld d.target 3 1) + max (4 * d.payload.length) 60 ≤ 16384) ∧
    (∃ (s : State) (n : Fin 64) (d : Desc), Ready s n.val 0x78 d ∧ maxLen s (fld d.target 0 0) < max (4 * d.payload.length) 60 + 4) ∧
    (∃ (s : State) (n : Fin 64) (d : Desc), Ready s n.val 0x79 d ∧ popRx (fld d.target 4 1) (eport s (fld d.target 0 0)).rxq = none) ∧
    (∃ (s : State) (n : Fin 64) (d : Desc), Ready s n.val 0x79 d ∧ ((popRx (fld d.target 4 1) (eport s (fld d.target 0 0)).rxq).toList).any (fun x => true) = true) :=
  ⟨⟨st4, 0, dsc st4 0 0x70 (0, [0x20000005, 4, 9], []) 0, by unfold Ready; decide +kernel⟩,
   ⟨st0, 0, dsc st0 0 0x70 (0, [0x20000005, 4, 9], []) 0, by unfold Ready; decide +kernel⟩,
   ⟨st7, 0, dsc st7 0 0x70 (0, [0x20000005, 4, 9], []) 0, by unfold Ready; decide +kernel⟩,
   ⟨st5, 0, dsc st5 0 0x71 (4, [], []) 0, by unfold Ready; decide +kernel⟩,
   ⟨st4, 0, dsc st4 0 0x71 (4, [], []) 0, by unfold Ready; decide +kernel⟩,
   ⟨st15, 0, dsc st15 0 0x71 (0, [], []) 0, by unfold Ready; decide +kernel⟩,
   ⟨st5, 0, dsc st5 0 0x72 (0, [], []) 0, by unfold Ready; decide +kernel⟩,
   ⟨st0, 0, dsc st0 0 0x72 (0, [], []) 0, by unfold Ready; decide +kernel⟩,
   ⟨st8, 0, dsc st8 0 0x78 (0, [], [1,2,3,4,5,6,7,8]) 0, by unfold Ready; decide +kernel⟩,
   ⟨st0, 0, dsc st0 0 0x78 (9, [], (upto 500).map w32) 0, by unfold Ready; decide +kernel⟩,
   ⟨st0, 0, dsc st0 0 0x79 (0, [], []) 0, by unfold Ready; decide +kernel⟩,
   ⟨st9, 0, dsc st9 0 0x79 (0, [], []) 0, by unfold Ready; decide +kernel⟩⟩

theorem witness_UpdateOperationsEffects :
    (∃ (s : State) (n : Fin 64) (d : Desc), Ready s n.val 0x7C d ∧ blockUp s 5 = true ∧ (s.upd.stage = 2 ∨ s.upd.stage = 5)) ∧
    (∃ (s : State) (n : Fin 64) (d : Desc), Ready s n.val 0x7C d ∧ blockUp s 5 = true ∧ (s.upd.stage = 3 ∨ s.upd.stage = 4)) ∧
    (∃ (s : State) (n : Fin 64) (d : Desc), Ready s n.val 0x7C d ∧ blockUp s 5 = true ∧ (s.upd.stage = 0 ∨ s.upd.stage = 1) ∧ (wAt d.par 1).toNat ≤ (wAt d.par 0).toNat) ∧
    (∃ (s : State) (n : Fin 64) (d : Desc), Ready s n.val 0x7C d ∧ blockUp s 5 = true ∧ s.upd.stage = 0 ∧ s.upd.chunks = [] ∧ 0 < (wAt d.par 0).toNat ∧ (wAt d.par 0).toNat + 1 < (wAt d.par 1).toNat ∧ (wAt d.par 1).toNat ≤ 6144 ∧ d.payload.length = 1024) ∧
    (∃ (s : State) (n : Fin 64) (d : Desc), Ready s n.val 0x7C d ∧ blockUp s 5 = true ∧ s.upd.stage = 1 ∧ s.upd.count = some (wAt d.par 1).toNat ∧ (wAt d.par 0).toNat < (wAt d.par 1).toNat ∧ 2 ≤ (wAt d.par 1).toNat ∧ (wAt d.par 1).toNat ≤ 6144 ∧ chunkLenOk s (wAt d.par 0).toNat (wAt d.par 1).toNat (4 * d.payload.length) = true ∧ (alook s.upd.chunks (wAt d.par 0).toNat).isSome = true) ∧
    (∃ (s : State) (n : Fin 64) (d : Desc), Ready s n.val 0x7D d ∧ blockUp s 5 = true) ∧
    (∃ (s : State) (n : Fin 64) (d : Desc), Ready s n.val 0x7E d ∧ blockUp s 5 = true ∧ s.upd.trial = false) ∧
    (∃ (s : State) (n : Fin 64) (d : Desc), Ready s n.val 0x7E d ∧ blockUp s 5 = true ∧ s.upd.trial = true) ∧
    (∃ (s : State) (n : Fin 64) (d : Desc), Ready s n.val 0x7F d ∧ blockUp s 5 = true ∧ s.upd.stage = 5) ∧
    (∃ (s : State) (n : Fin 64) (d : Desc), Ready s n.val 0x7F d ∧ blockUp s 5 = true ∧ s.upd.stage ≠ 5) ∧
    (∃ (s : State) (n : Fin 64) (d : Desc), Ready s n.val 0x7C d ∧ blockUp s 5 = false) :=
  ⟨⟨st11, 0, dsc st11 0 0x7c (0, [3, 4], (upto 1024).map w32) 0, by unfold Ready; decide +kernel⟩,
   ⟨st12, 0, dsc st12 0 0x7c (0, [3, 4], (upto 1024).map w32) 0, by unfold Ready; decide +kernel⟩,
   ⟨st0, 0, dsc st0 0 0x7c (0, [7, 4], (upto 12).map w32) 0, by unfold Ready; decide +kernel⟩,
   ⟨st0, 0, dsc st0 0 0x7c (0, [2, 4], (upto 1024).map w32) 0, by unfold Ready; decide +kernel⟩,
   ⟨st3, 0, dsc st3 0 0x7c (0, [3, 4], (upto 1024).map w32) 0, by unfold Ready; decide +kernel⟩,
   ⟨st0, 0, dsc st0 0 0x7d (0, [], []) 0, by unfold Ready; decide +kernel⟩,
   ⟨st0, 0, dsc st0 0 0x7e (0, [], []) 0, by unfold Ready; decide +kernel⟩,
   ⟨st10, 0, dsc st10 0 0x7e (0, [], []) 0, by unfold Ready; decide +kernel⟩,
   ⟨st11, 0, dsc st11 0 0x7f (0, [], []) 0, by unfold Ready; decide +kernel⟩,
   ⟨st0, 0, dsc st0 0 0x7f (0, [], []) 0, by unfold Ready; decide +kernel⟩,
   ⟨st1, 0, dsc st1 0 0x7c (0, [3, 4], (upto 1024).map w32) 0, by unfold Ready; decide +kernel⟩⟩

end F20

namespace F21

def up (f : Upd → Upd) (s : State) : State :=
  let s := rset (rset { runs s with clk := { (runs s).clk with good := 0x1FF, closing := 0, idle := 0, linkPcie := true }, memEnable := true } oGateOpen 0xFFFFF) oUpdEvent 0
  { s with upd := f { s.upd with chunks := [(0, [0x53, 0x4B, 0x46, 0x57, 1, 0, 0])], count := some 2, stage := 3, trial := false, fallback := false }, sec := { s.sec with locked := true, rootOk := true, sat := satWritten } }
def hk (k : Nat) : List Nat := [0x53, 0x4B, 0x46, 0x57, 1, 0, k, 0] ++ List.replicate 4088 0
def frg (s : State) : State := rset (rset (rset (rset (rset s oUpdCtrl 2) oEthMacLo 5) oEthMacHi 0x10000) 0xD0024 9) 0xD0028 0
def st0 : State :=
  (up id) runState
def st1 : State :=
  (fun s => rset (up (fun u => { u with stage := 2 }) s) oUpdCtrl 0x1) runState
def st2 : State :=
  (fun s => let s := rset (rset (up (fun u => { u with chunks := [(0, hk 0)] }) s) oUpdCtrl 0) oPwrStatus 2; { s with rtc := { s.rtc with batLow := false }, twn := { s.twn with pair := 0, role := 0 } }) runState
def st3 : State :=
  (fun s => let s := rset (rset (up (fun u => { u with chunks := [(0, hk 1)] }) s) oUpdCtrl 0) oPwrStatus 2; { s with mtr := { s.mtr with running := true, sealOpen := true, legalLog := [] }, twn := { s.twn with role := 0 } }) runState
def st4 : State :=
  (fun s => let s := up (fun u => { u with trial := true, cartSw := some [1] }) s; { s with rtc := { s.rtc with optime := 10 ^ 9 }, mtr := { s.mtr with running := true, legalLog := [] }, twn := { s.twn with role := 0 } }) runState
def st5 : State :=
  (fun s => let s := up (fun u => { u with trial := true, fallback := true, leaving := 2, askAt := 0 }) s; { s with up := 10 ^ 12, twn := { s.twn with plan := none, role := 0 } }) runState
def st6 : State :=
  (fun s => frg (up (fun u => { u with stage := 0, count := none, parts := [], chunks := [], fragAt := some s.up }) s)) runState
def st9 : State :=
  (fun s => let s := up id s; { s with sec := { s.sec with entropyOk := true, remaskDue := true, lc := 4, lcFrom := 1 } }) runState
def st10 : State :=
  (fun s => let s := up id s; { s with up := 10 ^ 13, sec := { s.sec with maskAt := 7, entropyOk := true, locked := false, remaskDue := true } }) runState
def st14 : State :=
  (fun s => let s := frg (up id s); { s with up := 10 ^ 13, upd := { s.upd with reportAt := 1, fragAt := some (10 ^ 13 - 5) } }) runState
def st15 : State :=
  (fun s => let s := rset (rset (up (fun u => { u with chunks := [(0, hk 0)], peerRel := 0 }) s) oUpdCtrl 0) oPwrStatus 2; { s with base := { s.base with slot := 1, seatLow := true, seated := true }, rtc := { s.rtc with batLow := false }, phc := { s.phc with cycle := 40 }, twn := { s.twn with pair := 4, role := 1 } }) runState
def st16 : State :=
  (fun s => let s := up (fun u => { u with trial := true }) s; { s with base := { s.base with slot := 1, seatLow := true, seated := true }, rtc := { s.rtc with optime := 10 ^ 9 }, twn := { s.twn with pair := 4, role := 1 } }) runState
def st19 : State :=
  (fun s => rset (up id s) oGateOpen 0) runState
def st20 : State :=
  (fun s => let s := up id s; { s with rings := [(0, { Ring.reset with ctrl := w32 (0x200 + 0x1800), enabled := true })] }) runState

theorem witness_SecurityCommandsEffects :
    (∃ (s : State) (v : Word), Reaches s 0 ∧ bitOf v 0 = true) ∧
    (∃ (s : State) (v : Word), Reaches s 0 ∧ bitOf v 0 = false) ∧
    (∃ (s : State) (v : Word), Reaches s 0 ∧ (fld v 2 0 = 7 ∨ lcAllowed s (fld v 2 0) = true)) ∧
    (∃ (s : State) (v : Word), Reaches s 0 ∧ fld v 2 0 ≠ 7 ∧ lcAllowed s (fld v 2 0) = false) ∧
    (∃ (s : State), s.clk.alive = true ∧ s.sec.rootOk = true ∧ s.sec.maskAt + 600000000000 ≤ s.up ∧ s.sec.entropyOk = true) ∧
    (∃ (s : State), s.clk.alive = true ∧ s.sec.rootOk = true ∧ s.sec.maskAt + 600000000000 ≤ s.up ∧ s.sec.entropyOk = false) ∧
    (∃ (s : State), s.clk.alive = true) ∧
    (∃ (s : State), s.clk.alive = true ∧ s.sec.remaskDue = true) ∧
    (∃ (s : State), s.clk.alive = true ∧ s.sec.remaskDue = false) :=
  ⟨⟨runState, 0x00000001#32, by unfold Reaches; decide +kernel⟩,
   ⟨runState, 0x00000000#32, by unfold Reaches; decide +kernel⟩,
   ⟨runState, 0x00000003#32, by unfold Reaches; decide +kernel⟩,
   ⟨runState, 0x00000000#32, by unfold Reaches; decide +kernel⟩,
   ⟨st10, by decide +kernel⟩,
   ⟨st5, by decide +kernel⟩,
   ⟨runState, by decide +kernel⟩,
   ⟨st9, by decide +kernel⟩,
   ⟨runState, by decide +kernel⟩⟩

theorem witness_UpdateCommandsEffects :
    (∃ (s : State), s.clk.alive = true ∧ blockUp s 5 = true ∧ s.upd.stage = 2) ∧
    (∃ (s : State) (a : Bool), Reaches s 5 ∧ installErr s a ≠ 0) ∧
    (∃ (s : State) (a : Bool), Reaches s 5 ∧ installErr s a = 0 ∧ (holdsTwin s = true → s.twn.pair ≠ 4 ∧ s.twn.pair ≠ 5)) ∧
    (∃ (s : State) (a : Bool), Reaches s 5 ∧ installErr s a = 0 ∧ holdsTwin s = true ∧ s.twn.pair = 4 ∧ ((nextWindow s s.phc.cycle (s.phc.cycle + (if s.phc.phase = 0 then 1 else 2))).toList).any (fun c => true) = true) ∧
    (∃ (s : State), Reaches s 5 ∧ s.upd.trial = true ∧ s.upd.fallback = false ∧ (holdsTwin s = true → s.twn.pair ≠ 4 ∧ s.twn.pair ≠ 5)) ∧
    (∃ (s : State), Reaches s 5 ∧ s.upd.trial = true ∧ s.upd.fallback = false ∧ holdsTwin s = true ∧ s.twn.pair = 4 ∧ ((nextWindow s s.phc.cycle (s.phc.cycle + (if s.phc.phase = 0 then 1 else 2))).toList).any (fun c => true) = true) ∧
    (∃ (s : State), Reaches s 5 ∧ s.upd.trial = false) ∧
    (∃ (s : State), s.clk.alive = true ∧ s.upd.trial = true ∧ trialEnd s ≤ s.rtc.optime ∧ s.upd.fallback = false ∧ (holdsTwin s = true → s.twn.pair ≠ 4 ∧ s.twn.pair ≠ 5)) ∧
    (∃ (s : State), s.clk.alive = true ∧ s.upd.fallback = true ∧ s.upd.leaving = 2 ∧ s.twn.plan = none ∧ s.upd.askAt + 60000000000 ≤ s.up ∧ (holdsTwin s = true → s.twn.pair ≠ 4 ∧ s.twn.pair ≠ 5)) ∧
    (∃ (s : State), Reaches s 5 ∧ cartErr s ≠ 0) ∧
    (∃ (s : State), Reaches s 5 ∧ cartErr s = 0) ∧
    (∃ (s : State) (v : Word), s.upd.cartSw ≠ none ∧ s.mtr.running = true) ∧
    (∃ (s : State) (v : Word), s.upd.cartSw ≠ none ∧ s.mtr.running = true ∧ fld v 15 0 ≠ fld s.mtr.swVer 15 0 ∧ s.mtr.legalLog.length < 512) ∧
    (∃ (s : State) (idx : Word) (count : Word) (frag : Fin 256) (len : Word) (data : List Nat), blockUp s 5 = true ∧ bitOf (rget s oUpdCtrl) 1 = true ∧ macValid s = true ∧ frag.val < 3 ∧ 1440 * frag.val < len.toNat ∧ len.toNat ≤ 4096 ∧ data.length = fragLen len.toNat frag.val ∧ s.upd.parts = [] ∧ 1440 < len.toNat) ∧
    (∃ (s : State) (dst : BitVec 48) (src : BitVec 48) (idx : Word) (count : Word) (frag : Fin 256) (len : Word) (data : List Nat), blockUp s 5 = true ∧ (dst.toNat ≠ ownMac s ∨ src.toNat ≠ flSrc s)) ∧
    (∃ (s : State), s.upd.reportAt + 1000000000 ≤ s.up ∧ blockUp s 5 = true ∧ bitOf (rget s oUpdCtrl) 1 = true ∧ ((s.upd.fragAt).toList).any (fun x => decide (s.up ≤ x + 10000000000)) = true) :=
  ⟨⟨st1, by decide +kernel⟩,
   ⟨runState, true, by unfold Reaches; decide +kernel⟩,
   ⟨st2, true, by unfold Reaches; decide +kernel⟩,
   ⟨st15, true, by unfold Reaches; decide +kernel⟩,
   ⟨st4, by unfold Reaches; decide +kernel⟩,
   ⟨st16, by unfold Reaches; decide +kernel⟩,
   ⟨runState, by unfold Reaches; decide +kernel⟩,
   ⟨st4, by decide +kernel⟩,
   ⟨st5, by decide +kernel⟩,
   ⟨runState, by unfold Reaches; decide +kernel⟩,
   ⟨st3, by unfold Reaches; decide +kernel⟩,
   ⟨st4, 0, by decide +kernel⟩,
   ⟨st4, 0x00000001#32, by decide +kernel⟩,
   ⟨st6, 0, 0, 0, 0x00000bb8#32, List.replicate 1440 7, by decide +kernel⟩,
   ⟨runState, 0x000000000000#48, 0x000000000001#48, 0, 0, 0, 0, [], by decide +kernel⟩,
   ⟨st14, by decide +kernel⟩⟩

theorem witness_RegisterAccessesEffects :
    (∃ (s : State) (o : Nat) (width : Nat) (v : Nat), s.clk.linkPcie = true ∧ s.memEnable = true ∧ (width ≠ 4 ∧ width ≠ 8 ∨ o % 4 ≠ 0)) ∧
    (∃ (s : State) (o : Nat) (width : Nat) (v : Nat), (s.clk.linkPcie = false ∨ s.memEnable = false)) ∧
    (∃ (s : State) (k : Fin 229376) (v : Word), s.clk.linkPcie = true ∧ s.memEnable = true ∧ k.val * 4 < 0xE0000 ∧ ((gateOf (k.val * 4)).toList).any (fun g => decide (blockUp s g = false)) = true) ∧
    (∃ (s : State) (k : Fin 229376) (v : Word), s.clk.linkPcie = true ∧ s.memEnable = true ∧ k.val * 4 < 0xE0000 ∧ blockAnswers s (k.val * 4) true = true ∧ satAllows s 4 (0x80000000 + k.val * 4) true = true) ∧
    (∃ (s : State) (k : Fin 229376) (v : Word), k.val * 4 < 0xE0000 ∧ blockAnswers s (k.val * 4) true = true ∧ satAllows s 0 (0x80000000 + k.val * 4) true = true) ∧
    (∃ (s : State) (k : Fin 256) (v : Word), s.sec.locked = false ∧ blockAnswers s 0xC0100 true = true) ∧
    (∃ (s : State) (k : Fin 256) (v : Word), s.sec.locked = true ∧ blockAnswers s 0xC0100 true = true) ∧
    (∃ (s : State) (k : Fin 229376) (v : Word), (k.val * 4 / 0x10000 = 1 ∨ k.val * 4 / 0x10000 = 3) ∧ s.clk.linkPcie = true ∧ s.memEnable = true ∧ blockAnswers s (k.val * 4) true = true ∧ satAllows s 4 (0x80000000 + k.val * 4) true = true ∧ (k.val * 4 / 0x10000 = 1 → k.val * 4 % 0x10000 ≠ 0 ∧ k.val * 4 % 0x10000 ≠ 0x10 ∧ k.val * 4 % 0x10000 ≠ 0x30) ∧ (k.val * 4 / 0x10000 = 3 → k.val * 4 % 0x10000 < 0xC000 ∧ 0x100 ≤ k.val * 4 % 0x1000)) ∧
    (∃ (s : State) (n : Fin 64) (v : Word), s.clk.linkPcie = true ∧ s.memEnable = true ∧ Reaches s 4 ∧ (ring s n).enabled = true ∧ isEventPair s n = false ∧ fld v 11 0 < ringSize s n) ∧
    (∃ (s : State) (n : Fin 64) (v : Word), s.clk.linkPcie = true ∧ s.memEnable = true ∧ Reaches s 4 ∧ (ring s n).enabled = true ∧ fld v 11 0 < ringSize s n ∧ isEventPair s n = false ∧ (fld v 11 0 + ringSize s n - (ring s n).cqHead) % ringSize s n ≤ ((ring s n).cqTail + ringSize s n - (ring s n).cqHead) % ringSize s n) ∧
    (∃ (s : State) (v : Nat), s.clk.linkPcie = true ∧ v.testBit 2 = true) ∧
    (∃ (s : State) (v : Nat), s.clk.linkPcie = true ∧ v.testBit 2 = false) ∧
    (∃ (s : State) (k : Fin 229376) (v : Word), s.clk.linkPcie = true ∧ s.memEnable = true ∧ k.val * 4 < 0xE0000 ∧ blockAnswers s (k.val * 4) true = true ∧ satAllows s 4 (0x80000000 + k.val * 4) true = false) ∧
    (∃ (s : State) (k : Fin 128) (v : BitVec 64), s.clk.linkPcie = true ∧ s.memEnable = true ∧ blockAnswers s 0x88000 true = true ∧ satAllows s 4 (0x80088000 + 8 * k.val) true = true ∧ satAllows s 4 (0x80088000 + 8 * k.val + 4) true = true) ∧
    (∃ (s : State) (o : Nat), o % 4 ≠ 0 ∧ s.clk.linkPcie = true ∧ s.memEnable = true) ∧
    (∃ (s : State) (k : Fin 229376), s.clk.linkPcie = true ∧ s.memEnable = true ∧ k.val * 4 < 0xE0000 ∧ blockAnswers s (k.val * 4) false = true ∧ satAllows s 4 (0x80000000 + k.val * 4) false = true) ∧
    (∃ (s : State) (k : Fin 229376), k.val * 4 < 0xE0000 ∧ blockAnswers s (k.val * 4) false = true ∧ satAllows s 0 (0x80000000 + k.val * 4) false = true) ∧
    (∃ (s : State) (o : Nat) (width : Fin 5), s.clk.linkPcie = true) ∧
    (∃ (s : State) (o : Nat) (width : Nat), s.clk.linkPcie = true ∧ s.memEnable = true) ∧
    (∃ (s : State) (k : Fin 128), s.clk.linkPcie = true ∧ s.memEnable = true ∧ blockAnswers s 0x88000 false = true ∧ satAllows s 4 (0x80088000 + 8 * k.val) false = true ∧ satAllows s 4 (0x80088000 + 8 * k.val + 4) false = true) ∧
    (∃ (s : State) (k : Fin 229376), s.clk.linkPcie = true ∧ s.memEnable = true ∧ blockAnswers s (k.val * 4) false = false) :=
  ⟨⟨st0, 0, 0, 0, by decide +kernel⟩,
   ⟨runState, 0, 0, 0, by decide +kernel⟩,
   ⟨st19, 49216, 0, by decide +kernel⟩,
   ⟨st0, 16385, 0, by decide +kernel⟩,
   ⟨runState, 16385, 0, by decide +kernel⟩,
   ⟨runState, 0, 0, by decide +kernel⟩,
   ⟨st0, 0, 0, by decide +kernel⟩,
   ⟨st0, 16385, 0, by decide +kernel⟩,
   ⟨st20, 0, 0x00000000#32, by unfold Reaches; decide +kernel⟩,
   ⟨st20, 0, 0x00000000#32, by unfold Reaches; decide +kernel⟩,
   ⟨st0, 4, by decide +kernel⟩,
   ⟨st0, 0, by decide +kernel⟩,
   ⟨st0, 196672, 0, by decide +kernel⟩,
   ⟨st0, 0, 0, by decide +kernel⟩,
   ⟨st0, 1, by decide +kernel⟩,
   ⟨st0, 16385, by decide +kernel⟩,
   ⟨runState, 16385, by decide +kernel⟩,
   ⟨st0, 0, 0, by decide +kernel⟩,
   ⟨st0, 0, 0, by decide +kernel⟩,
   ⟨st0, 0, by decide +kernel⟩,
   ⟨st19, 49216, by decide +kernel⟩⟩

end F21

namespace F23

def wd (k : Nat) (sq : Word) : List Word := let l := [w32 k, sq] ++ List.replicate 13 0; l ++ [crcWords l]
def rg : Ring := { Ring.reset with ctrl := w32 (0x200 + 0x1800), enabled := true, seq := 5, sqTail := 5, cqTail := 3, committed := 4 }
def ev : Ring := { rg with ctrl := w32 (0x202), unsig := 2, cqTail := 15 }
def rb (f : Ring → Ring) (g : Ring → Ring) (s : State) : State :=
  let s := runs s
  let s := rset (rset { s with clk := { s.clk with good := 0x1FF, closing := 0, linkPcie := true, idle := 0 }, busMaster := true } oGateOpen 0xFFFFF) (oRing 1 + 0x18) 0x50001
  let s := rset (rset (rset s (oRing 2 + 4) 0x40) (oRing 2 + 0xC) 0x80) oRngVerUsed 1
  let s := rset (rset (rset s (oRing 0) 0x201) (oRing 1) 0x203) (oRing 2) 0
  { s with rings := [(0, f rg), (1, g ev)], base := { s.base with slot := 0 } }
def fl (ws : List Word) : Flight := ⟨0, 0, ws, [], none, false, false⟩
def st7 : State :=
  (fun s => let s := rb (fun r => { r with flight := [fl (wd 0x31 4)], ctrl := w32 (0x200 + 0x1800 + 4*3) }) (fun r => { r with cqTail := 0, unsig := 0 }) s; rset s (oRing 0) (0x201 + 4 * 3)) runState
def st9 : State :=
  (fun s => let s := rb (fun r => { r with flight := [fl (wd 0x11 4), { fl (wd 0 5) with ord := 1 }] }) (fun r => { r with cqTail := 0, unsig := 0 }) s; { s with base := { s.base with holdOut := false, holdIn := true, slot := 1 }}) runState
def st11 : State :=
  (rb (fun r => { r with flight := [{ fl (wd 0x11 4) with dup := true }], dupLeft := 1 }) id) runState

theorem witness_TenantAndStandbyRefusals :
    (∃ (s : State) (n : Fin 64), ringsRun s = true ∧ s.busMaster = true ∧ (ring s n).closing = false ∧ ((ring s n).flight.map Flight.ord).Nodup ∧ ringPart s n ≠ 0 ∧ ((ring s n).flight.head?.toList).any (fun f => decide (f.early = none) && decide (f.waiting = false) && decide (f.dup = false) && decide (ownerOnly (opOf f) = true)) = true) ∧
    (∃ (s : State) (n : Fin 64), ringsRun s = true ∧ s.busMaster = true ∧ (ring s n).closing = false ∧ ((ring s n).flight.map Flight.ord).Nodup ∧ onTwin s = true ∧ s.base.holdOut = false ∧ (((ring s n).flight.head?.toList).any (fun f => decide (f.early = none) && decide (f.waiting = false) && decide (f.dup = false) && decide (changesState (opOf f) = true) && decide ((ownerOnly (opOf f) = true → ringPart s n = 0))) = true)) :=
  ⟨⟨st7, 0, by decide +kernel⟩,
   ⟨st9, 0, by decide +kernel⟩⟩

theorem witness_BadDoorbellIgnoredWithDbErr :
    (∃ (s : State) (n : Fin 64) (v : Word), Reaches s 4 ∧ (ringSize s n ≤ fld v 11 0 ∨ isEventPair s n = true)) ∧
    (∃ (s : State) (n : Fin 64) (v : Word), Reaches s 4 ∧ (ringSize s n ≤ fld v 11 0 ∨ ((ring s n).cqTail + ringSize s n - (ring s n).cqHead) % ringSize s n < (fld v 11 0 + ringSize s n - (ring s n).cqHead) % ringSize s n)) :=
  ⟨⟨runState, 0, 0x00000001#32, by unfold Reaches; decide +kernel⟩,
   ⟨runState, 0, 0x00000001#32, by unfold Reaches; decide +kernel⟩⟩

theorem witness_DuplicateDescriptorHasNoEffect :
    (∃ (s : State) (n : Fin 64) (ws : List Word) (pay : List Word), canFetch s n = true ∧ (ring s n).halted = false ∧ (ring s n).dupLeft ≠ 0 ∧ crcWords ((descWords ws).take 15) = wAt (descWords ws) 15 ∧ wAt (descWords ws) 1 = (ring s n).seq ∧ fld (wAt (descWords ws) 0) 7 0 ≠ 2) ∧
    (∃ (s : State) (n : Fin 64), ringsRun s = true ∧ s.busMaster = true ∧ ((ring s n).flight.map Flight.ord).Nodup ∧ (ring s n).closing = false ∧ ((ring s n).flight.head?.toList).any (fun f => decide (f.dup = true) && decide (f.waiting = false)) = true) :=
  ⟨⟨st11, 0, wd 0x11 5, [], by decide +kernel⟩,
   ⟨st11, 0, by decide +kernel⟩⟩

end F23

end Sys2Proof.Tests
end

