-- ==== Sys2Proof/WellFormed.lean ====
section
/-! DEFINITION. What a command that the outside world can really send looks like. -/

namespace Sys2Proof

/-- An access is 1, 2, 4 or 8 bytes wide, as PCI Express carries them. -/
def widthOk (w : Nat) : Bool := w == 1 || w == 2 || w == 4 || w == 8

/-- Every number of a list is a byte. -/
def bytesOk (l : List Nat) : Bool := l.all (fun b => decide (b < 256))

/-- A descriptor has eight PARAM words, and its payload without the CRC fits LEN's largest value (R518, R520). -/
def Desc.wellFormed (d : Desc) : Bool := d.par.length == 8 && decide (d.payload.length ≤ 16384)

/-- A command is well formed: counts and ranges that its own type does not hold. -/
def Instr.wellFormed (i : Instr) : Bool :=
  match i with
  | .registerWrite _ _ width value => widthOk width && decide (value < 256 ^ width)
  | .latchedRead _ _ width => widthOk width
  | .startUp env => env.damagedKeys.all (fun k => decide (2 ≤ k && k < 256))
  | .readingFrame _ _ raw => raw.length == 16
  | .diagnosticFrame _ _ _ _ _ meas => meas.length == 16
  | .cartridgeCycle m => m.v.length == 3 && m.v.all (fun l => decide (l.length ≤ 256)) &&
    m.i.all (fun x => decide (x.1 < 96) && decide (x.2.length ≤ 256))
  | .canFrameReceived _ _ _ _ _ _ bytes => bytesOk bytes && decide (bytes.length ≤ 64)
  | .frameReceived _ bytes _ _ => bytesOk bytes && decide (14 ≤ bytes.length)
  | .stationRsp _ _ _ _ _ _ _ _ _ words => words.length == 64
  | .descriptorFetch _ words payload => words.length == 16 && decide (payload.length ≤ 16385)
  | .dmaTimeout _ words => words.isEmpty || words.length == 16
  | .updFrag _ _ _ _ _ _ _ data => bytesOk data && decide (data.length ≤ 1440)
  | .nop _ d => d.wellFormed
  | .fence _ d => d.wellFormed
  | .resume _ d => d.wellFormed
  | .ptRead _ d => d.wellFormed
  | .ptWrite _ d => d.wellFormed
  | .ptWatchAdd _ d => d.wellFormed
  | .ptWatchRemove _ d => d.wellFormed
  | .rioRead _ d => d.wellFormed
  | .rioWrite _ d => d.wellFormed
  | .cfgWrite _ d => d.wellFormed
  | .cfgRead _ d => d.wellFormed
  | .ctrlStop _ d => d.wellFormed
  | .ctrlRestart _ d => d.wellFormed
  | .ctrlRestartCold _ d => d.wellFormed
  | .ctrlTaskStart _ d => d.wellFormed
  | .ctrlReset _ d => d.wellFormed
  | .imgLoad _ d => d.wellFormed
  | .imgActivate _ d => d.wellFormed
  | .imgCancel _ d => d.wellFormed
  | .instRead _ d => d.wellFormed
  | .instWrite _ d => d.wellFormed
  | .forceSet _ d => d.wellFormed
  | .forceRelease _ d => d.wellFormed
  | .forceList _ d => d.wellFormed
  | .timed _ d => d.wellFormed
  | .handoffReq _ d => d.wellFormed
  | .mtrReadSet _ d => d.wellFormed
  | .mtrReadInterval _ d => d.wellFormed
  | .mtrReadLog _ d => d.wellFormed
  | .mtrReadParam _ d => d.wellFormed
  | .mtrSetTenant _ d => d.wellFormed
  | .recRead _ d => d.wellFormed
  | .keyGen _ d => d.wellFormed
  | .keyDerive _ d => d.wellFormed
  | .keyInvalidate _ d => d.wellFormed
  | .keyAttest _ d => d.wellFormed
  | .keyEnrol _ d => d.wellFormed
  | .aeadEncrypt _ d => d.wellFormed
  | .aeadDecrypt _ d => d.wellFormed
  | .sign _ d => d.wellFormed
  | .keyInfo _ d => d.wellFormed
  | .canTx _ d => d.wellFormed
  | .canRx _ d => d.wellFormed
  | .canRecover _ d => d.wellFormed
  | .ethTx _ d => d.wellFormed
  | .ethRxPost _ d => d.wellFormed
  | .updChunk _ d => d.wellFormed
  | .updStatus _ d => d.wellFormed
  | .updConfirm _ d => d.wellFormed
  | .updAbort _ d => d.wellFormed
  | _ => true

end Sys2Proof
end

