-- ==== Sys2Proof/Tests/Slice0.lean ====
section
/-! SUPPORT. The model's own tests: well-formedness, the published vectors of the algorithms the spec names, examples of the spec, and
single steps. -/

namespace Sys2Proof.Tests

set_option Elab.async false

open Machine

/-! ### Well-formedness: each check refuses a term -/

theorem test_wf_write_good : Instr.wellFormed (.registerWrite .bar0 0x10000 4 0xD5) = true := by decide
theorem test_wf_write_width : Instr.wellFormed (.registerWrite .bar0 0x10000 3 0) = false := by decide
theorem test_wf_write_value : Instr.wellFormed (.registerWrite .bar0 0x10000 1 256) = false := by decide
theorem test_wf_read_width : Instr.wellFormed (.latchedRead .bar0 0x10000 0) = false := by decide
theorem test_wf_start_keys : Instr.wellFormed (.startUp { goodStart with damagedKeys := [1] }) = false := by decide
theorem test_wf_cycle_inputs : Instr.wellFormed (.cartridgeCycle { noMeas with i := [(96, [])] }) = false := by decide
theorem test_wf_cycle_voltages : Instr.wellFormed (.cartridgeCycle { noMeas with v := [[], []] }) = false := by decide
theorem test_wf_cycle_samples : Instr.wellFormed (.cartridgeCycle { noMeas with i := [(3, List.replicate 257 0)] }) = false := by
  decide +kernel
theorem test_wf_reading_words : Instr.wellFormed (.readingFrame 0 true [0]) = false := by decide
theorem test_wf_diagnostic_words : Instr.wellFormed (.diagnosticFrame 0 true 0 0 0 []) = false := by decide
theorem test_wf_can_bytes : Instr.wellFormed (.canFrameReceived 0 5 false false false false [256]) = false := by decide
theorem test_wf_can_length : Instr.wellFormed (.canFrameReceived 0 5 false true false false (List.replicate 65 0)) = false := by decide +kernel
theorem test_wf_response_words : Instr.wellFormed (.stationRsp true 1 1 1 0 3 0 0 0 [0, 0]) = false := by decide
theorem test_wf_fragment_length : Instr.wellFormed (.updFrag true 0 0 0 2 0 4096 (List.replicate 1441 0)) = false := by decide +kernel
theorem test_wf_frame_short : Instr.wellFormed (.frameReceived 0 [1, 2] true 0) = false := by decide
theorem test_wf_fetch_words : Instr.wellFormed (.descriptorFetch 0 [0] []) = false := by decide
theorem test_wf_timeout_words : Instr.wellFormed (.dmaTimeout 0 [0]) = false := by decide
theorem test_wf_descriptor_params : Instr.wellFormed (.nop 0 { flags := 0, seq := 1, target := 0, w3 := 0, par := [], addr := 0, len := 0, payload := [] }) =
    false := by decide

/-! ### Published vectors -/

/-- The check value of CRC-32C (R517). -/
theorem test_crc32c_check : crc32c [0x31, 0x32, 0x33, 0x34, 0x35, 0x36, 0x37, 0x38, 0x39] = 0xE3069283 := by decide +kernel

/-- FIPS 180-4: SHA-256 of "abc". -/
theorem test_sha256_abc : beNat (sha256 [0x61, 0x62, 0x63]) = 0xBA7816BF8F01CFEA414140DE5DAE2223B00361A396177A9CB410FF61F20015AD := by
  decide +kernel

/-- FIPS 197, C.3: AES-256 of the counting block under the counting key. -/
theorem test_aes256_vector : beNat (aesBlock (aesExpand (List.range 32)) (beBytes 16 0x00112233445566778899AABBCCDDEEFF)) =
    0x8EA2B7CA516745BFEAFC49904B496089 := by decide +kernel

/-- The GCM specification, test case 14: sixteen zero octets under the zero key and nonce. -/
theorem test_gcm_vector : (fun r => (beNat r.1, beNat r.2)) (gcmSeal (List.replicate 32 0) (List.replicate 12 0) [] (List.replicate 16 0)) =
    (0xCEA7403D4D606B6E074EC5D3BAF39D18, 0xD0D1C8A799996BF0265B98B5D48AB919) := by decide +kernel

/-- Binary32, ties to even: one third, the root of two, and e. -/
theorem test_float_third : fdiv 0x3F800000 0x40400000 = 0x3EAAAAAB := by decide +kernel
theorem test_float_root : fsqrt 0x40000000 = 0x3FB504F3 := by decide +kernel
theorem test_float_exp : fexp 0x3F800000 = 0x402DF854 := by decide +kernel

/-! ### The spec's examples -/

/-- The attribute words of the example after R722: the owner's parent key, and the tenant's key under it (R699). -/
theorem test_key_attributes : attrOk none 0 0x12600021 = true ∧ attrOk (some 0x12600021) 5 0x02400020 = true := by decide

/-! ### Single steps -/

/-- Reset: the hold line is low, the queue is empty. -/
theorem test_reset_hold : State.reset.base.holdOut = false ∧ State.reset.pending = [] := by decide

/-- A step takes the front command and leaves the rest (R36: the seat is lost, HOLD_OUT falls, bank 0 is safe). -/
theorem test_step_seat_loss : (match step { runState with pending := [.seatLoss, .periodicSave] } with
    | .next t => t.pending == [.periodicSave] && !t.base.seated && !t.base.holdOut && (bank t 0).safe
    | _ => false) = true := by decide +kernel

/-- An empty queue: the phase clock advances by one unit (log 3). -/
theorem test_step_idle : (match step { runs runState with pending := [] } with
    | .next t => t.phc.phase == (runs runState).phc.phase + 1
    | _ => false) = true := by decide +kernel

/-- A NOP on an enabled ring completes OK with its SEQ, and COMMITTED follows it (R523, R526, R573). -/
theorem test_nop_completes : (match exec (.nop 0 (dsc F17.st2 0 0 (0, [], []) 0)) F17.st2 with
    | .next t => (ring t 0).committed == (ring F17.st2 0).seq && (ring t 0).flight.isEmpty && !(ring t 0).halted
    | _ => false) = true := by decide +kernel

/-- Tick edges of the real-time counter (R651): three edges add three to the count. -/
theorem test_rtc_ticks : (rtcTicks State.reset 3).rtc.count = State.reset.rtc.count + 3 := by decide +kernel

/-- A doorbell beyond the ring sets DB_ERR and moves nothing (R513). -/
theorem test_doorbell_range : (match exec (.sqTail 0 0xFFF) F17.st2 with
    | .next t => t.rings == F17.st2.rings && bitOf (rget t (oRing 0 + 0x2C)) 0
    | _ => false) = true := by decide +kernel

/-! ### The hypotheses of the statements about every command or every step -/

theorem witness_StepRunsFrontCommand : ∃ (s : State) (c : Instr) (rest : List Instr), s.pending = c :: rest :=
  ⟨{ State.reset with pending := [.seatLoss] }, .seatLoss, [], rfl⟩

theorem witness_EveryStepKeepsHoldLineGated : ∃ s t : State, HoldGated s ∧ s.base.holdOut = true ∧ step s = .next t :=
  ⟨{ runState with base := { runState.base with holdOut := true } }, _, by unfold HoldGated; decide +kernel, rfl, rfl⟩

theorem witness_RunServesWholeQueueInOrder : ∃ (s : State) (a b : List Instr), s.pending = a ++ b ∧ a ≠ [] ∧ b ≠ [] :=
  ⟨{ State.reset with pending := [.seatLoss, .periodicSave] }, [.seatLoss], [.periodicSave], rfl, by simp, by simp⟩

/-- A started module beside no running partner, its banks driving: it may claim the ball. -/
def claimant : State :=
  { runState with twn := { runState.twn with role := 1 }, banks := (upto 12).map (fun b => (b, { Bank.reset with driving := true })) }

theorem witness_HoldLineRisesOnlyByBallCommands : ∃ s t : State, exec (.ballRequest true) s = .next t ∧ s.base.holdOut = false ∧
    t.base.holdOut = true :=
  ⟨claimant, match execBallRequest true claimant with | .next t => t | _ => claimant, rfl, by decide +kernel, by decide +kernel⟩

/-- With one logic input good, nothing started and no module beside it, only PWR is lit (R22). -/
theorem test_front_at_reset : lampPwr State.reset = .steady ∧ lampRun State.reset = .off ∧ lampBall State.reset = .off ∧
    lampFlt State.reset = .off ∧ lampMtr State.reset = false := by decide +kernel

/-- A bank whose watchdog has expired lights FLT (R22, R205). -/
theorem test_front_fault : lampFlt (setBank State.reset 3 { bank State.reset 3 with causes := 8 }) = .steady := by decide +kernel

theorem witness_LegalLogOnlyGrowsWithinItsRegion : ∃ s t : State, exec (.sealChange true) s = .next t ∧ s.mtr.legalLog.length ≤ 512 :=
  ⟨State.reset, _, rfl, by decide⟩

theorem witness_LockedAttributionTableStands : ∃ s t : State, exec .seatLoss s = .next t ∧ s.sec.locked = true ∧
    (∀ e, Instr.seatLoss ≠ .startUp e) :=
  ⟨{ State.reset with sec := { State.reset.sec with locked := true } }, _, rfl, rfl, by simp⟩

theorem witness_PhaseAndCycleStayInRange : ∃ s t : State, exec .seatLoss s = .next t ∧ s.phc.phase < 4096 ∧ s.phc.cycle < 2 ^ 48 :=
  ⟨State.reset, _, rfl, by decide, by decide⟩

theorem witness_AeadOpensWhatItSealed : ∃ key nonce tag : List Nat, key.length = 32 ∧ nonce.length = 12 ∧
    tag ≠ (gcmSeal key nonce [] []).2 :=
  ⟨List.replicate 32 0, List.replicate 12 0, [], by decide, by decide, by decide +kernel⟩

theorem witness_CanFieldReadsBackAndMovesNoOtherBit : ∃ (l : List Nat) (start len k : Nat), (∀ x ∈ l, x < 256) ∧ 1 ≤ len ∧
    start + len ≤ 8 * l.length ∧ (k < start ∨ start + len ≤ k) :=
  ⟨[255, 1], 3, 13, 2, by decide, by decide, by decide, by decide⟩

end Sys2Proof.Tests
end

section
/-! The accesses of the secure supervisor to its own block (O42). The statement has a write of the attribution table after the lock
change no register; the table itself stands (R680), but it also decides whether the write is let through, and a refused one sets
its bit of GLB_SEC_EVENT (R683). -/

namespace Sys2Proof.Proofs

open Machine Laws

/-! ### An access that the attribution table refuses (R683) -/

theorem barWrite_refused {s : State} {t : Target} {o : Nat} (v : Word) (ho : o < 0xE0000) (ha : blockAnswers s o true = true)
    (hs : satAllows s (masterOf t) (0x80000000 + o) true = false) :
    barWrite s t o v = worldViol s (masterOf t) (0x80000000 + o) true := by
  rw [barWrite, access, if_neg (by simp [ha]; omega), if_neg (by simp [hs])]
  rfl

theorem rget_worldViol (s : State) (m a : Nat) (w : Bool) (p : Nat) :
    rget (worldViol s m a w) p = if p = oSecEvent then rget s oSecEvent ||| oneBit 1 else rget s p := by
  rw [worldViol, secRefusal, rget_regEvent, rget_ror]
  rfl

/-- A word that the secure supervisor writes comes to the write of that place, whatever the link to the host does. -/
theorem exec_registerWrite_secure (s : State) {o : Nat} (v : Word) (ho : o % 4 = 0) :
    exec (.registerWrite .secure o 4 v.toNat) s = done s (barWrite s .secure o v) := by
  change execRegisterWrite .secure o 4 v.toNat s = _
  have hv : w32 v.toNat = v := (BitVec.ofNat_toNat 32 v).trans (BitVec.setWidth_eq v)
  unfold execRegisterWrite
  rw [if_neg (by simp [targetUp])]
  dsimp only
  rw [if_pos ⟨rfl, ho⟩, hv]

/-- A write of the secure supervisor that the table refuses sets WORLD_VIOL. -/
theorem registerWrite_secure_refused {s t : State} {o : Nat} {v : Word} (h4 : o % 4 = 0) (ho : o < 0xE0000)
    (ha : blockAnswers s o true = true) (hs : satAllows s 0 (0x80000000 + o) true = false)
    (ht : exec (.registerWrite .secure o 4 v.toNat) s = .next t) : rget t oSecEvent = rget s oSecEvent ||| oneBit 1 := by
  rw [exec_registerWrite_secure s v h4, done_next, barWrite_refused (t := .secure) v ho ha hs] at ht
  rw [← ht, close_rget, rget_worldViol, if_pos rfl]

/-! ### A table that shuts its owner out -/

/-- A module whose locked attribution table covers every page with one region, secure and open to no master. -/
def shutOut : State :=
  { State.reset with sec := { State.reset.sec with locked := true, sat := [(1, 0xFFFFF000), (2, 1)] } }

/-- The secure supervisor's own writes lead there from reset: the last page of region 0, its enable, and the lock. -/
theorem shutOut_reached : core.run 3 { State.reset with pending := [.registerWrite .secure 0xC0104 4 0xFFFFF000,
    .registerWrite .secure 0xC0108 4 1, .registerWrite .secure 0xC0000 4 1] } = .next shutOut := by
  rfl

theorem shutOut_answers : blockAnswers shutOut 0xC0100 true = true := by decide

theorem shutOut_refuses : satAllows shutOut 0 (0x80000000 + 0xC0100) true = false := by decide

/-- Refutes O42, in its clause about the locked attribution table, which has no premise that the table lets the secure supervisor
through: on `shutOut` its write of word 0 is refused and sets WORLD_VIOL of GLB_SEC_EVENT, so that the registers change. -/
theorem not_registerAccessesEffects : ¬ Obligations.RegisterAccessesEffects := by
  unfold Obligations.RegisterAccessesEffects
  intro h
  obtain ⟨-, -, -, -, -, -, lockedTable, -⟩ := h shutOut
  obtain ⟨t, ht, -, regsStand, -⟩ := lockedTable 0 0 rfl shutOut_answers
  have raised : rget t oSecEvent = rget shutOut oSecEvent ||| oneBit 1 :=
    registerWrite_secure_refused (by decide) (by decide) shutOut_answers shutOut_refuses ht
  have stands : rget t oSecEvent = rget shutOut oSecEvent := by rw [rget, regsStand, rget]
  exact absurd (stands.symm.trans raised) (by decide)

end Sys2Proof.Proofs
end

section
/-! HOLD_OUT under its hardware gating: what the end of every command holds, and that every step ends in it (O46, O47). -/

namespace Sys2Proof.Proofs

open Machine Laws

/-! ### Every command and the idle step end in `close` -/

/-- Each meaning is the end of a command around the state it computes, whatever that state is. -/
theorem exec_closes (c : Instr) (s : State) : ∃ u, exec c s = .next (close s u) := by
  cases c <;> exact ⟨_, rfl⟩

/-- A step is the end of a command too: of the front command on the rest of the queue, or of the tick of an empty queue. -/
theorem step_closes (s : State) : ∃ r u, step s = .next (close r u) := by
  cases h : s.pending with
  | nil => exact ⟨s, tick s, by rw [step, h]; rfl⟩
  | cons c rest =>
    obtain ⟨u, hu⟩ := exec_closes c { s with pending := rest }
    exact ⟨_, u, by rw [step, h]; exact hu⟩

/-! ### The end of a command and the gating -/

/-- The gating says that HOLD_OUT stands only where hardware lets it. -/
theorem holdGated_iff (s : State) : HoldGated s ↔ (s.base.holdOut = true → holdMay s = true) := by
  simp [HoldGated, holdMay, and_assoc]

/-- Whatever a command did, at its end HOLD_OUT obeys its gating. -/
theorem holdGated_close (s t : State) : HoldGated (close s t) := by
  rw [holdGated_iff, close_holdOut, close_holdMay]
  exact fun h => (Bool.and_eq_true_iff.mp h).2

/-- Settles O46: at reset HOLD_OUT is low. -/
theorem holdLineGatedAtReset : Obligations.HoldLineGatedAtReset := by
  unfold Obligations.HoldLineGatedAtReset
  have low : State.reset.base.holdOut = false := rfl
  exact fun high => absurd (low.symm.trans high) Bool.false_ne_true

/-- Settles O47: every step ends as every command ends, with the hardware gating of HOLD_OUT applied. -/
theorem everyStepKeepsHoldLineGated : Obligations.EveryStepKeepsHoldLineGated := by
  unfold Obligations.EveryStepKeepsHoldLineGated
  intro s t _ ht
  obtain ⟨r, u, hs⟩ := step_closes s
  obtain rfl : close r u = t := Host.Outcome.next.inj (hs.symm.trans ht)
  exact holdGated_close r u

end Sys2Proof.Proofs
end

section
/-! Seating, its loss and the slot code (O1): the seat's own updates of the base, the reset that follows a loss, and the statement. -/

namespace Sys2Proof.Proofs

open Machine Laws

/-! ### New levels of the hold lines -/

theorem setHold_base (s : State) (own peer : Bool) : (setHold s own peer).base = { s.base with holdOut := own, holdIn := peer } := by
  unfold setHold
  dsimp only
  exact (Keeps.forAll (Keeps.refl bankHold_may _) fun u b h => h.trans (bankHold_keeps u b _ _)).base_eq (by decide) (by decide)

/-! ### A slot code taken (R29, R38, R39) -/

/-- The state in which a new slot code stands, and HOLD_IN reads low where the code is not that of a twin base. -/
def withSlot (s : State) (c : Fin 4) : State :=
  let t := { s with base := { s.base with slot := c.val } }
  if onTwin t then t else setHold t t.base.holdOut false

theorem withSlot_keeps (s : State) (c : Fin 4) : Keeps setHold_may s (withSlot s c) := by
  have taken : Keeps setHold_may s { s with base := { s.base with slot := c.val } } := Keeps.base (Keeps.refl _ _) (by decide) rfl
  exact Keeps.ite taken (taken.trans (setHold_keeps ..))

theorem withSlot_base (s : State) (c : Fin 4) :
    (withSlot s c).base = { s.base with slot := c.val, holdIn := s.base.holdIn && (c == 1 || c == 2) } := by
  have code : ∀ c : Fin 4, (c.val == 1 || c.val == 2) = (c == 1 || c == 2) := by decide
  have twin : onTwin { s with base := { s.base with slot := c.val } } = (c == 1 || c == 2) := code c
  unfold withSlot
  dsimp only
  rw [twin]
  split
  · rename_i h
    rw [h, Bool.and_true]
  · rename_i h
    rw [setHold_base, Bool.eq_false_iff.mpr h, Bool.and_false]

theorem execSlotCodeChange_unseated {s : State} {c : Fin 4} (hc : c.val ≠ s.base.slot) (hs : seatedNow s = false) :
    execSlotCodeChange c s = done s (withSlot s c) := by
  simp only [execSlotCodeChange, if_neg hc, hs, Bool.false_eq_true, if_false]
  rfl

theorem execSlotCodeChange_seated {s : State} {c : Fin 4} (hc : c.val ≠ s.base.slot) (hs : seatedNow s = true) :
    execSlotCodeChange c s = done s (unseat (recEvent (withSlot s c) 0x102 0 0xFFFF [w32 s.base.slot, w32 c.val])) := by
  simp only [execSlotCodeChange, if_neg hc, hs, if_true]
  rfl

/-! ### Seating lost (R36, R152) -/

/-- Of the base the loss of seating clears the recognised seat and the line the module drives. -/
theorem unseat_base (s : State) : (unseat s).base = { s.base with seated := false, holdOut := false } := by
  have parts : ∀ t : State, t.base = { baseRest t with holdOut := t.base.holdOut } := fun _ => rfl
  have rest : baseRest (unseat s) = { baseRest s with seated := false } := (holdReset_keeps _ 3).baseRest_eq (by decide)
  have line : (unseat s).base.holdOut = false := (holdReset_spec _ 3).1
  rw [parts (unseat s), rest, line, baseRest]

theorem execSeatLoss_eq (s : State) : execSeatLoss s = done s (unseat { s with base := { s.base with seatLow := false } }) := rfl

/-- What a loss of seating leaves: the line released, the module held in reset with cause 3, the program stopped and every bank in
its safe state with cause HW. -/
theorem close_unseat (r s : State) :
    (close r (unseat s)).base.holdOut = false ∧ (close r (unseat s)).clk.alive = false ∧ (close r (unseat s)).clk.startCause = 3 ∧
    (close r (unseat s)).ble.running = false ∧ ∀ b, b < 12 →
      (bank (close r (unseat s)) b).safe = true ∧ bitOf (bank (close r (unseat s)) b).causes 4 = true := by
  obtain ⟨line, alive, cause, stopped, safe⟩ := holdReset_spec { s with base := { s.base with seated := false } } 3
  refine ⟨?_, ?_, ?_, ?_, fun b hb => ?_⟩
  · rw [close_holdOut, unseat, line, Bool.false_and]
  · rw [close_clk, unseat, alive]
  · rw [close_clk, unseat, cause]
  · rw [close_ble, unseat, stopped]
  · rw [close_bank, unseat, safe b hb]
    exact ⟨rfl, bitOf_or_oneBit _ 4 (by decide)⟩

/-! ### The commands -/

/-- Settles O1: each seat command closes the base update and, where seating is lost, the reset that follows it. -/
theorem seatingCommandsEffects : Obligations.SeatingCommandsEffects := by
  unfold Obligations.SeatingCommandsEffects
  intro s
  refine ⟨?recognised, ?lost, fun c hc hs => ?codeUnseated, fun c hc hs => ?codeSeated⟩
  case recognised => exact completes (execSeatingRecognised_keeps s) rfl (close_baseRest _ _)
  case lost =>
    refine completes (execSeatLoss_keeps s) (execSeatLoss_eq s) ⟨?_, close_unseat s _⟩
    rw [close_baseRest, baseRest, unseat_base, baseRest]
  case codeUnseated =>
    refine completes ⟨_, execSlotCodeChange_unseated hc hs, withSlot_keeps s c⟩ (execSlotCodeChange_unseated hc hs) ⟨?_, ?_, ?_, ?_⟩
    · rw [close_slot, withSlot_base]
    · rw [close_seated, withSlot_base]
    · rw [close_clk, (withSlot_keeps s c).clk_eq (by decide)]
    · rw [close_holdIn, withSlot_base]
  case codeSeated =>
    obtain ⟨line, reset⟩ := close_unseat s (recEvent (withSlot s c) 0x102 0 0xFFFF [w32 s.base.slot, w32 c.val])
    refine completes (execSlotCodeChange_keeps c s) (execSlotCodeChange_seated hc hs) ⟨?_, ?_, line, ?_, reset⟩
    · rw [close_slot, unseat_base, recEvent_base, withSlot_base]
    · rw [close_seated, unseat_base]
    · rw [close_holdIn, unseat_base, recEvent_base, withSlot_base]

end Sys2Proof.Proofs
end

section
/-! The lines, readings and supplies of the terminal base (O2): each command is a new word in the base and, in some cases, bits of
BASE_EVENT, PWR_EVENT or PWR_STATUS. -/

namespace Sys2Proof.Proofs

open Machine Laws

/-! ### Bits raised at the end of a command -/

/-- A command that ends by raising a bit, with its host event, in a register that was as before until then. -/
theorem raised_close {off i : Nat} {s t : State} (r : State) (obj : Word) (part : Nat) (rec_ : Bool) (extra : List Word)
    (hi : i < 32) (same : rget t off = rget s off) :
    Raised off i s (close r (raiseBits t off (oneBit i) obj part true rec_ extra)) :=
  Raised.close (Raised.of_eq (raised_raiseBits t off i obj part rec_ extra hi) same) r

theorem regsOnly_close_raise {l : List Nat} {off : Nat} {s t : State} (r : State) (bits obj : Word) (part : Nat) (host rec_ : Bool)
    (extra : List Word) (h : RegsOnly l s t) (ho : off ∈ l) :
    RegsOnly l s (close r (raiseBits t off bits obj part host rec_ extra)) :=
  RegsOnly.close (RegsOnly.trans h (RegsOnly.mono (regsOnly_raiseBits t off bits obj part host rec_ extra)
    (List.cons_subset.mpr ⟨ho, List.nil_subset _⟩))) r

/-- The base as it stands after bits are raised at the end of a command. -/
theorem close_raise_baseRest (r t : State) (off : Nat) (bits obj : Word) (part : Nat) (host rec_ : Bool) (extra : List Word) :
    baseRest (close r (raiseBits t off bits obj part host rec_ extra)) = baseRest t := by
  rw [close_baseRest, baseRest, raiseBits_base, baseRest]

/-! ### What each command computes, case by case -/

theorem execPeerSeatChg_changed {s : State} {p : Bool} (h : s.base.peer ≠ p) :
    execPeerSeatChg p s = done s (raiseHost { s with base := { s.base with peer := p } } oBaseEvent (oneBit 2)) := by
  unfold execPeerSeatChg
  rw [if_neg h]
  rfl

theorem execCartChg_placed {s : State} (h : s.base.cart = false) :
    execCartChg true s = done s (raiseHost { s with base := { s.base with cart := true } } oBaseEvent (oneBit 4)) := by
  unfold execCartChg
  rw [if_neg (by simp [h])]
  rfl

theorem execCartChg_removed {s : State} (h : s.base.cart = true) :
    execCartChg false s = done s (raiseHost (mtrStop { s with base := { s.base with cart := false } }) oBaseEvent (oneBit 4)) := by
  unfold execCartChg
  have bit : (16 : Word) = oneBit 4 := rfl
  rw [if_neg (by simp [h]), bit]
  simp only [Bool.false_eq_true, if_false]

/-- The readings of a THERMAL_UPDATE taken, with the warning as they leave it (R72). -/
def withReadings (s : State) (temp diss : BitVec 12) (warn : Bool) : State :=
  { s with base := { s.base with intTemp := temp.toNat, fieldDiss := diss.toNat, thermWarn := warn } }

theorem withReadings_keeps (s : State) (temp diss : BitVec 12) (warn : Bool) : Keeps [.base] s (withReadings s temp diss warn) :=
  Keeps.base (Keeps.refl _ _) (by decide) rfl

theorem execThermalUpdate_hot {s : State} {temp diss : BitVec 12} (h : 840 ≤ signedOf 12 temp.toNat) :
    execThermalUpdate temp diss s = done s (if s.base.thermWarn then withReadings s temp diss true
      else raiseHost (withReadings s temp diss true) oBaseEvent (oneBit 3)) := by
  unfold execThermalUpdate
  dsimp only
  rw [if_pos h]
  cases s.base.thermWarn <;> rfl

theorem execThermalUpdate_cool {s : State} {temp diss : BitVec 12} (h : signedOf 12 temp.toNat < 800) :
    execThermalUpdate temp diss s = done s (withReadings s temp diss false) := by
  unfold execThermalUpdate
  dsimp only
  rw [if_neg (show ¬ 840 ≤ signedOf 12 temp.toNat by omega), if_pos h]
  rfl

theorem execThermalUpdate_between {s : State} {temp diss : BitVec 12} (h : 800 ≤ signedOf 12 temp.toNat)
    (h' : signedOf 12 temp.toNat < 840) :
    execThermalUpdate temp diss s = done s (withReadings s temp diss s.base.thermWarn) := by
  unfold execThermalUpdate
  dsimp only
  rw [if_neg (show ¬ 840 ≤ signedOf 12 temp.toNat by omega), if_neg (show ¬ signedOf 12 temp.toNat < 800 by omega),
    Bool.and_not_self]
  rfl

/-! ### The logic inputs and the storage (R47, R142, R143) -/

/-- The logic inputs as they now stand. -/
def withInputs (s : State) (la lb : Bool) : State := { s with base := { s.base with la := la, lb := lb } }

theorem execLogicInputGood_eq (b : Bool) (s : State) :
    execLogicInputGood b s = done s (if !s.base.la && !s.base.lb && s.clk.alive && !s.clk.warned
      then raiseHost (withInputs s (s.base.la || !b) (s.base.lb || b)) oPwrEvent (oneBit 1)
      else withInputs s (s.base.la || !b) (s.base.lb || b)) := by
  unfold execLogicInputGood
  cases b <;> simp only [Bool.or_true, Bool.or_false, Bool.not_true, Bool.not_false] <;> rfl

/-- After a logic input is lost the storage is no longer full where the other is gone too (R142). -/
def withoutStorage (s : State) (other : Bool) : State := if other then s else rclr s oPwrStatus (oneBit 1)

theorem execLogicInputLost_eq {b : Bool} {s : State} (h : (if b then s.base.lb else s.base.la) = true) :
    execLogicInputLost b s = done s (raiseBits
      (withoutStorage (withInputs s (s.base.la && b) (s.base.lb && !b)) (if b then s.base.la else s.base.lb))
      oBaseEvent (oneBit b.toNat) 0xFFFFFFFF 0 true (if b then s.base.la else s.base.lb) []) := by
  unfold execLogicInputLost
  dsimp only
  rw [h]
  cases b <;> simp only [Bool.and_true, Bool.and_false, Bool.not_true, Bool.not_false] <;> rfl

theorem execHoldupFull_supplied {s : State} (h : s.base.la = true ∨ s.base.lb = true) :
    execHoldupFull s = done s (ror s oPwrStatus (oneBit 1)) := by
  unfold execHoldupFull
  rw [if_pos (by simpa using h)]
  rfl

theorem withInputs_keeps (s : State) (la lb : Bool) : Keeps [.base] s (withInputs s la lb) :=
  Keeps.base (Keeps.refl _ _) (by decide) rfl

theorem withoutStorage_keeps (s : State) (other : Bool) : Keeps [.regs] s (withoutStorage s other) :=
  Keeps.ite (Keeps.refl _ _) (rclr_keeps ..)

theorem rget_withoutStorage (s : State) (other : Bool) (o : Nat) : rget (withoutStorage s other) o =
    if o = oPwrStatus then (if other then rget s oPwrStatus else rget s oPwrStatus &&& ~~~ (oneBit 1)) else rget s o := by
  cases other
  · exact rget_rclr ..
  · show rget s o = if o = oPwrStatus then rget s oPwrStatus else rget s o
    split
    · rename_i h
      rw [h]
    · rfl

/-! ### The commands -/

/-- Settles O2: each command closes one update of the base, and the bits it raises where its case says so. -/
theorem baseInputEffects : Obligations.BaseInputEffects := by
  unfold Obligations.BaseInputEffects
  intro s
  refine ⟨fun p h => ?peer, fun h => ?placed, fun h => ?removed, fun temp diss h => ?hot, fun temp diss h => ?cool,
    fun temp diss h h' => ?between, fun b => ?good, fun b h => ?lost, fun h => ?full⟩
  case peer =>
    refine completes (execPeerSeatChg_keeps p s) (execPeerSeatChg_changed h) ⟨?_, ?_, ?_⟩
    · exact close_raise_baseRest ..
    · exact regsOnly_close_raise _ _ _ _ _ _ _ (fun _ _ => rfl) (by decide)
    · exact raised_close _ _ _ _ _ (by decide) rfl
  case placed =>
    refine completes (execCartChg_keeps true s) (execCartChg_placed h) ⟨?_, ?_, ?_⟩
    · exact raised_close _ _ _ _ _ (by decide) rfl
    · exact close_raise_baseRest ..
    · exact regsOnly_close_raise _ _ _ _ _ _ _ (fun _ _ => rfl) (by decide)
  case removed =>
    obtain ⟨stopped, invalid, noSource, regs⟩ := mtrStop_spec { s with base := { s.base with cart := false } }
    refine completes (execCartChg_keeps false s) (execCartChg_removed h) ⟨?_, ?_, ?_, ?_, ?_⟩
    · rw [close_cart, raiseHost_base, (mtrStop_keeps _).base_eq (by decide) (by decide)]
    · exact raised_close _ _ _ _ _ (by decide) (regs oBaseEvent (by decide))
    · rw [close_mtr, raiseHost_mtr, stopped]
    · rw [close_phc, raiseHost_phc, invalid]
    · rw [close_phc, raiseHost_phc, noSource]
  case hot =>
    refine completes (execThermalUpdate_keeps temp diss s) (execThermalUpdate_hot h) ⟨?_, ?_, fun hw => ?_⟩
    · split
      · exact RegsOnly.close (fun _ _ => rfl) s
      · exact regsOnly_close_raise _ _ _ _ _ _ _ (fun _ _ => rfl) (by decide)
    · split
      · exact close_baseRest ..
      · exact close_raise_baseRest ..
    · rw [if_neg (by simp [hw])]
      exact raised_close _ _ _ _ _ (by decide) rfl
  case cool =>
    exact completes ⟨_, execThermalUpdate_cool h, withReadings_keeps ..⟩ (execThermalUpdate_cool h) (close_baseRest ..)
  case between =>
    exact completes ⟨_, execThermalUpdate_between h h', withReadings_keeps ..⟩ (execThermalUpdate_between h h') (close_baseRest ..)
  case good =>
    refine completes (execLogicInputGood_keeps b s) (execLogicInputGood_eq b s) ⟨?_, ?_, fun hla hlb halive hwarned => ?_⟩
    · split
      · exact regsOnly_close_raise _ _ _ _ _ _ _ (fun _ _ => rfl) (by decide)
      · exact RegsOnly.close (fun _ _ => rfl) s
    · split
      · exact close_raise_baseRest ..
      · exact close_baseRest ..
    · rw [if_pos (by simp [hla, hlb, halive, hwarned])]
      exact raised_close _ _ _ _ _ (by decide) rfl
  case lost =>
    refine completes (execLogicInputLost_keeps b s) (execLogicInputLost_eq h) ⟨?_, ?_, ?_, ?_⟩
    · rw [close_raise_baseRest, (withoutStorage_keeps ..).baseRest_eq (by decide)]
      rfl
    · refine regsOnly_close_raise _ _ _ _ _ _ _ (fun o ho => ?_) (by decide)
      rw [rget_withoutStorage, if_neg (by rintro rfl; exact ho (by decide))]
      rfl
    · refine raised_close _ _ _ _ _ (by cases b <;> decide) ?_
      rw [rget_withoutStorage, if_neg (by decide)]
      rfl
    · rw [close_rget, rget_raiseBits, if_neg (by decide), rget_withoutStorage, if_pos rfl]
      rfl
  case full =>
    refine completes (execHoldupFull_keeps s) (execHoldupFull_supplied h) ⟨?_, ?_⟩
    · exact RegsOnly.close (regsOnly_rset s oPwrStatus _) s
    · rw [close_rget, rget_ror, if_pos rfl]

end Sys2Proof.Proofs
end

section
/-! SUPPORT. The phase clock under the operations of the other parts of the module: of its values they move only those that `clock`
leaves out. One lemma per operation that can reach the clock at all; the others do not touch it by their `_keeps` lemma. -/

namespace Sys2Proof.Proofs

set_option Elab.async false

open Machine Laws

/-! ### A reading of the state that an operation leaves as it is -/

/-- What `f` reads is the same in both states. -/
structure Stays {α : Type} (f : State → α) (s t : State) : Prop where
  of ::
  eq : f t = f s

section
variable {α : Type} {f : State → α} {s t u : State}

theorem Stays.refl : Stays f s s := .of rfl

theorem Stays.trans (h : Stays f s t) (g : Stays f t u) : Stays f s u := .of (g.eq.trans h.eq)

/-- Fields that `f` does not read are replaced. -/
theorem Stays.upd (h : Stays f s t) (e : f u = f t := by rfl) : Stays f s u := .of (e.trans h.eq)

theorem Stays.ite {c : Prop} [Decidable c] (h : Stays f s t) (g : Stays f s u) : Stays f s (if c then t else u) := by
  split <;> assumption

theorem Stays.letState {v : State} {b : State → State} (h : Stays f s v) (hb : ∀ x, Stays f s x → Stays f s (b x)) :
    Stays f s (have x := v; b x) := hb v h

theorem Stays.letAny {β : Sort _} {v : β} {b : β → State} (hb : ∀ x, Stays f s (b x)) : Stays f s (have x := v; b x) := hb v

theorem Stays.forAll {β : Type} {l : List β} {g : State → β → State} (h : Stays f s t)
    (hg : ∀ u a, Stays f s u → Stays f s (g u a)) : Stays f s (Machine.forAll l g t) := by
  unfold Machine.forAll
  induction l generalizing t with
  | nil => exact h
  | cons a l ih => exact ih (hg t a h)

theorem Stays.reached {b : Nat} {g : State → State} (h : Stays f s t) (hg : ∀ u, Stays f s u → Stays f s (g u)) :
    Stays f s (Machine.reached t b g) := by
  unfold Machine.reached
  exact .ite (hg t h) h

end

/-! ### The clock -/

/-- The phase clock without the values that operations of other parts of the module may move. -/
def clock (s : State) : Phc :=
  { s.phc with
    run := false, fire := false, freq := 0, refFreq := 0, refValid := false, refSrc := 0, steer := 0, slew := false, rem := 0,
    reqA := 0, comA := none, oldLive := [], last := none, timed := [] }

section
variable {may : List Piece} {s t u : State}

theorem Stays.kept (g : Keeps may s t) (hp : Piece.phc ∉ may := by decide) : Stays clock s t :=
  .of (by unfold clock; rw [g.phc_eq hp])

theorem Stays.keep (h : Stays clock s t) (g : Keeps may t u) (hp : Piece.phc ∉ may := by decide) : Stays clock s u :=
  h.trans (.kept g hp)

theorem Stays.phase (h : Stays clock s t) : t.phc.phase = s.phc.phase := (congrArg Phc.phase h.eq :)
theorem Stays.cycle (h : Stays clock s t) : t.phc.cycle = s.phc.cycle := (congrArg Phc.cycle h.eq :)

end

/-- A command that leaves the clock as it is. -/
def LeavesClock (s : State) (o : Host.Outcome State Fault Refusal) : Prop :=
  ∃ u, o = .next (close s u) ∧ Stays clock s u

/-! ### Operations that take another -/

section
variable {s t : State} {g k : State → State}

theorem Stays.withEcc {e : Ecc} (h : Stays clock s t) (hg : ∀ u, Stays clock s u → Stays clock s (g u)) :
    Stays clock s (Machine.withEcc t e g) := by
  unfold Machine.withEcc
  split
  · exact h.keep (integrityStop_keeps ..)
  · exact hg _ (h.keep (noteEcc_keeps ..))

theorem Stays.unlessStandby (h : Stays clock s t) (hg : ∀ u, Stays clock s u → Stays clock s (g u)) :
    Stays clock s (Machine.unlessStandby t g) := by
  unfold Machine.unlessStandby
  exact .ite (h.keep (twnEvent_keeps ..)) (hg t h)

theorem Stays.access {m : Target} {o : Nat} {w : Bool} (h : Stays clock s t)
    (hg : ∀ u, Stays clock s u → Stays clock s (g u)) (hk : ∀ u, Stays clock s u → Stays clock s (k u)) :
    Stays clock s (Machine.access t m o w g k) := by
  unfold Machine.access
  exact .ite (hk t h) (.ite (hg _ (h.keep (wakeFor_keeps ..))) (hk _ (h.keep (worldViol_keeps ..))))

end

/-! ### Operation by operation -/

theorem beginSlew_clock (s : State) : Stays clock s (beginSlew s) := by
  unfold beginSlew
  extract_lets +onlyGivenNames _
  exact .of rfl

theorem fireEntry_clock {s t : State} {n a : Nat} {w : Word} (h : fireEntry s n a = some (w, t)) : Stays clock s t := by
  unfold fireEntry at h
  split at h
  · cases h
    exact .of rfl
  · cases h

theorem renominal_clock (s : State) (old : Nat) : Stays clock s (renominal s old) := by
  unfold renominal
  exact .ite (beginSlew_clock ..) Stays.refl

theorem phcApply_clock (s : State) : Stays clock s (phcApply s) := by
  unfold phcApply
  extract_lets +onlyGivenNames -merge -useContext _ x0 _ x1
  have h0 : Stays clock s x0 := .of rfl
  have h1 : Stays clock s x1 := h0.upd.trans (renominal_clock ..)
  exact h1.keep (rset_keeps ..)

theorem execZcSwitch_clock (b : Fin 12) (s : State) : LeavesClock s (execZcSwitch b s) := by
  refine ⟨_, rfl, ?_⟩
  split
  · exact .ite (Stays.refl.upd.keep (zcSwitch_keeps ..)) Stays.refl
  · exact Stays.refl

theorem phcLive_clock (s : State) : Stays clock s (phcLive s) := by
  unfold phcLive
  extract_lets +onlyGivenNames x0
  have h0 : Stays clock s x0 := ((phcApply_clock ..).keep (starvedCheck_keeps ..)).keep (noteMirror_keeps ..)
  exact h0.keep (completeAll_keeps ..)

theorem phcCommitNow_clock (s : State) : Stays clock s (phcCommitNow s) := by
  unfold phcCommitNow
  split
  · exact phcLive_clock ..
  · exact (Stays.kept (phcRefuse_keeps ..)).keep (completeAll_keeps ..)

theorem phcDue_clock (s : State) : Stays clock s (phcDue s) := by
  unfold phcDue
  exact .ite (phcCommitNow_clock ..) Stays.refl

theorem dueCommits_clock (s : State) : Stays clock s (dueCommits s) := by
  unfold dueCommits
  exact (phcDue_clock ..).keep (banksDue_keeps ..)

theorem execLcePass_clock (n : Fin 1024) (e : Ecc) (s : State) : LeavesClock s (execLcePass n e s) := by
  refine ⟨_, rfl, ?_⟩
  split
  · refine .ite ?_ ?_
    · refine Stays.withEcc ?_ (fun _ h0 => ?_)
      · refine .trans ?_ (fireEntry_clock (by assumption))
        exact .ite ((dueCommits_clock ..).keep (lceCommitNow_keeps ..)) (dueCommits_clock ..)
      exact h0.keep (firePass_keeps ..)
    refine .trans ?_ (fireEntry_clock (by assumption))
    exact .ite ((dueCommits_clock ..).keep (lceCommitNow_keeps ..)) (dueCommits_clock ..)
  · exact .ite ((dueCommits_clock ..).keep (lceCommitNow_keeps ..)) (dueCommits_clock ..)

theorem holdReset_clock (s : State) (cause : Nat) : Stays clock s (holdReset s cause) := by
  unfold holdReset
  extract_lets +onlyGivenNames -merge -useContext x0 _ _
  have h0 : Stays clock s x0 := (Stays.kept (flushEvents_keeps ..)).keep (hwSafe_keeps ..)
  clear_value x0
  exact .upd h0

theorem updReset_clock (s : State) : Stays clock s (updReset s) := by
  unfold updReset
  extract_lets +onlyGivenNames x0
  have h0 : Stays clock s x0 := .keep (.ite (Stays.kept (stopCtl_keeps ..)) Stays.refl) (endSave_keeps ..)
  exact h0.upd.trans (holdReset_clock ..)

theorem elapseUnits_clock (s : State) (n : Nat) : Stays clock s (elapseUnits s n) := by
  unfold elapseUnits
  refine .ite Stays.refl ?_
  extract_lets +onlyGivenNames _ _ _
  exact Stays.refl.upd.keep (elapseNs_keeps ..)

theorem execBleTask_clock (n : Fin 1024) (executed : Nat) (e : Ecc) (s : State) :
    LeavesClock s (execBleTask n executed e s) := by
  refine ⟨_, rfl, ?_⟩
  split
  · refine .ite ?_ ?_
    · refine Stays.withEcc ((dueCommits_clock ..).trans (fireEntry_clock (by assumption))) (fun _ h0 => ?_)
      exact h0.keep (fireTask_keeps ..)
    exact (dueCommits_clock ..).trans (fireEntry_clock (by assumption))
  · exact dueCommits_clock ..

theorem activateStopped_clock (s : State) (new : Image) (sched : Bool) : Stays clock s (activateStopped s new sched).1 := by
  unfold activateStopped
  extract_lets +onlyGivenNames -merge -useContext x0 x1 _ _ x2 x3 x4
  have h1 : Stays clock s x1 := by
    subst x1
    split
    · exact (Stays.kept (switchForces_keeps ..)).keep (carryVars_keeps ..)
    · exact .kept (initVars_keeps ..)
  have h2 : Stays clock s x2 := h1.upd
  have h3 : Stays clock s x3 := h2.keep (turnImage_keeps ..)
  have h4 : Stays clock s x4 := .ite (h3.trans (phcLive_clock ..)) h3
  exact (h4.keep (noteMirror_keeps ..)).keep (activated_keeps ..)

theorem makeSwitch_clock (s : State) (a : Activation) (old : Image) (new : Image) :
    Stays clock s (makeSwitch s a old new) := by
  unfold makeSwitch
  extract_lets +onlyGivenNames -merge -useContext _ _ x0 _ x1 _ x2 _ x3 x4 x5 x6 x7
  have h0 : Stays clock s x0 := .kept (switchForces_keeps ..)
  have h1 : Stays clock s x1 := h0.keep (carryVars_keeps ..)
  have h2 : Stays clock s x2 := h1.upd
  have h3 : Stays clock s x3 := h2.upd
  have h4 : Stays clock s x4 := Stays.forAll h3 fun _ _ h8 => h8.keep (setTask_keeps ..)
  have h5 : Stays clock s x5 := h4.keep (turnImage_keeps ..)
  have h6 : Stays clock s x6 := .ite (h5.trans (phcLive_clock ..)) h5
  have h7 : Stays clock s x7 := (h6.keep (noteMirror_keeps ..)).keep (activated_keeps ..)
  exact h7.keep (endAct_keeps ..)

theorem execOnlineSwitch_clock (poisoned : Option Nat) (s : State) : LeavesClock s (execOnlineSwitch poisoned s) := by
  refine ⟨_, rfl, ?_⟩
  split
  · refine .ite Stays.refl ?_
    split
    · exact .kept (failAct_keeps ..)
    · split
      · exact ((Stays.kept (poison_keeps ..)).keep (stopCtl_keeps ..)).keep (failAct_keeps ..)
      · exact makeSwitch_clock ..
  · exact Stays.refl

theorem applyMirror_clock (s : State) (blk : Nat) (gen : Nat) (ws : List (Nat × Word)) :
    Stays clock s (applyMirror s blk gen ws) := by
  unfold applyMirror
  split
  · exact Stays.forAll Stays.refl fun _ _ h0 => .ite (h0.keep (rset_keeps ..)) h0
  · exact (Stays.forAll Stays.refl fun _ _ h1 => .ite (h1.keep (rset_keeps ..)) h1).keep (refreshPair_keeps ..)
  · exact (((Stays.kept (putShadow_keeps ..)).trans (phcApply_clock ..)).keep (starvedCheck_keeps ..)).keep (putGen_keeps ..)
  · extract_lets +onlyGivenNames x2 x3
    have h2 : Stays clock s x2 := .kept (putShadow_keeps ..)
    have h3 : Stays clock s x3 := (h2.keep (lceApply_keeps ..)).keep (putGen_keeps ..)
    exact h3.upd
  · exact .ite (((Stays.kept (putShadow_keeps ..)).keep (bankApply_keeps ..)).keep (putGen_keeps ..)) Stays.refl

theorem applyItem_clock (s : State) (i : CopyItem) : Stays clock s (applyItem s i) := by
  unfold applyItem
  split
  · exact .kept (takeData_keeps ..)
  · exact .kept (pset_keeps ..)
  · extract_lets +onlyGivenNames x0 _ _
    have h0 : Stays clock s x0 := (((Stays.kept (pset_keeps ..)).keep (pset_keeps ..)).keep (pset_keeps ..)).keep
        (pset_keeps ..)
    exact (h0.keep (pset_keeps ..)).keep (setLoop_keeps ..)
  · exact .kept (pset_keeps ..)
  · exact .of rfl
  · exact .of rfl
  · exact .of rfl
  · exact .of rfl
  · exact .of rfl
  · exact .of rfl
  · exact .of rfl
  · exact Stays.refl.upd.keep (followSave_keeps ..)
  · exact applyMirror_clock ..
  · exact .kept (followCtl_keeps ..)
  · exact .kept (takeInactive_keeps ..)
  · exact .kept (followSwitch_keeps ..)
  · extract_lets +onlyGivenNames _
    exact (Stays.upd Stays.refl).keep (storeImage_keeps ..)
  · exact .of rfl

theorem takeover_clock (s : State) (cause : Nat) (start : Nat) (planned : Bool) :
    Stays clock s (takeover s cause start planned) := by
  unfold takeover
  extract_lets +onlyGivenNames -merge -useContext x0 _ _ _ _ _ _ x1 _ x2 x3 x4 _ x5 x6 x7 _ x8
  have h0 : Stays clock s x0 := .kept (setHold_keeps ..)
  have h1 : Stays clock s x1 := .upd h0
  have h2 : Stays clock s x2 := h1.upd.keep (followStop_keeps ..)
  have h3 : Stays clock s x3 := Stays.forAll h2 fun _ _ h9 => h9.keep (takeInput_keeps ..)
  have h4 : Stays clock s x4 := by
    refine Stays.forAll h3 fun _ _ h10 => ?_
    extract_lets +onlyGivenNames _
    exact .ite h10 (h10.keep (sendOutput_keeps ..))
  have h5 : Stays clock s x5 :=
    Stays.forAll h4 fun _ _ h11 => (h11.keep (haltRing_keeps ..)).keep (modRing_keeps ..)
  have h6 : Stays clock s x6 := h5.keep (handoffRecords_keeps ..)
  have h7 : Stays clock s x7 := h6.keep (timeEvent_keeps ..)
  clear_value x7
  have h8 : Stays clock s x8 := h7.upd
  exact (h8.keep (twnEvent_keeps ..)).keep (refreshPair_keeps ..)

theorem unsyncTake_clock (s : State) : Stays clock s (unsyncTake s) := by
  unfold unsyncTake
  extract_lets +onlyGivenNames -merge -useContext _ x0
  have h0 : Stays clock s x0 := Stays.refl.upd.trans (takeover_clock ..)
  split
  · exact h0
  · split
    · exact h0.keep (runController_keeps ..)
    · exact h0.keep (runController_keeps ..)
    · exact h0

theorem declareFailed_clock (s : State) : Stays clock s (declareFailed s) := by
  unfold declareFailed
  extract_lets +onlyGivenNames -merge -useContext _ _ x0
  have h0 : Stays clock s x0 := Stays.refl.upd.keep (twnEvent_keeps ..)
  refine .ite (h0.keep (updateSync_keeps ..)) ?_
  refine .ite ?_ ?_
  · exact .ite (h0.trans (takeover_clock ..)) ((h0.keep (updateSync_keeps ..)).keep (goIsolated_keeps ..))
  refine .ite ?_ ?_
  · exact .ite (h0.trans (unsyncTake_clock ..)) ((h0.keep (updateSync_keeps ..)).keep (goIsolated_keeps ..))
  exact h0.keep (updateSync_keeps ..)

theorem declareCheck_clock (s : State) : Stays clock s (declareCheck s) := by
  unfold declareCheck
  extract_lets +onlyGivenNames _
  refine .ite Stays.refl ?_
  refine .ite (declareFailed_clock ..) ?_
  refine .ite (((Stays.refl.upd.keep (twnEvent_keeps ..)).keep (refreshPair_keeps ..)).keep (partnerGone_keeps ..)) ?_
  exact Stays.refl

theorem badFrame_clock (s : State) : Stays clock s (badFrame s) := by
  unfold badFrame
  extract_lets +onlyGivenNames -merge -useContext x0 _ _ x1
  have h0 : Stays clock s x0 := .kept (poison_keeps ..)
  have h1 : Stays clock s x1 := ((h0.upd.keep (missTl_keeps ..)).trans (declareCheck_clock ..)).keep (updateSync_keeps ..)
  exact .ite (h1.keep (sendRally_keeps ..)) h1

theorem ballLost_clock (s : State) (cause : Nat) : Stays clock s (ballLost s cause) := by
  unfold ballLost
  extract_lets +onlyGivenNames -merge -useContext x0 x1 _ x2 _ x3 _ _ _ _ _
  have h0 : Stays clock s x0 := .kept (canBallLost_keeps ..)
  have h1 : Stays clock s x1 := h0.keep (failAct_keeps ..)
  have h2 : Stays clock s x2 := h1.upd.keep (completeAll_keeps ..)
  have h3 : Stays clock s x3 := (h2.keep (twnEvent_keeps ..)).keep (handoffRecords_keeps ..)
  exact ((Stays.upd h3).keep (followStop_keeps ..)).keep (updateSync_keeps ..)

theorem execBallRequest_clock (tie : Bool) (s : State) : LeavesClock s (execBallRequest tie s) := by
  refine ⟨_, rfl, ?_⟩
  refine .ite Stays.refl ?_
  refine .ite (Stays.kept (setHold_keeps ..)) ?_
  refine .ite ?_ ?_
  · split
    · exact .ite (takeover_clock ..) Stays.refl
    · exact .ite (unsyncTake_clock ..) Stays.refl
  exact Stays.refl

theorem execDefaultSample_clock (s : State) : LeavesClock s (execDefaultSample s) := by
  refine ⟨_, rfl, ?_⟩
  exact .ite ((dueCommits_clock ..).keep (sampleNow_keeps ..)) (dueCommits_clock ..)

theorem execFieldlinkMiss_clock (s : State) : LeavesClock s (execFieldlinkMiss s) := by
  refine ⟨_, rfl, ?_⟩
  exact .ite (((Stays.kept (missFl_keeps ..)).trans (declareCheck_clock ..)).keep (updateSync_keeps ..)) Stays.refl

theorem execFullCopyComplete_clock (items : List CopyItem) (s : State) : LeavesClock s (execFullCopyComplete items s) := by
  refine ⟨_, rfl, ?_⟩
  refine .ite ?_ ?_
  · extract_lets +onlyGivenNames x0
    have h0 : Stays clock s x0 := Stays.forAll Stays.refl fun _ _ h1 => h1.trans (applyItem_clock ..)
    exact h0.upd.keep (updateSync_keeps ..)
  exact Stays.refl

theorem handedOver_clock (s : State) (p : Plan) : Stays clock s (handedOver s p) := by
  unfold handedOver
  extract_lets +onlyGivenNames x0 x1 x2
  have h1 : Stays clock s x1 := by
    subst x1
    split
    · exact Stays.forAll Stays.refl fun _ _ h3 => .ite (h3.keep (completeTs_keeps ..)) h3
    · exact Stays.refl
  have h2 : Stays clock s x2 := h1.trans (ballLost_clock ..)
  exact .ite (h2.trans (updReset_clock ..)) h2

theorem execHoldLineChange_clock (level : Bool) (s : State) : LeavesClock s (execHoldLineChange level s) := by
  refine ⟨_, rfl, ?_⟩
  refine .ite Stays.refl ?_
  extract_lets +onlyGivenNames x0 x1
  have h1 : Stays clock s x1 := .kept (setHold_keeps ..)
  refine .ite ?_ ?_
  · split
    · exact .ite (h1.trans (handedOver_clock ..)) (.ite (h1.trans (ballLost_clock ..)) h1)
    · exact .ite (h1.trans (ballLost_clock ..)) h1
  exact h1

theorem execLeaseExpiry_clock (s : State) : LeavesClock s (execLeaseExpiry s) := by
  refine ⟨_, rfl, ?_⟩
  refine .ite ?_ ?_
  · extract_lets +onlyGivenNames -merge -useContext _ x0
    have h0 : Stays clock s x0 := Stays.refl.upd.keep (setHold_keeps ..)
    exact h0.trans (ballLost_clock ..)
  exact Stays.refl

theorem execRallyFrameRx_clock (ok : Bool) (pair : Fin 8 × Fin 16) (health : BitVec 16) (copy : Bool) (back : Bool)
    (digest : List Nat) (s : State) :
    LeavesClock s (execRallyFrameRx ok pair health copy back digest s) := by
  refine ⟨_, rfl, ?_⟩
  refine .ite Stays.refl ?_
  refine .ite ?_ ?_
  · extract_lets +onlyGivenNames x0
    have h0 : Stays clock s x0 := .kept (poison_keeps ..)
    exact ((h0.upd.keep (missTl_keeps ..)).trans (declareCheck_clock ..)).keep (updateSync_keeps ..)
  exact .kept (goodRally_keeps ..)

theorem execSelfTest_clock (bit : Fin 7) (found : Bool) (place : Fin 3) (item : Nat) (s : State) :
    LeavesClock s (execSelfTest bit found place item s) := by
  refine ⟨_, rfl, ?_⟩
  refine .ite Stays.refl ?_
  extract_lets +onlyGivenNames -merge -useContext _ x0 _ x1 _ _ x2 x3
  have h0 : Stays clock s x0 := .ite ((Stays.kept (poison_keeps ..)).keep (scrubItem_keeps ..)) Stays.refl
  have h1 : Stays clock s x1 := .ite h0.upd h0
  have h2 : Stays clock s x2 := .ite h1 (h1.upd.keep (healthEvent_keeps ..))
  have h3 : Stays clock s x3 := h2.keep (updateSync_keeps ..)
  exact .ite (h3.trans (holdReset_clock ..)) h3

theorem steerPair_clock (s : State) (lag : Int) : Stays clock s (steerPair s lag) := by
  unfold steerPair
  exact .ite Stays.refl (.ite (.of rfl) (.of rfl))

theorem goodFrame_clock (s : State) (seq : Word) (half : Nat) (health : Word) (plan : Option (Nat × Nat)) (final : Bool)
    (excess : Bool) (digest : List Nat) (lag : Int) (items : List CopyItem) :
    Stays clock s (goodFrame s seq half health plan final excess digest lag items) := by
  unfold goodFrame
  extract_lets +onlyGivenNames x0 x1 x2 x3 x4 x5
  have h1 : Stays clock s x1 := .of rfl
  have h2 : Stays clock s x2 := (h1.keep (putPeer_keeps ..)).trans (steerPair_clock ..)
  have h3 : Stays clock s x3 :=
    ((Stays.forAll h2 fun _ _ h6 => h6.trans (applyItem_clock ..)).keep (preload_keeps ..)).keep (notePlaus_keeps ..)
  have h4 : Stays clock s x4 := h3.keep (updateSync_keeps ..)
  have h5 : Stays clock s x5 := by
    refine .ite ?_ ?_
    · split
      · exact .ite (h4.trans (takeover_clock ..)) h4
      · exact h4
    exact h4
  exact .ite (h5.keep (sendRally_keeps ..)) h5

theorem execStateFrameRx_clock (ok : Bool) (seq : Word) (_ts : Nat) (half : Nat) (health : BitVec 16)
    (plan : Option (Nat × Nat)) (final : Bool) (excess : Bool) (digest : List Nat) (lag : Int) (items : List CopyItem)
        (s : State) :
    LeavesClock s (execStateFrameRx ok seq _ts half health plan final excess digest lag items s) := by
  refine ⟨_, rfl, ?_⟩
  exact .ite Stays.refl (.ite (badFrame_clock ..) (goodFrame_clock ..))

theorem execTwinlinkCheck_clock (s : State) : LeavesClock s (execTwinlinkCheck s) := by
  refine ⟨_, rfl, ?_⟩
  exact .ite (((Stays.kept (missTl_keeps ..)).trans (declareCheck_clock ..)).keep (updateSync_keeps ..)) Stays.refl

theorem execTwnSample_clock (n : Fin 1024) (s : State) : LeavesClock s (execTwnSample n s) := by
  refine ⟨_, rfl, ?_⟩
  split
  · refine .ite (((dueCommits_clock ..).trans (fireEntry_clock (by assumption))).keep (sampleNow_keeps ..)) ?_
    exact (dueCommits_clock ..).trans (fireEntry_clock (by assumption))
  · exact dueCommits_clock ..

theorem lostNettime_clock (s : State) : Stays clock s (lostNettime s) := by
  unfold lostNettime
  extract_lets +onlyGivenNames _
  exact Stays.forAll (.of rfl) fun _ _ h0 => h0.keep (endTimed_keeps ..)

theorem ptpState_clock (s : State) (st : Nat) : Stays clock s (ptpState s st) := by
  unfold ptpState
  extract_lets +onlyGivenNames -merge -useContext _ _ x0
  have h0 : Stays clock s x0 := .of rfl
  exact .ite ((h0.keep (ptpEvent_keeps ..)).trans (lostNettime_clock ..)) (.ite (h0.keep (ptpEvent_keeps ..)) h0)

theorem acceptOffset_clock (s : State) (o : Int) : Stays clock s (acceptOffset s o) := by
  unfold acceptOffset
  extract_lets +onlyGivenNames -merge -useContext _ _ _ _ x0 x1
  have h0 : Stays clock s x0 := .of rfl
  have h1 : Stays clock s x1 :=
    .ite ((h0.keep (stepTime_keeps ..)).keep (ptpEvent_keeps ..)) (h0.keep (servo_keeps ..))
  exact .ite (h1.trans (ptpState_clock ..)) h1

theorem acquire_clock (s : State) : Stays clock s (acquire s) := by
  unfold acquire
  exact Stays.refl.upd.trans (ptpState_clock ..)

theorem loseMaster_clock (s : State) : Stays clock s (loseMaster s) := by
  unfold loseMaster
  extract_lets +onlyGivenNames -merge -useContext _ x0
  have h0 : Stays clock s x0 := .of rfl
  exact .ite (h0.trans (ptpState_clock ..)) h0

theorem selectMaster_clock (s : State) : Stays clock s (selectMaster s) := by
  unfold selectMaster
  split
  · exact Stays.refl
  · extract_lets +onlyGivenNames -merge -useContext _ x0
    have h0 : Stays clock s x0 := .of rfl
    refine .ite h0 ?_
    extract_lets +onlyGivenNames -merge -useContext _ _
    exact (h0.upd.keep (ptpEvent_keeps ..)).trans (acquire_clock ..)

theorem ptpCtrlWrite_clock (s : State) (v : Word) : Stays clock s (ptpCtrlWrite s v) := by
  unfold ptpCtrlWrite
  extract_lets +onlyGivenNames -merge -useContext _ _ x0 _ _ _ x1
  have h0 : Stays clock s x0 := .kept (rwrite_keeps ..)
  have h1 : Stays clock s x1 := h0.upd
  refine .ite ?_ ?_
  · exact .ite (h1.trans (selectMaster_clock ..)) (h1.trans (loseMaster_clock ..))
  exact .ite (h1.trans (ptpState_clock ..)) h1

theorem linkLost_clock (s : State) (p : Nat) : Stays clock s (linkLost s p) := by
  unfold linkLost
  extract_lets +onlyGivenNames x0
  have h0 : Stays clock s x0 := .kept (dropLink_keeps ..)
  exact .ite (h0.upd.trans (loseMaster_clock ..)) h0

theorem reneg_clock (s : State) (p : Nat) (down : Bool) : Stays clock s (reneg s p down) := by
  unfold reneg
  exact (Stays.kept (renegotiate_keeps ..)).trans (linkLost_clock ..)

theorem portCtrlWrite_clock (s : State) (p : Nat) (v : Word) : Stays clock s (portCtrlWrite s p v) := by
  unfold portCtrlWrite
  extract_lets +onlyGivenNames _ _ _ x0
  have h0 : Stays clock s x0 := .kept (rwrite_keeps ..)
  exact .ite (h0.trans (linkLost_clock ..)) (.ite (h0.trans (reneg_clock ..)) h0)

theorem ethWrite_clock (s : State) (off : Nat) (v : Word) : Stays clock s (ethWrite s off v) := by
  unfold ethWrite
  extract_lets +onlyGivenNames _
  refine .ite (ptpCtrlWrite_clock ..) ?_
  refine .ite (.ite Stays.refl (Stays.kept (rwrite_keeps ..))) ?_
  refine .ite ?_ ?_
  · extract_lets +onlyGivenNames _
    exact .ite (Stays.kept (stationWrite_keeps ..)) (.ite (Stays.kept (stationFieldWrite_keeps ..)) Stays.refl)
  refine .ite ?_ ?_
  · extract_lets +onlyGivenNames _ _
    exact .ite (portCtrlWrite_clock ..) (.ite (Stays.kept (filterWrite_keeps ..)) (.kept (rwrite_keeps ..)))
  exact .kept (rwrite_keeps ..)

theorem execAnnounceRx_clock (p : Fin 2) (dom : Nat) (id : Nat) (data : List Nat) (gm : Nat) (ival : Nat) (utc : BitVec 16)
    (utcValid : Bool) (s : State) :
    LeavesClock s (execAnnounceRx p dom id data gm ival utc utcValid s) := by
  refine ⟨_, rfl, ?_⟩
  refine .ite Stays.refl ?_
  extract_lets +onlyGivenNames -merge -useContext _ _ _ _ x0
  have h0 : Stays clock s x0 := .of rfl
  exact h0.trans (selectMaster_clock ..)

theorem refuse_clock (s : State) : Stays clock s (refuse s) := by
  unfold refuse
  extract_lets +onlyGivenNames -merge -useContext _ x0
  have h0 : Stays clock s x0 := Stays.refl.upd.keep (ptpEvent_keeps ..)
  refine .ite ?_ ?_
  · extract_lets +onlyGivenNames _ x1
    have h1 : Stays clock s x1 := h0.trans (acquire_clock ..)
    exact h1.upd
  exact h0

theorem execDelayRespRx_clock (p : Fin 2) (dom : Nat) (id : Nat) (seq : BitVec 16) (t4 : Int) (corr : Int) (s : State) :
    LeavesClock s (execDelayRespRx p dom id seq t4 corr s) := by
  refine ⟨_, rfl, ?_⟩
  refine .ite Stays.refl ?_
  extract_lets +onlyGivenNames x0
  have h0 : Stays clock s x0 := .kept (modPort_keeps ..)
  split
  · refine .ite h0 ?_
    extract_lets +onlyGivenNames -merge -useContext x1 _ x2 _
    have h1 : Stays clock s x1 := h0.keep (modPort_keeps ..)
    have h2 : Stays clock s x2 := h1.upd
    refine .ite h2 ?_
    extract_lets +onlyGivenNames _
    exact .ite (h2.trans (refuse_clock ..)) h2.upd
  · exact h0

theorem gotSync_clock (s : State) (d : Int) : Stays clock s (gotSync s d) := by
  unfold gotSync
  extract_lets +onlyGivenNames -merge -useContext _ x0
  have h0 : Stays clock s x0 := .of rfl
  split
  · exact h0
  · extract_lets +onlyGivenNames -merge -useContext _ _ x1
    have h1 : Stays clock s x1 := h0.upd
    exact .ite (h1.trans (refuse_clock ..)) (.ite (h1.trans (acceptOffset_clock ..)) h1)

theorem execFollowUpRx_clock (p : Fin 2) (dom : Nat) (id : Nat) (seq : BitVec 16) (t1 : Int) (corr : Int) (s : State) :
    LeavesClock s (execFollowUpRx p dom id seq t1 corr s) := by
  refine ⟨_, rfl, ?_⟩
  refine .ite Stays.refl ?_
  split
  · exact .ite (Stays.refl.upd.trans (gotSync_clock ..)) Stays.refl
  · exact Stays.refl

theorem execMasterLost_clock (s : State) : LeavesClock s (execMasterLost s) := by
  refine ⟨_, rfl, ?_⟩
  split
  · exact Stays.refl
  · refine .ite Stays.refl ?_
    extract_lets +onlyGivenNames -merge -useContext _ x0
    have h0 : Stays clock s x0 := .of rfl
    exact .ite (h0.trans (selectMaster_clock ..)) (h0.trans (loseMaster_clock ..))

theorem execPortLinkDown_clock (p : Fin 2) (s : State) : LeavesClock s (execPortLinkDown p s) := by
  refine ⟨_, rfl, ?_⟩
  exact linkLost_clock ..

theorem execSpeedStepDown_clock (p : Fin 2) (s : State) : LeavesClock s (execSpeedStepDown p s) := by
  refine ⟨_, rfl, ?_⟩
  exact .ite (reneg_clock ..) Stays.refl

theorem execSpeedStepUp_clock (p : Fin 2) (s : State) : LeavesClock s (execSpeedStepUp p s) := by
  refine ⟨_, rfl, ?_⟩
  exact .ite (reneg_clock ..) Stays.refl

theorem execStepLockEnd_clock (p : Fin 2) (s : State) : LeavesClock s (execStepLockEnd p s) := by
  refine ⟨_, rfl, ?_⟩
  exact .ite (reneg_clock ..) Stays.refl

theorem execSyncRx_clock (p : Fin 2) (dom : Nat) (id : Nat) (seq : BitVec 16 × Nat) (twoStep : Bool) (t1 : Int) (corr : Int)
    (s : State) :
    LeavesClock s (execSyncRx p dom id seq twoStep t1 corr s) := by
  refine ⟨_, rfl, ?_⟩
  refine .ite Stays.refl ?_
  extract_lets +onlyGivenNames -merge -useContext _ x0
  have h0 : Stays clock s x0 := .of rfl
  exact .ite h0.upd (h0.upd.trans (gotSync_clock ..))

theorem ptpForced_clock (s : State) : Stays clock s (ptpForced s) := by
  unfold ptpForced
  exact .ite ((Stays.kept (ptpEvent_keeps ..)).trans (acquire_clock ..)) Stays.refl

theorem ptpRestart_clock (s : State) : Stays clock s (ptpRestart s) := by
  unfold ptpRestart
  exact .ite Stays.refl (.ite (acquire_clock ..) (ptpState_clock ..))

theorem endSwitch_clock (s : State) (d : Nat) (old : Nat) (new : Nat) : Stays clock s (endSwitch s d old new) := by
  unfold endSwitch
  extract_lets +onlyGivenNames -merge -useContext _ _ x0 x1 x2
  have h0 : Stays clock s x0 := .of rfl
  have h1 : Stays clock s x1 := h0.keep (rclr_keeps ..)
  have h2 : Stays clock s x2 := h1.keep (rsetFld_keeps ..)
  exact .ite (h2.trans (ptpRestart_clock ..)) h2

theorem forceSwitch_clock (s : State) (d : Nat) : Stays clock s (forceSwitch s d) := by
  unfold forceSwitch
  extract_lets +onlyGivenNames _ x0 x1
  have h0 : Stays clock s x0 := (endSwitch_clock ..).keep (ror_keeps ..)
  have h1 : Stays clock s x1 := h0.keep (recEvent_keeps ..)
  exact .ite (h1.trans (ptpForced_clock ..)) h1

theorem execForcedSwitch_clock (d : Fin 4) (s : State) : LeavesClock s (execForcedSwitch d s) := by
  refine ⟨_, rfl, ?_⟩
  exact .ite (forceSwitch_clock ..) Stays.refl

theorem execHoldupEnd_clock (backup : Bool) (s : State) : LeavesClock s (execHoldupEnd backup s) := by
  refine ⟨_, rfl, ?_⟩
  refine .ite Stays.refl ?_
  extract_lets +onlyGivenNames x0
  have h0 : Stays clock s x0 := (holdReset_clock ..).keep (unhalt_keeps ..)
  clear_value x0
  exact h0.upd

theorem execPowerFailRestart_clock (s : State) : LeavesClock s (execPowerFailRestart s) := by
  refine ⟨_, rfl, ?_⟩
  exact .ite (holdReset_clock ..) Stays.refl

theorem unseat_clock (s : State) : Stays clock s (unseat s) := by
  unfold unseat
  exact Stays.refl.upd.trans (holdReset_clock ..)

theorem execSeatLoss_clock (s : State) : LeavesClock s (execSeatLoss s) := by
  refine ⟨_, rfl, ?_⟩
  exact Stays.refl.upd.trans (unseat_clock ..)

theorem execSlotCodeChange_clock (code : Fin 4) (s : State) : LeavesClock s (execSlotCodeChange code s) := by
  refine ⟨_, rfl, ?_⟩
  refine .ite Stays.refl ?_
  extract_lets +onlyGivenNames -merge -useContext _ _ _ x0 x1
  have h0 : Stays clock s x0 := .of rfl
  have h1 : Stays clock s x1 := .ite h0 (h0.keep (setHold_keeps ..))
  exact .ite ((h1.keep (recEvent_keeps ..)).trans (unseat_clock ..)) h1

theorem macFail_clock (s : State) (n : Nat) : Stays clock s (macFail s n) := by
  unfold macFail
  refine .ite Stays.refl ?_
  refine .ite ?_ ?_
  · extract_lets +onlyGivenNames -merge -useContext _ x0
    have h0 : Stays clock s x0 := Stays.refl.upd.keep (rsetFld_keeps ..)
    exact h0.trans (forceSwitch_clock ..)
  extract_lets +onlyGivenNames -merge -useContext _ x1
  have h1 : Stays clock s x1 := Stays.refl.upd.keep (rsetFld_keeps ..)
  exact (h1.trans (linkLost_clock ..)).trans (linkLost_clock ..)

theorem execSourceFail_clock (n : Fin 9) (s : State) : LeavesClock s (execSourceFail n s) := by
  refine ⟨_, rfl, ?_⟩
  refine .ite Stays.refl ?_
  extract_lets +onlyGivenNames -merge -useContext _ x0 x1 x2 x3
  have h0 : Stays clock s x0 := .of rfl
  have h1 : Stays clock s x1 := (h0.keep (raiseBoth_keeps ..)).keep (fmRefFail_keeps ..)
  have h2 : Stays clock s x2 := by
    refine .ite ?_ ?_
    · exact Stays.forAll h1 fun _ _ h4 => .ite (h4.keep (failAllTx_keeps ..)) h4
    exact h1
  have h3 : Stays clock s x3 := .ite (h2.keep (oscStop_keeps ..)) h2
  refine .ite ?_ ?_
  · extract_lets +onlyGivenNames x5
    have h5 : Stays clock s x5 := h3.trans (holdReset_clock ..)
    clear_value x5
    exact h5.upd
  exact h3.trans (macFail_clock ..)

theorem execSourceGood_clock (n : Fin 9) (s : State) : LeavesClock s (execSourceGood n s) := by
  refine ⟨_, rfl, ?_⟩
  extract_lets +onlyGivenNames -merge -useContext _ _ _ x0
  have h0 : Stays clock s x0 := .of rfl
  exact .ite (h0.trans (ptpRestart_clock ..)) h0

theorem execSupWdogExpiry_clock (s : State) : LeavesClock s (execSupWdogExpiry s) := by
  refine ⟨_, rfl, ?_⟩
  exact .ite (holdReset_clock ..) Stays.refl

theorem execSwitchComplete_clock (d : Fin 4) (s : State) : LeavesClock s (execSwitchComplete d s) := by
  refine ⟨_, rfl, ?_⟩
  exact .ite (endSwitch_clock ..) Stays.refl

theorem refGone_clock (s : State) : Stays clock s (refGone s) := by
  unfold refGone
  extract_lets +onlyGivenNames -merge -useContext _ _ x0
  have h0 : Stays clock s x0 := .of rfl
  exact .ite h0 (h0.keep (raisePhc_keeps ..))

theorem leaseTick_clock (s : State) : Stays clock s (leaseTick s) := by
  unfold leaseTick
  refine .ite ?_ ?_
  · exact .ite ((Stays.refl.upd.keep (setHold_keeps ..)).trans (ballLost_clock ..)) (.of rfl)
  exact Stays.refl

theorem reconvert_clock (s : State) (t : Timed) : Stays clock s (reconvert s t) := by
  unfold reconvert
  refine .ite Stays.refl ?_
  split
  · exact Stays.refl
  · extract_lets +onlyGivenNames _ _
    exact .ite (Stays.refl.upd.keep (endTimed_keeps ..)) (.of rfl)

theorem slewStep_clock (s : State) : Stays clock s (slewStep s) := by
  unfold slewStep
  extract_lets +onlyGivenNames _ _ _
  exact .of rfl

theorem steerNet_clock (s : State) : Stays clock s (steerNet s) := by
  unfold steerNet
  extract_lets +onlyGivenNames x0 x1 x2
  exact .ite (.of rfl) (.of rfl)

theorem takeFreq_clock (s : State) : Stays clock s (takeFreq s) := by
  unfold takeFreq
  extract_lets +onlyGivenNames _
  refine .ite ?_ ?_
  · extract_lets +onlyGivenNames x0
    have h0 : Stays clock s x0 := .ite (slewStep_clock ..) Stays.refl
    exact .ite (h0.trans (steerNet_clock ..)) h0
  exact .ite Stays.refl (.of rfl)

theorem execBankConvert_clock (n : Fin 1024) (s : State) : LeavesClock s (execBankConvert n s) := by
  refine ⟨_, rfl, ?_⟩
  split
  · exact ((dueCommits_clock ..).trans (fireEntry_clock (by assumption))).keep (convert_keeps ..)
  · exact dueCommits_clock ..

theorem execHostEvent_clock (n : Fin 1024) (s : State) : LeavesClock s (execHostEvent n s) := by
  refine ⟨_, rfl, ?_⟩
  split
  · exact ((dueCommits_clock ..).trans (fireEntry_clock (by assumption))).keep (timeEvent_keeps ..)
  · exact dueCommits_clock ..

theorem phcRequest_clock (s : State) : Stays clock s (phcRequest s) := by
  unfold phcRequest
  refine .ite Stays.refl ?_
  extract_lets +onlyGivenNames x0
  have h0 : Stays clock s x0 := .kept (ror_keeps ..)
  exact h0.upd

theorem execPhcCommit_clock (v : Word) (s : State) : LeavesClock s (execPhcCommit v s) := by
  refine ⟨_, rfl, ?_⟩
  refine Stays.reached Stays.refl (fun _ h0 => ?_)
  refine .ite ?_ ?_
  · refine Stays.unlessStandby ?_ (fun _ h1 => ?_)
    · exact h0
    exact h1.trans (phcRequest_clock ..)
  exact h0

theorem execPhcCommitPoint_clock (s : State) : LeavesClock s (execPhcCommitPoint s) := by
  refine ⟨_, rfl, ?_⟩
  exact phcDue_clock ..

theorem takeRef_clock (s : State) (freq : Nat) : Stays clock s (takeRef s freq) := by
  unfold takeRef
  extract_lets +onlyGivenNames -merge -useContext _ _ _ _ x0
  have h0 : Stays clock s x0 := .of rfl
  exact .ite h0 (h0.keep (raisePhc_keeps ..))

theorem execTimedActionFire_clock (r : Fin 64) (s : State) : LeavesClock s (execTimedActionFire r s) := by
  refine ⟨_, rfl, ?_⟩
  split
  · refine .ite ?_ ?_
    · extract_lets +onlyGivenNames -merge -useContext _ _ _ x0
      have h0 : Stays clock s x0 := ((dueCommits_clock ..).upd).keep (timedEffect_keeps ..)
      exact Stays.forAll h0 fun _ _ h1 => .ite (h1.keep (completeTs_keeps ..)) h1
    exact dueCommits_clock ..
  · exact dueCommits_clock ..

theorem mtrStop_clock (s : State) : Stays clock s (mtrStop s) := by
  unfold mtrStop
  extract_lets +onlyGivenNames x0 x1
  have h0 : Stays clock s x0 := .kept (modMtr_keeps ..)
  have h1 : Stays clock s x1 :=
    Stays.forAll h0 fun _ _ h2 => .ite ((h2.keep (setPulse_keeps ..)).keep (emit_keeps ..)) h2
  exact (h1.keep (clearMetering_keeps ..)).trans (refGone_clock ..)

theorem execCartChg_clock (present : Bool) (s : State) : LeavesClock s (execCartChg present s) := by
  refine ⟨_, rfl, ?_⟩
  refine .ite Stays.refl ?_
  extract_lets +onlyGivenNames -merge -useContext _ x0 x1
  have h0 : Stays clock s x0 := .of rfl
  have h1 : Stays clock s x1 := .ite h0 (h0.trans (mtrStop_clock ..))
  exact h1.keep (raiseHost_keeps ..)

theorem execCartridgeCycle_clock (m : CycleMeas) (s : State) : LeavesClock s (execCartridgeCycle m s) := by
  refine ⟨_, rfl, ?_⟩
  extract_lets +onlyGivenNames x0
  refine .ite Stays.refl ?_
  refine .ite (mtrStop_clock ..) ?_
  extract_lets +onlyGivenNames x1 x2 x3 x4
  have h2 : Stays clock s x2 := by
    refine Stays.forAll ((Stays.kept (mtrElapse_keeps ..)).keep (voltCycle_keeps ..)) fun _ _ h5 => ?_
    exact h5.keep (circCycle_keeps ..)
  have h3 : Stays clock s x3 := by
    refine Stays.forAll h2 fun _ _ h6 => ?_
    split
    · exact h6.keep (endSub_keeps ..)
    · exact h6
  have h4 : Stays clock s x4 := h3.keep (applyBlocks_keeps ..)
  exact (h4.keep (modMtr_keeps ..)).keep (windowStep_keeps ..)

theorem execCartridgeRun_clock (sw_ : Word) (good : BitVec 16) (s : State) :
    LeavesClock s (execCartridgeRun sw_ good s) := by
  refine ⟨_, rfl, ?_⟩
  refine .ite Stays.refl ?_
  extract_lets +onlyGivenNames x0 x1 x2
  have h0 : Stays clock s x0 := .ite (mtrStop_clock ..) Stays.refl
  have h1 : Stays clock s x1 := h0.keep (modMtr_keeps ..)
  have h2 : Stays clock s x2 := h1.keep (modMtr_keeps ..)
  refine .ite (((h2.keep (modMtr_keeps ..)).keep (startIntervals_keeps ..)).keep (applyBlocks_keeps ..)) ?_
  split
  · exact h2.keep (mtrFault_keeps ..)
  · exact (((h2.keep (modMtr_keeps ..)).keep (loadSlot_keeps ..)).keep (startIntervals_keeps ..)).keep (applyBlocks_keeps ..)

theorem execMtrClose_clock (n : Fin 1024) (s : State) : LeavesClock s (execMtrClose n s) := by
  refine ⟨_, rfl, ?_⟩
  split
  · extract_lets +onlyGivenNames _ _ x0
    have h0 : Stays clock s x0 := ((dueCommits_clock ..).trans (fireEntry_clock (by assumption))).keep (emit_keeps ..)
    exact h0.keep (modMtr_keeps ..)
  · exact dueCommits_clock ..

theorem cartUpdated_clock (s : State) (sw_ : Word) : Stays clock s (cartUpdated s sw_) := by
  unfold cartUpdated
  extract_lets +onlyGivenNames x0 x1 x2 x3 x4 x5 x6
  have h1 : Stays clock s x1 := (Stays.kept (mtrSave_keeps ..)).trans (mtrStop_clock ..)
  have h2 : Stays clock s x2 := h1.keep (modMtr_keeps ..)
  have h3 : Stays clock s x3 := by
    subst x3
    split
    · exact h2.keep (loadSlot_keeps ..)
    · exact h2
  have h4 : Stays clock s x4 := (h3.keep (startIntervals_keeps ..)).keep (applyBlocks_keeps ..)
  have h5 : Stays clock s x5 := Stays.forAll h4 fun _ _ h7 => h7.keep (setCirc_keeps ..)
  have h6 : Stays clock s x6 := (h5.keep (mtrLog_keeps ..)).keep (modMtr_keeps ..)
  exact (h6.keep (emptyStage_keeps ..)).keep (updEvent_keeps ..)

theorem execCartSoftwareDone_clock (ok : Bool) (sw_ : Word) (s : State) : LeavesClock s (execCartSoftwareDone ok sw_ s) := by
  refine ⟨_, rfl, ?_⟩
  exact .ite Stays.refl (.ite ((Stays.kept (modUpd_keeps ..)).keep (updEvent_keeps ..)) (cartUpdated_clock ..))

theorem leaveBall_clock (s : State) : Stays clock s (leaveBall s) := by
  unfold leaveBall
  refine .ite ?_ ?_
  · split
    · exact .kept (planHandoff_keeps (by assumption))
    · exact .kept (leaveRefused_keeps ..)
  exact .ite (Stays.kept (leaveRefused_keeps ..)) (updReset_clock ..)

theorem fallBack_clock (s : State) : Stays clock s (fallBack s) := by
  unfold fallBack
  exact .ite Stays.refl ((Stays.kept (modUpd_keeps ..)).trans (leaveBall_clock ..))

theorem fallbackCmd_clock (s : State) : Stays clock s (fallbackCmd s) := by
  unfold fallbackCmd
  exact .ite (fallBack_clock ..) Stays.refl

theorem execFallback_clock (s : State) : LeavesClock s (execFallback s) := by
  refine ⟨_, rfl, ?_⟩
  refine Stays.reached Stays.refl (fun _ h0 => ?_)
  exact h0.trans (fallbackCmd_clock ..)

theorem execFallbackHandoffRetry_clock (s : State) : LeavesClock s (execFallbackHandoffRetry s) := by
  refine ⟨_, rfl, ?_⟩
  exact .ite ((Stays.kept (modUpd_keeps ..)).trans (leaveBall_clock ..)) Stays.refl

theorem installCmd_clock (s : State) (aloneOk : Bool) : Stays clock s (installCmd s aloneOk) := by
  unfold installCmd
  extract_lets +onlyGivenNames _
  exact .ite (Stays.kept (modUpd_keeps ..)) ((Stays.kept (modUpd_keeps ..)).trans (leaveBall_clock ..))

theorem execInstall_clock (aloneOk : Bool) (s : State) : LeavesClock s (execInstall aloneOk s) := by
  refine ⟨_, rfl, ?_⟩
  refine Stays.reached Stays.refl (fun _ h0 => ?_)
  exact h0.trans (installCmd_clock ..)

theorem execTrialTimeExpiry_clock (s : State) : LeavesClock s (execTrialTimeExpiry s) := by
  refine ⟨_, rfl, ?_⟩
  exact .ite (fallBack_clock ..) Stays.refl

theorem tearRings_clock (s : State) : Stays clock s (tearRings s) := by
  unfold tearRings
  extract_lets +onlyGivenNames x0
  have h0 : Stays clock s x0 := Stays.refl.upd.keep (resetRange_keeps ..)
  clear_value x0
  exact .upd h0

theorem clearBusMaster_clock (s : State) : Stays clock s (clearBusMaster s) := by
  unfold clearBusMaster
  extract_lets +onlyGivenNames x0
  have h0 : Stays clock s x0 := .ite (tearRings_clock ..) Stays.refl
  clear_value x0
  exact h0.upd

theorem endpointReset_clock (s : State) : Stays clock s (endpointReset s) := by
  unfold endpointReset
  extract_lets +onlyGivenNames x0
  have h0 : Stays clock s x0 := (tearRings_clock ..).keep (resetRange_keeps ..)
  clear_value x0
  exact .upd h0

theorem execBusMasterDisable_clock (s : State) : LeavesClock s (execBusMasterDisable s) := by
  refine ⟨_, rfl, ?_⟩
  exact .ite (clearBusMaster_clock ..) Stays.refl

theorem execFunctionLevelReset_clock (s : State) : LeavesClock s (execFunctionLevelReset s) := by
  refine ⟨_, rfl, ?_⟩
  exact .ite (endpointReset_clock ..) Stays.refl

theorem execPePerst_clock (s : State) : LeavesClock s (execPePerst s) := by
  refine ⟨_, rfl, ?_⟩
  extract_lets +onlyGivenNames x0
  have h0 : Stays clock s x0 := endpointReset_clock ..
  exact h0.upd

theorem phcWrite_clock (s : State) (o : Nat) (v : Word) : Stays clock s (phcWrite s o v) := by
  unfold phcWrite
  refine .ite ?_ ?_
  · refine .ite ?_ ?_
    · refine Stays.unlessStandby ?_ (fun _ h0 => ?_)
      · exact Stays.refl
      exact h0.trans (phcRequest_clock ..)
    exact Stays.refl
  exact .kept (rwrite_keeps ..)

theorem updCmdWrite_clock (s : State) (v : Word) : Stays clock s (updCmdWrite s v) := by
  unfold updCmdWrite
  extract_lets +onlyGivenNames x0 x1
  have h0 : Stays clock s x0 := .ite (installCmd_clock ..) Stays.refl
  have h1 : Stays clock s x1 := .ite (h0.trans (fallbackCmd_clock ..)) h0
  exact .ite (h1.keep (cartInstallCmd_keeps ..)) h1

theorem updWrite_clock (s : State) (o : Nat) (v : Word) : Stays clock s (updWrite s o v) := by
  unfold updWrite
  exact .ite (Stays.kept (updCtrlWrite_keeps ..)) (.ite (updCmdWrite_clock ..) (.kept (rwrite_keeps ..)))

theorem regWrite_clock (s : State) (off : Nat) (v : Word) : Stays clock s (regWrite s off v) := by
  unfold regWrite
  extract_lets +onlyGivenNames x0
  refine .ite ?_ ?_
  · exact .ite (Stays.kept (ringErr_keeps ..)) (.of rfl)
  refine .ite (Stays.kept (pairWrite_keeps ..)) ?_
  split
  · exact .kept (glbWrite_keeps ..)
  · exact .kept (clkWrite_keeps ..)
  · exact phcWrite_clock ..
  · exact .kept (bnkWrite_keeps ..)
  · exact .kept (lceWrite_keeps ..)
  · exact .kept (rwrite_keeps ..)
  · exact .kept (mtrWrite_keeps ..)
  · exact .kept (twnWrite_keeps ..)
  · exact .kept (rngWrite_keeps ..)
  · exact ethWrite_clock ..
  · exact .kept (canWrite_keeps ..)
  · exact .kept (rtcWrite_keeps ..)
  · exact .kept (secWrite_keeps ..)
  · exact updWrite_clock ..
  · exact Stays.refl

theorem barWrite_clock (s : State) (t : Target) (off : Nat) (v : Word) : Stays clock s (barWrite s t off v) := by
  unfold barWrite
  refine Stays.access ?_ (fun u0 h0 => ?_) (fun u0 h0 => ?_)
  · exact Stays.refl
  · exact h0.trans (regWrite_clock ..)
  exact h0

theorem configWrite_clock (s : State) (off : Nat) (v : Nat) : Stays clock s (configWrite s off v) := by
  unfold configWrite
  refine .ite ?_ ?_
  · extract_lets +onlyGivenNames x0
    have h0 : Stays clock s x0 := .of rfl
    exact .ite h0.upd (.ite (h0.trans (clearBusMaster_clock ..)) h0)
  exact Stays.refl

theorem execRegisterWrite_clock (t : Target) (off : Nat) (width : Nat) (value : Nat) (s : State) :
    LeavesClock s (execRegisterWrite t off width value s) := by
  refine ⟨_, rfl, ?_⟩
  refine .ite Stays.refl ?_
  split
  · exact configWrite_clock ..
  · exact .ite (Stays.kept (bellWrite_keeps ..)) Stays.refl
  · exact .ite (barWrite_clock ..) (.ite ((barWrite_clock ..).trans (barWrite_clock ..)) Stays.refl)

theorem cfgRequest_clock (s : State) (t : Nat) : Stays clock s (cfgRequest s t) := by
  unfold cfgRequest
  split
  · exact phcRequest_clock ..
  · exact .kept (bankRequest_keeps ..)
  · exact .kept (lceRequest_keeps ..)

theorem ctrlReset_clock (s : State) (n : Nat) (f : Flight) : Stays clock s (ctrlReset s n f) := by
  unfold ctrlReset
  exact (Stays.kept (ok_keeps ..)).trans (holdReset_clock ..)

theorem opCfgWrite_clock (s : State) (n : Nat) (f : Flight) : Stays clock s (opCfgWrite s n f) := by
  unfold opCfgWrite
  extract_lets +onlyGivenNames x0 x1
  split
  · exact .kept (fail_keeps ..)
  · refine .ite (Stays.kept (busFail_keeps ..)) ?_
    refine .ite (Stays.kept (fail_keeps ..)) ?_
    extract_lets +onlyGivenNames x2
    have h2 : Stays clock s x2 := Stays.forAll Stays.refl fun _ _ h3 => h3.trans (regWrite_clock ..)
    exact .ite ((h2.keep (setWaiting_keeps ..)).trans (cfgRequest_clock ..)) (h2.keep (ok_keeps ..))

theorem opCtrl_clock (s : State) (n : Nat) (f : Flight) : Stays clock s (opCtrl s n f) := by
  unfold opCtrl
  split
  · exact .kept (ctrlStop_keeps ..)
  · exact .kept (ctrlRestart_keeps ..)
  · exact .kept (ctrlRestart_keeps ..)
  · exact .kept (ctrlTaskStart_keeps ..)
  · exact ctrlReset_clock ..

theorem opImgActivate_clock (s : State) (n : Nat) (f : Flight) : Stays clock s (opImgActivate s n f) := by
  unfold opImgActivate
  extract_lets +onlyGivenNames x0
  split
  · exact .kept (fail_keeps ..)
  · refine .ite ?_ ?_
    · extract_lets +onlyGivenNames x1
      have h1 : Stays clock s x1 := .kept (setWaiting_keeps ..)
      exact h1.upd
    split
    · exact Stays.refl
    · extract_lets +onlyGivenNames x2
      have h2 : Stays clock s x2.1 := activateStopped_clock ..
      exact h2.keep (complete_keeps ..)

theorem opTimed_clock (s : State) (n : Nat) (f : Flight) : Stays clock s (opTimed s n f) := by
  unfold opTimed
  extract_lets +onlyGivenNames x0 x1 x2 x3 x4
  refine .ite (Stays.kept (fail_keeps ..)) ?_
  refine .ite (Stays.kept (fail_keeps ..)) ?_
  refine .ite (Stays.kept (fail_keeps ..)) ?_
  split
  · exact .kept (fail_keeps ..)
  · refine .ite (Stays.kept (fail_keeps ..)) ?_
    extract_lets +onlyGivenNames _ x5
    have h5 : Stays clock s x5 := .kept (setWaiting_keeps ..)
    exact h5.upd

theorem runCore_clock (s : State) (n : Nat) (f : Flight) : Stays clock s (runCore s n f) := by
  unfold runCore
  split
  · exact .kept (ok_keeps ..)
  · exact .kept (opFence_keeps ..)
  · exact .kept (opResume_keeps ..)
  · exact .kept (opPtRead_keeps ..)
  · exact .kept (opPtWrite_keeps ..)
  · exact .kept (opPtWatch_keeps ..)
  · exact .kept (opRioRead_keeps ..)
  · exact .kept (opRioWrite_keeps ..)
  · exact opCfgWrite_clock ..
  · exact .kept (opCfgRead_keeps ..)
  · exact opCtrl_clock ..
  · exact .kept (opImgLoad_keeps ..)
  · exact opImgActivate_clock ..
  · exact .kept (opImgCancel_keeps ..)
  · exact .kept (opInstRead_keeps ..)
  · exact .kept (opInstWrite_keeps ..)
  · exact .kept (opForceSet_keeps ..)
  · exact .kept (opForceRelease_keeps ..)
  · exact .kept (opForceList_keeps ..)
  · exact opTimed_clock ..
  · exact .kept (opHandoffReq_keeps ..)
  · exact .kept (fail_keeps ..)

theorem opRun_clock (s : State) (n : Nat) (f : Flight) : Stays clock s (opRun s n f) := by
  unfold opRun
  exact .ite (runCore_clock ..) (.kept (runMore_keeps ..))

theorem runChecked_clock (s : State) (n : Nat) (f : Flight) (hop : Nat) : Stays clock s (runChecked s n f hop) := by
  unfold runChecked
  extract_lets +onlyGivenNames x0
  have h0 : Stays clock s x0 := opRun_clock ..
  split
  · exact h0
  · refine .ite (((Stays.kept (emit_keeps ..)).keep (poison_keeps ..)).keep (fail_keeps ..)) ?_
    exact .ite ((Stays.kept (poison_keeps ..)).keep (fail_keeps ..)) h0

theorem commitOne_clock (s : State) (n : Nat) (f : Flight) (hop : Nat) : Stays clock s (commitOne s n f hop) := by
  unfold commitOne
  refine .ite ((Stays.kept (poison_keeps ..)).keep (fail_keeps ..)) ?_
  refine .ite (Stays.kept (complete_keeps ..)) ?_
  split
  · exact .kept (fail_keeps ..)
  · exact .ite (Stays.kept (fail_keeps ..)) (.ite (Stays.kept (fail_keeps ..)) (runChecked_clock ..))

theorem commitFront_clock (s : State) (n : Nat) (hop : Nat) : Stays clock s (commitFront s n hop) := by
  unfold commitFront
  split
  · exact .ite (commitOne_clock ..) Stays.refl
  · exact Stays.refl

theorem submit_clock (s : State) (n : Nat) (op : Nat) (d : Desc) : Stays clock s (submit s n op d) := by
  unfold submit
  refine .ite ?_ ?_
  · extract_lets +onlyGivenNames x0
    have h0 : Stays clock s x0 := .kept (fetch_keeps ..)
    exact .ite (h0.trans (commitFront_clock ..)) h0
  exact Stays.refl

theorem execDescriptorCommit_clock (n : Fin 64) (hop : Fin 13) (s : State) :
    LeavesClock s (execDescriptorCommit n hop s) := by
  refine ⟨_, rfl, ?_⟩
  exact commitFront_clock ..

theorem lockNet_clock (s : State) (n : NetEnv) : Stays clock s (lockNet s n) := by
  unfold lockNet
  refine .ite Stays.refl ?_
  extract_lets +onlyGivenNames -merge -useContext x0 _ _ _ _
  have h0 : Stays clock s x0 := .kept (modPort_keeps ..)
  exact h0.upd.trans (ptpState_clock ..)

end Sys2Proof.Proofs
end

section
/-! The phase clock under its own operations (R74 to R116): a phase is reached, a boundary begins the next cycle, a marker is taken or
missed. -/

namespace Sys2Proof.Proofs

set_option Elab.async false

open Machine Laws

/-! ### Where the clock stands -/

/-- The cycle number and the phase. -/
def place (s : State) : Nat × Nat := (s.phc.cycle, s.phc.phase)

theorem Stays.toPlace {s t : State} (h : Stays clock s t) : Stays place s t :=
  .of (Prod.ext h.cycle h.phase)

/-- The state with the clock at a phase of its cycle. -/
def atPhase (s : State) (p : Nat) : State := { s with phc := { s.phc with phase := p } }

theorem Stays.atPhase {s t : State} (h : Stays clock s t) (p : Nat) : Stays clock (atPhase s p) (atPhase t p) :=
  .of (congrArg (fun c : Phc => { c with phase := p }) h.eq)

/-! ### The phase advances (R82) -/

theorem reachPhase_clock (s : State) (p : Nat) : Stays clock (atPhase s p) (reachPhase s p) := by
  have units : Stays clock (atPhase s p) (heldDue (elapseUnits (atPhase s p) (p - s.phc.phase))) :=
    (elapseUnits_clock ..).keep (heldDue_keeps ..)
  exact .ite (units.trans (leaseTick_clock ..)) units

theorem advancePhase_clock (s : State) (p : Nat) : Stays clock (atPhase s p) (advancePhase s p) := by
  have reach (s : State) (p : Nat) : Stays clock (atPhase s p) (finishPass (reachPhase s p)) :=
    (reachPhase_clock s p).keep (finishPass_keeps ..)
  unfold advancePhase
  extract_lets e
  exact .ite (((reach s e).atPhase p).trans (reach ..)) (reach s p)

/-! ### The boundary (R80 to R94, R101) -/

/-- The cycle number, the phase, the state and the count of captures. -/
def face (s : State) : Nat × Nat × Nat × Nat := (s.phc.cycle, s.phc.phase, s.phc.st, s.phc.gen)

theorem Stays.toFace {s t : State} (h : Stays clock s t) : Stays face s t :=
  .of (congrArg (fun c : Phc => (c.cycle, c.phase, c.st, c.gen)) h.eq :)

theorem changeState_face (s : State) (st : Nat) :
    face (changeState s st) = (s.phc.cycle, s.phc.phase, st, s.phc.gen) := by
  unfold changeState
  split
  · rename_i h
    rw [h]
    rfl
  · simp only [face, apply_ite Phc.cycle, apply_ite Phc.phase, apply_ite Phc.st, apply_ite Phc.gen, ite_self]

theorem takeCorr_face (s : State) : Stays face s (takeCorr s) := by
  unfold takeCorr
  split
  · exact .of rfl
  · exact .of rfl
  · exact .ite (.of rfl) (.of rfl)
  · exact .of rfl

theorem takeCapture_face (s : State) : face (takeCapture s) =
    (s.phc.cycle, s.phc.phase, s.phc.st, if s.phc.st = 0 then s.phc.gen else (s.phc.gen + 1) % 2 ^ 32) := by
  unfold takeCapture
  split <;> rfl

theorem takeCapture_place (s : State) : Stays place s (takeCapture s) :=
  .of (congrArg (fun q => (q.1, q.2.1)) (takeCapture_face s) :)

theorem newCycle_face (s : State) : face (newCycle s) =
    (s.phc.cycle, s.phc.phase, nextSt s, if nextSt s = 0 then s.phc.gen else (s.phc.gen + 1) % 2 ^ 32) := by
  unfold newCycle
  extract_lets +onlyGivenNames -merge -useContext was x _ y z
  have turned : face y = (s.phc.cycle, s.phc.phase, nextSt s, s.phc.gen) :=
    ((takeFreq_clock _).toFace.trans (takeCorr_face _)).eq.trans (changeState_face ..)
  have captured : face z =
      (s.phc.cycle, s.phc.phase, nextSt s, if nextSt s = 0 then s.phc.gen else (s.phc.gen + 1) % 2 ^ 32) := by
    obtain ⟨cycle, phase, st, gen⟩ :
        y.phc.cycle = s.phc.cycle ∧ y.phc.phase = s.phc.phase ∧ y.phc.st = nextSt s ∧ y.phc.gen = s.phc.gen := by
      simpa only [face, Prod.mk.injEq] using turned
    rw [takeCapture_face, cycle, phase, st, gen]
  split
  · exact captured
  · exact (Stays.kept (raisePhc_keeps z _)).toFace.eq.trans captured

/-- The state in which a boundary's new cycle begins: every phase of the last one has been reached, the events that waited are
written, and phase 0 of the next cycle number is now. -/
def nextPlace (s : State) : State :=
  let t := advancePhase (flushEvents s) 4096
  { t with phc := { t.phc with cycle := (t.phc.cycle + 1) % 2 ^ 48, phase := 0 } }

/-- The state in which the commits of a boundary come. -/
def begun (s : State) : State :=
  let t := leaseTick (newCycle (nextPlace s))
  forAll t.phc.timed reconvert t

theorem boundary_eq (s : State) : boundary s = periodicEvent (modeBoundary (dueCommits (partDue (begun s)))) := by
  simp only [boundary, begun, nextPlace]

theorem nextPlace_clock (s : State) : clock (nextPlace s) = { clock s with cycle := (s.phc.cycle + 1) % 2 ^ 48, phase := 0 } := by
  have reached : Stays clock (atPhase s 4096) (advancePhase (flushEvents s) 4096) :=
    ((Stays.kept (flushEvents_keeps s)).atPhase 4096).trans (advancePhase_clock ..)
  exact (congrArg (fun c : Phc => { c with cycle := (c.cycle + 1) % 2 ^ 48, phase := 0 }) reached.eq :)

theorem begun_clock (s : State) : Stays clock (newCycle (nextPlace s)) (begun s) :=
  .forAll (leaseTick_clock _) fun _ _ h => h.trans (reconvert_clock ..)

theorem boundary_clock (s : State) : Stays clock (newCycle (nextPlace s)) (boundary s) := by
  rw [boundary_eq]
  exact ((((begun_clock s).keep (partDue_keeps _)).trans (dueCommits_clock _)).keep (modeBoundary_keeps _)).keep
    (periodicEvent_keeps _)

theorem boundary_face (s : State) : face (boundary s) = ((s.phc.cycle + 1) % 2 ^ 48, 0, nextSt (nextPlace s),
    if nextSt (nextPlace s) = 0 then s.phc.gen else (s.phc.gen + 1) % 2 ^ 32) := by
  have gen : (nextPlace s).phc.gen = s.phc.gen := (congrArg Phc.gen (nextPlace_clock s) :)
  have cycle : (nextPlace s).phc.cycle = (s.phc.cycle + 1) % 2 ^ 48 := (congrArg Phc.cycle (nextPlace_clock s) :)
  rw [(boundary_clock s).toFace.eq, newCycle_face, gen, cycle]
  rfl

theorem boundary_place (s : State) : place (boundary s) = ((s.phc.cycle + 1) % 2 ^ 48, 0) :=
  congrArg (fun q => (q.1, q.2.1)) (boundary_face s)

/-! ### Markers and their absence (R74 to R93) -/

theorem takeRef_place (s : State) (freq : Nat) : Stays place s (takeRef s freq) := (takeRef_clock s freq).toPlace

theorem takeMarker_place (s : State) (at_ : Int) : Stays place s (takeMarker s at_) := by
  unfold takeMarker
  split
  exact .ite (.of rfl) (.ite (.of rfl) (.ite (.of rfl) (.of rfl)))

theorem declareLoss_place (s : State) : Stays place s (declareLoss s) :=
  Stays.refl.upd.trans (Stays.kept (raisePhc_keeps ..)).toPlace

theorem missMarker_place (s : State) : Stays place s (missMarker s) := by
  have missed (t : State) (h : Stays place s t) (n : Nat) :
      Stays place s (if 1 ≤ n then declareLoss { t with phc := { t.phc with missN := n + 1 } }
        else { t with phc := { t.phc with missN := n + 1 } }) :=
    .ite (h.upd.trans (declareLoss_place _)) h.upd
  unfold missMarker
  extract_lets +onlyGivenNames -merge -useContext _ x
  have h : Stays place s x := .of rfl
  split
  · exact .of rfl
  · exact missed x h _
  · exact missed x h _
  · exact h

end Sys2Proof.Proofs
end

section
/-! The range of phase and cycle number (R8) through start-up, markers and boundaries. -/

namespace Sys2Proof.Proofs

set_option Elab.async false

open Machine Laws

/-! ### The range of the clock (R8) -/

/-- The phase is one of 4096, the cycle number fits its 48 bits (R8). -/
def InRange (s : State) : Prop := s.phc.phase < 4096 ∧ s.phc.cycle < 2 ^ 48

theorem inRange_of_stays {s t : State} (h : Stays place s t) (hs : InRange s) : InRange t := by
  obtain ⟨cycle, phase⟩ : t.phc.cycle = s.phc.cycle ∧ t.phc.phase = s.phc.phase := Prod.mk.injEq .. ▸ h.eq
  rwa [InRange, cycle, phase]

theorem Stays.inRange {s t : State} (h : Stays clock s t) (hs : InRange s) : InRange t := inRange_of_stays h.toPlace hs

theorem inRange_of_place {s : State} {c : Nat} (h : place s = (c, 0)) (hc : c < 2 ^ 48) : InRange s := by
  obtain ⟨cycle, phase⟩ : s.phc.cycle = c ∧ s.phc.phase = 0 := Prod.mk.injEq .. ▸ h
  rw [InRange, cycle, phase]
  exact ⟨by decide, hc⟩

theorem inRange_boundary (s : State) : InRange (boundary s) :=
  inRange_of_place (boundary_place s) (Nat.mod_lt _ (by decide))

/-! ### Start-up (R147) -/

theorem dropVolatile_place (s : State) : place (dropVolatile s) = (0, 0) := by
  unfold dropVolatile
  extract_lets +onlyGivenNames x y z
  have banks : Stays clock x y := .forAll .refl fun _ _ h => h.keep (modBank_keeps ..)
  have chans : Stays clock y z := .forAll .refl fun _ _ h => h.keep (modChan_keeps ..)
  exact (((banks.trans chans).keep (dropLogic_keeps z)).keep (rset_keeps ..)).toPlace.eq

theorem inRange_dropVolatile (s : State) : InRange (dropVolatile s) := inRange_of_place (dropVolatile_place s) (by decide)

theorem inRange_startHeld (s : State) (n : Nat) : InRange (startHeld s n) := by
  have held : Stays clock (dropVolatile s) (startHeld s n) :=
    (Stays.kept (rset_keeps _ oStartStatus (w32 (0x1F + 256 * s.clk.startCause)))).upd.keep (rset_keeps ..)
  exact held.inRange (inRange_dropVolatile s)

theorem inRange_step5 {s : State} (h : InRange s) (e : StartEnv) : InRange (step5 s e) := by
  unfold step5
  extract_lets +onlyGivenNames -merge -useContext x _ _ _ _ _ p q r y
  have net : Stays clock s x := by
    unfold x
    split
    · exact lockNet_clock ..
    · exact .refl
  have phase : x.phc.phase < 4096 := (net.inRange h).1
  have zero : 0 < 2 ^ 48 := by decide
  have first : InRange y := (Stays.kept (raisePhc_keeps ..)).inRange (s := { x with phc := r }) ⟨phase, zero⟩
  split
  · exact first
  · exact (Stays.kept (ror_keeps ..)).inRange first

theorem inRange_step6 {s : State} (h : InRange s) (partner : Option PartnerEnv) : InRange (step6 s partner) := by
  unfold step6
  extract_lets +onlyGivenNames x
  have asked : InRange x := (Stays.kept (sendNegotiate_keeps ..)).inRange h
  split
  · exact (Stays.kept (takeBall_keeps ..)).inRange h
  cases partner with
  | none => exact (Stays.ite (.kept (takeBall_keeps ..)) (.kept (joinPair_keeps ..))).inRange asked
  | some p =>
    dsimp only
    split
    · have taken : InRange { x with phc := { x.phc with cycle := p.cycle.toNat } } := ⟨asked.1, p.cycle.isLt⟩
      exact ((Stays.kept (meetPartner_keeps ..)).keep (joinPair_keeps ..)).inRange taken
    · refine Stays.inRange ?_ asked
      exact .ite ((Stays.kept (meetPartner_keeps ..)).keep (takeBall_keeps ..))
        ((Stays.kept (meetPartner_keeps ..)).keep (joinPair_keeps ..))

theorem inRange_step8 {s : State} (h : InRange s) (cause : Nat) : InRange (step8 s cause) := by
  unfold step8
  extract_lets +onlyGivenNames -merge -useContext _ x y z
  have dropped : Stays clock s x := Stays.refl.upd.keep (allDrop_keeps ..)
  have started : Stays clock s z := ((dropped.keep (followStop_keeps ..)).keep (rsetFld_keeps ..)).keep (rsetFld_keeps ..)
  have told := started.keep (rsetFld_keeps z oStartStatus 15 14 (if onTwin z then z.twn.role else 0))
  have captured := told.toPlace.trans (takeCapture_place _)
  exact inRange_of_stays (captured.trans (Stays.kept (periodicEvent_keeps _)).toPlace) h

theorem inRange_startSteps (s : State) (e : StartEnv) (cause : Nat) : InRange (startSteps s e cause) := by
  have dropped := inRange_dropVolatile s
  unfold startSteps
  extract_lets +onlyGivenNames x
  split
  · exact (Stays.kept (haltStart_keeps ..)).inRange dropped
  extract_lets +onlyGivenNames y
  have first : Stays clock x y := .kept (step1_keeps ..)
  split
  · exact (first.keep (haltStart_keeps ..)).inRange dropped
  · extract_lets good z
    have third : Stays clock x z :=
      ((first.keep (firmwareStart_keeps (by assumption))).keep (lockSat_keeps _)).keep (step3_keeps ..)
    have fifth : InRange (step5 (step4 z e.banksUp) e) := inRange_step5 ((third.keep (step4_keeps ..)).inRange dropped) e
    exact inRange_step8 ((Stays.kept (step7_keeps ..)).inRange (inRange_step6 fifth _)) _

/-! ### Markers, boundaries and start-up as commands -/

theorem inRange_referenceMarker {s : State} (h : InRange s) (freq : Nat) (frac : Fin 16) (since : Nat) (sub : Fin 16) :
    ∃ u, execReferenceMarker freq frac since sub s = .next (close s u) ∧ InRange u := by
  refine ⟨_, rfl, ?_⟩
  extract_lets +onlyGivenNames x
  have told : InRange x := (takeRef_clock s freq).inRange h
  split
  · split
    · exact inRange_of_place (c := 0) rfl (by decide)
    · exact told
  · split
    · exact inRange_of_stays (takeMarker_place ..) told
    · exact told

theorem inRange_cycleBoundary {s : State} (h : InRange s) : ∃ u, execCycleBoundary s = .next (close s u) ∧ InRange u := by
  refine ⟨_, rfl, ?_⟩
  split
  · exact inRange_boundary s
  · exact h

theorem inRange_missingMarker {s : State} (h : InRange s) : ∃ u, execMissingMarker s = .next (close s u) ∧ InRange u := by
  refine ⟨_, rfl, ?_⟩
  split
  · exact inRange_of_stays (Stays.refl.upd.trans (missMarker_place _)) h
  · exact h

theorem inRange_holdoverTimeout {s : State} (h : InRange s) : ∃ u, execHoldoverTimeout s = .next (close s u) ∧ InRange u := by
  refine ⟨_, rfl, ?_⟩
  split <;> exact h

theorem inRange_stepCycleEnd {s : State} (h : InRange s) (marker : Bool) :
    ∃ u, execStepCycleEnd marker s = .next (close s u) ∧ InRange u := by
  refine ⟨_, rfl, ?_⟩
  split
  · exact inRange_boundary _
  · exact h

theorem inRange_startUp {s : State} (h : InRange s) (env : StartEnv) : ∃ u, execStartUp env s = .next (close s u) ∧ InRange u := by
  refine ⟨_, rfl, ?_⟩
  split
  · exact h
  · split
    · exact inRange_startHeld ..
    · exact inRange_startSteps ..

end Sys2Proof.Proofs
end

section
/-! Phase and cycle number stay in range through every command (O60). -/

namespace Sys2Proof.Proofs

set_option Elab.async false

open Machine Laws

/-! ### Every command (R8, R74) -/

section
variable {may : List Piece} {s : State} {o : Host.Outcome State Fault Refusal}

/-- A command that leaves the phase clock alone. -/
theorem inRange_of_keeps (hk : ∃ u, o = .next (close s u) ∧ Keeps may s u) (h : InRange s)
    (hp : Piece.phc ∉ may := by decide) : ∃ u, o = .next (close s u) ∧ InRange u := by
  obtain ⟨u, hu, keeps⟩ := hk
  exact ⟨u, hu, (Stays.kept keeps hp).inRange h⟩

/-- A command that leaves cycle and phase alone. -/
theorem inRange_of_clock (hk : LeavesClock s o) (h : InRange s) :
    ∃ u, o = .next (close s u) ∧ InRange u := by
  obtain ⟨u, hu, stays⟩ := hk
  exact ⟨u, hu, stays.inRange h⟩

/-- A descriptor of a ring. -/
theorem inRange_submit (h : InRange s) (n op : Nat) (d : Desc) :
    ∃ u, done s (submit s n op d) = .next (close s u) ∧ InRange u :=
  ⟨_, rfl, (submit_clock ..).inRange h⟩

end

/-- The operations of the rings all go through `submit`; of the others only markers, boundaries and start-up move the clock. -/
theorem exec_inRange {s : State} (h : InRange s) (c : Instr) : ∃ u, exec c s = .next (close s u) ∧ InRange u := by
  cases c with
  | registerWrite => exact inRange_of_clock (execRegisterWrite_clock ..) h
  | latchedRead => exact inRange_of_keeps (execLatchedRead_keeps ..) h
  | seatingRecognised => exact inRange_of_keeps (execSeatingRecognised_keeps ..) h
  | seatLoss => exact inRange_of_clock (execSeatLoss_clock ..) h
  | slotCodeChange => exact inRange_of_clock (execSlotCodeChange_clock ..) h
  | logicInputGood => exact inRange_of_keeps (execLogicInputGood_keeps ..) h
  | logicInputLost => exact inRange_of_keeps (execLogicInputLost_keeps ..) h
  | peerSeatChg => exact inRange_of_keeps (execPeerSeatChg_keeps ..) h
  | cartChg => exact inRange_of_clock (execCartChg_clock ..) h
  | thermalUpdate => exact inRange_of_keeps (execThermalUpdate_keeps ..) h
  | referenceMarker => exact inRange_referenceMarker h ..
  | cycleBoundary => exact inRange_cycleBoundary h
  | missingMarker => exact inRange_missingMarker h
  | holdoverTimeout => exact inRange_holdoverTimeout h
  | stepCycleEnd => exact inRange_stepCycleEnd h _
  | bankConvert => exact inRange_of_clock (execBankConvert_clock ..) h
  | lcePass => exact inRange_of_clock (execLcePass_clock ..) h
  | waitingPassStart => exact inRange_of_keeps (execWaitingPassStart_keeps ..) h
  | bleTask => exact inRange_of_clock (execBleTask_clock ..) h
  | taskCycleResume => exact inRange_of_keeps (execTaskCycleResume_keeps ..) h
  | taskCycleCommit => exact inRange_of_keeps (execTaskCycleCommit_keeps ..) h
  | zcOutput => exact inRange_of_keeps (execZcOutput_keeps ..) h
  | zcSwitch => exact inRange_of_clock (execZcSwitch_clock ..) h
  | mtrClose => exact inRange_of_clock (execMtrClose_clock ..) h
  | twnSample => exact inRange_of_clock (execTwnSample_clock ..) h
  | defaultSample => exact inRange_of_clock (execDefaultSample_clock ..) h
  | hostEvent => exact inRange_of_clock (execHostEvent_clock ..) h
  | phcCommit => exact inRange_of_clock (execPhcCommit_clock ..) h
  | phcCommitPoint => exact inRange_of_clock (execPhcCommitPoint_clock ..) h
  | timedActionFire => exact inRange_of_clock (execTimedActionFire_clock ..) h
  | clockSourceSwitch => exact inRange_of_keeps (execClockSourceSwitch_keeps ..) h
  | switchComplete => exact inRange_of_clock (execSwitchComplete_clock ..) h
  | forcedSwitch => exact inRange_of_clock (execForcedSwitch_clock ..) h
  | sourceFail => exact inRange_of_clock (execSourceFail_clock ..) h
  | resetWaitExit => exact inRange_of_keeps (execResetWaitExit_keeps ..) h
  | gateClose => exact inRange_of_keeps (execGateClose_keeps ..) h
  | gateCloseTimeout => exact inRange_of_keeps (execGateCloseTimeout_keeps ..) h
  | gateOpen => exact inRange_of_keeps (execGateOpen_keeps ..) h
  | sleepWake => exact inRange_of_keeps (execSleepWake_keeps ..) h
  | fmStart => exact inRange_of_keeps (execFmStart_keeps ..) h
  | fmDone => exact inRange_of_keeps (execFmDone_keeps ..) h
  | powerFailWarning => exact inRange_of_keeps (execPowerFailWarning_keeps ..) h
  | powerFailRestart => exact inRange_of_clock (execPowerFailRestart_clock ..) h
  | holdupEnd => exact inRange_of_clock (execHoldupEnd_clock ..) h
  | startUp => exact inRange_startUp h _
  | pePerst => exact inRange_of_clock (execPePerst_clock ..) h
  | supWdogExpiry => exact inRange_of_clock (execSupWdogExpiry_clock ..) h
  | bankLinkKeepalive => exact inRange_of_keeps (execBankLinkKeepalive_keeps ..) h
  | readingFrame => exact inRange_of_keeps (execReadingFrame_keeps ..) h
  | diagnosticFrame => exact inRange_of_keeps (execDiagnosticFrame_keeps ..) h
  | keepAliveFrame => exact inRange_of_keeps (execKeepAliveFrame_keeps ..) h
  | outputFrame => exact inRange_of_keeps (execOutputFrame_keeps ..) h
  | configurationFrame => exact inRange_of_keeps (execConfigurationFrame_keeps ..) h
  | linkDown => exact inRange_of_keeps (execLinkDown_keeps ..) h
  | bnkCommit => exact inRange_of_keeps (execBnkCommit_keeps ..) h
  | bankCommitPoint => exact inRange_of_keeps (execBankCommitPoint_keeps ..) h
  | pwmPeriodStart => exact inRange_of_keeps (execPwmPeriodStart_keeps ..) h
  | shortShutdown => exact inRange_of_keeps (execShortShutdown_keeps ..) h
  | overloadShutdown => exact inRange_of_keeps (execOverloadShutdown_keeps ..) h
  | outputRetry => exact inRange_of_keeps (execOutputRetry_keeps ..) h
  | faultClear => exact inRange_of_keeps (execFaultClear_keeps ..) h
  | openWireDetect => exact inRange_of_keeps (execOpenWireDetect_keeps ..) h
  | openLoadDetect => exact inRange_of_keeps (execOpenLoadDetect_keeps ..) h
  | extDriveDetect => exact inRange_of_keeps (execExtDriveDetect_keeps ..) h
  | loadShed => exact inRange_of_keeps (execLoadShed_keeps ..) h
  | fieldSupplyLost => exact inRange_of_keeps (execFieldSupplyLost_keeps ..) h
  | fieldSupplyGood => exact inRange_of_keeps (execFieldSupplyGood_keeps ..) h
  | bankControllerReset => exact inRange_of_keeps (execBankControllerReset_keeps ..) h
  | bankStart => exact inRange_of_keeps (execBankStart_keeps ..) h
  | bankOvertemp => exact inRange_of_keeps (execBankOvertemp_keeps ..) h
  | overtempClearable => exact inRange_of_keeps (execOvertempClearable_keeps ..) h
  | bnkSafeCmd => exact inRange_of_keeps (execBnkSafeCmd_keeps ..) h
  | bnkRelease => exact inRange_of_keeps (execBnkRelease_keeps ..) h
  | bankWatchdogExpiry => exact inRange_of_keeps (execBankWatchdogExpiry_keeps ..) h
  | diagLatchReport => exact inRange_of_keeps (execDiagLatchReport_keeps ..) h
  | complianceChange => exact inRange_of_keeps (execComplianceChange_keeps ..) h
  | voltageOutputShort => exact inRange_of_keeps (execVoltageOutputShort_keeps ..) h
  | inputSample => exact inRange_of_keeps (execInputSample_keeps ..) h
  | countPathSample => exact inRange_of_keeps (execCountPathSample_keeps ..) h
  | currentOutputOpen => exact inRange_of_keeps (execCurrentOutputOpen_keeps ..) h
  | holdupFull => exact inRange_of_keeps (execHoldupFull_keeps ..) h
  | sourceGood => exact inRange_of_clock (execSourceGood_clock ..) h
  | pePerstRelease => exact inRange_of_keeps (execPePerstRelease_keeps ..) h
  | lceCommit => exact inRange_of_keeps (execLceCommit_keeps ..) h
  | lceBuildComplete => exact inRange_of_keeps (execLceBuildComplete_keeps ..) h
  | saturationSave => exact inRange_of_keeps (execSaturationSave_keeps ..) h
  | retainSaveDone => exact inRange_of_keeps (execRetainSaveDone_keeps ..) h
  | programStoreWriteDone => exact inRange_of_keeps (execProgramStoreWriteDone_keeps ..) h
  | onlineBuildComplete => exact inRange_of_keeps (execOnlineBuildComplete_keeps ..) h
  | onlineSwitch => exact inRange_of_clock (execOnlineSwitch_clock ..) h
  | noWindow => exact inRange_of_keeps (execNoWindow_keeps ..) h
  | canPortEnable => exact inRange_of_keeps (execCanPortEnable_keeps ..) h
  | canPortDisable => exact inRange_of_keeps (execCanPortDisable_keeps ..) h
  | canBufferEnable => exact inRange_of_keeps (execCanBufferEnable_keeps ..) h
  | canMapEnable => exact inRange_of_keeps (execCanMapEnable_keeps ..) h
  | canFrameReceived => exact inRange_of_keeps (execCanFrameReceived_keeps ..) h
  | canTransmitEnd => exact inRange_of_keeps (execCanTransmitEnd_keeps ..) h
  | canErrorStateChange => exact inRange_of_keeps (execCanErrorStateChange_keeps ..) h
  | canRecoverCmd => exact inRange_of_keeps (execCanRecoverCmd_keeps ..) h
  | canRecovered => exact inRange_of_keeps (execCanRecovered_keeps ..) h
  | canBallTaken => exact inRange_of_keeps (execCanBallTaken_keeps ..) h
  | mappedTx => exact inRange_of_keeps (execMappedTx_keeps ..) h
  | canRxStale => exact inRange_of_keeps (execCanRxStale_keeps ..) h
  | ballRequest => exact inRange_of_clock (execBallRequest_clock ..) h
  | holdLineChange => exact inRange_of_clock (execHoldLineChange_clock ..) h
  | leaseExpiry => exact inRange_of_clock (execLeaseExpiry_clock ..) h
  | stateFrameRx _ _ ts => exact inRange_of_clock (execStateFrameRx_clock _ _ ts ..) h
  | rallyFrameRx => exact inRange_of_clock (execRallyFrameRx_clock ..) h
  | twinlinkCheck => exact inRange_of_clock (execTwinlinkCheck_clock ..) h
  | twinlinkLinkDown => exact inRange_of_keeps (execTwinlinkLinkDown_keeps ..) h
  | heartbeatSend => exact inRange_of_keeps (execHeartbeatSend_keeps ..) h
  | heartbeatRx => exact inRange_of_keeps (execHeartbeatRx_keeps ..) h
  | fieldlinkMiss => exact inRange_of_clock (execFieldlinkMiss_clock ..) h
  | fullCopyRequest => exact inRange_of_keeps (execFullCopyRequest_keeps ..) h
  | fullCopyComplete => exact inRange_of_clock (execFullCopyComplete_clock ..) h
  | selfTest => exact inRange_of_clock (execSelfTest_clock ..) h
  | plannedHandoffBoundary => exact inRange_of_keeps (execPlannedHandoffBoundary_keeps ..) h
  | handoffFail => exact inRange_of_keeps (execHandoffFail_keeps ..) h
  | takeback => exact inRange_of_keeps (execTakeback_keeps ..) h
  | sensePathOpen => exact inRange_of_keeps (execSensePathOpen_keeps ..) h
  | portLinkUp => exact inRange_of_keeps (execPortLinkUp_keeps ..) h
  | portLinkDown => exact inRange_of_clock (execPortLinkDown_clock ..) h
  | frameReceived => exact inRange_of_keeps (execFrameReceived_keeps ..) h
  | frameTransmitEnd => exact inRange_of_keeps (execFrameTransmitEnd_keeps ..) h
  | addressAgeOut => exact inRange_of_keeps (execAddressAgeOut_keeps ..) h
  | lpiEntry => exact inRange_of_keeps (execLpiEntry_keeps ..) h
  | speedStepDown => exact inRange_of_clock (execSpeedStepDown_clock ..) h
  | speedStepUp => exact inRange_of_clock (execSpeedStepUp_clock ..) h
  | filterApply => exact inRange_of_keeps (execFilterApply_keeps ..) h
  | announceRx => exact inRange_of_clock (execAnnounceRx_clock ..) h
  | syncRx => exact inRange_of_clock (execSyncRx_clock ..) h
  | followUpRx => exact inRange_of_clock (execFollowUpRx_clock ..) h
  | delayRespRx => exact inRange_of_clock (execDelayRespRx_clock ..) h
  | delayReqSend => exact inRange_of_keeps (execDelayReqSend_keeps ..) h
  | masterLost => exact inRange_of_clock (execMasterLost_clock ..) h
  | stationReq => exact inRange_of_keeps (execStationReq_keeps ..) h
  | stationRsp => exact inRange_of_keeps (execStationRsp_keeps ..) h
  | stationTimeout => exact inRange_of_keeps (execStationTimeout_keeps ..) h
  | stationEnable => exact inRange_of_keeps (execStationEnable_keeps ..) h
  | stepLockEnd => exact inRange_of_clock (execStepLockEnd_clock ..) h
  | sealChange => exact inRange_of_keeps (execSealChange_keeps ..) h
  | cartridgeRun => exact inRange_of_clock (execCartridgeRun_clock ..) h
  | cartridgeCycle => exact inRange_of_clock (execCartridgeCycle_clock ..) h
  | closeStrobe => exact inRange_of_keeps (execCloseStrobe_keeps ..) h
  | autoClose => exact inRange_of_keeps (execAutoClose_keeps ..) h
  | temperatureReading => exact inRange_of_keeps (execTemperatureReading_keeps ..) h
  | pulseOutput => exact inRange_of_keeps (execPulseOutput_keeps ..) h
  | periodicSave => exact inRange_of_keeps (execPeriodicSave_keeps ..) h
  | supplyLoss => exact inRange_of_keeps (execSupplyLoss_keeps ..) h
  | cartridgeSupplyDip => exact inRange_of_keeps (execCartridgeSupplyDip_keeps ..) h
  | readLog => exact inRange_of_keeps (execReadLog_keeps ..) h
  | readInterval => exact inRange_of_keeps (execReadInterval_keeps ..) h
  | setTenant => exact inRange_of_keeps (execSetTenant_keeps ..) h
  | readParam => exact inRange_of_keeps (execReadParam_keeps ..) h
  | showCheck => exact inRange_of_keeps (execShowCheck_keeps ..) h
  | showCheckEnd => exact inRange_of_keeps (execShowCheckEnd_keeps ..) h
  | paramStage => exact inRange_of_keeps (execParamStage_keeps ..) h
  | paramCommit => exact inRange_of_keeps (execParamCommit_keeps ..) h
  | paramDiscard => exact inRange_of_keeps (execParamDiscard_keeps ..) h
  | setMeterId => exact inRange_of_keeps (execSetMeterId_keeps ..) h
  | doorCommandDone => exact inRange_of_keeps (execDoorCommandDone_keeps ..) h
  | rtcHalt => exact inRange_of_keeps (execRtcHalt_keeps ..) h
  | rtcResume => exact inRange_of_keeps (execRtcResume_keeps ..) h
  | rtcResumeAdd => exact inRange_of_keeps (execRtcResumeAdd_keeps ..) h
  | rtcCountWrite => exact inRange_of_keeps (execRtcCountWrite_keeps ..) h
  | rtcCdWrite => exact inRange_of_keeps (execRtcCdWrite_keeps ..) h
  | cdExpired => exact inRange_of_keeps (execCdExpired_keeps ..) h
  | oscStop => exact inRange_of_keeps (execOscStop_keeps ..) h
  | retentionLost => exact inRange_of_keeps (execRetentionLost_keeps ..) h
  | batteryMeasure => exact inRange_of_keeps (execBatteryMeasure_keeps ..) h
  | batteryMeasureDone => exact inRange_of_keeps (execBatteryMeasureDone_keeps ..) h
  | optimeSave => exact inRange_of_keeps (execOptimeSave_keeps ..) h
  | recordWrite => exact inRange_of_keeps (execRecordWrite_keeps ..) h
  | recordDrop => exact inRange_of_keeps (execRecordDrop_keeps ..) h
  | rngVerHost => exact inRange_of_keeps (execRngVerHost_keeps ..) h
  | ringEnable => exact inRange_of_keeps (execRingEnable_keeps ..) h
  | ringDisable => exact inRange_of_keeps (execRingDisable_keeps ..) h
  | sqTail => exact inRange_of_keeps (execSqTail_keeps ..) h
  | cqHead => exact inRange_of_keeps (execCqHead_keeps ..) h
  | descriptorFetch => exact inRange_of_keeps (execDescriptorFetch_keeps ..) h
  | descriptorCommit => exact inRange_of_clock (execDescriptorCommit_clock ..) h
  | dmaTimeout => exact inRange_of_keeps (execDmaTimeout_keeps ..) h
  | interruptTimer => exact inRange_of_keeps (execInterruptTimer_keeps ..) h
  | functionLevelReset => exact inRange_of_clock (execFunctionLevelReset_clock ..) h
  | busMasterDisable => exact inRange_of_clock (execBusMasterDisable_clock ..) h
  | eventLost => exact inRange_of_keeps (execEventLost_keeps ..) h
  | watchReport => exact inRange_of_keeps (execWatchReport_keeps ..) h
  | glbPartCommit => exact inRange_of_keeps (execGlbPartCommit_keeps ..) h
  | lcRequest => exact inRange_of_keeps (execLcRequest_keeps ..) h
  | remask => exact inRange_of_keeps (execRemask_keeps ..) h
  | entropyFail => exact inRange_of_keeps (execEntropyFail_keeps ..) h
  | entropyRecover => exact inRange_of_keeps (execEntropyRecover_keeps ..) h
  | updFrag => exact inRange_of_keeps (execUpdFrag_keeps ..) h
  | updReport => exact inRange_of_keeps (execUpdReport_keeps ..) h
  | updateVerifyDone => exact inRange_of_keeps (execUpdateVerifyDone_keeps ..) h
  | install => exact inRange_of_clock (execInstall_clock ..) h
  | fallback => exact inRange_of_clock (execFallback_clock ..) h
  | cartInstall => exact inRange_of_keeps (execCartInstall_keeps ..) h
  | cartSoftwareDone => exact inRange_of_clock (execCartSoftwareDone_clock ..) h
  | trialTimeExpiry => exact inRange_of_clock (execTrialTimeExpiry_clock ..) h
  | fallbackHandoffRetry => exact inRange_of_clock (execFallbackHandoffRetry_clock ..) h
  | nop | fence | resume | ptRead | ptWrite | ptWatchAdd | ptWatchRemove | rioRead | rioWrite | cfgWrite | cfgRead
  | ctrlStop | ctrlRestart | ctrlRestartCold | ctrlTaskStart | ctrlReset | imgLoad | imgActivate | imgCancel
  | instRead | instWrite | forceSet | forceRelease | forceList | timed | handoffReq | mtrReadSet | mtrReadInterval
  | mtrReadLog | mtrReadParam | mtrSetTenant | recRead | keyGen | keyDerive | keyInvalidate | keyAttest | keyEnrol
  | aeadEncrypt | aeadDecrypt | sign | keyInfo | canTx | canRx | canRecover | ethTx | ethRxPost | updChunk
  | updStatus | updConfirm | updAbort => exact inRange_submit h ..

/-- Settles O60: what closes a command leaves the clock as it is, and before that it is in range. -/
theorem phaseAndCycleStayInRange : Obligations.PhaseAndCycleStayInRange := by
  unfold Obligations.PhaseAndCycleStayInRange
  intro c s t ht phase cycle
  obtain ⟨u, hu, inRange⟩ := exec_inRange ⟨phase, cycle⟩ c
  obtain rfl : close s u = t := Host.Outcome.next.inj (hu.symm.trans ht)
  rw [close_phc]
  exact inRange

end Sys2Proof.Proofs
end

section
/-! The step on an empty queue (O44), and the registers after reset (O45). -/

namespace Sys2Proof.Proofs

set_option Elab.async false

open Machine Laws

/-! ### A step on an empty queue (log 3, log 42) -/

/-- Within its cycle the running clock reaches its next phase. -/
theorem tick_running {s : State} (run : s.phc.run = true) (alive : s.clk.alive = true) (within : s.phc.phase < 4095) :
    Stays clock (atPhase s (s.phc.phase + 1)) (tick s) := by
  have k := flushEvents_keeps s
  have phc : (flushEvents s).phc = s.phc := k.phc_eq (by decide)
  have clk : (flushEvents s).clk = s.clk := k.clk_eq (by decide)
  have e : tick s = advancePhase (flushEvents s) (s.phc.phase + 1) := by
    simp [tick, phc, clk, run, alive, within]
  rw [e]
  exact ((Stays.kept k).atPhase _).trans (advancePhase_clock ..)

theorem elapseNs_up (s : State) (ns : Nat) : (elapseNs s ns).up = s.up + ns := by
  have ran : (ntElapse (opElapse (rtcElapse s ns) ns) ns).up = s.up :=
    calc
      _ = (opElapse (rtcElapse s ns) ns).up := (ntElapse_keeps ..).up_eq (by decide)
      _ = (rtcElapse s ns).up := (opElapse_keeps ..).up_eq (by decide)
      _ = s.up := (rtcElapse_keeps ..).up_eq (by decide)
  exact congrArg (· + ns) ran

/-- Where the clock does not run one tick of the RTC domain passes. -/
theorem tick_stopped {s : State} (h : s.phc.run = false ∨ s.clk.alive = false) :
    (tick s).phc = s.phc ∧ (tick s).up = s.up + 30518 := by
  have k := flushEvents_keeps s
  have stopped : ¬ ((flushEvents s).phc.run && (flushEvents s).clk.alive) = true := by
    rw [k.phc_eq (by decide), k.clk_eq (by decide)]
    rcases h with h | h <;> simp [h]
  have e : tick s = elapseNs (flushEvents s) 30518 := if_neg stopped
  rw [e]
  refine ⟨((elapseNs_keeps ..).phc_eq (by decide)).trans (k.phc_eq (by decide)), ?_⟩
  rw [elapseNs_up, k.up_eq (by decide)]

/-- The cycle's last unit waits for its boundary. -/
theorem tick_last {s : State} (run : s.phc.run = true) (alive : s.clk.alive = true) (last : 4095 ≤ s.phc.phase) :
    tick s = flushEvents s := by
  have k := flushEvents_keeps s
  have phc : (flushEvents s).phc = s.phc := k.phc_eq (by decide)
  have clk : (flushEvents s).clk = s.clk := k.clk_eq (by decide)
  simp [tick, phc, clk, run, alive, Nat.not_lt.mpr last]

/-- Settles O44: a step on an empty queue ends as `close` around the tick, which is one of these three. -/
theorem idleStepPassesOnePhaseUnit : Obligations.IdleStepPassesOnePhaseUnit := by
  unfold Obligations.IdleStepPassesOnePhaseUnit
  intro s empty
  have waits (run : s.phc.run = true) (alive : s.clk.alive = true) (last : 4095 ≤ s.phc.phase) :
      (tick s).phc = s.phc ∧ (tick s).up = s.up := by
    rw [tick_last run alive last]
    exact ⟨(flushEvents_keeps s).phc_eq (by decide), (flushEvents_keeps s).up_eq (by decide)⟩
  have cycle : (tick s).phc.cycle = s.phc.cycle := by
    by_cases stopped : s.phc.run = false ∨ s.clk.alive = false
    · rw [(tick_stopped stopped).1]
    · obtain ⟨run, alive⟩ : s.phc.run = true ∧ s.clk.alive = true := by simpa using stopped
      rcases Nat.lt_or_ge s.phc.phase 4095 with within | last
      · exact (tick_running run alive within).cycle
      · rw [(waits run alive last).1]
  refine ⟨close s (tick s), by rw [step, empty]; rfl, empty, ?_, fun run alive within => ?_, fun stopped => ?_,
    fun run alive last => ?_⟩ <;> simp only [close_phc, close_up]
  · exact cycle
  · exact (tick_running run alive within).phase
  · exact tick_stopped stopped
  · exact waits run alive last

/-! ### After reset -/

/-- Settles O45: the listed registers are read from the state after reset, word by word. -/
theorem resetRegisterValues : Obligations.ResetRegisterValues := by
  unfold Obligations.ResetRegisterValues
  exact ⟨by decide +kernel, rfl, rfl, rfl, rfl, rfl⟩

end Sys2Proof.Proofs
end

section
/-! SUPPORT. The two registers a boundary comes back to, PWR_CTRL and PHC_EVENT, under the operations in which a cycle ends. -/

namespace Sys2Proof.Proofs

set_option Elab.async false

open Machine Laws

/-! ### The registers that a boundary comes back to -/

/-- PWR_CTRL, from which a boundary takes the power mode, and PHC_EVENT, in which a step cycle has left its bit. -/
def modeRegs (s : State) : Word × Word := (rget s oPwrCtrl, rget s oPhcEvent)

/-- The offset is neither's. -/
abbrev Elsewhere (o : Nat) : Prop := o ≠ oPwrCtrl ∧ o ≠ oPhcEvent

section
variable {may : List Piece} {s t u : State}

theorem Stays.keptRegs (g : Keeps may s t) (hp : Piece.regs ∉ may := by decide) : Stays modeRegs s t :=
  .of (Prod.ext (g.rget hp _) (g.rget hp _))

theorem Stays.keepRegs (h : Stays modeRegs s t) (g : Keeps may t u) (hp : Piece.regs ∉ may := by decide) : Stays modeRegs s u
    :=
  h.trans (.keptRegs g hp)

end

theorem Elsewhere.bank (b k : Nat) : Elsewhere (oBank b + k) := by
  unfold Elsewhere oBank oPwrCtrl oPhcEvent
  omega

theorem Elsewhere.latch (c : Nat) : Elsewhere (oLatch c) := by
  unfold oLatch oChan
  rw [Nat.add_assoc, Nat.add_assoc]
  exact .bank _ _

theorem Elsewhere.ring (n k : Nat) : Elsewhere (oRing n + k) := by
  unfold Elsewhere oRing oPwrCtrl oPhcEvent
  omega

theorem rset_modeRegs (s : State) {o : Nat} (v : Word) (ho : Elsewhere o) : Stays modeRegs s (rset s o v) :=
  .of (Prod.ext (rget_rset_other s v ho.1.symm) (rget_rset_other s v ho.2.symm))

theorem ror_modeRegs (s : State) {o : Nat} (m : Word) (ho : Elsewhere o) : Stays modeRegs s (ror s o m) :=
  rset_modeRegs _ _ ho

theorem raiseBits_modeRegs (s : State) {o : Nat} (bits obj : Word) (part : Nat) (host rec_ : Bool) (extra : List Word)
    (ho : Elsewhere o) : Stays modeRegs s (raiseBits s o bits obj part host rec_ extra) := by
  unfold raiseBits
  exact .ite .refl ((ror_modeRegs _ _ ho).keepRegs (regEvent_keeps ..))

theorem raiseBoth_modeRegs (s : State) {o : Nat} (bits : Word) (ho : Elsewhere o) : Stays modeRegs s (raiseBoth s o bits) :=
  raiseBits_modeRegs s bits _ _ _ _ _ ho

/-! ### Operation by operation -/

theorem twnEvent_modeRegs (s : State) (bit : Nat) : Stays modeRegs s (twnEvent s bit) := by
  unfold twnEvent
  exact raiseBoth_modeRegs _ _ (by decide)

theorem latchRise_modeRegs (s : State) (c : Nat) (rise : Word) : Stays modeRegs s (latchRise s c rise) := by
  unfold latchRise
  extract_lets +onlyGivenNames _
  refine .ite Stays.refl ?_
  extract_lets +onlyGivenNames x1 _
  have h1 : Stays modeRegs s x1 := ror_modeRegs _ _ (.latch c)
  exact .ite (h1.keepRegs (setChan_keeps ..)) ((h1.keepRegs (setChan_keeps ..)).keepRegs (latchReport_keeps ..))

theorem putDiag_modeRegs (s : State) (c : Nat) (w : Word) : Stays modeRegs s (putDiag s c w) := by
  unfold putDiag
  extract_lets +onlyGivenNames -merge -useContext _ _ _ x2 x3 x4
  have h2 : Stays modeRegs s x2 := .keptRegs (setChan_keeps ..)
  have h3 : Stays modeRegs s x3 := h2.keepRegs (pset_keeps ..)
  have h4 : Stays modeRegs s x4 := h3.trans (latchRise_modeRegs ..)
  exact .ite (h4.keepRegs (failValue_keeps ..)) h4

theorem setDiagBit_modeRegs (s : State) (c : Nat) (i : Nat) (v : Bool) : Stays modeRegs s (setDiagBit s c i v) := by
  unfold setDiagBit
  extract_lets +onlyGivenNames x0
  have h0 : Stays modeRegs s x0 := .keptRegs (setB_keeps ..)
  exact h0.trans (putDiag_modeRegs ..)

theorem bankEvent_modeRegs (s : State) (b : Nat) (bits : Word) (extra : List Word) :
    Stays modeRegs s (bankEvent s b bits extra) := by
  unfold bankEvent
  exact raiseBits_modeRegs _ _ _ _ _ _ _ (.bank b _)

theorem safeEvent_modeRegs (s : State) (b : Nat) (bit : Word) : Stays modeRegs s (safeEvent s b bit) := by
  unfold safeEvent
  extract_lets +onlyGivenNames _
  exact .ite (bankEvent_modeRegs ..) (.keptRegs (regEvent_keeps ..))

theorem enterSafe_modeRegs (s : State) (b : Nat) : Stays modeRegs s (enterSafe s b) := by
  unfold enterSafe
  extract_lets +onlyGivenNames x0 x1 x3
  have h0 : Stays modeRegs s x0 := .keptRegs (modBank_keeps ..)
  have h1 : Stays modeRegs s x1 := Stays.forAll h0 fun _ _ h2 => h2.keepRegs (safeChan_keeps ..)
  have h3 : Stays modeRegs s x3 := Stays.forAll h1 fun _ _ h4 => h4.trans (setDiagBit_modeRegs ..)
  exact h3.trans (safeEvent_modeRegs ..)

theorem addCause_modeRegs (s : State) (b : Nat) (bit : Nat) : Stays modeRegs s (addCause s b bit) := by
  unfold addCause
  extract_lets +onlyGivenNames x0
  have h0 : Stays modeRegs s x0 := .keptRegs (modBank_keeps ..)
  exact .ite h0 (h0.trans (enterSafe_modeRegs ..))

theorem allCause_modeRegs (s : State) (bit : Nat) : Stays modeRegs s (allCause s bit) := by
  unfold allCause
  exact Stays.forAll Stays.refl fun _ _ h0 => h0.trans (addCause_modeRegs ..)

theorem redoDiag_modeRegs (s : State) (c : Nat) : Stays modeRegs s (redoDiag s c) := by
  unfold redoDiag
  exact putDiag_modeRegs ..

theorem stopDriving_modeRegs (s : State) (b : Nat) : Stays modeRegs s (stopDriving s b) := by
  unfold stopDriving
  refine Stays.forAll Stays.refl fun _ _ h0 => ?_
  extract_lets +onlyGivenNames x1
  have h1 : Stays modeRegs s x1 :=
    .ite (((h0.keepRegs (setB_keeps ..)).keepRegs (setB_keeps ..)).keepRegs (setB_keeps ..)) h0
  exact (h1.keepRegs (redoStage_keeps ..)).trans (redoDiag_modeRegs ..)

theorem bankHold_modeRegs (s : State) (b : Nat) (ownRise : Bool) (peerRise : Bool) :
    Stays modeRegs s (bankHold s b ownRise peerRise) := by
  unfold bankHold
  extract_lets +onlyGivenNames _ _ _ x3
  have h3 : Stays modeRegs s x3 := .keptRegs (setBank_keeps ..)
  refine .ite h3 ?_
  refine .ite ?_ ?_
  · exact Stays.forAll h3 fun _ _ h4 => (h4.keepRegs (redoStage_keeps ..)).trans (redoDiag_modeRegs ..)
  exact h3.trans (stopDriving_modeRegs ..)

theorem setHold_modeRegs (s : State) (own : Bool) (peer : Bool) : Stays modeRegs s (setHold s own peer) := by
  unfold setHold
  extract_lets +onlyGivenNames -merge -useContext _ _ _ x2
  have h2 : Stays modeRegs s x2 := .of rfl
  exact Stays.forAll h2 fun _ _ h3 => h3.trans (bankHold_modeRegs ..)

theorem phcApply_modeRegs (s : State) : Stays modeRegs s (phcApply s) := by
  unfold phcApply
  extract_lets +onlyGivenNames -merge -useContext _ x0 _ x2
  have h0 : Stays modeRegs s x0 := .of rfl
  have h2 : Stays modeRegs s x2 := h0.upd.keepRegs (renominal_keeps ..)
  exact h2.trans (rset_modeRegs _ _ (by decide))

theorem phcRefuse_modeRegs (s : State) (code : Nat) (ctrl : Bool) (idx : Nat) :
    Stays modeRegs s (phcRefuse s code ctrl idx) := by
  unfold phcRefuse
  exact rset_modeRegs _ _ (by decide)

theorem loseEvent_modeRegs (s : State) (n : Nat) (cls : Nat) : Stays modeRegs s (loseEvent s n cls) := by
  unfold loseEvent
  extract_lets +onlyGivenNames x0
  have h0 : Stays modeRegs s x0 := .keptRegs (modRing_keeps ..)
  exact h0.trans (ror_modeRegs _ _ (.ring n _))

theorem giveEvent_modeRegs (s : State) (n : Nat) (e : Ev) : Stays modeRegs s (giveEvent s n e) := by
  unfold giveEvent
  extract_lets +onlyGivenNames x0
  have h0 : Stays modeRegs s x0 := .keptRegs (tellLost_keeps ..)
  exact .ite (h0.trans (loseEvent_modeRegs ..)) (h0.keepRegs (writeRecord_keeps ..))

theorem deliver_modeRegs (s : State) (e : Ev) : Stays modeRegs s (deliver s e) := by
  unfold deliver
  exact Stays.forAll Stays.refl fun _ _ h0 => .ite (h0.trans (giveEvent_modeRegs ..)) h0

theorem dropRecord_modeRegs (s : State) (cls : Nat) : Stays modeRegs s (dropRecord s cls) := by
  unfold dropRecord
  extract_lets +onlyGivenNames x0 x1
  have h0 : Stays modeRegs s x0 := rset_modeRegs _ _ (by decide)
  have h1 : Stays modeRegs s x1 := .upd h0
  exact h1.trans (raiseBoth_modeRegs _ _ (by decide))

theorem enqueueRec_modeRegs (s : State) (e : Ev) : Stays modeRegs s (enqueueRec s e) := by
  unfold enqueueRec
  exact .ite (dropRecord_modeRegs ..) (.of rfl)

theorem flushEvents_modeRegs (s : State) : Stays modeRegs s (flushEvents s) := by
  unfold flushEvents
  refine Stays.forAll (.of rfl) fun _ _ h0 => ?_
  extract_lets +onlyGivenNames x1
  have h1 : Stays modeRegs s x1 := .ite (h0.trans (deliver_modeRegs ..)) h0
  exact .ite (h1.trans (enqueueRec_modeRegs ..)) h1

theorem modeChanged_modeRegs (s : State) (c : Nat) : Stays modeRegs s (modeChanged s c) := by
  unfold modeChanged
  extract_lets +onlyGivenNames _ x1 x2 x3 _ x5
  have h1 : Stays modeRegs s x1 := .keptRegs (pset_keeps ..)
  have h2 : Stays modeRegs s x2 := h1.keepRegs (putSig_keeps ..)
  have h3 : Stays modeRegs s x3 := h2.keepRegs (modChan_keeps ..)
  have h5 : Stays modeRegs s x5 := h3.trans (putDiag_modeRegs ..)
  exact .ite (h5.keepRegs (releaseForces_keeps ..)) h5

theorem bankApply_modeRegs (s : State) (b : Nat) : Stays modeRegs s (bankApply s b) := by
  unfold bankApply
  extract_lets +onlyGivenNames _ x1 _ x3 x4
  have h1 : Stays modeRegs s x1 := .of rfl
  have h3 : Stays modeRegs s x3 := h1.trans (rset_modeRegs _ _ (.bank b _))
  have h4 : Stays modeRegs s x4 := Stays.forAll h3 fun _ _ h5 => .ite h5 (h5.trans (modeChanged_modeRegs ..))
  exact (h4.keepRegs (modBank_keeps ..)).keepRegs (noteMirror_keeps ..)

theorem bankRefuse_modeRegs (s : State) (b : Nat) (ch : Nat) (code : Nat) : Stays modeRegs s (bankRefuse s b ch code) := by
  unfold bankRefuse
  extract_lets +onlyGivenNames _
  exact rset_modeRegs _ _ (.bank b _)

theorem bankCommitNow_modeRegs (s : State) (b : Nat) : Stays modeRegs s (bankCommitNow s b) := by
  unfold bankCommitNow
  split
  · extract_lets +onlyGivenNames x0
    have h0 : Stays modeRegs s x0 := bankApply_modeRegs ..
    exact h0.keepRegs (completeAll_keeps ..)
  · extract_lets +onlyGivenNames x1
    have h1 : Stays modeRegs s x1 := bankRefuse_modeRegs ..
    exact h1.keepRegs (completeAll_keeps ..)

theorem zcChan_modeRegs (s : State) (c : Nat) (a : Nat) : Stays modeRegs s (zcChan s c a) := by
  unfold zcChan
  refine .ite ?_ ?_
  · extract_lets +onlyGivenNames x0
    split
    · extract_lets +onlyGivenNames x1
      have h1 : Stays modeRegs s x1 := .keptRegs (setChan_keeps ..)
      exact (h1.keepRegs (applyNow_keeps ..)).trans (redoDiag_modeRegs ..)
    · exact Stays.refl
  exact Stays.refl

theorem zcFire_modeRegs (s : State) (b : Nat) (a : Nat) (entry : Nat) : Stays modeRegs s (zcFire s b a entry) := by
  unfold zcFire
  extract_lets +onlyGivenNames _ x1
  have h1 : Stays modeRegs s x1 := .keptRegs (modBank_keeps ..)
  exact .ite h1 (Stays.forAll h1 fun _ _ h2 => Stays.forAll h2 fun _ _ h3 => .ite (h3.trans (zcChan_modeRegs ..)) h3)

theorem runHeld_modeRegs (s : State) (b : Nat) : Stays modeRegs s (runHeld s b) := by
  unfold runHeld
  extract_lets +onlyGivenNames x0 x1
  have h1 : Stays modeRegs s x1 := .keptRegs (modBank_keeps ..)
  refine .ite h1 ?_
  refine Stays.forAll h1 fun _ _ h2 => ?_
  split
  · exact h2.keepRegs (latchBatch_keeps ..)
  · exact h2.trans (zcFire_modeRegs ..)

theorem heldDue_modeRegs (s : State) : Stays modeRegs s (heldDue s) := by
  unfold heldDue
  exact Stays.forAll Stays.refl fun _ _ h0 => .ite (h0.trans (runHeld_modeRegs ..)) h0

theorem banksDue_modeRegs (s : State) : Stays modeRegs s (banksDue s) := by
  unfold banksDue
  exact Stays.forAll Stays.refl fun _ _ h0 => .ite (h0.trans (bankCommitNow_modeRegs ..)) h0

theorem loopEvent_modeRegs (s : State) (bit : Nat) (n : Nat) (rec_ : Bool) : Stays modeRegs s (loopEvent s bit n rec_) := by
  unfold loopEvent
  exact (ror_modeRegs _ _ (by decide)).keepRegs (regEvent_keeps ..)

theorem starvedCheck_modeRegs (s : State) : Stays modeRegs s (starvedCheck s) := by
  unfold starvedCheck
  refine Stays.forAll Stays.refl fun _ _ h0 => ?_
  refine .ite h0 ?_
  extract_lets +onlyGivenNames _ _
  exact ((h0.keepRegs (setLoop_keeps ..)).keepRegs (pset_keeps ..)).trans (loopEvent_modeRegs ..)

theorem phcLive_modeRegs (s : State) : Stays modeRegs s (phcLive s) := by
  unfold phcLive
  extract_lets +onlyGivenNames x0
  have h0 : Stays modeRegs s x0 := ((phcApply_modeRegs ..).trans (starvedCheck_modeRegs ..)).keepRegs (noteMirror_keeps ..)
  exact h0.keepRegs (completeAll_keeps ..)

theorem phcCommitNow_modeRegs (s : State) : Stays modeRegs s (phcCommitNow s) := by
  unfold phcCommitNow
  split
  · exact phcLive_modeRegs ..
  · exact (phcRefuse_modeRegs ..).keepRegs (completeAll_keeps ..)

theorem phcDue_modeRegs (s : State) : Stays modeRegs s (phcDue s) := by
  unfold phcDue
  exact .ite (phcCommitNow_modeRegs ..) Stays.refl

theorem dueCommits_modeRegs (s : State) : Stays modeRegs s (dueCommits s) := by
  unfold dueCommits
  exact (phcDue_modeRegs ..).trans (banksDue_modeRegs ..)

theorem endPass_modeRegs (s : State) : Stays modeRegs s (endPass s) := by
  unfold endPass
  split
  · exact Stays.refl
  · extract_lets +onlyGivenNames -merge -useContext _ x0 x1 x3 x5
    have h0 : Stays modeRegs s x0 := .of rfl
    have h1 : Stays modeRegs s x1 := Stays.forAll h0 fun _ _ h2 => h2.keepRegs (endLoop_keeps ..)
    have h3 : Stays modeRegs s x3 := Stays.forAll h1 fun _ _ h4 => h4.keepRegs (pset_keeps ..)
    have h5 : Stays modeRegs s x5 := h3.keepRegs (commitPoints_keeps ..)
    exact Stays.forAll h5 fun _ _ h6 => h6.trans (loopEvent_modeRegs ..)

theorem rtcEvent_modeRegs (s : State) (bits : Word) : Stays modeRegs s (rtcEvent s bits) := by
  unfold rtcEvent
  refine .ite (raiseBoth_modeRegs _ _ (by decide)) ?_
  extract_lets +onlyGivenNames _ x1
  have h1 : Stays modeRegs s x1 := ror_modeRegs _ _ (by decide)
  exact h1.upd

theorem cdExpire_modeRegs (s : State) : Stays modeRegs s (cdExpire s) := by
  unfold cdExpire
  exact Stays.refl.upd.trans (rtcEvent_modeRegs ..)

theorem cdEdge_modeRegs (s : State) : Stays modeRegs s (cdEdge s) := by
  unfold cdEdge
  extract_lets +onlyGivenNames -merge -useContext _ x0
  have h0 : Stays modeRegs s x0 := .ite Stays.refl (.ite (cdExpire_modeRegs ..) (.of rfl))
  split
  · exact h0.upd
  · exact h0

theorem quietTicks_modeRegs (s : State) (n : Nat) : Stays modeRegs s (quietTicks s n) := by
  unfold quietTicks
  extract_lets +onlyGivenNames _ x1 _
  have h1 : Stays modeRegs s x1 := .ite (.of rfl) (.of rfl)
  refine .ite h1 ?_
  refine .ite h1.upd ?_
  extract_lets +onlyGivenNames _ x4 _
  have h4 : Stays modeRegs s x4 := h1.trans (cdExpire_modeRegs ..)
  exact .ite h4 h4.upd

theorem rtcTicks_modeRegs (s : State) (y0 : Nat) : Stays modeRegs s (rtcTicks s y0) := by
  unfold rtcTicks
  split
  · exact Stays.refl
  · exact ((Stays.keptRegs (rtcEdge_keeps ..)).trans (cdEdge_modeRegs ..)).trans (quietTicks_modeRegs ..)

theorem rtcElapse_modeRegs (s : State) (ns : Nat) : Stays modeRegs s (rtcElapse s ns) := by
  unfold rtcElapse
  refine .ite ?_ ?_
  · extract_lets +onlyGivenNames _
    exact Stays.refl.upd.trans (rtcTicks_modeRegs ..)
  exact Stays.refl

theorem elapseNs_modeRegs (s : State) (ns : Nat) : Stays modeRegs s (elapseNs s ns) := by
  unfold elapseNs
  extract_lets +onlyGivenNames x0
  have h0 : Stays modeRegs s x0 := ((rtcElapse_modeRegs ..).keepRegs (opElapse_keeps ..)).keepRegs (ntElapse_keeps ..)
  exact h0.upd

theorem elapseUnits_modeRegs (s : State) (n : Nat) : Stays modeRegs s (elapseUnits s n) := by
  unfold elapseUnits
  refine .ite Stays.refl ?_
  extract_lets +onlyGivenNames _ _ _
  exact Stays.refl.upd.trans (elapseNs_modeRegs ..)

theorem followStop_modeRegs (s : State) : Stays modeRegs s (followStop s) := by
  unfold followStop
  exact .ite (Stays.keptRegs (allDrop_keeps ..)) (allCause_modeRegs ..)

theorem updateSync_modeRegs (s : State) : Stays modeRegs s (updateSync s) := by
  unfold updateSync
  refine .ite (Stays.keptRegs (refreshPair_keeps ..)) ?_
  extract_lets +onlyGivenNames -merge -useContext _ _ _ x2 _ x3
  have h2 : Stays modeRegs s x2 := .of rfl
  have h3 : Stays modeRegs s x3 :=
    .ite (h2.upd.trans (twnEvent_modeRegs ..)) (.ite (h2.trans (twnEvent_modeRegs ..)) h2)
  exact h3.keepRegs (refreshPair_keeps ..)

theorem ballLost_modeRegs (s : State) (cause : Nat) : Stays modeRegs s (ballLost s cause) := by
  unfold ballLost
  extract_lets +onlyGivenNames -merge -useContext x0 x1 _ x2 _ x4 _ _ _ _ _
  have h0 : Stays modeRegs s x0 := .keptRegs (canBallLost_keeps ..)
  have h1 : Stays modeRegs s x1 := h0.keepRegs (failAct_keeps ..)
  have h2 : Stays modeRegs s x2 := h1.upd.keepRegs (completeAll_keeps ..)
  have h4 : Stays modeRegs s x4 := (h2.trans (twnEvent_modeRegs ..)).keepRegs (handoffRecords_keeps ..)
  refine .trans ?_ (updateSync_modeRegs ..)
  refine .trans ?_ (followStop_modeRegs ..)
  exact .upd h4

theorem pfRecord_modeRegs (s : State) : Stays modeRegs s (pfRecord s) := by
  unfold pfRecord
  extract_lets +onlyGivenNames -merge -useContext _ _ x1
  have h1 : Stays modeRegs s x1 := Stays.refl.upd.keepRegs (recEvent_keeps ..)
  exact (h1.trans (flushEvents_modeRegs ..)).keepRegs (recorderDrain_keeps ..)

theorem pfSave_modeRegs (s : State) : Stays modeRegs s (pfSave s) := by
  unfold pfSave
  exact .ite Stays.refl (.ite (Stays.keptRegs (forceSave_keeps ..)) (pfRecord_modeRegs ..))

theorem leaseTick_modeRegs (s : State) : Stays modeRegs s (leaseTick s) := by
  unfold leaseTick
  refine .ite ?_ ?_
  · exact .ite ((Stays.refl.upd.trans (setHold_modeRegs ..)).trans (ballLost_modeRegs ..)) (.of rfl)
  exact Stays.refl

theorem reachPhase_modeRegs (s : State) (p : Nat) : Stays modeRegs s (reachPhase s p) := by
  unfold reachPhase
  extract_lets +onlyGivenNames -merge -useContext _ _ x1
  have h1 : Stays modeRegs s x1 := (Stays.refl.upd.trans (elapseUnits_modeRegs ..)).trans (heldDue_modeRegs ..)
  exact .ite (h1.trans (leaseTick_modeRegs ..)) h1

theorem finishPass_modeRegs (s : State) : Stays modeRegs s (finishPass s) := by
  unfold finishPass
  exact .ite ((endPass_modeRegs ..).trans (pfSave_modeRegs ..)) Stays.refl

theorem advancePhase_modeRegs (s : State) (p : Nat) : Stays modeRegs s (advancePhase s p) := by
  unfold advancePhase
  extract_lets +onlyGivenNames _
  refine .ite ((((reachPhase_modeRegs ..).trans (finishPass_modeRegs ..)).trans (reachPhase_modeRegs ..)).trans
      (finishPass_modeRegs ..)) ?_
  exact (reachPhase_modeRegs ..).trans (finishPass_modeRegs ..)

theorem partApply_modeRegs (s : State) : Stays modeRegs s (partApply s) := by
  unfold partApply
  extract_lets +onlyGivenNames -merge -useContext _ x1 x2 _ _
  have h1 : Stays modeRegs s x1 := .of rfl
  have h2 : Stays modeRegs s x2 := h1.trans (rset_modeRegs _ _ (by decide))
  exact .upd h2

theorem partDue_modeRegs (s : State) : Stays modeRegs s (partDue s) := by
  unfold partDue
  refine .ite Stays.refl ?_
  split
  · exact partApply_modeRegs ..
  · exact rset_modeRegs _ _ (by decide)

end Sys2Proof.Proofs
end

section
/-! What a boundary finds when it comes: the state it leads to, and the mode of the power (R78 to R94, R139). -/

namespace Sys2Proof.Proofs

set_option Elab.async false

open Machine Laws

/-! ### Whether the clock may be steered (R87) -/

/-- Network time's state and the live registers, on which steering depends. -/
def steering (s : State) : Nat × Tab Word := (s.ptp.st, s.live)

theorem Stays.keptSteering {may : List Piece} {s t : State} (k : Keeps may s t) (ptp : Piece.ptp ∉ may := by decide)
    (live : Piece.live ∉ may := by decide) : Stays steering s t :=
  .of (Prod.ext (congrArg Ptp.st (k.ptp_eq ptp)) (k.live_eq live))

theorem Stays.steers {s t : State} (h : Stays steering s t) : steers t = steers s := by
  obtain ⟨st, live⟩ : t.ptp.st = s.ptp.st ∧ t.live = s.live := by simpa only [steering, Prod.mk.injEq] using h.eq
  simp only [Machine.steers, netLocked, lget, st, live]

/-- Time that passes moves network time's count and not its state. -/
theorem elapseUnits_steering (s : State) (n : Nat) : Stays steering s (elapseUnits s n) := by
  have counts (s : State) (ns : Nat) : Stays steering s (ntElapse s ns) := .ite .refl (.of rfl)
  have passes (s : State) (ns : Nat) : Stays steering s (elapseNs s ns) :=
    (((Stays.keptSteering (rtcElapse_keeps s ns)).trans (.keptSteering (opElapse_keeps ..))).trans (counts ..)).upd
  unfold elapseUnits
  refine .ite .refl ?_
  extract_lets +onlyGivenNames
  exact Stays.refl.upd.trans (passes ..)

theorem reachPhase_steering (s : State) (p : Nat) : Stays steering s (reachPhase s p) := by
  have units : Stays steering s (heldDue (elapseUnits (atPhase s p) (p - s.phc.phase))) :=
    (Stays.refl.upd.trans (elapseUnits_steering (atPhase s p) _)).trans (.keptSteering (heldDue_keeps _))
  exact .ite (units.trans (.keptSteering (leaseTick_keeps _))) units

theorem advancePhase_steering (s : State) (p : Nat) : Stays steering s (advancePhase s p) := by
  have reach (s : State) (p : Nat) : Stays steering s (finishPass (reachPhase s p)) :=
    (reachPhase_steering s p).trans (.keptSteering (finishPass_keeps _))
  unfold advancePhase
  extract_lets e
  exact .ite ((reach s e).trans (reach ..)) (reach s p)

/-- The state a boundary leads to is known before its cycle has ended. -/
theorem nextSt_nextPlace (s : State) : nextSt (nextPlace s) = nextSt s := by
  have h : Stays steering s (nextPlace s) :=
    ((Stays.keptSteering (flushEvents_keeps s)).trans (advancePhase_steering ..)).upd
  have c := nextPlace_clock s
  have st : (nextPlace s).phc.st = s.phc.st := (congrArg Phc.st c :)
  have lockN : (nextPlace s).phc.lockN = s.phc.lockN := (congrArg Phc.lockN c :)
  have validN : (nextPlace s).phc.validN = s.phc.validN := (congrArg Phc.validN c :)
  have lossDue : (nextPlace s).phc.lossDue = s.phc.lossDue := (congrArg Phc.lossDue c :)
  have holdExp : (nextPlace s).phc.holdExp = s.phc.holdExp := (congrArg Phc.holdExp c :)
  have from_ : (nextPlace s).phc.from_ = s.phc.from_ := (congrArg Phc.from_ c :)
  unfold nextSt
  simp only [h.steers, st, lockN, validN, lossDue, holdExp, from_]

/-! ### The registers over a boundary -/

section
variable {s t : State} (h : Stays modeRegs s t)
include h

theorem Stays.pwrCtrl : rget t oPwrCtrl = rget s oPwrCtrl := congrArg Prod.fst h.eq

theorem Stays.phcEvent : rget t oPhcEvent = rget s oPhcEvent := congrArg Prod.snd h.eq

end

theorem nextPlace_modeRegs (s : State) : Stays modeRegs s (nextPlace s) :=
  ((flushEvents_modeRegs s).trans (advancePhase_modeRegs ..)).upd

theorem rget_raisePhc (s : State) (bits : Word) (o : Nat) :
    rget (raisePhc s bits) o = if o = oPhcEvent then rget s oPhcEvent ||| bits else rget s o := by
  unfold raisePhc
  extract_lets new
  split
  · rename_i none
    split
    · rename_i h
      rw [h, or_none none]
    · rfl
  · show rget (ror s oPhcEvent new) o = _
    rw [rget_ror, or_new]

/-- A new cycle changes PHC_EVENT alone among the registers. -/
theorem newCycle_rget (s : State) (o : Nat) :
    rget (newCycle s) o = rget s o ∨ (o = oPhcEvent ∧ rget (newCycle s) o = rget s o ||| 1) := by
  unfold newCycle
  extract_lets +onlyGivenNames -merge -useContext was x _ y z
  have k : rget z o = rget s o := ((takeCapture_keeps y).rget (by decide) o).trans
      (((takeCorr_keeps _).rget (by decide) o).trans
    (((takeFreq_keeps _).rget (by decide) o).trans ((changeState_keeps s _).rget (by decide) o)))
  split
  · exact .inl k
  · rw [rget_raisePhc]
    split
    · rename_i h
      exact .inr ⟨h, by rw [← h, k]⟩
    · exact .inl k

/-- Between the new cycle and the mode of the power the two registers stand. -/
theorem begun_modeRegs (s : State) : Stays modeRegs (newCycle (nextPlace s)) (dueCommits (partDue (begun s))) :=
  ((Stays.forAll (leaseTick_modeRegs _) fun _ _ h => h.keepRegs (reconvert_keeps ..)).trans (partDue_modeRegs _)).trans
    (dueCommits_modeRegs _)

theorem begun_powerMode (s : State) : rget (dueCommits (partDue (begun s))) oPwrCtrl = rget s oPwrCtrl := by
  have turn : rget (newCycle (nextPlace s)) oPwrCtrl = rget (nextPlace s) oPwrCtrl :=
    (newCycle_rget _ _).resolve_right fun h => absurd h.1 (by decide)
  exact ((begun_modeRegs s).pwrCtrl.trans turn).trans (nextPlace_modeRegs s).pwrCtrl

/-- A gate's closing fails a port's frames and clears the gate's bit. -/
theorem closeGate_rget (s : State) (bit : Nat) {o : Nat} (h : o ≠ oGateOpen) : rget (closeGate s bit) o = rget s o := by
  unfold closeGate
  extract_lets +onlyGivenNames -merge -useContext _ x
  have hx : rget x o = rget s o := (rget_rclr ..).trans (if_neg h)
  split
  · exact ((failAllTx_keeps ..).rget (by decide) o).trans hx
  · exact hx

theorem modeBoundary_rget (s : State) {o : Nat} (gate : o ≠ oGateOpen) (status : o ≠ oPwrStatus) :
    rget (modeBoundary s) o = rget s o := by
  have closed (x : State) : ∀ l : List Nat, rget (forAll l
      (fun s i => if bitOf (rget s oGateRun) i then s else closeGate s i) x) o =
      rget x o := by
    intro l
    induction l generalizing x with
    | nil => rfl
    | cons i l ih =>
      refine (ih _).trans ?_
      dsimp only
      split
      · rfl
      · exact closeGate_rget x i gate
  unfold modeBoundary
  split
  · exact ((rget_ror ..).trans (if_neg status)).trans (rget_rset_other _ _ gate)
  · split
    · exact (closed _ _).trans ((rget_rclr ..).trans (if_neg status))
    · rfl

/-- The bit of PHC_EVENT that a step cycle's end has raised is set after its boundary (R92, R100). -/
theorem boundary_phcEvent (s : State) (i : Nat) (h : bitOf (rget s oPhcEvent) i = true) :
    bitOf (rget (boundary s) oPhcEvent) i = true := by
  have stays : rget (nextPlace s) oPhcEvent = rget s oPhcEvent := (nextPlace_modeRegs s).phcEvent
  have turn : bitOf (rget (newCycle (nextPlace s)) oPhcEvent) i = true := by
    rcases newCycle_rget (nextPlace s) oPhcEvent with e | ⟨-, e⟩
    · rw [e, stays, h]
    · rw [e, stays, bitOf_or, h, Bool.true_or]
  rw [boundary_eq, (periodicEvent_keeps _).rget (by decide), modeBoundary_rget _ (by decide) (by decide),
      (begun_modeRegs s).phcEvent, turn]

/-- The mode of the power written in CLK_PWR_CTRL comes with the boundary (R139). -/
theorem boundary_sleep (s : State) (h : bitOf (rget s oPwrCtrl) 0 = true) :
    (boundary s).clk.power = 1 ∧ rget (boundary s) oGateOpen = 0xFFFFF := by
  rw [← begun_powerMode] at h
  rw [boundary_eq]
  refine ⟨?_, ?_⟩
  · rw [(periodicEvent_keeps _).clk_eq (by decide), modeBoundary, if_pos h]
    rfl
  · rw [(periodicEvent_keeps _).rget (by decide), modeBoundary, if_pos h]
    exact ((rget_ror ..).trans (if_neg (by decide))).trans (rget_rset_same ..)

end Sys2Proof.Proofs
end

section
/-! Reference markers, case by case (R74 to R91). -/

namespace Sys2Proof.Proofs

set_option Elab.async false

open Machine Laws

/-! ### The bits of PHC_EVENT (R100) -/

/-- A bit raised: set, with its time event where it was clear. -/
theorem phcRaised_raisePhc (s : State) {i : Nat} (h : i < 32) : PhcRaised i s (raisePhc s (oneBit i)) := by
  refine ⟨(rget_raisePhc ..).trans (if_pos rfl), fun clear => ?_⟩
  unfold raisePhc
  extract_lets new
  have e : new = oneBit i := new_oneBit clear
  rw [if_neg (e ▸ oneBit_ne h), e]
  exact ⟨_, List.mem_append_right _ (List.mem_singleton_self _), rfl, rfl, rfl, rfl, rfl⟩

theorem PhcRaised.of_eq {i : Nat} {s s' t : State} (h : PhcRaised i s' t) (e : rget s' oPhcEvent = rget s oPhcEvent) :
    PhcRaised i s t := by
  unfold PhcRaised at *
  rwa [e] at h

theorem PhcRaised.keep {i : Nat} {may : List Piece} {s t u : State} (h : PhcRaised i s t) (k : Keeps may t u)
    (regs : Piece.regs ∉ may := by decide) (evq : Piece.evq ∉ may := by decide) : PhcRaised i s u := by
  unfold PhcRaised at *
  rwa [k.rget regs, k.evq_eq evq]

theorem PhcRaised.close {i : Nat} {s t : State} (h : PhcRaised i s t) (r : State) : PhcRaised i s (close r t) := by
  obtain ⟨q, w, e, -, -⟩ := close_spec r t
  refine ⟨(close_rget ..).trans h.1, fun clear => ?_⟩
  obtain ⟨x, mem, said⟩ := h.2 clear
  exact ⟨x, by rw [e]; exact List.mem_append_left _ mem, said⟩

/-! ### The reference marker (R74 to R91) -/

theorem takeRef_phc (s : State) (freq : Nat) : (takeRef s freq).phc =
    { s.phc with
      refValid := refOk s freq, refSrc := (if refOk s freq then refSource s else 3),
      refFreq := (if refOk s freq then freq else s.phc.refFreq) } := by
  unfold takeRef
  extract_lets +onlyGivenNames -merge -useContext ok src was _ x
  split
  · rfl
  · exact (raisePhc_keeps x 8).phc_eq (by decide)

theorem takeRef_regsOnly (s : State) (freq : Nat) : RegsOnly [oPhcEvent] s (takeRef s freq) := by
  unfold takeRef
  extract_lets +onlyGivenNames -merge -useContext ok src was _ x
  split
  · exact fun _ _ => rfl
  · exact raisePhc_regs x 8

/-- A status frame that changes the source in use raises bit 3 of PHC_EVENT. -/
theorem takeRef_raised {s : State} {freq : Nat} (ok : refOk s freq = true) (h : s.phc.refSrc ≠ refSource s) :
    PhcRaised 3 s (takeRef s freq) := by
  have src : ¬ s.phc.refSrc = if refOk s freq then refSource s else 3 := by rwa [if_pos ok]
  unfold takeRef
  dsimp only
  rw [if_neg src]
  exact PhcRaised.of_eq (phcRaised_raisePhc (i := 3) _ (by decide)) rfl

/-- What REFERENCE_MARKER leaves, before the command closes. -/
def marked (s : State) (freq : Nat) (frac : Fin 16) (since : Nat) (sub : Fin 16) : State :=
  let s := takeRef s freq
  if s.phc.st = 0 ∧ !s.phc.run then
    if s.phc.refValid then
      let p := { s.phc with run := true, cycle := 0, phase := 0, freq := freq, markFor := 1, lockN := 1 }
      { s with phc := { p with missN := 0, corr := 0, corrNext := 0, perr := 0, goodFreq := freq } }
    else s
  else if s.phc.run then
    takeMarker s ((s.phc.phase * 16 + frac.val : Nat) + markerShift s s.phc.refSrc - (16 * since + sub.val : Nat))
  else s

section
variable {s : State} {freq : Nat} {frac : Fin 16} {since : Nat} {sub : Fin 16}

theorem execReferenceMarker_marked : exec (.referenceMarker freq frac since sub) s = done s (marked s freq frac since sub) :=
    rfl

/-- After its status frame the marker itself moves the clock alone. -/
theorem marked_keeps : Keeps [.phc] (takeRef s freq) (marked s freq frac since sub) := by
  unfold marked
  extract_lets +onlyGivenNames -merge -useContext x
  have h : Keeps [.phc] (takeRef s freq) x := .refl _ _
  exact .ite (.ite (.phc h (by decide)) h) (.ite (h.step (takeMarker_keeps ..) (by decide)) h)

theorem marked_regsOnly : RegsOnly [oPhcEvent] s (marked s freq frac since sub) :=
  RegsOnly.trans (takeRef_regsOnly s freq) (RegsOnly.of_keeps marked_keeps (by decide))

/-- The first marker starts the clock in ACQUIRE (R81). -/
theorem marked_starts (ok : refOk s freq = true) (st : s.phc.st = 0) (run : s.phc.run = false) :
    (marked s freq frac since sub).phc = { (takeRef s freq).phc with
      run := true, cycle := 0, phase := 0, freq := freq, markFor := 1, lockN := 1, missN := 0, corr := 0, corrNext := 0,
      perr := 0, goodFreq := freq } := by
  simp [marked, takeRef_phc, ok, st, run]

/-- A marker of a running clock lies where `markerSeen` has it. -/
theorem marked_running (ok : refOk s freq = true) (run : s.phc.run = true) : ∃ at_,
    marked s freq frac since sub = takeMarker (takeRef s freq) at_ ∧
    markerPlace (takeRef s freq) at_ = ((markerSeen s frac since sub).1, (markerSeen s frac since sub).2) := by
  have k : Keeps [.regs, .phc, .evq] s (takeRef s freq) := takeRef_keeps ..
  have shift : markerShift (takeRef s freq) (refSource s) = markerShift s (refSource s) := by
    unfold markerShift
    rw [k.mtr_eq (by decide)]
  refine ⟨(s.phc.phase * 16 + frac.val : Nat) + markerShift s (refSource s) - (16 * since + sub.val : Nat), ?_, ?_⟩
  · simp [marked, takeRef_phc, ok, run, shift]
  · simp only [markerPlace, markerSeen, takeRef_phc]

end

section
variable {s : State} {at_ : Int} {b : Nat} {e : Int} (place : markerPlace s at_ = (b, e))
include place

/-- Within its window a marker counts toward LOCKED or RELOCK, and its error is taken up (R81 to R83, R90). -/
theorem takeMarker_near (valid : s.phc.refValid = true) (st : s.phc.st = 0 ∨ s.phc.st = 1 ∨ s.phc.st = 5)
    (stepping : s.phc.stepping = false) (new : s.phc.markFor ≠ b) (near : e.natAbs ≤ 4096) :
    takeMarker s at_ = { s with phc := { s.phc with
      perr := e, markFor := b, missN := 0, lockN := if e.natAbs ≤ 128 then s.phc.lockN + 1 else 0, corrNext := e,
      goodFreq := s.phc.freq } } := by
  have locked : ¬ (s.phc.st = 2 ∨ s.phc.st = 3 ∨ s.phc.st = 4) := by omega
  simp [takeMarker, place, new, stepping, valid, locked, near]

/-- In HOLDOVER and synthetic running it qualifies the mains (R90). -/
theorem takeMarker_qualifies (valid : s.phc.refValid = true) (st : s.phc.st = 2 ∨ s.phc.st = 3 ∨ s.phc.st = 4)
    (stepping : s.phc.stepping = false) (new : s.phc.markFor ≠ b) :
    takeMarker s at_ = { s with phc := { s.phc with perr := e, markFor := b, validN := s.phc.validN + 1 } } := by
  simp [takeMarker, place, new, stepping, valid, st]

/-- Outside its window it leaves nothing but its error (R83). -/
theorem takeMarker_far (st : s.phc.st = 0 ∨ s.phc.st = 1 ∨ s.phc.st = 5) (far : 4096 < e.natAbs) :
    takeMarker s at_ = { s with phc := { s.phc with perr := e } } := by
  have locked : ¬ (s.phc.st = 2 ∨ s.phc.st = 3 ∨ s.phc.st = 4) := by omega
  simp [takeMarker, place, locked, far]

end

/-- With the reference invalid a marker is not taken (R77). -/
theorem takeMarker_invalid {s : State} {at_ : Int} (valid : s.phc.refValid = false) :
    takeMarker s at_ = { s with phc := { s.phc with perr := (markerPlace s at_).2 } } := by
  simp [takeMarker, valid]

/-- Without a valid reference the clock goes on as it did. -/
theorem marked_invalid {s : State} {freq : Nat} {frac : Fin 16} {since : Nat} {sub : Fin 16} (bad : refOk s freq = false) :
    ∃ perr, (marked s freq frac since sub).phc = { (takeRef s freq).phc with perr := perr } := by
  have valid : (takeRef s freq).phc.refValid = false := by simp [takeRef_phc, bad]
  unfold marked
  extract_lets +onlyGivenNames -merge -useContext x
  have hx : x.phc.refValid = false := valid
  split
  · rw [if_neg (by simp [hx])]
    exact ⟨_, rfl⟩
  · split
    · rw [takeMarker_invalid hx]
      exact ⟨_, rfl⟩
    · exact ⟨_, rfl⟩

end Sys2Proof.Proofs
end

section
/-! Markers that do not come, firings, and the commit of the PHC set (R81 to R85, R106 to R118). -/

namespace Sys2Proof.Proofs

set_option Elab.async false

open Machine Laws

/-- An event that waits before a command closes waits after it. -/
theorem mem_evq_close {e : Ev} {t : State} (h : e ∈ t.evq) (r : State) : e ∈ (close r t).evq := by
  obtain ⟨q, w, k, -, -⟩ := close_spec r t
  rw [k]
  exact List.mem_append_left _ h

/-! ### A marker that does not come (R81, R83, R85) -/

section
variable {s : State}

theorem missMarker_acquire (st : s.phc.st = 0) :
    missMarker s = { s with phc := { s.phc with lockN := 0, validN := 0, run := false, freq := 0 } } := by
  simp [missMarker, st]

theorem missMarker_first (st : s.phc.st = 1 ∨ s.phc.st = 5) (n : s.phc.missN = 0) :
    missMarker s = { s with phc := { s.phc with lockN := 0, validN := 0, missN := 1 } } := by
  rcases st with st | st <;> simp [missMarker, st, n]

theorem missMarker_second (st : s.phc.st = 1 ∨ s.phc.st = 5) (n : 1 ≤ s.phc.missN) :
    missMarker s = declareLoss { s with phc := { s.phc with lockN := 0, validN := 0, missN := s.phc.missN + 1 } } := by
  rcases st with st | st <;> simp [missMarker, st, n]

theorem declareLoss_phc : (declareLoss s).phc =
    { s.phc with lossDue := true, holdExp := (if s.phc.st = 5 then s.phc.holdExp else false) } :=
  (raisePhc_keeps ..).phc_eq (by decide)

theorem declareLoss_regsOnly : RegsOnly [oPhcEvent] s (declareLoss s) := raisePhc_regs _ _

theorem declareLoss_raised : PhcRaised 2 s (declareLoss s) := PhcRaised.of_eq (phcRaised_raisePhc (i := 2) _ (by decide)) rfl

/-- MISSING_MARKER where it is not too late for one and none has come. -/
theorem execMissingMarker_misses (run : s.phc.run = true) (stepping : s.phc.stepping = false) (loss : s.phc.lossDue = false)
    (none : s.phc.markFor < s.phc.cycle + 1) :
    exec .missingMarker s = done s (missMarker { s with phc := { s.phc with markFor := s.phc.cycle + 1 } }) :=
  congrArg (done s) (if_pos (by simp [run, stepping, loss, none]))

end

/-! ### Firings (R107, R116) -/

theorem fireEntry_arg {s t : State} {n a : Nat} {arg : Word} (h : fireEntry s n a = some (arg, t)) :
    arg = schedWord s.live n 2 := by
  unfold fireEntry at h
  split at h
  · exact (congrArg Prod.fst (Option.some.inj h)).symm
  · cases h

/-- The firings of a phase unit come after its commits and at the same unit. -/
theorem dueCommits_absA (s : State) : absA (dueCommits s) = absA s := by
  simp only [absA, (dueCommits_clock s).cycle, (dueCommits_clock s).phase]

/-- What a timed action that fires leaves, before the command closes. -/
def timedFired (c : State) (r : Nat) (x : Timed) : State :=
  let p := { c.phc with timed := c.phc.timed.filter (fun y => y.ring != r), last := some (absA c, x.action, 1024 + r) }
  let d := timedEffect { c with phc := p } x
  forAll (waitingRings d (fun f => opOf f == 0x40)) (fun d e => if e.1 = r then completeTs d e.1 e.2 (nowTs c) else d) d

/-- It leaves the actions of its ring, and the firing is the latest one. -/
theorem timedFired_phc (c : State) (r : Nat) (x : Timed) : (timedFired c r x).phc =
    { c.phc with timed := c.phc.timed.filter (fun y => y.ring != r), last := some (absA c, x.action, 1024 + r) } := by
  unfold timedFired
  extract_lets +onlyGivenNames -merge -useContext _ p d
  have hd : d.phc = p := (timedEffect_keeps ..).phc_eq (by decide)
  have done (l : List (Nat × Flight)) : Keeps [.rings, .msixPend, .out] d
      (forAll l (fun d e => if e.1 = r then completeTs d e.1 e.2 (nowTs c) else d) d) :=
    .forAll (.refl _ _) fun _ _ h => .ite (h.step (completeTs_keeps ..) (by decide)) h
  exact ((done _).phc_eq (by decide)).trans hd

/-! ### The commit of the PHC set (R111 to R114) -/

/-- Loops that starve are told in LCE_EVENT and in no other register (R329). -/
theorem starvedCheck_regsOnly (s : State) : RegsOnly [oLceEvent] s (starvedCheck s) := by
  have told (s : State) (n : Nat) (w : Word) (l : LoopSt) :
      RegsOnly [oLceEvent] s (loopEvent (pset (setLoop s n l) (loopPt n 5) w) 1 n true) := by
    intro o ho
    have set : rget (pset (setLoop s n l) (loopPt n 5) w) o = rget s o :=
      ((pset_keeps ..).rget (by decide) o).trans ((setLoop_keeps s n l).rget (by decide) o)
    rw [loopEvent, rget_regEvent, rget_ror, if_neg (by simpa using ho), set]
  unfold starvedCheck
  generalize enLoops s.live = l
  induction l generalizing s with
  | nil => exact fun _ _ => rfl
  | cons n l ih =>
    refine RegsOnly.trans ?_ (ih _)
    dsimp only
    split
    · exact fun _ _ => rfl
    · exact told _ _ _ _

theorem phcApply_status (s : State) : rget (phcApply s) oPhcCommitStatus = genNext (rget s oPhcCommitStatus) := by
  unfold phcApply
  extract_lets +onlyGivenNames -merge -useContext _ _ _ x
  have hx : rget x oPhcCommitStatus = rget s oPhcCommitStatus := (renominal_keeps ..).rget (by decide) _
  rw [rget_rset_same, hx]

theorem phcApply_live (s : State) : (phcApply s).live = takeShadow s.regs s.live inPhcSet := by
  unfold phcApply
  extract_lets +onlyGivenNames -merge -useContext _ _ _ x
  have hx : x.live = takeShadow s.regs s.live inPhcSet := (renominal_keeps ..).live_eq (by decide)
  exact hx

theorem phcLive_status (s : State) : rget (phcLive s) oPhcCommitStatus = genNext (rget s oPhcCommitStatus) := by
  unfold phcLive
  extract_lets x
  rw [(completeAll_keeps ..).rget (by decide)]
  show rget (noteMirror (starvedCheck (phcApply s)) 2) oPhcCommitStatus = _
  rw [(noteMirror_keeps ..).rget (by decide), starvedCheck_regsOnly _ _ (by decide), phcApply_status]

theorem phcLive_live (s : State) : (phcLive s).live = takeShadow s.regs s.live inPhcSet := by
  unfold phcLive
  extract_lets x
  rw [(completeAll_keeps ..).live_eq (by decide)]
  show (noteMirror (starvedCheck (phcApply s)) 2).live = _
  rw [(noteMirror_keeps ..).live_eq (by decide), (starvedCheck_keeps _).live_eq (by decide), phcApply_live]

/-- An applied commit's word: the next generation, and nothing pending. -/
theorem genNext_fields (w : Word) : fld (genNext w) 15 0 = (fld w 15 0 + 1) % 65536 ∧ bitOf (genNext w) 31 = false := by
  have small : (fld w 15 0 + 1) % 65536 < 2 ^ 16 := Nat.mod_lt _ (by decide)
  have e : (genNext w).toNat = (fld w 15 0 + 1) % 65536 := by
    rw [genNext, w32, BitVec.toNat_ofNat]
    omega
  refine ⟨?_, ?_⟩
  · simp only [fld, nbits, e, Nat.shiftRight_zero]
    exact Nat.mod_eq_of_lt small
  · rw [bitOf, BitVec.getLsbD, e]
    exact Nat.testBit_lt_two_pow (small.trans (by decide))

/-- A refused commit's word: the generation stands, and the fields hold what was refused (R113). -/
theorem refusedWord_fields {g idx code : Nat} (ctrl : Bool) (hg : g < 2 ^ 16) (hidx : idx < 1024) (hcode : code < 16) :
    let w := w32 (g + (idx <<< 16) + (code <<< 26) + (ctrl.toNat <<< 30))
    fld w 15 0 = g ∧ fld w 25 16 = idx ∧ fld w 29 26 = code ∧ bitOf w 31 = false := by
  have hc : ctrl.toNat ≤ 1 := Bool.toNat_le _
  simp only [Nat.shiftLeft_eq]
  have e : (w32 (g + idx * 2 ^ 16 + code * 2 ^ 26 + ctrl.toNat * 2 ^ 30)).toNat =
      g + idx * 2 ^ 16 + code * 2 ^ 26 + ctrl.toNat * 2 ^ 30 := by
    rw [w32, BitVec.toNat_ofNat]
    omega
  simp only [fld, nbits, bitOf, BitVec.getLsbD, e, Nat.shiftRight_eq_div_pow]
  refine ⟨by omega, by omega, by omega, Nat.testBit_lt_two_pow (by omega)⟩

theorem phcRefuse_status (s : State) (code : Nat) (ctrl : Bool) (idx : Nat) : rget (phcRefuse s code ctrl idx)
    oPhcCommitStatus =
    w32 (rfld s oPhcCommitStatus 15 0 + (idx <<< 16) + (code <<< 26) + (ctrl.toNat <<< 30)) := rget_rset_same ..

theorem phcDue_applies {s : State} (point : isPhcPoint s = true) (good : phcCheck s s.img = none) : phcDue s = phcLive s :=
    by
  rw [phcDue, if_pos point, phcCommitNow, good]

theorem phcDue_refuses {s : State} {r : Nat × Bool × Nat} (point : isPhcPoint s = true) (bad : phcCheck s s.img = some r) :
    Keeps [.rings, .msixPend, .out] (phcRefuse s r.1 r.2.1 r.2.2) (phcDue s) := by
  rw [phcDue, if_pos point, phcCommitNow, bad]
  exact completeAll_keeps ..

theorem reached_of_reaches {s : State} {bit : Nat} {f : State → State} (h : Reaches s bit) : reached s bit f = f s := by
  obtain ⟨alive, wait, halted, up⟩ := h
  simp [reached, alive, wait, halted, up]

end Sys2Proof.Proofs
end

section
/-! The phase clock's commands (O6). -/

namespace Sys2Proof.Proofs

set_option Elab.async false

open Machine Laws

/-! ### The clauses of O6 -/

section
variable {s : State} {freq : Nat} (frac : Fin 16) (since : Nat) (sub : Fin 16)

/-- The answer to a REFERENCE_MARKER, with its frame. -/
theorem referenceMarker_answers {E : State → Prop} (h : E (close s (marked s freq frac since sub))) :
    ∃ t, exec (.referenceMarker freq frac since sub) s = .next t ∧ Frame [.regs, .phc, .evq] s t ∧ E t :=
  completes (execReferenceMarker_keeps ..) execReferenceMarker_marked h

theorem marked_close_regsOnly : RegsOnly [oPhcEvent] s (close s (marked s freq frac since sub)) :=
  RegsOnly.close marked_regsOnly s

theorem marker_starts (ok : refOk s freq = true) (st : s.phc.st = 0) (run : s.phc.run = false) :
    ∃ t, exec (.referenceMarker freq frac since sub) s = .next t ∧ Frame [.regs, .phc, .evq] s t ∧ RegsOnly [oPhcEvent] s t ∧
      t.phc.refValid = true ∧ t.phc.refFreq = freq ∧ t.phc.refSrc = refSource s ∧
      (s.phc.refSrc ≠ refSource s → PhcRaised 3 s t) ∧ t.phc.run = true ∧ t.phc.cycle = 0 ∧ t.phc.phase = 0 ∧ t.phc.freq = freq := by
  refine referenceMarker_answers frac since sub ⟨marked_close_regsOnly frac since sub, ?_⟩
  have raised (h : s.phc.refSrc ≠ refSource s) : PhcRaised 3 s (close s (marked s freq frac since sub)) :=
    PhcRaised.close (PhcRaised.keep (takeRef_raised ok h) marked_keeps) s
  simp only [close_phc, marked_starts ok st run, takeRef_phc, ok, if_true]
  exact ⟨trivial, trivial, trivial, raised, trivial, trivial, trivial, trivial⟩

theorem marker_counts (ok : refOk s freq = true) (run : s.phc.run = true) (st : s.phc.st = 0 ∨ s.phc.st = 1 ∨ s.phc.st = 5)
    (stepping : s.phc.stepping = false) (new : s.phc.markFor ≠ (markerSeen s frac since sub).1)
    (near : (markerSeen s frac since sub).2.natAbs ≤ 4096) :
    ∃ t, exec (.referenceMarker freq frac since sub) s = .next t ∧ Frame [.regs, .phc, .evq] s t ∧ RegsOnly [oPhcEvent] s t ∧
      t.phc.refValid = true ∧ t.phc.refFreq = freq ∧ t.phc.refSrc = refSource s ∧
      t.phc.perr = (markerSeen s frac since sub).2 ∧ t.phc.corrNext = (markerSeen s frac since sub).2 ∧ t.phc.missN = 0 ∧
      t.phc.markFor = (markerSeen s frac since sub).1 ∧
      t.phc.goodFreq = s.phc.freq ∧
      t.phc.lockN = (if (markerSeen s frac since sub).2.natAbs ≤ 128 then s.phc.lockN + 1 else 0) := by
  refine referenceMarker_answers frac since sub ⟨marked_close_regsOnly frac since sub, ?_⟩
  obtain ⟨at_, taken, place⟩ := marked_running (frac := frac) (since := since) (sub := sub) ok run
  have p := takeRef_phc s freq
  have e := takeMarker_near place (by rw [p]; exact ok) (by rw [p]; exact st) (by rw [p]; exact stepping)
      (by rw [p]; exact new) near
  simp only [close_phc, taken, e, p, ok, if_true, and_self]

theorem marker_qualifies (ok : refOk s freq = true) (run : s.phc.run = true)
    (st : s.phc.st = 2 ∨ s.phc.st = 3 ∨ s.phc.st = 4)
    (stepping : s.phc.stepping = false) (new : s.phc.markFor ≠ (markerSeen s frac since sub).1) :
    ∃ t, exec (.referenceMarker freq frac since sub) s = .next t ∧ Frame [.regs, .phc, .evq] s t ∧ RegsOnly [oPhcEvent] s t ∧
      t.phc.refValid = true ∧ t.phc.refFreq = freq ∧ t.phc.validN = s.phc.validN + 1 ∧
      t.phc.markFor = (markerSeen s frac since sub).1 ∧ t.phc.st = s.phc.st ∧ t.phc.freq = s.phc.freq := by
  refine referenceMarker_answers frac since sub ⟨marked_close_regsOnly frac since sub, ?_⟩
  obtain ⟨at_, taken, place⟩ := marked_running (frac := frac) (since := since) (sub := sub) ok run
  have p := takeRef_phc s freq
  have e := takeMarker_qualifies place (by rw [p]; exact ok) (by rw [p]; exact st) (by rw [p]; exact stepping)
      (by rw [p]; exact new)
  simp only [close_phc, taken, e, p, ok, if_true, and_self]

theorem marker_far (ok : refOk s freq = true) (run : s.phc.run = true) (st : s.phc.st = 0 ∨ s.phc.st = 1 ∨ s.phc.st = 5)
    (far : 4096 < (markerSeen s frac since sub).2.natAbs) :
    ∃ t, exec (.referenceMarker freq frac since sub) s = .next t ∧ Frame [.regs, .phc, .evq] s t ∧ t.phc.refFreq = freq ∧
      t.phc.perr = (markerSeen s frac since sub).2 ∧ t.phc.markFor = s.phc.markFor ∧ t.phc.lockN = s.phc.lockN ∧
      t.phc.corrNext = s.phc.corrNext := by
  refine referenceMarker_answers frac since sub ?_
  obtain ⟨at_, taken, place⟩ := marked_running (frac := frac) (since := since) (sub := sub) ok run
  have p := takeRef_phc s freq
  have e := takeMarker_far place (by rw [p]; exact st) far
  simp only [close_phc, taken, e, p, ok, if_true, and_self]

theorem marker_invalid (bad : refOk s freq = false) :
    ∃ t, exec (.referenceMarker freq frac since sub) s = .next t ∧ Frame [.regs, .phc, .evq] s t ∧ RegsOnly [oPhcEvent] s t ∧
      t.phc.refValid = false ∧ t.phc.refSrc = 3 ∧ t.phc.run = s.phc.run ∧ t.phc.markFor = s.phc.markFor ∧
      t.phc.validN = s.phc.validN := by
  refine referenceMarker_answers frac since sub ⟨marked_close_regsOnly frac since sub, ?_⟩
  obtain ⟨perr, e⟩ := marked_invalid (frac := frac) (since := since) (sub := sub) bad
  simp [e, takeRef_phc, bad]

end

section
variable {s : State}

abbrev boundary_may : List Piece := [.regs, .live, .pts, .base, .hold, .phc, .clk, .banks, .ch, .rings, .evq, .recq,
    .recSlots,
  .recNext, .recLost, .recLostCls, .watches, .rtc, .msixPend, .forces, .up, .ptp, .can, .lce, .ble, .twn, .free, .out]

theorem cycleBoundary_begins (run : s.phc.run = true) (alive : s.clk.alive = true) (wait : s.clk.resetWait = none)
    (stepping : s.phc.stepping = false) :
    ∃ t, exec .cycleBoundary s = .next t ∧ Frame boundary_may s t ∧
      t.phc.cycle = (s.phc.cycle + 1) % 2 ^ 48 ∧ t.phc.phase = 0 ∧ t.phc.st = nextSt s ∧ (nextSt s ≠ 0 → t.phc.gen = (s.phc.gen + 1) % 2 ^ 32) ∧
      (bitOf (rget s oPwrCtrl) 0 = true → t.clk.power = 1 ∧ rget t oGateOpen = 0xFFFFF) := by
  refine completes (x := boundary s) (execCycleBoundary_keeps s)
      (congrArg (done s) (if_pos (by simp [run, alive, wait, stepping]))) ?_
  obtain ⟨cycle, phase, st, gen⟩ : (boundary s).phc.cycle = (s.phc.cycle + 1) % 2 ^ 48 ∧ (boundary s).phc.phase = 0 ∧
      (boundary s).phc.st = nextSt s ∧
      (boundary s).phc.gen = if nextSt s = 0 then s.phc.gen else (s.phc.gen + 1) % 2 ^ 32 := by
    simpa only [face, nextSt_nextPlace, Prod.mk.injEq] using boundary_face s
  simp only [close_phc, close_clk, close_rget]
  exact ⟨cycle, phase, st, fun h => gen.trans (if_neg h), boundary_sleep s⟩

theorem stepCycleEnd_begins (marker : Bool) (run : s.phc.run = true) (alive : s.clk.alive = true)
    (wait : s.clk.resetWait = none)
    (stepping : s.phc.stepping = true) :
    ∃ t, exec (.stepCycleEnd marker) s = .next t ∧ Frame boundary_may s t ∧ t.phc.cycle = (s.phc.cycle + 1) % 2 ^ 48 ∧
      t.phc.phase = 0 ∧ bitOf (rget t oPhcEvent) 1 = true := by
  obtain ⟨x, ended, place⟩ : ∃ x, exec (.stepCycleEnd marker) s = done s (boundary (raisePhc x 2)) ∧ x.phc.cycle =
      s.phc.cycle := by
    refine ⟨_, congrArg (done s) (if_pos (by simp [run, alive, wait, stepping])), ?_⟩
    dsimp only
    split
    · rfl
    · exact congrArg Prod.fst (missMarker_place _).eq
  have cycle : (raisePhc x 2).phc.cycle = s.phc.cycle := by rw [(raisePhc_keeps x 2).phc_eq (by decide), place]
  obtain ⟨next, phase⟩ : (boundary (raisePhc x 2)).phc.cycle = (s.phc.cycle + 1) % 2 ^ 48 ∧
      (boundary (raisePhc x 2)).phc.phase = 0 := by
    simpa only [Proofs.place, cycle, Prod.mk.injEq] using boundary_place (raisePhc x 2)
  have raised : bitOf (rget (raisePhc x 2) oPhcEvent) 1 = true := by
    rw [rget_raisePhc, if_pos rfl]
    exact bitOf_or_oneBit _ 1 (by decide)
  refine completes (execStepCycleEnd_keeps marker s) ended ?_
  simp only [close_phc, close_rget]
  exact ⟨next, phase, boundary_phcEvent _ 1 raised⟩

section
variable (run : s.phc.run = true) (stepping : s.phc.stepping = false) (loss : s.phc.lossDue = false)
  (none : s.phc.markFor < s.phc.cycle + 1)
include run stepping loss none

theorem missing_ends (st : s.phc.st = 0) :
    ∃ t, exec .missingMarker s = .next t ∧ Frame [.phc] s t ∧ t.phc.run = false ∧ t.phc.lockN = 0 ∧ t.phc.validN = 0 ∧
      t.phc.markFor = s.phc.cycle + 1 := by
  have e := (execMissingMarker_misses run stepping loss none).trans (congrArg (done s) (missMarker_acquire st))
  refine completes ⟨_, e, .phc (.phc (.refl _ _) (by decide)) (by decide)⟩ e ?_
  simp only [close_phc, and_self]

theorem missing_first (st : s.phc.st = 1 ∨ s.phc.st = 5) (n : s.phc.missN = 0) :
    ∃ t, exec .missingMarker s = .next t ∧ Frame [.phc] s t ∧ t.phc.missN = 1 ∧ t.phc.lossDue = false ∧ t.phc.lockN = 0 ∧
      t.phc.validN = 0 ∧ t.phc.markFor = s.phc.cycle + 1 := by
  have e := (execMissingMarker_misses run stepping loss none).trans (congrArg (done s) (missMarker_first st n))
  refine completes ⟨_, e, .phc (.phc (.refl _ _) (by decide)) (by decide)⟩ e ?_
  simp only [close_phc, loss, and_self]

theorem missing_second (st : s.phc.st = 1 ∨ s.phc.st = 5) (n : 1 ≤ s.phc.missN) :
    ∃ t, exec .missingMarker s = .next t ∧ Frame [.regs, .phc, .evq] s t ∧ RegsOnly [oPhcEvent] s t ∧ t.phc.lossDue = true ∧
      PhcRaised 2 s t ∧ t.phc.lockN = 0 ∧ t.phc.validN = 0 ∧ t.phc.markFor = s.phc.cycle + 1 := by
  have e := (execMissingMarker_misses run stepping loss none).trans (congrArg (done s) (missMarker_second st n))
  refine completes (execMissingMarker_keeps s) e ?_
  refine ⟨RegsOnly.close (RegsOnly.trans (fun _ _ => rfl) declareLoss_regsOnly) s, ?_,
    PhcRaised.close (PhcRaised.of_eq declareLoss_raised rfl) s, ?_⟩ <;> simp only [close_phc, declareLoss_phc, and_self]

end

theorem holdover_ends (st : s.phc.st = 2) :
    ∃ t, exec .holdoverTimeout s = .next t ∧ Frame [.phc] s t ∧ t.phc = { s.phc with holdExp := true } :=
  completes (execHoldoverTimeout_keeps s) (congrArg (done s) (if_pos (.inl st))) (close_phc ..)

theorem hostEvent_fires (n : Fin 1024) (fires : (fireEntry (dueCommits s) n.val 7).isSome = true) :
    ∃ t, exec (.hostEvent n) s = .next t ∧
      Frame [.regs, .live, .pts, .phc, .banks, .ch, .rings, .evq, .msixPend, .forces, .can, .lce, .ble, .twn, .out] s t ∧
      ∃ e ∈ t.evq, e.code = 2 ∧ e.toHost = true ∧ wAt e.body 5 = 2 ∧
        wAt e.body 6 = w32 (fld (schedWord (dueCommits s).live n.val 2) 15 0) := by
  obtain ⟨⟨arg, t⟩, fired⟩ := Option.isSome_iff_exists.mp fires
  have e : exec (.hostEvent n) s = done s (timeEvent t 2 (w32 (fld arg 15 0)) false) := by
    show execHostEvent n s = _
    unfold execHostEvent
    simp only [fired]
  refine completes (execHostEvent_keeps n s) e ?_
  rw [← fireEntry_arg fired]
  exact ⟨_, mem_evq_close (List.mem_append_right _ (List.mem_singleton_self _)) s, rfl, rfl, rfl, rfl⟩

theorem timedAction_fires (r : Fin 64) (x : Timed) (pending : (dueCommits s).phc.timed.find? (fun x => x.ring == r.val) =
    some x)
    (run : (dueCommits s).phc.run = true) (alive : (dueCommits s).clk.alive = true) (st : (dueCommits s).phc.st ≠ 0)
    (unit : x.unit = absA (dueCommits s)) (fixed : (x.fixed || !x.net) = true)
    (order : inOrder (dueCommits s) x.action (1024 + r.val) = true) :
    ∃ t, exec (.timedActionFire r) s = .next t ∧
      Frame [.regs, .live, .pts, .phc, .banks, .ch, .rings, .evq, .msixPend, .forces, .can, .lce, .ble, .twn, .out] s t ∧
      t.phc.last = some (absA s, x.action, 1024 + r.val) ∧ ∀ y ∈ t.phc.timed, y.ring ≠ r.val := by
  have e : exec (.timedActionFire r) s = done s (timedFired (dueCommits s) r.val x) := by
    show execTimedActionFire r s = _
    unfold execTimedActionFire
    simp only [pending]
    exact congrArg (done s) (if_pos (by simp only [run, alive, unit, fixed, order]; simp [st]))
  refine completes (execTimedActionFire_keeps r s) e ?_
  rw [close_phc, timedFired_phc, dueCommits_absA]
  exact ⟨rfl, fun y hy => by simpa using (List.mem_filter.mp hy).2⟩

theorem phcCommit_requests (v : Word) (reaches : Reaches s 6) (set : bitOf v 0 = true) (own : isStandby s = false)
    (free : phcPending s = false) (act : s.ble.act = none) :
    ∃ t, exec (.phcCommit v) s = .next t ∧ Frame [.regs, .phc, .evq] s t ∧ RegsOnly [oPhcCommitStatus] s t ∧
      rget t oPhcCommitStatus = rget s oPhcCommitStatus ||| oneBit 31 ∧ t.phc = { s.phc with reqA := absA s } := by
  have e : exec (.phcCommit v) s =
      done s { ror s oPhcCommitStatus 0x80000000 with phc := { s.phc with reqA := absA s } } := by
    refine congrArg (done s) ((reached_of_reaches reaches).trans ?_)
    simp [set, unlessStandby, own, phcRequest, free, act]
  refine completes (execPhcCommit_keeps v s) e ⟨RegsOnly.close ?_ s, ?_, close_phc ..⟩
  · exact regsOnly_rset s oPhcCommitStatus (rget s oPhcCommitStatus ||| 0x80000000)
  · exact (close_rget ..).trans (rget_rset_same ..)

theorem phcCommit_standby (v : Word) (reaches : Reaches s 6) (set : bitOf v 0 = true) (standby : isStandby s = true) :
    ∃ t, exec (.phcCommit v) s = .next t ∧ Frame [.regs, .phc, .evq] s t ∧ RegsOnly [oTwnEvent] s t ∧ t.phc = s.phc ∧
      Raised oTwnEvent 10 s t := by
  have e : exec (.phcCommit v) s = done s (twnEvent s 10) := by
    refine congrArg (done s) ((reached_of_reaches reaches).trans ?_)
    simp [set, unlessStandby, standby]
  refine completes (execPhcCommit_keeps v s) e
    ⟨RegsOnly.close (regsOnly_raiseBits s oTwnEvent (oneBit 10) _ _ _ _ _) s, ?_, Raised.close
        (raised_raiseBoth _ _ _ (by decide)) s⟩
  rw [close_phc]
  exact (twnEvent_keeps s 10).phc_eq (by decide)

abbrev phcPoint_may : List Piece := [.regs, .live, .pts, .phc, .rings, .evq, .msixPend, .can, .lce, .ble, .twn, .out]

theorem phcPoint_applies (point : isPhcPoint s = true) (good : phcCheck s s.img = none) :
    ∃ t, exec .phcCommitPoint s = .next t ∧ Frame phcPoint_may s t ∧ phcPending t = false ∧
      t.live = takeShadow s.regs s.live inPhcSet ∧
      rfld t oPhcCommitStatus 15 0 = (rfld s oPhcCommitStatus 15 0 + 1) % 65536 := by
  refine completes (execPhcCommitPoint_keeps s) (congrArg (done s) (phcDue_applies point good)) ?_
  obtain ⟨generation, pending⟩ := genNext_fields (rget s oPhcCommitStatus)
  simp only [phcPending, rfld, close_rget, close_live, phcLive_status, phcLive_live]
  exact ⟨pending, trivial, generation⟩

theorem phcPoint_refuses (r : Nat × Bool × Nat) (point : isPhcPoint s = true) (bad : phcCheck s s.img = some r)
    (code : r.1 < 16)
    (index : r.2.2 < 1024) :
    ∃ t, exec .phcCommitPoint s = .next t ∧ Frame phcPoint_may s t ∧ phcPending t = false ∧ t.live = s.live ∧
      rfld t oPhcCommitStatus 15 0 = rfld s oPhcCommitStatus 15 0 ∧ rfld t oPhcCommitStatus 25 16 = r.2.2 ∧
      rfld t oPhcCommitStatus 29 26 = r.1 := by
  refine completes (execPhcCommitPoint_keeps s) rfl ?_
  have k := phcDue_refuses point bad
  have generation : rfld s oPhcCommitStatus 15 0 < 2 ^ 16 := Nat.mod_lt _ (by decide)
  obtain ⟨g, idx, c, p⟩ := refusedWord_fields r.2.1 generation index code
  have live : (phcDue s).live = s.live := (k.live_eq (by decide)).trans ((phcRefuse_keeps ..).live_eq (by decide))
  simp only [phcPending, close_live, close_rget, rfld, k.rget (by decide), phcRefuse_status] at g idx c p ⊢
  exact ⟨p, live, g, idx, c⟩

end

/-- Settles O6: clause by clause. -/
theorem phaseClockCommandsEffects : Obligations.PhaseClockCommandsEffects := by
  unfold Obligations.PhaseClockCommandsEffects
  intro s
  exact ⟨fun _ frac since sub ok st run => marker_starts frac since sub ok st run,
    fun _ frac since sub ok run st stepping new near => marker_counts frac since sub ok run st stepping new near,
    fun _ frac since sub ok run st stepping new => marker_qualifies frac since sub ok run st stepping new,
    fun _ frac since sub ok run st far => marker_far frac since sub ok run st far,
    fun _ frac since sub bad => marker_invalid frac since sub bad,
    cycleBoundary_begins, missing_ends, missing_first, missing_second, holdover_ends, stepCycleEnd_begins, hostEvent_fires,
    timedAction_fires, phcCommit_requests, phcCommit_standby, phcPoint_applies, phcPoint_refuses⟩

end Sys2Proof.Proofs
end

section
/-! SUPPORT. A ready descriptor: its words, and what its fetch leaves (R504, R518 to R522, R557). -/

namespace Sys2Proof.Proofs

set_option Elab.async false

open Machine Laws

/-! ### The words of a descriptor (R518) -/

theorem descOf_length (op : Nat) (d : Desc) : (descOf op d).length = 16 := by
  simp [descOf]

/-- The first fifteen words, which the last one's CRC covers. -/
theorem descOf_crc (op : Nat) (d : Desc) : crcWords ((descOf op d).take 15) = wAt (descOf op d) 15 := by
  have len : ([w32 (op + 256 * d.flags.toNat), d.seq, d.target, d.w3] ++ (d.par ++ List.replicate 8 0).take 8 ++
      [w32 d.addr.toNat, w32 (d.addr.toNat >>> 32), d.len]).length = 15 := by simp
  unfold descOf wAt
  extract_lets l
  rw [List.take_left' len, List.getD_append_right _ _ _ _ len.le, len]
  rfl

theorem descOf_par (op : Nat) (d : Desc) {k : Nat} (h : k < 8) : wAt (descOf op d) (4 + k) = wAt d.par k := by
  have word : ((d.par ++ List.replicate 8 0).take 8).getD k 0 = d.par.getD k 0 := by
    rw [List.getD_eq_getElem?_getD, List.getD_eq_getElem?_getD, List.getElem?_take_of_lt h]
    rcases Nat.lt_or_ge k d.par.length with in_ | past
    · rw [List.getElem?_append_left in_]
    · rw [List.getElem?_append_right past, List.getElem?_replicate_of_lt (by omega), List.getElem?_eq_none past]
      rfl
  rw [wAt, wAt, ← word]
  simp only [descOf, List.append_assoc]
  rw [List.getD_append_right _ _ _ _ (by simp), List.getD_append _ _ _ _ (by simp; omega)]
  exact congrArg (fun i => List.getD _ i 0) (Nat.add_sub_cancel_left ..)

theorem descOf_tail (op : Nat) (d : Desc) : wAt (descOf op d) 12 = w32 d.addr.toNat ∧
    wAt (descOf op d) 13 = w32 (d.addr.toNat >>> 32) ∧ wAt (descOf op d) 14 = d.len := by
  have len : ([w32 (op + 256 * d.flags.toNat), d.seq, d.target, d.w3] ++ (d.par ++ List.replicate 8 0).take 8).length = 12 :=
      by simp
  unfold descOf wAt
  simp only [List.append_assoc]
  refine ⟨?_, ?_, ?_⟩ <;>
    rw [← List.append_assoc, List.getD_append_right _ _ _ _ (len.le.trans (by decide)), len] <;> rfl

/-- The opcode and the PL_IN flag of word 0. -/
theorem descOf_head {op : Nat} (h : op < 256) (d : Desc) :
    fld (wAt (descOf op d) 0) 7 0 = op ∧ bitOf (wAt (descOf op d) 0) 8 = d.flags.getLsbD 0 := by
  have word : (w32 (op + 256 * d.flags.toNat)).toNat = op + 256 * d.flags.toNat := by
    rw [w32, BitVec.toNat_ofNat]
    have := d.flags.isLt
    omega
  have e : wAt (descOf op d) 0 = w32 (op + 256 * d.flags.toNat) := rfl
  rw [e]
  refine ⟨?_, ?_⟩
  · simp only [fld, nbits, word, Nat.shiftRight_zero]
    omega
  · rw [bitOf, BitVec.getLsbD, word, BitVec.getLsbD, Nat.testBit_eq_decide_div_mod_eq, Nat.testBit_eq_decide_div_mod_eq]
    congr 2
    omega

/-! ### One ring pair -/

@[simp] theorem ring_setRing_same (s : State) (n : Nat) (r : Ring) : ring (setRing s n r) n = r := tget_tset_same ..

@[simp] theorem ring_modRing_same (s : State) (n : Nat) (f : Ring → Ring) : ring (modRing s n f) n = f (ring s n) :=
    tget_tset_same ..

/-- A state that differs in its ring pairs alone, and a ring pair that changes. -/
theorem modRing_rest {s t : State} (h : t = { s with rings := t.rings }) (n : Nat) (f : Ring → Ring) :
    modRing t n f = { s with rings := (modRing t n f).rings } :=
  congrArg (fun u : State => { u with rings := (modRing t n f).rings }) h

/-- The descriptor as it stands in the window of its ring. -/
def flightOf (s : State) (n op : Nat) (d : Desc) : Flight :=
  { ord := (ring s n).fetched, slot := (ring s n).sqHead, words := descOf op d, input := if d.flags.getLsbD 0 then d.payload
      else [],
    early := none, waiting := false, dup := false }

/-- From `s` to `t` the ring pair has kept what a completion speaks of, and holds one descriptor that has not begun. -/
structure AtTurn (s : State) (n : Nat) (f : Flight) (t : State) : Prop where
  flight : (ring t n).flight = [f]
  ctrl : (ring t n).ctrl = (ring s n).ctrl
  cqTail : (ring t n).cqTail = (ring s n).cqTail
  phase : (ring t n).phase = (ring s n).phase
  done : (ring t n).done = (ring s n).done
  committed : (ring t n).committed = (ring s n).committed
  halted : (ring t n).halted = false
  closing : (ring t n).closing = false

section
variable {s t u : State} {n op : Nat} {d : Desc}

theorem hasWork_of_ready (h : Ready s n op d) : hasWork s n = true := by
  have fetch : (hasWork s n && itsTurn s n) = true := h.1
  exact (Bool.and_eq_true_iff.mp fetch).1

/-- What a ring has to be for a descriptor of its to be fetched (R503, R510, R514, R557). -/
theorem hasWork_ring (h : hasWork s n = true) : ringsRun s = true ∧ s.busMaster = true ∧ (ring s n).closing = false := by
  simp only [hasWork, Bool.and_eq_true, Bool.not_eq_true'] at h
  obtain ⟨⟨⟨⟨⟨⟨⟨⟨run, master⟩, -⟩, closing⟩, -⟩, -⟩, -⟩, -⟩, -⟩ := h
  exact ⟨run, master, closing⟩

theorem withCrc_dropLast (l : List Word) : (withCrc l).dropLast = l := List.dropLast_concat

theorem withCrc_last (l : List Word) : wAt (withCrc l) ((withCrc l).length - 1) = crcWords l := by
  simp [withCrc, wAt]

theorem payloadWords_withCrc {l : List Word} {ws : List Word} (h : 4 * (l.length + 1) = (wAt ws 14).toNat) :
    payloadWords ws (withCrc l) = withCrc l := by
  have len : (withCrc l).length = l.length + 1 := by simp [withCrc]
  have k : (wAt ws 14).toNat / 4 = (withCrc l).length := by omega
  simp [payloadWords, k]

/-- A good payload is taken (R504, R570). -/
theorem takePayload_good {f : Flight} (flag : bitOf (wAt f.words 0) 8 = d.flags.getLsbD 0) (input : f.input = [])
    (len : d.flags.getLsbD 0 = true → 4 * (d.payload.length + 1) = (wAt f.words 14).toNat) :
    takePayload s f (withCrc d.payload) true = (s, { f with input := if d.flags.getLsbD 0 then d.payload else [] }) := by
  unfold takePayload
  rw [flag]
  cases carries : d.flags.getLsbD 0 with
  | false => simp [← input]
  | true => simp only [payloadWords_withCrc (len carries), withCrc_dropLast, withCrc_last, Bool.not_true, if_pos,
      reduceCtorEq, if_false]

/-- A good descriptor of a ring that runs and expects it goes on to its commit turn (R521, R522). -/
theorem classifyDesc_good {f : Flight} (hop : op < 256) (resume : op ≠ 2) (words : f.words = descOf op d)
    (input : f.input = []) (halted : (ring s n).halted = false) (dupLeft : (ring s n).dupLeft = 0)
    (seq : d.seq = (ring s n).seq) (form : opStatic (descOf op d) = none)
    (carries : d.flags.getLsbD 0 = true → 4 * (d.payload.length + 1) = d.len.toNat) :
    classifyDesc s n f (withCrc d.payload) true =
      (modRing s n (fun r => { r with seq := r.seq + 1, dupLeft := r.dupLeft - 1 }),
      { f with input := if d.flags.getLsbD 0 then d.payload else [] }) := by
  obtain ⟨opcode, flag⟩ := descOf_head hop d
  have crc : (crcWords ((descOf op d).take 15) == wAt (descOf op d) 15) = true := by rw [descOf_crc, beq_self_eq_true]
  have said : wAt (descOf op d) 1 = d.seq := rfl
  unfold classifyDesc
  simp only [halted, dupLeft, words, opOf, opcode, crc, said, seq, form, resume, Bool.not_true, ne_eq, not_true_eq_false,
    if_false, reduceCtorEq]
  rw [← words]
  exact takePayload_good (words ▸ flag) input (fun h => by rw [words, (descOf_tail op d).2.2]; exact carries h)

/-- The fetch of a ready descriptor moves its ring pair alone (R522, R557). -/
theorem fetch_ready (h : Ready s n op d) (hop : op < 256) (resume : op ≠ 2) : ∃ R,
    fetch s n (descOf op d) (withCrc d.payload) true = { s with rings := R } ∧
    AtTurn s n (flightOf s n op d) { s with rings := R } := by
  have words : descWords (descOf op d) = descOf op d := List.take_left' (descOf_length op d)
  obtain ⟨-, -, closing⟩ := hasWork_ring (hasWork_of_ready h)
  obtain ⟨-, empty, running, fresh, seq, form, carries, -, -⟩ := h
  unfold fetch
  extract_lets r f z oldest turn u x
  have hu : u = { s with rings := u.rings } := modRing_rest (t := s) rfl n _
  have hr : ring u n = { r with
      turn := turn, sqHead := (r.sqHead + 1) % z, fetched := r.fetched + 1,
      covers := r.covers.filter (fun c => decide (oldest < c.upto)) } := ring_modRing_same ..
  have hx : x = (modRing u n (fun r => { r with seq := r.seq + 1, dupLeft := r.dupLeft - 1 }), flightOf s n op d) := by
    refine (classifyDesc_good (d := d) hop resume words rfl ?_ ?_ ?_ form carries).trans ?_
    · rw [hr]; exact running
    · rw [hr]; exact fresh
    · rw [hr]; exact seq
    · simp only [flightOf, f, words]
      rfl
  have e : ring (modRing x.1 n (fun r => { r with flight := r.flight ++ [x.2] })) n =
      { ring u n with
        seq := (ring u n).seq + 1, dupLeft := (ring u n).dupLeft - 1, flight := (ring u n).flight ++ [flightOf s n op d] } := by
    rw [hx, ring_modRing_same, ring_modRing_same]
  rw [hr] at e
  have rest : modRing x.1 n (fun r => { r with flight := r.flight ++ [x.2] }) =
      { s with rings := (modRing x.1 n (fun r => { r with flight := r.flight ++ [x.2] })).rings } := by
    refine modRing_rest ?_ n _
    rw [hx]
    dsimp only
    exact modRing_rest hu n _
  refine ⟨_, rest, ?_⟩
  rw [← rest]
  clear rest hx hr
  constructor
  · rw [e]
    exact congrArg (· ++ [flightOf s n op d]) empty
  · rw [e]
  · rw [e]
  · rw [e]
  · rw [e]
  · rw [e]
  · rw [e]; exact running
  · rw [e]; exact closing

end

end Sys2Proof.Proofs
end

section
/-! SUPPORT. The commit turn of a ready descriptor, and what its completion writes (R515, R523 to R525, R572). -/

namespace Sys2Proof.Proofs

set_option Elab.async false

open Machine Laws

section
variable {s t : State} {n op : Nat} {d : Desc}

/-! ### The commit turn of a ready descriptor (R522, R525, R557) -/

theorem AtTurn.ringPart {f : Flight} (a : AtTurn s n f t) : ringPart t n = ringPart s n := by
  rw [Machine.ringPart, Machine.ringPart, a.ctrl]

/-- What keeps the ring pairs keeps the turn. -/
theorem AtTurn.keep {f : Flight} {may : List Piece} {u : State} (a : AtTurn s n f t) (k : Keeps may t u)
    (rings : Piece.rings ∉ may := by decide) : AtTurn s n f u := by
  have e : ring u n = ring t n := by rw [ring, ring, k.rings_eq rings]
  obtain ⟨flight, ctrl, cqTail, phase, done, committed, halted, closing⟩ := a
  constructor <;> rw [e] <;> assumption

theorem runChecked_noHop (f : Flight) : runChecked s n f 0 = opRun s n f := by
  unfold runChecked
  extract_lets t
  split <;> rfl

/-- A ready descriptor is fetched and has its effect at once. -/
theorem submit_ready (h : Ready s n op d) (hop : op < 256) (resume : op ≠ 2) : ∃ R,
    AtTurn s n (flightOf s n op d) { s with rings := R } ∧
    submit s n op d = opRun { s with rings := R } n (flightOf s n op d) := by
  obtain ⟨R, fetched, turn⟩ := fetch_ready h hop resume
  obtain ⟨run, master, -⟩ := hasWork_ring (hasWork_of_ready h)
  obtain ⟨can, -, -, -, -, -, -, owner, holder⟩ := h
  have opcode : opOf (flightOf s n op d) = op := (descOf_head hop d).1
  have committed : commitOne { s with rings := R } n (flightOf s n op d) 0 = opRun { s with rings := R } n
      (flightOf s n op d) := by
    have mine : ¬ (ownerOnly op && ringPart { s with rings := R } n != 0) = true := by
      rw [turn.ringPart]
      intro bad
      obtain ⟨only, other⟩ := Bool.and_eq_true_iff.mp bad
      simp [owner only] at other
    have holds : ¬ (changesState op && onTwin { s with rings := R } && !s.base.holdOut) = true := by
      intro bad
      simp only [Bool.and_eq_true, Bool.not_eq_true'] at bad
      exact absurd (holder bad.1.1 bad.1.2) (by simp [bad.2])
    unfold commitOne
    rw [opcode, if_neg (by decide), if_neg (by simp [flightOf])]
    show (if _ then _ else if _ then _ else _) = _
    rw [if_neg mine, if_neg holds, runChecked_noHop]
  refine ⟨R, turn, ?_⟩
  unfold submit
  rw [if_pos can, fetched]
  dsimp only
  have single : (ring { s with rings := R } n).flight.length ≤ 1 := by
    rw [turn.flight]
    exact Nat.le_refl 1
  rw [if_pos single, commitFront, turn.flight, ← committed]
  have begins : (ringsRun s && s.busMaster && !(flightOf s n op d).waiting) = true := by simp [flightOf, master, run]
  exact if_pos begins

/-! ### A completion (R515, R523 to R525) -/

theorem ring_raiseVec (v : Nat) : ring (raiseVec s v) n = ring s n := by
  rw [ring, ring, (raiseVec_keeps ..).rings_eq (by decide)]

theorem mem_out_countIntr {o : Out} (h : o ∈ s.out) : o ∈ (countIntr s n).out := by
  have raised (v : Nat) (u : State) (h : o ∈ u.out) : o ∈ (raiseVec u v).out := by
    unfold raiseVec
    split
    · exact h
    · exact List.mem_append_left _ h
  unfold countIntr
  extract_lets k u
  split
  · exact raised _ _ h
  · exact h

theorem ring_countIntr : ∃ a b, ring (countIntr s n) n = { ring s n with unsig := a, unsigAt := b } := by
  unfold countIntr
  extract_lets k u
  split
  · exact ⟨0, (ring s n).unsigAt, by rw [ring_raiseVec, ring_modRing_same]⟩
  · exact ⟨_, _, ring_modRing_same ..⟩

theorem ring_stepCq : ∃ a b, ring (stepCq s n) n = { ring s n with cqTail := a, phase := b } := by
  unfold stepCq
  extract_lets z
  rw [ring_modRing_same]
  split
  · exact ⟨_, _, rfl⟩
  · exact ⟨_, _, rfl⟩

/-- The window after the completion of the one descriptor in it. -/
structure AfterCompletion (s : State) (n : Nat) (committed : Word) (t : State) : Prop where
  flight : (ring t n).flight = []
  done : (ring t n).done = (ring s n).done + 1
  committed : (ring t n).committed = committed
  halted : (ring t n).halted = false
  closing : (ring t n).closing = false

theorem AfterCompletion.countIntr {c : Word} (h : AfterCompletion s n c t) : AfterCompletion s n c (countIntr t n) := by
  obtain ⟨flight, done, committed, halted, closing⟩ := h
  obtain ⟨x, y, e⟩ := ring_countIntr (s := t) (n := n)
  constructor <;> rw [e] <;> assumption

/-- The record of a completion. -/
def completionOf (s : State) (n op : Nat) (d : Desc) (status : Nat) (r0 r1 detail : Word) : Out :=
  .completion n (ring s n).cqTail (withCrc
      [d.seq, w32 (status + (op <<< 16) + ((ring s n).phase.toNat <<< 31)), r0, r1, detail,
    w32 (nowTs s), w32 (nowTs s >>> 32)])

theorem writeCompletion_atTurn (a : AtTurn s n (flightOf s n op d) t) (hop : op < 256) (resume : op ≠ 2) (status : Nat)
    (r0 r1 detail : Word) :
    let u := writeCompletion t n (flightOf s n op d) status r0 r1 detail (nowTs s)
    (∀ o ∈ t.out ++ [completionOf s n op d status r0 r1 detail], o ∈ u.out) ∧
      AfterCompletion s n (if status = 0 then d.seq else (ring s n).committed) u := by
  have opcode : fld (wAt (flightOf s n op d).words 0) 7 0 = op := (descOf_head hop d).1
  have seq : wAt (flightOf s n op d).words 1 = d.seq := rfl
  unfold writeCompletion
  rw [opcode, seq]
  extract_lets r _ _ w1 x y z u
  have written : z.out = t.out ++ [completionOf s n op d status r0 r1 detail] := by
    rw [completionOf, ← a.cqTail, ← a.phase]
    exact ((modRing_keeps y n _).out_eq (by decide)).trans ((stepCq_keeps x n).out_eq (by decide))
  have after : AfterCompletion s n (if status = 0 then d.seq else (ring s n).committed) z := by
    obtain ⟨tail, turn, stepped⟩ := ring_stepCq (s := x) (n := n)
    have here : ring x n = ring t n := rfl
    have e := ring_modRing_same y n (fun r => { r with
      flight := r.flight.filter (fun g => g.ord != (flightOf s n op d).ord), done := r.done + 1,
      committed := if status = 0 ∧ op ≠ 2 then d.seq else r.committed,
      bad := if status ≤ 1 then r.bad else (flightOf s n op d).ord :: r.bad })
    change ring z n = _ at e
    rw [show ring y n = _ from stepped, here] at e
    constructor
    · rw [e]
      simp [a.flight]
    · rw [e]
      exact congrArg (· + 1) a.done
    · rw [e]
      simp [resume, a.committed]
    · rw [e]
      exact a.halted
    · rw [e]
      exact a.closing
  rw [← written]
  have last : u = z ∨ u = countIntr z n := ite_eq_or_eq ..
  clear_value u z
  rcases last with e | e <;> rw [e]
  · exact ⟨fun _ h => h, after⟩
  · exact ⟨fun _ h => mem_out_countIntr h, after.countIntr⟩

theorem closeRing_open (h : (ring s n).closing = false) : closeRing s n = s := by
  unfold closeRing
  extract_lets r
  exact if_neg (by simp [r, h])

/-- The completion of the one descriptor of a ring, at its commit turn (R523 to R525, R572). -/
theorem completed_atTurn (a : AtTurn s n (flightOf s n op d) t) (ts : nowTs t = nowTs s) (hop : op < 256) (resume : op ≠ 2)
    (status : Nat) (r0 r1 detail : Word) :
    Completed s n op d status r0 r1 detail (complete t n (flightOf s n op d) status r0 r1 detail) := by
  obtain ⟨out, flight, done, committed, halted, closing⟩ := writeCompletion_atTurn a hop resume status r0 r1 detail
  have sent := out _ (List.mem_append_right _ (List.mem_singleton_self _))
  rw [complete, ts]
  generalize writeCompletion t n (flightOf s n op d) status r0 r1 detail (nowTs s) = u at *
  split
  · rename_i good
    rw [closeRing_open closing]
    exact ⟨sent, flight, done, halted.trans (by simp [good]), committed⟩
  · rename_i bad
    have halts : haltRing u n = modRing u n (fun r => { r with halted := true, wantResume := true, rung := false }) := by
      rw [haltRing, flight]
      rfl
    have e := ring_modRing_same u n (fun r => { r with halted := true, wantResume := true, rung := false })
    rw [halts, closeRing_open (by rw [e]; exact closing)]
    refine ⟨sent, ?_, ?_, ?_, ?_⟩ <;> rw [e]
    · exact flight
    · exact done
    · exact (decide_eq_true (by omega)).symm
    · exact committed

/-- A completion with an output payload (R520, R523). -/
theorem returned_atTurn (a : AtTurn s n (flightOf s n op d) t) (ts : nowTs t = nowTs s) (hop : op < 256) (resume : op ≠ 2)
    (data : List Word) (r0 r1 : Word) :
    Returned s n op d data r0 r1 (completeOut t n (flightOf s n op d) data r0 r1 (nowTs t)) := by
  have addr : addrOf (flightOf s n op d) = d.addr.toNat := by
    obtain ⟨low, high, -⟩ := descOf_tail op d
    have lt := d.addr.isLt
    rw [addrOf, flightOf, low, high, w32, w32, BitVec.toNat_ofNat, BitVec.toNat_ofNat, Nat.shiftRight_eq_div_pow]
    omega
  have b := a.keep (emit_keeps t (.payload n d.addr.toNat (withCrc data)))
  obtain ⟨out, flight, done, committed, halted, closing⟩ :=
    writeCompletion_atTurn b hop resume 0 r0 r1 (w32 (4 * (data.length + 1)))
  rw [completeOut, ts, addr]
  rw [closeRing_open closing]
  exact ⟨out _ (List.mem_append_left _ (List.mem_append_right _ (List.mem_singleton_self _))),
    out _ (List.mem_append_right _ (List.mem_singleton_self _)), flight, done, halted, committed⟩

theorem Completed.close {status : Nat} {r0 r1 detail : Word} (h : Completed s n op d status r0 r1 detail t) (r : State) :
    Completed s n op d status r0 r1 detail (close r t) := by
  unfold Completed at *
  rwa [close_out, close_ring]

theorem Returned.close {data : List Word} {r0 r1 : Word} (h : Returned s n op d data r0 r1 t) (r : State) :
    Returned s n op d data r0 r1 (close r t) :=
  ⟨by rw [close_out]; exact h.1, Completed.close h.2 r⟩

theorem Waits.close (h : Waits s n t) (r : State) : Waits s n (close r t) := by
  unfold Waits at *
  rwa [close_ring]

end

end Sys2Proof.Proofs
end

section
/-! Ring operations that complete or wait, and the list of forces (R449 to R451, R556, R559). -/

namespace Sys2Proof.Proofs

set_option Elab.async false

open Machine Laws

section
variable {s : State} {n : Fin 64} {op : Nat} {d : Desc}

theorem parOf_flightOf {m : Nat} {k : Nat} (h : k < 8) : parOf (flightOf s m op d) k = wAt d.par k := descOf_par op d h

/-! ### The operations at their commit turn -/

/-- A command of a ring comes to the effect of its operation. -/
theorem command_turn {c : Instr} {effect : State → Nat → Flight → State} (h : Ready s n.val op d) (hop : op < 256)
    (resume : op ≠ 2)
    (command : exec c s = done s (submit s n op d)) (effects : ∀ t f, opOf f = op → opRun t n f = effect t n f) : ∃ R,
    AtTurn s n (flightOf s n op d) { s with rings := R } ∧
    exec c s = done s (effect { s with rings := R } n (flightOf s n op d)) := by
  obtain ⟨R, turn, e⟩ := submit_ready h hop resume
  have code : opOf (flightOf s n op d) = op := (descOf_head hop d).1
  exact ⟨R, turn, by rw [command, e, effects _ _ code]⟩

theorem forceSet_turn (h : Ready s n.val 0x36 d) : ∃ R, AtTurn s n (flightOf s n 0x36 d) { s with rings := R } ∧
    exec (.forceSet n d) s = done s (opForceSet { s with rings := R } n (flightOf s n 0x36 d)) :=
  command_turn h (by decide) (by decide) rfl fun t f code => by rw [opRun, runCore.eq_def, code]; rfl

theorem forceRelease_turn (h : Ready s n.val 0x37 d) : ∃ R, AtTurn s n (flightOf s n 0x37 d) { s with rings := R } ∧
    exec (.forceRelease n d) s = done s (opForceRelease { s with rings := R } n (flightOf s n 0x37 d)) :=
  command_turn h (by decide) (by decide) rfl fun t f code => by rw [opRun, runCore.eq_def, code]; rfl

theorem forceList_turn (h : Ready s n.val 0x38 d) : ∃ R, AtTurn s n (flightOf s n 0x38 d) { s with rings := R } ∧
    exec (.forceList n d) s = done s (opForceList { s with rings := R } n (flightOf s n 0x38 d)) :=
  command_turn h (by decide) (by decide) rfl fun t f code => by rw [opRun, runCore.eq_def, code]; rfl

theorem timed_turn (h : Ready s n.val 0x40 d) : ∃ R, AtTurn s n (flightOf s n 0x40 d) { s with rings := R } ∧
    exec (.timed n d) s = done s (opTimed { s with rings := R } n (flightOf s n 0x40 d)) :=
  command_turn h (by decide) (by decide) rfl fun t f code => by rw [opRun, runCore.eq_def, code]; rfl

theorem handoffReq_turn (h : Ready s n.val 0x41 d) : ∃ R, AtTurn s n (flightOf s n 0x41 d) { s with rings := R } ∧
    exec (.handoffReq n d) s = done s (opHandoffReq { s with rings := R } n (flightOf s n 0x41 d)) :=
  command_turn h (by decide) (by decide) rfl fun t f code => by rw [opRun, runCore.eq_def, code]; rfl

/-! ### How they end -/

section
variable {c : Instr} {R : Tab Ring}

/-- A ring pair that changes, and nothing else. -/
theorem rings_keeps : Keeps [.rings] s { s with rings := R } := .rings (.refl _ _) (by decide)

/-- An operation that only completes. -/
theorem completes_only {status : Nat} {r0 r1 detail : Word} (turn : AtTurn s n (flightOf s n op d) { s with rings := R })
    (hop : op < 256) (resume : op ≠ 2)
    (e : exec c s = done s (complete { s with rings := R } n (flightOf s n op d) status r0 r1 detail)) :
    ∃ t, exec c s = .next t ∧ Frame [.rings, .msixPend, .out] s t ∧ Completed s n op d status r0 r1 detail t :=
  completes ⟨_, e, (rings_keeps.mono (by decide)).step (complete_keeps ..) (by decide)⟩ e
    (Completed.close (completed_atTurn turn rfl hop resume ..) s)

/-- An operation whose effect leaves the rings and the clock alone, and which then completes OK. -/
theorem completes_after {v : State} {may : List Piece} {r0 : Word}
    (turn : AtTurn s n (flightOf s n op d) { s with rings := R })
    (hop : op < 256) (resume : op ≠ 2)
    (k : Keeps may { s with rings := R } v) (rings : Piece.rings ∉ may) (phc : Piece.phc ∉ may) :
    Completed s n op d 0 r0 0 0 (close s (complete v n (flightOf s n op d) 0 r0 0 0)) := by
  have ts : nowTs v = nowTs s := by
    unfold nowTs absA
    rw [k.phc_eq phc]
  exact Completed.close (completed_atTurn (turn.keep k rings) ts hop resume ..) s

/-- A descriptor that begins to wait. -/
theorem waits_atTurn {t : State} (turn : AtTurn s n (flightOf s n op d) t) : Waits s n (setWaiting t n (flightOf s n op d))
    := by
  have e : ring (setWaiting t n (flightOf s n op d)) n = _ := ring_modRing_same ..
  refine ⟨?_, ?_, ?_⟩ <;> rw [e]
  · simp [turn.flight]
  · simp [turn.flight]
  · exact turn.done

end

/-! ### The list of forces (R449, R450) -/

/-- The forces with one of them set. -/
def withForce (l : List Force) (e : Force) : List Force :=
  if l.any (forceIs e.kind e.obj e.pin) then l.map (fun g => if forceIs e.kind e.obj e.pin g then e else g) else l ++ [e]

section
variable (l : List Force) (e : Force)

theorem forceIs_self : forceIs e.kind e.obj e.pin e = true := by
  simp [forceIs]

/-- Under the key stands the force that was set. -/
theorem eq_of_mem_withForce {f : Force} (h : f ∈ withForce l e) (key : forceIs e.kind e.obj e.pin f = true) : f = e := by
  unfold withForce at h
  split at h
  · obtain ⟨g, -, rfl⟩ := List.mem_map.mp h
    split
    · rfl
    · rename_i other
      rw [if_neg other] at key
      exact absurd key other
  · rename_i new
    rcases List.mem_append.mp h with old | last
    · exact absurd (List.any_eq_true.mpr ⟨f, old, key⟩) new
    · exact List.mem_singleton.mp last

theorem mem_withForce : e ∈ withForce l e := by
  unfold withForce
  split
  · rename_i has
    obtain ⟨g, hg, key⟩ := List.any_eq_true.mp has
    exact List.mem_map.mpr ⟨g, hg, if_pos key⟩
  · exact List.mem_append_right _ (List.mem_singleton_self _)

/-- The forces of other keys stand. -/
theorem filter_withForce : (withForce l e).filter (fun f => !forceIs e.kind e.obj e.pin f) =
    l.filter (fun f => !forceIs e.kind e.obj e.pin f) := by
  unfold withForce
  split
  · generalize l = m
    induction m with
    | nil => rfl
    | cons g m ih =>
      cases key : forceIs e.kind e.obj e.pin g <;> simp [key, forceIs_self, ih]
  · simp [forceIs_self]

/-- A force that is set: its value under its key, the others as they were. -/
theorem withForce_spec {t : State} {l : List Force} {e : Force} (set : t.forces = withForce l e) :
    (∀ f ∈ t.forces, forceIs e.kind e.obj e.pin f = true → f.val = e.val) ∧
      t.forces.any (forceIs e.kind e.obj e.pin) = true ∧
      t.forces.filter (fun f => !forceIs e.kind e.obj e.pin f) = l.filter (fun f => !forceIs e.kind e.obj e.pin f) := by
  rw [set]
  exact ⟨fun f hf key => congrArg Force.val (eq_of_mem_withForce _ _ hf key),
    List.any_eq_true.mpr ⟨_, mem_withForce .., forceIs_self _⟩, filter_withForce ..⟩

/-- What a point reads under the force that was set on it (R451). -/
theorem pval_withForce {t : State} (kind : e.kind = 0) (set : t.forces = withForce l e) : pval t e.obj = e.val := by
  have same : (fun f : Force => f.kind == 0 && f.obj == e.obj) = forceIs e.kind e.obj e.pin := by
    funext f
    simp [forceIs, kind]
  have found : pointForce t e.obj = some e := by
    rw [pointForce, same, set]
    cases h : (withForce l e).find? (forceIs e.kind e.obj e.pin) with
    | none => exact absurd (forceIs_self e) (by simpa using List.find?_eq_none.mp h e (mem_withForce l e))
    | some f => rw [eq_of_mem_withForce l e (List.mem_of_find?_eq_some h) (List.find?_some h)]
  rw [pval, found]

end

end

end Sys2Proof.Proofs
end

section
/-! Forces by ring (R449 to R454, R538). -/

namespace Sys2Proof.Proofs

set_option Elab.async false

open Machine Laws

/-! ### The clauses of O35: forces (R449 to R454, R538) -/

section
variable {s : State} {n : Fin 64} {d : Desc}

/-- What a force changes beside its ring. -/
abbrev force_may : List Piece := [.banks, .ch, .rings, .msixPend, .forces, .can, .ble, .twn, .out]

theorem forceSet_unknown (h : Ready s n.val 0x36 d)
    (none : forceType s (wAt d.par 0).toNat (wAt d.par 1).toNat (wAt d.par 2).toNat = none) :
    ∃ t, exec (.forceSet n d) s = .next t ∧ Frame [.rings, .msixPend, .out] s t ∧ Completed s n.val 0x36 d 0xD 0 0 1 t := by
  obtain ⟨R, turn, e⟩ := forceSet_turn h
  refine completes_only turn (by decide) (by decide) (e.trans (congrArg (done s) ?_))
  replace none : forceType { s with rings := R } (wAt d.par 0).toNat (wAt d.par 1).toNat (wAt d.par 2).toNat = .none := none
  simp only [opForceSet, parOf_flightOf, Nat.reduceLT, none]
  rfl

/-- The force a descriptor sets. -/
def forceOf (s : State) (d : Desc) : Force :=
  { kind := (wAt d.par 0).toNat, obj := (wAt d.par 1).toNat, pin := (wAt d.par 2).toNat, typ := (wAt d.par 3).toNat,
    val := wAt d.par 4, part := keyPart s (wAt d.par 0).toNat (wAt d.par 1).toNat, ts := nowTs s }

/-- The state with a descriptor's force set, its readers told. -/
def forceSetIn (s : State) (d : Desc) : State :=
  forceSeen (noteForce { s with forces := withForce s.forces (forceOf s d) } (forceOf s d)) (wAt d.par 0).toNat
      (wAt d.par 1).toNat

theorem forceSetIn_keeps : Keeps [.banks, .ch, .forces, .can, .ble, .twn, .out] s (forceSetIn s d) :=
  ((Keeps.forces (.refl _ _) (by decide)).step (noteForce_keeps ..) (by decide)).step (forceSeen_keeps ..) (by decide)

theorem forceSetIn_forces : (forceSetIn s d).forces = withForce s.forces (forceOf s d) :=
  ((forceSeen_keeps ..).forces_eq (by decide)).trans ((noteForce_keeps ..).forces_eq (by decide))

theorem opForceSet_sets {m : Nat} {f : Flight} (par : ∀ k < 8, parOf f k = wAt d.par k) {ty : Nat}
    (type : forceType s (wAt d.par 0).toNat (wAt d.par 1).toNat (wAt d.par 2).toNat = some ty)
    (part : partOk (ringPart s m) (keyPart s (wAt d.par 0).toNat (wAt d.par 1).toNat) = true)
    (mode : ¬ ((wAt d.par 0).toNat = 0 ∧ (wAt d.par 1).toNat < 0xC0 ∧ chMode s (wAt d.par 1).toNat = 0))
    (same : ty = (wAt d.par 3).toNat) (bool : ty = 0 → (wAt d.par 4).toNat ≤ 1)
    (room : s.forces.length < 512 ∨
      s.forces.any (forceIs (wAt d.par 0).toNat (wAt d.par 1).toNat (wAt d.par 2).toNat) = true) :
    opForceSet s m f = ok (forceSetIn s d) m f
      (boolW (s.forces.any (forceIs (wAt d.par 0).toNat (wAt d.par 1).toNat (wAt d.par 2).toNat))) 0 := by
  have valued : ¬ ((wAt d.par 3).toNat = 0 ∧ 1 < (wAt d.par 4).toNat) := fun ⟨t, v⟩ => absurd (bool (same.trans t))
      (by omega)
  have fits : ¬ (!s.forces.any (forceIs (wAt d.par 0).toNat (wAt d.par 1).toNat (wAt d.par 2).toNat) &&
      decide (512 ≤ s.forces.length)) = true := by
    rcases room with few | has
    · simp [few]
    · simp [has]
  unfold opForceSet
  simp only [par 0 (by decide), par 1 (by decide), par 2 (by decide), par 3 (by decide), par 4 (by decide)]
  rw [type]
  dsimp only
  rw [part, same, if_neg (by decide), if_neg mode, if_neg (by simp), if_neg valued, if_neg fits]
  rfl

theorem forceSet_sets (h : Ready s n.val 0x36 d) {ty : Nat}
    (type : forceType s (wAt d.par 0).toNat (wAt d.par 1).toNat (wAt d.par 2).toNat = some ty)
    (part : partOk (ringPart s n) (keyPart s (wAt d.par 0).toNat (wAt d.par 1).toNat) = true)
    (mode : wAt d.par 0 = 0 → (wAt d.par 1).toNat < 0xC0 → chMode s (wAt d.par 1).toNat ≠ 0)
    (same : ty = (wAt d.par 3).toNat) (bool : ty = 0 → (wAt d.par 4).toNat ≤ 1)
    (room : s.forces.length < 512 ∨
      s.forces.any (forceIs (wAt d.par 0).toNat (wAt d.par 1).toNat (wAt d.par 2).toNat) = true) :
    ∃ t, exec (.forceSet n d) s = .next t ∧ Frame force_may s t ∧
      Completed s n.val 0x36 d 0
        (boolW (s.forces.any (forceIs (wAt d.par 0).toNat (wAt d.par 1).toNat (wAt d.par 2).toNat))) 0 0 t ∧
      (∀ f ∈ t.forces, forceIs (wAt d.par 0).toNat (wAt d.par 1).toNat (wAt d.par 2).toNat f = true → f.val = wAt d.par 4) ∧
      t.forces.any (forceIs (wAt d.par 0).toNat (wAt d.par 1).toNat (wAt d.par 2).toNat) = true ∧
      (wAt d.par 0 = 0 →
        pval t (wAt d.par 1).toNat = wAt d.par 4 ∧ pnat t (wAt d.par 1).toNat = pnat s (wAt d.par 1).toNat) ∧
      t.forces.filter (fun f => !forceIs (wAt d.par 0).toNat (wAt d.par 1).toNat (wAt d.par 2).toNat f) =
        s.forces.filter (fun f => !forceIs (wAt d.par 0).toNat (wAt d.par 1).toNat (wAt d.par 2).toNat f) := by
  obtain ⟨R, turn, e⟩ := forceSet_turn h
  have moded : ¬ ((wAt d.par 0).toNat = 0 ∧ (wAt d.par 1).toNat < 0xC0 ∧ chMode s (wAt d.par 1).toNat = 0) :=
    fun ⟨kind, chan, zero⟩ => mode (BitVec.eq_of_toNat_eq kind) chan zero
  have sets := opForceSet_sets (s := { s with rings := R }) (m := n) (f := flightOf s n 0x36 d) (d := d) (ty := ty)
    (fun k hk => parOf_flightOf hk) type (by rw [turn.ringPart]; exact part) moded same bool room
  replace e := e.trans (congrArg (done s) sets)
  have kept := forceSetIn_keeps (s := { s with rings := R }) (d := d)
  have k := ((rings_keeps (s := s) (R := R)).mono (b := force_may) (by decide)).step kept (by decide)
  have done := complete_keeps (forceSetIn { s with rings := R } d) n (flightOf s n 0x36 d) 0
    (boolW (s.forces.any (forceIs (wAt d.par 0).toNat (wAt d.par 1).toNat (wAt d.par 2).toNat))) 0 0
  have forces := (close_forces s _).trans ((done.forces_eq (by decide)).trans forceSetIn_forces)
  have pnat_eq := (close_pnat s _ _).trans (congrArg (tget ptDefault · (wAt d.par 1).toNat)
      ((k.step done (by decide)).pts_eq (by decide)))
  obtain ⟨value, present, others⟩ := withForce_spec forces
  exact completes ⟨_, e, k.step done (by decide)⟩ e ⟨completes_after turn (by decide) (by decide) kept (by decide)
      (by decide),
    value, present, fun kind => ⟨pval_withForce _ _ (congrArg BitVec.toNat kind) forces, pnat_eq⟩, others⟩

/-- A release leaves the forces that the test does not name. -/
theorem dropForces_forces (p : Force → Bool) : (dropForces s p).forces = s.forces.filter (fun g => !p g) := by
  have told (l : List Force) (t : State) :
      (forAll l (fun s g => forceSeen (noteForce s { g with kind := g.kind + 2 }) g.kind g.obj) t).forces = t.forces := by
    have k : Keeps [.banks, .ch, .can, .ble, .twn, .out] t
        (forAll l (fun s g => forceSeen (noteForce s { g with kind := g.kind + 2 }) g.kind g.obj) t) :=
      .forAll (.refl _ _) fun _ _ h => (h.step (noteForce_keeps ..) (by decide)).step (forceSeen_keeps ..) (by decide)
    exact k.forces_eq (by decide)
  exact told ..

/-- A release that completes. -/
theorem forceRelease_drops {R : Tab Ring} {p : Force → Bool} {r0 : Word}
    (turn : AtTurn s n (flightOf s n 0x37 d) { s with rings := R })
    (e : exec (.forceRelease n d) s = done s (ok (dropForces { s with rings := R } p) n (flightOf s n 0x37 d) r0 0)) :
    ∃ t, exec (.forceRelease n d) s = .next t ∧ Frame force_may s t ∧ t.forces = s.forces.filter (fun g => !p g) ∧
      Completed s n.val 0x37 d 0 r0 0 0 t := by
  have kept := dropForces_keeps { s with rings := R } p
  have k := ((rings_keeps (s := s) (R := R)).mono (b := force_may) (by decide)).step kept (by decide)
  refine completes ⟨_, e, k.step (complete_keeps ..) (by decide)⟩ e
    ⟨?_, completes_after turn (by decide) (by decide) kept (by decide) (by decide)⟩
  rw [close_forces]
  exact ((complete_keeps ..).forces_eq (by decide)).trans (dropForces_forces p)

theorem forceRelease_all (h : Ready s n.val 0x37 d) (all : wAt d.par 0 = 0xFF) :
    ∃ t, exec (.forceRelease n d) s = .next t ∧ Frame force_may s t ∧
      t.forces = s.forces.filter (fun f => f.part != ringPart s n) ∧
      Completed s n.val 0x37 d 0 (w32 (s.forces.filter (fun f => f.part == ringPart s n)).length) 0 0 t := by
  obtain ⟨R, turn, e⟩ := forceRelease_turn h
  refine forceRelease_drops (p := fun f => f.part == ringPart s n) turn (e.trans (congrArg (done s) ?_))
  simp only [opForceRelease, parOf_flightOf, Nat.reduceLT, all, turn.ringPart]
  rfl

theorem forceRelease_one (h : Ready s n.val 0x37 d) (some_ : wAt d.par 0 ≠ 0xFF) {g : Force}
    (found : s.forces.find? (forceIs (wAt d.par 0).toNat (wAt d.par 1).toNat (wAt d.par 2).toNat) = some g)
    (part : partOk (ringPart s n) g.part = true) :
    ∃ t, exec (.forceRelease n d) s = .next t ∧ Frame force_may s t ∧
      t.forces = s.forces.filter (fun f => !forceIs (wAt d.par 0).toNat (wAt d.par 1).toNat (wAt d.par 2).toNat f) ∧
      Completed s n.val 0x37 d 0 1 0 0 t := by
  obtain ⟨R, turn, e⟩ := forceRelease_turn h
  have one : (wAt d.par 0).toNat ≠ 0xFF := fun h => some_ (BitVec.eq_of_toNat_eq h)
  refine forceRelease_drops turn (e.trans (congrArg (done s) ?_))
  simp only [opForceRelease, parOf_flightOf, Nat.reduceLT, one, if_false, found, turn.ringPart, part]
  rfl

theorem forceRelease_missing (h : Ready s n.val 0x37 d) (some_ : wAt d.par 0 ≠ 0xFF)
    (missing : s.forces.find? (forceIs (wAt d.par 0).toNat (wAt d.par 1).toNat (wAt d.par 2).toNat) = none) :
    ∃ t, exec (.forceRelease n d) s = .next t ∧ Frame [.rings, .msixPend, .out] s t ∧
      Completed s n.val 0x37 d 0xF 0 0 0 t := by
  obtain ⟨R, turn, e⟩ := forceRelease_turn h
  have one : (wAt d.par 0).toNat ≠ 0xFF := fun h => some_ (BitVec.eq_of_toNat_eq h)
  refine completes_only turn (by decide) (by decide) (e.trans (congrArg (done s) ?_))
  simp only [opForceRelease, parOf_flightOf, Nat.reduceLT, one, if_false, missing]
  rfl

end

end Sys2Proof.Proofs
end

section
/-! Timed actions, the handoff, and the list of forces by ring (R115 to R117, R491, R538 to R541); the settlement of O35. -/

namespace Sys2Proof.Proofs

set_option Elab.async false

open Machine Laws

/-! ### The form of a descriptor (R520, R522) -/

theorem badPayload_of_opStatic {ws : List Word} {g : OpForm} (h : opStatic ws = none) (form : opForm ws = some g) :
    badPayload g ws = none := by
  unfold opStatic at h
  rw [form] at h
  dsimp only at h
  split at h
  · cases h
  · split at h
    · cases h
    · split at h
      · cases h
      · split at h
        · cases h
        · split at h
          · cases h
          · exact Option.map_eq_none_iff.mp h

/-- An operation with output has a buffer of eight bytes at least. -/
theorem len_of_badPayload {ws : List Word} {g : OpForm} (h : badPayload g ws = none) (out : g.pout = true) :
    8 ≤ (wAt ws 14).toNat := by
  unfold badPayload at h
  extract_lets len w0 at h
  rw [if_neg (by simp [out])] at h
  split at h
  · cases h
  · split at h
    · cases h
    · rename_i good
      exact Nat.le_of_not_lt fun few => good (.inl few)

section
variable {s : State} {n : Fin 64} {d : Desc}

/-! ### The clauses of O35: the list of forces (R538) -/

theorem forceList_len (h : opStatic (descOf 0x38 d) = none) : 8 ≤ d.len.toNat := by
  have code : fld (wAt (descOf 0x38 d) 0) 7 0 = 0x38 := (descOf_head (by decide) d).1
  have form : opForm (descOf 0x38 d) = some { target := (wAt (descOf 0x38 d) 2).toNat == 0, used := 1, pout := true } := by
    unfold opForm
    rw [code]
    rfl
  have len := len_of_badPayload (badPayload_of_opStatic h form) rfl
  rwa [(descOf_tail _ d).2.2] at len

theorem forceWords_length (l : List Force) : (l.flatMap forceWords).length = 6 * l.length := by
  induction l with
  | nil => rfl
  | cons g l ih =>
    rw [List.flatMap_cons, List.length_append, ih, List.length_cons]
    show 6 + 6 * l.length = 6 * (l.length + 1)
    omega

theorem forceList_returns (h : Ready s n.val 0x38 d) :
    ∃ t, exec (.forceList n d) s = .next t ∧ Frame [.rings, .msixPend, .out] s t ∧
      Returned s n.val 0x38 d
          ((((s.forces.filter (fun g => ringPart s n == 0 || g.part == ringPart s n)).drop (wAt d.par 0).toNat).take
        ((d.len.toNat - 4) / 24)).flatMap forceWords)
        (w32 (((s.forces.filter (fun g => ringPart s n == 0 || g.part == ringPart s n)).drop (wAt d.par 0).toNat).take
        ((d.len.toNat - 4) / 24)).length) (w32 s.forces.length) t := by
  obtain ⟨R, turn, e⟩ := forceList_turn h
  obtain ⟨-, -, -, -, -, form, -, -, -⟩ := h
  have len := forceList_len form
  have words : wAt (flightOf s n 0x38 d).words 14 = d.len := (descOf_tail 0x38 d).2.2
  generalize hl : ((s.forces.filter (fun g => ringPart s n == 0 || g.part == ringPart s n)).drop (wAt d.par 0).toNat).take
    ((d.len.toNat - 4) / 24) = l
  have fits : ¬ d.len.toNat < 4 * (l.flatMap forceWords).length + 4 := by
    have few : l.length ≤ (d.len.toNat - 4) / 24 := hl ▸ List.length_take_le ..
    rw [forceWords_length]
    omega
  have listed : opForceList { s with rings := R } n (flightOf s n 0x38 d) =
      completeOut { s with rings := R } n (flightOf s n 0x38 d) (l.flatMap forceWords) (w32 l.length) (w32 s.forces.length)
        (nowTs { s with rings := R }) := by
    unfold opForceList output
    simp only [parOf_flightOf, Nat.reduceLT, turn.ringPart, words, hl]
    exact if_neg fits
  replace e := e.trans (congrArg (done s) listed)
  refine completes ⟨_, e, (rings_keeps.mono (by decide)).step (completeOut_keeps ..) (by decide)⟩ e ?_
  exact Returned.close (returned_atTurn turn rfl (by decide) (by decide) ..) s

/-! ### The clauses of O35: timed actions (R115 to R117, R540) -/

/-- An accepted action waits for its unit. -/
theorem timed_waits {R : Tab Ring} {x : Timed} (turn : AtTurn s n (flightOf s n 0x40 d) { s with rings := R })
    (e : exec (.timed n d) s = done s { setWaiting { s with rings := R } n (flightOf s n 0x40 d) with
      phc := { s.phc with timed := s.phc.timed ++ [x] } }) :
    ∃ t, exec (.timed n d) s = .next t ∧ Frame [.phc, .rings] s t ∧ Waits s n.val t ∧ t.phc.timed = s.phc.timed ++ [x] := by
  refine completes ⟨_, e, .phc ((rings_keeps.mono (by decide)).step (setWaiting_keeps ..) (by decide)) (by decide)⟩ e
      ⟨?_, ?_⟩
  · have waits : Waits s n { setWaiting { s with rings := R } n (flightOf s n 0x40 d) with
        phc := { s.phc with timed := s.phc.timed ++ [x] } } := waits_atTurn turn
    exact Waits.close waits s
  · rw [close_phc]

section
variable (action : wAt d.par 0 = 1 ∨ wAt d.par 0 = 4 ∨ wAt d.par 0 = 7)
include action

theorem timedAction_known : ¬ ((wAt d.par 0).toNat ≠ 1 ∧ (wAt d.par 0).toNat ≠ 4 ∧ (wAt d.par 0).toNat ≠ 7) := by
  rcases action with h | h | h <;> rw [h] <;> decide

/-- Too many timed actions are pending (R540). -/
theorem timed_full (h : Ready s n.val 0x40 d) (full : 64 ≤ s.phc.timed.length) :
    ∃ t, exec (.timed n d) s = .next t ∧ Frame [.rings, .msixPend, .out] s t ∧ Completed s n.val 0x40 d 0x13 0 0 0 t := by
  obtain ⟨R, turn, e⟩ := timed_turn h
  refine completes_only turn (by decide) (by decide) (e.trans (congrArg (done s) ?_))
  unfold opTimed
  simp only [parOf_flightOf, Nat.reduceLT, timedAction_known action, if_false, full, if_true]
  rfl

/-- The unit it names is too near (R116). -/
theorem timed_late (h : Ready s n.val 0x40 d) (room : s.phc.timed.length < 64) (phase : bitOf (wAt d.par 2) 0 = false)
    (late : ((wAt d.par 3).toNat + (wAt d.par 4).toNat * 2 ^ 32) % 2 ^ 60 < absA s + 2048) :
    ∃ t, exec (.timed n d) s = .next t ∧ Frame [.rings, .msixPend, .out] s t ∧ Completed s n.val 0x40 d 0x10 0 0 0 t := by
  obtain ⟨R, turn, e⟩ := timed_turn h
  refine completes_only turn (by decide) (by decide) (e.trans (congrArg (done s) ?_))
  unfold opTimed
  simp only [parOf_flightOf, Nat.reduceLT, timedAction_known action, if_false, Nat.not_le.mpr room, phase, Bool.false_and,
    Bool.false_eq_true]
  exact if_pos (by exact_mod_cast late)

theorem timed_phase (h : Ready s n.val 0x40 d) (room : s.phc.timed.length < 64) (phase : bitOf (wAt d.par 2) 0 = false)
    (ahead : absA s + 2048 ≤ ((wAt d.par 3).toNat + (wAt d.par 4).toNat * 2 ^ 32) % 2 ^ 60) :
    ∃ t, exec (.timed n d) s = .next t ∧ Frame [.phc, .rings] s t ∧ Waits s n.val t ∧
      t.phc.timed.length = s.phc.timed.length + 1 ∧
      ∀ x ∈ t.phc.timed.getLast?.toList, x.ring = n.val ∧ x.action = (wAt d.par 0).toNat ∧ x.arg = wAt d.par 1 ∧
        x.unit = ((wAt d.par 3).toNat + (wAt d.par 4).toNat * 2 ^ 32) % 2 ^ 60 ∧ x.fixed = true := by
  obtain ⟨R, turn, e⟩ := timed_turn h
  obtain ⟨u, hu⟩ : ∃ u, ((wAt d.par 3).toNat + (wAt d.par 4).toNat * 2 ^ 32) % 2 ^ 60 = u := ⟨_, rfl⟩
  rw [hu] at ahead ⊢
  have near : ¬ (u : Int) < absA s + 2048 := by omega
  have accepted : opTimed { s with rings := R } n (flightOf s n 0x40 d) =
      { setWaiting { s with rings := R } n (flightOf s n 0x40 d) with
      phc := { s.phc with timed := s.phc.timed ++ [Timed.mk n.val (wAt d.par 0).toNat (wAt d.par 1) false
        (((wAt d.par 3).toNat + (wAt d.par 4).toNat * 2 ^ 32) * 1000000000 + (wAt d.par 5).toNat) u true] } } := by
    unfold opTimed
    simp only [parOf_flightOf, Nat.reduceLT, timedAction_known action, if_false, Nat.not_le.mpr room, phase, Bool.false_and,
      Bool.false_eq_true, hu, Bool.not_false, Bool.true_or, Int.toNat_natCast]
    exact if_neg near
  obtain ⟨t, answers, frame, waits, timed⟩ := timed_waits turn (e.trans (congrArg (done s) accepted))
  refine ⟨t, answers, frame, waits, ?_, ?_⟩ <;> rw [timed]
  · exact List.length_append
  · intro x hx
    rw [List.getLast?_concat] at hx
    rw [List.mem_singleton.mp hx]
    exact ⟨rfl, rfl, rfl, rfl, rfl⟩

theorem timed_network (h : Ready s n.val 0x40 d) (room : s.phc.timed.length < 64) (net : bitOf (wAt d.par 2) 0 = true)
    (locked : netLocked s = true) {u : Int}
    (unit : toPhase s (((wAt d.par 3).toNat + (wAt d.par 4).toNat * 2 ^ 32) * 1000000000 + (wAt d.par 5).toNat) = some u)
    (ahead : (absA s : Int) + 2048 ≤ u) :
    ∃ t, exec (.timed n d) s = .next t ∧ Frame [.phc, .rings] s t ∧ Waits s n.val t ∧
      t.phc.timed = s.phc.timed ++ [Timed.mk n.val (wAt d.par 0).toNat (wAt d.par 1) true
        (((wAt d.par 3).toNat + (wAt d.par 4).toNat * 2 ^ 32) * 1000000000 + (wAt d.par 5).toNat) u.toNat
          (decide (u < absA s + 4096))] := by
  obtain ⟨R, turn, e⟩ := timed_turn h
  refine timed_waits turn (e.trans (congrArg (done s) ?_))
  unfold opTimed
  replace unit : toPhase { s with rings := R } _ = some u := unit
  replace locked : netLocked { s with rings := R } = true := locked
  simp only [parOf_flightOf, Nat.reduceLT, timedAction_known action, if_false, Nat.not_le.mpr room, net, locked,
      Bool.not_true,
    Bool.and_false, Bool.false_eq_true, if_true, unit]
  exact if_neg (Int.not_lt.mpr ahead)

end

/-! ### The clauses of O35: the handoff (R491, R541) -/

theorem handoff_planned (h : Ready s n.val 0x41 d) (planned : s.twn.plan ≠ none) :
    ∃ t, exec (.handoffReq n d) s = .next t ∧ Frame [.rings, .msixPend, .out] s t ∧
      Completed s n.val 0x41 d 0xE 0 0 0 t := by
  obtain ⟨R, turn, e⟩ := handoffReq_turn h
  refine completes_only turn (by decide) (by decide) (e.trans (congrArg (done s) ?_))
  exact if_pos (Option.isSome_iff_ne_none.mpr planned)

theorem handoff_refused (h : Ready s n.val 0x41 d) (free : s.twn.plan = none)
    (unfit : s.twn.role ≠ 1 ∨ standbyClean s = false) :
    ∃ t, exec (.handoffReq n d) s = .next t ∧ Frame [.rings, .msixPend, .out] s t ∧
      Completed s n.val 0x41 d 0xD 0 0 1 t := by
  obtain ⟨R, turn, e⟩ := handoffReq_turn h
  refine completes_only turn (by decide) (by decide) (e.trans (congrArg (done s) ?_))
  exact (if_neg (by simp [free])).trans (if_pos unfit)

/-- The state with the handoff a host has asked for planned at cycle `c`. -/
def withPlan (s : State) (c n : Nat) : State :=
  let plan : Plan := { at_ := c, cause := 3, ring := some n, req := s.phc.cycle, out := false }
  refreshPair { s with twn := { s.twn with plan := some plan } }

theorem handoff_waits (h : Ready s n.val 0x41 d) (free : s.twn.plan = none) (holder : s.twn.role = 1)
    (clean : standbyClean s = true) {c : Nat}
    (window : nextWindow s s.phc.cycle (s.phc.cycle + (if s.phc.phase = 0 then 1 else 2)) = some c) :
    ∃ t, exec (.handoffReq n d) s = .next t ∧ Frame [.rings, .twn] s t ∧ Waits s n.val t ∧ t.twn.role = 1 ∧
      t.twn.plan.isSome = true ∧
      ∀ p, t.twn.plan = some p → p.at_ = c ∧ p.cause = 3 ∧ p.ring = some n.val ∧ p.req = s.phc.cycle := by
  obtain ⟨R, turn, e⟩ := handoffReq_turn h
  have planned : planHandoff { s with rings := R } 3 (some n.val) = some (withPlan { s with rings := R } c n) :=
    congrArg (Option.map _) window
  have begun : opHandoffReq { s with rings := R } n (flightOf s n 0x41 d) =
      setWaiting (withPlan { s with rings := R } c n) n (flightOf s n 0x41 d) := by
    unfold opHandoffReq
    have fit : ¬ (s.twn.role ≠ 1 ∨ standbyClean { s with rings := R } = false) := by simp [holder, ← clean]; rfl
    rw [if_neg (by simp [free]), if_neg fit, planned]
  replace e := e.trans (congrArg (done s) begun)
  have kept : Keeps [.twn] { s with rings := R } (withPlan { s with rings := R } c n) :=
    (Keeps.twn (.refl _ _) (by decide)).step (refreshPair_keeps _) (by decide)
  have k : Keeps [.rings, .twn] s (withPlan { s with rings := R } c n) :=
    (rings_keeps.mono (by decide)).step kept (by decide)
  refine completes ⟨_, e, k.step (setWaiting_keeps ..) (by decide)⟩ e ⟨Waits.close (waits_atTurn (turn.keep kept)) s, ?_⟩
  rw [close_twn]
  exact ⟨holder, rfl, fun p hp => by cases hp; exact ⟨rfl, rfl, rfl, rfl⟩⟩

end

/-- Settles O35: clause by clause. -/
theorem forceAndTimedOperationsEffects : Obligations.ForceAndTimedOperationsEffects := by
  unfold Obligations.ForceAndTimedOperationsEffects
  intro s
  exact ⟨fun _ _ h none => forceSet_unknown h none,
    fun _ _ h _ type part mode same bool room => forceSet_sets h type part mode same bool room,
    fun _ _ h all => forceRelease_all h all,
    fun _ _ h some_ _ found part => forceRelease_one h some_ found part,
    fun _ _ h some_ missing => forceRelease_missing h some_ missing,
    fun _ _ h => forceList_returns h,
    fun _ _ h action room phase ahead => timed_phase action h room phase ahead,
    fun _ _ h action room net locked _ unit ahead => timed_network action h room net locked unit ahead,
    fun _ _ h action full => timed_full action h full,
    fun _ _ h action room phase late => timed_late action h room phase late,
    fun _ _ h planned => handoff_planned h planned,
    fun _ _ h free unfit => handoff_refused h free unfit,
    fun _ _ h free holder clean _ window => handoff_waits h free holder clean window⟩

end Sys2Proof.Proofs
end

section
/-! SUPPORT. Clock sources and switches: what a request, the end of a switch and network time's answer to it leave (R125 to R128,
R621). -/

namespace Sys2Proof.Proofs

set_option Elab.async false

open Machine Laws

/-! ### A change made for each number of a list that moves the state at one of them only -/

theorem forAll_still {α : Type} {g : State → α → State} {s : State} {l : List α} (h : ∀ a ∈ l, g s a = s) : forAll l g s = s := by
  unfold forAll
  induction l with
  | nil => rfl
  | cons a l ih =>
    rw [List.foldl_cons, h a List.mem_cons_self]
    exact ih fun b hb => h b (List.mem_cons_of_mem _ hb)

theorem forAll_single {α : Type} {g : State → α → State} {s : State} {d : α} {l : List α} (nodup : l.Nodup) (mem : d ∈ l)
    (before : ∀ a ∈ l, a ≠ d → g s a = s) (after : ∀ a ∈ l, a ≠ d → g (g s d) a = g s d) : forAll l g s = g s d := by
  induction l with
  | nil => cases mem
  | cons a l ih =>
    obtain ⟨fresh, nodup⟩ := List.nodup_cons.mp nodup
    have first : forAll (a :: l) g s = forAll l g (g s a) := rfl
    rw [first]
    by_cases h : a = d
    · subst h
      exact forAll_still fun b hb => after b (List.mem_cons_of_mem _ hb) fun e => fresh (e ▸ hb)
    · rw [before a List.mem_cons_self h]
      exact ih nodup ((List.mem_cons.mp mem).resolve_left (Ne.symm h)) (fun b hb => before b (List.mem_cons_of_mem _ hb))
        fun b hb => after b (List.mem_cons_of_mem _ hb)

/-! ### Requests to switch (R125, R126) -/

/-- The state in which the switch of domain `d` to a source code has begun. -/
def beginSwitch (s : State) (d code : Nat) : State :=
  let t := ror (rsetFld s oSrcSel (2 * d + 1) (2 * d) code) oSwStatus (oneBit d)
  { t with clk := { t.clk with target := setNth t.clk.target d code } }

section
variable {s : State} {d code : Nat} {v : Word}

theorem requestSwitch_same (h : code = rfld s oSrcSel (2 * d + 1) (2 * d)) : requestSwitch s d code = s := if_pos h

theorem requestSwitch_begins (new : code ≠ rfld s oSrcSel (2 * d + 1) (2 * d)) (free : switching s d = false)
    (good : (clkSource d code).elim (d == 3) (usable s) = true) : requestSwitch s d code = beginSwitch s d code := by
  unfold requestSwitch
  rw [if_neg new, free]
  cases source : clkSource d code with
  | none =>
    rw [source] at good
    exact if_neg (by simpa using good)
  | some n =>
    rw [source] at good
    exact if_neg (by simpa using good)

theorem requestSwitch_rejects (new : code ≠ rfld s oSrcSel (2 * d + 1) (2 * d)) (busy : switching s d = true) :
    requestSwitch s d code = ror s oSwStatus (oneBit 18) := by
  unfold requestSwitch
  rw [if_neg new, busy]
  rfl

/-- The code of one domain leaves those of the others. -/
theorem srcSel_beginSwitch {e : Nat} (he : e < 4) (other : e ≠ d) :
    rfld (beginSwitch s d code) oSrcSel (2 * e + 1) (2 * e) = rfld s oSrcSel (2 * e + 1) (2 * e) := by
  have sel : rget (beginSwitch s d code) oSrcSel = setFld (rget s oSrcSel) (2 * d + 1) (2 * d) code :=
    (rget_ror ..).trans ((if_neg (by decide)).trans ((rget_rsetFld ..).trans (if_pos rfl)))
  rw [rfld, sel]
  exact fld_setFld_other _ _ _ _ _ _ (by omega) (by omega) (by omega) (by omega)

/-- A write of CLK_SRC_SEL that changes one domain's code comes to that domain's request. -/
theorem srcWrite_one {d : Fin 4}
    (others : ∀ e : Fin 4, e ≠ d → fld v (2 * e.val + 1) (2 * e.val) = rfld s oSrcSel (2 * e.val + 1) (2 * e.val))
    (kept : ∀ e : Fin 4, e ≠ d → rfld (requestSwitch s d (fld v (2 * d.val + 1) (2 * d.val))) oSrcSel (2 * e.val + 1) (2 * e.val) =
      rfld s oSrcSel (2 * e.val + 1) (2 * e.val)) :
    srcWrite s v = requestSwitch s d (fld v (2 * d.val + 1) (2 * d.val)) := by
  unfold srcWrite
  refine forAll_single List.nodup_range (List.mem_range.mpr d.isLt) (fun e he other => ?_) fun e he other => ?_
  · exact requestSwitch_same (others ⟨e, List.mem_range.mp he⟩ fun h => other (congrArg Fin.val h))
  · have apart : (⟨e, List.mem_range.mp he⟩ : Fin 4) ≠ d := fun h => other (congrArg Fin.val h)
    exact requestSwitch_same ((others _ apart).trans (kept _ apart).symm)

end

/-! ### Network time after a switch of MAC (R617, R621) -/

theorem ptpState_regsOnly (s : State) (st : Nat) : RegsOnly [oPtpEvent] s (ptpState s st) := by
  have event (u : State) (bit : Nat) : RegsOnly [oPtpEvent] u (ptpEvent u bit) := regsOnly_raiseBits _ _ _ _ _ _ _ _
  unfold ptpState
  extract_lets +onlyGivenNames -merge -useContext was _ x
  split
  · exact RegsOnly.trans (event x 1) (RegsOnly.of_keeps (lostNettime_keeps _) (by decide))
  · split
    · exact event x 0
    · exact fun _ _ => rfl

theorem acquire_regsOnly (s : State) : RegsOnly [oPtpEvent] s (acquire s) := ptpState_regsOnly _ _

theorem ptpRestart_regsOnly (s : State) : RegsOnly [oPtpEvent] s (ptpRestart s) := by
  unfold ptpRestart
  split
  · exact fun _ _ => rfl
  · split
    · exact acquire_regsOnly s
    · exact ptpState_regsOnly s 3

theorem ptpForced_regsOnly (s : State) : RegsOnly [oPtpEvent] s (ptpForced s) := by
  unfold ptpForced
  split
  · exact RegsOnly.trans (regsOnly_raiseBits _ _ _ _ _ _ _ _) (acquire_regsOnly _)
  · exact fun _ _ => rfl

/-! ### An event of the recorder's own stays in the queue while register events are added -/

section
variable {s : State} {e : Ev} (own : e.code ≠ 1)
include own

theorem mem_mergeReg {off : Nat} {bits obj value : Word} {ts : Nat} {host rec_ : Bool} {extra : List Word} {l q : List Ev}
    (h : mergeReg off bits obj value ts host rec_ extra l = some q) (mem : e ∈ l) : e ∈ q := by
  induction l generalizing q with
  | nil => cases mem
  | cons a l ih =>
    unfold mergeReg at h
    split at h
    · rename_i merged
      cases h
      exact List.mem_cons_of_mem _ ((List.mem_cons.mp mem).resolve_left fun same => own (same ▸ merged.1))
    · obtain ⟨r, hr, rfl⟩ := Option.map_eq_some_iff.mp h
      rcases List.mem_cons.mp mem with rfl | mem
      · exact List.mem_cons_self
      · exact List.mem_cons_of_mem _ (ih hr mem)

theorem mem_evq_raiseBits (off : Nat) (bits obj : Word) (part : Nat) (host rec_ : Bool) (extra : List Word) (mem : e ∈ s.evq) :
    e ∈ (raiseBits s off bits obj part host rec_ extra).evq := by
  unfold raiseBits
  extract_lets new
  split
  · exact mem
  · unfold regEvent
    split
    · rename_i hq
      exact mem_mergeReg own hq mem
    · exact List.mem_append_left _ mem

theorem mem_evq_ptpState (st : Nat) (mem : e ∈ s.evq) : e ∈ (ptpState s st).evq := by
  unfold ptpState
  extract_lets +onlyGivenNames -merge -useContext was _ x
  have raised (bit : Nat) : e ∈ (ptpEvent x bit).evq := mem_evq_raiseBits own _ _ _ _ _ _ _ mem
  split
  · rw [(lostNettime_keeps _).evq_eq (by decide)]
    exact raised 1
  · split
    · exact raised 0
    · exact mem

theorem mem_evq_ptpForced (mem : e ∈ s.evq) : e ∈ (ptpForced s).evq := by
  unfold ptpForced
  split
  · exact mem_evq_ptpState own _ (mem_evq_raiseBits own _ _ _ _ _ _ _ mem)
  · exact mem

end

/-! ### Switches that end (R125, R127) -/

section
variable (s : State) (d old new : Nat)

/-- A switch that ends is reported in CLK_SW_STATUS, and of the clock it changes the source of its domain. -/
theorem endSwitch_spec : rget (endSwitch s d old new) oSwStatus =
      setFld (rget s oSwStatus &&& ~~~ (oneBit d)) 17 8 (old + 16 * new + 256 * d) ∧
    (endSwitch s d old new).clk = { s.clk with src := setNth s.clk.src d (nAt s.clk.target d) } := by
  unfold endSwitch
  extract_lets +onlyGivenNames -merge -useContext stood _ x y z
  have status : rget z oSwStatus = setFld (rget s oSwStatus &&& ~~~ (oneBit d)) 17 8 (old + 16 * new + 256 * d) := by
    rw [rget_rsetFld, if_pos rfl, rget_rclr, if_pos rfl]
    rfl
  split
  · exact ⟨(ptpRestart_regsOnly z _ (by decide)).trans status, (ptpRestart_keeps z).clk_eq (by decide)⟩
  · exact ⟨status, rfl⟩

/-- A forced switch sets FORCED too and writes its recorder event. -/
theorem forceSwitch_spec : rget (forceSwitch s d) oSwStatus =
      setFld (rget s oSwStatus &&& ~~~ (oneBit d)) 17 8 (15 + 16 * 15 + 256 * d) ||| oneBit (4 + d) ∧
    (forceSwitch s d).clk = { s.clk with src := setNth s.clk.src d (nAt s.clk.target d) } ∧
    ∃ e ∈ (forceSwitch s d).evq, e.code = 0x103 ∧ e.toRec = true ∧
      e.body = [w32 d, w32 (nAt s.clk.src d), w32 (nAt (forceSwitch s d).clk.src d)] := by
  obtain ⟨status, clk⟩ := endSwitch_spec s d 15 15
  unfold forceSwitch
  extract_lets +onlyGivenNames old_ x y
  have hy : rget y oSwStatus = setFld (rget s oSwStatus &&& ~~~ (oneBit d)) 17 8 (15 + 16 * 15 + 256 * d) ||| oneBit (4 + d) := by
    rw [(recEvent_keeps ..).rget (by decide), rget_ror, if_pos rfl, status]
  obtain ⟨e, mem, code, rec_, body⟩ : ∃ e ∈ y.evq, e.code = 0x103 ∧ e.toRec = true ∧
      e.body = [w32 d, w32 (nAt s.clk.src d), w32 (nAt y.clk.src d)] :=
    ⟨_, List.mem_append_right _ (List.mem_singleton_self _), rfl, rfl, rfl⟩
  have hc : y.clk = { s.clk with src := setNth s.clk.src d (nAt s.clk.target d) } := clk
  split
  · have stands := (ptpForced_keeps y).clk_eq (by decide)
    exact ⟨(ptpForced_regsOnly y _ (by decide)).trans hy, stands.trans hc, e, mem_evq_ptpForced (by simp [code]) mem, code, rec_,
      by rw [stands, body]⟩
  · exact ⟨hy, hc, e, mem, code, rec_, body⟩

end

end Sys2Proof.Proofs
end

section
/-! Clock sources that fail and come good (R128 to R131); the settlement of O3. -/

namespace Sys2Proof.Proofs

set_option Elab.async false

open Machine Laws

/-! ### A source that fails (R129, R138, R628, R661) -/

/-- The state in which the monitor has noted that a source failed, with the measurement it was the reference of ended. -/
def notedFail (s : State) (n : Nat) : State :=
  fmRefFail (raiseBoth { s with clk := { s.clk with good := s.clk.good &&& ~~~ (oneBit n) } } oClkMon (oneBit (16 + n))) n

/-- The state in which what depends on the source alone has stopped with it: the CAN ports with PLL_SYS, the count with RTCX. -/
def lostSource (s : State) (n : Nat) : State :=
  let t := notedFail s n
  let t := if n = 6 then forAll (upto 4) (fun s p => if canEn s p then failAllTx s p 6 else s) t else t
  if n = 2 then oscStop t else t

/-- The state in which the controller is held in reset until a source is good again. -/
def awaitSource (s : State) (n : Nat) : State :=
  { holdReset s 2 with clk := { (holdReset s 2).clk with alive := true, resetWait := some n } }

section
variable {s : State} {n : Nat}

theorem fmRefFail_clk (s : State) (n : Nat) : (fmRefFail s n).clk = { s.clk with fm := (fmRefFail s n).clk.fm } := by
  unfold fmRefFail
  split
  · split
    · rfl
    · rfl
  · rfl

theorem fmRefFail_regsOnly (s : State) (n : Nat) : RegsOnly [oFmLo, oFmHi, oFmCtrl] s (fmRefFail s n) := by
  unfold fmRefFail
  split
  · split
    · intro o ho
      simp only [List.mem_cons, List.not_mem_nil, or_false, not_or] at ho
      obtain ⟨low, high, ctrl⟩ := ho
      extract_lets +onlyGivenNames -merge -useContext _ x
      have ends : rget x o = rget s o := (rget_rset_other _ _ high).trans (rget_rset_other _ _ low)
      rw [rget_rclr, if_neg ctrl, rget_ror, if_neg ctrl, ends]
    · exact fun _ _ => rfl
  · exact fun _ _ => rfl

/-- Of the clocks a failed source changes what the monitor reports good, and the measurement. -/
theorem notedFail_clk (s : State) (n : Nat) :
    (notedFail s n).clk = { s.clk with good := s.clk.good &&& ~~~ (oneBit n), fm := (notedFail s n).clk.fm } := by
  rw [notedFail, fmRefFail_clk, raiseBoth_clk]

theorem lostSource_keeps (s : State) (n : Nat) : Keeps [.regs, .evq, .rtc, .rings, .msixPend, .can, .out] (notedFail s n)
    (lostSource s n) := by
  unfold lostSource
  extract_lets t u
  have off : Keeps [.regs, .evq, .rtc, .rings, .msixPend, .can, .out] t u :=
    Keeps.ite (Keeps.forAll (.refl _ _) fun _ _ h => Keeps.ite (h.step (failAllTx_keeps ..) (by decide)) h) (.refl _ _)
  exact Keeps.ite (off.step (oscStop_keeps ..) (by decide)) off

theorem lostSource_clk (s : State) (n : Nat) :
    (lostSource s n).clk = { s.clk with good := s.clk.good &&& ~~~ (oneBit n), fm := (lostSource s n).clk.fm } := by
  rw [(lostSource_keeps s n).clk_eq (by decide), ← notedFail_clk]

theorem lostSource_src (s : State) (n : Nat) : (lostSource s n).clk.src = s.clk.src := by rw [lostSource_clk]

theorem awaitSource_clk (s : State) (n : Nat) : (awaitSource s n).clk =
    { s.clk with alive := true, startCause := 2, linkPcie := false, resetWait := some n } := by
  have held : (holdReset s 2).clk = { s.clk with alive := false, startCause := 2, linkPcie := false } := by
    unfold holdReset
    dsimp only
    rw [(hwSafe_keeps _).clk_eq (by decide), (flushEvents_keeps _).clk_eq (by decide)]
  rw [awaitSource, held]

theorem awaitSource_base (s : State) (n : Nat) : (awaitSource s n).base = (holdReset s 2).base := by
  rw [awaitSource]

theorem awaitSource_ble (s : State) (n : Nat) : (awaitSource s n).ble = (holdReset s 2).ble := by
  rw [awaitSource]

theorem bank_awaitSource (s : State) (n b : Nat) : bank (awaitSource s n) b = bank (holdReset s 2) b := by
  simp only [bank, awaitSource]

/-- A source that is monitored and fails: the field goes safe where it feeds CORE, FABRIC or IO, else MAC may move. -/
theorem execSourceFail_good {n : Fin 9} (good : bitOf s.clk.good n.val = true) (monitored : monitored s n.val = true) :
    execSourceFail n s = done s (if feedsCore s n.val then
awaitSource (lostSource s n.val) n.val
      else macFail (lostSource s n.val) n.val) := by
  have feeds : feedsCore (lostSource s n.val) n.val = feedsCore s n.val := by rw [feedsCore, feedsCore, lostSource_src]
  unfold execSourceFail
  rw [if_neg (by simp [good, monitored]), ← feeds]
  extract_lets +onlyGivenNames -merge -useContext _ noticed raised stopped lost held
  have lost_eq : lost = lostSource s n.val := rfl
  clear_value lost
  subst lost_eq
  rfl

/-- A failed source raises its bit of CLK_MON, and the bits of the measurement it was the reference of. -/
theorem notedFail_regsOnly (s : State) (n : Nat) : RegsOnly [oClkMon, oFmLo, oFmHi, oFmCtrl] s (notedFail s n) :=
  let u : State := { s with clk := { s.clk with good := s.clk.good &&& ~~~ (oneBit n) } }
  have raised : RegsOnly [oClkMon] s (raiseBoth u oClkMon (oneBit (16 + n))) := regsOnly_raiseBits u _ _ _ _ _ _ _
  RegsOnly.trans (RegsOnly.mono raised (by decide)) (RegsOnly.mono (fmRefFail_regsOnly _ n) (by decide))

theorem notedFail_raised (h : n < 16) : Raised oClkMon (16 + n) s (notedFail s n) := by
  obtain ⟨bit, noted⟩ := raised_raiseBoth { s with clk := { s.clk with good := s.clk.good &&& ~~~ (oneBit n) } } oClkMon (16 + n)
    (by omega)
  refine ⟨(fmRefFail_regsOnly _ _ _ (by decide)).trans bit, fun clear => ?_⟩
  rw [Noted, notedFail, (fmRefFail_keeps ..).evq_eq (by decide)]
  exact noted clear

end

/-! ### A source that comes good (R129, R130) -/

/-- The state in which the monitor has noted that a source is good, and since when it has been where reset-wait waits for it. -/
def goodAgain (s : State) (n : Nat) : State :=
  { s with clk := { s.clk with
      good := s.clk.good ||| oneBit n, macStopped := s.clk.macStopped && n != 7,
      goodAt := if s.clk.resetWait = some n ∧ bitOf s.clk.good n = false then s.up else s.clk.goodAt } }

theorem execSourceGood_eq (n : Fin 9) (s : State) : execSourceGood n s =
    done s (if s.clk.macStopped && n.val == 7 then ptpRestart (goodAgain s n.val) else goodAgain s n.val) := by
  have since : (if s.clk.resetWait == some n.val && !bitOf s.clk.good n.val then s.up else s.clk.goodAt) =
      if s.clk.resetWait = some n.val ∧ bitOf s.clk.good n.val = false then s.up else s.clk.goodAt :=
    if_congr (by simp) rfl rfl
  rw [goodAgain, ← since]
  rfl

/-! ### The clauses of O3 -/

section
variable {s : State}

theorem sourceSwitch_begins (d : Fin 4) (v : Word) (reaches : Reaches s 0)
    (others : ∀ e : Fin 4, e ≠ d → fld v (2 * e.val + 1) (2 * e.val) = rfld s oSrcSel (2 * e.val + 1) (2 * e.val))
    (new : fld v (2 * d.val + 1) (2 * d.val) ≠ rfld s oSrcSel (2 * d.val + 1) (2 * d.val)) (free : switching s d.val = false)
    (good : (clkSource d.val (fld v (2 * d.val + 1) (2 * d.val))).elim (d == 3) (usable s) = true) :
    ∃ t, exec (.clockSourceSwitch v) s = .next t ∧ Frame [.regs, .clk] s t ∧ RegsOnly [oSrcSel, oSwStatus] s t ∧
      rget t oSrcSel = setFld (rget s oSrcSel) (2 * d.val + 1) (2 * d.val) (fld v (2 * d.val + 1) (2 * d.val)) ∧
      rget t oSwStatus = rget s oSwStatus ||| oneBit d.val ∧
      t.clk = { s.clk with target := setNth s.clk.target d.val (fld v (2 * d.val + 1) (2 * d.val)) } := by
  have mac : (d == 3) = (d.val == 3) := by clear * -; revert d; decide
  have begins := requestSwitch_begins new free (mac ▸ good)
  have written := srcWrite_one others fun e apart => by
    rw [begins]
    exact srcSel_beginSwitch e.isLt fun h => apart (Fin.ext h)
  have e : execClockSourceSwitch v s = done s (beginSwitch s d (fld v (2 * d.val + 1) (2 * d.val))) := by
    rw [execClockSourceSwitch, reached_of_reaches reaches, written, begins]
  refine completes (execClockSourceSwitch_keeps v s) e ⟨RegsOnly.close (fun o ho => ?_) s, ?_, ?_, ?_⟩
  · simp only [List.mem_cons, List.not_mem_nil, or_false, not_or] at ho
    exact (rget_rset_other _ _ ho.2).trans (rget_rset_other _ _ ho.1)
  · rw [close_rget]
    exact (rget_ror ..).trans ((if_neg (by decide)).trans (rget_rset_same ..))
  · rw [close_rget]
    exact (rget_rset_same ..).trans (congrArg (· ||| oneBit d.val) (rget_rset_other _ _ (by decide)))
  · rw [close_clk]
    rfl

theorem sourceSwitch_rejected (d : Fin 4) (v : Word) (reaches : Reaches s 0)
    (others : ∀ e : Fin 4, e ≠ d → fld v (2 * e.val + 1) (2 * e.val) = rfld s oSrcSel (2 * e.val + 1) (2 * e.val))
    (new : fld v (2 * d.val + 1) (2 * d.val) ≠ rfld s oSrcSel (2 * d.val + 1) (2 * d.val)) (busy : switching s d.val = true) :
    ∃ t, exec (.clockSourceSwitch v) s = .next t ∧ Frame [.regs] s t ∧ RegsOnly [oSwStatus] s t ∧
      rget t oSwStatus = rget s oSwStatus ||| oneBit 18 := by
  have rejects := requestSwitch_rejects new busy
  have written := srcWrite_one others fun e _ => by
    rw [rejects, rfld, rfld, rget_ror, if_neg (by decide)]
  have e : execClockSourceSwitch v s = done s (ror s oSwStatus (oneBit 18)) := by
    rw [execClockSourceSwitch, reached_of_reaches reaches, written, rejects]
  refine completes ⟨_, e, ror_keeps ..⟩ e ⟨RegsOnly.close (regsOnly_rset _ _ _) s, ?_⟩
  rw [close_rget, rget_ror, if_pos rfl]

theorem switch_completes (d : Fin 4) (busy : switching s d.val = true) :
    ∃ t, exec (.switchComplete d) s = .next t ∧ Frame [.regs, .phc, .clk, .rings, .evq, .msixPend, .ptp, .out] s t ∧
      rget t oSwStatus = setFld (rget s oSwStatus &&& ~~~ (oneBit d.val)) 17 8 (3 + 16 * 5 + 256 * d.val) ∧
      t.clk = { s.clk with src := setNth s.clk.src d.val (nAt s.clk.target d.val) } := by
  obtain ⟨status, clk⟩ := endSwitch_spec s d.val 3 5
  refine completes (execSwitchComplete_keeps d s) (x := endSwitch s d.val 3 5) (congrArg (done s) (if_pos busy)) ⟨?_, ?_⟩
  · rw [close_rget, status]
  · rw [close_clk, clk]

theorem switch_forced (d : Fin 4) (busy : switching s d.val = true) :
    ∃ t, exec (.forcedSwitch d) s = .next t ∧ Frame [.regs, .phc, .clk, .rings, .evq, .msixPend, .ptp, .out] s t ∧
      rget t oSwStatus =
        setFld (rget s oSwStatus &&& ~~~ (oneBit d.val)) 17 8 (15 + 16 * 15 + 256 * d.val) ||| oneBit (4 + d.val) ∧
      t.clk = { s.clk with src := setNth s.clk.src d.val (nAt s.clk.target d.val) } ∧
      ∃ e ∈ t.evq, e.code = 0x103 ∧ e.toRec = true ∧ e.body = [w32 d.val, w32 (nAt s.clk.src d.val), w32 (nAt t.clk.src d.val)] := by
  obtain ⟨status, clk, e, mem, code, rec_, body⟩ := forceSwitch_spec s d.val
  refine completes (execForcedSwitch_keeps d s) (x := forceSwitch s d.val) (congrArg (done s) (if_pos busy)) ⟨?_, ?_, e, ?_⟩
  · rw [close_rget, status]
  · rw [close_clk, clk]
  · exact ⟨mem_evq_close mem s, code, rec_, by rw [close_clk, body]⟩

theorem coreSource_fails (n : Fin 9) (good : bitOf s.clk.good n.val = true) (mon : monitored s n.val = true)
    (feeds : feedsCore s n.val = true) :
    ∃ t, exec (.sourceFail n) s = .next t ∧ Frame execSourceFail_may s t ∧ t.clk.good = s.clk.good &&& ~~~ (oneBit n.val) ∧
      t.base.holdOut = false ∧ t.clk.resetWait = some n.val ∧ t.clk.alive = true ∧ t.clk.startCause = 2 ∧
      t.ble.running = false ∧ ∀ b, b < 12 → (bank t b).safe = true ∧ bitOf (bank t b).causes 4 = true := by
  obtain ⟨line, -, -, stopped, safe⟩ := holdReset_spec (lostSource s n.val) 2
  have clk := awaitSource_clk (lostSource s n.val) n.val
  refine completes (execSourceFail_keeps n s) ((execSourceFail_good good mon).trans (by rw [if_pos feeds])) ⟨?_, ?_, ?_, ?_, ?_, ?_,
    fun b hb => ?_⟩
  · rw [close_clk, clk, lostSource_clk]
  · rw [close_holdOut]
    rw [awaitSource_base, line, Bool.false_and]
  · rw [close_clk, clk]
  · rw [close_clk, clk]
  · rw [close_clk, clk]
  · rw [close_ble, awaitSource_ble, stopped]
  · rw [close_bank, bank_awaitSource, safe b hb]
    exact ⟨rfl, bitOf_or_oneBit _ 4 (by decide)⟩

theorem otherSource_fails (n : Fin 9) (good : bitOf s.clk.good n.val = true) (mon : monitored s n.val = true)
    (feeds : feedsCore s n.val = false) (rtcx : n.val ≠ 2) (pll : n.val ≠ 6)
    (mac : clkSource 3 (nAt s.clk.src 3) ≠ some n.val) :
    ∃ t, exec (.sourceFail n) s = .next t ∧ Frame execSourceFail_may s t ∧ t.clk.good = s.clk.good &&& ~~~ (oneBit n.val) ∧
      t.clk.src = s.clk.src ∧ t.clk.resetWait = s.clk.resetWait ∧ RegsOnly [oClkMon, oFmLo, oFmHi, oFmCtrl] s t ∧
      Raised oClkMon (16 + n.val) s t := by
  have alone : lostSource s n.val = notedFail s n.val := by
    rw [lostSource, if_neg rtcx, if_neg pll]
  have stands : macFail (lostSource s n.val) n.val = notedFail s n.val := by
    rw [macFail, lostSource_src, if_pos mac, alone]
  have e : execSourceFail n s = done s (notedFail s n.val) := by
    rw [execSourceFail_good good mon, feeds, ← stands]
    rfl
  refine completes (execSourceFail_keeps n s) e ⟨?_, ?_, ?_, RegsOnly.close (notedFail_regsOnly s _) s,
    Raised.close (notedFail_raised (by omega)) s⟩
  · rw [close_clk, notedFail_clk]
  · rw [close_clk, notedFail_clk]
  · rw [close_clk, notedFail_clk]

theorem source_comesGood (n : Fin 9) :
    ∃ t, exec (.sourceGood n) s = .next t ∧ Frame [.regs, .phc, .clk, .rings, .evq, .msixPend, .ptp, .out] s t ∧
      t.clk = { s.clk with good := s.clk.good ||| oneBit n.val, macStopped := t.clk.macStopped, goodAt := t.clk.goodAt } ∧
      t.clk.macStopped = (s.clk.macStopped && n.val != 7) ∧
      t.clk.goodAt = (if s.clk.resetWait = some n.val ∧ bitOf s.clk.good n.val = false then s.up else s.clk.goodAt) := by
  have clk : (if s.clk.macStopped && n.val == 7 then ptpRestart (goodAgain s n.val) else goodAgain s n.val).clk =
      (goodAgain s n.val).clk := by
    split
    · exact (ptpRestart_keeps _).clk_eq (by decide)
    · rfl
  refine completes (execSourceGood_keeps n s) (execSourceGood_eq n s) ?_
  rw [close_clk, clk]
  exact ⟨rfl, rfl, rfl⟩

theorem resetWait_ends (n : Nat) (wait : s.clk.resetWait = some n) (good : bitOf s.clk.good n = true)
    (long : s.clk.goodAt + 10000000 ≤ s.up) :
    ∃ t, exec .resetWaitExit s = .next t ∧ Frame [.clk] s t ∧ t.clk = { s.clk with resetWait := none, alive := false } := by
  have e : execResetWaitExit s = done s { s with clk := { s.clk with resetWait := none, alive := false } } := by
    unfold execResetWaitExit
    rw [wait]
    exact congrArg (done s) (if_pos ⟨good, long⟩)
  exact completes (execResetWaitExit_keeps s) e (close_clk ..)

end

/-- Settles O3: clause by clause. -/
theorem clockSourceCommandsEffects : Obligations.ClockSourceCommandsEffects := by
  unfold Obligations.ClockSourceCommandsEffects
  intro s
  exact ⟨sourceSwitch_begins, sourceSwitch_rejected, switch_completes, switch_forced, coreSource_fails, otherSource_fails,
    source_comesGood, resetWait_ends⟩

end Sys2Proof.Proofs
end

section
/-! The release of PE_PERST while the module waits in reset for a source (R130, R151); the refutation of O5. -/

namespace Sys2Proof.Proofs

set_option Elab.async false

open Machine Laws

/-- The release of PE_PERST brings the link up only where the module is not held in reset. -/
theorem pePerstRelease_link (s : State) :
    ∃ t, exec .pePerstRelease s = .next t ∧ t.clk = { s.clk with perst := true, linkPcie := s.clk.alive && notHeld s } :=
  ⟨_, rfl, close_clk ..⟩

/-- A module out of reset whose XTAL fails waits in reset for it, with START_STATUS not yet at step 1's halt. -/
theorem sourceFail_holds : ∃ s, exec (.sourceFail 1) State.reset = .next s ∧ s.clk.alive = true ∧ notHeld s = false :=
  ⟨_, rfl, by decide +kernel⟩

/-- Refutes O5: its last clause brings the link up with every live module, and the release of PE_PERST leaves it down while the
module is live and held in reset, as it is after XTAL has failed out of reset. -/
theorem not_powerAndStartCommandsEffects : ¬ Obligations.PowerAndStartCommandsEffects := by
  unfold Obligations.PowerAndStartCommandsEffects
  intro h
  obtain ⟨s, -, alive, held⟩ := sourceFail_holds
  obtain ⟨-, -, -, -, -, -, -, -, -, t, e, -, claimed⟩ := h s
  obtain ⟨u, e', clk⟩ := pePerstRelease_link s
  obtain rfl : t = u := Host.Outcome.next.inj (e.symm.trans e')
  have link : s.clk.alive = (s.clk.alive && notHeld s) := congrArg Clk.linkPcie (claimed.symm.trans clk)
  simp [alive, held] at link

end Sys2Proof.Proofs
end

section
/-! Clock gates and the frequency meter (R132 to R138); the settlement of O4. -/

namespace Sys2Proof.Proofs

set_option Elab.async false

open Machine Laws

/-! ### A gate that closes (R133 to R135) -/

section
variable (s : State) (b : Nat)

theorem closeGate_gate : rget (closeGate s b) oGateOpen = rget s oGateOpen &&& ~~~ (oneBit b) := by
  unfold closeGate
  extract_lets +onlyGivenNames -merge -useContext _ x
  have hx : rget x oGateOpen = rget s oGateOpen &&& ~~~ (oneBit b) := (rget_rclr ..).trans (if_pos rfl)
  split
  · exact ((failAllTx_keeps ..).rget (by decide) _).trans hx
  · exact hx

theorem closeGate_clk : (closeGate s b).clk = { s.clk with closing := s.clk.closing &&& ~~~ (oneBit b) } := by
  unfold closeGate
  extract_lets +onlyGivenNames -merge -useContext _ x
  split
  · exact (failAllTx_keeps ..).clk_eq (by decide)
  · rfl

end

section
variable {s : State} {bit : Fin 20}

/-- A write of 0 to an enable comes to its gate, which closes at once or waits until its block is idle. -/
theorem execGateClose_open (idle : Bool) (reaches : Reaches s 0) (enable : gateRw bit.val = true)
    (allowed : gateRefused s (oneBit bit.val) = false) (awake : s.clk.power = 0)
    (gate : bitOf (rget s oGateOpen) bit.val = true) :
    execGateClose bit idle s = done s (if idle then closeGate (rclr s oGateRun (oneBit bit.val)) bit.val else
      { rclr s oGateRun (oneBit bit.val) with clk := { s.clk with closing := s.clk.closing ||| oneBit bit.val } }) := by
  have stands : rget (rclr s oGateRun (oneBit bit.val)) oGateOpen = rget s oGateOpen := (rget_rclr ..).trans (if_neg (by decide))
  have closes : ¬ ((rclr s oGateRun (oneBit bit.val)).clk.power ≠ 0 ∨
      (!bitOf (rget (rclr s oGateRun (oneBit bit.val)) oGateOpen) bit.val) = true) := by
    rw [stands, gate]
    rintro (h | h)
    · exact h awake
    · cases h
  rw [execGateClose, reached_of_reaches reaches]
  dsimp only
  rw [if_neg (by simp [enable]), if_neg (by simp [allowed]), if_neg closes]
  rfl

theorem gateClose_idle (reaches : Reaches s 0) (enable : gateRw bit.val = true)
    (allowed : gateRefused s (oneBit bit.val) = false) (awake : s.clk.power = 0)
    (gate : bitOf (rget s oGateOpen) bit.val = true) :
    ∃ t, exec (.gateClose bit true) s = .next t ∧ Frame [.regs, .clk, .rings, .msixPend, .can, .out] s t ∧
      rget t oGateRun = rget s oGateRun &&& ~~~ (oneBit bit.val) ∧ rget t oGateOpen = rget s oGateOpen &&& ~~~ (oneBit bit.val) ∧
      t.clk = { s.clk with closing := s.clk.closing &&& ~~~ (oneBit bit.val) } := by
  refine completes (execGateClose_keeps bit true s) (execGateClose_open true reaches enable allowed awake gate) ⟨?_, ?_, ?_⟩
  · rw [close_rget, if_pos rfl, closeGate_rget _ _ (by decide), rget_rclr, if_pos rfl]
  · rw [close_rget, if_pos rfl, closeGate_gate, rget_rclr, if_neg (by decide)]
  · rw [close_clk, if_pos rfl, closeGate_clk]
    rfl

theorem gateClose_busy (reaches : Reaches s 0) (enable : gateRw bit.val = true)
    (allowed : gateRefused s (oneBit bit.val) = false) (awake : s.clk.power = 0)
    (gate : bitOf (rget s oGateOpen) bit.val = true) :
    ∃ t, exec (.gateClose bit false) s = .next t ∧ Frame [.regs, .clk] s t ∧ RegsOnly [oGateRun] s t ∧
      rget t oGateRun = rget s oGateRun &&& ~~~ (oneBit bit.val) ∧
      t.clk = { s.clk with closing := s.clk.closing ||| oneBit bit.val } := by
  have e := execGateClose_open false reaches enable allowed awake gate
  rw [if_neg (by decide)] at e
  let u : State := { rclr s oGateRun (oneBit bit.val) with clk := { s.clk with closing := s.clk.closing ||| oneBit bit.val } }
  have keeps : Keeps [.regs, .clk] s u := Keeps.clk (Keeps.mono (rclr_keeps ..) (by decide)) (by decide)
  have only : RegsOnly [oGateRun] s u := regsOnly_rset s _ _
  refine completes ⟨u, e, keeps⟩ e ⟨RegsOnly.close only s, ?_, close_clk ..⟩
  rw [close_rget]
  exact (rget_rclr ..).trans (if_pos rfl)

theorem gateClose_refused (idle : Bool) (reaches : Reaches s 0) (enable : gateRw bit.val = true)
    (runs : bitOf (rget s oGateRun) bit.val = true) (refused : gateRefused s (oneBit bit.val) = true) :
    ∃ t, exec (.gateClose bit idle) s = .next t ∧ Frame [.regs] s t ∧ RegsOnly [oGateAbort] s t ∧
      rget t oGateAbort = rget s oGateAbort ||| oneBit 31 := by
  have e : execGateClose bit idle s = done s (ror s oGateAbort (oneBit 31)) := by
    rw [execGateClose, reached_of_reaches reaches]
    dsimp only
    rw [if_neg (by simp [enable]), if_pos (by simp [runs, refused])]
    rfl
  refine completes ⟨_, e, ror_keeps ..⟩ e ⟨RegsOnly.close (regsOnly_rset _ _ _) s, ?_⟩
  rw [close_rget, rget_ror, if_pos rfl]

theorem gateClose_overdue (closing : bitOf s.clk.closing bit.val = true) :
    ∃ t, exec (.gateCloseTimeout bit) s = .next t ∧ Frame [.regs, .clk, .rings, .msixPend, .can, .out] s t ∧
      rget t oGateOpen = rget s oGateOpen &&& ~~~ (oneBit bit.val) ∧ rget t oGateAbort = rget s oGateAbort ||| oneBit bit.val ∧
      t.clk = { s.clk with closing := s.clk.closing &&& ~~~ (oneBit bit.val) } := by
  refine completes (execGateCloseTimeout_keeps bit s) (congrArg (done s) (if_pos closing)) ⟨?_, ?_, ?_⟩
  · rw [close_rget, rget_ror, if_neg (by decide), closeGate_gate]
  · rw [close_rget, rget_ror, if_pos rfl, closeGate_rget _ _ (by decide)]
  · rw [close_clk]
    exact closeGate_clk s bit.val

/-! ### A gate that opens (R132) -/

/-- A write that adds to a register's own value bits it can write leaves that value with the bits in it. -/
theorem writeWord_addition {i : RegInfo} {old x : Word} (clears : i.w1c = 0#32) (writable : x &&& (i.rw ||| i.rws) = x) :
    writeWord i old (old ||| x) = old ||| x := by
  have none : ~~~ ((old ||| x) &&& 0#32) = BitVec.allOnes 32 := by rw [BitVec.and_zero]; rfl
  unfold writeWord
  rw [clears, none, BitVec.and_allOnes, BitVec.or_comm old x, BitVec.and_or_distrib_right, writable]
  generalize i.rw ||| i.rws = m
  ext j hj
  cases hm : m[j] <;> cases hx : x[j] <;> simp [hm, hx]

theorem oneBit_writable {m : Word} {b : Nat} (h : bitOf m b = true) : oneBit b &&& m = oneBit b := by
  ext i hi
  rw [BitVec.getElem_and, ← BitVec.getLsbD_eq_getElem hi, ← BitVec.getLsbD_eq_getElem hi]
  by_cases same : i = b
  · subst same
    rw [show m.getLsbD i = true from h, Bool.and_true]
  · rw [show (oneBit b).getLsbD i = false from bitOf_oneBit_other same, Bool.false_and]

theorem gateRun_addition {old : Word} {b : Nat} (enable : gateRw b = true) :
    writeWord (regInfo oGateRun) old (old ||| oneBit b) = old ||| oneBit b :=
  writeWord_addition (by decide) (oneBit_writable ((bitOf_or ..).trans (by rw [show bitOf _ b = true from enable, Bool.true_or])))

/-- Between a word with a clear bit and the word with the bit set that bit alone differs. -/
theorem xor_or_oneBit {x : Word} {b : Nat} (h : bitOf x b = false) : x ^^^ (x ||| oneBit b) = oneBit b := by
  rw [← new_oneBit h]
  ext i hi
  cases hx : x[i] <;> simp [hx]

theorem gateRunWrite_opens (awake : s.clk.power = 0) (enable : gateRw bit.val = true)
    (closed : bitOf (rget s oGateRun) bit.val = false) (allowed : gateRefused s (oneBit bit.val) = false) :
    gateRunWrite s (rget s oGateRun ||| oneBit bit.val) =
      openGate (rset s oGateRun (rget s oGateRun ||| oneBit bit.val)) bit.val := by
  have opens : bitOf (rget s oGateRun ||| oneBit bit.val) bit.val = true := bitOf_or_oneBit _ _ (by omega)
  have others (i : Nat) (h : i ≠ bit.val) : bitOf (rget s oGateRun) i = bitOf (rget s oGateRun ||| oneBit bit.val) i := by
    rw [bitOf_or, bitOf_oneBit_other h, Bool.or_false]
  unfold gateRunWrite
  dsimp only
  rw [gateRun_addition enable, xor_or_oneBit closed, if_neg (by simp [allowed]),
    if_neg (c := (rset s oGateRun (rget s oGateRun ||| oneBit bit.val)).clk.power ≠ 0) (not_not.mpr awake)]
  refine (forAll_single (d := bit.val) List.nodup_range (List.mem_range.mpr bit.isLt) (fun i _ h => ?_) fun i _ h => ?_).trans ?_
  · simp [← others i h]
  · simp [← others i h]
  · simp [closed, opens]

theorem gate_opens (reaches : Reaches s 0) (enable : gateRw bit.val = true) (closed : bitOf (rget s oGateRun) bit.val = false)
    (allowed : gateRefused s (oneBit bit.val) = false) (awake : s.clk.power = 0) :
    ∃ t, exec (.gateOpen bit) s = .next t ∧ Frame [.regs, .clk, .rings, .msixPend, .can, .out] s t ∧
      RegsOnly [oGateRun, oGateOpen] s t ∧ rget t oGateRun = rget s oGateRun ||| oneBit bit.val ∧
      rget t oGateOpen = rget s oGateOpen ||| oneBit bit.val := by
  have e : execGateOpen bit s = done s (openGate (rset s oGateRun (rget s oGateRun ||| oneBit bit.val)) bit.val) := by
    rw [execGateOpen, reached_of_reaches reaches, if_pos enable, gateRunWrite_opens awake enable closed allowed]
  refine completes (execGateOpen_keeps bit s) e ⟨RegsOnly.close (fun o ho => ?_) s, ?_, ?_⟩
  · simp only [List.mem_cons, List.not_mem_nil, or_false, not_or] at ho
    exact (rget_rset_other _ _ ho.2).trans (rget_rset_other _ _ ho.1)
  · rw [close_rget]
    exact (rget_rset_other _ _ (by decide)).trans (rget_rset_same ..)
  · rw [close_rget]
    exact (rget_rset_same ..).trans (congrArg (· ||| oneBit bit.val) (rget_rset_other _ _ (by decide)))

theorem sleep_wakes (asleep : s.clk.power = 1) :
    ∃ t, exec (.sleepWake bit) s = .next t ∧ Frame [.clk] s t ∧
      t.clk = { s.clk with idle := s.clk.idle &&& ~~~ (oneBit bit.val) } :=
  completes (execSleepWake_keeps bit s) (congrArg (done s) (if_pos asleep)) (close_clk ..)

end

/-! ### The frequency meter (R137) -/

section
variable {s : State}

theorem meter_starts (v : Word) (reaches : Reaches s 18) (free : s.clk.fm = none) (start : bitOf v 16 = true)
    (least : 8 ≤ fld v 12 8) (most : fld v 12 8 ≤ 24) (apart : fld v 3 0 ≠ fld v 7 4) (measured : fld v 3 0 ≤ 8)
    (reference : fld v 7 4 ≤ 8) :
    ∃ t, exec (.fmStart v) s = .next t ∧ Frame [.regs, .clk] s t ∧ RegsOnly [oFmCtrl] s t ∧
      t.clk = { s.clk with fm := some (fld v 3 0, fld v 7 4, fld v 12 8) } ∧
      bitOf (rget t oFmCtrl) 31 = true ∧ bitOf (rget t oFmCtrl) 30 = false := by
  let w := rwrite s oFmCtrl v
  let u : State := { w with clk := { s.clk with fm := some (fld v 3 0, fld v 7 4, fld v 12 8) } }
  have e : execFmStart v s = done s (ror (rclr u oFmCtrl (oneBit 30)) oFmCtrl (oneBit 31)) := by
    rw [execFmStart, reached_of_reaches reaches, fmWrite]
    dsimp only
    rw [if_neg (by simp [start, show (rwrite s oFmCtrl v).clk.fm = none from free]), if_neg (by omega)]
    rfl
  have value : rget (ror (rclr u oFmCtrl (oneBit 30)) oFmCtrl (oneBit 31)) oFmCtrl =
      rget u oFmCtrl &&& ~~~ (oneBit 30) ||| oneBit 31 := by
    rw [rget_ror, if_pos rfl, rget_rclr, if_pos rfl]
  refine completes (execFmStart_keeps v s) e ⟨RegsOnly.close (fun o ho => ?_) s, close_clk .., ?_, ?_⟩
  · have other : o ≠ oFmCtrl := fun h => ho (List.mem_singleton.mpr h)
    exact (rget_rset_other _ _ other).trans ((rget_rset_other _ _ other).trans (rget_rset_other _ _ other))
  · rw [close_rget, value]
    exact bitOf_or_oneBit _ 31 (by decide)
  · rw [close_rget, value, bitOf_or, bitOf_oneBit_other (by decide)]
    simp [bitOf, oneBit, w32]

theorem meter_refuses (v : Word) (reaches : Reaches s 18) (free : s.clk.fm = none) (start : bitOf v 16 = true)
    (same : fld v 3 0 = fld v 7 4) :
    ∃ t, exec (.fmStart v) s = .next t ∧ Frame [.regs] s t ∧ RegsOnly [oFmCtrl] s t ∧ bitOf (rget t oFmCtrl) 30 = true := by
  have e : execFmStart v s = done s (ror (rwrite s oFmCtrl v) oFmCtrl (oneBit 30)) := by
    rw [execFmStart, reached_of_reaches reaches, fmWrite]
    dsimp only
    rw [if_neg (by simp [start, show (rwrite s oFmCtrl v).clk.fm = none from free]), if_pos (.inr (.inr (.inl same)))]
    rfl
  refine completes ⟨_, e, (rwrite_keeps s oFmCtrl v).step (ror_keeps ..) (by decide)⟩ e
    ⟨RegsOnly.close (RegsOnly.trans (regsOnly_rset s _ _) (regsOnly_rset _ _ _)) s, ?_⟩
  rw [close_rget, rget_ror, if_pos rfl]
  exact bitOf_or_oneBit _ 30 (by decide)

theorem meter_ends (count : BitVec 64) (runs : s.clk.fm.isSome = true) (gate : bitOf (rget s oGateOpen) 18 = true) :
    ∃ t, exec (.fmDone count) s = .next t ∧ Frame [.regs, .clk] s t ∧ RegsOnly [oFmLo, oFmHi, oFmCtrl] s t ∧
      t.clk = { s.clk with fm := none } ∧ rget t oFmLo = w32 count.toNat ∧ rget t oFmHi = w32 (count.toNat / 2 ^ 32) ∧
      rget t oFmCtrl = rget s oFmCtrl &&& ~~~ (oneBit 31) := by
  let low := rset { s with clk := { s.clk with fm := none } } oFmLo (w32 count.toNat)
  let high := rset low oFmHi (w32 (count.toNat / 2 ^ 32))
  have e : execFmDone count s = done s (rclr high oFmCtrl (oneBit 31)) := by
    rw [execFmDone, if_pos (by simp [runs, gate]), Nat.shiftRight_eq_div_pow]
    rfl
  refine completes (execFmDone_keeps count s) e ⟨RegsOnly.close (fun o ho => ?_) s, close_clk .., ?_, ?_, ?_⟩
  · simp only [List.mem_cons, List.not_mem_nil, or_false, not_or] at ho
    obtain ⟨notLow, notHigh, notCtrl⟩ := ho
    exact (rget_rset_other _ _ notCtrl).trans ((rget_rset_other _ _ notHigh).trans (rget_rset_other _ _ notLow))
  · rw [close_rget, rget_rclr, if_neg (by decide)]
    exact (rget_rset_other _ _ (by decide)).trans (rget_rset_same ..)
  · rw [close_rget, rget_rclr, if_neg (by decide)]
    exact rget_rset_same ..
  · rw [close_rget, rget_rclr, if_pos rfl]
    exact congrArg (· &&& ~~~ (oneBit 31)) ((rget_rset_other _ _ (by decide)).trans (rget_rset_other _ _ (by decide)))

end

/-- Settles O4: clause by clause. -/
theorem gateAndMeterCommandsEffects : Obligations.GateAndMeterCommandsEffects := by
  unfold Obligations.GateAndMeterCommandsEffects
  intro s
  exact ⟨fun _ => gateClose_idle, fun _ => gateClose_busy, fun _ => gateClose_refused, fun _ => gateClose_overdue,
    fun _ => gate_opens, fun _ => sleep_wakes, meter_starts, meter_refuses, meter_ends⟩

end Sys2Proof.Proofs
end

section
/-! SUPPORT. CFG_WRITE and CFG_READ at their commit turn: the pairs and the words that their descriptors name (R136, R531, R532). -/

namespace Sys2Proof.Proofs

set_option Elab.async false

open Machine Laws

/-! ### The form of the descriptors (R522, R531) -/

section
variable {ws : List Word} {g : OpForm}

/-- A descriptor with which nothing is wrong names a target of its operation, and no word of it is out of range. -/
theorem inRange_of_opStatic (h : opStatic ws = none) (form : opForm ws = some g) :
    g.target = true ∧ ∀ k < 8, g.bad.getD k false = false := by
  unfold opStatic at h
  rw [form] at h
  dsimp only at h
  split at h
  · cases h
  · split at h
    · cases h
    · rename_i target
      split at h
      · cases h
      · rename_i params
        refine ⟨by simpa using target, fun k hk => ?_⟩
        have := List.find?_eq_none.mp params k (List.mem_range.mpr hk)
        simp only [Bool.or_eq_true, not_or, Bool.not_eq_true] at this
        exact this.1

/-- An operation with an input payload has the PL_IN flag. -/
theorem flag_of_badPayload (h : badPayload g ws = none) (input : g.pin = true) : bitOf (wAt ws 0) 8 = true := by
  unfold badPayload at h
  extract_lets len w0 at h
  rw [if_neg (by simp [input])] at h
  split at h
  · cases h
  · rename_i good
    cases flag : bitOf w0 8 with
    | true => rfl
    | false => exact absurd (.inl (by simp [flag, input])) good

end

section
variable {s : State} {n : Fin 64} {d : Desc}

theorem cfgWrite_form (d : Desc) : opForm (descOf 0x20 d) =
    some { target := cfgTargetOk d.target.toNat, pin := true, lo := 12, hi := 65532, step := 8 } := by
  have code : fld (wAt (descOf 0x20 d) 0) 7 0 = 0x20 := (descOf_head (by decide) d).1
  unfold opForm
  rw [code]
  rfl

theorem cfgRead_form (d : Desc) : opForm (descOf 0x21 d) =
    some { target := cfgTargetOk d.target.toNat, used := 2, pout := true, lo := 4 * (wAt d.par 1).toNat + 4,
           bad := [(wAt d.par 0).toNat % 4 != 0 || decide (cfgSize d.target.toNat ≤ (wAt d.par 0).toNat),
             (wAt d.par 1).toNat == 0 || decide (16384 < (wAt d.par 1).toNat) ||
               decide (cfgSize d.target.toNat < (wAt d.par 0).toNat + 4 * (wAt d.par 1).toNat)] } := by
  have code : fld (wAt (descOf 0x21 d) 0) 7 0 = 0x21 := (descOf_head (by decide) d).1
  have first : wAt (descOf 0x21 d) (4 + 0) = wAt d.par 0 := descOf_par _ d (by decide)
  have second : wAt (descOf 0x21 d) (4 + 1) = wAt d.par 1 := descOf_par _ d (by decide)
  unfold opForm
  rw [code, ← first, ← second]
  rfl

/-- The blocks that the operations on configuration reach (R531). -/
theorem cfgTarget_cases {t : Nat} (h : cfgTargetOk t = true) :
    (t % 16 = 0 ∨ t % 16 = 1 ∨ t % 16 = 2 ∨ t % 16 = 3 ∨ t % 16 = 4 ∨ t % 16 = 7 ∨ t % 16 = 9 ∨ t % 16 = 10 ∨ t % 16 = 11) ∧
      (t % 16 = 3 → t / 16 ≤ 11) := by
  simp only [cfgTargetOk, List.contains_cons, List.contains_nil, Bool.and_eq_true, Bool.or_eq_true, beq_iff_eq,
    decide_eq_true_eq, Bool.or_false] at h
  obtain ⟨block, page⟩ := h
  exact ⟨by tauto, fun three => by rwa [if_pos three] at page⟩

/-- Every offset that a target reaches lies in the target's block. -/
theorem cfgBase_block {t k : Nat} (h : cfgTargetOk t = true) (hk : k < cfgSize t) : (cfgBase t + k) / 0x10000 = t % 16 := by
  obtain ⟨-, page⟩ := cfgTarget_cases h
  unfold cfgSize at hk
  unfold cfgBase oBank
  split
  · rename_i three
    rw [if_pos three] at hk
    have := page three
    omega
  · rename_i other
    rw [if_neg other] at hk
    omega

/-! ### The operations at their commit turn -/

theorem cfgWrite_target (h : Ready s n.val 0x20 d) : cfgTargetOk d.target.toNat = true := by
  obtain ⟨-, -, -, -, -, form, -⟩ := h
  exact (inRange_of_opStatic form (cfgWrite_form d)).1

theorem cfgRead_target (h : Ready s n.val 0x21 d) : cfgTargetOk d.target.toNat = true := by
  obtain ⟨-, -, -, -, -, form, -⟩ := h
  exact (inRange_of_opStatic form (cfgRead_form d)).1

theorem cfgRead_fits (h : Ready s n.val 0x21 d) :
    (wAt d.par 0).toNat + 4 * (wAt d.par 1).toNat ≤ cfgSize d.target.toNat := by
  obtain ⟨-, -, -, -, -, form, -⟩ := h
  have := (inRange_of_opStatic form (cfgRead_form d)).2 1 (by decide)
  simp only [List.getD_cons_succ, List.getD_cons_zero, Bool.or_eq_false_iff, decide_eq_false_iff_not, Nat.not_lt] at this
  exact this.2

/-- What a CFG_WRITE carries is its payload. -/
theorem cfgWrite_input (h : Ready s n.val 0x20 d) : (flightOf s n 0x20 d).input = d.payload := by
  obtain ⟨-, -, -, -, -, form, -⟩ := h
  have flag := flag_of_badPayload (badPayload_of_opStatic form (cfgWrite_form d)) rfl
  rw [(descOf_head (by decide) d).2] at flag
  exact if_pos flag

theorem cfgRead_turn (h : Ready s n.val 0x21 d) : ∃ R, AtTurn s n (flightOf s n 0x21 d) { s with rings := R } ∧
    exec (.cfgRead n d) s = done s (opCfgRead { s with rings := R } n (flightOf s n 0x21 d)) :=
  command_turn h (by decide) (by decide) rfl fun t f code => by rw [opRun, runCore.eq_def, code]; rfl

theorem cfgWrite_turn (h : Ready s n.val 0x20 d) : ∃ R, AtTurn s n (flightOf s n 0x20 d) { s with rings := R } ∧
    exec (.cfgWrite n d) s = done s (opCfgWrite { s with rings := R } n (flightOf s n 0x20 d)) :=
  command_turn h (by decide) (by decide) rfl fun t f code => by rw [opRun, runCore.eq_def, code]; rfl

/-! ### The pairs of a CFG_WRITE (R136, R532) -/

section
variable {m : Nat} {f : Flight}

/-- The first pair that names no register that can be written fails the whole descriptor. -/
theorem opCfgWrite_bad {e : (Word × Word) × Nat} (first : ((pairsOf f.input).zipIdx).find?
    (fun e => !cfgPairOk (tgtOf f).toNat e.1.1) = some e) : opCfgWrite s m f = fail s m f 4 (Config.badDetail e.2) := by
  unfold opCfgWrite
  dsimp only
  rw [first]

theorem cfgPairs_open (gates : ∀ p ∈ pairsOf f.input, cfgUp s (cfgBase (tgtOf f).toNat + p.1.toNat) = true) :
    ¬ (pairsOf f.input).any (fun p => !cfgUp s (cfgBase (tgtOf f).toNat + p.1.toNat)) = true := by
  rw [List.any_eq_true]
  rintro ⟨p, mem, closed⟩
  simp [gates p mem] at closed

variable (good : ∀ p ∈ pairsOf f.input, cfgPairOk (tgtOf f).toNat p.1 = true)
include good

theorem cfgPairs_good : ((pairsOf f.input).zipIdx).find? (fun e => !cfgPairOk (tgtOf f).toNat e.1.1) = none :=
  List.find?_eq_none.mpr fun e he => by
    have mem : e.1 ∈ pairsOf f.input := List.fst_mem_of_mem_zipIdx he
    simp [good e.1 mem]

/-- A pair behind a closed gate ends in a bus error. -/
theorem opCfgWrite_closed (gate : (pairsOf f.input).all (fun p => cfgUp s (cfgBase (tgtOf f).toNat + p.1.toNat)) = false) :
    opCfgWrite s m f = busFail s m f := by
  unfold opCfgWrite
  dsimp only
  rw [cfgPairs_good good]
  refine if_pos ?_
  obtain ⟨p, mem, closed⟩ := List.all_eq_false.mp gate
  exact List.any_eq_true.mpr ⟨p, mem, by simpa using closed⟩

variable (gates : ∀ p ∈ pairsOf f.input, cfgUp s (cfgBase (tgtOf f).toNat + p.1.toNat) = true)
include gates

/-- A staged set with a commit pending refuses. -/
theorem opCfgWrite_busy (busy : cfgBusy s (tgtOf f).toNat = true) : opCfgWrite s m f = fail s m f 0xE 0 := by
  unfold opCfgWrite
  dsimp only
  rw [cfgPairs_good good]
  exact (if_neg (cfgPairs_open gates)).trans (if_pos busy)

/-- The state with the pairs written one after the other, each as a register write writes it. -/
def pairsWritten (s : State) (t : Nat) (l : List (Word × Word)) : State :=
  forAll l (fun s p => regWrite s (cfgBase t + p.1.toNat) p.2) s

theorem opCfgWrite_writes (idle : cfgBusy s (tgtOf f).toNat = false) : opCfgWrite s m f =
    if (tgtOf f).toNat % 16 = 2 ∨ (tgtOf f).toNat % 16 = 3 ∨ (tgtOf f).toNat % 16 = 4 then
      cfgRequest (setWaiting (pairsWritten s (tgtOf f).toNat (pairsOf f.input)) m f) (tgtOf f).toNat
    else ok (pairsWritten s (tgtOf f).toNat (pairsOf f.input)) m f 0 0 := by
  unfold opCfgWrite
  dsimp only
  rw [cfgPairs_good good]
  exact (if_neg (cfgPairs_open gates)).trans (if_neg (by simp [idle]))

end

/-! ### Descriptors that fail -/

/-- A completion that halts its ring, as one that fails does. -/
theorem halts_of_completed {op status : Nat} {r0 r1 detail : Word} {t : State} (bad : 2 < status)
    (h : Completed s n op d status r0 r1 detail t) :
    (ring t n).halted = true ∧ (ring t n).flight = [] ∧ (ring t n).committed = (ring s n).committed := by
  obtain ⟨-, flight, -, halted, committed⟩ := h
  exact ⟨halted.trans (decide_eq_true bad), flight, committed.trans (if_neg (by omega))⟩

/-- An operation that ends in a bus error: of its ring it halts the pair, and of the free choices it takes one. -/
theorem busFails {c : Instr} {op : Nat} {R : Tab Ring} (turn : AtTurn s n (flightOf s n op d) { s with rings := R })
    (hop : op < 256) (resume : op ≠ 2) (e : exec c s = done s (busFail { s with rings := R } n (flightOf s n op d))) :
    ∃ t, exec c s = .next t ∧ Frame [.rings, .msixPend, .free, .out] s t ∧ (ring t n).halted = true ∧ (ring t n).flight = [] ∧
      (ring t n).committed = (ring s n).committed := by
  let u : State := { s with rings := R, free := s.free + 1 }
  have taken : Keeps [.free] { s with rings := R } u := Keeps.free (.refl _ _) (by decide)
  have k : Keeps [.rings, .msixPend, .free, .out] s u := (rings_keeps.mono (by decide)).step taken (by decide)
  have done := completed_atTurn (AtTurn.keep turn taken) rfl hop resume (3 + Config.busError s.free % 22) 0 0 0
  exact completes ⟨_, e, k.step (complete_keeps ..) (by decide)⟩ e
    (halts_of_completed (by omega) (Completed.close done s))

end

end Sys2Proof.Proofs
end

section
/-! SUPPORT. The one row of a ring's table in which a fetched descriptor stands, under operations on other rings. -/

namespace Sys2Proof.Proofs

set_option Elab.async false

open Machine Laws

/-! ### The rows of a table at a key -/

/-- The rows of a ring table at a ring's number. -/
def rowsOf (n : Nat) (R : Tab Ring) : Tab Ring := R.filter (fun e => e.1 == n)

section
variable {R : Tab Ring} {n k : Nat} {r : Ring}

theorem mem_rowsOf {e : Nat × Ring} : e ∈ rowsOf n R ↔ e ∈ R ∧ e.1 = n := by
  simp [rowsOf]

theorem tget_rowsOf (d : Nat → Ring) : tget d (rowsOf n R) n = tget d R n := by
  unfold rowsOf
  induction R with
  | nil => rfl
  | cons e R ih =>
    obtain ⟨j, r⟩ := e
    by_cases h : j = n
    · simp [h, tget]
    · simpa [h, tget] using ih

theorem rowsOf_terase (h : k ≠ n) : rowsOf n (terase R k) = rowsOf n R := by
  unfold rowsOf
  induction R with
  | nil => rfl
  | cons e R ih =>
    obtain ⟨j, r⟩ := e
    by_cases hj : j = k
    · simp [terase, hj, h, ih]
    · simp [terase, hj, List.filter_cons, ih]

theorem rowsOf_tins (h : k ≠ n) : rowsOf n (tins R k r) = rowsOf n R := by
  unfold rowsOf
  induction R with
  | nil => simp [tins, h]
  | cons e R ih =>
    obtain ⟨j, q⟩ := e
    by_cases hj : k < j
    · simp [tins, hj, h]
    · simp [tins, hj, List.filter_cons, ih]

theorem rowsOf_tset (d : Nat → Ring) (h : k ≠ n) : rowsOf n (tset d R k r) = rowsOf n R := by
  unfold tset
  split
  · exact rowsOf_terase h
  · rw [rowsOf_tins h, rowsOf_terase h]

theorem mem_tins {e : Nat × Ring} (h : e ∈ tins R k r) : e = (k, r) ∨ e ∈ R := by
  induction R with
  | nil => exact .inl (List.mem_singleton.mp h)
  | cons a R ih =>
    obtain ⟨j, q⟩ := a
    unfold tins at h
    split at h
    · exact List.mem_cons.mp h
    · rcases List.mem_cons.mp h with rfl | h
      · exact .inr List.mem_cons_self
      · exact (ih h).imp_right (List.mem_cons_of_mem _)

/-- After a write at a key the table has no other row of that key. -/
theorem row_tset {d : Nat → Ring} {e : Nat × Ring} (h : e ∈ tset d R k r) (key : e.1 = k) : e.2 = r := by
  unfold tset at h
  split at h
  · exact absurd key (key_terase R k e h)
  · rcases mem_tins h with rfl | h
    · rfl
    · exact absurd key (key_terase R k e h)

end

/-! ### Completions of other rings -/

/-- The rows of ring `n`. -/
def ownRows (n : Nat) (s : State) : Tab Ring := rowsOf n s.rings

/-- No descriptor of the rows waits. -/
def NoneWaits (own : Tab Ring) : Prop := ∀ e ∈ own, ∀ f ∈ e.2.flight, f.waiting = false

section
variable {s t : State} {n k : Nat}

theorem ring_ownRows (h : ownRows n t = ownRows n s) : ring t n = ring s n := by
  rw [ring, ring, ← tget_rowsOf, ← tget_rowsOf (R := s.rings)]
  exact congrArg (tget _ · n) h

theorem ownRows_setRing (h : k ≠ n) (r : Ring) : Stays (ownRows n) s (setRing s k r) :=
  .of (rowsOf_tset (R := s.rings) (fun _ => Ring.reset) h)

theorem ownRows_modRing (h : k ≠ n) (f : Ring → Ring) : Stays (ownRows n) s (modRing s k f) := ownRows_setRing h _

theorem ownRows_keeps {may : List Piece} (g : Keeps may s t) (hp : Piece.rings ∉ may := by decide) : Stays (ownRows n) s t :=
  .of (by unfold ownRows; rw [g.rings_eq hp])

theorem ownRows_writeCompletion (h : k ≠ n) (f : Flight) (status : Nat) (r0 r1 detail : Word) (ts : Nat) :
    Stays (ownRows n) s (writeCompletion s k f status r0 r1 detail ts) := by
  have counted (t : State) : Stays (ownRows n) t (countIntr t k) := by
    unfold countIntr
    exact .ite ((ownRows_modRing h _).trans (ownRows_keeps (raiseVec_keeps ..))) (ownRows_modRing h _)
  have stepped (t : State) : Stays (ownRows n) t (stepCq t k) := by
    unfold stepCq
    exact ownRows_modRing h _
  unfold writeCompletion
  extract_lets r op seq w1 x y z
  have hx : Stays (ownRows n) s x := ownRows_keeps (emit_keeps ..)
  have hz : Stays (ownRows n) s z := (hx.trans (stepped x)).trans (ownRows_modRing h _)
  exact .ite hz (hz.trans (counted z))

theorem ownRows_complete (h : k ≠ n) (f : Flight) (status : Nat) (r0 r1 detail : Word) :
    Stays (ownRows n) s (complete s k f status r0 r1 detail) := by
  have halted (t : State) : Stays (ownRows n) t (haltRing t k) := by
    unfold haltRing notExecuted
    exact .forAll (ownRows_modRing h _) fun _ _ hu => hu.trans (ownRows_writeCompletion h ..)
  have closed (t : State) : Stays (ownRows n) t (closeRing t k) := by
    unfold closeRing
    exact .ite (ownRows_setRing h _) .refl
  unfold complete
  extract_lets x y
  have hx : Stays (ownRows n) s x := ownRows_writeCompletion h ..
  have hy : Stays (ownRows n) s y := .ite hx (hx.trans (halted x))
  exact hy.trans (closed y)

/-- A ring none of whose descriptors waits is not among the rings whose first descriptor does. -/
theorem ne_of_mem_waitingRings {p : Flight → Bool} {e : Nat × Flight} (idle : NoneWaits (ownRows n s))
    (h : e ∈ waitingRings s p) : e.1 ≠ n := by
  rintro rfl
  obtain ⟨a, ha, first⟩ := List.mem_filterMap.mp h
  split at first
  · rename_i f rest flight
    split at first
    · rename_i waits
      cases first
      have := idle a (mem_rowsOf.mpr ⟨ha, rfl⟩) f (flight ▸ List.mem_cons_self)
      simp [this] at waits
    · cases first
  · cases first

theorem ownRows_forAll {l : List (Nat × Flight)} {g : State → Nat × Flight → State} (hl : ∀ e ∈ l, e.1 ≠ n)
    (hg : ∀ u (e : Nat × Flight), e.1 ≠ n → Stays (ownRows n) u (g u e)) : Stays (ownRows n) s (forAll l g s) := by
  unfold forAll
  induction l generalizing s with
  | nil => exact .refl
  | cons e l ih =>
    exact (hg s e (hl e List.mem_cons_self)).trans (ih fun a ha => hl a (List.mem_cons_of_mem _ ha))

theorem ownRows_completeAll (idle : NoneWaits (ownRows n s)) (p : Flight → Bool) (status : Nat) (r0 r1 detail : Word) :
    Stays (ownRows n) s (completeAll s p status r0 r1 detail) :=
  ownRows_forAll (fun _ h => ne_of_mem_waitingRings idle h) fun _ _ h => ownRows_complete h ..

theorem ownRows_endTimed (idle : NoneWaits (ownRows n s)) (m status : Nat) : Stays (ownRows n) s (endTimed s m status) := by
  refine ownRows_forAll (fun _ h => ne_of_mem_waitingRings idle h) fun u e h => ?_
  by_cases mine : e.1 = m
  · exact .ite (ownRows_complete (mine ▸ h) ..) .refl
  · rw [if_neg mine]
    exact .refl

end

/-! ### The row of a fetched descriptor -/

section
variable {s : State} {n op : Nat} {d : Desc}

/-- A fetch leaves one row of its ring. -/
theorem row_fetch {ws pay : List Word} {readOk : Bool} {e : Nat × Ring} (h : e ∈ (fetch s n ws pay readOk).rings)
    (key : e.1 = n) : e.2 = ring (fetch s n ws pay readOk) n := by
  have last : ∃ u f, fetch s n ws pay readOk = modRing u n f := by
    unfold fetch
    exact ⟨_, _, rfl⟩
  obtain ⟨u, f, last⟩ := last
  rw [last] at h ⊢
  rw [ring_modRing_same]
  exact row_tset (d := fun _ => Ring.reset) (R := u.rings) h key

/-- The effect of a ready descriptor's operation is that on the state its fetch leaves (R522, R557). -/
theorem submit_fetched (h : Ready s n op d) (hop : op < 256) (resume : op ≠ 2) :
    submit s n op d = opRun (fetch s n (descOf op d) (withCrc d.payload) true) n (flightOf s n op d) := by
  obtain ⟨R, fetched, turn⟩ := fetch_ready h hop resume
  obtain ⟨run, master, -⟩ := hasWork_ring (hasWork_of_ready h)
  obtain ⟨can, -, -, -, -, -, -, owner, holder⟩ := h
  have code : opOf (flightOf s n op d) = op := (descOf_head hop d).1
  have begins : (ringsRun { s with rings := R } && s.busMaster && !(flightOf s n op d).waiting) = true := by
    rw [show ringsRun { s with rings := R } = true from run, master]
    rfl
  have mine : (ownerOnly op && ringPart { s with rings := R } n != 0) = false := by
    rw [turn.ringPart]
    cases only : ownerOnly op
    · rfl
    · simp [owner only]
  have holds : (changesState op && onTwin { s with rings := R } && !s.base.holdOut) = false := by
    cases changes : changesState op
    · rfl
    · cases twin : onTwin { s with rings := R }
      · rfl
      · simp [holder changes twin]
  rw [submit, if_pos can, fetched]
  dsimp only
  rw [turn.flight, if_pos (c := [flightOf s n op d].length ≤ 1) (Nat.le_refl 1), commitFront, turn.flight]
  dsimp only
  rw [begins, commitOne, code]
  simp only [flightOf, mine, holds]
  exact runChecked_noHop _

end

end Sys2Proof.Proofs
end

section
/-! SUPPORT. Register writes beside ring pairs: what a write of a register does is the same whatever the ring pairs hold, and a
descriptor that does not wait stands through it. -/

namespace Sys2Proof.Proofs

set_option Elab.async false

open Machine Laws

/-! ### States that differ in ring pairs and messages to the host -/

/-- A state with other ring pairs, pending vectors and messages sent. -/
def along (s : State) (R : Tab Ring) (M : Tab Word) (O : List Out) : State := { s with rings := R, msixPend := M, out := O }

/-- In a table one ring's rows are `own`, and the time stamp of a state is `ts`. -/
structure Kept (n : Nat) (own : Tab Ring) (ts : Nat) (s : State) (R : Tab Ring) (M : Tab Word) (O : List Out) : Prop where
  rows : rowsOf n R = own
  time : nowTs s = ts

/-- The second state differs from the first in ring pairs, pending vectors and messages alone; in the second one ring's rows are
`own`, and in both the time stamp is `ts`. -/
def Beside (n : Nat) (own : Tab Ring) (ts : Nat) (s t : State) : Prop :=
  ∃ R M O, t = along s R M O ∧ Kept n own ts s R M O

section
variable {n ts : Nat} {own : Tab Ring} {s t u v : State}

theorem along_of_keeps (h : Keeps [.rings, .msixPend, .out] s t) : t = along s t.rings t.msixPend t.out := by
  have base := h.base_eq (by decide) (by decide)
  obtain ⟨pending, same⟩ := h
  have field (p : Piece) (hp : p ∉ [Piece.rings, .msixPend, .out] := by decide) : exactly p s t := same p hp
  cases t
  simp only [along, State.mk.injEq]
  exact ⟨field .regs, field .live, field .latch, field .lowHeld, field .pts, base, field .phc, field .clk, field .banks, field .ch,
    trivial, field .evq, field .recq, field .recSlots, field .recNext, field .recLost, field .recLostCls, field .watches, field .rtc,
    field .msix, trivial, field .busMaster, field .memEnable, field .forces, field .img, field .up, field .ptp, field .eth, field .can,
    field .mtr, field .lce, field .ble, field .twn, field .sec, field .upd, field .free, trivial, pending⟩

/-- Two states reached by the same updates, which change neither ring pairs nor messages nor the clock. -/
theorem Kept.up {s' t' : State} {R : Tab Ring} {M : Tab Word} {O : List Out} (k : Kept n own ts s R M O)
    (rest : t' = along s' R M O := by rfl) (clock : nowTs s' = nowTs s := by rfl) : Beside n own ts s' t' :=
  ⟨R, M, O, rest, k.rows, clock.trans k.time⟩

theorem Beside.rows (h : Beside n own ts s t) : ownRows n t = own := by
  obtain ⟨R, M, O, rfl, kept⟩ := h
  exact kept.rows

theorem Beside.time (h : Beside n own ts s t) : nowTs t = ts := by
  obtain ⟨R, M, O, rfl, kept⟩ := h
  exact kept.time

theorem Beside.rget (h : Beside n own ts s t) (o : Nat) : Machine.rget t o = Machine.rget s o := by
  obtain ⟨R, M, O, rfl, -⟩ := h
  rfl

theorem Beside.ite {c c' : Prop} [Decidable c] [Decidable c'] (same : c' ↔ c) (h : Beside n own ts s t) (g : Beside n own ts u v) :
    Beside n own ts (if c then s else u) (if c' then t else v) := by
  by_cases hc : c
  · rwa [if_pos hc, if_pos (same.mpr hc)]
  · rwa [if_neg hc, if_neg (mt same.mp hc)]

theorem Beside.forAll {α : Type} {l : List α} {f : State → α → State}
    (step : ∀ a ∈ l, ∀ u v, Beside n own ts u v → Beside n own ts (f u a) (f v a)) (h : Beside n own ts s t) :
    Beside n own ts (Machine.forAll l f s) (Machine.forAll l f t) := by
  unfold Machine.forAll
  induction l generalizing s t with
  | nil => exact h
  | cons a l ih =>
    exact ih (fun b hb => step b (List.mem_cons_of_mem _ hb)) (step a List.mem_cons_self _ _ h)

/-- Operations that change ring pairs and messages alone, on either side. -/
theorem Beside.keep (h : Beside n own ts s t) (hs : Keeps [.rings, .msixPend, .out] s u) (ht : Keeps [.rings, .msixPend, .out] t v)
    (rows : Stays (ownRows n) t v) : Beside n own ts u v := by
  have clock : nowTs u = nowTs s := by
    unfold nowTs absA
    rw [hs.phc_eq (by decide)]
  refine ⟨v.rings, v.msixPend, v.out, ?_, rows.eq.trans h.rows, ?_⟩
  · obtain ⟨R, M, O, rfl, -⟩ := h
    rw [along_of_keeps hs]
    exact (along_of_keeps ht).trans rfl
  · obtain ⟨R, M, O, rfl, kept⟩ := h
    exact clock.trans kept.time

/-! ### Events -/

theorem Beside.regEvent (h : Beside n own ts s t) (off : Nat) (bits obj : Word) (part : Nat) (host rec_ : Bool) (extra : List Word) :
    Beside n own ts (regEvent s off bits obj part host rec_ extra) (regEvent t off bits obj part host rec_ extra) := by
  obtain ⟨R, M, O, rfl, kept⟩ := h
  have same : mergeReg off bits obj (Machine.rget (along s R M O) off) (nowTs (along s R M O)) host rec_ extra (along s R M O).evq =
    mergeReg off bits obj (Machine.rget s off) (nowTs s) host rec_ extra s.evq := rfl
  unfold Machine.regEvent
  rw [same]
  split
  · exact kept.up
  · exact kept.up

theorem Beside.raiseBits (h : Beside n own ts s t) (off : Nat) (bits obj : Word) (part : Nat) (host rec_ : Bool) (extra : List Word) :
    Beside n own ts (raiseBits s off bits obj part host rec_ extra) (raiseBits t off bits obj part host rec_ extra) := by
  obtain ⟨R, M, O, rfl, kept⟩ := h
  exact .ite Iff.rfl kept.up (.regEvent kept.up ..)

theorem Beside.rset (h : Beside n own ts s t) (o : Nat) (w : Word) : Beside n own ts (rset s o w) (rset t o w) := by
  obtain ⟨R, M, O, rfl, kept⟩ := h
  exact kept.up

theorem Beside.rwrite (h : Beside n own ts s t) (o : Nat) (w : Word) : Beside n own ts (rwrite s o w) (rwrite t o w) := by
  obtain ⟨R, M, O, rfl, kept⟩ := h
  exact kept.up

/-! ### Blocks GLB, TWN and RTC -/

theorem Beside.glbWrite (h : Beside n own ts s t) (o : Nat) (w : Word) : Beside n own ts (glbWrite s o w) (glbWrite t o w) := by
  have request : Beside n own ts (lcRequest s w) (lcRequest t w) := by
    obtain ⟨R, M, O, rfl, kept⟩ := h
    exact .ite Iff.rfl kept.up (.raiseBits kept.up ..)
  have written := h.rwrite o w
  obtain ⟨R, M, O, rfl, kept⟩ := h
  exact .ite Iff.rfl (.ite Iff.rfl kept.up kept.up)
    (.ite Iff.rfl (.ite Iff.rfl kept.up kept.up) (.ite Iff.rfl request written))

theorem Beside.twnWrite (h : Beside n own ts s t) (o : Nat) (w : Word) : Beside n own ts (twnWrite s o w) (twnWrite t o w) := by
  obtain ⟨R, M, O, rfl, kept⟩ := h
  exact .ite Iff.rfl kept.up
    (.ite Iff.rfl (.ite Iff.rfl kept.up kept.up) kept.up)

theorem Beside.rtcWrite (h : Beside n own ts s t) (o : Nat) (w : Word) : Beside n own ts (rtcWrite s o w) (rtcWrite t o w) := by
  have event (s t : State) (h : Beside n own ts s t) : Beside n own ts (rtcEvent s 8) (rtcEvent t 8) := by
    obtain ⟨R, M, O, rfl, kept⟩ := h
    exact .ite Iff.rfl (.raiseBits kept.up ..) kept.up
  obtain ⟨R, M, O, rfl, kept⟩ := h
  refine .ite Iff.rfl kept.up (.ite Iff.rfl ?_ (.ite Iff.rfl kept.up
    (.ite Iff.rfl (.ite Iff.rfl kept.up kept.up) kept.up)))
  exact .ite Iff.rfl kept.up (event _ _ kept.up)

/-! ### Block CAN -/

section
variable (still : NoneWaits own)
include still

theorem Beside.completeAll (h : Beside n own ts s t) (p : Flight → Bool) (status : Nat) (r0 r1 detail : Word) :
    Beside n own ts (completeAll s p status r0 r1 detail) (completeAll t p status r0 r1 detail) :=
  h.keep (completeAll_keeps ..) (completeAll_keeps ..) (ownRows_completeAll (h.rows ▸ still) ..)

theorem Beside.failTx (h : Beside n own ts s t) (p cause b : Nat) : Beside n own ts (failTx s p cause b) (failTx t p cause b) := by
  obtain ⟨R, M, O, rfl, kept⟩ := h
  have same : canBuf (along s R M O) p b = canBuf s p b := rfl
  unfold Machine.failTx
  rw [same]
  split
  · exact kept.up
  · exact .ite Iff.rfl (.completeAll still kept.up ..) kept.up

theorem Beside.failAllTx (h : Beside n own ts s t) (p cause : Nat) : Beside n own ts (failAllTx s p cause) (failAllTx t p cause) :=
  .forAll (fun _ _ _ _ h => h.failTx still ..) h

omit still in
theorem Beside.canCfgErr (h : Beside n own ts s t) (p : Nat) : Beside n own ts (canCfgErr s p) (canCfgErr t p) := h.raiseBits ..

theorem Beside.canCtrlWrite (h : Beside n own ts s t) (p : Nat) (w : Word) :
    Beside n own ts (canCtrlWrite s p w) (canCtrlWrite t p w) := by
  obtain ⟨R, M, O, rfl, kept⟩ := h
  refine .ite Iff.rfl (.ite Iff.rfl ?_ ?_) (.ite Iff.rfl ?_ kept.up)
  · exact .completeAll still kept.up ..
  · exact .canCfgErr kept.up _
  · exact .failAllTx still kept.up ..

end

/-- A write that would take an enabled buffer out of use. -/
theorem Beside.bufferOff (h : Beside n own ts s t) (p b o : Nat) (w : Word) :
    Beside n own ts (if !(mapsOf s p b).isEmpty || imageCan s p b then Machine.canCfgErr s p else Machine.rset s o w)
      (if !(mapsOf t p b).isEmpty || imageCan t p b then Machine.canCfgErr t p else Machine.rset t o w) := by
  obtain ⟨R, M, O, rfl, kept⟩ := h
  exact .ite Iff.rfl (.canCfgErr kept.up _) kept.up

/-- A write to an enabled entry that would change what it holds sets CFG_ERR. -/
theorem Beside.checked (h : Beside n own ts s t) (c : Bool) (p : Nat) :
    Beside n own ts (if c then Machine.canCfgErr s p else s) (if c then Machine.canCfgErr t p else t) :=
  .ite Iff.rfl (h.canCfgErr p) h

theorem Beside.canBufWrite (h : Beside n own ts s t) (p b : Nat) (w : Word) :
    Beside n own ts (canBufWrite s p b w) (canBufWrite t p b w) := by
  have clean := h.checked (fld w 9 1 != fld (Machine.rget s (oCanBuf p b)) 9 1) p
  obtain ⟨R, M, O, rfl, kept⟩ := h
  refine .ite Iff.rfl (.ite Iff.rfl kept.up (.ite Iff.rfl kept.up ?_)) (.ite Iff.rfl clean ?_)
  · exact .canCfgErr kept.up _
  · exact clean.bufferOff ..

theorem Beside.canBufFieldWrite (h : Beside n own ts s t) (p b o : Nat) (w : Word) :
    Beside n own ts (canBufFieldWrite s p b o w) (canBufFieldWrite t p b o w) := by
  obtain ⟨R, M, O, rfl, kept⟩ := h
  exact .ite Iff.rfl (.canCfgErr kept.up _) kept.up

theorem Beside.canMapFieldWrite (h : Beside n own ts s t) (m o : Nat) (w : Word) :
    Beside n own ts (canMapFieldWrite s m o w) (canMapFieldWrite t m o w) := by
  obtain ⟨R, M, O, rfl, kept⟩ := h
  exact .ite Iff.rfl (.canCfgErr kept.up _) kept.up

theorem Beside.canMapWrite (h : Beside n own ts s t) (m : Nat) (w : Word) :
    Beside n own ts (canMapWrite s m w) (canMapWrite t m w) := by
  have clean := h.checked (fld w 28 1 != fld (Machine.rget s (oCanMap m)) 28 1) (fld (Machine.rget s (oCanMap m)) 2 1)
  obtain ⟨R, M, O, rfl, kept⟩ := h
  refine .ite Iff.rfl (.ite Iff.rfl kept.up (.ite Iff.rfl kept.up ?_))
    (.ite Iff.rfl clean (clean.rset ..))
  exact .canCfgErr kept.up _

theorem Beside.canWrite (still : NoneWaits own) (h : Beside n own ts s t) (off : Nat) (w : Word) :
    Beside n own ts (canWrite s off w) (canWrite t off w) := by
  have recover (p : Nat) : Beside n own ts (canRecover s p) (canRecover t p) := by
    obtain ⟨R, M, O, rfl, kept⟩ := h
    exact .ite Iff.rfl kept.up kept.up
  have timing (p o : Nat) : Beside n own ts (canTimingWrite s p o w) (canTimingWrite t p o w) := by
    obtain ⟨R, M, O, rfl, kept⟩ := h
    exact .ite Iff.rfl (.canCfgErr kept.up _) kept.up
  refine .ite Iff.rfl (.ite Iff.rfl (h.canCtrlWrite still ..) (.ite Iff.rfl (timing ..) (.ite Iff.rfl ?_ (.ite Iff.rfl ?_
    (h.rwrite ..))))) (.ite Iff.rfl ?_ h)
  · exact .ite Iff.rfl (recover _) h
  · exact .ite Iff.rfl (h.canBufWrite ..) (.ite Iff.rfl (h.canBufFieldWrite ..) h)
  · exact .ite Iff.rfl (h.canMapWrite ..) (.ite Iff.rfl (h.canMapFieldWrite ..) h)

/-! ### Block CLK -/

theorem Beside.srcWrite (h : Beside n own ts s t) (w : Word) : Beside n own ts (srcWrite s w) (srcWrite t w) := by
  refine .forAll (fun d _ u v h => ?_) h
  obtain ⟨R, M, O, rfl, kept⟩ := h
  exact .ite Iff.rfl kept.up (.ite Iff.rfl kept.up kept.up)

theorem Beside.closeGate (still : NoneWaits own) (h : Beside n own ts s t) (b : Nat) :
    Beside n own ts (closeGate s b) (closeGate t b) := by
  obtain ⟨R, M, O, rfl, kept⟩ := h
  exact .ite Iff.rfl (.failAllTx still kept.up ..) kept.up

theorem Beside.gateRunWrite (still : NoneWaits own) (h : Beside n own ts s t) (w : Word) :
    Beside n own ts (gateRunWrite s w) (gateRunWrite t w) := by
  have opened (b : Nat) (u v : State) (h : Beside n own ts u v) : Beside n own ts (openGate u b) (openGate v b) := by
    obtain ⟨R, M, O, rfl, kept⟩ := h
    exact kept.up
  obtain ⟨R, M, O, rfl, kept⟩ := h
  refine .ite Iff.rfl kept.up (.ite Iff.rfl kept.up (.forAll (fun b _ u v h => ?_) kept.up))
  exact .ite Iff.rfl h (.ite Iff.rfl (opened b u v h) (h.closeGate still b))

theorem Beside.clkWrite (still : NoneWaits own) (h : Beside n own ts s t) (o : Nat) (w : Word) :
    Beside n own ts (clkWrite s o w) (clkWrite t o w) := by
  have meter : Beside n own ts (fmWrite s w) (fmWrite t w) := by
    obtain ⟨R, M, O, rfl, kept⟩ := h
    exact .ite Iff.rfl kept.up (.ite Iff.rfl kept.up kept.up)
  exact .ite Iff.rfl (h.srcWrite w) (.ite Iff.rfl (h.gateRunWrite still w) (.ite Iff.rfl meter (h.rwrite ..)))

/-! ### Block ETH -/

theorem Beside.lostNettime (still : NoneWaits own) (h : Beside n own ts s t) : Beside n own ts (lostNettime s) (lostNettime t) := by
  obtain ⟨R, M, O, rfl, kept⟩ := h
  refine .forAll (fun e _ u v h => ?_) kept.up
  exact h.keep (endTimed_keeps ..) (endTimed_keeps ..) (ownRows_endTimed (h.rows ▸ still) ..)

theorem Beside.ptpState (still : NoneWaits own) (h : Beside n own ts s t) (st : Nat) : Beside n own ts (ptpState s st) (ptpState t st) := by
  obtain ⟨R, M, O, rfl, kept⟩ := h
  exact .ite Iff.rfl (.lostNettime still (.raiseBits kept.up ..))
    (.ite Iff.rfl (.raiseBits kept.up ..) kept.up)

theorem Beside.acquire (still : NoneWaits own) (h : Beside n own ts s t) : Beside n own ts (acquire s) (acquire t) := by
  obtain ⟨R, M, O, rfl, kept⟩ := h
  exact .ptpState still kept.up _

theorem Beside.selectMaster (still : NoneWaits own) (h : Beside n own ts s t) :
    Beside n own ts (selectMaster s) (selectMaster t) := by
  obtain ⟨R, M, O, rfl, kept⟩ := h
  have same : bestMaster (along s R M O) = bestMaster s := rfl
  unfold Machine.selectMaster
  rw [same]
  split
  · exact kept.up
  · exact .ite Iff.rfl kept.up (.acquire still (.raiseBits kept.up ..))

theorem Beside.loseMaster (still : NoneWaits own) (h : Beside n own ts s t) : Beside n own ts (loseMaster s) (loseMaster t) := by
  obtain ⟨R, M, O, rfl, kept⟩ := h
  exact .ite Iff.rfl (.ptpState still kept.up _) kept.up

theorem Beside.ptpCtrlWrite (still : NoneWaits own) (h : Beside n own ts s t) (w : Word) :
    Beside n own ts (ptpCtrlWrite s w) (ptpCtrlWrite t w) := by
  obtain ⟨R, M, O, rfl, kept⟩ := h
  refine .ite Iff.rfl (.ite Iff.rfl (.selectMaster still kept.up) (.loseMaster still kept.up))
    (.ite Iff.rfl (.ptpState still kept.up _) kept.up)

theorem Beside.bump (h : Beside n own ts s t) (p k m : Nat) : Beside n own ts (bump s p k m) (bump t p k m) := by
  obtain ⟨R, M, O, rfl, kept⟩ := h
  exact .ite Iff.rfl kept.up (.raiseBits kept.up ..)

theorem Beside.dropLink (h : Beside n own ts s t) (p : Nat) : Beside n own ts (dropLink s p) (dropLink t p) := by
  obtain ⟨R, M, O, rfl, kept⟩ := h
  exact .ite Iff.rfl (.bump kept.up ..) kept.up

theorem Beside.linkLost (still : NoneWaits own) (h : Beside n own ts s t) (p : Nat) : Beside n own ts (linkLost s p) (linkLost t p) := by
  obtain ⟨R, M, O, e, kept⟩ := h.dropLink p
  unfold Machine.linkLost
  rw [e]
  exact .ite Iff.rfl (.loseMaster still kept.up) kept.up

theorem Beside.reneg (still : NoneWaits own) (h : Beside n own ts s t) (p : Nat) (down : Bool) :
    Beside n own ts (reneg s p down) (reneg t p down) := by
  obtain ⟨R, M, O, rfl, kept⟩ := h
  exact .linkLost still (.bump (.dropLink kept.up _) ..) _

theorem Beside.portCtrlWrite (still : NoneWaits own) (h : Beside n own ts s t) (p : Nat) (w : Word) :
    Beside n own ts (portCtrlWrite s p w) (portCtrlWrite t p w) := by
  obtain ⟨R, M, O, rfl, kept⟩ := h
  exact .ite Iff.rfl (.linkLost still kept.up _)
    (.ite Iff.rfl (.reneg still kept.up ..) kept.up)

theorem Beside.stationWrite (h : Beside n own ts s t) (m : Nat) (w : Word) :
    Beside n own ts (stationWrite s m w) (stationWrite t m w) := by
  obtain ⟨R, M, O, rfl, kept⟩ := h
  refine .ite Iff.rfl (.rset (.ite Iff.rfl kept.up (.raiseBits kept.up ..)) ..)
    (.ite Iff.rfl kept.up (.ite Iff.rfl kept.up (.raiseBits kept.up ..)))

theorem Beside.stationFieldWrite (h : Beside n own ts s t) (m o : Nat) (w : Word) :
    Beside n own ts (stationFieldWrite s m o w) (stationFieldWrite t m o w) := by
  obtain ⟨R, M, O, rfl, kept⟩ := h
  exact .ite Iff.rfl (.ite Iff.rfl kept.up (.raiseBits kept.up ..)) kept.up

theorem Beside.filterWrite (h : Beside n own ts s t) (p m : Nat) (w : Word) :
    Beside n own ts (filterWrite s p m w) (filterWrite t p m w) := by
  obtain ⟨R, M, O, rfl, kept⟩ := h
  exact .ite Iff.rfl kept.up kept.up

theorem Beside.ethWrite (still : NoneWaits own) (h : Beside n own ts s t) (off : Nat) (w : Word) :
    Beside n own ts (ethWrite s off w) (ethWrite t off w) := by
  refine .ite Iff.rfl (h.ptpCtrlWrite still w) (.ite Iff.rfl (.ite Iff.rfl h (h.rwrite ..)) (.ite Iff.rfl ?_ (.ite Iff.rfl ?_
    (h.rwrite ..))))
  · exact .ite Iff.rfl (h.stationWrite ..) (.ite Iff.rfl (h.stationFieldWrite ..) h)
  · exact .ite Iff.rfl (h.portCtrlWrite still ..) (.ite Iff.rfl (h.filterWrite ..) (h.rwrite ..))

/-! ### A register write -/

theorem readWord_along {R : Tab Ring} {M : Tab Word} {O : List Out} {off : Nat} (block : off / 0x10000 ≠ 8) :
    readWord (along s R M O) off = readWord s off := by
  unfold readWord
  dsimp only
  split
  case h_9 ring => exact absurd ring block
  all_goals rfl

theorem Beside.pairWrite (h : Beside n own ts s t) (hi : Nat) (w : Word) (block : (hi - 4) / 0x10000 ≠ 8) :
    Beside n own ts (pairWrite s hi w) (pairWrite t hi w) := by
  obtain ⟨R, M, O, rfl, kept⟩ := h
  have low : lowWord (along s R M O) hi = lowWord s hi := by
    unfold lowWord
    rw [readWord_along block]
    rfl
  unfold Machine.pairWrite
  rw [low]
  exact kept.up

/-- A write of a register of a block that CFG_WRITE writes at once (R532). -/
theorem Beside.regWrite (still : NoneWaits own) (h : Beside n own ts s t) (off : Nat) (w : Word)
    (block : off / 0x10000 = 0 ∨ off / 0x10000 = 1 ∨ off / 0x10000 = 7 ∨ off / 0x10000 = 9 ∨ off / 0x10000 = 10 ∨ off / 0x10000 = 11) :
    Beside n own ts (regWrite s off w) (regWrite t off w) := by
  have held : Beside n own ts { s with lowHeld := aset s.lowHeld off w } { t with lowHeld := aset t.lowHeld off w } := by
    obtain ⟨R, M, O, rfl, kept⟩ := h
    exact kept.up
  have noRing (u : State) : ¬ (off / 0x10000 = 8 ∧ bitOf (Machine.rget u (oRing ((off % 0x10000 - 0x1000) / 0x40))) 0 = true) := by
    omega
  unfold Machine.regWrite
  dsimp only
  rw [if_neg (noRing s), if_neg (noRing t)]
  refine .ite Iff.rfl held ?_
  by_cases pair : off = 0x90004 ∨ off = 0xD0028
  · rw [if_pos pair, if_pos pair]
    exact h.pairWrite off w (by omega)
  · rw [if_neg pair, if_neg pair]
    rcases block with b | b | b | b | b | b <;> rw [b]
    · exact h.glbWrite ..
    · exact h.clkWrite still ..
    · exact h.twnWrite ..
    · exact h.ethWrite still ..
    · exact h.canWrite still ..
    · exact h.rtcWrite ..

end

end Sys2Proof.Proofs
end

section
/-! The operations on configuration that fail, wait or read (R136, R531, R532). -/

namespace Sys2Proof.Proofs

set_option Elab.async false

open Machine Laws

/-! ### Reads leave ring pairs aside -/

section
variable {s : State} {R : Tab Ring} {off : Nat}

theorem readOut_rings (block : off / 0x10000 ≠ 8) : readOut { s with rings := R } off = readOut s off := by
  have word : readWord { s with rings := R } off = readWord s off := readWord_along (M := s.msixPend) (O := s.out) block
  unfold readOut
  rw [word]

/-- The low halves of the pairs of registers that are written together. -/
theorem low_of_isLow (h : isLow off = true) : off = 0xB0010 ∨ off = 0x90000 ∨ off = 0xD0024 ∨ off / 0x10000 = 8 := by
  unfold isLow lowOf at h
  split at h
  · omega
  · split at h
    · omega
    · cases h

/-- The halves that a read latches lie in the block of what is read. -/
theorem latches_block {h : Nat} (mem : h ∈ latches off) (block : off / 0x10000 ≠ 8) : h / 0x10000 ≠ 8 := by
  unfold latches at mem
  extract_lets next at mem
  split at mem
  · rename_i pair
    obtain rfl := List.mem_singleton.mp mem
    rcases Bool.or_eq_true_iff.mp pair with same | low
    · simp only [next, List.contains_cons, List.contains_nil, Bool.or_eq_true, beq_iff_eq, Bool.or_false] at same
      omega
    · have := low_of_isLow low
      omega
  · split at mem
    · simp only [List.mem_cons, List.not_mem_nil, or_false] at mem
      omega
    · split at mem
      · obtain rfl := List.mem_singleton.mp mem
        omega
      · cases mem

theorem afterRead_rings (block : off / 0x10000 ≠ 8) :
    afterRead { s with rings := R } off = { afterRead s off with rings := R } := by
  have latched (l : List Nat) (hl : ∀ h ∈ l, h / 0x10000 ≠ 8) (t : State) :
      forAll l (fun s h => { s with latch := aset s.latch h (readWord s h) }) { t with rings := R } =
        { forAll l (fun s h => { s with latch := aset s.latch h (readWord s h) }) t with rings := R } := by
    unfold forAll
    induction l generalizing t with
    | nil => rfl
    | cons h l ih =>
      have word : readWord { t with rings := R } h = readWord t h :=
        readWord_along (M := t.msixPend) (O := t.out) (hl h List.mem_cons_self)
      rw [List.foldl_cons, List.foldl_cons, word]
      exact ih (fun k hk => hl k (List.mem_cons_of_mem _ hk)) { t with latch := aset t.latch h (readWord t h) }
  exact latched _ (fun h mem => latches_block mem block) { s with latch := terase s.latch off }

theorem cfgReadGo_rings {k : Nat} (block : ∀ i < k, (off + 4 * i) / 0x10000 ≠ 8) :
    (cfgReadGo { s with rings := R } off k).2 = (cfgReadGo s off k).2 := by
  induction k generalizing s off with
  | zero => rfl
  | succ k ih =>
    have first : off / 0x10000 ≠ 8 := block 0 (Nat.succ_pos k)
    unfold cfgReadGo
    dsimp only
    rw [readOut_rings first, afterRead_rings first, ih fun i hi => by
      have := block (i + 1) (Nat.succ_lt_succ hi)
      rwa [Nat.mul_add, Nat.add_comm (4 * i), ← Nat.add_assoc] at this]

theorem cfgReadGo_length (s : State) (off k : Nat) : (cfgReadGo s off k).2.length = k := by
  induction k generalizing s off with
  | zero => rfl
  | succ k ih => exact congrArg (· + 1) (ih ..)

end

/-! ### Writes of staged sets -/

theorem isLow_staged {off : Nat} (block : off / 0x10000 = 2 ∨ off / 0x10000 = 3 ∨ off / 0x10000 = 4) : isLow off = false :=
  Bool.eq_false_iff.mpr fun low => by
    have := low_of_isLow low
    omega

section
variable {s : State} {o : Nat} {v : Word}

theorem phcWrite_holds (holds : (infoPhc o).rw ||| (infoPhc o).rws ≠ 0) : Keeps [.regs] s (phcWrite s o v) := by
  have plain : o ≠ 0x40 := fun h => holds (by rw [h]; decide)
  rw [phcWrite, if_neg plain]
  exact rwrite_keeps ..

theorem bnkWrite_holds (holds : (infoBnk o).rw ||| (infoBnk o).rws ≠ 0) :
    Keeps [.regs] s (bnkWrite s (o / 0x1000) (o % 0x1000) v) := by
  unfold infoBnk at holds
  split at holds
  · have plain (k : Nat) (hk : (infoBnkPage k).rw ||| (infoBnkPage k).rws = 0) : o % 0x1000 ≠ k := fun h => holds (h ▸ hk)
    rw [bnkWrite, if_neg (plain 0x8 (by decide)), if_neg (plain 0x1C (by decide)), if_neg (plain 0x20 (by decide))]
    exact .ite (.refl _ _) (rwrite_keeps ..)
  · exact absurd rfl holds

theorem lceWrite_holds (holds : (infoLce o).rw ||| (infoLce o).rws ≠ 0) : Keeps [.regs] s (lceWrite s o v) := by
  have plain : o ≠ 0x0 := fun h => holds (by rw [h]; decide)
  rw [lceWrite, if_neg plain]
  exact rwrite_keeps ..

/-- A write of a register of a staged set that holds a value changes registers alone (R532). -/
theorem regWrite_staged {off : Nat} (block : off / 0x10000 = 2 ∨ off / 0x10000 = 3 ∨ off / 0x10000 = 4)
    (holds : (regInfo off).rw ||| (regInfo off).rws ≠ 0) : Keeps [.regs] s (regWrite s off v) := by
  unfold regWrite
  dsimp only
  rw [isLow_staged block, if_neg (by decide), if_neg (by omega)]
  unfold regInfo at holds
  dsimp only at holds
  rcases block with h | h | h
  · rw [h] at holds ⊢
    exact phcWrite_holds holds
  · rw [h] at holds ⊢
    exact bnkWrite_holds holds
  · rw [h] at holds ⊢
    exact lceWrite_holds holds

end

theorem pairsWritten_staged {s : State} {t : Nat} {l : List (Word × Word)} (target : cfgTargetOk t = true)
    (good : ∀ p ∈ l, cfgPairOk t p.1 = true) (block : t % 16 = 2 ∨ t % 16 = 3 ∨ t % 16 = 4) :
    Keeps [.regs] s (pairsWritten s t l) := by
  unfold pairsWritten forAll
  induction l generalizing s with
  | nil => exact .refl _ _
  | cons p l ih =>
    have ok := good p List.mem_cons_self
    unfold cfgPairOk at ok
    simp only [Bool.and_eq_true, decide_eq_true_eq, bne_iff_ne] at ok
    obtain ⟨⟨inside, -⟩, holds⟩ := ok
    have here := cfgBase_block target inside
    exact (regWrite_staged (by rw [here]; exact block) holds).trans (ih fun q hq => good q (List.mem_cons_of_mem _ hq))

/-! ### The clauses of O32 that fail, wait or read -/

section
variable {s : State} {n : Fin 64} {d : Desc}

theorem cfgWrite_badPair (h : Ready s n.val 0x20 d) (p : Word × Word) (mem : p ∈ (pairsOf d.payload).head?.toList)
    (bad : cfgPairOk d.target.toNat p.1 = false) :
    ∃ t, exec (.cfgWrite n d) s = .next t ∧ Frame [.rings, .msixPend, .out] s t ∧ (ring t n).halted = true ∧
      (ring t n).flight = [] ∧ (ring t n).committed = (ring s n).committed := by
  obtain ⟨R, turn, e⟩ := cfgWrite_turn h
  have input := cfgWrite_input h
  have mem : p ∈ pairsOf d.payload := List.mem_of_mem_head? (Option.mem_toList.mp mem)
  obtain ⟨x, first⟩ : ∃ x, ((pairsOf (flightOf s n 0x20 d).input).zipIdx).find?
      (fun e => !cfgPairOk (tgtOf (flightOf s n 0x20 d)).toNat e.1.1) = some x := by
    rw [input]
    obtain ⟨i, hi, rfl⟩ := List.getElem_of_mem mem
    refine Option.isSome_iff_exists.mp (List.find?_isSome.mpr ⟨((pairsOf d.payload)[i], i), ?_, ?_⟩)
    · exact List.mem_zipIdx_iff_getElem?.mpr (List.getElem?_eq_getElem hi)
    · show (!cfgPairOk d.target.toNat _) = true
      rw [bad]
      rfl
  obtain ⟨t, next, frame, completed⟩ := completes_only turn (by decide) (by decide)
    (e.trans (congrArg (done s) (opCfgWrite_bad first)))
  exact ⟨t, next, frame, halts_of_completed (by decide) completed⟩

theorem cfgWrite_pending (h : Ready s n.val 0x20 d) (good : ∀ p ∈ pairsOf d.payload, cfgPairOk d.target.toNat p.1 = true)
    (gates : ∀ p ∈ pairsOf d.payload, cfgUp s (cfgBase d.target.toNat + p.1.toNat) = true)
    (busy : cfgBusy s d.target.toNat = true) :
    ∃ t, exec (.cfgWrite n d) s = .next t ∧ Frame [.rings, .msixPend, .out] s t ∧ Completed s n.val 0x20 d 0xE 0 0 0 t := by
  obtain ⟨R, turn, e⟩ := cfgWrite_turn h
  rw [← cfgWrite_input h] at good gates
  exact completes_only turn (by decide) (by decide) (e.trans (congrArg (done s) (opCfgWrite_busy good gates busy)))

theorem cfgWrite_closed (h : Ready s n.val 0x20 d) (good : ∀ p ∈ pairsOf d.payload, cfgPairOk d.target.toNat p.1 = true)
    (gate : (pairsOf d.payload).all (fun p => cfgUp s (cfgBase d.target.toNat + p.1.toNat)) = false) :
    ∃ t, exec (.cfgWrite n d) s = .next t ∧ Frame [.rings, .msixPend, .free, .out] s t ∧ (ring t n).halted = true ∧
      (ring t n).flight = [] ∧ (ring t n).committed = (ring s n).committed := by
  obtain ⟨R, turn, e⟩ := cfgWrite_turn h
  rw [← cfgWrite_input h] at good gate
  exact busFails turn (by decide) (by decide) (e.trans (congrArg (done s) (opCfgWrite_closed good gate)))

/-- What a CFG_WRITE of a staged set may change. -/
abbrev staged_may : List Piece := [.regs, .phc, .banks, .lce, .rings]

theorem cfgWrite_staged (h : Ready s n.val 0x20 d) (good : ∀ p ∈ pairsOf d.payload, cfgPairOk d.target.toNat p.1 = true)
    (gates : ∀ p ∈ pairsOf d.payload, cfgUp s (cfgBase d.target.toNat + p.1.toNat) = true)
    (idle : cfgBusy s d.target.toNat = false)
    (block : d.target.toNat % 16 = 2 ∨ d.target.toNat % 16 = 3 ∨ d.target.toNat % 16 = 4) :
    ∃ t, exec (.cfgWrite n d) s = .next t ∧ Frame staged_may s t ∧ Waits s n t := by
  obtain ⟨R, turn, e⟩ := cfgWrite_turn h
  have target := cfgWrite_target h
  have names : d.target = tgtOf (flightOf s n 0x20 d) := rfl
  rw [← cfgWrite_input h, names] at good gates
  rw [names] at target idle block
  have wrote := pairsWritten_staged (s := { s with rings := R }) target good block
  replace e := e.trans (congrArg (done s) ((opCfgWrite_writes (s := { s with rings := R }) good gates idle).trans (if_pos block)))
  generalize pairsWritten { s with rings := R } (tgtOf (flightOf s n 0x20 d)).toNat
    (pairsOf (flightOf s n 0x20 d).input) = u at e wrote
  have waits : Waits s n (setWaiting u n (flightOf s n 0x20 d)) := waits_atTurn (turn.keep wrote)
  have k : Keeps staged_may s (setWaiting u n (flightOf s n 0x20 d)) :=
    ((rings_keeps.mono (by decide)).step wrote (by decide)).step (setWaiting_keeps ..) (by decide)
  have request := cfgRequest_keeps (setWaiting u n (flightOf s n 0x20 d)) (tgtOf (flightOf s n 0x20 d)).toNat
  refine completes ⟨_, e, k.step request (by decide)⟩ e (Waits.close ?_ s)
  have same : ring (cfgRequest (setWaiting u n (flightOf s n 0x20 d)) (tgtOf (flightOf s n 0x20 d)).toNat) n =
      ring (setWaiting u n (flightOf s n 0x20 d)) n := by rw [ring, ring, request.rings_eq (by decide)]
  unfold Waits at *
  exact same ▸ waits

theorem cfgWrite_waits (h : Ready s n.val 0x20 d) (good : ∀ p ∈ pairsOf d.payload, cfgPairOk d.target.toNat p.1 = true)
    (gates : ∀ p ∈ pairsOf d.payload, cfgUp s (cfgBase d.target.toNat + p.1.toNat) = true)
    (idle : cfgBusy s d.target.toNat = false)
    (block : d.target.toNat % 16 = 2 ∨ d.target.toNat % 16 = 3 ∨ d.target.toNat % 16 = 4) :
    ∃ t, exec (.cfgWrite n d) s = .next t ∧ Frame [.regs, .lowHeld, .pts, .hold, .phc, .clk, .banks, .ch, .rings, .evq,
        .recq, .recLost, .recLostCls, .rtc, .msix, .msixPend, .ptp, .eth, .can, .mtr, .lce, .ble, .twn, .sec, .upd, .out] s t ∧
      t.live = s.live ∧ t.pts = s.pts ∧ t.forces = s.forces ∧ (ring t n).flight.length + (ring t n).done = (ring s n).done + 1 := by
  obtain ⟨t, next, frame, length, -, done⟩ := cfgWrite_staged h good gates idle block
  obtain ⟨live, pts, forces⟩ : t.live = s.live ∧ t.pts = s.pts ∧ t.forces = s.forces :=
    ⟨frame.2 .live (by decide), frame.2 .pts (by decide), frame.2 .forces (by decide)⟩
  exact ⟨t, next, Frame.mono frame (by decide), live, pts, forces, by rw [length, done, Nat.add_comm]⟩

theorem opCfgRead_open {m : Nat} {f : Flight}
    (gates : ∀ k < (parOf f 1).toNat, cfgUp s (cfgBase (tgtOf f).toNat + (parOf f 0).toNat + 4 * k) = true)
    (room : 4 * (parOf f 1).toNat + 4 ≤ (wAt f.words 14).toNat) :
    let r := cfgReadGo s (cfgBase (tgtOf f).toNat + (parOf f 0).toNat) (parOf f 1).toNat
    opCfgRead s m f = completeOut r.1 m f r.2 0 0 (nowTs r.1) := by
  intro r
  have length : r.2.length = (parOf f 1).toNat := cfgReadGo_length ..
  have opened : ¬ (upto (parOf f 1).toNat).any (fun k =>
      !cfgUp s (cfgBase (tgtOf f).toNat + (parOf f 0).toNat + 4 * k)) = true := by
    rw [List.any_eq_true]
    rintro ⟨k, mem, closed⟩
    simp [gates k (List.mem_range.mp mem)] at closed
  exact (if_neg opened).trans (if_neg (by rw [length]; omega))

theorem cfgRead_returns (h : Ready s n.val 0x21 d) (room : 4 * (wAt d.par 1).toNat + 4 ≤ d.len.toNat)
    (gates : ∀ k : Nat, k < (wAt d.par 1).toNat → cfgUp s (cfgBase d.target.toNat + (wAt d.par 0).toNat + 4 * k) = true) :
    ∃ t, exec (.cfgRead n d) s = .next t ∧ Frame [.latch, .rings, .msixPend, .out] s t ∧
      Returned s n.val 0x21 d (cfgReadGo s (cfgBase d.target.toNat + (wAt d.par 0).toNat) (wAt d.par 1).toNat).2 0 0 t := by
  obtain ⟨R, turn, e⟩ := cfgRead_turn h
  have target := cfgRead_target h
  have fits := cfgRead_fits h
  have words := cfgReadGo_rings (s := s) (R := R) (off := cfgBase d.target.toNat + (wAt d.par 0).toNat)
    (k := (wAt d.par 1).toNat) fun i hi => by
      obtain ⟨blocks, -⟩ := cfgTarget_cases target
      rw [Nat.add_assoc, cfgBase_block target (by omega)]
      omega
  have read := cfgReadGo_keeps { s with rings := R } (cfgBase d.target.toNat + (wAt d.par 0).toNat) (wAt d.par 1).toNat
  have names : d.target = tgtOf (flightOf s n 0x21 d) := rfl
  have first : wAt d.par 0 = parOf (flightOf s n 0x21 d) 0 := (parOf_flightOf (by decide)).symm
  have second : wAt d.par 1 = parOf (flightOf s n 0x21 d) 1 := (parOf_flightOf (by decide)).symm
  have len : d.len = wAt (flightOf s n 0x21 d).words 14 := (descOf_tail _ d).2.2.symm
  rw [names, first, second] at gates words read
  rw [len, second] at room
  rw [names, first, second, ← words]
  replace e := e.trans (congrArg (done s) (opCfgRead_open gates room))
  generalize cfgReadGo { s with rings := R } (cfgBase (tgtOf (flightOf s n 0x21 d)).toNat + (parOf (flightOf s n 0x21 d) 0).toNat)
    (parOf (flightOf s n 0x21 d) 1).toNat = r at *
  exact completes ⟨_, e, ((rings_keeps.mono (by decide)).step read (by decide)).step (completeOut_keeps ..) (by decide)⟩ e
    (Returned.close (returned_atTurn (turn.keep read) (by unfold nowTs absA; rw [read.phc_eq (by decide)]) (by decide) (by decide)
      ..) s)

theorem cfgRead_closed (h : Ready s n.val 0x21 d)
    (gate : (upto (wAt d.par 1).toNat).all (fun k => cfgUp s (cfgBase d.target.toNat + (wAt d.par 0).toNat + 4 * k)) = false) :
    ∃ t, exec (.cfgRead n d) s = .next t ∧ Frame [.rings, .msixPend, .free, .out] s t ∧ (ring t n).halted = true ∧
      (ring t n).flight = [] ∧ (ring t n).committed = (ring s n).committed := by
  obtain ⟨R, turn, e⟩ := cfgRead_turn h
  refine busFails turn (by decide) (by decide) (e.trans (congrArg (done s) ?_))
  simp only [opCfgRead, parOf_flightOf, Nat.reduceLT]
  refine if_pos ?_
  obtain ⟨k, mem, closed⟩ := List.all_eq_false.mp gate
  exact List.any_eq_true.mpr ⟨k, mem, by rw [Bool.not_eq_true] at closed; exact congrArg (!·) closed⟩

/-! ### The clause of O32 that writes at once -/

theorem AtTurn.of_ring {m : Nat} {f : Flight} {t u : State} (a : AtTurn s m f t) (e : ring u m = ring t m) : AtTurn s m f u := by
  obtain ⟨flight, ctrl, cqTail, phase, done, committed, halted, closing⟩ := a
  constructor <;> rw [e] <;> assumption

/-- CFG_WRITE at its commit turn, its descriptor alone in the only row of its ring. -/
theorem cfgWrite_alone (h : Ready s n.val 0x20 d) : ∃ R, AtTurn s n (flightOf s n 0x20 d) { s with rings := R } ∧
    NoneWaits (rowsOf n R) ∧
    exec (.cfgWrite n d) s = done s (opCfgWrite { s with rings := R } n (flightOf s n 0x20 d)) := by
  obtain ⟨R, fetched, turn⟩ := fetch_ready h (by decide) (by decide)
  have code : opOf (flightOf s n 0x20 d) = 0x20 := (descOf_head (by decide) d).1
  have effect : opRun { s with rings := R } n (flightOf s n 0x20 d) =
      opCfgWrite { s with rings := R } n (flightOf s n 0x20 d) := by
    rw [opRun, runCore.eq_def, code]
    rfl
  have run : exec (.cfgWrite n d) s = done s (submit s n 0x20 d) := rfl
  refine ⟨R, turn, fun e mem f hf => ?_, by rw [run, submit_fetched h (by decide) (by decide), fetched, effect]⟩
  obtain ⟨mem, key⟩ := mem_rowsOf.mp mem
  have only := row_fetch (s := s) (n := n) (ws := descOf 0x20 d) (pay := withCrc d.payload) (readOk := true) (e := e)
  rw [fetched] at only
  rw [only mem key, turn.flight] at hf
  rw [List.mem_singleton.mp hf]
  rfl

theorem pairsWritten_beside {own : Tab Ring} {ts t : Nat} {l : List (Word × Word)} {u v : State} (still : NoneWaits own)
    (h : Beside n own ts u v) (target : cfgTargetOk t = true) (good : ∀ p ∈ l, cfgPairOk t p.1 = true)
    (phc : t % 16 ≠ 2) (bnk : t % 16 ≠ 3) (lce : t % 16 ≠ 4) : Beside n own ts (pairsWritten u t l) (pairsWritten v t l) := by
  obtain ⟨blocks, -⟩ := cfgTarget_cases target
  refine .forAll (fun p mem _ _ h => h.regWrite still _ _ ?_) h
  have ok := good p mem
  unfold cfgPairOk at ok
  simp only [Bool.and_eq_true, decide_eq_true_eq] at ok
  rw [cfgBase_block target ok.1.1]
  omega

/-- What a CFG_WRITE that is written at once may change. -/
abbrev written_may : List Piece := [.regs, .lowHeld, .pts, .hold, .phc, .clk, .banks, .ch, .rings, .evq, .recq, .recLost,
  .recLostCls, .rtc, .msix, .msixPend, .ptp, .eth, .can, .mtr, .lce, .ble, .twn, .sec, .upd, .out]

theorem cfgWrite_writes (h : Ready s n.val 0x20 d) (good : ∀ p ∈ pairsOf d.payload, cfgPairOk d.target.toNat p.1 = true)
    (gates : ∀ p ∈ pairsOf d.payload, cfgUp s (cfgBase d.target.toNat + p.1.toNat) = true)
    (phc : d.target.toNat % 16 ≠ 2) (bnk : d.target.toNat % 16 ≠ 3) (lce : d.target.toNat % 16 ≠ 4) :
    ∃ t, exec (.cfgWrite n d) s = .next t ∧ Frame written_may s t ∧ Completed s n.val 0x20 d 0 0 0 0 t ∧ ∀ o : Nat,
      rget t o = rget (forAll (pairsOf d.payload) (fun s p => regWrite s (cfgBase d.target.toNat + p.1.toNat) p.2) s) o := by
  obtain ⟨R, turn, still, e⟩ := cfgWrite_alone h
  have target := cfgWrite_target h
  have names : d.target = tgtOf (flightOf s n 0x20 d) := rfl
  have idle : cfgBusy { s with rings := R } d.target.toNat = false := by
    unfold cfgBusy
    split
    · exact absurd ‹_› phc
    · exact absurd ‹_› bnk
    · exact absurd ‹_› lce
    · rfl
  rw [← cfgWrite_input h] at good gates ⊢
  have start : Beside n (rowsOf n R) (nowTs s) s { s with rings := R } := ⟨R, s.msixPend, s.out, rfl, rfl, rfl⟩
  have beside := pairsWritten_beside still start target good phc bnk lce
  have wrote : Keeps written_may { s with rings := R }
      (pairsWritten { s with rings := R } d.target.toNat (pairsOf (flightOf s n 0x20 d).input)) :=
    .forAll (.refl _ _) fun _ _ h => h.step (regWrite_keeps ..) (by decide)
  rw [names] at good gates idle beside wrote phc bnk lce
  replace e := e.trans (congrArg (done s) ((opCfgWrite_writes (s := { s with rings := R }) good gates idle).trans
    (if_neg (by omega))))
  generalize pairsWritten { s with rings := R } (tgtOf (flightOf s n 0x20 d)).toNat
    (pairsOf (flightOf s n 0x20 d).input) = u at e wrote beside
  have stands : AtTurn s n (flightOf s n 0x20 d) u := AtTurn.of_ring turn (ring_ownRows beside.rows)
  refine completes ⟨_, e, ((rings_keeps.mono (by decide)).step wrote (by decide)).step (complete_keeps ..) (by decide)⟩ e
    ⟨Completed.close (completed_atTurn stands beside.time (by decide) (by decide) ..) s, fun o => ?_⟩
  rw [close_rget]
  exact ((complete_keeps ..).rget (by decide) o).trans (beside.rget o)

end

/-- Settles O32: clause by clause. -/
theorem configurationOperationsEffects : Obligations.ConfigurationOperationsEffects := by
  unfold Obligations.ConfigurationOperationsEffects
  intro s
  exact ⟨fun _ _ => cfgWrite_badPair, fun _ _ => cfgWrite_pending, fun _ _ => cfgWrite_closed, fun _ _ => cfgWrite_writes,
    fun _ _ => cfgWrite_waits, fun _ _ => cfgRead_returns, fun _ _ => cfgRead_closed⟩

end Sys2Proof.Proofs
end

section
/-! SUPPORT. Single bits of a word, and operations on the channels of a bank: one on a channel changes no other channel, and of the
registers only that channel's diagnostic latch (R159, R217, R220). -/

namespace Sys2Proof.Proofs

open Machine Laws

/-! ### Bits -/

section
variable {w : Word} {i j : Nat}

theorem bitOf_setBit_same {b : Bool} (h : i < 32) : bitOf (setBit w i b) i = b := by
  rw [setBit, bitOf_setFld _ _ _ _ _ h, if_pos (by omega), Nat.sub_self]
  cases b <;> rfl

theorem bitOf_setBit_other {b : Bool} (h : j < 32) (other : j ≠ i) : bitOf (setBit w i b) j = bitOf w j := by
  rw [setBit, bitOf_setFld _ _ _ _ _ h, if_neg (by omega)]

theorem fld_setBit_other {b : Bool} {hi lo : Nat} (h : hi < 32) (range : lo ≤ hi) (outside : hi < i ∨ i < lo) :
    fld (setBit w i b) hi lo = fld w hi lo := fld_setFld_other _ _ _ _ _ _ h range outside (Nat.le_refl i)

/-- A bit after bit `i` has been cleared. -/
theorem bitOf_clear (hj : j < 32) : bitOf (w &&& ~~~ (oneBit i)) j = (bitOf w j && !(j == i)) := by
  have single : (oneBit i).getLsbD j = (j == i) := by
    by_cases e : j = i
    · rw [e, beq_self_eq_true]
      exact bitOf_oneBit i (e ▸ hj)
    · rw [beq_eq_false_iff_ne.mpr e]
      exact bitOf_oneBit_other e
  rw [bitOf, BitVec.getLsbD_and, BitVec.getLsbD_not, single, decide_eq_true hj, Bool.true_and, bitOf]

end

/-! ### Which channels differ -/

/-- Of the channels only those listed changed, and of the registers only their diagnostic latches (R217). -/
structure OnChannels (l : List Nat) (s t : State) : Prop where
  chans : ChansOnly l s t
  latches : RegsOnly (l.map oLatch) s t

section
variable {l m : List Nat} {may : List Piece} {s t u : State} {c : Nat}

theorem OnChannels.refl : OnChannels l s s := ⟨fun _ _ => rfl, fun _ _ => rfl⟩

theorem OnChannels.trans (h : OnChannels l s t) (g : OnChannels l t u) : OnChannels l s u :=
  ⟨fun c hc => (g.chans c hc).trans (h.chans c hc), RegsOnly.trans h.latches g.latches⟩

theorem OnChannels.mono (h : OnChannels l s t) (hl : l ⊆ m) : OnChannels m s t :=
  ⟨fun c hc => h.chans c fun q => hc (hl q), RegsOnly.mono h.latches (List.map_subset _ hl)⟩

/-- An operation more, on one of the channels. -/
theorem OnChannels.step (h : OnChannels l s t) (g : OnChannels [c] t u) (hc : c ∈ l := by exact List.mem_singleton_self _) :
    OnChannels l s u := h.trans (g.mono (by simpa using hc))

/-- An operation more that changes no channel and no register. -/
theorem OnChannels.keep (h : OnChannels l s t) (g : Keeps may t u) (hc : Piece.ch ∉ may := by decide)
    (hr : Piece.regs ∉ may := by decide) : OnChannels l s u := h.trans ⟨fun c _ => g.chan hc c, RegsOnly.of_keeps g hr⟩

theorem OnChannels.ite {p : Prop} [Decidable p] (h : OnChannels l s t) (g : OnChannels l s u) :
    OnChannels l s (if p then t else u) := by split <;> assumption

theorem OnChannels.forAll {α : Type} {k : List α} {f : State → α → State} (h : OnChannels l s t)
    (hf : ∀ u, ∀ a ∈ k, OnChannels l s u → OnChannels l s (f u a)) : OnChannels l s (Machine.forAll k f t) := by
  unfold Machine.forAll
  induction k generalizing t with
  | nil => exact h
  | cons a k ih => exact ih (hf t a List.mem_cons_self h) fun u b hb => hf u b (List.mem_cons_of_mem a hb)

theorem OnChannels.close (h : OnChannels l s t) (r : State) : ChansOnly l s (Machine.close r t) :=
  fun c hc => (close_chan ..).trans (h.chans c hc)

/-- A register that is no channel's latch. -/
theorem OnChannels.rget (h : OnChannels l s t) {o : Nat} (ho : ∀ c, o ≠ oLatch c) : Machine.rget t o = Machine.rget s o := by
  refine h.latches o fun mem => ?_
  obtain ⟨c, -, e⟩ := List.mem_map.mp mem
  exact ho c e.symm

end

/-! ### One channel -/

section
variable (s : State) (c : Nat)

@[simp] theorem chan_modChan_same (f : Chan → Chan) : chan (modChan s c f) c = f (chan s c) := by
  rw [chan_modChan, if_pos rfl]

@[simp] theorem chan_setB_same (i : Nat) (v : Bool) :
    chan (setB s c i v) c = { chan s c with bdiag := setBit (chan s c).bdiag i v } := chan_modChan_same ..

@[simp] theorem chan_redoStage_same :
    chan (redoStage s c) c = { chan s c with bdiag := setBit (chan s c).bdiag 12 (stageOn s c) } := chan_setB_same ..

theorem setChan_onChannels (v : Chan) : OnChannels [c] s (setChan s c v) :=
  ⟨fun d hd => by rw [chan_setChan, if_neg (by simpa using hd)], fun _ _ => rfl⟩

theorem modChan_onChannels (f : Chan → Chan) : OnChannels [c] s (modChan s c f) := setChan_onChannels ..

theorem setB_onChannels (i : Nat) (v : Bool) : OnChannels [c] s (setB s c i v) := modChan_onChannels ..

theorem redoStage_onChannels : OnChannels [c] s (redoStage s c) := setB_onChannels ..

end

/-- How the statement of a command on one channel is met. -/
theorem completes_channel {may : List Piece} {s x : State} {o : Host.Outcome State Fault Refusal} {c : Nat} {E : State → Prop}
    (hk : ∃ u, o = .next (close s u) ∧ Keeps may s u) (ho : o = done s x) (only : OnChannels [c] s x) (he : E (close s x)) :
    ∃ t, o = .next t ∧ Frame may s t ∧ ChansOnly [c] s t ∧ E t := completes hk ho ⟨only.close s, he⟩

end Sys2Proof.Proofs
end

section
/-! Samples of digital inputs and of their counting paths (R173 to R179); the settlement of O12. -/

namespace Sys2Proof.Proofs

open Machine Laws

section
variable {s : State} (c : Fin 192) (mv : Nat)

theorem inputSample_filters (mode : isDigIn (appMode s c) = true) (run : (bank s (c / 16)).run = true) :
    ∃ t, exec (.inputSample c mv) s = .next t ∧ Frame [.ch] s t ∧ ChansOnly [c.val] s t ∧ (chan t c).fresh = false ∧
      (chan t c).samp = (if 9500 ≤ mv then true else if mv ≤ 8000 then false else !(chan s c).fresh && (chan s c).samp) ∧
      (chan t c).filt = (if (chan s c).fresh then (if (chan t c).samp then fld (appCh s c 4) 7 0 else 0)
        else if (chan t c).samp then min ((chan s c).filt + 1) (fld (appCh s c 4) 7 0) else (chan s c).filt - 1) ∧
      (chan t c).filtSt = (!bitOf (chan s c).bdiag 6 && (if (chan s c).fresh then (chan t c).samp
        else if (chan t c).filt = fld (appCh s c 4) 7 0 then true else if (chan t c).filt = 0 then false else (chan s c).filtSt)) ∧
      bitOf (chan t c).bdiag 13 = (chan t c).filtSt ∧ (chan t c).count = (chan s c).count := by
  refine completes_channel (execInputSample_keeps c mv s) (congrArg (done s) (if_neg (by simp [mode, run])))
    ((setChan_onChannels ..).step (setB_onChannels ..)) ?_
  simp only [close_chan, chan_setB_same, chan_setChan_same]
  refine ⟨trivial, rfl, ?_, ?_, bitOf_setBit_same (by decide), trivial⟩
  · cases (chan s c).fresh <;> rfl
  · rw [Bool.and_comm]
    cases (chan s c).fresh <;> rfl

theorem countPathSample_counts (mode : appMode s c = 2) (run : (bank s (c / 16)).run = true) :
    ∃ t, exec (.countPathSample c mv) s = .next t ∧ Frame [.ch] s t ∧ ChansOnly [c.val] s t ∧ (chan t c).cfresh = false ∧
      (chan t c).csamp = (if 9500 ≤ mv then true else if mv ≤ 8000 then false else !(chan s c).cfresh && (chan s c).csamp) ∧
      (chan t c).count = ((chan s c).count + (if (chan s c).cfresh || (chan t c).cfiltSt == (chan s c).cfiltSt then 0
        else match fld (appCh s c 4) 13 12 with
          | 0 => (chan t c).cfiltSt.toNat
          | 1 => (chan s c).cfiltSt.toNat
          | _ => 1)) % 2 ^ 32 := by
  refine completes_channel (execCountPathSample_keeps c mv s) (congrArg (done s) (if_neg (by simp [mode, run])))
    (setChan_onChannels ..) ?_
  simp only [close_chan, chan_setChan_same]
  refine ⟨trivial, rfl, ?_⟩
  generalize (if (chan s c).cfresh = true then _ else _ : Nat × Bool) = r
  generalize (chan s c).cfresh = first, (chan s c).cfiltSt = before, r.2 = after, fld (appCh s c 4) 13 12 = edges
  congr 2
  match edges with
  | 0 | 1 | _ + 2 => cases first <;> cases before <;> cases after <;> rfl

end

/-- Settles O12: the filter of the level, and that of the counting path. -/
theorem inputSampleCommandsEffects : Obligations.InputSampleCommandsEffects := by
  unfold Obligations.InputSampleCommandsEffects
  intro s
  exact ⟨fun c mv => inputSample_filters c mv, fun c mv => countPathSample_counts c mv⟩

end Sys2Proof.Proofs
end

section
/-! What a bank finds on its channels, and the report of what a diagnostic latch has gathered (R178, R191, R197, R198, R220, R230,
R253); the settlement of O10. -/

namespace Sys2Proof.Proofs

open Machine Laws

section
variable {s : State} (c : Fin 192)

/-- A finding that is one bit of the bank's own diagnostic word. -/
theorem finds_bit {o : Host.Outcome State Fault Refusal} {i : Nat} {v : Bool}
    (hk : ∃ u, o = .next (close s u) ∧ Keeps [.ch] s u) (ho : o = done s (setB s c i v)) :
    ∃ t, o = .next t ∧ Frame [.ch] s t ∧ ChansOnly [c.val] s t ∧
      chan t c = { chan s c with bdiag := setBit (chan s c).bdiag i v } :=
  completes_channel hk ho (setB_onChannels ..) ((close_chan ..).trans (chan_setB_same ..))

theorem openWire_found (mode : isDigIn (appMode s c) = true) (det : openDet s c = true) (run : (bank s (c / 16)).run = true) :
    ∃ t, exec (.openWireDetect c true) s = .next t ∧ Frame [.ch] s t ∧ ChansOnly [c.val] s t ∧
      bitOf (chan t c).bdiag 6 = true ∧ (chan t c).filtSt = false ∧ bitOf (chan t c).bdiag 13 = false := by
  refine completes_channel (execOpenWireDetect_keeps c true s)
    (congrArg (done s) ((if_neg (by simp [mode, det, run])).trans (if_pos rfl)))
    (((modChan_onChannels ..).step (setB_onChannels ..)).step (setB_onChannels ..)) ?_
  simp only [close_chan, chan_setB_same, chan_modChan_same]
  refine ⟨?_, trivial, bitOf_setBit_same (by decide)⟩
  rw [bitOf_setBit_other (by decide) (by decide), bitOf_setBit_same (by decide)]

theorem openWire_gone (mode : isDigIn (appMode s c) = true) (det : openDet s c = true) (run : (bank s (c / 16)).run = true) :
    ∃ t, exec (.openWireDetect c false) s = .next t ∧ Frame [.ch] s t ∧ ChansOnly [c.val] s t ∧
      chan t c = { chan s c with bdiag := setBit (chan s c).bdiag 6 false } :=
  finds_bit c (execOpenWireDetect_keeps c false s)
    (congrArg (done s) ((if_neg (by simp [mode, det, run])).trans (if_neg Bool.false_ne_true)))

theorem openLoad_reported (o : Bool) (mode : isDigOut (appMode s c) = true) (det : openDet s c = true)
    (run : (bank s (c / 16)).run = true) (driving : (bank s (c / 16)).driving = true)
    (findable : o = true → appMode s c = 5 → stageOn s c = true ∧ 1000 ≤ (chan s c).pwmOn) :
    ∃ t, exec (.openLoadDetect c o) s = .next t ∧ Frame [.ch] s t ∧ ChansOnly [c.val] s t ∧
      chan t c = { chan s c with bdiag := setBit (chan s c).bdiag 6 o } := by
  have shown : (!o || openFindable s c) = true := by
    unfold openFindable
    cases o with
    | false => rfl
    | true =>
      by_cases pwm : appMode s c = 5
      · simp [findable rfl pwm]
      · simp [pwm]
  exact finds_bit c (execOpenLoadDetect_keeps c o s) (congrArg (done s) (if_pos (by simp only [mode, det, run, driving, shown]; rfl)))

theorem extDrive_reported (d : Bool) (mode : isDigOut (appMode s c) = true) (run : (bank s (c / 16)).run = true)
    (driving : (bank s (c / 16)).driving = true) :
    ∃ t, exec (.extDriveDetect c d) s = .next t ∧ Frame [.ch] s t ∧ ChansOnly [c.val] s t ∧
      chan t c = { chan s c with bdiag := setBit (chan s c).bdiag 9 d } :=
  finds_bit c (execExtDriveDetect_keeps c d s) (congrArg (done s) (if_pos (by simp [mode, run, driving])))

theorem compliance_reported (x : Bool) (mode : appMode s c = 8) (run : (bank s (c / 16)).run = true)
    (driving : (bank s (c / 16)).driving = true) :
    ∃ t, exec (.complianceChange c x) s = .next t ∧ Frame [.ch] s t ∧ ChansOnly [c.val] s t ∧
      chan t c = { chan s c with bdiag := setBit (chan s c).bdiag 16 x } :=
  finds_bit c (execComplianceChange_keeps c x s) (congrArg (done s) (if_pos (by simp [mode, run, driving])))

theorem voltageShort_reported (x : Bool) (mode : appMode s c = 0xA) (run : (bank s (c / 16)).run = true) :
    ∃ t, exec (.voltageOutputShort c x) s = .next t ∧ Frame [.ch] s t ∧ ChansOnly [c.val] s t ∧
      chan t c = { chan s c with bdiag := setBit (chan s c).bdiag 7 x } :=
  finds_bit c (execVoltageOutputShort_keeps c x s) (congrArg (done s) (if_pos (by simp [mode, run])))

theorem currentOpen_found (mode : appMode s c = 8) (det : openDet s c = true) (run : (bank s (c / 16)).run = true)
    (driving : (bank s (c / 16)).driving = true) (short : bitOf (chan s c).bdiag 16 = true)
    (commanded : fle (dec 1 1) (chan s c).applied = true) :
    ∃ t, exec (.currentOutputOpen c true) s = .next t ∧ Frame [.ch] s t ∧ ChansOnly [c.val] s t ∧
      chan t c = { chan s c with bdiag := setBit (chan s c).bdiag 6 true } :=
  finds_bit c (execCurrentOutputOpen_keeps c true s) (congrArg (done s) ((if_neg (by simp [mode, det, run, driving])).trans
    ((if_pos rfl).trans (if_pos (Bool.and_eq_true_iff.mpr ⟨short, commanded⟩)))))

theorem currentOpen_gone (mode : appMode s c = 8) (det : openDet s c = true) (run : (bank s (c / 16)).run = true)
    (driving : (bank s (c / 16)).driving = true) :
    ∃ t, exec (.currentOutputOpen c false) s = .next t ∧ Frame [.ch] s t ∧ ChansOnly [c.val] s t ∧
      chan t c = { chan s c with bdiag := setBit (chan s c).bdiag 6 false } :=
  finds_bit c (execCurrentOutputOpen_keeps c false s)
    (congrArg (done s) ((if_neg (by simp [mode, det, run, driving])).trans (if_neg Bool.false_ne_true)))

theorem latchReport_nothing (none : (chan s c).latPend = 0) :
    ∃ t, exec (.diagLatchReport c) s = .next t ∧ Frame [.ch] s t ∧ ChansOnly [c.val] s t ∧
      chan t c = { chan s c with latOpen := false } :=
  have e : exec (.diagLatchReport c) s = done s (setChan s c { chan s c with latOpen := false }) := congrArg (done s) (if_pos none)
  completes_channel ⟨_, e, setChan_keeps ..⟩ e (setChan_onChannels ..) ((close_chan ..).trans (chan_setChan_same ..))

theorem latchReport_gathered (some_ : (chan s c).latPend ≠ 0) :
    ∃ t, exec (.diagLatchReport c) s = .next t ∧ Frame [.ch, .evq] s t ∧ ChansOnly [c.val] s t ∧
      chan t c = { chan s c with latPend := 0, latOpen := true } ∧ Noted (oLatch c) (chan s c).latPend t := by
  have told := latchReport_keeps (setChan s c { chan s c with latPend := 0, latOpen := true }) c (chan s c).latPend
  refine completes_channel (execDiagLatchReport_keeps c s) (congrArg (done s) (if_neg some_))
    ((setChan_onChannels ..).keep told) ⟨?_, Noted.close (noted_regEvent ..) s⟩
  rw [close_chan, told.chan (by decide), chan_setChan_same]

end

/-- Settles O10: clause by clause. -/
theorem detectionCommandsEffects : Obligations.DetectionCommandsEffects := by
  unfold Obligations.DetectionCommandsEffects
  intro s
  exact ⟨fun c => openWire_found c, fun c => openWire_gone c, fun c o => openLoad_reported c o, fun c d => extDrive_reported c d,
    fun c x => compliance_reported c x, fun c x => voltageShort_reported c x, fun c => currentOpen_found c,
    fun c => currentOpen_gone c, fun c => latchReport_nothing c, fun c => latchReport_gathered c⟩

end Sys2Proof.Proofs
end

section
/-! Faults of output stages, their retries, and shedding (R192 to R200); the settlement of O9. -/

namespace Sys2Proof.Proofs

open Machine Laws

/-! ### A stage that shuts down (R192 to R194) -/

section
variable {s : State} {c : Nat}

/-- A stage that has tripped or is latched off does not conduct. -/
theorem stageOn_off (h : (chan s c).tripped = true ∨ bitOf (chan s c).bdiag 10 = true) : stageOn s c = false := by
  rcases h with h | h <;> simp [stageOn, stageLive, h]

theorem latch_of_live (live : stageLive s c = true) : bitOf (chan s c).bdiag 10 = false := by
  unfold stageLive at live
  simp only [Bool.and_eq_true, Bool.not_eq_true'] at live
  exact live.1.2

theorem digitalLive_live (live : digitalLive s c = true) : stageLive s c = true := (Bool.and_eq_true_iff.mp live).2

theorem digitalOn_live (on : digitalOn s c = true) : stageLive s c = true :=
  (Bool.and_eq_true_iff.mp (Bool.and_eq_true_iff.mp on).2).1

/-- The fault bit set by a shutdown, with the latch where no retry is left. -/
def shutWord (s : State) (c bit : Nat) : Word :=
  let w := setBit (chan s c).bdiag bit true
  if retryMax s c != 15 && retryMax s c ≤ retryUsed s c then setBit w 10 true else w

theorem shutdown_onChannels (bit : Nat) : OnChannels [c] s (shutdown s c bit) := by
  unfold shutdown
  have shut := (modChan_onChannels s c fun h => { h with tripped := true }).step (setB_onChannels _ c bit true)
  exact (OnChannels.ite (shut.step (setB_onChannels ..)) shut).step (redoStage_onChannels ..)

theorem chan_shutdown (bit : Nat) : ∃ v, chan (shutdown s c bit) c =
    { chan s c with tripped := true, bdiag := setBit (shutWord s c bit) 12 v } := by
  unfold shutdown shutWord
  dsimp only
  rw [chan_redoStage_same]
  split <;> simp only [chan_setB_same, chan_modChan_same] <;> exact ⟨_, rfl⟩

/-- A conducting stage that shuts down with fault bit 7 or 8. -/
theorem close_shutdown {bit : Nat} (fault : bit = 7 ∨ bit = 8) (on : digitalOn s c = true) :
    (chan (close s (shutdown s c bit)) c).tripped = true ∧ stageOn (close s (shutdown s c bit)) c = false ∧
    bitOf (chan (close s (shutdown s c bit)) c).bdiag bit = true ∧
    bitOf (chan (close s (shutdown s c bit)) c).bdiag 10 = (retryMax s c != 15 && decide (retryMax s c ≤ retryUsed s c)) := by
  obtain ⟨v, e⟩ := chan_shutdown (s := s) (c := c) bit
  have unlatched : bitOf (chan s c).bdiag 10 = false := latch_of_live (digitalOn_live on)
  rw [← close_chan s] at e
  have tripped : (chan (close s (shutdown s c bit)) c).tripped = true := by rw [e]
  refine ⟨tripped, stageOn_off (.inl tripped), ?_, ?_⟩ <;> rw [e, bitOf_setBit_other (by omega) (by omega), shutWord]
  · split
    · rw [bitOf_setBit_other (by omega) (by omega), bitOf_setBit_same (by omega)]
    · exact bitOf_setBit_same (by omega)
  · split
    · rename_i last
      rw [bitOf_setBit_same (by decide), last]
    · rename_i more
      rw [bitOf_setBit_other (by decide) (by omega), unlatched, Bool.eq_false_iff.mpr more]

end

/-! ### The clauses of O9 -/

section
variable {s : State}

theorem short_shutsDown (c : Fin 192) (on : digitalOn s c = true) :
    ∃ t, exec (.shortShutdown c) s = .next t ∧ Frame [.ch] s t ∧ ChansOnly [c.val] s t ∧
      (chan t c).tripped = true ∧ stageOn t c = false ∧ bitOf (chan t c).bdiag 7 = true ∧
      bitOf (chan t c).bdiag 10 = (retryMax s c != 15 && decide (retryMax s c ≤ retryUsed s c)) :=
  completes_channel (execShortShutdown_keeps c s) (congrArg (done s) (if_pos on)) (shutdown_onChannels 7)
    (close_shutdown (.inl rfl) on)

theorem overload_shutsDown (c : Fin 192) (on : digitalOn s c = true) :
    ∃ t, exec (.overloadShutdown c) s = .next t ∧ Frame [.ch] s t ∧ ChansOnly [c.val] s t ∧
      (chan t c).tripped = true ∧ stageOn t c = false ∧ bitOf (chan t c).bdiag 8 = true ∧
      bitOf (chan t c).bdiag 10 = (retryMax s c != 15 && decide (retryMax s c ≤ retryUsed s c)) :=
  completes_channel (execOverloadShutdown_keeps c s) (congrArg (done s) (if_pos on)) (shutdown_onChannels 8)
    (close_shutdown (.inr rfl) on)

theorem retry_counts (c : Fin 192) (tripped : (chan s c).tripped = true) (unlatched : getB s c 10 = false)
    (on : (chan s c).applied ≠ 0) (run : (bank s (c / 16)).run = true) :
    ∃ t, exec (.outputRetry c) s = .next t ∧ Frame [.ch] s t ∧ ChansOnly [c.val] s t ∧ (chan t c).tripped = false ∧
      retryUsed t c = min 15 (retryUsed s c + 1) ∧ (chan t c).applied = (chan s c).applied := by
  refine completes_channel (execOutputRetry_keeps c s)
    (congrArg (done s) (if_neg (by rw [tripped, unlatched, run, bne_iff_ne.mpr on]; decide)))
    ((modChan_onChannels ..).step (redoStage_onChannels ..)) ?_
  simp only [retryUsed, close_chan, chan_redoStage_same, chan_modChan_same]
  refine ⟨trivial, ?_, trivial⟩
  rw [fld_setBit_other (by decide) (by decide) (by decide), fld_setFld_same _ _ _ _ (by decide) (by decide)]
  omega

theorem fault_clears (c : Fin 192) (long : Bool) (live : digitalLive s c = true) :
    ∃ t, exec (.faultClear c long) s = .next t ∧ Frame [.ch] s t ∧ ChansOnly [c.val] s t ∧
      bitOf (chan t c).bdiag 7 = false ∧ bitOf (chan t c).bdiag 8 = false ∧
      retryUsed t c = (if long then 0 else retryUsed s c) := by
  have cleared := (setB_onChannels s c 7 false).step (setB_onChannels _ c 8 false)
  refine completes_channel (execFaultClear_keeps c long s) (congrArg (done s) (if_neg (by simp [live])))
    (OnChannels.ite (cleared.step (modChan_onChannels ..)) cleared) ?_
  have short : bitOf (setBit (setBit (chan s c).bdiag 7 false) 8 false) 7 = false := by
    rw [bitOf_setBit_other (by decide) (by decide), bitOf_setBit_same (by decide)]
  have overload : bitOf (setBit (setBit (chan s c).bdiag 7 false) 8 false) 8 = false := bitOf_setBit_same (by decide)
  cases long
  · simp only [retryUsed, close_chan, Bool.false_eq_true, if_false, chan_setB_same]
    exact ⟨short, overload, by rw [fld_setBit_other, fld_setBit_other] <;> decide⟩
  · simp only [retryUsed, close_chan, if_true, chan_modChan_same, chan_setB_same]
    rw [bitOf_setFld _ _ _ _ _ (by decide), bitOf_setFld _ _ _ _ _ (by decide)]
    exact ⟨short, overload, fld_setFld_same _ _ _ _ (by decide) (by decide)⟩

theorem load_sheds (b : Fin 12) (i : Fin 16) (live : digitalLive s (16 * b.val + i.val) = true) :
    ∃ t, exec (.loadShed b i) s = .next t ∧ Frame [.regs, .ch, .evq] s t ∧ ChansOnly [16 * b.val + i.val] s t ∧
      RegsOnly [oBank b + 0x18] s t ∧ bitOf (chan t (16 * b.val + i.val)).bdiag 10 = true ∧
      bitOf (chan t (16 * b.val + i.val)).bdiag 11 = true ∧ stageOn t (16 * b.val + i.val) = false ∧
      Raised (oBank b + 0x18) 7 s t := by
  let c := 16 * b.val + i.val
  let u := redoStage (setB (setB s c 11 true) c 10 true) c
  have shed : Keeps [.ch] s u :=
    ((setB_keeps ..).trans (setB_keeps ..)).trans (redoStage_keeps ..)
  have e : exec (.loadShed b i) s = done s (bankEvent u b 0x80 []) := congrArg (done s) (if_neg (by simp [live]))
  have told : chan (close s (bankEvent u b 0x80 [])) c = chan u c := by
    rw [close_chan, (bankEvent_keeps ..).chan (by decide)]
  have latched : bitOf (chan (close s (bankEvent u b 0x80 [])) c).bdiag 10 = true := by
    rw [told, chan_redoStage_same, bitOf_setBit_other (by decide) (by decide), chan_setB_same, bitOf_setBit_same (by decide)]
  refine completes (execLoadShed_keeps b i s) e ⟨?_, ?_, latched, ?_, stageOn_off (.inr latched), ?_⟩
  · intro d hd
    rw [close_chan, (bankEvent_keeps ..).chan (by decide)]
    exact (((setB_onChannels ..).step (setB_onChannels ..)).step (redoStage_onChannels ..)).chans d hd
  · exact regsOnly_close_raise s _ _ _ _ _ _ (RegsOnly.of_keeps shed (by decide)) (List.mem_singleton_self _)
  · rw [told, chan_redoStage_same, bitOf_setBit_other (by decide) (by decide), chan_setB_same,
      bitOf_setBit_other (by decide) (by decide), chan_setB_same, bitOf_setBit_same (by decide)]
  · exact raised_close s (w32 b) 0 true [] (by decide) (shed.rget (by decide) _)

end

/-- Settles O9: clause by clause. -/
theorem outputFaultCommandsEffects : Obligations.OutputFaultCommandsEffects := by
  unfold Obligations.OutputFaultCommandsEffects
  intro s
  exact ⟨short_shutsDown, overload_shutsDown, retry_counts, fault_clears, load_sheds⟩

end Sys2Proof.Proofs
end

section
/-! SUPPORT. Diagnostic words, safe states and their causes: what each operation of a bank leaves of its channels and of itself
(R201 to R210, R219, R220). -/

namespace Sys2Proof.Proofs

open Machine Laws

/-! ### Diagnostic words (R219, R220) -/

section
variable (s : State) (c : Nat)

theorem latchRise_onChannels (rise : Word) : OnChannels [c] s (latchRise s c rise) := by
  unfold latchRise
  extract_lets +onlyGivenNames -merge -useContext new x h
  have latched : OnChannels [c] s x :=
    ⟨fun _ _ => rfl, fun p hp => by rw [rget_ror, if_neg (by simpa using hp)]⟩
  exact .ite .refl (.ite (latched.step (setChan_onChannels ..))
    ((latched.step (setChan_onChannels ..)).keep (latchReport_keeps ..)))

/-- Of its channel the report of latch bits moves only what waits for the end of the window. -/
theorem chan_latchRise (rise : Word) : ∃ p o, chan (latchRise s c rise) c = { chan s c with latPend := p, latOpen := o } := by
  unfold latchRise
  dsimp only
  split
  · exact ⟨_, _, rfl⟩
  · split
    · exact ⟨_, _, chan_setChan_same ..⟩
    · rw [(latchReport_keeps ..).chan (by decide)]
      exact ⟨_, _, chan_setChan_same ..⟩

theorem failValue_stands {p : Prop} [Decidable p] : OnChannels [c] s (if p then failValue s c else s) ∧
    chan (if p then failValue s c else s) c = chan s c := by
  have k := failValue_keeps s c
  split
  · exact ⟨OnChannels.refl.keep k, k.chan (by decide) c⟩
  · exact ⟨.refl, rfl⟩

theorem putDiag_onChannels (w : Word) : OnChannels [c] s (putDiag s c w) := by
  unfold putDiag
  extract_lets +onlyGivenNames -merge -useContext w old _ x1 x2 x3
  have h3 : OnChannels [c] s x3 :=
    ((setChan_onChannels s c { chan s c with diag := w }).keep (pset_keeps ..)).step (latchRise_onChannels ..)
  exact h3.step (failValue_stands _ _).1

/-- A diagnostic word replaced leaves of its channel all but the word and the window of its latch. -/
theorem chan_putDiag (w : Word) :
    ∃ p o, chan (putDiag s c w) c = { chan s c with diag := fixDiag s c w, latPend := p, latOpen := o } := by
  unfold putDiag
  extract_lets +onlyGivenNames -merge -useContext w old _ x1 x2 x3
  obtain ⟨p, o, e⟩ := chan_latchRise x2 c (w &&& ~~~ old)
  have word : chan x2 c = { chan s c with diag := w } := ((pset_keeps ..).chan (by decide) c).trans (chan_setChan_same ..)
  rw [word] at e
  exact ⟨p, o, (failValue_stands ..).2.trans e⟩

theorem setDiagBit_onChannels (i : Nat) (v : Bool) : OnChannels [c] s (setDiagBit s c i v) :=
  (setB_onChannels s c i v).step (putDiag_onChannels ..)

theorem redoDiag_onChannels : OnChannels [c] s (redoDiag s c) := putDiag_onChannels ..

/-- FS_LOW follows the field supply of the channel's bank (R201). -/
theorem bitOf_fixDiag_supply (w : Word) : bitOf (fixDiag s c w) 5 = !(bank s (c / 16)).fsGood := by
  have supply (x : Word) (v : Bool) : bitOf (setBit (setBit x 1 v) 5 (!(bank s (c / 16)).fsGood)) 5 = !(bank s (c / 16)).fsGood :=
    bitOf_setBit_same (by decide)
  have other (x : Word) {i : Nat} {v : Bool} (h : 5 ≠ i) : bitOf (setBit x i v) 5 = bitOf x 5 := bitOf_setBit_other (by decide) h
  unfold fixDiag
  dsimp only
  split
  · rw [bitOf, BitVec.getLsbD_and]
    exact (Bool.and_true _).trans (supply _ _)
  split
  · rw [other _ (by decide), supply]
  split
  · rw [other _ (by decide), supply]
  · rw [other _ (by decide), other _ (by decide), other _ (by decide), supply]

end

/-! ### The sixteen channels of a bank -/

theorem mem_bankChans {b c : Nat} : c ∈ bankChans b ↔ ∃ i < 16, 16 * b + i = c := by
  simp [bankChans, upto]

theorem mem_bankChans_add (b : Nat) {i : Nat} (h : i < 16) : 16 * b + i ∈ bankChans b := mem_bankChans.mpr ⟨i, h, rfl⟩

theorem bank_of_mem {b c : Nat} (h : c ∈ bankChans b) : c / 16 = b := by
  obtain ⟨i, hi, rfl⟩ := mem_bankChans.mp h
  omega

/-- An operation made for each channel of a list, each on its own channel: what one leaves of its channel stands at the end. -/
theorem forAll_channels {may : List Piece} {f : State → Nat → State} {P : Chan → Prop} (keeps : ∀ u c, Keeps may u (f u c))
    (own : ∀ u c, OnChannels [c] u (f u c)) {s : State} {l : List Nat}
    (effect : ∀ u, Keeps may s u → ∀ c ∈ l, P (chan (f u c) c)) : ∀ c ∈ l, P (chan (forAll l f s) c) := by
  unfold forAll
  induction l generalizing s with
  | nil => exact fun _ hc => absurd hc List.not_mem_nil
  | cons a l ih =>
    have rest : OnChannels l (f s a) (l.foldl f (f s a)) :=
      OnChannels.forAll .refl fun u c hc h => h.step (own u c) hc
    intro c hc
    by_cases later : c ∈ l
    · exact ih (fun u hu c hc => effect u ((keeps s a).trans hu) c (List.mem_cons_of_mem a hc)) c later
    · obtain rfl : c = a := (List.mem_cons.mp hc).resolve_right later
      rw [List.foldl_cons, rest.chans c later]
      exact effect s (.refl _ _) c hc

/-! ### Output stages and safe states (R205 to R210) -/

section
variable (s : State) (c : Nat)

theorem applyNow_onChannels (v : Word) : OnChannels [c] s (applyNow s c v) := by
  have applied := modChan_onChannels s c fun h => { h with applied := v }
  exact (OnChannels.ite (applied.step (modChan_onChannels ..)) applied).step (redoStage_onChannels ..)

theorem startPeriod_onChannels (per : Nat) : OnChannels [c] s (startPeriod s c per) :=
  (modChan_onChannels ..).step (redoStage_onChannels ..)

theorem safeChan_onChannels : OnChannels [c] s (safeChan s c) := by
  unfold safeChan
  extract_lets +onlyGivenNames -merge -useContext m v hold x y
  have hx : OnChannels [c] s x := (applyNow_onChannels ..).step (modChan_onChannels ..)
  have hy : OnChannels [c] s y := .ite (hx.step (startPeriod_onChannels ..)) hx
  exact .ite .refl (.ite (hy.step (modChan_onChannels ..)) hy)

end

section
variable {s : State} {b : Nat}

/-- The register of a bank's events is no channel's latch. -/
theorem bankReg_ne_latch (b : Nat) {k : Nat} (h : k < 0x100) (c : Nat) : oBank b + k ≠ oLatch c := by
  unfold oLatch oChan oBank
  omega

/-- A bank enters its safe state by its channels, and tells it (R205, R210). -/
theorem enterSafe_eq : ∃ u, enterSafe s b = safeEvent u b 0x20 ∧ OnChannels (bankChans b) s u := by
  refine ⟨_, rfl, .forAll (.forAll ?_ ?_) ?_⟩
  · exact OnChannels.refl.keep (modBank_keeps s b _)
  · exact fun u c hc h => h.step (safeChan_onChannels ..) hc
  · exact fun u c hc h => h.step (setDiagBit_onChannels ..) hc

theorem oneBit_and_clear {x : Word} {i : Nat} (h : bitOf x i = false) : oneBit i &&& x = 0 := by
  rw [← new_oneBit h, BitVec.and_assoc]
  simp

/-- Entering or leaving the safe state sets its bit; where it was clear the host is told (R216). -/
theorem raised_safeEvent {i : Nat} (h : i < 32) : Raised (oBank b + 0x18) i s (safeEvent s b (oneBit i)) := by
  unfold safeEvent
  dsimp only
  split
  · exact raised_raiseBits _ _ _ _ _ _ _ h
  · rename_i stands
    have set : bitOf (rget s (oBank b + 0x18)) i = true := by
      by_contra clear
      exact stands (oneBit_and_clear (Bool.not_eq_true _ ▸ clear))
    have not_new : oneBit i &&& ~~~ (rget s (oBank b + 0x18)) = 0 :=
      oneBit_and_clear (by rw [bitOf, BitVec.getLsbD_not, decide_eq_true h]; simpa [bitOf] using set)
    exact ⟨by rw [rget_regEvent, or_none not_new], fun clear => absurd (set.symm.trans clear) (by decide)⟩

theorem banksOnly_addCause (bit : Nat) : BanksOnly [b] s (addCause s b bit) :=
  fun d hd => by rw [bank_addCause, if_neg (by simpa using hd)]

theorem bank_addCause_same (s : State) (b bit : Nat) : bank (addCause s b bit) b = safeWith (bank s b) bit := by
  rw [bank_addCause, if_pos rfl]

/-- A cause moves the channels of its bank only, as the bank enters its safe state. -/
theorem addCause_chans (bit : Nat) : ChansOnly (bankChans b) s (addCause s b bit) := by
  unfold addCause
  dsimp only
  split
  · exact fun _ _ => rfl
  · obtain ⟨u, e, only⟩ := enterSafe_eq (s := modBank s b fun k => { k with causes := k.causes ||| oneBit bit }) (b := b)
    rw [e]
    exact fun c hc => ((safeEvent_keeps ..).chan (by decide) c).trans (only.chans c hc)

/-- The first cause takes its bank into the safe state, which is told (R205, R210). -/
theorem addCause_raised (bit : Nat) (out : (bank s b).safe = false) : Raised (oBank b + 0x18) 5 s (addCause s b bit) := by
  obtain ⟨u, e, only⟩ := enterSafe_eq (s := modBank s b fun k => { k with causes := k.causes ||| oneBit bit }) (b := b)
  rw [addCause, if_neg (by rw [bank_modBank, if_pos rfl]; simp [out]), e]
  exact Raised.of_eq (raised_safeEvent (i := 5) (by decide)) (only.rget (bankReg_ne_latch b (by decide)))

end

/-! ### Causes that clear (R205, R207) -/

section
variable (s : State) (b : Nat)

@[simp] theorem bank_modBank_same (f : Bank → Bank) : bank (modBank s b f) b = f (bank s b) := by
  rw [bank_modBank, if_pos rfl]

theorem banksOnly_modBank (f : Bank → Bank) : BanksOnly [b] s (modBank s b f) :=
  fun d hd => by rw [bank_modBank, if_neg (by simpa using hd)]

/-- A cause clears where its condition is met. -/
def dropMet (bit : Nat) : State := if clearable s b bit then dropCause s b bit else s

theorem releaseMet_eq : releaseMet s b = dropMet (dropMet (dropMet s b 3) b 6) b 8 := rfl

/-- Nothing but the causes moves. -/
theorem bank_dropMet (bit : Nat) : ∃ w, bank (dropMet s b bit) b = { bank s b with causes := w } ∧
    ∀ i < 32, bitOf w i = (bitOf (bank s b).causes i && !(i == bit && clearable s b bit)) := by
  unfold dropMet
  split
  · rename_i met
    exact ⟨_, bank_modBank_same .., fun i hi => by rw [bitOf_clear hi, met, Bool.and_true]⟩
  · rename_i unmet
    exact ⟨(bank s b).causes, rfl, fun i _ => by rw [Bool.eq_false_iff.mpr unmet, Bool.and_false, Bool.not_false, Bool.and_true]⟩

theorem banksOnly_dropMet (bit : Nat) : BanksOnly [b] s (dropMet s b bit) := by
  unfold dropMet
  split
  · exact banksOnly_modBank s b _
  · exact fun _ _ => rfl

theorem clearable_congr {t : State} {w : Word} (e : bank t b = { bank s b with causes := w }) (bit : Nat) :
    clearable t b bit = clearable s b bit := by
  unfold clearable
  rw [e]

theorem banksOnly_releaseMet : BanksOnly [b] s (releaseMet s b) := by
  rw [releaseMet_eq]
  exact fun d hd => (banksOnly_dropMet _ _ _ d hd).trans ((banksOnly_dropMet _ _ _ d hd).trans (banksOnly_dropMet _ _ _ d hd))

/-- WDOG, OVERTEMP and FS clear where their condition is met; nothing else of the bank moves (R207). -/
theorem bank_releaseMet : ∃ w, bank (releaseMet s b) b = { bank s b with causes := w } ∧
    ∀ i < 32, bitOf w i = (bitOf (bank s b).causes i && !((i == 3 || i == 6 || i == 8) && clearable s b i)) := by
  obtain ⟨w3, e3, h3⟩ := bank_dropMet s b 3
  obtain ⟨w6, e6, h6⟩ := bank_dropMet (dropMet s b 3) b 6
  obtain ⟨w8, e8, h8⟩ := bank_dropMet (dropMet (dropMet s b 3) b 6) b 8
  rw [e3] at e6 h6
  rw [e6] at e8 h8
  refine ⟨w8, e8, fun i hi => ?_⟩
  rw [h8 i hi, h6 i hi, h3 i hi, clearable_congr _ _ e6, clearable_congr _ _ e3]
  by_cases i3 : i = 3
  · subst i3
    simp
  by_cases i6 : i = 6
  · subst i6
    simp
  by_cases i8 : i = 8
  · subst i8
    simp
  · simp [beq_eq_false_iff_ne.mpr i3, beq_eq_false_iff_ne.mpr i6, beq_eq_false_iff_ne.mpr i8]

end

end Sys2Proof.Proofs
end

section
/-! A bank's field supply, controller, temperature and watchdog (R201 to R204, R212); the settlement of O11. -/

namespace Sys2Proof.Proofs

open Machine Laws

/-! ### The field supply (R201) -/

section
variable {s : State} {b : Nat}

theorem setFsLow_onChannels (low : Bool) : OnChannels (bankChans b) s (setFsLow s b low) :=
  .forAll .refl fun _ _ hc h => h.step (setDiagBit_onChannels ..) hc

/-- FS_LOW of each of the bank's channels as the supply stands. -/
theorem setFsLow_shows (low : Bool) {i : Nat} (hi : i < 16) :
    bitOf (chan (setFsLow s b low) (16 * b + i)).diag 5 = !(bank s b).fsGood := by
  refine forAll_channels (P := fun h => bitOf h.diag 5 = !(bank s b).fsGood) (fun u c => setDiagBit_keeps u c 5 low)
    (fun u c => setDiagBit_onChannels u c 5 low) (fun u hu c hc => ?_) _ (mem_bankChans_add b hi)
  obtain ⟨p, o, e⟩ := chan_putDiag (setB u c 5 low) c (setBit (chan (setB u c 5 low) c).diag 5 low)
  rw [setDiagBit, e]
  exact (bitOf_fixDiag_supply ..).trans (by rw [(setB_keeps ..).bank (by decide), hu.bank (by decide), bank_of_mem hc])

/-- What a change of the field supply leaves: the reading, FS_LOW of every channel, and its event. -/
theorem close_supply {good : Bool} {low : Bool} {i : Nat} (hi : i < 32) (u : State)
    (hu : u = setFsLow (modBank s b fun k => { k with fsGood := good }) b low) :
    BanksOnly [b] s (close s (bankEvent u b (oneBit i) [])) ∧
    ChansOnly (bankChans b) s (close s (bankEvent u b (oneBit i) [])) ∧
    bank (close s (bankEvent u b (oneBit i) [])) b = { bank s b with fsGood := good } ∧
    Raised (oBank b + 0x18) i s (close s (bankEvent u b (oneBit i) [])) ∧
    ∀ j, j < 16 → bitOf (chan (close s (bankEvent u b (oneBit i) [])) (16 * b + j)).diag 5 = !good := by
  subst hu
  have changed := modBank_keeps s b fun k => { k with fsGood := good }
  have only := (OnChannels.refl.keep changed).trans (setFsLow_onChannels (b := b) low)
  have told := bankEvent_keeps (setFsLow (modBank s b fun k => { k with fsGood := good }) b low) b (oneBit i) []
  have banks (d : Nat) : bank (bankEvent (setFsLow (modBank s b fun k => { k with fsGood := good }) b low) b (oneBit i) []) d =
      bank (modBank s b fun k => { k with fsGood := good }) d :=
    (told.bank (by decide) d).trans ((setFsLow_keeps ..).bank (by decide) d)
  refine ⟨fun d hd => ?_, fun c hc => ?_, ?_, ?_, fun j hj => ?_⟩
  · rw [close_bank, banks]
    exact banksOnly_modBank s b _ d hd
  · rw [close_chan, told.chan (by decide)]
    exact only.chans c hc
  · rw [close_bank, banks, bank_modBank_same]
  · exact raised_close s (w32 b) 0 true [] hi (only.rget (bankReg_ne_latch b (by decide)))
  · rw [close_chan, told.chan (by decide), setFsLow_shows low hj, bank_modBank_same]

end

/-! ### The controller (R202) -/

section
variable (s : State) (c : Nat)

/-- A channel of a bank whose controller has reset: its stage and its count are lost. -/
def resetChan : State :=
  redoDiag (modChan s c fun h => { h with
    count := 0, cmd := 0, applied := 0, gotOut := false, tripped := false, zc := [], zcHold := false, pwmOn := 0,
    pwmPer := 0, pwmAt := 0, safePer := 0, bdiag := h.bdiag &&& 0x22 }) c

theorem resetChan_keeps : Keeps [.regs, .pts, .ch, .evq, .can, .ble] s (resetChan s c) :=
  ((modChan_keeps ..).mono (by decide)).trans (redoDiag_keeps ..)

theorem resetChan_onChannels : OnChannels [c] s (resetChan s c) := (modChan_onChannels ..).step (redoDiag_onChannels ..)

theorem resetChan_count : (chan (resetChan s c) c).count = 0 := by
  obtain ⟨p, o, e⟩ := chan_putDiag (modChan s c _) c _
  rw [resetChan, redoDiag, e, chan_modChan_same]

theorem stageOn_stopped (stopped : (bank s (c / 16)).run = false) : stageOn s c = false := by
  simp [stageOn, stageLive, stopped]

end

/-! ### The clauses of O11 -/

section
variable {s : State} (b : Fin 12)

abbrev health_may : List Piece := [.regs, .pts, .banks, .ch, .evq, .can, .ble]

theorem fieldSupply_isLost (good : (bank s b).fsGood = true) :
    ∃ t, exec (.fieldSupplyLost b) s = .next t ∧ Frame health_may s t ∧ BanksOnly [b.val] s t ∧ ChansOnly (bankChans b) s t ∧
      bank t b = { bank s b with fsGood := false } ∧ Raised (oBank b + 0x18) 2 s t ∧
      ∀ i, i < 16 → bitOf (chan t (16 * b + i)).diag 5 = true :=
  completes (execFieldSupplyLost_keeps b s) (congrArg (done s) (if_neg (by simp [good])))
    (close_supply (i := 2) (by decide) _ rfl)

theorem fieldSupply_comesGood (low : (bank s b).fsGood = false) :
    ∃ t, exec (.fieldSupplyGood b) s = .next t ∧ Frame health_may s t ∧ BanksOnly [b.val] s t ∧ ChansOnly (bankChans b) s t ∧
      bank t b = { bank s b with fsGood := true } ∧ Raised (oBank b + 0x18) 3 s t ∧
      ∀ i, i < 16 → bitOf (chan t (16 * b + i)).diag 5 = false :=
  completes (execFieldSupplyGood_keeps b s) (congrArg (done s) (if_neg (by simp [low])))
    (close_supply (i := 3) (by decide) _ rfl)

theorem controller_resets :
    ∃ t, exec (.bankControllerReset b) s = .next t ∧ Frame health_may s t ∧ BanksOnly [b.val] s t ∧ ChansOnly (bankChans b) s t ∧
      bank t b = bankLost (bank s b) s.base.holdOut ∧
      ∀ i, i < 16 → (chan t (16 * b + i)).count = 0 ∧ stageOn t (16 * b + i) = false := by
  let u := modBank s b fun k => bankLost k s.base.holdOut
  have all : Keeps [.regs, .pts, .ch, .evq, .can, .ble] u (forAll (bankChans b) resetChan u) :=
    .forAll (.refl _ _) fun v c h => h.trans (resetChan_keeps v c)
  have only : OnChannels (bankChans b) s (forAll (bankChans b) resetChan u) :=
    .forAll (OnChannels.refl.keep (modBank_keeps ..)) fun v c hc h => h.step (resetChan_onChannels v c) hc
  have lost : bank (close s (forAll (bankChans b) resetChan u)) b = bankLost (bank s b) s.base.holdOut := by
    rw [close_bank, all.bank (by decide), bank_modBank_same]
  refine completes (execBankControllerReset_keeps b s) (rfl : _ = done s (forAll (bankChans b) resetChan u))
    ⟨fun d hd => ?_, only.close s, lost, fun i hi => ⟨?_, stageOn_stopped _ _ ?_⟩⟩
  · rw [close_bank, all.bank (by decide)]
    exact banksOnly_modBank s b _ d hd
  · rw [close_chan]
    exact forAll_channels (P := fun h => h.count = 0) resetChan_keeps resetChan_onChannels (fun v _ c _ => resetChan_count v c)
      _ (mem_bankChans_add b hi)
  · rw [bank_of_mem (mem_bankChans_add b hi), lost]
    rfl

theorem bank_starts (stopped : (bank s b).run = false) (good : (bank s b).fsGood = true) :
    ∃ t, exec (.bankStart b) s = .next t ∧ Frame health_may s t ∧ BanksOnly [b.val] s t ∧
      bank t b = { bank s b with run := true, cfgDue := true, cfgAgain := false, confirmed := false, causes := (bank s b).causes ||| oneBit 8, safe := true } := by
  refine completes (execBankStart_keeps b s) (congrArg (done s) (if_neg (by simp [stopped, good])))
    ⟨fun d hd => ?_, ?_⟩
  · rw [close_bank, banksOnly_addCause _ d hd]
    exact banksOnly_modBank s b _ d hd
  · rw [close_bank, bank_addCause_same, bank_modBank_same]
    rfl

theorem bank_overheats (run : (bank s b).run = true) :
    ∃ t, exec (.bankOvertemp b) s = .next t ∧ Frame health_may s t ∧ BanksOnly [b.val] s t ∧
      bank t b = { bank s b with otClear := false, causes := (bank s b).causes ||| oneBit 6, safe := true } ∧
      (bitOf (bank s b).causes 6 = false → bitOf (rget t (oBank b + 0x18)) 4 = true) := by
  let u := addCause (modBank s b fun k => { k with otClear := false }) b 6
  have told : Keeps [.regs, .evq] u (if bitOf (bank s b).causes 6 then u else bankEvent u b 0x10 []) :=
    .ite (.refl _ _) (bankEvent_keeps ..)
  refine completes (execBankOvertemp_keeps b s) (congrArg (done s) (if_neg (by simp [run])))
    ⟨fun d hd => ?_, ?_, fun first => ?_⟩
  · rw [close_bank]
    exact (told.bank (by decide) d).trans ((banksOnly_addCause _ d hd).trans (banksOnly_modBank s b _ d hd))
  · rw [close_bank]
    exact (told.bank (by decide) b).trans (by rw [bank_addCause_same, bank_modBank_same]; rfl)
  · dsimp only
    rw [close_rget, first, if_neg Bool.false_ne_true, bankEvent, rget_raiseBits, if_pos rfl]
    exact bitOf_or_oneBit _ 4 (by decide)

theorem overtemp_clears (hot : bitOf (bank s b).causes 6 = true) :
    ∃ t, exec (.overtempClearable b) s = .next t ∧ Frame [.banks] s t ∧ BanksOnly [b.val] s t ∧ (bank t b).otClear = true ∧
      bitOf (bank t b).causes 6 = !autoRelease s b := by
  let u := modBank s b fun k => { k with otClear := true }
  have cool : bank u b = { bank s b with otClear := true } := bank_modBank_same ..
  by_cases auto : autoRelease s b = true
  · obtain ⟨w, e, bits⟩ := bank_releaseMet u b
    have met : clearable u b 6 = true := congrArg Bank.otClear cool
    refine completes (execOvertempClearable_keeps b s) (congrArg (done s) ((if_pos hot).trans (if_pos auto)))
      ⟨fun d hd => ?_, ?_, ?_⟩
    · rw [close_bank, banksOnly_releaseMet _ _ d hd]
      exact banksOnly_modBank s b _ d hd
    · rw [close_bank, e, cool]
    · rw [close_bank, e, auto, bits 6 (by decide), met]
      exact Bool.and_false _
  · refine completes (execOvertempClearable_keeps b s) (congrArg (done s) ((if_pos hot).trans (if_neg auto)))
      ⟨fun d hd => ?_, ?_, ?_⟩
    · rw [close_bank]
      exact banksOnly_modBank s b _ d hd
    · rw [close_bank, cool]
    · rw [close_bank, cool, Bool.eq_false_iff.mpr auto]
      exact hot

theorem watchdog_expires (run : (bank s b).run = true) :
    ∃ t, exec (.bankWatchdogExpiry b) s = .next t ∧ Frame health_may s t ∧ BanksOnly [b.val] s t ∧
      bank t b = { bank s b with heard := false, causes := (bank s b).causes ||| oneBit 3, safe := true } ∧
      bitOf (rget t (oBank b + 0x18)) 0 = true := by
  refine completes (execBankWatchdogExpiry_keeps b s) (congrArg (done s) (if_neg (by simp [run])))
    ⟨fun d hd => ?_, ?_, ?_⟩
  · rw [close_bank, (bankEvent_keeps ..).bank (by decide), banksOnly_addCause _ d hd]
    exact banksOnly_modBank s b _ d hd
  · rw [close_bank, (bankEvent_keeps ..).bank (by decide), bank_addCause_same, bank_modBank_same]
    rfl
  · rw [close_rget, bankEvent, rget_raiseBits, if_pos rfl]
    exact bitOf_or_oneBit _ 0 (by decide)

end

/-- Settles O11: clause by clause. -/
theorem bankHealthCommandsEffects : Obligations.BankHealthCommandsEffects := by
  unfold Obligations.BankHealthCommandsEffects
  intro s
  exact ⟨fieldSupply_isLost, fieldSupply_comesGood, controller_resets, bank_starts, bank_overheats, overtemp_clears, watchdog_expires⟩

end Sys2Proof.Proofs
end

section
/-! SUPPORT. Bank commits, conversions and zero-cross firings: what each leaves of the channels, of the bank and of the registers
(R155 to R189). -/

namespace Sys2Proof.Proofs

open Machine Laws

/-! ### Mode changes and the commit of a bank's set (R166 to R172) -/

section
variable (s : State) (c : Nat)

theorem putSig_onChannels (v : Word) : OnChannels [c] s (putSig s c v) := (modChan_onChannels ..).keep (pset_keeps ..)

theorem modeChanged_onChannels : OnChannels [c] s (modeChanged s c) := by
  unfold modeChanged
  extract_lets +onlyGivenNames -merge -useContext m x1 x2 x3 keep x4
  have h1 : OnChannels [c] s x1 := OnChannels.refl.keep (pset_keeps ..)
  have h4 : OnChannels [c] s x4 :=
    ((h1.step (putSig_onChannels ..)).step (modChan_onChannels ..)).step (putDiag_onChannels ..)
  exact .ite (h4.keep (releaseForces_keeps ..)) h4

end

section
variable (s : State) (b : Nat)

/-- The logic side's part of a commit leaves the registers of the commit, the live set and the bank as they are. -/
theorem modesChanged_stand (p : State → Nat → Prop) [∀ s i, Decidable (p s i)] :
    OnChannels (bankChans b) s (forAll (upto 16) (fun s i => if p s i then s else modeChanged s (16 * b + i)) s) ∧
    Keeps modeChanged_may s (forAll (upto 16) (fun s i => if p s i then s else modeChanged s (16 * b + i)) s) :=
  ⟨.forAll .refl fun _ _ hi h => .ite h (h.step (modeChanged_onChannels ..) (mem_bankChans_add b (List.mem_range.mp hi))),
    .forAll (.refl _ _) fun _ _ h => .ite h (h.trans (modeChanged_keeps ..))⟩

/-- What an applied commit leaves (R166, R170, R215). -/
theorem bankApply_spec : rget (bankApply s b) (oBank b + 0xC) = genNext (rget s (oBank b + 0xC)) ∧
    (bankApply s b).live = takeShadow s.regs s.live (inBankSet b) ∧ (bank (bankApply s b) b).cfgDue = true := by
  unfold bankApply
  extract_lets +onlyGivenNames -merge -useContext before x1 o x2 x3
  obtain ⟨only, kept⟩ := modesChanged_stand x2 b fun s i => chMode s (16 * b + i) = nAt before i
  have noted := noteMirror_keeps (modBank x3 b fun k => { k with cfgDue := true, cfgAgain := false, comA := some (absA x3) }) (16 + b)
  refine ⟨?_, ?_, ?_⟩
  · rw [noted.rget (by decide), (modBank_keeps ..).rget (by decide)]
    exact (only.rget (bankReg_ne_latch b (by decide))).trans (rget_rset_same ..)
  · rw [noted.live_eq (by decide), (modBank_keeps ..).live_eq (by decide)]
    exact kept.live_eq (by decide)
  · rw [noted.bank (by decide), bank_modBank_same]

/-- A refused commit's word: the generation stands, and the fields hold what was refused (R215). -/
theorem refusedBankWord_fields {g ch code : Nat} (hg : g < 2 ^ 16) (hch : ch < 32) (hcode : code < 16) :
    let w := w32 (g + (ch <<< 16) + (code <<< 21))
    fld w 15 0 = g ∧ fld w 20 16 = ch ∧ fld w 24 21 = code ∧ bitOf w 31 = false := by
  simp only [Nat.shiftLeft_eq]
  have e : (w32 (g + ch * 2 ^ 16 + code * 2 ^ 21)).toNat = g + ch * 2 ^ 16 + code * 2 ^ 21 := by
    rw [w32, BitVec.toNat_ofNat]
    omega
  simp only [fld, nbits, bitOf, BitVec.getLsbD, e, Nat.shiftRight_eq_div_pow]
  exact ⟨by omega, by omega, by omega, Nat.testBit_lt_two_pow (by omega)⟩

end

/-! ### Frames to a bank (R155, R205, R212) -/

section
variable (s : State) (b : Nat)

theorem banksOnly_autoClear : BanksOnly [b] s (autoClear s b) := by
  unfold autoClear
  split
  · exact banksOnly_releaseMet s b
  · exact fun _ _ => rfl

theorem bank_autoClear : ∃ w, bank (autoClear s b) b = { bank s b with causes := w } := by
  unfold autoClear
  split
  · obtain ⟨w, e, -⟩ := bank_releaseMet s b
    exact ⟨w, e⟩
  · exact ⟨(bank s b).causes, rfl⟩

theorem banksOnly_bankHeard : BanksOnly [b] s (bankHeard s b) :=
  fun d hd => (banksOnly_autoClear _ b d hd).trans (banksOnly_modBank s b _ d hd)

/-- A frame that reaches the bank restarts its watchdog, and moves nothing else of it but the causes that clear by themselves. -/
theorem bank_bankHeard : ∃ w, bank (bankHeard s b) b = { bank s b with heard := true, causes := w } := by
  obtain ⟨w, e⟩ := bank_autoClear (modBank s b fun k => { k with heard := true }) b
  exact ⟨w, e.trans (by rw [bank_modBank_same])⟩

theorem banksOnly_sendFrame (kind : Nat) (body : List Word) : BanksOnly [b] s (sendFrame s b kind body) :=
  banksOnly_modBank s b fun k => { k with seqDn := (bank s b).seqDn + 1 }

theorem bank_sendFrame (kind : Nat) (body : List Word) :
    bank (sendFrame s b kind body) b = { bank s b with seqDn := (bank s b).seqDn + 1 } :=
  bank_modBank_same s b fun k => { k with seqDn := (bank s b).seqDn + 1 }

end

/-! ### Zero-cross outputs (R188, R189) -/

section
variable {s : State} {entry unit : Nat} {arg : Word} {again : Bool}

/-- The timing frame of a firing as its bank holds it. -/
def timingOf (entry : Nat) (arg : Word) (unit : Nat) : ZcTiming := ⟨unit, fld arg 31 16, entry⟩

/-- A timing frame that arrives at once. -/
theorem sendTiming_arrives (run : (bank s (fld arg 3 0)).run = true) : sendTiming s entry arg unit true again =
    bankHeard (modBank (sendFrame s (fld arg 3 0) 3 [arg, w32 unit, w32 (unit >>> 32)]) (fld arg 3 0)
      fun k => { k with timing := k.timing ++ [timingOf entry arg unit] }) (fld arg 3 0) := by
  have runs : (bank (sendFrame s (fld arg 3 0) 3 [arg, w32 unit, w32 (unit >>> 32)]) (fld arg 3 0)).run = true := by
    rw [bank_sendFrame]
    exact run
  exact if_pos runs

theorem close_sendTiming (run : (bank s (fld arg 3 0)).run = true) :
    BanksOnly [fld arg 3 0] s (close s (sendTiming s entry arg unit true again)) ∧
    (close s (sendTiming s entry arg unit true again)).out = s.out ++ [.bankFrame (fld arg 3 0) 3 (bank s (fld arg 3 0)).seqDn
      [arg, w32 unit, w32 (unit >>> 32)]
      (crcWords [3, w32 (bank s (fld arg 3 0)).seqDn, arg, w32 unit, w32 (unit >>> 32)])] ∧
    (bank (close s (sendTiming s entry arg unit true again)) (fld arg 3 0)).timing =
      (bank s (fld arg 3 0)).timing ++ [timingOf entry arg unit] := by
  rw [sendTiming_arrives run]
  refine ⟨fun d hd => ?_, ?_, ?_⟩
  · rw [close_bank, banksOnly_bankHeard _ _ d hd, banksOnly_modBank _ _ _ d hd, banksOnly_sendFrame _ _ _ _ d hd]
  · rw [close_out, (bankHeard_keeps ..).out_eq (by decide), (modBank_keeps ..).out_eq (by decide)]
    rfl
  · obtain ⟨w, e⟩ := bank_bankHeard (modBank (sendFrame s (fld arg 3 0) 3 [arg, w32 unit, w32 (unit >>> 32)]) (fld arg 3 0)
      fun k => { k with timing := k.timing ++ [timingOf entry arg unit] }) (fld arg 3 0)
    rw [close_bank, e, bank_modBank_same, bank_sendFrame]

theorem zcChan_onChannels (s : State) (c a : Nat) : OnChannels [c] s (zcChan s c a) := by
  unfold zcChan
  split
  · dsimp only
    split
    · exact ((setChan_onChannels ..).step (applyNow_onChannels ..)).step (redoDiag_onChannels ..)
    · exact .refl
  · exact .refl

/-- A firing takes up the timing frames held for it, and moves the channels of its bank only (R189). -/
theorem zcFire_spec (s : State) (b a entry : Nat) : OnChannels (bankChans b) s (zcFire s b a entry) ∧
    (∀ d, bank (zcFire s b a entry) d = bank (modBank s b fun k => { k with
      timing := k.timing.filter (fun z => !(z.unit < a || (z.unit == a && z.entry == entry))) }) d) ∧
    ((bank s b).safe = true → (zcFire s b a entry).ch = s.ch) := by
  unfold zcFire
  extract_lets +onlyGivenNames -merge -useContext now x
  have hx : OnChannels (bankChans b) s x := OnChannels.refl.keep (modBank_keeps ..)
  have same : (bank x b).safe = (bank s b).safe := by rw [show x = modBank s b _ from rfl, bank_modBank_same]
  have fired : Keeps [.regs, .pts, .ch, .evq, .can, .ble] x (forAll now
      (fun s z => forAll (upto 16) (fun s i => if z.mask.testBit i then zcChan s (16 * b + i) a else s) s) x) :=
    .forAll (.refl _ _) fun _ _ h => .forAll h fun _ _ h => .ite (h.trans (zcChan_keeps ..)) h
  rw [same]
  split
  · exact ⟨hx, fun _ => rfl, fun _ => rfl⟩
  · rename_i out
    exact ⟨.forAll hx fun _ _ _ h => .forAll h fun _ _ hi h =>
      .ite (h.step (zcChan_onChannels ..) (mem_bankChans_add b (List.mem_range.mp hi))) h,
      fun d => fired.bank (by decide) d, fun safe => absurd safe out⟩

end

/-! ### Conversions (R161, R167) -/

/-- An operation made for each bank of a list, each on its own bank: what one leaves of its bank stands at the end. -/
theorem forAll_banks {may : List Piece} {f : State → Nat → State} {P : Nat → Bank → Prop} (keeps : ∀ u b, Keeps may u (f u b))
    (own : ∀ u b, BanksOnly [b] u (f u b)) {s : State} {l : List Nat} (nodup : l.Nodup)
    (effect : ∀ u, Keeps may s u → ∀ b ∈ l, bank u b = bank s b → P b (bank (f u b) b)) :
    ∀ b ∈ l, P b (bank (forAll l f s) b) := by
  have outside (l : List Nat) : ∀ (s : State) (b : Nat), b ∉ l → bank (l.foldl f s) b = bank s b := by
    induction l with
    | nil => exact fun _ _ _ => rfl
    | cons a l ih =>
      intro s b hb
      obtain ⟨ha, hl⟩ := not_or.mp (mt List.mem_cons.mpr hb)
      exact (ih (f s a) b hl).trans (own s a b (by simpa using ha))
  unfold forAll
  induction l generalizing s with
  | nil => exact fun _ hb => absurd hb List.not_mem_nil
  | cons a l ih =>
    obtain ⟨fresh, nodup⟩ := List.nodup_cons.mp nodup
    intro b hb
    by_cases later : b ∈ l
    · refine ih nodup (fun u hu b hb same => ?_) b later
      have other : b ≠ a := fun e => fresh (e ▸ hb)
      exact effect u ((keeps s a).trans hu) b (List.mem_cons_of_mem a hb) (same.trans (own s a b (by simpa using other)))
    · obtain rfl : b = a := (List.mem_cons.mp hb).resolve_right later
      rw [List.foldl_cons, outside l _ _ later]
      exact effect s (.refl _ _) b hb rfl

section
variable {s u : State} {b : Nat}

/-- The batch a bank latches for a firing at a unit. -/
def batchOf (s : State) (b unit : Nat) : Batch := ⟨unit, (bankChans b).map (latchDig s), (bankChans b).map (convOf s)⟩

/-- One bank at a conversion. -/
def convertBank (mask : Word) (s : State) (b : Nat) : State :=
  if bitOf mask b && (bank s b).run then (if mustHold s b then hold s b none else latchBatch s b (absA s)) else s

theorem convert_eq (s : State) (mask : Word) : convert s mask = forAll (upto 12) (convertBank mask) s := rfl

theorem convertBank_keeps (mask : Word) (s : State) (b : Nat) : Keeps [.banks] s (convertBank mask s b) :=
  .ite (.ite (hold_keeps ..) (latchBatch_keeps ..)) (.refl _ _)

theorem banksOnly_convertBank (mask : Word) (s : State) (b : Nat) : BanksOnly [b] s (convertBank mask s b) := by
  unfold convertBank
  split
  · split
    · exact banksOnly_modBank s b _
    · exact banksOnly_modBank s b _
  · exact fun _ _ => rfl

/-- What a bank latches depends on its own set and channels only. -/
theorem batchOf_congr (k : Keeps [.banks] s u) (same : bank u b = bank s b) (unit : Nat) : batchOf u b unit = batchOf s b unit := by
  have reg (c : Nat) (hc : c ∈ bankChans b) (o : Nat) : appReg u (c / 16) o = appReg s (c / 16) o := by
    rw [appReg, bank_of_mem hc, same, ← bank_of_mem hc, appReg]
  have dig (c : Nat) (hc : c ∈ bankChans b) : latchDig u c = latchDig s c := by
    rw [latchDig, latchDig, appMode, reg c hc, appMode, k.chan (by decide)]
  have conv (c : Nat) (hc : c ∈ bankChans b) : convOf u c = convOf s c := by
    simp only [convOf, appMode, appAn, reg c hc]
  rw [batchOf, List.map_congr_left dig, List.map_congr_left conv, batchOf]

theorem mustHold_congr (k : Keeps [.banks] s u) (same : bank u b = bank s b) : mustHold u b = mustHold s b := by
  rw [mustHold, same, absA, k.phc_eq (by decide), mustHold, absA]

theorem batches_convertBank (mask : Word) : (bank (convertBank mask s b) b).batches = (bank s b).batches ++
    (if (bitOf mask b && (bank s b).run && !mustHold s b) = true then [batchOf s b (absA s)] else []) := by
  unfold convertBank
  by_cases named : (bitOf mask b && (bank s b).run) = true
  · by_cases held : mustHold s b = true
    · rw [if_pos named, if_pos held, hold, bank_modBank_same, held, Bool.not_true, Bool.and_false, if_neg Bool.false_ne_true,
        List.append_nil]
    · rw [if_pos named, if_neg held, latchBatch, bank_modBank_same, named, Bool.eq_false_iff.mpr held]
      rfl
  · rw [if_neg named, Bool.eq_false_iff.mpr named, Bool.false_and, if_neg Bool.false_ne_true, List.append_nil]

/-- A conversion latches a batch in each bank that its mask names and that has no new set to apply first (R161, R167). -/
theorem batches_convert (mask : Word) (hb : b < 12) : (bank (convert s mask) b).batches = (bank s b).batches ++
    (if (bitOf mask b && (bank s b).run && !mustHold s b) = true then [batchOf s b (absA s)] else []) := by
  rw [convert_eq]
  refine forAll_banks (P := fun b k => k.batches = (bank s b).batches ++
    (if (bitOf mask b && (bank s b).run && !mustHold s b) = true then [batchOf s b (absA s)] else []))
    (convertBank_keeps mask) (banksOnly_convertBank mask) List.nodup_range (fun u k b _ same => ?_) b (List.mem_range.mpr hb)
  have now : absA u = absA s := by rw [absA, k.phc_eq (by decide), absA]
  rw [batches_convertBank, same, mustHold_congr k same, now, batchOf_congr k same]

end

/-- What a firing that is dispatched leaves (R106, R108). -/
theorem fireEntry_state {s t : State} {n a : Nat} {arg : Word} (h : fireEntry s n a = some (arg, t)) :
    t = { s with phc := { s.phc with last := some (absA s, a, n) } } := by
  unfold fireEntry at h
  split at h
  · exact (congrArg Prod.snd (Option.some.inj h)).symm
  · cases h

end Sys2Proof.Proofs
end

section
/-! Bank commits, conversions, zero-cross firings and safe commands (R161 to R172, R186 to R189, R205 to R207); the settlement of
O8. -/

namespace Sys2Proof.Proofs

open Machine Laws

/-! ### The commit of a bank's set (R161 to R172) -/

section
variable {s : State} (b : Fin 12)

theorem bnkCommit_requests (v : Word) (reaches : Reaches s 7) (set : bitOf v 0 = true) (own : isStandby s = false)
    (free : bankPending s b = false) :
    ∃ t, exec (.bnkCommit b v) s = .next t ∧ Frame [.regs, .banks, .evq] s t ∧ RegsOnly [oBank b + 0xC] s t ∧
      rget t (oBank b + 0xC) = rget s (oBank b + 0xC) ||| oneBit 31 ∧ bank t b = { bank s b with reqA := absA s } ∧
      BanksOnly [b.val] s t := by
  have e : exec (.bnkCommit b v) s =
      done s (modBank (ror s (oBank b + 0xC) 0x80000000) b fun k => { k with reqA := absA s }) := by
    refine congrArg (done s) ((reached_of_reaches reaches).trans ?_)
    simp [set, unlessStandby, own, bankRequest, free]
  refine completes (execBnkCommit_keeps b v s) e ⟨RegsOnly.close ?_ s, ?_, ?_, fun d hd => ?_⟩
  · exact regsOnly_rset s (oBank b + 0xC) (rget s (oBank b + 0xC) ||| 0x80000000)
  · exact (close_rget ..).trans (rget_rset_same ..)
  · rw [close_bank, bank_modBank_same]
    rfl
  · rw [close_bank]
    exact banksOnly_modBank (ror s (oBank b + 0xC) 0x80000000) b _ d hd

theorem bnkCommit_standby (v : Word) (reaches : Reaches s 7) (set : bitOf v 0 = true) (standby : isStandby s = true) :
    ∃ t, exec (.bnkCommit b v) s = .next t ∧ Frame [.regs, .banks, .evq] s t ∧ RegsOnly [oTwnEvent] s t ∧ t.banks = s.banks ∧
      Raised oTwnEvent 10 s t := by
  have e : exec (.bnkCommit b v) s = done s (twnEvent s 10) := by
    refine congrArg (done s) ((reached_of_reaches reaches).trans ?_)
    simp [set, unlessStandby, standby]
  refine completes (execBnkCommit_keeps b v s) e
    ⟨RegsOnly.close (regsOnly_raiseBits s oTwnEvent (oneBit 10) _ _ _ _ _) s, ?_,
      Raised.close (raised_raiseBoth _ _ _ (by decide)) s⟩
  rw [close_banks]
  exact (twnEvent_keeps s 10).banks_eq (by decide)

abbrev bankPoint_may : List Piece := [.regs, .live, .pts, .banks, .ch, .rings, .evq, .msixPend, .forces, .can, .ble, .twn, .out]

theorem bankPoint_applies (pending : bankPending s b = true) (point : isBankPoint s b = true) (good : bankCheck s b = none) :
    ∃ t, exec (.bankCommitPoint b) s = .next t ∧ Frame bankPoint_may s t ∧ bankPending t b = false ∧
      t.live = takeShadow s.regs s.live (inBankSet b) ∧ (bank t b).cfgDue = true ∧
      rfld t (oBank b + 0xC) 15 0 = (rfld s (oBank b + 0xC) 15 0 + 1) % 65536 := by
  have e : exec (.bankCommitPoint b) s = done s (bankCommitNow s b) :=
    congrArg (done s) (if_pos (Bool.and_eq_true_iff.mpr ⟨pending, point⟩))
  have k : Keeps [.rings, .msixPend, .out] (bankApply s b) (bankCommitNow s b) := by
    rw [bankCommitNow, good]
    exact completeAll_keeps ..
  obtain ⟨status, live, due⟩ := bankApply_spec s b
  obtain ⟨generation, clear⟩ := genNext_fields (rget s (oBank b + 0xC))
  refine completes (execBankCommitPoint_keeps b s) e ?_
  simp only [bankPending, rfld, close_rget, close_live, close_bank, k.rget (by decide), k.live_eq (by decide), k.bank (by decide), status]
  exact ⟨clear, live, due, generation⟩

theorem bankPoint_refuses (r : Nat × Nat) (pending : bankPending s b = true) (point : isBankPoint s b = true)
    (bad : bankCheck s b = some r) (channel : r.1 < 32) (code : r.2 < 16) :
    ∃ t, exec (.bankCommitPoint b) s = .next t ∧ Frame bankPoint_may s t ∧ bankPending t b = false ∧ t.live = s.live ∧
      t.banks = s.banks ∧ rfld t (oBank b + 0xC) 15 0 = rfld s (oBank b + 0xC) 15 0 ∧
      rfld t (oBank b + 0xC) 20 16 = r.1 ∧ rfld t (oBank b + 0xC) 24 21 = r.2 := by
  have e : exec (.bankCommitPoint b) s = done s (bankCommitNow s b) :=
    congrArg (done s) (if_pos (Bool.and_eq_true_iff.mpr ⟨pending, point⟩))
  have k : Keeps [.rings, .msixPend, .out] (bankRefuse s b r.1 r.2) (bankCommitNow s b) := by
    rw [bankCommitNow, bad]
    exact completeAll_keeps ..
  have refused := bankRefuse_keeps s b r.1 r.2
  have status : rget (bankRefuse s b r.1 r.2) (oBank b + 0xC) =
      w32 (rfld s (oBank b + 0xC) 15 0 + (r.1 <<< 16) + (r.2 <<< 21)) := rget_rset_same ..
  have generation : rfld s (oBank b + 0xC) 15 0 < 2 ^ 16 := Nat.mod_lt _ (by decide)
  obtain ⟨g, ch, c, p⟩ := refusedBankWord_fields generation channel code
  refine completes (execBankCommitPoint_keeps b s) e ?_
  have live := (k.live_eq (by decide)).trans (refused.live_eq (by decide))
  have banks := (k.banks_eq (by decide)).trans (refused.banks_eq (by decide))
  simp only [bankPending, close_live, close_banks, close_rget, rfld, k.rget (by decide), status] at g ch c p ⊢
  exact ⟨p, live, banks, g, ch, c⟩

end

/-! ### Conversions and firings (R161, R186 to R189) -/

section
variable {s : State}

theorem bankConvert_latches (n : Fin 1024) (fires : (fireEntry (dueCommits s) n.val 1).isSome = true) :
    ∃ t, exec (.bankConvert n) s = .next t ∧ Frame [.regs, .live, .pts, .phc, .banks, .ch, .rings, .evq, .msixPend, .forces, .can,
      .lce, .ble, .twn, .out] s t ∧ t.phc.last = some (absA s, 1, n.val) ∧
      ∀ b, b < 12 → (bank t b).batches = (bank (dueCommits s) b).batches ++
        (if (bitOf (schedWord (dueCommits s).live n.val 2) b && (bank (dueCommits s) b).run && !mustHold (dueCommits s) b) = true
         then [⟨absA s, (bankChans b).map (latchDig (dueCommits s)), (bankChans b).map (convOf (dueCommits s))⟩] else []) := by
  obtain ⟨⟨arg, t⟩, fired⟩ := Option.isSome_iff_exists.mp fires
  have e : exec (.bankConvert n) s = done s (convert t arg) := by
    show execBankConvert n s = _
    unfold execBankConvert
    simp only [fired]
  refine completes (execBankConvert_keeps n s) e ?_
  rw [← fireEntry_arg fired, ← dueCommits_absA s]
  obtain rfl := fireEntry_state fired
  refine ⟨?_, fun b hb => ?_⟩
  · rw [close_phc, (convert_keeps ..).phc_eq (by decide)]
  · rw [close_bank, batches_convert arg hb]
    rfl

theorem zcOutput_announces (n : Fin 1088) (again : Bool) (entry : n.val < 1024) (clock : clockRuns s = true)
    (send : canSend s = true) (en : entryEn s.live n.val = true) (action : entryAction s.live n.val = 4)
    (period : entryPeriod s.live n.val ≠ 0) (run : (bank s (fld (schedWord s.live n.val 2) 3 0)).run = true) :
    ∃ t, exec (.zcOutput n true again) s = .next t ∧ Frame [.regs, .banks, .out] s t ∧
      BanksOnly [fld (schedWord s.live n.val 2) 3 0] s t ∧
      t.out = s.out ++ [.bankFrame (fld (schedWord s.live n.val 2) 3 0) 3 (bank s (fld (schedWord s.live n.val 2) 3 0)).seqDn
        [schedWord s.live n.val 2, w32 (nextFiring s n.val), w32 (nextFiring s n.val >>> 32)]
        (crcWords [3, w32 (bank s (fld (schedWord s.live n.val 2) 3 0)).seqDn, schedWord s.live n.val 2,
          w32 (nextFiring s n.val), w32 (nextFiring s n.val >>> 32)])] ∧
      (bank t (fld (schedWord s.live n.val 2) 3 0)).timing = (bank s (fld (schedWord s.live n.val 2) 3 0)).timing ++
        [⟨nextFiring s n.val, fld (schedWord s.live n.val 2) 31 16, n.val⟩] :=
  completes (execZcOutput_keeps n true again s) (congrArg (done s) ((if_neg (by simp [clock, send])).trans ((if_pos entry).trans
    (if_pos (by simp [en, action, period]))))) (close_sendTiming run)

theorem zcOutput_timed (n : Fin 1088) (timed : 1024 ≤ n.val) (x : Timed) (found : timedZc s (n.val - 1024) = some x)
    (clock : clockRuns s = true) (send : canSend s = true) (run : (bank s (fld x.arg 3 0)).run = true) :
    ∃ t, exec (.zcOutput n true false) s = .next t ∧ Frame [.regs, .banks, .out] s t ∧ BanksOnly [fld x.arg 3 0] s t ∧
      (bank t (fld x.arg 3 0)).timing = (bank s (fld x.arg 3 0)).timing ++ [⟨x.unit, fld x.arg 31 16, n.val⟩] := by
  have e : exec (.zcOutput n true false) s = done s (sendTiming s n x.arg x.unit true false) :=
    congrArg (done s) ((if_neg (by simp [clock, send])).trans ((if_neg (by omega)).trans (by rw [found])))
  obtain ⟨banks, -, timing⟩ := close_sendTiming (entry := n) (unit := x.unit) (again := false) run
  exact completes (execZcOutput_keeps n true false s) e ⟨banks, timing⟩

theorem zcSwitch_switches (b : Fin 12) (n : Nat) (next : zcNext s b = some n) (entry : n < 1024) (applied : mustHold s b = false) :
    ∃ t, exec (.zcSwitch b) s = .next t ∧ Frame [.regs, .pts, .phc, .banks, .ch, .evq, .can, .ble] s t ∧ BanksOnly [b.val] s t ∧
      ChansOnly (bankChans b) s t ∧ t.phc.last = some (absA s, 4, n) ∧
      bank t b = { bank s b with timing := (bank s b).timing.filter (fun z => !(z.unit < absA s || (z.unit == absA s && z.entry == n))) } ∧
      ((bank s b).safe = true → t.ch = s.ch) := by
  let u := { s with phc := { s.phc with last := some (absA s, 4, n) } }
  have e : exec (.zcSwitch b) s = done s (zcFire u b (absA s) n) := by
    show execZcSwitch b s = _
    unfold execZcSwitch
    simp only [next, if_pos entry]
    exact congrArg (done s) (if_neg (by rw [show mustHold u b = false from applied, Bool.false_and]; exact Bool.false_ne_true))
  obtain ⟨only, banks, still⟩ := zcFire_spec u b (absA s) n
  refine completes (execZcSwitch_keeps b s) e ⟨fun d hd => ?_, only.close s, ?_, ?_, fun safe => ?_⟩
  · rw [close_bank, banks]
    exact banksOnly_modBank u b _ d hd
  · rw [close_phc, (zcFire_keeps ..).phc_eq (by decide)]
  · rw [close_bank, banks, bank_modBank_same]
    rfl
  · rw [close_ch]
    exact still safe

theorem pwmPeriod_starts (c : Fin 192) (mode : appMode s c = 5) (run : (bank s (c / 16)).run = true)
    (out : (bank s (c / 16)).safe = false) :
    ∃ t, exec (.pwmPeriodStart c) s = .next t ∧ Frame [.ch] s t ∧ ChansOnly [c.val] s t ∧
      (chan t c).pwmOn = pwmOnUs (chan s c).applied (appPeriod s c) ∧ (chan t c).pwmPer = appPeriod s c := by
  have e : exec (.pwmPeriodStart c) s = done s (startPeriod s c (appPeriod s c)) := by
    refine congrArg (done s) ((if_neg (by simp [mode, run])).trans ?_)
    rw [out, if_neg Bool.false_ne_true]
  refine completes_channel (execPwmPeriodStart_keeps c s) e (startPeriod_onChannels ..) ?_
  simp only [startPeriod, close_chan, chan_redoStage_same, chan_modChan_same]
  exact ⟨trivial, trivial⟩

end

/-! ### Safe commands (R205 to R207) -/

section
variable {s : State} (b : Fin 12) (v : Word)

theorem bnkSafe_enters (reaches : Reaches s 7) (set : bitOf v 0 = true) :
    ∃ t, exec (.bnkSafeCmd b v) s = .next t ∧ Frame [.regs, .pts, .banks, .ch, .evq, .can, .ble] s t ∧ BanksOnly [b.val] s t ∧
      ChansOnly (bankChans b) s t ∧ bank t b = { bank s b with causes := (bank s b).causes ||| oneBit 7, safe := true } ∧
      ((bank s b).safe = false → Raised (oBank b + 0x18) 5 s t) := by
  refine completes (execBnkSafeCmd_keeps b v s) (congrArg (done s) ((reached_of_reaches reaches).trans (if_pos set)))
    ⟨fun d hd => ?_, fun c hc => ?_, ?_, fun out => Raised.close (addCause_raised 7 out) s⟩
  · rw [close_bank, banksOnly_addCause _ d hd]
  · rw [close_chan, addCause_chans _ c hc]
  · rw [close_bank, bank_addCause_same]
    rfl

theorem bnkRelease_clears (reaches : Reaches s 7) (set : bitOf v 0 = true) :
    ∃ t, exec (.bnkRelease b v) s = .next t ∧ Frame [.banks] s t ∧ BanksOnly [b.val] s t ∧ bitOf (bank t b).causes 7 = false ∧
      (bank t b).safe = (bank s b).safe ∧
      (bitOf (bank t b).causes 3 = (bitOf (bank s b).causes 3 && !((bank s b).linkUp && (bank s b).heard))) ∧
      (bitOf (bank t b).causes 6 = (bitOf (bank s b).causes 6 && !(bank s b).otClear)) ∧
      (bitOf (bank t b).causes 8 = (bitOf (bank s b).causes 8 && !(bank s b).confirmed)) := by
  have dropped : bank (dropCause s b 7) b = { bank s b with causes := (bank s b).causes &&& ~~~ (oneBit 7) } := bank_modBank_same ..
  obtain ⟨w, e, bits⟩ := bank_releaseMet (dropCause s b 7) b
  have bit (i : Nat) (hi : i < 32) : bitOf w i = (bitOf (bank s b).causes i && !(i == 7) &&
      !((i == 3 || i == 6 || i == 8) && clearable s b i)) := by
    rw [bits i hi, dropped, bitOf_clear hi, clearable_congr s b dropped]
  refine completes (execBnkRelease_keeps b v s) (congrArg (done s) ((reached_of_reaches reaches).trans (if_pos set)))
    ⟨fun d hd => ?_, ?_⟩
  · rw [close_bank, banksOnly_releaseMet _ _ d hd]
    exact banksOnly_modBank s b _ d hd
  · rw [close_bank, e, dropped, bit 7 (by decide), bit 3 (by decide), bit 6 (by decide), bit 8 (by decide)]
    simp [clearable]

end

/-- Settles O8: clause by clause. -/
theorem bankCommitAndSafeCommandsEffects : Obligations.BankCommitAndSafeCommandsEffects := by
  unfold Obligations.BankCommitAndSafeCommandsEffects
  intro s
  exact ⟨bnkCommit_requests, bnkCommit_standby, bankPoint_applies, bankPoint_refuses, bankConvert_latches, zcOutput_announces,
    zcOutput_timed, zcSwitch_switches, pwmPeriod_starts, bnkSafe_enters, bnkRelease_clears⟩

end Sys2Proof.Proofs
end

section
/-! An output frame whose presets name channels of another bank (R162, R181); the refutation of O7. -/

namespace Sys2Proof.Proofs

open Machine Laws

/-- A module with a running bank 0, for which an output frame waits whose only preset counts on channel 16 of that bank, beyond
its sixteen. The model's own commands build presets of the channels 0 to 15 alone, so no run from reset holds such a frame; the
statement, which is about every state, has no premise that excludes it. -/
def strayPreset : State :=
  { State.reset with
    banks := [(0, { Bank.reset with run := true, outq := [{ unit := 0, vals := [], presets := [(16, 1)], again := false }] })] }

theorem strayPreset_sends : canSend strayPreset = true ∧ (bank strayPreset 0).run = true := ⟨rfl, rfl⟩

/-- The frame, arriving, presets the first channel of bank 1. -/
theorem strayPreset_counts : ∃ t, exec (.outputFrame 0 true 0) strayPreset = .next t ∧ (chan t 16).count = 1 :=
  ⟨_, rfl, by decide +kernel⟩

/-- Refutes O7, in its clause about an output frame that arrives, which has no premise on the presets the frame carries: on
`strayPreset` it changes a channel of another bank. -/
theorem not_bankFrameCommandsEffects : ¬ Obligations.BankFrameCommandsEffects := by
  unfold Obligations.BankFrameCommandsEffects
  intro h
  obtain ⟨-, -, -, -, -, -, -, -, -, arrives, -⟩ := h strayPreset
  obtain ⟨send, run⟩ := strayPreset_sends
  obtain ⟨t, ht, -, -, chans, -⟩ := arrives 0 0 send run
  obtain ⟨u, hu, counted⟩ := strayPreset_counts
  obtain rfl : t = u := Host.Outcome.next.inj (ht.symm.trans hu)
  have stands : (chan t 16).count = 0 := congrArg Chan.count (chans 16 (by decide))
  exact absurd (stands.symm.trans counted) (by decide)

end Sys2Proof.Proofs
end

section
/-! SUPPORT. The values of the metering cartridge under its operations (R262 to R325): what each of them leaves as it was, and what
becomes of a table when a change is made for each number of a list. -/

namespace Sys2Proof.Proofs

set_option Elab.async false

open Machine Laws

/-! ### A reading of the cartridge that an operation leaves as it is -/

/-- What `f` reads of the cartridge is the same in both states. -/
abbrev MeterStays {α : Type} (f : Mtr → α) (s t : State) : Prop := Stays (fun u => f u.mtr) s t

section
variable {α β : Type} {f : Mtr → α} {may : List Piece} {s t u : State}

theorem meterStays_kept (k : Keeps may s t) (hp : Piece.mtr ∉ may := by decide) : MeterStays f s t :=
  .of (congrArg f (k.mtr_eq hp))

theorem Stays.besides (h : MeterStays f s t) (k : Keeps may t u) (hp : Piece.mtr ∉ may := by decide) : MeterStays f s u :=
  h.trans (meterStays_kept k hp)

/-- What is read of a part that stays, stays. -/
theorem Stays.reads {k : Mtr → β} (h : MeterStays f s t) (g : α → β) (e : ∀ m, g (f m) = k m := by intro m; rfl) :
    MeterStays k s t :=
  .of ((e _).symm.trans ((congrArg g h.eq).trans (e _)))

end

/-! ### Parts of the cartridge -/

/-- The cartridge apart from the operational region of its log. -/
def apartLog (m : Mtr) : Mtr := { m with opLog := [], logSeq := 0 }

/-- The cartridge apart from its pulse outputs and that log. -/
def apartPulses (m : Mtr) : Mtr := { apartLog m with pulses := [] }

/-- The cartridge apart from what the energies of a cycle count in: registers, pulse outputs, sums of currents, and that log. -/
def apartEnergies (m : Mtr) : Mtr := { apartPulses m with circ := [], phs := [], acc := [], nacc := [] }

/-- The cartridge apart from its demand sets. -/
def apartSets (m : Mtr) : Mtr := { m with sets := [] }

/-- The cartridge apart from its circuits' intervals. -/
def apartCircuits (m : Mtr) : Mtr := { m with circs := [] }

/-- The cartridge apart from the intervals of both. -/
def apartIntervals (m : Mtr) : Mtr := { m with circs := [], sets := [] }

/-- The cartridge apart from its parameters and what begins anew where they change. -/
def apartParameters (m : Mtr) : Mtr := { apartIntervals m with pulses := [], par := [], applied := [] }

/-- The cartridge apart from its averaging window and the snapshot. -/
def apartWindow (m : Mtr) : Mtr :=
  { m with winN := 0, acc := [], vacc := [], nacc := [], snapCirc := [], snapPhs := [], snapSave := 0, snapPts := [], snapMap := [],
           snapGen := 0 }

/-- The cartridge apart from its pulse outputs. -/
def apartOutputs (m : Mtr) : Mtr := { m with pulses := [] }

section
variable (s : State)

theorem mtrLog_apart (code : Nat) (args : List Word) : MeterStays apartLog s (mtrLog s false code args) := .of rfl

/-! ### Energies and pulses (R288 to R290, R299 to R301) -/

theorem setPulse_apart (o : Nat) (p : Pulse) : MeterStays apartPulses s (setPulse s o p) := .of rfl

theorem pulseAdd_apart (o weight d : Nat) : MeterStays apartPulses s (pulseAdd s o weight d) := by
  unfold pulseAdd
  extract_lets +onlyGivenNames p a n total lost x0
  have h0 : MeterStays apartPulses s x0 := setPulse_apart ..
  refine .ite h0 ?_
  extract_lets +onlyGivenNames x1
  have h1 : MeterStays apartPulses s x1 := h0.besides (mtrEvent_keeps ..)
  refine .ite ?_ h1
  extract_lets +onlyGivenNames x2
  have h2 : MeterStays apartPulses s x2 := h1.trans ((mtrLog_apart ..).reads fun m => { m with pulses := [] })
  exact h2.trans (setPulse_apart ..)

theorem pulsesOf_apart (phase : Bool) (n : Nat) (d : List Nat) : MeterStays apartPulses s (pulsesOf s phase n d) := by
  unfold pulsesOf
  exact .forAll .refl fun _ _ h => .ite (h.trans (pulseAdd_apart ..)) h

theorem addPhase_apart (n : Nat) (d : List Nat) : MeterStays apartEnergies s (addPhase s n d) := by
  unfold addPhase
  generalize counted : modMtr s _ = x
  have h0 : MeterStays apartEnergies s x := by rw [← counted]; exact .of rfl
  exact h0.trans ((pulsesOf_apart ..).reads fun m => { m with circ := [], phs := [], acc := [], nacc := [] })

theorem addCirc_apart (k : Nat) (d : List Nat) : MeterStays apartEnergies s (addCirc s k d) := by
  unfold addCirc
  generalize counted : modMtr s _ = x
  have h0 : MeterStays apartEnergies s x := by rw [← counted]; exact .of rfl
  exact h0.trans ((pulsesOf_apart ..).reads fun m => { m with circ := [], phs := [], acc := [], nacc := [] })

theorem circCycle_apart (map : List Nat) (m : CycleMeas) (ns k : Nat) :
    MeterStays apartEnergies s (circCycle map m ns s k) := by
  unfold circCycle
  extract_lets +onlyGivenNames ins
  refine .ite .refl ?_
  extract_lets +onlyGivenNames rs nl x0 x1
  have h0 : MeterStays apartEnergies s x0 := .forAll .refl fun _ _ h => h.trans (addPhase_apart ..)
  have h1 : MeterStays apartEnergies s x1 := h0.trans (addCirc_apart ..)
  exact h1.trans (.of rfl)

/-! ### Intervals and parameters (R278, R292 to R297, R277, R302) -/

theorem setDset_apart (j : Nat) (d : DemSet) : MeterStays apartSets s (setDset s j d) := .of rfl

theorem setCirc_apart (k : Nat) (c : Circ) : MeterStays apartCircuits s (setCirc s k c) := .of rfl

theorem circBegin_apart (k : Nat) : MeterStays apartCircuits s (circBegin s k) := .of rfl

theorem circEnd_apart (k set ts len : Nat) (auto part : Bool) :
    MeterStays apartCircuits s (circEnd s k set ts len auto part) := by
  unfold circEnd
  extract_lets +onlyGivenNames c ms irr imp exp flags r c' x0
  have h0 : MeterStays apartCircuits s x0 := setCirc_apart ..
  exact (h0.besides (pset_keeps ..)).besides (pset_keeps ..)

theorem tenantTurn_apart (map : List Nat) (set k : Nat) :
    MeterStays apartCircuits s (tenantTurn map set s k) := by
  unfold tenantTurn
  extract_lets +onlyGivenNames c
  split
  · exact .ite (setCirc_apart ..) .refl
  · exact .refl

theorem endInterval_apart (j ts : Nat) (nt : Option Nat) (byAuto : Bool) :
    MeterStays apartIntervals s (endInterval s j ts nt byAuto) := by
  unfold endInterval
  extract_lets +onlyGivenNames d map len ks irr x0 x1 x2
  have h0 : MeterStays apartCircuits s x0 := .forAll .refl fun _ _ h => h.trans (circEnd_apart ..)
  have h1 : MeterStays apartCircuits s x1 := .forAll h0 fun _ _ h => h.trans (tenantTurn_apart ..)
  have h2 : MeterStays apartIntervals s x2 :=
    (h1.reads apartSets).trans ((setDset_apart ..).reads fun m => { m with circs := [] })
  exact .ite (h2.besides (mtrEvent_keeps ..)) h2

theorem endSub_apart (j ts : Nat) (nt : Option Nat) (byAuto : Bool) :
    MeterStays apartIntervals s (endSub s j ts nt byAuto) := by
  unfold endSub
  refine .ite .refl ?_
  extract_lets +onlyGivenNames d d' x0
  have h0 : MeterStays apartIntervals s x0 := (setDset_apart ..).reads fun m => { m with circs := [] }
  exact .ite (h0.trans (endInterval_apart ..)) h0

theorem startIntervals_apart : MeterStays apartIntervals s (startIntervals s) := by
  unfold startIntervals
  extract_lets +onlyGivenNames x0
  have h0 : MeterStays apartIntervals s x0 := .forAll .refl fun _ _ h =>
    h.trans ((setDset_apart ..).reads fun m => { m with circs := [] })
  exact .forAll h0 fun _ _ h => (h.trans ((circBegin_apart ..).reads apartSets)).trans ((setCirc_apart ..).reads apartSets)

theorem entryChanged_apart (b : Nat) (old new : List Nat) (i : Nat) :
    MeterStays apartParameters s (entryChanged b old new s i) := by
  have circ (t : State) (k : Nat) (c : Circ) : MeterStays apartParameters t (setCirc t k c) := .of rfl
  have begin_ (t : State) (k : Nat) : MeterStays apartParameters t (circBegin t k) := .of rfl
  unfold entryChanged
  split
  · refine .ite .refl ?_
    extract_lets +onlyGivenNames -merge -useContext fresh _ x0 x1
    have h0 : MeterStays apartParameters s x0 := circ ..
    have h1 : MeterStays apartParameters s x1 := .ite (h0.trans (begin_ ..)) h0
    exact .ite (h1.besides (clearPts_keeps ..)) h1
  · exact .ite .refl (.of rfl)
  · refine .ite .refl ?_
    extract_lets +onlyGivenNames -merge -useContext map _ x0
    have h0 : MeterStays apartParameters s x0 := .of rfl
    exact .forAll h0 fun _ _ h => h.trans (begin_ ..)
  · exact .refl

theorem applyBlock_apart (b : Nat) (new : List Nat) : MeterStays apartParameters s (applyBlock s b new) := by
  unfold applyBlock
  extract_lets +onlyGivenNames old x0 n
  have h0 : MeterStays apartParameters s x0 := .of rfl
  exact Stays.besides (.forAll h0 fun _ _ h => h.trans (entryChanged_apart ..)) (mtrEvent_keeps ..)

theorem applyBlocks_apart : MeterStays apartParameters s (applyBlocks s) := by
  unfold applyBlocks
  extract_lets +onlyGivenNames l
  exact .forAll (.of rfl) fun _ _ h => h.trans (applyBlock_apart ..)

/-- With no commit waiting, none takes effect. -/
theorem applyBlocks_none (h : s.mtr.applied = []) : applyBlocks s = s := by
  unfold applyBlocks
  rw [h]
  exact congrArg (fun l => modMtr s (fun m => { m with applied := l })) h.symm

/-! ### The window, and the end of running (R77, R283, R303, R315, R317) -/

theorem snapshot_apart : MeterStays apartWindow s (snapshot s) := .of rfl

theorem windowStep_apart (m : CycleMeas) : MeterStays apartWindow s (windowStep m s) := by
  unfold windowStep
  extract_lets +onlyGivenNames n
  refine .ite (.of rfl) ?_
  extract_lets +onlyGivenNames x0 v x1
  have h0 : MeterStays apartWindow s x0 := .forAll .refl fun _ _ h => h.besides (circRefresh_keeps ..)
  have h1 : MeterStays apartWindow s x1 :=
    (((h0.besides (pset_keeps ..)).besides (pset_keeps ..)).besides (pset_keeps ..)).besides (pset_keeps ..)
  clear_value x1
  have h2 : MeterStays apartWindow x1 (modMtr x1 clearAcc) := .of rfl
  exact (h1.trans h2).trans (snapshot_apart ..)

/-- The outputs of a cartridge that stops go off. -/
def outputsOff (s : State) : State :=
  forAll (upto 9) (fun s o => if (pulse s o).on then emit (setPulse s o { pulse s o with on := false }) (.pulse o false) else s) s

theorem outputsOff_apart : MeterStays apartOutputs s (outputsOff s) := by
  unfold outputsOff
  have off (t : State) (o : Nat) (p : Pulse) : MeterStays apartOutputs t (setPulse t o p) := .of rfl
  exact .forAll .refl fun _ _ h => .ite ((h.trans (off ..)).besides (emit_keeps ..)) h

/-- The cartridge does not run, shows nothing, and waits for no end of a hold-up. -/
def notRunning (s : State) : State := modMtr s fun m => { m with running := false, showing := none, dipping := none }

theorem mtrStop_eq : mtrStop s = refGone (clearMetering (outputsOff (notRunning s))) := rfl

/-- Beside that, the end of running leaves the cartridge as it is but for its pulse outputs. -/
theorem mtrStop_apart : MeterStays apartOutputs (notRunning s) (mtrStop s) := by
  rw [mtrStop_eq]
  exact ((outputsOff_apart ..).besides (clearMetering_keeps ..)).besides (refGone_keeps ..)

end

end Sys2Proof.Proofs
end

section
/-! The legal region of the metrology log under every operation that reaches the cartridge (R309, R310, R313). -/

namespace Sys2Proof.Proofs

set_option Elab.async false

open Machine Laws

/-! ### Operations that leave the legal region as it is -/

/-- The legal region is the same in both states. -/
abbrev LegalStays (s t : State) : Prop := MeterStays Mtr.legalLog s t

section
variable (s : State)

theorem mtrLog_legalStays (code : Nat) (args : List Word) : LegalStays s (mtrLog s false code args) := .of rfl

theorem takeFree_legalStays : LegalStays s (takeFree s).2 := .of rfl

theorem mtrStop_legalStays : LegalStays s (mtrStop s) := by
  have before : LegalStays s (notRunning s) := .of rfl
  exact before.trans ((mtrStop_apart s).reads Mtr.legalLog)

theorem applyBlocks_legalStays : LegalStays s (applyBlocks s) := (applyBlocks_apart s).reads Mtr.legalLog

theorem startIntervals_legalStays : LegalStays s (startIntervals s) := (startIntervals_apart s).reads Mtr.legalLog

theorem endSub_legalStays (j ts : Nat) (nt : Option Nat) (byAuto : Bool) : LegalStays s (endSub s j ts nt byAuto) :=
  (endSub_apart ..).reads Mtr.legalLog

theorem setDset_legalStays (j : Nat) (d : DemSet) : LegalStays s (setDset s j d) := .of rfl

theorem setCirc_legalStays (k : Nat) (c : Circ) : LegalStays s (setCirc s k c) := .of rfl

theorem setPulse_legalStays (o : Nat) (p : Pulse) : LegalStays s (setPulse s o p) := .of rfl

theorem mtrSave_legalStays (residual : Bool) : LegalStays s (mtrSave s residual) := .of rfl

theorem snapshot_legalStays : LegalStays s (snapshot s) := .of rfl

/-- A fault of the cartridge put in its log, with the next free value for its code. -/
def faultLogged (s : State) : State := mtrLog { s with free := s.free + 1 } false 0x106 [Config.cartFault s.free]

theorem mtrFault_eq : mtrFault s = if (faultLogged s).mtr.fault then faultLogged s
    else mtrEvent (modMtr (faultLogged s) fun m => { m with fault := true }) 5 := rfl

theorem mtrFault_legalStays : LegalStays s (mtrFault s) := by
  rw [mtrFault_eq]
  have logged : LegalStays s (faultLogged s) := .of rfl
  have marked : LegalStays s (modMtr (faultLogged s) fun m => { m with fault := true }) := .of rfl
  exact .ite logged (marked.besides (mtrEvent_keeps ..))

theorem loadSlot_legalStays (k : SaveSlot) : LegalStays s (loadSlot s k) := by
  unfold loadSlot
  extract_lets +onlyGivenNames _ _ x0 x1 x2 x3
  have h0 : LegalStays s x0 := .of rfl
  have h1 : LegalStays s x1 := .forAll h0 fun _ _ h => h.trans (setCirc_legalStays ..)
  have h2 : LegalStays s x2 := h1.trans (mtrLog_legalStays ..)
  have h3 : LegalStays s x3 := h2.upd
  exact .ite h2 ((h3.trans (mtrLog_legalStays ..)).besides (mtrEvent_keeps ..))

theorem flashNext_legalStays : LegalStays s (flashNext s) := by
  unfold flashNext
  split
  · exact .ite (.of rfl) .refl
  · exact .refl

theorem tenantSet_legalStays (k p : Nat) : LegalStays s (tenantSet s k p).2.2 := by
  unfold tenantSet
  split
  · exact .refl
  · exact .of rfl

theorem openRun_legalStays (op : Nat) (a0 a1 : Word) : LegalStays s (openRun s op a0 a1).2 := by
  have put (r : Option (List Word)) (code : Nat) : LegalStays s (match r with
      | some w => (0, modMtr s (fun m => { m with resp := w }))
      | none => (code, s)).2 := by
    cases r
    · exact .refl
    · exact .of rfl
  unfold openRun
  extract_lets p
  split
  · exact .refl
  · split
    · exact put ..
    · exact put ..
    · exact tenantSet_legalStays ..
    · exact put ..
    · exact .of rfl
    · exact .refl

theorem openCmd_legalStays (op : Nat) : LegalStays s (openCmd s op) := by
  unfold openCmd
  exact .ite .refl (.of rfl)

theorem secCmd_legalStays (op : Nat) : LegalStays s (secCmd s op) := by
  unfold secCmd
  exact .ite .refl (.of rfl)

theorem openWith_legalStays (op : Nat) (a0 a1 : Word) : LegalStays s (openWith s op a0 a1) :=
  ((meterStays_kept (rset_keeps ..)).besides (rset_keeps ..)).trans (openCmd_legalStays ..)

theorem secWith_legalStays (op : Nat) (a0 a1 : Word) : LegalStays s (secWith s op a0 a1) :=
  ((meterStays_kept (rset_keeps ..)).besides (rset_keeps ..)).trans (secCmd_legalStays ..)

/-! ### Register writes and descriptors -/

theorem mtrWrite_legalStays (o : Nat) (v : Word) : LegalStays s (mtrWrite s o v) := by
  unfold mtrWrite
  exact .ite (openCmd_legalStays ..) (.ite (secCmd_legalStays ..) (meterStays_kept (rwrite_keeps ..)))

theorem regWrite_legalStays (off : Nat) (v : Word) : LegalStays s (regWrite s off v) := by
  unfold regWrite
  extract_lets +onlyGivenNames o
  refine .ite (.ite (meterStays_kept (ringErr_keeps ..)) (.of rfl)) (.ite (meterStays_kept (pairWrite_keeps ..)) ?_)
  split
  · exact meterStays_kept (glbWrite_keeps ..)
  · exact meterStays_kept (clkWrite_keeps ..)
  · exact meterStays_kept (phcWrite_keeps ..)
  · exact meterStays_kept (bnkWrite_keeps ..)
  · exact meterStays_kept (lceWrite_keeps ..)
  · exact meterStays_kept (rwrite_keeps ..)
  · exact mtrWrite_legalStays ..
  · exact meterStays_kept (twnWrite_keeps ..)
  · exact meterStays_kept (rngWrite_keeps ..)
  · exact meterStays_kept (ethWrite_keeps ..)
  · exact meterStays_kept (canWrite_keeps ..)
  · exact meterStays_kept (rtcWrite_keeps ..)
  · exact meterStays_kept (secWrite_keeps ..)
  · exact meterStays_kept (updWrite_keeps ..)
  · exact .refl

theorem barWrite_legalStays (t : Target) (off : Nat) (v : Word) : LegalStays s (barWrite s t off v) := by
  unfold barWrite Machine.access
  exact .ite .refl (.ite ((meterStays_kept (wakeFor_keeps ..)).trans (regWrite_legalStays ..))
    (meterStays_kept (worldViol_keeps ..)))

theorem opCfgWrite_legalStays (n : Nat) (f : Flight) : LegalStays s (opCfgWrite s n f) := by
  unfold opCfgWrite
  extract_lets +onlyGivenNames t ps
  split
  · exact meterStays_kept (fail_keeps ..)
  · refine .ite (meterStays_kept (busFail_keeps ..)) (.ite (meterStays_kept (fail_keeps ..)) ?_)
    extract_lets +onlyGivenNames x0
    have h0 : LegalStays s x0 := .forAll .refl fun _ _ h => h.trans (regWrite_legalStays ..)
    exact .ite ((h0.besides (setWaiting_keeps ..)).besides (cfgRequest_keeps ..)) (h0.besides (ok_keeps ..))

theorem opMtrTenant_legalStays (n : Nat) (f : Flight) : LegalStays s (opMtrTenant s n f) := by
  unfold opMtrTenant
  refine .ite (meterStays_kept (mtrFail_keeps ..)) ?_
  extract_lets r
  exact .ite ((tenantSet_legalStays ..).besides (ok_keeps ..)) (meterStays_kept (mtrFail_keeps ..))

/-- Of the later operations MTR_SET_TENANT alone reaches the cartridge. -/
theorem runMore_legalStays (n : Nat) (f : Flight) : LegalStays s (runMore s n f) := by
  unfold runMore
  split
  case h_5 => exact opMtrTenant_legalStays ..
  · exact meterStays_kept (opMtrSet_keeps ..)
  · exact meterStays_kept (opMtrInterval_keeps ..)
  · exact meterStays_kept (opMtrLog_keeps ..)
  · exact meterStays_kept (opMtrParam_keeps ..)
  · exact meterStays_kept (opRecRead_keeps ..)
  · exact meterStays_kept (kopGen_keeps ..)
  · exact meterStays_kept (kopDerive_keeps ..)
  · exact meterStays_kept (kopInvalidate_keeps ..)
  · exact meterStays_kept (opKeyAttest_keeps ..)
  · exact meterStays_kept (opKeyEnrol_keeps ..)
  · exact meterStays_kept (kopAead_keeps ..)
  · exact meterStays_kept (kopSign_keeps ..)
  · exact meterStays_kept (kopInfo_keeps ..)
  · exact meterStays_kept (opCanTx_keeps ..)
  · exact meterStays_kept (opCanRx_keeps ..)
  · exact meterStays_kept (opCanRecover_keeps ..)
  · exact meterStays_kept (opEthTx_keeps ..)
  · exact meterStays_kept (opEthRxPost_keeps ..)
  · exact meterStays_kept (updOp_keeps (fun _ _ _ => (uopChunk_keeps ..).mono (by decide)) ..)
  · exact meterStays_kept (updOp_keeps (fun _ _ _ => (uopStatus_keeps ..).mono (by decide)) ..)
  · exact meterStays_kept (updOp_keeps (fun _ _ _ => (uopConfirm_keeps ..).mono (by decide)) ..)
  · exact meterStays_kept (updOp_keeps (fun _ _ _ => (uopAbort_keeps ..).mono (by decide)) ..)
  · exact meterStays_kept (fail_keeps ..)

/-- Of the earlier operations CFG_WRITE alone reaches the cartridge. -/
theorem runCore_legalStays (n : Nat) (f : Flight) : LegalStays s (runCore s n f) := by
  unfold runCore
  split
  case h_9 => exact opCfgWrite_legalStays ..
  · exact meterStays_kept (ok_keeps ..)
  · exact meterStays_kept (opFence_keeps ..)
  · exact meterStays_kept (opResume_keeps ..)
  · exact meterStays_kept (opPtRead_keeps ..)
  · exact meterStays_kept (opPtWrite_keeps ..)
  · exact meterStays_kept (opPtWatch_keeps ..)
  · exact meterStays_kept (opRioRead_keeps ..)
  · exact meterStays_kept (opRioWrite_keeps ..)
  · exact meterStays_kept (opCfgRead_keeps ..)
  · exact meterStays_kept (opCtrl_keeps ..)
  · exact meterStays_kept (opImgLoad_keeps ..)
  · exact meterStays_kept (opImgActivate_keeps ..)
  · exact meterStays_kept (opImgCancel_keeps ..)
  · exact meterStays_kept (opInstRead_keeps ..)
  · exact meterStays_kept (opInstWrite_keeps ..)
  · exact meterStays_kept (opForceSet_keeps ..)
  · exact meterStays_kept (opForceRelease_keeps ..)
  · exact meterStays_kept (opForceList_keeps ..)
  · exact meterStays_kept (opTimed_keeps ..)
  · exact meterStays_kept (opHandoffReq_keeps ..)
  · exact meterStays_kept (fail_keeps ..)

theorem runChecked_legalStays (n : Nat) (f : Flight) (hop : Nat) : LegalStays s (runChecked s n f hop) := by
  unfold runChecked
  extract_lets +onlyGivenNames x0
  have h0 : LegalStays s x0 := .ite (runCore_legalStays ..) (runMore_legalStays ..)
  split
  · exact h0
  · exact .ite (((meterStays_kept (emit_keeps ..)).besides (poison_keeps ..)).besides (fail_keeps ..))
      (.ite ((meterStays_kept (poison_keeps ..)).besides (fail_keeps ..)) h0)

theorem commitOne_legalStays (n : Nat) (f : Flight) (hop : Nat) : LegalStays s (commitOne s n f hop) := by
  unfold commitOne
  refine .ite ((meterStays_kept (poison_keeps ..)).besides (fail_keeps ..)) (.ite (meterStays_kept (complete_keeps ..)) ?_)
  split
  · exact meterStays_kept (fail_keeps ..)
  · exact .ite (meterStays_kept (fail_keeps ..)) (.ite (meterStays_kept (fail_keeps ..)) (runChecked_legalStays ..))

theorem commitFront_legalStays (n hop : Nat) : LegalStays s (commitFront s n hop) := by
  unfold commitFront
  split
  · exact .ite (commitOne_legalStays ..) .refl
  · exact .refl

theorem submit_legalStays (n op : Nat) (d : Desc) : LegalStays s (submit s n op d) := by
  unfold submit
  refine .ite ?_ .refl
  extract_lets +onlyGivenNames x0
  have h0 : LegalStays s x0 := meterStays_kept (fetch_keeps ..)
  exact .ite (h0.trans (commitFront_legalStays ..)) h0

end

/-! ### Records of the legal region -/

/-- From `s` to `t` the legal region only grew, at its end, and stayed within its 512 records. -/
structure LegalGrows (s t : State) : Prop where
  ahead : s.mtr.legalLog <+: t.mtr.legalLog
  within : s.mtr.legalLog.length ≤ 512 → t.mtr.legalLog.length ≤ 512

section
variable {s t u : State}

theorem LegalGrows.trans (h : LegalGrows s t) (g : LegalGrows t u) : LegalGrows s u :=
  ⟨h.ahead.trans g.ahead, fun in_ => g.within (h.within in_)⟩

theorem legalGrows_of_stays (h : LegalStays s t) : LegalGrows s t := by
  have same : t.mtr.legalLog = s.mtr.legalLog := h.eq
  exact ⟨same ▸ List.prefix_refl _, fun in_ => same ▸ in_⟩

theorem LegalGrows.stay (h : LegalGrows s t) (g : LegalStays t u) : LegalGrows s u := h.trans (legalGrows_of_stays g)

theorem LegalGrows.ite {c : Prop} [Decidable c] (h : LegalGrows s t) (g : LegalGrows s u) :
    LegalGrows s (if c then t else u) := by split <;> assumption

variable (s)

/-- A record goes at the end, and only while the region has room (R313). -/
theorem mtrLog_legalGrows (legal : Bool) (code : Nat) (args : List Word) : LegalGrows s (mtrLog s legal code args) := by
  cases legal
  · exact legalGrows_of_stays (mtrLog_legalStays ..)
  · unfold mtrLog
    split
    · exact legalGrows_of_stays .refl
    · rename_i room
      have few : s.mtr.legalLog.length < 512 := by simpa [legalFull] using room
      exact ⟨List.prefix_append .., fun _ => (List.length_append (as := s.mtr.legalLog)).trans_le few⟩

theorem commitBlock_legalGrows (b : Nat) : LegalGrows s (commitBlock s b).2 := by
  have same : LegalGrows s s := legalGrows_of_stays .refl
  unfold commitBlock
  split
  · exact same
  · extract_lets l
    split
    · exact legalGrows_of_stays (meterStays_kept (rset_keeps ..))
    · split
      · exact same
      · refine .trans ?_ (mtrLog_legalGrows ..)
        exact legalGrows_of_stays (.of rfl)

theorem meterIdSet_legalGrows : LegalGrows s (meterIdSet s).2 := by
  have same : LegalGrows s s := legalGrows_of_stays .refl
  unfold meterIdSet
  extract_lets l
  split
  · exact same
  · split
    · exact same
    · split
      · exact same
      · refine .trans ?_ (mtrLog_legalGrows ..)
        exact legalGrows_of_stays (.of rfl)

theorem secRun_legalGrows (op : Nat) (a0 a1 : Word) : LegalGrows s (secRun s op a0 a1).2 := by
  have same : LegalGrows s s := legalGrows_of_stays .refl
  have staged (l : Tab (List Nat)) : LegalGrows s (modMtr s fun m => { m with staged := l }) := legalGrows_of_stays (.of rfl)
  unfold secRun
  extract_lets b o
  split
  · exact same
  · split
    · exact same
    · split
      · split
        · exact same
        · exact staged _
      · exact commitBlock_legalGrows ..
      · split
        · exact same
        · exact staged _
      · exact meterIdSet_legalGrows ..
      · exact same

theorem cartUpdated_legalGrows (sw_ : Word) : LegalGrows s (cartUpdated s sw_) := by
  have begun (t : State) : LegalStays t (modMtr t fun m => { freshRun m sw_ with running := true }) := .of rfl
  have counted (t : State) : LegalStays t (modMtr t fun m => { m with cntParam := satInc m.cntParam }) := .of rfl
  unfold cartUpdated
  extract_lets +onlyGivenNames old x0 x1 x2 x3 x4 x5
  have h0 : LegalStays s x0 := (mtrSave_legalStays ..).trans (mtrStop_legalStays ..)
  clear_value x0 old
  have h1 : LegalStays s x1 := h0.trans (begun _)
  clear_value x1
  have h2 : LegalStays s x2 := by
    subst x2
    split
    · exact h1.trans (loadSlot_legalStays ..)
    · exact h1
  clear_value x2
  have h3 : LegalStays s x3 := (h2.trans (startIntervals_legalStays ..)).trans (applyBlocks_legalStays ..)
  clear_value x3
  have h4 : LegalStays s x4 := .forAll h3 fun _ _ h => h.trans (setCirc_legalStays ..)
  clear_value x4
  have h5 : LegalGrows s x5 := ((legalGrows_of_stays h4).trans (mtrLog_legalGrows ..)).stay (counted _)
  exact h5.stay ((meterStays_kept (emptyStage_keeps ..)).besides (updEvent_keeps ..))

end

end Sys2Proof.Proofs
end

section
/-! The legal region of the metrology log through every command (O51). -/

namespace Sys2Proof.Proofs

set_option Elab.async false

open Machine Laws

/-- A command that leaves the legal region as it is. -/
def LeavesLegal (s : State) (o : Host.Outcome State Fault Refusal) : Prop := ∃ u, o = .next (close s u) ∧ LegalStays s u

/-- A command in which the legal region only grows, within its 512 records. -/
def GrowsLegal (s : State) (o : Host.Outcome State Fault Refusal) : Prop := ∃ u, o = .next (close s u) ∧ LegalGrows s u

section
variable (s : State)

/-! ### Commands of the cartridge that write no legal record -/

theorem execCloseStrobe_legalStays (after : Bool) : LeavesLegal s (execCloseStrobe after s) := by
  refine ⟨_, rfl, ?_⟩
  split
  · exact .refl
  · extract_lets +onlyGivenNames x0
    have h0 : LegalStays s x0 := .of rfl
    refine .ite h0 (.forAll h0 fun _ _ h => .ite h (.ite (h.trans (endSub_legalStays ..)) (h.trans (setDset_legalStays ..))))

theorem execAutoClose_legalStays (j : Fin 8) : LeavesLegal s (execAutoClose j s) := by
  refine ⟨_, rfl, ?_⟩
  extract_lets +onlyGivenNames d l sub wait
  refine .ite ?_ .refl
  extract_lets +onlyGivenNames x0 d' x1
  have h0 : LegalStays s x0 := endSub_legalStays ..
  have h1 : LegalStays s x1 := h0.trans (mtrLog_legalStays ..)
  exact .ite (h1.trans (setDset_legalStays ..)) h0

theorem execCartChg_legalStays (present : Bool) : LeavesLegal s (execCartChg present s) := by
  refine ⟨_, rfl, ?_⟩
  refine .ite .refl ?_
  extract_lets +onlyGivenNames -merge -useContext _ x0 x1
  have h0 : LegalStays s x0 := .of rfl
  have h1 : LegalStays s x1 := .ite h0 (h0.trans (mtrStop_legalStays ..))
  exact h1.besides (raiseHost_keeps ..)

theorem execCartridgeCycle_legalStays (m : CycleMeas) : LeavesLegal s (execCartridgeCycle m s) := by
  refine ⟨_, rfl, ?_⟩
  extract_lets +onlyGivenNames ns
  refine .ite .refl (.ite (mtrStop_legalStays ..) ?_)
  extract_lets +onlyGivenNames map x0 x1 x2
  have begun : LegalStays s (voltCycle m (mtrElapse s (ns / 1000))) := .of rfl
  have h0 : LegalStays s x0 := .forAll begun fun _ _ h => h.trans ((circCycle_apart ..).reads Mtr.legalLog)
  have h1 : LegalStays s x1 := by
    refine .forAll h0 fun _ _ h => ?_
    split
    · exact h.trans (endSub_legalStays ..)
    · exact h
  have h2 : LegalStays s x2 := h1.trans (applyBlocks_legalStays ..)
  clear_value x2
  have taken : LegalStays x2 (modMtr x2 fun c => { c with corr := c.corrNext }) := .of rfl
  exact (h2.trans taken).trans ((windowStep_apart ..).reads Mtr.legalLog)

theorem execCartridgeRun_legalStays (sw_ : Word) (good : BitVec 16) : LeavesLegal s (execCartridgeRun sw_ good s) := by
  have fresh (t : State) : LegalStays t (modMtr t fun m => freshRun m sw_) := .of rfl
  have idle (t : State) : LegalStays t
    (modMtr t fun m => { m with openDoor := { m.openDoor with busy := false }, secDoor := { m.secDoor with busy := false } }) :=
    .of rfl
  have runs (t : State) : LegalStays t (modMtr t fun m => { m with running := true }) := .of rfl
  have starts (t u : State) (h : LegalStays t u) : LegalStays t (applyBlocks (startIntervals u)) :=
    (h.trans (startIntervals_legalStays ..)).trans (applyBlocks_legalStays ..)
  refine ⟨_, rfl, ?_⟩
  refine .ite .refl ?_
  extract_lets +onlyGivenNames x0 x1 x2
  have h0 : LegalStays s x0 := .ite (mtrStop_legalStays ..) .refl
  have h2 : LegalStays s x2 := (h0.trans (fresh _)).trans (idle _)
  refine .ite (starts _ _ (h2.trans (runs _))) ?_
  split
  · exact h2.trans (mtrFault_legalStays ..)
  · exact starts _ _ ((h2.trans (runs _)).trans (loadSlot_legalStays ..))

theorem execCartridgeSupplyDip_legalStays : LeavesLegal s (execCartridgeSupplyDip s) := by
  have back (t : State) : LegalStays t (modMtr t fun m => { m with dipping := none }) := .of rfl
  exact ⟨_, rfl, .ite ((back _).trans (mtrLog_legalStays ..)) .refl⟩

theorem execMtrClose_legalStays (n : Fin 1024) : LeavesLegal s (execMtrClose n s) := by
  have due : LegalStays s (dueCommits s) := meterStays_kept (dueCommits_keeps ..)
  have sent (t : State) (x : Nat × Nat × Option Nat) :
    LegalStays t (modMtr t fun m => { m with strobes := m.strobes ++ [x] }) := .of rfl
  refine ⟨_, rfl, ?_⟩
  split
  · extract_lets +onlyGivenNames ts nt x0
    have h0 : LegalStays s x0 := (due.besides (fireEntry_keeps (by assumption))).besides (emit_keeps ..)
    exact h0.trans (sent ..)
  · exact due

theorem execPeriodicSave_legalStays : LeavesLegal s (execPeriodicSave s) :=
  ⟨_, rfl, .ite ((mtrSave_legalStays ..).trans (snapshot_legalStays ..)) .refl⟩

theorem execSupplyLoss_legalStays : LeavesLegal s (execSupplyLoss s) := by
  have lost (t : State) (k : Nat) :
    LegalStays t (modMtr t fun m => { m with dipping := some (m.us + 15000 + Config.cartHoldup k) }) := .of rfl
  refine ⟨_, rfl, ?_⟩
  refine .ite ?_ .refl
  exact (((mtrSave_legalStays ..).trans (snapshot_legalStays ..)).trans (takeFree_legalStays ..)).trans (lost ..)

theorem execPulseOutput_legalStays (o : Fin 9) (on : Bool) : LeavesLegal s (execPulseOutput o on s) := by
  have put (p : Pulse) (b : Bool) : LegalStays s (emit (setPulse s o.val p) (.pulse o.val b)) :=
    (setPulse_legalStays ..).besides (emit_keeps ..)
  refine ⟨_, rfl, ?_⟩
  extract_lets +onlyGivenNames p
  exact .ite (flashNext_legalStays ..) (.ite (.ite (put ..) .refl) (.ite (put ..) .refl))

theorem execTemperatureReading_legalStays (t : BitVec 12) : LeavesLegal s (execTemperatureReading t s) :=
  ⟨_, rfl, .ite .refl (.of rfl)⟩

theorem execShowCheckEnd_legalStays : LeavesLegal s (execShowCheckEnd s) := ⟨_, rfl, .of rfl⟩

theorem execReadLog_legalStays (a0 : Word) : LeavesLegal s (execReadLog a0 s) :=
  ⟨_, rfl, .reached .refl fun _ h => h.trans (openWith_legalStays ..)⟩

theorem execReadInterval_legalStays (a0 a1 : Word) : LeavesLegal s (execReadInterval a0 a1 s) :=
  ⟨_, rfl, .reached .refl fun _ h => h.trans (openWith_legalStays ..)⟩

theorem execSetTenant_legalStays (a0 a1 : Word) : LeavesLegal s (execSetTenant a0 a1 s) :=
  ⟨_, rfl, .reached .refl fun _ h => h.trans (openWith_legalStays ..)⟩

theorem execReadParam_legalStays (a0 a1 : Word) : LeavesLegal s (execReadParam a0 a1 s) :=
  ⟨_, rfl, .reached .refl fun _ h => h.trans (openWith_legalStays ..)⟩

theorem execShowCheck_legalStays : LeavesLegal s (execShowCheck s) :=
  ⟨_, rfl, .reached .refl fun _ h => h.trans (openCmd_legalStays ..)⟩

theorem execParamStage_legalStays (a0 a1 : Word) : LeavesLegal s (execParamStage a0 a1 s) :=
  ⟨_, rfl, .reached .refl fun _ h => h.trans (secWith_legalStays ..)⟩

theorem execParamCommit_legalStays (a0 : Word) : LeavesLegal s (execParamCommit a0 s) :=
  ⟨_, rfl, .reached .refl fun _ h => h.trans (secWith_legalStays ..)⟩

theorem execParamDiscard_legalStays (a0 : Word) : LeavesLegal s (execParamDiscard a0 s) :=
  ⟨_, rfl, .reached .refl fun _ h => h.trans (secWith_legalStays ..)⟩

theorem execSetMeterId_legalStays : LeavesLegal s (execSetMeterId s) :=
  ⟨_, rfl, .reached .refl fun _ h => h.trans (secCmd_legalStays ..)⟩

theorem execRegisterWrite_legalStays (t : Target) (off width value : Nat) :
    LeavesLegal s (execRegisterWrite t off width value s) := by
  refine ⟨_, rfl, ?_⟩
  refine .ite .refl ?_
  split
  · exact meterStays_kept (configWrite_keeps ..)
  · exact .ite (meterStays_kept (bellWrite_keeps ..)) .refl
  · exact .ite (barWrite_legalStays ..) (.ite ((barWrite_legalStays ..).trans (barWrite_legalStays ..)) .refl)

theorem execDescriptorCommit_legalStays (n : Fin 64) (hop : Fin 13) : LeavesLegal s (execDescriptorCommit n hop s) :=
  ⟨_, rfl, commitFront_legalStays ..⟩

/-! ### Commands that write legal records (R311) -/

theorem execSealChange_legalGrows (open_ : Bool) : GrowsLegal s (execSealChange open_ s) := by
  have counted (t : State) : LegalStays t (modMtr t fun m => { m with cntSeal := satInc m.cntSeal }) := .of rfl
  refine ⟨_, rfl, ?_⟩
  refine .ite (legalGrows_of_stays .refl) ?_
  extract_lets +onlyGivenNames -merge -useContext live x0 _ x1 x2
  have h0 : LegalStays s x0 := .of rfl
  have h1 : LegalStays s x1 := .ite h0 (h0.trans (.of rfl))
  have h2 : LegalStays s x2 := .ite (h1.trans (counted _)) h1
  exact LegalGrows.stay ((legalGrows_of_stays h2).trans (.ite (mtrLog_legalGrows ..) (mtrLog_legalGrows ..)))
    (meterStays_kept (mtrEvent_keeps ..))

theorem execDoorCommandDone_legalGrows (secure : Bool) : GrowsLegal s (execDoorCommandDone secure s) := by
  have ended (t : State) (code : Nat) : LegalStays t (modMtr t fun m => { m with secDoor := doorEnd m.secDoor code }) := .of rfl
  have ended' (t : State) (code : Nat) : LegalStays t (modMtr t fun m => { m with openDoor := doorEnd m.openDoor code }) :=
    .of rfl
  have same : LegalGrows s s := legalGrows_of_stays .refl
  exact ⟨_, rfl, .ite (.ite same ((secRun_legalGrows ..).stay (ended ..)))
    (.ite same (legalGrows_of_stays ((openRun_legalStays ..).trans (ended' ..))))⟩

theorem execCartSoftwareDone_legalGrows (ok : Bool) (sw_ : Word) : GrowsLegal s (execCartSoftwareDone ok sw_ s) :=
  ⟨_, rfl, .ite (legalGrows_of_stays .refl) (.ite
    (legalGrows_of_stays ((meterStays_kept (modUpd_keeps ..)).besides (updEvent_keeps ..))) (cartUpdated_legalGrows ..))⟩

end

/-! ### Every command -/

section
variable {may : List Piece} {s : State} {o : Host.Outcome State Fault Refusal}

/-- A command that leaves the cartridge alone. -/
theorem grows_of_keeps (hk : ∃ u, o = .next (close s u) ∧ Keeps may s u) (hp : Piece.mtr ∉ may := by decide) :
    GrowsLegal s o := by
  obtain ⟨u, hu, keeps⟩ := hk
  exact ⟨u, hu, legalGrows_of_stays (meterStays_kept keeps hp)⟩

theorem grows_of_stays (hk : LeavesLegal s o) : GrowsLegal s o := by
  obtain ⟨u, hu, stays⟩ := hk
  exact ⟨u, hu, legalGrows_of_stays stays⟩

/-- A descriptor of a ring. -/
theorem grows_submit (n op : Nat) (d : Desc) : GrowsLegal s (done s (submit s n op d)) :=
  ⟨_, rfl, legalGrows_of_stays (submit_legalStays ..)⟩

end

/-- Seal changes, door commands and new software write legal records; no other command touches the region. -/
theorem exec_growsLegal (s : State) (c : Instr) : GrowsLegal s (exec c s) := by
  cases c with
  | registerWrite => exact grows_of_stays (execRegisterWrite_legalStays ..)
  | latchedRead => exact grows_of_keeps (execLatchedRead_keeps ..)
  | seatingRecognised => exact grows_of_keeps (execSeatingRecognised_keeps ..)
  | seatLoss => exact grows_of_keeps (execSeatLoss_keeps ..)
  | slotCodeChange => exact grows_of_keeps (execSlotCodeChange_keeps ..)
  | logicInputGood => exact grows_of_keeps (execLogicInputGood_keeps ..)
  | logicInputLost => exact grows_of_keeps (execLogicInputLost_keeps ..)
  | peerSeatChg => exact grows_of_keeps (execPeerSeatChg_keeps ..)
  | cartChg => exact grows_of_stays (execCartChg_legalStays ..)
  | thermalUpdate => exact grows_of_keeps (execThermalUpdate_keeps ..)
  | referenceMarker => exact grows_of_keeps (execReferenceMarker_keeps ..)
  | cycleBoundary => exact grows_of_keeps (execCycleBoundary_keeps ..)
  | missingMarker => exact grows_of_keeps (execMissingMarker_keeps ..)
  | holdoverTimeout => exact grows_of_keeps (execHoldoverTimeout_keeps ..)
  | stepCycleEnd => exact grows_of_keeps (execStepCycleEnd_keeps ..)
  | bankConvert => exact grows_of_keeps (execBankConvert_keeps ..)
  | lcePass => exact grows_of_keeps (execLcePass_keeps ..)
  | waitingPassStart => exact grows_of_keeps (execWaitingPassStart_keeps ..)
  | bleTask => exact grows_of_keeps (execBleTask_keeps ..)
  | taskCycleResume => exact grows_of_keeps (execTaskCycleResume_keeps ..)
  | taskCycleCommit => exact grows_of_keeps (execTaskCycleCommit_keeps ..)
  | zcOutput => exact grows_of_keeps (execZcOutput_keeps ..)
  | zcSwitch => exact grows_of_keeps (execZcSwitch_keeps ..)
  | mtrClose => exact grows_of_stays (execMtrClose_legalStays ..)
  | twnSample => exact grows_of_keeps (execTwnSample_keeps ..)
  | defaultSample => exact grows_of_keeps (execDefaultSample_keeps ..)
  | hostEvent => exact grows_of_keeps (execHostEvent_keeps ..)
  | phcCommit => exact grows_of_keeps (execPhcCommit_keeps ..)
  | phcCommitPoint => exact grows_of_keeps (execPhcCommitPoint_keeps ..)
  | timedActionFire => exact grows_of_keeps (execTimedActionFire_keeps ..)
  | clockSourceSwitch => exact grows_of_keeps (execClockSourceSwitch_keeps ..)
  | switchComplete => exact grows_of_keeps (execSwitchComplete_keeps ..)
  | forcedSwitch => exact grows_of_keeps (execForcedSwitch_keeps ..)
  | sourceFail => exact grows_of_keeps (execSourceFail_keeps ..)
  | resetWaitExit => exact grows_of_keeps (execResetWaitExit_keeps ..)
  | gateClose => exact grows_of_keeps (execGateClose_keeps ..)
  | gateCloseTimeout => exact grows_of_keeps (execGateCloseTimeout_keeps ..)
  | gateOpen => exact grows_of_keeps (execGateOpen_keeps ..)
  | sleepWake => exact grows_of_keeps (execSleepWake_keeps ..)
  | fmStart => exact grows_of_keeps (execFmStart_keeps ..)
  | fmDone => exact grows_of_keeps (execFmDone_keeps ..)
  | powerFailWarning => exact grows_of_keeps (execPowerFailWarning_keeps ..)
  | powerFailRestart => exact grows_of_keeps (execPowerFailRestart_keeps ..)
  | holdupEnd => exact grows_of_keeps (execHoldupEnd_keeps ..)
  | startUp => exact grows_of_keeps (execStartUp_keeps ..)
  | pePerst => exact grows_of_keeps (execPePerst_keeps ..)
  | supWdogExpiry => exact grows_of_keeps (execSupWdogExpiry_keeps ..)
  | bankLinkKeepalive => exact grows_of_keeps (execBankLinkKeepalive_keeps ..)
  | readingFrame => exact grows_of_keeps (execReadingFrame_keeps ..)
  | diagnosticFrame => exact grows_of_keeps (execDiagnosticFrame_keeps ..)
  | keepAliveFrame => exact grows_of_keeps (execKeepAliveFrame_keeps ..)
  | outputFrame => exact grows_of_keeps (execOutputFrame_keeps ..)
  | configurationFrame => exact grows_of_keeps (execConfigurationFrame_keeps ..)
  | linkDown => exact grows_of_keeps (execLinkDown_keeps ..)
  | bnkCommit => exact grows_of_keeps (execBnkCommit_keeps ..)
  | bankCommitPoint => exact grows_of_keeps (execBankCommitPoint_keeps ..)
  | pwmPeriodStart => exact grows_of_keeps (execPwmPeriodStart_keeps ..)
  | shortShutdown => exact grows_of_keeps (execShortShutdown_keeps ..)
  | overloadShutdown => exact grows_of_keeps (execOverloadShutdown_keeps ..)
  | outputRetry => exact grows_of_keeps (execOutputRetry_keeps ..)
  | faultClear => exact grows_of_keeps (execFaultClear_keeps ..)
  | openWireDetect => exact grows_of_keeps (execOpenWireDetect_keeps ..)
  | openLoadDetect => exact grows_of_keeps (execOpenLoadDetect_keeps ..)
  | extDriveDetect => exact grows_of_keeps (execExtDriveDetect_keeps ..)
  | loadShed => exact grows_of_keeps (execLoadShed_keeps ..)
  | fieldSupplyLost => exact grows_of_keeps (execFieldSupplyLost_keeps ..)
  | fieldSupplyGood => exact grows_of_keeps (execFieldSupplyGood_keeps ..)
  | bankControllerReset => exact grows_of_keeps (execBankControllerReset_keeps ..)
  | bankStart => exact grows_of_keeps (execBankStart_keeps ..)
  | bankOvertemp => exact grows_of_keeps (execBankOvertemp_keeps ..)
  | overtempClearable => exact grows_of_keeps (execOvertempClearable_keeps ..)
  | bnkSafeCmd => exact grows_of_keeps (execBnkSafeCmd_keeps ..)
  | bnkRelease => exact grows_of_keeps (execBnkRelease_keeps ..)
  | bankWatchdogExpiry => exact grows_of_keeps (execBankWatchdogExpiry_keeps ..)
  | diagLatchReport => exact grows_of_keeps (execDiagLatchReport_keeps ..)
  | complianceChange => exact grows_of_keeps (execComplianceChange_keeps ..)
  | voltageOutputShort => exact grows_of_keeps (execVoltageOutputShort_keeps ..)
  | inputSample => exact grows_of_keeps (execInputSample_keeps ..)
  | countPathSample => exact grows_of_keeps (execCountPathSample_keeps ..)
  | currentOutputOpen => exact grows_of_keeps (execCurrentOutputOpen_keeps ..)
  | holdupFull => exact grows_of_keeps (execHoldupFull_keeps ..)
  | sourceGood => exact grows_of_keeps (execSourceGood_keeps ..)
  | pePerstRelease => exact grows_of_keeps (execPePerstRelease_keeps ..)
  | lceCommit => exact grows_of_keeps (execLceCommit_keeps ..)
  | lceBuildComplete => exact grows_of_keeps (execLceBuildComplete_keeps ..)
  | saturationSave => exact grows_of_keeps (execSaturationSave_keeps ..)
  | retainSaveDone => exact grows_of_keeps (execRetainSaveDone_keeps ..)
  | programStoreWriteDone => exact grows_of_keeps (execProgramStoreWriteDone_keeps ..)
  | onlineBuildComplete => exact grows_of_keeps (execOnlineBuildComplete_keeps ..)
  | onlineSwitch => exact grows_of_keeps (execOnlineSwitch_keeps ..)
  | noWindow => exact grows_of_keeps (execNoWindow_keeps ..)
  | canPortEnable => exact grows_of_keeps (execCanPortEnable_keeps ..)
  | canPortDisable => exact grows_of_keeps (execCanPortDisable_keeps ..)
  | canBufferEnable => exact grows_of_keeps (execCanBufferEnable_keeps ..)
  | canMapEnable => exact grows_of_keeps (execCanMapEnable_keeps ..)
  | canFrameReceived => exact grows_of_keeps (execCanFrameReceived_keeps ..)
  | canTransmitEnd => exact grows_of_keeps (execCanTransmitEnd_keeps ..)
  | canErrorStateChange => exact grows_of_keeps (execCanErrorStateChange_keeps ..)
  | canRecoverCmd => exact grows_of_keeps (execCanRecoverCmd_keeps ..)
  | canRecovered => exact grows_of_keeps (execCanRecovered_keeps ..)
  | canBallTaken => exact grows_of_keeps (execCanBallTaken_keeps ..)
  | mappedTx => exact grows_of_keeps (execMappedTx_keeps ..)
  | canRxStale => exact grows_of_keeps (execCanRxStale_keeps ..)
  | ballRequest => exact grows_of_keeps (execBallRequest_keeps ..)
  | holdLineChange => exact grows_of_keeps (execHoldLineChange_keeps ..)
  | leaseExpiry => exact grows_of_keeps (execLeaseExpiry_keeps ..)
  | stateFrameRx _ _ ts => exact grows_of_keeps (execStateFrameRx_keeps _ _ ts ..)
  | rallyFrameRx => exact grows_of_keeps (execRallyFrameRx_keeps ..)
  | twinlinkCheck => exact grows_of_keeps (execTwinlinkCheck_keeps ..)
  | twinlinkLinkDown => exact grows_of_keeps (execTwinlinkLinkDown_keeps ..)
  | heartbeatSend => exact grows_of_keeps (execHeartbeatSend_keeps ..)
  | heartbeatRx => exact grows_of_keeps (execHeartbeatRx_keeps ..)
  | fieldlinkMiss => exact grows_of_keeps (execFieldlinkMiss_keeps ..)
  | fullCopyRequest => exact grows_of_keeps (execFullCopyRequest_keeps ..)
  | fullCopyComplete => exact grows_of_keeps (execFullCopyComplete_keeps ..)
  | selfTest => exact grows_of_keeps (execSelfTest_keeps ..)
  | plannedHandoffBoundary => exact grows_of_keeps (execPlannedHandoffBoundary_keeps ..)
  | handoffFail => exact grows_of_keeps (execHandoffFail_keeps ..)
  | takeback => exact grows_of_keeps (execTakeback_keeps ..)
  | sensePathOpen => exact grows_of_keeps (execSensePathOpen_keeps ..)
  | portLinkUp => exact grows_of_keeps (execPortLinkUp_keeps ..)
  | portLinkDown => exact grows_of_keeps (execPortLinkDown_keeps ..)
  | frameReceived => exact grows_of_keeps (execFrameReceived_keeps ..)
  | frameTransmitEnd => exact grows_of_keeps (execFrameTransmitEnd_keeps ..)
  | addressAgeOut => exact grows_of_keeps (execAddressAgeOut_keeps ..)
  | lpiEntry => exact grows_of_keeps (execLpiEntry_keeps ..)
  | speedStepDown => exact grows_of_keeps (execSpeedStepDown_keeps ..)
  | speedStepUp => exact grows_of_keeps (execSpeedStepUp_keeps ..)
  | filterApply => exact grows_of_keeps (execFilterApply_keeps ..)
  | announceRx => exact grows_of_keeps (execAnnounceRx_keeps ..)
  | syncRx => exact grows_of_keeps (execSyncRx_keeps ..)
  | followUpRx => exact grows_of_keeps (execFollowUpRx_keeps ..)
  | delayRespRx => exact grows_of_keeps (execDelayRespRx_keeps ..)
  | delayReqSend => exact grows_of_keeps (execDelayReqSend_keeps ..)
  | masterLost => exact grows_of_keeps (execMasterLost_keeps ..)
  | stationReq => exact grows_of_keeps (execStationReq_keeps ..)
  | stationRsp => exact grows_of_keeps (execStationRsp_keeps ..)
  | stationTimeout => exact grows_of_keeps (execStationTimeout_keeps ..)
  | stationEnable => exact grows_of_keeps (execStationEnable_keeps ..)
  | stepLockEnd => exact grows_of_keeps (execStepLockEnd_keeps ..)
  | sealChange => exact execSealChange_legalGrows ..
  | cartridgeRun => exact grows_of_stays (execCartridgeRun_legalStays ..)
  | cartridgeCycle => exact grows_of_stays (execCartridgeCycle_legalStays ..)
  | closeStrobe => exact grows_of_stays (execCloseStrobe_legalStays ..)
  | autoClose => exact grows_of_stays (execAutoClose_legalStays ..)
  | temperatureReading => exact grows_of_stays (execTemperatureReading_legalStays ..)
  | pulseOutput => exact grows_of_stays (execPulseOutput_legalStays ..)
  | periodicSave => exact grows_of_stays (execPeriodicSave_legalStays ..)
  | supplyLoss => exact grows_of_stays (execSupplyLoss_legalStays ..)
  | cartridgeSupplyDip => exact grows_of_stays (execCartridgeSupplyDip_legalStays ..)
  | readLog => exact grows_of_stays (execReadLog_legalStays ..)
  | readInterval => exact grows_of_stays (execReadInterval_legalStays ..)
  | setTenant => exact grows_of_stays (execSetTenant_legalStays ..)
  | readParam => exact grows_of_stays (execReadParam_legalStays ..)
  | showCheck => exact grows_of_stays (execShowCheck_legalStays ..)
  | showCheckEnd => exact grows_of_stays (execShowCheckEnd_legalStays ..)
  | paramStage => exact grows_of_stays (execParamStage_legalStays ..)
  | paramCommit => exact grows_of_stays (execParamCommit_legalStays ..)
  | paramDiscard => exact grows_of_stays (execParamDiscard_legalStays ..)
  | setMeterId => exact grows_of_stays (execSetMeterId_legalStays ..)
  | doorCommandDone => exact execDoorCommandDone_legalGrows ..
  | rtcHalt => exact grows_of_keeps (execRtcHalt_keeps ..)
  | rtcResume => exact grows_of_keeps (execRtcResume_keeps ..)
  | rtcResumeAdd => exact grows_of_keeps (execRtcResumeAdd_keeps ..)
  | rtcCountWrite => exact grows_of_keeps (execRtcCountWrite_keeps ..)
  | rtcCdWrite => exact grows_of_keeps (execRtcCdWrite_keeps ..)
  | cdExpired => exact grows_of_keeps (execCdExpired_keeps ..)
  | oscStop => exact grows_of_keeps (execOscStop_keeps ..)
  | retentionLost => exact grows_of_keeps (execRetentionLost_keeps ..)
  | batteryMeasure => exact grows_of_keeps (execBatteryMeasure_keeps ..)
  | batteryMeasureDone => exact grows_of_keeps (execBatteryMeasureDone_keeps ..)
  | optimeSave => exact grows_of_keeps (execOptimeSave_keeps ..)
  | recordWrite => exact grows_of_keeps (execRecordWrite_keeps ..)
  | recordDrop => exact grows_of_keeps (execRecordDrop_keeps ..)
  | rngVerHost => exact grows_of_keeps (execRngVerHost_keeps ..)
  | ringEnable => exact grows_of_keeps (execRingEnable_keeps ..)
  | ringDisable => exact grows_of_keeps (execRingDisable_keeps ..)
  | sqTail => exact grows_of_keeps (execSqTail_keeps ..)
  | cqHead => exact grows_of_keeps (execCqHead_keeps ..)
  | descriptorFetch => exact grows_of_keeps (execDescriptorFetch_keeps ..)
  | descriptorCommit => exact grows_of_stays (execDescriptorCommit_legalStays ..)
  | dmaTimeout => exact grows_of_keeps (execDmaTimeout_keeps ..)
  | interruptTimer => exact grows_of_keeps (execInterruptTimer_keeps ..)
  | functionLevelReset => exact grows_of_keeps (execFunctionLevelReset_keeps ..)
  | busMasterDisable => exact grows_of_keeps (execBusMasterDisable_keeps ..)
  | eventLost => exact grows_of_keeps (execEventLost_keeps ..)
  | watchReport => exact grows_of_keeps (execWatchReport_keeps ..)
  | glbPartCommit => exact grows_of_keeps (execGlbPartCommit_keeps ..)
  | lcRequest => exact grows_of_keeps (execLcRequest_keeps ..)
  | remask => exact grows_of_keeps (execRemask_keeps ..)
  | entropyFail => exact grows_of_keeps (execEntropyFail_keeps ..)
  | entropyRecover => exact grows_of_keeps (execEntropyRecover_keeps ..)
  | updFrag => exact grows_of_keeps (execUpdFrag_keeps ..)
  | updReport => exact grows_of_keeps (execUpdReport_keeps ..)
  | updateVerifyDone => exact grows_of_keeps (execUpdateVerifyDone_keeps ..)
  | install => exact grows_of_keeps (execInstall_keeps ..)
  | fallback => exact grows_of_keeps (execFallback_keeps ..)
  | cartInstall => exact grows_of_keeps (execCartInstall_keeps ..)
  | cartSoftwareDone => exact execCartSoftwareDone_legalGrows ..
  | trialTimeExpiry => exact grows_of_keeps (execTrialTimeExpiry_keeps ..)
  | fallbackHandoffRetry => exact grows_of_keeps (execFallbackHandoffRetry_keeps ..)
  | nop | fence | resume | ptRead | ptWrite | ptWatchAdd | ptWatchRemove | rioRead | rioWrite | cfgWrite | cfgRead
  | ctrlStop | ctrlRestart | ctrlRestartCold | ctrlTaskStart | ctrlReset | imgLoad | imgActivate | imgCancel
  | instRead | instWrite | forceSet | forceRelease | forceList | timed | handoffReq | mtrReadSet | mtrReadInterval
  | mtrReadLog | mtrReadParam | mtrSetTenant | recRead | keyGen | keyDerive | keyInvalidate | keyAttest | keyEnrol
  | aeadEncrypt | aeadDecrypt | sign | keyInfo | canTx | canRx | canRecover | ethTx | ethRxPost | updChunk
  | updStatus | updConfirm | updAbort => exact grows_submit ..

/-- Settles O51: what closes a command leaves the cartridge as it is, and before that the legal region only grew. -/
theorem legalLogOnlyGrowsWithinItsRegion : Obligations.LegalLogOnlyGrowsWithinItsRegion := by
  unfold Obligations.LegalLogOnlyGrowsWithinItsRegion
  intro c s t ht
  obtain ⟨u, hu, grows⟩ := exec_growsLegal s c
  obtain rfl : close s u = t := Host.Outcome.next.inj (hu.symm.trans ht)
  rw [close_mtr]
  exact ⟨grows.ahead, grows.within⟩

end Sys2Proof.Proofs
end

section
/-! SUPPORT. The metering cartridge's tables under a change made for each number of a list, its events, and what its seal, saves and
starts are made of (R263 to R271, R303 to R313). -/

namespace Sys2Proof.Proofs

set_option Elab.async false

open Machine Laws

/-- How a statement is met that names no pieces: the state the command closes, and its effect there. -/
theorem answers {s x : State} {o : Host.Outcome State Fault Refusal} {E : State → Prop} (ho : o = done s x)
    (he : E (close s x)) : ∃ t, o = .next t ∧ E t := ⟨close s x, ho, he⟩

/-! ### A change made for each number of a list -/

theorem forAll_invariant {α : Type} {I : State → Prop} {g : State → α → State} {s : State} {l : List α} (h : I s)
    (step : ∀ u a, I u → I (g u a)) : I (forAll l g s) := by
  unfold forAll
  induction l generalizing s with
  | nil => exact h
  | cons a l ih => exact ih (step s a h)

/-- Each change moves the row of its own number only: that row is then as the one change leaves it, and a row whose number is not
in the list stands. -/
theorem forAll_rows {α : Type} {row : State → Nat → α} {g : State → Nat → State} {I : State → Prop}
    {P : Nat → α → α → Prop}
    (keeps : ∀ u k, I u → I (g u k)) (others : ∀ u k i, i ≠ k → row (g u k) i = row u i)
    (own : ∀ u k, I u → P k (row u k) (row (g u k) k)) {s : State} {l : List Nat} (nodup : l.Nodup) (h : I s) (i : Nat) :
    (i ∈ l → P i (row s i) (row (forAll l g s) i)) ∧ (i ∉ l → row (forAll l g s) i = row s i) := by
  unfold forAll
  induction l generalizing s with
  | nil => exact ⟨fun mem => absurd mem List.not_mem_nil, fun _ => rfl⟩
  | cons a l ih =>
    obtain ⟨fresh, nodup⟩ := List.nodup_cons.mp nodup
    obtain ⟨later, never⟩ := ih nodup (keeps s a h)
    rw [List.foldl_cons]
    refine ⟨fun mem => ?_, fun out => ?_⟩
    · by_cases e : i = a
      · subst e
        rw [never fresh]
        exact own s i h
      · rw [← others s a i e]
        exact later ((List.mem_cons.mp mem).resolve_left e)
    · obtain ⟨other, out⟩ := List.ne_and_not_mem_of_not_mem_cons out
      exact (never out).trans (others s a i other)

theorem nodup_upto (n : Nat) : (upto n).Nodup := List.nodup_range

theorem length_upto (n : Nat) : (upto n).length = n := List.length_range

theorem mem_upto {n i : Nat} : i ∈ upto n ↔ i < n := List.mem_range

/-! ### Tables of the cartridge -/

theorem alook_tins_fresh {α : Type} (m : List (Nat × α)) (k : Nat) (v : α) (fresh : ∀ e ∈ m, e.1 ≠ k) :
    alook (tins m k v) k = some v := by
  induction m with
  | nil => simp [tins, alook]
  | cons e r ih =>
    obtain ⟨j, w⟩ := e
    have hj : j ≠ k := fresh (j, w) List.mem_cons_self
    by_cases hk : k < j
    · simp [tins, alook, hk]
    · simp [tins, alook, hk, hj, ih fun e he => fresh e (List.mem_cons_of_mem _ he)]

@[simp] theorem alook_aset_same {α : Type} (m : List (Nat × α)) (k : Nat) (v : α) : alook (aset m k v) k = some v :=
  alook_tins_fresh _ k v (key_terase m k)

section
variable (s : State)

theorem dset_setDset (j i : Nat) (d : DemSet) : dset_ (setDset s j d) i = if i = j then d else dset_ s i := tget_tset ..

theorem circ_setCirc (k i : Nat) (c : Circ) : circ (setCirc s k c) i = if i = k then c else circ s i := tget_tset ..

theorem pulse_setPulse (o i : Nat) (p : Pulse) : pulse (setPulse s o p) i = if i = o then p else pulse s i := tget_tset ..

/-! ### Events (R325) -/

@[simp] theorem mtrEvent_mtr (bit : Nat) : (mtrEvent s bit).mtr = s.mtr := (mtrEvent_keeps ..).mtr_eq (by decide)

theorem rget_mtrEvent (bit o : Nat) :
    rget (mtrEvent s bit) o = if o = oMtrEvent then rget s oMtrEvent ||| oneBit bit else rget s o := rget_raiseHost ..

theorem raised_mtrEvent {s t : State} {bit : Nat} (h : bit < 32) (same : rget t oMtrEvent = rget s oMtrEvent) :
    Raised oMtrEvent bit s (mtrEvent t bit) := Raised.of_eq (raised_raiseHost t oMtrEvent bit h) same

theorem regsOnly_mtrEvent {may : List Piece} {s t : State} {bit : Nat} (k : Keeps may s t)
    (hp : Piece.regs ∉ may := by decide) : RegsOnly [oMtrEvent] s (mtrEvent t bit) :=
  RegsOnly.trans (RegsOnly.of_keeps k hp) fun o ho => by rw [rget_mtrEvent, if_neg (by simpa using ho)]

/-- An event that has been raised stays raised where commits take effect. -/
theorem applyBlocks_raised {i : Nat} (h : bitOf (rget s oMtrEvent) i = true) :
    bitOf (rget (applyBlocks s) oMtrEvent) i = true := by
  have block (u : State) (x : Nat × List Nat) (hu : bitOf (rget u oMtrEvent) i = true) :
      bitOf (rget (applyBlock u x.1 x.2) oMtrEvent) i = true := by
    unfold applyBlock
    extract_lets old x0 n
    have k : Keeps [.pts, .can, .mtr, .ble] u (forAll (upto n) (entryChanged x.1 old x.2) x0) :=
      .forAll (Keeps.step (.refl _ _) (modMtr_keeps ..) (by decide)) fun _ _ h => h.trans (entryChanged_keeps ..)
    rw [rget_mtrEvent, if_pos rfl, bitOf_or, k.rget (by decide), hu, Bool.true_or]
  unfold applyBlocks
  exact forAll_invariant (I := fun u => bitOf (rget u oMtrEvent) i = true) h block

/-! ### The log (R310, R313) -/

/-- The cartridge apart from the legal region of its log. -/
def apartLegal (m : Mtr) : Mtr := { m with legalLog := [], logSeq := 0 }

theorem legalLog_apart (code : Nat) (args : List Word) : MeterStays apartLegal s (mtrLog s true code args) := by
  unfold mtrLog
  exact .ite .refl (.of rfl)

theorem legalLog_full (code : Nat) (args : List Word) (full : 512 ≤ s.mtr.legalLog.length) : mtrLog s true code args = s := by
  unfold mtrLog
  exact if_pos (by simpa [legalFull] using full)

theorem legalLog_length (code : Nat) (args : List Word) (room : s.mtr.legalLog.length < 512) :
    (mtrLog s true code args).mtr.legalLog.length = s.mtr.legalLog.length + 1 := by
  unfold mtrLog
  rw [if_neg (by simpa [legalFull] using room)]
  exact List.length_append

/-! ### Pulse outputs (R300, R303) -/

/-- Output `o` conducts. -/
def conducts (o : Nat) (m : Mtr) : Bool := (tget (fun _ => Pulse.reset) m.pulses o).on

theorem pulse_conducts (o : Nat) : conducts o s.mtr = (pulse s o).on := rfl

theorem entryChanged_conducts (o b : Nat) (old new : List Nat) (i : Nat) :
    MeterStays (conducts o) s (entryChanged b old new s i) := by
  have begin_ (t : State) (k : Nat) : MeterStays (conducts o) t (circBegin t k) := .of rfl
  unfold entryChanged
  split
  · refine .ite .refl ?_
    extract_lets +onlyGivenNames -merge -useContext fresh _ x0 x1
    have h0 : MeterStays (conducts o) s x0 := .of rfl
    have h1 : MeterStays (conducts o) s x1 := .ite (h0.trans (begin_ ..)) h0
    exact .ite (h1.besides (clearPts_keeps ..)) h1
  · refine .ite .refl (.of ?_)
    show (pulse (setPulse s i _) o).on = (pulse s o).on
    rw [pulse_setPulse]
    split
    · rename_i e
      rw [e]
    · rfl
  · refine .ite .refl ?_
    extract_lets +onlyGivenNames -merge -useContext map _ x0
    have h0 : MeterStays (conducts o) s x0 := .of rfl
    exact .forAll h0 fun _ _ h => h.trans (begin_ ..)
  · exact .refl

theorem applyBlocks_conducts (o : Nat) : MeterStays (conducts o) s (applyBlocks s) := by
  have block (u : State) (x : Nat × List Nat) : MeterStays (conducts o) u (applyBlock u x.1 x.2) := by
    unfold applyBlock
    extract_lets +onlyGivenNames old x0 n
    have h0 : MeterStays (conducts o) u x0 := .of rfl
    exact Stays.besides (.forAll h0 fun _ _ h => h.trans (entryChanged_conducts ..)) (mtrEvent_keeps ..)
  unfold applyBlocks
  extract_lets +onlyGivenNames l
  exact .forAll (.of rfl) fun _ _ h => h.trans (block ..)

theorem startIntervals_conducts (o : Nat) : MeterStays (conducts o) s (startIntervals s) :=
  (startIntervals_apart s).reads (conducts o)

/-- A conducting output goes off. -/
def outputOff (s : State) (o : Nat) : State :=
  if (pulse s o).on then emit (setPulse s o { pulse s o with on := false }) (.pulse o false) else s

theorem pulse_outputOff (o i : Nat) :
    pulse (outputOff s o) i = if i = o then { pulse s o with on := false } else pulse s i := by
  unfold outputOff
  split
  · exact pulse_setPulse ..
  · rename_i off
    split
    · rename_i e
      rw [e, ← Bool.eq_false_iff.mpr off]
    · rfl

theorem outputsOff_eq : outputsOff s = forAll (upto 9) outputOff s := rfl

theorem outputsOff_off {o : Nat} (h : o < 9) : (pulse (outputsOff s) o).on = false := by
  have rows := forAll_rows (row := pulse) (g := outputOff) (I := fun _ => True) (P := fun _ _ p => p.on = false)
    (fun _ _ _ => trivial) (fun u k i other => by rw [pulse_outputOff, if_neg other])
    (fun u k _ => by rw [pulse_outputOff, if_pos rfl]) (s := s) (nodup_upto 9) trivial o
  rw [outputsOff_eq]
  exact rows.1 (mem_upto.mpr h)

/-- Once its outputs are off, what else the end of running does leaves them so. -/
theorem conducts_afterOutputs (o : Nat) : MeterStays (conducts o) s (refGone (clearMetering s)) :=
  (meterStays_kept (clearMetering_keeps _)).besides (refGone_keeps _)

theorem mtrStop_off {o : Nat} (h : o < 9) : (pulse (mtrStop s) o).on = false := by
  rw [mtrStop_eq, ← pulse_conducts, (conducts_afterOutputs _ o).eq, pulse_conducts, outputsOff_off _ h]

end

end Sys2Proof.Proofs
end

section
/-! The seal, starts, saves and supply of the metering cartridge (R263, R265, R266, R271, R303 to R308, R317); the settlement of
O24. -/

namespace Sys2Proof.Proofs

set_option Elab.async false

open Machine Laws

section
variable (s : State)

/-! ### The seal (R265, R266, R321) -/

/-- The seal as it now stands, with what its opening stages and counts. -/
def sealCounted (s : State) (b : Bool) : State :=
  modMtr s fun m => { m with
    sealOpen := b, staged := if b then (upto 4).map (fun k => (k, parBytes s k)) else [],
    cntSeal := if b then satInc m.cntSeal else m.cntSeal }

/-- The same, and a closing drops the software handed over. -/
def sealTurned (s : State) (b : Bool) : State :=
  { sealCounted s b with upd := { s.upd with cartSw := if b then s.upd.cartSw else none } }

theorem execSealChange_turns {b : Bool} (run : s.mtr.running = true) (turn : s.mtr.sealOpen ≠ b) : ∃ code args,
    execSealChange b s = done s (mtrEvent (mtrLog (sealTurned s b) true code args) 0) := by
  have acts : ¬ (!s.mtr.running || s.mtr.sealOpen == b) = true := by simp [run, turn]
  unfold execSealChange
  rw [if_neg acts]
  cases b
  · exact ⟨2, [], rfl⟩
  · exact ⟨1, [satInc s.mtr.cntSeal], rfl⟩

theorem seal_changes (b : Bool) (run : s.mtr.running = true) (turn : s.mtr.sealOpen ≠ b) :
    ∃ t, exec (.sealChange b) s = .next t ∧ Frame [.regs, .evq, .mtr, .upd] s t ∧
      RegsOnly [oMtrEvent] s t ∧ Raised oMtrEvent 0 s t ∧ t.mtr.sealOpen = b ∧
      t.mtr.cntSeal = (if b then satInc s.mtr.cntSeal else s.mtr.cntSeal) ∧
      t.mtr.staged = (if b then (upto 4).map (fun k => (k, parBytes s k)) else []) ∧
      t.upd.cartSw = (if b then s.upd.cartSw else none) ∧
      (s.mtr.legalLog.length < 512 → t.mtr.legalLog.length = s.mtr.legalLog.length + 1) ∧
      (512 ≤ s.mtr.legalLog.length → t.mtr.legalLog = s.mtr.legalLog) ∧ t.mtr.circ = s.mtr.circ ∧
      t.mtr.par = s.mtr.par := by
  obtain ⟨code, args, e⟩ := execSealChange_turns s run turn
  have turned : Keeps [.mtr, .upd] s (sealTurned s b) :=
    Keeps.upd (Keeps.mono (modMtr_keeps ..) (by decide) : Keeps [.mtr, .upd] s (sealCounted s b)) (by decide)
  have logged : Keeps [.mtr, .upd] s (mtrLog (sealTurned s b) true code args) := turned.step (mtrLog_keeps ..) (by decide)
  have rest := legalLog_apart (sealTurned s b) code args
  have longer := legalLog_length (sealTurned s b) code args
  have full (h : 512 ≤ s.mtr.legalLog.length) := congrArg (fun u => u.mtr.legalLog) (legalLog_full (sealTurned s b) code args h)
  have upd := (mtrLog_keeps (sealTurned s b) true code args).upd_eq (by decide)
  generalize mtrLog (sealTurned s b) true code args = x at e logged rest longer full upd
  refine completes (execSealChange_keeps b s) e ⟨?_, ?_, ?_⟩
  · exact RegsOnly.close (regsOnly_mtrEvent logged) s
  · exact Raised.close (raised_mtrEvent (by decide) (logged.rget (by decide) _)) s
  · rw [close_mtr, mtrEvent_mtr, close_upd, (mtrEvent_keeps ..).upd_eq (by decide), upd]
    exact ⟨(rest.reads Mtr.sealOpen).eq, (rest.reads Mtr.cntSeal).eq, (rest.reads Mtr.staged).eq, rfl, longer, full,
      (rest.reads Mtr.circ).eq, (rest.reads Mtr.par).eq⟩

/-! ### Starts (R263, R271, R307, R308) -/

/-- The cartridge apart from what a start begins afresh. -/
def apartStart (m : Mtr) : Mtr :=
  { m with
    running := false, showing := none, pulses := [], swVer := 0, us := 0, optimeUs := 0, dipping := none, fund := [],
    angles := (none, none), corr := [], corrNext := [], winN := 0, acc := [], vacc := [], nacc := [],
    openDoor := { m.openDoor with busy := false }, secDoor := { m.secDoor with busy := false } }

/-- A cartridge whose hold-up had not ended has stopped before its supply returns. -/
def stoppedBefore (s : State) : State := if s.mtr.running then mtrStop s else s

/-- The doors take a command again. -/
def doorsFree (s : State) : State :=
  modMtr s fun m => { m with openDoor := { m.openDoor with busy := false }, secDoor := { m.secDoor with busy := false } }

/-- The cartridge with its processor begun afresh. -/
def freshStart (s : State) (sw_ : Word) : State := doorsFree (modMtr (stoppedBefore s) fun m => freshRun m sw_)

/-- The cartridge runs. -/
def setRunning (s : State) : State := modMtr s fun m => { m with running := true }

theorem execCartridgeRun_starts {sw_ : Word} {good : BitVec 16} (ended : s.mtr.running = true → s.mtr.dipping.isSome = true)
    (cart : s.base.cart = true) : execCartridgeRun sw_ good s = done s (
      if (freshStart s sw_).mtr.slots.isEmpty then applyBlocks (startIntervals (setRunning (freshStart s sw_)))
      else match bestSlot (freshStart s sw_) good with
        | none => mtrFault (freshStart s sw_)
        | some k => applyBlocks (startIntervals (loadSlot (setRunning (freshStart s sw_)) k))) := by
  have acts : ¬ ((s.mtr.running && s.mtr.dipping.isNone) || !s.base.cart) = true := by
    cases run : s.mtr.running
    · simp [cart]
    · obtain ⟨d, dip⟩ := Option.isSome_iff_exists.mp (ended run)
      simp [cart, dip]
  unfold execCartridgeRun
  rw [if_neg acts]
  rfl

theorem mtrStop_apartStart : MeterStays apartStart s (mtrStop s) := by
  have before : MeterStays apartStart s (notRunning s) := .of rfl
  exact before.trans ((mtrStop_apart s).reads apartStart)

theorem freshStart_apart (sw_ : Word) : MeterStays apartStart s (freshStart s sw_) := by
  have stopped : MeterStays apartStart s (stoppedBefore s) := .ite (mtrStop_apartStart s) .refl
  have fresh (t : State) : MeterStays apartStart t (doorsFree (modMtr t fun m => freshRun m sw_)) := .of rfl
  exact stopped.trans (fresh _)

theorem stoppedBefore_running : (stoppedBefore s).mtr.running = false := by
  unfold stoppedBefore
  split
  · exact (mtrStop_spec s).1
  · rename_i h
    exact Bool.eq_false_iff.mpr h

theorem stoppedBefore_regs : RegsOnly [oPhcEvent] s (stoppedBefore s) := by
  unfold stoppedBefore
  split
  · exact (mtrStop_spec s).2.2.2
  · exact fun _ _ => rfl

/-- The intervals begin, and what was accepted takes effect. -/
theorem beginning_apart : MeterStays apartParameters s (applyBlocks (startIntervals s)) :=
  ((startIntervals_apart s).reads fun m => { m with pulses := [], par := [], applied := [] }).trans (applyBlocks_apart _)

theorem bestSlot_congr {s t : State} (h : t.mtr.slots = s.mtr.slots) (good : BitVec 16) : bestSlot t good = bestSlot s good := by
  unfold bestSlot
  rw [h]

section
variable (sw_ : Word) (good : BitVec 16) (ended : s.mtr.running = true → s.mtr.dipping.isSome = true)
  (cart : s.base.cart = true)
include ended cart

theorem start_withoutSlots (slots : s.mtr.slots = []) :
    ∃ t, exec (.cartridgeRun sw_ good) s = .next t ∧ Frame [.regs, .pts, .phc, .evq, .can, .mtr, .ble, .free, .out] s t ∧
      t.mtr.running = true ∧ t.mtr.swVer = sw_ ∧
      t.mtr.us = 0 ∧ t.mtr.dipping = none ∧ t.mtr.winN = 0 ∧ t.mtr.corr = [] ∧ t.mtr.circ = s.mtr.circ ∧
        t.mtr.cntPwr = s.mtr.cntPwr ∧
      t.mtr.openDoor.busy = false ∧ t.mtr.secDoor.busy = false := by
  have fresh := freshStart_apart s sw_
  have same : (freshStart s sw_).mtr.slots = s.mtr.slots := (fresh.reads Mtr.slots).eq
  have none_ : (freshStart s sw_).mtr.slots.isEmpty = true := by
    rw [same]
    exact List.isEmpty_iff.mpr slots
  have rest := beginning_apart (setRunning (freshStart s sw_))
  have starts := (execCartridgeRun_starts (good := good) s ended cart).trans (congrArg (done s) (if_pos none_))
  generalize applyBlocks (startIntervals (setRunning (freshStart s sw_))) = x at rest starts
  refine completes (execCartridgeRun_keeps sw_ good s) starts ?_
  rw [close_mtr]
  exact ⟨(rest.reads Mtr.running).eq, (rest.reads Mtr.swVer).eq, (rest.reads Mtr.us).eq, (rest.reads Mtr.dipping).eq,
    (rest.reads Mtr.winN).eq, (rest.reads Mtr.corr).eq, (rest.reads Mtr.circ).eq.trans (fresh.reads Mtr.circ).eq,
    (rest.reads Mtr.cntPwr).eq.trans (fresh.reads Mtr.cntPwr).eq, (rest.reads fun m => m.openDoor.busy).eq,
    (rest.reads fun m => m.secDoor.busy).eq⟩

theorem start_withoutValidSlot (slots : s.mtr.slots ≠ []) (bad : bestSlot s good = none) :
    ∃ t, exec (.cartridgeRun sw_ good) s = .next t ∧ Frame [.regs, .pts, .phc, .evq, .can, .mtr, .ble, .free, .out] s t ∧
      t.mtr.running = false ∧ t.mtr.fault = true ∧ (s.mtr.fault = false → Raised oMtrEvent 5 s t) := by
  have fresh := freshStart_apart s sw_
  have same : (freshStart s sw_).mtr.slots = s.mtr.slots := (fresh.reads Mtr.slots).eq
  have some_ : ¬ (freshStart s sw_).mtr.slots.isEmpty = true := by
    rw [same]
    exact fun h => slots (List.isEmpty_iff.mp h)
  have running : (freshStart s sw_).mtr.running = false := stoppedBefore_running s
  have fault : (freshStart s sw_).mtr.fault = s.mtr.fault := (fresh.reads Mtr.fault).eq
  have regs : rget (freshStart s sw_) oMtrEvent = rget s oMtrEvent := stoppedBefore_regs s _ (by decide)
  refine completes (execCartridgeRun_keeps sw_ good s) ((execCartridgeRun_starts s ended cart).trans
    (congrArg (done s) ((if_neg some_).trans (by rw [bestSlot_congr same, bad])))) ?_
  generalize freshStart s sw_ = x at running fault regs
  have logged : Keeps [.mtr, .free] x (modMtr (faultLogged x) fun m => { m with fault := true }) :=
    ((Keeps.free (.refl _ _) (by decide)).step (mtrLog_keeps ..) (by decide)).step (modMtr_keeps ..) (by decide)
  have before : (faultLogged x).mtr.fault = s.mtr.fault := fault
  rw [close_mtr, mtrFault_eq, before]
  cases known : s.mtr.fault
  · rw [if_neg (by decide), mtrEvent_mtr]
    exact ⟨running, rfl, fun _ => Raised.close (raised_mtrEvent (by decide) ((logged.rget (by decide) _).trans regs)) s⟩
  · rw [if_pos rfl]
    exact ⟨running, before.trans known, fun h => absurd h (by decide)⟩

end

/-! ### A slot that is loaded (R307) -/

/-- The cartridge apart from its log, its circuits' intervals and the count of residual losses. -/
def apartLoss (m : Mtr) : Mtr := { apartLog m with circs := [], cntRes := 0 }

/-- What the slot holds, back in the cartridge, with the power failure counted. -/
def slotTaken (s : State) (k : SaveSlot) : State :=
  modMtr s fun m => { m with
    circ := k.circ, phs := k.phs, pulses := k.pulses.map (fun e => (e.1, { e.2 with on := false })), sets := k.sets,
    optime := k.optime, saveSeq := k.seq, cntPwr := satInc m.cntPwr }

/-- The same with the running intervals of the circuits, and the failure in the log. -/
def slotLogged (s : State) (k : SaveSlot) : State :=
  let x := forAll k.ivals (fun s e => setCirc s e.1
    { circ s e.1 with ap0 := e.2.1, an0 := e.2.2.1, start := e.2.2.2.1, part := e.2.2.2.2.1, changed := e.2.2.2.2.2 })
      (slotTaken s k)
  mtrLog x false 0x100 (x.mtr.cntPwr :: [w32 k.optime, w32 (k.optime >>> 32)])

/-- A residual loss counted. -/
def lossCounted (s : State) : State := modMtr s fun m => { m with cntRes := satInc m.cntRes }

theorem loadSlot_eq (k : SaveSlot) : loadSlot s k = if k.residual then slotLogged s k else
    mtrEvent (mtrLog (lossCounted (slotLogged s k)) false 0x101
      ((lossCounted (slotLogged s k)).mtr.cntRes :: [w32 k.optime, w32 (k.optime >>> 32)])) 2 := rfl

theorem slotLogged_apart (k : SaveSlot) :
    MeterStays (fun m => { apartLog m with circs := [] }) (slotTaken s k) (slotLogged s k) := by
  unfold slotLogged
  extract_lets x
  have intervals : MeterStays apartCircuits (slotTaken s k) x := .forAll .refl fun _ _ h => h.trans (setCirc_apart ..)
  exact (intervals.reads apartLog).trans ((mtrLog_apart ..).reads apartCircuits)

theorem loadSlot_apart (k : SaveSlot) : MeterStays apartLoss (slotTaken s k) (loadSlot s k) := by
  have logged : MeterStays apartLoss (slotTaken s k) (slotLogged s k) :=
    (slotLogged_apart s k).reads fun m => { m with cntRes := 0 }
  have counted (t : State) : MeterStays apartLoss t (lossCounted t) := .of rfl
  rw [loadSlot_eq]
  exact .ite logged (((logged.trans (counted _)).trans
    ((mtrLog_apart ..).reads fun m => { m with circs := [], cntRes := 0 })).besides (mtrEvent_keeps ..))

theorem loadSlot_losses (k : SaveSlot) : (k.residual = true → (loadSlot s k).mtr.cntRes = s.mtr.cntRes) ∧
    (k.residual = false → (loadSlot s k).mtr.cntRes = satInc s.mtr.cntRes ∧
      bitOf (rget (loadSlot s k) oMtrEvent) 2 = true) := by
  have logged : (slotLogged s k).mtr.cntRes = s.mtr.cntRes := ((slotLogged_apart s k).reads Mtr.cntRes).eq
  rw [loadSlot_eq]
  refine ⟨fun residual => by rw [if_pos residual, logged], fun periodic => ?_⟩
  rw [if_neg (by simp [periodic])]
  refine ⟨?_, ?_⟩
  · rw [mtrEvent_mtr, ← logged]
    exact ((mtrLog_apart ..).reads Mtr.cntRes).eq
  · rw [rget_mtrEvent, if_pos rfl]
    exact bitOf_or_oneBit _ 2 (by decide)

/-- No output of a slot that is loaded conducts (R303). -/
theorem slotTaken_off (k : SaveSlot) (o : Nat) : conducts o (slotTaken s k).mtr = false := by
  show (tget (fun _ => Pulse.reset) (k.pulses.map (fun e => (e.1, { e.2 with on := false }))) o).on = false
  induction k.pulses with
  | nil => rfl
  | cons e r ih =>
    rw [List.map_cons, tget]
    split
    · rfl
    · exact ih

theorem start_withSlot (sw_ : Word) (good : BitVec 16) (ended : s.mtr.running = true → s.mtr.dipping.isSome = true)
    (cart : s.base.cart = true) (k : SaveSlot) (best : bestSlot s good = some k) :
    ∃ t, exec (.cartridgeRun sw_ good) s = .next t ∧ Frame [.regs, .pts, .phc, .evq, .can, .mtr, .ble, .free, .out] s t ∧
      t.mtr.running = true ∧ t.mtr.circ = k.circ ∧ t.mtr.phs = k.phs ∧ t.mtr.optime = k.optime ∧ t.mtr.saveSeq = k.seq ∧
      t.mtr.cntPwr = satInc s.mtr.cntPwr ∧ t.mtr.us = 0 ∧ t.mtr.dipping = none ∧ (∀ o : Fin 9, (pulse t o).on = false) ∧
      (k.residual = true → t.mtr.cntRes = s.mtr.cntRes) ∧
      (k.residual = false → t.mtr.cntRes = satInc s.mtr.cntRes ∧ bitOf (rget t oMtrEvent) 2 = true) := by
  have fresh := freshStart_apart s sw_
  have same : (freshStart s sw_).mtr.slots = s.mtr.slots := (fresh.reads Mtr.slots).eq
  have some_ : ¬ (freshStart s sw_).mtr.slots.isEmpty = true := by
    rw [same]
    intro h
    rw [bestSlot, List.isEmpty_iff.mp h] at best
    cases best
  have pwr : (setRunning (freshStart s sw_)).mtr.cntPwr = s.mtr.cntPwr := (fresh.reads Mtr.cntPwr).eq
  have res : (setRunning (freshStart s sw_)).mtr.cntRes = s.mtr.cntRes := (fresh.reads Mtr.cntRes).eq
  have runs : (setRunning (freshStart s sw_)).mtr.running = true := rfl
  have us : (setRunning (freshStart s sw_)).mtr.us = 0 := rfl
  have dips : (setRunning (freshStart s sw_)).mtr.dipping = none := rfl
  have starts := (execCartridgeRun_starts s ended cart).trans (congrArg (done s) ((if_neg some_).trans
    (by rw [bestSlot_congr same, best])))
  dsimp only at starts
  generalize setRunning (freshStart s sw_) = x at pwr res runs us dips starts
  have loaded := loadSlot_apart x k
  have rest := beginning_apart (loadSlot x k)
  obtain ⟨residual, periodic⟩ := loadSlot_losses x k
  have off (o : Nat) : conducts o (applyBlocks (startIntervals (loadSlot x k))).mtr = false :=
    ((startIntervals_conducts (loadSlot x k) o).trans (applyBlocks_conducts _ o)).eq.trans
      ((loaded.reads (conducts o)).eq.trans (slotTaken_off x k o))
  have lost (h : k.residual = false) : bitOf (rget (applyBlocks (startIntervals (loadSlot x k))) oMtrEvent) 2 = true := by
    refine applyBlocks_raised _ ?_
    rw [(startIntervals_keeps _).rget (by decide)]
    exact (periodic h).2
  generalize applyBlocks (startIntervals (loadSlot x k)) = z at starts rest off lost
  generalize loadSlot x k = y at loaded rest residual periodic
  have losses : z.mtr.cntRes = y.mtr.cntRes := (rest.reads Mtr.cntRes).eq
  refine completes (execCartridgeRun_keeps sw_ good s) starts ?_
  rw [close_mtr, close_rget]
  exact ⟨(rest.reads Mtr.running).eq.trans ((loaded.reads Mtr.running).eq.trans runs),
    (rest.reads Mtr.circ).eq.trans (loaded.reads Mtr.circ).eq, (rest.reads Mtr.phs).eq.trans (loaded.reads Mtr.phs).eq,
    (rest.reads Mtr.optime).eq.trans (loaded.reads Mtr.optime).eq,
    (rest.reads Mtr.saveSeq).eq.trans (loaded.reads Mtr.saveSeq).eq,
    (rest.reads Mtr.cntPwr).eq.trans ((loaded.reads Mtr.cntPwr).eq.trans (congrArg satInc pwr)),
    (rest.reads Mtr.us).eq.trans ((loaded.reads Mtr.us).eq.trans us),
    (rest.reads Mtr.dipping).eq.trans ((loaded.reads Mtr.dipping).eq.trans dips),
    fun o => by rw [← pulse_conducts, close_mtr, off], fun h => by rw [losses, residual h, res],
    fun h => ⟨by rw [losses, (periodic h).1, res], lost h⟩⟩

/-! ### Saves and the supply (R304 to R306, R317) -/

/-- The slot that a save writes, with its CRC. -/
def savedSlot (s : State) (residual : Bool) : SaveSlot :=
  { slotOf s.mtr residual with crc := crcWords (slotWords (slotOf s.mtr residual)) }

theorem mtrSave_slot (residual : Bool) :
    alook (mtrSave s residual).mtr.slots ((s.mtr.saveSeq + 1) % 16) = some (savedSlot s residual) := alook_aset_same ..

theorem periodicSave_saves (run : s.mtr.running = true) :
    ∃ t, exec .periodicSave s = .next t ∧ Frame [.mtr] s t ∧ t.mtr.saveSeq = s.mtr.saveSeq + 1 ∧
      t.mtr.snapGen = s.mtr.snapGen + 1 ∧ t.mtr.snapCirc = s.mtr.circ ∧ t.mtr.snapPhs = s.mtr.phs ∧
        t.mtr.snapSave = s.mtr.saveSeq + 1 ∧
      t.mtr.snapMap = parBytes s 0 ∧
      alook t.mtr.slots ((s.mtr.saveSeq + 1) % 16) = some (savedSlot s false) := by
  refine completes (execPeriodicSave_keeps s) (congrArg (done s) (if_pos run)) ?_
  rw [close_mtr]
  exact ⟨rfl, rfl, rfl, rfl, rfl, rfl, mtrSave_slot s false⟩

/-- Supply loss declared: the residual save, its snapshot, and the end of the hold-up. -/
def supplyLost (s : State) : State :=
  modMtr { snapshot (mtrSave s true) with free := s.free + 1 } fun m =>
    { m with dipping := some (m.us + 15000 + Config.cartHoldup s.free) }

theorem supplyLoss_saves (run : s.mtr.running = true) (up : s.mtr.dipping = none) :
    ∃ t, exec .supplyLoss s = .next t ∧ Frame [.mtr, .free] s t ∧
      t.mtr.running = true ∧ t.mtr.dipping.elim false (fun d => decide (s.mtr.us + 15000 ≤ d)) = true ∧
        t.mtr.saveSeq = s.mtr.saveSeq + 1 ∧
      alook t.mtr.slots ((s.mtr.saveSeq + 1) % 16) = some (savedSlot s true) ∧
      t.mtr.snapGen = s.mtr.snapGen + 1 ∧ t.mtr.snapSave = s.mtr.saveSeq + 1 ∧ t.mtr.circ = s.mtr.circ ∧
        t.mtr.pulses = s.mtr.pulses ∧
      t.pts = s.pts := by
  have acts : (s.mtr.running && s.mtr.dipping.isNone) = true := by simp [run, up]
  have e : execSupplyLoss s = done s (supplyLost s) := congrArg (done s) (if_pos acts)
  refine completes (execSupplyLoss_keeps s) e ?_
  rw [close_mtr, close_pts]
  exact ⟨run, decide_eq_true (Nat.le_add_right ..), rfl, mtrSave_slot s true, rfl, rfl, rfl, rfl, rfl⟩

theorem supplyDip_logs (run : s.mtr.running = true) (down : s.mtr.dipping.isSome = true) :
    ∃ t, exec .cartridgeSupplyDip s = .next t ∧ Frame [.mtr] s t ∧
      t.mtr.running = true ∧ t.mtr.dipping = none ∧ t.mtr.circ = s.mtr.circ ∧ t.mtr.cntPwr = s.mtr.cntPwr ∧
      t.mtr.logSeq = s.mtr.logSeq + 1 := by
  have acts : (s.mtr.running && s.mtr.dipping.isSome) = true := by simp [run, down]
  refine completes (execCartridgeSupplyDip_keeps s) (congrArg (done s) (if_pos acts)) ?_
  rw [close_mtr]
  exact ⟨run, rfl, rfl, rfl, rfl⟩

end

/-- Settles O24: clause by clause. -/
theorem cartridgeLifeCommandsEffects : Obligations.CartridgeLifeCommandsEffects := by
  unfold Obligations.CartridgeLifeCommandsEffects
  intro s
  exact ⟨seal_changes s, start_withoutSlots s, start_withoutValidSlot s, start_withSlot s, periodicSave_saves s,
    supplyLoss_saves s, supplyDip_logs s⟩

end Sys2Proof.Proofs
end

section
/-! The two doors of the metering cartridge (R267, R268, R276, R303, R312, R313, R320, R321, R325); the settlement of O26. -/

namespace Sys2Proof.Proofs

set_option Elab.async false

open Machine Laws

section
variable (s : State)

/-! ### A command waits in its door (R320) -/

/-- The open door with a command that waits. -/
def openAsked (op : Nat) (a0 a1 : Word) : State :=
  modMtr (rset (rset s 0x60054 a0) 0x60058 a1) fun m =>
    { m with openDoor := { m.openDoor with busy := true, op := op, arg0 := a0, arg1 := a1 } }

/-- The secure door with a command that waits. -/
def secAsked (op : Nat) (a0 a1 : Word) : State :=
  modMtr (rset (rset s 0x61004 a0) 0x61008 a1) fun m =>
    { m with secDoor := { m.secDoor with busy := true, op := op, arg0 := a0, arg1 := a1 } }

theorem rget_pair (p q : Nat) (a b : Word) (apart : p ≠ q) :
    rget (rset (rset s p a) q b) p = a ∧ rget (rset (rset s p a) q b) q = b :=
  ⟨by rw [rget_rset_other _ _ apart, rget_rset_same], rget_rset_same ..⟩

theorem regsOnly_pair (p q : Nat) (a b : Word) : RegsOnly [p, q] s (rset (rset s p a) q b) :=
  RegsOnly.trans (RegsOnly.mono (regsOnly_rset s p a) (by simp)) (RegsOnly.mono (regsOnly_rset _ q b) (by simp))

theorem openAsked_regs (op : Nat) (a0 a1 : Word) : RegsOnly [0x60054, 0x60058] s (openAsked s op a0 a1) :=
  RegsOnly.trans (regsOnly_pair s 0x60054 0x60058 a0 a1) (RegsOnly.of_keeps (modMtr_keeps ..) (by decide))

theorem secAsked_regs (op : Nat) (a0 a1 : Word) : RegsOnly [0x61004, 0x61008] s (secAsked s op a0 a1) :=
  RegsOnly.trans (regsOnly_pair s 0x61004 0x61008 a0 a1) (RegsOnly.of_keeps (modMtr_keeps ..) (by decide))

theorem openWith_idle (op : Nat) (a0 a1 : Word) (idle : s.mtr.openDoor.busy = false) :
    openWith s op a0 a1 = openAsked s op a0 a1 := by
  obtain ⟨first, second⟩ := rget_pair s 0x60054 0x60058 a0 a1 (by decide)
  have free : ¬ (rset (rset s 0x60054 a0) 0x60058 a1).mtr.openDoor.busy = true := Bool.eq_false_iff.mp idle
  rw [openWith, openCmd, if_neg free, first, second]
  rfl

theorem secWith_idle (op : Nat) (a0 a1 : Word) (idle : s.mtr.secDoor.busy = false) :
    secWith s op a0 a1 = secAsked s op a0 a1 := by
  obtain ⟨first, second⟩ := rget_pair s 0x61004 0x61008 a0 a1 (by decide)
  have free : ¬ (rset (rset s 0x61004 a0) 0x61008 a1).mtr.secDoor.busy = true := Bool.eq_false_iff.mp idle
  rw [secWith, secCmd, if_neg free, first, second]
  rfl

section
variable {s} {o : Host.Outcome State Fault Refusal} {a0 a1 : Word} {op : Nat}
  (keeps : ∃ u, o = .next (close s u) ∧ Keeps [.regs, .mtr] s u) (reach : Reaches s 8)
include keeps reach

theorem openCommand_waits (asks : o = done s (reached s 8 fun s => openWith s op a0 a1)) (idle : s.mtr.openDoor.busy = false) :
    ∃ t, o = .next t ∧ Frame [.regs, .mtr] s t ∧ RegsOnly [0x60054, 0x60058] s t ∧
      t.mtr = { s.mtr with openDoor := { s.mtr.openDoor with busy := true, op := op, arg0 := a0, arg1 := a1 } } ∧
      rget t 0x60054 = a0 ∧ rget t 0x60058 = a1 := by
  obtain ⟨first, second⟩ := rget_pair s 0x60054 0x60058 a0 a1 (by decide)
  refine completes keeps (asks.trans (congrArg (done s) ((reached_of_reaches reach).trans (openWith_idle s op a0 a1 idle)))) ?_
  rw [close_mtr, close_rget, close_rget]
  exact ⟨RegsOnly.close (openAsked_regs s op a0 a1) s, rfl, first, second⟩

theorem secCommand_waits (asks : o = done s (reached s 8 fun s => secWith s op a0 a1)) (idle : s.mtr.secDoor.busy = false) :
    ∃ t, o = .next t ∧ Frame [.regs, .mtr] s t ∧ RegsOnly [0x61004, 0x61008] s t ∧
      t.mtr = { s.mtr with secDoor := { s.mtr.secDoor with busy := true, op := op, arg0 := a0, arg1 := a1 } } ∧
      rget t 0x61004 = a0 ∧ rget t 0x61008 = a1 := by
  obtain ⟨first, second⟩ := rget_pair s 0x61004 0x61008 a0 a1 (by decide)
  refine completes keeps (asks.trans (congrArg (done s) ((reached_of_reaches reach).trans (secWith_idle s op a0 a1 idle)))) ?_
  rw [close_mtr, close_rget, close_rget]
  exact ⟨RegsOnly.close (secAsked_regs s op a0 a1) s, rfl, first, second⟩

end

section
variable (reach : Reaches s 8)
include reach

theorem readLog_waits (a0 : Word) (idle : s.mtr.openDoor.busy = false) : ∃ t, exec (.readLog a0) s = .next t ∧
    Frame [.regs, .mtr] s t ∧ RegsOnly [0x60054, 0x60058] s t ∧
    t.mtr = { s.mtr with openDoor :=
      { s.mtr.openDoor with busy := true, op := 1, arg0 := rget t 0x60054, arg1 := rget t 0x60058 } } ∧
    rget t 0x60054 = a0 := by
  obtain ⟨t, e, frame, regs, mtr, first, second⟩ := openCommand_waits (execReadLog_keeps a0 s) reach rfl idle
  exact ⟨t, e, frame, regs, by rw [mtr, first, second], first⟩

theorem openCommand_asked {o : Host.Outcome State Fault Refusal} {a0 a1 : Word} {op : Nat}
    (keeps : ∃ u, o = .next (close s u) ∧ Keeps [.regs, .mtr] s u)
    (asks : o = done s (reached s 8 fun s => openWith s op a0 a1)) (idle : s.mtr.openDoor.busy = false) :
    ∃ t, o = .next t ∧ Frame [.regs, .mtr] s t ∧ RegsOnly [0x60054, 0x60058] s t ∧
      t.mtr = { s.mtr with openDoor := { s.mtr.openDoor with busy := true, op := op, arg0 := a0, arg1 := a1 } } := by
  obtain ⟨t, e, frame, regs, mtr, -, -⟩ := openCommand_waits keeps reach asks idle
  exact ⟨t, e, frame, regs, mtr⟩

theorem showCheck_waits (idle : s.mtr.openDoor.busy = false) : ∃ t, exec .showCheck s = .next t ∧ Frame [.mtr] s t ∧
    t.regs = s.regs ∧ t.mtr.openDoor.busy = true ∧ t.mtr.openDoor.op = 5 ∧ t.mtr.showing = s.mtr.showing := by
  refine completes (execShowCheck_keeps s) (congrArg (done s) ((reached_of_reaches reach).trans
    (if_neg (Bool.eq_false_iff.mp idle)))) ?_
  rw [close_mtr, close_regs]
  exact ⟨rfl, rfl, rfl, rfl⟩

theorem busyDoor_takesNone (busy : s.mtr.openDoor.busy = true) (a0 a1 : Word) :
    ∃ t, exec (.readParam a0 a1) s = .next t ∧ Frame [.regs, .mtr] s t ∧ t.mtr = s.mtr := by
  refine completes (execReadParam_keeps a0 a1 s) (congrArg (done s) (reached_of_reaches reach)) ?_
  rw [close_mtr, openWith, openCmd, if_pos]
  · rfl
  · exact busy

theorem paramStage_waits (a0 a1 : Word) (idle : s.mtr.secDoor.busy = false) : ∃ t, exec (.paramStage a0 a1) s = .next t ∧
    Frame [.regs, .mtr] s t ∧ RegsOnly [0x61004, 0x61008] s t ∧
    t.mtr = { s.mtr with secDoor :=
      { s.mtr.secDoor with busy := true, op := 0x10, arg0 := rget t 0x61004, arg1 := rget t 0x61008 } } := by
  obtain ⟨t, e, frame, regs, mtr, first, second⟩ := secCommand_waits (execParamStage_keeps a0 a1 s) reach rfl idle
  exact ⟨t, e, frame, regs, by rw [mtr, first, second]⟩

theorem paramCommit_waits (a0 : Word) (idle : s.mtr.secDoor.busy = false) : ∃ t, exec (.paramCommit a0) s = .next t ∧
    Frame [.regs, .mtr] s t ∧ RegsOnly [0x61004, 0x61008] s t ∧ t.mtr.secDoor.busy = true ∧ t.mtr.secDoor.op = 0x11 ∧
    t.mtr.par = s.mtr.par ∧ t.mtr.staged = s.mtr.staged := by
  obtain ⟨t, e, frame, regs, mtr, -, -⟩ := secCommand_waits (execParamCommit_keeps a0 s) reach rfl idle
  exact ⟨t, e, frame, regs, by simp [mtr]⟩

theorem paramDiscard_waits (a0 : Word) (idle : s.mtr.secDoor.busy = false) : ∃ t, exec (.paramDiscard a0) s = .next t ∧
    Frame [.regs, .mtr] s t ∧ RegsOnly [0x61004, 0x61008] s t ∧ t.mtr.secDoor.busy = true ∧ t.mtr.secDoor.op = 0x12 ∧
    t.mtr.staged = s.mtr.staged := by
  obtain ⟨t, e, frame, regs, mtr, -, -⟩ := secCommand_waits (execParamDiscard_keeps a0 s) reach rfl idle
  exact ⟨t, e, frame, regs, by simp [mtr]⟩

theorem setMeterId_waits (idle : s.mtr.secDoor.busy = false) : ∃ t, exec .setMeterId s = .next t ∧ Frame [.mtr] s t ∧
    t.regs = s.regs ∧ t.mtr.secDoor.busy = true ∧ t.mtr.secDoor.op = 0x13 ∧ t.mtr.meterId = s.mtr.meterId := by
  refine completes (execSetMeterId_keeps s) (congrArg (done s) ((reached_of_reaches reach).trans
    (if_neg (Bool.eq_false_iff.mp idle)))) ?_
  rw [close_mtr, close_regs]
  exact ⟨rfl, rfl, rfl, rfl⟩

end

theorem showCheckEnd_ends : ∃ t, exec .showCheckEnd s = .next t ∧ Frame [.mtr] s t ∧ t.mtr = { s.mtr with showing := none } :=
  completes (execShowCheckEnd_keeps s) rfl (close_mtr ..)

/-! ### The end of a command (R325) -/

/-- The open door after its command. -/
def openEnded (r : Nat × State) : State := modMtr r.2 fun m => { m with openDoor := doorEnd m.openDoor r.1 }

/-- The secure door after its command. -/
def secEnded (r : Nat × State) : State := modMtr r.2 fun m => { m with secDoor := doorEnd m.secDoor r.1 }

theorem openDone_ends (busy : s.mtr.openDoor.busy = true) : execDoorCommandDone false s =
    done s (openEnded (openRun s s.mtr.openDoor.op s.mtr.openDoor.arg0 s.mtr.openDoor.arg1)) := by
  have waits : ¬ (!s.mtr.openDoor.busy) = true := by simp [busy]
  exact congrArg (done s) (if_neg waits)

theorem secDone_ends (busy : s.mtr.secDoor.busy = true) : execDoorCommandDone true s =
    done s (secEnded (secRun s s.mtr.secDoor.op s.mtr.secDoor.arg0 s.mtr.secDoor.arg1)) := by
  have waits : ¬ (!s.mtr.secDoor.busy) = true := by simp [busy]
  exact congrArg (done s) (if_neg waits)

section
variable {s} (op : Nat) (a0 a1 : Word)

theorem openRun_stopped (stopped : s.mtr.running = false) : openRun s op a0 a1 = (8, s) :=
  if_pos (by simp [stopped])

theorem secRun_stopped (stopped : s.mtr.running = false) : secRun s op a0 a1 = (8, s) :=
  if_pos (by simp [stopped])

section
variable (run : s.mtr.running = true)
include run

theorem secRun_sealed (shut : s.mtr.sealOpen = false) : secRun s op a0 a1 = (4, s) :=
  (if_neg (by simp [run])).trans (if_pos (by simp [shut]))

theorem secRun_commit (unsealed : s.mtr.sealOpen = true) : secRun s 0x11 a0 a1 = commitBlock s a0.toNat :=
  (if_neg (by simp [run])).trans (if_neg (by simp [unsealed]))

theorem secRun_meterId (unsealed : s.mtr.sealOpen = true) : secRun s 0x13 a0 a1 = meterIdSet s :=
  (if_neg (by simp [run])).trans (if_neg (by simp [unsealed]))

theorem openRun_readLog : openRun s 1 a0 a1 = match findLog s a0 with
    | some w => (0, modMtr s fun m => { m with resp := w })
    | none => (3, s) :=
  (if_neg (by simp [run])).trans (by cases findLog s a0 <;> rfl)

theorem openRun_tenant : openRun s 3 a0 a1 = ((tenantSet s a0.toNat a1.toNat).1, (tenantSet s a0.toNat a1.toNat).2.2) :=
  if_neg (by simp [run])

theorem openRun_showCheck : openRun s 5 a0 a1 = (0, modMtr s fun m => { m with showing := some 0 }) :=
  if_neg (by simp [run])

end

end

theorem stoppedCartridge_answersEight (b : Bool) (busy : (if b then s.mtr.secDoor else s.mtr.openDoor).busy = true)
    (stopped : s.mtr.running = false) : ∃ t, exec (.doorCommandDone b) s = .next t ∧ Frame [.regs, .mtr] s t ∧
    (if b then t.mtr.secDoor else t.mtr.openDoor) = doorEnd (if b then s.mtr.secDoor else s.mtr.openDoor) 8 := by
  cases b
  · refine completes (execDoorCommandDone_keeps false s) (openDone_ends s busy) ?_
    rw [close_mtr, openRun_stopped _ _ _ stopped]
    rfl
  · refine completes (execDoorCommandDone_keeps true s) (secDone_ends s busy) ?_
    rw [close_mtr, secRun_stopped _ _ _ stopped]
    rfl

theorem sealedDoor_answersFour (busy : s.mtr.secDoor.busy = true) (run : s.mtr.running = true) (shut : s.mtr.sealOpen = false) :
    ∃ t, exec (.doorCommandDone true) s = .next t ∧ Frame [.regs, .mtr] s t ∧
      t.mtr = { s.mtr with secDoor := doorEnd s.mtr.secDoor 4 } := by
  refine completes (execDoorCommandDone_keeps true s) (secDone_ends s busy) ?_
  rw [close_mtr, secRun_sealed _ _ _ run shut]
  rfl

/-! ### A commit of a block, and the meter identifier (R268, R276, R312, R313) -/

section
variable {s} {b : Nat} {l : List Nat} (staged : (alook s.mtr.staged b).getD (parBytes s b) = l) (low : b ≤ 3)
include staged low

theorem commitBlock_faulty {i : Nat} (bad : blockFault b l = some i) : commitBlock s b = (5, rset s 0x61008 (w32 i)) := by
  rw [commitBlock, if_neg (by omega), staged]
  simp only [bad]

theorem commitBlock_full (good : blockFault b l = none) (full : 512 ≤ s.mtr.legalLog.length) : commitBlock s b = (6, s) := by
  rw [commitBlock, if_neg (by omega), staged]
  simp only [good]
  exact if_pos (by simpa [legalFull] using full)

/-- A block that is accepted, before its record. -/
def blockTaken (s : State) (b : Nat) (l : List Nat) : State :=
  modMtr s fun m => { m with cntParam := satInc m.cntParam, applied := m.applied ++ [(b, l)] }

theorem commitBlock_good (good : blockFault b l = none) (room : s.mtr.legalLog.length < 512) :
    ∃ args, commitBlock s b = (0, mtrLog (blockTaken s b l) true 3 args) := by
  rw [commitBlock, if_neg (by omega), staged]
  simp only [good]
  exact ⟨_, if_neg (by simpa [legalFull] using room)⟩

end

section
variable {s} {l : List Nat} (staged : (alook s.mtr.staged s.mtr.secDoor.arg0.toNat).getD (parBytes s s.mtr.secDoor.arg0.toNat) = l)
  (busy : s.mtr.secDoor.busy = true) (op : s.mtr.secDoor.op = 0x11) (run : s.mtr.running = true)
  (unsealed : s.mtr.sealOpen = true) (low : s.mtr.secDoor.arg0.toNat ≤ 3)

section
include busy op run unsealed

theorem commitDone_ends : execDoorCommandDone true s = done s (secEnded (commitBlock s s.mtr.secDoor.arg0.toNat)) := by
  rw [secDone_ends s busy, op, secRun_commit _ _ run unsealed]

end

section
include staged busy op run unsealed low

theorem faultyBlock_isNamed (i : Nat) (bad : blockFault s.mtr.secDoor.arg0.toNat l = some i) :
    ∃ t, exec (.doorCommandDone true) s = .next t ∧ Frame [.regs, .mtr] s t ∧ t.mtr.par = s.mtr.par ∧
      t.mtr.secDoor.busy = false ∧ t.mtr.secDoor.result = 5 ∧ rget t 0x61008 = w32 i ∧ t.mtr.applied = s.mtr.applied ∧
      t.mtr.cntParam = s.mtr.cntParam := by
  refine completes (execDoorCommandDone_keeps true s) (commitDone_ends busy op run unsealed) ?_
  rw [close_mtr, close_rget, commitBlock_faulty staged low bad]
  exact ⟨rfl, rfl, rfl, rget_rset_same .., rfl, rfl⟩

theorem fullLog_endsCommit (good : blockFault s.mtr.secDoor.arg0.toNat l = none) (full : 512 ≤ s.mtr.legalLog.length) :
    ∃ t, exec (.doorCommandDone true) s = .next t ∧ Frame [.regs, .mtr] s t ∧
      t.mtr = { s.mtr with secDoor := doorEnd s.mtr.secDoor 6 } := by
  refine completes (execDoorCommandDone_keeps true s) (commitDone_ends busy op run unsealed) ?_
  rw [close_mtr, commitBlock_full staged low good full]
  rfl

theorem fullLog_refusesBlock (good : blockFault s.mtr.secDoor.arg0.toNat l = none) (full : 512 ≤ s.mtr.legalLog.length) :
    ∃ t, exec (.doorCommandDone true) s = .next t ∧ Frame [.regs, .mtr] s t ∧ t.mtr.par = s.mtr.par ∧
      t.mtr.secDoor.busy = false ∧ t.mtr.secDoor.result = 6 ∧ t.mtr.applied = s.mtr.applied ∧
      t.mtr.legalLog = s.mtr.legalLog := by
  obtain ⟨t, e, frame, mtr⟩ := fullLog_endsCommit staged busy op run unsealed low good full
  exact ⟨t, e, frame, by simp [mtr, doorEnd]⟩

theorem goodBlock_isTaken (good : blockFault s.mtr.secDoor.arg0.toNat l = none) (room : s.mtr.legalLog.length < 512) :
    ∃ t, exec (.doorCommandDone true) s = .next t ∧ Frame [.regs, .mtr] s t ∧ t.mtr.par = s.mtr.par ∧
      t.mtr.secDoor.busy = false ∧ t.mtr.secDoor.result = 0 ∧ t.mtr.cntParam = satInc s.mtr.cntParam ∧
      t.mtr.legalLog.length = s.mtr.legalLog.length + 1 ∧
      t.mtr.applied = s.mtr.applied ++ [(s.mtr.secDoor.arg0.toNat, l)] := by
  obtain ⟨args, taken⟩ := commitBlock_good staged low good room
  have logged := legalLog_apart (blockTaken s s.mtr.secDoor.arg0.toNat l) 3 args
  have longer := legalLog_length (blockTaken s s.mtr.secDoor.arg0.toNat l) 3 args room
  generalize mtrLog (blockTaken s s.mtr.secDoor.arg0.toNat l) true 3 args = x at taken logged longer
  refine completes (execDoorCommandDone_keeps true s) (commitDone_ends busy op run unsealed) ?_
  rw [close_mtr, taken]
  exact ⟨(logged.reads Mtr.par).eq, rfl, rfl, (logged.reads Mtr.cntParam).eq, longer, (logged.reads Mtr.applied).eq⟩

end

end

section
variable (busy : s.mtr.secDoor.busy = true) (op : s.mtr.secDoor.op = 0x13) (run : s.mtr.running = true)
  (unsealed : s.mtr.sealOpen = true)
include busy op run unsealed

theorem meterIdDone_ends : execDoorCommandDone true s = done s (secEnded (meterIdSet s)) := by
  rw [secDone_ends s busy, op, secRun_meterId _ _ run unsealed]

theorem meterId_isSetOnce (set_ : s.mtr.meterId ≠ none) :
    ∃ t, exec (.doorCommandDone true) s = .next t ∧ Frame [.regs, .mtr] s t ∧
      t.mtr = { s.mtr with secDoor := doorEnd s.mtr.secDoor 7 } := by
  have twice : meterIdSet s = (7, s) := if_pos (Option.isSome_iff_ne_none.mpr set_)
  refine completes (execDoorCommandDone_keeps true s) (meterIdDone_ends s busy op run unsealed) ?_
  rw [close_mtr, twice]
  rfl

end

/-! ### Commands through the open door (R267, R278, R303, R320) -/

theorem circ_congr {t u : State} (same : u.mtr = t.mtr) (k : Nat) : circ u k = circ t k := by
  rw [circ, circ, same]

@[simp] theorem close_circ (t : State) (k : Nat) : circ (close s t) k = circ t k := circ_congr (close_mtr s t) k

/-- A circuit's next billing partition, named and in the log. -/
def tenantNamed (s : State) (k p : Nat) : State :=
  mtrLog (setCirc s k { circ s k with tenantNext := some p }) false 0x103
    [w32 k, w32 (circ s k).tenant, w32 p, w32 ((circ s k).seq + 2)]

theorem tenantSet_accepts {k p : Nat} (circuit : k ≤ 95) (partition_ : p ≤ 16) :
    tenantSet s k p = (0, (circ s k).seq + 2, tenantNamed s k p) :=
  if_neg (by omega)

theorem circ_tenantNamed (k p i : Nat) :
    circ (tenantNamed s k p) i = if i = k then { circ s k with tenantNext := some p } else circ s i :=
  circ_setCirc ..

theorem tenantNamed_next (k p : Nat) : (circ (tenantNamed s k p) k).tenantNext = some p ∧
    (circ (tenantNamed s k p) k).tenant = (circ s k).tenant ∧ (tenantNamed s k p).mtr.logSeq = s.mtr.logSeq + 1 := by
  rw [circ_tenantNamed, if_pos rfl]
  exact ⟨rfl, rfl, rfl⟩

section
variable (busy : s.mtr.openDoor.busy = true) (run : s.mtr.running = true)
include busy run

theorem absentRecord_isNotFound (op : s.mtr.openDoor.op = 1) (absent : findLog s s.mtr.openDoor.arg0 = none) :
    ∃ t, exec (.doorCommandDone false) s = .next t ∧ Frame [.regs, .mtr] s t ∧ t.regs = s.regs ∧
      t.mtr = { s.mtr with openDoor := doorEnd s.mtr.openDoor 3 } := by
  refine completes (execDoorCommandDone_keeps false s) (openDone_ends s busy) ?_
  rw [close_regs, close_mtr, op, openRun_readLog _ _ run, absent]
  exact ⟨rfl, rfl⟩

theorem record_isFound (r : List Word) (found : findLog s s.mtr.openDoor.arg0 = some r) (op : s.mtr.openDoor.op = 1) :
    ∃ t, exec (.doorCommandDone false) s = .next t ∧ Frame [.regs, .mtr] s t ∧ t.regs = s.regs ∧
      t.mtr = { s.mtr with resp := r, openDoor := doorEnd s.mtr.openDoor 0 } := by
  refine completes (execDoorCommandDone_keeps false s) (openDone_ends s busy) ?_
  rw [close_regs, close_mtr, op, openRun_readLog _ _ run, found]
  exact ⟨rfl, rfl⟩

theorem tenant_takesEffectLater (op : s.mtr.openDoor.op = 3) (circuit : s.mtr.openDoor.arg0.toNat ≤ 95)
    (partition_ : s.mtr.openDoor.arg1.toNat ≤ 16) :
    ∃ t, exec (.doorCommandDone false) s = .next t ∧ Frame [.regs, .mtr] s t ∧ t.mtr.openDoor.result = 0 ∧
      (circ t s.mtr.openDoor.arg0.toNat).tenantNext = some s.mtr.openDoor.arg1.toNat ∧
      (circ t s.mtr.openDoor.arg0.toNat).tenant = (circ s s.mtr.openDoor.arg0.toNat).tenant ∧
      t.mtr.logSeq = s.mtr.logSeq + 1 := by
  have ends := openDone_ends s busy
  rw [op, openRun_tenant _ _ run, tenantSet_accepts s circuit partition_] at ends
  obtain ⟨next, now, number⟩ := tenantNamed_next s s.mtr.openDoor.arg0.toNat s.mtr.openDoor.arg1.toNat
  generalize tenantNamed s s.mtr.openDoor.arg0.toNat s.mtr.openDoor.arg1.toNat = x at ends next now number
  refine completes (execDoorCommandDone_keeps false s) ends ?_
  rw [close_circ, close_mtr]
  exact ⟨rfl, next, now, number⟩

theorem showCheck_begins (op : s.mtr.openDoor.op = 5) :
    ∃ t, exec (.doorCommandDone false) s = .next t ∧ Frame [.regs, .mtr] s t ∧ t.regs = s.regs ∧
      t.mtr = { s.mtr with showing := some 0, openDoor := doorEnd s.mtr.openDoor 0 } := by
  refine completes (execDoorCommandDone_keeps false s) (openDone_ends s busy) ?_
  rw [close_regs, close_mtr, op, openRun_showCheck _ _ run]
  exact ⟨rfl, rfl⟩

end

end

/-- Settles O26: clause by clause. -/
theorem doorCommandsEffects : Obligations.DoorCommandsEffects := by
  unfold Obligations.DoorCommandsEffects
  intro s
  exact ⟨fun a0 reach => readLog_waits s reach a0,
    fun a0 a1 reach => openCommand_asked s reach (execReadInterval_keeps a0 a1 s) rfl,
    fun a0 a1 reach => openCommand_asked s reach (execSetTenant_keeps a0 a1 s) rfl,
    fun a0 a1 reach => openCommand_asked s reach (execReadParam_keeps a0 a1 s) rfl,
    showCheck_waits s, busyDoor_takesNone s, showCheckEnd_ends s,
    fun a0 a1 reach => paramStage_waits s reach a0 a1, fun a0 reach => paramCommit_waits s reach a0,
    fun a0 reach => paramDiscard_waits s reach a0, setMeterId_waits s,
    stoppedCartridge_answersEight s, sealedDoor_answersFour s,
    fun _ staged busy op run unsealed low => faultyBlock_isNamed staged busy op run unsealed low,
    fun _ staged busy op run unsealed low => fullLog_refusesBlock staged busy op run unsealed low,
    fun _ staged busy op run unsealed low => goodBlock_isTaken staged busy op run unsealed low,
    meterId_isSetOnce s,
    fun busy op run => absentRecord_isNotFound s busy run op,
    fun r found busy op run => record_isFound s busy run r found op,
    fun busy op run => tenant_takesEffectLater s busy run op,
    fun busy op run => showCheck_begins s busy run op⟩

end Sys2Proof.Proofs
end

section
/-! A full legal region refuses what it cannot record (R313); the settlement of O55. -/

namespace Sys2Proof.Proofs

set_option Elab.async false

open Machine Laws

theorem bitOf_bw_other {b : Bool} {i j : Nat} (apart : j ≠ i) : bitOf (bw b i) j = false := by
  cases b
  · exact BitVec.getLsbD_zero
  · exact bitOf_oneBit_other apart

theorem bitOf_bw_same {b : Bool} {i : Nat} (low : i < 32) : bitOf (bw b i) i = b := by
  cases b
  · exact BitVec.getLsbD_zero
  · exact bitOf_oneBit i low

theorem bitOf_fw_below {v hi lo i : Nat} (low : i < 32) (below : i < lo) : bitOf (fw v hi lo) i = false := by
  rw [fw, bitOf_setFld _ _ _ _ _ low, if_neg (by omega)]
  exact BitVec.getLsbD_zero

section
variable (s : State)

theorem logLegalFull_reads : bitOf (readWord s 0x60000) 4 = legalFull s := by
  show bitOf (bw s.base.cart 0 ||| bw s.mtr.running 1 ||| bw s.mtr.sealOpen 2 ||| bw s.mtr.meterId.isSome 3 |||
    bw (legalFull s) 4 ||| bw s.mtr.fault 5 ||| fw (twosOf 8 (coarse 0 s.mtr.temp 10)) 15 8) 4 = legalFull s
  simp only [bitOf_or, bitOf_bw_same (show 4 < 32 by decide), bitOf_fw_below (show 4 < 32 by decide) (show 4 < 8 by decide),
    bitOf_bw_other (show 4 ≠ 0 by decide), bitOf_bw_other (show 4 ≠ 1 by decide), bitOf_bw_other (show 4 ≠ 2 by decide),
    bitOf_bw_other (show 4 ≠ 3 by decide), bitOf_bw_other (show 4 ≠ 5 by decide), Bool.or_false, Bool.false_or]

section
variable (full : 512 ≤ s.mtr.legalLog.length)
include full

theorem legalFull_holds : legalFull s = true := decide_eq_true full

theorem fullLog_countsOpening (run : s.mtr.running = true) (shut : s.mtr.sealOpen = false) :
    ∃ t, exec (.sealChange true) s = .next t ∧ t.mtr.cntSeal = satInc s.mtr.cntSeal ∧ t.mtr.legalLog = s.mtr.legalLog := by
  obtain ⟨t, e, -, -, -, -, count, -, -, -, keeps, -⟩ := seal_changes s true run (by simp [shut])
  exact ⟨t, e, count, keeps full⟩

theorem fullLog_refusesMeterId (run : s.mtr.running = true) (unsealed : s.mtr.sealOpen = true)
    (busy : s.mtr.secDoor.busy = true) (op : s.mtr.secDoor.op = 0x13) (unset : s.mtr.meterId = none)
    (text : ((sdata s).take 16).all (fun c => decide (0x20 ≤ c) && decide (c ≤ 0x7E)) = true) :
    ∃ t, exec (.doorCommandDone true) s = .next t ∧ t.mtr.secDoor.result = 6 ∧ t.mtr.legalLog = s.mtr.legalLog ∧
      t.mtr.meterId = none ∧ t.mtr.cntParam = s.mtr.cntParam := by
  have refused : meterIdSet s = (6, s) :=
    (if_neg (by simp [unset])).trans ((if_neg (by simp [text])).trans (if_pos (legalFull_holds s full)))
  have ends := meterIdDone_ends s busy op run unsealed
  rw [refused] at ends
  refine answers ends ?_
  rw [close_mtr]
  exact ⟨rfl, rfl, unset, rfl⟩

theorem fullLog_refusesSoftware (ok : Bool) (v : Word) : ∃ t, exec (.cartSoftwareDone ok v) s = .next t ∧
    t.mtr.legalLog = s.mtr.legalLog ∧ t.mtr.swVer = s.mtr.swVer ∧ t.mtr.cntParam = s.mtr.cntParam := by
  have dropped : Keeps [.regs, .evq, .upd] s (updEvent (modUpd s fun u => { u with cartSw := none, installErr := 0xC }) 6) :=
    (Keeps.mono (modUpd_keeps ..) (by decide)).step (updEvent_keeps ..) (by decide)
  refine answers (x := if (s.upd.cartSw.isNone || !s.mtr.running) = true then s else _) rfl ?_
  rw [close_mtr]
  by_cases idle : (s.upd.cartSw.isNone || !s.mtr.running) = true
  · rw [if_pos idle]
    exact ⟨rfl, rfl, rfl⟩
  · rw [if_neg idle, if_pos (by simp [legalFull_holds s full]), dropped.mtr_eq (by decide)]
    exact ⟨rfl, rfl, rfl⟩

theorem fullLog_refusesCommit (run : s.mtr.running = true) (unsealed : s.mtr.sealOpen = true)
    (busy : s.mtr.secDoor.busy = true) (op : s.mtr.secDoor.op = 0x11) (low : s.mtr.secDoor.arg0.toNat < 4)
    (good : blockFault s.mtr.secDoor.arg0.toNat
      ((alook s.mtr.staged s.mtr.secDoor.arg0.toNat).getD (parBytes s s.mtr.secDoor.arg0.toNat)) = none) :
    ∃ t, exec (.doorCommandDone true) s = .next t ∧ t.mtr.secDoor.result = 6 ∧ t.mtr.secDoor.busy = false ∧
      t.mtr.legalLog = s.mtr.legalLog ∧ t.mtr.par = s.mtr.par ∧ t.mtr.applied = s.mtr.applied ∧
      t.mtr.cntParam = s.mtr.cntParam := by
  obtain ⟨t, e, -, effect⟩ := fullLog_endsCommit rfl busy op run unsealed (Nat.le_of_lt_succ low) good full
  exact ⟨t, e, by simp [effect, doorEnd]⟩

end

end

/-- Settles O55: each record that does not fit meets its refusal. -/
theorem fullLegalLogRefusesLegalRecords : Obligations.FullLegalLogRefusesLegalRecords := by
  unfold Obligations.FullLegalLogRefusesLegalRecords
  intro s full
  exact ⟨(logLegalFull_reads s).trans (legalFull_holds s full), fullLog_countsOpening s full, fullLog_refusesCommit s full,
    fullLog_refusesMeterId s full, fullLog_refusesSoftware s full⟩

end Sys2Proof.Proofs
end

section
/-! Ring operations on metering and the recorder (R278, R317, R320, R511, R542 to R544, R678); the settlement of O36. -/

namespace Sys2Proof.Proofs

set_option Elab.async false

open Machine Laws

/-! ### The form of a descriptor (R520, R522) -/

section
variable {ws : List Word} {g : OpForm}

theorem target_of_opStatic (h : opStatic ws = none) (form : opForm ws = some g) : g.target = true := by
  unfold opStatic at h
  rw [form] at h
  dsimp only at h
  split at h
  · cases h
  · split at h
    · cases h
    · rename_i good
      simpa using good

theorem params_of_opStatic (h : opStatic ws = none) (form : opForm ws = some g) : firstBadParam g ws = none := by
  unfold opStatic at h
  rw [form] at h
  dsimp only at h
  split at h
  · cases h
  · split at h
    · cases h
    · split at h
      · cases h
      · assumption

theorem param_of_firstBadParam (h : firstBadParam g ws = none) {k : Nat} (low : k < 8) : g.bad.getD k false = false := by
  have good := List.find?_eq_none.mp h k (mem_upto.mpr low)
  rw [Bool.not_eq_true, Bool.or_eq_false_iff] at good
  exact good.1

/-- An operation with output has a buffer of its least length. -/
theorem lo_of_badPayload (h : badPayload g ws = none) (out : g.pout = true) : g.lo ≤ (wAt ws 14).toNat := by
  unfold badPayload at h
  extract_lets len w0 at h
  rw [if_neg (by simp [out])] at h
  split at h
  · cases h
  · rename_i good
    exact Nat.le_of_not_lt fun few => good (.inr (.inr (.inl few)))

end

section
variable {d : Desc}

theorem readSet_len (h : opStatic (descOf 0x50 d) = none) : 68 ≤ d.len.toNat := by
  have code : fld (wAt (descOf 0x50 d) 0) 7 0 = 0x50 := (descOf_head (by decide) d).1
  have form : opForm (descOf 0x50 d) = some { target := decide (d.target.toNat < 192), pout := true, lo := 68 } := by
    unfold opForm
    rw [code]
    rfl
  have len := lo_of_badPayload (badPayload_of_opStatic h form) rfl
  rwa [(descOf_tail _ d).2.2] at len

theorem readParam_form (h : opStatic (descOf 0x53 d) = none) :
    36 ≤ d.len.toNat ∧ (wAt d.par 0).toNat ≤ 4 ∧ (wAt d.par 1).toNat % 32 = 0 := by
  have code : fld (wAt (descOf 0x53 d) 0) 7 0 = 0x53 := (descOf_head (by decide) d).1
  have form : opForm (descOf 0x53 d) = some
      { target := d.target.toNat == 0, used := 2, pout := true, lo := 36,
        bad := [decide (4 < (wAt (descOf 0x53 d) (4 + 0)).toNat), (wAt (descOf 0x53 d) (4 + 1)).toNat % 32 != 0] } := by
    unfold opForm
    rw [code]
    rfl
  have len := lo_of_badPayload (badPayload_of_opStatic h form) rfl
  have params := params_of_opStatic h form
  have block := param_of_firstBadParam params (k := 0) (by decide)
  have offset := param_of_firstBadParam params (k := 1) (by decide)
  rw [descOf_par 0x53 d (by decide), descOf_par 0x53 d (by decide)] at block offset
  rw [(descOf_tail _ d).2.2] at len
  exact ⟨len, by simpa using block, by simpa using offset⟩

theorem setTenant_form (h : opStatic (descOf 0x54 d) = none) : d.target.toNat ≤ 95 ∧ (wAt d.par 0).toNat ≤ 16 := by
  have code : fld (wAt (descOf 0x54 d) 0) 7 0 = 0x54 := (descOf_head (by decide) d).1
  have form : opForm (descOf 0x54 d) = some
      { target := decide (d.target.toNat < 96), used := 1, bad := [decide (16 < (wAt (descOf 0x54 d) (4 + 0)).toNat)] } := by
    unfold opForm
    rw [code]
    rfl
  have target : d.target.toNat < 96 := of_decide_eq_true (target_of_opStatic h form)
  have tenant := param_of_firstBadParam (params_of_opStatic h form) (k := 0) (by decide)
  rw [descOf_par 0x54 d (by decide)] at tenant
  exact ⟨Nat.le_of_lt_succ target, by simpa using tenant⟩

end

section
variable {s : State} {n : Fin 64} {op : Nat} {d : Desc} {c : Instr} {R : Tab Ring}

/-! ### How they end -/

theorem mtrFail_stopped (t : State) (m : Nat) (f : Flight) : mtrFail t m f 8 = complete t m f 0x18 0 0 0 := if_pos rfl

section
variable (turn : AtTurn s n (flightOf s n op d) { s with rings := R }) (hop : op < 256) (resume : op ≠ 2)
include turn hop resume

/-- An operation that returns data for which the host has room. -/
theorem returns_output {data : List Word} {r0 r1 : Word} (fits : 4 * data.length + 4 ≤ d.len.toNat)
    (e : exec c s = done s (output { s with rings := R } n (flightOf s n op d) data r0 r1)) :
    ∃ t, exec c s = .next t ∧ Frame [.rings, .msixPend, .out] s t ∧ Returned s n op d data r0 r1 t := by
  have words : wAt (flightOf s n op d).words 14 = d.len := (descOf_tail op d).2.2
  replace e := e.trans (congrArg (done s) (if_neg (by rw [words]; omega)))
  exact completes ⟨_, e, (rings_keeps.mono (by decide)).step (completeOut_keeps ..) (by decide)⟩ e
    (Returned.close (returned_atTurn turn rfl hop resume ..) s)

/-- An operation refused for its partition. -/
theorem completes_refused {obj : Word}
    (e : exec c s = done s (refuseAccess { s with rings := R } n (flightOf s n op d) obj)) :
    ∃ t, exec c s = .next t ∧ Frame [.regs, .rings, .evq, .msixPend, .out] s t ∧ Completed s n op d 9 0 0 obj t := by
  have counted := partViol_keeps { s with rings := R } 4 (ringPart { s with rings := R } n) obj
  refine completes ⟨_, e, (rings_keeps.mono (by decide)).step (refuseAccess_keeps ..) (by decide)⟩ e (Completed.close ?_ s)
  rw [refuseAccess]
  generalize partViol { s with rings := R } 4 (ringPart { s with rings := R } n) obj = v at counted
  have ts : nowTs v = nowTs s := by
    unfold nowTs absA
    rw [counted.phc_eq (by decide)]
  exact completed_atTurn (turn.keep counted) ts hop resume ..

/-- A cartridge that does not run. -/
theorem completes_stopped (stopped : s.mtr.running = false) {x : State}
    (e : exec c s = done s (if (!s.mtr.running) = true then mtrFail { s with rings := R } n (flightOf s n op d) 8 else x)) :
    ∃ t, exec c s = .next t ∧ Frame [.rings, .msixPend, .out] s t ∧ Completed s n op d 0x18 0 0 0 t :=
  completes_only turn hop resume (e.trans (congrArg (done s) ((if_pos (by simp [stopped])).trans (mtrFail_stopped ..))))

end

/-! ### The operations at their commit turn -/

theorem mtrReadSet_turn (h : Ready s n.val 0x50 d) : ∃ R, AtTurn s n (flightOf s n 0x50 d) { s with rings := R } ∧
    exec (.mtrReadSet n d) s = done s (opMtrSet { s with rings := R } n (flightOf s n 0x50 d)) :=
  command_turn h (by decide) (by decide) rfl fun t f code => by rw [opRun, runMore.eq_def, code]; rfl

theorem mtrReadInterval_turn (h : Ready s n.val 0x51 d) : ∃ R, AtTurn s n (flightOf s n 0x51 d) { s with rings := R } ∧
    exec (.mtrReadInterval n d) s = done s (opMtrInterval { s with rings := R } n (flightOf s n 0x51 d)) :=
  command_turn h (by decide) (by decide) rfl fun t f code => by rw [opRun, runMore.eq_def, code]; rfl

theorem mtrReadLog_turn (h : Ready s n.val 0x52 d) : ∃ R, AtTurn s n (flightOf s n 0x52 d) { s with rings := R } ∧
    exec (.mtrReadLog n d) s = done s (opMtrLog { s with rings := R } n (flightOf s n 0x52 d)) :=
  command_turn h (by decide) (by decide) rfl fun t f code => by rw [opRun, runMore.eq_def, code]; rfl

theorem mtrReadParam_turn (h : Ready s n.val 0x53 d) : ∃ R, AtTurn s n (flightOf s n 0x53 d) { s with rings := R } ∧
    exec (.mtrReadParam n d) s = done s (opMtrParam { s with rings := R } n (flightOf s n 0x53 d)) :=
  command_turn h (by decide) (by decide) rfl fun t f code => by rw [opRun, runMore.eq_def, code]; rfl

theorem mtrSetTenant_turn (h : Ready s n.val 0x54 d) : ∃ R, AtTurn s n (flightOf s n 0x54 d) { s with rings := R } ∧
    exec (.mtrSetTenant n d) s = done s (opMtrTenant { s with rings := R } n (flightOf s n 0x54 d)) :=
  command_turn h (by decide) (by decide) rfl fun t f code => by rw [opRun, runMore.eq_def, code]; rfl

theorem recRead_turn (h : Ready s n.val 0x58 d) : ∃ R, AtTurn s n (flightOf s n 0x58 d) { s with rings := R } ∧
    exec (.recRead n d) s = done s (opRecRead { s with rings := R } n (flightOf s n 0x58 d)) :=
  command_turn h (by decide) (by decide) rfl fun t f code => by rw [opRun, runMore.eq_def, code]; rfl

/-! ### A cartridge that does not run (R542) -/

section
variable (stopped : s.mtr.running = false)
include stopped

theorem readSet_stopped (h : Ready s n.val 0x50 d) : ∃ t, exec (.mtrReadSet n d) s = .next t ∧
    Frame [.rings, .msixPend, .out] s t ∧ Completed s n.val 0x50 d 0x18 0 0 0 t := by
  obtain ⟨R, turn, e⟩ := mtrReadSet_turn h
  exact completes_stopped turn (by decide) (by decide) stopped e

theorem readInterval_stopped (h : Ready s n.val 0x51 d) : ∃ t, exec (.mtrReadInterval n d) s = .next t ∧
    Frame [.rings, .msixPend, .out] s t ∧ Completed s n.val 0x51 d 0x18 0 0 0 t := by
  obtain ⟨R, turn, e⟩ := mtrReadInterval_turn h
  exact completes_stopped turn (by decide) (by decide) stopped e

theorem readLog_stopped (h : Ready s n.val 0x52 d) : ∃ t, exec (.mtrReadLog n d) s = .next t ∧
    Frame [.rings, .msixPend, .out] s t ∧ Completed s n.val 0x52 d 0x18 0 0 0 t := by
  obtain ⟨R, turn, e⟩ := mtrReadLog_turn h
  exact completes_stopped turn (by decide) (by decide) stopped e

theorem readParam_stopped (h : Ready s n.val 0x53 d) : ∃ t, exec (.mtrReadParam n d) s = .next t ∧
    Frame [.rings, .msixPend, .out] s t ∧ Completed s n.val 0x53 d 0x18 0 0 0 t := by
  obtain ⟨R, turn, e⟩ := mtrReadParam_turn h
  exact completes_stopped turn (by decide) (by decide) stopped e

theorem setTenant_stopped (h : Ready s n.val 0x54 d) : ∃ t, exec (.mtrSetTenant n d) s = .next t ∧
    Frame [.rings, .msixPend, .out] s t ∧ Completed s n.val 0x54 d 0x18 0 0 0 t := by
  obtain ⟨R, turn, e⟩ := mtrSetTenant_turn h
  exact completes_stopped turn (by decide) (by decide) stopped e

end

/-! ### What the operations of a running cartridge do -/

section
variable {t : State} {m : Nat} {f : Flight} (run : t.mtr.running = true)
include run

theorem opMtrSet_outputs
    (part : partOk (ringPart t m) (billPart t (bitOf (tgtOf f) 0) (fld (tgtOf f) 7 1)) = true) :
    opMtrSet t m f = output t m f ((upto 16).map (readSet t (bitOf (tgtOf f) 0) (fld (tgtOf f) 7 1))) t.mtr.snapGen 0 :=
  (if_neg (by simp [run])).trans (if_neg (by simp [part]))

theorem opMtrSet_refuses
    (part : partOk (ringPart t m) (billPart t (bitOf (tgtOf f) 0) (fld (tgtOf f) 7 1)) = false) :
    opMtrSet t m f = refuseAccess t m f (w32 (fld (tgtOf f) 7 1)) :=
  (if_neg (by simp [run])).trans (if_pos (by simp [part]))

theorem opMtrInterval_outputs {r : List Word}
    (found : (if parOf f 0 = 0 then (circ t (tgtOf f).toNat).recs.head? else
      findInterval t (tgtOf f).toNat (parOf f 0)) = some r)
    (part : partOk (ringPart t m) (fld (wAt r 6) 12 8) = true) : opMtrInterval t m f = output t m f r 0 0 := by
  unfold opMtrInterval
  extract_lets k
  rw [if_neg (by simp [run]), found]
  exact if_pos part

theorem opMtrLog_outputs {r : List Word} (found : findLog t (parOf f 0) = some r) : opMtrLog t m f = output t m f r 0 0 := by
  rw [opMtrLog, if_neg (by simp [run]), found]

theorem opMtrLog_fails (absent : findLog t (parOf f 0) = none) : opMtrLog t m f = fail t m f 0xD 3 := by
  rw [opMtrLog, if_neg (by simp [run]), absent]
  rfl

theorem opMtrParam_outputs {r : List Word} (found : readBlock t (parOf f 0).toNat (parOf f 1).toNat = some r) :
    opMtrParam t m f = output t m f r 0 0 := by
  rw [opMtrParam, if_neg (by simp [run]), found]

theorem opMtrTenant_names (circuit : (tgtOf f).toNat ≤ 95) (partition_ : (parOf f 0).toNat ≤ 16) :
    opMtrTenant t m f = complete (tenantNamed t (tgtOf f).toNat (parOf f 0).toNat) m f 0
      (w32 ((circ t (tgtOf f).toNat).seq + 2)) 0 0 := by
  rw [opMtrTenant, if_neg (by simp [run]), tenantSet_accepts t circuit partition_]
  rfl

end

/-! ### The clauses -/

section
variable (run : s.mtr.running = true)
include run

theorem readSet_returns (h : Ready s n.val 0x50 d)
    (part : partOk (ringPart s n) (billPart s (bitOf d.target 0) (fld d.target 7 1)) = true) :
    ∃ t, exec (.mtrReadSet n d) s = .next t ∧ Frame [.rings, .msixPend, .out] s t ∧
      Returned s n.val 0x50 d ((upto 16).map (readSet s (bitOf d.target 0) (fld d.target 7 1))) s.mtr.snapGen 0 t := by
  obtain ⟨R, turn, e⟩ := mtrReadSet_turn h
  obtain ⟨-, -, -, -, -, form, -, -, -⟩ := h
  have room : 4 * ((upto 16).map (readSet s (bitOf d.target 0) (fld d.target 7 1))).length + 4 ≤ d.len.toNat := by
    rw [List.length_map, length_upto]
    exact readSet_len form
  rw [← turn.ringPart] at part
  exact returns_output turn (by decide) (by decide) room
    (e.trans (congrArg (done s) (opMtrSet_outputs (t := { s with rings := R }) run part)))

theorem readSet_refused (h : Ready s n.val 0x50 d)
    (part : partOk (ringPart s n) (billPart s (bitOf d.target 0) (fld d.target 7 1)) = false) :
    ∃ t, exec (.mtrReadSet n d) s = .next t ∧ Frame [.regs, .rings, .evq, .msixPend, .out] s t ∧
      Completed s n.val 0x50 d 9 0 0 (w32 (fld d.target 7 1)) t := by
  obtain ⟨R, turn, e⟩ := mtrReadSet_turn h
  rw [← turn.ringPart] at part
  exact completes_refused turn (by decide) (by decide)
    (e.trans (congrArg (done s) (opMtrSet_refuses (t := { s with rings := R }) run part)))

theorem readInterval_returns (h : Ready s n.val 0x51 d) (r : List Word)
    (found : (if wAt d.par 0 = 0 then (circ s d.target.toNat).recs.head? else
      findInterval s d.target.toNat (wAt d.par 0)) = some r)
    (part : partOk (ringPart s n) (fld (wAt r 6) 12 8) = true) (room : 4 * r.length + 4 ≤ d.len.toNat) :
    ∃ t, exec (.mtrReadInterval n d) s = .next t ∧ Frame [.rings, .msixPend, .out] s t ∧
      Returned s n.val 0x51 d r 0 0 t := by
  obtain ⟨R, turn, e⟩ := mtrReadInterval_turn h
  have par : parOf (flightOf s n 0x51 d) 0 = wAt d.par 0 := parOf_flightOf (by decide)
  rw [← turn.ringPart] at part
  rw [← par] at found
  exact returns_output turn (by decide) (by decide) room
    (e.trans (congrArg (done s) (opMtrInterval_outputs (t := { s with rings := R }) run found part)))

theorem readLog_absent (h : Ready s n.val 0x52 d) (absent : findLog s (wAt d.par 0) = none) :
    ∃ t, exec (.mtrReadLog n d) s = .next t ∧ Frame [.rings, .msixPend, .out] s t ∧
      Completed s n.val 0x52 d 0xD 0 0 3 t := by
  obtain ⟨R, turn, e⟩ := mtrReadLog_turn h
  have par : parOf (flightOf s n 0x52 d) 0 = wAt d.par 0 := parOf_flightOf (by decide)
  rw [← par] at absent
  exact completes_only turn (by decide) (by decide)
    (e.trans (congrArg (done s) (opMtrLog_fails (t := { s with rings := R }) run absent)))

theorem readLog_returns (h : Ready s n.val 0x52 d) (r : List Word) (found : findLog s (wAt d.par 0) = some r)
    (room : 4 * r.length + 4 ≤ d.len.toNat) : ∃ t, exec (.mtrReadLog n d) s = .next t ∧
      Frame [.rings, .msixPend, .out] s t ∧ Returned s n.val 0x52 d r 0 0 t := by
  obtain ⟨R, turn, e⟩ := mtrReadLog_turn h
  have par : parOf (flightOf s n 0x52 d) 0 = wAt d.par 0 := parOf_flightOf (by decide)
  rw [← par] at found
  exact returns_output turn (by decide) (by decide) room
    (e.trans (congrArg (done s) (opMtrLog_outputs (t := { s with rings := R }) run found)))

theorem readParam_returns (h : Ready s n.val 0x53 d) (inside : (wAt d.par 1).toNat < blockLen (wAt d.par 0).toNat) :
    ∃ t, exec (.mtrReadParam n d) s = .next t ∧ Frame [.rings, .msixPend, .out] s t ∧
      Returned s n.val 0x53 d
        ((upto 8).map (fun j => pWord (parBytes s (wAt d.par 0).toNat) ((wAt d.par 1).toNat + 4 * j))) 0 0 t := by
  obtain ⟨R, turn, e⟩ := mtrReadParam_turn h
  obtain ⟨-, -, -, -, -, form, -, -, -⟩ := h
  obtain ⟨len, block, offset⟩ := readParam_form form
  have par0 : parOf (flightOf s n 0x53 d) 0 = wAt d.par 0 := parOf_flightOf (by decide)
  have par1 : parOf (flightOf s n 0x53 d) 1 = wAt d.par 1 := parOf_flightOf (by decide)
  have found : readBlock s (wAt d.par 0).toNat (wAt d.par 1).toNat = some ((upto 8).map
      (fun j => pWord (parBytes s (wAt d.par 0).toNat) ((wAt d.par 1).toNat + 4 * j))) := if_neg (by omega)
  have room : 4 * ((upto 8).map (fun j => pWord (parBytes s (wAt d.par 0).toNat) ((wAt d.par 1).toNat + 4 * j))).length + 4 ≤
      d.len.toNat := by
    rw [List.length_map, length_upto]
    exact len
  rw [← par0, ← par1] at found room ⊢
  exact returns_output turn (by decide) (by decide) room
    (e.trans (congrArg (done s) (opMtrParam_outputs (t := { s with rings := R }) run found)))

theorem setTenant_names (h : Ready s n.val 0x54 d) : ∃ t, exec (.mtrSetTenant n d) s = .next t ∧
    Frame [.rings, .msixPend, .mtr, .out] s t ∧ Completed s n.val 0x54 d 0 (w32 ((circ s d.target.toNat).seq + 2)) 0 0 t ∧
    (circ t d.target.toNat).tenantNext = some (wAt d.par 0).toNat ∧
    (circ t d.target.toNat).tenant = (circ s d.target.toNat).tenant ∧
    (∀ k : Fin 96, k.val ≠ d.target.toNat → circ t k = circ s k) ∧ t.mtr.logSeq = s.mtr.logSeq + 1 := by
  obtain ⟨R, turn, e⟩ := mtrSetTenant_turn h
  obtain ⟨-, -, -, -, -, form, -, -, -⟩ := h
  obtain ⟨circuit, partition_⟩ := setTenant_form form
  have par : parOf (flightOf s n 0x54 d) 0 = wAt d.par 0 := parOf_flightOf (by decide)
  rw [← par] at partition_ ⊢
  replace e := e.trans (congrArg (done s) (opMtrTenant_names (t := { s with rings := R }) run circuit partition_))
  have named : Keeps [.mtr] { s with rings := R }
      (tenantNamed { s with rings := R } d.target.toNat (parOf (flightOf s n 0x54 d) 0).toNat) :=
    (setCirc_keeps ..).step (mtrLog_keeps ..) (by decide)
  obtain ⟨next, now, number⟩ := tenantNamed_next { s with rings := R } d.target.toNat (parOf (flightOf s n 0x54 d) 0).toNat
  have others (i : Nat) (other : i ≠ d.target.toNat) := (circ_tenantNamed { s with rings := R } d.target.toNat
    (parOf (flightOf s n 0x54 d) 0).toNat i).trans (if_neg other)
  have target : (tgtOf (flightOf s n 0x54 d)).toNat = d.target.toNat := rfl
  rw [target] at e
  generalize tenantNamed { s with rings := R } d.target.toNat (parOf (flightOf s n 0x54 d) 0).toNat = v at *
  have kept : Keeps [.rings, .msixPend, .mtr, .out] s v := (rings_keeps.mono (by decide)).step named (by decide)
  refine completes ⟨_, e, kept.step (complete_keeps ..) (by decide)⟩ e
    ⟨completes_after turn (by decide) (by decide) named (by decide) (by decide), ?_⟩
  have mtr := (complete_keeps v n (flightOf s n 0x54 d) 0 (w32 ((circ s d.target.toNat).seq + 2)) 0 0).mtr_eq (by decide)
  have circs := circ_congr mtr
  simp only [close_circ, close_mtr]
  exact ⟨(congrArg Circ.tenantNext (circs _)).trans next, (congrArg Circ.tenant (circs _)).trans now,
    fun k other => (circs k).trans (others k other), (congrArg Mtr.logSeq mtr).trans number⟩

end

/-- What a read returns depends on the recorder alone. -/
theorem recRun_congr {t u : State} (same : u.recSlots = t.recSlots) (part m : Nat) :
    ∀ seq k, recRun u part seq m k = recRun t part seq m k := by
  have record (seq : Word) : readRecord u seq = readRecord t seq := by
    unfold readRecord
    rw [same]
  induction m with
  | zero => exact fun _ _ => rfl
  | succ m ih =>
    intro seq k
    simp only [recRun, record, ih]

theorem recsFrom_congr {t u : State} (slots : u.recSlots = t.recSlots) (next : u.recNext = t.recNext) (part : Nat) (seq : Word)
    (k : Nat) : recsFrom u part seq k = recsFrom t part seq k := by
  unfold recsFrom recBack
  rw [next]
  exact recRun_congr slots ..

theorem recRead_returns (h : Ready s n.val 0x58 d) (l : List (List Word))
    (read : recsFrom s (ringPart s n) (wAt d.par 0) (wAt d.par 1).toNat = l)
    (room : 4 * l.flatten.length + 4 ≤ d.len.toNat) :
    ∃ t, exec (.recRead n d) s = .next t ∧ Frame [.rings, .msixPend, .out] s t ∧
      Returned s n.val 0x58 d l.flatten (w32 l.length)
        ((l.head?.map (fun r => wAt r 0)).getD (s.recNext - w32 (recBack s (wAt d.par 0)))) t := by
  obtain ⟨R, turn, e⟩ := recRead_turn h
  have par0 : parOf (flightOf s n 0x58 d) 0 = wAt d.par 0 := parOf_flightOf (by decide)
  have par1 : parOf (flightOf s n 0x58 d) 1 = wAt d.par 1 := parOf_flightOf (by decide)
  rw [← turn.ringPart, ← par0, ← par1] at read
  rw [← par0]
  refine returns_output turn (by decide) (by decide) room (e.trans (congrArg (done s) ?_))
  have same : recsFrom { s with rings := R } (ringPart { s with rings := R } n) (parOf (flightOf s n 0x58 d) 0)
      (parOf (flightOf s n 0x58 d) 1).toNat = l := (recsFrom_congr (t := s) (u := { s with rings := R }) rfl rfl ..).trans read
  rw [opRecRead, same]
  rfl

end

/-- Settles O36: clause by clause. -/
theorem meteringAndRecorderOperationsEffects : Obligations.MeteringAndRecorderOperationsEffects := by
  unfold Obligations.MeteringAndRecorderOperationsEffects
  intro s
  exact ⟨fun _ _ h run part => readSet_returns run h part, fun _ _ h run part => readSet_refused run h part,
    fun _ _ h stopped => readSet_stopped stopped h, fun _ _ h stopped => readInterval_stopped stopped h,
    fun _ _ h stopped => readLog_stopped stopped h, fun _ _ h stopped => readParam_stopped stopped h,
    fun _ _ h stopped => setTenant_stopped stopped h,
    fun _ _ h run r found part room => readInterval_returns run h r found part room,
    fun _ _ h run absent => readLog_absent run h absent, fun _ _ h run r found room => readLog_returns run h r found room,
    fun _ _ h run inside => readParam_returns run h inside, fun _ _ h run => setTenant_names run h,
    fun _ _ h l read room => recRead_returns h l read room⟩

end Sys2Proof.Proofs
end

section
/-! What a cycle gives: energies, the averaging window, and the end of a hold-up (R280 to R283, R286, R288 to R290, R303, R306,
R314, R317). -/

namespace Sys2Proof.Proofs

set_option Elab.async false

open Machine Laws

section
variable (s : State)

/-! ### Points -/

theorem pset_pts (i : Nat) (v : Word) : (pset s i v).pts = tset ptDefault s.pts i v := by
  unfold pset
  split
  · rfl
  · exact (notePoint_keeps ..).pts_eq (by decide)

theorem pnat_pset (i j : Nat) (v : Word) : pnat (pset s i v) j = if j = i then v else pnat s j := by
  rw [pnat, pset_pts]
  exact tget_tset ..

theorem pnat_clearPts_last (l : List Nat) {i : Nat} (after : i ∉ l) : pnat (clearPts s (i :: l)) i = ptDefault i := by
  have stands (u : State) : pnat (clearPts u l) i = pnat u i := by
    have kept : ∀ v : State, pnat (forAll l (fun s id => pset s id (ptDefault id)) v) i = pnat v i := by
      unfold forAll
      induction l with
      | nil => exact fun _ => rfl
      | cons a l ih =>
        obtain ⟨other, after⟩ := List.ne_and_not_mem_of_not_mem_cons after
        intro v
        rw [List.foldl_cons, ih after, pnat_pset, if_neg other]
    exact kept u
  exact (stands _).trans ((pnat_pset ..).trans (if_pos rfl))

/-! ### Energies of a cycle (R282, R288 to R290) -/

/-- The registers of circuit `k`. -/
def circRegs (s : State) (k : Nat) : List Nat := tget (fun _ => []) s.mtr.circ k

theorem circRegs_congr {s t : State} (h : MeterStays Mtr.circ s t) (k : Nat) : circRegs t k = circRegs s k :=
  congrArg (tget _ · k) h.eq

theorem addPhase_circ (n : Nat) (d : List Nat) : MeterStays Mtr.circ s (addPhase s n d) := by
  unfold addPhase
  generalize counted : modMtr s _ = x
  have h0 : MeterStays Mtr.circ s x := by rw [← counted]; exact .of rfl
  exact h0.trans ((pulsesOf_apart ..).reads Mtr.circ)

theorem addCirc_circRegs (k i : Nat) (d : List Nat) :
    circRegs (addCirc s k d) i = if i = k then regsAdd (circRegs s k) d else circRegs s i := by
  refine (circRegs_congr ((pulsesOf_apart ..).reads Mtr.circ) i).trans ?_
  show tget (fun _ => []) (tset (fun _ => []) s.mtr.circ k (regsAdd (circRegs s k) d)) i = _
  exact tget_tset ..

section
variable (map : List Nat) (m : CycleMeas) (ns k : Nat)

/-- What the inputs of circuit `k` give in a cycle. -/
def cycleRes : List InRes := (cIns map k).zipIdx.map (fun x => inRes map (corrOf s x.1) m ns k x.2 x.1)

/-- What a cycle adds to the registers of a circuit (R288, R289). -/
def cycleSum (rs : List InRes) : List Nat :=
  classify (rs.map InRes.e).sum (rs.map InRes.eq).sum (rs.map InRes.es).sum

theorem circCycle_unused (none : cIns map k = []) : circCycle map m ns s k = s := by
  have empty : (cIns map k).zipIdx.isEmpty = true := by rw [none]; rfl
  exact if_pos empty

theorem circCycle_circRegs (i : Nat) (used : cycleRes s map m ns k ≠ []) : circRegs (circCycle map m ns s k) i =
    if i = k then regsAdd (circRegs s k) (cycleSum (cycleRes s map m ns k)) else circRegs s i := by
  have some_ : ¬ (cIns map k).zipIdx.isEmpty = true := fun h => used (by
    rw [cycleRes, List.isEmpty_iff.mp h]
    rfl)
  unfold circCycle
  extract_lets +onlyGivenNames ins
  rw [if_neg some_]
  extract_lets +onlyGivenNames rs nl x0 x1
  have h0 : MeterStays Mtr.circ s x0 := .forAll .refl fun _ _ h => h.trans (addPhase_circ ..)
  refine (circRegs_congr (s := x1) (.of rfl) i).trans ?_
  rw [addCirc_circRegs, circRegs_congr h0, circRegs_congr h0]
  rfl

theorem circCycle_otherRegs {i : Nat} (other : i ≠ k) : circRegs (circCycle map m ns s k) i = circRegs s i := by
  by_cases used : cycleRes s map m ns k = []
  · have none : cIns map k = [] := by simpa [cycleRes, List.zipIdx_eq_nil_iff] using used
    rw [circCycle_unused s map m ns k none]
  · rw [circCycle_circRegs s map m ns k i used, if_neg other]

end

/-! ### The cycle up to its window -/

section
variable (m : CycleMeas)

/-- The cartridge's time and the voltages of the cycle. -/
def measured : State := voltCycle m (mtrElapse s (cycleNs s m / 1000))

/-- The energies of the cycle, by the corrections in force. -/
def metered : State := forAll (upto 96) (circCycle (parBytes s 0) m (cycleNs s m)) (measured s m)

/-- The latest corrections come into force. -/
def newlyCorrected (t : State) : State := modMtr t fun c => { c with corr := c.corrNext }

theorem newlyCorrected_circ (t : State) : MeterStays Mtr.circ t (newlyCorrected t) := .of rfl

theorem newlyCorrected_keeps (t : State) : Keeps [.mtr] t (newlyCorrected t) := modMtr_keeps ..

/-- The cartridge apart from what a cycle counts in and what its window ends in. -/
def apartMetering (m : Mtr) : Mtr := apartWindow (apartEnergies m)

theorem metered_apart : MeterStays apartEnergies (measured s m) (metered s m) := by
  unfold metered
  exact .forAll .refl fun _ _ h => h.trans (circCycle_apart ..)

theorem newlyCorrected_apart {t u : State} (h : MeterStays apartEnergies t u) :
    MeterStays apartEnergies (newlyCorrected t) (newlyCorrected u) :=
  .of (congrArg (fun m : Mtr => { m with corr := m.corrNext }) h.eq)

theorem beforeWindow : (newlyCorrected (metered s m)).mtr.winN = s.mtr.winN ∧
    (newlyCorrected (metered s m)).mtr.snapGen = s.mtr.snapGen ∧
    (newlyCorrected (metered s m)).mtr.vacc = (upto 3).map (fun k => nAt s.mtr.vacc k + rms (vSamples m k)) := by
  have counted := newlyCorrected_apart (metered_apart s m)
  have winN : MeterStays Mtr.winN (newlyCorrected (measured s m)) (newlyCorrected (metered s m)) := counted.reads Mtr.winN
  have gen : MeterStays Mtr.snapGen (newlyCorrected (measured s m)) (newlyCorrected (metered s m)) := counted.reads Mtr.snapGen
  have vacc : MeterStays Mtr.vacc (newlyCorrected (measured s m)) (newlyCorrected (metered s m)) := counted.reads Mtr.vacc
  rw [winN.eq, gen.eq, vacc.eq]
  exact ⟨rfl, rfl, rfl⟩

theorem cycle_apart : MeterStays apartMetering (newlyCorrected (measured s m)) (windowStep m (newlyCorrected (metered s m))) :=
  ((newlyCorrected_apart (metered_apart s m)).reads apartWindow).trans
    ((windowStep_apart _ m).reads fun m => { apartEnergies m with winN := 0, vacc := [] })

theorem apartMetering_reads {t u : State} (h : MeterStays apartMetering t u) :
    u.mtr.us = t.mtr.us ∧ u.mtr.optime = t.mtr.optime ∧ u.mtr.optimeUs = t.mtr.optimeUs ∧ u.mtr.corr = t.mtr.corr ∧
      u.mtr.par = t.mtr.par ∧ u.mtr.fund = t.mtr.fund :=
  ⟨(h.reads Mtr.us).eq, (h.reads Mtr.optime).eq, (h.reads Mtr.optimeUs).eq, (h.reads Mtr.corr).eq, (h.reads Mtr.par).eq,
    (h.reads Mtr.fund).eq⟩

theorem metered_keeps : Keeps [.regs, .evq, .mtr] s (metered s m) := by
  have before : Keeps [.regs, .evq, .mtr] s (measured s m) :=
    (Keeps.mono (mtrElapse_keeps ..) (by decide)).step (voltCycle_keeps ..) (by decide)
  exact .forAll before fun _ _ h => h.step (circCycle_keeps ..) (by decide)

theorem metered_regs (k : Nat) (low : k < 96) :
    (cIns (parBytes s 0) k = [] → circRegs (metered s m) k = circRegs s k) ∧
    (cycleRes s (parBytes s 0) m (cycleNs s m) k ≠ [] → circRegs (metered s m) k =
      regsAdd (circRegs s k) (cycleSum (cycleRes s (parBytes s 0) m (cycleNs s m) k))) := by
  have rows := forAll_rows (row := circRegs) (g := circCycle (parBytes s 0) m (cycleNs s m))
    (I := fun u => u.mtr.corr = s.mtr.corr)
    (P := fun k a b => (cIns (parBytes s 0) k = [] → b = a) ∧ (cycleRes s (parBytes s 0) m (cycleNs s m) k ≠ [] →
      b = regsAdd a (cycleSum (cycleRes s (parBytes s 0) m (cycleNs s m) k))))
    (fun u k h => ((circCycle_apart u _ m _ k).reads Mtr.corr).eq.trans h)
    (fun u k i other => circCycle_otherRegs u _ m _ k other)
    (fun u k h => by
      have same : cycleRes u (parBytes s 0) m (cycleNs s m) k = cycleRes s (parBytes s 0) m (cycleNs s m) k := by
        simp only [cycleRes, corrOf, h]
      refine ⟨fun none => by rw [circCycle_unused u _ m _ k none], fun used => ?_⟩
      rw [← same] at used ⊢
      rw [circCycle_circRegs u _ m _ k k used, if_pos rfl])
    (s := measured s m) (nodup_upto 96) rfl k
  exact rows.1 (mem_upto.mpr low)

/-- The sub-intervals that waited for the boundary end. -/
def strobesEnded (s : State) : State :=
  forAll (upto 8) (fun s j => match (dset_ s j).strobe with
    | some (ts, nt) => endSub s j ts nt false
    | none => s) s

theorem strobesEnded_none (unstruck : ∀ j : Fin 8, (dset_ s j).strobe = none) : strobesEnded s = s :=
  forAll_still fun j low => by rw [unstruck ⟨j, mem_upto.mp low⟩]

section
variable (run : s.mtr.running = true) (held : heldOut s (cycleNs s m / 1000) = false) (accepted : s.mtr.applied = [])
  (unstruck : ∀ j : Fin 8, (dset_ s j).strobe = none)
include run held accepted unstruck

/-- A cycle in which no sub-interval ends and no commit takes effect. -/
theorem cartridgeCycle_meters :
    execCartridgeCycle m s = done s (windowStep m (newlyCorrected (metered s m))) := by
  have counted := metered_apart s m
  have sets : (metered s m).mtr.sets = s.mtr.sets := (counted.reads Mtr.sets).eq
  have applied : (metered s m).mtr.applied = [] := (counted.reads Mtr.applied).eq.trans accepted
  have quiet : strobesEnded (metered s m) = metered s m := strobesEnded_none _ fun j => by
    rw [dset_, sets]
    exact unstruck j
  have cycle : execCartridgeCycle m s =
      done s (windowStep m (newlyCorrected (applyBlocks (strobesEnded (metered s m))))) :=
    congrArg (done s) ((if_neg (by simp [run])).trans (if_neg (by simp [held])))
  rw [cycle, quiet, applyBlocks_none _ applied]

end

/-! ### The window (R283, R314, R317) -/

/-- The points that the end of a window gives. -/
def windowPoints : State :=
  let n := s.mtr.winN + 1
  let s := forAll (upto 96) (circRefresh (parBytes s 0)) s
  let v := fun k => avg (nAt s.mtr.vacc k) n 1000
  pset (pset (pset (pset s 0x1600 (dec m.freq 10000)) 0x1601 (v 0)) 0x1602 (v 1)) 0x1603 (v 2)

theorem windowStep_within (within : s.mtr.winN + 1 < (if m.freq < 550000 then 10 else 12)) :
    windowStep m s = modMtr s fun c => { c with winN := s.mtr.winN + 1 } := if_pos within

theorem windowStep_ends (ends : (if m.freq < 550000 then 10 else 12) ≤ s.mtr.winN + 1) :
    windowStep m s = snapshot (modMtr (windowPoints s m) clearAcc) := if_neg (Nat.not_lt.mpr ends)

theorem windowPoints_mtr : (windowPoints s m).mtr = s.mtr := by
  have k : Keeps [.pts, .can, .ble] s (windowPoints s m) := by
    unfold windowPoints
    extract_lets n x v
    have h : Keeps [.pts, .can, .ble] s x := .forAll (.refl _ _) fun _ _ h => h.step (circRefresh_keeps ..) (by decide)
    exact (((h.step (pset_keeps ..) (by decide)).step (pset_keeps ..) (by decide)).step (pset_keeps ..) (by decide)).step
      (pset_keeps ..) (by decide)
  exact k.mtr_eq (by decide)

theorem windowPoints_pnat : pnat (windowPoints s m) 0x1600 = dec m.freq 10000 ∧
    pnat (windowPoints s m) 0x1601 = avg (nAt s.mtr.vacc 0 : Nat) (s.mtr.winN + 1) 1000 := by
  unfold windowPoints
  extract_lets n x v
  have h : Keeps [.pts, .can, .ble] s x := .forAll (.refl _ _) fun _ _ h => h.step (circRefresh_keeps ..) (by decide)
  have first : v 0 = avg (nAt s.mtr.vacc 0 : Nat) (s.mtr.winN + 1) 1000 := by
    simp only [v, n]
    rw [h.mtr_eq (by decide)]
  rw [← first]
  clear_value x v
  simp [pnat_pset]

theorem windowStep_winN : (windowStep m s).mtr.winN =
    if s.mtr.winN + 1 < (if m.freq < 550000 then 10 else 12) then s.mtr.winN + 1 else 0 := by
  by_cases within : s.mtr.winN + 1 < (if m.freq < 550000 then 10 else 12)
  · rw [windowStep_within s m within, if_pos within]
    rfl
  · rw [windowStep_ends s m (Nat.not_lt.mp within), if_neg within]
    rfl

end

/-! ### The clauses of O25: the cycle -/

section
variable (m : CycleMeas) (run : s.mtr.running = true)
include run

section
variable (held : heldOut s (cycleNs s m / 1000) = false) (accepted : s.mtr.applied = [])
  (unstruck : ∀ j : Fin 8, (dset_ s j).strobe = none)
include held accepted unstruck

theorem cycle_counts : ∃ t, exec (.cartridgeCycle m) s = .next t ∧
    Frame [.regs, .pts, .phc, .evq, .can, .mtr, .ble, .out] s t ∧
    t.mtr.us = s.mtr.us + cycleNs s m / 1000 ∧
    t.mtr.optime = (s.mtr.optime + (s.mtr.optimeUs + cycleNs s m / 1000) / 100000) % 2 ^ 40 ∧
    t.mtr.optimeUs = (s.mtr.optimeUs + cycleNs s m / 1000) % 100000 ∧
    t.mtr.corr = s.mtr.corrNext ∧ t.mtr.par = s.mtr.par ∧ t.mtr.fund = fundOf m ∧
    t.mtr.winN = (if s.mtr.winN + 1 < (if m.freq < 550000 then 10 else 12) then s.mtr.winN + 1 else 0) ∧
    (∀ k : Fin 96, cIns (parBytes s 0) k = [] → tget (fun _ => []) t.mtr.circ k = tget (fun _ => []) s.mtr.circ k) ∧
    (∀ k : Fin 96, ∀ rs,
      (cIns (parBytes s 0) k).zipIdx.map (fun x => inRes (parBytes s 0) (corrOf s x.1) m (cycleNs s m) k x.2 x.1) = rs →
      rs ≠ [] → tget (fun _ => []) t.mtr.circ k = regsAdd (tget (fun _ => []) s.mtr.circ k)
        (classify (rs.map InRes.e).sum (rs.map InRes.eq).sum (rs.map InRes.es).sum)) := by
  obtain ⟨us, optime, optimeUs, corr, par, fund⟩ := apartMetering_reads (cycle_apart s m)
  obtain ⟨before, -, -⟩ := beforeWindow s m
  have winN := windowStep_winN (newlyCorrected (metered s m)) m
  have regs := circRegs_congr
    ((newlyCorrected_circ (metered s m)).trans ((windowStep_apart (newlyCorrected (metered s m)) m).reads Mtr.circ))
  have cycle := cartridgeCycle_meters s m run held accepted unstruck
  rw [before] at winN
  generalize windowStep m (newlyCorrected (metered s m)) = x at us optime optimeUs corr par fund winN regs cycle
  refine completes (execCartridgeCycle_keeps m s) cycle ?_
  rw [close_mtr]
  exact ⟨us, optime, optimeUs, corr, par, fund, winN,
    fun k none => (regs k).trans ((metered_regs s m k k.isLt).1 none),
    fun k rs given used => by
      subst given
      exact (regs k).trans ((metered_regs s m k k.isLt).2 used)⟩

theorem cycle_withinWindow (within : s.mtr.winN + 1 < (if m.freq < 550000 then 10 else 12)) :
    ∃ t, exec (.cartridgeCycle m) s = .next t ∧ t.mtr.snapGen = s.mtr.snapGen ∧ t.pts = s.pts ∧
      t.mtr.vacc = (upto 3).map (fun k => nAt s.mtr.vacc k + rms (vSamples m k)) := by
  obtain ⟨winN, gen, vacc⟩ := beforeWindow s m
  have cycle := cartridgeCycle_meters s m run held accepted unstruck
  rw [windowStep_within _ m (by rw [winN]; exact within)] at cycle
  have points : (newlyCorrected (metered s m)).pts = s.pts :=
    ((metered_keeps s m).step (newlyCorrected_keeps _) (by decide)).pts_eq (by decide)
  generalize newlyCorrected (metered s m) = x at winN gen vacc cycle points
  refine answers cycle ?_
  rw [close_mtr, close_pts]
  exact ⟨gen, points, vacc⟩

theorem cycle_endsWindow (ends : (if m.freq < 550000 then 10 else 12) ≤ s.mtr.winN + 1) :
    ∃ t, exec (.cartridgeCycle m) s = .next t ∧ t.mtr.snapGen = s.mtr.snapGen + 1 ∧ pnat t 0x1600 = dec m.freq 10000 ∧
      pnat t 0x1601 = avg (nAt s.mtr.vacc 0 + rms (vSamples m 0) : Nat) (s.mtr.winN + 1) 1000 ∧ t.mtr.snapCirc = t.mtr.circ ∧
      t.mtr.acc = [] ∧ t.mtr.vacc = [] := by
  obtain ⟨winN, gen, vacc⟩ := beforeWindow s m
  have cycle := cartridgeCycle_meters s m run held accepted unstruck
  rw [windowStep_ends _ m (by rw [winN]; exact ends)] at cycle
  have points := windowPoints_pnat (newlyCorrected (metered s m)) m
  have same := windowPoints_mtr (newlyCorrected (metered s m)) m
  rw [winN, vacc] at points
  rw [← same] at gen
  generalize windowPoints (newlyCorrected (metered s m)) m = w at cycle points gen
  refine answers cycle ?_
  rw [close_mtr, close_pnat, close_pnat]
  exact ⟨congrArg (· + 1) gen, points.1, points.2, rfl, rfl, rfl⟩

end

theorem cycle_afterHoldup (held : heldOut s (cycleNs s m / 1000) = true) :
    ∃ t, exec (.cartridgeCycle m) s = .next t ∧ Frame [.regs, .pts, .phc, .evq, .can, .mtr, .ble, .out] s t ∧
      t.mtr.running = false ∧ t.mtr.circ = s.mtr.circ ∧ (∀ o : Fin 9, (pulse t o).on = false) ∧
      pnat t 0x1600 = ptDefault 0x1600 ∧ t.mtr.snapGen = s.mtr.snapGen := by
  have stops : execCartridgeCycle m s = done s (mtrStop s) :=
    congrArg (done s) ((if_neg (by simp [run])).trans (if_pos held))
  have rest := mtrStop_apart s
  have point : pnat (mtrStop s) 0x1600 = ptDefault 0x1600 := by
    rw [mtrStop_eq, (refGone_keeps _).pnat (by decide)]
    exact pnat_clearPts_last _ [0x1601, 0x1602, 0x1603] (by decide)
  refine completes (execCartridgeCycle_keeps m s) stops ?_
  rw [close_mtr, close_pnat]
  exact ⟨(rest.reads Mtr.running).eq, (rest.reads Mtr.circ).eq,
    fun o => by rw [← pulse_conducts, close_mtr, pulse_conducts, mtrStop_off s o.isLt], point, (rest.reads Mtr.snapGen).eq⟩

end

end

end Sys2Proof.Proofs
end

section
/-! SUPPORT. What the module sends is only added to: the outputs through the commits due at a phase unit (R523, R572, R760). -/

namespace Sys2Proof.Proofs

set_option Elab.async false

open Machine Laws

/-- What has been sent stays sent, in its order. -/
structure OutGrows (s t : State) : Prop where
  grows : s.out <+: t.out

section
variable {may : List Piece} {s t u : State}

theorem OutGrows.refl : OutGrows s s := ⟨List.prefix_rfl⟩

theorem OutGrows.trans (h : OutGrows s t) (g : OutGrows t u) : OutGrows s u := ⟨h.grows.trans g.grows⟩

theorem outGrows_kept (k : Keeps may s t) (hp : Piece.out ∉ may := by decide) : OutGrows s t := ⟨by rw [k.out_eq hp]⟩

theorem OutGrows.besides (h : OutGrows s t) (k : Keeps may t u) (hp : Piece.out ∉ may := by decide) : OutGrows s u :=
  h.trans (outGrows_kept k hp)

theorem OutGrows.ite {c : Prop} [Decidable c] (h : OutGrows s t) (g : OutGrows s u) : OutGrows s (if c then t else u) := by
  split <;> assumption

theorem OutGrows.forAll {α : Type} {l : List α} {g : State → α → State} (step : ∀ u a, OutGrows u (g u a)) :
    OutGrows s (forAll l g s) :=
  forAll_invariant (I := OutGrows s) .refl fun u a h => h.trans (step u a)

end

section
variable (s : State)

theorem emit_outGrows (o : Out) : OutGrows s (emit s o) := ⟨List.prefix_append ..⟩

theorem raiseVec_outGrows (v : Nat) : OutGrows s (raiseVec s v) := by
  unfold raiseVec
  exact .ite ⟨List.prefix_rfl⟩ (emit_outGrows ..)

theorem countIntr_outGrows (n : Nat) : OutGrows s (countIntr s n) := by
  unfold countIntr
  extract_lets k u
  exact .ite ((outGrows_kept (modRing_keeps ..)).trans (raiseVec_outGrows ..)) (outGrows_kept (modRing_keeps ..))

section
variable (n : Nat) (f : Flight) (status : Nat) (r0 r1 detail : Word)

theorem writeCompletion_outGrows (ts : Nat) : OutGrows s (writeCompletion s n f status r0 r1 detail ts) := by
  unfold writeCompletion
  extract_lets r op seq w1 x y z
  have h : OutGrows s z := ((emit_outGrows ..).besides (stepCq_keeps ..)).besides (modRing_keeps ..)
  exact .ite h (h.trans (countIntr_outGrows ..))

theorem haltRing_outGrows : OutGrows s (haltRing s n) := by
  unfold haltRing
  extract_lets l x
  have h : OutGrows s x := outGrows_kept (modRing_keeps ..)
  exact h.trans (.forAll fun _ _ => writeCompletion_outGrows ..)

theorem complete_outGrows : OutGrows s (complete s n f status r0 r1 detail) := by
  unfold complete
  extract_lets x y
  have hx : OutGrows s x := writeCompletion_outGrows ..
  have hy : OutGrows s y := .ite hx (hx.trans (haltRing_outGrows ..))
  exact hy.besides (closeRing_keeps ..)

theorem completeAll_outGrows (p : Flight → Bool) : OutGrows s (completeAll s p status r0 r1 detail) := by
  unfold completeAll
  exact .forAll fun _ _ => complete_outGrows ..

end

/-! ### The commits due (R111, R166, R760) -/

theorem phcCommitNow_outGrows : OutGrows s (phcCommitNow s) := by
  unfold phcCommitNow
  split
  · exact (((outGrows_kept (phcApply_keeps ..)).besides (starvedCheck_keeps ..)).besides (noteMirror_keeps ..)).trans
      (completeAll_outGrows ..)
  · exact (outGrows_kept (phcRefuse_keeps ..)).trans (completeAll_outGrows ..)

theorem bankCommitNow_outGrows (b : Nat) : OutGrows s (bankCommitNow s b) := by
  unfold bankCommitNow
  split
  · exact (outGrows_kept (bankApply_keeps ..)).trans (completeAll_outGrows ..)
  · exact (outGrows_kept (bankRefuse_keeps ..)).trans (completeAll_outGrows ..)

theorem dueCommits_outGrows : OutGrows s (dueCommits s) := by
  have phc : OutGrows s (phcDue s) := .ite (phcCommitNow_outGrows s) .refl
  exact phc.trans (.forAll fun u b => .ite (bankCommitNow_outGrows u b) .refl)

end

end Sys2Proof.Proofs
end

section
/-! Strobes and the ends of sub-intervals (R292 to R297). -/

namespace Sys2Proof.Proofs

set_option Elab.async false

open Machine Laws

section
variable (s : State)

/-! ### A close strobe from the schedule (R292) -/

/-- A strobe that has been sent to the cartridge. -/
def strobeSent (arg : Word) (s : State) : State :=
  let ts := nowTs s
  let nt := if netLocked s then some (s.ptp.ns / 1000000000) else none
  let t := emit s (.strobe ([w32 (fld arg 7 0), w32 ts, w32 (ts >>> 32)] ++ (match nt with
    | some x => [w32 x, w32 (x >>> 32)]
    | none => [])))
  modMtr t (fun m => { m with strobes := m.strobes ++ [(fld arg 7 0, ts, nt)] })

theorem mtrClose_sends {n : Fin 1024} {arg : Word} {t : State} (fires : fireEntry (dueCommits s) n 5 = some (arg, t)) :
    execMtrClose n s = done s (strobeSent arg t) := by
  unfold execMtrClose
  extract_lets c
  rw [fires]
  rfl

theorem strobe_isSent (n : Fin 1024) (x : Word × State) (fires : fireEntry (dueCommits s) n 5 = some x) :
    ∃ t, exec (.mtrClose n) s = .next t ∧ Frame [.regs, .live, .pts, .phc, .banks, .ch, .rings, .evq, .msixPend, .forces, .can,
      .mtr, .lce, .ble, .twn, .out] s t ∧
      t.mtr.strobes = (dueCommits s).mtr.strobes ++ [(fld x.1 7 0, nowTs x.2,
        if netLocked x.2 then some (x.2.ptp.ns / 1000000000) else none)] ∧ s.out.length < t.out.length := by
  obtain ⟨arg, u⟩ := x
  have fired := fireEntry_keeps fires
  have strobes : u.mtr.strobes = (dueCommits s).mtr.strobes := congrArg Mtr.strobes (fired.mtr_eq (by decide))
  have sent : s.out.length ≤ u.out.length := ((dueCommits_outGrows s).besides fired).grows.length_le
  refine completes (execMtrClose_keeps n s) (mtrClose_sends s fires) ?_
  rw [close_mtr, close_out, ← strobes]
  refine ⟨rfl, ?_⟩
  show s.out.length < (u.out ++ [_]).length
  rw [List.length_append]
  exact Nat.lt_succ_of_le sent

/-! ### The end of a sub-interval (R293, R294, R296, R297) -/

theorem dset_congr {s t : State} (h : MeterStays Mtr.sets s t) (i : Nat) : dset_ t i = dset_ s i := congrArg (tget _ · i) h.eq

@[simp] theorem close_dset (t : State) (i : Nat) : dset_ (close s t) i = dset_ t i := by
  rw [dset_, dset_, close_mtr]

section
variable (j ts : Nat) (nt : Option Nat) (byAuto : Bool)

theorem endInterval_dset (i : Nat) : dset_ (endInterval s j ts nt byAuto) i = if i = j then
    { dset_ s j with subs := 0, start := s.mtr.us, auto := false, part := false, lastB := nt.map Int.ofNat } else dset_ s i := by
  unfold endInterval
  extract_lets +onlyGivenNames d map len ks irr x0 x1 x2
  have h0 : MeterStays apartCircuits s x0 := .forAll .refl fun _ _ h => h.trans (circEnd_apart ..)
  have h1 : MeterStays apartCircuits s x1 := .forAll h0 fun _ _ h => h.trans (tenantTurn_apart ..)
  have us : x1.mtr.us = s.mtr.us := (h1.reads Mtr.us).eq
  have last : MeterStays Mtr.sets x2 (if (!ks.isEmpty && (irr || d.auto)) = true then mtrEvent x2 4 else x2) :=
    .ite (meterStays_kept (mtrEvent_keeps ..)) .refl
  rw [dset_congr last, dset_setDset, us, dset_congr (h1.reads Mtr.sets)]

/-- The demand set after its sub-interval has ended at time `us`: the interval goes on, or has ended with it. -/
structure SubEnded (us : Nat) (byAuto : Bool) (a b : DemSet) : Prop where
  subEnd : b.subEnd = us
  strobe : b.strobe = none
  autoRun : b.autoRun = if byAuto then a.autoRun + 1 else 0
  interval : b.subs = a.subs + 1 ∨ b.subs = 0 ∧ b.start = us

theorem endSub_unused (unused : lenS (parBytes s 3) j = 0) : endSub s j ts nt byAuto = s := if_pos unused

theorem endSub_others {i : Nat} (other : i ≠ j) : dset_ (endSub s j ts nt byAuto) i = dset_ s i := by
  unfold endSub
  split
  · rfl
  · extract_lets d d' x
    have here : dset_ x i = dset_ s i := by rw [dset_setDset, if_neg other]
    split
    · rw [endInterval_dset, if_neg other, here]
    · exact here

theorem endSub_ends (used : lenS (parBytes s 3) j ≠ 0) :
    SubEnded s.mtr.us byAuto (dset_ s j) (dset_ (endSub s j ts nt byAuto) j) := by
  unfold endSub
  rw [if_neg used]
  extract_lets d d' x
  have here : dset_ x j = d' := by rw [dset_setDset, if_pos rfl]
  have us : x.mtr.us = s.mtr.us := rfl
  split
  · rw [endInterval_dset, if_pos rfl, here, us]
    exact ⟨rfl, rfl, rfl, .inr ⟨rfl, rfl⟩⟩
  · rw [here]
    exact ⟨rfl, rfl, rfl, .inl rfl⟩

end

/-! ### A close strobe at the cartridge (R292, R293) -/

/-- The strobes that wait after the first is taken. -/
def strobeTaken : State := modMtr s fun m => { m with strobes := s.mtr.strobes.tail }

/-- A strobe reaches a demand set that it names: it waits for the end of the cycle. -/
def strobeWaits (x : Nat × Nat × Option Nat) (s : State) (j : Nat) : State :=
  if !x.1.testBit j then s else setDset s j { dset_ s j with strobe := some x.2 }

/-- A strobe reaches a demand set that it names: the sub-interval ends at the boundary just passed. -/
def strobeEnds (x : Nat × Nat × Option Nat) (s : State) (j : Nat) : State :=
  if !x.1.testBit j then s else endSub s j x.2.1 x.2.2 false

section
variable (x : Nat × Nat × Option Nat) (first : x ∈ s.mtr.strobes.head?.toList) (run : s.mtr.running = true)

section
include first run

theorem closeStrobe_takes (after : Bool) : execCloseStrobe after s =
    done s (forAll (upto 8) (if after then strobeEnds x else strobeWaits x) (strobeTaken s)) := by
  have runs : ¬ (!(strobeTaken s).mtr.running) = true := by
    show ¬ (!s.mtr.running) = true
    simp [run]
  unfold execCloseStrobe
  cases waiting : s.mtr.strobes with
  | nil => simp [waiting] at first
  | cons y r =>
    obtain rfl : x = y := by simpa [waiting] using first
    have rest : modMtr s (fun m => { m with strobes := r }) = strobeTaken s := by rw [strobeTaken, waiting]; rfl
    dsimp only
    rw [rest, if_neg runs]
    cases after <;> rfl

end

theorem strobeWaits_keeps (u : State) (j : Nat) : Keeps [.mtr] u (strobeWaits x u j) :=
  .ite (.refl _ _) (setDset_keeps ..)

theorem strobeWaits_apart (u : State) (j : Nat) : MeterStays apartSets u (strobeWaits x u j) :=
  .ite .refl (setDset_apart ..)

theorem strobeWaits_dset (u : State) (j i : Nat) : dset_ (strobeWaits x u j) i =
    if i = j ∧ x.1.testBit j = true then { dset_ u j with strobe := some x.2 } else dset_ u i := by
  unfold strobeWaits
  cases named : x.1.testBit j
  · rw [if_pos (by decide), if_neg (by simp)]
  · rw [if_neg (by decide), dset_setDset]
    simp

theorem strobeEnds_apart (u : State) (j : Nat) : MeterStays apartIntervals u (strobeEnds x u j) :=
  .ite .refl (endSub_apart ..)

section
include first run

theorem closeStrobe_waits : ∃ t, exec (.closeStrobe false) s = .next t ∧ Frame [.regs, .pts, .evq, .can, .mtr, .ble] s t ∧
    t.regs = s.regs ∧ t.pts = s.pts ∧ t.mtr = { s.mtr with strobes := s.mtr.strobes.tail, sets := t.mtr.sets } ∧
    ∀ j : Fin 8, dset_ t j = if x.1.testBit j then { dset_ s j with strobe := some x.2 } else dset_ s j := by
  have rows := forAll_rows (row := dset_) (g := strobeWaits x) (I := fun _ => True)
    (P := fun j a b => b = if x.1.testBit j then { a with strobe := some x.2 } else a) (fun _ _ _ => trivial)
    (fun u k i other => by rw [strobeWaits_dset, if_neg (fun h => other h.1)])
    (fun u k _ => by rw [strobeWaits_dset]; simp) (s := strobeTaken s) (nodup_upto 8) trivial
  have kept : Keeps [.mtr] (strobeTaken s) (forAll (upto 8) (strobeWaits x) (strobeTaken s)) :=
    .forAll (.refl _ _) fun _ _ h => h.step (strobeWaits_keeps x ..) (by decide)
  have rest : MeterStays apartSets (strobeTaken s) (forAll (upto 8) (strobeWaits x) (strobeTaken s)) :=
    .forAll .refl fun _ _ h => h.trans (strobeWaits_apart x ..)
  have takes := closeStrobe_takes s x first run false
  rw [if_neg (by decide)] at takes
  generalize forAll (upto 8) (strobeWaits x) (strobeTaken s) = u at rows kept rest takes
  refine completes (execCloseStrobe_keeps false s) takes ?_
  simp only [close_mtr, close_regs, close_pts, close_dset]
  exact ⟨kept.regs_eq (by decide), kept.pts_eq (by decide), congrArg (fun m : Mtr => { m with sets := u.mtr.sets }) rest.eq,
    fun j => (rows j).1 (mem_upto.mpr j.isLt)⟩

theorem closeStrobe_ends : ∃ t, exec (.closeStrobe true) s = .next t ∧ Frame [.regs, .pts, .evq, .can, .mtr, .ble] s t ∧
    t.mtr.strobes = s.mtr.strobes.tail ∧ t.mtr.circ = s.mtr.circ ∧
    ∀ j : Fin 8, (x.1.testBit j = false ∨ lenS (parBytes s 3) j = 0 → dset_ t j = dset_ s j) ∧
      (x.1.testBit j = true → lenS (parBytes s 3) j ≠ 0 → (dset_ t j).subEnd = s.mtr.us ∧ (dset_ t j).strobe = none ∧
      (dset_ t j).autoRun = 0 ∧
        ((dset_ t j).subs = (dset_ s j).subs + 1 ∨ (dset_ t j).subs = 0 ∧ (dset_ t j).start = s.mtr.us)) := by
  have rows := forAll_rows (row := dset_) (g := strobeEnds x) (I := MeterStays apartIntervals (strobeTaken s))
    (P := fun j a b => (x.1.testBit j = false ∨ lenS (parBytes s 3) j = 0 → b = a) ∧
      (x.1.testBit j = true → lenS (parBytes s 3) j ≠ 0 → SubEnded s.mtr.us false a b))
    (fun u k h => h.trans (strobeEnds_apart x u k))
    (fun u k i other => by
      unfold strobeEnds
      split
      · rfl
      · exact endSub_others u k _ _ _ other)
    (fun u k h => by
      have us : u.mtr.us = s.mtr.us := (h.reads Mtr.us).eq
      have pars : u.mtr.par = s.mtr.par := (h.reads Mtr.par).eq
      have par : parBytes u 3 = parBytes s 3 := by
        unfold parBytes
        rw [pars]
        rfl
      unfold strobeEnds
      cases named : x.1.testBit k
      · exact ⟨fun _ => rfl, fun n => absurd n (by decide)⟩
      · rw [if_neg (by simp), ← par, ← us]
        refine ⟨fun unused => ?_, fun _ used => endSub_ends u k _ _ _ used⟩
        rw [endSub_unused u k _ _ _ (unused.resolve_left (by decide))])
    (s := strobeTaken s) (nodup_upto 8) .refl
  have rest : MeterStays apartIntervals (strobeTaken s) (forAll (upto 8) (strobeEnds x) (strobeTaken s)) :=
    .forAll .refl fun _ _ h => h.trans (strobeEnds_apart x ..)
  have takes := closeStrobe_takes s x first run true
  rw [if_pos rfl] at takes
  generalize forAll (upto 8) (strobeEnds x) (strobeTaken s) = u at rows rest takes
  refine completes (execCloseStrobe_keeps true s) takes ?_
  simp only [close_mtr, close_dset]
  refine ⟨(rest.reads Mtr.strobes).eq, (rest.reads Mtr.circ).eq, fun j => ?_⟩
  obtain ⟨stands, ends⟩ := (rows j).1 (mem_upto.mpr j.isLt)
  refine ⟨stands, fun named used => ?_⟩
  obtain ⟨subEnd, strobe, autoRun, interval⟩ := ends named used
  exact ⟨subEnd, strobe, autoRun, interval⟩

end

end

/-! ### A sub-interval that the cartridge ends (R295) -/

/-- An automatic end enters the log, once an hour. -/
def autoLogged (j : Nat) (s : State) : State :=
  if hourPast s (dset_ s j).logged then
    let t := mtrLog s false 0x104 [w32 j, w32 (dset_ s j).autoRun]
    setDset t j { dset_ t j with logged := some t.mtr.optime }
  else s

theorem autoLogged_apart (j : Nat) :
    MeterStays (fun m => { apartLog m with sets := [] }) s (autoLogged j s) := by
  unfold autoLogged
  extract_lets t
  have logged : MeterStays apartLog s t := mtrLog_apart ..
  exact .ite ((logged.reads apartSets).trans ((setDset_apart ..).reads apartLog)) .refl

theorem autoLogged_dset (j i : Nat) : ∃ l, dset_ (autoLogged j s) i =
    if i = j then { dset_ s j with logged := l } else dset_ s i := by
  unfold autoLogged
  dsimp only
  have logged : MeterStays apartLog s (mtrLog s false 0x104 [w32 j, w32 (dset_ s j).autoRun]) := mtrLog_apart ..
  have same := dset_congr (logged.reads Mtr.sets)
  split
  · refine ⟨some (mtrLog s false 0x104 [w32 j, w32 (dset_ s j).autoRun]).mtr.optime, ?_⟩
    rw [dset_setDset]
    simp only [same]
  · refine ⟨(dset_ s j).logged, ?_⟩
    split
    · rename_i e
      rw [e]
    · rfl

theorem autoClose_ends (j : Fin 8) (run : s.mtr.running = true) (used : lenS (parBytes s 3) j ≠ 0)
    (unstruck : (dset_ s j).strobe = none)
    (due : (if (dset_ s j).autoRun = 0 then lenS (parBytes s 3) j * 1000000 * 5 / 4 else lenS (parBytes s 3) j * 1000000) ≤
      (s.mtr.us - (dset_ s j).subEnd) * subsOf (parBytes s 3) j) :
    ∃ t, exec (.autoClose j) s = .next t ∧ Frame [.regs, .pts, .evq, .can, .mtr, .ble] s t ∧ (dset_ t j).subEnd = s.mtr.us ∧
      (dset_ t j).autoRun = (dset_ s j).autoRun + 1 ∧ t.mtr.circ = s.mtr.circ ∧ t.mtr.us = s.mtr.us ∧
      ∀ i : Fin 8, i ≠ j → dset_ t i = dset_ s i := by
  have acts : (s.mtr.running && lenS (parBytes s 3) j != 0 && (dset_ s j).strobe.isNone && decide
      ((if (dset_ s j).autoRun = 0 then lenS (parBytes s 3) j * 1000000 * 5 / 4 else lenS (parBytes s 3) j * 1000000) ≤
        (s.mtr.us - (dset_ s j).subEnd) * subsOf (parBytes s 3) j)) = true := by
    rw [decide_eq_true due]
    simp [run, used, unstruck]
  have ends : execAutoClose j s = done s (autoLogged j (endSub s j 0 none true)) := congrArg (done s) (if_pos acts)
  obtain ⟨subEnd, -, autoRun, -⟩ := endSub_ends s j 0 none true used
  have others (i : Nat) (other : i ≠ j) := endSub_others s j 0 none true other
  have ended := endSub_apart s j 0 none true
  generalize endSub s j 0 none true = u at ends subEnd autoRun others ended
  have rest := autoLogged_apart u j
  have rows := autoLogged_dset u j
  generalize autoLogged j u = v at ends rest rows
  refine completes (execAutoClose_keeps j s) ends ?_
  simp only [close_mtr, close_dset]
  obtain ⟨l, own⟩ := rows j
  rw [if_pos rfl] at own
  rw [own]
  refine ⟨subEnd, autoRun, (rest.reads Mtr.circ).eq.trans (ended.reads Mtr.circ).eq,
    (rest.reads Mtr.us).eq.trans (ended.reads Mtr.us).eq, fun i other => ?_⟩
  obtain ⟨_, row⟩ := rows i
  have apart : i.val ≠ j.val := fun e => other (Fin.ext e)
  rw [row, if_neg apart, others i apart]

end

end Sys2Proof.Proofs
end

section
/-! Corrections and pulse outputs (R263, R286, R300, R303, R320); the settlement of O25. -/

namespace Sys2Proof.Proofs

set_option Elab.async false

open Machine Laws

section
variable (s : State)

/-! ### The temperature (R286) -/

/-- The pairs of a list other than the pair of zeros, by their number. -/
def nonzeroPairs (f : Nat → Int × Int) (l : List Nat) : List (Nat × Int × Int) :=
  l.filterMap fun n => if f n = (0, 0) then none else some (n, f n)

theorem alook_nonzeroPairs (f : Nat → Int × Int) (l : List Nat) (n : Nat) :
    alook (nonzeroPairs f l) n = if n ∈ l ∧ f n ≠ (0, 0) then some (f n) else none := by
  unfold nonzeroPairs
  induction l with
  | nil => simp [alook]
  | cons a l ih =>
    by_cases zero : f a = (0, 0)
    · simp only [List.filterMap_cons, if_pos zero, ih]
      by_cases e : n = a
      · simp [e, zero]
      · simp [e]
    · simp only [List.filterMap_cons, if_neg zero, alook, ih]
      by_cases e : a = n
      · subst e
        simp [zero]
      · simp [e, Ne.symm e]

theorem getD_alook_nonzeroPairs (f : Nat → Int × Int) {l : List Nat} {n : Nat} (mem : n ∈ l) :
    (alook (nonzeroPairs f l) n).getD (0, 0) = f n := by
  rw [alook_nonzeroPairs]
  by_cases zero : f n = (0, 0)
  · rw [if_neg (fun h => h.2 zero), zero]
    rfl
  · rw [if_pos ⟨mem, zero⟩]
    rfl

theorem temperature_corrects (v : BitVec 12) (run : s.mtr.running = true) :
    ∃ t, exec (.temperatureReading v) s = .next t ∧ Frame [.mtr] s t ∧ t.mtr.temp = signedOf 12 v.toNat ∧
      t.mtr.corr = s.mtr.corr ∧
      (signedOf 12 v.toNat ≤ tcTemp (parBytes s 1) 0 → ∀ n : Fin 96,
        (alook t.mtr.corrNext n).getD (0, 0) = tcPoint (parBytes s 1) n 0) := by
  have reads : execTemperatureReading v s = done s (modMtr s fun m => { m with
      temp := signedOf 12 v.toNat,
      corrNext := nonzeroPairs (fun n => corrAt (parBytes s 1) n (signedOf 12 v.toNat)) (upto 96) }) :=
    congrArg (done s) (if_neg (by simp [run]))
  refine completes (execTemperatureReading_keeps v s) reads ?_
  rw [close_mtr]
  refine ⟨rfl, rfl, fun cold n => ?_⟩
  have below : corrAt (parBytes s 1) n (signedOf 12 v.toNat) = tcPoint (parBytes s 1) n 0 := if_pos cold
  rw [← below]
  exact getD_alook_nonzeroPairs _ (mem_upto.mpr n.isLt)

/-! ### Pulses (R300, R303, R320) -/

@[simp] theorem close_pulse (t : State) (o : Nat) : pulse (close s t) o = pulse t o := by
  rw [pulse, pulse, close_mtr]

/-- Output `o` with another pulse, and what is sent of it. -/
def pulseSent (o : Nat) (p : Pulse) (x : Out) (s : State) : State := emit (setPulse s o p) x

theorem pulse_pulseSent (o i : Nat) (p : Pulse) (x : Out) : pulse (pulseSent o p x s) i = if i = o then p else pulse s i :=
  pulse_setPulse ..

/-- A command at one output, which answers by its pulse and one thing sent. -/
theorem pulseOutput_sends {o : Fin 9} {on : Bool} {p : Pulse} {x : Out}
    (e : execPulseOutput o on s = done s (pulseSent o p x s)) :
    ∃ t, exec (.pulseOutput o on) s = .next t ∧ Frame [.mtr, .out] s t ∧ pulse t o = p ∧
      (∀ i : Fin 9, i ≠ o → pulse t i = pulse s i) ∧ t.out = s.out ++ [x] := by
  refine completes (execPulseOutput_keeps o on s) e ?_
  simp only [close_pulse, close_out]
  exact ⟨(pulse_pulseSent ..).trans (if_pos rfl),
    fun i other => (pulse_pulseSent ..).trans (if_neg fun h => other (Fin.ext h)), rfl⟩

theorem pulse_ends (o : Fin 9) (conducting : (pulse s o).on = true) :
    ∃ t, exec (.pulseOutput o false) s = .next t ∧ Frame [.mtr, .out] s t ∧ pulse t o = { pulse s o with on := false } ∧
      (∀ i : Fin 9, i ≠ o → pulse t i = pulse s i) ∧ t.out = s.out ++ [.pulse o.val false] :=
  pulseOutput_sends s (congrArg (done s) ((if_neg (by simp)).trans ((if_pos rfl).trans (if_pos conducting))))

theorem pulse_begins (o : Fin 9) (run : s.mtr.running = true) (off : (pulse s o).on = false) (pending : (pulse s o).pend ≠ 0)
    (enabled : bitOf (pWord (parBytes s 2) (8 * o.val)) 0 = true) (free : o.val = 8 → s.mtr.showing = none) :
    ∃ t, exec (.pulseOutput o true) s = .next t ∧ Frame [.mtr, .out] s t ∧
      pulse t o = { pulse s o with on := true, pend := (pulse s o).pend - 1 } ∧
      (∀ i : Fin 9, i ≠ o → pulse t i = pulse s i) ∧ t.out = s.out ++ [.pulse o.val true] := by
  have shows : (o.val == 8 && s.mtr.showing.isSome) = false := by
    by_cases indicator : o.val = 8
    · simp [indicator, free indicator]
    · simp [indicator]
  have acts : (s.mtr.running && !(pulse s o).on && (pulse s o).pend != 0 && bitOf (pWord (parBytes s 2) (8 * o.val)) 0 &&
      !(o.val == 8 && s.mtr.showing.isSome)) = true := by
    rw [shows]
    simp [run, off, pending, enabled]
  exact pulseOutput_sends s (congrArg (done s) ((if_neg (by rw [Bool.true_and, shows]; decide)).trans
    ((if_neg (by decide)).trans (if_pos acts))))

theorem flash_begins (k : Nat) (showing : s.mtr.showing = some k) (more : k < 16) (off : (pulse s 8).on = false) :
    ∃ t, exec (.pulseOutput 8 true) s = .next t ∧ Frame [.mtr, .out] s t ∧ t.mtr.showing = some (k + 1) ∧
      pulse t 8 = { pulse s 8 with on := true } ∧ t.out = s.out ++ [.flash (bitOf s.mtr.swVer (31 - k))] := by
  have flashes : flashNext s = pulseSent 8 { pulse s 8 with on := true } (.flash (bitOf s.mtr.swVer (31 - k)))
      (modMtr s fun m => { m with showing := some (k + 1) }) := by
    rw [flashNext, showing]
    exact if_pos (by simp [more, off])
  have shows : (true && (8 : Fin 9).val == 8 && s.mtr.showing.isSome) = true := by simp [showing]
  refine completes (execPulseOutput_keeps 8 true s) (congrArg (done s) ((if_pos shows).trans flashes)) ?_
  rw [close_mtr, close_pulse, close_out, pulse_pulseSent, if_pos rfl]
  exact ⟨rfl, rfl, rfl⟩

end

/-- Settles O25: clause by clause. -/
theorem meteringCommandsEffects : Obligations.MeteringCommandsEffects := by
  unfold Obligations.MeteringCommandsEffects
  intro s
  exact ⟨cycle_counts s, cycle_withinWindow s, cycle_endsWindow s, cycle_afterHoldup s, strobe_isSent s,
    closeStrobe_waits s, closeStrobe_ends s, autoClose_ends s, temperature_corrects s, pulse_ends s, pulse_begins s,
    flash_begins s⟩

end Sys2Proof.Proofs
end

section
/-! SUPPORT. Passes of the loop engine and the stop of the controller: what a pass computes and hands over at its end, and what
each operation leaves of the passes, of the controller and of the registers (R326 to R334, R389, R571, R759). -/

namespace Sys2Proof.Proofs

open Machine Laws

/-! ### The loops of a pass (R331, R345) -/

section
variable (s : State) (h n : Nat) (a : PassAcc)

theorem evalLoop_loop (rd : Nat → Word) : (evalLoop s rd h n).n = n := by
  unfold evalLoop
  dsimp only
  split <;> rfl

/-- A loop that is finished stands after those finished before it. -/
theorem passLoop_loops (x : LoopRes) (ua : Word) (sel forced : Bool) :
    (passLoop s h x ua sel forced a).loops.map Prod.fst = a.loops.map Prod.fst ++ [x.n] ∧
    (passLoop s h x ua sel forced a).reached = a.reached := by
  unfold passLoop
  dsimp only
  split <;> exact ⟨List.map_append, rfl⟩

theorem passSingle_loops : (passSingle s h n a).loops.map Prod.fst = a.loops.map Prod.fst ++ [n] ∧
    (passSingle s h n a).reached = a.reached := by
  unfold passSingle
  extract_lets +onlyGivenNames -merge -useContext x out f b
  obtain ⟨loops, reached⟩ := passLoop_loops s h a x (f.getD x.u) false f.isSome
  rw [show x.n = n from evalLoop_loop ..] at loops
  split <;> exact ⟨loops, reached⟩

theorem groupMembers_loops (ms : List Nat) (fresh : List (Nat × Word)) :
    (groupMembers s h ms fresh).map LoopRes.n = ms := by
  induction ms generalizing fresh with
  | nil => rfl
  | cons m ms ih => exact congrArg₂ List.cons (evalLoop_loop ..) (ih _)

/-- A group finishes each of its members. -/
theorem passGroup_loops (g : Nat) (ms : List Nat) :
    (passGroup s h g ms a).loops.map Prod.fst = a.loops.map Prod.fst ++ ms ∧ (passGroup s h g ms a).reached = a.reached := by
  have each (own : LoopRes → Word) (sel : LoopRes → Bool) (forced : Bool) (xs : List LoopRes) (b : PassAcc) :
      (xs.foldl (fun b x => passLoop s h x (own x) (sel x) forced b) b).loops.map Prod.fst =
        b.loops.map Prod.fst ++ xs.map LoopRes.n ∧
      (xs.foldl (fun b x => passLoop s h x (own x) (sel x) forced b) b).reached = b.reached := by
    induction xs generalizing b with
    | nil => exact ⟨(List.append_nil _).symm, rfl⟩
    | cons x xs ih =>
      obtain ⟨loops, reached⟩ := ih (passLoop s h x (own x) (sel x) forced b)
      obtain ⟨first, same⟩ := passLoop_loops s h b x (own x) (sel x) forced
      exact ⟨by rw [List.foldl_cons, loops, first, List.append_assoc]; rfl, reached.trans same⟩
  unfold passGroup
  extract_lets +onlyGivenNames -merge -useContext xs neg out isCand win f b
  have members : xs.map LoopRes.n = ms := groupMembers_loops ..
  have done : b.loops.map Prod.fst = a.loops.map Prod.fst ++ ms ∧ b.reached = a.reached := by
    rw [← members]
    exact each _ _ _ xs { a with groups := a.groups + 1 }
  clear_value b win
  cases win <;> exact done

/-- One due loop of a pass, which its group may have been reached with before. -/
def passStep (s : State) (h : Nat) (due : List Nat) (a : PassAcc) (n : Nat) : PassAcc :=
  if a.reached.contains n then a else
  let g := lGroup s.live n
  if g = 127 then passSingle s h n { a with reached := n :: a.reached }
  else
    let ms := due.filter (fun k => lGroup s.live k == g)
    passGroup s h g ms { a with reached := ms ++ a.reached }

theorem passLoops_eq (due : List Nat) : passLoops s h due = due.foldl (passStep s h due) ⟨[], [], [], [], [], 0⟩ := rfl

/-- Every loop that is marked as reached has been finished. -/
def ReachedDone (a : PassAcc) : Prop := ∀ k ∈ a.reached, k ∈ a.loops.map Prod.fst

/-- Loops marked as reached together with their being finished. -/
theorem ReachedDone.more {a b : PassAcc} {ms : List Nat} (h : ReachedDone a)
    (loops : b.loops.map Prod.fst = a.loops.map Prod.fst ++ ms) (reached : b.reached = ms ++ a.reached) : ReachedDone b := by
  intro k hk
  rw [loops]
  rw [reached] at hk
  exact (List.mem_append.mp hk).elim (List.mem_append_right _) (fun old => List.mem_append_left _ (h k old))

variable {s h n a} in
theorem passStep_reaches {due : List Nat} (mem : n ∈ due) (done : ReachedDone a) :
    ReachedDone (passStep s h due a n) ∧ n ∈ (passStep s h due a n).reached ∧ a.reached ⊆ (passStep s h due a n).reached := by
  unfold passStep
  split
  · rename_i before
    exact ⟨done, List.contains_iff_mem.mp before, List.Subset.refl _⟩
  dsimp only
  split
  · obtain ⟨loops, reached⟩ := passSingle_loops s h n { a with reached := n :: a.reached }
    refine ⟨done.more (ms := [n]) loops reached, ?_, ?_⟩ <;> rw [reached]
    · exact List.mem_cons_self
    · exact List.subset_cons_self _ _
  · obtain ⟨loops, reached⟩ := passGroup_loops s h
      { a with reached := due.filter (fun k => lGroup s.live k == lGroup s.live n) ++ a.reached } (lGroup s.live n)
      (due.filter fun k => lGroup s.live k == lGroup s.live n)
    refine ⟨done.more loops reached, ?_, ?_⟩ <;> rw [reached]
    · exact List.mem_append_left _ (List.mem_filter.mpr ⟨mem, beq_self_eq_true _⟩)
    · exact List.subset_append_right _ _

/-- A pass computes every loop that is due (R331). -/
theorem passLoops_computes (due : List Nat) : ∀ k ∈ due, k ∈ (passLoops s h due).loops.map Prod.fst := by
  have fold (l : List Nat) (sub : l ⊆ due) (a : PassAcc) (done : ReachedDone a) :
      ReachedDone (l.foldl (passStep s h due) a) ∧ ∀ k, k ∈ l ∨ k ∈ a.reached → k ∈ (l.foldl (passStep s h due) a).reached := by
    induction l generalizing a with
    | nil => exact ⟨done, fun k hk => hk.resolve_left List.not_mem_nil⟩
    | cons n l ih =>
      obtain ⟨mem, sub⟩ := List.cons_subset.mp sub
      obtain ⟨next, this, before⟩ := passStep_reaches (s := s) (h := h) mem done
      obtain ⟨last, all⟩ := ih sub _ next
      refine ⟨last, fun k hk => all k ?_⟩
      rcases hk with hk | hk
      · exact (List.mem_cons.mp hk).elim (fun e => .inr (e ▸ this)) .inl
      · exact .inr (before hk)
  obtain ⟨done, reached⟩ := fold due (List.Subset.refl _) ⟨[], [], [], [], [], 0⟩ fun _ hk => absurd hk List.not_mem_nil
  rw [passLoops_eq]
  exact fun k hk => done k (reached k (.inl hk))

end

/-! ### The end of a pass (R331) -/

/-- The pass in progress, the waiting ones and the loops sent. -/
def passes (s : State) : Option PassRun × List (Nat × Nat) × List Nat := (s.lce.run, s.lce.wait, s.lce.sent)

section
variable {s t u : State} {may : List Piece}

theorem Stays.keepPasses (h : Stays passes s t) (g : Keeps may t u) (hp : Piece.lce ∉ may := by decide) : Stays passes s u :=
  h.trans (.of (by unfold passes; rw [g.lce_eq hp]))

/-- At its end a pass hands over the loops it has computed. -/
theorem endPass_passes {r : PassRun} (run : s.lce.run = some r) :
    passes (endPass s) = (none, s.lce.wait, (s.lce.sent ++ r.loops.map Prod.fst).eraseDups) := by
  unfold endPass
  split
  · rename_i idle
    exact absurd (run.symm.trans idle) (Option.some_ne_none r)
  · rename_i r' run'
    obtain rfl : r = r' := Option.some.inj (run.symm.trans run')
    extract_lets +onlyGivenNames -merge -useContext _ x0 x1 x2 x3
    have h1 : Stays passes x0 x1 := Stays.forAll .refl fun _ _ h => h.upd
    have h2 : Stays passes x0 x2 := Stays.forAll h1 fun _ _ h => h.keepPasses (pset_keeps ..)
    have h3 : Stays passes x0 x3 := h2.keepPasses (commitPoints_keeps ..)
    exact (Stays.forAll h3 fun _ _ h => h.keepPasses (loopEvent_keeps ..)).eq

theorem loopEvent_regsOnly (s : State) (bit n : Nat) (rec_ : Bool) : RegsOnly [oLceEvent] s (loopEvent s bit n rec_) := by
  intro o ho
  rw [loopEvent, rget_regEvent, rget_ror, if_neg (by simpa using ho)]

/-- Of the registers a pass that ends moves LCE_EVENT only. -/
theorem endPass_regsOnly (s : State) : RegsOnly [oLceEvent] s (endPass s) := by
  unfold endPass
  split
  · exact fun _ _ => rfl
  · extract_lets +onlyGivenNames -merge -useContext _ x0 x1 x2 x3
    have h1 : RegsOnly [oLceEvent] s x1 := forAll_invariant (I := RegsOnly [oLceEvent] s) (fun _ _ => rfl)
      fun _ _ h => RegsOnly.trans h (RegsOnly.of_keeps (endLoop_keeps ..) (by decide))
    have h2 : RegsOnly [oLceEvent] s x2 := forAll_invariant (I := RegsOnly [oLceEvent] s) h1
      fun _ _ h => RegsOnly.trans h (RegsOnly.of_keeps (pset_keeps ..) (by decide))
    have h3 : RegsOnly [oLceEvent] s x3 := RegsOnly.trans h2 (RegsOnly.of_keeps (commitPoints_keeps ..) (by decide))
    exact forAll_invariant (I := RegsOnly [oLceEvent] s) h3 fun _ _ h => RegsOnly.trans h (loopEvent_regsOnly _ _ _ _)

end

/-! ### The start of a pass (R326, R331, R332) -/

/-- The loops due at a pass of a unit. -/
def dueLoops (s : State) (p unit : Nat) : List Nat := (enLoops s.live).filter (isDue s p (unit / 2048))

/-- The pass that starts: what it has computed, and the unit of its end. -/
def passOf (s : State) (p unit : Nat) : PassRun :=
  let a := passLoops s (unit / 2048) (dueLoops s p unit)
  ⟨unit, absA s + passUnits s p (dueLoops s p unit).length a.groups, a.loops, a.writes, a.events⟩

section
variable (s : State) (p unit : Nat)

theorem startPass_eq : startPass s p unit =
    if (passOf s p unit).stop ≤ absA s then endPass { s with lce := { s.lce with run := some (passOf s p unit) } }
    else { s with lce := { s.lce with run := some (passOf s p unit) } } := rfl

theorem passOf_computes {k : Nat} (enabled : k ∈ enLoops s.live) (due : isDue s p (unit / 2048) k = true) :
    k ∈ (passOf s p unit).loops.map Prod.fst :=
  passLoops_computes s _ _ k (List.mem_filter.mpr ⟨enabled, due⟩)

/-- A pass that starts is in progress with its due loops, or it has ended and sent them; none waiting moves. -/
theorem startPass_passes : (startPass s p unit).lce.wait = s.lce.wait ∧
    (∀ k ∈ enLoops s.live, isDue s p (unit / 2048) k = true →
      k ∈ (startPass s p unit).lce.sent ∨ ∃ r ∈ (startPass s p unit).lce.run, k ∈ r.loops.map Prod.fst) ∧
    ∀ r, (startPass s p unit).lce.run = some r → r.unit = unit ∧ absA s < r.stop := by
  rw [startPass_eq]
  split
  · have ended := endPass_passes (s := { s with lce := { s.lce with run := some (passOf s p unit) } }) rfl
    obtain ⟨run, rest⟩ := Prod.mk.inj ended
    obtain ⟨wait, sent⟩ := Prod.mk.inj rest
    refine ⟨wait, fun k enabled due => .inl ?_, fun r hr => absurd (run.symm.trans hr) (by simp)⟩
    rw [sent]
    exact List.mem_eraseDups.mpr (List.mem_append_right _ (passOf_computes s p unit enabled due))
  · rename_i later
    refine ⟨rfl, fun k enabled due => .inr ⟨_, rfl, passOf_computes s p unit enabled due⟩, fun r hr => ?_⟩
    obtain rfl := Option.some.inj hr
    exact ⟨rfl, Nat.lt_of_not_le later⟩

theorem startPass_regsOnly : RegsOnly [oLceEvent] s (startPass s p unit) := by
  rw [startPass_eq]
  split
  · exact endPass_regsOnly _
  · exact fun _ _ => rfl

section
variable {s : State} {p : Nat} (runs : computes s = true) (clock : lceClock s = true)
include runs clock

/-- Where this module computes and the engine has its clock, a firing is not lost. -/
theorem firePass_eq : firePass s p =
    if s.lce.wait.isEmpty && s.lce.run.isNone then startPass s p (absA s)
    else if s.lce.wait.any (fun w => w.2 == p) then raiseHost (rinc s oLceSkip) oLceEvent (oneBit 0)
    else { s with lce := { s.lce with wait := s.lce.wait ++ [(absA s, p)] } } :=
  if_neg (by rw [runs, clock]; decide)

theorem firePass_starts (empty : s.lce.wait = []) (idle : s.lce.run = none) : firePass s p = startPass s p (absA s) :=
  (firePass_eq runs clock).trans (if_pos (by rw [empty, idle]; rfl))

theorem firePass_drops (waiting : s.lce.wait.any (fun w => w.2 == p) = true) :
    firePass s p = raiseHost (rinc s oLceSkip) oLceEvent (oneBit 0) := by
  rw [firePass_eq runs clock, if_neg, if_pos waiting]
  intro free
  have empty : s.lce.wait = [] := List.isEmpty_iff.mp (Bool.and_eq_true_iff.mp free).1
  rw [empty] at waiting
  exact Bool.false_ne_true waiting

theorem firePass_waits (busy : s.lce.run.isSome = true) (fresh : s.lce.wait.any (fun w => w.2 == p) = false) :
    firePass s p = { s with lce := { s.lce with wait := s.lce.wait ++ [(absA s, p)] } } := by
  have running : s.lce.run.isNone = false := by rw [← Option.not_isSome, busy, Bool.not_true]
  rw [firePass_eq runs clock, running, Bool.and_false, if_neg Bool.false_ne_true, fresh, if_neg Bool.false_ne_true]

end

/-- Of the registers a firing of a pass moves the count of dropped ones and LCE_EVENT. -/
theorem firePass_regsOnly : RegsOnly [oLceSkip, oLceEvent] s (firePass s p) := by
  unfold firePass
  split
  · exact fun _ _ => rfl
  split
  · exact RegsOnly.mono (startPass_regsOnly _ _ _) (by simp)
  split
  · have counted : RegsOnly [oLceSkip] s (rinc s oLceSkip) := regsOnly_rset _ _ _
    exact RegsOnly.trans (RegsOnly.mono counted (by simp)) (RegsOnly.mono (regsOnly_raiseBits _ _ _ _ _ _ _ _) (by simp))
  · exact fun _ _ => rfl

end

/-! ### The controller stops (R334, R389, R571) -/

/-- Whether the controller runs, and the cause of its latest stop. -/
def runState (s : State) : Bool × Nat := (s.ble.running, s.ble.stopCause)

section
variable {s t u : State} {may : List Piece}

theorem Stays.keepRun (h : Stays runState s t) (g : Keeps may t u) (hp : Piece.ble ∉ may := by decide) : Stays runState s u :=
  h.trans (.of (by unfold runState; rw [g.ble_eq hp]))

theorem pset_runState (s : State) (id : Nat) (v : Word) : Stays runState s (pset s id v) := by
  unfold pset notePoint
  exact .ite (.of rfl) (.ite (.of rfl) (.ite (.ite (.of rfl) (.of rfl)) (.of rfl)))

theorem failValue_runState (s : State) (c : Nat) : Stays runState s (failValue s c) := by
  unfold failValue
  split
  · exact pset_runState ..
  · exact pset_runState ..
  · exact .refl

theorem setDiagBit_runState (s : State) (c i : Nat) (v : Bool) : Stays runState s (setDiagBit s c i v) := by
  unfold setDiagBit putDiag
  extract_lets +onlyGivenNames -merge -useContext x0 _ _ _ x1 x2 x3
  have h1 : Stays runState s x1 := (Stays.refl.keepRun (setB_keeps ..)).keepRun (setChan_keeps ..)
  have h3 : Stays runState s x3 := (h1.trans (pset_runState ..)).keepRun (latchRise_keeps ..)
  exact .ite (h3.trans (failValue_runState ..)) h3

theorem allCause_runState (s : State) (bit : Nat) : Stays runState s (allCause s bit) := by
  unfold allCause addCause enterSafe
  refine Stays.forAll .refl fun u b h => ?_
  have caused : Stays runState s (modBank u b fun k => { k with causes := k.causes ||| oneBit bit }) :=
    h.keepRun (modBank_keeps ..)
  refine .ite caused (Stays.keepRun (Stays.forAll (Stays.forAll ?_ ?_) ?_) (safeEvent_keeps ..))
  · exact caused.keepRun (modBank_keeps ..)
  · exact fun _ _ h => h.keepRun (safeChan_keeps ..)
  · exact fun _ _ h => h.trans (setDiagBit_runState ..)

/-- Safe states move latches of channels and events of banks, and no other register. -/
theorem allCause_rget (s : State) (bit : Nat) {o : Nat} (latch : ∀ c, o ≠ oLatch c) (event : ∀ b, o ≠ oBank b + 0x18) :
    rget (allCause s bit) o = rget s o := by
  refine forAll_invariant (I := fun u => rget u o = rget s o) rfl fun u b same => Eq.trans ?_ same
  unfold addCause
  dsimp only
  split
  · rfl
  · obtain ⟨x, e, only⟩ := enterSafe_eq (s := modBank u b fun k => { k with causes := k.causes ||| oneBit bit }) (b := b)
    have told : rget (safeEvent x b 0x20) o = rget x o := by
      unfold safeEvent
      dsimp only
      split
      · exact (rget_raiseBits ..).trans (if_neg (event b))
      · exact rget_regEvent ..
    rw [e, told, only.rget latch]
    rfl

end

/-- A save leaves the passes as they are, and the controller as it runs or stands. -/
theorem forceSave_stands (s : State) : Stays passes s (forceSave s) ∧ Stays runState s (forceSave s) := by
  unfold forceSave startSave
  split
  · exact ⟨.of rfl, .of rfl⟩
  split
  · exact ⟨.of rfl, .of rfl⟩
  · exact ⟨.refl, .refl⟩

theorem applyWrites_runState (s : State) : Stays runState s (applyWrites s) := by
  unfold applyWrites
  extract_lets +onlyGivenNames -merge -useContext _ _ x1 x2
  have h1 : Stays runState s x1 := .of rfl
  have h2 : Stays runState s x2 := Stays.forAll h1 fun _ _ h => h.upd
  exact .ite .refl (h2.keepRun (completeAll_keeps ..))

theorem planTrip_ite_keeps (s : State) {p : Prop} [Decidable p] : Keeps [.twn] s (if p then planTrip s else s) :=
  .ite (planTrip_keeps s) (.refl _ _)

/-- A controller that stops runs no more, and no pass is in progress or waits (R334, R389). -/
theorem stopCtl_spec (s : State) (cause trip : Nat) : (stopCtl s cause trip).ble.running = false ∧
    (stopCtl s cause trip).ble.stopCause = cause ∧ (stopCtl s cause trip).lce.wait = [] ∧ (stopCtl s cause trip).lce.run = none ∧
    rget (stopCtl s cause trip) oIntegEvent = rget s oIntegEvent := by
  unfold stopCtl
  extract_lets +onlyGivenNames -merge -useContext _ _ x0 x1
  obtain ⟨idle, stopped⟩ := forceSave_stands (allCause x0 5)
  have passes1 : Stays passes x0 (if cause = 4 ∨ cause = 5 ∨ cause = 7 then planTrip x1 else x1) :=
    (((Stays.refl.keepPasses (allCause_keeps ..)).trans idle).keepPasses (applyWrites_keeps ..)).keepPasses
      (planTrip_ite_keeps x1)
  have run1 : Stays runState x0 (if cause = 4 ∨ cause = 5 ∨ cause = 7 then planTrip x1 else x1) :=
    (((allCause_runState ..).trans stopped).trans (applyWrites_runState _)).keepRun (planTrip_ite_keeps x1)
  obtain ⟨running, causes⟩ := Prod.mk.inj run1.eq
  obtain ⟨run, rest⟩ := Prod.mk.inj passes1.eq
  obtain ⟨wait, -⟩ := Prod.mk.inj rest
  refine ⟨running, causes, wait, run, ?_⟩
  rw [(planTrip_ite_keeps x1).rget (by decide), (applyWrites_keeps _).rget (by decide), (forceSave_keeps _).rget (by decide),
    allCause_rget]
  · rfl
  · intro c
    unfold oLatch oChan oBank oIntegEvent
    omega
  · intro b
    unfold oBank oIntegEvent
    omega

/-- An uncorrectable error stops the controller with its cause and is noted (R571, R582). -/
theorem integrityStop_spec (s : State) (running : s.ble.running = true) : (integrityStop s).ble.running = false ∧
    (integrityStop s).ble.stopCause = 7 ∧ (integrityStop s).lce.wait = [] ∧ (integrityStop s).lce.run = none ∧
    bitOf (rget (integrityStop s) oIntegEvent) 4 = true := by
  have still : (poison s 4).ble.running = true := by rw [(poison_keeps s 4).ble_eq (by decide), running]
  have e : integrityStop s = stopCtl (poison s 4) 7 0 := if_pos still
  obtain ⟨stopped, cause, wait, run, integ⟩ := stopCtl_spec (poison s 4) 7 0
  rw [e]
  refine ⟨stopped, cause, wait, run, ?_⟩
  rw [integ, poison, rget_raiseBoth, if_pos rfl]
  exact bitOf_or_oneBit _ 4 (by decide)

/-! ### The entries of a staged set (R759) -/

section
variable {α : Type} (m : Tab α) {k : Nat} (v : α) {p : Nat → Bool} (outside : p k = false)
include outside

theorem filter_terase : (terase m k).filter (fun e => p e.1) = m.filter (fun e => p e.1) := by
  induction m with
  | nil => rfl
  | cons e m ih =>
    rw [terase]
    split
    · rename_i same
      rw [List.filter_cons_of_neg (by simp [same, outside]), ih]
    · rw [List.filter_cons, List.filter_cons, ih]

theorem filter_tins : (tins m k v).filter (fun e => p e.1) = m.filter (fun e => p e.1) := by
  induction m with
  | nil => exact List.filter_cons_of_neg (by simp [outside])
  | cons e m ih =>
    rw [tins]
    split
    · exact List.filter_cons_of_neg (by simp [outside])
    · rw [List.filter_cons, List.filter_cons, ih]

/-- A write at a key outside a set leaves the set's entries. -/
theorem filter_tset [DecidableEq α] (d : Nat → α) : (tset d m k v).filter (fun e => p e.1) = m.filter (fun e => p e.1) := by
  unfold tset
  split
  · exact filter_terase m outside
  · exact (filter_tins _ v outside).trans (filter_terase m outside)

end

end Sys2Proof.Proofs
end

section
/-! Firings, commits and saves of the loop engine (R326 to R362, R569, R571); the settlement of O13. -/

namespace Sys2Proof.Proofs

open Machine Laws

/-! ### Firings of passes (R326, R331, R332, R569, R571) -/

abbrev lcePass_may : List Piece := [.regs, .live, .pts, .phc, .banks, .ch, .rings, .evq, .msixPend, .forces, .can, .lce, .ble,
  .twn, .out]

/-- The state in which the firing of an entry of rank 2 has been dispatched. -/
def passFired (c : State) (n : Nat) : State := { c with phc := { c.phc with last := some (absA c, 2, n) } }

theorem passFired_last {s c : State} (commits : dueCommits s = c) (n : Nat) :
    (passFired c n).phc.last = some (absA s, 2, n) := by
  rw [← dueCommits_absA s, commits, passFired]

section
variable {s : State} (c : State) (commits : dueCommits s = c) (n : Fin 1024) (unasked : lcePending c = false)
  (fires : (fireEntry c n.val 2).isSome = true) (runs : computes c = true) (clock : lceClock c = true)
include commits unasked fires runs clock

/-- A firing after which no commit of the loop set is due works on what the commits of its unit have left. -/
theorem exec_lcePass (e : Ecc) :
    exec (.lcePass n e) s = done s (withEcc (passFired c n) e fun t => firePass t (entryArg c n)) := by
  obtain ⟨⟨arg, t⟩, fired⟩ := Option.isSome_iff_exists.mp fires
  have dispatched : t = passFired c n := fireEntry_state fired
  have named : fld arg 3 0 = entryArg c n := by rw [fireEntry_arg fired, entryArg]
  show execLcePass n e s = _
  unfold execLcePass
  simp only [commits, unasked, Bool.false_and, Bool.false_eq_true, if_false, fired]
  rw [named, dispatched, if_pos]
  exact Bool.and_eq_true_iff.mpr ⟨runs, clock⟩

/-- A firing where the engine finds no error that stops it, by the state that the firing of its pass leaves. -/
theorem lcePass_fires {e : Ecc} {u : State} {E : State → Prop} (ok : e ≠ .uncorrectable)
    (fired : firePass (noteEcc (passFired c n) e) (entryArg c n) = u) (effect : E (close s u)) :
    ∃ t, exec (.lcePass n e) s = .next t ∧ Frame lcePass_may s t ∧ t.phc.last = some (absA s, 2, n.val) ∧ E t := by
  have works : withEcc (passFired c n) e (fun t => firePass t (entryArg c n)) = u := by
    cases e with
    | clean => exact fired
    | corrected => exact fired
    | uncorrectable => exact absurd rfl ok
  refine completes (execLcePass_keeps n e s) ((exec_lcePass c commits n unasked fires runs clock e).trans (by rw [works]))
    ⟨?_, effect⟩
  rw [close_phc, ← fired, (firePass_keeps ..).phc_eq (by decide), (noteEcc_keeps ..).phc_eq (by decide), passFired_last commits]

theorem lcePass_starts (empty : c.lce.wait = []) (idle : c.lce.run = none) :
    ∃ t, exec (.lcePass n .clean) s = .next t ∧ Frame lcePass_may s t ∧ t.phc.last = some (absA s, 2, n.val) ∧ t.lce.wait = [] ∧
      (∀ k ∈ enLoops c.live, isDue c (entryArg c n.val) (absA s / 2048) k = true →
        k ∈ t.lce.sent ∨ ∃ r ∈ t.lce.run, k ∈ r.loops.map Prod.fst) ∧
      ∀ r, t.lce.run = some r → r.unit = absA s ∧ absA s < r.stop := by
  have now : absA c = absA s := by rw [← commits, dueCommits_absA]
  have starts : firePass (passFired c n) (entryArg c n) = startPass (passFired c n) (entryArg c n) (absA s) :=
    now ▸ firePass_starts (s := passFired c n) runs clock empty idle
  obtain ⟨wait, due, started⟩ := startPass_passes (passFired c n) (entryArg c n) (absA s)
  refine lcePass_fires c commits n unasked fires runs clock (by decide) starts ?_
  rw [close_lce]
  exact ⟨wait.trans empty, due, fun r hr => (started r hr).imp_right now.symm.trans_lt⟩

theorem lcePass_waits (busy : c.lce.run.isSome = true) (fresh : c.lce.wait.any (fun w => w.2 == entryArg c n.val) = false) :
    ∃ t, exec (.lcePass n .clean) s = .next t ∧ Frame lcePass_may s t ∧ t.phc.last = some (absA s, 2, n.val) ∧
      t.lce = { c.lce with wait := c.lce.wait ++ [(absA s, entryArg c n.val)] } := by
  have now : absA c = absA s := by rw [← commits, dueCommits_absA]
  have waits : firePass (passFired c n) (entryArg c n) =
      { passFired c n with lce := { c.lce with wait := c.lce.wait ++ [(absA s, entryArg c n)] } } :=
    now ▸ firePass_waits (s := passFired c n) runs clock busy fresh
  refine lcePass_fires c commits n unasked fires runs clock (by decide) waits ?_
  rw [close_lce]

theorem lcePass_drops (waiting : c.lce.wait.any (fun w => w.2 == entryArg c n.val) = true) :
    ∃ t, exec (.lcePass n .clean) s = .next t ∧ Frame lcePass_may s t ∧ t.phc.last = some (absA s, 2, n.val) ∧
      t.lce = c.lce ∧ rget t oLceSkip = rget c oLceSkip + 1 ∧ bitOf (rget t oLceEvent) 0 = true := by
  refine lcePass_fires c commits n unasked fires runs clock (by decide)
    (firePass_drops (s := passFired c n) runs clock waiting) ?_
  rw [close_lce, close_rget, close_rget, rget_raiseHost, rget_raiseHost, if_neg (by decide), if_pos rfl,
    (raiseHost_keeps ..).lce_eq (by decide)]
  exact ⟨rfl, rget_rset_same .., bitOf_or_oneBit _ 0 (by decide)⟩

theorem lcePass_counts : ∃ t, exec (.lcePass n .corrected) s = .next t ∧ Frame lcePass_may s t ∧
    t.phc.last = some (absA s, 2, n.val) ∧ rget t oEccCorr = rget c oEccCorr + 1 := by
  refine lcePass_fires c commits n unasked fires runs clock (by decide) rfl ?_
  rw [close_rget, firePass_regsOnly _ _ _ (by decide)]
  exact rget_rset_same ..

theorem lcePass_stops : ∃ t, exec (.lcePass n .uncorrectable) s = .next t ∧ Frame lcePass_may s t ∧
    t.phc.last = some (absA s, 2, n.val) ∧ t.ble.running = false ∧ t.ble.stopCause = 7 ∧ t.lce.wait = [] ∧ t.lce.run = none ∧
    bitOf (rget t oIntegEvent) 4 = true := by
  refine completes (execLcePass_keeps n _ s) (exec_lcePass c commits n unasked fires runs clock .uncorrectable) ⟨?_, ?_⟩
  · rw [close_phc]
    exact (congrArg Phc.last ((integrityStop_keeps _).phc_eq (by decide))).trans (passFired_last commits n)
  · rw [close_ble, close_lce, close_rget]
    exact integrityStop_spec (passFired c n) (Bool.and_eq_true_iff.mp runs).1

end

/-! ### A waiting pass, commits of the loop set, and saves (R331, R332, R355, R358) -/

section
variable (s : State)

theorem waitingPass_starts (w : Nat × Nat) (first : s.lce.wait.head? = some w) (idle : s.lce.run = none)
    (runs : computes s = true) (clock : lceClock s = true) :
    ∃ t, exec .waitingPassStart s = .next t ∧ Frame [.regs, .pts, .banks, .ch, .evq, .can, .lce, .ble, .out] s t ∧
      t.lce.wait = s.lce.wait.tail ∧ ∀ k ∈ enLoops s.live, isDue s w.2 (w.1 / 2048) k = true →
        k ∈ t.lce.sent ∨ ∃ r ∈ t.lce.run, k ∈ r.loops.map Prod.fst := by
  obtain ⟨rest, waits⟩ := List.head?_eq_some_iff.mp first
  have e : exec .waitingPassStart s = done s (startPass { s with lce := { s.lce with wait := rest } } w.2 w.1) := by
    show execWaitingPassStart s = _
    unfold execWaitingPassStart
    simp only [idle, waits]
    exact congrArg (done s) (if_pos (Bool.and_eq_true_iff.mpr ⟨runs, clock⟩))
  obtain ⟨wait, due, -⟩ := startPass_passes { s with lce := { s.lce with wait := rest } } w.2 w.1
  refine completes (execWaitingPassStart_keeps s) e ?_
  rw [close_lce]
  exact ⟨wait.trans (by rw [waits, List.tail_cons]), due⟩

theorem lceCommit_requests (v : Word) (reaches : Reaches s 2) (set : bitOf v 0 = true) (own : isStandby s = false)
    (free : lcePending s = false) :
    ∃ t, exec (.lceCommit v) s = .next t ∧ Frame [.regs, .evq, .lce] s t ∧ RegsOnly [oLceCommitStatus] s t ∧
      rget t oLceCommitStatus = rget s oLceCommitStatus ||| oneBit 31 ∧
      t.lce = { s.lce with build := some (s.regs.filter (fun e => inLceSet e.1)), built := false } := by
  have asked : exec (.lceCommit v) s = done s (lceRequest s) := by
    refine congrArg (done s) ((reached_of_reaches reaches).trans ((if_pos set).trans (if_neg ?_)))
    rw [own]
    decide
  have e : lceRequest s = { ror s oLceCommitStatus (oneBit 31) with
      lce := { s.lce with build := some (s.regs.filter fun e => inLceSet e.1), built := false } } := by
    have taken : (ror s oLceCommitStatus 0x80000000).regs.filter (fun e => inLceSet e.1) = s.regs.filter fun e => inLceSet e.1 :=
      filter_tset _ _ (by decide) _
    rw [lceRequest, if_neg (by rw [free]; decide), ← taken]
    rfl
  rw [e] at asked
  refine completes (execLceCommit_keeps v s) asked ⟨RegsOnly.close ?_ s, ?_, close_lce ..⟩
  · exact regsOnly_rset s oLceCommitStatus _
  · exact (close_rget ..).trans (rget_rset_same ..)

theorem lceCommit_standby (v : Word) (reaches : Reaches s 2) (set : bitOf v 0 = true) (standby : isStandby s = true) :
    ∃ t, exec (.lceCommit v) s = .next t ∧ Frame [.regs, .evq, .lce] s t ∧ RegsOnly [oTwnEvent] s t ∧ t.lce = s.lce ∧
      Raised oTwnEvent 10 s t := by
  have e : exec (.lceCommit v) s = done s (twnEvent s 10) :=
    congrArg (done s) ((reached_of_reaches reaches).trans ((if_pos set).trans (if_pos standby)))
  refine completes (execLceCommit_keeps v s) e
    ⟨RegsOnly.close (regsOnly_raiseBits s oTwnEvent (oneBit 10) _ _ _ _ _) s, ?_,
      Raised.close (raised_raiseBoth _ _ _ (by decide)) s⟩
  rw [close_lce]
  exact (twnEvent_keeps s 10).lce_eq (by decide)

theorem lceBuild_completes (clock : lceClock s = true) (build : s.lce.build.isSome = true) :
    ∃ t, exec .lceBuildComplete s = .next t ∧ Frame [.lce] s t ∧ t.lce = { s.lce with built := true } :=
  completes (execLceBuildComplete_keeps s) (congrArg (done s) (if_pos (Bool.and_eq_true_iff.mpr ⟨clock, build⟩))) (close_lce ..)

theorem saturation_saves (clock : lceClock s = true) (up : started s = true) (free : s.clk.resetWait = none) :
    ∃ t, exec .saturationSave s = .next t ∧ Frame [.lce] s t ∧
      t.lce = { s.lce with satArea := t.lce.satArea, satAt := s.rtc.optime } ∧
      t.lce.satArea = s.lce.loops.filterMap (fun e => if e.2.satTot = 0 ∧ e.2.satCnt = 0 ∧ e.2.satFrac = 0 then none
        else some (e.1, (e.2.satTot, e.2.satCnt, e.2.satFrac))) := by
  have e : exec .saturationSave s = done s (saveSat s) := congrArg (done s) (if_pos (by simp [clock, up, free]))
  refine completes (execSaturationSave_keeps s) e ?_
  rw [close_lce]
  exact ⟨rfl, rfl⟩

end

/-- Settles O13: clause by clause. -/
theorem loopEngineCommandsEffects : Obligations.LoopEngineCommandsEffects := by
  unfold Obligations.LoopEngineCommandsEffects
  intro s
  exact ⟨lcePass_starts, lcePass_waits, lcePass_drops, lcePass_counts, lcePass_stops, waitingPass_starts s, lceCommit_requests s,
    lceCommit_standby s, lceBuild_completes s, saturation_saves s⟩

end Sys2Proof.Proofs
end

section
/-! SUPPORT. The block engine's tasks: what firings, commits and saves leave of its cycles, its tasks and the cause of its stop
(R381 to R396). -/

namespace Sys2Proof.Proofs

open Machine Laws

/-! ### Cycles and tasks beside the words of the program -/

/-- The controller without the words that a commit writes and without the save under way. -/
def taskState (s : State) : Ble :=
  { s.ble with data := [], writes := [], dirty := [], dirtyVars := [], lastMs := [], rewired := [], saving := none, again := false,
               switchSave := false }

section
variable {s t u : State} {may : List Piece}

theorem Stays.keepTasks (h : Stays taskState s t) (g : Keeps may t u) (hp : Piece.ble ∉ may := by decide) : Stays taskState s u :=
  h.trans (.of (by unfold taskState; rw [g.ble_eq hp]))

theorem Stays.run_eq (h : Stays taskState s t) : t.ble.run = s.ble.run := (congrArg Ble.run h.eq :)
theorem Stays.wait_eq (h : Stays taskState s t) : t.ble.wait = s.ble.wait := (congrArg Ble.wait h.eq :)
theorem Stays.tasks_eq (h : Stays taskState s t) : t.ble.tasks = s.ble.tasks := (congrArg Ble.tasks h.eq :)
theorem Stays.retA_eq (h : Stays taskState s t) : t.ble.retA = s.ble.retA := (congrArg Ble.retA h.eq :)
theorem Stays.retB_eq (h : Stays taskState s t) : t.ble.retB = s.ble.retB := (congrArg Ble.retB h.eq :)
theorem Stays.tripTask_eq (h : Stays taskState s t) : t.ble.tripTask = s.ble.tripTask := (congrArg Ble.tripTask h.eq :)

theorem task_congr (h : t.ble.tasks = s.ble.tasks) (k : Nat) : task t k = task s k := congrArg (tget _ · k) h

theorem setTask_stays (h : Stays taskState s t) (k : Nat) (r : TaskRun) : Stays taskState (setTask s k r) (setTask t k r) :=
  .of (congrArg (fun b : Ble => { b with tasks := tset (fun _ => TaskRun.reset) b.tasks k r }) h.eq)

end

section
variable (s : State)

theorem pset_tasks (id : Nat) (v : Word) : Stays taskState s (pset s id v) := by
  unfold pset notePoint
  exact .ite (.of rfl) (.ite (.of rfl) (.ite (.ite (.of rfl) (.of rfl)) (.of rfl)))

theorem setDiagBit_tasks (c i : Nat) (v : Bool) : Stays taskState s (setDiagBit s c i v) := by
  have fails (t : State) : Stays taskState t (failValue t c) := by
    unfold failValue
    split
    · exact pset_tasks ..
    · exact pset_tasks ..
    · exact .refl
  unfold setDiagBit putDiag
  extract_lets +onlyGivenNames -merge -useContext x0 _ _ _ x1 x2 x3
  have h1 : Stays taskState s x1 := (Stays.refl.keepTasks (setB_keeps ..)).keepTasks (setChan_keeps ..)
  have h3 : Stays taskState s x3 := (h1.trans (pset_tasks ..)).keepTasks (latchRise_keeps ..)
  exact .ite (h3.trans (fails _)) h3

theorem allCause_tasks (bit : Nat) : Stays taskState s (allCause s bit) := by
  unfold allCause addCause enterSafe
  refine Stays.forAll .refl fun u b h => ?_
  have caused : Stays taskState s (modBank u b fun k => { k with causes := k.causes ||| oneBit bit }) :=
    h.keepTasks (modBank_keeps ..)
  refine .ite caused (Stays.keepTasks (Stays.forAll (Stays.forAll ?_ ?_) ?_) (safeEvent_keeps ..))
  · exact caused.keepTasks (modBank_keeps ..)
  · exact fun _ _ h => h.keepTasks (safeChan_keeps ..)
  · exact fun _ _ h => h.trans (setDiagBit_tasks ..)

/-! ### Saves and host writes (R386, R394 to R396) -/

theorem startSave_tasks : Stays taskState s (startSave s) := by
  unfold startSave
  split
  · exact .of rfl
  · exact .refl

theorem forceSave_tasks : Stays taskState s (forceSave s) := .ite (.of rfl) (startSave_tasks s)

theorem dueSave_tasks : Stays taskState s (dueSave s) :=
  .ite ((Stays.refl.keepTasks (rinc_keeps ..)).keepTasks (bleEvent_keeps ..)) (startSave_tasks s)

theorem applyWrites_tasks : Stays taskState s (applyWrites s) := by
  unfold applyWrites
  extract_lets +onlyGivenNames -merge -useContext _ _ x1 x2
  have h1 : Stays taskState s x1 := .of rfl
  have h2 : Stays taskState s x2 := Stays.forAll h1 fun _ _ h => h.upd
  exact .ite .refl (h2.keepTasks (completeAll_keeps ..))

theorem pfSave_tasks : Stays taskState s (pfSave s) :=
  .ite .refl (.ite (forceSave_tasks s) (Stays.refl.keepTasks (pfRecord_keeps s)))

/-! ### The commit of a cycle (R382, R420) -/

theorem writePoints_tasks (ws : List (Nat × Word)) : Stays taskState s (writePoints s ws) := by
  unfold writePoints
  exact Stays.keepTasks (Stays.forAll .refl fun _ _ h => .ite h (h.trans (pset_tasks ..))) (commitWrites_keeps ..)

theorem mergeInst_tasks (w : Work) (i : Inst) : Stays taskState s (mergeInst s w i) := by
  unfold mergeInst
  exact Stays.forAll .refl fun _ _ h => .ite h h.upd

/-- A task's registers after one more cycle that took a time. -/
def cycleDone (r : TaskRun) (time : Nat) : TaskRun :=
  { r with cycles := r.cycles + 1, last := min time 65535, max := max r.max (min time 65535) }

/-- A commit counts its cycle and notes its duration; other tasks, and the cycles that wait, stand (R420). -/
theorem commitCycle_tasks (im : Image) (c : Cycle) (time : Nat) (named : (taskOf im c.task).isSome = true) :
    Stays taskState (setTask s c.task (cycleDone (task s c.task) time)) (commitCycle s im c time) := by
  unfold commitCycle
  split
  · rename_i unnamed
    rw [unnamed] at named
    exact absurd named Bool.false_ne_true
  · extract_lets +onlyGivenNames -merge -useContext _ _ x0 x1 x2 x3 x4 r x5
    have h0 : Stays taskState s x0 := .of rfl
    have h1 : Stays taskState s x1 := Stays.forAll h0 fun _ _ h => h.trans (mergeInst_tasks ..)
    have h2 : Stays taskState s x2 := h1.trans (writePoints_tasks ..)
    have h3 : Stays taskState s x3 := Stays.forAll h2 fun _ _ h => h.keepTasks (commitOuter_keeps ..)
    have h4 : Stays taskState s x4 := h3.keepTasks (commitEvents_keeps ..)
    have same : r = task s c.task := task_congr h4.tasks_eq c.task
    have h5 : Stays taskState (setTask s c.task (cycleDone (task s c.task) time)) x5 := by
      rw [← same]
      exact setTask_stays h4 ..
    exact .ite (Stays.trans h5.upd (forceSave_tasks _)) (.ite (h5.trans (dueSave_tasks x5)) h5)

/-! ### Waiting firings (R384) -/

theorem startWaiting_taskRuns (executed : Nat) : (startWaiting s executed).ble.tasks = s.ble.tasks := by
  unfold startWaiting
  split
  · split <;> rfl
  · rfl

variable {s} in
theorem startWaiting_none (empty : s.ble.wait = []) (executed : Nat) : startWaiting s executed = s := by
  unfold startWaiting bestWaiting
  rw [empty]
  rfl

/-! ### A stop for an overrun (R389) -/

/-- A controller that stops keeps the number of the task that tripped it, and what BLE_EVENT shows. -/
theorem stopCtl_trip (cause trip : Nat) : (stopCtl s cause trip).ble.tripTask = trip ∧
    rget (stopCtl s cause trip) oBleEvent = rget s oBleEvent := by
  unfold stopCtl
  extract_lets +onlyGivenNames -merge -useContext _ _ x0 x1
  have stopped : Stays taskState x0 (if cause = 4 ∨ cause = 5 ∨ cause = 7 then planTrip x1 else x1) :=
    ((((allCause_tasks x0 5).trans (forceSave_tasks _)).trans (applyWrites_tasks _)).keepTasks (planTrip_ite_keeps x1))
  refine ⟨stopped.tripTask_eq, ?_⟩
  rw [(planTrip_ite_keeps x1).rget (by decide), (applyWrites_keeps _).rget (by decide), (forceSave_keeps _).rget (by decide),
    allCause_rget]
  · rfl
  · intro c
    unfold oLatch oChan oBank oBleEvent
    omega
  · intro b
    unfold oBank oBleEvent
    omega

end

end Sys2Proof.Proofs
end

section
/-! Task cycles (R381 to R396): firings, the commit of a cycle, the ends of saves; the settlement of O14. -/

namespace Sys2Proof.Proofs

open Machine Laws

/-! ### Firings of tasks (R381, R384, R389) -/

section
variable {s : State} {t entry executed : Nat} {d : TaskDef}
  (known : s.img.bind (fun im => taskOf im t) = some d) (runs : computes s = true) (goes : (task s t).stopped = false)
include known runs goes

/-- A firing that finds its task free, and nothing that goes before it, starts its cycle. -/
theorem fireTask_starts (idle : inCycle s t = false) (fresh : waitsFiring s t = false) (run : s.ble.run = none)
    (stack : s.ble.stack = []) (wait : s.ble.wait = []) (latch : mayLatch s (absA s) = true) :
    fireTask s t entry executed =
      beginCycle (setTask s t { task s t with ovrRun := 0, acted := false }) t (absA s) (nowTs s) := by
  let u := setTask s t { task s t with ovrRun := 0, acted := false }
  have same : task u t = { task s t with ovrRun := 0, acted := false } := tget_tset_same ..
  have goes : (task u t).stopped = false := by rw [same, goes]
  have runs : computes u = true := runs
  have ahead : goesAhead u t executed = true := by
    unfold goesAhead
    rw [show u.ble.run = none from run, show u.ble.stack = [] from stack]
  have alone : u.ble.wait = [] := wait
  have latch : mayLatch u (absA u) = true := latch
  have first : (mayLatch u (absA u) && goesAhead u t executed && !u.ble.wait.any (fun w => prioOf u w.1 == prioOf u t)) = true := by
    rw [latch, ahead, alone]
    rfl
  have free : (inCycle s t || waitsFiring s t) = false := by rw [idle, fresh, Bool.or_false]
  unfold fireTask
  rw [known]
  dsimp only
  rw [free, if_neg Bool.false_ne_true, if_neg (by rw [runs, goes]; decide), if_neg Bool.false_ne_true]
  exact if_pos first

/-- A firing whose task still waits is an overrun, which stops the controller unless the task has COMFORT. -/
theorem fireTask_overruns (strict : d.comfort = false) (waits : waitsFiring s t = true) :
    fireTask s t entry executed = stopCtl (taskEvent s 0 t) 4 t := by
  have busy : (inCycle s t || waitsFiring s t) = true := by rw [waits, Bool.or_true]
  unfold fireTask
  rw [known]
  dsimp only
  rw [busy, if_pos rfl, if_neg (by rw [runs, goes]; decide), if_pos rfl, overrun]
  exact if_pos (by rw [strict]; rfl)

end

abbrev bleTask_may : List Piece := [.regs, .live, .pts, .phc, .banks, .ch, .rings, .evq, .msixPend, .forces, .can, .lce, .ble,
  .twn, .out]

/-- The state in which the firing of an entry of rank 3 has been dispatched. -/
def taskFired (c : State) (n : Nat) : State := { c with phc := { c.phc with last := some (absA c, 3, n) } }

section
variable {s : State} (c : State) (commits : dueCommits s = c) (n : Fin 1024) (executed : Nat)
  (fires : (fireEntry c n.val 3).isSome = true) (runs : computes c = true) (clock : bleClock c = true)
include commits

theorem taskFired_last : (taskFired c n).phc.last = some (absA s, 3, n.val) := by
  rw [← dueCommits_absA s, commits, taskFired]

include fires clock

/-- A firing of a task works on what the commits of its unit have left. -/
theorem exec_bleTask (image : c.img.isSome = true) (e : Ecc) : exec (.bleTask n executed e) s =
    done s (withEcc (taskFired c n) e fun t => fireTask t (entryArg c n) n executed) := by
  obtain ⟨⟨arg, t⟩, fired⟩ := Option.isSome_iff_exists.mp fires
  have dispatched : t = taskFired c n := fireEntry_state fired
  have named : fld arg 3 0 = entryArg c n := by rw [fireEntry_arg fired, entryArg]
  show execBleTask n executed e s = _
  unfold execBleTask
  simp only [commits, fired]
  rw [named, dispatched, if_pos]
  exact Bool.and_eq_true_iff.mpr ⟨clock, image⟩

/-- A firing of a task where the engine finds no error, by the state it leaves. -/
theorem bleTask_fires {d : TaskDef} {u : State} {E : State → Prop}
    (known : c.img.bind (fun im => taskOf im (entryArg c n.val)) = some d)
    (fired : fireTask (taskFired c n) (entryArg c n) n executed = u) (effect : E (close s u)) :
    ∃ t, exec (.bleTask n executed .clean) s = .next t ∧ Frame bleTask_may s t ∧ t.phc.last = some (absA s, 3, n.val) ∧ E t := by
  obtain ⟨im, image, -⟩ := Option.bind_eq_some_iff.mp known
  have e := (exec_bleTask c commits n executed fires clock (Option.isSome_iff_exists.mpr ⟨im, image⟩) .clean).trans
    (congrArg (done s) fired)
  refine completes (execBleTask_keeps n executed .clean s) e ⟨?_, effect⟩
  rw [close_phc, ← fired, (fireTask_keeps ..).phc_eq (by decide), taskFired_last c commits]

include runs

theorem bleTask_starts (known : (c.img.bind (fun im => taskOf im (entryArg c n.val))).isSome = true)
    (goes : (task c (entryArg c n.val)).stopped = false) (idle : inCycle c (entryArg c n.val) = false)
    (fresh : waitsFiring c (entryArg c n.val) = false) (run : c.ble.run = none) (stack : c.ble.stack = [])
    (wait : c.ble.wait = []) (latch : mayLatch c (absA s) = true) :
    ∃ t, exec (.bleTask n executed .clean) s = .next t ∧ Frame bleTask_may s t ∧ t.phc.last = some (absA s, 3, n.val) ∧
      t.ble.run.map Cycle.task = some (entryArg c n.val) ∧ t.ble.run.map Cycle.unit = some (absA s) ∧ t.ble.wait = [] ∧
      t.ble.stack = [] := by
  obtain ⟨d, known⟩ := Option.isSome_iff_exists.mp known
  have now : absA (taskFired c n) = absA s := (congrArg absA commits).symm.trans (dueCommits_absA s)
  have starts := fireTask_starts (s := taskFired c n) (entry := n) (executed := executed) known runs goes idle fresh run stack wait
    (by rw [now]; exact latch)
  refine bleTask_fires c commits n executed fires clock known starts ?_
  rw [close_ble, now]
  refine ⟨rfl, rfl, wait, ?_⟩
  show c.ble.run.toList ++ c.ble.stack = []
  rw [run, stack]
  rfl

theorem bleTask_overruns (d : TaskDef) (known : c.img.bind (fun im => taskOf im (entryArg c n.val)) = some d)
    (strict : d.comfort = false) (goes : (task c (entryArg c n.val)).stopped = false)
    (waits : waitsFiring c (entryArg c n.val) = true) :
    ∃ t, exec (.bleTask n executed .clean) s = .next t ∧ Frame bleTask_may s t ∧ t.phc.last = some (absA s, 3, n.val) ∧
      t.ble.running = false ∧ t.ble.stopCause = 4 ∧ t.ble.tripTask = entryArg c n.val ∧ bitOf (rget t oBleEvent) 0 = true := by
  have stops := fireTask_overruns (s := taskFired c n) (entry := n) (executed := executed) known runs goes strict waits
  obtain ⟨stopped, cause, -⟩ := stopCtl_spec (taskEvent (taskFired c n) 0 (entryArg c n)) 4 (entryArg c n)
  obtain ⟨trip, event⟩ := stopCtl_trip (taskEvent (taskFired c n) 0 (entryArg c n)) 4 (entryArg c n)
  have raised : bitOf (rget (taskEvent (taskFired c n) 0 (entryArg c n)) oBleEvent) 0 = true := by
    rw [taskEvent, rget_raiseBits, if_pos rfl]
    exact bitOf_or_oneBit _ 0 (by decide)
  refine bleTask_fires c commits n executed fires clock known stops ?_
  rw [close_ble, close_rget, event]
  exact ⟨stopped, cause, trip, raised⟩

theorem bleTask_stops (image : c.img.isSome = true) :
    ∃ t, exec (.bleTask n executed .uncorrectable) s = .next t ∧ Frame bleTask_may s t ∧
      t.phc.last = some (absA s, 3, n.val) ∧ t.ble.running = false ∧ t.ble.stopCause = 7 := by
  refine completes (execBleTask_keeps n executed .uncorrectable s) (exec_bleTask c commits n executed fires clock image _) ⟨?_, ?_⟩
  · rw [close_phc]
    exact (congrArg Phc.last ((integrityStop_keeps _).phc_eq (by decide))).trans (taskFired_last c commits n)
  · obtain ⟨stopped, cause, -⟩ := integrityStop_spec (taskFired c n) (Bool.and_eq_true_iff.mp runs).1
    rw [close_ble]
    exact ⟨stopped, cause⟩

end

/-! ### Cycles that go on and cycles that end (R382, R384, R420) -/

section
variable (s : State)

theorem taskCycle_resumes (clock : bleClock s = true) (run : s.ble.run = none) (wait : s.ble.wait = []) (c : Cycle)
    (first : s.ble.stack.head? = some c) : ∃ t, exec .taskCycleResume s = .next t ∧ Frame [.ble, .free] s t ∧
      t.ble = { s.ble with run := some c, stack := s.ble.stack.tail } := by
  obtain ⟨rest, stack⟩ := List.head?_eq_some_iff.mp first
  have waiting : startWaiting (takeFree s).2 (Config.blocksDone (takeFree s).1) = (takeFree s).2 :=
    startWaiting_none (s := (takeFree s).2) wait _
  have e : exec .taskCycleResume s =
      done s { (takeFree s).2 with ble := { s.ble with run := some c, stack := s.ble.stack.tail } } := by
    show execTaskCycleResume s = _
    unfold execTaskCycleResume
    rw [if_neg (by rw [clock]; decide)]
    dsimp only
    rw [waiting, show (takeFree s).2.ble = s.ble from rfl, run, stack]
    rfl
  exact completes (execTaskCycleResume_keeps s) e (close_ble ..)

abbrev taskCycleCommit_may : List Piece := [.regs, .pts, .clk, .banks, .ch, .rings, .evq, .recq, .recSlots, .recNext, .recLost,
  .recLostCls, .msixPend, .eth, .can, .lce, .ble, .out]

theorem taskCycle_commits (time : Nat) (clock : bleClock s = true) (c : Cycle) (run : s.ble.run = some c) (im : Image)
    (image : s.img = some im) (named : (taskOf im c.task).isSome = true) :
    ∃ t, exec (.taskCycleCommit time) s = .next t ∧ Frame taskCycleCommit_may s t ∧
      (task t c.task).cycles = (task s c.task).cycles + 1 ∧ (task t c.task).last = min time 65535 ∧
      (task t c.task).max = max (task s c.task).max (min time 65535) ∧ (s.ble.wait = [] → t.ble.run = none) := by
  let idle : State := { s with ble := { s.ble with run := none } }
  let x := applyWrites (commitCycle idle im c time)
  have e : exec (.taskCycleCommit time) s = done s (pfSave (startWaiting x 0)) := by
    show execTaskCycleCommit time s = _
    unfold execTaskCycleCommit
    rw [if_neg (by rw [clock]; decide)]
    split
    · rename_i c' im' run' image'
      obtain rfl : c = c' := Option.some.inj (run.symm.trans run')
      obtain rfl : im = im' := Option.some.inj (image.symm.trans image')
      rfl
    · rename_i idle
      exact absurd image (idle c im run)
  have committed : Stays taskState (setTask idle c.task (cycleDone (task s c.task) time)) x :=
    (commitCycle_tasks idle im c time named).trans (applyWrites_tasks _)
  have saved := pfSave_tasks (startWaiting x 0)
  have counted : task (close s (pfSave (startWaiting x 0))) c.task = cycleDone (task s c.task) time := by
    refine (task_congr (s := setTask idle c.task (cycleDone (task s c.task) time)) ?_ c.task).trans (tget_tset_same ..)
    rw [close_ble, saved.tasks_eq, startWaiting_taskRuns, committed.tasks_eq]
  refine completes (execTaskCycleCommit_keeps time s) e ?_
  rw [counted]
  refine ⟨rfl, rfl, rfl, fun wait => ?_⟩
  rw [close_ble, saved.run_eq, startWaiting_none (committed.wait_eq.trans wait), committed.run_eq]
  rfl

/-! ### Saves and images written (R380, R394) -/

/-- A save that ends, by the state in which its copy stands. -/
theorem retainSave_ends {u : State} (ended : endSave s = if s.ble.again then startSave u else u) (idle : u.ble.saving = none) :
    ∃ t, exec .retainSaveDone s = .next t ∧ Frame execRetainSaveDone_may s t ∧ t.ble.retA = u.ble.retA ∧ t.ble.retB = u.ble.retB ∧
      (s.ble.again = false → t.ble.saving = none) := by
  refine completes (execRetainSaveDone_keeps s) rfl ?_
  have recorded : (if s.ble.saving.isSome && (endSave s).clk.pfRetain && !cycleBusy (endSave s) && (endSave s).ble.saving.isNone then
      pfRecord (endSave s) else endSave s).ble = (endSave s).ble := by
    split
    · exact (pfRecord_keeps _).ble_eq (by decide)
    · rfl
  have next : Stays taskState u (endSave s) := by
    rw [ended]
    exact .ite (startSave_tasks u) .refl
  rw [close_ble, recorded]
  refine ⟨next.retA_eq, next.retB_eq, fun once => ?_⟩
  rw [ended, once]
  exact idle

theorem retainSave_intoB (c : RetainCopy) (saving : s.ble.saving = some c) (latest : latestIsA s = true) :
    ∃ t, exec .retainSaveDone s = .next t ∧ Frame execRetainSaveDone_may s t ∧ t.ble.retB = some c ∧ t.ble.retA = s.ble.retA ∧
      (s.ble.again = false → t.ble.saving = none) := by
  have ended : endSave s = if s.ble.again then startSave { s with ble := { s.ble with retB := some c, saving := none } }
      else { s with ble := { s.ble with retB := some c, saving := none } } := by
    unfold endSave
    rw [saving, latest]
    rfl
  obtain ⟨t, next, frame, retA, retB, once⟩ := retainSave_ends s ended rfl
  exact ⟨t, next, frame, retB, retA, once⟩

theorem retainSave_intoA (c : RetainCopy) (saving : s.ble.saving = some c) (latest : latestIsA s = false) :
    ∃ t, exec .retainSaveDone s = .next t ∧ Frame execRetainSaveDone_may s t ∧ t.ble.retA = some c ∧ t.ble.retB = s.ble.retB ∧
      (s.ble.again = false → t.ble.saving = none) := by
  refine retainSave_ends s (u := { s with ble := { s.ble with retA := some c, saving := none } }) ?_ rfl
  unfold endSave
  rw [saving, latest]
  rfl

theorem programStore_intoCopy1 (c : StoreCopy) (storing : s.ble.storing = some c) (latest : latestIs0 s = true) :
    ∃ t, exec .programStoreWriteDone s = .next t ∧ Frame [.ble] s t ∧ t.ble = { s.ble with store1 := some c, storing := none } := by
  have e : exec .programStoreWriteDone s = done s { s with ble := { s.ble with store1 := some c, storing := none } } := by
    show execProgramStoreWriteDone s = _
    unfold execProgramStoreWriteDone
    rw [storing]
    exact congrArg (done s) (if_pos latest)
  exact completes (execProgramStoreWriteDone_keeps s) e (close_ble ..)

theorem programStore_intoCopy0 (c : StoreCopy) (storing : s.ble.storing = some c) (latest : latestIs0 s = false) :
    ∃ t, exec .programStoreWriteDone s = .next t ∧ Frame [.ble] s t ∧ t.ble = { s.ble with store0 := some c, storing := none } := by
  have e : exec .programStoreWriteDone s = done s { s with ble := { s.ble with store0 := some c, storing := none } } := by
    show execProgramStoreWriteDone s = _
    unfold execProgramStoreWriteDone
    rw [storing]
    exact congrArg (done s) (if_neg (by rw [latest]; decide))
  exact completes (execProgramStoreWriteDone_keeps s) e (close_ble ..)

end

/-- Settles O14: clause by clause. -/
theorem taskCycleCommandsEffects : Obligations.TaskCycleCommandsEffects := by
  unfold Obligations.TaskCycleCommandsEffects
  intro s
  exact ⟨bleTask_starts, bleTask_overruns, bleTask_stops, taskCycle_resumes s, taskCycle_commits s, retainSave_intoB s,
    retainSave_intoA s, programStore_intoCopy1 s, programStore_intoCopy0 s⟩

end Sys2Proof.Proofs
end

section
/-! SUPPORT. The only row of a ring in which a fetched descriptor stands; a descriptor that waits there and completes among those of
other rings (R515, R523, R556, R559). -/

namespace Sys2Proof.Proofs

set_option Elab.async false

open Machine Laws

/-! ### Writes at one key -/

section
variable {α : Type} (m : Tab α) (k : Nat) (v : α)

theorem terase_of_absent (absent : ∀ e ∈ m, e.1 ≠ k) : terase m k = m := by
  induction m with
  | nil => rfl
  | cons e m ih =>
    obtain ⟨here, rest⟩ := List.forall_mem_cons.mp absent
    rw [terase, if_neg here, ih rest]

theorem terase_tins (absent : ∀ e ∈ m, e.1 ≠ k) : terase (tins m k v) k = m := by
  induction m with
  | nil => exact if_pos rfl
  | cons e m ih =>
    obtain ⟨here, rest⟩ := List.forall_mem_cons.mp absent
    unfold tins
    split
    · rw [terase, if_pos rfl, terase_of_absent _ k absent]
    · rw [terase, if_neg here, ih rest]

theorem terase_tset [DecidableEq α] (d : Nat → α) : terase (tset d m k v) k = terase m k := by
  unfold tset
  split
  · exact terase_of_absent _ k (key_terase m k)
  · exact terase_tins _ k v (key_terase m k)

/-- Of two writes at one key the later stands. -/
theorem tset_tset [DecidableEq α] (d : Nat → α) (w : α) : tset d (tset d m k v) k w = tset d m k w := by
  rw [tset, terase_tset, ← tset]

end

theorem modRing_modRing (t : State) (n : Nat) (g h : Ring → Ring) : modRing (modRing t n g) n h = modRing t n (fun r => h (g r)) := by
  unfold modRing
  rw [ring_setRing_same]
  exact congrArg (fun R : Tab Ring => { t with rings := R }) (tset_tset ..)

/-- A change of a ring pair that later ones do not see. -/
theorem modRing_forgets {t : State} {n : Nat} {g step h : Ring → Ring} (same : h (step (g (ring t n))) = h (step (ring t n))) :
    modRing (modRing (modRing t n g) n step) n h = modRing (modRing t n step) n h := by
  rw [modRing_modRing, modRing_modRing, modRing_modRing]
  exact congrArg (setRing t n) same

/-- After a write at a ring's number that is no reset pair the table has one row of that ring. -/
theorem rowsOf_tset_same (R : Tab Ring) (n : Nat) {r : Ring} (differs : r ≠ Ring.reset) :
    rowsOf n (tset (fun _ => Ring.reset) R n r) = [(n, r)] := by
  have inserted (m : Tab Ring) (absent : ∀ e ∈ m, e.1 ≠ n) : rowsOf n (tins m n r) = [(n, r)] := by
    have empty : rowsOf n m = [] := List.filter_eq_nil_iff.mpr fun e he => by simp [absent e he]
    unfold rowsOf at *
    induction m with
    | nil => simp [tins]
    | cons e m ih =>
      obtain ⟨here, rest⟩ := List.forall_mem_cons.mp absent
      unfold tins
      split
      · rw [List.filter_cons_of_pos (by simp), empty]
      · rw [List.filter_cons_of_neg (by simpa using here)] at empty ⊢
        exact ih rest empty
  rw [tset, if_neg differs]
  exact inserted _ (key_terase R n)

/-! ### A descriptor alone in its ring -/

section
variable {s : State} {n : Fin 64} {op : Nat} {d : Desc}

/-- A command of a ring comes to the effect of its operation, its descriptor alone in the rows of its ring. -/
theorem command_alone {c : Instr} {effect : State → Nat → Flight → State} (h : Ready s n.val op d) (hop : op < 256)
    (resume : op ≠ 2) (command : exec c s = done s (submit s n op d))
    (effects : ∀ t f, opOf f = op → opRun t n f = effect t n f) : ∃ R,
    AtTurn s n (flightOf s n op d) { s with rings := R } ∧ NoneWaits (rowsOf n R) ∧
    exec c s = done s (effect { s with rings := R } n (flightOf s n op d)) := by
  obtain ⟨R, fetched, turn⟩ := fetch_ready h hop resume
  have code : opOf (flightOf s n op d) = op := (descOf_head hop d).1
  refine ⟨R, turn, fun e mem f hf => ?_, by rw [command, submit_fetched h hop resume, fetched, effects _ _ code]⟩
  obtain ⟨mem, key⟩ := mem_rowsOf.mp mem
  have only := row_fetch (s := s) (n := n) (ws := descOf op d) (pay := withCrc d.payload) (readOk := true) (e := e)
  rw [fetched] at only
  rw [only mem key, turn.flight] at hf
  rw [List.mem_singleton.mp hf]
  rfl

end

section
variable {s t u : State} {n op : Nat} {d : Desc} {status : Nat} {r0 r1 detail : Word}

/-- What other rings do after a completion leaves it written. -/
theorem Completed.later (h : Completed s n op d status r0 r1 detail t) (same : ring u n = ring t n) (sent : OutGrows t u) :
    Completed s n op d status r0 r1 detail u := by
  obtain ⟨written, window⟩ := h
  unfold Completed
  rw [same]
  exact ⟨sent.grows.subset written, window⟩

/-! ### A descriptor that waits (R559) -/

/-- The descriptor while it waits. -/
def waitingOf (s : State) (n op : Nat) (d : Desc) : Flight := { flightOf s n op d with waiting := true }

theorem AtTurn.waits (a : AtTurn s n (flightOf s n op d) t) :
    AtTurn s n (waitingOf s n op d) (setWaiting t n (flightOf s n op d)) := by
  have e : ring (setWaiting t n (flightOf s n op d)) n = _ := ring_modRing_same ..
  obtain ⟨flight, ctrl, cqTail, phase, done, committed, halted, closing⟩ := a
  constructor <;> rw [e]
  case flight =>
    rw [flight]
    exact congrArg (fun f => [f]) (if_pos rfl)
  all_goals assumption

/-- Its window as if it had not waited. -/
def unwaited (s : State) (n op : Nat) (d : Desc) (t : State) : State :=
  modRing t n (fun r => { r with flight := [flightOf s n op d] })

theorem AtTurn.unwaited (a : AtTurn s n (waitingOf s n op d) t) : AtTurn s n (flightOf s n op d) (unwaited s n op d t) := by
  have e : ring (Proofs.unwaited s n op d t) n = _ := ring_modRing_same ..
  obtain ⟨-, ctrl, cqTail, phase, done, committed, halted, closing⟩ := a
  constructor <;> rw [e]
  all_goals assumption

/-- A completion takes its descriptor from the window, whether it has waited or not. -/
theorem writeCompletion_unwaited (flight : (ring t n).flight = [waitingOf s n op d]) (status : Nat) (r0 r1 detail : Word) (ts : Nat) :
    writeCompletion (unwaited s n op d t) n (flightOf s n op d) status r0 r1 detail ts =
      writeCompletion t n (waitingOf s n op d) status r0 r1 detail ts := by
  have taken : [flightOf s n op d].filter (fun g => g.ord != (flightOf s n op d).ord) =
      (ring t n).flight.filter (fun g => g.ord != (flightOf s n op d).ord) := by
    rw [flight]
    simp [waitingOf]
  have e : ring (unwaited s n op d t) n = { ring t n with flight := [flightOf s n op d] } := ring_modRing_same ..
  unfold writeCompletion stepCq
  rw [e]
  refine congrArg (fun z => if bitOf (wAt (descOf op d) 0) 10 then z else countIntr z n) ?_
  have moved (o : Out) : emit (unwaited s n op d t) o =
      modRing (emit t o) n (fun r => { r with flight := [flightOf s n op d] }) := rfl
  have size (y : State) : ringSize (modRing y n (fun r => { r with flight := [flightOf s n op d] })) n = ringSize y n := by
    unfold ringSize
    rw [ring_modRing_same]
  rw [moved, size]
  refine modRing_forgets ?_
  dsimp only
  split
  · rw [taken]
    rfl
  · rw [taken]
    rfl

/-- The completion of a descriptor that has waited alone in its ring (R523, R559). -/
theorem completed_waiting (a : AtTurn s n (waitingOf s n op d) t) (ts : nowTs t = nowTs s) (hop : op < 256) (resume : op ≠ 2)
    (status : Nat) (r0 r1 detail : Word) :
    Completed s n op d status r0 r1 detail (complete t n (waitingOf s n op d) status r0 r1 detail) := by
  have same : complete (unwaited s n op d t) n (flightOf s n op d) status r0 r1 detail =
      complete t n (waitingOf s n op d) status r0 r1 detail := by
    unfold complete
    rw [← writeCompletion_unwaited a.flight]
    rfl
  rw [← same]
  exact completed_atTurn a.unwaited ts hop resume ..

/-! ### Its completion among those of other rings (R559) -/

/-- A waiting descriptor stands in a row of its ring. -/
theorem row_of_mem_waitingRings {p : Flight → Bool} {e : Nat × Flight} (h : e ∈ waitingRings s p) : ∃ a ∈ s.rings, a.1 = e.1 := by
  obtain ⟨a, mem, first⟩ := List.mem_filterMap.mp h
  refine ⟨a, mem, ?_⟩
  split at first
  · split at first
    · cases first
      rfl
    · cases first
  · cases first

/-- The waiting descriptors of a kind where a ring has one row, in which one of them stands alone. -/
theorem waitingRings_split {R before after : Tab Ring} {r : Ring} {f : Flight} {p : Flight → Bool}
    (rows : R = before ++ (n, r) :: after) (flight : r.flight = [f]) (waits : f.waiting = true) (kind : p f = true) :
    waitingRings { t with rings := R } p =
      waitingRings { t with rings := before } p ++ (n, f) :: waitingRings { t with rings := after } p := by
  unfold waitingRings
  rw [rows, List.filterMap_append, List.filterMap_cons, flight]
  dsimp only
  rw [waits, kind]
  rfl

section
variable (a : AtTurn s n (waitingOf s n op d) t) (ts : nowTs t = nowTs s) (hop : op < 256) (resume : op ≠ 2)
include a ts hop resume

/-- Descriptors of other rings that complete before a waiting one and after it. -/
theorem completed_among {l m : List (Nat × Flight)} (before : ∀ e ∈ l, e.1 ≠ n) (after : ∀ e ∈ m, e.1 ≠ n) :
    Completed s n op d status r0 r1 detail
      (forAll (l ++ (n, waitingOf s n op d) :: m) (fun u e => complete u e.1 e.2 status r0 r1 detail) t) := by
  let finish : State → Nat × Flight → State := fun u e => complete u e.1 e.2 status r0 r1 detail
  have step (u : State) (e : Nat × Flight) (other : e.1 ≠ n) : Stays (ownRows n) u (finish u e) := ownRows_complete other ..
  have x : Stays (ownRows n) t (forAll l finish t) := ownRows_forAll before step
  have kept : Keeps [.rings, .msixPend, .out] t (forAll l finish t) :=
    .forAll (.refl _ _) fun _ _ h => h.trans (complete_keeps ..)
  have clock : nowTs (forAll l finish t) = nowTs s := by
    rw [← ts, nowTs, nowTs, absA, absA, kept.phc_eq (by decide)]
  have here := completed_waiting (a.of_ring (ring_ownRows x.eq)) clock hop resume status r0 r1 detail
  have y := ownRows_forAll (s := finish (forAll l finish t) (n, waitingOf s n op d)) after step
  unfold forAll
  rw [List.foldl_append, List.foldl_cons]
  exact Completed.later here (ring_ownRows y.eq) (.forAll fun _ _ => complete_outGrows ..)

/-- Where every waiting descriptor of a kind completes, one that waits alone in the only row of its ring does so once. -/
theorem completeAll_completes (row : rowsOf n t.rings = [(n, ring t n)]) {p : Flight → Bool}
    (kind : p (waitingOf s n op d) = true) : Completed s n op d status r0 r1 detail (completeAll t p status r0 r1 detail) := by
  obtain ⟨before, after, rows, others, -, past⟩ := List.filter_eq_cons_iff.mp row
  have alone (l : Tab Ring) (absent : ∀ e ∈ l, e.1 ≠ n) (e : Nat × Flight) (mem : e ∈ waitingRings { t with rings := l } p) :
      e.1 ≠ n := by
    obtain ⟨x, hx, key⟩ := row_of_mem_waitingRings mem
    exact key ▸ absent x hx
  have listed : waitingRings t p = _ := waitingRings_split rows a.flight rfl kind
  unfold completeAll
  rw [listed]
  exact completed_among a ts hop resume (alone before fun e he same => others e he (beq_iff_eq.mpr same))
    (alone after fun e he same => List.filter_eq_nil_iff.mp past e he (beq_iff_eq.mpr same))

end

end

end Sys2Proof.Proofs
end

section
/-! Ring operations on program images: loads, activations, cancelled activations (R376, R379, R421 to R424, R535, R536). -/

namespace Sys2Proof.Proofs

set_option Elab.async false

open Machine Laws

/-! ### The operations at their commit turn -/

section
variable {s : State} {n : Fin 64} {op : Nat} {d : Desc} {c : Instr} {R : Tab Ring}

theorem imgLoad_turn (h : Ready s n.val 0x31 d) : ∃ R, AtTurn s n (flightOf s n 0x31 d) { s with rings := R } ∧
    exec (.imgLoad n d) s = done s (opImgLoad { s with rings := R } n (flightOf s n 0x31 d)) :=
  command_turn h (by decide) (by decide) rfl fun t f code => by rw [opRun, runCore.eq_def, code]; rfl

theorem imgActivate_turn (h : Ready s n.val 0x32 d) : ∃ R, AtTurn s n (flightOf s n 0x32 d) { s with rings := R } ∧
    NoneWaits (rowsOf n R) ∧
    exec (.imgActivate n d) s = done s (opImgActivate { s with rings := R } n (flightOf s n 0x32 d)) :=
  command_alone h (by decide) (by decide) rfl fun t f code => by rw [opRun, runCore.eq_def, code]; rfl

theorem imgCancel_turn (h : Ready s n.val 0x33 d) : ∃ R, AtTurn s n (flightOf s n 0x33 d) { s with rings := R } ∧
    NoneWaits (rowsOf n R) ∧
    exec (.imgCancel n d) s = done s (opImgCancel { s with rings := R } n (flightOf s n 0x33 d)) :=
  command_alone h (by decide) (by decide) rfl fun t f code => by rw [opRun, runCore.eq_def, code]; rfl

/-- What an IMG_LOAD carries is its payload. -/
theorem imgLoad_input (h : Ready s n.val 0x31 d) : (flightOf s n 0x31 d).input = d.payload := by
  obtain ⟨-, -, -, -, -, form, -⟩ := h
  have code : fld (wAt (descOf 0x31 d) 0) 7 0 = 0x31 := (descOf_head (by decide) d).1
  have known : opForm (descOf 0x31 d) = some { target := d.target.toNat == 0, used := 2, pin := true, lo := 12, step := 8 } := by
    unfold opForm
    rw [code]
    rfl
  have flag := flag_of_badPayload (badPayload_of_opStatic form known) rfl
  rw [(descOf_head (by decide) d).2] at flag
  exact if_pos flag

/-- An operation that changes the controller alone, then completes. -/
theorem completes_controller {b : Ble} {status : Nat} {r0 r1 detail : Word}
    (turn : AtTurn s n (flightOf s n op d) { s with rings := R }) (hop : op < 256) (resume : op ≠ 2)
    (e : exec c s = done s (complete { s with rings := R, ble := b } n (flightOf s n op d) status r0 r1 detail)) :
    ∃ t, exec c s = .next t ∧ Frame [.rings, .msixPend, .ble, .out] s t ∧ Completed s n op d status r0 r1 detail t ∧ t.ble = b := by
  have moved : Keeps [.ble] { s with rings := R } { s with rings := R, ble := b } := .ble (.refl _ _) (by decide)
  have done := complete_keeps { s with rings := R, ble := b } n (flightOf s n op d) status r0 r1 detail
  refine completes ⟨_, e, ((rings_keeps.mono (by decide)).step moved (by decide)).step done (by decide)⟩ e ⟨?_, ?_⟩
  · exact Completed.close (completed_atTurn (turn.keep moved) rfl hop resume ..) s
  · rw [close_ble]
    exact done.ble_eq (by decide)

end

/-! ### Loads (R376, R421, R535) -/

theorem wordsBytes_length (l : List Word) : (wordsBytes l).length = 4 * l.length := by
  induction l with
  | nil => rfl
  | cons w l ih =>
    show (wordBytes w ++ wordsBytes l).length = 4 * (l.length + 1)
    rw [List.length_append, ih, Nat.mul_add, Nat.add_comm]
    rfl

/-- A load with the bytes that have come so far. -/
def loadSoFar (t : State) (m : Nat) (f : Flight) (b : List Nat) : State :=
  if (parOf f 1).toNat ≤ b.length then loadEnd { t with ble := { t.ble with load := none } } m f b
  else ok { t with ble := { t.ble with load := some ((parOf f 1).toNat, b) } } m f 0 0

section
variable {t : State} {m : Nat} {f : Flight}

theorem opImgLoad_busy (busy : t.ble.act ≠ none) : opImgLoad t m f = fail t m f 0xE 0 :=
  if_pos (Option.isSome_iff_ne_none.mpr busy)

section
variable (free : t.ble.act = none)
include free

theorem opImgLoad_first (first : parOf f 0 = 0) :
    opImgLoad t m f = loadSoFar { t with ble := { t.ble with inactive := none } } m f (wordsBytes f.input) := by
  unfold opImgLoad
  rw [free, first]
  rfl

variable (later : parOf f 0 ≠ 0)
include later

theorem opImgLoad_next {x : Nat × List Nat} (load : t.ble.load = some x) (length : x.1 = (parOf f 1).toNat)
    (offset : x.2.length = (parOf f 0).toNat) : opImgLoad t m f = loadSoFar t m f (x.2 ++ wordsBytes f.input) := by
  have past : (parOf f 0).toNat ≠ 0 := fun zero => later (BitVec.eq_of_toNat_eq zero)
  obtain ⟨l, b⟩ := x
  unfold opImgLoad
  dsimp only at length offset ⊢
  rw [free, load, if_neg (by decide), if_neg past, if_neg past]
  dsimp only
  rw [if_pos ⟨length, offset⟩]
  rfl

theorem opImgLoad_outOfOrder (load : t.ble.load = none) : opImgLoad t m f = fail t m f 4 0 := by
  have past : (parOf f 0).toNat ≠ 0 := fun zero => later (BitVec.eq_of_toNat_eq zero)
  unfold opImgLoad
  dsimp only
  rw [free, load, if_neg (by decide), if_neg past]

end

theorem loadSoFar_goesOn {b : List Nat} (short : b.length < (parOf f 1).toNat) :
    loadSoFar t m f b = ok { t with ble := { t.ble with load := some ((parOf f 1).toNat, b) } } m f 0 0 :=
  if_neg (Nat.not_le.mpr short)

section
variable {b : List Nat} (whole : (parOf f 1).toNat ≤ b.length)
include whole

theorem loadSoFar_refused {e : Nat × Nat} (bad : imageCheck t b = some e) : loadSoFar t m f b =
    fail { t with ble := { t.ble with load := none } } m f 0xD (w32 (e.1 + (e.2 % 65536) * 65536)) := by
  have same : imageCheck { t with ble := { t.ble with load := none } } b = imageCheck t b := rfl
  unfold loadSoFar loadEnd
  rw [if_pos whole, same, bad]

theorem loadSoFar_taken (good : imageCheck t b = none) (alone : t.twn.role ≠ 1 ∨ t.twn.pair < 3) : loadSoFar t m f b =
    ok { t with ble := { t.ble with load := none, inactive := some (parseImage b) } } m f (parseImage b).programId
      (parseImage b).build := by
  have same : imageCheck { t with ble := { t.ble with load := none } } b = imageCheck t b := rfl
  have paired : ¬ (t.twn.role = 1 ∧ (t.twn.pair = 3 ∨ t.twn.pair = 4)) := by omega
  unfold loadSoFar loadEnd
  rw [if_pos whole, same, good]
  exact if_neg paired

end

end

section
variable {s : State} {n : Fin 64} {d : Desc}

theorem imgLoad_busy (h : Ready s n.val 0x31 d) (busy : s.ble.act ≠ none) : ∃ t, exec (.imgLoad n d) s = .next t ∧
    Frame [.rings, .msixPend, .out] s t ∧ Completed s n.val 0x31 d 0xE 0 0 0 t := by
  obtain ⟨R, turn, e⟩ := imgLoad_turn h
  exact completes_only turn (by decide) (by decide)
    (e.trans (congrArg (done s) (opImgLoad_busy (t := { s with rings := R }) busy)))

section
variable (h : Ready s n.val 0x31 d) (free : s.ble.act = none)
include h free

/-- The first fragment of a load. -/
theorem imgLoad_first (first : wAt d.par 0 = 0) : ∃ R, AtTurn s n (flightOf s n 0x31 d) { s with rings := R } ∧
    exec (.imgLoad n d) s = done s (loadSoFar { s with rings := R, ble := { s.ble with inactive := none } } n
      (flightOf s n 0x31 d) (wordsBytes d.payload)) := by
  obtain ⟨R, turn, e⟩ := imgLoad_turn h
  have started := opImgLoad_first (t := { s with rings := R }) (m := n) (f := flightOf s n 0x31 d) free
    ((parOf_flightOf (by decide)).trans first)
  rw [imgLoad_input h] at started
  exact ⟨R, turn, e.trans (congrArg (done s) started)⟩

theorem imgLoad_starts (first : wAt d.par 0 = 0) (short : 4 * d.payload.length < (wAt d.par 1).toNat) :
    ∃ t, exec (.imgLoad n d) s = .next t ∧ Frame [.rings, .msixPend, .ble, .out] s t ∧ Completed s n.val 0x31 d 0 0 0 0 t ∧
      t.ble = { s.ble with inactive := none, load := some ((wAt d.par 1).toNat, wordsBytes d.payload) } := by
  obtain ⟨R, turn, e⟩ := imgLoad_first h free first
  have par : parOf (flightOf s n 0x31 d) 1 = wAt d.par 1 := parOf_flightOf (by decide)
  rw [loadSoFar_goesOn (by rw [par, wordsBytes_length]; exact short), par] at e
  exact completes_controller turn (by decide) (by decide) e

theorem imgLoad_goesOn (x : Nat × List Nat) (load : s.ble.load = some x) (length : x.1 = (wAt d.par 1).toNat)
    (offset : x.2.length = (wAt d.par 0).toNat) (later : wAt d.par 0 ≠ 0) (short : x.2.length + 4 * d.payload.length < x.1) :
    ∃ t, exec (.imgLoad n d) s = .next t ∧ Frame [.rings, .msixPend, .ble, .out] s t ∧ Completed s n.val 0x31 d 0 0 0 0 t ∧
      t.ble = { s.ble with load := some (x.1, x.2 ++ wordsBytes d.payload) } := by
  obtain ⟨R, turn, e⟩ := imgLoad_turn h
  have par0 : parOf (flightOf s n 0x31 d) 0 = wAt d.par 0 := parOf_flightOf (by decide)
  have par1 : parOf (flightOf s n 0x31 d) 1 = wAt d.par 1 := parOf_flightOf (by decide)
  have input := imgLoad_input h
  rw [opImgLoad_next (t := { s with rings := R }) free (by rwa [par0]) load (by rwa [par1]) (by rwa [par0]), input,
    loadSoFar_goesOn, par1, ← length] at e
  · exact completes_controller turn (by decide) (by decide) e
  · rwa [List.length_append, wordsBytes_length, par1, ← length]

theorem imgLoad_outOfOrder (later : wAt d.par 0 ≠ 0) (load : s.ble.load = none) :
    ∃ t, exec (.imgLoad n d) s = .next t ∧ Frame [.rings, .msixPend, .out] s t ∧ Completed s n.val 0x31 d 4 0 0 0 t := by
  obtain ⟨R, turn, e⟩ := imgLoad_turn h
  have par : parOf (flightOf s n 0x31 d) 0 = wAt d.par 0 := parOf_flightOf (by decide)
  exact completes_only turn (by decide) (by decide)
    (e.trans (congrArg (done s) (opImgLoad_outOfOrder (t := { s with rings := R }) free (by rwa [par]) load)))

section
variable (first : wAt d.par 0 = 0) (whole : (wAt d.par 1).toNat ≤ 4 * d.payload.length)
include first whole

theorem imgLoad_refused (x : Nat × Nat) (bad : imageCheck s (wordsBytes d.payload) = some x) :
    ∃ t, exec (.imgLoad n d) s = .next t ∧ Frame [.rings, .msixPend, .ble, .out] s t ∧
      Completed s n.val 0x31 d 0xD 0 0 (w32 (x.1 + (x.2 % 65536) * 65536)) t ∧
      t.ble = { s.ble with inactive := none, load := none } := by
  obtain ⟨R, turn, e⟩ := imgLoad_first h free first
  have par : parOf (flightOf s n 0x31 d) 1 = wAt d.par 1 := parOf_flightOf (by decide)
  rw [loadSoFar_refused (by rw [par, wordsBytes_length]; exact whole)
    (t := { s with rings := R, ble := { s.ble with inactive := none } }) bad] at e
  exact completes_controller turn (by decide) (by decide) e

theorem imgLoad_taken (good : imageCheck s (wordsBytes d.payload) = none) (alone : s.twn.role ≠ 1 ∨ s.twn.pair < 3) :
    ∃ t, exec (.imgLoad n d) s = .next t ∧ Frame [.rings, .msixPend, .ble, .out] s t ∧
      Completed s n.val 0x31 d 0 (parseImage (wordsBytes d.payload)).programId (parseImage (wordsBytes d.payload)).build 0 t ∧
      t.ble = { s.ble with inactive := some (parseImage (wordsBytes d.payload)), load := none } := by
  obtain ⟨R, turn, e⟩ := imgLoad_first h free first
  have par : parOf (flightOf s n 0x31 d) 1 = wAt d.par 1 := parOf_flightOf (by decide)
  rw [loadSoFar_taken (by rw [par, wordsBytes_length]; exact whole)
    (t := { s with rings := R, ble := { s.ble with inactive := none } }) good alone] at e
  exact completes_controller turn (by decide) (by decide) e

end

end

end

/-! ### Activations (R379, R423, R424, R536) -/

section
variable {t : State} {m : Nat} {f : Flight}

theorem opImgActivate_refused {x : Nat × Word} (bad : actCheck t (bitOf (parOf f 0) 0) = some x) :
    opImgActivate t m f = fail t m f 0xD (w32 x.1 ||| x.2) := by
  unfold opImgActivate
  dsimp only
  rw [bad]

section
variable (good : actCheck t (bitOf (parOf f 0) 0) = none)
include good

theorem opImgActivate_waits (runs : t.ble.running = true) : opImgActivate t m f =
    { setWaiting t m f with
      ble := { t.ble with act := some { ring := m, schedWith := bitOf (parOf f 0) 0, built := false, builtAt := 0 } } } := by
  unfold opImgActivate
  dsimp only
  rw [good]
  exact if_pos runs

theorem opImgActivate_atOnce (stands : t.ble.running = false) {im : Image} (inactive : t.ble.inactive = some im) :
    opImgActivate t m f =
      let r := activateStopped t im (bitOf (parOf f 0) 0)
      complete r.1 m f 0 r.2.1 r.2.2.1 r.2.2.2 := by
  unfold opImgActivate
  dsimp only
  rw [good, stands, inactive]
  rfl

end

end

section
variable (s : State)

/-- A schedule that becomes live leaves the rows of a ring in which nothing waits, and the controller's tasks. -/
theorem phcLive_stays (n : Nat) : Stays taskState s (phcLive s) ∧
    (NoneWaits (ownRows n s) → Stays (ownRows n) s (phcLive s)) := by
  have starved (t : State) : Stays taskState t (starvedCheck t) :=
    Stays.forAll .refl fun _ _ h =>
      .ite h (((h.keepTasks (setLoop_keeps ..)).trans (pset_tasks ..)).keepTasks (loopEvent_keeps ..))
  unfold phcLive
  extract_lets +onlyGivenNames x
  have tasks : Stays taskState s x := ((Stays.refl.keepTasks (phcApply_keeps s)).trans (starved _)).keepTasks (noteMirror_keeps ..)
  have rows : Stays (ownRows n) s x :=
    ((ownRows_keeps (phcApply_keeps s)).trans (ownRows_keeps (starvedCheck_keeps _))).trans (ownRows_keeps (noteMirror_keeps ..))
  exact ⟨tasks.keepTasks (completeAll_keeps ..), fun idle => rows.trans (ownRows_completeAll (rows.eq ▸ idle) ..)⟩

theorem carryVars_tasks (old new : Image) : Stays taskState s (carryVars s old new) :=
  Stays.forAll (Stays.forAll .refl fun _ _ h => .ite h (h.trans (pset_tasks ..))) fun _ _ h => h.trans (pset_tasks ..)

theorem initVars_tasks (im : Image) : Stays taskState s (initVars s im) := Stays.forAll .refl fun _ _ h => h.trans (pset_tasks ..)

/-- An activation while the controller stands (R379): the new image is active, the old one in the inactive bank. -/
theorem activateStopped_spec (n : Nat) (idle : NoneWaits (ownRows n s)) (new : Image) (sched : Bool) :
    Stays (ownRows n) s (activateStopped s new sched).1 ∧ (activateStopped s new sched).1.img = some new ∧
      (activateStopped s new sched).1.ble.inactive = s.img ∧ (activateStopped s new sched).1.ble.running = s.ble.running := by
  unfold activateStopped
  extract_lets +onlyGivenNames -merge -useContext _ x1 r _ x2 x3 x4
  have carried : Keeps [.evq, .pts, .forces, .can, .ble, .twn] s x1 ∧ Stays taskState s x1 := by
    subst x1
    split
    · exact ⟨(Keeps.mono (switchForces_keeps ..) (by decide)).step (carryVars_keeps ..) (by decide),
        (Stays.refl.keepTasks (switchForces_keeps ..)).trans (carryVars_tasks ..)⟩
    · exact ⟨Keeps.mono (initVars_keeps ..) (by decide), initVars_tasks ..⟩
  obtain ⟨moved, tasks1⟩ := carried
  have rows3 : Stays (ownRows n) s x3 := (Stays.upd (ownRows_keeps moved)).trans (ownRows_keeps (turnImage_keeps x2 new))
  obtain ⟨tasks, rows⟩ := phcLive_stays x3 n
  have tasks4 : Stays taskState x3 x4 := .ite tasks .refl
  have rows4 : Stays (ownRows n) x3 x4 := .ite (rows (rows3.eq ▸ idle)) .refl
  have told : Keeps [.twn, .evq] x4 (activated (noteMirror x4 5) new r.1 r.2.1) :=
    (Keeps.mono (noteMirror_keeps ..) (by decide)).step (activated_keeps ..) (by decide)
  have img4 : x4.img = x3.img := (Keeps.ite (phcLive_keeps x3) (.refl _ _)).img_eq (by decide)
  refine ⟨(rows3.trans rows4).trans (ownRows_keeps told), ?_, ?_, ?_⟩
  · exact (told.img_eq (by decide)).trans img4
  · exact (congrArg Ble.inactive (told.ble_eq (by decide))).trans
      ((congrArg Ble.inactive tasks4.eq :).trans (moved.img_eq (by decide)))
  · exact (congrArg Ble.running (told.ble_eq (by decide))).trans
      ((congrArg Ble.running tasks4.eq :).trans (congrArg Ble.running tasks1.eq :))

end

section
variable {s : State} {n : Fin 64} {d : Desc}

theorem imgActivate_refused (h : Ready s n.val 0x32 d) (x : Nat × Word) (bad : actCheck s (bitOf (wAt d.par 0) 0) = some x) :
    ∃ t, exec (.imgActivate n d) s = .next t ∧ Frame [.rings, .msixPend, .out] s t ∧
      Completed s n.val 0x32 d 0xD 0 0 (w32 x.1 ||| x.2) t := by
  obtain ⟨R, turn, -, e⟩ := imgActivate_turn h
  have par : parOf (flightOf s n 0x32 d) 0 = wAt d.par 0 := parOf_flightOf (by decide)
  rw [← par] at bad
  exact completes_only turn (by decide) (by decide)
    (e.trans (congrArg (done s) (opImgActivate_refused (t := { s with rings := R }) bad)))

section
variable (h : Ready s n.val 0x32 d) (good : actCheck s (bitOf (wAt d.par 0) 0) = none)
include h good

theorem imgActivate_waits (runs : s.ble.running = true) :
    ∃ t, exec (.imgActivate n d) s = .next t ∧ Frame [.rings, .ble] s t ∧ Waits s n.val t ∧ t.img = s.img ∧
      t.ble = { s.ble with act := some (Activation.mk n.val (bitOf (wAt d.par 0) 0) false 0) } := by
  obtain ⟨R, turn, -, e⟩ := imgActivate_turn h
  have par : parOf (flightOf s n 0x32 d) 0 = wAt d.par 0 := parOf_flightOf (by decide)
  rw [← par] at good ⊢
  rw [opImgActivate_waits (t := { s with rings := R }) good runs] at e
  have waits := waits_atTurn turn
  have waiting := setWaiting_keeps { s with rings := R } n (flightOf s n 0x32 d)
  generalize setWaiting { s with rings := R } n (flightOf s n 0x32 d) = u at e waits waiting
  have kept : Keeps [.rings, .ble] s u := (rings_keeps.mono (by decide)).step waiting (by decide)
  refine completes ⟨_, e, kept.ble (by decide)⟩ e ⟨?_, ?_, ?_⟩
  · refine Waits.close ?_ s
    exact waits
  · rw [close_img]
    exact kept.img_eq (by decide)
  · rw [close_ble]

/-- What an activation may change while the controller stands (R379). -/
abbrev imgActivate_may : List Piece := [.regs, .live, .pts, .phc, .rings, .evq, .msixPend, .forces, .img, .can, .lce, .ble, .twn,
  .out]

theorem imgActivate_atOnce (stands : s.ble.running = false) (im : Image) (inactive : s.ble.inactive = some im) :
    ∃ t, exec (.imgActivate n d) s = .next t ∧ Frame imgActivate_may s t ∧ (ring t n).flight = [] ∧
      (ring t n).committed = d.seq ∧ (ring t n).halted = false ∧ t.img = some im ∧ t.ble.inactive = s.img ∧
      t.ble.running = false := by
  obtain ⟨R, turn, idle, e⟩ := imgActivate_turn h
  have par : parOf (flightOf s n 0x32 d) 0 = wAt d.par 0 := parOf_flightOf (by decide)
  rw [← par] at good
  rw [opImgActivate_atOnce (t := { s with rings := R }) good stands inactive] at e
  generalize bitOf (parOf (flightOf s n 0x32 d) 0) 0 = sched at e
  obtain ⟨rows, img, bank, run⟩ := activateStopped_spec { s with rings := R } n idle im sched
  have changed := activateStopped_keeps { s with rings := R } im sched
  generalize activateStopped { s with rings := R } im sched = r at e rows img bank run changed
  obtain ⟨flight, ctrl, cqTail, phase, cqDone, committed, halted, closing⟩ := turn.of_ring (ring_ownRows rows.eq)
  have done := complete_keeps r.1 n (flightOf s n 0x32 d) 0 r.2.1 r.2.2.1 r.2.2.2
  have own : AtTurn { s with phc := r.1.phc } n (flightOf s n 0x32 d) r.1 :=
    ⟨flight, ctrl, cqTail, phase, cqDone, committed, halted, closing⟩
  obtain ⟨-, flight, -, halted, committed⟩ := Completed.close
    (completed_atTurn own rfl (by decide) (by decide) 0 r.2.1 r.2.2.1 r.2.2.2) s
  refine completes ⟨_, e, ((rings_keeps.mono (by decide)).step changed (by decide)).step done (by decide)⟩ e
    ⟨flight, committed, halted, ?_⟩
  rw [close_img, close_ble, done.img_eq (by decide), done.ble_eq (by decide)]
  exact ⟨img, bank, run.trans stands⟩

end

/-! ### Activations that are cancelled (R423, R536) -/

/-- The end of an activation moves the descriptors that wait for it, and the controller no further. -/
theorem endAct_stays {t : State} {a : Activation} (pending : t.ble.act = some a) {m : Nat} (idle : NoneWaits (ownRows m t))
    (status : Nat) (r0 r1 detail : Word) : Stays (ownRows m) t (endAct t status r0 r1 detail) ∧
    (endAct t status r0 r1 detail).ble = { t.ble with act := none } := by
  have moved : endAct t status r0 r1 detail = forAll (waitingRings { t with ble := { t.ble with act := none } } (fun f => opOf f == 0x32))
      (fun u e => if e.1 = a.ring then complete u e.1 e.2 status r0 r1 detail else u)
      { t with ble := { t.ble with act := none } } := by
    unfold endAct
    rw [pending]
  rw [moved]
  constructor
  · exact .of (ownRows_forAll (s := { t with ble := { t.ble with act := none } })
      (fun _ he => ne_of_mem_waitingRings (s := { t with ble := { t.ble with act := none } }) idle he)
      fun _ _ other => .ite (ownRows_complete other ..) .refl).eq
  · exact Keeps.ble_eq (s := { t with ble := { t.ble with act := none } }) (may := [.rings, .msixPend, .out])
      (.forAll (.refl _ _) fun _ _ h => .ite (h.trans (complete_keeps ..)) h) (by decide)

theorem imgCancel_ends (h : Ready s n.val 0x33 d) (busy : s.ble.act ≠ none) : ∃ t, exec (.imgCancel n d) s = .next t ∧
    Frame [.rings, .msixPend, .ble, .out] s t ∧ Completed s n.val 0x33 d 0 0 0 0 t ∧ t.ble = { s.ble with act := none } := by
  obtain ⟨R, turn, idle, e⟩ := imgCancel_turn h
  obtain ⟨a, pending⟩ := Option.ne_none_iff_exists'.mp busy
  have ends : opImgCancel { s with rings := R } n (flightOf s n 0x33 d) =
      ok (endAct { s with rings := R } 0x14 0 0 0) n (flightOf s n 0x33 d) 0 0 := if_pos (Option.isSome_iff_ne_none.mpr busy)
  rw [ends] at e
  obtain ⟨rows, ble⟩ := endAct_stays (t := { s with rings := R }) pending idle 0x14 0 0 0
  have changed := endAct_keeps { s with rings := R } 0x14 0 0 0
  generalize endAct { s with rings := R } 0x14 0 0 0 = u at e rows ble changed
  have clock : nowTs u = nowTs s := by
    unfold nowTs absA
    rw [changed.phc_eq (by decide)]
  have done := complete_keeps u n (flightOf s n 0x33 d) 0 0 0 0
  refine completes ⟨_, e, ((rings_keeps.mono (by decide)).step changed (by decide)).step done (by decide)⟩ e ⟨?_, ?_⟩
  · exact Completed.close (completed_atTurn (turn.of_ring (ring_ownRows rows.eq)) clock (by decide) (by decide) ..) s
  · rw [close_ble]
    exact (done.ble_eq (by decide)).trans ble

theorem imgCancel_absent (h : Ready s n.val 0x33 d) (free : s.ble.act = none) : ∃ t, exec (.imgCancel n d) s = .next t ∧
    Frame [.rings, .msixPend, .out] s t ∧ Completed s n.val 0x33 d 0xF 0 0 0 t := by
  obtain ⟨R, turn, -, e⟩ := imgCancel_turn h
  refine completes_only turn (by decide) (by decide) (e.trans (congrArg (done s) (if_neg ?_)))
  show ¬ s.ble.act.isSome = true
  rw [free]
  decide

end

end Sys2Proof.Proofs
end

section
/-! Ring operations on program instances: their words are read and written between cycles (R386, R511, R537). -/

namespace Sys2Proof.Proofs

set_option Elab.async false

open Machine Laws

/-! ### The operations at their commit turn -/

section
variable {s : State} {n : Fin 64} {d : Desc}

theorem instRead_turn (h : Ready s n.val 0x34 d) : ∃ R, AtTurn s n (flightOf s n 0x34 d) { s with rings := R } ∧
    exec (.instRead n d) s = done s (opInstRead { s with rings := R } n (flightOf s n 0x34 d)) :=
  command_turn h (by decide) (by decide) rfl fun t f code => by rw [opRun, runCore.eq_def, code]; rfl

theorem instWrite_turn (h : Ready s n.val 0x35 d) : ∃ R, AtTurn s n (flightOf s n 0x35 d) { s with rings := R } ∧
    exec (.instWrite n d) s = done s (opInstWrite { s with rings := R } n (flightOf s n 0x35 d)) :=
  command_turn h (by decide) (by decide) rfl fun t f code => by rw [opRun, runCore.eq_def, code]; rfl

theorem instRead_form (d : Desc) : opForm (descOf 0x34 d) = some
    { used := 2, pout := true, lo := 4 * (wAt d.par 1).toNat + 4,
      bad := [false, (wAt d.par 1).toNat == 0 || decide (256 < (wAt d.par 1).toNat)] } := by
  have code : fld (wAt (descOf 0x34 d) 0) 7 0 = 0x34 := (descOf_head (by decide) d).1
  rw [← descOf_par 0x34 d (by decide)]
  unfold opForm
  rw [code]
  rfl

theorem instWrite_form (d : Desc) : opForm (descOf 0x35 d) = some
    { used := 2 + (wAt d.par 1).toNat, bad := [false, (wAt d.par 1).toNat == 0 || decide (6 < (wAt d.par 1).toNat)] } := by
  have code : fld (wAt (descOf 0x35 d) 0) 7 0 = 0x35 := (descOf_head (by decide) d).1
  rw [← descOf_par 0x35 d (by decide)]
  unfold opForm
  rw [code]
  rfl

/-- An INST_READ asks for a word at least, and the host has room for those it asks for. -/
theorem instRead_asks (h : Ready s n.val 0x34 d) : 0 < (wAt d.par 1).toNat ∧ 4 * (wAt d.par 1).toNat + 4 ≤ d.len.toNat := by
  obtain ⟨-, -, -, -, -, form, -⟩ := h
  have count := (inRange_of_opStatic form (instRead_form d)).2 1 (by decide)
  have room := lo_of_badPayload (badPayload_of_opStatic form (instRead_form d)) rfl
  rw [(descOf_tail 0x34 d).2.2] at room
  simp only [List.getD_cons_succ, List.getD_cons_zero, Bool.or_eq_false_iff, beq_eq_false_iff_ne] at count
  exact ⟨Nat.pos_of_ne_zero count.1, room⟩

/-- An INST_WRITE carries one to six words. -/
theorem instWrite_carries (h : Ready s n.val 0x35 d) : 0 < (wAt d.par 1).toNat ∧ (wAt d.par 1).toNat ≤ 6 := by
  obtain ⟨-, -, -, -, -, form, -⟩ := h
  have count := (inRange_of_opStatic form (instWrite_form d)).2 1 (by decide)
  simp only [List.getD_cons_succ, List.getD_cons_zero, Bool.or_eq_false_iff, beq_eq_false_iff_ne, decide_eq_false_iff_not] at count
  exact ⟨Nat.pos_of_ne_zero count.1, Nat.le_of_not_lt count.2⟩

end

/-! ### The instance that a descriptor names -/

section
variable {t : State} {m : Nat} {f : Flight}

theorem instFor_absent (absent : t.img.bind (fun im => instById im (tgtOf f).toNat) = none) :
    instFor t m f = .error (fail t m f 0xF 0) := by
  unfold instFor
  rw [absent]

section
variable {i : Inst} (found : t.img.bind (fun im => instById im (tgtOf f).toNat) = some i)
include found

theorem instFor_refused (foreign : partOk (ringPart t m) i.part = false) :
    instFor t m f = .error (refuseAccess t m f (tgtOf f)) := by
  unfold instFor
  rw [found]
  dsimp only
  rw [foreign]
  rfl

theorem instFor_words (own : partOk (ringPart t m) i.part = true) (carried : 0 < (parOf f 1).toNat)
    (inside : (parOf f 0).toNat + (parOf f 1).toNat ≤ instWords i) : instFor t m f = .ok i := by
  unfold instFor
  rw [found]
  dsimp only
  rw [own, if_neg (by decide), if_neg (by omega), if_neg (by omega)]

end

theorem opInstRead_error {u : State} (given : instFor t m f = .error u) : opInstRead t m f = u := by
  unfold opInstRead
  rw [given]

theorem opInstRead_ok {i : Inst} (given : instFor t m f = .ok i) : opInstRead t m f =
    output t m f ((upto (parOf f 1).toNat).map (fun j => dget t (i.ofs + (parOf f 0).toNat + j))) 0 0 := by
  unfold opInstRead
  rw [given]

end

/-! ### Reads -/

section
variable {s : State} {n : Fin 64} {d : Desc}

theorem instRead_returns (h : Ready s n.val 0x34 d) (i : Inst)
    (found : s.img.bind (fun im => instById im d.target.toNat) = some i) (own : partOk (ringPart s n) i.part = true)
    (inside : (wAt d.par 0).toNat + (wAt d.par 1).toNat ≤ instWords i) : ∃ t, exec (.instRead n d) s = .next t ∧
    Frame [.rings, .msixPend, .out] s t ∧
    Returned s n.val 0x34 d ((upto (wAt d.par 1).toNat).map (fun j => dget s (i.ofs + (wAt d.par 0).toNat + j))) 0 0 t := by
  obtain ⟨R, turn, e⟩ := instRead_turn h
  obtain ⟨asked, room⟩ := instRead_asks h
  have par0 : parOf (flightOf s n 0x34 d) 0 = wAt d.par 0 := parOf_flightOf (by decide)
  have par1 : parOf (flightOf s n 0x34 d) 1 = wAt d.par 1 := parOf_flightOf (by decide)
  rw [opInstRead_ok (instFor_words (t := { s with rings := R }) (f := flightOf s n 0x34 d) found (by rwa [turn.ringPart]) (by rwa [par1])
    (by rwa [par0, par1])), par0, par1] at e
  exact returns_output turn (by decide) (by decide) (by simpa [upto] using room) e

theorem instRead_refused (h : Ready s n.val 0x34 d) (i : Inst)
    (found : s.img.bind (fun im => instById im d.target.toNat) = some i) (foreign : partOk (ringPart s n) i.part = false) :
    ∃ t, exec (.instRead n d) s = .next t ∧ Frame [.regs, .rings, .evq, .msixPend, .out] s t ∧
      Completed s n.val 0x34 d 9 0 0 d.target t := by
  obtain ⟨R, turn, e⟩ := instRead_turn h
  rw [opInstRead_error (instFor_refused (t := { s with rings := R }) (f := flightOf s n 0x34 d) found (by rwa [turn.ringPart]))] at e
  exact completes_refused turn (by decide) (by decide) e

theorem instRead_absent (h : Ready s n.val 0x34 d) (absent : s.img.bind (fun im => instById im d.target.toNat) = none) :
    ∃ t, exec (.instRead n d) s = .next t ∧ Frame [.rings, .msixPend, .out] s t ∧ Completed s n.val 0x34 d 0xF 0 0 0 t := by
  obtain ⟨R, turn, e⟩ := instRead_turn h
  rw [opInstRead_error (instFor_absent (t := { s with rings := R }) (f := flightOf s n 0x34 d) absent)] at e
  exact completes_only turn (by decide) (by decide) e

end

/-! ### Writes (R386) -/

theorem dget_dset (t : State) (k : Nat) (v : Word) (j : Nat) : dget (dset t k v) j = if j = k then v else dget t j := tget_tset ..

/-- The words of the data memory that a host's writes leave: those of a run of writes from `base`, each its value. -/
theorem dget_forAll_dset (t : State) (base : Nat) (v : Nat → Word) (m c k : Nat) :
    dget (forAll ((upto c).map (fun j => (base + j, v j, m))) (fun u w => dset u w.1 w.2.1) t) k =
      if base ≤ k ∧ k < base + c then v (k - base) else dget t k := by
  induction c with
  | zero => exact (if_neg (by omega)).symm
  | succ c ih =>
    have last : forAll ((upto (c + 1)).map (fun j => (base + j, v j, m))) (fun u w => dset u w.1 w.2.1) t =
        dset (forAll ((upto c).map (fun j => (base + j, v j, m))) (fun u w => dset u w.1 w.2.1) t) (base + c) (v c) := by
      unfold upto forAll
      rw [List.range_succ, List.map_append, List.foldl_append]
      rfl
    rw [last, dget_dset, ih]
    by_cases here : k = base + c
    · rw [if_pos here, if_pos (by omega), here, Nat.add_sub_cancel_left]
    · rw [if_neg here]
      exact if_congr (by omega) rfl rfl

/-- The state after every host write has taken effect. -/
def writesApplied (t : State) : State :=
  forAll t.ble.writes (fun u w => dset u w.1 w.2.1) { t with ble := { t.ble with writes := [] } }

theorem writesApplied_keeps (t : State) : Keeps [.ble] t (writesApplied t) :=
  Keeps.forAll (.ble (.refl _ _) (by decide)) fun _ _ h => h.step (dset_keeps ..) (by decide)

theorem inCycle_idle {t : State} (run : t.ble.run = none) (stack : t.ble.stack = []) (task : Nat) : inCycle t task = false := by
  unfold inCycle
  rw [run, stack]
  rfl

section
variable {t : State} (free : ∀ task, inCycle t task = false)
include free

theorem inCycle_writesApplied (task : Nat) : inCycle (writesApplied t) task = false :=
  forAll_invariant (I := fun u => inCycle u task = false) (free task) fun _ _ h => h

/-- Between cycles every host write takes effect. -/
theorem applyWrites_all (carried : t.ble.writes ≠ []) :
    applyWrites t = completeAll (writesApplied t) (freeInstWrite (writesApplied t)) 0 0 0 0 := by
  unfold applyWrites
  extract_lets +onlyGivenNames ready
  have all : ready = t.ble.writes := List.filter_eq_self.mpr fun w _ => by
    split
    · rw [free]
      rfl
    · rfl
  have rest : t.ble.writes.filter (fun w => !t.ble.writes.contains w) = [] :=
    List.filter_eq_nil_iff.mpr fun w mem => by simp [mem]
  dsimp only
  rw [all, if_neg (by simpa using carried), rest]
  rfl

/-- A waiting INST_WRITE is free between cycles. -/
theorem freeInstWrite_of_free {f : Flight} (code : opOf f = 0x35) : freeInstWrite t f = true := by
  unfold freeInstWrite
  rw [code]
  split
  · rw [free]
    rfl
  · rfl

end

theorem dget_congr {t u : State} (same : u.ble = t.ble) (k : Nat) : dget u k = dget t k := by
  rw [dget, dget, same]

theorem close_dget (s t : State) (k : Nat) : dget (close s t) k = dget t k := dget_congr (close_ble s t) k

theorem dget_writesApplied {t : State} {base c m : Nat} {v : Nat → Word}
    (writes : t.ble.writes = (upto c).map (fun j => (base + j, v j, m))) (k : Nat) :
    dget (writesApplied t) k = if base ≤ k ∧ k < base + c then v (k - base) else dget t k := by
  unfold writesApplied
  rw [writes, dget_forAll_dset]
  rfl

/-- An INST_WRITE that waits alone in its ring completes with the writes (R386, R559). -/
theorem applyWrites_completes {s t : State} {n : Nat} {d : Desc} (waits : AtTurn s n (waitingOf s n 0x35 d) t)
    (row : rowsOf n t.rings = [(n, ring t n)]) (ts : nowTs t = nowTs s) (free : ∀ task, inCycle t task = false)
    (carried : t.ble.writes ≠ []) :
    Completed s n 0x35 d 0 0 0 0 (applyWrites t) ∧ (applyWrites t).ble = (writesApplied t).ble := by
  have kept := writesApplied_keeps t
  have code : opOf (waitingOf s n 0x35 d) = 0x35 := (descOf_head (by decide) d).1
  rw [applyWrites_all free carried]
  refine ⟨completeAll_completes (waits.keep kept) ?_ (by decide) (by decide) ?_
    (freeInstWrite_of_free (inCycle_writesApplied free) code), (completeAll_keeps ..).ble_eq (by decide)⟩
  · rw [← ts, nowTs, nowTs, absA, absA, kept.phc_eq (by decide)]
  · rw [ring, kept.rings_eq (by decide)]
    exact row

/-- The writes that an INST_WRITE asks for. -/
def writesOf (i : Inst) (f : Flight) (m : Nat) : List (Nat × Word × Nat) :=
  (upto (parOf f 1).toNat).map (fun j =>
    (i.ofs + ((parOf f 0).toNat + j), canonOf (wordType i ((parOf f 0).toNat + j)) (parOf f (2 + j)), m))

/-- They are those of a run of words from the instance's, each in the canonical form of its type (R386, R511). -/
theorem writesOf_flightOf {s : State} {n : Nat} {d : Desc} (i : Inst) (few : (wAt d.par 1).toNat ≤ 6) :
    writesOf i (flightOf s n 0x35 d) n = (upto (wAt d.par 1).toNat).map (fun j => (i.ofs + (wAt d.par 0).toNat + j,
      canonOf (wordType i ((wAt d.par 0).toNat + j)) (wAt d.par (2 + j)), n)) := by
  unfold writesOf
  rw [parOf_flightOf (k := 1) (by decide), parOf_flightOf (k := 0) (by decide)]
  refine List.map_congr_left fun j mem => ?_
  have low := mem_upto.mp mem
  rw [parOf_flightOf (by omega), Nat.add_assoc]

/-- The state in which an INST_WRITE and its writes wait. -/
def writeWaits (t : State) (m : Nat) (f : Flight) (ws : List (Nat × Word × Nat)) : State :=
  { setWaiting t m f with ble := { t.ble with writes := t.ble.writes ++ ws } }

theorem writeWaits_keeps (t : State) (m : Nat) (f : Flight) (ws : List (Nat × Word × Nat)) :
    Keeps [.rings, .ble] t (writeWaits t m f ws) := ((setWaiting_keeps t m f).mono (by decide)).ble (by decide)

theorem opInstWrite_ok {t : State} {m : Nat} {f : Flight} {i : Inst} (given : instFor t m f = .ok i) :
    opInstWrite t m f = applyWrites (writeWaits t m f (writesOf i f m)) := by
  unfold opInstWrite
  rw [given]
  rfl

section
variable {s t : State} {n op : Nat} {d : Desc} (turn : AtTurn s n (flightOf s n op d) t)
include turn

theorem row_setWaiting :
    rowsOf n (setWaiting t n (flightOf s n op d)).rings = [(n, ring (setWaiting t n (flightOf s n op d)) n)] := by
  have waiting := turn.waits.flight
  have written : ring (setWaiting t n (flightOf s n op d)) n = _ := ring_modRing_same ..
  have row : rowsOf n (setWaiting t n (flightOf s n op d)).rings = [(n, _)] := rowsOf_tset_same _ _ fun reset => by
    rw [written.trans reset] at waiting
    cases waiting
  rw [row, written]

theorem AtTurn.writeWaits (ws : List (Nat × Word × Nat)) :
    AtTurn s n (waitingOf s n op d) (writeWaits t n (flightOf s n op d) ws) ∧
      rowsOf n (Proofs.writeWaits t n (flightOf s n op d) ws).rings =
        [(n, ring (Proofs.writeWaits t n (flightOf s n op d) ws) n)] :=
  ⟨turn.waits.keep (may := [.ble]) (.ble (.refl _ _) (by decide)), row_setWaiting turn⟩

end

section
variable {s : State} {n : Fin 64} {d : Desc}

theorem instWrite_writes (h : Ready s n.val 0x35 d) (i : Inst)
    (found : s.img.bind (fun im => instById im d.target.toNat) = some i) (own : partOk (ringPart s n) i.part = true)
    (inside : (wAt d.par 0).toNat + (wAt d.par 1).toNat ≤ instWords i) (writes : s.ble.writes = []) (run : s.ble.run = none)
    (stack : s.ble.stack = []) : ∃ t, exec (.instWrite n d) s = .next t ∧ Frame [.rings, .msixPend, .ble, .out] s t ∧
    Completed s n.val 0x35 d 0 0 0 0 t ∧ (∀ j : Nat, j < (wAt d.par 1).toNat → dget t (i.ofs + (wAt d.par 0).toNat + j) =
      canonOf (wordType i ((wAt d.par 0).toNat + j)) (wAt d.par (2 + j))) ∧
    ∀ k : Nat, k < i.ofs + (wAt d.par 0).toNat ∨ i.ofs + (wAt d.par 0).toNat + (wAt d.par 1).toNat ≤ k → dget t k = dget s k := by
  obtain ⟨R, turn, e⟩ := instWrite_turn h
  obtain ⟨carried, few⟩ := instWrite_carries h
  have par0 : parOf (flightOf s n 0x35 d) 0 = wAt d.par 0 := parOf_flightOf (by decide)
  have par1 : parOf (flightOf s n 0x35 d) 1 = wAt d.par 1 := parOf_flightOf (by decide)
  rw [opInstWrite_ok (instFor_words (t := { s with rings := R }) (f := flightOf s n 0x35 d) found (by rwa [turn.ringPart])
    (by rwa [par1]) (by rwa [par0, par1])), writesOf_flightOf i few] at e
  generalize given : (upto (wAt d.par 1).toNat).map _ = ws at e
  obtain ⟨waits, row⟩ := turn.writeWaits ws
  have noted : Keeps [.rings, .ble] s _ := (rings_keeps.mono (by decide)).trans
    (writeWaits_keeps { s with rings := R } n (flightOf s n 0x35 d) ws)
  have ble : (writeWaits { s with rings := R } n (flightOf s n 0x35 d) ws).ble = { s.ble with writes := s.ble.writes ++ ws } := rfl
  generalize writeWaits { s with rings := R } n (flightOf s n 0x35 d) ws = u at e waits row noted ble
  rw [writes, List.nil_append] at ble
  have clock : nowTs u = nowTs s := by
    unfold nowTs absA
    rw [noted.phc_eq (by decide)]
  have free := inCycle_idle ((congrArg Ble.run ble).trans run) ((congrArg Ble.stack ble).trans stack)
  have listed : u.ble.writes = ws := congrArg Ble.writes ble
  have carries : u.ble.writes ≠ [] := by
    rw [listed, ← given]
    simp [upto]
    omega
  obtain ⟨done, same⟩ := applyWrites_completes waits row clock free carries
  have word (k : Nat) := (dget_congr same k).trans (dget_writesApplied (listed.trans given.symm) k)
  have data (k : Nat) : dget u k = dget s k := by rw [dget, dget, ble]
  refine completes ⟨_, e, (noted.mono (by decide)).step (applyWrites_keeps _) (by decide)⟩ e
    ⟨Completed.close done s, fun j low => ?_, fun k out => ?_⟩
  · rw [close_dget, word, if_pos (by omega), Nat.add_sub_cancel_left]
  · rw [close_dget, word, if_neg (by omega), data]

end

/-- Settles O34: each form of the image and the instance operations by its own lemma. -/
theorem programOperationsEffects : Obligations.ProgramOperationsEffects :=
  fun _ => ⟨fun _ _ h busy => imgLoad_busy h busy,
    fun _ _ h free first short => imgLoad_starts h free first short,
    fun _ _ h free x load length offset later short => imgLoad_goesOn h free x load length offset later short,
    fun _ _ h free later load => imgLoad_outOfOrder h free later load,
    fun _ _ h free first whole x bad => imgLoad_refused h free first whole x bad,
    fun _ _ h free first whole good alone => imgLoad_taken h free first whole good alone,
    fun _ _ h x bad => imgActivate_refused h x bad,
    fun _ _ h good runs => imgActivate_waits h good runs,
    fun _ _ h good stands im inactive => imgActivate_atOnce h good stands im inactive,
    fun _ _ h busy => imgCancel_ends h busy,
    fun _ _ h free => imgCancel_absent h free,
    fun _ _ h i found own inside => instRead_returns h i found own inside,
    fun _ _ h i found foreign => instRead_refused h i found foreign,
    fun _ _ h absent => instRead_absent h absent,
    fun _ _ h i found own inside writes run stack => instWrite_writes h i found own inside writes run stack⟩

end Sys2Proof.Proofs
end

section
/-! Online activation (R422 to R448): the end of the build, the switch at its window and the activation that finds none; the
settlement of O15. -/

namespace Sys2Proof.Proofs

open Machine Laws

/-! ### The controller under the steps of a switch -/

/-- The controller without its tasks' registers and the notes of changed program variables. -/
def program (s : State) : Ble := { s.ble with tasks := [], dirtyVars := [] }

section
variable {s t u : State} {may : List Piece}

theorem Stays.keepProgram (h : Stays program s t) (g : Keeps may t u) (hp : Piece.ble ∉ may := by decide) : Stays program s u :=
  h.trans (.of (by unfold program; rw [g.ble_eq hp]))

theorem Stays.program_inactive (h : Stays program s t) : t.ble.inactive = s.ble.inactive := (congrArg Ble.inactive h.eq :)
theorem Stays.program_running (h : Stays program s t) : t.ble.running = s.ble.running := (congrArg Ble.running h.eq :)
theorem Stays.program_data (h : Stays program s t) : t.ble.data = s.ble.data := (congrArg Ble.data h.eq :)
theorem Stays.program_switchSave (h : Stays program s t) : t.ble.switchSave = s.ble.switchSave := (congrArg Ble.switchSave h.eq :)

end

section
variable (s : State)

theorem pset_program (id : Nat) (v : Word) : Stays program s (pset s id v) := by
  unfold pset notePoint
  exact .ite (.of rfl) (.ite (.of rfl) (.ite (.ite (.of rfl) (.of rfl)) (.of rfl)))

theorem carryVars_program (old new : Image) : Stays program s (carryVars s old new) :=
  Stays.forAll (Stays.forAll .refl fun _ _ h => .ite h (h.trans (pset_program ..))) fun _ _ h => h.trans (pset_program ..)

theorem starvedCheck_program : Stays program s (starvedCheck s) :=
  Stays.forAll .refl fun _ _ h =>
    .ite h (((h.keepProgram (setLoop_keeps ..)).trans (pset_program ..)).keepProgram (loopEvent_keeps ..))

/-- A schedule that becomes live leaves the program and its data. -/
theorem phcLive_program : Stays program s (phcLive s) := by
  unfold phcLive
  have applied : Stays program s (phcApply s) := Stays.refl.keepProgram (phcApply_keeps s)
  exact ((applied.trans (starvedCheck_program _)).keepProgram (noteMirror_keeps ..)).keepProgram (completeAll_keeps ..)

/-! ### The end of an activation (R423, R536) -/

/-- The end of an activation leaves none pending and moves the controller no further, whatever waits for it. -/
theorem endAct_ble (status : Nat) (r0 r1 detail : Word) :
    (endAct s status r0 r1 detail).ble = { s.ble with act := none } := by
  unfold endAct
  split
  · rename_i free
    exact congrArg (fun a => { s.ble with act := a }) free
  · exact Keeps.ble_eq (s := { s with ble := { s.ble with act := none } }) (may := [.rings, .msixPend, .out])
      (.forAll (.refl _ _) fun _ _ h => .ite (h.trans (complete_keeps ..)) h) (by decide)

theorem failAct_ble (code : Nat) (extra : Word) : (failAct s code extra).ble = { s.ble with act := none } := endAct_ble ..

/-! ### The switch (R430, R441, R443) -/

theorem turnImage_img (new : Image) : (turnImage s new).img = some new := rfl

theorem turnImage_ble (new : Image) : (turnImage s new).ble =
    { s.ble with inactive := s.img, storing := (turnImage s new).ble.storing } := rfl

/-- A switch turns the banks: the new image runs on the data its plan carries, the old one is inactive, and a save is due. -/
theorem makeSwitch_spec (a : Activation) (old new : Image) : (makeSwitch s a old new).ble.act = none ∧
    (makeSwitch s a old new).img = some new ∧ (makeSwitch s a old new).ble.inactive = s.img ∧
    (makeSwitch s a old new).ble.running = s.ble.running ∧ (makeSwitch s a old new).ble.switchSave = true ∧
    (makeSwitch s a old new).ble.data = carriedData s.ble.data new (carryPlan old new) := by
  unfold makeSwitch
  extract_lets +onlyGivenNames -merge -useContext _ data forced r vars _ _ _ marked tasks turned live
  have carried : Stays program s vars := (Stays.refl.keepProgram (switchForces_keeps ..)).trans (carryVars_program ..)
  have image : vars.img = s.img :=
    ((carryVars_keeps ..).img_eq (by decide)).trans ((switchForces_keeps ..).img_eq (by decide))
  clear_value vars
  have filledData : marked.ble.data = data := rfl
  have due : marked.ble.switchSave = true := rfl
  have runs : marked.ble.running = vars.ble.running := rfl
  have same : marked.img = vars.img := rfl
  clear_value marked
  have fresh : Stays program marked tasks := Stays.forAll .refl fun _ _ h => h.upd
  have sameImage : tasks.img = marked.img :=
    (Keeps.forAll (.refl [.ble] marked) fun _ _ h => h.trans (setTask_keeps ..)).img_eq (by decide)
  clear_value tasks
  have turns : turned.ble = { tasks.ble with inactive := tasks.img, storing := turned.ble.storing } := turnImage_ble ..
  have turnedImage : turned.img = some new := turnImage_img ..
  clear_value turned
  have scheduled : Stays program turned live := .ite (phcLive_program turned) .refl
  have liveImage : live.img = turned.img := (Keeps.ite (phcLive_keeps turned) (.refl _ _)).img_eq (by decide)
  clear_value live
  have told : Keeps [.twn, .evq] live (activated (noteMirror live 5) new r.1 r.2.1) :=
    (Keeps.mono (noteMirror_keeps ..) (by decide)).step (activated_keeps ..) (by decide)
  rw [endAct_ble, (endAct_keeps ..).img_eq (by decide), told.img_eq (by decide), told.ble_eq (by decide)]
  refine ⟨rfl, liveImage.trans turnedImage, ?_, ?_, ?_, ?_⟩
  · rw [scheduled.program_inactive, turns]
    exact sameImage.trans (same.trans image)
  · rw [scheduled.program_running, turns]
    exact fresh.program_running.trans (runs.trans carried.program_running)
  · rw [scheduled.program_switchSave, turns]
    exact fresh.program_switchSave.trans due
  · rw [scheduled.program_data, turns]
    exact fresh.program_data.trans filledData

/-- A controller that stops keeps the image in its inactive bank (R389). -/
theorem stopCtl_inactive (cause trip : Nat) : (stopCtl s cause trip).ble.inactive = s.ble.inactive := by
  unfold stopCtl
  extract_lets +onlyGivenNames -merge -useContext _ _ halted saved
  have stopped : Stays taskState halted (if cause = 4 ∨ cause = 5 ∨ cause = 7 then planTrip saved else saved) :=
    (((allCause_tasks halted 5).trans (forceSave_tasks _)).trans (applyWrites_tasks _)).keepTasks (planTrip_ite_keeps saved)
  exact (congrArg Ble.inactive stopped.eq :)

/-- Poisoned data found by the switch stops the controller with its cause, both banks as they were (R445, R582). -/
theorem poisonedStop_spec : (stopCtl (poison s 0xB) 6 0).img = s.img ∧
    (stopCtl (poison s 0xB) 6 0).ble.inactive = s.ble.inactive ∧ (stopCtl (poison s 0xB) 6 0).ble.running = false ∧
    (stopCtl (poison s 0xB) 6 0).ble.stopCause = 6 ∧ bitOf (rget (stopCtl (poison s 0xB) 6 0) oIntegEvent) 11 = true := by
  obtain ⟨running, cause, -, -, integ⟩ := stopCtl_spec (poison s 0xB) 6 0
  refine ⟨((stopCtl_keeps ..).img_eq (by decide)).trans (poison_img ..), ?_, running, cause, ?_⟩
  · rw [stopCtl_inactive, poison_ble]
  · rw [integ, poison, rget_raiseBoth, if_pos rfl]
    exact bitOf_or_oneBit _ 11 (by decide)

/-! ### The commands -/

theorem windowOpen_running {s : State} {a : Activation} {c : Nat} (window : windowOpen s a c = true) : s.ble.running = true := by
  simp only [windowOpen, Bool.and_eq_true] at window
  exact window.1.1.2

section
variable {s : State} {a : Activation} (pending : s.ble.act = some a)
include pending

theorem onlineBuild_completes (unbuilt : a.built = false) : ∃ t, exec .onlineBuildComplete s = .next t ∧ Frame [.ble] s t ∧
    t.ble = { s.ble with act := some { a with built := true, builtAt := absA s } } := by
  have eq : exec .onlineBuildComplete s =
      done s { s with ble := { s.ble with act := some { a with built := true, builtAt := absA s } } } := by
    change execOnlineBuildComplete s = _
    simp only [execOnlineBuildComplete, pending, unbuilt, Bool.false_eq_true, if_false]
  exact completes (execOnlineBuildComplete_keeps s) eq (close_ble ..)

theorem noWindow_ends (built : a.built = true) (late : a.builtAt + 256 * 4096 < absA s) : ∃ t, exec .noWindow s = .next t ∧
    Frame [.rings, .msixPend, .ble, .out] s t ∧ t.ble.act = none ∧ t.img = s.img ∧ t.ble.data = s.ble.data ∧
      t.ble.running = s.ble.running := by
  have eq : exec .noWindow s = done s (failAct s 9 0) := by
    change execNoWindow s = _
    simp only [execNoWindow, pending, built, late, decide_true, Bool.and_self, if_true]
  refine completes (execNoWindow_keeps s) eq ?_
  rw [close_ble, close_img, failAct_ble, (failAct_keeps ..).img_eq (by decide)]
  exact ⟨rfl, rfl, rfl, rfl⟩

section
variable {old new : Image} (active : s.img = some old) (bank : s.ble.inactive = some new)
  (window : windowOpen s a (carryPlan old new).length = true) (schedule : a.schedWith = true → phcCheck s (some new) = none)
include active bank window schedule

/-- At its window, and with a schedule that passes, the switch is made or meets its poisoned data (R428, R430, R445). -/
theorem exec_onlineSwitch (poisoned : Option Nat) : exec (.onlineSwitch poisoned) s = done s (poisoned.elim (makeSwitch s a old new)
    fun i => failAct (stopCtl (poison s 0xB) 6 0) 0xA (w32 ((i % 65536) * 65536))) := by
  have passes : (if a.schedWith then phcCheck s (some new) else none) = none := by
    split
    · exact schedule ‹_›
    · rfl
  change execOnlineSwitch poisoned s = _
  simp only [execOnlineSwitch, pending, active, bank, window, passes, Bool.not_true, Bool.false_eq_true, if_false]
  cases poisoned with
  | none => simp only [Option.elim_none]
  | some i => simp only [Option.elim_some]

theorem onlineSwitch_switches : ∃ t, exec (.onlineSwitch none) s = .next t ∧
    Frame [.regs, .live, .pts, .phc, .banks, .ch, .rings, .evq, .msixPend, .forces, .img, .can, .lce, .ble, .twn, .out] s t ∧
    t.ble.act = none ∧ t.img = some new ∧ t.ble.inactive = some old ∧ t.ble.running = true ∧ t.ble.switchSave = true ∧
    t.ble.data = carriedData s.ble.data new (carryPlan old new) := by
  obtain ⟨act, image, inactive, running, save, data⟩ := makeSwitch_spec s a old new
  refine completes (execOnlineSwitch_keeps none s) (exec_onlineSwitch pending active bank window schedule none) ?_
  rw [close_ble, close_img]
  exact ⟨act, image, inactive.trans active, running.trans (windowOpen_running window), save, data⟩

theorem onlineSwitch_poisoned (i : Nat) : ∃ t, exec (.onlineSwitch (some i)) s = .next t ∧
    Frame [.regs, .live, .pts, .phc, .banks, .ch, .rings, .evq, .msixPend, .forces, .img, .can, .lce, .ble, .twn, .out] s t ∧
    t.ble.act = none ∧ t.img = some old ∧ t.ble.inactive = some new ∧ t.ble.running = false ∧ t.ble.stopCause = 6 ∧
    bitOf (rget t oIntegEvent) 11 = true := by
  obtain ⟨image, inactive, running, cause, integ⟩ := poisonedStop_spec s
  refine completes (execOnlineSwitch_keeps (some i) s) (exec_onlineSwitch pending active bank window schedule (some i)) ?_
  rw [close_ble, close_img, close_rget, Option.elim_some]
  generalize stopCtl (poison s 0xB) 6 0 = stopped at image inactive running cause integ ⊢
  rw [failAct_ble, (failAct_keeps ..).img_eq (by decide), (failAct_keeps ..).rget (by decide)]
  exact ⟨rfl, image.trans active, inactive.trans bank, running, cause, integ⟩

end

end

end

/-- Settles O15: each command by its own lemma. -/
theorem onlineChangeCommandsEffects : Obligations.OnlineChangeCommandsEffects :=
  fun _ => ⟨fun _ pending unbuilt => onlineBuild_completes pending unbuilt,
    fun _ pending _ active _ bank window schedule => onlineSwitch_switches pending active bank window schedule,
    fun i _ pending _ active _ bank window schedule => onlineSwitch_poisoned pending active bank window schedule i,
    fun _ pending built late => noWindow_ends pending built late⟩

end Sys2Proof.Proofs
end

section
/-! SUPPORT. The pair's bookkeeping (R464 to R498) under the operations that only follow it: what of it an operation leaves as it
was, and which registers its events move. -/

namespace Sys2Proof.Proofs

set_option Elab.async false

open Machine Laws

/-! ### A reading of the bookkeeping that an operation leaves as it is -/

/-- What `f` reads of the pair's bookkeeping is the same in both states. -/
abbrev PairStays {α : Type} (f : Twn → α) (s t : State) : Prop := Stays (fun u => f u.twn) s t

section
variable {α β : Type} {f : Twn → α} {may : List Piece} {s t u : State}

theorem pairStays_kept (k : Keeps may s t) (hp : Piece.twn ∉ may := by decide) : PairStays f s t :=
  .of (congrArg f (k.twn_eq hp))

theorem Stays.keepPair (h : PairStays f s t) (k : Keeps may t u) (hp : Piece.twn ∉ may := by decide) : PairStays f s u :=
  h.trans (pairStays_kept k hp)

/-- What is read of a part that stays, stays. -/
theorem Stays.reading {k : Twn → β} (h : PairStays f s t) (g : α → β) (e : ∀ w, g (f w) = k w := by intro w; rfl) :
    PairStays k s t :=
  .of ((e _).symm.trans ((congrArg g h.eq).trans (e _)))

end

/-- The bookkeeping without what follows from the rest of it (the state of the pair, the time of takeback, the alarms), without what
the items of a frame bring, and without what the next frame is to carry. -/
def duty (w : Twn) : Twn :=
  { w with
    pair := 0, backAt := none, alarmTl := false, alarmFl := false, ins := [], counts := [], ringPos := [], retain := none,
    loadIn := [], plausAt := none, forceSent := [], mirror := [] }

/-- The same without what synchronisation settles. -/
def beyondSync (w : Twn) : Twn := { duty w with reason := 0, copied := false, asked := false }

/-- The runs and totals of misses on both rally paths. -/
def tallies (w : Twn) : (Nat × Nat) × Nat × Nat × Bool := ((w.tlMiss, w.tlMissTot), w.flMiss, w.flMissTot, w.flUp)

theorem Stays.beyondSync {s t : State} (h : PairStays duty s t) : PairStays beyondSync s t :=
  h.reading fun w => { w with reason := 0, copied := false, asked := false }

theorem Stays.tallies {s t : State} (h : PairStays Proofs.beyondSync s t) : PairStays tallies s t := h.reading Proofs.tallies

theorem Stays.role {s t : State} (h : PairStays Proofs.beyondSync s t) : t.twn.role = s.twn.role := (h.reading Twn.role).eq

section
variable (s : State)

theorem refreshPair_duty : PairStays duty s (refreshPair s) := .of rfl

theorem pathAlarm_duty (tl : Bool) : PairStays duty s (pathAlarm s tl) := by
  unfold pathAlarm
  extract_lets w
  refine .ite (.ite ?_ .refl) (.ite ?_ .refl)
  · exact Stays.keepPair (.of rfl : PairStays duty s { s with twn := { w with alarmTl := true } }) (twnEvent_keeps ..)
  · exact Stays.keepPair (.of rfl : PairStays duty s { s with twn := { w with alarmFl := true } }) (twnEvent_keeps ..)

theorem putPeer_duty (h : Word) : duty (putPeer s h).twn = duty { s.twn with peer := h } := by
  unfold putPeer
  split
  · rename_i same
    rw [← same]
  · rw [(healthEvent_keeps ..).twn_eq (by decide)]

theorem updateSync_beyond : PairStays beyondSync s (updateSync s) := by
  unfold updateSync
  refine .ite (refreshPair_duty s).beyondSync ?_
  extract_lets +onlyGivenNames -merge -useContext _ _ _ x0 _ x1
  have h0 : PairStays beyondSync s x0 := .of rfl
  have lost : PairStays beyondSync x0 { x0 with twn := { x0.twn with copied := false, asked := false } } := .of rfl
  have h1 : PairStays beyondSync s x1 :=
    .ite ((h0.trans lost).keepPair (twnEvent_keeps ..)) (.ite (h0.keepPair (twnEvent_keeps ..)) h0)
  exact h1.trans (refreshPair_duty x1).beyondSync

theorem updateSync_role : (updateSync s).twn.role = s.twn.role := (updateSync_beyond s).role

/-- A module that is no standby has nothing to synchronise. -/
theorem updateSync_of_role (h : s.twn.role ≠ 2) : updateSync s = refreshPair s := if_pos h

theorem missTl_duty : duty (missTl s).twn =
    duty { s.twn with tlMiss := min 7 (s.twn.tlMiss + 1), tlMissTot := (s.twn.tlMissTot + 1) % 65536 } :=
  (pathAlarm_duty _ true).eq

theorem missFl_duty : duty (missFl s).twn =
    duty { s.twn with flMiss := min 7 (s.twn.flMiss + 1), flMissTot := (s.twn.flMissTot + 1) % 65536, flUp := false } :=
  (pathAlarm_duty _ false).eq

theorem missTl_role : (missTl s).twn.role = s.twn.role := (congrArg Twn.role (missTl_duty s) :)

end

end Sys2Proof.Proofs
end

section
/-! HOLD_OUT rises by the commands that give the ball, and by no other (O50): a line that is low stays low through every operation
that does not take the ball. -/

namespace Sys2Proof.Proofs

set_option Elab.async false

open Machine Laws

/-! ### The line -/

/-- The module does not assert HOLD_OUT. -/
def LineLow (s : State) : Prop := s.base.holdOut = false

/-- A command that leaves the line low. -/
def LeavesLow (s : State) (o : Host.Outcome State Fault Refusal) : Prop := ∃ u, o = .next (close s u) ∧ LineLow u

section
variable {may : List Piece} {s t : State} {o : Host.Outcome State Fault Refusal}

theorem LineLow.keep (low : LineLow s) (k : Keeps may s t) (hp : Piece.hold ∉ may := by decide) : LineLow t :=
  (k.holdOut_eq hp).trans low

/-- Fields beside the base are replaced. -/
theorem LineLow.upd (low : LineLow s) (e : t.base = s.base := by rfl) : LineLow t := (congrArg Base.holdOut e).trans low

theorem LineLow.ite {c : Prop} [Decidable c] (h : LineLow s) (g : LineLow t) : LineLow (if c then s else t) := by
  split <;> assumption

/-- A command that has nothing to do with the line. -/
theorem low_of_keeps (low : LineLow s) (k : ∃ u, o = .next (close s u) ∧ Keeps may s u) (hp : Piece.hold ∉ may := by decide) :
    LeavesLow s o := by
  obtain ⟨u, hu, keeps⟩ := k
  exact ⟨u, hu, low.keep keeps hp⟩

theorem LineLow.reached {b : Nat} {f : State → State} (low : LineLow s) (step : ∀ u, LineLow u → LineLow (f u)) :
    LineLow (Machine.reached s b f) :=
  .ite (step s low) low

/-- What a command ends with does not raise the line. -/
theorem LineLow.close (low : LineLow t) (r : State) : LineLow (Machine.close r t) := by
  rw [LineLow, close_holdOut, low, Bool.false_and]

end

/-! ### What lowers the line, or finds it low -/

section
variable {s : State}

theorem setHold_low (peer : Bool) : LineLow (setHold s false peer) := by rw [LineLow, setHold_base]

theorem holdReset_low (cause : Nat) : LineLow (holdReset s cause) := (holdReset_spec s cause).1

theorem updReset_low : LineLow (updReset s) := holdReset_low 6

theorem unseat_low : LineLow (unseat s) := holdReset_low 3

variable (low : LineLow s)
include low

/-- A lease that runs out does so on a module that asserts its line (R463). -/
theorem leaseTick_low : LineLow (leaseTick s) := by
  have still : leaseTick s = s := if_neg (by simp [show s.base.holdOut = false from low])
  rwa [still]

theorem reachPhase_low (p : Nat) : LineLow (reachPhase s p) := by
  unfold reachPhase
  extract_lets +onlyGivenNames -merge -useContext _ _ x0
  have reached : LineLow { s with phc := { s.phc with phase := p } } := low.upd
  have h0 : LineLow x0 := (reached.keep (elapseUnits_keeps ..)).keep (heldDue_keeps ..)
  exact .ite (leaseTick_low h0) h0

theorem advancePhase_low (p : Nat) : LineLow (advancePhase s p) := by
  unfold advancePhase
  extract_lets +onlyGivenNames _
  have reach {u : State} (q : Nat) (h : LineLow u) : LineLow (finishPass (reachPhase u q)) :=
    (reachPhase_low h q).keep (finishPass_keeps ..)
  exact .ite (reach _ (reach _ low)) (reach _ low)

theorem boundary_low : LineLow (boundary s) := by
  unfold boundary
  extract_lets +onlyGivenNames -merge -useContext x0 x1 _ p x2 x3 x4
  have h1 : LineLow x1 := advancePhase_low (low.keep (flushEvents_keeps s)) 4096
  have begun : LineLow { x1 with phc := p } := h1.upd
  have h2 : LineLow x2 := leaseTick_low (begun.keep (newCycle_keeps _))
  have h3 : LineLow x3 := forAll_invariant h2 fun _ _ h => h.keep (reconvert_keeps ..)
  have h4 : LineLow x4 := (h3.keep (partDue_keeps _)).keep (dueCommits_keeps _)
  exact (h4.keep (modeBoundary_keeps _)).keep (periodicEvent_keeps _)

theorem handedOver_low (p : Plan) : LineLow (handedOver s p) := by
  unfold handedOver
  extract_lets +onlyGivenNames _ x0 x1
  have h0 : LineLow x0 := by
    subst x0
    split
    · exact forAll_invariant low fun _ _ h => .ite (h.keep (completeTs_keeps ..)) h
    · exact low
  exact .ite updReset_low (h0.keep (ballLost_keeps ..))

/-- A module that is no standby does not take the ball over (R476, R477). -/
theorem declareCheck_low (holder : s.twn.role ≠ 2) : LineLow (declareCheck s) := by
  unfold declareCheck
  extract_lets w
  rw [if_neg (show ¬ (w.role = 2 ∧ w.partner = 1 ∧ (!w.isolated) = true) from fun h => holder h.1)]
  have alone : LineLow { s with twn := { w with partner := 0, reason := 1 } } := low.upd
  exact .ite low (.ite (((alone.keep (twnEvent_keeps ..)).keep (refreshPair_keeps _)).keep (partnerGone_keeps _)) low)

/-! ### Register writes and descriptors -/

theorem leaveBall_low : LineLow (leaveBall s) := by
  unfold leaveBall
  refine .ite ?_ (.ite (low.keep (leaveRefused_keeps _)) updReset_low)
  split
  · rename_i planned
    exact low.keep (planHandoff_keeps planned)
  · exact low.keep (leaveRefused_keeps _)

theorem fallBack_low : LineLow (fallBack s) := .ite low (leaveBall_low (low.keep (modUpd_keeps ..)))

theorem fallbackCmd_low : LineLow (fallbackCmd s) := .ite (fallBack_low low) low

theorem installCmd_low (aloneOk : Bool) : LineLow (installCmd s aloneOk) :=
  .ite (low.keep (modUpd_keeps ..)) (leaveBall_low (low.keep (modUpd_keeps ..)))

theorem updWrite_low (o : Nat) (v : Word) : LineLow (updWrite s o v) := by
  unfold updWrite updCmdWrite
  extract_lets +onlyGivenNames x0 x1
  have h0 : LineLow x0 := .ite (installCmd_low low _) low
  have h1 : LineLow x1 := .ite (fallbackCmd_low h0) h0
  exact .ite (low.keep (updCtrlWrite_keeps ..)) (.ite (.ite (h1.keep (cartInstallCmd_keeps _)) h1) (low.keep (rwrite_keeps ..)))

/-- Of the blocks' registers only those of UPD reach the line, by the module's reset. -/
theorem regWrite_low (off : Nat) (v : Word) : LineLow (regWrite s off v) := by
  unfold regWrite
  extract_lets +onlyGivenNames o
  refine .ite (.ite (low.keep (ringErr_keeps ..)) low) (.ite (low.keep (pairWrite_keeps ..)) ?_)
  split
  case h_14 => exact updWrite_low low ..
  · exact low.keep (glbWrite_keeps ..)
  · exact low.keep (clkWrite_keeps ..)
  · exact low.keep (phcWrite_keeps ..)
  · exact low.keep (bnkWrite_keeps ..)
  · exact low.keep (lceWrite_keeps ..)
  · exact low.keep (rwrite_keeps ..)
  · exact low.keep (mtrWrite_keeps ..)
  · exact low.keep (twnWrite_keeps ..)
  · exact low.keep (rngWrite_keeps ..)
  · exact low.keep (ethWrite_keeps ..)
  · exact low.keep (canWrite_keeps ..)
  · exact low.keep (rtcWrite_keeps ..)
  · exact low.keep (secWrite_keeps ..)
  · exact low

theorem barWrite_low (t : Target) (off : Nat) (v : Word) : LineLow (barWrite s t off v) :=
  .ite low (.ite (regWrite_low (low.keep (wakeFor_keeps ..)) off v) (low.keep (worldViol_keeps ..)))

theorem opCfgWrite_low (n : Nat) (f : Flight) : LineLow (opCfgWrite s n f) := by
  unfold opCfgWrite
  extract_lets +onlyGivenNames t ps
  split
  · exact low.keep (fail_keeps ..)
  · refine .ite (low.keep (busFail_keeps ..)) (.ite (low.keep (fail_keeps ..)) ?_)
    extract_lets +onlyGivenNames x0
    have h0 : LineLow x0 := forAll_invariant low fun _ _ h => regWrite_low h ..
    exact .ite ((h0.keep (setWaiting_keeps ..)).keep (cfgRequest_keeps ..)) (h0.keep (ok_keeps ..))

theorem opCtrl_low (n : Nat) (f : Flight) : LineLow (opCtrl s n f) := by
  unfold opCtrl
  split
  · exact low.keep (ctrlStop_keeps ..)
  · exact low.keep (ctrlRestart_keeps ..)
  · exact low.keep (ctrlRestart_keeps ..)
  · exact low.keep (ctrlTaskStart_keeps ..)
  · exact holdReset_low 4

/-- Of the operations CFG_WRITE and CTRL alone reach the line. -/
theorem runCore_low (n : Nat) (f : Flight) : LineLow (runCore s n f) := by
  unfold runCore
  split
  case h_9 => exact opCfgWrite_low low ..
  case h_11 => exact opCtrl_low low ..
  · exact low.keep (ok_keeps ..)
  · exact low.keep (opFence_keeps ..)
  · exact low.keep (opResume_keeps ..)
  · exact low.keep (opPtRead_keeps ..)
  · exact low.keep (opPtWrite_keeps ..)
  · exact low.keep (opPtWatch_keeps ..)
  · exact low.keep (opRioRead_keeps ..)
  · exact low.keep (opRioWrite_keeps ..)
  · exact low.keep (opCfgRead_keeps ..)
  · exact low.keep (opImgLoad_keeps ..)
  · exact low.keep (opImgActivate_keeps ..)
  · exact low.keep (opImgCancel_keeps ..)
  · exact low.keep (opInstRead_keeps ..)
  · exact low.keep (opInstWrite_keeps ..)
  · exact low.keep (opForceSet_keeps ..)
  · exact low.keep (opForceRelease_keeps ..)
  · exact low.keep (opForceList_keeps ..)
  · exact low.keep (opTimed_keeps ..)
  · exact low.keep (opHandoffReq_keeps ..)
  · exact low.keep (fail_keeps ..)

theorem runChecked_low (n : Nat) (f : Flight) (hop : Nat) : LineLow (runChecked s n f hop) := by
  unfold runChecked
  extract_lets +onlyGivenNames x0
  have h0 : LineLow x0 := .ite (runCore_low low ..) (low.keep (runMore_keeps ..))
  split
  · exact h0
  · exact .ite (((low.keep (emit_keeps ..)).keep (poison_keeps ..)).keep (fail_keeps ..))
      (.ite ((low.keep (poison_keeps ..)).keep (fail_keeps ..)) h0)

theorem commitOne_low (n : Nat) (f : Flight) (hop : Nat) : LineLow (commitOne s n f hop) := by
  unfold commitOne
  refine .ite ((low.keep (poison_keeps ..)).keep (fail_keeps ..)) (.ite (low.keep (complete_keeps ..)) ?_)
  split
  · exact low.keep (fail_keeps ..)
  · exact .ite (low.keep (fail_keeps ..)) (.ite (low.keep (fail_keeps ..)) (runChecked_low low ..))

theorem commitFront_low (n hop : Nat) : LineLow (commitFront s n hop) := by
  unfold commitFront
  split
  · exact .ite (commitOne_low low ..) low
  · exact low

theorem submit_low (n op : Nat) (d : Desc) : LineLow (submit s n op d) := by
  unfold submit
  refine .ite ?_ low
  extract_lets +onlyGivenNames x0
  have h0 : LineLow x0 := low.keep (fetch_keeps ..)
  exact .ite (commitFront_low h0 ..) h0

/-! ### Commands -/

theorem submit_leavesLow (n op : Nat) (d : Desc) : LeavesLow s (done s (submit s n op d)) := ⟨_, rfl, submit_low low ..⟩

theorem execDescriptorCommit_low (n : Fin 64) (hop : Fin 13) : LeavesLow s (execDescriptorCommit n hop s) :=
  ⟨_, rfl, commitFront_low low ..⟩

theorem execRegisterWrite_low (t : Target) (off width value : Nat) : LeavesLow s (execRegisterWrite t off width value s) := by
  refine ⟨_, rfl, ?_⟩
  refine .ite low ?_
  split
  · exact low.keep (configWrite_keeps ..)
  · exact .ite (low.keep (bellWrite_keeps ..)) low
  · exact .ite (barWrite_low low ..) (.ite (barWrite_low (barWrite_low low ..) ..) low)

theorem execSlotCodeChange_low (code : Fin 4) : LeavesLow s (execSlotCodeChange code s) := by
  refine ⟨_, rfl, ?_⟩
  refine .ite low ?_
  extract_lets +onlyGivenNames -merge -useContext _ _ _ x0 x1
  have h0 : LineLow x0 := low
  have h1 : LineLow x1 := .ite h0 (by rw [h0]; exact setHold_low _)
  exact .ite unseat_low h1

theorem execCycleBoundary_low : LeavesLow s (execCycleBoundary s) := ⟨_, rfl, .ite (boundary_low low) low⟩

theorem execStepCycleEnd_low (marker : Bool) : LeavesLow s (execStepCycleEnd marker s) := by
  refine ⟨_, rfl, ?_⟩
  refine .ite ?_ low
  extract_lets +onlyGivenNames -merge -useContext _ x0 _ _ _ x1 x2
  have h0 : LineLow x0 := .ite low (low.keep (stretchStep_keeps _))
  have h1 : LineLow x1 := h0.upd
  have h2 : LineLow x2 := .ite h1 (h1.keep (missMarker_keeps _))
  exact boundary_low (h2.keep (raisePhc_keeps ..))

theorem execSourceFail_low (n : Fin 9) : LeavesLow s (execSourceFail n s) := by
  refine ⟨_, rfl, ?_⟩
  refine .ite low ?_
  extract_lets +onlyGivenNames -merge -useContext _ x0 x1 x2 x3
  have h0 : LineLow x0 := low.upd
  have h1 : LineLow x1 := (h0.keep (raiseBoth_keeps ..)).keep (fmRefFail_keeps ..)
  have h2 : LineLow x2 := .ite (forAll_invariant h1 fun _ _ h => .ite (h.keep (failAllTx_keeps ..)) h) h1
  have h3 : LineLow x3 := .ite (h2.keep (oscStop_keeps _)) h2
  refine .ite ?_ (h3.keep (macFail_keeps ..))
  extract_lets +onlyGivenNames x4
  have h4 : LineLow x4 := holdReset_low 2
  clear_value x4
  exact h4.upd

theorem execPowerFailRestart_low : LeavesLow s (execPowerFailRestart s) := ⟨_, rfl, .ite (holdReset_low 1) low⟩

theorem execHoldupEnd_low (backup : Bool) : LeavesLow s (execHoldupEnd backup s) := by
  refine ⟨_, rfl, ?_⟩
  refine .ite low ?_
  extract_lets +onlyGivenNames x0
  have h0 : LineLow x0 := (holdReset_low 0).keep (unhalt_keeps _)
  clear_value x0
  exact h0.upd

theorem execSupWdogExpiry_low : LeavesLow s (execSupWdogExpiry s) := ⟨_, rfl, .ite (holdReset_low 5) low⟩

theorem execHoldLineChange_low (level : Bool) : LeavesLow s (execHoldLineChange level s) := by
  refine ⟨_, rfl, ?_⟩
  refine .ite low ?_
  extract_lets +onlyGivenNames _ x0
  have h0 : LineLow x0 := by
    have still : (s.base.holdOut && !level) = false := by rw [show s.base.holdOut = false from low, Bool.false_and]
    show LineLow (setHold s (s.base.holdOut && !level) level)
    rw [still]
    exact setHold_low level
  refine .ite ?_ h0
  split
  · exact .ite (handedOver_low h0 _) (.ite (h0.keep (ballLost_keeps ..)) h0)
  · exact .ite (h0.keep (ballLost_keeps ..)) h0

theorem execLeaseExpiry_low : LeavesLow s (execLeaseExpiry s) :=
  ⟨_, rfl, .ite ((setHold_low _).keep (ballLost_keeps ..)) low⟩

/-- A rally frame that fails its check counts as a miss of the holder, which has the ball or has let it go (R474, R477). -/
theorem execRallyFrameRx_low (ok : Bool) (pair : Fin 8 × Fin 16) (health : BitVec 16) (copy back : Bool) (digest : List Nat) :
    LeavesLow s (execRallyFrameRx ok pair health copy back digest s) := by
  refine ⟨_, rfl, ?_⟩
  split
  · exact low
  rename_i holder
  refine .ite ?_ (low.keep (goodRally_keeps ..))
  extract_lets +onlyGivenNames x0
  have role : x0.twn.role = 1 := by
    rw [(poison_keeps s 7).twn_eq (by decide)]
    simp at holder
    exact holder.1.2
  have h0 : LineLow x0 := low.keep (poison_keeps ..)
  have noted : LineLow { x0 with twn := { x0.twn with tlHalf := some (x0.twn.sampleA / 2048) } } := h0.upd
  have missed := noted.keep (missTl_keeps _)
  exact (declareCheck_low missed (by rw [missTl_role]; exact role ▸ by decide)).keep (updateSync_keeps _)

theorem execSelfTest_low (bit : Fin 7) (found : Bool) (place : Fin 3) (item : Nat) :
    LeavesLow s (execSelfTest bit found place item s) := by
  refine ⟨_, rfl, ?_⟩
  refine .ite low ?_
  extract_lets +onlyGivenNames -merge -useContext _ x0 _ x1 h _ x2 x3
  have h0 : LineLow x0 := .ite ((low.keep (poison_keeps ..)).keep (scrubItem_keeps ..)) low
  have h1 : LineLow x1 := .ite h0.upd h0
  have told : LineLow { x1 with twn := { x1.twn with own := h } } := h1.upd
  have h2 : LineLow x2 := .ite h1 (told.keep (healthEvent_keeps _))
  exact .ite (holdReset_low 5) (h2.keep (updateSync_keeps _))

theorem execPlannedHandoffBoundary_low : LeavesLow s (execPlannedHandoffBoundary s) := by
  refine ⟨_, rfl, ?_⟩
  split
  · refine .ite (.ite (low.keep (postpone_keeps ..)) ?_) low
    exact ((setHold_low _).keep (canBallLost_keeps _)).keep (refreshPair_keeps _)
  · exact low

theorem execInstall_low (aloneOk : Bool) : LeavesLow s (execInstall aloneOk s) :=
  ⟨_, rfl, low.reached fun _ h => installCmd_low h _⟩

theorem execFallback_low : LeavesLow s (execFallback s) := ⟨_, rfl, low.reached fun _ h => fallbackCmd_low h⟩

theorem execTrialTimeExpiry_low : LeavesLow s (execTrialTimeExpiry s) := ⟨_, rfl, .ite (fallBack_low low) low⟩

theorem execFallbackHandoffRetry_low : LeavesLow s (execFallbackHandoffRetry s) :=
  ⟨_, rfl, .ite (leaveBall_low (low.keep (modUpd_keeps ..))) low⟩

end

theorem execSeatLoss_low (s : State) : LeavesLow s (execSeatLoss s) := ⟨_, rfl, unseat_low⟩

/-! ### Every command -/

/-- The commands that can give the module the ball (R462, R465, R466, R476, R485, R490, R492, R496). -/
def GivesBall (c : Instr) : Prop :=
  (∃ e, c = .startUp e) ∨ (∃ e, c = .ballRequest e) ∨ c = .twinlinkCheck ∨ c = .fieldlinkMiss ∨
    (∃ ok seq ts half health plan final excess digest lag items,
      c = .stateFrameRx ok seq ts half health plan final excess digest lag items) ∨
    c = .handoffFail

/-- Every other command leaves a low line low; the operations of the rings all go through `submit`. -/
theorem exec_leavesLow {s : State} (low : LineLow s) (c : Instr) : GivesBall c ∨ LeavesLow s (exec c s) := by
  cases c with
  | registerWrite => exact .inr (execRegisterWrite_low low ..)
  | latchedRead => exact .inr (low_of_keeps low (execLatchedRead_keeps ..))
  | seatingRecognised => exact .inr (low_of_keeps low (execSeatingRecognised_keeps ..))
  | seatLoss => exact .inr (execSeatLoss_low s)
  | slotCodeChange => exact .inr (execSlotCodeChange_low low ..)
  | logicInputGood => exact .inr (low_of_keeps low (execLogicInputGood_keeps ..))
  | logicInputLost => exact .inr (low_of_keeps low (execLogicInputLost_keeps ..))
  | peerSeatChg => exact .inr (low_of_keeps low (execPeerSeatChg_keeps ..))
  | cartChg => exact .inr (low_of_keeps low (execCartChg_keeps ..))
  | thermalUpdate => exact .inr (low_of_keeps low (execThermalUpdate_keeps ..))
  | referenceMarker => exact .inr (low_of_keeps low (execReferenceMarker_keeps ..))
  | cycleBoundary => exact .inr (execCycleBoundary_low low)
  | missingMarker => exact .inr (low_of_keeps low (execMissingMarker_keeps ..))
  | holdoverTimeout => exact .inr (low_of_keeps low (execHoldoverTimeout_keeps ..))
  | stepCycleEnd => exact .inr (execStepCycleEnd_low low ..)
  | bankConvert => exact .inr (low_of_keeps low (execBankConvert_keeps ..))
  | lcePass => exact .inr (low_of_keeps low (execLcePass_keeps ..))
  | waitingPassStart => exact .inr (low_of_keeps low (execWaitingPassStart_keeps ..))
  | bleTask => exact .inr (low_of_keeps low (execBleTask_keeps ..))
  | taskCycleResume => exact .inr (low_of_keeps low (execTaskCycleResume_keeps ..))
  | taskCycleCommit => exact .inr (low_of_keeps low (execTaskCycleCommit_keeps ..))
  | zcOutput => exact .inr (low_of_keeps low (execZcOutput_keeps ..))
  | zcSwitch => exact .inr (low_of_keeps low (execZcSwitch_keeps ..))
  | mtrClose => exact .inr (low_of_keeps low (execMtrClose_keeps ..))
  | twnSample => exact .inr (low_of_keeps low (execTwnSample_keeps ..))
  | defaultSample => exact .inr (low_of_keeps low (execDefaultSample_keeps ..))
  | hostEvent => exact .inr (low_of_keeps low (execHostEvent_keeps ..))
  | phcCommit => exact .inr (low_of_keeps low (execPhcCommit_keeps ..))
  | phcCommitPoint => exact .inr (low_of_keeps low (execPhcCommitPoint_keeps ..))
  | timedActionFire => exact .inr (low_of_keeps low (execTimedActionFire_keeps ..))
  | clockSourceSwitch => exact .inr (low_of_keeps low (execClockSourceSwitch_keeps ..))
  | switchComplete => exact .inr (low_of_keeps low (execSwitchComplete_keeps ..))
  | forcedSwitch => exact .inr (low_of_keeps low (execForcedSwitch_keeps ..))
  | sourceFail => exact .inr (execSourceFail_low low ..)
  | resetWaitExit => exact .inr (low_of_keeps low (execResetWaitExit_keeps ..))
  | gateClose => exact .inr (low_of_keeps low (execGateClose_keeps ..))
  | gateCloseTimeout => exact .inr (low_of_keeps low (execGateCloseTimeout_keeps ..))
  | gateOpen => exact .inr (low_of_keeps low (execGateOpen_keeps ..))
  | sleepWake => exact .inr (low_of_keeps low (execSleepWake_keeps ..))
  | fmStart => exact .inr (low_of_keeps low (execFmStart_keeps ..))
  | fmDone => exact .inr (low_of_keeps low (execFmDone_keeps ..))
  | powerFailWarning => exact .inr (low_of_keeps low (execPowerFailWarning_keeps ..))
  | powerFailRestart => exact .inr (execPowerFailRestart_low low)
  | holdupEnd => exact .inr (execHoldupEnd_low low ..)
  | startUp => exact .inl (.inl ⟨_, rfl⟩)
  | pePerst => exact .inr (low_of_keeps low (execPePerst_keeps ..))
  | supWdogExpiry => exact .inr (execSupWdogExpiry_low low)
  | bankLinkKeepalive => exact .inr (low_of_keeps low (execBankLinkKeepalive_keeps ..))
  | readingFrame => exact .inr (low_of_keeps low (execReadingFrame_keeps ..))
  | diagnosticFrame => exact .inr (low_of_keeps low (execDiagnosticFrame_keeps ..))
  | keepAliveFrame => exact .inr (low_of_keeps low (execKeepAliveFrame_keeps ..))
  | outputFrame => exact .inr (low_of_keeps low (execOutputFrame_keeps ..))
  | configurationFrame => exact .inr (low_of_keeps low (execConfigurationFrame_keeps ..))
  | linkDown => exact .inr (low_of_keeps low (execLinkDown_keeps ..))
  | bnkCommit => exact .inr (low_of_keeps low (execBnkCommit_keeps ..))
  | bankCommitPoint => exact .inr (low_of_keeps low (execBankCommitPoint_keeps ..))
  | pwmPeriodStart => exact .inr (low_of_keeps low (execPwmPeriodStart_keeps ..))
  | shortShutdown => exact .inr (low_of_keeps low (execShortShutdown_keeps ..))
  | overloadShutdown => exact .inr (low_of_keeps low (execOverloadShutdown_keeps ..))
  | outputRetry => exact .inr (low_of_keeps low (execOutputRetry_keeps ..))
  | faultClear => exact .inr (low_of_keeps low (execFaultClear_keeps ..))
  | openWireDetect => exact .inr (low_of_keeps low (execOpenWireDetect_keeps ..))
  | openLoadDetect => exact .inr (low_of_keeps low (execOpenLoadDetect_keeps ..))
  | extDriveDetect => exact .inr (low_of_keeps low (execExtDriveDetect_keeps ..))
  | loadShed => exact .inr (low_of_keeps low (execLoadShed_keeps ..))
  | fieldSupplyLost => exact .inr (low_of_keeps low (execFieldSupplyLost_keeps ..))
  | fieldSupplyGood => exact .inr (low_of_keeps low (execFieldSupplyGood_keeps ..))
  | bankControllerReset => exact .inr (low_of_keeps low (execBankControllerReset_keeps ..))
  | bankStart => exact .inr (low_of_keeps low (execBankStart_keeps ..))
  | bankOvertemp => exact .inr (low_of_keeps low (execBankOvertemp_keeps ..))
  | overtempClearable => exact .inr (low_of_keeps low (execOvertempClearable_keeps ..))
  | bnkSafeCmd => exact .inr (low_of_keeps low (execBnkSafeCmd_keeps ..))
  | bnkRelease => exact .inr (low_of_keeps low (execBnkRelease_keeps ..))
  | bankWatchdogExpiry => exact .inr (low_of_keeps low (execBankWatchdogExpiry_keeps ..))
  | diagLatchReport => exact .inr (low_of_keeps low (execDiagLatchReport_keeps ..))
  | complianceChange => exact .inr (low_of_keeps low (execComplianceChange_keeps ..))
  | voltageOutputShort => exact .inr (low_of_keeps low (execVoltageOutputShort_keeps ..))
  | inputSample => exact .inr (low_of_keeps low (execInputSample_keeps ..))
  | countPathSample => exact .inr (low_of_keeps low (execCountPathSample_keeps ..))
  | currentOutputOpen => exact .inr (low_of_keeps low (execCurrentOutputOpen_keeps ..))
  | holdupFull => exact .inr (low_of_keeps low (execHoldupFull_keeps ..))
  | sourceGood => exact .inr (low_of_keeps low (execSourceGood_keeps ..))
  | pePerstRelease => exact .inr (low_of_keeps low (execPePerstRelease_keeps ..))
  | lceCommit => exact .inr (low_of_keeps low (execLceCommit_keeps ..))
  | lceBuildComplete => exact .inr (low_of_keeps low (execLceBuildComplete_keeps ..))
  | saturationSave => exact .inr (low_of_keeps low (execSaturationSave_keeps ..))
  | retainSaveDone => exact .inr (low_of_keeps low (execRetainSaveDone_keeps ..))
  | programStoreWriteDone => exact .inr (low_of_keeps low (execProgramStoreWriteDone_keeps ..))
  | onlineBuildComplete => exact .inr (low_of_keeps low (execOnlineBuildComplete_keeps ..))
  | onlineSwitch => exact .inr (low_of_keeps low (execOnlineSwitch_keeps ..))
  | noWindow => exact .inr (low_of_keeps low (execNoWindow_keeps ..))
  | canPortEnable => exact .inr (low_of_keeps low (execCanPortEnable_keeps ..))
  | canPortDisable => exact .inr (low_of_keeps low (execCanPortDisable_keeps ..))
  | canBufferEnable => exact .inr (low_of_keeps low (execCanBufferEnable_keeps ..))
  | canMapEnable => exact .inr (low_of_keeps low (execCanMapEnable_keeps ..))
  | canFrameReceived => exact .inr (low_of_keeps low (execCanFrameReceived_keeps ..))
  | canTransmitEnd => exact .inr (low_of_keeps low (execCanTransmitEnd_keeps ..))
  | canErrorStateChange => exact .inr (low_of_keeps low (execCanErrorStateChange_keeps ..))
  | canRecoverCmd => exact .inr (low_of_keeps low (execCanRecoverCmd_keeps ..))
  | canRecovered => exact .inr (low_of_keeps low (execCanRecovered_keeps ..))
  | canBallTaken => exact .inr (low_of_keeps low (execCanBallTaken_keeps ..))
  | mappedTx => exact .inr (low_of_keeps low (execMappedTx_keeps ..))
  | canRxStale => exact .inr (low_of_keeps low (execCanRxStale_keeps ..))
  | ballRequest => exact .inl (.inr (.inl ⟨_, rfl⟩))
  | holdLineChange => exact .inr (execHoldLineChange_low low ..)
  | leaseExpiry => exact .inr (execLeaseExpiry_low low)
  | stateFrameRx => exact .inl (.inr (.inr (.inr (.inr (.inl ⟨_, _, _, _, _, _, _, _, _, _, _, rfl⟩)))))
  | rallyFrameRx => exact .inr (execRallyFrameRx_low low ..)
  | twinlinkCheck => exact .inl (.inr (.inr (.inl rfl)))
  | twinlinkLinkDown => exact .inr (low_of_keeps low (execTwinlinkLinkDown_keeps ..))
  | heartbeatSend => exact .inr (low_of_keeps low (execHeartbeatSend_keeps ..))
  | heartbeatRx => exact .inr (low_of_keeps low (execHeartbeatRx_keeps ..))
  | fieldlinkMiss => exact .inl (.inr (.inr (.inr (.inl rfl))))
  | fullCopyRequest => exact .inr (low_of_keeps low (execFullCopyRequest_keeps ..))
  | fullCopyComplete => exact .inr (low_of_keeps low (execFullCopyComplete_keeps ..))
  | selfTest => exact .inr (execSelfTest_low low ..)
  | plannedHandoffBoundary => exact .inr (execPlannedHandoffBoundary_low low)
  | handoffFail => exact .inl (.inr (.inr (.inr (.inr (.inr rfl)))))
  | takeback => exact .inr (low_of_keeps low (execTakeback_keeps ..))
  | sensePathOpen => exact .inr (low_of_keeps low (execSensePathOpen_keeps ..))
  | portLinkUp => exact .inr (low_of_keeps low (execPortLinkUp_keeps ..))
  | portLinkDown => exact .inr (low_of_keeps low (execPortLinkDown_keeps ..))
  | frameReceived => exact .inr (low_of_keeps low (execFrameReceived_keeps ..))
  | frameTransmitEnd => exact .inr (low_of_keeps low (execFrameTransmitEnd_keeps ..))
  | addressAgeOut => exact .inr (low_of_keeps low (execAddressAgeOut_keeps ..))
  | lpiEntry => exact .inr (low_of_keeps low (execLpiEntry_keeps ..))
  | speedStepDown => exact .inr (low_of_keeps low (execSpeedStepDown_keeps ..))
  | speedStepUp => exact .inr (low_of_keeps low (execSpeedStepUp_keeps ..))
  | filterApply => exact .inr (low_of_keeps low (execFilterApply_keeps ..))
  | announceRx => exact .inr (low_of_keeps low (execAnnounceRx_keeps ..))
  | syncRx => exact .inr (low_of_keeps low (execSyncRx_keeps ..))
  | followUpRx => exact .inr (low_of_keeps low (execFollowUpRx_keeps ..))
  | delayRespRx => exact .inr (low_of_keeps low (execDelayRespRx_keeps ..))
  | delayReqSend => exact .inr (low_of_keeps low (execDelayReqSend_keeps ..))
  | masterLost => exact .inr (low_of_keeps low (execMasterLost_keeps ..))
  | stationReq => exact .inr (low_of_keeps low (execStationReq_keeps ..))
  | stationRsp => exact .inr (low_of_keeps low (execStationRsp_keeps ..))
  | stationTimeout => exact .inr (low_of_keeps low (execStationTimeout_keeps ..))
  | stationEnable => exact .inr (low_of_keeps low (execStationEnable_keeps ..))
  | stepLockEnd => exact .inr (low_of_keeps low (execStepLockEnd_keeps ..))
  | sealChange => exact .inr (low_of_keeps low (execSealChange_keeps ..))
  | cartridgeRun => exact .inr (low_of_keeps low (execCartridgeRun_keeps ..))
  | cartridgeCycle => exact .inr (low_of_keeps low (execCartridgeCycle_keeps ..))
  | closeStrobe => exact .inr (low_of_keeps low (execCloseStrobe_keeps ..))
  | autoClose => exact .inr (low_of_keeps low (execAutoClose_keeps ..))
  | temperatureReading => exact .inr (low_of_keeps low (execTemperatureReading_keeps ..))
  | pulseOutput => exact .inr (low_of_keeps low (execPulseOutput_keeps ..))
  | periodicSave => exact .inr (low_of_keeps low (execPeriodicSave_keeps ..))
  | supplyLoss => exact .inr (low_of_keeps low (execSupplyLoss_keeps ..))
  | cartridgeSupplyDip => exact .inr (low_of_keeps low (execCartridgeSupplyDip_keeps ..))
  | readLog => exact .inr (low_of_keeps low (execReadLog_keeps ..))
  | readInterval => exact .inr (low_of_keeps low (execReadInterval_keeps ..))
  | setTenant => exact .inr (low_of_keeps low (execSetTenant_keeps ..))
  | readParam => exact .inr (low_of_keeps low (execReadParam_keeps ..))
  | showCheck => exact .inr (low_of_keeps low (execShowCheck_keeps ..))
  | showCheckEnd => exact .inr (low_of_keeps low (execShowCheckEnd_keeps ..))
  | paramStage => exact .inr (low_of_keeps low (execParamStage_keeps ..))
  | paramCommit => exact .inr (low_of_keeps low (execParamCommit_keeps ..))
  | paramDiscard => exact .inr (low_of_keeps low (execParamDiscard_keeps ..))
  | setMeterId => exact .inr (low_of_keeps low (execSetMeterId_keeps ..))
  | doorCommandDone => exact .inr (low_of_keeps low (execDoorCommandDone_keeps ..))
  | rtcHalt => exact .inr (low_of_keeps low (execRtcHalt_keeps ..))
  | rtcResume => exact .inr (low_of_keeps low (execRtcResume_keeps ..))
  | rtcResumeAdd => exact .inr (low_of_keeps low (execRtcResumeAdd_keeps ..))
  | rtcCountWrite => exact .inr (low_of_keeps low (execRtcCountWrite_keeps ..))
  | rtcCdWrite => exact .inr (low_of_keeps low (execRtcCdWrite_keeps ..))
  | cdExpired => exact .inr (low_of_keeps low (execCdExpired_keeps ..))
  | oscStop => exact .inr (low_of_keeps low (execOscStop_keeps ..))
  | retentionLost => exact .inr (low_of_keeps low (execRetentionLost_keeps ..))
  | batteryMeasure => exact .inr (low_of_keeps low (execBatteryMeasure_keeps ..))
  | batteryMeasureDone => exact .inr (low_of_keeps low (execBatteryMeasureDone_keeps ..))
  | optimeSave => exact .inr (low_of_keeps low (execOptimeSave_keeps ..))
  | recordWrite => exact .inr (low_of_keeps low (execRecordWrite_keeps ..))
  | recordDrop => exact .inr (low_of_keeps low (execRecordDrop_keeps ..))
  | rngVerHost => exact .inr (low_of_keeps low (execRngVerHost_keeps ..))
  | ringEnable => exact .inr (low_of_keeps low (execRingEnable_keeps ..))
  | ringDisable => exact .inr (low_of_keeps low (execRingDisable_keeps ..))
  | sqTail => exact .inr (low_of_keeps low (execSqTail_keeps ..))
  | cqHead => exact .inr (low_of_keeps low (execCqHead_keeps ..))
  | descriptorFetch => exact .inr (low_of_keeps low (execDescriptorFetch_keeps ..))
  | descriptorCommit => exact .inr (execDescriptorCommit_low low ..)
  | dmaTimeout => exact .inr (low_of_keeps low (execDmaTimeout_keeps ..))
  | interruptTimer => exact .inr (low_of_keeps low (execInterruptTimer_keeps ..))
  | functionLevelReset => exact .inr (low_of_keeps low (execFunctionLevelReset_keeps ..))
  | busMasterDisable => exact .inr (low_of_keeps low (execBusMasterDisable_keeps ..))
  | eventLost => exact .inr (low_of_keeps low (execEventLost_keeps ..))
  | watchReport => exact .inr (low_of_keeps low (execWatchReport_keeps ..))
  | glbPartCommit => exact .inr (low_of_keeps low (execGlbPartCommit_keeps ..))
  | lcRequest => exact .inr (low_of_keeps low (execLcRequest_keeps ..))
  | remask => exact .inr (low_of_keeps low (execRemask_keeps ..))
  | entropyFail => exact .inr (low_of_keeps low (execEntropyFail_keeps ..))
  | entropyRecover => exact .inr (low_of_keeps low (execEntropyRecover_keeps ..))
  | updFrag => exact .inr (low_of_keeps low (execUpdFrag_keeps ..))
  | updReport => exact .inr (low_of_keeps low (execUpdReport_keeps ..))
  | updateVerifyDone => exact .inr (low_of_keeps low (execUpdateVerifyDone_keeps ..))
  | install => exact .inr (execInstall_low low ..)
  | fallback => exact .inr (execFallback_low low)
  | cartInstall => exact .inr (low_of_keeps low (execCartInstall_keeps ..))
  | cartSoftwareDone => exact .inr (low_of_keeps low (execCartSoftwareDone_keeps ..))
  | trialTimeExpiry => exact .inr (execTrialTimeExpiry_low low)
  | fallbackHandoffRetry => exact .inr (execFallbackHandoffRetry_low low)
  | nop | fence | resume | ptRead | ptWrite | ptWatchAdd | ptWatchRemove | rioRead | rioWrite | cfgWrite | cfgRead
  | ctrlStop | ctrlRestart | ctrlRestartCold | ctrlTaskStart | ctrlReset | imgLoad | imgActivate | imgCancel
  | instRead | instWrite | forceSet | forceRelease | forceList | timed | handoffReq | mtrReadSet | mtrReadInterval
  | mtrReadLog | mtrReadParam | mtrSetTenant | recRead | keyGen | keyDerive | keyInvalidate | keyAttest | keyEnrol
  | aeadEncrypt | aeadDecrypt | sign | keyInfo | canTx | canRx | canRecover | ethTx | ethRxPost | updChunk
  | updStatus | updConfirm | updAbort => exact .inr (submit_leavesLow low ..)

/-- Settles O50: a command that does not give the ball leaves a low line low, and what closes a command does not raise it. -/
theorem holdLineRisesOnlyByBallCommands : Obligations.HoldLineRisesOnlyByBallCommands := by
  unfold Obligations.HoldLineRisesOnlyByBallCommands
  intro c s t ht low high
  refine (exec_leavesLow low c).resolve_right ?_
  rintro ⟨u, hu, stays⟩
  obtain rfl : close s u = t := Host.Outcome.next.inj (hu.symm.trans ht)
  exact Bool.false_ne_true ((stays.close s).symm.trans high)

end Sys2Proof.Proofs
end

section
/-! SUPPORT. The registers of the pair's events, and the terminals under the hold lines (R217, R460, R486, R497): what of the
registers and of the controller these operations move. -/

namespace Sys2Proof.Proofs

set_option Elab.async false

open Machine Laws

/-! ### Events of the pair (R497) -/

/-- Of the registers only TWN_EVENT moved, and the bits that were set there stand. -/
structure OnlyTells (s t : State) : Prop where
  others : ∀ o, o ≠ oTwnEvent → rget t o = rget s o
  stays : ∀ i, bitOf (rget s oTwnEvent) i = true → bitOf (rget t oTwnEvent) i = true

section
variable {may : List Piece} {s t u : State}

theorem onlyTells_kept (k : Keeps may s t) (hp : Piece.regs ∉ may := by decide) : OnlyTells s t :=
  ⟨fun o _ => k.rget hp o, fun _ h => (k.rget hp oTwnEvent).symm ▸ h⟩

theorem OnlyTells.refl : OnlyTells s s := ⟨fun _ _ => rfl, fun _ h => h⟩

theorem OnlyTells.trans (h : OnlyTells s t) (g : OnlyTells t u) : OnlyTells s u :=
  ⟨fun o ho => (g.others o ho).trans (h.others o ho), fun i set => g.stays i (h.stays i set)⟩

theorem OnlyTells.upd (h : OnlyTells s t) (e : u.regs = t.regs := by rfl) : OnlyTells s u := by
  have same (o : Nat) : rget u o = rget t o := by rw [rget, e, rget]
  exact ⟨fun o ho => (same o).trans (h.others o ho), fun i set => (same oTwnEvent).symm ▸ h.stays i set⟩

theorem OnlyTells.ite {c : Prop} [Decidable c] (h : OnlyTells s t) (g : OnlyTells s u) : OnlyTells s (if c then t else u) := by
  split <;> assumption

end

section
variable (s : State)

theorem rget_twnEvent (bit o : Nat) :
    rget (twnEvent s bit) o = if o = oTwnEvent then rget s oTwnEvent ||| oneBit bit else rget s o := rget_raiseBoth ..

theorem twnEvent_told {bit : Nat} (h : bit < 32) : bitOf (rget (twnEvent s bit) oTwnEvent) bit = true := by
  rw [rget_twnEvent, if_pos rfl, bitOf_or_oneBit _ _ h]

theorem twnEvent_onlyTells (bit : Nat) : OnlyTells s (twnEvent s bit) := by
  refine ⟨fun o ho => ?_, fun i set => ?_⟩
  · rw [rget_twnEvent, if_neg ho]
  · rw [rget_twnEvent, if_pos rfl, bitOf_or, set, Bool.true_or]

theorem healthEvent_onlyTells : OnlyTells s (healthEvent s) := by
  unfold healthEvent
  exact .ite ⟨fun o _ => rget_regEvent .., fun _ set => (rget_regEvent ..).symm ▸ set⟩ (twnEvent_onlyTells ..)

/-- A change of health is told, and TWN_EVENT shows it (R481, R497). -/
theorem healthEvent_told : bitOf (rget (healthEvent s) oTwnEvent) 7 = true := by
  unfold healthEvent
  split
  · rename_i set
    rw [rget_regEvent, set]
  · exact twnEvent_told s (by decide)

theorem putPeer_onlyTells (h : Word) : OnlyTells s (putPeer s h) := by
  have put : OnlyTells s { s with twn := { s.twn with peer := h } } := OnlyTells.refl.upd
  exact .ite .refl (put.trans (healthEvent_onlyTells _))

theorem updateSync_onlyTells : OnlyTells s (updateSync s) := by
  unfold updateSync
  refine .ite (onlyTells_kept (refreshPair_keeps s)) ?_
  extract_lets +onlyGivenNames -merge -useContext _ _ _ x0 _ x1
  have h0 : OnlyTells s x0 := OnlyTells.refl.upd
  have lost : OnlyTells s { x0 with twn := { x0.twn with copied := false, asked := false } } := h0.upd
  have h1 : OnlyTells s x1 :=
    .ite (lost.trans (twnEvent_onlyTells ..)) (.ite (h0.trans (twnEvent_onlyTells ..)) h0)
  exact h1.trans (onlyTells_kept (refreshPair_keeps x1))

theorem pathAlarm_onlyTells (tl : Bool) : OnlyTells s (pathAlarm s tl) := by
  unfold pathAlarm
  extract_lets w
  have tlRaised : OnlyTells s { s with twn := { w with alarmTl := true } } := OnlyTells.refl.upd
  have flRaised : OnlyTells s { s with twn := { w with alarmFl := true } } := OnlyTells.refl.upd
  exact .ite (.ite (tlRaised.trans (twnEvent_onlyTells ..)) .refl) (.ite (flRaised.trans (twnEvent_onlyTells ..)) .refl)

theorem missTl_onlyTells : OnlyTells s (missTl s) := OnlyTells.trans OnlyTells.refl.upd (pathAlarm_onlyTells _ true)

theorem missFl_onlyTells : OnlyTells s (missFl s) := OnlyTells.trans OnlyTells.refl.upd (pathAlarm_onlyTells _ false)

end

/-! ### The terminals (R217, R251, R460) -/

theorem forAll_invariant_mem {α : Type} {I : State → Prop} {g : State → α → State} {s : State} {l : List α} (h : I s)
    (step : ∀ u, ∀ a ∈ l, I u → I (g u a)) : I (forAll l g s) := by
  unfold forAll
  induction l generalizing s with
  | nil => exact h
  | cons a l ih => exact ih (step s a List.mem_cons_self h) fun u b hb => step u b (List.mem_cons_of_mem a hb)

/-- Of the registers only diagnostic latches moved, and the controller stands. -/
structure OnTerminals (s t : State) : Prop where
  regs : ∀ o, (∀ c, o ≠ oLatch c) → rget t o = rget s o
  ble : t.ble = s.ble

section
variable {may : List Piece} {s t u : State}

theorem OnTerminals.refl : OnTerminals s s := ⟨fun _ _ => rfl, rfl⟩

theorem OnTerminals.trans (h : OnTerminals s t) (g : OnTerminals t u) : OnTerminals s u :=
  ⟨fun o ho => (g.regs o ho).trans (h.regs o ho), g.ble.trans h.ble⟩

theorem OnTerminals.keep (h : OnTerminals s t) (k : Keeps may t u) (hr : Piece.regs ∉ may := by decide)
    (hb : Piece.ble ∉ may := by decide) : OnTerminals s u :=
  h.trans ⟨fun o _ => k.rget hr o, k.ble_eq hb⟩

theorem OnTerminals.ite {c : Prop} [Decidable c] (h : OnTerminals s t) (g : OnTerminals s u) :
    OnTerminals s (if c then t else u) := by split <;> assumption

end

section
variable (s : State)

/-- A point below those of the program's variables is no business of the controller's. -/
theorem notePoint_ble {id : Nat} (h : id < 0x1800) : (notePoint s id).ble = s.ble := by
  unfold notePoint
  rw [if_neg (show ¬ 0x1800 ≤ id by omega)]
  split
  · dsimp only
    split <;> rfl
  · rfl

theorem pset_ble {id : Nat} (h : id < 0x1800) (v : Word) : (pset s id v).ble = s.ble := by
  unfold pset
  extract_lets t
  split
  · rfl
  · exact notePoint_ble t h

theorem failValue_ble {c : Nat} (h : c < 192) : (failValue s c).ble = s.ble := by
  unfold failValue
  split
  · exact pset_ble s (by omega) _
  · exact pset_ble s (by omega) _
  · rfl

theorem putDiag_onTerminals {c : Nat} (h : c < 192) (w : Word) : OnTerminals s (putDiag s c w) := by
  refine ⟨fun o ho => (putDiag_onChannels s c w).rget ho, ?_⟩
  unfold putDiag
  extract_lets +onlyGivenNames -merge -useContext _ _ _ x0 x1 x2
  have h2 : x2.ble = s.ble := ((latchRise_keeps ..).ble_eq (by decide)).trans (pset_ble x0 (by omega) _)
  split
  · exact (failValue_ble x2 h).trans h2
  · exact h2

theorem redoStage_redoDiag_onTerminals {c : Nat} (h : c < 192) : OnTerminals s (redoDiag (redoStage s c) c) :=
  (OnTerminals.refl.keep (redoStage_keeps ..)).trans (putDiag_onTerminals _ h _)

theorem lt_of_mem_bankChans {b c : Nat} (hb : b < 12) (hc : c ∈ bankChans b) : c < 192 := by
  obtain ⟨i, hi, rfl⟩ := mem_bankChans.mp hc
  omega

theorem stopDriving_onTerminals {b : Nat} (hb : b < 12) : OnTerminals s (stopDriving s b) := by
  refine forAll_invariant_mem .refl fun u c hc h => ?_
  extract_lets x0
  have h0 : OnTerminals s x0 := .ite (((h.keep (setB_keeps ..)).keep (setB_keeps ..)).keep (setB_keeps ..)) h
  exact h0.trans (redoStage_redoDiag_onTerminals x0 (lt_of_mem_bankChans hb hc))

theorem bankHold_onTerminals {b : Nat} (hb : b < 12) (ownRise peerRise : Bool) :
    OnTerminals s (bankHold s b ownRise peerRise) := by
  unfold bankHold
  extract_lets +onlyGivenNames _ _ _ x0
  have h0 : OnTerminals s x0 := OnTerminals.refl.keep (setBank_keeps ..)
  have driven : OnTerminals s (forAll (bankChans b) (fun s c => redoDiag (redoStage s c) c) x0) :=
    forAll_invariant_mem h0 fun u c hc h => h.trans (redoStage_redoDiag_onTerminals u (lt_of_mem_bankChans hb hc))
  exact .ite h0 (.ite driven (h0.trans (stopDriving_onTerminals x0 hb)))

/-- New levels of the hold lines reach the terminals, and beside the base nothing else (R460). -/
theorem setHold_onTerminals (own peer : Bool) : OnTerminals s (setHold s own peer) := by
  unfold setHold
  extract_lets +onlyGivenNames -merge -useContext _ _ _ x0
  have h0 : OnTerminals s x0 := ⟨fun _ _ => rfl, rfl⟩
  exact forAll_invariant_mem h0 fun u b hb h => h.trans (bankHold_onTerminals u (List.mem_range.mp hb) _ _)

theorem takeInput_onTerminals {c : Nat} (h : c < 192) : OnTerminals s (takeInput s c) := by
  unfold takeInput
  refine .ite .refl ?_
  split
  · rename_i v d _
    have diag := putDiag_onTerminals s h (setBit (setFld (chan s c).diag 19 17 (fld d 19 17)) 20 true)
    exact ⟨fun o ho => ((pset_keeps ..).rget (by decide) o).trans (diag.regs o ho), (pset_ble _ (by omega) v).trans diag.ble⟩
  · exact putDiag_onTerminals s h _

end

/-- The register is no channel's latch and holds no bank's events. -/
structure OffTerminals (o : Nat) : Prop where
  latch : ∀ c, o ≠ oLatch c
  event : ∀ b, o ≠ oBank b + 0x18

theorem offTerminals_twnEvent : OffTerminals oTwnEvent :=
  ⟨fun c => by unfold oTwnEvent oLatch oChan oBank; omega, fun b => by unfold oTwnEvent oBank; omega⟩

theorem offTerminals_startStatus : OffTerminals oStartStatus :=
  ⟨fun c => by unfold oStartStatus oLatch oChan oBank; omega, fun b => by unfold oStartStatus oBank; omega⟩

theorem followStop_rget (s : State) {o : Nat} (off : OffTerminals o) : rget (followStop s) o = rget s o := by
  unfold followStop
  split
  · exact (allDrop_keeps ..).rget (by decide) o
  · exact allCause_rget s 5 off.latch off.event

/-- On a standby the stop of the controller asks nothing of the banks (R205). -/
theorem followStop_of_standby {s : State} (h : s.twn.role = 2) : followStop s = allDrop s 5 :=
  if_pos (by simp [isStandby, h])

end Sys2Proof.Proofs
end

section
/-! SUPPORT. The ball taken and lost (R459, R463, R476, R482 to R489, R496): what a takeover, the loss of the ball and a declared
failure leave. -/

namespace Sys2Proof.Proofs

set_option Elab.async false

open Machine Laws

/-! ### The hardware's grant (R459, R463) -/

section
variable {s t : State} {tie : Bool}

theorem grants_congr (base : t.base = s.base) (clk : t.clk = s.clk) (lease : t.twn.leaseExp = s.twn.leaseExp)
    (status : rget t oStartStatus = rget s oStartStatus) : grants t tie = grants s tie := by
  simp only [grants, seatedNow, haltedMod, stage, rfld, onTwin, base, clk, lease, status]

/-- On a twin base the line is granted only while the partner's is low. -/
theorem holdIn_of_grants (granted : grants s tie = true) (twin : onTwin s = true) : s.base.holdIn = false := by
  simp [grants, twin] at granted
  exact granted.2.1.1

/-- What is granted stands: hardware lets a granted line be while the partner's is low (R35, R36, R130, R146, R148). -/
theorem holdMay_of_granted (granted : grants s tie = true) (peer : s.base.holdIn = false)
    (base : t.base = { s.base with holdOut := true }) (clk : t.clk = s.clk)
    (status : rget t oStartStatus = rget s oStartStatus) : holdMay t = true := by
  simp only [grants, Bool.and_eq_true] at granted
  obtain ⟨⟨⟨⟨seated, running⟩, alive⟩, wait⟩, -⟩ := granted
  simp only [seatedNow, Bool.and_eq_true] at seated
  simp only [haltedMod, stage, rfld] at running
  simp [holdMay, seatedNow, haltedMod, stage, rfld, base, clk, status, running, alive, wait, peer, seated]

end

/-! ### A takeover (R482, R485 to R489) -/

/-- The module has taken the ball: the line, its place in the pair, the lease, and the event; the rally paths as before. -/
structure TakenOver (cause start : Nat) (s t : State) : Prop where
  base : t.base = { s.base with holdOut := true }
  clk : t.clk = s.clk
  timed : t.phc.timed = []
  role : t.twn.role = 1
  cause : t.twn.cause = cause
  count : t.twn.count = (s.twn.count + 1) % 65536
  lease : t.twn.lease = 3
  start : t.twn.from_ = start
  rally : tallies t.twn = tallies s.twn
  regs : ∀ o, OffTerminals o → rget t o = if o = oTwnEvent then rget s oTwnEvent ||| oneBit 0 else rget s o

section
variable {may : List Piece} {cause start : Nat} {s t u : State}

/-- What follows a takeover without touching the pair, the registers, the clock or the line. -/
theorem TakenOver.keep (h : TakenOver cause start s t) (k : Keeps may t u)
    (hp : ∀ p ∈ [Piece.base, .hold, .clk, .phc, .twn, .regs], p ∉ may := by decide) : TakenOver cause start s u where
  base := (k.base_eq (hp _ (by decide)) (hp _ (by decide))).trans h.base
  clk := (k.clk_eq (hp _ (by decide))).trans h.clk
  timed := (congrArg Phc.timed (k.phc_eq (hp _ (by decide)))).trans h.timed
  role := (congrArg Twn.role (k.twn_eq (hp _ (by decide)))).trans h.role
  cause := (congrArg Twn.cause (k.twn_eq (hp _ (by decide)))).trans h.cause
  count := (congrArg Twn.count (k.twn_eq (hp _ (by decide)))).trans h.count
  lease := (congrArg Twn.lease (k.twn_eq (hp _ (by decide)))).trans h.lease
  start := (congrArg Twn.from_ (k.twn_eq (hp _ (by decide)))).trans h.start
  rally := (congrArg tallies (k.twn_eq (hp _ (by decide)))).trans h.rally
  regs := fun o off => (k.rget (hp _ (by decide)) o).trans (h.regs o off)

/-- What a takeover starts from is the line, the clock, the bookkeeping and the registers. -/
theorem TakenOver.before (h : TakenOver cause start u t) (base : u.base = s.base) (clk : u.clk = s.clk) (twn : u.twn = s.twn)
    (regs : u.regs = s.regs) : TakenOver cause start s t where
  base := base ▸ h.base
  clk := clk ▸ h.clk
  timed := h.timed
  role := h.role
  cause := h.cause
  count := twn ▸ h.count
  lease := h.lease
  start := h.start
  rally := twn ▸ h.rally
  regs := fun o off => by
    have same (o : Nat) : rget s o = rget u o := by rw [rget, rget, regs]
    rw [h.regs o off, same, same]

/-- A holder's synchronisation is its pair state alone. -/
theorem TakenOver.updateSync (h : TakenOver cause start s t) : TakenOver cause start s (updateSync t) := by
  rw [updateSync_of_role t (by rw [h.role]; decide)]
  exact ⟨h.base, h.clk, h.timed, h.role, h.cause, h.count, h.lease, h.start, h.rally, h.regs⟩

theorem TakenOver.told (h : TakenOver cause start s t) : bitOf (rget t oTwnEvent) 0 = true := by
  rw [h.regs _ offTerminals_twnEvent, if_pos rfl, bitOf_or_oneBit _ _ (by decide)]

/-- A bit of TWN_EVENT that a takeover finds set stands. -/
theorem TakenOver.stays (h : TakenOver cause start s t) {i : Nat} (set : bitOf (rget s oTwnEvent) i = true) :
    bitOf (rget t oTwnEvent) i = true := by
  rw [h.regs _ offTerminals_twnEvent, if_pos rfl, bitOf_or, set, Bool.true_or]

/-- A granted takeover asserts HOLD_OUT, and hardware lets it stand. -/
theorem TakenOver.line (h : TakenOver cause start s t) (r : State) {tie : Bool} (granted : grants s tie = true)
    (peer : s.base.holdIn = false) : (close r t).base.holdOut = true := by
  have status : rget t oStartStatus = rget s oStartStatus := (h.regs _ offTerminals_startStatus).trans (if_neg (by decide))
  rw [close_holdOut, holdMay_of_granted granted peer h.base h.clk status, h.base]
  rfl

end

section
variable (s : State)

theorem takeover_spec (cause start : Nat) (planned : Bool) : TakenOver cause start s (takeover s cause start planned) := by
  unfold takeover
  extract_lets +onlyGivenNames -merge -useContext x0 _ _ _ _ _ _ x1 _ x2 x3 x4 _ x5 x6 x7 _ x8
  have k0 : Keeps setHold_may s x0 := setHold_keeps ..
  have k2 : Keeps [.regs, .pts, .banks, .ch, .evq, .can, .ble]
      { x1 with phc := { x1.phc with steer := if x1.phc.st = 4 then x1.phc.steer else 0 } } x2 := followStop_keeps _
  have k3 : Keeps [.regs, .pts, .ch, .evq, .can, .ble] x2 x3 := .forAll (.refl _ _) fun _ _ h => h.trans (takeInput_keeps ..)
  have k4 : Keeps [.banks, .ch, .out] x3 x4 := .forAll (.refl _ _) fun _ _ h => .ite h (h.trans (sendOutput_keeps ..))
  have k5 : Keeps [.rings, .msixPend, .out] x4 x5 :=
    .forAll (.refl _ _) fun _ _ h => (h.trans (haltRing_keeps ..)).step (modRing_keeps ..) (by decide)
  have k7 : Keeps [.rings, .evq, .msixPend, .out] x4 x7 :=
    ((k5.mono (by decide)).step (handoffRecords_keeps ..) (by decide)).step (timeEvent_keeps ..) (by decide)
  have k : Keeps [.regs, .pts, .banks, .ch, .rings, .evq, .msixPend, .can, .ble, .out]
      { x1 with phc := { x1.phc with steer := if x1.phc.st = 4 then x1.phc.steer else 0 } } x7 :=
    (((k2.mono (by decide)).step k3 (by decide)).step k4 (by decide)).step k7 (by decide)
  have inputs {o : Nat} (off : OffTerminals o) : rget x3 o = rget x2 o :=
    forAll_invariant_mem (I := fun u => rget u o = rget x2 o) rfl fun u c hc h =>
      ((takeInput_onTerminals u (List.mem_range.mp hc)).regs o off.latch).trans h
  have regs1 : x1.regs = x0.regs := rfl
  have regs {o : Nat} (off : OffTerminals o) : rget x7 o = rget s o :=
    calc rget x7 o = rget x4 o := k7.rget (by decide) o
      _ = rget x3 o := k4.rget (by decide) o
      _ = rget x2 o := inputs off
      _ = rget x1 o := followStop_rget _ off
      _ = rget x0 o := by rw [rget, rget, regs1]
      _ = rget s o := (setHold_onTerminals s true s.base.holdIn).regs o off.latch
  obtain ⟨same, base8, clk8, twn8⟩ :
      (∀ o, rget x8 o = rget x7 o) ∧ x8.base = x7.base ∧ x8.clk = x7.clk ∧ x8.twn = x7.twn := by
    clear_value x7
    exact ⟨fun _ => rfl, rfl, rfl, rfl⟩
  have base : x8.base = { s.base with holdOut := true } :=
    (base8.trans (k.base_eq (by decide) (by decide))).trans (setHold_base s true s.base.holdIn)
  have clk : x8.clk = s.clk := (clk8.trans (k.clk_eq (by decide))).trans (k0.clk_eq (by decide))
  have twn : x8.twn = x1.twn := twn8.trans (k.twn_eq (by decide))
  have before : x0.twn = s.twn := k0.twn_eq (by decide)
  have told : (twnEvent x8 0).twn = x1.twn := (twnEvent_twn x8 0).trans twn
  have count : x1.twn.count = (s.twn.count + 1) % 65536 := congrArg (fun w : Twn => (w.count + 1) % 65536) before
  have rally : tallies x1.twn = tallies s.twn := (congrArg tallies before :)
  refine ⟨?_, ?_, ?_, ?_, ?_, ?_, ?_, ?_, ?_, fun o off => ?_⟩
  · exact (twnEvent_base x8 0).trans base
  · exact (twnEvent_clk x8 0).trans clk
  · exact congrArg Phc.timed (twnEvent_phc x8 0)
  · exact congrArg Twn.role told
  · exact congrArg Twn.cause told
  · exact (congrArg Twn.count told).trans count
  · exact congrArg Twn.lease told
  · exact congrArg Twn.from_ told
  · exact (congrArg tallies told).trans rally
  · rw [(refreshPair_keeps _).rget (by decide), rget_twnEvent, same, same, regs off, regs offTerminals_twnEvent]

/-- An unsynchronised take is a takeover with cause 6, and where the start-up says so a start of the program (R149, R496). -/
theorem unsyncTake_spec : TakenOver 6 (absA s) s (unsyncTake s) := by
  unfold unsyncTake
  extract_lets +onlyGivenNames -merge -useContext _ x0
  have h0 : TakenOver 6 (absA s) s x0 := (takeover_spec ..).before rfl rfl rfl rfl
  clear_value x0
  split
  · exact h0
  · split
    · exact h0.keep (runController_keeps ..)
    · exact h0.keep (runController_keeps ..)
    · exact h0

/-! ### The ball lost (R119, R447, R489) -/

/-- The module has lost the ball: it is standby, and its timed actions, its passes and its task cycles are gone. -/
structure BallGone (s t : State) : Prop where
  role : t.twn.role = 2
  lease : t.twn.lease = s.twn.lease
  leaseExp : t.twn.leaseExp = s.twn.leaseExp
  timed : t.phc.timed = []
  cycles : t.ble.run = none ∧ t.ble.wait = []
  passes : t.lce.wait = [] ∧ t.lce.run = none
  told : bitOf (rget t oTwnEvent) 1 = true

theorem ballLost_spec (cause : Nat) : BallGone s (ballLost s cause) := by
  unfold ballLost
  extract_lets +onlyGivenNames -merge -useContext x0 x1 _ x2 rs x3 _ w0 w _ b
  have twn2 : x2.twn = s.twn :=
    ((completeAll_keeps ..).twn_eq (by decide)).trans
      (((failAct_keeps ..).twn_eq (by decide)).trans ((canBallLost_keeps s).twn_eq (by decide)))
  have records : Keeps [.evq] (twnEvent x2 1) x3 := handoffRecords_keeps ..
  have twn3 : x3.twn = s.twn := (records.twn_eq (by decide)).trans ((twnEvent_twn x2 1).trans twn2)
  have timed3 : x3.phc.timed = [] :=
    congrArg Phc.timed ((records.phc_eq (by decide)).trans ((twnEvent_phc x2 1).trans ((completeAll_keeps ..).phc_eq (by decide))))
  have told3 : bitOf (rget x3 oTwnEvent) 1 = true := by
    rw [records.rget (by decide)]
    exact twnEvent_told x2 (by decide)
  have leases : w.lease = s.twn.lease ∧ w.leaseExp = s.twn.leaseExp := ⟨(congrArg Twn.lease twn3 :), (congrArg Twn.leaseExp twn3 :)⟩
  rw [followStop_of_standby rfl]
  have dropped := allDrop_keeps { x3 with twn := w, lce := { x3.lce with wait := [], run := none }, ble := b } 5
  generalize allDrop { x3 with twn := w, lce := { x3.lce with wait := [], run := none }, ble := b } 5 = y at dropped
  have synced := updateSync_beyond y
  have twnY : y.twn = w := dropped.twn_eq (by decide)
  have bleY : (updateSync y).ble = b := ((updateSync_keeps y).ble_eq (by decide)).trans (dropped.ble_eq (by decide))
  have lceY : (updateSync y).lce = { x3.lce with wait := [], run := none } :=
    ((updateSync_keeps y).lce_eq (by decide)).trans (dropped.lce_eq (by decide))
  refine ⟨?_, ?_, ?_, ?_, ?_, ?_, ?_⟩
  · exact synced.role.trans (congrArg Twn.role twnY)
  · exact ((synced.reading Twn.lease).eq.trans (congrArg Twn.lease twnY)).trans leases.1
  · exact ((synced.reading Twn.leaseExp).eq.trans (congrArg Twn.leaseExp twnY)).trans leases.2
  · rw [(updateSync_keeps y).phc_eq (by decide), dropped.phc_eq (by decide)]
    exact timed3
  · rw [bleY]
    exact ⟨rfl, rfl⟩
  · rw [lceY]
    exact ⟨rfl, rfl⟩
  · refine (updateSync_onlyTells y).stays 1 ?_
    rw [dropped.rget (by decide)]
    exact told3

/-! ### A declared failure (R476, R477, R482, R483, R496) -/

/-- The standby's view of a holder that has failed, with the event of the declaration. -/
def declared : State := twnEvent { s with twn := { s.twn with partner := 0 } } 2

theorem declared_twn : (declared s).twn = { s.twn with partner := 0 } := twnEvent_twn ..

/-- A declaration leaves the grant as it was. -/
theorem declared_grants : grants (declared s) false = grants s false :=
  grants_congr (twnEvent_base ..) (twnEvent_clk ..) (congrArg Twn.leaseExp (declared_twn s) :)
    ((twnEvent_onlyTells ..).others _ (by decide))

theorem updateSync_tallies : PairStays tallies s (updateSync s) := (updateSync_beyond s).tallies

theorem goIsolated_tallies : PairStays tallies s (goIsolated s) := by
  have isolated : PairStays tallies s { s with twn := { s.twn with isolated := true } } := .of rfl
  exact (isolated.keepPair (twnEvent_keeps ..)).trans (refreshPair_duty _).beyondSync.tallies

theorem declareFailed_tallies : PairStays tallies s (declareFailed s) := by
  have failed : PairStays tallies s (declared s) := .of (congrArg tallies (declared_twn s) :)
  have synced : PairStays tallies s (updateSync (declared s)) := failed.trans (updateSync_tallies _)
  have alone := synced.trans (goIsolated_tallies _)
  exact .ite synced (.ite (.ite (failed.trans (.of (takeover_spec ..).rally)) alone)
    (.ite (.ite (failed.trans (.of (unsyncTake_spec _).rally)) alone) synced))

theorem declareCheck_tallies : PairStays tallies s (declareCheck s) := by
  unfold declareCheck
  extract_lets w
  have alone : PairStays tallies s { s with twn := { w with partner := 0, reason := 1 } } := .of rfl
  exact .ite .refl (.ite (declareFailed_tallies s) (.ite
    (((alone.keepPair (twnEvent_keeps ..)).trans (refreshPair_duty _).beyondSync.tallies).keepPair (partnerGone_keeps _)) .refl))

/-- As long as one path is good nothing is declared (R476). -/
theorem declareCheck_of_rally (h : s.twn.tlMiss < 4 ∨ s.twn.flMiss < 4) : declareCheck s = s := if_pos h

end

section
variable {s : State} (standby : s.twn.role = 2) (partner : s.twn.partner = 1) (rallied : s.twn.isolated = false)
  (synced : s.twn.reason = 0) (fit : bitOf s.twn.own 7 = false) (tl : 4 ≤ s.twn.tlMiss) (fl : 4 ≤ s.twn.flMiss)
  (granted : grants s false = true)
include standby partner rallied synced fit tl fl granted

/-- A synchronised standby that misses its holder on both paths takes the ball (R476, R482). -/
theorem declareCheck_takes : declareCheck s = takeover (declared s) 1 (absA s + 64) false := by
  have again : grants (declared s) false = true := (declared_grants s).trans granted
  have now : absA (declared s) = absA s := by rw [absA, declared, twnEvent_phc, absA]
  have take : declareFailed s = takeover (declared s) 1 (absA (declared s) + 64) false := by
    unfold declareFailed
    dsimp only
    rw [← declared, if_neg (by rw [declared_twn]; simp [fit]), if_pos (by simp [synced]), if_pos again]
  unfold declareCheck
  dsimp only
  rw [if_neg (by omega), if_pos ⟨standby, partner, by simp [rallied]⟩, take, now]

end

end Sys2Proof.Proofs
end

section
/-! Taking and losing the ball (R459 to R489, R496). -/

namespace Sys2Proof.Proofs

set_option Elab.async false

open Machine Laws

/-! ### What the commands come to -/

section
variable {s : State} {tie : Bool} (low : s.base.holdOut = false) (granted : grants s tie = true)
include low granted

theorem ballRequest_holder (holder : s.twn.role = 1) :
    exec (.ballRequest tie) s = done s (setHold s true s.base.holdIn) := by
  change execBallRequest tie s = _
  unfold execBallRequest
  rw [if_neg (by simp [low, granted]), if_pos holder]

theorem ballRequest_planned (standby : s.twn.role = 2) (fit : bitOf s.twn.own 7 = false) {p : Plan} (plan : s.twn.plan = some p)
    (out : p.out = true) :
    exec (.ballRequest tie) s = done s (takeover s p.cause (p.at_ * 4096 + 256) true) := by
  change execBallRequest tie s = _
  unfold execBallRequest
  rw [if_neg (by simp [low, granted]), if_neg (by omega), if_pos standby]
  simp only [plan, out, fit, Bool.not_false, Bool.and_self, if_true]

theorem ballRequest_alone (standby : s.twn.role = 2) (fit : bitOf s.twn.own 7 = false) (plan : s.twn.plan = none)
    (gone : s.twn.partner ≠ 1) (rallied : s.twn.isolated = false) (may : bitOf (rget s oTwnCtrl) 1 = true) :
    exec (.ballRequest tie) s = done s (unsyncTake s) := by
  change execBallRequest tie s = _
  unfold execBallRequest
  rw [if_neg (by simp [low, granted]), if_neg (by omega), if_pos standby]
  simp [plan, gone, fit, rallied, may]

end

section
variable {s : State} (twin : onTwin s = true)
include twin

theorem holdLineChange_follows {level : Bool} (idle : level = false ∨ s.twn.role ≠ 1) :
    exec (.holdLineChange level) s = done s (setHold s (s.base.holdOut && !level) level) := by
  change execHoldLineChange level s = _
  unfold execHoldLineChange
  have role : (setHold s (s.base.holdOut && !level) level).twn.role = s.twn.role :=
    congrArg Twn.role ((setHold_keeps ..).twn_eq (by decide))
  rw [if_neg (by simp [twin])]
  dsimp only
  rw [if_neg]
  rw [role]
  rcases idle with down | other
  · simp [down]
  · simp [other]

theorem holdLineChange_loses (holder : s.twn.role = 1) (plan : s.twn.plan = none) (held : s.base.holdOut = true) :
    exec (.holdLineChange true) s = done s (ballLost (setHold s false true) 0) := by
  change execHoldLineChange true s = _
  have twn : (setHold s false true).twn = s.twn := (setHold_keeps ..).twn_eq (by decide)
  unfold execHoldLineChange
  rw [if_neg (by simp [twin])]
  simp [held, twn, holder, plan]

theorem leaseExpiry_loses (held : s.base.holdOut = true) (fire : s.phc.fire = true) (lease : s.twn.lease = 0) :
    exec .leaseExpiry s =
      done s (ballLost (setHold { s with twn := { s.twn with leaseExp := true } } false s.base.holdIn) 0) := by
  change execLeaseExpiry s = _
  unfold execLeaseExpiry
  rw [if_pos (by simp [twin, held, fire, lease])]

theorem twinlinkCheck_misses (clock : clockRuns s = true) (role : s.twn.role ≠ 0) (due : absA s = s.twn.sampleA + 256)
    (missing : s.twn.tlHalf ≠ some (s.twn.sampleA / 2048)) :
    exec .twinlinkCheck s = done s (updateSync (declareCheck (missTl s))) := by
  change execTwinlinkCheck s = _
  unfold execTwinlinkCheck
  rw [if_pos (by simp [twin, clock, role, due, missing])]

theorem fieldlinkMiss_misses (role : s.twn.role ≠ 0) :
    exec .fieldlinkMiss s = done s (updateSync (declareCheck (missFl s))) := by
  change execFieldlinkMiss s = _
  unfold execFieldlinkMiss
  rw [if_pos (by simp [twin, role])]

end

/-! ### What they leave -/

theorem setHold_twn (s : State) (own peer : Bool) : (setHold s own peer).twn = s.twn := (setHold_keeps ..).twn_eq (by decide)

theorem BallGone.close {s t : State} (h : BallGone s t) (r : State) : BallGone s (close r t) := by
  obtain ⟨role, lease, leaseExp, timed, cycles, passes, told⟩ := h
  refine ⟨?_, ?_, ?_, ?_, ?_, ?_, ?_⟩ <;> simpa

theorem ballLost_base (s : State) (cause : Nat) : (ballLost s cause).base = s.base :=
  (ballLost_keeps s cause).base_eq (by decide) (by decide)

section
variable {s : State}

/-- What a standby lacks of synchronism is the first of the table that applies (R472). -/
theorem updateSync_reason (standby : s.twn.role = 2) : (updateSync s).twn.reason = syncReason s := by
  unfold updateSync
  rw [if_neg (not_not_intro standby)]
  extract_lets +onlyGivenNames -merge -useContext _ r _ x0 _ x1
  have h1 : x1.twn.reason = r := by
    change (if _ then _ else _ : State).twn.reason = r
    split
    · exact congrArg Twn.reason (twnEvent_twn ..)
    · split
      · exact congrArg Twn.reason (twnEvent_twn ..)
      · rfl
  exact ((refreshPair_duty x1).reading Twn.reason).eq.trans h1

/-- Without the Twinlink a standby lacks its partner or the link (R472). -/
theorem updateSync_lacks (standby : s.twn.role = 2) (down : s.twn.tlUp = false) :
    (updateSync s).twn.reason = 1 ∨ (updateSync s).twn.reason = 2 := by
  rw [updateSync_reason standby]
  unfold syncReason
  by_cases gone : s.twn.partner ≠ 1
  · exact .inl (if_pos gone)
  · exact .inr ((if_neg gone).trans (if_pos (by simp [down])))

end

/-- What of the pair decides on a takeover, beside the misses. -/
def standing (w : Twn) : (Nat × Nat × Bool) × Nat × Word × Bool := ((w.role, w.partner, w.isolated), w.reason, w.own, w.leaseExp)

theorem missTl_standing (s : State) : PairStays standing s (missTl s) := .of (congrArg standing (missTl_duty s) :)

theorem missFl_standing (s : State) : PairStays standing s (missFl s) := .of (congrArg standing (missFl_duty s) :)

section
variable {s m : State} (standby : s.twn.role = 2) (partner : s.twn.partner = 1) (rallied : s.twn.isolated = false)
  (synced : s.twn.reason = 0) (fit : bitOf s.twn.own 7 = false) (tl : 4 ≤ m.twn.tlMiss) (fl : 4 ≤ m.twn.flMiss)
  (granted : grants s false = true) (twin : onTwin s = true) (k : Keeps [.regs, .evq, .twn] s m) (told : OnlyTells s m)
  (stands : PairStays standing s m)
include standby partner rallied synced fit tl fl granted twin k told stands

/-- The miss that makes the fourth on the second path lets a synchronised standby take the ball (R476, R482). -/
theorem declareCheck_after_miss (r : State) :
    (close r (updateSync (declareCheck m))).twn.role = 1 ∧ (close r (updateSync (declareCheck m))).base.holdOut = true ∧
    (close r (updateSync (declareCheck m))).twn.cause = 1 ∧ (close r (updateSync (declareCheck m))).twn.from_ = absA s + 64 ∧
    bitOf (rget (close r (updateSync (declareCheck m))) oTwnEvent) 2 = true := by
  have read := stands.eq
  simp only [standing, Prod.mk.injEq] at read
  obtain ⟨⟨role, with_, isolated⟩, reason, own, lease⟩ := read
  have base : m.base = s.base := k.base_eq (by decide) (by decide)
  have now : absA m = absA s := by rw [absA, absA, k.phc_eq (by decide)]
  have again : grants m false = true := by
    rw [← granted]
    exact grants_congr base (k.clk_eq (by decide)) lease (told.others _ (by decide))
  have low : (declared m).base.holdIn = false := by
    rw [declared, twnEvent_base]
    exact (congrArg (·.holdIn) base).trans (holdIn_of_grants granted twin)
  have take : TakenOver 1 (absA m + 64) (declared m) (updateSync (declareCheck m)) := by
    rw [declareCheck_takes (by omega) (by omega) (by rw [isolated, rallied]) (by omega) (by rw [own, fit]) tl fl again]
    exact (takeover_spec ..).updateSync
  have failed : bitOf (rget (declared m) oTwnEvent) 2 = true := twnEvent_told _ (by decide)
  refine ⟨?_, take.line r ((declared_grants m).trans again) low, ?_, ?_, ?_⟩
  · rw [close_twn, take.role]
  · rw [close_twn, take.cause]
  · rw [close_twn, take.start, now]
  · rw [close_rget]
    exact take.stays failed

end

section
variable (s : State)

theorem check_tallies : PairStays tallies s (updateSync (declareCheck s)) :=
  (declareCheck_tallies s).trans (updateSync_tallies _)

end

/-- Settles O18: each command is the operation its clause names; a takeover is `takeover_spec`, the loss of the ball
`ballLost_spec`, and a declared failure moves no count of misses. -/
theorem ballCommandsEffects : Obligations.BallCommandsEffects := by
  intro s
  refine ⟨?_, ?_, ?_, ?_, ?_, ?_, ?_, ?_, ?_, ?_, ?_, ?_, ?_⟩
  · intro tie low peer granted holder
    refine completes (execBallRequest_keeps ..) (ballRequest_holder low granted holder) ⟨?_, ?_, ?_⟩
    · have status := (setHold_onTerminals s true s.base.holdIn).regs _ offTerminals_startStatus.latch
      have base : (setHold s true s.base.holdIn).base = { s.base with holdOut := true } := setHold_base ..
      rw [close_holdOut, holdMay_of_granted granted peer base ((setHold_keeps ..).clk_eq (by decide)) status, base]
      rfl
    · rw [close_twn, setHold_twn]
    · rw [close_ble, (setHold_onTerminals ..).ble]
  · intro tie low peer granted standby fit p plan out
    have taken := takeover_spec s p.cause (p.at_ * 4096 + 256) true
    refine completes (execBallRequest_keeps ..) (ballRequest_planned low granted standby fit plan out)
      ⟨taken.line s granted peer, ?_⟩
    simp [taken.role, taken.cause, taken.count, taken.lease, taken.start, taken.timed, taken.told]
  · intro tie low peer granted standby fit plan gone rallied may
    have taken := unsyncTake_spec s
    refine completes (execBallRequest_keeps ..) (ballRequest_alone low granted standby fit plan gone rallied may)
      ⟨taken.line s granted peer, ?_⟩
    simp [taken.role, taken.cause, taken.count, taken.lease, taken.told]
  · intro twin
    refine completes (execHoldLineChange_keeps ..) (holdLineChange_follows twin (.inl rfl)) ⟨?_, ?_, ?_⟩
    · rw [close_baseRest, baseRest, setHold_base, baseRest]
    · rw [close_twn, setHold_twn]
    · rw [close_ble, (setHold_onTerminals ..).ble]
  · intro twin holder plan held
    have gone := (ballLost_spec (setHold s false true) 0).close s
    have base : (ballLost (setHold s false true) 0).base = { s.base with holdOut := false, holdIn := true } :=
      (ballLost_base ..).trans (setHold_base ..)
    refine completes (execHoldLineChange_keeps ..) (holdLineChange_loses twin holder plan held)
      ⟨?_, ?_, gone.role, gone.timed, gone.cycles.1, gone.cycles.2, gone.passes.1, gone.passes.2, gone.told⟩
    · rw [close_holdIn, base]
    · rw [close_holdOut, base, Bool.false_and]
  · intro twin other
    refine completes (execHoldLineChange_keeps ..) (holdLineChange_follows twin (.inr other)) ⟨?_, ?_, ?_⟩
    · rw [close_holdIn, setHold_base]
    · rw [close_holdOut, setHold_base]
      simp
    · rw [close_twn, setHold_twn]
  · intro twin held fire lease
    have gone := (ballLost_spec (setHold { s with twn := { s.twn with leaseExp := true } } false s.base.holdIn) 0).close s
    have twn := setHold_twn { s with twn := { s.twn with leaseExp := true } } false s.base.holdIn
    refine completes (execLeaseExpiry_keeps ..) (leaseExpiry_loses twin held fire lease)
      ⟨?_, ?_, ?_, gone.role, gone.told⟩
    · rw [close_holdOut, ballLost_base, setHold_base, Bool.false_and]
    · rw [gone.leaseExp, twn]
    · rw [gone.lease, twn, lease]
  · intro twin low
    refine completes (execSensePathOpen_keeps s) (x := { s with twn := { s.twn with senseOpen := true } }) ?_ (close_twn ..)
    exact congrArg (done s) (if_pos (by simp [twin, low]))
  · intro up twin
    have beyond := updateSync_beyond { s with twn := { s.twn with tlUp := up } }
    refine completes (execTwinlinkLinkDown_keeps up s) (congrArg (done s) (if_pos twin)) ⟨?_, ?_, ?_⟩
    · rw [close_twn]
      exact (beyond.reading Twn.tlUp).eq
    · rw [close_twn, beyond.role]
    · intro down standby
      rw [close_twn]
      exact updateSync_lacks standby down
  · intro twin clock role due missing
    have counts := (check_tallies (missTl s)).eq.trans (congrArg tallies (missTl_duty s) :)
    simp only [tallies, duty, Prod.mk.injEq] at counts
    obtain ⟨⟨run, total⟩, -⟩ := counts
    refine completes (execTwinlinkCheck_keeps s) (twinlinkCheck_misses twin clock role due missing) ⟨?_, ?_⟩
    · rw [close_twn, total]
    · rw [close_twn, run]
  · intro twin clock due missing standby partner rallied synced fit tl fl granted
    have runs := congrArg tallies (missTl_duty s)
    simp only [tallies, duty, Prod.mk.injEq] at runs
    obtain ⟨⟨run, -⟩, other, -⟩ := runs
    have took := declareCheck_after_miss standby partner rallied synced fit (m := missTl s) (by omega) (by omega) granted twin
      (missTl_keeps s) (missTl_onlyTells s) (missTl_standing s) s
    exact completes (execTwinlinkCheck_keeps s) (twinlinkCheck_misses twin clock (by omega) due missing) took
  · intro twin role
    have counts := (check_tallies (missFl s)).eq.trans (congrArg tallies (missFl_duty s) :)
    simp only [tallies, duty, Prod.mk.injEq] at counts
    obtain ⟨-, run, total, up⟩ := counts
    refine completes (execFieldlinkMiss_keeps s) (fieldlinkMiss_misses twin role) ⟨?_, ?_, ?_⟩
    · rw [close_twn, total]
    · rw [close_twn, run]
    · rw [close_twn, up]
  · intro twin standby partner rallied synced fit tl fl granted
    have runs := congrArg tallies (missFl_duty s)
    simp only [tallies, duty, Prod.mk.injEq] at runs
    obtain ⟨⟨other, -⟩, run, -⟩ := runs
    obtain ⟨role, line, cause, start, -⟩ := declareCheck_after_miss standby partner rallied synced fit (m := missFl s) (by omega)
      (by omega) granted twin (missFl_keeps s) (missFl_onlyTells s) (missFl_standing s) s
    exact completes (execFieldlinkMiss_keeps s) (fieldlinkMiss_misses twin (by omega)) ⟨role, line, cause, start⟩

end Sys2Proof.Proofs
end
section
/-! SUPPORT. The frames between the two modules (R464, R468 to R478): what a frame sent and the items of a frame received leave of
the pair's bookkeeping, and of what was sent. -/

namespace Sys2Proof.Proofs

set_option Elab.async false

open Machine Laws

/-! ### Frames sent -/

section
variable (s : State)

theorem sendFrame_outGrows (b kind : Nat) (body : List Word) : OutGrows s (sendFrame s b kind body) := by
  unfold sendFrame
  extract_lets +onlyGivenNames _ x0
  exact (outGrows_kept (modBank_keeps ..) : OutGrows s x0).trans (emit_outGrows ..)

theorem sendOutput_outGrows (b : Nat) (presets : List (Nat × Word)) : OutGrows s (sendOutput s b presets) := by
  unfold sendOutput
  extract_lets +onlyGivenNames _ x0 x1
  have h0 : OutGrows s x0 := outGrows_kept (noteDrive_keeps ..)
  have h1 : OutGrows s x1 := h0.besides (modBank_keeps ..)
  exact h1.trans (sendFrame_outGrows ..)

theorem preload_outGrows (items : List CopyItem) : OutGrows s (preload s items) := by
  unfold preload
  extract_lets outs
  exact .forAll fun u b => .ite (sendOutput_outGrows ..) .refl

theorem sendCopy_outGrows (image : Bool) : s.out.length < (sendCopy s image).out.length := by
  unfold sendCopy
  dsimp only
  split <;> simp [emit]

theorem endLoads_outGrows (im : Image) : OutGrows s (endLoads s im) := completeAll_outGrows ..

/-- A state frame leaves with the next sequence number, renews the lease, and takes along what was noted for it (R464, R471). -/
structure FrameSent (t : State) : Prop where
  next : t.twn.seqTx = s.twn.seqTx + 1
  lease : t.twn.lease = 3
  role : t.twn.role = s.twn.role
  plan : t.twn.plan = s.twn.plan
  sample : t.twn.sampleA = s.twn.sampleA
  dirty : t.ble.dirty = []
  out : t.out.length = s.out.length + 1

theorem sendState_spec (final : Bool) : FrameSent s (sendState s final) := by
  unfold sendState
  extract_lets
  refine ⟨rfl, rfl, rfl, rfl, rfl, rfl, ?_⟩
  exact List.length_append

end

/-! ### Items received (R473, R478) -/

section
variable (s : State)

theorem noteMirror_duty (blk : Nat) : PairStays duty s (noteMirror s blk) := .of rfl

theorem releaseForces_duty (p : Force → Bool) (reason : Nat) : PairStays duty s (releaseForces s p reason) := by
  have released : PairStays duty s { s with forces := s.forces.filter (fun f => !p f) } := .of rfl
  refine released.forAll fun u f h => ?_
  have noted : PairStays duty u (noteForce u { f with kind := f.kind + 2 }) := .of rfl
  exact (h.trans noted).keepPair (pushEv_keeps ..)

theorem modeChanged_duty (c : Nat) : PairStays duty s (modeChanged s c) := by
  unfold modeChanged
  extract_lets +onlyGivenNames _ x0 x1 x2 _ x3
  have h0 : PairStays duty s x0 := pairStays_kept (pset_keeps ..)
  have h1 : PairStays duty s x1 := h0.keepPair (putSig_keeps ..)
  have h2 : PairStays duty s x2 := h1.keepPair (modChan_keeps ..)
  have h3 : PairStays duty s x3 := h2.keepPair (putDiag_keeps ..)
  exact .ite (h3.trans (releaseForces_duty ..)) h3

theorem lceApply_duty (shadow : Tab Word) : PairStays duty s (lceApply s shadow) := by
  unfold lceApply
  extract_lets +onlyGivenNames -merge -useContext _ x0 x1 _ x2 x3
  have h1 : PairStays duty s x1 := Stays.keepPair (.of rfl : PairStays duty s x0) (rset_keeps ..)
  have h2 : PairStays duty s x2 := h1.upd
  have h3 : PairStays duty s x3 := h2.forAll fun _ _ h => .ite h (h.keepPair (setLoop_keeps ..))
  exact (h3.keepPair (starvedCheck_keeps _)).trans (noteMirror_duty ..)

theorem bankApply_duty (b : Nat) : PairStays duty s (bankApply s b) := by
  unfold bankApply
  extract_lets +onlyGivenNames -merge -useContext _ x0 _ x1 x2
  have h1 : PairStays duty s x1 := Stays.keepPair (.of rfl : PairStays duty s x0) (rset_keeps ..)
  have h2 : PairStays duty s x2 := h1.forAll fun _ _ h => .ite h (h.trans (modeChanged_duty ..))
  exact (h2.keepPair (modBank_keeps ..)).trans (noteMirror_duty ..)

theorem applyMirror_duty (blk gen : Nat) (ws : List (Nat × Word)) : PairStays duty s (applyMirror s blk gen ws) := by
  unfold applyMirror
  have put {c : Nat × Word → Prop} [DecidablePred c] :
      PairStays duty s (forAll ws (fun u e => if c e then rset u e.1 e.2 else u) s) :=
    Stays.refl.forAll fun _ _ h => .ite (h.keepPair (rset_keeps ..)) h
  split
  · exact put
  · exact put.trans (refreshPair_duty _)
  · exact (((pairStays_kept (putShadow_keeps ..)).keepPair (phcApply_keeps _)).keepPair (starvedCheck_keeps _)).keepPair
      (putGen_keeps ..)
  · extract_lets +onlyGivenNames x0 x1
    have h0 : PairStays duty s x0 := pairStays_kept (putShadow_keeps ..)
    have h1 : PairStays duty s x1 := (h0.trans (lceApply_duty ..)).keepPair (putGen_keeps ..)
    exact h1.upd
  · exact .ite (((pairStays_kept (putShadow_keeps ..)).trans (bankApply_duty ..)).keepPair (putGen_keeps ..)) .refl

theorem takeInactive_duty (len ofs : Nat) (piece : List Nat) : PairStays duty s (takeInactive s len ofs piece) := by
  unfold takeInactive
  extract_lets +onlyGivenNames _
  refine .ite (.of rfl) ?_
  extract_lets +onlyGivenNames -merge -useContext _ x0
  have h0 : PairStays duty s x0 := .of rfl
  split
  · exact h0.upd
  · exact h0

/-- No item touches what a module is to its pair. -/
theorem applyItem_duty (i : CopyItem) : PairStays duty s (applyItem s i) := by
  unfold applyItem
  cases i with
  | data => exact pairStays_kept (takeData_keeps ..)
  | var => exact pairStays_kept (pset_keeps ..)
  | loop =>
    dsimp -zeta only
    extract_lets +onlyGivenNames x0 _ _
    have h0 : PairStays duty s x0 :=
      (((pairStays_kept (pset_keeps ..)).keepPair (pset_keeps ..)).keepPair (pset_keeps ..)).keepPair (pset_keeps ..)
    exact (h0.keepPair (pset_keeps ..)).keepPair (setLoop_keeps ..)
  | output => exact pairStays_kept (pset_keeps ..)
  | rio => exact .of rfl
  | input => exact .of rfl
  | count => exact .of rfl
  | force => exact .of rfl
  | unforce => exact .of rfl
  | forceClear => exact .of rfl
  | ring => exact .of rfl
  | retain => exact Stays.keepPair (Stays.upd .refl) (followSave_keeps ..)
  | mirror => exact applyMirror_duty ..
  | ctl => exact pairStays_kept (followCtl_keeps ..)
  | image => exact takeInactive_duty ..
  | switched => exact pairStays_kept (followSwitch_keeps ..)
  | active => exact Stays.keepPair (Stays.upd .refl) (storeImage_keeps _)
  | retainCopy => exact .of rfl

theorem applyItems_duty (items : List CopyItem) : PairStays duty s (forAll items applyItem s) :=
  Stays.refl.forAll fun _ _ h => h.trans (applyItem_duty ..)

theorem notePlaus_duty : PairStays duty s (notePlaus s) := .of rfl

end

end Sys2Proof.Proofs
end
section
/-! What passes between the two modules (R464, R466 to R478, R602 to R606). -/

namespace Sys2Proof.Proofs

set_option Elab.async false

open Machine Laws

/-! ### Samples (R464, R474) -/

section
variable {s : State} (twin : onTwin s = true)
include twin

theorem sampleNow_holder (holder : s.twn.role = 1) (held : s.base.holdOut = true) :
    FrameSent { s with twn := { s.twn with sampleA := absA s } } (sampleNow s) := by
  unfold sampleNow
  rw [if_neg (by simp [twin])]
  dsimp only
  rw [if_pos (by simp [holder, held])]
  exact sendState_spec ..

theorem sampleNow_standby (standby : s.twn.role = 2) : sampleNow s = { s with twn := { s.twn with sampleA := absA s } } := by
  unfold sampleNow
  rw [if_neg (by simp [twin])]
  dsimp only
  rw [if_neg (by simp [standby])]

end

theorem twnSample_samples {s : State} {n : Fin 1024} (fired : (fireEntry (dueCommits s) n.val 6).isSome = true)
    (sampled : hasSample (dueCommits s).live = true) :
    ∃ t, exec (.twnSample n) s = done s (sampleNow t) ∧ Keeps [.phc] (dueCommits s) t ∧ absA t = absA s := by
  obtain ⟨⟨arg, t⟩, entry⟩ := Option.isSome_iff_exists.mp fired
  have k := fireEntry_keeps entry
  refine ⟨t, ?_, k, ?_⟩
  · change execTwnSample n s = _
    unfold execTwnSample
    dsimp only
    rw [entry]
    dsimp only
    rw [if_pos (by rw [k.live_eq (by decide)]; exact sampled)]
  · rw [← dueCommits_absA s, fireEntry_state entry, absA, absA]

theorem defaultSample_samples {s : State} (clock : clockRuns (dueCommits s) = true) (none_ : hasSample (dueCommits s).live = false)
    (half : absA s % 2048 = 0) : exec .defaultSample s = done s (sampleNow (dueCommits s)) := by
  change execDefaultSample s = _
  unfold execDefaultSample
  dsimp only
  rw [if_pos (by simp [clock, none_, dueCommits_absA, half])]

theorem dueCommits_base (s : State) : (dueCommits s).base = s.base := (dueCommits_keeps s).base_eq (by decide) (by decide)

theorem onTwin_congr {s t : State} (base : t.base = s.base) : onTwin t = onTwin s := by rw [onTwin, onTwin, base]

/-! ### State frames (R468 to R473) -/

/-- A standby with a valid frame applied, before it answers. -/
def framed (s : State) (seq : Word) (half : Nat) (health : Word) (plan : Option Plan) (excess : Bool) (digest : List Nat)
    (lag : Int) (items : List CopyItem) : State :=
  updateSync (notePlaus (preload (forAll (switchFirst items) applyItem
    (steerPair (putPeer { s with twn := frameTwn s.twn seq half plan excess digest lag items } health) lag)) items))

/-- A module that got an invalid frame: poisoned, and with the miss of its sample; `ok` says whether its frames are still whole. -/
def spoiled (s : State) (ok : Bool) : State :=
  missTl { poison s 7 with
    twn := { (poison s 7).twn with frameOk := ok, tlHalf := some ((poison s 7).twn.sampleA / 2048) } }

/-- What an invalid frame bears on, and what of it stands. -/
def spoils (w : Twn) : (Nat × Nat) × Bool × Nat × List Nat := ((w.tlMissTot, w.flMiss), w.frameOk, w.role, w.peerImage)

theorem sendRally_twn (s : State) (copy back : Bool) : (sendRally s copy back).twn = s.twn := rfl

theorem sendRally_ble (s : State) (copy back : Bool) : (sendRally s copy back).ble = s.ble := rfl

/-- The plan a frame names. -/
def planOf (plan : Option (Nat × Nat)) (final : Bool) : Option Plan :=
  plan.map fun p => { at_ := p.1, cause := p.2, ring := none, req := 0, out := final }

section
variable (s : State) (ok : Bool)

theorem poison_told {bit : Nat} (h : bit < 32) : bitOf (rget (poison s bit) oIntegEvent) bit = true := by
  unfold poison
  rw [rget_raiseBoth, if_pos rfl, bitOf_or_oneBit _ _ h]

theorem spoiled_spoils :
    spoils (spoiled s ok).twn = (((s.twn.tlMissTot + 1) % 65536, s.twn.flMiss), ok, s.twn.role, s.twn.peerImage) := by
  rw [← poison_twn s 7]
  exact (congrArg spoils (missTl_duty _) :)

theorem spoiled_keeps : Keeps [.regs, .evq, .twn] s (spoiled s ok) :=
  (((poison_keeps s 7).mono (by decide)).twn (by decide)).trans (missTl_keeps _)

theorem spoiled_told : bitOf (rget (spoiled s ok) oIntegEvent) 7 = true := by
  have told : rget (spoiled s ok) oIntegEvent = rget (poison s 7) oIntegEvent := (missTl_onlyTells _).others _ (by decide)
  rw [told]
  exact poison_told s (by decide)

end

section
variable (s : State) (seq : Word) (half : Nat) (health : Word) (plan : Option Plan) (excess : Bool) (digest : List Nat)
  (lag : Int) (items : List CopyItem)

theorem framed_beyond : beyondSync (framed s seq half health plan excess digest lag items).twn =
    beyondSync { frameTwn s.twn seq half plan excess digest lag items with peer := health } := by
  let x : State := { s with twn := frameTwn s.twn seq half plan excess digest lag items }
  have steered : PairStays duty (putPeer x health) (steerPair (putPeer x health) lag) := pairStays_kept (steerPair_keeps ..)
  have applied := ((steered.trans (applyItems_duty _ (switchFirst items))).keepPair (preload_keeps _ items)).trans
    (notePlaus_duty _)
  have all := applied.beyondSync.trans (updateSync_beyond _)
  exact all.eq.trans (congrArg (fun w : Twn => { w with reason := 0, copied := false, asked := false }) (putPeer_duty x health) :)

/-- What a standby reads off the frame it has applied, beside its place in the pair. -/
theorem framed_spec : (framed s seq half health plan excess digest lag items).twn.role = s.twn.role ∧
    (framed s seq half health plan excess digest lag items).twn.tlMiss = 0 ∧
    (framed s seq half health plan excess digest lag items).twn.tlHalf = some half ∧
    (framed s seq half health plan excess digest lag items).twn.seqRx = some seq ∧
    (framed s seq half health plan excess digest lag items).twn.peerImage = digest ∧
    (framed s seq half health plan excess digest lag items).twn.peer = health := by
  have beyond := framed_beyond s seq half health plan excess digest lag items
  exact ⟨(congrArg Twn.role beyond :), (congrArg Twn.tlMiss beyond :), (congrArg Twn.tlHalf beyond :),
    (congrArg Twn.seqRx beyond :), (congrArg Twn.peerImage beyond :), (congrArg Twn.peer beyond :)⟩

theorem framed_outGrows : OutGrows s (framed s seq half health plan excess digest lag items) := by
  let x : State := { s with twn := frameTwn s.twn seq half plan excess digest lag items }
  have h0 : OutGrows s x := ⟨List.prefix_rfl⟩
  have h1 := (h0.besides (putPeer_keeps x health)).besides (steerPair_keeps _ lag)
  have h2 : OutGrows s (forAll (switchFirst items) applyItem (steerPair (putPeer x health) lag)) :=
    h1.trans (.forAll fun _ _ => outGrows_kept (applyItem_keeps ..))
  exact ((h2.trans (preload_outGrows _ items)).besides (notePlaus_keeps _)).besides (updateSync_keeps _)

theorem framed_data (k : Nat) (v : Word) :
    tget (fun _ => 0) (framed s seq half health plan excess digest lag [.data k v]).ble.data k = v := by
  unfold framed
  rw [(updateSync_keeps _).ble_eq (by decide), (notePlaus_keeps _).ble_eq (by decide), (preload_keeps ..).ble_eq (by decide)]
  exact tget_tset_same ..

/-- What a frame without items moves. -/
theorem framed_bare : Keeps [.regs, .evq, .phc, .banks, .ch, .twn, .free, .out]
    { s with twn := frameTwn s.twn seq half plan excess digest lag [] } (framed s seq half health plan excess digest lag []) :=
  (((((putPeer_keeps _ health).mono (by decide)).step (steerPair_keeps _ lag) (by decide)).step (preload_keeps _ [])
    (by decide)).step (notePlaus_keeps _) (by decide)).step (updateSync_keeps _) (by decide)

/-- Nothing a frame without items brings bears on the grant of a request (R459, R463). -/
theorem framed_grants : grants (framed s seq half health plan excess digest lag []) false = grants s false := by
  let x : State := { s with twn := frameTwn s.twn seq half plan excess digest lag [] }
  have k := framed_bare s seq half health plan excess digest lag
  have told : OnlyTells x (framed s seq half health plan excess digest lag []) :=
    ((((putPeer_onlyTells x health).trans (onlyTells_kept (steerPair_keeps _ lag))).trans
      (onlyTells_kept (preload_keeps _ []))).trans (onlyTells_kept (notePlaus_keeps _) |>.trans (updateSync_onlyTells _)))
  exact grants_congr (k.base_eq (by decide) (by decide)) (k.clk_eq (by decide))
    (congrArg Twn.leaseExp (framed_beyond s seq half health plan excess digest lag []) :) (told.others _ (by decide))

end

section
variable {s : State} {seq : Word} {ts half : Nat} {health : BitVec 16} {excess : Bool} {digest : List Nat} {lag : Int}
  (twin : onTwin s = true) (standby : s.twn.role = 2) (up : s.twn.tlUp = true)
include twin standby up

theorem stateFrameRx_follows {plan : Option (Nat × Nat)} {items : List CopyItem} :
    exec (.stateFrameRx true seq ts half health plan false excess digest lag items) s =
      done s (sendRally (framed s seq half (w32 health.toNat) (planOf plan false) excess digest lag items) false false) := by
  change execStateFrameRx true seq ts half health plan false excess digest lag items s = _
  unfold execStateFrameRx
  have role : (framed s seq half (w32 health.toNat) (planOf plan false) excess digest lag items).twn.role = 2 :=
    (congrArg Twn.role (framed_beyond ..) :).trans standby
  rw [if_neg (by simp [twin, standby, up]), if_neg (by simp)]
  unfold goodFrame
  exact congrArg (done s) (if_pos role)

theorem stateFrameRx_final {p : Nat × Nat} (granted : grants s false = true) (fit : bitOf s.twn.own 7 = false) :
    exec (.stateFrameRx true seq ts half health (some p) true excess digest lag []) s =
      done s (takeover (framed s seq half (w32 health.toNat) (planOf (some p) true) excess digest lag []) p.2 (p.1 * 4096 + 256)
        true) := by
  change execStateFrameRx true seq ts half health (some p) true excess digest lag [] s = _
  unfold execStateFrameRx
  rw [if_neg (by simp [twin, standby, up]), if_neg (by simp)]
  unfold goodFrame
  have beyond := framed_beyond s seq half (w32 health.toNat) (planOf (some p) true) excess digest lag []
  have again := (framed_grants s seq half (w32 health.toNat) (planOf (some p) true) excess digest lag).trans granted
  extract_lets +onlyGivenNames -merge -useContext _ _ _ _ x
  have plan : x.twn.plan = planOf (some p) true := (congrArg Twn.plan beyond :)
  have own : bitOf x.twn.own 7 = false := (congrArg (fun w : Twn => bitOf w.own 7) beyond :).trans fit
  have e : x = framed s seq half (w32 health.toNat) (planOf (some p) true) excess digest lag [] := rfl
  rw [← e] at again ⊢
  clear_value x
  have after := (takeover_spec x p.2 (p.1 * 4096 + 256) true).role
  simp [plan, planOf, again, own, after]

theorem stateFrameRx_bad {plan : Option (Nat × Nat)} {final : Bool} {items : List CopyItem} (other : s.twn.flMiss < 4) :
    exec (.stateFrameRx false seq ts half health plan final excess digest lag items) s =
      done s (sendRally (updateSync (spoiled s false)) false false) := by
  change execStateFrameRx false seq ts half health plan final excess digest lag items s = _
  unfold execStateFrameRx
  rw [if_neg (by simp [twin, standby, up]), if_pos (show (!false) = true from rfl)]
  unfold badFrame
  have spoil := spoiled_spoils s false
  simp only [spoils, Prod.mk.injEq] at spoil
  obtain ⟨⟨-, fl⟩, -, role, -⟩ := spoil
  have same : updateSync (declareCheck (spoiled s false)) = updateSync (spoiled s false) :=
    congrArg updateSync (declareCheck_of_rally _ (.inr (fl ▸ other)))
  have still : (updateSync (spoiled s false)).twn.role = 2 := by rw [updateSync_role, role, standby]
  change done s (if (updateSync (declareCheck (spoiled s false))).twn.role = 2
    then sendRally (updateSync (declareCheck (spoiled s false))) false false else _) = _
  rw [same, if_pos still]

end

/-- What an invalid frame leaves of a standby that answers it (R473). -/
theorem badFrame_spec (s : State) (ok copy back : Bool) :
    spoils (sendRally (updateSync (spoiled s ok)) copy back).twn =
      (((s.twn.tlMissTot + 1) % 65536, s.twn.flMiss), ok, s.twn.role, s.twn.peerImage) ∧
    Keeps [.regs, .evq, .twn, .out] s (sendRally (updateSync (spoiled s ok)) copy back) ∧
    bitOf (rget (sendRally (updateSync (spoiled s ok)) copy back) oIntegEvent) 7 = true := by
  refine ⟨?_, ?_, ?_⟩
  · have stands : PairStays spoils (spoiled s ok) (updateSync (spoiled s ok)) := (updateSync_beyond _).reading spoils
    have same : spoils (updateSync (spoiled s ok)).twn = spoils (spoiled s ok).twn := stands.eq
    rw [sendRally_twn, same, spoiled_spoils]
  · exact (((spoiled_keeps s ok).trans (updateSync_keeps _)).mono (by decide)).step (sendRally_keeps ..) (by decide)
  · rw [(sendRally_keeps ..).rget (by decide), (updateSync_onlyTells _).others _ (by decide)]
    exact spoiled_told s ok

end Sys2Proof.Proofs
end
section
/-! Rally frames, heartbeats, negotiation and full copies (R466 to R469, R473, R475, R477, R602 to R606), and with the frames of
the state what the obligation says of the pair's traffic. -/

namespace Sys2Proof.Proofs

set_option Elab.async false

open Machine Laws

/-! ### Rally frames (R473, R477) -/

/-- What a holder knows of its standby. -/
def partnerSeen (w : Twn) : (Nat × Nat) × Nat × List Nat × Word := ((w.tlMiss, w.partner), w.reason, w.peerImage, w.peer)

section
variable (s : State)

theorem sendCopy_seen (image : Bool) : PairStays partnerSeen s (sendCopy s image) := .ite (.of rfl) (.of rfl)

theorem planHandoff_seen (cause : Nat) (rg : Option Nat) : PairStays partnerSeen s ((planHandoff s cause rg).getD s) := by
  unfold planHandoff
  dsimp only
  cases nextWindow s s.phc.cycle (s.phc.cycle + if s.phc.phase = 0 then 1 else 2) with
  | none => exact .refl
  | some c => exact .of rfl

theorem planHandoff_outGrows (cause : Nat) (rg : Option Nat) : OutGrows s ((planHandoff s cause rg).getD s) := by
  cases planned : planHandoff s cause rg with
  | none => exact .refl
  | some t => exact outGrows_kept (planHandoff_keeps planned)

/-- The holder with what a rally frame says of its standby. -/
def rallied (reason : Nat) (health : Word) (digest : List Nat) : State :=
  refreshPair (putPeer { s with twn := { goodTl s.twn with
    tlHalf := some (s.twn.sampleA / 2048), partner := 2, reason := reason, peerImage := digest } } health)

theorem rallied_seen (reason : Nat) (health : Word) (digest : List Nat) :
    partnerSeen (rallied s reason health digest).twn = ((0, 2), reason, digest, health) :=
  ((refreshPair_duty _).reading partnerSeen).eq.trans (congrArg partnerSeen (putPeer_duty ..) :)

theorem goodRally_spec (pair reason : Nat) (health : Word) (copy back : Bool) (digest : List Nat) :
    partnerSeen (goodRally s pair reason health copy back digest).twn =
      ((0, 2), if pair = 4 then 0 else reason, digest, health) ∧
    (copy = true → s.out.length < (goodRally s pair reason health copy back digest).out.length) := by
  unfold goodRally
  extract_lets +onlyGivenNames -merge -useContext _ _ _ x y z
  have seen : partnerSeen x.twn = ((0, 2), if pair = 4 then 0 else reason, digest, health) := rallied_seen ..
  have silent : x.out = s.out := ((refreshPair_keeps _).out_eq (by decide)).trans ((putPeer_keeps ..).out_eq (by decide))
  have toY : PairStays partnerSeen x y := .ite (sendCopy_seen ..) .refl
  have copied (h : copy = true) : s.out.length < y.out.length := by
    rw [← silent]
    exact (congrArg (fun u : State => u.out.length) (if_pos h : y = _)).symm ▸ sendCopy_outGrows ..
  obtain ⟨toZ, more⟩ : PairStays partnerSeen y z ∧ OutGrows y z := by
    dsimp only [z]
    cases y.ble.inactive with
    | none => exact ⟨.refl, .refl⟩
    | some im => exact ⟨.ite (pairStays_kept (endLoads_keeps ..)) .refl, .ite (endLoads_outGrows ..) .refl⟩
  split
  · exact ⟨(toY.trans (toZ.trans (planHandoff_seen ..))).eq.trans seen,
      fun h => (copied h).trans_le (more.trans (planHandoff_outGrows ..)).grows.length_le⟩
  · exact ⟨(toY.trans toZ).eq.trans seen, fun h => (copied h).trans_le more.grows.length_le⟩

/-- A holder declares its standby gone, and of the registers only TWN_EVENT tells. -/
theorem declareCheck_of_holder (holder : s.twn.role = 1) :
    OnlyTells s (declareCheck s) ∧ PairStays Twn.peerImage s (declareCheck s) := by
  unfold declareCheck
  extract_lets w
  have alone : OnlyTells s { s with twn := { w with partner := 0, reason := 1 } } := OnlyTells.refl.upd
  have told := (alone.trans (twnEvent_onlyTells _ 2)).trans (onlyTells_kept (refreshPair_keeps _))
  have image : PairStays Twn.peerImage s { s with twn := { w with partner := 0, reason := 1 } } := .of rfl
  have same := (image.keepPair (twnEvent_keeps _ 2)).trans ((refreshPair_duty _).reading Twn.peerImage)
  have other : ¬ (w.role = 2 ∧ w.partner = 1 ∧ (!w.isolated) = true) := fun h => absurd (holder.symm.trans h.1) (by decide)
  rw [if_neg other]
  exact ⟨.ite .refl (.ite (told.trans (onlyTells_kept (partnerGone_keeps _))) .refl),
    .ite .refl (.ite (same.keepPair (partnerGone_keeps _)) .refl)⟩

end

/-! ### Heartbeats and negotiation (R466, R467, R475, R602 to R606) -/

section
variable (s : State)

theorem sendTo_link (q mac vid : Nat) (bytes : List Nat) :
    Stays (fun u => (u.eth.flSeq, u.eth.flRx)) s (sendTo s q mac vid bytes) :=
  Stays.refl.forAll fun _ _ h => .ite (h.trans (.of rfl)) h

theorem flSend_seq (typ q key mac : Nat) (body : List Nat) :
    (flSend s typ q key mac body).eth.flSeq =
      tset (fun _ => 0) s.eth.flSeq (256 * typ + key) (tget (fun _ => (0 : Word)) s.eth.flSeq (256 * typ + key) + 1) :=
  congrArg Prod.fst (sendTo_link ..).eq

theorem flSend_flRx (typ q key mac : Nat) (body : List Nat) : (flSend s typ q key mac body).eth.flRx = s.eth.flRx :=
  congrArg Prod.snd (sendTo_link ..).eq

/-- What a heartbeat says of the Fieldlink. -/
def flSeen (w : Twn) : Nat × Bool × Bool := (w.flMiss, w.flUp, w.isolated)

/-- What a negotiation settles. -/
def agreed (w : Twn) : Nat × Nat := (w.verUsed, w.features)

theorem notePartner_flSeen (role : Nat) : PairStays flSeen s (notePartner s role) := .ite .refl (.of rfl)

theorem notePartner_agreed (role : Nat) : PairStays agreed s (notePartner s role) := .ite .refl (.of rfl)

theorem putPeer_flSeen (h : Word) : PairStays flSeen s (putPeer s h) := .of (congrArg flSeen (putPeer_duty s h) :)

theorem acceptHeartbeat_spec (port role : Nat) (health : Word) :
    flSeen (acceptHeartbeat s port role health).twn = (0, true, false) ∧
    (acceptHeartbeat s port role health).eth = (noteHeartbeat s port).eth := by
  unfold acceptHeartbeat
  extract_lets +onlyGivenNames -merge -useContext x _ z
  have good : flSeen z.twn = (0, true, false) := (notePartner_flSeen ..).eq
  have eth : z.eth = x.eth := (notePartner_keeps ..).eth_eq (by decide)
  have h : PairStays flSeen z (updateSync (if z.twn.role = 0 then z else putPeer z health)) :=
    Stays.trans (.ite .refl (putPeer_flSeen ..)) ((updateSync_beyond _).reading flSeen)
  have k : Keeps [.regs, .evq, .twn] z (updateSync (if z.twn.role = 0 then z else putPeer z health)) :=
    (Keeps.ite (.refl _ _) (putPeer_keeps ..)).trans (updateSync_keeps _)
  exact ⟨h.eq.trans good, (k.eth_eq (by decide)).trans eth⟩

theorem noteHeartbeat_hbAt (port : Nat) : (eport (noteHeartbeat s port) port).hbAt = some s.up :=
  congrArg EPort.hbAt (tget_tset_same ..)

theorem acceptNegotiate_spec (n : Nat × Nat × BitVec 8) (role : Nat) :
    agreed (acceptNegotiate s n role).twn = (if n.1 ≤ 1 ∧ 1 ≤ n.2.1 then 1 else 0, (n.2.2 &&& Config.twinFeatures).toNat) ∧
    (acceptNegotiate s n role).eth.flRx = s.eth.flRx ∧
    (role = 0 → s.out.length < (acceptNegotiate s n role).out.length) := by
  unfold acceptNegotiate
  extract_lets +onlyGivenNames x
  have met : agreed x.twn = (if n.1 ≤ 1 ∧ 1 ≤ n.2.1 then 1 else 0, (n.2.2 &&& Config.twinFeatures).toNat) :=
    ((updateSync_beyond _).reading agreed).eq.trans (notePartner_agreed ..).eq
  have k : Keeps [.regs, .evq, .twn] s x :=
    (((meetVersion_keeps s n.1 n.2.1 n.2.2).mono (by decide)).step (notePartner_keeps _ role) (by decide)).trans (updateSync_keeps _)
  have eth : x.eth = s.eth := k.eth_eq (by decide)
  have out : x.out = s.out := k.out_eq (by decide)
  split
  · refine ⟨?_, ?_, fun _ => ?_⟩
    · rw [(sendNegotiate_keeps ..).twn_eq (by decide)]
      exact met
    · rw [← eth]
      exact flSend_flRx ..
    · rw [← out]
      unfold sendNegotiate
      rw [(flSend_keeps ..).out_eq (by decide)]
      simp [emit]
  · exact ⟨met, by rw [eth], fun h => absurd h ‹_›⟩

end

/-- The module that has taken up a frame's sequence number and the range of versions in it (R602, R604). -/
def heard (s : State) (seq : Word) (verMin verMax : Nat) : State :=
  { s with eth := { s.eth with flRx := some seq, partnerVer := if verMin ≤ 1 ∧ 1 ≤ verMax then 1 else 0 } }

theorem heard_flRx (s : State) (seq : Word) (verMin verMax : Nat) : (heard s seq verMin verMax).eth.flRx = some seq := rfl

section
variable {s : State} {port : Fin 2} {verMin verMax : Nat} {pairId : BitVec 16} {slot : Fin 4} {seq : Word}
  {neg : Option (Nat × Nat × BitVec 8)} {role : Fin 3} {health : BitVec 16}
  (valid : macValid s = true) (link : (eport s port).link = true) (up : macUp s port = true)
  (pair : pairId.toNat = rfld s oFlCtrl 15 0) (twin : onTwin s = true)
include valid link up pair twin

theorem heartbeatRx_own (own : slot.val = s.base.slot) :
    exec (.heartbeatRx port true 1 verMin verMax pairId slot seq neg role health) s = done s (raiseBoth s oEthEvent 1) := by
  change execHeartbeatRx port true 1 verMin verMax pairId slot seq neg role health s = _
  unfold execHeartbeatRx
  rw [if_neg (by simp [valid, link, up]), if_neg (by decide), if_neg (by simp [pair, twin]), if_pos own]

theorem heartbeatRx_hears (other : slot.val + s.base.slot = 3) (fresh : s.eth.flRx ≠ some seq) :
    exec (.heartbeatRx port true 1 verMin verMax pairId slot seq none role health) s =
      done s (acceptHeartbeat (heard s seq verMin verMax) port role (w32 health.toNat)) := by
  change execHeartbeatRx port true 1 verMin verMax pairId slot seq none role health s = _
  unfold execHeartbeatRx
  rw [if_neg (by simp [valid, link, up]), if_neg (by decide), if_neg (by simp [pair, twin]), if_neg (by omega),
    if_neg (by omega), if_neg fresh]
  rfl

theorem heartbeatRx_negotiates (other : slot.val + s.base.slot = 3) (fresh : s.eth.flRx ≠ some seq) {n : Nat × Nat × BitVec 8} :
    exec (.heartbeatRx port true 1 verMin verMax pairId slot seq (some n) role health) s =
      done s (acceptNegotiate (heard s seq verMin verMax) n role) := by
  change execHeartbeatRx port true 1 verMin verMax pairId slot seq (some n) role health s = _
  unfold execHeartbeatRx
  rw [if_neg (by simp [valid, link, up]), if_neg (by decide), if_neg (by simp [pair, twin]), if_neg (by omega),
    if_neg (by omega), if_neg fresh]
  rfl

end

/-! ### Full copies (R469) -/

section
variable {s : State}

/-- A standby that has lost synchronism asks for its copy anew; any other keeps what it has (R469, R472). -/
theorem updateSync_copy : ((updateSync s).twn.copied, (updateSync s).twn.asked) = (s.twn.copied, s.twn.asked) ∨
    s.twn.reason = 0 ∧ ((updateSync s).twn.copied, (updateSync s).twn.asked) = (false, false) := by
  unfold updateSync
  split
  · exact .inl rfl
  · extract_lets +onlyGivenNames -merge -useContext old _ _ x0 _ x1
    have kept : (x1.twn.copied, x1.twn.asked) = (s.twn.copied, s.twn.asked) ∨
        old = 0 ∧ (x1.twn.copied, x1.twn.asked) = (false, false) := by
      dsimp only [x1]
      split
      · rename_i lost
        exact .inr ⟨lost.2, by rw [twnEvent_twn]⟩
      · split
        · exact .inl (by rw [twnEvent_twn])
        · exact .inl rfl
    exact kept

end

section
variable {s : State} (twin : onTwin s = true) (standby : s.twn.role = 2)
include twin standby

theorem fullCopyRequest_asks (copied : s.twn.copied = false) (asked : s.twn.asked = false) (tripped : s.twn.tripped = false)
    (reason : syncReason s = 6 ∨ syncReason s = 7) :
    exec .fullCopyRequest s = done s (sendRally { s with twn := { s.twn with asked := true, during := [] } } true false) := by
  change execFullCopyRequest s = _
  unfold execFullCopyRequest
  rw [if_pos (by simpa [twin, standby, copied, asked, tripped] using reason)]

/-- The standby with its copy and what arrived meanwhile applied. -/
def withCopy (s : State) (items : List CopyItem) : State :=
  { forAll (items ++ switchFirst s.twn.during) applyItem s with
    twn := { (forAll (items ++ switchFirst s.twn.during) applyItem s).twn with
      copied := true, asked := false, frameOk := true, during := [] } }

theorem fullCopyComplete_applies (asked : s.twn.asked = true) (items : List CopyItem) :
    exec (.fullCopyComplete items) s = done s (updateSync (withCopy s items)) := by
  change execFullCopyComplete items s = _
  unfold execFullCopyComplete
  rw [if_pos (by simp [twin, standby, asked])]
  rfl

end

theorem rallyFrameRx_good {s : State} {pair : Fin 8 × Fin 16} {health : BitVec 16} {copy back : Bool} {digest : List Nat}
    (twin : onTwin s = true) (holder : s.twn.role = 1) (up : s.twn.tlUp = true) :
    exec (.rallyFrameRx true pair health copy back digest) s =
      done s (goodRally s pair.1 pair.2 (w32 health.toNat) copy back digest) := by
  change execRallyFrameRx true pair health copy back digest s = _
  unfold execRallyFrameRx
  rw [if_neg (by simp [twin, holder, up]), if_neg (by decide)]

theorem rallyFrameRx_bad {s : State} {pair : Fin 8 × Fin 16} {health : BitVec 16} {copy back : Bool} {digest : List Nat}
    (twin : onTwin s = true) (holder : s.twn.role = 1) (up : s.twn.tlUp = true) :
    exec (.rallyFrameRx false pair health copy back digest) s =
      done s (updateSync (declareCheck (spoiled s s.twn.frameOk))) := by
  change execRallyFrameRx false pair health copy back digest s = _
  unfold execRallyFrameRx
  rw [if_neg (by simp [twin, holder, up]), if_pos (show (!false) = true from rfl), ← poison_twn s 7]
  rfl

theorem badRally_spec {s : State} (holder : s.twn.role = 1) (ok : Bool) :
    (updateSync (declareCheck (spoiled s ok))).twn.tlMissTot = (s.twn.tlMissTot + 1) % 65536 ∧
    (updateSync (declareCheck (spoiled s ok))).twn.peerImage = s.twn.peerImage ∧
    bitOf (rget (updateSync (declareCheck (spoiled s ok))) oIntegEvent) 7 = true := by
  have spoil := spoiled_spoils s ok
  simp only [spoils, Prod.mk.injEq] at spoil
  obtain ⟨⟨total, -⟩, -, role, image⟩ := spoil
  obtain ⟨told, same⟩ := declareCheck_of_holder _ (role.trans holder)
  have counts : PairStays (fun w => (tallies w).1.2) (spoiled s ok) (updateSync (declareCheck (spoiled s ok))) :=
    (check_tallies _).reading fun r => r.1.2
  refine ⟨counts.eq.trans total, ?_, ?_⟩
  · exact ((same.trans ((updateSync_beyond _).reading Twn.peerImage)).eq).trans image
  · rw [(told.trans (updateSync_onlyTells _)).others _ (by decide)]
    exact spoiled_told s ok

theorem heartbeatSend_sends {s : State} (twin : onTwin s = true) (alive : s.clk.alive = true) (wait : s.clk.resetWait = none) :
    ∃ body, exec .heartbeatSend s = done s (flSend s 1 7 0 flGroup body) :=
  ⟨_, congrArg (done s) (if_pos (by simp [twin, alive, wait]))⟩

/-- Settles O19: a sample is `sampleNow`, a valid state frame is `framed` and answered, an invalid frame a miss; rally frames,
heartbeats and copies each leave a reading of the pair's bookkeeping that nothing after them moves. -/
theorem pairTrafficCommandsEffects : Obligations.PairTrafficCommandsEffects := by
  intro s
  refine ⟨?_, ?_, ?_, ?_, ?_, ?_, ?_, ?_, ?_, ?_, ?_, ?_, ?_, ?_⟩
  · intro c commits n fired sampled twin holder held
    subst commits
    obtain ⟨t, run, k, now⟩ := twnSample_samples fired sampled
    have base : t.base = s.base := (k.base_eq (by decide) (by decide)).trans (dueCommits_base s)
    have twn : t.twn = (dueCommits s).twn := k.twn_eq (by decide)
    have sent := sampleNow_holder ((onTwin_congr base).trans twin) (by rw [twn, holder]) (by rw [base, held])
    refine completes (execTwnSample_keeps ..) run ⟨?_, ?_, ?_, ?_, ?_⟩
    · rw [close_twn, sent.sample, ← now]
    · rw [close_twn, sent.next, ← twn]
    · rw [close_twn, sent.lease]
    · rw [close_ble, sent.dirty]
    · rw [close_out, sent.out, ← k.out_eq (by decide)]
  · intro c commits n fired sampled twin standby
    subst commits
    obtain ⟨t, run, k, now⟩ := twnSample_samples fired sampled
    have base : t.base = s.base := (k.base_eq (by decide) (by decide)).trans (dueCommits_base s)
    have twn : t.twn = (dueCommits s).twn := k.twn_eq (by decide)
    have noted := sampleNow_standby ((onTwin_congr base).trans twin) (by rw [twn, standby])
    refine completes (execTwnSample_keeps ..) run ⟨?_, ?_⟩
    · rw [close_twn, noted, ← now]
    · rw [close_twn, noted, ← twn]
  · intro c commits clock none_ half twin holder held
    subst commits
    have base := dueCommits_base s
    have sent := sampleNow_holder ((onTwin_congr base).trans twin) holder (by rw [base, held])
    refine completes (execDefaultSample_keeps s) (defaultSample_samples clock none_ half) ⟨?_, ?_, ?_⟩
    · rw [close_twn, sent.sample]
      exact dueCommits_absA s
    · rw [close_twn, sent.next]
    · rw [close_twn, sent.lease]
  · intro seq ts half health plan excess digest lag items twin standby up
    obtain ⟨role, run, at_, got, image, peer⟩ := framed_spec s seq half (w32 health.toNat) (planOf plan false) excess digest lag items
    refine completes (execStateFrameRx_keeps (_ts := ts) ..) (stateFrameRx_follows twin standby up) ⟨?_, ?_, ?_, ?_, ?_, ?_, ?_, ?_⟩
    · rw [close_twn, sendRally_twn, role, standby]
    · rw [close_twn, sendRally_twn, run]
    · rw [close_twn, sendRally_twn, at_]
    · rw [close_twn, sendRally_twn, got]
    · rw [close_twn, sendRally_twn, image]
    · rw [close_twn, sendRally_twn, peer]
    · have more := (framed_outGrows s seq half (w32 health.toNat) (planOf plan false) excess digest lag items).grows.length_le
      rw [close_out, sendRally, emit, List.length_append, List.length_singleton]
      omega
    · rintro k v rfl
      rw [close_ble, sendRally_ble, framed_data]
  · intro seq ts half health p excess digest lag twin standby up granted fit
    have taken := takeover_spec (framed s seq half (w32 health.toNat) (planOf (some p) true) excess digest lag []) p.2
      (p.1 * 4096 + 256) true
    have again := (framed_grants s seq half (w32 health.toNat) (planOf (some p) true) excess digest lag).trans granted
    have base := (framed_bare s seq half (w32 health.toNat) (planOf (some p) true) excess digest lag).base_eq (by decide) (by decide)
    have low := (congrArg (·.holdIn) base).trans (holdIn_of_grants granted twin)
    refine completes (execStateFrameRx_keeps (_ts := ts) ..) (stateFrameRx_final twin standby up granted fit)
      ⟨?_, taken.line s again low, ?_, ?_⟩
    · rw [close_twn, taken.role]
    · rw [close_twn, taken.cause]
    · rw [close_twn, taken.start]
  · intro seq ts half health plan final excess digest lag items twin standby up other
    obtain ⟨counts, k, told⟩ := badFrame_spec s false false false
    simp only [spoils, Prod.mk.injEq] at counts
    obtain ⟨⟨total, -⟩, whole, role, -⟩ := counts
    refine completes (execStateFrameRx_keeps (_ts := ts) ..) (stateFrameRx_bad twin standby up other) ⟨?_, ?_, ?_, ?_, ?_, ?_, ?_⟩
    · rw [close_twn, total]
    · rw [close_twn, whole]
    · rw [close_twn, role, standby]
    · rw [close_ble, k.ble_eq (by decide)]
    · rw [close_pts, k.pts_eq (by decide)]
    · rw [close_live, k.live_eq (by decide)]
    · rw [close_rget, told]
  · intro pair health copy back digest twin holder up
    obtain ⟨seen, more⟩ := goodRally_spec s pair.1 pair.2 (w32 health.toNat) copy back digest
    simp only [partnerSeen, Prod.mk.injEq] at seen
    obtain ⟨⟨run, partner⟩, reason, image, peer⟩ := seen
    refine completes (execRallyFrameRx_keeps ..) (rallyFrameRx_good twin holder up) ⟨?_, ?_, ?_, ?_, ?_, ?_⟩
    · rw [close_twn, run]
    · rw [close_twn, partner]
    · rw [close_twn, reason]
    · rw [close_twn, image]
    · rw [close_twn, peer]
    · rw [close_out]
      exact more
  · intro pair health copy back digest twin holder up
    obtain ⟨total, image, told⟩ := badRally_spec holder s.twn.frameOk
    refine completes (execRallyFrameRx_keeps ..) (rallyFrameRx_bad twin holder up) ⟨?_, ?_, ?_⟩
    · rw [close_twn, total]
    · rw [close_rget, told]
    · rw [close_twn, image]
  · intro twin alive wait
    obtain ⟨body, run⟩ := heartbeatSend_sends twin alive wait
    have counted := flSend_seq s 1 7 0 flGroup body
    simp only [Nat.mul_one, Nat.add_zero] at counted
    refine completes (execHeartbeatSend_keeps s) run ⟨?_, ?_⟩
    · rw [close_eth, counted, tget_tset_same]
    · rw [close_eth, flSend_flRx]
  · intro port verMin verMax pairId slot seq role health valid link up pair twin other fresh
    obtain ⟨seen, eth⟩ := acceptHeartbeat_spec (heard s seq verMin verMax) port role (w32 health.toNat)
    simp only [flSeen, Prod.mk.injEq] at seen
    obtain ⟨run, flUp, isolated⟩ := seen
    refine completes (execHeartbeatRx_keeps port true 1 verMin verMax pairId slot seq none role health s)
      (heartbeatRx_hears valid link up pair twin other fresh) ⟨?_, ?_, ?_, ?_, ?_⟩
    · rw [close_twn, run]
    · rw [close_twn, flUp]
    · rw [close_eth, eth]
      exact heard_flRx s seq verMin verMax
    · rw [close_twn, isolated]
    · rw [eport, close_eth, eth]
      exact noteHeartbeat_hbAt (heard s seq verMin verMax) port
  · intro port verMin verMax pairId slot seq n role health valid link up pair twin other fresh
    obtain ⟨met, rx, more⟩ := acceptNegotiate_spec (heard s seq verMin verMax) n role
    simp only [agreed, Prod.mk.injEq] at met
    obtain ⟨version, features⟩ := met
    refine completes (execHeartbeatRx_keeps port true 1 verMin verMax pairId slot seq (some n) role health s)
      (heartbeatRx_negotiates valid link up pair twin other fresh) ⟨?_, ?_, ?_, ?_⟩
    · rw [close_eth, rx, heard_flRx]
    · rw [close_twn, version]
    · rw [close_twn, features]
    · intro starting
      rw [close_out]
      exact more (congrArg Fin.val starting)
  · intro port verMin verMax pairId slot seq neg role health valid link up pair twin own
    refine completes (execHeartbeatRx_keeps port true 1 verMin verMax pairId slot seq neg role health s)
      (heartbeatRx_own valid link up pair twin own) ⟨?_, ?_⟩
    · rw [close_twn, (raiseBoth_keeps ..).twn_eq (by decide)]
    · exact Raised.close (raised_raiseBoth s oEthEvent 0 (by decide)) s
  · intro twin standby copied asked tripped reason
    exact completes (execFullCopyRequest_keeps s) (fullCopyRequest_asks twin standby copied asked tripped reason)
      ⟨close_twn .., close_out ..⟩
  · intro items twin standby asked
    have beyond := updateSync_beyond (withCopy s items)
    have reason : (withCopy s items).twn.reason = s.twn.reason :=
      ((applyItems_duty s (items ++ switchFirst s.twn.during)).reading Twn.reason).eq
    refine completes (execFullCopyComplete_keeps ..) (fullCopyComplete_applies twin standby asked items) ⟨?_, ?_, ?_, ?_⟩
    · rw [close_twn]
      rcases updateSync_copy (s := withCopy s items) with kept | ⟨-, lost⟩
      · exact congrArg Prod.snd kept
      · exact congrArg Prod.snd lost
    · rw [close_twn]
      exact (beyond.reading Twn.frameOk).eq
    · rw [close_twn]
      exact (beyond.reading Twn.during).eq
    · intro unsynced
      rw [close_twn]
      rcases updateSync_copy (s := withCopy s items) with kept | ⟨synced, -⟩
      · exact congrArg Prod.fst kept
      · exact absurd (reason.symm.trans synced) unsynced

end Sys2Proof.Proofs
end
section
/-! Self-tests, planned handoffs and takeback (R480, R481, R490 to R493). -/

namespace Sys2Proof.Proofs

set_option Elab.async false

open Machine Laws

/-! ### Self-tests (R480, R481) -/

/-- The module's own health after a result. -/
def foundHealth (s : State) (bit : Fin 7) (found : Bool) : Word := withSummary (setBit s.twn.own bit (testFails s bit found))

/-- A standby with a result entered, before its unfitness resets it. -/
structure Tested (s : State) (health : Word) (t : State) : Prop where
  role : t.twn.role = 2
  own : t.twn.own = health
  clk : t.clk = s.clk
  told : health ≠ s.twn.own → bitOf (rget t oTwnEvent) 7 = true

section
variable {s : State} (twin : onTwin s = true) (standby : s.twn.role = 2) (alive : s.clk.alive = true)
include twin standby alive

theorem selfTest_tests (bit : Fin 7) (found : Bool) (place : Fin 3) (item : Nat) : ∃ t, Tested s (foundHealth s bit found) t ∧
    exec (.selfTest bit found place item) s = done s (if bitOf t.twn.own 7 then holdReset t 5 else t) := by
  change ∃ t, _ ∧ execSelfTest bit found place item s = _
  unfold execSelfTest
  rw [if_neg (by simp [twin, standby, alive])]
  extract_lets +onlyGivenNames -merge -useContext fail x0 _ x1 h _ x2 x3
  have k0 : Keeps [.regs, .rings, .evq, .msixPend, .ble, .upd, .out] s x0 :=
    .ite (((poison_keeps s 4).mono (by decide)).step (scrubItem_keeps ..) (by decide)) (.refl _ _)
  have twn0 : x0.twn = s.twn := k0.twn_eq (by decide)
  have clk1 : x1.clk = s.clk := by
    rw [← k0.clk_eq (by decide)]
    exact ((Keeps.ite ((Keeps.refl [.twn] x0).twn (by decide)) (.refl _ _) : Keeps [.twn] x0 x1)).clk_eq (by decide)
  have own1 : x1.twn.own = s.twn.own ∧ x1.twn.role = 2 := by
    have stays : PairStays (fun w => (w.own, w.role)) x0 x1 := .ite (.of rfl) .refl
    have read := stays.eq
    simp only [Prod.mk.injEq, twn0, standby] at read
    exact read
  have health : h = foundHealth s bit found := by
    dsimp only [h, foundHealth]
    rw [own1.1]
  have entered : x2.twn.own = h ∧ x2.twn.role = 2 ∧ (h ≠ s.twn.own → bitOf (rget x2 oTwnEvent) 7 = true) := by
    dsimp only [x2]
    split
    · rename_i same
      exact ⟨same.symm, own1.2, fun changed => absurd (same.trans own1.1) changed⟩
    · rw [(healthEvent_keeps _).twn_eq (by decide)]
      exact ⟨rfl, own1.2, fun _ => healthEvent_told _⟩
  have k2 : Keeps [.regs, .evq, .twn] x1 x2 :=
    .ite (.refl _ _) (((Keeps.refl _ _).twn (by decide)).step (healthEvent_keeps _) (by decide))
  have beyond := updateSync_beyond x2
  refine ⟨x3, ⟨?_, ?_, ?_, fun changed => ?_⟩, rfl⟩
  · exact beyond.role.trans entered.2.1
  · exact ((beyond.reading Twn.own).eq.trans entered.1).trans health
  · exact ((updateSync_keeps x2).clk_eq (by decide)).trans ((k2.clk_eq (by decide)).trans clk1)
  · exact (updateSync_onlyTells x2).stays 7 (entered.2.2 (health ▸ changed))

end

theorem holdReset_role (s : State) (cause : Nat) : (holdReset s cause).twn.role = 0 := rfl

/-! ### Planned handoffs (R490 to R492) -/

section
variable (s : State)

/-- A handoff given up leaves the pair as it was without the plan. -/
theorem endPlan_duty (p : Plan) (code : Nat) : duty (endPlan s p code).twn = duty { s.twn with plan := none } := by
  unfold endPlan
  extract_lets +onlyGivenNames -merge -useContext _ x
  have h : PairStays duty { s with twn := { s.twn with plan := none } } x := refreshPair_duty _
  refine Stays.eq (f := fun u : State => duty u.twn) (s := { s with twn := { s.twn with plan := none } }) ?_
  cases p.ring with
  | some n => exact h.forAll fun _ _ g => .ite (g.keepPair (complete_keeps ..)) g
  | none => exact .ite (h.keepPair (leaveRefused_keeps _)) h

end

/-- The holder with its final frame sent and its line low. -/
def letGo (s : State) (p : Plan) : State :=
  setHold { sendState s true with twn := { (sendState s true).twn with plan := some { p with out := true } } } false
    (sendState s true).base.holdIn

theorem letGo_base (s : State) (p : Plan) : (letGo s p).base.holdOut = false := by rw [letGo, setHold_base]

/-- The holder with its line asserted again, before the handoff is given up. -/
def heldAgain (s : State) (p : Plan) : State :=
  { setHold s true false with twn := { (setHold s true false).twn with from_ := p.at_ * 4096 + 512, lease := 3 } }

theorem heldAgain_keeps (s : State) (p : Plan) : Keeps [.twn] (setHold s true false) (heldAgain s p) := by
  unfold heldAgain
  exact (Keeps.refl _ _).twn (by decide)

section
variable {s : State} {p : Plan} (plan : s.twn.plan = some p) (holder : s.twn.role = 1)
include plan holder

section
variable (twin : onTwin s = true) (ahead : p.out = false) (held : s.base.holdOut = true) (now : absA s = p.at_ * 4096)
include twin ahead held now

theorem plannedHandoffBoundary_lets (free : taskBusy s = false) :
    exec .plannedHandoffBoundary s = done s (refreshPair (canBallLost (letGo s p))) := by
  change execPlannedHandoffBoundary s = _
  unfold execPlannedHandoffBoundary
  simp only [plan]
  rw [if_pos (by simp [holder, twin, ahead, held, now]), if_neg (by simp [free])]
  rfl

theorem plannedHandoffBoundary_waits (busy : taskBusy s = true) (safety : p.cause = 4 ∨ p.cause = 5) :
    exec .plannedHandoffBoundary s =
      done s { s with twn := { s.twn with plan := some { p with at_ := p.at_ + 1 } } } := by
  change execPlannedHandoffBoundary s = _
  unfold execPlannedHandoffBoundary
  simp only [plan]
  rw [if_pos (by simp [holder, twin, ahead, held, now]), if_pos busy, postpone, if_pos safety]

end

theorem handoffFail_takes (out : p.out = true) (peer : s.base.holdIn = false) (granted : grants s false = true)
    (late : p.at_ * 4096 + 512 ≤ absA s) :
    exec .handoffFail s = done s (endPlan (twnEvent (heldAgain s p) 9) p 3) := by
  change execHandoffFail s = _
  unfold execHandoffFail
  simp only [plan]
  rw [if_pos (by simp [holder, out, peer, granted, late])]
  rfl

end

theorem takeback_asks {s : State} {a : Nat} (begun : s.twn.backAt = some a) (ready : backReady s = true)
    (plan : s.twn.plan = none) (late : a + rfld s oTwnRevert 11 0 * 1000000000 ≤ s.up) :
    exec .takeback s = done s (sendRally { s with twn := { s.twn with backAt := some s.up } } false true) := by
  change execTakeback s = _
  unfold execTakeback
  simp only [begun]
  rw [if_pos (by simp [ready, plan, late])]

/-- Settles O20: a result is entered and told and then perhaps resets (`Tested`); a handoff sends its final frame and lets the line
go, or moves one cycle on; a failed one is the line asserted again and granted, and the plan dropped. -/
theorem handoffCommandsEffects : Obligations.HandoffCommandsEffects := by
  intro s
  refine ⟨?_, ?_, ?_, ?_, ?_, ?_⟩
  · intro bit found place item twin standby alive fit
    obtain ⟨t, tested, run⟩ := selfTest_tests twin standby alive bit found place item
    have own := tested.own
    rw [if_neg (by rw [own]; exact Bool.eq_false_iff.mp fit)] at run
    refine completes (execSelfTest_keeps ..) run ⟨?_, ?_, ?_, ?_⟩
    · rw [close_twn, tested.role]
    · rw [close_clk, tested.clk]
    · rw [close_twn, own, foundHealth]
    · rw [close_twn, close_rget, own]
      exact tested.told
  · intro bit found place item twin standby alive unfit
    obtain ⟨t, tested, run⟩ := selfTest_tests twin standby alive bit found place item
    rw [if_pos (by rw [tested.own]; exact unfit)] at run
    obtain ⟨low, dead, cause, -⟩ := holdReset_spec t 5
    refine completes (execSelfTest_keeps ..) run ⟨?_, ?_, ?_, ?_⟩
    · rw [close_twn, holdReset_role]
    · rw [close_clk, dead]
    · rw [close_clk, cause]
    · rw [close_holdOut, low, Bool.false_and]
  · intro p plan holder twin ahead held now free
    have sent := sendState_spec s true
    have twn : (canBallLost (letGo s p)).twn = { (sendState s true).twn with plan := some { p with out := true } } :=
      ((canBallLost_keeps _).twn_eq (by decide)).trans (setHold_twn ..)
    have stays := refreshPair_duty (canBallLost (letGo s p))
    refine completes (execPlannedHandoffBoundary_keeps s) (plannedHandoffBoundary_lets plan holder twin ahead held now free)
      ⟨?_, ?_, ?_, ?_⟩
    · rw [close_holdOut, (refreshPair_keeps _).base_eq (by decide) (by decide),
        (canBallLost_keeps _).base_eq (by decide) (by decide), letGo_base, Bool.false_and]
    · rw [close_twn]
      exact (stays.reading Twn.plan).eq.trans (congrArg Twn.plan twn)
    · rw [close_twn]
      exact ((stays.reading Twn.seqTx).eq.trans (congrArg Twn.seqTx twn)).trans sent.next
    · rw [close_twn]
      exact ((stays.reading Twn.role).eq.trans (congrArg Twn.role twn)).trans (sent.role.trans holder)
  · intro p plan holder twin ahead held now busy safety
    have run := plannedHandoffBoundary_waits plan holder twin ahead held now busy safety
    exact completes ⟨_, run, (Keeps.refl _ _).twn (by decide)⟩ run (close_twn ..)
  · intro p plan holder out peer granted late
    let u := heldAgain s p
    have k : Keeps [.twn] (setHold s true false) u := heldAgain_keeps ..
    have low : u.base = { s.base with holdOut := true } := by
      rw [k.base_eq (by decide) (by decide), setHold_base, ← peer]
    have clk : u.clk = s.clk := (k.clk_eq (by decide)).trans ((setHold_keeps ..).clk_eq (by decide))
    have status : rget u oStartStatus = rget s oStartStatus :=
      (k.rget (by decide) _).trans ((setHold_onTerminals s true false).regs _ offTerminals_startStatus.latch)
    have ended : Keeps [.rings, .msixPend, .twn, .upd, .out] (twnEvent u 9) (endPlan (twnEvent u 9) p 3) := endPlan_keeps ..
    have base : (endPlan (twnEvent u 9) p 3).base = { s.base with holdOut := true } :=
      (ended.base_eq (by decide) (by decide)).trans ((twnEvent_base ..).trans low)
    have twn := endPlan_duty (twnEvent u 9) p 3
    rw [twnEvent_twn] at twn
    have role : u.twn.role = 1 := (congrArg Twn.role (setHold_twn s true false)).trans holder
    refine completes (execHandoffFail_keeps s) (handoffFail_takes plan holder out peer granted late) ⟨?_, ?_, ?_, ?_, ?_, ?_⟩
    · have stands : holdMay (endPlan (twnEvent u 9) p 3) = true := by
        refine holdMay_of_granted granted peer base ((ended.clk_eq (by decide)).trans ((twnEvent_clk ..).trans clk)) ?_
        rw [ended.rget (by decide), (twnEvent_onlyTells u 9).others _ (by decide), status]
      rw [close_holdOut, stands, base]
      rfl
    · rw [close_twn]
      exact (congrArg Twn.plan twn :)
    · rw [close_twn]
      exact (congrArg Twn.role twn :).trans role
    · rw [close_twn]
      exact (congrArg Twn.lease twn :)
    · rw [close_twn]
      exact (congrArg Twn.from_ twn :)
    · rw [close_rget, ended.rget (by decide)]
      exact twnEvent_told u (by decide)
  · intro a begun ready plan late
    exact completes (execTakeback_keeps s) (takeback_asks begun ready plan late) ⟨close_twn .., close_out ..⟩

end Sys2Proof.Proofs
end
